-- ==== Sys2Proof/Word.lean ====
section
/-! DEFINITION. The words of the PX-DZ512 (spec/00_scope.md R6 to R8): widths and the plainest arithmetic on them. -/
namespace Sys2Proof

/-- A scalar register, a system register, an address: 64 bits. -/
abbrev Word := BitVec 64
/-- One lane of one vector register: 32 bits (R142). -/
abbrev Lane := BitVec 32
/-- One byte of memory. -/
abbrev Byte := BitVec 8
/-- One bit per lane of a warp, bit l for lane l (R17). -/
abbrev LaneMask := BitVec 32
/-- One instruction word (R96). -/
abbrev IWord := BitVec 96

/-- The lanes of a warp in ascending order (R13, R17). -/
def laneIndices : List Nat := List.range 32

/-- ⌈a ÷ b⌉. -/
def ceilDiv (a b : Nat) : Nat := (a + b - 1) / b

/-- The greatest multiple of `b` not above `a`. -/
def alignDown (a b : Nat) : Nat := a / b * b

/-- A count that stops at `2 ^ w - 1` (the saturating fields of the register maps). -/
def satAdd (w n k : Nat) : Nat := min (n + k) (2 ^ w - 1)

end Sys2Proof
end

