-- ==== Sys2Proof/Syntax.lean ====
section
/-! DEFINITION. The instruction set as typed syntax: one constructor of `Instr` per row of spec/opcode_table.json.
Rows of the table that are no word of a program (an event of an engine, of the host or of a link) are constructors too;
their arguments are what the event carries. -/
namespace Sys2Proof

/-- Format codes (spec/04 R125, spec/08 R209 to R217). -/
inductive Fmt where
  | i32 | i64 | i16 | i8 | f32 | f64 | bf16 | f16 | e4m3 | e5m2 | e2m1 | e3m2 | e2m3 | pb | b128 | none
deriving DecidableEq, Repr

/-- Destination classes (spec/03 R98); code 0b111 is reserved and has no constructor. -/
inductive DClass where
  | vector | scalar | address | predicate | matrix | system | none
deriving DecidableEq, Repr

/-- The destination of an instruction: class, index and write-back bit (R98, R99). -/
structure Dst where
  cls : DClass
  idx : Nat
  wb  : Bool
deriving DecidableEq, Repr

/-- Destination class none, as R99 (d) writes it. -/
def Dst.noDest : Dst := ⟨.none, 0, false⟩

/-- A source field (R100). `latch k` is wk; an immediate is kept as the integer it stands for, so that an `ximm` can widen it. -/
inductive Src where
  | reg (i : Nat)
  | latch (k : Nat)
  | bcast (i : Nat)
  | imm (v : Int)
deriving DecidableEq, Repr

/-- An unused source field: kind register with value 0 (R97). -/
abbrev Src.zero : Src := .reg 0

/-- A register as R92 and R137 count it. -/
inductive Reg where
  | v (i : Nat) | s (i : Nat) | a (i : Nat) | p (i : Nat)
  /-- A system register (R195). -/
  | sys (n : Nat)
  /-- Every vector register of the window (`vmovx`, R189). -/
  | window
deriving DecidableEq, Repr

/-- The predicate field (R103): p0 to p7 and its sense. -/
structure Guard where
  p   : Nat
  neg : Bool
deriving DecidableEq, Repr

/-- The predicate field 0b0000. -/
abbrev Guard.always : Guard := ⟨0, false⟩

/-- The predicate field 0b1000, which holds in no lane (R103). -/
def Guard.never (g : Guard) : Bool := g.p == 0 && g.neg

/-- Rounding modes (R218). -/
inductive RMode where
  | rne | rz | ru | rd | rs
deriving DecidableEq, Repr

/-- Conditions of `scmp` and `icmp` (R193). -/
inductive Cond where
  | eq | ne | lt | le | gt | ge
deriving DecidableEq, Repr

/-- Conditions of `fcmp` (R234). -/
inductive FCond where
  | eq | ne | lt | le | gt | ge | un
deriving DecidableEq, Repr

/-- Conditions of `mwait` (R395). -/
inductive WCond where
  | eq | ne | ge | lt | seq | any
deriving DecidableEq, Repr

/-- Operations of `lred` and `lscan` (R243). -/
inductive ROp where
  | add | min | max | and | or | xor
deriving DecidableEq, Repr

/-- Memory orders (R104). -/
inductive Order where
  | rlx | acq | rel | acqrel | sc
deriving DecidableEq, Repr

/-- Lane terms of `ld` and `st` (R313). -/
inductive LaneMode where
  | linear | offset | index
deriving DecidableEq, Repr

/-- Fields `aset` replaces (R199). -/
inductive ASel where
  | ptr | base | lim | perm | rgn
deriving DecidableEq, Repr

/-- Fields `aget` reads (R199). -/
inductive AGetSel where
  | ptr | base | lim | perm | runlo | runhi | strm | org
deriving DecidableEq, Repr

/-- Variants of `qswap` (R246). -/
inductive QSwap where
  | h | v | d
deriving DecidableEq, Repr

/-- Variants of `lxch` (R247). -/
inductive LXch where
  | pick | rot | refl | flip
deriving DecidableEq, Repr

/-- Variants of `lpoll` (R251). -/
inductive Poll where
  | some | every | same | mask | count
deriving DecidableEq, Repr

/-- Variants of `lidx` (R253). -/
inductive LIdx where
  | lane | active | acting | rank
deriving DecidableEq, Repr

/-- What `icvt` does with a value outside the destination (R188). -/
inductive ICvtSat where
  | wrap | signed | unsigned
deriving DecidableEq, Repr

/-- The kinds of a collective (R410). -/
inductive CollKind where
  | allReduce | reduceScatter | allGather | broadcast | allToAll
deriving DecidableEq, Repr

/-- The operands of a computing instruction; `uns` is sub[3] (R112). Sources an instruction does not name are `Src.zero`. -/
structure Alu where
  g   : Guard
  d   : Dst
  fmt : Fmt
  uns : Bool
  a   : Src
  b   : Src
  c   : Src
deriving DecidableEq, Repr

/-- The operands of an address instruction (R199): source 0 is the address register `a`. -/
structure AddrOp where
  g : Guard
  d : Dst
  a : Nat
  x : Src
  y : Src
deriving DecidableEq, Repr

/-- The extension of a memory instruction (R104). -/
structure MExt where
  hint : Nat
  ord  : Order
  mask : BitVec 7
  off  : Int
deriving DecidableEq, Repr

/-- The operands of a memory instruction (R315, R371, R384): address register `a`, sources 1 and 2. -/
structure Mem where
  g   : Guard
  d   : Dst
  fmt : Fmt
  uns : Bool
  a   : Nat
  x   : Src
  y   : Src
  e   : MExt
deriving DecidableEq, Repr

/-- The operands of a barge command (R327): destination and source address registers, first scalar of the parameter block. -/
structure Copy where
  g   : Guard
  d   : Dst
  fmt : Fmt
  dst : Nat
  src : Nat
  k   : Nat
  e   : MExt
deriving DecidableEq, Repr

/-- The conversion fields (R239). -/
structure Cv where
  sat : Bool
  jd  : Nat
  js  : Nat
  sf  : Fmt
deriving DecidableEq, Repr

/-- An error in the array's arithmetic that the checksums are there to find (R265): cell (row, col) of the sums is off by `d`.
Row 64 names a row-checksum cell of column `col`, column 64 a column-checksum cell of row `row`, both 64 the corner. -/
structure Upset where
  row : Nat
  col : Nat
  d   : Int
deriving DecidableEq, Repr

/-- Where a translated address lies (R306). -/
inductive Space where
  | hbm
  | host (port : Nat)
  | peer (member : Nat)
deriving DecidableEq, Repr

/-- One translation the host IOMMU gives (R306): `va` to `va + size - 1` stands at `pa` of `space`. -/
structure Page where
  pasid : Nat
  va    : Nat
  size  : Nat
  space : Space
  pa    : Nat
  r     : Bool
  w     : Bool
  x     : Bool
  tag   : Nat
deriving DecidableEq, Repr

/-- The host's answers to a page request (R308 b). -/
inductive PrgCode where
  | success | invalid | failure
deriving DecidableEq, Repr

/-- The rings of a partition block (R520, R521, R535). -/
inductive Ring where
  | guestbook | logbook | replay | trace
deriving DecidableEq, Repr

/-- A path whose load reads its next pieces, and how many of them (R349 a). -/
structure PathRead where
  path : Nat
  n    : Nat
deriving DecidableEq, Repr

/-- A store of the queue that is performed, and the cores at which it becomes visible (R350). -/
structure StoreShow where
  n     : Nat
  cores : BitVec 512
deriving DecidableEq, Repr

/-- A barge command that moves a sector, and the cores at which its write becomes visible (R334, R350). -/
structure MoveShow where
  seq   : Nat
  cores : BitVec 512
deriving DecidableEq, Repr

/-- An answer of the host's IOMMU (R306): a range of a PASID, the translated address where it begins, what is permitted. -/
structure AtsAnswer where
  pasid : Nat
  va    : Nat
  size  : Nat
  ta    : Nat
  r     : Bool
  w     : Bool
  x     : Bool
deriving DecidableEq, Repr

/-- The packet fields the translator sets in the native launch (R50): entry, code hash, stream entry, resources, block words. -/
structure Translated where
  entry     : Nat
  codeHash  : Nat
  resources : Nat
  blockWord : Nat
deriving DecidableEq, Repr

/-- What one Canal message asks of the receiver (R435). -/
inductive CanalOp where
  | read (addr len : Nat)
  | write (addr : Nat) (data : List Byte)
  | atomic (sub : Nat) (fmt : Fmt) (addr : Nat) (operand : Nat)
deriving DecidableEq, Repr

/-- A message between checkpoint harts (R479, R483). -/
inductive CkptMsg where
  | imageWritten (interval : Nat)
  | closeStart (interval : Nat)
  | rollback
deriving DecidableEq, Repr

/-- A request outside the device that awaits an answer (R343, R376, R437, R444): of a path, of a barge command, or the n-th write that
a peer has not acknowledged. -/
inductive Outstanding where
  | path (warp path : Nat)
  | copy (block seq : Nat)
  | write (n : Nat)
  /-- The next argument block a queue's acceptance copies (R35). -/
  | arguments (part queue : Nat)
  /-- The completion stamp of a launch (R36). -/
  | stamp (launch : Nat)
  /-- A path's fetch (R301). -/
  | fetch (warp path : Nat)
  /-- The next line a block's stream fetches (R301). -/
  | stream (block : Nat)
  /-- The next operand line a block's engine reads (R258, R301). -/
  | operand (block : Nat)
  /-- The bytes at an address that the digest of a launch folds (R515). -/
  | fold (launch addr : Nat)
  /-- The bytes at an address that the engine reads for a collective of a communicator (R301). -/
  | collective (comm number addr : Nat)
deriving DecidableEq, Repr

/-- The rows of spec/opcode_table.json. -/
inductive Instr where
  -- control and system (R114, R163)
  | nop (g : Guard)
  | br (g : Guard) (o : Int)
  | bre (sense : Bool) (flag a : Nat) (o : Int)
  | mark (o : Int)
  | join
  | call (f : Nat) (o : Int)
  | callx (g : Guard) (f v : Nat)
  | ret
  | jmpx (r : Nat)
  | grow (v : Src)
  | shrink (v : Src)
  | yield (g : Guard)
  | exit (g : Guard)
  | trap (g : Guard) (n : Int)
  | eret
  | rdsys (g : Guard) (d : Dst) (n : Nat)
  | wrsys (g : Guard) (d : Dst) (a : Src)
  -- scalar integer (R191)
  | sadd (o : Alu) | ssub (o : Alu) | smul (o : Alu) | smulh (o : Alu) | smad (o : Alu)
  | sand (o : Alu) | sor (o : Alu) | sxor (o : Alu) | sandn (o : Alu)
  | sshl (o : Alu) | sshr (o : Alu) | ssar (o : Alu) | srot (o : Alu)
  | scmp (c : Cond) (o : Alu) | smov (o : Alu) | ssel (o : Alu) | sdiv (o : Alu) | srem (o : Alu)
  | spopc (o : Alu) | sclz (o : Alu) | sctz (o : Alu) | sbrev (o : Alu)
  -- address (R199)
  | aset (f : ASel) (o : AddrOp) | aadv (o : AddrOp) | abind (o : AddrOp) | aunbind (o : AddrOp)
  | aget (f : AGetSel) (o : AddrOp) | atrn (o : AddrOp)
  -- vector integer (R185)
  | iadd (o : Alu) | isub (o : Alu) | imul (o : Alu) | imad (o : Alu) | imulh (o : Alu)
  | iadds (o : Alu) | isubs (o : Alu) | imin (o : Alu) | imax (o : Alu) | iabs (o : Alu) | ineg (o : Alu)
  | icmp (c : Cond) (o : Alu) | isel (o : Alu)
  | and (o : Alu) | or (o : Alu) | xor (o : Alu) | andn (o : Alu) | orn (o : Alu) | xnor (o : Alu) | not (o : Alu)
  | lut3 (t : BitVec 8) (o : Alu)
  | shl (o : Alu) | shr (o : Alu) | sar (o : Alu) | irot (right : Bool) (o : Alu)
  | popc (o : Alu) | clz (o : Alu) | ctz (o : Alu) | brev (o : Alu)
  | bfx (o : Alu) | bfi (o : Alu) | imov (o : Alu) | vmovx (write : Bool) (o : Alu) | idot4 (o : Alu)
  | icvt (sat : ICvtSat) (sf : Fmt) (js jd : Nat) (o : Alu) | iabsd (o : Alu)
  -- floating point and conversion (R232 to R242)
  | fadd (m : RMode) (o : Alu) | fsub (m : RMode) (o : Alu) | fmul (m : RMode) (o : Alu) | ffma (m : RMode) (o : Alu)
  | fmin (o : Alu) | fmax (o : Alu) | fabs (o : Alu) | fneg (o : Alu) | fcsgn (o : Alu)
  | fcmp (c : FCond) (o : Alu) | fclass (o : Alu) | fclassFl (o : Alu) | frcp (o : Alu) | frsq (o : Alu)
  | fsqrt (m : RMode) (o : Alu) | fdiv (m : RMode) (o : Alu) | fexp2 (m : RMode) (o : Alu) | flog2 (m : RMode) (o : Alu)
  | fscale (m : RMode) (o : Alu)
  | cvt (m : RMode) (v : Cv) (o : Alu) | cvtf (m : RMode) (v : Cv) (o : Alu) | cvti (m : RMode) (v : Cv) (o : Alu)
  | frint (m : RMode) (v : Cv) (o : Alu) | cvtbs (m : RMode) (v : Cv) (o : Alu) | fdot2 (m : RMode) (v : Cv) (o : Alu)
  -- quad, lane and predicate (R243)
  | qswap (v : QSwap) (o : Alu) | qbcast (k : Nat) (o : Alu) | lxch (v : LXch) (seg : Nat) (o : Alu)
  | lbcast (first : Bool) (o : Alu) | lred (op : ROp) (m : RMode) (o : Alu) | lscan (op : ROp) (m : RMode) (o : Alu)
  | lpoll (v : Poll) (o : Alu) | pand (o : Alu) | por (o : Alu) | pxor (o : Alu) | pnot (o : Alu)
  | pmov (toScalar : Bool) (o : Alu) | lidx (v : LIdx) (o : Alu)
  -- loads, stores and streams (R315)
  | ld (m : LaneMode) (o : Mem) | st (m : LaneMode) (o : Mem) | lds (indexed : Bool) (o : Mem) | sts (indexed : Bool) (o : Mem)
  | sread (vec : Bool) (o : Mem) | lda (o : Mem) | sta (o : Mem)
  | pf (lane : Bool) (o : Mem) | wback (lane : Bool) (o : Mem) | inv (lane : Bool) (o : Mem)
  -- atomics (R371)
  | atadd (o : Mem) | atsub (o : Mem) | atmin (o : Mem) | atmax (o : Mem) | atminN (o : Mem) | atmaxN (o : Mem)
  | atand (o : Mem) | ator (o : Mem) | atxor (o : Mem) | atswp (o : Mem) | atinc (o : Mem) | atfadd (o : Mem)
  | atfaddRgn (o : Mem) | acas (o : Mem)
  -- synchronisation (R384)
  | bara (g : Guard) (b : Int) (c : Src) (e : MExt) | barw (g : Guard) (b : Int) (e : MExt)
  | bars (g : Guard) (b : Int) (c : Src) (e : MExt)
  | semwTk (o : Mem) | semwTake (o : Mem) | semp (o : Mem) | mwait (c : WCond) (o : Mem) | fence (g : Guard) (e : MExt)
  -- barges (R327)
  | cpy (o : Copy) | cpys (scatter : Bool) (o : Copy) | cpyadd (o : Copy) | cpybc (o : Copy)
  | plane (rz : Bool) (o : Copy) | unplane (rz : Bool) (o : Copy)
  | cpyq (g : Guard) (d : Dst) (q : Src) | cpycan (g : Guard) (q : Src) | cpyfill (o : Copy)
  -- matrix stream and matrix control (R273)
  | mma (walk acc : Nat) (da db ks : Int) (nk : Nat) | mzero (acc : Nat) | mstore (fmt : Fmt) (acc : Nat) (od : Int)
  | msig (b : Int) | mwaitb (b : Int) | mloop (c : Nat) (count : Int) (o : Int) | mend
  | fork (g : Guard) | mrd (g : Guard) (d : Dst) (n : Nat) | mwr (g : Guard) (n : Nat) (x : Src)
  | mtol (g : Guard) (fmt : Fmt) (x : Src) | mstat (g : Guard) (d : Dst) | mstatClr (g : Guard) (d : Dst)
  | mchk (g : Guard) (fmt : Fmt) (d : Dst) (acc : Nat) | mloc (g : Guard) (d : Dst) | mfix (g : Guard) (x : Src)
  | mretry (g : Guard) | mresume (g : Guard) | mresumeAbandon (g : Guard)
  -- collectives and views (R412, R420)
  | coll (kind : CollKind) (uns : Bool) (g : Guard) (fmt : Fmt) (d : Dst) (a : Nat) (e : MExt)
  | cwait (g : Guard) (d : Dst) (q t : Src) (e : MExt) | viewq (g : Guard) (d : Dst) (k : Int)
  | viewack (g : Guard) (d : Dst) (x : Src) | viewjoin (g : Guard) (d : Dst) (t : Src) | cabort (g : Guard) (q : Src)
  -- checkpoints, digest, debug, launch, widening (R487, R513, R516, R530, R67, R106)
  | ckpt (g : Guard) (d : Dst) | ckptWait (g : Guard) (d : Dst) | ckq (g : Guard) (d : Dst) (k : Int)
  | digest (g : Guard) (fmt : Fmt) (a : Src) (ch : Int) | detq (g : Guard) (d : Dst)
  | brk (g : Guard) (n : Int) | tmark (g : Guard) (x : Src) | rdclk (g : Guard) (d : Dst)
  | launch (d : Dst) (a : Nat) (q : Src) (e : MExt) | ximm (sel : Nat) (payload : BitVec 32)
  | unassignedOpcode (w : IWord)
  -- a path and the register pool (R89, R133 to R153)
  | lineFetch (warp path : Nat) | issueSetRotation (warp : Nat) | issueCycle (core quarter : Nat)
  | granuleGrant (core quarter : Nat) | evictedWarpReturn (core quarter : Nat) | warpEviction (core quarter : Nat)
  -- results of memory instructions and waits (R316, R350, R367, R376, R391 to R397, R421, R424)
  | loadDataReturn (warp : Nat) (a : PathRead) | storePerformed (a : StoreShow) | atomicResultReturn (warp path : Nat)
  | lockkeeperRequest (warp path : Nat) | semaphoreWatchEval (warp path : Nat) | mwaitReread (warp path : Nat)
  | mwaitTimeout (warp path : Nat) | cwaitTimeout (warp path : Nat) | viewjoinTimeout (warp path : Nat)
  -- command processors and distributor (R62 to R81, R510, R512, R527)
  | acceptPacket (part : Nat) | packetReady (launch : Nat) | placeCluster (part : Nat) | clusterAgeThreshold (launch : Nat)
  | blockRetire (block : Nat) | launchComplete (launch : Nat) | replayRingRead (part : Nat)
  -- matrix engine (R256 to R270)
  | arrayGrant (core : Nat) | mmaKstep (core : Nat) (upsets : List Upset) | intervalRetryDone (core : Nat)
  | drainRetryDone (block : Nat) | promotionHoldEnd (block tile : Nat) | streamFaultDelivery (block : Nat)
  -- barges (R308, R341, R343)
  | commandActive (block seq : Nat) | sectorMove (block : Nat) (a : MoveShow) | pageRequestRetry (block seq : Nat)
  | copyEnd (block seq : Nat)
  -- contexts and intervals (R463 to R473, R479)
  | contextStopComplete (part : Nat) | drainTimeout (part : Nat) | exchangeComplete (part : Nat)
  | sliceLineLand (part slice line : Nat) | savecostUpdate (part : Nat) | ckptPeriodExpiry (part : Nat)
  | intervalClose (part : Nat) | ckptRollbackNow (part : Nat)
  -- collectives, views and links (R403, R405, R416, R439, R442)
  | collStamp (comm k : Nat) | heartbeatSend | heartbeatTimeout (member : Nat) | proposeTimeout | acceptTimeout (member : Nat)
  | isolationRequestEnd (port : Nat) | canalRetrainTimeout (port : Nat)
  -- an ATS invalidation is over (R309), the hardware semaphore (R544)
  | invalidationCompletion (pasid va size : Nat)
  | hwsemLapse
  -- host writes to queues and registers (R57 to R66, R545)
  | queueTail (part q : Nat) (v : Word) | queueCfg (part q : Nat) (v : Word) | queueBase (part q : Nat) (v : Word)
  | queueErrctlClear (part q : Nat) (v : Word) | queueAbort (part q : Nat) (v : Word)
  | registerWrite (port off : Nat) (v : Word)
  -- answers of the translator and of the host (R50, R308)
  | asderTranslationDone (launch : Nat) (r : Option Translated) | prgResponse (block seq : Nat) (code : PrgCode)
  | pageRequestEnable
  -- translation, errors and the host ports (R301, R306, R309, R310, R363, R444)
  | atsTranslationCompletion (a : AtsAnswer) | atsInvalidation (pasid va size : Nat) (r w x resident : Bool)
  | eccUncorrectableError (key : Nat) 
  | hostCompletionError (who : Outstanding) (marked : Bool) | hostCompletionTimeout (who : Outstanding) | hostPostedWrite (port addr : Nat) (data : List Byte)
  | hostRead (port addr len : Nat)
  -- Canal (R435 to R437)
  | canalRequest (member seq : Nat) (op : CanalOp) | writeAcknowledgement (n : Nat) | crossDomainTimeout (who : Outstanding)
  -- views (R403 to R405, R424)
  | heartbeat (member : Nat) | suspect (sender view : Nat) (suspects : List Nat)
  | propose (sender view : Nat) (manifest : BitVec 1024) | accept (sender view : Nat) (committed : List (Nat × Nat))
  | refuse (sender view : Nat) (suspects : List Nat)
  | viewCommit (view : Nat) (manifest : BitVec 1024) (committed : List (Nat × Nat)) | joinMessage (member : Nat)
  | viewAdmit (v : Word) | viewRemove (v : Word)
  -- collectives (R415 to R417)
  | partialSum (comm k view attempt : Nat) (contributors : List Nat) (data : List Byte) | ready (comm k sender view : Nat)
  | collCommit (comm k view : Nat) | abort (comm k view : Nat)
  -- die-to-die and Canal links (R430 to R442)
  | flitReceive (link : Nat) (forward : Bool) (seq : Nat) (crcOk : Bool) | flitAck (link : Nat) (forward : Bool) (seq : Nat)
  | flitNak (link : Nat) (forward : Bool) (seq : Nat) | retrainComplete (link : Nat) (failedForward failedBack : BitVec 64)
  | d2dClear (link : Nat) (v : Word) | canalIsolate (port : Nat) (v : Word) | canalRestore (port : Nat) (v : Word)
  | canalPortDown (port : Nat) | canalLinkUp (port peer : Nat)
  -- contexts (R463 to R473)
  | ctxPark (part : Nat) (v : Word) | ctxSave (part : Nat) (v : Word) | ctxRestore (part : Nat) (v : Word)
  | ctxSwitch (part : Nat) (v : Word) | ctxTerminate (part : Nat) (v : Word) | ctxCreate (part : Nat) (v : Word)
  -- checkpoints (R479 to R485)
  | ckptCloseNow (part : Nat) | checkpointMessage (part : Nat) (m : CkptMsg)
  | parityBlock (part interval block : Nat) (data : List Byte) | parityAck (part interval : Nat)
  | cxlDrainDone (part interval : Nat)
  -- rings, debug and counters (R520, R521, R534, R539 to R541)
  | ringHeadWrite (part : Nat) (ring : Ring) (v : Word) | ringBaseCfgWrite (part : Nat) (ring : Ring) (cfg : Bool) (v : Word)
  | rplTail (part : Nat) (v : Word) | rplCtlEnd (part : Nat) (v : Word) | dbgHold (part : Nat) (v : Word)
  | dbgRelease (part : Nat) (v : Word) | dbgReleaseAll (part : Nat) (v : Word) | counterRead (core quarter : Nat) | frzN
  | ctlFreeze (port : Nat) (v : Word) | debugPortRead (addr len : Nat)
  -- control block and security mailbox (R544, R551 to R557)
  | hwsemRead (port : Nat) | hwsemRelease (port : Nat) | nonce | image (stage : Nat) (bytes : List Byte)
  | transfer (bytes : List Byte) | config (bytes : List Byte) | attest (nonce : List Byte) | keys | coldReset
  | thermalThrottle (level : Nat)
deriving DecidableEq, Repr

end Sys2Proof
end

