-- ==== Sys2Proof/Machine/State.lean ====
section
/-! DEFINITION. The state of one PX-DZ512: plain data, everything the spec gives the machine. Each structure cites the rules that
name its fields. Fields marked MODEL are the model's own bookkeeping (which agent acts next, what an agent has in flight). -/
namespace Sys2Proof.Machine

/-- A map from numbers, listed by rising key. -/
abbrev NMap (α : Type) := List (Nat × α)

/-- Memory: the bytes that are not zero, by rising key (a byte no one has written reads as zero, log entry 1). Keys: device HBM at
its physical address; host and CXL memory from 2^52; SRAM from 2^60, 2^21 per core; peer m from 2^64 + m * 2^52 (log entry 2). -/
abbrev Memory := List Host.Cell

/-! ### Warps and paths (spec/05, spec/06, spec/07) -/

/-- Park reasons with the codes of R457 and R533. -/
inductive ParkReason where
  | presence | recall | barrier | barrierAfterArrival | semaphore | monitor | grow | pathTable | copyQueue | collQueue
  | stream | fence | evicted | halted | debugHold
deriving DecidableEq, Repr

/-- The state field of a path-table entry (R155). -/
inductive PathState where
  | free
  | live
  | parked (r : ParkReason)
  | waitingGroup
  | heldRemainder
deriving DecidableEq, Repr

/-- The cached run of an address register (R197, R198): virtual bytes `lo` to `hi - 1`, standing from `frame` of `space` on. -/
structure Run where
  lo    : Nat
  hi    : Nat
  space : Space
  frame : Nat
deriving DecidableEq, Repr

/-- The stream state of a bound address register (R204 to R206). -/
structure Stream where
  origin : Word
  dims   : Nat
  log2   : Nat
  n      : List Nat
  t      : List Int
  i      : List Nat
  e      : BitVec 4
  done   : Bool
deriving DecidableEq, Repr

/-- An address register (R197): `perm` bits rd, wr, ex, win; strm is `stream.isSome`. -/
structure AReg where
  pointer : Word
  base    : Word
  limit   : Word
  perm    : BitVec 4
  stream  : Option Stream
  run     : Option Run
deriving DecidableEq, Repr

/-- Every field zero, no permission (R142). -/
def AReg.zero : AReg := ⟨0, 0, 0, 0, none, none⟩

/-- A place of a forwarding window by class (R140). -/
inductive Place where
  | vector (v : List Word)
  | scalar (v : Word)
  | address (pointer base limit : Word) (perm : BitVec 4)
  | predicate (m : LaneMask)
  | matrix
  | system
  | none
deriving DecidableEq, Repr

/-- A fetched line (R86, R89): its address, its five words and its line word. -/
structure Line where
  addr  : Nat
  words : List IWord
  lw    : BitVec 32
deriving DecidableEq, Repr

/-- One sector piece of an access (R304): `len` bytes from `key` of memory on; `peer` names the device it lives on when it is not
this one, `host` the port it goes through, `va` its unified or window address. -/
structure Piece where
  key  : Nat
  len  : Nat
  va   : Nat
  peer : Option Nat
  host : Option Nat
deriving DecidableEq, Repr

/-- Where a returned value goes. -/
inductive LoadShape where
  /-- `ld` and `sread.v`: each lane its own. -/
  | lanes
  /-- `lds` and `sread.u` into a scalar. -/
  | scalar
  /-- `sread.u` into a vector: one access, every acting lane. -/
  | uniform
  /-- `lda`. -/
  | address
deriving DecidableEq, Repr

/-- A load whose data has not returned (R316, R319 to R321): MODEL, the in-flight part of an issued load. -/
structure LoadReq where
  shape  : LoadShape
  d      : Dst
  fmt    : Fmt
  uns    : Bool
  acting : LaneMask
  mask   : BitVec 7
  lanes  : List (Nat × Nat × List Piece)
  ord    : Order
  /-- The pieces read so far, in the order of the lanes' pieces (R349 a): their bytes, and the poison they carry. -/
  got    : List (List Byte × Option Nat)
  /-- Devices that became unreachable while it was in flight (R312 b). -/
  lost   : List Nat
  stream : Option Nat
deriving DecidableEq, Repr

/-- The operations of a lockkeeper (R371, R373 to R375). -/
inductive AtomOp where
  | add | sub | min | max | minu | maxu | and | or | xor | swp | inc | fadd | rgn | cas
  /-- The atomic part of `semw` (R389): `take` or the fixed-count form. -/
  | semw (take : Bool)
  /-- `semp` (R390). -/
  | semp
deriving DecidableEq, Repr

/-- One lane's part of an atomic (R371 to R375): its piece, its operand and its second operand. -/
structure AtomLane where
  lane  : Nat
  piece : Piece
  x     : Word
  y     : Word
deriving DecidableEq, Repr

/-- An issued atomic or semaphore operation (R367 to R379, R389 to R392): the lanes whose requests the lockkeepers have not applied,
those applied with the value each found, the lanes found poisoned, answered by a synthesised completion, or refused by their region;
`seqs` gives each home lockkeeper's request its sequence number, once it has been sent (R369). -/
structure AtomReq where
  op     : AtomOp
  d      : Dst
  fmt    : Fmt
  ord    : Order
  mask   : BitVec 7
  acting : LaneMask
  /-- Address of the region header of `atfadd.rgn` (R375). -/
  header : Int
  todo   : List AtomLane
  done   : NMap Word
  poison : LaneMask
  gone   : LaneMask
  refused : LaneMask
  seqs   : NMap Nat
  /-- Each lane's address. -/
  aims   : NMap Nat
  /-- A `semw` that stands at its lockkeeper (R391, R392). -/
  stands : Bool
  /-- A disagreement with the log, with the lanes the log does not name (R378). -/
  diverged : Option (Nat × LaneMask)
deriving DecidableEq, Repr

/-- An entry of the replay ring that has been read and not consumed (R527): its index, the launch its ltag is bound to, its site. -/
structure ReplayEntry where
  index  : Nat
  kind   : Nat
  launch : Nat
  site   : Option Nat
  warp   : Nat
  block  : Nat
  key    : Nat
  value  : Nat
deriving DecidableEq, Repr

/-- A path waiting in `mwait` (R394 to R397): its condition, its word's address and whether its register has ex, its order and mask; `entry`
is the logged outcome that replay forces (R397). -/
structure MonitorReq where
  cond     : WCond
  acting   : LaneMask
  entry    : Option ReplayEntry
  d        : Dst
  fmt      : Fmt
  aim      : Nat
  ex       : Bool
  ord      : Order
  mask     : BitVec 7
  x        : Word
  deadline : Option Nat
deriving DecidableEq, Repr

/-- A path waiting in `cwait` for collective `q` of its block (R421), with its order and mask; `entry` as in `mwait`. -/
structure CollWait where
  q        : Nat
  d        : Dst
  acting   : LaneMask
  entry    : Option ReplayEntry
  ord      : Order
  mask     : BitVec 7
  deadline : Option Nat
deriving DecidableEq, Repr

/-- A path waiting in `viewjoin` (R424). -/
structure JoinWait where
  d        : Dst
  deadline : Option Nat
deriving DecidableEq, Repr

/-- What a path that issues no further unit waits for (R451): MODEL. `ckpt` waits for an interval to commit (R488). -/
inductive Await where
  | load (r : LoadReq)
  | atomic (r : AtomReq)
  | monitor (r : MonitorReq)
  | cwait (r : CollWait)
  | viewjoin (r : JoinWait)
  | ckpt (d : Dst) (interval : Nat)
  /-- A `grow` to a count the pool has not supplied (R150, R174). -/
  | grow (n : Nat)
deriving DecidableEq, Repr

/-- A unit that has issued and awaits its answer, with its word and prefix (R109) and the logbook entries it has reserved (R526). -/
structure Pending where
  what     : Await
  pre      : Option (Nat × BitVec 32)
  word     : IWord
  reserved : Nat
deriving DecidableEq, Repr

/-- A path-table entry (R155), with its place in the issue set (R133), its fetched line (R89) and what it awaits (R451). `last` is
none while the path has never issued, and `readyAt` the cycle in which such a path first was ready (R135); `since` is the cycle from
which it stands where it stands. `latchAt` gives the cycle from which each place of its window may be read, newest first (R137);
`pairAt` the cycle in which the first member of a pair was chosen and its second has still to issue with it (R93). -/
structure Path where
  state   : PathState
  pc      : Word
  mask    : LaneMask
  entry   : Nat
  last    : Option Nat
  readyAt : Option Nat
  window  : List (Option Place)
  latchAt : List Nat
  pairAt  : Option Nat
  inSet   : Bool
  units   : Nat
  since   : Nat
  line    : Option Line
  await   : Option Pending
  /-- The PC of a `bars` that has arrived and not yet continued (R386). -/
  arrived : Option Word
  /-- The barrier it is parked on (R386). -/
  waits   : Option Nat
  /-- Set until a path that starts at a kernel entry has had its entry checked (R91). -/
  entering : Bool
  /-- It is held before its next issue once nothing else parks it (R534). -/
  holdAsked : Bool
  /-- Its next unit meets no PC comparator from 1 on, and no comparator at 2 (R532 d, e). -/
  exempt   : Nat
deriving DecidableEq, Repr

/-- A free entry. -/
def Path.free : Path := ⟨.free, 0, 0, 0, none, none, [], [], none, false, 0, 0, none, none, none, none, false, false, 0⟩

/-- Kinds of join-stack entries (R157). -/
inductive JoinKind where
  | root | mark | call | callx
deriving DecidableEq, Repr

/-- A join-stack entry (R157). -/
structure JoinEntry where
  kind   : JoinKind
  rejoin : Word
  parent : Nat
  out    : Nat
  group  : Option Nat
  held   : Option Nat
deriving DecidableEq, Repr

/-- A return-address stack entry (R162). -/
structure RetEntry where
  pc : Word
  f  : Nat
  id : Nat
deriving DecidableEq, Repr

/-- A warp in its slot (R142 to R146, R155 to R162, R195, R221, R453, R461). -/
structure Warp where
  block     : Nat
  index     : Nat
  frameSlot : Nat
  present   : LaneMask
  helper    : LaneMask
  n         : Nat
  wbase     : Nat
  sfloor    : Nat
  /-- The allocation registers, n lists of 32 lanes (R142). -/
  v         : List (List Lane)
  s         : List Word
  a         : List AReg
  p         : List LaneMask
  /-- Per lane [4] nv, [3] dz, [2] of, [1] uf, [0] nx (R221). -/
  flags     : List (BitVec 5)
  paths     : List Path
  /-- Join-stack entries held in hardware (R161) by id, and the ids spilled, each with its parent. -/
  joins     : NMap JoinEntry
  jspilled  : NMap Nat
  /-- Ids of the open call and callx entries, the most recently opened first (R159). -/
  calls     : List Nat
  /-- Return entries held in hardware, newest first, and how many are spilled (R162). -/
  rets      : List RetEntry
  rspilled  : Nat
  /-- How many vector frames stand in the spill stack (R145, R146). -/
  fspilled  : Nat
  spill     : Word
  spilllim  : Word
  jstk      : Word
  jstklim   : Word
  rstk      : Word
  rstklim   : Word
  cause     : Word
  cdata     : Word
  lmask     : Word
  srcnt     : Word
  inHandler : Bool
  halted    : Bool
  /-- While in a handler: the trapping path's index and the paths frozen with the warp (R450, R458). -/
  trapPath  : Nat
  /-- The PC of a trapped `bars` that has arrived (R386). -/
  trapArrived : Option Word
  frozen    : List Nat
  /-- Order number of its eviction, while its allocation stands in the cellar (R150 to R153). -/
  evicted   : Option Nat
  retired   : Nat
  /-- Registers an issued unit writes, each with the cycle from which it may be read (R137). -/
  busy      : List (Reg × Nat)
  /-- Its collectives that a membership change has ended and no trap has told of (R418): how many, and the view then. -/
  memberTrap : Option (Nat × Nat)
  /-- A replayed collective ended otherwise than its log holds (R428): the index. -/
  collTrap   : Option Nat
deriving DecidableEq, Repr

/-! ### Barriers (spec/18 R383) -/

/-- A record's state (R383). -/
inductive RecState where
  | none | pending | done
deriving DecidableEq, Repr

/-- A warp's or the stream's record of a barrier, with the phase of its latest arrival (R383, R388). -/
structure BarRec where
  state : RecState
  last  : Option Nat
deriving DecidableEq, Repr

/-- A record at block start. -/
def BarRec.fresh : BarRec := ⟨.none, none⟩

/-- A barrier (R383): expected count, arrivals, phase counter, and the records of the block's warps by index (1,000 for the stream). -/
structure Barrier where
  e    : Nat
  n    : Nat
  ph   : BitVec 32
  recs : NMap BarRec
deriving DecidableEq, Repr

/-- A barrier at block start. -/
def Barrier.fresh : Barrier := ⟨0, 0, 0, []⟩

/-! ### The matrix context of a block (spec/10, spec/11) -/

/-- An operand descriptor as an `mma` read it (R274). -/
structure Operand where
  dbase  : Nat
  sbase  : Nat
  m      : Nat
  row0   : Nat
  p      : Nat
  lp     : Nat
  kcount : Nat
deriving DecidableEq, Repr

/-- An `mma` under way (R259, R265, R268, R276): intervals `g` to `last - 1` are left; of interval g, `k` k-steps have been summed into
the 4,096 cells, the checksum column and row cells and the corner. -/
structure MWork where
  tile   : Nat
  a      : Operand
  b      : Operand
  first  : Nat
  last   : Nat
  g      : Nat
  k      : Nat
  sums   : List Int
  col    : List Int
  row    : List Int
  corner : Int
  retry  : Bool
  tries  : Nat
  next   : Word
deriving DecidableEq, Repr

/-- A drain retry's walk (R268): where it stands, its loop counters, how many ends of stream it has still to pass, the `mma` it is
recomputing, its tries, and the tile. -/
structure Walk where
  tile  : Nat
  pc    : Word
  loops : List Nat
  ends  : Nat
  work  : Option MWork
  tries : Nat
deriving DecidableEq, Repr

/-- A block's running matrix stream (R261, R280, R282). -/
structure MStream where
  pc      : Word
  loops   : List Nat
  /-- Barriers named since the fork (R270). -/
  named   : List Nat
  /-- The barrier it is parked on (R279). -/
  waits   : Option Nat
  line    : Option Line
  entering : Bool
  work    : Option MWork
  drain   : Option Walk
  /-- Its `mstore` has read its output descriptor: base and pitch, and whether it has passed the drain check (R278). -/
  store   : Option (Nat × Nat × Bool)
  /-- Its `mstore` stores without a further check (R288). -/
  checked : Bool
  /-- A drain retry has recomputed its tile, with this many tries: the next check is that of the retry (R268). -/
  dtries  : Option Nat
deriving DecidableEq, Repr

/-- A stream fault that awaits delivery or handling (R268, R270): the trap, and whether a warp has taken it. -/
structure StreamStop where
  cause     : Nat
  sub       : Nat
  data      : Word
  delivered : Bool
deriving DecidableEq, Repr

/-- `mx.fault0` and `mx.fault1` (R267). -/
structure MFault where
  kind     : Nat
  tile     : Nat
  row      : Nat
  col      : Nat
  tries    : Nat
  interval : Nat
  syndrome : Word
deriving DecidableEq, Repr

/-- The matrix context and registers of a block (R263, R267). Tiles and checksum columns that are not listed are all +0. -/
structure Mx where
  policy  : Nat
  retries : Nat
  fixes   : Nat
  flags   : BitVec 4
  fault   : MFault
  stopped : Option StreamStop
  tols    : List Lane
  zaddr   : List Word
  zloops  : List (List Nat)
  /-- Forks run so far, and how many had been at each tile's latest `mzero` (R268). -/
  runs    : Nat
  zruns   : List Nat
  forker  : Nat
  /-- The parked `fork` that starts the stream next (R282): its warp's index, its path and PC. -/
  granted : Option (Nat × Nat × Word)
  tiles   : NMap (List Lane)
  sums    : NMap (List Lane)
  /-- Tiles in their promotion hold (R256). -/
  holds   : List Nat
  stream  : Option MStream
deriving DecidableEq, Repr

/-- The values at block start (R267). -/
def Mx.fresh : Mx where
  policy := 1
  retries := 0
  fixes := 0
  flags := 0
  fault := ⟨0, 0, 0, 0, 0, 0, 0⟩
  stopped := none
  tols := [0x37800000, 0x3C000000, 0x3A800000, 0x3E000000, 0x3E800000]
  zaddr := List.replicate 8 0
  zloops := List.replicate 8 [0, 0, 0]
  runs := 0
  zruns := List.replicate 8 0
  forker := 0
  granted := none
  tiles := []
  sums := []
  holds := []
  stream := none

/-- A core's matrix engine (R262 to R264): the blocks in its two banks, least recently run first, those whose bank image stands in the
cellar and in the matrix save area (with the number of the first free value its bytes hold), the block that has the array, and the block
slot served last. -/
structure Engine where
  banks  : List Nat
  cellar : List Nat
  area   : NMap Nat
  holder : Option Nat
  last   : Nat
deriving DecidableEq, Repr

/-- An engine at reset. -/
def Engine.reset : Engine := ⟨[], [], [], none, 63⟩

/-! ### The scheduler of a quarter (spec/05) -/

/-- A quarter's scheduler (R135, R136, R150): the first choice whose resources were held, the second choice that issues in the same
cycle as the first (each a warp slot and a path), the cycle from which each 32-lane half is free, and how many granules were free when
they were last offered to those that wait. -/
structure Sched where
  pick   : Option (Nat × Nat)
  second : Option (Nat × Nat)
  half0  : Nat
  half1  : Nat
  spare  : Nat
deriving DecidableEq, Repr

/-- A scheduler that has chosen nothing. -/
def Sched.reset : Sched := ⟨none, none, 0, 0, 0⟩

/-! ### Barge commands (spec/14) -/

/-- The commands of a barge (R327). -/
inductive CopyOp where
  | copy
  | gather
  | scatter
  | add (f : Fmt)
  | bcast
  | plane (rz : Bool)
  | unplane (rz : Bool) (f : Fmt)
  | fill
deriving DecidableEq, Repr

/-- A page request of a waiting command (R308): the address, whether for a write, whether it is outstanding, from which cycle it may be
sent, and whether it is for the stamp (R341). -/
structure PageReq where
  addr  : Nat
  write : Bool
  sent  : Bool
  from' : Nat
  stamp : Bool
deriving DecidableEq, Repr

/-- The states of a command (R339, R343). -/
inductive CopyState where
  | queued
  | active
  | waiting (r : PageReq)
  | ending
  | ended
deriving DecidableEq, Repr

/-- An accepted command (R328, R330, R339, R343): its operation, sequence number, producer warp, addresses, parameter words, stamp and
mask; the lines it holds (line of its address, line of memory's key); how far it has come, in bytes written and in its own units; its
retries; whether it carried poison; a cancel asked for, and in replay the byte count at which it takes effect (R346). -/
structure CopyCmd where
  op      : CopyOp
  seq     : Nat
  warp    : Nat
  dst     : Nat
  src     : Nat
  par     : List Word
  stamp   : Nat
  mask    : BitVec 7
  /-- ex of its source register (R307). -/
  ex      : Bool
  state   : CopyState
  status  : Nat
  lines   : List (Nat × Nat)
  pos     : Nat
  done    : Nat
  retries : Nat
  poisoned : Bool
  /-- A read of it has been answered with an error: its next move carries poison (R343). -/
  badRead : Bool
  cancel  : Bool
  cancelAt : Option Nat
  /-- The status it ends with once the logbook has room for its entries (R526). -/
  endWith : Option Nat
  /-- The anchor and cell count of a `cpyadd`'s region, once it has read the header (R337). -/
  region  : Option (Int × Nat)
  /-- Lines of memory's keys it has written bytes of and not given up. -/
  wrote   : List Nat
deriving DecidableEq, Repr

/-! ### Blocks, launches, partitions (spec/01, spec/02) -/

/-- A placed block (R17 to R22, R76, R77). -/
structure Block where
  launch   : Nat
  linear   : Nat
  cluster  : Nat
  rank     : Nat
  core     : Nat
  /-- Home logical slice (R79). -/
  home     : Nat
  sramBase : Nat
  sramLen  : Nat
  /-- The warp slots its warps were placed in, by warp index; `live` are those that have not ended. -/
  slots    : List Nat
  live     : List Nat
  placed   : Nat
  /-- Retired instructions (R510) and the V and G marks of R465. -/
  retired  : Nat
  wroteOut : Bool
  logged   : Bool
  /-- Logbook entries each warp has written, by warp index (R516). -/
  logCounts : NMap Nat
  /-- The sixteen barriers (R383). -/
  bars     : List Barrier
  /-- The latest copy sequence number given, and the commands kept (R330, R339). -/
  copySeq  : Nat
  copies   : NMap CopyCmd
  /-- A replay divergence of a command, owed to the producer warp (R528 LAND): the index. -/
  copyFault : Option Nat
  /-- The latest collective sequence number given, how many have not ended, and the stamps of those that have (R413, R421). -/
  collSeq   : Nat
  collOpen  : Nat
  collStamps : NMap Word
  /-- The digest accumulator A_b (R513). -/
  accum     : BitVec 256
  /-- Its cluster's place in the order of dispatch (R72, R80). -/
  turn      : Nat
  /-- The matrix context, and the block slot on the core (R262, R263). -/
  mx       : Mx
  mslot    : Option Nat
deriving DecidableEq, Repr

/-- The states of an accepted packet (R62 to R66, R512). -/
inductive LaunchState where
  | waiting | ready | dispatching | draining | done
deriving DecidableEq, Repr

/-- Where a rank is placed or held (R74, R76): its core, the first line of its SRAM run, and the rotation of its warps. -/
structure Spot where
  core : Nat
  base : Nat
  rot  : Nat
deriving DecidableEq, Repr

/-- A cluster that failed to be placed (R74, R75): since when it waits, its target group, and what is reserved for its ranks. -/
structure ClusterWait where
  since    : Nat
  target   : Nat
  reserved : List Spot
  /-- The age threshold has passed (R75). -/
  aged     : Bool
deriving DecidableEq, Repr

/-- An accepted packet (R24, R63 to R66). `words` are its 32 eight-byte words; a translated launch has the translator's values in
them (R50). -/
structure Launch where
  words    : List Word
  /-- The partition it was accepted on, which its launch id names wherever it runs (R33, R195). -/
  born     : Nat
  accept   : Nat
  state    : LaunchState
  /-- Curve or linear position of the next cluster (R72, R80). -/
  next     : Nat
  /-- Flushed clusters to place again (R465). -/
  again    : List Nat
  wait     : Option ClusterWait
  retiredBlocks : Nat
  /-- Clusters retired (R511). -/
  retiredClusters : Nat
  aborted  : Bool
  translated : Bool
  status   : Nat
  start    : Nat
  /-- Retired instructions and digest accumulator of its retired blocks (R510, R514). -/
  retired  : Nat
  accum    : BitVec 256
  record   : Option Nat
  /-- The view at the opening of its record (R518). -/
  openView : Nat
  /-- Log tag of an open logged launch (R523). -/
  ltag     : Option Nat
deriving DecidableEq, Repr

/-- The registers of one queue (R57). `aborts` are sequence numbers aborted before acceptance (R66). -/
structure Queue where
  base     : Nat
  log2     : Nat
  serial   : Bool
  devFeed  : Bool
  enable   : Bool
  tail     : Nat
  head     : Nat
  done     : Nat
  errStatus : Nat
  errSeq   : Nat
  errCount : Nat
  aborts   : List Nat
deriving DecidableEq, Repr

/-- The reset values of R57. -/
def Queue.reset : Queue := ⟨0, 0, false, false, false, 0, 0, 0, 0, 0, 0, []⟩

/-- A slice map entry (R78). -/
inductive Slice where
  | physical (core : Nat)
  | backed (frame : Nat)
deriving DecidableEq, Repr

/-- The registers of a ring (R520, R521, R535); `fin` is RPL_CTL.end or TRC_CFG.en. -/
structure RingRegs where
  base : Nat
  log2 : Nat
  tail : Nat
  head : Nat
  cmt  : Nat
  fin  : Bool
deriving DecidableEq, Repr

/-- The reset values of R520. -/
def RingRegs.reset : RingRegs := ⟨0, 0, 0, 0, 0, false⟩

/-- What names a translation (R51): the Asder hash, S and the translator's version. -/
structure CodeKey where
  hash    : Nat
  threads : Nat
  version : Nat
deriving DecidableEq, Repr

/-- A cached translation of an Asder object (R51): its key, the native values, and when it was last used. -/
structure CachedCode where
  key   : CodeKey
  value : Translated
  used  : Nat
deriving DecidableEq, Repr

/-- Where a translator block runs (R84): on the resources held for the system queue, or on an idle warp slot with 512 lines of its
core's slice from a line on. -/
inductive SysPlace where
  | held
  | slot (wid base : Nat)
deriving DecidableEq, Repr

/-- A translator launch on the system queue (R50, R61): the Asder launch it translates, its acceptance number, and where it runs. -/
structure SysJob where
  launch : Nat
  accept : Option Nat
  place  : Option SysPlace
deriving DecidableEq, Repr

/-- What a stop does with a block (R465). -/
inductive StopAction where
  | save | flush | drain
deriving DecidableEq, Repr

/-- The operations of CTX_CMD that stop or exchange (R468), and the interval close and rollback, which stop too (R479, R483). -/
inductive CtxOp where
  | park | save | switch | terminate | restore
deriving DecidableEq, Repr

/-- A context operation in progress (R463 to R470): from which cycle, the area it names, what becomes of each block, and from which
cycle the exchange runs. -/
structure CtxWork where
  op     : CtxOp
  since  : Nat
  target : Nat
  plan   : NMap StopAction
  exchange : Option Nat
deriving DecidableEq, Repr

/-- CTX_STAT, CTX_AREA, CTX_SAVECOST and the running context's area (R467, R468). -/
structure CtxRegs where
  state   : Nat
  stopcyc : Nat
  area    : Nat
  running : Nat
  work    : Option CtxWork
  dirty   : Nat
  cycles  : Nat
  /-- The cycle of the latest CTX_SAVECOST update (R473). -/
  costAt  : Nat
deriving DecidableEq, Repr

/-- The reset values of R467. -/
def CtxRegs.reset : CtxRegs := ⟨0, 0, 0, 0, none, 0, 0, 0⟩

/-- A line's old value in the undo log (R478): its address, bytes and poisoned sectors, and whether a class 2 block wrote it. -/
structure UndoLine where
  addr   : Nat
  old    : List Byte
  poison : List Nat
  delta  : Bool
deriving DecidableEq, Repr

/-- The ring counters noted at a close (R522). -/
structure RingNote where
  gbk : Nat
  log : Nat
  rpl : Nat
deriving DecidableEq, Repr

/-- The checkpoint registers and what the engine keeps for the running context (R474 to R489). `owner` numbers the context (MODEL). -/
structure Ckpt where
  owner     : Nat
  /-- CKPT_CFG and CKPT_AREA as written, and as in use since the latest close (R476). -/
  cfg       : Word
  area      : Word
  cfgNow    : Word
  areaNow   : Word
  current   : Nat
  committed : Nat
  drained   : Nat
  rollbacks : Nat
  forced    : Nat
  stripeFailed : Bool
  /-- The cycle of the latest close, and the cycle at which a requested close may start (R480). -/
  closedAt  : Nat
  wanted    : Option Nat
  /-- A close has stopped the context and waits for the other members of its group (R479). -/
  closing   : Bool
  /-- The context stands still, and its members have been told (R479 step 2). -/
  imaged    : Bool
  /-- Closed intervals that may commit once those before them have (R481). -/
  acked     : List Nat
  /-- Class 0 launches that completed in the open interval, with their status (R483 step 5). -/
  finished  : NMap Nat
  /-- Messages of the interval being closed: members that have started it, and that have written their image. -/
  started   : Nat
  written   : Nat
  /-- The open interval's undo log by line of memory's key (R478). -/
  undo      : NMap UndoLine
  /-- Entries of the log section written in the open interval. -/
  entries   : Nat
  /-- Lines logged in closed intervals that have not committed (R486). -/
  logged    : NMap (List Nat)
  /-- Delta store and CXL tier (R481, R482): lines and values at the close, by interval. -/
  deltas    : NMap (List (Nat × List Byte))
  /-- Parity blocks held for an interval by interval * 2^32 + block (R481). -/
  parity    : NMap (List Byte)
  /-- Rollbacks in the open interval (R484), and dependences from this context (R485): partitions, and other devices. -/
  rolls     : Nat
  deps      : List Nat
  remoteDep : Bool
  notes     : NMap RingNote
  /-- A rollback is due in place of a trap (R484). -/
  due       : Bool
deriving DecidableEq, Repr

/-- The reset values of R476 and the state at context creation (R469). -/
def Ckpt.reset : Ckpt where
  owner := 0
  cfg := 0
  area := 0
  cfgNow := 0
  areaNow := 0
  current := 0
  committed := 0
  drained := 0
  rollbacks := 0
  forced := 0
  stripeFailed := false
  closedAt := 0
  wanted := none
  closing := false
  imaged := false
  acked := []
  finished := []
  started := 0
  written := 0
  undo := []
  entries := 0
  logged := []
  deltas := []
  parity := []
  rolls := 0
  deps := []
  remoteDep := false
  notes := []
  due := false

/-- A comparator (R531). -/
structure Comparator where
  addr   : Word
  hits   : Nat
  action : Nat
  len    : Nat
  kind   : Nat
  enable : Bool
deriving DecidableEq, Repr

/-- The reset values of R531. -/
def Comparator.reset : Comparator := ⟨0, 0, 0, 0, 0, false⟩

/-- A saved block with its warps by index, waiting to be placed again (R472), and the cluster it runs with (R21). -/
structure SavedBlock where
  id    : Nat
  block : Block
  warps : NMap Warp
deriving DecidableEq, Repr

/-- A partition (R53 to R55) and its running context (R469). -/
structure Partition where
  groups   : BitVec 32
  pasid    : Nat
  port     : Nat
  /-- The Canal aperture, base and size, in translated addresses (R306). -/
  aperture : Nat × Nat
  queues   : NMap Queue
  /-- The system queue, first first (R53, R61). -/
  sysQueue : List SysJob
  accepted : Nat
  /-- The cycle of the latest acceptance (R62). -/
  acceptedAt : Option Nat
  lastServed : Nat
  /-- The slice map (R78): entries of kind 1 and 2. -/
  slices   : NMap Slice
  /-- The context's areas (R469). -/
  tframe   : Nat
  vtab     : Nat
  spillArea : Nat
  jstkArea : Nat
  rstkArea : Nat
  argArea  : Nat
  /-- The matrix save area (R264), 0 when none is configured. -/
  mxArea   : Nat
  /-- The translation area (R51) and its size. -/
  codeArea : Nat
  codeSize : Nat
  /-- CTX_CELLAR (R467): the area of the context parked in the cellar. -/
  cellarArea : Nat
  /-- Guestbook, logbook, replay and trace rings (R520, R521, R535). -/
  gbk      : RingRegs
  log      : RingRegs
  rpl      : RingRegs
  trc      : RingRegs
  /-- Logbook entries reserved by issued instructions and not yet written (R526). -/
  logReserved : Nat
  replayHeld : List ReplayEntry
  /-- Replay: ltag bound to a launch, and the latest SITE of an ltag (R523, R527). -/
  replayTags : NMap Nat
  replaySites : NMap Nat
  /-- CTX_STAT.halts (R467). -/
  halts    : Nat
  ctx      : CtxRegs
  /-- The acknowledged view is not the current one (R423); join permission (R424); MSI-X vector (R461). -/
  unack    : Bool
  joinOk   : Bool
  vector   : Nat
  ck       : Ckpt
  /-- Guestbook records closed, with the interval of their closing (R522). -/
  closed   : NMap Nat
  /-- The comparators (R531), TRC_CFG.en and the trace records dropped (R535, R537). -/
  comps    : List Comparator
  trcEn    : BitVec 8
  dropped  : Nat
  /-- The translation cache (R51). -/
  codes    : List CachedCode
  /-- Restored blocks to place (R472), and slice lines that have not landed by line of memory's key (R470). -/
  returning : List SavedBlock
  landing  : NMap (List Byte)
deriving DecidableEq, Repr

/-- A partition that configuration has given core groups, with no context. -/
def Partition.reset (groups : BitVec 32) : Partition where
  groups := groups
  pasid := 0
  port := 0
  aperture := (0, 0)
  queues := []
  sysQueue := []
  accepted := 0
  acceptedAt := none
  lastServed := 63
  slices := []
  tframe := 0
  vtab := 0
  spillArea := 0
  jstkArea := 0
  rstkArea := 0
  argArea := 0
  mxArea := 0
  codeArea := 0
  codeSize := 0
  cellarArea := 0
  gbk := RingRegs.reset
  log := RingRegs.reset
  rpl := RingRegs.reset
  trc := RingRegs.reset
  logReserved := 0
  replayHeld := []
  replayTags := []
  replaySites := []
  halts := 0
  ctx := CtxRegs.reset
  unack := false
  joinOk := false
  vector := 0
  ck := Ckpt.reset
  closed := []
  comps := List.replicate 8 Comparator.reset
  trcEn := 0
  dropped := 0
  codes := []
  returning := []
  landing := []

/-- A piece of a store that has been issued and not yet performed, or of a write to a peer that has not been acknowledged (R349 a, R350,
R435): its warp, block, launch and partition, the lanes whose access it is, the acting lanes of its instruction and the instruction's
number in its warp, its bytes, order and mask, and the interval it issued in (R483). -/
structure Store where
  warp    : Nat
  block   : Nat
  launch  : Nat
  part    : Nat
  /-- The command whose write it is, when no warp issued it. -/
  copy    : Option Nat
  lanes   : LaneMask
  acting  : LaneMask
  unit    : Nat
  piece   : Piece
  data    : List Byte
  ord     : Order
  mask    : BitVec 7
  interval : Nat
  /-- It completes its instruction's writing of every byte of the sector (R301). -/
  clears  : Bool
  /-- Its bytes carry poison (R301). -/
  poison  : Bool
  /-- The vector clock it carries once it has been sent (R357). -/
  clock   : List Nat
deriving DecidableEq, Repr

/-- An agent, with where it is located: at a core, on an I/O die, on another device, behind a host port (R347). -/
inductive Agent where
  /-- A lane of a warp, or the scalar pipe acting for a path. -/
  | lane (core : Nat)
  | barge (core : Nat)
  | engine (core : Nat)
  | collective
  | command
  | checkpoint
  | device (member : Nat)
  | host (port : Nat)
deriving DecidableEq, Repr

/-- A set of cores. -/
abbrev CoreMask := BitVec 512

/-- A write that has been performed and that the lanes of some cores still do not see (R350, R357): the bytes it replaced, its writer, the
cores to which it is visible, those among them that hold no older copy of its line (R350 c), the agents whose releases it precedes with
the clock it carries, and the cycle of its performance. -/
structure Shadow where
  piece    : Piece
  old      : List Byte
  writer   : Agent
  visible  : CoreMask
  fresh    : CoreMask
  released : List Agent
  clock    : List Nat
  since    : Nat
  /-- The store it performs, when it is a thread's (R542). -/
  store    : Option Store
deriving DecidableEq, Repr

/-- A line of HBM in a die's memory-side cache (R299, R322): what HBM holds for it where the line has been modified, and the hint it was
allocated with (R104). -/
structure CacheLine where
  under : Option (List Byte)
  hint  : Nat
deriving DecidableEq, Repr

/-- Sequence state of a pair of source core and home lockkeeper (R369): numbers given, the highest executed, and the results of the last
64 requests, each with whether it was poisoned. -/
structure LockPair where
  issued   : Nat
  executed : Nat
  kept     : NMap (List Byte × Bool)
deriving DecidableEq, Repr

/-- A semaphore wait of another device that stands at a lockkeeper of this one (R391, R392): the member, its request's number, the
location, whether it takes, and its operand. -/
structure PeerWait where
  member : Nat
  seq    : Nat
  key    : Nat
  take   : Bool
  x      : Nat
deriving DecidableEq, Repr

/-- Who issues in the next step (MODEL): a path of a warp or a block's matrix stream, with the prefix of its unit once that has been
read (R109). -/
inductive Focus where
  | path (wid pidx : Nat) (pre : Option (Nat × BitVec 32))
  | stream (block : Nat) (pre : Option (Nat × BitVec 32))
deriving DecidableEq, Repr

/-! ### Views and collectives (spec/19) -/

/-- A view agreement in progress at this member (R405). -/
structure Agreement where
  /-- Members this one suspects, and members that received SUSPECTs name. -/
  suspects : List Nat
  named    : List Nat
  /-- A member to be admitted. -/
  adding   : Option Nat
  /-- As leader: the manifest proposed, who has accepted, and the union of their committed lists. -/
  proposed : Option (BitVec 1024)
  accepted : List Nat
  lists    : List (Nat × Nat)
  /-- The cycle from which the 20 µs of steps 2 and 4 run. -/
  since    : Nat
deriving DecidableEq, Repr

/-- VIEW_CTL's member, admit and remove fields (R404). -/
structure ViewCtl where
  member : Nat
  toAdmit  : Bool
  toRemove : Bool
deriving DecidableEq, Repr

/-- A collective's descriptor (R409) with the fields of its instruction (R412). -/
structure CollDesc where
  kind   : CollKind
  fmt    : Fmt
  uns    : Bool
  op     : Nat
  mode   : Nat
  anchor : Int
  comm   : Nat
  root   : Nat
  count  : Nat
  src    : Nat
  dst    : Nat
  /-- Where its member set stands, and the set once the engine has read it, 0 before. -/
  msetAt : Nat
  mset   : BitVec 1024
  stamp  : Nat
  record : Nat
deriving DecidableEq, Repr

/-- This device's part in an instance (R413): the issuing launch, block and warp, its choice key, sequence number and mask, where it
reads and writes (partition, home slice, PASID, number of the context), the class of its writes, its determinism mode, and the members
of P (R415). -/
structure CollHere where
  desc : CollDesc
  lid  : Nat
  bid  : Nat
  linear : Nat
  warp : Nat
  key  : Nat
  seq  : Nat
  mask : BitVec 7
  part : Nat
  home : Nat
  pasid : Nat
  owner : Nat
  cls  : Nat
  det  : Nat
  parties : BitVec 1024
deriving DecidableEq, Repr

/-- The states of R415; `ending` has its status and awaits its stamp. -/
inductive CollState where
  | gathering | ready | committed
  | ending (status : Nat)
deriving DecidableEq, Repr

/-- An instance (R414 to R416): its attempt, the partial sums received for it with their contributors, the members READY, whether a
later view has taken it up again, and the view under which it completed. -/
structure Coll where
  here    : Option CollHere
  state   : CollState
  attempt : Nat
  parts   : List (List Nat × List Byte)
  readys  : List Nat
  again   : Bool
  view    : Nat
deriving DecidableEq, Repr

/-- An image of a context (R471), of a parked context (R468), or of a context at a close (R479): MODEL, its parts as data. Bytes,
sectors and lines of its slices go by the key they would have if logical slice l stood on core l; `colls` are the instances that stood at a close (R483 step 2). -/
structure CtxImage where
  part     : Partition
  launches : NMap Launch
  statuses : NMap Nat
  blocks   : List SavedBlock
  rot      : NMap Nat
  pairs    : NMap LockPair
  lines    : Memory
  poison   : List Nat
  writers  : NMap (Nat × Nat)
  colls    : NMap Coll
deriving DecidableEq, Repr

/-! ### Links (spec/20) -/

/-- One direction of a link (R430): the number the receiver expects, the first the sender holds unacknowledged, the next it gives. -/
structure LinkDir where
  expected : Nat
  acked    : Nat
  next     : Nat
deriving DecidableEq, Repr

/-- A link (R430 to R434): its status and counters, its two directions, the cycles of recent CRC failures, and a flit whose replay is
due (direction, number). -/
structure Link where
  state    : Nat
  width    : Nat
  spares   : Nat
  retrains : Nat
  crcfail  : Nat
  replays  : Nat
  forward  : LinkDir
  back     : LinkDir
  fails    : List Nat
  redo     : Option (Bool × Nat)
deriving DecidableEq, Repr

/-- A link whose D2D_STAT.state or CANAL_STAT.state is as given. -/
def Link.reset (state : Nat) : Link := ⟨state, 0, 0, 0, 0, 0, ⟨0, 0, 0⟩, ⟨0, 0, 0⟩, [], none⟩

/-- A Canal port (R438 to R442): its link, the device at its far end, whether it is isolated, carries only View messages, is being
isolated or restored; messages discarded; and the cycle of its latest retrain or isolation. -/
structure Port where
  link      : Link
  peer      : Nat
  isolated  : Bool
  viewOnly  : Bool
  isolate   : Bool
  restore   : Bool
  discards  : Nat
  since     : Nat
deriving DecidableEq, Repr

/-- A port with nothing connected (R441). -/
def Port.reset : Port := ⟨Link.reset 3, 0, false, false, false, false, 0, 0⟩

/-! ### Messages and held accesses -/

/-- Messages to a member of the domain (R405, R415, R435, R479, R481). -/
inductive MemberMsg where
  | heartbeat
  | suspect (view : Nat) (suspects : List Nat)
  | propose (view : Nat) (manifest : BitVec 1024)
  | accept (view : Nat) (committed : List (Nat × Nat))
  | refuse (view : Nat) (suspects : List Nat)
  | commit (view : Nat) (manifest : BitVec 1024) (committed : List (Nat × Nat))
  | join (member : Nat)
  | partialSum (comm k view attempt : Nat) (contributors : List Nat) (data : List Byte)
  | ready (comm k view : Nat)
  | collCommit (comm k view : Nat)
  | abort (comm k view : Nat)
  | completion (seq : Nat) (data : List Byte) (poison : Bool)
  | checkpoint (group : Nat) (m : CkptMsg)
  | parity (interval block : Nat) (data : List Byte)
  | parityAck (interval : Nat)
deriving DecidableEq, Repr

/-- What the device sends to an agent outside it (MODEL: kept in the order sent, newest first). -/
inductive Msg where
  /-- The partition's MSI-X vector (R461 and others), with what it signals. -/
  | msix (part : Nat) (why : String)
  /-- A page request (R308): PASID, address, whether for a write. -/
  | pageRequest (pasid addr : Nat) (write : Bool)
  /-- To one member of the domain. -/
  | member (m : Nat) (x : MemberMsg)
  /-- An ATS invalidation completion (R309). -/
  | invalidated (pasid va size : Nat)
  /-- An ATS translation request (R306): host port, PASID, address. -/
  | atsRequest (port pasid addr : Nat)
  /-- A link-layer acknowledgement or NAK with its number (R430). -/
  | flitAck (link : Nat) (forward : Bool) (seq : Nat)
  | flitNak (link : Nat) (forward : Bool) (seq : Nat)
  /-- The data of a host read (R486). -/
  | hostData (port : Nat) (data : List Byte)
  /-- A write behind a host port that carries poisoned data is sent marked poisoned (R301). -/
  | poisonedWrite (port addr len : Nat)
deriving DecidableEq, Repr

/-- An access from outside the device held at its home (R486). -/
inductive HeldAccess where
  | hostRead (port addr len : Nat)
  | hostWrite (port addr : Nat) (data : List Byte)
  | peer (member seq : Nat) (op : CanalOp)
deriving DecidableEq, Repr

/-! ### The control block and the security mailbox (spec/29) -/

/-- The control block and mailbox registers (R543, R555), and what the security hart holds outside flash. -/
structure Control where
  /-- 0 none, 1 port 0, 2 port 1; the cycle at which the hold lapses; lapses so far. -/
  owner   : Nat
  until'  : Nat
  lapses  : Nat
  boot    : Nat
  refused : Nat
  ready   : Bool
  /-- MBX_CTL.len and cmd, MBX_STAT.rlen and status, MBX_HADDR, MBX_HLEN and MBX_BUF. -/
  len     : Nat
  cmd     : Nat
  rlen    : Nat
  status  : Nat
  haddr   : Nat
  hlen    : Nat
  buf     : List Byte
  /-- The nonce that stands, and how many have been issued (R556). -/
  nonce   : Option (List Byte)
  nonces  : Nat
  /-- Reports signed so far. -/
  reports : Nat
  /-- The images that run, by boot stage (R548, R550). -/
  running : NMap (List Byte)
  /-- The version of the translator (R51). -/
  translator : Nat
deriving DecidableEq, Repr

/-- The reset values of R543 and R555. -/
def Control.reset : Control := ⟨0, 0, 0, 0, 0, false, 0, 0, 0, 0, 0, 0, List.replicate 2048 0, none, 0, 0, [], 0⟩

/-- A configuration record in force (R552, R553): its generation, whole bytes and body. -/
structure ConfRecord where
  generation : Nat
  bytes      : List Byte
  body       : List Byte
deriving DecidableEq, Repr

/-- On-package flash (R549 to R553): images by stage, the owner's keys when they are no longer those of shipment (ECDSA, LMS), which of
the two key slots is selected, and the records by kind * 2^16 + partition. -/
structure Flash where
  images  : NMap (List Byte)
  keys    : Option (List Byte × List Byte)
  slot    : Nat
  records : NMap ConfRecord
deriving DecidableEq, Repr

/-- Flash at shipment. -/
def Flash.shipped : Flash := ⟨[], none, 0, []⟩

/-- The state of the device. -/
structure State where
  cycle    : Nat
  /-- MODEL: who issues in the next step; `none` leaves the step to the agenda and the engines. -/
  focus    : Option Focus
  /-- MODEL: who has had its issue slot in this cycle: quarters, 4,096 + 2 * block for a matrix stream, and 4,097 + 2 * quarter
  where the next slot goes to a shadow reissue (R139). -/
  issued   : List Nat
  /-- MODEL: events that come from outside, in the order in which they happen. -/
  agenda   : List Instr
  /-- MODEL: the data of the latest read the host or the debug port made. -/
  hostData : List Byte
  /-- MODEL: how many free values have been drawn. -/
  drawn    : Nat
  outbox   : List Msg
  /-- MODEL: soft errors the shadow compare will find (R138, R139): lanes that differ at the first and at the second compare. -/
  upset    : LaneMask × LaneMask
  /-- MODEL: registers of the pools that hold an uncorrectable error, until an instruction reads one (R484): the warp, and the register's
  place in its allocation. -/
  poolUpset : List (Nat × Nat)
  /-- MODEL: the next line read fails a parity group at first read and passes on refetch (R90). -/
  fetchUpset : Bool
  /-- MODEL: reads and writes behind a host port that will meet an error or a poisoned completion (R301, R444), with the subcode. -/
  portFaults : List (Outstanding × Nat)
  /-- What the translator has produced for a key, which it produces again whenever it is asked (R51). -/
  natives  : List (CodeKey × Translated)
  /-- The schedulers by quarter. -/
  sched    : NMap Sched
  /-- Corrected-fetch counter per core (R90). -/
  correctedFetch : NMap Nat
  /-- Corrected-compute counter per quarter (R139). -/
  correctedCompute : NMap Nat
  mem      : Memory
  /-- Poisoned sectors, key divided by 32 (R301). -/
  poison   : List Nat
  /-- Lines, key divided by 128, whose presence bit is clear, with how many commands hold each (R297, R331). -/
  absent   : NMap Nat
  /-- Unified lines, key divided by 128, barges own, with how many commands hold each (R333). -/
  owned    : NMap Nat
  /-- The launch and block whose command last gave up a destination line, by line key (R346). -/
  lineWriters : NMap (Nat × Nat)
  /-- Whether barges may send page requests (R308), and the copy-error counter per core (R341). -/
  pageRequests : Bool
  copyErrors : NMap Nat
  /-- The base of the device's BAR2 range in translated addresses (R306). -/
  bar2     : Nat
  iommu    : List Page
  atc      : List Page
  parts    : NMap Partition
  launches : NMap Launch
  /-- Completion statuses by launch id (R34). -/
  statuses : NMap Nat
  blocks   : NMap Block
  nextBlock : Nat
  warps    : NMap Warp
  /-- Blocks placed per core since the context started (R76). -/
  rot      : NMap Nat
  stores   : List Store
  /-- Writes sent to peers whose homes have not acknowledged them (R435). -/
  unacked  : List Store
  /-- Writes that the lanes of some core do not see, the latest first (R350). -/
  hidden   : List Shadow
  /-- The vector clock of each of the ten dies (R357): compute dies 0 to 7, then the I/O dies. -/
  clocks   : List (List Nat)
  /-- The lines in the memory-side caches, by line number (R299). -/
  cache    : NMap CacheLine
  /-- Sequence state of source and home pairs, key source * 2^16 + home (R369). -/
  lockPairs : NMap LockPair
  /-- The cycle and the key of the latest request each home has executed (R367). -/
  lockLast : NMap (Nat × Nat)
  /-- Waiters of `semw.take` by location, first first: warp slot and path, or 32,768 and more for a member's request (R392). -/
  semQueues : NMap (List (Nat × Nat))
  peerWaits : List PeerWait
  /-- Matrix engines by core. -/
  engines  : NMap Engine
  viewNo   : Nat
  manifest : BitVec 1024
  self     : Nat
  /-- Peers reached only through an isolated link (R312, R438). -/
  isolatedPeers : List Nat
  /-- Members of the load-store domain (R400). -/
  domain   : BitVec 1024
  agreement : Option Agreement
  viewCtl  : ViewCtl
  /-- The cycle of each member's latest heartbeat, and of the latest one sent (R403). -/
  heard    : NMap Nat
  beatAt   : Nat
  /-- As leader: members whose rejoin requests it holds, each with the instances then outstanding (R424); whether this device's own
  request is out. -/
  joins    : NMap (List Nat)
  joining  : Bool
  /-- Collectives accepted per communicator (R414), and the instances by comm * 2^48 + k. -/
  comms    : NMap Nat
  colls    : NMap Coll
  links    : NMap Link
  ports    : NMap Port
  /-- The write-drop log (R440). -/
  dropTotal : Nat
  drops    : NMap (List Byte)
  /-- Highest request number executed per peer device and class (R436): member * 4 + class. -/
  canalSeqs : NMap Nat
  held     : List HeldAccess
  /-- ATS invalidations whose completion has not been sent (R309): PASID, address, size, whether an executable page was held. -/
  invalidations : List (Nat × Nat × Nat × Bool)
  /-- Images by the key of memory their area stands at; the cellar's by partition; those of a close by context * 2 + parity. -/
  images   : NMap CtxImage
  cellars  : NMap CtxImage
  marks    : NMap CtxImage
  /-- MODEL: contexts created so far. -/
  contexts : Nat
  /-- Slot counters by quarter, leaves 0 to 27, and the latched ones (R538, R539). Counter 0 is the cycle, and leaf 22 what the other
  leaves leave of it. -/
  slots    : NMap (List Nat)
  latched  : NMap (List Nat)
  ctl      : Control
  flash    : Flash
  /-- How far the arithmetic clock is lowered (R557). -/
  throttle : Nat
  frozen   : Bool
  /-- What froze the package (R541): trigger and partition. -/
  trigger  : Option (Nat × Nat)
deriving DecidableEq, Repr

/-- The machine after a cold reset. -/
def State.reset : State where
  cycle := 0
  focus := none
  issued := []
  agenda := []
  hostData := []
  drawn := 0
  outbox := []
  upset := (0, 0)
  poolUpset := []
  fetchUpset := false
  portFaults := []
  natives := []
  sched := []
  correctedFetch := []
  correctedCompute := []
  mem := []
  poison := []
  absent := []
  owned := []
  lineWriters := []
  pageRequests := true
  copyErrors := []
  bar2 := 2 ^ 51
  iommu := []
  atc := []
  parts := []
  launches := []
  statuses := []
  blocks := []
  nextBlock := 0
  warps := []
  rot := []
  stores := []
  unacked := []
  hidden := []
  clocks := List.replicate 10 (List.replicate 10 0)
  cache := []
  lockPairs := []
  lockLast := []
  semQueues := []
  peerWaits := []
  engines := []
  viewNo := 0
  manifest := 0
  self := 0
  isolatedPeers := []
  domain := 0
  agreement := none
  viewCtl := ⟨0, false, false⟩
  heard := []
  beatAt := 0
  joins := []
  joining := false
  comms := []
  colls := []
  links := (List.range 20).map fun k => (k, Link.reset 1)
  ports := (List.range 18).map fun p => (p, Port.reset)
  dropTotal := 0
  drops := []
  canalSeqs := []
  held := []
  invalidations := []
  images := []
  cellars := []
  marks := []
  contexts := 0
  slots := []
  latched := []
  ctl := Control.reset
  flash := Flash.shipped
  throttle := 0
  frozen := false
  trigger := none

/-- Reasons the machine stops. -/
inductive Fault where
  /-- Raised by `step` when the head of the agenda is a program word, which only a path or a stream issues. Safe: the spec has no
  such event, and every event of its table is one the agenda may hold. -/
  | notAnEvent
deriving DecidableEq, Repr

/-- Why an instruction has no meaning. -/
inductive Refusal where
  /-- Raised by the dispatcher for an instruction that has no meaning yet. Safe: nothing runs. -/
  | notModelled (mnemonic : String)
deriving DecidableEq, Repr

end Sys2Proof.Machine
end

