-- ==== Sys2Proof/Machine/Sparse.lean ====
section
/-! DEFINITION. Maps from numbers in their one form (keys strictly rising), and memory as such a list of bytes. -/
namespace Sys2Proof.Machine

/-! ### Maps -/

/-- The value at a key. -/
def NMap.get? (m : NMap α) (k : Nat) : Option α := (m.find? fun e => e.1 == k).map (·.2)

/-- The value at a key, or a default. -/
def NMap.getD (m : NMap α) (k : Nat) (d : α) : α := (m.get? k).getD d

/-- Sets the value at a key. -/
def NMap.put (m : NMap α) (k : Nat) (v : α) : NMap α :=
  match m with
  | [] => [(k, v)]
  | (k', v') :: r => if k < k' then (k, v) :: (k', v') :: r else if k = k' then (k, v) :: r else (k', v') :: NMap.put r k v

/-- Removes a key. -/
def NMap.del (m : NMap α) (k : Nat) : NMap α := m.filter fun e => e.1 != k

/-- Changes the value at a key, where there is one. -/
def NMap.adjust (m : NMap α) (k : Nat) (f : α → α) : NMap α := m.map fun e => if e.1 = k then (e.1, f e.2) else e

/-! ### Lists by index -/

/-- The element at an index, or a default. -/
def nth (l : List α) (i : Nat) (d : α) : α := (l[i]?).getD d

/-- Changes one element. -/
def modifyAt (l : List α) (i : Nat) (f : α → α) : List α := l.modify i f

/-- Puts an element before the first that it is not after. -/
def insertBy (le : α → α → Bool) (x : α) : List α → List α
  | [] => [x]
  | y :: r => if le x y then x :: y :: r else y :: insertBy le x r

/-- A list in order; equal elements keep theirs. -/
def sortBy (le : α → α → Bool) (l : List α) : List α := l.foldr (insertBy le) []

/-! ### Memory -/

/-- The byte at a key: zero where nothing is listed. -/
def Memory.byte (m : Memory) (k : Nat) : Byte := ((m.find? fun c => c.1 == k).map (·.2)).getD 0

/-- Bytes from a key on. -/
def Memory.bytes (m : Memory) (k n : Nat) : List Byte := (List.range n).map fun i => m.byte (k + i)

/-- The listed cells of a run of bytes from a key on. -/
def cellsFrom (k : Nat) : List Byte → Memory
  | [] => []
  | b :: r => if b = 0 then cellsFrom (k + 1) r else (k, b) :: cellsFrom (k + 1) r

/-- Writes a run of bytes from a key on. -/
def Memory.write (m : Memory) (k : Nat) (bs : List Byte) : Memory :=
  m.filter (fun c => c.1 < k) ++ (cellsFrom k bs ++ m.filter (fun c => k + bs.length ≤ c.1))

/-- The one form of a memory: keys strictly rising, no byte zero. -/
abbrev Memory.wf (m : Memory) : Prop := m.Pairwise (fun a b => a.1 < b.1) ∧ ∀ c ∈ m, c.2 ≠ 0

/-! ### Numbers in bytes (R7) -/

/-- A number from bytes, lowest address first. -/
def leNat (bs : List Byte) : Nat := bs.foldr (fun b n => n * 256 + b.toNat) 0

/-- `n` bytes of a number, lowest address first. -/
def leBytes : Nat → Nat → List Byte
  | 0, _ => []
  | n + 1, v => BitVec.ofNat 8 v :: leBytes n (v / 256)

/-- `n` zero bytes. -/
def zeros (n : Nat) : List Byte := List.replicate n 0

end Sys2Proof.Machine
end

