-- ==== Sys2Proof/Machine/Memory.lean ====
section
/-! DEFINITION. Memory as an access meets it (spec/12): windows, slices, translation, residency, permissions, poison, presence;
and the reads and writes of whole pieces. -/
namespace Sys2Proof.Machine

/-! ### Keys of memory -/

/-- Host and CXL memory begins here in the model's keys. -/
def hostKey (pa : Nat) : Nat := 2 ^ 52 + pa
/-- A byte of a core's SRAM slice. -/
def sramKey (core o : Nat) : Nat := 2 ^ 60 + core * 2 ^ 21 + o
/-- A byte of a peer's memory. -/
def peerKey (member pa : Nat) : Nat := 2 ^ 64 + member * 2 ^ 52 + pa

def spaceKey : Space → Nat → Nat
  | .hbm, pa => pa
  | .host _, pa => hostKey pa
  | .peer m, pa => peerKey m pa

/-- Whether a key is SRAM. -/
def isSram (k : Nat) : Bool := 2 ^ 60 ≤ k && k < 2 ^ 64
/-- Whether a key is memory of this device: SRAM and HBM. -/
def ownMemory (k : Nat) : Bool := k < 2 ^ 52 || isSram k
/-- Whether poison is held for a key (R301): in the SRAM and HBM of this device and of its peers, not behind a host port. -/
def holdsPoison (k : Nat) : Bool := ownMemory k || 2 ^ 64 ≤ k

/-! ### Windows (R291, R292) -/

inductive Window where
  | unified | localSlice | globalSlice | hole
deriving DecidableEq, Repr

/-- The region of an address. -/
def windowOf (a : Nat) : Window :=
  if a < 0x7E0000000000 then .unified
  else if a < 0x7E0000200000 then .localSlice
  else if a < 0x7F0000000000 then .hole
  else if a < 0x7F0100000000 then .globalSlice
  else .hole

/-- A refusal of an access: cause and subcode. -/
abbrev Refused := Nat × Nat

/-- Placement by first and last byte (R292). -/
def placeAccess (a len : Nat) : Except Refused Window :=
  match windowOf a with
  | .hole => .error (0x13, 1)
  | w => if windowOf (a + len - 1) = w then .ok w else .error (0x12, 0)

/-! ### Translation (R302, R303, R306, R307, R312) -/

/-- What an access is translated for: the partition and the home logical slice of its block. -/
structure Env where
  part : Nat
  home : Nat
deriving DecidableEq, Repr

/-- A translated piece with the permissions of its page; an SRAM piece has every permission. -/
structure Placed where
  piece : Piece
  r : Bool
  w : Bool
  x : Bool
deriving DecidableEq, Repr

/-- Whether a device number names a device of another domain: those follow the 1,024 members of this one (R437, log entry 2). -/
def otherDomain (m : Nat) : Bool := 1024 ≤ m

/-- Whether a peer can be reached: a member of the current view, or a device of another domain, on no isolated link (R303 subcode
0x03, R437). -/
def State.peerReachable (s : State) (m : Nat) : Bool :=
  (otherDomain m || s.manifest.getLsbD m) && !s.isolatedPeers.contains m

/-- Whether a page covers an address of a PASID. -/
def pageCovers (p : Page) (pasid a : Nat) : Bool := p.pasid == pasid && p.va ≤ a && a < p.va + p.size

/-- The translation of an address: a cached entry, else what the host's IOMMU answers (R306). A cached remote entry of another
view is not used (R312 a). -/
def State.pageOf (s : State) (pasid a : Nat) : Option Page :=
  match s.atc.find? fun p => pageCovers p pasid a && (match p.space with | .peer _ => p.tag == s.viewNo | _ => true) with
  | some p => some p
  | none => s.iommu.find? fun p => pageCovers p pasid a

/-- The start and size of the largest range about an address that a translation covers whole and aligned (R306). -/
def cachedRange (p : Page) (a : Nat) : Option (Nat × Nat) :=
  ([2 ^ 31, 2 ^ 25, 2 ^ 19].find? fun n => p.va ≤ a / n * n && a / n * n + n ≤ p.va + p.size).map fun n => (a / n * n, n)

/-- A translation's range about an address enters the die caches (R306). -/
def State.cachePage (s : State) (p : Page) (a : Nat) : State :=
  match cachedRange p a with
  | some (lo, n) =>
    let p := { p with va := lo, size := n, pa := p.pa + (lo - p.va), tag := s.viewNo }
    { s with atc := p :: s.atc.filter fun q => !(q.pasid == p.pasid && q.va < lo + n && lo < q.va + q.size) }
  | none => s

/-- The unified address behind an address: that of its frame for a slice backed by HBM (R294). -/
def State.unifiedOf (s : State) (e : Env) (a : Nat) : Nat :=
  let at' (l o : Nat) : Nat := match (s.parts.get? e.part).bind (·.slices.get? l) with
    | some (.backed f) => f * 2 ^ 21 + o
    | _ => a
  match windowOf a with
  | .localSlice => at' e.home (a - 0x7E0000000000)
  | .globalSlice => at' ((a - 0x7F0000000000) / 2 ^ 21) (a % 2 ^ 21)
  | _ => a

/-- Whether the die caches hold the translation of an address. -/
def State.atcHolds (s : State) (pasid a : Nat) : Bool :=
  s.atc.any fun p => pageCovers p pasid a && (match p.space with | .peer _ => p.tag == s.viewNo | _ => true)

/-- An access is translated: where the die caches do not hold it, a translation request leaves by the partition's host port and the answer
is cached (R306, log entry 182). -/
def State.translated (s : State) (e : Env) (addrs : List Nat) : State :=
  addrs.foldl (fun s a =>
    let a := s.unifiedOf e a
    match s.parts.get? e.part with
    | none => s
    | some pt =>
      if windowOf a ≠ .unified ∨ s.atcHolds pt.pasid a = true then s else
      match s.iommu.find? fun p => pageCovers p pt.pasid a with
      | none => s
      | some p => { s.cachePage p a with outbox := .atsRequest pt.port pt.pasid a :: s.outbox }) s

/-- One sector piece at a unified address, for a PASID (R302, R303). -/
def State.placePasid (s : State) (pasid a len va : Nat) : Except Refused Placed :=
  match s.pageOf pasid a with
  | none => .error (0x13, 0)
  | some p =>
    if p.size < 2 ^ 19 then .error (0x13, 4)
    else if !p.r && !p.w && !p.x then .error (0x13, 0)
    else
      let key := spaceKey p.space (p.pa + (a - p.va))
      match p.space with
      | .peer m =>
        if s.peerReachable m then .ok ⟨⟨key, len, va, some m, none⟩, p.r, p.w, p.x⟩ else .error (0x13, 3)
      | .host port => .ok ⟨⟨key, len, va, none, some port⟩, p.r, p.w, p.x⟩
      | .hbm => if 768 * 2 ^ 30 ≤ key then .error (0x13, 0) else .ok ⟨⟨key, len, va, none, none⟩, p.r, p.w, p.x⟩

/-- One sector piece at a unified address, for the context of a partition. -/
def State.placeUnified (s : State) (part a len va : Nat) : Except Refused Placed :=
  match s.parts.get? part with
  | none => .error (0x13, 0)
  | some pt => s.placePasid pt.pasid a len va

/-- One sector piece of a logical slice (R294). -/
def State.placeSlice (s : State) (part l o len va : Nat) : Except Refused Placed :=
  match (s.parts.get? part).bind (·.slices.get? l) with
  | some (.physical core) => .ok ⟨⟨sramKey core o, len, va, none, none⟩, true, true, true⟩
  | some (.backed frame) => s.placeUnified part (frame * 2 ^ 21 + o) len va
  | none => .error (0x13, 2)

/-- One sector piece wherever its window is (R291, R294, R295). -/
def State.placePiece (s : State) (e : Env) (a len : Nat) : Except Refused Placed :=
  match windowOf a with
  | .unified => s.placeUnified e.part a len a
  | .localSlice => s.placeSlice e.part e.home (a - 0x7E0000000000) len a
  | .globalSlice => s.placeSlice e.part ((a - 0x7F0000000000) / 2 ^ 21) (a % 2 ^ 21) len a
  | .hole => .error (0x13, 1)

/-- The sector pieces of `len` bytes from `a` on (R304). -/
def sectors (a len : Nat) : List (Nat × Nat) := go len a len
where
  go : Nat → Nat → Nat → List (Nat × Nat)
    | 0, _, _ => []
    | fuel + 1, a, len =>
      if len = 0 then [] else
        let k := min len (32 - a % 32)
        (a, k) :: go fuel (a + k) (len - k)

/-- The events of a piece (R349 a): behind a host port one for each aligned unit of 8 bytes (R305, R363). -/
def Placed.units (p : Placed) : List Placed :=
  if p.piece.host.isNone then [p] else go p.piece.len p.piece.key p.piece.va p.piece.len
where
  go : Nat → Nat → Nat → Nat → List Placed
    | 0, _, _, _ => []
    | fuel + 1, key, va, len =>
      if len = 0 then [] else
        let k := min len (8 - va % 8)
        { p with piece := { p.piece with key := key, len := k, va := va } } :: go fuel (key + k) (va + k) (len - k)

/-- Every piece of an access, or the first refusal (R294 last paragraph). -/
def State.placeAll (s : State) (e : Env) (a len : Nat) : Except Refused (List Placed) := do
  let ps ← (sectors a len).mapM fun (a, n) => s.placePiece e a n
  return ps.flatMap Placed.units

/-- Page permission (R307). `ex` is the register's ex bit. -/
def permitted (rd wr ex : Bool) (ps : List Placed) : Except Refused Unit :=
  if rd && ps.any (fun p => !(p.r || (ex && p.x))) then .error (0x11, 0x10)
  else if wr && ps.any (fun p => !p.w) then .error (0x11, 0x11)
  else .ok ()

/-- The checks of R293 for an access no address register names: a control stack, a frame, a table. -/
def State.checkPlain (s : State) (e : Env) (a len : Nat) (rd wr : Bool) : Except Refused (List Piece) := do
  let _ ← placeAccess a len
  let ps ← s.placeAll e a len
  permitted rd wr false ps
  return ps.map (·.piece)

/-! ### Poison (R301) -/

/-- Whether a piece carries poison. -/
def State.poisoned (s : State) (p : Piece) : Bool := s.poison.contains (p.key / 32) && holdsPoison p.key

/-- Marks the sector of a key. -/
def State.setPoison (s : State) (k : Nat) : State :=
  if holdsPoison k && !s.poison.contains (k / 32) then { s with poison := k / 32 :: s.poison } else s

/-- A write clears its sector's poison when it writes all of it. -/
def State.clearPoison (s : State) (p : Piece) : State :=
  if p.len = 32 then { s with poison := s.poison.filter (· != p.key / 32) } else s

/-! ### Errors behind a host port (R301, R444) -/

/-- The error that the next access of this kind behind a host port meets: the subcode of its poisoned completion. -/
def State.portFault (s : State) (who : Outstanding) : Option Nat := (s.portFaults.find? (·.1 == who)).map (·.2)

/-- That error has been met. -/
def State.faultMet (s : State) (who : Outstanding) : State := { s with portFaults := s.portFaults.eraseP (·.1 == who) }

/-! ### Presence and ownership (R297, R333) -/

/-- Whether the SRAM line of a piece has a clear presence bit. -/
def State.lineAbsent (s : State) (p : Piece) : Bool := isSram p.key && (s.absent.get? (p.key / 128)).isSome

/-- Whether a barge owns the unified line of a piece. -/
def State.lineOwned (s : State) (p : Piece) : Bool := !isSram p.key && (s.owned.get? (p.key / 128)).isSome

/-! ### Writes that not every core sees (R350) -/

/-- Whether two pieces share a byte. -/
def Piece.meets (p q : Piece) : Bool := p.key < q.key + q.len && q.key < p.key + p.len

def everyCore : CoreMask := BitVec.allOnes 512

/-- The writes that some core does not see, once these pieces are visible and fresh to some cores: an earlier write of the same bytes is
visible wherever a later one is (R351), and a write no core holds an older copy of leaves the list. -/
def settleWrites : List (Piece × CoreMask × CoreMask) → List Shadow → List Shadow
  | _, [] => []
  | later, h :: r =>
    let met := later.filter (·.1.meets h.piece)
    let fresh := met.foldl (fun m x => m ||| x.2.2) h.fresh
    let visible := met.foldl (fun m x => m ||| x.2.1) (h.visible ||| fresh)
    let rest := settleWrites ((h.piece, visible, fresh) :: later) r
    if fresh = everyCore then rest else { h with visible := visible, fresh := fresh } :: rest

/-! ### Bytes of pieces -/

def State.readPiece (s : State) (p : Piece) : List Byte := s.mem.bytes p.key p.len
def State.readPieces (s : State) (ps : List Piece) : List Byte := ps.flatMap s.readPiece

/-- The state without any write that some core does not see (R542). -/
def State.beneath (s : State) : State := { s with mem := s.hidden.foldl (fun m h => m.write h.piece.key h.old) s.mem }

/-- Puts the bytes of one piece (R304, R301); a line in a memory-side cache is modified there (R299), and HBM keeps what it holds without
the writes that are still pending (R542). -/
def State.putPiece (s : State) (p : Piece) (bs : List Byte) : State :=
  State.clearPoison { s with
    mem := s.mem.write p.key bs
    cache := s.cache.adjust (p.key / 128) fun c =>
      { c with under := c.under.or (some (s.beneath.mem.bytes (p.key / 128 * 128) 128)) } } p

/-- Writes the bytes of one piece, visible to every agent. -/
def State.writePiece (s : State) (p : Piece) (bs : List Byte) : State :=
  { s.putPiece p bs with hidden := settleWrites [(p, everyCore, everyCore)] s.hidden }

/-- Writes pieces in order. -/
def State.writePieces (s : State) (ws : List (Piece × List Byte)) : State := ws.foldl (fun s w => s.writePiece w.1 w.2) s

/-- Bytes cut into the lengths of pieces. -/
def cutBytes : List Piece → List Byte → List (Piece × List Byte)
  | [], _ => []
  | p :: r, bs => (p, bs.take p.len) :: cutBytes r (bs.drop p.len)

end Sys2Proof.Machine
end

