-- ==== Sys2Proof/Machine/Frame.lean ====
section
/-! DEFINITION. The PC (spec/03 R94, R95), the windows and registers of a warp (spec/05 R140 to R145), and the forms in which the
trap frame stores them (spec/22 R453 to R457). -/
namespace Sys2Proof.Machine

/-! ### The PC (R94, R95) -/

def pcSlot (pc : Word) : Nat := (pc.extractLsb' 0 3).toNat
/-- Line number: PC[46:6]. -/
def pcLine (pc : Word) : Nat := (pc.extractLsb' 6 41).toNat
/-- Line address. -/
def pcLineAddr (pc : Word) : Nat := pcLine pc * 64

/-- The next slot, or slot 0 of the next line. -/
def pcNext (pc : Word) : Word := if pcSlot pc = 4 then BitVec.ofNat 64 (pcLineAddr pc + 64) else pc + 1

/-- The PC `n` slots on. -/
def pcAdvance (pc : Word) : Nat → Word
  | 0 => pc
  | n + 1 => pcAdvance (pcNext pc) n

/-- Linear slot index (R95). -/
def pcLinear (pc : Word) : Nat := pcLine pc * 5 + pcSlot pc

/-- The PC of a linear slot index. -/
def pcOfLinear (i : Nat) : Word := BitVec.ofNat 64 (i / 5 * 64 + i % 5)

/-! ### Park reasons and path states in the frame (R457) -/

def ParkReason.code : ParkReason → Nat
  | .presence => 1 | .recall => 2 | .barrier => 3 | .barrierAfterArrival => 4 | .semaphore => 5 | .monitor => 6 | .grow => 7
  | .pathTable => 8 | .copyQueue => 9 | .collQueue => 10 | .stream => 11 | .fence => 12 | .evicted => 13 | .halted => 14
  | .debugHold => 15

def PathState.code : PathState → Nat
  | .free => 0 | .live => 1 | .parked _ => 2 | .waitingGroup => 3 | .heldRemainder => 4

def PathState.reason : PathState → Nat
  | .parked r => r.code
  | _ => 0

/-! ### Registers of a warp -/

/-- The window width W (R143). -/
def Warp.width (w : Warp) : Nat := min 32 w.n

/-- The lanes of vi: logical register B + i in allocation register (B + i) mod n (R144). -/
def Warp.vreg (w : Warp) (i : Nat) : List Lane := nth w.v ((w.wbase + i) % w.n) (List.replicate 32 0)

/-- One lane of a list of lanes. -/
def laneOf (l : List Lane) (i : Nat) : Lane := nth l i 0

/-- Sets lanes of vi: lane l takes `f l` where that is some. -/
def Warp.setVreg (w : Warp) (i : Nat) (f : Nat → Option Lane) : Warp :=
  { w with v := modifyAt w.v ((w.wbase + i) % w.n) fun old => laneIndices.map fun l => (f l).getD (laneOf old l) }

def Warp.sreg (w : Warp) (i : Nat) : Word := nth w.s i 0
def Warp.setSreg (w : Warp) (i : Nat) (x : Word) : Warp := { w with s := w.s.set i x }
def Warp.areg (w : Warp) (i : Nat) : AReg := nth w.a i AReg.zero
def Warp.setAreg (w : Warp) (i : Nat) (x : AReg) : Warp := { w with a := w.a.set i x }
def Warp.preg (w : Warp) (i : Nat) : LaneMask := nth w.p i 0
/-- A write to p0 is discarded (R98). -/
def Warp.setPreg (w : Warp) (i : Nat) (x : LaneMask) : Warp := if i = 0 then w else { w with p := w.p.set i x }
def Warp.path (w : Warp) (i : Nat) : Path := nth w.paths i Path.free
def Warp.setPath (w : Warp) (i : Nat) (p : Path) : Warp := { w with paths := w.paths.set i p }
/-- sys.cdepth (R162). -/
def Warp.cdepth (w : Warp) : Nat := w.rets.length + w.rspilled

/-! ### Images (R457) -/

/-- Bits [4:0] and stream bits of the word at 0x18 of an address image. -/
def AReg.permWord (a : AReg) : Nat :=
  a.perm.toNat + (match a.stream with
    | none => 0
    | some t => 16 + t.log2 * 32 + (t.dims - 1) * 256 + (if t.done then 1024 else 0) + t.e.toNat * 2048)

/-- The 32-byte address image. -/
def AReg.image (a : AReg) : List Byte :=
  leBytes 8 a.pointer.toNat ++ leBytes 8 a.base.toNat ++ leBytes 8 a.limit.toNat ++ leBytes 8 a.permWord

/-- The low `n` bytes of an integer in two's complement. -/
def leInt (n : Nat) (v : Int) : List Byte := leBytes n (v % 2 ^ (8 * n)).toNat

/-- The 72-byte stream state; zero when unbound. -/
def AReg.streamImage (a : AReg) : List Byte :=
  match a.stream with
  | none => zeros 72
  | some t => leBytes 8 t.origin.toNat ++ t.n.flatMap (leBytes 4) ++ t.i.flatMap (leBytes 4) ++ t.t.flatMap (leInt 8)

/-- Class codes of a place (R98), 0xFF where there is none. -/
def Place.code : Place → Nat
  | .vector _ => 0 | .scalar _ => 1 | .address .. => 2 | .predicate _ => 3 | .matrix => 4 | .system => 5 | .none => 6

/-- Pads bytes with zeros to a length. -/
def padTo (n : Nat) (bs : List Byte) : List Byte := bs ++ zeros (n - bs.length)

/-- The 256 bytes of a window place. -/
def Place.image : Option Place → List Byte
  | some (.vector v) => padTo 256 (v.flatMap fun x => leBytes 8 x.toNat)
  | some (.scalar v) => padTo 256 (leBytes 8 v.toNat)
  | some (.address p b l perm) => padTo 256 (AReg.image ⟨p, b, l, perm, Option.none, Option.none⟩)
  | some (.predicate m) => padTo 256 (leBytes 4 m.toNat)
  | _ => zeros 256

/-- Place wk of a path, where there is one (R102). -/
def Path.place (p : Path) (k : Nat) : Option Place := nth p.window (k - 1) none

def Path.record (p : Path) (trapping : Bool) : List Byte :=
  leBytes 8 p.pc.toNat ++ leBytes 4 p.mask.toNat ++ leBytes 2 p.entry
    ++ leBytes 1 (if trapping then 5 else p.state.code) ++ leBytes 1 p.state.reason

/-! ### The frame (R454 to R456) -/

/-- A trap: cause, subcode, cause data, lane mask. -/
structure Trap where
  cause : Nat
  sub   : Nat
  data  : Word
  lanes : LaneMask
deriving DecidableEq, Repr

/-- The trapping unit as the frame names it (R109, R455): its word, and payload and selector under a prefix. -/
structure Unit' where
  word : IWord
  pre  : Option (Nat × BitVec 32)
deriving DecidableEq, Repr

/-- The info word (R456). -/
def infoWord (t : Trap) (pidx : Nat) (u : Unit') : Nat :=
  t.cause + t.sub * 256 + (match u.pre with | some (sel, _) => 65536 + sel * 131072 | none => 0) + pidx * 1048576

/-- The control area up to the halt fields (R455). -/
def controlArea (w : Warp) (p : Path) (pidx : Nat) (t : Trap) (u : Unit') (cycle : Nat) : List Byte :=
  leBytes 8 p.pc.toNat ++ leBytes 12 u.word.toNat ++ leBytes 4 (match u.pre with | some (_, v) => v.toNat | none => 0)
    ++ leBytes 8 (infoWord t pidx u) ++ leBytes 8 t.data.toNat ++ leBytes 4 t.lanes.toNat ++ zeros 4 ++ leBytes 8 w.srcnt.toNat
    ++ leBytes 4 w.wbase ++ leBytes 4 w.sfloor ++ leBytes 2 w.n ++ leBytes 2 w.cdepth
    ++ ([1, 2, 3, 4, 5, 6, 7, 8].map fun k => BitVec.ofNat 8 (match p.place k with | some q => q.code | none => 0xFF))
    ++ zeros 4 ++ w.flags.map (fun f => f.zeroExtend 8) ++ leBytes 8 cycle

/-- The whole frame (R454); `halt` and haltpc are the two fields of R461, both 0 where the warp is not halted. -/
def frameBytes (w : Warp) (pidx : Nat) (t : Trap) (u : Unit') (cycle : Nat) (halt haltpc : Nat) : List Byte :=
  let p := w.path pidx
  controlArea w p pidx t u cycle ++ leBytes 8 halt ++ leBytes 8 haltpc ++ zeros 24
    ++ ((List.range 16).flatMap fun i => (w.path i).record (i == pidx))
    ++ ((List.range 8).flatMap fun i => leBytes 4 (w.preg i).toNat)
    ++ ((List.range 64).flatMap fun i => leBytes 8 (w.sreg i).toNat)
    ++ ((List.range 16).flatMap fun i => (w.areg i).image)
    ++ ((List.range 8).flatMap fun i => (w.areg (8 + i)).streamImage)
    ++ ([1, 2, 3, 4, 5, 6, 7, 8].flatMap fun k => Place.image (p.place k))
    ++ ((List.range 32).flatMap fun i => if i < w.width then (w.vreg i).flatMap (fun x => leBytes 4 x.toNat) else zeros 128)

end Sys2Proof.Machine
end

