-- ==== Sys2Proof/Decode.lean ====
section
/-! DEFINITION. Instruction words: the field layout (spec/03 R96 to R109), the opcode map (spec/04 R110 to R124), which values each
instruction's fields may take (the encoding table of its chapter), the decoder, and after it the encoder written from the same tables.
A word is accepted only when the instruction it is read as has exactly the word's fields, so that no bit is dropped. -/
namespace Sys2Proof

/-! ### Codes -/

/-- Format codes (R125). -/
def Fmt.code : Fmt → Nat
  | .i32 => 0 | .i64 => 1 | .i16 => 2 | .i8 => 3 | .f32 => 4 | .f64 => 5 | .bf16 => 6 | .f16 => 7
  | .e4m3 => 8 | .e5m2 => 9 | .e2m1 => 10 | .e3m2 => 11 | .e2m3 => 12 | .pb => 13 | .b128 => 14 | .none => 15

/-- The format of a code (R125). -/
def Fmt.ofCode : Nat → Fmt
  | 0 => .i32 | 1 => .i64 | 2 => .i16 | 3 => .i8 | 4 => .f32 | 5 => .f64 | 6 => .bf16 | 7 => .f16
  | 8 => .e4m3 | 9 => .e5m2 | 10 => .e2m1 | 11 => .e3m2 | 12 => .e2m3 | 13 => .pb | 14 => .b128 | _ => .none

/-- Destination class codes (R98). -/
def DClass.code : DClass → Nat
  | .vector => 0 | .scalar => 1 | .address => 2 | .predicate => 3 | .matrix => 4 | .system => 5 | .none => 6

/-- The class of a code; 0b111 is reserved (R98). -/
def DClass.ofCode : Nat → Option DClass
  | 0 => some .vector | 1 => some .scalar | 2 => some .address | 3 => some .predicate | 4 => some .matrix
  | 5 => some .system | 6 => some .none | _ => Option.none

/-- Rounding mode codes (R218). -/
def RMode.code : RMode → Nat
  | .rne => 0 | .rz => 1 | .ru => 2 | .rd => 3 | .rs => 4

def RMode.ofCode : Nat → Option RMode
  | 0 => some .rne | 1 => some .rz | 2 => some .ru | 3 => some .rd | 4 => some .rs | _ => none

/-- Order codes (R104). -/
def Order.code : Order → Nat
  | .rlx => 0 | .acq => 1 | .rel => 2 | .acqrel => 3 | .sc => 4

def Order.ofCode : Nat → Option Order
  | 0 => some .rlx | 1 => some .acq | 2 => some .rel | 3 => some .acqrel | 4 => some .sc | _ => none

/-- Condition codes of R193. -/
def Cond.code : Cond → Nat
  | .eq => 0 | .ne => 1 | .lt => 2 | .le => 3 | .gt => 4 | .ge => 5

def Cond.ofCode : Nat → Option Cond
  | 0 => some .eq | 1 => some .ne | 2 => some .lt | 3 => some .le | 4 => some .gt | 5 => some .ge | _ => none

/-- Condition codes of R234. -/
def FCond.code : FCond → Nat
  | .eq => 0 | .ne => 1 | .lt => 2 | .le => 3 | .gt => 4 | .ge => 5 | .un => 6

def FCond.ofCode : Nat → Option FCond
  | 0 => some .eq | 1 => some .ne | 2 => some .lt | 3 => some .le | 4 => some .gt | 5 => some .ge | 6 => some .un | _ => none

/-- Condition codes of R395. -/
def WCond.code : WCond → Nat
  | .eq => 0 | .ne => 1 | .ge => 2 | .lt => 3 | .seq => 4 | .any => 5

def WCond.ofCode : Nat → Option WCond
  | 0 => some .eq | 1 => some .ne | 2 => some .ge | 3 => some .lt | 4 => some .seq | 5 => some .any | _ => none

/-- Operation codes of `lred` and `lscan` (R243). -/
def ROp.code : ROp → Nat
  | .add => 0 | .min => 1 | .max => 2 | .and => 3 | .or => 4 | .xor => 5

def ROp.ofCode : Nat → Option ROp
  | 0 => some .add | 1 => some .min | 2 => some .max | 3 => some .and | 4 => some .or | 5 => some .xor | _ => none

def LaneMode.code : LaneMode → Nat
  | .linear => 0 | .offset => 1 | .index => 2

def LaneMode.ofCode : Nat → Option LaneMode
  | 0 => some .linear | 1 => some .offset | 2 => some .index | _ => none

def ASel.code : ASel → Nat
  | .ptr => 0 | .base => 1 | .lim => 2 | .perm => 3 | .rgn => 4

def ASel.ofCode : Nat → Option ASel
  | 0 => some .ptr | 1 => some .base | 2 => some .lim | 3 => some .perm | 4 => some .rgn | _ => none

def AGetSel.code : AGetSel → Nat
  | .ptr => 0 | .base => 1 | .lim => 2 | .perm => 3 | .runlo => 4 | .runhi => 5 | .strm => 6 | .org => 7

def AGetSel.ofCode : Nat → Option AGetSel
  | 0 => some .ptr | 1 => some .base | 2 => some .lim | 3 => some .perm | 4 => some .runlo | 5 => some .runhi
  | 6 => some .strm | 7 => some .org | _ => none

def QSwap.code : QSwap → Nat
  | .h => 0 | .v => 1 | .d => 2

def QSwap.ofCode : Nat → Option QSwap
  | 0 => some .h | 1 => some .v | 2 => some .d | _ => none

def LXch.code : LXch → Nat
  | .pick => 0 | .rot => 1 | .refl => 2 | .flip => 3

def LXch.ofCode : Nat → Option LXch
  | 0 => some .pick | 1 => some .rot | 2 => some .refl | 3 => some .flip | _ => none

def Poll.code : Poll → Nat
  | .some => 0 | .every => 1 | .same => 2 | .mask => 3 | .count => 4

def Poll.ofCode : Nat → Option Poll
  | 0 => Option.some .some | 1 => Option.some .every | 2 => Option.some .same | 3 => Option.some .mask
  | 4 => Option.some .count | _ => none

def LIdx.code : LIdx → Nat
  | .lane => 0 | .active => 1 | .acting => 2 | .rank => 3

def LIdx.ofCode : Nat → Option LIdx
  | 0 => some .lane | 1 => some .active | 2 => some .acting | 3 => some .rank | _ => none

def ICvtSat.code : ICvtSat → Nat
  | .wrap => 0 | .signed => 1 | .unsigned => 2

def ICvtSat.ofCode : Nat → Option ICvtSat
  | 0 => some .wrap | 1 => some .signed | 2 => some .unsigned | _ => none

def CollKind.code : CollKind → Nat
  | .allReduce => 0 | .reduceScatter => 1 | .allGather => 2 | .broadcast => 3 | .allToAll => 4

def CollKind.ofCode : Nat → Option CollKind
  | 0 => some .allReduce | 1 => some .reduceScatter | 2 => some .allGather | 3 => some .broadcast
  | 4 => some .allToAll | _ => none

/-! ### The fields of a word -/

/-- The fields of R96. Sources are read by kind (R100); `wide` is the offset an `ximm` with selector 3 gives in place of the
extension's own (R107), when it does not fit there. -/
structure Fields where
  op   : Nat
  sub  : Nat
  fmt  : Nat
  pred : Nat
  neg  : Bool
  di   : Nat
  wb   : Bool
  dc   : Nat
  s0   : Src
  s1   : Src
  s2   : Src
  ext  : BitVec 28
  wide : Option Int
deriving DecidableEq, Repr

/-- A 12-bit source field by kind (R100). -/
def Src.ofBits (v : BitVec 12) : Src :=
  match (v.extractLsb' 10 2).toNat with
  | 0 => .reg (v.extractLsb' 0 10).toNat
  | 1 => .latch ((v.extractLsb' 0 10).toNat + 1)
  | 2 => .bcast (v.extractLsb' 0 10).toNat
  | _ => .imm (v.extractLsb' 0 10).toInt

/-- The 12-bit field of a source (R100). -/
def Src.bits : Src → BitVec 12
  | .reg i => 0b00#2 ++ BitVec.ofNat 10 i
  | .latch k => 0b01#2 ++ BitVec.ofNat 10 (k - 1)
  | .bcast i => 0b10#2 ++ BitVec.ofNat 10 i
  | .imm v => 0b11#2 ++ BitVec.ofInt 10 v

/-- The fields of a word (R96). -/
def Fields.ofWord (w : IWord) : Fields where
  op   := (w.extractLsb' 0 8).toNat
  sub  := (w.extractLsb' 8 4).toNat
  fmt  := (w.extractLsb' 12 4).toNat
  pred := (w.extractLsb' 16 3).toNat
  neg  := w.getLsbD 19
  di   := (w.extractLsb' 20 8).toNat
  wb   := w.getLsbD 28
  dc   := (w.extractLsb' 29 3).toNat
  s0   := Src.ofBits (w.extractLsb' 32 12)
  s1   := Src.ofBits (w.extractLsb' 44 12)
  s2   := Src.ofBits (w.extractLsb' 56 12)
  ext  := w.extractLsb' 68 28
  wide := none

/-- The word of fields (R96). -/
def Fields.word (f : Fields) : IWord :=
  f.ext ++ f.s2.bits ++ f.s1.bits ++ f.s0.bits ++ BitVec.ofNat 3 f.dc ++ BitVec.ofBool f.wb ++ BitVec.ofNat 8 f.di
    ++ BitVec.ofBool f.neg ++ BitVec.ofNat 3 f.pred ++ BitVec.ofNat 4 f.fmt ++ BitVec.ofNat 4 f.sub ++ BitVec.ofNat 8 f.op

/-- The destination the fields name, when the class is not the reserved one (R98). -/
def Fields.dst? (f : Fields) : Option Dst := (DClass.ofCode f.dc).map (⟨·, f.di, f.wb⟩)

def Fields.guard (f : Fields) : Guard := ⟨f.pred, f.neg⟩

/-- The operands of a computing instruction. -/
def Fields.alu (f : Fields) : Option Alu :=
  f.dst?.map fun d => ⟨f.guard, d, Fmt.ofCode f.fmt, 8 ≤ f.sub, f.s0, f.s1, f.s2⟩

/-- A register-kind source's index. -/
def Src.regIdx : Src → Option Nat
  | .reg i => some i
  | _ => none

/-- An immediate source's value. -/
def Src.immVal : Src → Option Int
  | .imm v => some v
  | _ => none

def Fields.addr (f : Fields) : Option AddrOp := do
  let d ← f.dst?
  let a ← f.s0.regIdx
  return ⟨f.guard, d, a, f.s1, f.s2⟩

/-- The branch offset (R105), or the wide one of an `ximm` (R107). -/
def Fields.branchOff (f : Fields) : Int := f.wide.getD f.ext.toInt

/-- The extension of a memory instruction (R104). -/
def Fields.mext (f : Fields) : Option MExt :=
  (Order.ofCode (f.ext.extractLsb' 23 3).toNat).map fun ord =>
    ⟨(f.ext.extractLsb' 26 2).toNat, ord, f.ext.extractLsb' 16 7, f.wide.getD (f.ext.extractLsb' 0 16).toInt⟩

def Fields.mem (f : Fields) : Option Mem := do
  let d ← f.dst?
  let a ← f.s0.regIdx
  let e ← f.mext
  return ⟨f.guard, d, Fmt.ofCode f.fmt, 8 ≤ f.sub, a, f.s1, f.s2, e⟩

def Fields.copy (f : Fields) : Option Copy := do
  let d ← f.dst?
  let dst ← f.s0.regIdx
  let src ← f.s1.regIdx
  let k ← f.s2.regIdx
  let e ← f.mext
  return ⟨f.guard, d, Fmt.ofCode f.fmt, dst, src, k, e⟩

/-- The conversion fields (R239). -/
def Fields.cv (f : Fields) : Cv :=
  ⟨f.ext.getLsbD 10, (f.ext.extractLsb' 7 3).toNat, (f.ext.extractLsb' 4 3).toNat, Fmt.ofCode (f.ext.extractLsb' 0 4).toNat⟩

/-! ### From fields to instructions -/

/-- An instruction that rounds, with its mode in sub[2:0]. -/
def Fields.rounded (f : Fields) (k : RMode → Alu → Instr) : Option Instr := do
  let m ← RMode.ofCode (f.sub % 8)
  let o ← f.alu
  return k m o

/-- A conversion, with its mode in sub[2:0] and its fields in the extension. -/
def Fields.conv (f : Fields) (k : RMode → Cv → Alu → Instr) : Option Instr := f.rounded (k · f.cv)

/-- Opcodes 0x00 to 0x0F (R163, R194). -/
def Fields.buildControl (f : Fields) : Option Instr :=
  match f.op with
  | 0x00 => some (.nop f.guard)
  | 0x01 => some (.br f.guard f.branchOff)
  | 0x02 => f.s0.regIdx.map (.bre (4 ≤ f.sub) (f.sub % 4) · f.branchOff)
  | 0x03 => some (.mark f.branchOff)
  | 0x04 => some .join
  | 0x05 => some (.call (8 * (f.sub % 4 + 1)) f.branchOff)
  | 0x06 => f.s0.regIdx.map (.callx f.guard (8 * (f.sub % 4 + 1)))
  | 0x07 => some .ret
  | 0x08 => f.s0.regIdx.map .jmpx
  | 0x09 => some (.grow f.s0)
  | 0x0A => some (.shrink f.s0)
  | 0x0B => some (.yield f.guard)
  | 0x0C => some (.exit f.guard)
  | 0x0D => f.s0.immVal.map (.trap f.guard)
  | 0x0E => some .eret
  | 0x0F =>
    match f.sub with
    | 0 => do
      let d ← f.dst?
      let n ← f.s0.regIdx
      return .rdsys f.guard d n
    | 1 => f.dst?.map (.wrsys f.guard · f.s0)
    | _ => none
  | _ => none

/-- Opcodes 0x10 to 0x1E (R191, R199). -/
def Fields.buildScalar (f : Fields) : Option Instr :=
  match f.op, f.sub % 8 with
  | 0x10, 0 => f.alu.map .sadd
  | 0x11, 0 => f.alu.map .ssub
  | 0x12, 0 => f.alu.map .smul
  | 0x12, 1 => f.alu.map .smulh
  | 0x13, 0 => f.alu.map .smad
  | 0x14, 0 => f.alu.map .sand
  | 0x14, 1 => f.alu.map .sor
  | 0x14, 2 => f.alu.map .sxor
  | 0x14, 3 => f.alu.map .sandn
  | 0x15, 0 => f.alu.map .sshl
  | 0x15, 1 => f.alu.map .sshr
  | 0x15, 2 => f.alu.map .ssar
  | 0x15, 3 => f.alu.map .srot
  | 0x16, k => do
    let c ← Cond.ofCode k
    let o ← f.alu
    return .scmp c o
  | 0x17, 0 => f.alu.map .smov
  | 0x17, 1 => f.alu.map .ssel
  | 0x18, 0 => f.alu.map .sdiv
  | 0x18, 1 => f.alu.map .srem
  | 0x19, 0 => f.alu.map .spopc
  | 0x19, 1 => f.alu.map .sclz
  | 0x19, 2 => f.alu.map .sctz
  | 0x19, 3 => f.alu.map .sbrev
  | 0x1A, k => do
    let s ← ASel.ofCode k
    let o ← f.addr
    return .aset s o
  | 0x1B, 0 => f.addr.map .aadv
  | 0x1C, 0 => f.addr.map .abind
  | 0x1C, 1 => f.addr.map .aunbind
  | 0x1D, k => do
    let s ← AGetSel.ofCode k
    let o ← f.addr
    return .aget s o
  | 0x1E, 0 => f.addr.map .atrn
  | _, _ => none

/-- Opcodes 0x20 to 0x36 (R185). -/
def Fields.buildVector (f : Fields) : Option Instr :=
  match f.op, f.sub % 8 with
  | 0x20, 0 => f.alu.map .iadd
  | 0x21, 0 => f.alu.map .isub
  | 0x22, 0 => f.alu.map .imul
  | 0x23, 0 => f.alu.map .imad
  | 0x24, 0 => f.alu.map .imulh
  | 0x25, 0 => f.alu.map .iadds
  | 0x25, 1 => f.alu.map .isubs
  | 0x26, 0 => f.alu.map .imin
  | 0x27, 0 => f.alu.map .imax
  | 0x28, 0 => f.alu.map .iabs
  | 0x28, 1 => f.alu.map .ineg
  | 0x29, k => do
    let c ← Cond.ofCode k
    let o ← f.alu
    return .icmp c o
  | 0x2A, 0 => f.alu.map .isel
  | 0x2B, 0 => f.alu.map .and
  | 0x2B, 1 => f.alu.map .or
  | 0x2B, 2 => f.alu.map .xor
  | 0x2B, 3 => f.alu.map .andn
  | 0x2B, 4 => f.alu.map .orn
  | 0x2B, 5 => f.alu.map .xnor
  | 0x2B, 6 => f.alu.map .not
  | 0x2C, 0 => f.alu.map (.lut3 (f.ext.extractLsb' 0 8))
  | 0x2D, 0 => f.alu.map .shl
  | 0x2D, 1 => f.alu.map .shr
  | 0x2D, 2 => f.alu.map .sar
  | 0x2E, 0 => f.alu.map (.irot false)
  | 0x2E, 1 => f.alu.map (.irot true)
  | 0x2F, 0 => f.alu.map .popc
  | 0x2F, 1 => f.alu.map .clz
  | 0x2F, 2 => f.alu.map .ctz
  | 0x2F, 3 => f.alu.map .brev
  | 0x30, 0 => f.alu.map .bfx
  | 0x31, 0 => f.alu.map .bfi
  | 0x32, 0 => f.alu.map .imov
  | 0x33, 0 => f.alu.map (.vmovx false)
  | 0x33, 1 => f.alu.map (.vmovx true)
  | 0x34, 0 => f.alu.map .idot4
  | 0x35, k => do
    let s ← ICvtSat.ofCode k
    let o ← f.alu
    return .icvt s (Fmt.ofCode (f.ext.extractLsb' 0 4).toNat) (f.ext.extractLsb' 4 2).toNat (f.ext.extractLsb' 6 2).toNat o
  | 0x36, 0 => f.alu.map .iabsd
  | _, _ => none

/-- Opcodes 0x40 to 0x55 (R232 to R242). -/
def Fields.buildFloat (f : Fields) : Option Instr :=
  match f.op, f.sub % 8 with
  | 0x40, _ => f.rounded .fadd
  | 0x41, _ => f.rounded .fsub
  | 0x42, _ => f.rounded .fmul
  | 0x43, _ => f.rounded .ffma
  | 0x44, 0 => f.alu.map .fmin
  | 0x45, 0 => f.alu.map .fmax
  | 0x46, 0 => f.alu.map .fabs
  | 0x46, 1 => f.alu.map .fneg
  | 0x46, 2 => f.alu.map .fcsgn
  | 0x47, k => do
    let c ← FCond.ofCode k
    let o ← f.alu
    return .fcmp c o
  | 0x48, 0 => f.alu.map .fclass
  | 0x48, 1 => f.alu.map .fclassFl
  | 0x49, 0 => f.alu.map .frcp
  | 0x4A, 0 => f.alu.map .frsq
  | 0x4B, _ => f.rounded .fsqrt
  | 0x4C, _ => f.rounded .fdiv
  | 0x4D, _ => f.rounded .fexp2
  | 0x4E, _ => f.rounded .flog2
  | 0x4F, _ => f.rounded .fscale
  | 0x50, _ => f.conv .cvt
  | 0x51, _ => f.conv .cvtf
  | 0x52, _ => f.conv .cvti
  | 0x53, _ => f.conv .frint
  | 0x54, _ => f.conv .cvtbs
  | 0x55, _ => f.conv .fdot2
  | _, _ => none

/-- Opcodes 0x60 to 0x69 (R243). -/
def Fields.buildLane (f : Fields) : Option Instr :=
  match f.op, f.sub % 8 with
  | 0x60, k => do
    let v ← QSwap.ofCode k
    let o ← f.alu
    return .qswap v o
  | 0x61, k => if k < 4 then f.alu.map (.qbcast k) else none
  | 0x62, k => do
    let v ← LXch.ofCode k
    let o ← f.alu
    return .lxch v (f.ext.extractLsb' 0 3).toNat o
  | 0x63, 0 => f.alu.map (.lbcast false)
  | 0x63, 1 => f.alu.map (.lbcast true)
  | 0x64, k => do
    let op ← ROp.ofCode k
    let m ← RMode.ofCode (f.ext.extractLsb' 0 3).toNat
    let o ← f.alu
    return .lred op m o
  | 0x65, k => do
    let op ← ROp.ofCode k
    let m ← RMode.ofCode (f.ext.extractLsb' 0 3).toNat
    let o ← f.alu
    return .lscan op m o
  | 0x66, k => do
    let v ← Poll.ofCode k
    let o ← f.alu
    return .lpoll v o
  | 0x67, 0 => f.alu.map .pand
  | 0x67, 1 => f.alu.map .por
  | 0x67, 2 => f.alu.map .pxor
  | 0x67, 3 => f.alu.map .pnot
  | 0x68, 0 => f.alu.map (.pmov false)
  | 0x68, 1 => f.alu.map (.pmov true)
  | 0x69, k => do
    let v ← LIdx.ofCode k
    let o ← f.alu
    return .lidx v o
  | _, _ => none

/-- Opcodes 0x70 to 0x79 (R315). -/
def Fields.buildMemory (f : Fields) : Option Instr :=
  match f.op with
  | 0x70 => do
    let m ← LaneMode.ofCode (f.sub % 4)
    let o ← f.mem
    return .ld m o
  | 0x71 => do
    let m ← LaneMode.ofCode (f.sub % 4)
    let o ← f.mem
    return .st m o
  | 0x72 => f.mem.map (.lds (f.sub % 2 == 1))
  | 0x73 => f.mem.map (.sts (f.sub % 2 == 1))
  | 0x74 => f.mem.map (.sread (f.sub % 2 == 1))
  | 0x75 => f.mem.map .lda
  | 0x76 => f.mem.map .sta
  | 0x77 => f.mem.map (.pf (f.sub % 2 == 1))
  | 0x78 => f.mem.map (.wback (f.sub % 2 == 1))
  | 0x79 => f.mem.map (.inv (f.sub % 2 == 1))
  | _ => none

/-- Drops sub[3], which opcode 0x80 uses for its operation and not for signedness. -/
def Mem.signed (o : Mem) : Mem := { o with uns := false }

/-- Opcodes 0x80 to 0x88 (R371, R384). -/
def Fields.buildSync (f : Fields) : Option Instr :=
  match f.op, f.sub with
  | 0x80, 0 => f.mem.map .atadd
  | 0x80, 1 => f.mem.map .atsub
  | 0x80, 2 => f.mem.map .atmin
  | 0x80, 3 => f.mem.map .atmax
  | 0x80, 4 => f.mem.map .atand
  | 0x80, 5 => f.mem.map .ator
  | 0x80, 6 => f.mem.map .atxor
  | 0x80, 7 => f.mem.map .atswp
  | 0x80, 8 => f.mem.map fun o => .atinc o.signed
  | 0x80, 9 => f.mem.map fun o => if o.fmt = .none then .atfaddRgn o.signed else .atfadd o.signed
  | 0x80, 10 => f.mem.map fun o => .atminN o.signed
  | 0x80, 11 => f.mem.map fun o => .atmaxN o.signed
  | 0x81, 0 => f.mem.map .acas
  | 0x82, 0 => do
    let b ← f.s0.immVal
    let e ← f.mext
    return .bara f.guard b f.s1 e
  | 0x83, 0 => do
    let b ← f.s0.immVal
    let e ← f.mext
    return .barw f.guard b e
  | 0x84, 0 => do
    let b ← f.s0.immVal
    let e ← f.mext
    return .bars f.guard b f.s1 e
  | 0x85, 0 => f.mem.map .semwTk
  | 0x85, 1 => f.mem.map .semwTake
  | 0x86, 0 => f.mem.map .semp
  | 0x87, k => do
    let c ← WCond.ofCode k
    let o ← f.mem
    return .mwait c o
  | 0x88, 0 => f.mext.map (.fence f.guard)
  | _, _ => none

/-- Opcodes 0x90 to 0x98 (R327). -/
def Fields.buildCopy (f : Fields) : Option Instr :=
  match f.op, f.sub with
  | 0x90, 0 => f.copy.map .cpy
  | 0x91, 0 => f.copy.map (.cpys false)
  | 0x91, 1 => f.copy.map (.cpys true)
  | 0x92, 0 => f.copy.map .cpyadd
  | 0x93, 0 => f.copy.map .cpybc
  | 0x94, 0 => f.copy.map (.plane false)
  | 0x94, 1 => f.copy.map (.plane true)
  | 0x95, 0 => f.copy.map (.unplane false)
  | 0x95, 1 => f.copy.map (.unplane true)
  | 0x96, 0 => f.dst?.map (.cpyq f.guard · f.s0)
  | 0x97, 0 => some (.cpycan f.guard f.s0)
  | 0x98, 0 => f.copy.map .cpyfill
  | _, _ => none

/-- Opcodes 0xA0 to 0xAF (R273). -/
def Fields.buildMatrix (f : Fields) : Option Instr :=
  match f.op, f.sub with
  | 0xA0, k => do
    let da ← f.s0.immVal
    let db ← f.s1.immVal
    let ks ← f.s2.immVal
    return .mma k f.di da db ks (f.ext.extractLsb' 0 14).toNat
  | 0xA1, 0 => some (.mzero f.di)
  | 0xA2, 0 => do
    let acc ← f.s0.regIdx
    let od ← f.s1.immVal
    return .mstore (Fmt.ofCode f.fmt) acc od
  | 0xA3, 0 => f.s0.immVal.map .msig
  | 0xA4, 0 => f.s0.immVal.map .mwaitb
  | 0xA5, c => f.s0.immVal.map (.mloop c · f.branchOff)
  | 0xA6, 0 => some .mend
  | 0xA7, 0 => some (.fork f.guard)
  | 0xA8, 0 => do
    let d ← f.dst?
    let n ← f.s0.regIdx
    return .mrd f.guard d n
  | 0xA8, 1 => f.s0.regIdx.map (.mwr f.guard · f.s1)
  | 0xA9, 0 => some (.mtol f.guard (Fmt.ofCode f.fmt) f.s0)
  | 0xAA, 0 => f.dst?.map (.mstat f.guard)
  | 0xAA, 1 => f.dst?.map (.mstatClr f.guard)
  | 0xAB, 0 => do
    let d ← f.dst?
    let acc ← f.s0.regIdx
    return .mchk f.guard (Fmt.ofCode f.fmt) d acc
  | 0xAC, 0 => f.dst?.map (.mloc f.guard)
  | 0xAD, 0 => some (.mfix f.guard f.s0)
  | 0xAE, 0 => some (.mretry f.guard)
  | 0xAF, 0 => some (.mresume f.guard)
  | 0xAF, 1 => some (.mresumeAbandon f.guard)
  | _, _ => none

/-- Opcodes 0xB0 to 0xC8 (R412, R420, R487, R513, R516, R530, R67). -/
def Fields.buildSystem (f : Fields) : Option Instr :=
  match f.op, f.sub with
  | 0xB0, k => do
    let kind ← CollKind.ofCode (k % 8)
    let d ← f.dst?
    let a ← f.s0.regIdx
    let e ← f.mext
    return .coll kind (8 ≤ k) f.guard (Fmt.ofCode f.fmt) d a e
  | 0xB1, 0 => do
    let d ← f.dst?
    let e ← f.mext
    return .cwait f.guard d f.s0 f.s1 e
  | 0xB2, 0 => do
    let d ← f.dst?
    let k ← f.s0.immVal
    return .viewq f.guard d k
  | 0xB3, 0 => f.dst?.map (.viewack f.guard · f.s0)
  | 0xB4, 0 => f.dst?.map (.viewjoin f.guard · f.s0)
  | 0xB5, 0 => some (.cabort f.guard f.s0)
  | 0xC0, 0 => f.dst?.map (.ckpt f.guard)
  | 0xC0, 1 => f.dst?.map (.ckptWait f.guard)
  | 0xC1, 0 => do
    let d ← f.dst?
    let k ← f.s0.immVal
    return .ckq f.guard d k
  | 0xC2, 0 => f.s1.immVal.map (.digest f.guard (Fmt.ofCode f.fmt) f.s0)
  | 0xC3, 0 => f.dst?.map (.detq f.guard)
  | 0xC4, 0 => f.s0.immVal.map (.brk f.guard)
  | 0xC5, 0 => some (.tmark f.guard f.s0)
  | 0xC6, 0 => f.dst?.map (.rdclk f.guard)
  | 0xC8, 0 => do
    let d ← f.dst?
    let a ← f.s0.regIdx
    let e ← f.mext
    return .launch d a f.s1 e
  | _, _ => none

/-- The instruction whose opcode and variant the fields name, read leniently; `decodeFields` then compares every field. -/
def Fields.build (f : Fields) : Option Instr :=
  if f.op < 0x10 then f.buildControl
  else if f.op < 0x20 then f.buildScalar
  else if f.op < 0x40 then f.buildVector
  else if f.op < 0x60 then f.buildFloat
  else if f.op < 0x70 then f.buildLane
  else if f.op < 0x80 then f.buildMemory
  else if f.op < 0x90 then f.buildSync
  else if f.op < 0xA0 then f.buildCopy
  else if f.op < 0xB0 then f.buildMatrix
  else f.buildSystem

/-- The opcodes the map assigns to instructions other than `ximm` (R114 to R124). -/
def opcodeAssigned (op : Nat) : Bool :=
  op ≤ 0x1E || (0x20 ≤ op && op ≤ 0x36) || (0x40 ≤ op && op ≤ 0x55) || (0x60 ≤ op && op ≤ 0x69)
    || (0x70 ≤ op && op ≤ 0x79) || (0x80 ≤ op && op ≤ 0x88) || (0x90 ≤ op && op ≤ 0x98)
    || (0xA0 ≤ op && op ≤ 0xAF) || (0xB0 ≤ op && op ≤ 0xB5) || (0xC0 ≤ op && op ≤ 0xC6) || op == 0xC8

/-! ### From instructions to fields -/

/-- Fields from their typed parts. -/
def Fields.mk' (op sub : Nat) (fmt : Fmt) (g : Guard) (d : Dst) (a b c : Src) (ext : BitVec 28 := 0) (wide : Option Int := none) :
    Fields :=
  ⟨op, sub, fmt.code, g.p, g.neg, d.idx, d.wb, d.cls.code, a, b, c, ext, wide⟩

/-- Whether an offset fits a signed field of `n` bits. -/
def fitsSigned (n : Nat) (o : Int) : Bool := decide (-(2 ^ (n - 1) : Int) ≤ o ∧ o < 2 ^ (n - 1))

/-- The wide offset an extension field of `n` bits cannot hold (R107). -/
def wideOff (n : Nat) (o : Int) : Option Int := if fitsSigned n o then none else some o

def MExt.ext (e : MExt) : BitVec 28 := BitVec.ofNat 2 e.hint ++ BitVec.ofNat 3 e.ord.code ++ e.mask ++ BitVec.ofInt 16 e.off

def Cv.ext (v : Cv) : BitVec 28 :=
  0#17 ++ BitVec.ofBool v.sat ++ BitVec.ofNat 3 v.jd ++ BitVec.ofNat 3 v.js ++ BitVec.ofNat 4 v.sf.code

/-- The sub field of a variant with sub[3] for signedness (R112). -/
def subOf (k : Nat) (uns : Bool) : Nat := if uns then k + 8 else k

def Alu.fields (o : Alu) (op k : Nat) (ext : BitVec 28 := 0) : Fields :=
  Fields.mk' op (subOf k o.uns) o.fmt o.g o.d o.a o.b o.c ext

def AddrOp.fields (o : AddrOp) (op k : Nat) : Fields :=
  Fields.mk' op k .none o.g o.d (.reg o.a) o.x o.y

def Mem.fields (o : Mem) (op k : Nat) : Fields :=
  Fields.mk' op (subOf k o.uns) o.fmt o.g o.d (.reg o.a) o.x o.y o.e.ext (wideOff 16 o.e.off)

def Copy.fields (o : Copy) (op k : Nat) : Fields :=
  Fields.mk' op k o.fmt o.g o.d (.reg o.dst) (.reg o.src) (.reg o.k) o.e.ext (wideOff 16 o.e.off)

/-- A word of page 0x00 to 0x0E (R163): class none, sources 1 and 2 zero. -/
def ctlFields (op sub : Nat) (g : Guard) (a : Src) (o : Int := 0) : Fields :=
  Fields.mk' op sub .none g Dst.noDest a .zero .zero (BitVec.ofInt 28 o) (wideOff 28 o)

/-- A word with no extension. -/
def plainFields (op sub : Nat) (fmt : Fmt) (g : Guard) (d : Dst) (a : Src) (b : Src := .zero) : Fields :=
  Fields.mk' op sub fmt g d a b .zero

/-- A word whose source 0 is not an address register but whose extension is that of R104 (barriers, fences, `cwait`). -/
def extFields (op : Nat) (g : Guard) (d : Dst) (a b : Src) (e : MExt) : Fields :=
  Fields.mk' op 0 .none g d a b .zero e.ext (wideOff 16 e.off)

/-- The fields of an instruction, from the encoding table of its chapter. A row that is no word, `ximm` and an unassigned opcode
have none. -/
def Instr.fields : Instr → Option Fields
  | .nop g => some (ctlFields 0x00 0 g .zero)
  | .br g o => some (ctlFields 0x01 0 g .zero o)
  | .bre s fl a o => some (ctlFields 0x02 ((if s then 4 else 0) + fl) .always (.reg a) o)
  | .mark o => some (ctlFields 0x03 0 .always .zero o)
  | .join => some (ctlFields 0x04 0 .always .zero)
  | .call f o => some (ctlFields 0x05 (f / 8 - 1) .always .zero o)
  | .callx g f v => some (plainFields 0x06 (f / 8 - 1) .i64 g Dst.noDest (.reg v))
  | .ret => some (ctlFields 0x07 0 .always .zero)
  | .jmpx r => some (ctlFields 0x08 0 .always (.reg r))
  | .grow v => some (ctlFields 0x09 0 .always v)
  | .shrink v => some (ctlFields 0x0A 0 .always v)
  | .yield g => some (ctlFields 0x0B 0 g .zero)
  | .exit g => some (ctlFields 0x0C 0 g .zero)
  | .trap g n => some (ctlFields 0x0D 0 g (.imm n))
  | .eret => some (ctlFields 0x0E 0 .always .zero)
  | .rdsys g d n => some (plainFields 0x0F 0 .none g d (.reg n))
  | .wrsys g d a => some (plainFields 0x0F 1 .none g d a)
  | .sadd o => some (o.fields 0x10 0)
  | .ssub o => some (o.fields 0x11 0)
  | .smul o => some (o.fields 0x12 0)
  | .smulh o => some (o.fields 0x12 1)
  | .smad o => some (o.fields 0x13 0)
  | .sand o => some (o.fields 0x14 0)
  | .sor o => some (o.fields 0x14 1)
  | .sxor o => some (o.fields 0x14 2)
  | .sandn o => some (o.fields 0x14 3)
  | .sshl o => some (o.fields 0x15 0)
  | .sshr o => some (o.fields 0x15 1)
  | .ssar o => some (o.fields 0x15 2)
  | .srot o => some (o.fields 0x15 3)
  | .scmp c o => some (o.fields 0x16 c.code)
  | .smov o => some (o.fields 0x17 0)
  | .ssel o => some (o.fields 0x17 1)
  | .sdiv o => some (o.fields 0x18 0)
  | .srem o => some (o.fields 0x18 1)
  | .spopc o => some (o.fields 0x19 0)
  | .sclz o => some (o.fields 0x19 1)
  | .sctz o => some (o.fields 0x19 2)
  | .sbrev o => some (o.fields 0x19 3)
  | .aset s o => some (o.fields 0x1A s.code)
  | .aadv o => some (o.fields 0x1B 0)
  | .abind o => some (o.fields 0x1C 0)
  | .aunbind o => some (o.fields 0x1C 1)
  | .aget s o => some (o.fields 0x1D s.code)
  | .atrn o => some (o.fields 0x1E 0)
  | .iadd o => some (o.fields 0x20 0)
  | .isub o => some (o.fields 0x21 0)
  | .imul o => some (o.fields 0x22 0)
  | .imad o => some (o.fields 0x23 0)
  | .imulh o => some (o.fields 0x24 0)
  | .iadds o => some (o.fields 0x25 0)
  | .isubs o => some (o.fields 0x25 1)
  | .imin o => some (o.fields 0x26 0)
  | .imax o => some (o.fields 0x27 0)
  | .iabs o => some (o.fields 0x28 0)
  | .ineg o => some (o.fields 0x28 1)
  | .icmp c o => some (o.fields 0x29 c.code)
  | .isel o => some (o.fields 0x2A 0)
  | .and o => some (o.fields 0x2B 0)
  | .or o => some (o.fields 0x2B 1)
  | .xor o => some (o.fields 0x2B 2)
  | .andn o => some (o.fields 0x2B 3)
  | .orn o => some (o.fields 0x2B 4)
  | .xnor o => some (o.fields 0x2B 5)
  | .not o => some (o.fields 0x2B 6)
  | .lut3 t o => some (o.fields 0x2C 0 (0#20 ++ t))
  | .shl o => some (o.fields 0x2D 0)
  | .shr o => some (o.fields 0x2D 1)
  | .sar o => some (o.fields 0x2D 2)
  | .irot right o => some (o.fields 0x2E (if right then 1 else 0))
  | .popc o => some (o.fields 0x2F 0)
  | .clz o => some (o.fields 0x2F 1)
  | .ctz o => some (o.fields 0x2F 2)
  | .brev o => some (o.fields 0x2F 3)
  | .bfx o => some (o.fields 0x30 0)
  | .bfi o => some (o.fields 0x31 0)
  | .imov o => some (o.fields 0x32 0)
  | .vmovx w o => some (o.fields 0x33 (if w then 1 else 0))
  | .idot4 o => some (o.fields 0x34 0)
  | .icvt s sf js jd o => some (o.fields 0x35 s.code (0#20 ++ BitVec.ofNat 2 jd ++ BitVec.ofNat 2 js ++ BitVec.ofNat 4 sf.code))
  | .iabsd o => some (o.fields 0x36 0)
  | .fadd m o => some (o.fields 0x40 m.code)
  | .fsub m o => some (o.fields 0x41 m.code)
  | .fmul m o => some (o.fields 0x42 m.code)
  | .ffma m o => some (o.fields 0x43 m.code)
  | .fmin o => some (o.fields 0x44 0)
  | .fmax o => some (o.fields 0x45 0)
  | .fabs o => some (o.fields 0x46 0)
  | .fneg o => some (o.fields 0x46 1)
  | .fcsgn o => some (o.fields 0x46 2)
  | .fcmp c o => some (o.fields 0x47 c.code)
  | .fclass o => some (o.fields 0x48 0)
  | .fclassFl o => some (o.fields 0x48 1)
  | .frcp o => some (o.fields 0x49 0)
  | .frsq o => some (o.fields 0x4A 0)
  | .fsqrt m o => some (o.fields 0x4B m.code)
  | .fdiv m o => some (o.fields 0x4C m.code)
  | .fexp2 m o => some (o.fields 0x4D m.code)
  | .flog2 m o => some (o.fields 0x4E m.code)
  | .fscale m o => some (o.fields 0x4F m.code)
  | .cvt m v o => some (o.fields 0x50 m.code v.ext)
  | .cvtf m v o => some (o.fields 0x51 m.code v.ext)
  | .cvti m v o => some (o.fields 0x52 m.code v.ext)
  | .frint m v o => some (o.fields 0x53 m.code v.ext)
  | .cvtbs m v o => some (o.fields 0x54 m.code v.ext)
  | .fdot2 m v o => some (o.fields 0x55 m.code v.ext)
  | .qswap v o => some (o.fields 0x60 v.code)
  | .qbcast k o => some (o.fields 0x61 k)
  | .lxch v seg o => some (o.fields 0x62 v.code (0#25 ++ BitVec.ofNat 3 seg))
  | .lbcast first o => some (o.fields 0x63 (if first then 1 else 0))
  | .lred op m o => some (o.fields 0x64 op.code (0#25 ++ BitVec.ofNat 3 m.code))
  | .lscan op m o => some (o.fields 0x65 op.code (0#25 ++ BitVec.ofNat 3 m.code))
  | .lpoll v o => some (o.fields 0x66 v.code)
  | .pand o => some (o.fields 0x67 0)
  | .por o => some (o.fields 0x67 1)
  | .pxor o => some (o.fields 0x67 2)
  | .pnot o => some (o.fields 0x67 3)
  | .pmov t o => some (o.fields 0x68 (if t then 1 else 0))
  | .lidx v o => some (o.fields 0x69 v.code)
  | .ld m o => some (o.fields 0x70 m.code)
  | .st m o => some (o.fields 0x71 m.code)
  | .lds ix o => some (o.fields 0x72 (if ix then 1 else 0))
  | .sts ix o => some (o.fields 0x73 (if ix then 1 else 0))
  | .sread v o => some (o.fields 0x74 (if v then 1 else 0))
  | .lda o => some (o.fields 0x75 0)
  | .sta o => some (o.fields 0x76 0)
  | .pf l o => some (o.fields 0x77 (if l then 1 else 0))
  | .wback l o => some (o.fields 0x78 (if l then 1 else 0))
  | .inv l o => some (o.fields 0x79 (if l then 1 else 0))
  | .atadd o => some (o.fields 0x80 0)
  | .atsub o => some (o.fields 0x80 1)
  | .atmin o => some (o.fields 0x80 2)
  | .atmax o => some (o.fields 0x80 3)
  | .atand o => some (o.fields 0x80 4)
  | .ator o => some (o.fields 0x80 5)
  | .atxor o => some (o.fields 0x80 6)
  | .atswp o => some (o.fields 0x80 7)
  | .atinc o => some (o.fields 0x80 8)
  | .atfadd o => some (o.fields 0x80 9)
  | .atfaddRgn o => some (o.fields 0x80 9)
  | .atminN o => some (o.fields 0x80 10)
  | .atmaxN o => some (o.fields 0x80 11)
  | .acas o => some (o.fields 0x81 0)
  | .bara g b c e => some (extFields 0x82 g Dst.noDest (.imm b) c e)
  | .barw g b e => some (extFields 0x83 g Dst.noDest (.imm b) .zero e)
  | .bars g b c e => some (extFields 0x84 g Dst.noDest (.imm b) c e)
  | .semwTk o => some (o.fields 0x85 0)
  | .semwTake o => some (o.fields 0x85 1)
  | .semp o => some (o.fields 0x86 0)
  | .mwait c o => some (o.fields 0x87 c.code)
  | .fence g e => some (extFields 0x88 g Dst.noDest .zero .zero e)
  | .cpy o => some (o.fields 0x90 0)
  | .cpys s o => some (o.fields 0x91 (if s then 1 else 0))
  | .cpyadd o => some (o.fields 0x92 0)
  | .cpybc o => some (o.fields 0x93 0)
  | .plane rz o => some (o.fields 0x94 (if rz then 1 else 0))
  | .unplane rz o => some (o.fields 0x95 (if rz then 1 else 0))
  | .cpyq g d q => some (plainFields 0x96 0 .none g d q)
  | .cpycan g q => some (plainFields 0x97 0 .none g Dst.noDest q)
  | .cpyfill o => some (o.fields 0x98 0)
  | .mma walk acc da db ks nk =>
    some (Fields.mk' 0xA0 walk .pb .always ⟨.matrix, acc, true⟩ (.imm da) (.imm db) (.imm ks) (0#14 ++ BitVec.ofNat 14 nk))
  | .mzero acc => some (plainFields 0xA1 0 .none .always ⟨.matrix, acc, true⟩ .zero)
  | .mstore fmt acc od => some (plainFields 0xA2 0 fmt .always Dst.noDest (.reg acc) (.imm od))
  | .msig b => some (plainFields 0xA3 0 .none .always Dst.noDest (.imm b))
  | .mwaitb b => some (plainFields 0xA4 0 .none .always Dst.noDest (.imm b))
  | .mloop c n o => some (ctlFields 0xA5 c .always (.imm n) o)
  | .mend => some (plainFields 0xA6 0 .none .always Dst.noDest .zero)
  | .fork g => some (plainFields 0xA7 0 .none g Dst.noDest .zero)
  | .mrd g d n => some (plainFields 0xA8 0 .none g d (.reg n))
  | .mwr g n x => some (plainFields 0xA8 1 .none g Dst.noDest (.reg n) x)
  | .mtol g fmt x => some (plainFields 0xA9 0 fmt g Dst.noDest x)
  | .mstat g d => some (plainFields 0xAA 0 .none g d .zero)
  | .mstatClr g d => some (plainFields 0xAA 1 .none g d .zero)
  | .mchk g fmt d acc => some (plainFields 0xAB 0 fmt g d (.reg acc))
  | .mloc g d => some (plainFields 0xAC 0 .none g d .zero)
  | .mfix g x => some (plainFields 0xAD 0 .none g Dst.noDest x)
  | .mretry g => some (plainFields 0xAE 0 .none g Dst.noDest .zero)
  | .mresume g => some (plainFields 0xAF 0 .none g Dst.noDest .zero)
  | .mresumeAbandon g => some (plainFields 0xAF 1 .none g Dst.noDest .zero)
  | .coll kind uns g fmt d a e =>
    some (Fields.mk' 0xB0 (subOf kind.code uns) fmt g d (.reg a) .zero .zero e.ext (wideOff 16 e.off))
  | .cwait g d q t e => some (extFields 0xB1 g d q t e)
  | .viewq g d k => some (plainFields 0xB2 0 .none g d (.imm k))
  | .viewack g d x => some (plainFields 0xB3 0 .none g d x)
  | .viewjoin g d t => some (plainFields 0xB4 0 .none g d t)
  | .cabort g q => some (plainFields 0xB5 0 .none g Dst.noDest q)
  | .ckpt g d => some (plainFields 0xC0 0 .none g d .zero)
  | .ckptWait g d => some (plainFields 0xC0 1 .none g d .zero)
  | .ckq g d k => some (plainFields 0xC1 0 .none g d (.imm k))
  | .digest g fmt a ch => some (plainFields 0xC2 0 fmt g Dst.noDest a (.imm ch))
  | .detq g d => some (plainFields 0xC3 0 .none g d .zero)
  | .brk g n => some (plainFields 0xC4 0 .none g Dst.noDest (.imm n))
  | .tmark g x => some (plainFields 0xC5 0 .none g Dst.noDest x)
  | .rdclk g d => some (plainFields 0xC6 0 .none g d .zero)
  | .launch d a q e => some (Fields.mk' 0xC8 0 .none .always d (.reg a) q .zero e.ext (wideOff 16 e.off))
  | _ => none

/-! ### Which values the fields may take -/

/-- Whether values of a format take 64 bits of a vector operand (R98). -/
def Fmt.is64 (f : Fmt) : Bool := f == .i64 || f == .f64

/-- Whether a vector register index suits a format: even for 64 bits (R98), a multiple of 4 for `.b128` (R315). -/
def vecIdxOk (f : Fmt) (i : Nat) : Bool := i < 32 && (!f.is64 || i % 2 == 0) && (f != .b128 || i % 4 == 0)

/-- A vector operand of a format (R100, R140). -/
def Src.vecOk (f : Fmt) : Src → Bool
  | .reg i => vecIdxOk f i
  | .latch k => 1 ≤ k && k ≤ 8 && f != .b128
  | .bcast i => i < 64
  | .imm _ => true

/-- A scalar operand (R100). -/
def Src.scaOk : Src → Bool
  | .reg i => i < 64
  | .latch k => 1 ≤ k && k ≤ 8
  | .bcast _ => false
  | .imm _ => true

/-- A predicate operand (R185, R243). -/
def Src.predOk : Src → Bool
  | .reg i => i < 8
  | .latch k => 1 ≤ k && k ≤ 8
  | _ => false

def Src.isZero (s : Src) : Bool := s == .zero

/-- R99 (c) and (d). -/
def Dst.wbOk (d : Dst) : Bool := d.wb || d.idx == 0

def Dst.vecOk (f : Fmt) (d : Dst) : Bool := d.cls == .vector && d.wbOk && vecIdxOk f d.idx
def Dst.scaOk (d : Dst) : Bool := d.cls == .scalar && d.wbOk && d.idx < 64
def Dst.addrOk (d : Dst) : Bool := d.cls == .address && d.wbOk && d.idx < 16
def Dst.predOk (d : Dst) : Bool := d.cls == .predicate && d.wbOk && d.idx < 8
def Dst.noneOk (d : Dst) : Bool := d == Dst.noDest

def Guard.ok (g : Guard) : Bool := g.p < 8

/-- R104: a listed order, and a mask with every order but relaxed. -/
def MExt.ok (orders : List Order) (e : MExt) : Bool :=
  e.hint < 4 && orders.contains e.ord && (e.ord == .rlx || e.mask != 0)

/-- The number of sources an instruction names; the rest are zero (R97). -/
def Alu.restZero (o : Alu) (n : Nat) : Bool :=
  (1 ≤ n || o.a.isZero) && (2 ≤ n || o.b.isZero) && (3 ≤ n || o.c.isZero)

/-- A scalar instruction with `n` sources (R183, R190): `uns64` says whether sub[3] is allowed with format 1. -/
def Alu.scalarOk (n : Nat) (uns64 : Bool) (dst : Dst → Bool) (o : Alu) : Bool :=
  o.g.ok && (o.fmt == .i32 || (o.fmt == .i64 && (uns64 || !o.uns))) && dst o.d
    && o.a.scaOk && o.b.scaOk && o.c.scaOk && o.restZero n

/-- Vector integer formats 0 to 3, and 0 to 1 (R185). -/
def intFmts : List Fmt := [.i32, .i64, .i16, .i8]
def wideIntFmts : List Fmt := [.i32, .i64]

/-- A vector integer instruction with `n` sources (R183, R185). -/
def Alu.vectorOk (n : Nat) (fmts : List Fmt) (unsOk : Bool) (o : Alu) : Bool :=
  o.g.ok && fmts.contains o.fmt && (unsOk || !o.uns) && o.d.vecOk o.fmt
    && o.a.vecOk o.fmt && o.b.vecOk o.fmt && o.c.vecOk o.fmt && o.restZero n

/-- Floating-point formats (R232). -/
def floatFmts : List Fmt := [.f32, .f64, .bf16, .f16]
def wideFloatFmts : List Fmt := [.f32, .f64]
def ocpFmts : List Fmt := [.e4m3, .e5m2, .e2m1, .e3m2, .e2m3]
def storeFmts : List Fmt := [.f32, .bf16, .f16, .e4m3, .e5m2]

/-- Elements of a format in one 32-bit lane (R210, R213). -/
def Fmt.perLane : Fmt → Nat
  | .i16 | .bf16 | .f16 => 2
  | .i8 | .e4m3 | .e5m2 | .e3m2 | .e2m3 => 4
  | .e2m1 => 8
  | _ => 1

/-- The conversion fields of R239: js and jd in range; sat only where allowed. -/
def Cv.ok (satOk : Bool) (df : Fmt) (v : Cv) : Bool :=
  (satOk || !v.sat) && v.jd < df.perLane && v.js < v.sf.perLane

/-- A conversion (R240): destination and source formats, one value source. -/
def convOk (dfs sfs : List Fmt) (satOk unsOk : Bool) (n : Nat) (v : Cv) (o : Alu) : Bool :=
  o.g.ok && dfs.contains o.fmt && sfs.contains v.sf && v.ok satOk o.fmt && (unsOk || !o.uns) && o.d.vecOk o.fmt
    && o.a.vecOk v.sf && o.b.vecOk .i32 && o.restZero n

/-- Formats 4 to 12. -/
def realFmts : List Fmt := floatFmts ++ ocpFmts

/-- Assigned system register numbers (R195). -/
def sysAssigned (n : Nat) : Bool :=
  n ≤ 0x04 || (0x08 ≤ n && n ≤ 0x14) || (0x18 ≤ n && n ≤ 0x1E) || (0x20 ≤ n && n ≤ 0x22) || n == 0x24

/-- Assigned matrix register numbers (R267). -/
def mxAssigned (n : Nat) : Bool := n ≤ 0x03 || (0x08 ≤ n && n ≤ 0x0C) || (0x10 ≤ n && n ≤ 0x17)

def immIn (lo hi v : Int) : Bool := decide (lo ≤ v ∧ v ≤ hi)

/-- An address instruction (R199). -/
def AddrOp.ok (o : AddrOp) (dst : Dst → Bool) (x y : Src → Bool) : Bool :=
  o.g.ok && dst o.d && o.a < 16 && x o.x && y o.y

/-- A load or store (R315). -/
def Mem.ok (o : Mem) (dst : Dst → Bool) (x y : Src → Bool) (orders : List Order) : Bool :=
  o.g.ok && dst o.d && o.a < 16 && x o.x && y o.y && o.e.ok orders

def loadFmts : List Fmt := [.i32, .i64, .i16, .i8, .b128]

/-- sub[3] of a load (R315): with formats 2 and 3, and with format 0 where `w` allows it. -/
def Mem.loadUns (o : Mem) (w : Bool) : Bool := !o.uns || o.fmt == .i16 || o.fmt == .i8 || (w && o.fmt == .i32)

/-- Source 1 of `ld` and `st` by mode (R315). -/
def laneSrcOk : LaneMode → Src → Bool
  | .linear => Src.isZero
  | _ => Src.vecOk .i32

/-- An atomic (R371): the kinds of sources 1 and 2 follow the destination class. -/
def Mem.atomicOk (o : Mem) (fmts : List Fmt) (dst : Dst → Bool) (vf : Fmt) : Bool :=
  let scalar := o.d.cls == .scalar
  o.g.ok && !o.uns && fmts.contains o.fmt && dst o.d && o.a < 16 && (if scalar then o.x.scaOk else o.x.vecOk .i32)
    && (if scalar then o.y.scaOk else o.y.vecOk vf) && o.e.ok [.rlx, .acq, .rel, .acqrel, .sc]

/-- The destinations of an atomic of opcode 0x80. -/
def atomicDst (f : Fmt) (d : Dst) : Bool := d.vecOk f || d.scaOk || d.noneOk

/-- A barge command (R327, R328): `b` scalars from k on. -/
def Copy.ok (o : Copy) (fmts : List Fmt) (b : Nat) : Bool :=
  o.g.ok && fmts.contains o.fmt && (o.d.scaOk || o.d.noneOk) && o.dst < 16 && o.src < 16 && o.k + b ≤ 64 && o.e.ok [.rel]

/-- A barrier instruction (R384). -/
def barOk (g : Guard) (b : Int) (e : MExt) (orders : List Order) : Bool :=
  g.ok && immIn 0 15 b && e.ok orders && e.hint == 0 && e.off == 0

/-- The encoding table of every instruction (R12, R97 to R100, R103, R104 and the chapter's own table). False raises 0x01 subcode 0x00. -/
def Instr.legal : Instr → Bool
  | .nop g => g.ok
  | .br g _ => g.ok
  | .bre _ fl a _ => fl < 4 && 8 ≤ a && a < 16
  | .mark o => decide (1 ≤ o)
  | .join => true
  | .call f _ => f == 8 || f == 16 || f == 24 || f == 32
  | .callx g f v => g.ok && (f == 8 || f == 16 || f == 24 || f == 32) && vecIdxOk .i64 v
  | .ret => true
  | .jmpx r => r < 64
  | .grow v | .shrink v => (match v with | .reg i => i < 64 | .imm n => immIn 8 256 n | _ => false)
  | .yield g => g.ok
  | .exit g => g.ok
  | .trap g n => g.ok && immIn 0 255 n
  | .eret => true
  | .rdsys g d n => g.ok && d.scaOk && sysAssigned n
  | .wrsys g d a => g.ok && d.cls == .system && d.wbOk && sysAssigned d.idx && a.scaOk
  | .sadd o | .ssub o | .smul o | .sand o | .sor o | .sxor o | .sandn o | .sshl o | .sshr o | .ssar o | .srot o =>
    o.scalarOk 2 false Dst.scaOk
  | .smulh o | .sdiv o | .srem o => o.scalarOk 2 true Dst.scaOk
  | .smad o | .ssel o => o.scalarOk 3 false Dst.scaOk
  | .scmp _ o => o.scalarOk 2 true Dst.predOk
  | .smov o | .spopc o | .sclz o | .sctz o | .sbrev o => o.scalarOk 1 false Dst.scaOk
  | .aset s o => o.ok (fun d => d.addrOk && d.wb) Src.scaOk (if s = .rgn then Src.scaOk else Src.isZero)
  | .aadv o => o.ok (fun d => d.addrOk && d.wb) Src.scaOk Src.isZero
  | .abind o => o.ok (fun d => d.addrOk && d.wb && 8 ≤ d.idx) (fun s => match s with | .reg i => i ≤ 56 | _ => false) Src.isZero
  | .aunbind o => o.ok (fun d => d.addrOk && d.wb && 8 ≤ d.idx) Src.isZero Src.isZero
  | .aget _ o => o.ok Dst.scaOk Src.isZero Src.isZero
  | .atrn o => o.ok Dst.noneOk Src.isZero Src.isZero
  | .iadd o | .isub o | .imul o | .shl o | .shr o | .sar o | .irot _ o => o.vectorOk 2 intFmts false
  | .imulh o | .iadds o | .isubs o | .imin o | .imax o | .iabsd o => o.vectorOk 2 intFmts true
  | .imad o => o.vectorOk 3 intFmts false
  | .iabs o | .ineg o | .popc o | .clz o | .ctz o | .brev o => o.vectorOk 1 intFmts false
  | .icmp _ o => o.g.ok && wideIntFmts.contains o.fmt && o.d.predOk && o.a.vecOk o.fmt && o.b.vecOk o.fmt && o.c.isZero
  | .isel o =>
    o.g.ok && wideIntFmts.contains o.fmt && !o.uns && o.d.vecOk o.fmt && o.a.vecOk o.fmt && o.b.vecOk o.fmt && o.c.predOk
  | .and o | .or o | .xor o | .andn o | .orn o | .xnor o => o.vectorOk 2 wideIntFmts false
  | .not o | .imov o => o.vectorOk 1 wideIntFmts false
  | .lut3 _ o => o.vectorOk 3 wideIntFmts false
  | .bfx o => o.g.ok && wideIntFmts.contains o.fmt && o.d.vecOk o.fmt && o.a.vecOk o.fmt && o.b.vecOk o.fmt && o.c.isZero
  | .bfi o => o.vectorOk 3 wideIntFmts false
  | .vmovx w o =>
    o.g.ok && wideIntFmts.contains o.fmt && !o.uns && o.d.vecOk o.fmt && o.b.vecOk .i32 && o.c.isZero
      && (if w then o.d.wb && o.a.vecOk o.fmt else (match o.a with | .reg i => vecIdxOk o.fmt i | _ => false))
  | .idot4 o => o.vectorOk 3 [.i32] true
  | .icvt _ sf js jd o =>
    o.g.ok && intFmts.contains o.fmt && intFmts.contains sf && js < sf.perLane && jd < o.fmt.perLane
      && o.d.vecOk o.fmt && o.a.vecOk sf && o.b.isZero && o.c.isZero
  | .fadd _ o | .fsub _ o | .fmul _ o => o.vectorOk 2 floatFmts false
  | .ffma _ o => o.vectorOk 3 floatFmts false
  | .fmin o | .fmax o | .fcsgn o => o.vectorOk 2 floatFmts false
  | .fabs o | .fneg o => o.vectorOk 1 floatFmts false
  | .fcmp _ o => o.g.ok && wideFloatFmts.contains o.fmt && !o.uns && o.d.predOk && o.a.vecOk o.fmt && o.b.vecOk o.fmt && o.c.isZero
  | .fclass o =>
    o.g.ok && floatFmts.contains o.fmt && !o.uns && o.d.vecOk (if o.fmt = .f64 then .i32 else o.fmt) && o.a.vecOk o.fmt
      && o.b.isZero && o.c.isZero
  | .fclassFl o => o.g.ok && o.fmt == .none && !o.uns && o.d.vecOk .i32 && o.a.vecOk .i32 && o.b.isZero && o.c.isZero
  | .frcp o | .frsq o => o.vectorOk 1 [.f32] false
  | .fsqrt _ o => o.vectorOk 1 wideFloatFmts false
  | .fdiv _ o => o.vectorOk 2 wideFloatFmts false
  | .fexp2 _ o | .flog2 _ o => o.vectorOk 1 [.f32] false
  | .fscale _ o =>
    o.g.ok && floatFmts.contains o.fmt && !o.uns && o.d.vecOk o.fmt && o.a.vecOk o.fmt && o.b.vecOk .i32 && o.c.isZero
  | .cvt _ v o => convOk realFmts realFmts true false 1 v o && v.sf != o.fmt
  | .cvtf _ v o => convOk floatFmts intFmts false true 1 v o
  | .cvti _ v o => convOk intFmts floatFmts false true 1 v o
  | .frint _ v o => convOk floatFmts floatFmts false false 1 v o && v.sf == o.fmt
  | .cvtbs _ v o =>
    convOk realFmts realFmts false false 2 v o
      && ((ocpFmts.contains o.fmt && (v.sf == .f32 || v.sf == .bf16)) || ((o.fmt == .f32 || o.fmt == .bf16) && ocpFmts.contains v.sf))
  | .fdot2 _ v o =>
    o.g.ok && o.fmt == .f32 && !o.uns && (v.sf == .bf16 || v.sf == .f16) && !v.sat && v.jd == 0 && v.js == 0 && o.d.vecOk .f32
      && o.a.vecOk v.sf && o.b.vecOk v.sf && o.c.vecOk .f32
  | .qswap _ o => o.vectorOk 1 wideIntFmts false
  | .qbcast k o => k < 4 && o.vectorOk 1 wideIntFmts false
  | .lxch _ seg o =>
    1 ≤ seg && seg ≤ 5 && o.g.ok && wideIntFmts.contains o.fmt && !o.uns && o.d.vecOk o.fmt && o.a.vecOk o.fmt
      && o.b.vecOk .i32 && o.c.isZero
  | .lbcast first o =>
    o.g.ok && wideIntFmts.contains o.fmt && !o.uns && (o.d.vecOk o.fmt || o.d.scaOk) && o.a.vecOk o.fmt && o.c.isZero
      && (if first then o.b.isZero else (match o.b with | .reg i => i < 64 | .imm n => immIn 0 31 n | _ => false))
  | .lred op m o => laneReduceOk op m o (fun d => d.vecOk o.fmt || d.scaOk)
  | .lscan op m o => laneReduceOk op m o (Dst.vecOk o.fmt)
  | .lpoll v o =>
    o.g.ok && o.fmt == .none && !o.uns && o.a.predOk && o.b.isZero && o.c.isZero
      && (o.d.scaOk || (o.d.predOk && (v == .some || v == .every || v == .same)))
  | .pand o | .por o | .pxor o =>
    o.g.ok && o.fmt == .none && !o.uns && o.d.predOk && o.a.predOk && o.b.predOk && o.c.isZero
  | .pnot o => o.g.ok && o.fmt == .none && !o.uns && o.d.predOk && o.a.predOk && o.b.isZero && o.c.isZero
  | .pmov t o =>
    o.g.ok && o.fmt == .none && !o.uns && o.b.isZero && o.c.isZero
      && (if t then o.d.scaOk && o.a.predOk else o.d.predOk && o.a.scaOk)
  | .lidx v o =>
    o.g.ok && o.fmt == .none && !o.uns && o.a.isZero && o.b.isZero && o.c.isZero
      && (match v with | .lane | .rank => o.d.vecOk .i32 | .active | .acting => o.d.scaOk)
  | .ld m o => loadFmts.contains o.fmt && o.loadUns false && o.ok (Dst.vecOk o.fmt) (laneSrcOk m) Src.isZero [.rlx, .acq, .sc]
  | .st m o => loadFmts.contains o.fmt && !o.uns && o.ok Dst.noneOk (laneSrcOk m) (Src.vecOk o.fmt) [.rlx, .rel, .sc]
  | .lds ix o =>
    intFmts.contains o.fmt && o.loadUns true && o.ok Dst.scaOk (if ix then Src.scaOk else Src.isZero) Src.isZero [.rlx, .acq, .sc]
  | .sts ix o =>
    intFmts.contains o.fmt && !o.uns && o.ok Dst.noneOk (if ix then Src.scaOk else Src.isZero) Src.scaOk [.rlx, .rel, .sc]
  | .sread v o =>
    loadFmts.contains o.fmt && o.loadUns (!v) && 8 ≤ o.a && o.e.off == 0
      && o.ok (fun d => d.vecOk o.fmt || (!v && intFmts.contains o.fmt && d.scaOk)) Src.isZero Src.isZero [.rlx, .acq, .sc]
  | .lda o => o.fmt == .none && !o.uns && o.ok Dst.addrOk Src.isZero Src.isZero [.rlx, .acq, .sc]
  | .sta o =>
    o.fmt == .none && !o.uns && o.ok Dst.noneOk (fun s => match s with | .reg i => i < 16 | _ => false) Src.isZero [.rlx, .rel, .sc]
  | .pf l o | .wback l o | .inv l o =>
    o.fmt == .none && !o.uns && o.e.mask == 0 && o.ok Dst.noneOk (if l then Src.vecOk .i32 else Src.scaOk) Src.isZero [.rlx]
  | .atadd o | .atsub o | .atmin o | .atmax o | .atminN o | .atmaxN o | .atand o | .ator o | .atxor o | .atswp o | .atinc o =>
    o.atomicOk wideIntFmts (atomicDst o.fmt) o.fmt
  | .atfadd o => o.atomicOk wideFloatFmts (atomicDst o.fmt) o.fmt
  | .atfaddRgn o => o.atomicOk [.none] Dst.noneOk .f32
  | .acas o => o.atomicOk wideIntFmts (fun d => (d.vecOk o.fmt || d.scaOk) && d.wb) o.fmt
  | .bara g b c e => barOk g b e [.rlx, .rel] && c.scaOk
  | .barw g b e => barOk g b e [.rlx, .acq]
  | .bars g b c e => barOk g b e [.rlx, .acq, .rel, .acqrel] && c.scaOk
  | .semwTk o | .semwTake o => o.fmt == .i64 && !o.uns && o.ok Dst.noneOk Src.scaOk Src.isZero [.rlx, .acq, .sc]
  | .semp o => o.fmt == .i64 && !o.uns && o.ok Dst.noneOk Src.scaOk Src.isZero [.rlx, .rel, .sc]
  | .mwait c o =>
    wideIntFmts.contains o.fmt && !o.uns && (c != .seq || o.fmt == .i64)
      && o.ok (fun d => d.predOk || d.scaOk || d.noneOk) Src.scaOk Src.scaOk [.rlx, .acq, .sc]
  | .fence g e => g.ok && e.ok [.acq, .rel, .acqrel, .sc] && e.hint == 0 && e.off == 0
  | .cpy o => o.ok [.none] 2
  | .cpys _ o => o.ok [.none] 8
  | .cpyadd o => o.ok [.f32, .bf16, .f16] 3
  | .cpybc o => o.ok [.none] 3
  | .plane _ o => o.ok [.pb] 8
  | .unplane _ o => o.ok realFmts 8
  | .cpyq g d q => g.ok && d.scaOk && q.scaOk
  | .cpycan g q => g.ok && q.scaOk
  | .cpyfill o => o.ok [.none] 3 && o.src == 0
  | .mma walk acc da db ks nk =>
    walk < 4 && acc < 8 && immIn 0 65535 da && immIn 0 65535 db && immIn 0 4294967295 ks && nk < 16384
  | .mzero acc => acc < 8
  | .mstore fmt acc od => storeFmts.contains fmt && acc < 8 && immIn 0 65535 od
  | .msig b | .mwaitb b => immIn 0 15 b
  | .mloop c n _ => c < 3 && immIn 1 65535 n
  | .mend => true
  | .fork g => g.ok
  | .mrd g d n => g.ok && d.scaOk && mxAssigned n
  | .mwr g n x => g.ok && mxAssigned n && x.scaOk
  | .mtol g fmt x => g.ok && storeFmts.contains fmt && x.scaOk
  | .mstat g d | .mstatClr g d => g.ok && d.scaOk
  | .mchk g fmt d acc => g.ok && storeFmts.contains fmt && d.scaOk && acc < 8
  | .mloc g d => g.ok && d.scaOk
  | .mfix g x => g.ok && (match x with | .reg i => i < 64 | .latch k => 1 ≤ k && k ≤ 8 | _ => false)
  | .mretry g | .mresume g | .mresumeAbandon g => g.ok
  | .coll kind uns g fmt d a e =>
    g.ok && ([Fmt.i32, .i64, .f32, .bf16, .f16].contains fmt || (fmt == .none && kind != .allReduce && kind != .reduceScatter))
      && (!uns || wideIntFmts.contains fmt) && (d.scaOk || d.noneOk) && a < 16 && e.ok [.rel] && e.hint == 0
  | .cwait g d q t e => g.ok && (d.scaOk || d.noneOk) && q.scaOk && t.scaOk && e.ok [.rlx, .acq] && e.hint == 0 && e.off == 0
  | .viewq g d k => g.ok && d.scaOk && immIn 0 16 k
  | .viewack g d x => g.ok && (d.scaOk || d.noneOk) && x.scaOk
  | .viewjoin g d t => g.ok && d.scaOk && t.scaOk
  | .cabort g q => g.ok && q.scaOk
  | .ckpt g d | .ckptWait g d => g.ok && (d.scaOk || d.noneOk)
  | .ckq g d k => g.ok && d.scaOk && immIn 0 3 k
  | .digest g fmt a ch =>
    g.ok && ([Fmt.i32, .i64].contains fmt && a.vecOk fmt || fmt == .b128 && (match a with | .reg i => vecIdxOk .b128 i | _ => false))
      && immIn 0 511 ch
  | .detq g d => g.ok && d.scaOk
  | .brk g n => g.ok && immIn 0 255 n
  | .tmark g x => g.ok && x.scaOk
  | .rdclk g d => g.ok && d.scaOk
  | .launch d a q e =>
    (d.scaOk || d.noneOk) && a < 16 && (match q with | .reg i => i < 64 | .imm n => immIn 0 63 n | _ => false)
      && e.ok [.rel] && e.hint == 0
  | .ximm sel _ => sel < 4
  | .unassignedOpcode w => !opcodeAssigned (w.extractLsb' 0 8).toNat && (w.extractLsb' 0 8).toNat != 0xF0
  | _ => false
where
  /-- The rows of `lred` and `lscan` (R243). -/
  laneReduceOk (op : ROp) (m : RMode) (o : Alu) (dst : Dst → Bool) : Bool :=
    let float := o.fmt == .f32 || o.fmt == .f64
    let minmax := op == .min || op == .max
    o.g.ok && (wideIntFmts.contains o.fmt || (float && (op == .add || minmax))) && (!o.uns || (minmax && !float))
      && (m == .rne || (float && op == .add)) && dst o.d && o.a.vecOk o.fmt && o.b.isZero && o.c.isZero

/-! ### The decoder -/

/-- Why a word with an assigned opcode is no instruction; each raises 0x01 subcode 0x00 (R97). -/
inductive Reject where
  /-- A sub, format, class, order or rounding value that names nothing. -/
  | noSuchVariant
  /-- A field the instruction does not use is not zero. -/
  | unusedNotZero
  /-- An operand kind, index, class or value the instruction's table does not list. -/
  | operandNotListed
deriving DecidableEq, Repr

/-- The instruction of fields whose opcode is assigned. -/
def decodeFields (f : Fields) : Except Reject Instr :=
  match f.build with
  | none => .error .noSuchVariant
  | some i => if i.fields ≠ some f then .error .unusedNotZero else if i.legal then .ok i else .error .operandNotListed

/-- `ximm` (R106): every field but selector and payload at its table value. -/
def decodeXimm (w : IWord) : Except Reject Instr :=
  if w.extractLsb' 64 32 = 0 ∧ w.extractLsb' 10 22 = 0b1100000000000000111100#22 then
    .ok (.ximm (w.extractLsb' 8 2).toNat (w.extractLsb' 32 32))
  else .error .unusedNotZero

/-- The instruction of a word. The major opcode is examined first (R110, R111): a word whose opcode names nothing is
`unassignedOpcode` whatever its other fields hold. -/
def decode (w : IWord) : Except Reject Instr :=
  let op := (w.extractLsb' 0 8).toNat
  if op = 0xF0 then decodeXimm w
  else if opcodeAssigned op then decodeFields (Fields.ofWord w)
  else .ok (.unassignedOpcode w)

/-- The word of an `ximm` (R106). -/
def ximmWord (sel : Nat) (payload : BitVec 32) : IWord :=
  0#32 ++ payload ++ 0b1100000000000000111100#22 ++ BitVec.ofNat 2 sel ++ 0xF0#8

/-- The word of an instruction; rows that are no word give zero, which `Instr.encodable` excludes. -/
def encode : Instr → IWord
  | .ximm sel payload => ximmWord sel payload
  | .unassignedOpcode w => w
  | i => match i.fields with
    | some f => f.word
    | none => 0

/-- Whether an immediate fits its 10-bit field (R100). -/
def Src.narrow : Src → Bool
  | .imm v => fitsSigned 10 v
  | _ => true

/-- Whether an instruction is one word by itself: every immediate and offset fits its field. -/
def Instr.encodable : Instr → Bool
  | .ximm _ _ => true
  | .unassignedOpcode _ => true
  | i => match i.fields with
    | some f => f.s0.narrow && f.s1.narrow && f.s2.narrow && f.wide.isNone
    | none => false

/-! ### Prefixed units -/

/-- Opcodes whose extension is a memory instruction's offset (R104): those `ximm` with selector 3 widens to 48 bits. -/
def hasMemOffset (op : Nat) : Bool :=
  (0x70 ≤ op && op ≤ 0x79) || op == 0x80 || op == 0x81 || (0x85 ≤ op && op ≤ 0x87) || (0x90 ≤ op && op ≤ 0x95) || op == 0x98
    || op == 0xB0 || op == 0xC8

/-- Opcodes that are branches for R107 (R163, R273). -/
def hasBranchOffset (op : Nat) : Bool := op == 0x01 || op == 0x02 || op == 0x03 || op == 0x05 || op == 0xA5

/-- A source with 32 more high bits: sext(payload : value[9:0], 42) (R107). -/
def Src.widen (payload : BitVec 32) : Src → Option Src
  | .imm v => some (.imm (payload ++ BitVec.ofInt 10 v).toInt)
  | _ => none

/-- The governed word's fields with the one immediate widened (R107); `none` is a use R108 refuses. -/
def Fields.widen (sel : Nat) (payload : BitVec 32) (f : Fields) : Option Fields :=
  match sel with
  | 0 => (f.s0.widen payload).map ({ f with s0 := · })
  | 1 => (f.s1.widen payload).map ({ f with s1 := · })
  | 2 => (f.s2.widen payload).map ({ f with s2 := · })
  | _ =>
    if hasMemOffset f.op then
      some { f with wide := wideOff 16 (payload ++ f.ext.extractLsb' 0 16).toInt }
    else if hasBranchOffset f.op then
      some { f with wide := wideOff 28 (payload ++ f.ext).toInt }
    else none

/-- How a word governed by a prefix is read (R108, R109). -/
inductive Governed where
  /-- A use R108 refuses: 0x01 subcode 0x03 at the prefix. -/
  | misuse
  /-- The widened instruction. -/
  | instr (i : Instr)
  /-- The governed word itself is refused. -/
  | reject (r : Reject)
deriving DecidableEq, Repr

/-- The governed word under `ximm` with a selector and payload (R107, R108): its opcode comes first, so that one that names nothing traps
as itself whatever its other fields hold (R111). -/
def decodeGoverned (sel : Nat) (payload : BitVec 32) (w : IWord) : Governed :=
  let op := (w.extractLsb' 0 8).toNat
  if op = 0xF0 then .misuse
  else if !opcodeAssigned op then .instr (.unassignedOpcode w)
  else match (Fields.ofWord w).widen sel payload with
    | none => .misuse
    | some f => match decodeFields f with
      | .ok i => .instr i
      | .error r => .reject r

/-! ### Bytes and the opcode table's words -/

/-- The word in twelve bytes, the byte at the lowest address holding bits [7:0] (R7). -/
def wordOfBytes (bs : List Byte) : IWord :=
  BitVec.ofNat 96 (bs.foldr (fun b n => n * 256 + b.toNat) 0)

/-- The twelve bytes of a word, lowest address first (R7). -/
def bytesOfWord (w : IWord) : List Byte := (List.range 12).map fun i => w.extractLsb' (8 * i) 8

/-- What the decoder reads from an instruction whose bits are `w`. -/
def decodeTableWord (nbits w : Nat) : Option Instr :=
  if nbits ≤ 96 then
    match decode (wordOfBytes (bytesOfWord (BitVec.ofNat 96 w))) with
    | .ok i => some i
    | .error _ => none
  else none

end Sys2Proof
end

