-- ==== Sys2Proof/Machine/Regs.lean ====
section
/-! DEFINITION. Every register an instruction reads and writes, as the pair rule R92 (e) and the interlock of R137 count them, and how
long its result takes. -/
namespace Sys2Proof

/-- Registers of a vector operand of a format (R98, R315). -/
def vecRegs (f : Fmt) (i : Nat) : List Reg :=
  if f == .b128 then [.v i, .v (i + 1), .v (i + 2), .v (i + 3)] else if f.is64 then [.v i, .v (i + 1)] else [.v i]

/-- Registers a vector source names. -/
def vecSrc (f : Fmt) : Src → List Reg
  | .reg i => vecRegs f i
  | .bcast i => [.s i]
  | _ => []

/-- Registers a scalar source names. -/
def scaSrc : Src → List Reg
  | .reg i => [.s i]
  | _ => []

/-- Registers a predicate source names. -/
def predSrc : Src → List Reg
  | .reg i => [.p i]
  | _ => []

/-- Scalars k to k + n - 1. -/
def scaRun (k n : Nat) : List Reg := (List.range n).map fun i => .s (k + i)

/-- Registers a destination writes (R99 b). -/
def Dst.regs (f : Fmt) (d : Dst) : List Reg :=
  if !d.wb then [] else match d.cls with
    | .vector => vecRegs f d.idx
    | .scalar => [.s d.idx]
    | .address => [.a d.idx]
    | .predicate => if d.idx = 0 then [] else [.p d.idx]
    | _ => []

/-- The predicate register of a predicate field; `p0` without negation is read by no one. -/
def guardRegs (g : Guard) : List Reg := if g.p = 0 then [] else [.p g.p]

/-- Reads of a vector instruction of one, two or three sources with these formats; a source it does not name is no read (R97). -/
def Alu.vecReads1 (o : Alu) (fa : Fmt) : List Reg := guardRegs o.g ++ vecSrc fa o.a
def Alu.vecReads2 (o : Alu) (fa fb : Fmt) : List Reg := o.vecReads1 fa ++ vecSrc fb o.b
def Alu.vecReads3 (o : Alu) (fa fb fc : Fmt) : List Reg := o.vecReads2 fa fb ++ vecSrc fc o.c

/-- Reads of a scalar instruction of one, two or three sources. -/
def Alu.scaReads1 (o : Alu) : List Reg := guardRegs o.g ++ scaSrc o.a
def Alu.scaReads2 (o : Alu) : List Reg := o.scaReads1 ++ scaSrc o.b
def Alu.scaReads3 (o : Alu) : List Reg := o.scaReads2 ++ scaSrc o.c

def Alu.predReads1 (o : Alu) : List Reg := guardRegs o.g ++ predSrc o.a
def Alu.predReads2 (o : Alu) : List Reg := o.predReads1 ++ predSrc o.b

/-- The destination register whose other elements a conversion keeps (R188, R239). -/
def Alu.kept (o : Alu) : List Reg := if 1 < o.fmt.perLane then o.d.regs o.fmt else []

/-- The counter of the stochastic-rounding generator, which mode 4 reads and advances (R195, R225). -/
def RMode.regs (m : RMode) : List Reg := if m = .rs then [.sys 0x24] else []

def AddrOp.reads (o : AddrOp) : List Reg := guardRegs o.g ++ [.a o.a]

/-- Reads of a memory instruction: its address register, then sources 1 and 2 where it names them. -/
def Mem.reads (o : Mem) : List Reg := guardRegs o.g ++ [.a o.a]
def Mem.scaReads (o : Mem) : List Reg := o.reads ++ scaSrc o.x ++ scaSrc o.y
def Mem.atomReads (o : Mem) : List Reg := if o.d.cls = .scalar then o.scaReads else o.reads ++ vecSrc .i32 o.x ++ vecSrc o.fmt o.y
/-- The lane offset of `ld` and `st` (R315). -/
def Mem.laneSrc (o : Mem) (m : LaneMode) : List Reg := if m = .linear then [] else vecSrc .i32 o.x

/-- Scalars of a barge command's parameter block (R328). -/
def Copy.reads (o : Copy) (n : Nat) : List Reg := guardRegs o.g ++ [.a o.dst, .a o.src] ++ scaRun o.k n

/-- Every register an instruction reads, beyond its fields too (R92 e). -/
def Instr.reads : Instr → List Reg
  | .br g _ | .nop g | .yield g | .exit g | .trap g _ => guardRegs g
  | .bre _ _ a _ => [.a a]
  | .callx g _ v => guardRegs g ++ vecRegs .i64 v
  | .jmpx r => [.s r]
  | .grow v | .shrink v => scaSrc v
  | .rdsys g _ n => .sys n :: guardRegs g
  | .wrsys g _ a => guardRegs g ++ scaSrc a
  | .sadd o | .ssub o | .smul o | .smulh o | .sand o | .sor o | .sxor o | .sandn o | .sshl o | .sshr o | .ssar o
  | .srot o | .scmp _ o | .sdiv o | .srem o => o.scaReads2
  | .smad o | .ssel o => o.scaReads3
  | .smov o | .spopc o | .sclz o | .sctz o | .sbrev o => o.scaReads1
  | .abind o => o.reads ++ (match o.x with | .reg k => scaRun k 8 | _ => [])
  | .aset f o => o.reads ++ scaSrc o.x ++ (if f = .rgn then scaSrc o.y else [])
  | .aadv o => o.reads ++ scaSrc o.x
  | .aunbind o | .aget _ o | .atrn o => o.reads
  | .isel o => o.vecReads2 o.fmt o.fmt ++ predSrc o.c
  | .vmovx w o => if w then o.vecReads2 o.fmt .i32 else guardRegs o.g ++ [.window] ++ vecSrc .i32 o.b
  | .icvt _ sf _ _ o => o.vecReads1 sf ++ o.kept
  | .fscale m o => o.vecReads2 o.fmt .i32 ++ m.regs
  | .cvt m v o | .cvtf m v o | .cvti m v o | .frint m v o => o.vecReads1 v.sf ++ o.kept ++ m.regs
  | .cvtbs m v o => o.vecReads2 v.sf .i32 ++ o.kept ++ m.regs
  | .fdot2 m v o => o.vecReads3 v.sf v.sf .f32 ++ m.regs
  | .lxch _ _ o => o.vecReads2 o.fmt .i32
  | .lbcast first o => guardRegs o.g ++ vecSrc o.fmt o.a ++ (if first then [] else scaSrc o.b)
  | .lpoll _ o | .pnot o => o.predReads1
  | .pand o | .por o | .pxor o => o.predReads2
  | .pmov t o => guardRegs o.g ++ (if t then predSrc o.a else scaSrc o.a)
  | .lidx _ o => guardRegs o.g
  | .iabs o | .ineg o | .not o | .popc o | .clz o | .ctz o | .brev o | .imov o | .fabs o | .fneg o | .fclass o | .fclassFl o
  | .frcp o | .frsq o | .qswap _ o | .qbcast _ o => o.vecReads1 o.fmt
  | .fsqrt m o | .fexp2 m o | .flog2 m o | .lred _ m o | .lscan _ m o => o.vecReads1 o.fmt ++ m.regs
  | .iadd o | .isub o | .imul o | .imulh o | .iadds o | .isubs o | .imin o | .imax o | .icmp _ o
  | .and o | .or o | .xor o | .andn o | .orn o | .xnor o | .shl o | .shr o | .sar o | .irot _ o | .bfx o | .iabsd o
  | .fmin o | .fmax o | .fcsgn o | .fcmp _ o => o.vecReads2 o.fmt o.fmt
  | .fadd m o | .fsub m o | .fmul m o | .fdiv m o => o.vecReads2 o.fmt o.fmt ++ m.regs
  | .imad o | .lut3 _ o | .bfi o | .idot4 o => o.vecReads3 o.fmt o.fmt o.fmt
  | .ffma m o => o.vecReads3 o.fmt o.fmt o.fmt ++ m.regs
  | .ld m o => o.reads ++ o.laneSrc m
  | .st m o => o.reads ++ o.laneSrc m ++ vecSrc o.fmt o.y
  | .lds i o => o.reads ++ (if i then scaSrc o.x else [])
  | .sts i o => o.reads ++ (if i then scaSrc o.x else []) ++ scaSrc o.y
  | .sread _ o | .lda o => o.reads
  | .semwTk o | .semwTake o | .semp o => o.reads ++ scaSrc o.x
  | .mwait _ o => o.scaReads
  | .sta o => o.reads ++ (match o.x with | .reg i => [.a i] | _ => [])
  | .pf l o | .wback l o | .inv l o => o.reads ++ (if l then vecSrc .i32 o.x else scaSrc o.x)
  | .atadd o | .atsub o | .atmin o | .atmax o | .atminN o | .atmaxN o | .atand o | .ator o | .atxor o | .atswp o | .atinc o
  | .atfadd o => o.atomReads
  | .atfaddRgn o => o.reads ++ vecSrc .i32 o.x ++ vecSrc .f32 o.y
  | .acas o => o.atomReads ++ o.d.regs o.fmt
  | .bara g _ c _ | .bars g _ c _ => guardRegs g ++ scaSrc c
  | .barw g _ _ | .fence g _ => guardRegs g
  | .cpy o => o.reads 2
  | .cpys _ o | .plane _ o | .unplane _ o => o.reads 8
  | .cpyadd o | .cpybc o => o.reads 3
  | .cpyfill o => guardRegs o.g ++ [.a o.dst] ++ scaRun o.k 3
  | .cpyq g _ q | .cpycan g q => guardRegs g ++ scaSrc q
  | .fork g | .mrd g _ _ | .mstat g _ | .mstatClr g _ | .mchk g _ _ _ | .mloc g _ | .mretry g | .mresume g
  | .mresumeAbandon g => guardRegs g
  | .mwr g _ x | .mtol g _ x => guardRegs g ++ scaSrc x
  | .mfix g x => guardRegs g ++ scaSrc x
  | .coll _ _ g _ _ a _ => guardRegs g ++ [.a a]
  | .cwait g _ q t _ => guardRegs g ++ scaSrc q ++ scaSrc t
  | .viewq g _ _ | .ckpt g _ | .ckptWait g _ | .ckq g _ _ | .detq g _ | .brk g _ | .rdclk g _ => guardRegs g
  | .viewack g _ x | .viewjoin g _ x | .cabort g x | .tmark g x => guardRegs g ++ scaSrc x
  | .digest g fmt a _ => guardRegs g ++ vecSrc fmt a
  | .launch _ a q _ => [.a a] ++ scaSrc q
  | _ => []

/-- The rounding mode of an instruction that has one. -/
def Instr.rmode : Instr → RMode
  | .fadd m _ | .fsub m _ | .fmul m _ | .ffma m _ | .fsqrt m _ | .fdiv m _ | .fexp2 m _ | .flog2 m _ | .fscale m _ | .cvt m _ _
  | .cvtf m _ _ | .cvti m _ _ | .frint m _ _ | .cvtbs m _ _ | .fdot2 m _ _ | .lred _ m _ | .lscan _ m _ => m
  | _ => .rne

/-- Every register an instruction writes through its destination field, and the address register an `sread` advances (R206). -/
def Instr.results : Instr → List Reg
  | .vmovx w o => if w then [.window] else o.d.regs o.fmt
  | .fclass o => o.d.regs (if o.fmt = .f64 then .i32 else o.fmt)
  | .sread _ o => .a o.a :: o.d.regs o.fmt
  | .wrsys _ d _ => [.sys d.idx]
  | .sadd o | .ssub o | .smul o | .smulh o | .smad o | .sand o | .sor o | .sxor o | .sandn o | .sshl o | .sshr o | .ssar o
  | .srot o | .scmp _ o | .smov o | .ssel o | .sdiv o | .srem o | .spopc o | .sclz o | .sctz o | .sbrev o
  | .iadd o | .isub o | .imul o | .imad o | .imulh o | .iadds o | .isubs o | .imin o | .imax o | .iabs o | .ineg o | .icmp _ o
  | .isel o | .and o | .or o | .xor o | .andn o | .orn o | .xnor o | .not o | .lut3 _ o | .shl o | .shr o | .sar o
  | .irot _ o | .popc o | .clz o | .ctz o | .brev o | .bfx o | .bfi o | .imov o | .idot4 o | .icvt _ _ _ _ o | .iabsd o
  | .fadd _ o | .fsub _ o | .fmul _ o | .ffma _ o | .fmin o | .fmax o | .fabs o | .fneg o | .fcsgn o | .fcmp _ o | .fclassFl o
  | .frcp o | .frsq o | .fsqrt _ o | .fdiv _ o | .fexp2 _ o | .flog2 _ o | .fscale _ o | .cvt _ _ o | .cvtf _ _ o
  | .cvti _ _ o | .frint _ _ o | .cvtbs _ _ o | .fdot2 _ _ o | .qswap _ o | .qbcast _ o | .lxch _ _ o | .lbcast _ o
  | .lred _ _ o | .lscan _ _ o | .lpoll _ o | .pand o | .por o | .pxor o | .pnot o | .pmov _ o | .lidx _ o => o.d.regs o.fmt
  | .ld _ o | .lds _ o | .lda o | .atadd o | .atsub o | .atmin o | .atmax o | .atminN o | .atmaxN o | .atand o | .ator o
  | .atxor o | .atswp o | .atinc o | .atfadd o | .acas o | .mwait _ o => o.d.regs o.fmt
  | .aset _ o | .aadv o | .abind o | .aunbind o | .aget _ o => o.d.regs .none
  | .cpy o | .cpys _ o | .cpyadd o | .cpybc o | .plane _ o | .unplane _ o | .cpyfill o => o.d.regs .none
  | .rdsys _ d _ | .cpyq _ d _ | .mrd _ d _ | .mstat _ d | .mstatClr _ d | .mchk _ _ d _ | .mloc _ d | .coll _ _ _ _ d _ _
  | .cwait _ d _ _ _ | .viewq _ d _ | .viewack _ d _ | .viewjoin _ d _ | .ckpt _ d | .ckptWait _ d | .ckq _ d _
  | .detq _ d | .rdclk _ d | .launch d _ _ _ => d.regs .none
  | _ => []

/-- Every register an instruction writes. -/
def Instr.writes (i : Instr) : List Reg := i.rmode.regs ++ i.results

/-- Whether two register names can be one register. -/
def Reg.meets : Reg → Reg → Bool
  | .window, .v _ | .v _, .window => true
  | x, y => x == y

/-- The latches a word's sources name. -/
def latchesOf (w : IWord) : List Nat :=
  let f := Fields.ofWord w
  [f.s0, f.s1, f.s2].filterMap fun x => match x with | .latch k => some k | _ => none

/-- Whether an instruction's sources name latch w1. -/
def readsW1 (w : IWord) : Bool := (latchesOf w).contains 1

/-! ### Latencies (R137) -/

/-- L of R137: how many cycles after its issue a result may be read from its latch, for an instruction that awaits no answer. -/
def Instr.latency : Instr → Nat
  | .imul _ | .imad _ | .imulh _ | .idot4 _ | .fdot2 _ _ _ | .fclassFl _ => 4
  | .qswap _ _ | .qbcast _ _ | .lxch _ _ _ | .lbcast _ _ | .lpoll _ _ => 4
  | .fadd _ o | .fsub _ o | .fmul _ o | .ffma _ o | .fscale _ o | .fmin o | .fmax o | .fabs o | .fneg o | .fcsgn o | .fcmp _ o
  | .fclass o => if o.fmt.is64 then 8 else 4
  | .cvt _ v o | .cvtf _ v o | .cvti _ v o | .frint _ v o | .cvtbs _ v o => if o.fmt.is64 || v.sf.is64 then 8 else 4
  | .frcp _ | .frsq _ | .fexp2 _ _ | .flog2 _ _ => 8
  | .lred _ _ _ | .lscan _ _ _ => 10
  | .fsqrt _ o | .fdiv _ o | .sdiv o | .srem o => if o.fmt.is64 then 32 else 16
  | .iadd _ | .isub _ | .iadds _ | .isubs _ | .imin _ | .imax _ | .iabs _ | .ineg _ | .icmp _ _ | .isel _ | .and _ | .or _
  | .xor _ | .andn _ | .orn _ | .xnor _ | .not _ | .lut3 _ _ | .shl _ | .shr _ | .sar _ | .irot _ _ | .popc _ | .clz _ | .ctz _
  | .brev _ | .bfx _ | .bfi _ | .imov _ | .vmovx _ _ | .icvt _ _ _ _ _ | .iabsd _ | .pand _ | .por _ | .pxor _ | .pnot _
  | .pmov _ _ | .lidx _ _ => 2
  | _ => 1

/-- Whether an instruction can move the vector window, so that it names every register of it (R170 to R172, R176). -/
def Instr.movesWindow : Instr → Bool
  | .call _ _ | .callx _ _ _ | .ret | .exit _ | .join => true
  | _ => false

end Sys2Proof
end

