-- ==== Sys2Proof/Machine/Fetch.lean ====
section
/-! DEFINITION. Fetch (spec/03 R86 to R95): reading a line, its checks, pairs, and the checks of a transfer's target. -/
namespace Sys2Proof.Machine

/-! ### The line (R86 to R92) -/

def wordOp (w : IWord) : Nat := (w.extractLsb' 0 8).toNat
def isVectorOp (w : IWord) : Bool := 0x20 ≤ wordOp w && wordOp w ≤ 0x6F
def isXimm (w : IWord) : Bool := wordOp w == 0xF0

/-- The word of slot k. -/
def Line.word (l : Line) (k : Nat) : IWord := nth l.words k 0

/-- Target bit of slot k (R87). -/
def Line.target (l : Line) (k : Nat) : Bool := l.lw.getLsbD k
/-- Pair bit of slots k and k + 1 (R87). -/
def Line.pair (l : Line) (k : Nat) : Bool := k < 4 && l.lw.getLsbD (5 + k)

/-- A line from its 64 bytes (R86). -/
def Line.ofBytes (addr : Nat) (bs : List Byte) : Line where
  addr := addr
  words := [0, 1, 2, 3, 4].map fun k => BitVec.ofNat 96 (leNat ((bs.drop (12 * k)).take 12))
  lw := BitVec.ofNat 32 (leNat ((bs.drop 60).take 4))

/-- The exclusive-or of the sixteen-bit pieces of a word: bit j is the parity of bits i with i mod 16 = j. -/
def fold16 (w : IWord) : BitVec 16 :=
  w.extractLsb' 0 16 ^^^ w.extractLsb' 16 16 ^^^ w.extractLsb' 32 16 ^^^ w.extractLsb' 48 16 ^^^ w.extractLsb' 64 16
    ^^^ w.extractLsb' 80 16

/-- The groups that fail, bit j for group j (R88). -/
def Line.failedGroups (l : Line) : BitVec 16 :=
  l.words.foldl (fun x w => x ^^^ fold16 w) (l.lw.extractLsb' 0 16 ^^^ l.lw.extractLsb' 16 16)

/-- Whether slot k is governed by a prefix. -/
def Line.governed (l : Line) (k : Nat) : Bool := 0 < k && isXimm (l.word (k - 1))

/-- Registers of a word that is an instruction. -/
def wordReads (w : IWord) : List Reg := match decode w with | .ok i => i.reads | .error _ => []
def wordWrites (w : IWord) : List Reg := match decode w with | .ok i => i.writes | .error _ => []

/-- Whether the pair of slots k and k + 1 is legal (R92). -/
def Line.pairLegal (l : Line) (k : Nat) : Bool :=
  let x := l.word k
  let y := l.word (k + 1)
  !(l.pair (k + 1)) && (isVectorOp x != isVectorOp y)
    && !isXimm x && !isXimm y && !l.governed k && !l.governed (k + 1)
    && !(wordOp x < 0x10)
    && !readsW1 y && !((wordReads y).any fun r => (wordWrites x).any r.meets)

/-- Line word format (R90 check 5). -/
def Line.formatOk (l : Line) : Bool := l.lw.extractLsb' 12 4 == 0 && l.lw.extractLsb' 9 3 == 1

/-- Target bits on governed slots (R90 check 7). -/
def Line.targetAfterPrefix (l : Line) : Bool := [1, 2, 3, 4].any fun k => l.target k && isXimm (l.word (k - 1))

/-- A refused fetch or transfer: cause, subcode and cause data. -/
abbrev PcFault := Nat × Nat × Word

/-- The pieces of a line that may be fetched (R90 checks 1 and 2). -/
def State.linePieces (s : State) (e : Env) (addr : Nat) : Except PcFault (List Piece) :=
  let at' := BitVec.ofNat 64 addr
  match windowOf addr with
  | .localSlice | .globalSlice => .error (0x06, 1, at')
  | .hole => .error (0x13, 1, at')
  | .unified =>
    match s.placeAll e addr 64 with
    | .error (c, sub) => .error (c, sub, at')
    | .ok ps => if ps.any fun p => !p.x then .error (0x06, 0, at') else .ok (ps.map (·.piece))

/-- The line in pieces that carry no poison and whose parity groups pass (R90 checks 3 and 4). -/
def State.lineIn (s : State) (addr : Nat) (ps : List Piece) : Except PcFault Line :=
  let at' := BitVec.ofNat 64 addr
  if ps.any s.poisoned then .error (0x51, 1, at')
  else
    let l := Line.ofBytes addr (s.readPieces ps)
    if l.failedGroups ≠ 0 then .error (0x05, 0, at') else .ok l

/-- R90 checks 5 to 7. -/
def Line.checked (l : Line) : Except PcFault Line :=
  if !l.formatOk then .error (0x01, 0x10, 0)
  else if [0, 1, 2, 3].any fun k => l.pair k && !l.pairLegal k then .error (0x01, 0x11, 0)
  else if l.targetAfterPrefix then .error (0x01, 0x12, 0)
  else .ok l

/-- Reads and checks a line (R90). -/
def State.readLine (s : State) (e : Env) (addr : Nat) : Except PcFault Line := do
  let ps ← s.linePieces e addr
  let l ← s.lineIn addr ps
  l.checked

/-- A line read once more has passed its parity groups: the core's corrected-fetch counter counts it (R90). -/
def State.corrected (s : State) (core : Nat) : State :=
  if s.fetchUpset then { s with fetchUpset := false, correctedFetch := s.correctedFetch.put core (s.correctedFetch.getD core 0 + 1) }
  else s

/-- A core fetches a line: it may meet an error behind a host port (R301, R444), and a refetch counts whatever the later checks find. -/
def State.fetchLine (s : State) (e : Env) (core : Nat) (who : Outstanding) (addr : Nat) : State × Except PcFault Line :=
  match s.linePieces e addr with
  | .error f => (s, .error f)
  | .ok ps =>
    match if ps.any (·.host.isSome) then s.portFault who else none with
    | some sub => (s.faultMet who, .error (0x51, if sub = 0 then 1 else sub, BitVec.ofNat 64 addr))
    | none => match s.lineIn addr ps with
      | .error f => (s, .error f)
      | .ok l => ((s.corrected core).translated e [addr], l.checked)

/-- R94's checks of a PC. -/
def checkPc (pc : Word) : Except PcFault Unit :=
  if 4 < pcSlot pc || pc.extractLsb' 3 3 ≠ 0 then .error (0x04, 0, pc)
  else if pc.extractLsb' 47 17 ≠ 0 then .error (0x04, 1, pc)
  else match windowOf (pcLineAddr pc) with
    | .localSlice | .globalSlice => .error (0x06, 1, pc)
    | _ => .ok ()

/-- R94 and then R91: a line that fails R90 lets the transfer complete. -/
def State.checkTarget (s : State) (e : Env) (pc : Word) : Except PcFault Unit := do
  checkPc pc
  match s.readLine e (pcLineAddr pc) with
  | .ok l => if l.target (pcSlot pc) then .ok () else .error (0x03, 0, pc)
  | .error _ => .ok ()

/-- The PC a slot offset from `pc` names (R95). -/
def branchPc (pc : Word) (o : Int) : Except PcFault Word :=
  let i := (pcLinear pc : Int) + o
  if i < 0 then .error (0x04, 1, BitVec.ofInt 64 i)
  else if i < 2 ^ 41 * 5 then .ok (pcOfLinear i.toNat) else .error (0x04, 1, BitVec.ofNat 64 (i.toNat / 5 * 64 + i.toNat % 5))

/-- A branch's target with the checks of R94. -/
def branchTarget (pc : Word) (o : Int) : Except PcFault Word := do
  let t ← branchPc pc o
  checkPc t
  return t

end Sys2Proof.Machine
end

