-- ==== Sys2Proof/Config.lean ====
section
/-! DEFINITION. What one implementation fixes and the spec leaves open: constants without a body, of which nothing can be proved. -/
namespace Sys2Proof.Config

/-- CTL_ID.step (R543): the silicon stepping, which the spec gives no number for. -/
opaque stepping : BitVec 16

/-- The n-th value the security hart's random source gives (R556 NONCE): 48 bytes as one number. -/
opaque freshNonce : Nat → BitVec 384

/-- Whether an ECDSA P-384 signature over a message verifies under a public key (R549, R551, R553). The algorithm is an outside standard. -/
opaque ecdsaVerifies : (key : List Byte) → (message : List Byte) → (signature : List Byte) → Bool

/-- Whether an LMS signature (SP 800-208) over a message verifies under a public key (R549, R551, R553). -/
opaque lmsVerifies : (key : List Byte) → (message : List Byte) → (signature : List Byte) → Bool

/-- The attestation key pair's signature over a report (R554); the counter tells one report from the next. -/
opaque attestationSignature : (report : List Byte) → Nat → List Byte

/-- The attestation public keys in the key slot (R551), as the bytes KEYS gives. -/
opaque attestationPublicKeys : List Byte

/-- The keys the slot holds at shipment (R551: Oliold's keys): ECDSA public key bytes. -/
opaque shippedEcdsaKey : List Byte

/-- The keys the slot holds at shipment (R551): LMS public key bytes. -/
opaque shippedLmsKey : List Byte

/-- The bytes of an image header's field k (R549 names the fields and gives no offsets): 0 hart class, 1 security version, 2 code length,
3 SHA-384 of the code, 4 ECDSA signature, 5 LMS signature. -/
opaque imageField : Nat → List Byte → List Byte

/-- The image of a boot stage that flash holds at shipment (R550, R551). -/
opaque shippedImage : Nat → List Byte

/-- The n-th value of a quantity the spec gives an effect but no value. -/
opaque freeValue : Nat → Word

end Sys2Proof.Config
end

