-- ==== Sys2Proof/Machine/Packet.lean ====
section
/-! DEFINITION. The launch packet's fields as an accepted launch holds them (spec/01 R24 to R33), the numbering of a grid (R18, R20),
and the numbers of quarters, cores and granules (spec/00 R2, spec/02 R76). -/
namespace Sys2Proof.Machine

/-- Word k of a launch's packet (R24). -/
def Launch.word (l : Launch) (k : Nat) : Word := nth l.words k 0
/-- Header (R25). -/
def Launch.kind (l : Launch) : Nat := ((l.word 0).extractLsb' 0 8).toNat
def Launch.tag (l : Launch) : Nat := ((l.word 0).extractLsb' 32 32).toNat
/-- The kernel's entry. -/
def Launch.entry (l : Launch) : Word := l.word 1
/-- The matrix stream's entry (R24). -/
def Launch.streamEntry (l : Launch) : Word := l.word 7
/-- Grid (R26): GX, GY, GZ. -/
def Launch.gx (l : Launch) : Nat := ((l.word 4).extractLsb' 0 32).toNat
def Launch.gy (l : Launch) : Nat := ((l.word 4).extractLsb' 32 16).toNat
def Launch.gz (l : Launch) : Nat := ((l.word 4).extractLsb' 48 16).toNat
/-- Block (R27): X, Y, Z, and the cluster CX, CY, CZ. -/
def Launch.bx (l : Launch) : Nat := ((l.word 5).extractLsb' 0 16).toNat
def Launch.by' (l : Launch) : Nat := ((l.word 5).extractLsb' 16 16).toNat
def Launch.bz (l : Launch) : Nat := ((l.word 5).extractLsb' 32 16).toNat
def Launch.cx (l : Launch) : Nat := ((l.word 5).extractLsb' 48 4).toNat + 1
def Launch.cy (l : Launch) : Nat := ((l.word 5).extractLsb' 52 4).toNat + 1
def Launch.cz (l : Launch) : Nat := ((l.word 5).extractLsb' 56 4).toNat + 1
/-- Lanes of a block and its warps w (R18). -/
def Launch.lanes (l : Launch) : Nat := l.bx * l.by' * l.bz
def Launch.blockWarps (l : Launch) : Nat := ceilDiv l.lanes 32
/-- Blocks of a cluster, and blocks and clusters of the grid. -/
def Launch.ranks (l : Launch) : Nat := l.cx * l.cy * l.cz
def Launch.blocks (l : Launch) : Nat := l.gx * l.gy * l.gz
def Launch.kx (l : Launch) : Nat := l.gx / l.cx
def Launch.ky (l : Launch) : Nat := l.gy / l.cy
def Launch.kz (l : Launch) : Nat := l.gz / l.cz
def Launch.clusters (l : Launch) : Nat := l.kx * l.ky * l.kz
/-- Resources (R29). -/
def Launch.regs (l : Launch) : Nat := ((l.word 6).extractLsb' 0 9).toNat
/-- The producer warp (R29, R326). -/
def Launch.prodWarp (l : Launch) : Nat := ((l.word 6).extractLsb' 9 5).toNat
def Launch.prodValid (l : Launch) : Bool := (l.word 6).getLsbD 14
def Launch.sramLines (l : Launch) : Nat := ((l.word 6).extractLsb' 16 15).toNat
def Launch.argSize (l : Launch) : Nat := ((l.word 6).extractLsb' 32 16).toNat
/-- The modes word (R30). -/
def Launch.modes (l : Launch) : Word := l.word 9
def Launch.det (l : Launch) : Nat := (l.modes.extractLsb' 0 2).toNat
def Launch.shadow (l : Launch) : Bool := l.modes.getLsbD 2
def Launch.idem (l : Launch) : Bool := l.modes.getLsbD 3
/-- The checkpoint class (R30, R474); a packet of type 0 has none to read (R34). -/
def Launch.cls (l : Launch) : Nat := if l.kind = 0 then 0 else (l.modes.extractLsb' 4 2).toNat
def Launch.flush (l : Launch) : Bool := l.modes.getLsbD 7
def Launch.priority (l : Launch) : Nat := (l.modes.extractLsb' 8 4).toNat
def Launch.stampMask (l : Launch) : BitVec 7 := l.modes.extractLsb' 16 7
def Launch.regions (l : Launch) : Nat := (l.modes.extractLsb' 24 3).toNat
/-- Dependence words, the stamp's address and the reference launch (R24, R33). -/
def Launch.deps (l : Launch) : List Word := [l.word 12, l.word 13, l.word 14, l.word 15]
def Launch.stamp (l : Launch) : Nat := (l.word 16).toNat
def Launch.reference (l : Launch) : Nat := (l.word 17).toNat
/-- Digest region r: address and length. -/
def Launch.region (l : Launch) (r : Nat) : Nat × Nat := ((l.word (18 + 2 * r)).toNat, (l.word (19 + 2 * r)).toNat)

/-- The partition, queue and sequence number of a launch id (R33). -/
def partOfLaunch (id : Nat) : Nat := id / 2 ^ 54
def queueOfLaunch (id : Nat) : Nat := id / 2 ^ 48 % 64
def seqOfLaunch (id : Nat) : Nat := id % 2 ^ 48
def launchId (part q seq : Nat) : Nat := part * 2 ^ 54 + q * 2 ^ 48 + seq

/-- The place of a launch's argument copy (R35). -/
def argPlace (argArea lid : Nat) : Nat := argArea + 4096 * (64 * queueOfLaunch lid + seqOfLaunch lid % 64)

/-- Whether a write touches an argument copy of a partition, which its launch holds until it completes and kernels only read (R35). -/
def State.inArguments (s : State) (e : Env) (a len : Nat) : Bool :=
  match s.parts.get? e.part with
  | none => false
  | some pt => s.launches.any fun x =>
      let at' := argPlace pt.argArea x.1
      partOfLaunch x.1 == e.part && at' < a + len && a < at' + x.2.argSize

/-! ### Quarters (R2, R76) -/

/-- A warp slot's number is core * 64 + quarter * 16 + slot; a quarter's is core * 4 + quarter. -/
def quarterOf (wid : Nat) : Nat := wid / 16
def coreOf (wid : Nat) : Nat := wid / 64

/-- Granules of 8 registers (R76). -/
def granules (n : Nat) : Nat := ceilDiv n 8

/-- The cores of a partition, ascending (R53). -/
def Partition.cores (p : Partition) : List Nat :=
  (List.range 32).flatMap fun g => if p.groups.getLsbD g then (List.range 16).map (16 * g + ·) else []

/-- The logical slice mapped to a core. -/
def Partition.sliceOf (p : Partition) (core : Nat) : Nat := ((p.slices.find? fun x => x.2 == Slice.physical core).map (·.1)).getD 0

/-! ### Parts of the state -/

def State.setWarp (s : State) (wid : Nat) (w : Warp) : State := { s with warps := s.warps.put wid w }
def State.setBlock (s : State) (b : Nat) (f : Block → Block) : State := { s with blocks := s.blocks.adjust b f }
def State.setPart (s : State) (p : Nat) (f : Partition → Partition) : State := { s with parts := s.parts.adjust p f }
def State.setLaunch (s : State) (l : Nat) (f : Launch → Launch) : State := { s with launches := s.launches.adjust l f }
def State.setCk (s : State) (p : Nat) (f : Ckpt → Ckpt) : State := s.setPart p fun x => { x with ck := f x.ck }
def State.setCtx (s : State) (p : Nat) (f : CtxRegs → CtxRegs) : State := s.setPart p fun x => { x with ctx := f x.ctx }

/-- One slot counts for a leaf. -/
def State.countSlot (s : State) (q leaf : Nat) : State :=
  { s with slots := s.slots.put q (modifyAt (s.slots.getD q (List.replicate 28 0)) leaf (· + 1)) }

/-- The entry of `issued` by which a quarter's next slot goes to a shadow reissue, and the quarter such an entry names. -/
def reissueMark (q : Nat) : Nat := 4097 + 2 * q
def reissueOf (k : Nat) : Option Nat := if 4096 < k && k % 2 == 1 then some ((k - 4097) / 2) else none

/-- A shadow reissue takes the next slot of its quarter (R139 step 1). -/
def State.reissueSlot (s : State) (q : Nat) : State := { s.countSlot q 4 with issued := reissueMark q :: s.issued }

/-- Sends a message. -/
def State.send (s : State) (m : Msg) : State := { s with outbox := m :: s.outbox }

/-- The bytes of n words that the spec has written and gives no value; each word is drawn once. -/
def State.draw (s : State) (n : Nat) : List Byte × State :=
  ((List.range n).flatMap fun i => leBytes 8 (Config.freeValue (s.drawn + i)).toNat, { s with drawn := s.drawn + n })

end Sys2Proof.Machine
end

