-- ==== Sys2Proof/Machine/Agents.lean ====
section
/-! DEFINITION. Where the device's units are (spec/00 R2), which agents an observer mask names (spec/15 R347, R348, R354), the vector
clocks of the dies (R357), and which writes the lanes of a core see (R350): a write's performance, its coming to other cores, releases and
acquires. -/
namespace Sys2Proof.Machine

/-! ### Places (R2) -/

/-- The core group of a core, its compute die and its quadrant: 0 north-west, 1 north-east, 2 south-west, 3 south-east. -/
def groupOf (core : Nat) : Nat := core / 16
def dieOf (core : Nat) : Nat := groupOf core / 4
def quadrantOf (core : Nat) : Nat := groupOf core % 4

/-- Local row and column of a core within its quadrant. -/
def localRow (core : Nat) : Nat := core % 16 / 4
def localCol (core : Nat) : Nat := core % 4

/-- Towpath position of a core: mesh row from the north, mesh column from the west. -/
def meshRow (core : Nat) : Nat := 4 * (quadrantOf core / 2) + localRow core
def meshCol (core : Nat) : Nat := 4 * (quadrantOf core % 2) + localCol core

/-- The cores of a core's group, and of its die. -/
def groupCores (core : Nat) : CoreMask := (0xFFFF : CoreMask) <<< (16 * groupOf core)
def dieCores (core : Nat) : CoreMask := (0xFFFFFFFFFFFFFFFF : CoreMask) <<< (64 * dieOf core)

/-- The HBM stack of a physical address (R300): stacks 2d and 2d + 1 are those of compute die d. -/
def stackOf (pa : Nat) : Nat := Nat.xor (pa / 2 ^ 12 % 16) (pa / 2 ^ 16 % 16)

/-! ### Agents (R347, R348) -/

/-- The core an agent of this device is located at. -/
def Agent.core : Agent → Option Nat
  | .lane c | .barge c | .engine c => some c
  | _ => none

/-- The mask bit of lanes at a core relative to an issuer at another. -/
def coreClass (issuer core : Nat) : Nat :=
  if groupOf core = groupOf issuer then 0 else if dieOf core = dieOf issuer then 1 else 2

/-- The class of an agent relative to the issuer, as the bit of an observer mask. An issuer that is located at no core sees every lane as
one of another die; one on another device sees every agent of this one as an agent of another device. -/
def Agent.classFrom (issuer x : Agent) : Nat :=
  match issuer, x with
  | .device _, .host _ => 6
  | .device _, _ => 5
  | _, .lane c => match issuer.core with | some k => coreClass k c | none => 2
  | _, .barge _ | _, .collective | _, .command | _, .checkpoint => 3
  | _, .engine _ => 4
  | _, .device _ => 5
  | _, .host _ => 6

/-- Whether a mask reaches an agent from its issuer (R348). -/
def reaches (mask : BitVec 7) (issuer x : Agent) : Bool := mask.getLsbD (issuer.classFrom x)

/-- Whether a release with one mask and an acquire with another name each other (R354 b, c). -/
def mutualMasks (ma mb : BitVec 7) (a b : Agent) : Bool := reaches ma a b && reaches mb b a

/-- The cores whose lanes a mask reaches from an issuer. -/
def reachCores (mask : BitVec 7) (issuer : Agent) : CoreMask :=
  let bit (k : Nat) (m : CoreMask) : CoreMask := if mask.getLsbD k then m else 0
  match issuer.core, issuer with
  | some c, _ => bit 0 (groupCores c) ||| bit 1 (dieCores c &&& ~~~groupCores c) ||| bit 2 (~~~dieCores c)
  | none, .device _ => bit 5 everyCore
  | none, _ => bit 2 everyCore

/-! ### Vector clocks (R357) -/

/-- Entry by entry the greater. -/
def mergeClocks (a b : List Nat) : List Nat := List.zipWith max a b

/-- The clock of an agent: its die's, and what every die has been shown for an agent at no core. -/
def State.clockOf (s : State) (a : Agent) : List Nat :=
  match a.core with
  | some c => nth s.clocks (dieOf c) (List.replicate 10 0)
  | none => s.clocks.foldl mergeClocks (List.replicate 10 0)

/-- Whether what carries a clock precedes what carries another. -/
def precedes (a b : List Nat) : Bool := (a.zip b).all fun x => x.1 ≤ x.2

/-- Dies have been shown what a clock follows: those that hold some of these cores. -/
def State.shown (s : State) (cores : CoreMask) (c : List Nat) : State :=
  { s with clocks := s.clocks.zipIdx.map fun x =>
      if x.2 < 8 && cores &&& dieCores (64 * x.2) != 0 then mergeClocks x.1 c else x.1 }

/-- An agent's die issues a write: its clock, in which its own entry counts it. -/
def State.nextClock (s : State) (a : Agent) : State :=
  match a.core with
  | some c => { s with clocks := modifyAt s.clocks (dieOf c) fun x => modifyAt x (dieOf c) (· + 1) }
  | none => s

/-! ### What the lanes of a core see (R350) -/

/-- The set of one core. -/
def oneCore (core : Nat) : CoreMask := BitVec.ofNat 512 (2 ^ core)

/-- Whether a read at a core sees a write that is not fresh everywhere: one visible to the core whose line it holds no older copy of, or
whose writer the read's mask reaches (R350 c). -/
def Shadow.seenFrom (h : Shadow) (core : Nat) (mask : BitVec 7) : Bool :=
  h.visible.getLsbD core && (h.fresh.getLsbD core || reaches mask (.lane core) h.writer)

/-- Memory without the writes a read does not see, the latest taken back first; a write that a later one it sees covers is seen. -/
def unseen (core : Nat) (mask : BitVec 7) : List Piece → List Shadow → Memory → Memory
  | _, [], m => m
  | later, h :: r, m =>
    if h.seenFrom core mask || later.any h.piece.meets then unseen core mask (h.piece :: later) r m
    else unseen core mask later r (m.write h.piece.key h.old)

/-- The state as a read at a core with a mask sees it. -/
def State.viewAt (s : State) (core : Nat) (mask : BitVec 7) : State := { s with mem := unseen core mask [] s.hidden s.mem }

/-- A core has read pieces: it holds no older copy of what it saw (R356). -/
def State.sawAt (s : State) (core : Nat) (mask : BitVec 7) (ps : List Piece) : State :=
  { s with hidden := settleWrites [] (s.hidden.map fun h =>
      if h.seenFrom core mask && ps.any h.piece.meets then { h with fresh := h.fresh ||| oneCore core } else h) }

/-- A write of an agent is performed and becomes visible to some cores, its own among them (R350, R351, R357). -/
def State.performAt (s : State) (a : Agent) (cores : CoreMask) (p : Piece) (bs : List Byte) (t : Option Store := none) : State :=
  let cores := match a.core with | some c => cores ||| oneCore c | none => everyCore
  let s := s.nextClock a
  let clock := s.clockOf a
  let s := s.shown cores clock
  if cores = everyCore then s.writePiece p bs
  else { s.putPiece p bs with hidden := settleWrites [] (⟨p, s.readPiece p, a, cores, cores, [], clock, s.cycle, t⟩ :: s.hidden) }

/-- A performed write comes to more cores. -/
def State.spread (s : State) (n : Nat) (cores : CoreMask) : State :=
  match s.hidden[n]? with
  | none => s
  | some h =>
    let wider (x : Shadow) : Shadow := { x with visible := x.visible ||| cores, fresh := x.fresh ||| cores }
    { s with hidden := settleWrites [] (modifyAt s.hidden n wider) }.shown cores h.clock

/-- A release of an agent makes what it follows visible to the cores its mask reaches (R14, R354, R357), as seen from where it was issued
(R417). -/
def State.publish (s : State) (a : Agent) (mask : BitVec 7) (origin : Agent := a) : State :=
  let clock := s.clockOf a
  let reach := reachCores mask origin
  let with' (h : Shadow) : Shadow :=
    { h with visible := h.visible ||| reach, released := if h.released.contains a then h.released else a :: h.released }
  { s with hidden := settleWrites [] (s.hidden.map fun (h : Shadow) => if precedes h.clock clock then with' h else h) }.shown reach clock

/-- An acquire of a lane at a core: it holds no older copy of what a release that its mask reaches precedes, where that release's mask
reached it (R354, R350 c). -/
def State.acquireAt (s : State) (core : Nat) (mask : BitVec 7) : State :=
  { s with hidden := settleWrites [] (s.hidden.map fun h =>
      if h.visible.getLsbD core && h.released.any (reaches mask (.lane core) ·) then { h with fresh := h.fresh ||| oneCore core }
      else h) }

/-- The release and the acquire half of an order (R14). -/
def isRelease (o : Order) : Bool := o == .rel || o == .acqrel || o == .sc
def isAcquire (o : Order) : Bool := o == .acq || o == .acqrel || o == .sc

/-- A fence of lanes at a core, its waits over (R358). -/
def State.fenceAt (s : State) (core : Nat) (o : Order) (mask : BitVec 7) : State :=
  let s := if isRelease o then s.publish (.lane core) mask else s
  if isAcquire o then s.acquireAt core mask else s

/-- Every write is visible to every core within 8,192 cycles, and no core's copy is older than that (R350 a, c). -/
def State.ageWrites (s : State) : State :=
  if s.hidden.isEmpty then s else
  let s := (s.hidden.filter fun h => h.since + 8192 ≤ s.cycle).foldl (fun s h => s.shown everyCore h.clock) s
  { s with hidden := settleWrites [] (s.hidden.map fun h =>
      { h with visible := if h.since + 8192 ≤ s.cycle then everyCore else h.visible
               fresh := if h.since + 16384 ≤ s.cycle then everyCore else h.fresh }) }

/-- Every write is visible to every core, and no core holds an older copy. -/
def State.showAll (s : State) : State := { s.hidden.foldl (fun s h => s.shown everyCore h.clock) s with hidden := [] }

end Sys2Proof.Machine
end

