-- ==== Sys2Proof/Machine/Undo.lean ====
section
/-! DEFINITION. What every write of a tracked block leaves behind (spec/23 R478), when a trap is a rollback instead (R484), which
accesses from outside a group are held (R486) and which leave a dependence (R485); accesses no address register names; trace records
(spec/28 R535 to R537). -/
namespace Sys2Proof.Machine

/-! ### Accesses no address register names -/

/-- Writes bytes at an address as the warp's own access, when every byte can be written. -/
def State.writePlain (s : State) (e : Env) (a : Nat) (bs : List Byte) : Except Refused State := do
  let ps ← s.checkPlain e a bs.length false true
  return s.writePieces (cutBytes ps bs)

/-- Reads bytes at an address as the warp's own access; poison is cause 0x51 subcode 0x00 (R301). -/
def State.readPlain (s : State) (e : Env) (a len : Nat) : Except Refused (List Byte) := do
  let ps ← s.checkPlain e a len true false
  if ps.any s.poisoned then .error (0x51, 0) else return s.readPieces ps

/-! ### The undo log (R478) -/

/-- The fields of CKPT_CFG (R476). -/
def ckptGroup (v : Word) : Nat := (v.extractLsb' 48 16).toNat
def ckptMembers (v : Word) : Nat := (v.extractLsb' 44 4).toNat
def ckptPos (v : Word) : Nat := (v.extractLsb' 40 4).toNat
def ckptPeriod (v : Word) : Nat := (v.extractLsb' 16 16).toNat

/-- A CKPT_CFG value that is kept and not used (R476). -/
def ckptUnused (v : Word) : Bool :=
  ckptMembers v < ckptPos v || (1 ≤ ckptPeriod v && ckptPeriod v ≤ 9) || 60000 < ckptPeriod v

/-- The number of data members and the period in ms in use. -/
def Ckpt.members (c : Ckpt) : Nat := if ckptUnused c.cfgNow then 0 else ckptMembers c.cfgNow
def Ckpt.period (c : Ckpt) : Nat := if ckptUnused c.cfgNow then 0 else ckptPeriod c.cfgNow
def Ckpt.group (c : Ckpt) : Nat := ckptGroup c.cfgNow

/-- Entries of the log section, the first half of CKPT_AREA; none stands where no area is reserved (log entry 40). -/
def Ckpt.capacity (c : Ckpt) : Option Nat :=
  let n := (c.areaNow.extractLsb' 52 12).toNat
  if n = 0 then none else some (n * 2 ^ 27 / 144)

/-- The area's address. -/
def Ckpt.base (c : Ckpt) : Nat := (c.areaNow.extractLsb' 21 26).toNat * 2 ^ 21

/-- Whether two partitions' contexts are of one rollback group (R475). -/
def State.oneGroup (s : State) (p q : Nat) : Bool :=
  p == q || (match s.parts.get? p, s.parts.get? q with
    | some a, some b => a.ck.group != 0 && a.ck.group == b.ck.group
    | _, _ => false)

/-- A context's index within its group: its place among the group's partitions on this device. -/
def State.groupIndex (s : State) (p : Nat) : Nat := (s.parts.filter fun x => decide (x.1 < p) && s.oneGroup x.1 p).length

/-- The checkpoint class of a block's writes (R474). -/
def State.classOf (s : State) (bid : Nat) : Nat :=
  match (s.blocks.get? bid).bind fun b => s.launches.get? b.launch with
  | some l => l.cls
  | none => 0

/-- The partition of a block. -/
def State.partOf (s : State) (bid : Nat) : Nat := (s.blocks.get? bid).elim 0 fun b => partOfLaunch b.launch

/-- A close is asked for, to start at a cycle; requests coalesce (R480). -/
def Ckpt.want (c : Ckpt) (at' : Nat) : Ckpt := { c with wanted := some (match c.wanted with | some t => min t at' | none => at') }

/-- A close asked for within 10 ms of the latest starts at the 10 ms mark, 12,500,000 cycles after it (R480); the first
interval has none before it. -/
def Ckpt.request (c : Ckpt) (cycle : Nat) : Ckpt := c.want (if c.current ≤ 1 && !c.closing then cycle else max cycle (c.closedAt + 12500000))

/-- The log is 7/8 full: a close starts (R478). -/
def Ckpt.afterEntry (c : Ckpt) (cycle : Nat) : Ckpt :=
  match c.capacity with
  | some n => if 8 * c.entries = 7 * n / 8 * 8 ∧ 0 < n then { c.want cycle with forced := satAdd 16 c.forced 1 } else c
  | none => c

/-- Logs the line of a piece before its first write in the interval. -/
def State.logLine (s : State) (part cls : Nat) (p : Piece) : State :=
  let line := p.key / 128
  if cls = 0 || !ownMemory p.key then s else
  match s.parts.get? part with
  | none => s
  | some pt =>
    match pt.ck.undo.get? line with
    | some u => if cls = 2 ∧ u.delta = false then s.setCk part fun c => { c with undo := c.undo.put line { u with delta := true } } else s
    | none =>
      let old := s.mem.bytes (128 * line) 128
      let u : UndoLine := ⟨alignDown p.va 128, old, s.poison.filter (· / 4 == line), cls == 2⟩
      let at' := pt.ck.base + 144 * pt.ck.entries
      let entry := leBytes 8 u.addr ++ leBytes 2 (s.groupIndex part) ++ leBytes 4 pt.ck.current ++ zeros 2 ++ old
      let s := match pt.ck.capacity with
        | some n => if pt.ck.entries < n then (match s.writePlain ⟨part, 0⟩ at' entry with | .ok s' => s' | .error _ => s) else s
        | none => s
      let cycle := s.cycle
      s.setCk part fun c => Ckpt.afterEntry { c with undo := c.undo.put line u, entries := c.entries + 1 } cycle

/-- A block is about to write pieces. -/
def State.track (s : State) (bid : Nat) (ps : List Piece) : State :=
  let cls := s.classOf bid
  if cls = 0 then s else ps.foldl (fun s p => s.logLine (s.partOf bid) cls p) s

/-- Whether a first write of a block finds the log full: it waits until a close has completed (R478). What a stop awaits is logged all
the same (log entry 40). -/
def State.logFull (s : State) (bid : Nat) (ps : List Piece) : Bool :=
  match s.parts.get? (s.partOf bid), s.classOf bid with
  | _, 0 => false
  | some pt, _ => if pt.ctx.state ≠ 1 || pt.ck.closing || pt.ck.due then false else match pt.ck.capacity with
    | some n => n ≤ pt.ck.entries && ps.any fun p => ownMemory p.key && (pt.ck.undo.get? (p.key / 128)).isNone
    | none => false
  | none, _ => false

/-- Writes bytes at an address for a block. -/
def State.writeFor (s : State) (bid : Nat) (e : Env) (a : Nat) (bs : List Byte) : Except Refused State := do
  let ps ← s.checkPlain e a bs.length false true
  return (s.track bid ps).writePieces (cutBytes ps bs)

/-! ### Accesses from outside a group, and within it (R485, R486) -/

/-- Whether a context has logged a line in an interval that has not committed. -/
def Ckpt.hasLogged (c : Ckpt) (line : Nat) : Bool := (c.undo.get? line).isSome || c.logged.any fun x => x.2.contains line

/-- Whether an access by `who` (a partition, or none for an agent outside the device's contexts) is held at its home. -/
def State.heldFrom (s : State) (who : Option Nat) (ps : List Piece) : Bool :=
  s.parts.any fun x => !(who.elim false (s.oneGroup x.1)) && ps.any fun p => x.2.ck.hasLogged (p.key / 128)

/-- A read by a context of lines that others of its group have logged in the open interval leaves dependences. -/
def State.noteReads (s : State) (who : Nat) (ps : List Piece) : State :=
  let from' (x : Nat × Partition) : Bool :=
    x.1 != who && s.oneGroup x.1 who && ps.any fun p => (x.2.ck.undo.get? (p.key / 128)).isSome
  if s.parts.any from' then
    { s with parts := s.parts.map fun x =>
        if from' x && !x.2.ck.deps.contains who then (x.1, { x.2 with ck := { x.2.ck with deps := who :: x.2.ck.deps } }) else x }
  else s

/-! ### A rollback in place of a trap (R484) -/

/-- The newest copy of a line in the delta store or the CXL tier, when it was last written in a committed interval. -/
def Ckpt.copyOf (c : Ckpt) (line : Nat) : Option (List Byte) :=
  if c.logged.any fun x => c.committed < x.1 && x.2.contains line then none
  else (c.deltas.reverse.findSome? fun x => if x.1 ≤ c.committed then (x.2.find? (·.1 == line)).map (·.2) else none)

/-- Repairs a poisoned sector, or fails. -/
def State.repair (s : State) (part sector : Nat) : Option State :=
  match s.parts.get? part with
  | none => none
  | some pt =>
    if (pt.ck.undo.get? (sector / 4)).isSome then some s
    else match pt.ck.copyOf (sector / 4) with
      | some bs => some (s.writePiece ⟨32 * sector, 32, 32 * sector, none, none⟩ ((bs.drop (32 * (sector % 4))).take 32))
      | none => none

/-- The poisoned sectors of 64 bytes at an address. -/
def State.poisonNear (s : State) (e : Env) (a : Nat) : List Nat :=
  [0, 32, 60].filterMap fun k => match s.placePiece e (a + k) 1 with
    | .ok p => if s.poisoned p.piece then some (p.piece.key / 32) else none
    | .error _ => none

/-- The state after an event that leads to a rollback of its context where a bit of rb is set: the rollback is due. -/
def State.rollsWith (s : State) (part cls bit : Nat) : Option State :=
  match s.parts.get? part with
  | none => none
  | some pt =>
    if cls = 0 ∨ 3 ≤ pt.ck.rolls ∨ !pt.ck.cfgNow.getLsbD bit then none else some (s.setCk part fun c => { c with due := true })

/-- The same for a trap with the poisoned sectors it consumed, which are repaired first: no trap is taken. -/
def State.rollsBack (s : State) (part cls cause sub : Nat) (sectors : List Nat) : Option State :=
  if cause = 0x51 ∧ sub ≤ 2 ∧ sectors ≠ [] then
    (s.rollsWith part cls 0).bind fun s => sectors.foldlM (fun (s : State) k => s.repair part k) s
  else if cause = 0x50 then s.rollsWith part cls 1
  else if cause = 0x33 then s.rollsWith part cls 2
  else none

/-! ### Trace records (R535 to R537) -/

/-- Writes one trace record at the ring's tail. -/
def State.putTrace (s : State) (part : Nat) (bs : List Byte) : State :=
  match s.parts.get? part with
  | none => s
  | some pt =>
    let s := match s.writePlain ⟨part, 0⟩ (pt.trc.base + 32 * (pt.trc.tail % 2 ^ pt.trc.log2)) bs with
      | .ok s' => s'
      | .error _ => s
    s.setPart part fun p => { p with trc := { p.trc with tail := p.trc.tail + 1 } }

/-- Whether the trace ring has room. -/
def Partition.traceRoom (p : Partition) : Bool := 4 ≤ p.trc.log2 && p.trc.tail < p.trc.head + 2 ^ p.trc.log2

/-- Writes a record of a path's event, drops it where the ring is full, and does nothing where its kind is not enabled. -/
def State.trace (s : State) (part kind wid pidx payload : Nat) : State :=
  match s.parts.get? part, s.warps.get? wid with
  | some pt, some w =>
    if !pt.trcEn.getLsbD kind then s
    else if pt.traceRoom then
      let p := nth w.paths pidx Path.free
      s.putTrace part (leBytes 8 s.cycle ++ leBytes 8 p.pc.toNat
        ++ leBytes 8 (kind * 2 ^ 60 + pidx * 2 ^ 56 + w.frameSlot % 2 ^ 15 * 2 ^ 41 + coreOf wid * 2 ^ 32 + p.mask.toNat)
        ++ leBytes 8 payload)
    else s.setPart part fun p => { p with dropped := p.dropped + 1 }
  | _, _ => s

end Sys2Proof.Machine
end

