-- ==== Sys2Proof/Machine/Queue.lean ====
section
/-! DEFINITION. The store queue of the cores (spec/15 R349 to R357, spec/20 R435): a lane's view of memory with its own stores not yet
performed, which store may be performed when, what its performance does, and what a release or a fence waits for. -/
namespace Sys2Proof.Machine

/-! ### Own stores -/

/-- The block of a warp. -/
def State.blockOf (s : State) (wid : Nat) : Nat := (s.warps.get? wid).elim 0 (·.block)

/-- Whether a store is one of some lanes of a warp's resident block. -/
def Store.ofLanes (t : Store) (wid bid : Nat) (lanes : LaneMask) : Bool :=
  t.copy.isNone && t.warp == wid && t.block == bid && t.lanes &&& lanes != 0

/-- A sector loses its poison (R301). -/
def State.clearSector (s : State) (p : Piece) : State := { s with poison := s.poison.filter (· != p.key / 32) }

/-- A store's bytes in the view of its own lanes. -/
def State.forward (s : State) (t : Store) : State :=
  let s := { s with mem := s.mem.write t.piece.key t.data }
  if t.clears then s.clearSector t.piece else s

/-- The state as a read of lanes of a warp sees it: what is visible to its core, and the lanes' own stores not yet performed (R318, R350). -/
def State.seenBy (s : State) (wid : Nat) (lanes : LaneMask) (mask : BitVec 7) : State :=
  (s.stores.filter (·.ofLanes wid (s.blockOf wid) lanes)).foldl State.forward (s.viewAt (coreOf wid) mask)

/-- Whether lanes may read pieces now. A store not yet performed that only some of the reading lanes have made would be read by the others
before their own releases wait for it (R355), and a write on its way to a peer stands in no memory (R350 d): such a read waits. -/
def State.mayRead (s : State) (wid : Nat) (lanes : LaneMask) (ps : List Piece) : Bool :=
  (s.stores.all fun t => !t.ofLanes wid (s.blockOf wid) lanes || lanes &&& ~~~t.lanes == 0 || !ps.any t.piece.meets)
    && s.unacked.all fun t => !ps.any t.piece.meets

/-- Whether a write on its way to a peer names some of these bytes. -/
def State.onItsWay (s : State) (ps : List Piece) : Bool := s.unacked.any fun t => ps.any t.piece.meets

/-! ### What a release waits for (R14, R350, R357) -/

/-- Every earlier write of these lanes has been performed, and with bit 5 of the mask every one to a peer acknowledged (R435). -/
def State.drainedFor (s : State) (wid : Nat) (lanes : LaneMask) (mask : BitVec 7) : Bool :=
  let mine (t : Store) : Bool := t.ofLanes wid (s.blockOf wid) lanes
  !(s.stores.any mine) && (!mask.getLsbD 5 || !(s.unacked.any mine))

/-- With bit 5, no write to a peer that an agent's release causally follows is unacknowledged (R357). -/
def State.peersDone (s : State) (a : Agent) (mask : BitVec 7) : Bool :=
  !mask.getLsbD 5 || s.unacked.all fun t => !precedes t.clock (s.clockOf a)

/-- A release of lanes with a mask may be performed. -/
def State.releasable (s : State) (wid : Nat) (lanes : LaneMask) (mask : BitVec 7) : Bool :=
  s.drainedFor wid lanes mask && s.peersDone (.lane (coreOf wid)) mask

/-- Whether lanes still wait for the fence that follows their own sequentially consistent store (R358 c). -/
def State.scOpen (s : State) (wid : Nat) (lanes : LaneMask) : Bool :=
  let mine (t : Store) : Bool := t.ord == .sc && t.warp == wid && t.block == s.blockOf wid && t.acting &&& lanes != 0
  s.stores.any mine || s.unacked.any fun t => mine t && t.mask.getLsbD 5

/-! ### Issue and performance -/

/-- Whether the pieces of one instruction write every byte of a sector. -/
def coversSector (ps : List Piece) (sector : Nat) : Bool :=
  (List.range 32).all fun b => ps.any fun p => p.key ≤ 32 * sector + b && 32 * sector + b < p.key + p.len

/-- For each piece of an instruction, whether its writing completes a whole sector (R301). -/
def clearing (all : List Piece) : List Piece → List Bool
  | [] => []
  | p :: r => (!(r.any fun q => q.key / 32 == p.key / 32) && coversSector all (p.key / 32)) :: clearing all r

/-- Whether a store may be performed before an earlier one of its warp (R318, R353): those of one instruction go in order where they meet,
those of one lane too, and a release follows every earlier one of its instruction's lanes. -/
def Store.passes (t earlier : Store) : Bool :=
  t.copy.isSome || earlier.copy.isSome || t.warp != earlier.warp || t.block != earlier.block ||
  if t.unit = earlier.unit then
    !t.piece.meets earlier.piece && !(t.clears && t.piece.key / 32 == earlier.piece.key / 32)
  else
    !(isRelease t.ord && t.acting &&& earlier.lanes != 0) && !(t.lanes &&& earlier.lanes != 0 && t.piece.meets earlier.piece)

/-- Whether a peer's window has room for a write (R435). -/
def State.windowOpen (s : State) (m : Nat) : Bool := (s.unacked.filter (·.piece.peer == some m)).length < 64

/-- Whether the n-th store of the queue may be performed now. -/
def State.storeReady (s : State) (n : Nat) : Bool :=
  match s.stores[n]? with
  | some t =>
    (s.stores.take n).all t.passes
      && (match t.piece.peer with | some m => s.windowOpen m | none => true)
      && (!isRelease t.ord || s.peersDone (.lane (coreOf t.warp)) t.mask)
  | none => false

/-- A write goes to a peer: it is in memory there once the peer has acknowledged it (R350 d, R435). -/
def State.sendToPeer (s : State) (a : Agent) (t : Store) : State :=
  let s := s.nextClock a
  { s with unacked := s.unacked ++ [{ t with clock := s.clockOf a }] }

/-- A write that no warp issued goes to a peer: for a block's command, or for a unit of an I/O die, which counts as core 512. -/
def State.sendFar (s : State) (a : Agent) (core block launch part seq : Nat) (mask : BitVec 7) (p : Piece) (bs : List Byte) : State :=
  s.sendToPeer a ⟨64 * core, block, launch, part, some seq, 0, 0, 0, p, bs, .rel, mask, (s.parts.get? part).elim 0 (·.ck.current), false, false, []⟩

/-- A piece that has just been written carries poison (R301): its sector is poisoned, once the write is in memory there, and a write behind
a host port is marked. -/
def State.poisonPiece (s : State) (p : Piece) : State :=
  match p.host, p.peer with
  | some port, _ => s.send (.poisonedWrite port (p.key - hostKey 0) p.len)
  | none, some _ => { s with unacked := s.unacked.map fun t => if t.piece = p then { t with poison := true } else t }
  | none, none => s.setPoison p.key

/-- Pieces of an engine's or a command processor's write: those of a peer are sent, the others performed and visible to every agent. -/
def State.writeOrSend (s : State) (a : Agent) (core block launch part seq : Nat) (mask : BitVec 7) (ws : List (Piece × List Byte)) : State :=
  ws.foldl (fun s w => if w.1.peer.isSome then s.sendFar a core block launch part seq mask w.1 w.2 else s.performAt a everyCore w.1 w.2) s

/-- A store is performed (R350, R353 to R358): a release first makes what it follows visible, and a sequentially consistent one is followed
by the acquire half of its fence. -/
def State.performStore (s : State) (t : Store) (cores : CoreMask) : State :=
  let core := coreOf t.warp
  let s := s.track t.block [t.piece]
  let s := if isRelease t.ord then s.publish (.lane core) t.mask else s
  if t.piece.peer.isSome then s.sendToPeer (.lane core) t
  else
    let s := s.performAt (.lane core) cores t.piece t.data (some t)
    let s := if t.clears then s.clearSector t.piece else s
    if t.ord = .sc then s.acquireAt core t.mask else s

/-! ### Accesses of a warp that are performed at once -/

/-- The stores of a warp up to the last that meets some pieces are performed: what the warp now writes there comes after them (R353). -/
def State.landOwn (s : State) (wid bid : Nat) (ps : List Piece) : State :=
  let mine (t : Store) : Bool := t.copy.isNone && t.warp == wid && t.block == bid
  let later := (s.stores.reverse.takeWhile fun t => !(mine t && ps.any t.piece.meets)).length
  (s.stores.take (s.stores.length - later)).foldl (fun s t =>
    if mine t then { s with stores := s.stores.erase t }.performStore t everyCore else s) s

/-- A warp's own write of its stacks or its frame (R149, R453). -/
def State.writeOwn (s : State) (wid bid : Nat) (e : Env) (a : Nat) (bs : List Byte) : Except Refused State := do
  let ps ← s.checkPlain e a bs.length false true
  return ((s.landOwn wid bid ps).track bid ps).writePieces (cutBytes ps bs)

/-- A warp's own read of its stacks or its frame; poison is cause 0x51 subcode 0x00 (R149, R301). -/
def State.readOwn (s : State) (wid : Nat) (e : Env) (a len : Nat) : Except Refused (List Byte) :=
  (s.seenBy wid (BitVec.allOnes 32) 0).readPlain e a len

end Sys2Proof.Machine
end

