-- ==== Sys2Proof/Machine/Ops.lean ====
section
/-! DEFINITION. The named operations an instruction's meaning is made of: who issues, how it ends, taking a trap and returning from
one (spec/22), moving a path on and its forwarding window (spec/03 R101, spec/05 R133, R140). -/
namespace Sys2Proof.Machine

abbrev Answer := Host.Outcome State Fault Refusal

/-! ### Lane masks -/

/-- The mask of the lanes that satisfy a test. -/
def maskOf (f : Nat → Bool) : LaneMask := BitVec.ofNat 32 (laneIndices.foldr (fun l n => n * 2 + (f l).toNat) 0)

/-- The lanes of a mask, ascending. -/
def lanesOf (m : LaneMask) : List Nat := laneIndices.filter m.getLsbD

/-- The lowest present lane of lane l's quad within a set of lanes (R19). -/
def leader (present : LaneMask) (mask : LaneMask) (l : Nat) : Option Nat :=
  [0, 1, 2, 3].findSome? fun j => let k := l / 4 * 4 + j; if mask.getLsbD k && present.getLsbD k then some k else none

/-- The lanes of a path that act under a predicate field (R103); a helper lane acts with its quad's lowest present lane (R19). -/
def Warp.acting (w : Warp) (p : Path) (g : Guard) : LaneMask :=
  let pm := w.preg g.p ^^^ (if g.neg then BitVec.allOnes 32 else 0)
  maskOf fun l => p.mask.getLsbD l &&
    (if w.present.getLsbD l then pm.getLsbD l
     else match leader w.present p.mask l with | some k => pm.getLsbD k | none => false)

/-! ### The issuing path -/

/-- What an instruction of a path sees: the warp, the path, its block, its launch, and the prefix of its unit. -/
structure Ctx where
  wid   : Nat
  pidx  : Nat
  pre   : Option (Nat × BitVec 32)
  w     : Warp
  p     : Path
  bid   : Nat
  blk   : Block
  lid   : Nat
  la    : Launch
  env   : Env
deriving DecidableEq, Repr

/-- The context of a path, when its warp, block and launch stand. -/
def State.ctxOf (s : State) (wid pidx : Nat) (pre : Option (Nat × BitVec 32)) : Option Ctx :=
  match s.warps.get? wid with
  | none => none
  | some w =>
    match s.blocks.get? w.block with
    | none => none
    | some b =>
      match s.launches.get? b.launch with
      | none => none
      | some la => some ⟨wid, pidx, pre, w, w.path pidx, w.block, b, b.launch, la, ⟨partOfLaunch b.launch, b.home⟩⟩

/-- Whether a path is stopped with its warp: the warp is halted, or stands in a handler that another path runs (R450, R461). -/
def Warp.stopped (w : Warp) (pidx : Nat) : Bool := w.halted || (w.inHandler && w.frozen.contains pidx)

/-- The parent of an entry. -/
def Warp.joinParent (w : Warp) (id : Nat) : Nat := ((w.joins.get? id).map (·.parent)).getD (w.jspilled.getD id 0)

/-- Whether an entry lies on the chain of parents from another (R159). -/
def Warp.under (w : Warp) (target : Nat) : Nat → Nat → Bool
  | 0, id => id == target
  | fuel + 1, id => id == target || (id != 0 && w.under target fuel (w.joinParent id))

/-- Whether a path is held by an open call or callx entry (R159). -/
def Warp.heldByCall (w : Warp) (p : Path) : Bool :=
  match w.calls with
  | [] => false
  | id :: _ => !w.under id (w.joins.length + w.jspilled.length) p.entry

/-- Whether a path counts as unparked for the issue set and for eviction (R133, R151): live, not stopped with its warp (R458), not held
by an open call (R159). -/
def Warp.runs (w : Warp) (i : Nat) : Bool := (w.path i).state == .live && !w.stopped i && !w.heldByCall (w.path i)

/-- The context of a path that may issue: live, awaiting nothing, neither stopped nor held. -/
def State.ctx? (s : State) (wid pidx : Nat) (pre : Option (Nat × BitVec 32)) : Option Ctx :=
  (s.ctxOf wid pidx pre).filter fun c =>
    c.p.state == .live && c.p.await == none && !c.w.stopped pidx && c.w.evicted.isNone && !c.w.heldByCall c.p

/-- The context of a path that awaits something. -/
def State.requesting (s : State) (wid pidx : Nat) : Option (Ctx × Await) :=
  match s.ctxOf wid pidx none with
  | none => none
  | some c => c.p.await.map fun a => ({ c with pre := a.pre }, a.what)

/-- The context of a path that awaits something and is not stopped, to end that wait. -/
def State.awaiting (s : State) (wid pidx : Nat) : Option (Ctx × Await) :=
  (s.requesting wid pidx).filter fun x => !x.1.w.stopped pidx

/-- The lanes that act under a predicate field, and those of them that are present. -/
def Ctx.act (c : Ctx) (g : Guard) : LaneMask := c.w.acting c.p g
def Ctx.real (c : Ctx) (g : Guard) : LaneMask := c.act g &&& c.w.present

/-- Whether an instruction that acts once per path acts (R103). -/
def Ctx.once (c : Ctx) (g : Guard) : Bool := c.real g != 0

/-- How many slots the unit takes (R109). -/
def Ctx.slots (c : Ctx) : Nat := if c.pre.isSome then 2 else 1
/-- The PC after the unit. -/
def Ctx.nextPc (c : Ctx) : Word := pcAdvance c.p.pc c.slots
/-- The slot a branch counts its offset from: the governed slot (R95). -/
def Ctx.branchPc (c : Ctx) : Word := if c.pre.isSome then pcNext c.p.pc else c.p.pc

/-- The unit as a frame names it: that which awaits an answer, else the one at the path's PC. -/
def unitOf (p : Path) (pre : Option (Nat × BitVec 32)) : Unit' where
  word := match p.await, p.line with
    | some a, _ => a.word
    | none, some l => l.word (pcSlot p.pc + (if pre.isSome then 1 else 0))
    | none, none => 0
  pre := pre

/-- How an instruction ends otherwise than by completing (R14). -/
inductive Stop where
  | trap (t : Trap)
  | park (r : ParkReason)
  /-- Data comparators match (R532 b): which, the lanes, and the lowest matching lane's address. -/
  | watch (hits : List Nat) (lanes : LaneMask) (addr : Nat)
deriving DecidableEq, Repr

/-- Ends in a trap. -/
def raise (cause sub : Nat) (lanes : LaneMask) (data : Word := 0) : Except Stop α := .error (.trap ⟨cause, sub, data, lanes⟩)

/-- Ends in a trap with the cause of a refused transfer or fetch. -/
def ofPc (lanes : LaneMask) : Except PcFault α → Except Stop α
  | .ok a => .ok a
  | .error (c, sub, d) => raise c sub lanes d

/-! ### Writes outside a block's own run (R465) -/

/-- Whether bytes lie in a block's own SRAM run. -/
def Block.inRun (b : Block) (a len : Nat) : Bool :=
  let lo := 128 * b.sramBase
  let within (o : Nat) : Bool := lo ≤ o && o + len ≤ lo + 128 * b.sramLen
  match windowOf a with
  | .localSlice => within (a - 0x7E0000000000)
  | .globalSlice => (a - 0x7F0000000000) / 2 ^ 21 == b.home && within (a % 2 ^ 21)
  | _ => false

/-- A block has written outside its own run. -/
def State.wroteOut (s : State) (bid : Nat) : State := s.setBlock bid fun b => { b with wroteOut := true }

/-- A block writes these pieces. -/
def State.noteWrite (s : State) (bid : Nat) (ps : List Piece) : State :=
  s.setBlock bid fun b => { b with wroteOut := b.wroteOut || ps.any fun p => !b.inRun p.va p.len }

/-! ### Taking a trap (R450, R458, R459, R461) -/

/-- The address of a warp's frame (R453). -/
def frameAddr (tframe frameSlot : Nat) : Nat := tframe + frameSlot * 8192

/-- The halt field of a frame (R455). -/
def haltField (cause sub : Nat) : Nat := 65536 + sub * 256 + cause

/-- The payload of a TRAP or HALT record (R537). -/
def Trap.payload (t : Trap) : Nat := t.sub * 256 + t.cause

/-- Marks a warp halted at a path (R461). -/
def State.markHalted (s : State) (wid pidx : Nat) (part : Nat) (t : Trap) : State :=
  let s := s.trace part 6 wid pidx t.payload
  let s := { s with warps := s.warps.adjust wid fun w =>
    { w with halted := true }.setPath pidx { w.path pidx with state := .parked .halted, await := none, inSet := false, units := 0 } }
  (s.setPart part fun p => { p with halts := satAdd 16 p.halts 1 }).send (.msix part "halt")

/-- A halt that writes only halt and haltpc: a trap inside a handler (R461). -/
def State.haltInHandler (s : State) (wid pidx : Nat) (e : Env) (w : Warp) (t : Trap) : State :=
  let fa := frameAddr ((s.parts.get? e.part).elim 0 (·.tframe)) w.frameSlot
  let s := match s.writeOwn wid w.block e (fa + 0x78) (leBytes 8 (haltField t.cause t.sub) ++ leBytes 8 (w.path pidx).pc.toNat) with
    | .ok s' => s'
    | .error _ => s
  s.markHalted wid pidx e.part t

/-- The handler's PC for a cause, when the vector table gives a usable one (R459). -/
def State.vectorEntry (s : State) (e : Env) (vtab cause : Nat) : Option Word :=
  match s.readPlain e (vtab + 8 * (cause / 16)) 8 with
  | .error _ => none
  | .ok bs =>
    let pc := BitVec.ofNat 64 (leNat bs)
    if pc = 0 then none else
      match s.checkTarget e pc with
      | .ok _ => some pc
      | .error _ => none

/-- Loads the cause registers (R195, R458 step 2). -/
def Warp.loadCause (w : Warp) (t : Trap) : Warp :=
  { w with cause := BitVec.ofNat 64 (t.cause + t.sub * 256), cdata := t.data, lmask := t.lanes.zeroExtend 64 }

/-- A path frozen by another path's trap: an answer that has not come is given up and asked for again (R324, R397); a request that a
lockkeeper will perform stays (R379). -/
def Path.freeze (p : Path) : Path :=
  match p.await with
  | some ⟨.atomic _, _, _, _⟩ => p
  | _ => { p with await := none }

/-- Logbook entries that paths of a warp have reserved for answers given up in a freeze (R526). -/
def Warp.givenUp (w : Warp) : Nat :=
  (w.paths.map fun p => match p.await with
    | some ⟨.atomic _, _, _, _⟩ => 0
    | some a => a.reserved
    | none => 0).sum

/-- A warp in its handler (R458 steps 4 to 6). -/
def Warp.enterHandler (w : Warp) (pidx fa : Nat) (pc : Word) : Warp :=
  let p := w.path pidx
  let w := w.setAreg 0 ⟨BitVec.ofNat 64 fa, BitVec.ofNat 64 fa, BitVec.ofNat 64 (fa + 8192), 3, none, none⟩
  let frozen := (List.range 16).filter fun i => i != pidx && (w.path i).state != .free
  { w with
    inHandler := true, trapPath := pidx, trapArrived := p.arrived, frozen := frozen, paths := w.paths.map Path.freeze }.setPath pidx
    { p with
      state := .live, pc := pc, window := [], line := none, await := none, entering := false, arrived := none, waits := none }

/-- Takes a trap at a path: the one operation behind every trap of the device. Where the context asks for it, the event is a rollback
that is due and no trap is taken (R484). -/
def State.takeTrap (s : State) (wid pidx : Nat) (t : Trap) (u : Unit') : State :=
  let s := if t.cause = 0x50 ∧ s.upset.1 ≠ 0 then { s.reissueSlot (quarterOf wid) with focus := none, upset := (0, 0) } else { s with focus := none }
  match s.warps.get? wid with
  | none => s
  | some w =>
    let b := s.blocks.get? w.block
    let e : Env := ⟨partOfLaunch (b.elim 0 (·.launch)), b.elim 0 (·.home)⟩
    match s.rollsBack e.part (s.classOf w.block) t.cause t.sub (if t.cause = 0x51 then s.poisonNear e t.data.toNat else []) with
    | some s' => s'
    | none =>
    let t := { t with lanes := t.lanes &&& w.present }
    let s := s.trace e.part 3 wid pidx t.payload
    if w.inHandler then s.haltInHandler wid pidx e w t
    else
      let pt := s.parts.get? e.part
      let fa := frameAddr (pt.elim 0 (·.tframe)) w.frameSlot
      let w1 := w.loadCause t
      match s.writeOwn wid w.block e fa (frameBytes w pidx t u s.cycle 0 0) with
      | .error _ => s.haltInHandler wid pidx e w t
      | .ok s1 =>
        let s1 := s1.wroteOut w.block
        match s1.vectorEntry e (pt.elim 0 (·.vtab)) t.cause with
        | none => (s1.setWarp wid w1).haltInHandler wid pidx e w1 t
        | some pc =>
          (s1.setWarp wid (w1.enterHandler pidx fa pc)).setPart e.part fun p => { p with logReserved := p.logReserved - w.givenUp }

/-! ### Returning from a trap (R178, R460) -/

/-- A number in a frame. -/
def fieldAt (bs : List Byte) (off n : Nat) : Nat := leNat ((bs.drop off).take n)

/-- An integer in a frame. -/
def intAt (bs : List Byte) (off n : Nat) : Int := (BitVec.ofNat (8 * n) (fieldAt bs off n)).toInt

/-- Whether base ≤ pointer ≤ limit (R200, R321). -/
def AReg.ordered (a : AReg) : Bool := a.base ≤ a.pointer && a.pointer ≤ a.limit

/-- Whether a stream state is one R204 accepts, with every index of a used dimension below its count (R460). -/
def Stream.sound (t : Stream) (pointer : Word) : Bool :=
  t.log2 ≤ 4 && ((List.range 4).all fun d =>
    if d < t.dims then 1 ≤ nth t.n d 0 && nth t.i d 0 < nth t.n d 0 && nth t.t d 0 % 2 ^ t.log2 == 0
    else nth t.n d 0 == 0 && nth t.t d 0 == 0)
  && t.origin.toNat % 2 ^ t.log2 == 0 && pointer.toNat % 2 ^ t.log2 == 0

/-- An address register from its 32-byte image and its stream state (R457, R460). -/
def aregOfFrame (bs : List Byte) (img : Nat) (strm : Option Nat) : AReg :=
  let word := BitVec.ofNat 64 (fieldAt bs (img + 24) 8)
  let stream := match strm with
    | none => none
    | some at' =>
      if word.getLsbD 4 then
        some { origin := BitVec.ofNat 64 (fieldAt bs at' 8), dims := (word.extractLsb' 8 2).toNat + 1
               log2 := (word.extractLsb' 5 3).toNat
               n := [0, 1, 2, 3].map fun d => fieldAt bs (at' + 8 + 4 * d) 4
               i := [0, 1, 2, 3].map fun d => fieldAt bs (at' + 24 + 4 * d) 4
               t := [0, 1, 2, 3].map fun d => intAt bs (at' + 40 + 8 * d) 8
               e := word.extractLsb' 11 4, done := word.getLsbD 10 }
      else none
  ⟨BitVec.ofNat 64 (fieldAt bs img 8), BitVec.ofNat 64 (fieldAt bs (img + 8) 8), BitVec.ofNat 64 (fieldAt bs (img + 16) 8),
    word.extractLsb' 0 4, stream, none⟩

/-- A window place from its class byte and its 256 bytes (R455, R457). -/
def placeOfFrame (bs : List Byte) (cls img : Nat) : Option Place :=
  match cls with
  | 0 => some (.vector (laneIndices.map fun l => BitVec.ofNat 64 (fieldAt bs (img + 8 * l) 8)))
  | 1 => some (.scalar (BitVec.ofNat 64 (fieldAt bs img 8)))
  | 2 => some (aregOfFrame bs img none |> fun a => .address a.pointer a.base a.limit a.perm)
  | 3 => some (.predicate (BitVec.ofNat 32 (fieldAt bs img 4)))
  | 4 => some .matrix
  | 5 => some .system
  | 6 => some .none
  | _ => none

/-- Whether the counts of a frame are the warp's and every class byte names a class (R460). -/
def frameMatches (w : Warp) (bs : List Byte) : Bool :=
  fieldAt bs 0x38 4 == w.wbase && fieldAt bs 0x3C 4 == w.sfloor && fieldAt bs 0x40 2 == w.n && fieldAt bs 0x42 2 == w.cdepth
    && (List.range 8).all fun k => let c := fieldAt bs (0x44 + k) 1; c ≤ 6 || c == 0xFF

/-- The address registers of a frame. -/
def frameAregs (bs : List Byte) : List AReg :=
  (List.range 16).map fun i => aregOfFrame bs (0x3C0 + 32 * i) (if 8 ≤ i then some (0x5C0 + 72 * (i - 8)) else none)

/-- Whether every address image of a frame is one R460 accepts. -/
def frameAddressesOk (bs : List Byte) : Bool :=
  (frameAregs bs).all (fun a => a.ordered && (match a.stream with | some t => t.sound a.pointer | none => true))
    && (List.range 8).all fun k =>
      if fieldAt bs (0x44 + k) 1 = 2 then (aregOfFrame bs (0x800 + 256 * k) none).ordered else true

/-- A frozen path goes on (R450): one that was parked issues its instruction again. -/
def Path.thawed (p : Path) : Path :=
  match p.state with
  | .parked .evicted | .parked .halted | .parked .debugHold => p
  | .parked _ => if p.await.isNone then { p with state := .live } else p
  | _ => p

/-- The warp a frame restores, out of its handler (R460). -/
def Warp.restoreFrame (w : Warp) (pidx : Nat) (bs : List Byte) : Warp :=
  let w := (List.range w.width).foldl (fun w i =>
    w.setVreg i fun l => some (BitVec.ofNat 32 (fieldAt bs (0x1000 + 128 * i + 4 * l) 4))) w
  let p := w.path pidx
  { w with
    s := (List.range 64).map fun i => BitVec.ofNat 64 (fieldAt bs (0x1C0 + 8 * i) 8)
    p := (List.range 8).map fun i => if i = 0 then w.preg 0 else BitVec.ofNat 32 (fieldAt bs (0x1A0 + 4 * i) 4)
    a := frameAregs bs
    flags := laneIndices.map fun l => BitVec.ofNat 5 (fieldAt bs (0x50 + l) 1)
    srcnt := BitVec.ofNat 64 (fieldAt bs 0x30 8)
    inHandler := false
    paths := w.paths.map Path.thawed
    frozen := [] }.setPath pidx
    { p with pc := BitVec.ofNat 64 (fieldAt bs 0 8), line := none
             arrived := w.trapArrived.filter (· == BitVec.ofNat 64 (fieldAt bs 0 8))
             window := (List.range 8).map fun k => placeOfFrame bs (fieldAt bs (0x44 + k) 1) (0x800 + 256 * k) }

/-! ### Ends of an instruction -/

/-- Sets one path of a warp. -/
def State.setPath (s : State) (wid pidx : Nat) (f : Path → Path) : State :=
  { s with warps := s.warps.adjust wid fun w => w.setPath pidx (f (w.path pidx)) }

/-- Parks the issuing path (R14, R16, R133 a). -/
def State.park (s : State) (c : Ctx) (r : ParkReason) : State :=
  ({ s with focus := none }).setPath c.wid c.pidx fun p => { p with state := .parked r, inSet := false, units := 0, since := s.cycle }

/-- A path takes a place in its window (R101). -/
def Path.took (p : Path) (pl : Place) : Path := { p with window := ((some pl) :: p.window).take 8 }

/-- A path goes on at a PC; a transfer, or another line, enters its line again (R89). -/
def Path.goto (p : Path) (pc : Word) (transfer : Bool) : Path :=
  { p with pc := pc, line := if transfer || pcLine pc != pcLine p.pc then none else p.line }

/-- A path that counts one more issued unit (R133 a, R135): a pair counts with its second member. -/
def Path.issuedAt (p : Path) (cycle : Nat) : Path :=
  { p with last := some cycle, units := p.units + (if p.pairAt == some cycle then 0 else 1), entering := false, exempt := 0 }

/-- Whether another path of the warp stands outside the issue set, unparked (R133 a). -/
def Warp.outsider (w : Warp) (pidx : Nat) : Bool := (List.range 16).any fun i => i != pidx && w.runs i && !(w.path i).inSet

/-- Takes a path out of the issue set. -/
def Path.leaveSet (p : Path) (cycle : Nat) : Path := { p with inSet := false, units := 0, since := cycle }

/-- The 64-unit limit of R133 (a). -/
def Warp.rotate (w : Warp) (pidx cycle : Nat) : Warp :=
  if 64 ≤ (w.path pidx).units && w.outsider pidx then w.setPath pidx ((w.path pidx).leaveSet cycle) else w

/-- Counts a completed instruction for its warp and its block (R510). -/
def State.count (s : State) (bid : Nat) : State := s.setBlock bid fun b => { b with retired := b.retired + 1 }

/-- The instruction is complete: the warp as it now stands, its path counted as issued. -/
def State.finish (s : State) (c : Ctx) (w : Warp) : State :=
  let w := w.setPath c.pidx ((w.path c.pidx).issuedAt s.cycle)
  let w := { w with retired := w.retired + 1 }.rotate c.pidx s.cycle
  ({ s with focus := none }.setWarp c.wid w).count c.bid

/-- Completes with a place in the window, at the next slot. -/
def State.complete (s : State) (c : Ctx) (w : Warp) (pl : Place) : State :=
  s.finish c (w.setPath c.pidx (((w.path c.pidx).took pl).goto c.nextPc false))

/-- Completes a taken transfer to a PC, its place being of class none. -/
def State.completeAt (s : State) (c : Ctx) (w : Warp) (pc : Word) : State :=
  s.finish c (w.setPath c.pidx (((w.path c.pidx).took .none).goto pc true))

/-- Completes with no effect but a place of class none. -/
def State.skip (s : State) (c : Ctx) : State := s.complete c c.w .none

/-! ### Waiting and waking (R16, R451) -/

/-- The issuing path issues its unit and awaits an answer. -/
def State.awaits (s : State) (c : Ctx) (w : Warp) (st : PathState) (a : Await) (reserve : Nat) : State :=
  let p := (w.path c.pidx).issuedAt s.cycle
  let p := { p with await := some ⟨a, c.pre, (unitOf c.p c.pre).word, reserve⟩, state := st }
  let p := if st == .live then p else { p with inSet := false, units := 0, since := s.cycle }
  let s := { s with focus := none }.setWarp c.wid ((w.setPath c.pidx p).rotate c.pidx s.cycle)
  if reserve = 0 then s else s.setPart c.env.part fun p => { p with logReserved := p.logReserved + reserve }

/-- A path leaves its wait. -/
def Path.resumed (p : Path) (cycle : Nat) : Path :=
  if p.state == .live then { p with await := none } else { p with state := .live, await := none, since := cycle }

/-- The entries an answer had reserved are given back (R526). -/
def State.unreserve (s : State) (c : Ctx) : State :=
  match c.p.await with
  | some a => if a.reserved = 0 then s else s.setPart c.env.part fun p => { p with logReserved := p.logReserved - a.reserved }
  | none => s

/-- An instruction that awaited an answer is complete: its place taken, its path at the next slot. -/
def State.answered (s : State) (c : Ctx) (w : Warp) (pl : Place) : State :=
  let s := s.unreserve c
  let p := ((w.path c.pidx).resumed s.cycle).took pl
  let w := { w.setPath c.pidx (p.goto c.nextPc false) with retired := w.retired + 1 }
  (s.setWarp c.wid w).count c.bid

/-- An awaited answer raises a trap. -/
def State.answeredTrap (s : State) (c : Ctx) (t : Trap) : State :=
  ((s.unreserve c).setWarp c.wid (c.w.setPath c.pidx (c.p.resumed s.cycle))).takeTrap c.wid c.pidx t (unitOf c.p c.pre)

/-- A path that may have been parked for a reason that may have passed goes back to its instruction. -/
def Path.woken (p : Path) (r : ParkReason) (cycle : Nat) : Path :=
  if p.state == .parked r && p.await.isNone && p.waits.isNone then { p with state := .live, since := cycle } else p

/-- Every path parked for a reason issues its instruction again (R16): it parks again where the reason still stands. -/
def State.wake (s : State) (r : ParkReason) : State :=
  { s with warps := s.warps.map fun x =>
      (x.1, { x.2 with paths := x.2.paths.zipIdx.map fun q => if x.2.stopped q.2 then q.1 else q.1.woken r s.cycle }) }

/-- Returns from a trap: the checks of R460 in its order, then the frame's state, the handler's path going on at the frame's PC. -/
def State.returnFromTrap (s : State) (c : Ctx) : Except Stop State := do
  let lanes := c.p.mask
  let live := (List.range 16).filter fun i => (c.w.path i).state != .free && !c.w.frozen.contains i
  if !c.w.inHandler || live.length != 1 then raise 0x01 0x0B lanes
  let fa := frameAddr ((s.parts.get? c.env.part).elim 0 (·.tframe)) c.w.frameSlot
  match s.readOwn c.wid c.env fa 8192 with
  | .error (cause, sub) => raise cause sub lanes (BitVec.ofNat 64 fa)
  | .ok bs =>
    if !frameMatches c.w bs then raise 0x01 0x0B lanes
    if !frameAddressesOk bs then raise 0x10 0x08 lanes
    ofPc lanes (checkPc (BitVec.ofNat 64 (fieldAt bs 0 8)))
    return (s.finish c (c.w.restoreFrame c.pidx bs)).setPath c.wid c.pidx fun p => { p with exempt := 2 }

/-! ### Comparators (R531 to R534) -/

/-- The size of a comparator's data range. -/
def Comparator.bytes (k : Comparator) : Nat := nth [8, 32, 128, 4096] k.len 8

/-- Whether a data comparator matches bytes read or written. -/
def Comparator.sees (k : Comparator) (rd wr : Bool) (a len : Nat) : Bool :=
  let lo := alignDown k.addr.toNat k.bytes
  k.enable && ((k.kind == 1 && rd) || (k.kind == 2 && wr) || (k.kind == 3 && (rd || wr)))
    && decide (lo < a + len) && decide (a < lo + k.bytes)

/-- Freezes the package (R540): the host ports drop and every clock stops. -/
def State.freeze (s : State) (trigger part : Nat) : State := { s with frozen := true, focus := none, trigger := some (trigger, part) }

/-- A path is held (R533, R534): its record is written and the partition's vector sent. -/
def State.hold (s : State) (wid pidx part payload : Nat) : State :=
  let s := s.trace part 4 wid pidx (payload * 2 ^ 61)
  let s := s.setPath wid pidx fun p =>
    { p with state := .parked .debugHold, inSet := false, units := 0, since := s.cycle, holdAsked := false }
  ({ s with focus := none }).send (.msix part "hold")

/-- One matching comparator counts, and writes its record. -/
def State.countHit (s : State) (part wid pidx payload k : Nat) : State :=
  let s := s.setPart part fun p => { p with comps := modifyAt p.comps k fun x => { x with hits := satAdd 8 x.hits 1 } }
  s.trace part 2 wid pidx payload

/-- What matching comparators do (R532 e, R533): `data` gives the cause data of each, `sub` the subcode, `level` how far the unit is
exempt when nothing stops it. -/
def State.matched (s : State) (c : Ctx) (hits : List Nat) (sub level : Nat) (lanes : LaneMask) (data : Nat → Nat) : State :=
  let s := hits.foldl (fun s k => s.countHit c.env.part c.wid c.pidx (data k) k) s
  let comps := (s.parts.get? c.env.part).elim [] (·.comps)
  let action (k : Nat) : Nat := (nth comps k Comparator.reset).action
  match hits.find? fun k => action k != 2 with
  | none => s.setPath c.wid c.pidx fun p => { p with exempt := level }
  | some k =>
    if action k = 0 then s.takeTrap c.wid c.pidx ⟨0x70, sub, BitVec.ofNat 64 (data k), lanes⟩ (unitOf c.p c.pre)
    else if action k = 1 then s.hold c.wid c.pidx c.env.part k
    else s.freeze (k + 1) c.env.part

/-- A thread access that has passed its range checks meets the data comparators (R532 b, c). -/
def watch (s : State) (c : Ctx) (rd wr : Bool) (whole : Option LaneMask) (xs : List (Nat × Nat × List Piece)) : Except Stop Unit :=
  if c.w.inHandler || 2 ≤ c.p.exempt then .ok () else
  let comps := (s.parts.get? c.env.part).elim [] (·.comps)
  let sees (k : Nat) (x : Nat × Nat × List Piece) : Bool :=
    (nth comps k Comparator.reset).sees rd wr x.2.1 (x.2.2.map (·.len)).sum
  let hits := (List.range 8).filter fun k => xs.any (sees k)
  match xs.find? fun x => hits.any fun k => sees k x with
  | none => .ok ()
  | some x => .error (.watch hits (whole.getD (maskOf fun l => xs.any fun y => y.1 == l && hits.any fun k => sees k y)) x.2.1)

/-- A unit meets the PC comparators at its issue (R532 a, c). -/
def State.pcHits (s : State) (c : Ctx) : List Nat :=
  if c.w.inHandler || 1 ≤ c.p.exempt then [] else
  let comps := (s.parts.get? c.env.part).elim [] (·.comps)
  (List.range 8).filter fun k => let x := nth comps k Comparator.reset; x.enable && x.kind == 0 && x.addr == c.p.pc

/-! ### Issuing -/

/-- Runs the body of a warp instruction for the issuing path. A matrix stream that meets a warp instruction is stopped by the caller
(`onStream`); with nobody issuing, nothing happens. -/
def State.issue (s : State) (onStream : State → Nat → State) (body : Ctx → Except Stop State) : Answer :=
  match s.focus with
  | some (.path wid pidx pre) =>
    match s.ctx? wid pidx pre with
    | none => .next s
    | some c =>
      match body c with
      | .ok s' => .next s'
      | .error (.park r) => .next (s.park c r)
      | .error (.trap t) => .next (s.takeTrap wid pidx t (unitOf c.p pre))
      | .error (.watch hits lanes addr) =>
        .next (s.matched c hits 2 2 lanes fun k => k * 2 ^ 61 + addr % 2 ^ 47)
  | some (.stream b _) => .next (onStream s b)
  | none => .next s

/-! ### Places of results (R99, R101) -/

/-- The value of vi in each lane as its format reads it: 64 bits for a 64-bit format, else 32 (R142, R140). -/
def Warp.vecValue (w : Warp) (f : Fmt) (i : Nat) : List Word :=
  let lo := w.vreg i
  if f.is64 || f == .b128 then
    let hi := w.vreg (i + 1)
    laneIndices.map fun l => laneOf hi l ++ laneOf lo l
  else laneIndices.map fun l => (laneOf lo l).zeroExtend 64

/-- Writes lanes of a vector destination of a format: lane l takes `x l` where the mask has it (R99 b). -/
def Warp.putVec (w : Warp) (f : Fmt) (i : Nat) (m : LaneMask) (x : Nat → Word) : Warp :=
  let w := w.setVreg i fun l => if m.getLsbD l then some ((x l).extractLsb' 0 32) else none
  if f.is64 then w.setVreg (i + 1) fun l => if m.getLsbD l then some ((x l).extractLsb' 32 32) else none else w

/-- A vector result: the register where write-back asks for it, and the place with its per-lane content (R99, R101, R140). -/
def vectorResult (w : Warp) (d : Dst) (f : Fmt) (m : LaneMask) (x : Nat → Word) : Warp × Place :=
  let keep (v : Word) : Word := if f.is64 then v else (v.extractLsb' 0 32).zeroExtend 64
  if d.wb then
    let w' := w.putVec f d.idx m x
    let after := w'.vecValue f d.idx
    (w', .vector (laneIndices.map fun l => if m.getLsbD l then keep (x l) else nth after l 0))
  else (w, .vector (laneIndices.map fun l => if m.getLsbD l then keep (x l) else 0))

/-- A scalar result; an instruction that does not act leaves the register's value, or zero, in its place (R101). -/
def scalarResult (w : Warp) (d : Dst) (x : Option Word) : Warp × Place :=
  match x with
  | some v => (if d.wb then w.setSreg d.idx v else w, .scalar v)
  | none => (w, .scalar (if d.wb then w.sreg d.idx else 0))

/-- A predicate result: the bits of the lanes of the mask (R98, R99, R101). -/
def predicateResult (w : Warp) (d : Dst) (m x : LaneMask) : Warp × Place :=
  let after := if d.wb then (w.preg d.idx &&& ~~~m) ||| (x &&& m) else 0
  (if d.wb then w.setPreg d.idx after else w,
    .predicate ((x &&& m) ||| ((if d.wb then (if d.idx = 0 then w.preg 0 else after) else 0) &&& ~~~m)))

/-- The place an address register makes (R140). -/
def AReg.place (a : AReg) : Place := .address a.pointer a.base a.limit a.perm

/-- An address result (R99, R140, R199). -/
def addressResult (w : Warp) (d : Dst) (x : Option AReg) : Warp × Place :=
  match x with
  | some a => (if d.wb then w.setAreg d.idx a else w, a.place)
  | none => (w, (if d.wb then w.areg d.idx else AReg.zero).place)

end Sys2Proof.Machine
end

