-- ==== Sys2Proof/Machine/Flags.lean ====
section
/-! DEFINITION. The sticky flags of a lane (spec/08 R221): [4] nv, [3] dz, [2] of, [1] uf, [0] nx, and their accumulation. -/
namespace Sys2Proof.Machine

/-- Invalid. -/
def fNv : BitVec 5 := 0b10000
/-- Divide by zero. -/
def fDz : BitVec 5 := 0b01000
/-- Overflow. -/
def fOf : BitVec 5 := 0b00100
/-- Underflow. -/
def fUf : BitVec 5 := 0b00010
/-- Inexact. -/
def fNx : BitVec 5 := 0b00001

/-- The flags of lane l. -/
def Warp.flag (w : Warp) (l : Nat) : BitVec 5 := nth w.flags l 0

/-- Sets flags: lane l of the mask takes `f l` beside those it holds; helper lanes never do (R221). -/
def Warp.orFlags (w : Warp) (m : LaneMask) (f : Nat → BitVec 5) : Warp :=
  { w with flags := laneIndices.map fun l => if (m &&& w.present).getLsbD l then w.flag l ||| f l else w.flag l }

/-- Clears flags: lane l of the mask loses those of `f l` (R236). -/
def Warp.clearFlags (w : Warp) (m : LaneMask) (f : Nat → BitVec 5) : Warp :=
  { w with flags := laneIndices.map fun l => if m.getLsbD l then w.flag l &&& ~~~(f l) else w.flag l }

end Sys2Proof.Machine
end

