-- ==== Sys2Proof/Machine/Float.lean ====
section
/-! DEFINITION. Floating-point formats, exact real values and the one rounding of them (spec/08 R210 to R223). A value is kept
exactly until it is rounded; nothing here approximates except to decide on which side of a grid point an irrational value lies. -/
namespace Sys2Proof.Machine

/-! ### Formats (R210, R211, R213) -/

/-- A floating-point format: bits of exponent and fraction, bias, the largest finite code, infinity and canonical NaN where there
are any. -/
structure FSpec where
  ebits : Nat
  mbits : Nat
  bias  : Int
  top   : Nat
  inf   : Option Nat
  nan   : Option Nat
deriving DecidableEq, Repr

/-- The format of a code; codes that are no float give f32's. -/
def fspec : Fmt → FSpec
  | .f64  => ⟨11, 52, 1023, 0x7FEFFFFFFFFFFFFF, some 0x7FF0000000000000, some 0x7FF8000000000000⟩
  | .f16  => ⟨5, 10, 15, 0x7BFF, some 0x7C00, some 0x7E00⟩
  | .bf16 => ⟨8, 7, 127, 0x7F7F, some 0x7F80, some 0x7FC0⟩
  | .e4m3 => ⟨4, 3, 7, 0x7E, none, some 0x7F⟩
  | .e5m2 => ⟨5, 2, 15, 0x7B, some 0x7C, some 0x7E⟩
  | .e3m2 => ⟨3, 2, 3, 0x1F, none, none⟩
  | .e2m3 => ⟨2, 3, 1, 0x1F, none, none⟩
  | .e2m1 => ⟨2, 1, 1, 0x7, none, none⟩
  | _     => ⟨8, 23, 127, 0x7F7FFFFF, some 0x7F800000, some 0x7FC00000⟩

/-- Bits of a format without its sign. -/
def FSpec.magBits (f : FSpec) : Nat := f.ebits + f.mbits
/-- The exponent of the smallest grid step: that of subnormals. -/
def FSpec.qmin (f : FSpec) : Int := 1 - f.bias - f.mbits
/-- The code with a sign. -/
def FSpec.signed (f : FSpec) (neg : Bool) (code : Nat) : Nat := if neg then code + 2 ^ f.magBits else code
/-- Canonical NaN; +0 in a format that has none (R220). -/
def FSpec.nanCode (f : FSpec) : Nat := f.nan.getD 0

/-- What an encoding stands for: NaN, infinity, or the exact value m · 2^e with its sign. -/
inductive FVal where
  | nan (signalling : Bool)
  | inf (neg : Bool)
  | fin (neg : Bool) (m : Nat) (e : Int)
deriving DecidableEq, Repr

/-- The value of an encoding (R211, R213). -/
def FSpec.decode (f : FSpec) (bits : Nat) : FVal :=
  let neg := bits / 2 ^ f.magBits % 2 == 1
  let mag := bits % 2 ^ f.magBits
  let E := mag / 2 ^ f.mbits
  let M := mag % 2 ^ f.mbits
  if f.inf == some mag then .inf neg
  else if f.top < mag then .nan (M < 2 ^ (f.mbits - 1))
  else if E = 0 then .fin neg M f.qmin
  else .fin neg (2 ^ f.mbits + M) ((E : Int) - f.bias - f.mbits)

def FVal.isNan : FVal → Bool | .nan _ => true | _ => false
def FVal.isSnan : FVal → Bool | .nan s => s | _ => false
def FVal.isZero : FVal → Bool | .fin _ 0 _ => true | _ => false
def FVal.isInf : FVal → Bool | .inf _ => true | _ => false
def FVal.neg : FVal → Bool | .nan _ => false | .inf n => n | .fin n _ _ => n

/-- Whether an encoding is subnormal. -/
def FSpec.subnormal (f : FSpec) (bits : Nat) : Bool :=
  let mag := bits % 2 ^ f.magBits
  mag != 0 && mag < 2 ^ f.mbits

/-- An input as it is read: a subnormal is a zero of its sign under flush (R222). -/
def FSpec.input (f : FSpec) (flush : Bool) (bits : Nat) : FVal :=
  if flush && f.subnormal bits then .fin (bits / 2 ^ f.magBits % 2 == 1) 0 f.qmin else f.decode bits

/-! ### Exact magnitudes -/

/-- A positive real number, exactly. -/
inductive Mag where
  /-- n / d · 2^e. -/
  | rat (n d : Nat) (e : Int)
  /-- The square root of n · 2^e. -/
  | sqrt (n : Nat) (e : Int)
  /-- 2^(±m · 2^e), where that exponent is no integer. -/
  | exp2 (neg : Bool) (m : Nat) (e : Int)
  /-- The magnitude of log2(m · 2^e), where m is no power of two. -/
  | log2 (m : Nat) (e : Int)
deriving DecidableEq, Repr

/-- floor(n · 2^k), with whether it is exact. -/
def scaleDown (n : Nat) (k : Int) : Nat × Bool :=
  if 0 ≤ k then (n * 2 ^ k.toNat, true) else
    let p := 2 ^ (-k).toNat
    (n / p, n % p == 0)

/-- floor(n / d · 2^k). -/
def scaleRat (n d : Nat) (k : Int) : Nat × Bool :=
  if 0 ≤ k then (n * 2 ^ k.toNat / d, n * 2 ^ k.toNat % d == 0)
  else
    let q := d * 2 ^ (-k).toNat
    (n / q, n % q == 0)

/-- The floor of a square root, one bit after another from the top. -/
def isqrt (n : Nat) : Nat := go (Nat.log2 n / 2 + 1) 0
where
  go : Nat → Nat → Nat
    | 0, r => r
    | k + 1, r => let t := r + 2 ^ k; if t * t ≤ n then go k t else go k r

/-- Two bounds of 2^f for f = j / 2^b in [0, 1), as integers over 2^p: square roots of 2 multiplied together. -/
def exp2Bounds (p j b : Nat) : Nat × Nat := go b (2 * 2 ^ p) (2 * 2 ^ p) (2 ^ p) (2 ^ p)
where
  /-- `lo` and `hi` bound 2^(2^-i) after i steps; `l` and `h` bound the product so far. -/
  go : Nat → Nat → Nat → Nat → Nat → Nat × Nat
    | 0, _, _, l, h => (l, h)
    | i + 1, lo, hi, l, h =>
      let lo := isqrt (lo * 2 ^ p)
      let hi := isqrt (hi * 2 ^ p) + 1
      if j / 2 ^ i % 2 == 1 then go i lo hi (l * lo / 2 ^ p) (h * hi / 2 ^ p + 1) else go i lo hi l h

/-- Bits of log2 of y in [1, 2), y between lo and hi over 2^p, as long as both bounds give the same: n bits, or none. -/
def log2Bits (p : Nat) : Nat → Nat → Nat → Nat → Option Nat
  | 0, _, _, acc => some acc
  | n + 1, lo, hi, acc =>
    let lo := lo * lo / 2 ^ p
    let hi := hi * hi / 2 ^ p + 1
    if 2 * 2 ^ p ≤ lo then log2Bits p n (lo / 2) (hi / 2 + 1) (2 * acc + 1)
    else if hi < 2 * 2 ^ p then log2Bits p n lo hi (2 * acc)
    else none

/-- The first answer of a computation at rising precision. -/
def atPrecision (f : Nat → Option Nat) : Nat → Nat → Nat
  | 0, p => (f p).getD 0
  | k + 1, p => match f p with | some v => v | none => atPrecision f k (2 * p)

/-- Whole part and fraction of the exponent ±m · 2^e, e < 0: the floor, and the fraction over 2^(-e). -/
def splitExponent (neg : Bool) (m : Nat) (e : Int) : Int × Nat × Nat :=
  let b := (-e).toNat
  let x : Int := if neg then -(m : Int) else m
  (x / 2 ^ b, (x % 2 ^ b).toNat, b)

/-- floor(2^x · 2^s) for x no integer. -/
def exp2Floor (neg : Bool) (m : Nat) (e : Int) (s : Int) : Nat :=
  let (whole, j, b) := splitExponent neg m e
  let k := whole + s
  if k < 0 then 0
  else atPrecision (fun p =>
    let (lo, hi) := exp2Bounds p j b
    let l := lo * 2 ^ k.toNat / 2 ^ p
    let h := hi * 2 ^ k.toNat / 2 ^ p
    if l = h then some l else none) 6 (256 + k.toNat)

/-- floor of log2(m · 2^e) times 2^n, as an integer; m is no power of two. -/
def log2Floor (m : Nat) (e : Int) (n : Nat) : Int :=
  let k := Nat.log2 m
  let whole : Int := e + k
  let bits := atPrecision (fun p =>
    let y := m * 2 ^ p / 2 ^ k
    log2Bits p n y (y + 1) 0) 6 (2 * n + 128)
  whole * 2 ^ n + bits

/-- floor(v · 2^s) of a magnitude, with whether that is v · 2^s itself. -/
def Mag.floorAt (v : Mag) (s : Int) : Nat × Bool :=
  match v with
  | .rat n d e => scaleRat n d (e + s)
  | .sqrt n e =>
    let (t, exact) := scaleDown n (e + 2 * s)
    let r := isqrt t
    (r, exact && r * r == t)
  | .exp2 neg m e => (exp2Floor neg m e s, false)
  | .log2 m e =>
    let n := max s 0
    let x := log2Floor m e n.toNat
    let mag := if x < 0 then (-x - 1).toNat else x.toNat
    (mag / 2 ^ (n - s).toNat, false)

/-- floor(log2 v). -/
def Mag.exponent (v : Mag) : Int :=
  match v with
  | .rat n d e =>
    let k : Int := (Nat.log2 n : Int) - Nat.log2 d
    let below := if 0 ≤ k then n < d * 2 ^ k.toNat else n * 2 ^ (-k).toNat < d
    (if below then k - 1 else k) + e
  | .sqrt n e => ((Nat.log2 n : Int) + e) / 2
  | .exp2 neg m e => (splitExponent neg m e).1
  | .log2 m e => (Nat.log2 (Mag.floorAt (.log2 m e) 64).1 : Int) - 64

/-! ### Rounding (R219, R220, R222) -/

/-- An exact result before it is rounded. -/
inductive Real' where
  | nan
  | inf (neg : Bool)
  | zero (neg : Bool)
  | val (neg : Bool) (v : Mag)
deriving DecidableEq, Repr

/-- How a result is rounded: mode, random bits (R224), clamping of overflow (R239 sat), flushing (R222). -/
structure Rounding where
  mode  : RMode
  rbits : Nat
  sat   : Bool
  flush : Bool
deriving DecidableEq, Repr

/-- The overflow value (R220). -/
def FSpec.overflow (f : FSpec) (r : Rounding) (neg : Bool) : Nat :=
  match f.inf with
  | none => f.signed neg f.top
  | some i =>
    let toTop := r.sat || (match r.mode with | .rz => true | .ru => neg | .rd => !neg | _ => false)
    f.signed neg (if toTop then f.top else i)

/-- Whether a magnitude between n and n + 1 steps goes up to n + 1, given half and 2^32 fractions of the step (R219). -/
def roundsUp (mode : RMode) (neg : Bool) (n half : Nat) (halfExact : Bool) (frac32 : Nat) (fracExact : Bool) (rbits : Nat) : Bool :=
  match mode with
  | .rne => if half % 2 == 0 then false else if halfExact then n % 2 == 1 else true
  | .rz => false
  | .ru => !neg
  | .rd => neg
  | .rs =>
    if neg then !(rbits < 2 ^ 32 - frac32 - (if fracExact then 0 else 1)) else rbits < frac32

/-- The code of n grid steps of 2^q, where n < 2^(mbits + 1) + 1. -/
def FSpec.codeOf (f : FSpec) (n : Nat) (q : Int) : Nat :=
  if n < 2 ^ f.mbits then n
  else ((q + f.bias + f.mbits).toNat * 2 ^ f.mbits) + (n - 2 ^ f.mbits)

/-- Rounds an exact result to a format: its bits and the flags it sets. -/
def FSpec.round (f : FSpec) (r : Rounding) (x : Real') : Nat × BitVec 5 :=
  match x with
  | .nan => (f.nanCode, if f.nan.isNone then fNv else 0)
  | .inf neg =>
    match f.inf with
    | some i => if r.sat then (f.signed neg f.top, fOf ||| fNx) else (f.signed neg i, 0)
    | none => (f.signed neg f.top, fOf ||| fNx)
  | .zero neg => (f.signed neg 0, 0)
  | .val neg v =>
    let q := max (v.exponent - f.mbits) f.qmin
    let (n, exact) := v.floorAt (-q)
    if exact && f.codeOf n q ≤ f.top then
      if r.flush && n < 2 ^ f.mbits && n != 0 then (f.signed neg 0, fUf ||| fNx) else (f.signed neg (f.codeOf n q), 0)
    else
      let (half, halfExact) := v.floorAt (1 - q)
      let (fr, frExact) := v.floorAt (32 - q)
      let n' := if !exact && roundsUp r.mode neg n half halfExact (fr - n * 2 ^ 32) frExact r.rbits then n + 1 else n
      let code := f.codeOf n' q
      if f.top < code then (f.overflow r neg, fOf ||| fNx)
      else if n' = 0 then (f.signed neg 0, fNx)
      else if code < 2 ^ f.mbits then
        if r.flush then (f.signed neg 0, fUf ||| fNx) else (f.signed neg code, fUf ||| fNx)
      else (f.signed neg code, fNx)

/-- Round to nearest, ties to even, nothing flushed: `round_rne` (R14). -/
def rneOf : Rounding := ⟨.rne, 0, false, false⟩

/-! ### Exact sums and products -/

/-- An exact dyadic number n · 2^e with the sign its zero has. -/
structure Dyadic where
  n    : Int
  e    : Int
  zneg : Bool
deriving DecidableEq, Repr

def Dyadic.ofParts (neg : Bool) (m : Nat) (e : Int) : Dyadic := ⟨if neg then -(m : Int) else m, e, neg⟩

def Dyadic.mul (x y : Dyadic) : Dyadic := ⟨x.n * y.n, x.e + y.e, x.zneg != y.zneg⟩

/-- An exact sum; an exact zero of opposite signs is +0, or -0 under rd (R219). -/
def Dyadic.add (mode : RMode) (x y : Dyadic) : Dyadic :=
  let e := min x.e y.e
  let n := x.n * 2 ^ (x.e - e).toNat + y.n * 2 ^ (y.e - e).toNat
  ⟨n, e, if x.zneg == y.zneg then x.zneg else mode == .rd⟩

/-- The exact result of a dyadic number. -/
def Dyadic.real (x : Dyadic) : Real' := if x.n = 0 then .zero x.zneg else .val (x.n < 0) (.rat x.n.natAbs 1 x.e)

/-- A term of an exact sum: NaN, infinity or a number. -/
inductive Term where
  | nan
  | inf (neg : Bool)
  | num (d : Dyadic)
deriving DecidableEq, Repr

def FVal.term : FVal → Term
  | .nan _ => .nan
  | .inf n => .inf n
  | .fin n m e => .num (Dyadic.ofParts n m e)

def Term.negate : Term → Term
  | .nan => .nan
  | .inf n => .inf (!n)
  | .num d => .num ⟨-d.n, d.e, !d.zneg⟩

/-- A product; 0 · ∞ is NaN with nv (R233). -/
def FVal.mulTerm (x y : FVal) : Term × BitVec 5 :=
  if x.isNan || y.isNan then (.nan, 0)
  else if x.isInf || y.isInf then
    if x.isZero || y.isZero then (.nan, fNv) else (.inf (x.neg != y.neg), 0)
  else match x, y with
    | .fin a m e, .fin b n g => (.num ((Dyadic.ofParts a m e).mul (Dyadic.ofParts b n g)), 0)
    | _, _ => (.nan, 0)

/-- A sum of two terms; an exact sum of opposite infinities is NaN with nv (R233). -/
def Term.add (mode : RMode) : Term → Term → Term × BitVec 5
  | .nan, _ => (.nan, 0)
  | _, .nan => (.nan, 0)
  | .inf a, .inf b => if a == b then (.inf a, 0) else (.nan, fNv)
  | .inf a, _ => (.inf a, 0)
  | _, .inf b => (.inf b, 0)
  | .num x, .num y => (.num (x.add mode y), 0)

def Term.real : Term → Real'
  | .nan => .nan
  | .inf n => .inf n
  | .num d => d.real

/-- nv where some operand is a signalling NaN (R212). -/
def snanFlag (xs : List FVal) : BitVec 5 := if xs.any (·.isSnan) then fNv else 0

/-! ### The operations (R232, R233) -/

def realAdd (mode : RMode) (a b : FVal) : Real' × BitVec 5 :=
  let (t, fl) := a.term.add mode b.term
  (t.real, fl ||| snanFlag [a, b])

def realSub (mode : RMode) (a b : FVal) : Real' × BitVec 5 :=
  let (t, fl) := a.term.add mode b.term.negate
  (t.real, fl ||| snanFlag [a, b])

def realMul (a b : FVal) : Real' × BitVec 5 :=
  let (t, fl) := a.mulTerm b
  (t.real, fl ||| snanFlag [a, b])

/-- a · b + c; 0 · ∞ is invalid whatever c is. -/
def realFma (mode : RMode) (a b c : FVal) : Real' × BitVec 5 :=
  let (p, f1) := a.mulTerm b
  let (t, f2) := p.add mode c.term
  let nv := if (a.isInf && b.isZero) || (a.isZero && b.isInf) then fNv else 0
  (t.real, f1 ||| f2 ||| nv ||| snanFlag [a, b, c])

/-- a0 · b0 + a1 · b1 + c (R242). -/
def realDot2 (mode : RMode) (a0 b0 a1 b1 c : FVal) : Real' × BitVec 5 :=
  let (p, f1) := a0.mulTerm b0
  let (q, f2) := a1.mulTerm b1
  let (t, f3) := p.add mode q
  let (u, f4) := t.add mode c.term
  (u.real, f1 ||| f2 ||| f3 ||| f4 ||| snanFlag [a0, b0, a1, b1, c])

def realDiv (a b : FVal) : Real' × BitVec 5 :=
  let nv := snanFlag [a, b]
  if a.isNan || b.isNan then (.nan, nv)
  else match a, b with
    | .inf _, .inf _ => (.nan, fNv)
    | .inf x, _ => (.inf (x != b.neg), 0)
    | _, .inf y => (.zero (a.neg != y), 0)
    | .fin x m e, .fin y n g =>
      if n = 0 then if m = 0 then (.nan, fNv) else (.inf (x != y), fDz)
      else if m = 0 then (.zero (x != y), 0)
      else (.val (x != y) (.rat m n (e - g)), 0)
    | _, _ => (.nan, nv)

def realSqrt (a : FVal) : Real' × BitVec 5 :=
  match a with
  | .nan s => (.nan, if s then fNv else 0)
  | .inf neg => if neg then (.nan, fNv) else (.inf false, 0)
  | .fin neg m e =>
    if m = 0 then (.zero neg, 0) else if neg then (.nan, fNv) else (.val false (.sqrt m e), 0)

/-- 2^a (R232, R233). -/
def realExp2 (a : FVal) : Real' × BitVec 5 :=
  match a with
  | .nan s => (.nan, if s then fNv else 0)
  | .inf neg => (if neg then .zero false else .inf false, 0)
  | .fin neg m e =>
    if m = 0 then (.val false (.rat 1 1 0), 0)
    else
      let k := e + Nat.log2 m
      -- beyond every exponent of f32: 2^a rounds as 2^±1024 does
      if 10 ≤ k then (.val false (.rat 1 1 (if neg then -1024 else 1024)), 0)
      else
        let (n, exact) := scaleDown m e
        if exact then (.val false (.rat 1 1 (if neg then -(n : Int) else n)), 0) else (.val false (.exp2 neg m e), 0)

/-- log2 a (R232, R233). -/
def realLog2 (a : FVal) : Real' × BitVec 5 :=
  match a with
  | .nan s => (.nan, if s then fNv else 0)
  | .inf neg => if neg then (.nan, fNv) else (.inf false, 0)
  | .fin neg m e =>
    if m = 0 then (.inf true, fDz)
    else if neg then (.nan, fNv)
    else
      let k := Nat.log2 m
      let whole : Int := e + k
      if m = 2 ^ k then ((⟨whole, 0, false⟩ : Dyadic).real, 0)
      else (.val (whole < 0) (.log2 m e), 0)

/-- a · 2^b for an integer b (R232, R233). -/
def realScale (a : FVal) (b : Int) : Real' × BitVec 5 :=
  match a with
  | .nan s => (.nan, if s then fNv else 0)
  | .inf neg => (.inf neg, 0)
  | .fin neg m e =>
    if m = 0 then (.zero neg, 0)
    else
      -- past both ends of every format a further factor changes nothing
      let b := if b < -5000 then -5000 else if 5000 < b then 5000 else b
      (.val neg (.rat m 1 (e + b)), 0)

/-- The exact result of an integer. -/
def realOfInt (v : Int) : Real' := (⟨v, 0, false⟩ : Dyadic).real

/-- The exact result of a value. -/
def FVal.real : FVal → Real'
  | .nan _ => .nan
  | .inf n => .inf n
  | .fin n m e => (Dyadic.ofParts n m e).real

/-! ### Integers from reals (R223, R240 frint) -/

/-- A magnitude m · 2^e rounded to an integer, with whether it was one. -/
def roundInt (r : Rounding) (neg : Bool) (m : Nat) (e : Int) : Nat × Bool :=
  let v := Mag.rat m 1 e
  let (n, exact) := v.floorAt 0
  let (half, halfExact) := v.floorAt 1
  let (fr, frExact) := v.floorAt 32
  (if !exact && roundsUp r.mode neg n half halfExact (fr - n * 2 ^ 32) frExact r.rbits then n + 1 else n, exact)

/-- Conversion to an integer of w bits (R223). -/
def toInteger (r : Rounding) (w : Nat) (uns : Bool) (x : FVal) : Nat × BitVec 5 :=
  let lo : Int := if uns then 0 else -(2 ^ (w - 1) : Int)
  let hi : Int := if uns then 2 ^ w - 1 else 2 ^ (w - 1) - 1
  let wrap (v : Int) : Nat := (v % 2 ^ w).toNat
  match x with
  | .nan _ => (0, fNv)
  | .inf neg => (wrap (if neg then lo else hi), fNv)
  | .fin neg m e =>
    let (n, exact) := roundInt r neg m e
    let v : Int := if neg then -(n : Int) else n
    if v < lo then (wrap lo, fNv) else if hi < v then (wrap hi, fNv) else (wrap v, if exact then 0 else fNx)

/-- Rounding to an integral value in the same format (R240). -/
def FSpec.integral (f : FSpec) (r : Rounding) (x : FVal) : Nat × BitVec 5 :=
  match x with
  | .nan s => (f.nanCode, if s then fNv else 0)
  | .inf neg => (f.signed neg (f.inf.getD f.top), 0)
  | .fin neg m e =>
    let (n, exact) := roundInt r neg m e
    let y : Real' := if n = 0 then .zero neg else .val neg (.rat n 1 0)
    let (bits, fl) := f.round r y
    (bits, if exact then 0 else fl ||| fNx)

end Sys2Proof.Machine
end

