-- ==== Sys2Proof/Machine/Stacks.lean ====
section
/-! DEFINITION. The stacks of a warp that reach memory: spilled vector frames (spec/05 R145 to R149), the return-address stack
(spec/06 R162) and the join stack (R157, R161). Each operation gives the state and warp after it, or the trap that leaves both. -/
namespace Sys2Proof.Machine

/-- A state with the issuing warp as it now stands. -/
abbrev Held := State × Warp

/-- A control-stack area is exhausted (R149, R161, R162): cause 0x10 subcode 0x01. -/
def exhausted (lanes : LaneMask) (a : Nat) : Except Stop α := raise 0x10 0x01 lanes (BitVec.ofNat 64 a)

/-- The slot a warp stands in. -/
def State.slotOf (s : State) (w : Warp) : Nat := (s.blocks.get? w.block).elim 0 fun b => nth b.slots w.index 0

/-- Reads or writes a control stack; a refusal is the trap, with the address (R149). -/
def State.readStack (s : State) (wid : Nat) (e : Env) (lanes : LaneMask) (a n : Nat) : Except Stop (List Byte) :=
  match s.readOwn wid e a n with
  | .ok bs => .ok bs
  | .error (c, sub) => raise c sub lanes (BitVec.ofNat 64 a)

def State.writeStack (s : State) (wid bid : Nat) (e : Env) (lanes : LaneMask) (a : Nat) (bs : List Byte) : Except Stop State :=
  match s.writeOwn wid bid e a bs with
  | .ok s' => .ok s'
  | .error (c, sub) => raise c sub lanes (BitVec.ofNat 64 a)

/-! ### Spill records (R146 to R148) -/

/-- d_l of R147: lane l's difference from lane 0 as a signed value. -/
def laneDelta (v : List Lane) (l : Nat) : Int := (laneOf v l - laneOf v 0).toInt

/-- Whether every difference fits `b` bits. -/
def deltasFit (v : List Lane) (b : Nat) : Bool := laneIndices.all fun l => fitsSigned b (laneDelta v l)

/-- Two 4-bit fields a byte, the lower lane in the low nibble. -/
def nibbles (v : List Lane) : List Byte :=
  (List.range 16).map fun i => BitVec.ofInt 4 (laneDelta v (2 * i + 1)) ++ BitVec.ofInt 4 (laneDelta v (2 * i))

/-- Format byte and payload of one register: the first format of R147 that holds it. -/
def encodeReg (v : List Lane) : Byte × List Byte :=
  let v0 := laneOf v 0
  let k := laneOf v 1 - v0
  if laneIndices.all fun l => laneOf v l == v0 then (0x01, leBytes 4 v0.toNat)
  else if laneIndices.all fun l => laneOf v l == v0 + BitVec.ofNat 32 l * k then (0x02, leBytes 4 v0.toNat ++ leBytes 4 k.toNat)
  else if deltasFit v 4 then (0x03, leBytes 4 v0.toNat ++ nibbles v)
  else if deltasFit v 8 then (0x04, leBytes 4 v0.toNat ++ laneIndices.flatMap fun l => leInt 1 (laneDelta v l))
  else if deltasFit v 16 then (0x05, leBytes 4 v0.toNat ++ laneIndices.flatMap fun l => leInt 2 (laneDelta v l))
  else (0x00, laneIndices.flatMap fun l => leBytes 4 (laneOf v l).toNat)

/-- Payload bytes of a format byte (R147). -/
def payloadLen : Nat → Nat
  | 0 => 128 | 1 => 4 | 2 => 8 | 3 => 20 | 4 => 36 | 5 => 68 | _ => 0

/-- A register from its payload (R147). -/
def decodeReg (fmt : Nat) (bs : List Byte) : List Lane :=
  let v0 := BitVec.ofNat 32 (fieldAt bs 0 4)
  match fmt with
  | 1 => List.replicate 32 v0
  | 2 => laneIndices.map fun l => v0 + BitVec.ofNat 32 l * BitVec.ofNat 32 (fieldAt bs 4 4)
  | 3 => laneIndices.map fun l =>
      let b : Byte := BitVec.ofNat 8 (fieldAt bs (4 + l / 2) 1)
      v0 + (if l % 2 = 0 then b.extractLsb' 0 4 else b.extractLsb' 4 4).signExtend 32
  | 4 => laneIndices.map fun l => v0 + BitVec.ofInt 32 (intAt bs (4 + l) 1)
  | 5 => laneIndices.map fun l => v0 + BitVec.ofInt 32 (intAt bs (4 + 2 * l) 2)
  | _ => laneIndices.map fun l => BitVec.ofNat 32 (fieldAt bs (4 * l) 4)

/-- The record of a frame: format bytes, payloads, padding, footer (R146). -/
def spillRecord (regs : List (List Lane)) (first : Nat) : List Byte :=
  let enc := regs.map encodeReg
  let body := enc.map (·.1) ++ enc.flatMap (·.2)
  let len := ceilDiv body.length 16 * 16 + 16
  padTo (len - 16) body ++ leBytes 4 len ++ leBytes 2 regs.length ++ leBytes 2 0x5352 ++ leBytes 8 first

/-- The allocation register of a logical register (R144). -/
def Warp.logical (w : Warp) (l : Nat) : List Lane := nth w.v (l % w.n) (List.replicate 32 0)

/-- The frame size the k-th open call recorded, oldest first; the oldest entries stand in the return-stack area (R162). -/
def frameSize (s : State) (e : Env) (lanes : LaneMask) (w : Warp) (k : Nat) : Except Stop Nat :=
  if k < w.rspilled then do
    let a := w.rstk.toNat - 16 * (w.rspilled - k)
    let bs ← s.readStack (s.slotOf w) e lanes a 16
    let f := fieldAt bs 8 1
    if fieldAt bs 14 2 != 0x5241 || !(f == 8 || f == 16 || f == 24 || f == 32) then raise 0x15 0x05 lanes (BitVec.ofNat 64 a)
    return f
  else return ((w.rets.reverse)[k - w.rspilled]?).elim 0 (·.f)

/-- Spills the oldest resident frame (R145, R146, R149). -/
def spillOldest (e : Env) (lanes : LaneMask) (h : Held) : Except Stop Held := do
  let (s, w) := h
  let f ← frameSize s e lanes w w.fspilled
  let bs := spillRecord ((List.range f).map fun i => w.logical (w.sfloor + i)) w.sfloor
  let a := w.spill.toNat
  if w.spilllim.toNat < a + bs.length then exhausted lanes a
  let s ← s.writeStack (s.slotOf w) w.block e lanes a bs
  return (s.wroteOut w.block, { w with spill := w.spill + BitVec.ofNat 64 bs.length, sfloor := w.sfloor + f, fspilled := w.fspilled + 1 })

/-- Spills frames until the span of a window of width `width` fits `n` registers (R145, R174). -/
def spillUntil (e : Env) (lanes : LaneMask) (width n : Nat) : Nat → Held → Except Stop Held
  | 0, h => .ok h
  | fuel + 1, h =>
    if h.2.wbase + width - h.2.sfloor ≤ n then .ok h
    else do spillUntil e lanes width n fuel (← spillOldest e lanes h)

/-- Fills back the newest spilled frame, of f registers (R148, R149). -/
def fillNewest (e : Env) (lanes : LaneMask) (f : Nat) (h : Held) : Except Stop Held := do
  let (s, w) := h
  let top := w.spill.toNat
  let bad : Except Stop Held := raise 0x15 0x03 lanes (BitVec.ofNat 64 top - 16)
  if top < 16 then bad
  else
    let foot ← s.readStack (s.slotOf w) e lanes (top - 16) 16
    let len := fieldAt foot 0 4
    if fieldAt foot 6 2 != 0x5352 || fieldAt foot 4 2 != f || fieldAt foot 8 8 + f != w.sfloor || top < len || len < 16 + f then bad
    else
      let body ← s.readStack (s.slotOf w) e lanes (top - len) (len - 16)
      let fmts := (body.take f).map (·.toNat)
      let pay := fmts.foldl (fun n c => n + payloadLen c) 0
      if fmts.any (5 < ·) || ceilDiv (f + pay) 16 * 16 + 16 != len then bad
      else
        let first := w.sfloor - f
        let regs := fmts.foldl (fun (acc : List (List Lane) × List Byte) c =>
          (acc.1 ++ [decodeReg c acc.2], acc.2.drop (payloadLen c))) ([], body.drop f)
        let v := regs.1.zipIdx.foldl (fun v r => v.set ((first + r.2) % w.n) r.1) w.v
        return (s, { w with v := v, spill := w.spill - BitVec.ofNat 64 len, sfloor := first, fspilled := w.fspilled - 1 })

/-! ### The return-address stack (R162) -/

/-- Pushes an entry; with 16 in hardware the oldest goes to memory. -/
def pushRet (e : Env) (lanes : LaneMask) (r : RetEntry) (h : Held) : Except Stop Held := do
  let (s, w) := h
  if w.rets.length < 16 then return (s, { w with rets := r :: w.rets })
  else
    let a := w.rstk.toNat
    if w.rstklim.toNat < a + 16 then exhausted lanes a
    let old := (w.rets.getLast?).getD r
    let bs := leBytes 8 old.pc.toNat ++ leBytes 1 old.f ++ zeros 1 ++ leBytes 2 old.id ++ zeros 2 ++ leBytes 2 0x5241
    let s ← s.writeStack (s.slotOf w) w.block e lanes a bs
    return (s.wroteOut w.block, { w with rets := r :: w.rets.dropLast, rspilled := w.rspilled + 1, rstk := w.rstk + 16 })

/-- Pops the entry of call entry `id` whose rejoin PC is given, filling it from memory where hardware holds none. -/
def popRet (e : Env) (lanes : LaneMask) (id : Nat) (rejoin : Word) (h : Held) : Except Stop (RetEntry × Held) := do
  let (s, w) := h
  match w.rets with
  | r :: rest => return (r, s, { w with rets := rest })
  | [] =>
    if w.rspilled = 0 then raise 0x01 0x09 lanes
    let a := w.rstk.toNat - 16
    let bs ← s.readStack (s.slotOf w) e lanes a 16
    let r : RetEntry := ⟨BitVec.ofNat 64 (fieldAt bs 0 8), fieldAt bs 8 1, fieldAt bs 10 2⟩
    if fieldAt bs 14 2 != 0x5241 || r.id != id || r.pc != rejoin || !(r.f == 8 || r.f == 16 || r.f == 24 || r.f == 32) then
      raise 0x15 0x05 lanes (BitVec.ofNat 64 a)
    return (r, s, { w with rspilled := w.rspilled - 1, rstk := w.rstk - 16 })

/-! ### The join stack (R157, R161) -/

def JoinKind.code : JoinKind → Nat
  | .root => 0 | .mark => 1 | .call => 2 | .callx => 3

def JoinKind.ofCode : Nat → Option JoinKind
  | 1 => some .mark | 2 => some .call | 3 => some .callx | _ => none

/-- Entries hardware may not spill (R161). -/
def Warp.protectedJoin (w : Warp) (id : Nat) (j : JoinEntry) : Bool :=
  id == 0 || j.group.isSome || j.held.isSome || w.paths.any fun p => p.state != .free && p.entry == id

/-- Spills one entry when hardware holds 32. -/
def makeJoinRoom (e : Env) (lanes : LaneMask) (h : Held) : Except Stop Held := do
  let (s, w) := h
  if w.joins.length < 32 then return h
  else match w.joins.find? fun x => !w.protectedJoin x.1 x.2 with
    | none => return h
    | some (id, j) =>
      let bs := leBytes 8 j.rejoin.toNat ++ leBytes 2 j.parent ++ leBytes 2 j.out ++ leBytes 1 j.kind.code ++ zeros 1
        ++ leBytes 2 0x4A53
      let s ← s.writeStack (s.slotOf w) w.block e lanes (w.jstk.toNat + 16 * id) bs
      return (s.wroteOut w.block, { w with joins := w.joins.del id, jspilled := w.jspilled.put id j.parent })

/-- The lowest free id. -/
def Warp.freeJoin (w : Warp) : Nat :=
  let n := w.joins.length + w.jspilled.length
  ((List.range (n + 1)).find? fun i => (w.joins.get? i).isNone && (w.jspilled.get? i).isNone).getD n

/-- Opens an entry and gives its id. -/
def openJoin (e : Env) (lanes : LaneMask) (j : JoinEntry) (h : Held) : Except Stop (Nat × Held) := do
  let id := h.2.freeJoin
  if h.2.jstklim.toNat < h.2.jstk.toNat + 16 * (id + 1) then exhausted lanes (h.2.jstk.toNat + 16 * id)
  let (s, w) ← makeJoinRoom e lanes h
  let calls := if j.kind == .call || j.kind == .callx then id :: w.calls else w.calls
  return (id, s, { w with joins := w.joins.put id j, calls := calls })

/-- An entry, filled back from memory when it stands there. -/
def getJoin (e : Env) (lanes : LaneMask) (id : Nat) (h : Held) : Except Stop (JoinEntry × Held) := do
  let (s, w) := h
  match w.joins.get? id with
  | some j => return (j, h)
  | none =>
    let a := w.jstk.toNat + 16 * id
    let bs ← s.readStack (s.slotOf w) e lanes a 16
    match JoinKind.ofCode (fieldAt bs 12 1) with
    | none => raise 0x15 0x05 lanes (BitVec.ofNat 64 a)
    | some kind =>
      if fieldAt bs 14 2 != 0x4A53 then raise 0x15 0x05 lanes (BitVec.ofNat 64 a)
      let (s, w) ← makeJoinRoom e lanes (s, w)
      let j : JoinEntry := ⟨kind, BitVec.ofNat 64 (fieldAt bs 0 8), fieldAt bs 8 2, fieldAt bs 10 2, none, none⟩
      return (j, s, { w with joins := w.joins.put id j, jspilled := w.jspilled.del id })

/-- Sets an entry. -/
def Warp.setJoin (w : Warp) (id : Nat) (j : JoinEntry) : Warp := { w with joins := w.joins.put id j }

/-- Frees an entry. Paths that it held by R159 stand outside the issue set from now on. -/
def Warp.freeJoinEntry (w : Warp) (id cycle : Nat) : Warp :=
  let w' := { w with joins := w.joins.del id, jspilled := w.jspilled.del id, calls := w.calls.filter (· != id) }
  if w.calls.head? == some id then
    { w' with paths := w'.paths.map fun p =>
        if w.heldByCall p && !w'.heldByCall p then { p with inSet := false, units := 0, since := cycle } else p }
  else w'

/-! ### Meeting points (R158) -/

/-- How a meeting leaves the warp: still running, or ended (R176). -/
structure Met where
  s     : State
  w     : Warp
  ended : Bool

/-- Pops the return-address stack for a settling call entry: B falls and frames are filled (R171). -/
def popCall (e : Env) (lanes : LaneMask) (id : Nat) (rejoin : Word) (h : Held) : Except Stop Held := do
  let (r, s, w) ← popRet e lanes id rejoin h
  let w := { w with wbase := w.wbase - r.f }
  if w.wbase < w.sfloor then fillNewest e lanes r.f (s, w) else return (s, w)

/-- A waiting group goes on (R158): its path live at a PC under another entry, its window broken, entering its line. -/
def Path.release (p : Path) (pc : Word) (entry cycle : Nat) : Path :=
  { p with state := .live, pc := pc, entry := entry, window := [], line := none, inSet := false, units := 0, since := cycle }

/-- Arrival at an entry's meeting point, up to the count (R158). -/
def Warp.arriveAt (w : Warp) (pidx id : Nat) (j : JoinEntry) : Warp :=
  match j.group with
  | none =>
    (w.setPath pidx { w.path pidx with state := .waitingGroup, inSet := false }).setJoin id { j with group := some pidx, out := j.out - 1 }
  | some g =>
    let m := (w.path pidx).mask
    let w := w.setPath g { w.path g with mask := (w.path g).mask ||| m }
    (w.setPath pidx Path.free).setJoin id { j with out := j.out - 1 }

/-- settle(E) of R158, on fuel that bounds the chain of parents. The PC a merged path goes on at is checked first (R94). -/
def settle (e : Env) (lanes : LaneMask) : Nat → Nat → Held → Except Stop Met
  | 0, _, (s, w) => .ok ⟨s, w, false⟩
  | fuel + 1, id, h => do
    let (j, s, w) ← getJoin e lanes id h
    match j.kind, j.held, j.out, j.group with
    | .callx, some r, 1, _ =>
      let w := w.setPath r { w.path r with state := .live, line := none, inSet := false, units := 0, since := s.cycle }
      return ⟨s, w.setJoin id { j with held := none }, false⟩
    | kind, _, 0, some g =>
      let (s, w) ← if kind = .call then popCall e lanes id j.rejoin (s, w) else .ok (s, w)
      let pc := if kind = .mark then pcNext j.rejoin else j.rejoin
      ofPc lanes (checkPc pc)
      let w := (w.setPath g ((w.path g).release pc j.parent s.cycle)).freeJoinEntry id s.cycle
      let (pj, s, w) ← getJoin e lanes j.parent (s, w)
      if pj.kind = .callx ∧ pc = pj.rejoin then
        settle e lanes fuel j.parent (s, w.arriveAt g j.parent pj)
      else return ⟨s, w, false⟩
    | kind, _, 0, none =>
      if kind = .root then return ⟨s, w, true⟩
      let (s, w) ← if kind = .call then popCall e lanes id j.rejoin (s, w) else .ok (s, w)
      let (pj, s, w) ← getJoin e lanes j.parent (s, w.freeJoinEntry id s.cycle)
      settle e lanes fuel j.parent (s, w.setJoin j.parent { pj with out := pj.out - 1 })
    | _, _, _, _ => return ⟨s, w, false⟩

/-- Fuel for a settle: more than the chain of parents is long. -/
def Warp.joinFuel (w : Warp) : Nat := w.joins.length + w.jspilled.length + 2

/-- arrive(P, E) of R158. -/
def arrive (e : Env) (lanes : LaneMask) (pidx id : Nat) (h : Held) : Except Stop Met := do
  let (j, s, w) ← getJoin e lanes id h
  settle e lanes w.joinFuel id (s, w.arriveAt pidx id j)

/-- leave(P) of R158. -/
def leave (e : Env) (lanes : LaneMask) (pidx : Nat) (h : Held) : Except Stop Met := do
  let id := (h.2.path pidx).entry
  let (j, s, w) ← getJoin e lanes id (h.1, h.2.setPath pidx Path.free)
  settle e lanes w.joinFuel id (s, w.setJoin id { j with out := j.out - 1 })

end Sys2Proof.Machine
end

