-- ==== Sys2Proof/Machine/Barrier.lean ====
section
/-! DEFINITION. The numbered barriers of a block (spec/18 R383, R385, R386, R388) and the delivery of stream faults at them (spec/10
R270). -/
namespace Sys2Proof.Machine

/-- The key of the matrix stream's records. -/
def streamAgent : Nat := 1000

/-- An agent's record. -/
def Barrier.record (b : Barrier) (who : Nat) : BarRec := b.recs.getD who BarRec.fresh

def Barrier.setRecord (b : Barrier) (who : Nat) (r : BarRec) : Barrier := { b with recs := b.recs.put who r }

/-- Barrier k of a block. -/
def Block.barrier (b : Block) (k : Nat) : Barrier := nth b.bars k Barrier.fresh

def State.setBarrier (s : State) (bid k : Nat) (x : Barrier) : State := s.setBlock bid fun b => { b with bars := b.bars.set k x }

/-- Whether a path is parked in a wait on barrier k. -/
def Path.waitsOn (p : Path) (k : Nat) : Bool := p.waits == some k && (match p.state with | .parked _ => true | _ => false)

/-- The warps of a block that have not ended. -/
def State.liveWarps (s : State) (bid : Nat) : List (Nat × Warp) := s.warps.filter fun x => x.2.block == bid

/-- The agents of a block parked in a wait on barrier k. -/
def State.waitersOn (s : State) (bid k : Nat) : List Nat :=
  ((s.liveWarps bid).filter fun x => x.2.paths.any (·.waitsOn k)).map (·.2.index)
    ++ (match (s.blocks.get? bid).bind (·.mx.stream) with
        | some m => if m.waits == some k then [streamAgent] else []
        | none => [])

/-- The end of a phase: pending records are done, waiters whose record is none are done, the next phase begins (R385). -/
def Barrier.ended (b : Barrier) (waiters : List Nat) : Barrier :=
  let recs := b.recs.map fun x => (x.1, if x.2.state == .pending then { x.2 with state := .done } else x.2)
  let b := { b with recs := recs, n := 0, ph := b.ph + 1 }
  waiters.foldl (fun b w => if (b.record w).state == .none then b.setRecord w { b.record w with state := .done } else b) b

/-- A waiter goes on. -/
def Path.leavesBarrier (p : Path) (k cycle : Nat) : Path :=
  if p.waitsOn k then { p with state := .live, waits := none, since := cycle } else p

/-- complete(b): the phase ends and its waiters wake (R385). -/
def State.completeBarrier (s : State) (bid k : Nat) (b : Barrier) : State :=
  let s := s.setBarrier bid k (b.ended (s.waitersOn bid k))
  let wake (w : Warp) : Warp := if w.block = bid then { w with paths := w.paths.map (·.leavesBarrier k s.cycle) } else w
  let s : State := { s with warps := s.warps.map fun x => (x.1, wake x.2) }
  let go (m : MStream) : MStream := if m.waits = some k then { m with waits := none } else m
  s.setBlock bid fun b => { b with mx := { b.mx with stream := b.mx.stream.map go } }

/-- An arrival that has passed its checks (R385); `count` is none for the stream. -/
def State.arriveAt (s : State) (bid who k : Nat) (count : Option Nat) : State :=
  match s.blocks.get? bid with
  | none => s
  | some blk =>
    let b := blk.barrier k
    let b := { b with e := count.getD b.e, n := b.n + 1 }
    let b := b.setRecord who ⟨.pending, some b.ph.toNat⟩
    if b.e ≠ 0 ∧ b.n = b.e then s.completeBarrier bid k b else s.setBarrier bid k b

/-- Whether a count is one an arrival may state (R385). -/
def Barrier.admits (b : Barrier) (c : Nat) : Bool :=
  1 ≤ c && c ≤ 1024 && !(0 < b.n && b.e != 0 && b.e != c) && b.n ≤ c

/-- Whether a warp holds another path-table entry that carries lanes (R388 subcode 0x01). -/
def Warp.divided (w : Warp) (pidx : Nat) : Bool :=
  (List.range 16).any fun i => i != pidx && (w.path i).state != .free && (w.path i).mask != 0

/-- The barriers at which the end of a warp would leave a partner waiting (R388 subcode 0x00). -/
def State.deserted (s : State) (bid wid : Nat) (w : Warp) : Option Nat :=
  match s.blocks.get? bid with
  | none => none
  | some blk =>
    let others := { s with warps := s.warps.del wid }
    (List.range 16).find? fun k =>
      let b := blk.barrier k
      !(others.waitersOn bid k).isEmpty && (match (b.record w.index).last with | some p => p != b.ph.toNat | none => false)

/-! ### Stream faults (R270) -/

/-- The warp a stream fault goes to: the forking warp, or the lowest-indexed one left. -/
def State.faultWarp (s : State) (bid : Nat) (mx : Mx) : Option (Nat × Warp) :=
  let ws := s.liveWarps bid
  match ws.find? fun x => x.2.index == mx.forker with
  | some x => some x
  | none => ws.foldl (fun b x => match b with | some y => if x.2.index < y.2.index then some x else b | none => some x) none

/-- The stream fault due to a warp that waits on barrier k. -/
def State.streamFaultDue (s : State) (bid wid : Nat) (blk : Block) (k : Nat) : Option StreamStop :=
  match blk.mx.stopped, blk.mx.stream, s.faultWarp bid blk.mx with
  | some f, some m, some (id, w) =>
    if !f.delivered && m.named.contains k && id == wid && !w.inHandler && !w.halted then some f else none
  | _, _, _ => none

/-- A replay divergence of a copy's line, due to the producer warp at its next wait (R528 LAND). -/
def State.copyFaultDue (s : State) (wid : Nat) (blk : Block) : Option StreamStop :=
  match blk.copyFault, s.warps.get? wid, s.launches.get? blk.launch with
  | some i, some w, some la =>
    if la.prodValid && la.prodWarp == w.index && !w.inHandler && !w.halted then some ⟨0x60, 0, BitVec.ofNat 64 i, false⟩ else none
  | _, _, _ => none

/-- The fault due to a warp that waits on barrier k, if there is one. -/
def State.faultDue (s : State) (bid wid k : Nat) : Option StreamStop :=
  match s.blocks.get? bid with
  | none => none
  | some blk => (s.streamFaultDue bid wid blk k).or (s.copyFaultDue wid blk)

/-- The fault a wait on barrier k owes has been delivered. -/
def State.faultTaken (s : State) (bid wid k : Nat) : State :=
  match s.blocks.get? bid with
  | none => s
  | some blk =>
    if (s.streamFaultDue bid wid blk k).isSome then
      s.setBlock bid fun b => { b with mx := { b.mx with stopped := b.mx.stopped.map fun f => { f with delivered := true } } }
    else s.setBlock bid fun b => { b with copyFault := none }

end Sys2Proof.Machine
end

