-- ==== Sys2Proof/Machine/Pool.lean ====
section
/-! DEFINITION. What a quarter's register pool has free (spec/02 R74, R76, R84, spec/05 R150 to R153). -/
namespace Sys2Proof.Machine

/-- The core whose quarter Q0 holds the system queue's resources (R84). -/
def State.systemCore (s : State) (core : Nat) : Bool := s.parts.any fun p => p.2.cores.head? == some core

/-- Warps of a block that quarter `q` of its core takes, with rotation `rot` (R76). -/
def warpsOnQuarter (warps rot q : Nat) : Nat := ((List.range warps).filter fun j => (j + rot) % 4 == q).length

/-- Blocks placed on a core since its context started (R76). -/
def State.rotOf (s : State) (core : Nat) : Nat := s.rot.getD core 0

/-- Reserved places of waiting clusters on a core, each with its launch. -/
def State.reservedOn (s : State) (core : Nat) : List (Spot × Launch) :=
  s.launches.flatMap fun l => match l.2.wait with
    | some cw => (cw.reserved.filter (·.core == core)).map fun r => (r, l.2)
    | none => []

/-- Granules of a quarter that waiting clusters hold (R74 c). -/
def State.reservedGranules (s : State) (q : Nat) : Nat :=
  ((s.reservedOn (q / 4)).map fun r => warpsOnQuarter r.2.blockWarps r.1.rot (q % 4) * granules r.2.regs).sum

/-- Translator blocks that run outside the resources held for the system queue: warp slot and first line (R84). -/
def State.sysBlocks (s : State) : List (Nat × Nat) :=
  s.parts.flatMap fun p => p.2.sysQueue.filterMap fun j => match j.place with
    | some (.slot wid base) => some (wid, base)
    | _ => none

/-- Granules the resident warps of a quarter hold (R150, R152), 8 of them for each translator block there. -/
def State.usedGranules (s : State) (q : Nat) : Nat :=
  (s.warps.map fun x => if quarterOf x.1 == q && x.2.evicted.isNone then granules x.2.n else 0).sum
    + 8 * (s.sysBlocks.filter fun x => quarterOf x.1 == q).length

/-- Granules of a quarter that are free: of 128, less the 8 the system queue holds on its quarter (R84). -/
def State.freeGranules (s : State) (q : Nat) : Nat :=
  128 - s.usedGranules q - s.reservedGranules q - (if q % 4 == 0 && s.systemCore (q / 4) then 8 else 0)

/-- The paths of a quarter that wait on `grow`: warp, path and park cycle (R150). -/
def State.growers (s : State) (q : Nat) : List (Nat × Nat × Nat) :=
  (s.warps.filter fun x => quarterOf x.1 == q).flatMap fun x =>
    x.2.paths.zipIdx.filterMap fun p =>
      if p.1.state == .parked .grow && !x.2.stopped p.2 then some (x.1, p.2, p.1.since) else none

/-- Whether a new `grow` is served at once: its increase fits, no evicted warp waits for granules, and no request has waited 4,096
cycles (R150). -/
def State.growServed (s : State) (q extra : Nat) : Bool :=
  extra ≤ s.freeGranules q && !(s.warps.any fun x => quarterOf x.1 == q && x.2.evicted.isSome)
    && (s.growers q).all fun g => s.cycle < g.2.2 + 4096

/-- Whether a block's warps issue: its context runs, or the block drains in a stop (R463, R465, R479, R483). -/
def State.mayIssue (s : State) (bid : Nat) : Bool :=
  match s.parts.get? (s.partOf bid) with
  | some pt =>
    if pt.ctx.state = 1 then !pt.ck.due && !pt.ck.closing
    else pt.ctx.state == 2 && (pt.ctx.work.bind fun w => w.plan.get? bid) == some .drain
  | none => false

/-! ### Changing an allocation (R174) -/

/-- Every resident logical register moved to the place a new count gives it; a register that becomes addressable reads zero. -/
def Warp.relocate (w : Warp) (n : Nat) : Warp :=
  let top := w.wbase + min w.width (min 32 n)
  let v := (List.range (top - w.sfloor)).foldl (fun v i => v.set ((w.sfloor + i) % n) (w.logical (w.sfloor + i)))
    (List.replicate n (List.replicate 32 0))
  { w with v := v, n := n }

end Sys2Proof.Machine
end

