-- ==== Sys2Proof/Machine/Engine.lean ====
section
/-! DEFINITION. The matrix engine's arithmetic (spec/10 R255 to R260, R265, R266): operands, exact interval sums and their checksums,
promotion, and the checked drain of a tile. -/
namespace Sys2Proof.Machine

/-- Indices of a tile's rows or columns. -/
def tileIndices : List Nat := List.range 64

/-! ### Operands (R215, R216, R257) -/

/-- Why the engine cannot read. -/
inductive ReadStop where
  | wait
  /-- Poison, in these sectors. -/
  | poison (sectors : List Nat)
  | refused
deriving DecidableEq, Repr

/-- Reads bytes as the engine does (R258): a clear presence bit waits, and so does another group's open interval (R486); poison stops it. -/
def State.engineRead (s : State) (e : Env) (a len : Nat) : Except ReadStop (List Byte) :=
  match s.placeAll e a len with
  | .error _ => .error .refused
  | .ok ps =>
    let ps := ps.map (·.piece)
    if (ps.any fun p => s.lineAbsent p || s.lineOwned p) || s.heldFrom (some e.part) ps then .error .wait
    else if ps.any s.poisoned then .error (.poison ((ps.filter s.poisoned).map (·.key / 32)))
    else .ok (s.readPieces ps)

/-- The engine has read bytes: what the group's other contexts logged there leaves dependences (R485). -/
def State.engineNoted (s : State) (e : Env) (a len : Nat) : State :=
  match s.placeAll e a len with
  | .ok ps => s.noteReads e.part (ps.map (·.piece))
  | .error _ => s

/-- The words of one k-step of an operand: per plane, one word for each of its 64 rows. -/
def State.readStep (s : State) (e : Env) (o : Operand) (k : Nat) : Except ReadStop (List (List Nat)) :=
  (List.range o.p).mapM fun q => do
    let bs ← s.engineRead e (o.dbase + 4 * ((k * o.p + q) * o.m + o.row0)) 256
    return tileIndices.map fun r => leNat ((bs.drop (4 * r)).take 4)

/-- Element j of row r of a k-step: p bits in two's complement, the top plane negative (R215, R255). -/
def stepElement (words : List (List Nat)) (r j : Nat) : Int :=
  let p := words.length
  (words.zipIdx.map fun x =>
    let b : Int := if (nth x.1 r 0).testBit j then 2 ^ x.2 else 0
    if x.2 + 1 = p then -b else b).sum

/-- The 32 elements of each row of a k-step. -/
def stepRows (words : List (List Nat)) : List (List Int) :=
  tileIndices.map fun r => (List.range 32).map fun j => stepElement words r j

/-- The scale bytes of the 64 rows in a segment (R216). -/
def State.readScales (s : State) (e : Env) (o : Operand) (segment : Nat) : Except ReadStop (List Nat) := do
  let bs ← s.engineRead e (o.sbase + segment * o.m + o.row0) 64
  return bs.map (·.toNat)

/-! ### Sums of an interval (R259, R265) -/

/-- The inner product of two rows. -/
def inner (x y : List Int) : Int := (List.zipWith (· * ·) x y).sum

/-- The sum of rows, element by element. -/
def rowSum (rows : List (List Int)) : List Int :=
  rows.foldl (fun a r => List.zipWith (· + ·) a r) (List.replicate 32 0)

/-- A sum as the array's cell of 64 bits holds it. -/
def wrap64 (x : Int) : Int := (BitVec.ofInt 64 x).toInt

/-- One more k-step of A and B summed into the cells and checksum cells. -/
def MWork.addStep (w : MWork) (a b : List (List Int)) : MWork :=
  let sb := rowSum b
  let sa := rowSum a
  { w with
    k := w.k + 1
    sums := List.zipWith (· + ·) w.sums (a.flatMap fun x => b.map fun y => inner x y)
    col := List.zipWith (· + ·) w.col (a.map fun x => inner x sb)
    row := List.zipWith (· + ·) w.row (b.map fun y => inner sa y)
    corner := w.corner + inner sa sb }

/-- An error of the array in one cell (an input of the model). -/
def MWork.upset (w : MWork) (u : Upset) : MWork :=
  if u.row < 64 then
    if u.col < 64 then { w with sums := w.sums.modify (64 * u.row + u.col) fun x => wrap64 (x + u.d) }
    else { w with col := w.col.modify u.row (· + u.d) }
  else if u.col < 64 then { w with row := w.row.modify u.col (· + u.d) }
  else { w with corner := w.corner + u.d }

/-- No k-step of the interval summed yet. -/
def MWork.cleared (w : MWork) : MWork :=
  { w with k := 0, sums := List.replicate 4096 0, col := List.replicate 64 0, row := List.replicate 64 0, corner := 0 }

/-- Row i of the sums. -/
def sumRow (w : MWork) (i : Nat) : List Int := (w.sums.drop (64 * i)).take 64

/-- The outcome of an interval's check (R265). -/
inductive Checked where
  | pass
  | single (row col : Nat) (d : Int)
  | multiple
deriving DecidableEq, Repr

/-- The check at an interval's end, tolerance zero. -/
def MWork.check (w : MWork) : Checked :=
  let rows := tileIndices.map fun i => (i, (sumRow w i).sum - nth w.col i 0)
  let cols := tileIndices.map fun j => (j, (tileIndices.map fun i => nth w.sums (64 * i + j) 0).sum - nth w.row j 0)
  let t := w.sums.sum - w.corner
  match rows.filter (·.2 != 0), cols.filter (·.2 != 0) with
  | [], [] => if t = 0 then .pass else .multiple
  | [(i, d)], [(j, e)] => if d = e ∧ t = d then .single i j d else .multiple
  | _, _ => .multiple

/-- The correction of a single error (R265). -/
def MWork.correct (w : MWork) (row col : Nat) (d : Int) : MWork :=
  { w with sums := w.sums.modify (64 * row + col) fun x => wrap64 (x - d) }

/-! ### Promotion (R259, R260, R266) -/

/-- The four sticky flags of a rounding: nv, of, uf, nx (R260). -/
def engineFlags (f : BitVec 5) : BitVec 4 := f.extractLsb' 4 1 ++ f.extractLsb' 0 3

/-- S · 2^(xA − 127 + xB − 127) rounded to f32; a scale of 0xFF gives NaN and sets no flag. -/
def scaledSum (n : Int) (xa xb : Nat) : Nat × BitVec 5 :=
  if xa = 255 ∨ xb = 255 then ((fspec .f32).nanCode, 0)
  else (fspec .f32).round rneOf (⟨n, (xa : Int) + xb - 254, false⟩ : Dyadic).real

/-- One f32 added to another, each rounded to nearest and never flushed. -/
def addF32 (a b : Nat) : Nat × BitVec 5 :=
  let x := realAdd .rne ((fspec .f32).decode a) ((fspec .f32).decode b)
  let r := (fspec .f32).round rneOf x.1
  (r.1, r.2 ||| x.2)

/-- A tile's cells and its checksum column after the promotion of an interval, with the flags it sets. -/
def promote (w : MWork) (xa xb : List Nat) (tile col : List Lane) : List Lane × List Lane × BitVec 4 :=
  let cells := tileIndices.flatMap fun i => tileIndices.map fun j =>
    let v := scaledSum (nth w.sums (64 * i + j) 0) (nth xa i 0) (nth xb j 0)
    let r := addF32 (nth tile (64 * i + j) 0).toNat v.1
    (BitVec.ofNat 32 r.1, engineFlags (v.2 ||| r.2))
  let sums := tileIndices.map fun i =>
    let n := (tileIndices.map fun j => nth w.sums (64 * i + j) 0 * 2 ^ (nth xb j 0)).sum
    let v := if xb.contains 255 then (fspec .f32).nanCode else (scaledSum n (nth xa i 0) 0).1
    BitVec.ofNat 32 (addF32 (nth col i 0).toNat v).1
  (cells.map (·.1), sums, cells.foldl (fun f x => f ||| x.2) 0)

/-! ### The drain check (R266, R278) -/

/-- A cell in an output format. -/
def drainValue (f : Fmt) (x : Lane) : Nat :=
  if f = .f32 then x.toNat
  else ((fspec f).round rneOf ((fspec .f32).decode x.toNat).real).1

/-- A finite value times 2^149, an integer in every output format. -/
def gridValue : FVal → Int
  | .fin neg m e => let n := (m : Int) * 2 ^ (e + 149).toNat; if neg then -n else n
  | _ => 0

def FVal.isFinite : FVal → Bool
  | .fin _ _ _ => true
  | _ => false

/-- Whether row i of a tile fails, with tolerance t in f32 bits. -/
def rowFails (f : Fmt) (t : Nat) (cells : List Lane) (c : Lane) : Bool :=
  let outs := cells.map fun x => (fspec f).decode (drainValue f x)
  let cOut := (fspec f).decode (drainValue f c)
  let finite (x : Lane) : Bool := FVal.isFinite ((fspec .f32).decode x.toNat)
  if !cells.all finite || !outs.all FVal.isFinite || !finite c || !cOut.isFinite then false
  else
    let vs := outs.map gridValue
    let cv := gridValue cOut
    let lhs := (vs.sum - cv).natAbs * 2 ^ 149
    let rhs := (gridValue ((fspec .f32).decode t)).natAbs * ((vs.map (·.natAbs)).sum + cv.natAbs)
    rhs < lhs

/-- The index of a format's tolerance register (R267). -/
def tolIndex : Fmt → Nat
  | .f32 => 0 | .bf16 => 1 | .f16 => 2 | .e4m3 => 3 | _ => 4

/-- A tile's cells, and its checksum column. Cells start at +0 (R142); the spec gives the columns no value at block start, and they start at
+0 with them (DESIGN CHOICE, log entry 178). -/
def Mx.tile (m : Mx) (t : Nat) : List Lane := m.tiles.getD t (List.replicate 4096 0)
def Mx.column (m : Mx) (t : Nat) : List Lane := m.sums.getD t (List.replicate 64 0)

/-- The rows of a tile that fail in a format (R266). -/
def Mx.failingRows (m : Mx) (t : Nat) (f : Fmt) : List Nat :=
  let tol := (nth m.tols (tolIndex f) 0).toNat
  let cells := m.tile t
  tileIndices.filter fun i => rowFails f tol ((cells.drop (64 * i)).take 64) (nth (m.column t) i 0)

/-- A tile with its column all +0. -/
def Mx.zeroTile (m : Mx) (t : Nat) : Mx := { m with tiles := m.tiles.del t, sums := m.sums.del t }

/-- The bytes of row i of a tile in a format (R275, R278). -/
def Mx.rowBytes (m : Mx) (t i : Nat) (f : Fmt) : List Byte :=
  (((m.tile t).drop (64 * i)).take 64).flatMap fun x => leBytes (elemBytes f) (drainValue f x)
where
  elemBytes : Fmt → Nat
    | .f32 => 4 | .bf16 | .f16 => 2 | _ => 1

end Sys2Proof.Machine
end

