-- ==== Sys2Proof/Machine/StreamOps.lean ====
section
/-! DEFINITION. The sequencer of a block's matrix stream (spec/10 R261 to R270, spec/11 R272): its place, how it goes on, how it stops
and how it ends. -/
namespace Sys2Proof.Machine

/-- What a stream instruction sees: the block, its launch, its stream, and the prefix of its unit. -/
structure SCtx where
  bid : Nat
  pre : Option (Nat × BitVec 32)
  blk : Block
  m   : MStream
  lid : Nat
  la  : Launch
  env : Env
deriving DecidableEq, Repr

/-- Where the sequencer stands: at its own place, or at that of a drain retry's walk (R268). -/
def MStream.place (m : MStream) : Word := match m.drain with | some w => w.pc | none => m.pc

/-- Whether a walk has come to the failing `mstore` (R268). -/
def MStream.arrived (m : MStream) : Bool :=
  match m.drain with
  | some w => w.pc == m.pc && w.loops == m.loops && w.ends == 0
  | none => false

/-- The `mma` under way, of the stream or of its walk. -/
def MStream.doing (m : MStream) : Option MWork := match m.drain with | some w => w.work | none => m.work

/-- Replaces it. -/
def MStream.setDoing (m : MStream) (x : Option MWork) : MStream :=
  match m.drain with
  | some w => { m with drain := some { w with work := x } }
  | none => { m with work := x }

def State.setMx (s : State) (bid : Nat) (f : Mx → Mx) : State := s.setBlock bid fun b => { b with mx := f b.mx }

def State.setStream (s : State) (bid : Nat) (f : MStream → MStream) : State :=
  s.setMx bid fun x => { x with stream := x.stream.map f }

/-- A core's engine. -/
def State.engineOf (s : State) (core : Nat) : Engine := s.engines.getD core Engine.reset

def State.setEngine (s : State) (core : Nat) (f : Engine → Engine) : State :=
  { s with engines := s.engines.put core (f (s.engineOf core)) }

/-- The context of a stream, when its block and launch stand. -/
def State.streamOf (s : State) (bid : Nat) (pre : Option (Nat × BitVec 32)) : Option SCtx :=
  match s.blocks.get? bid with
  | none => none
  | some b =>
    match b.mx.stream, s.launches.get? b.launch with
    | some m, some la => some ⟨bid, pre, b, m, b.launch, la, ⟨partOfLaunch b.launch, b.home⟩⟩
    | _, _ => none

/-- The context of a stream that may issue: it waits for nothing, multiplies nothing and is not stopped. -/
def State.stream? (s : State) (bid : Nat) (pre : Option (Nat × BitVec 32)) : Option SCtx :=
  (s.streamOf bid pre).filter fun c => c.blk.mx.stopped.isNone && c.m.waits.isNone && c.m.doing.isNone && !c.m.arrived

/-- Slots of the unit, the PC after it, and the slot a branch counts from (R95, R109). -/
def SCtx.nextPc (c : SCtx) : Word := pcAdvance c.m.place (if c.pre.isSome then 2 else 1)
def SCtx.branchPc (c : SCtx) : Word := if c.pre.isSome then pcNext c.m.place else c.m.place

/-- The sequencer at another PC; a transfer, or another line, enters its line again (R89). -/
def MStream.goto (m : MStream) (pc : Word) (transfer : Bool) : MStream :=
  let keep := if transfer || pcLine pc != pcLine m.place then none else m.line
  match m.drain with
  | some w => { m with drain := some { w with pc := pc }, line := keep, entering := false }
  | none => { m with pc := pc, line := keep, entering := false }

/-- The stream goes on at the next slot. -/
def State.streamOn (s : State) (c : SCtx) : State :=
  ({ s with focus := none }).setStream c.bid fun m => m.goto c.nextPc false

/-- The array is given up by a block that holds it. -/
def State.freeArray (s : State) (bid core : Nat) : State :=
  if (s.engineOf core).holder = some bid then s.setEngine core fun e => { e with holder := none } else s

/-- The fault record of a stop whose kind is 0. -/
def MFault.none : MFault := ⟨0, 0, 0, 0, 0, 0, 0⟩

/-- The stream stops (R268, R270, R272): it stands where it is, the fault awaits delivery. Where the context asks for it, the event, with
the poisoned sectors it consumed, is a rollback that is due (R484). -/
def State.stopStream (s : State) (bid cause sub : Nat) (data : Word) (f : MFault) (sectors : List Nat := []) : State :=
  match s.blocks.get? bid with
  | none => s
  | some b =>
    let s := { s with focus := none }.freeArray bid b.core
    match s.rollsBack (partOfLaunch b.launch) (s.classOf bid) cause sub sectors with
    | some t => t
    | none => s.setMx bid fun x => { x with stopped := some ⟨cause, sub, data, false⟩, fault := f }

/-- Stops at a cause whose data is the stream PC (R452). -/
def State.stopHere (s : State) (c : SCtx) (cause sub : Nat) (sectors : List Nat := []) : State :=
  s.stopStream c.bid cause sub c.m.place MFault.none sectors

/-- Stops at a refused fetch or transfer: it is delivered under R270, whose cause data is the stream PC (R272 e). -/
def State.stopPc (s : State) (c : SCtx) (f : PcFault) : State :=
  s.stopHere c f.1 f.2.1 (if f.1 = 0x51 then s.poisonNear c.env f.2.2.toNat else [])

/-- The stream meets a word that is a warp's (R123). -/
def State.streamRefuses (s : State) (bid : Nat) : State :=
  match s.streamOf bid none with
  | some c => s.stopHere c 0x01 0x04
  | none => { s with focus := none }

/-- `nop` on the stream (R165, R272 a). -/
def State.streamNext (s : State) (bid : Nat) (pre : Option (Nat × BitVec 32)) (g : Guard) : State :=
  match s.stream? bid pre with
  | some c => if g = Guard.always then s.streamOn c else s.stopHere c 0x01 0x00
  | none => { s with focus := none }

/-- `ximm` on the stream (R106 to R109). -/
def State.streamPrefix (s : State) (bid sel : Nat) (payload : BitVec 32) : State :=
  match s.stream? bid none with
  | some c =>
    let w := match c.m.line with | some l => l.word (pcSlot c.m.place + 1) | none => 0
    if pcSlot c.m.place = 4 then s.stopHere c 0x01 0x03
    else match decodeGoverned sel payload w with
      | .misuse => s.stopHere c 0x01 0x03
      | _ => { s with focus := some (.stream bid (some (sel, payload))) }
  | none => { s with focus := none }

/-- Whether a path is parked at its `fork` (R282); the words of one whose line has been discarded are not known. -/
def Path.atFork (p : Path) : Bool := p.state == .parked .stream && (p.line.isNone || wordOp (unitOf p none).word == 0xA7)

/-- Whether the parked `fork` chosen to start the stream still stands. -/
def State.forkGranted (s : State) (bid : Nat) (g : Nat × Nat × Word) : Bool :=
  (s.liveWarps bid).any fun x => x.2.index == g.1 && (x.2.path g.2.1).pc == g.2.2 &&
    (match (x.2.path g.2.1).state with | .live | .parked .fence | .parked .stream => true | _ => false)

/-- The parked `fork` of the lowest warp goes on, and starts the stream before any other (R282). -/
def State.grantFork (s : State) (bid : Nat) (b : Block) : State :=
  let parked := (s.liveWarps bid).flatMap fun x => (List.range 16).filterMap fun i => if (x.2.path i).atFork then some (x.1, x.2, i) else none
  if b.mx.stream.isSome || b.mx.granted.any (s.forkGranted bid) then s else
  match parked.foldl (fun (b : Option (Nat × Warp × Nat)) x => match b with
      | some y => if x.2.1.index < y.2.1.index then some x else b
      | none => some x) none with
  | none => s
  | some (wid, w, i) =>
    (s.setPath wid i (·.woken .stream s.cycle)).setMx bid fun x => { x with granted := some (w.index, i, (w.path i).pc) }

/-- Free streams go to parked forks. -/
def State.grantForks (s : State) : State := s.blocks.foldl (fun s b => s.grantFork b.1 b.2) s

/-- A tile of a block may have become idle: `mchk` that waits for one looks again (R286). -/
def State.wakeTiles (s : State) (bid : Nat) : State :=
  (s.liveWarps bid).foldl (fun s x => (List.range 16).foldl (fun s i =>
    if (x.2.path i).state == .parked .stream && !(x.2.path i).atFork then s.setPath x.1 i (·.woken .stream s.cycle) else s) s) s

/-- The stream ends (R281, R288): counters go with it, tiles and registers stay. -/
def State.endStream (s : State) (bid : Nat) : State :=
  match s.blocks.get? bid with
  | none => s
  | some b => ((({ s with focus := none }).freeArray bid b.core).setMx bid fun x => { x with stream := none, stopped := none }).wakeTiles bid

/-! ### Fetch (R261, R272 e) -/

/-- The stream's line is there, or it is fetched and checked (R90, R91). -/
def State.streamFetch (s : State) (c : SCtx) : State × Except PcFault SCtx :=
  match c.m.line with
  | some _ => (s, .ok c)
  | none => match checkPc c.m.place with
    | .error f => (s, .error f)
    | .ok _ => match s.fetchLine c.env c.blk.core (.stream c.bid) (pcLineAddr c.m.place) with
      | (t, .error f) => (t, .error f)
      | (t, .ok l) =>
        if c.m.entering && !l.target (pcSlot c.m.place) then (t, .error (0x03, 0, c.m.place))
        else
          let m := { c.m with line := some l }
          (t.setStream c.bid fun _ => m, .ok { c with m := m })

end Sys2Proof.Machine
end

