-- ==== Sys2Proof/Machine/Control.lean ====
section
/-! DEFINITION. Control instructions (spec/06, page 0x00 to 0x0E) and ximm (spec/03 R106 to R109). -/
namespace Sys2Proof.Machine

/-- Runs a warp instruction: the stream side is a stop of the stream (R272), which the matrix layer gives. -/
def State.run (s : State) (body : Ctx → Except Stop State) : Answer := s.issue State.streamRefuses body

/-- `nop` (R165): a place of class none; its predicate is not read. -/
def execNop (g : Guard) (s : State) : Answer :=
  match s.focus with
  | some (.stream b pre) => .next (s.streamNext b pre g)
  | _ => s.run fun c => .ok (s.skip c)

/-- The lowest free path-table entry. -/
def Warp.freePath (w : Warp) : Option Nat := (List.range 16).find? fun i => (w.path i).state == .free

/-- What a path of warp `w` does that needs an entry and finds none (R160). -/
def noEntry (w : Warp) (c : Ctx) (lanes : LaneMask) : Except Stop α :=
  let stuck := (List.range 16).all fun i => i == c.pidx ||
    (match (w.path i).state with | .waitingGroup | .heldRemainder => true | _ => false)
  if stuck then raise 0x71 0x04 lanes else .error (.park .pathTable)

/-- Splits the issuing path: lanes of `t` go to `target` in a new entry, the rest stay at the next slot (R156, R101). -/
def splitPath (s : State) (c : Ctx) (t : LaneMask) (target : Word) : Except Stop State :=
  match c.w.freePath with
  | none => noEntry c.w c (t &&& c.w.present)
  | some i => do
    let (j, s, w) ← getJoin c.env t c.p.entry (s, c.w)
    let p := c.p.took .none
    let child := { (p.goto target true) with
      mask := t, last := none, readyAt := none, pairAt := none, inSet := false, units := 0, since := s.cycle, entering := false }
    let w := (w.setPath i child).setPath c.pidx ({ p with mask := p.mask &&& ~~~t }.goto c.nextPc false)
    return s.finish c (w.setJoin c.p.entry { j with out := j.out + 1 })

/-- `br` (R166). -/
def execBr (g : Guard) (o : Int) (s : State) : Answer := s.run fun c => do
  let t := c.act g
  if t = 0 then return s.skip c
  let target ← ofPc (t &&& c.w.present) (branchTarget c.branchPc o)
  ofPc (t &&& c.w.present) (s.checkTarget c.env target)
  if c.p.mask &&& ~~~t = 0 then return s.completeAt c c.w target
  splitPath s c t target

/-- Flag e of an address register; zero without a stream (R167). -/
def AReg.flag (a : AReg) (k : Nat) : Bool := match a.stream with | some t => t.e.getLsbD k | none => false

/-- `bre` (R167). -/
def execBre (sense : Bool) (flag a : Nat) (o : Int) (s : State) : Answer := s.run fun c => do
  if (c.w.areg a).flag flag = sense then return s.skip c
  let target ← ofPc c.p.mask (branchTarget c.branchPc o)
  ofPc c.p.mask (s.checkTarget c.env target)
  return s.completeAt c c.w target

/-- `mark` (R168). -/
def execMark (o : Int) (s : State) : Answer := s.run fun c => do
  let rejoin ← ofPc c.p.mask (branchTarget c.branchPc o)
  let (id, s, w) ← openJoin c.env c.p.mask ⟨.mark, rejoin, c.p.entry, 1, none, none⟩ (s, c.w)
  return s.complete c (w.setPath c.pidx { w.path c.pidx with entry := id }) .none

/-- The end of a warp (R176): its slot, granules and areas are free. -/
def State.endWarp (s : State) (wid : Nat) (w : Warp) : State :=
  { s with warps := s.warps.del wid }.setBlock w.block fun b => { b with live := b.live.filter (· != wid) }

/-- Once an entry is free, paths parked for one issue their instruction again (R160). -/
def Warp.entryFreed (w : Warp) (cycle : Nat) : Warp :=
  if w.freePath.isNone then w
  else { w with paths := w.paths.zipIdx.map fun q => if w.stopped q.2 then q.1 else q.1.woken .pathTable cycle }

/-- The end of an instruction after a meeting: the arriving path takes its place; a warp that ended is freed. -/
def finishMet (c : Ctx) (m : Met) : State :=
  let s := m.s.count c.bid
  let w := { m.w with retired := m.w.retired + 1 }.entryFreed s.cycle
  if m.ended then ({ s with focus := none }.endWarp c.wid w)
  else { s with focus := none }.setWarp c.wid w

/-- `join` (R169). -/
def execJoin (s : State) : Answer := s.run fun c => do
  let (j, s1, w) ← getJoin c.env c.p.mask c.p.entry (s, c.w)
  if j.kind ≠ .mark ∨ j.rejoin ≠ c.p.pc then raise 0x01 0x08 c.p.mask
  let w := w.setPath c.pidx ((c.p.took .none).issuedAt s.cycle)
  return finishMet c (← arrive c.env c.p.mask c.pidx c.p.entry (s1, w))

/-- Steps 1 and 3 to 6 of R170: opens the call entry, pushes the return entry, moves the window and enters the target. -/
def enterCall (c : Ctx) (lanes : LaneMask) (f : Nat) (target ret : Word) (h : Held) : Except Stop Held := do
  let (id, s, w) ← openJoin c.env lanes ⟨.call, ret, (h.2.path c.pidx).entry, 1, none, none⟩ h
  let (s, w) ← pushRet c.env lanes ⟨ret, f, id⟩ (s, w)
  let w := { w with wbase := w.wbase + f }
  let (s, w) ← spillUntil c.env lanes w.width w.n 256 (s, w)
  return (s, w.setPath c.pidx { (w.path c.pidx).goto target true with entry := id, window := [] })

/-- `call` (R170). -/
def execCall (f : Nat) (o : Int) (s : State) : Answer := s.run fun c => do
  if c.w.width < f then raise 0x15 0x02 c.p.mask (BitVec.ofNat 64 f)
  let target ← ofPc c.p.mask (branchTarget c.branchPc o)
  ofPc c.p.mask (s.checkTarget c.env target)
  let (s, w) ← enterCall c c.p.mask f target c.nextPc (s, c.w)
  return s.finish c w

/-- Moves lanes of the issuing path into the waiting group of its callx entry (R172). -/
def callxGroup (c : Ctx) (id i : Nat) (lanes : LaneMask) (w : Warp) : Warp :=
  let w := w.setPath i { Path.free with state := .waitingGroup, pc := c.p.pc, mask := lanes, entry := id, since := c.p.since }
  match w.joins.get? id with
  | some j => w.setJoin id { j with group := some i }
  | none => w

/-- Opens the callx entry of a path that is no held remainder; the lanes that do not act go into its waiting group, entry `i` (R172). -/
def openCallx (c : Ctx) (t : LaneMask) (i : Option Nat) (h : Held) : Except Stop (Nat × Held) := do
  let (id, s, w) ← openJoin c.env t ⟨.callx, c.nextPc, c.p.entry, 1, none, none⟩ h
  let w := w.setPath c.pidx { w.path c.pidx with entry := id, mask := t }
  return (id, s, match i with | some i => callxGroup c id i (c.p.mask &&& ~~~t) w | none => w)

/-- A free entry for lanes of the issuing path, where it has any of them (R160). -/
def entryFor (w : Warp) (c : Ctx) (lanes : LaneMask) : Except Stop (Option Nat) :=
  if lanes = 0 then .ok none else match w.freePath with
  | none => noEntry w c (lanes &&& w.present)
  | some i => .ok (some i)

/-- The lanes a callx that has opened its entry `id` keeps for later: entry `i` holds them as held remainder (R172). -/
def holdRemainder (c : Ctx) (id : Nat) (rest : LaneMask) (cycle : Nat) (i : Option Nat) (w : Warp) : Warp :=
  match i, w.joins.get? id with
  | some i, some j => (w.setPath i { Path.free with
      state := .heldRemainder, pc := c.p.pc, mask := rest, entry := id, since := cycle, window := c.p.window }).setJoin id
        { j with held := some i, out := j.out + 1 }
  | _, _ => w

/-- A callx group enters its target (R172): its checks, then the call of R170. -/
def callGroup (s : State) (c : Ctx) (id f : Nat) (target : Word) (grp rest : LaneMask) (i : Option Nat) (h : Held) : Except Stop Held := do
  ofPc grp (checkPc target)
  ofPc grp (s.checkTarget c.env target)
  if c.w.width < f then raise 0x15 0x02 grp (BitVec.ofNat 64 f)
  let w := holdRemainder c id rest s.cycle i h.2
  enterCall c grp f target c.nextPc (h.1, w.setPath c.pidx { w.path c.pidx with mask := grp })

/-- `callx` (R172). The entries it needs are had before any effect (R160). A group that traps leaves the callx entry open, its own lanes
and those after it at the `callx`. -/
def execCallx (g : Guard) (f v : Nat) (s : State) : Answer := s.run fun c => do
  let (j, s1, w1) ← getJoin c.env c.p.mask c.p.entry (s, c.w)
  let remainder := j.kind = .callx ∧ j.rejoin = c.nextPc
  let t := if remainder then c.p.mask else c.act g
  if t &&& c.w.present = 0 then return s.skip c
  if c.w.width ≤ v + 1 then raise 0x15 0x00 t (BitVec.ofNat 64 v)
  let values := c.w.vecValue .i64 v
  let target (l : Nat) : Word := nth values ((if c.w.present.getLsbD l then some l else leader c.w.present t l).getD l) 0
  let u := (lanesOf (t &&& c.w.present)).foldl (fun m l => min m (target l).toNat) (2 ^ 64)
  let grp := maskOf fun l => t.getLsbD l && (target l).toNat == u
  let rest := t &&& ~~~grp
  let i ← entryFor w1 c (if remainder then 0 else c.p.mask &&& ~~~t)
  let k ← entryFor (match i with | some i => w1.setPath i { Path.free with state := .waitingGroup } | none => w1) c rest
  let (id, s1, w1) ← if remainder then .ok (c.p.entry, s1, w1) else openCallx c t i (s1, w1)
  match callGroup s c id f (BitVec.ofNat 64 u) grp rest k (s1, w1) with
  | .ok (s2, w2) => return s2.finish c w2
  | .error (.trap x) => return (s1.setWarp c.wid w1).takeTrap c.wid c.pidx x (unitOf c.p c.pre)
  | .error x => .error x

/-- `ret` (R171). -/
def execRet (s : State) : Answer := s.run fun c => do
  if c.w.cdepth = 0 then raise 0x01 0x09 c.p.mask
  let (j, s1, w) ← getJoin c.env c.p.mask c.p.entry (s, c.w)
  if j.kind ≠ .call then raise 0x01 0x08 c.p.mask
  let w := w.setPath c.pidx ((c.p.took .none).issuedAt s.cycle)
  return finishMet c (← arrive c.env c.p.mask c.pidx c.p.entry (s1, w))

/-- `jmpx` (R173). -/
def execJmpx (r : Nat) (s : State) : Answer := s.run fun c => do
  let target := c.w.sreg r
  ofPc c.p.mask (checkPc target)
  ofPc c.p.mask (s.checkTarget c.env target)
  return s.completeAt c c.w target

/-- The count a `grow` or `shrink` asks for (R174). -/
def allocValue (w : Warp) : Src → Nat
  | .reg i => (w.sreg i).toNat
  | .imm v => v.toNat
  | _ => 0

/-- Whether a count is one a `grow` may ask for (R174). -/
def growable (w : Warp) (n : Nat) : Bool := decide (8 ≤ n ∧ n ≤ 256 ∧ w.n ≤ n)

/-- `grow` (R174): parks while the pool cannot supply the extra granules (R150), and behind an earlier `grow` of its warp. -/
def execGrow (v : Src) (s : State) : Answer := s.run fun c => do
  let n := allocValue c.w v
  if growable c.w n = false then raise 0x15 0x04 c.p.mask (BitVec.ofNat 64 n)
  let extra := granules n - granules c.w.n
  let q := quarterOf c.wid
  if n ≠ c.w.n ∧ ((s.growers q).any (·.1 == c.wid) ∨ (extra ≠ 0 ∧ s.growServed q extra = false)) then
    return s.awaits c c.w (.parked .grow) (.grow n) 0
  return s.complete c (if n = c.w.n then c.w else c.w.relocate n) .none

/-- `shrink` (R174). -/
def execShrink (v : Src) (s : State) : Answer := s.run fun c => do
  let n := allocValue c.w v
  if n < 8 ∨ 256 < n ∨ c.w.n < n then raise 0x15 0x04 c.p.mask (BitVec.ofNat 64 n)
  if n = c.w.n then return s.skip c
  let (s, w) ← spillUntil c.env c.p.mask (min 32 n) n 256 (s, c.w)
  return s.complete c (w.relocate n) .none

/-- `yield` (R175). -/
def execYield (g : Guard) (s : State) : Answer := s.run fun c =>
  if c.once g && c.w.outsider c.pidx then
    let s := s.skip c
    .ok (s.setPath c.wid c.pidx fun p => p.leaveSet s.cycle)
  else .ok (s.skip c)

/-- The lanes a path keeps when present lanes end: a helper lane ends with the last present lane of its quad in the path (R176). -/
def keptLanes (present mask : LaneMask) : LaneMask :=
  maskOf fun l => mask.getLsbD l && (present.getLsbD l || (leader present mask l).isSome)

/-- `exit` (R176). -/
def execExit (g : Guard) (s : State) : Answer := s.run fun c => do
  let t := c.act g
  if t = 0 then return s.skip c
  let left := keptLanes c.w.present (c.p.mask &&& ~~~(t &&& c.w.present))
  if left ≠ 0 then return s.complete c (c.w.setPath c.pidx { c.p with mask := left }) .none
  let m ← leave c.env (t &&& c.w.present) c.pidx (s, c.w)
  match if m.ended then s.deserted c.bid c.wid c.w else none with
  | some k => raise 0x71 0 (t &&& c.w.present) (BitVec.ofNat 64 k)
  | none => return finishMet c m

/-- `trap` (R177). -/
def execTrap (g : Guard) (n : Int) (s : State) : Answer := s.run fun c =>
  if c.once g then raise 0x72 n.toNat (c.real g) else .ok (s.skip c)

/-- `eret` (R178, R460). -/
def execEret (s : State) : Answer := s.run fun c => s.returnFromTrap c

/-- The word that follows a prefix in its line. -/
def Ctx.governed (c : Ctx) : IWord := match c.p.line with | some l => l.word (pcSlot c.p.pc + 1) | none => 0

/-- `ximm` (R106 to R109): the uses R108 refuses trap at the prefix; otherwise the unit goes on with the governed word, which nothing
can part from its prefix. -/
def execXimm (sel : Nat) (payload : BitVec 32) (s : State) : Answer :=
  match s.focus with
  | some (.stream b _) => .next (s.streamPrefix b sel payload)
  | _ => s.run fun c =>
    if pcSlot c.p.pc = 4 then raise 0x01 0x03 c.p.mask
    else match decodeGoverned sel payload c.governed with
      | .misuse => raise 0x01 0x03 c.p.mask
      | _ => .ok { s with focus := some (.path c.wid c.pidx (some (sel, payload))) }

/-- A word whose opcode names nothing (R110, R111). -/
def opcodeTrap (w : IWord) : Nat × Nat :=
  let op := wordOp w
  if 0xD0 ≤ op && op ≤ 0xEF then (0x02, 0) else if op = 0xFF then (0x01, 0x06) else (0x01, 0x05)

/-- An unassigned, future-space or illegal opcode (R110, R111): its trap, whatever lanes are active. -/
def execUnassignedOpcode (w : IWord) (s : State) : Answer :=
  match s.focus with
  | some (.stream b _) => .next (s.streamRefuses b)
  | _ => s.run fun c => raise (opcodeTrap w).1 (opcodeTrap w).2 c.p.mask

end Sys2Proof.Machine
end

