-- ==== Sys2Proof/Machine/Logbook.lean ====
section
/-! DEFINITION. Order-sensitive choices: the logbook and replay (spec/27 R516, R523 to R529). -/
namespace Sys2Proof.Machine

/-- The key of a choice: the slots from the kernel entry to the unit's PC, low 24 bits (R524). -/
def choiceKey (entry pc : Word) : Nat := (((pcLinear pc : Int) - (pcLinear entry : Int)) % 2 ^ 24).toNat

/-- Word w0 of an entry (R523). -/
def entryHead (kind ltag : Nat) (low : Nat) : Nat := kind * 2 ^ 60 + ltag * 2 ^ 48 + low

/-- Writes one 16-byte entry at the logbook's tail (R521, R524). -/
def State.putEntry (s : State) (part : Nat) (w0 w1 : Nat) : State :=
  match s.parts.get? part with
  | none => s
  | some pt =>
    let a := pt.log.base + 16 * (pt.log.tail % 2 ^ pt.log.log2)
    let s := match s.writePlain ⟨part, 0⟩ a (leBytes 8 w0 ++ leBytes 8 w1) with
      | .ok s' => s'
      | .error _ => s
    s.setPart part fun p => { p with log := { p.log with tail := p.log.tail + 1 } }

/-- Whether the logbook has room for `n` entries beyond those written and reserved (R526). -/
def State.logRoom (s : State) (part n : Nat) : Bool :=
  match s.parts.get? part with
  | none => false
  | some pt => 8 ≤ pt.log.log2 && pt.log.tail + pt.logReserved + n ≤ pt.log.head + 2 ^ pt.log.log2

/-- Writes a choice: its SITE entry where it has a location, then its party entry; the block has written a logbook entry (R465 G),
and the warp's count rises (R516). -/
def State.logChoice (s : State) (part lid bid : Nat) (counted : Bool) (kind : Nat) (site : Option Nat) (warp linear key value : Nat) :
    State :=
  let ltag := ((s.launches.get? lid).bind (·.ltag)).getD 0
  let s := match site with
    | some loc => s.putEntry part (entryHead 2 ltag loc) 0
    | none => s
  let s := s.putEntry part (entryHead kind ltag (warp * 2 ^ 40 + linear)) (key * 2 ^ 40 + value % 2 ^ 40)
  s.setBlock bid fun b => { b with
    logged := true, logCounts := if counted then b.logCounts.put warp (b.logCounts.getD warp 0 + 1) else b.logCounts }

/-- The head of a replay queue: the first unconsumed entry of the launch that satisfies a test (R527). -/
def State.replayHead (s : State) (part lid : Nat) (q : ReplayEntry → Bool) : Option ReplayEntry :=
  (s.parts.get? part).bind fun pt => pt.replayHeld.find? fun e => e.launch == lid && q e

/-- Consumes a replay entry; a warp it names counts it as the logged run did (R516). -/
def State.consume (s : State) (part bid : Nat) (e : ReplayEntry) : State :=
  (s.setPart part fun p => { p with replayHeld := p.replayHeld.filter (·.index != e.index) }).setBlock bid fun b =>
    { b with logCounts := if e.kind = 5 then b.logCounts else b.logCounts.put e.warp (b.logCounts.getD e.warp 0 + 1) }

/-- The index at which an entry that is not there was sought: the end of what has been read (R527, R528). -/
def State.soughtAt (s : State) (part : Nat) : Nat := (s.parts.get? part).elim 0 (·.rpl.head)

/-- Whether the replay ring can give no further entry: its end is set and it is exhausted, or the held entries are at the limit (R527). -/
def State.replayDry (s : State) (part : Nat) : Bool :=
  match s.parts.get? part with
  | none => true
  | some pt => (pt.rpl.fin && pt.rpl.head == pt.rpl.tail) || 65536 ≤ pt.replayHeld.length

/-- What an empty replay queue does to an instruction: it waits, or raises 0x60 (R527). -/
def replayEmpty (s : State) (c : Ctx) (lanes : LaneMask) : Except Stop α :=
  if s.replayDry c.env.part then raise 0x60 0 lanes (BitVec.ofNat 64 (s.soughtAt c.env.part)) else .error (.park .monitor)

/-- Refuses or parks a logged instruction whose logbook lacks room for its `n` entries (R526). -/
def needRoom (s : State) (c : Ctx) (lanes : LaneMask) (n : Nat) : Except Stop Unit :=
  if s.logRoom c.env.part n then .ok ()
  else if c.la.modes.getLsbD 6 then raise 0x61 0 lanes
  else .error (.park .monitor)

/-- Entries a path had reserved are about to be written. -/
def State.spend (s : State) (part wid pidx n : Nat) : State :=
  (s.setPart part fun p => { p with logReserved := p.logReserved - n }).setPath wid pidx fun p =>
    { p with await := p.await.map fun a => { a with reserved := a.reserved - n } }

/-- How many paths of a warp are unparked (R207, R226, R245): a path held by an open call counts as parked (R159). Paths frozen with their
warp by a handler count here as unparked: R458 calls them parked for R133 and R151 only, and this is the model's choice (log entry 169). -/
def Warp.unparked (w : Warp) : Nat :=
  ((List.range 16).filter fun i => (w.path i).state == .live && !w.heldByCall (w.path i)).length

/-- A choice keyed by block, warp and kind whose value the device has now (`value`): free keeps it, logged writes it, replay gives the
logged value, canonical refuses it (R226, R207, R70). -/
def chooseValue (s : State) (c : Ctx) (lanes : LaneMask) (kind value : Nat) : Except Stop (State × Nat) :=
  let key := choiceKey (c.la.word 1) c.p.pc
  match c.la.det with
  | 0 => .ok (s, value)
  | 1 => do
    needRoom s c lanes 1
    return (s.logChoice c.env.part c.lid c.bid true kind none c.w.index c.blk.linear key value, value)
  | 2 =>
    match s.replayHead c.env.part c.lid fun e => e.kind == kind && e.block == c.blk.linear && e.warp == c.w.index with
    | none => replayEmpty s c lanes
    | some e => if e.key ≠ key then raise 0x60 0 lanes (BitVec.ofNat 64 e.index) else .ok (s.consume c.env.part c.bid e, e.value)
  | _ => raise 0x62 0 lanes

end Sys2Proof.Machine
end

