-- ==== Sys2Proof/Machine/Operands.lean ====
section
/-! DEFINITION. Operands: the checks of latch reads (spec/03 R102) and register bounds (spec/05 R143), the value of every source kind
(R100), the elements of a lane (spec/07 R184, spec/08 R210, R213), and the stochastic-rounding bits (R224). -/
namespace Sys2Proof.Machine

/-- What an operand is read as. -/
inductive Want where
  | vec (f : Fmt)
  | sca
  | pred
deriving DecidableEq, Repr

/-! ### Checks -/

/-- A latch read (R102): subcode 0x01 for no place or a place of class none, 0x02 for another class. -/
def latchOk (p : Path) (lanes : LaneMask) (want : Want) : Src → Except Stop Unit
  | .latch k =>
    match p.place k with
    | none => raise 0x01 0x01 lanes
    | some .none => raise 0x01 0x01 lanes
    | some pl =>
      match want, pl with
      | .vec _, .vector _ => .ok ()
      | .vec _, .scalar _ => .ok ()
      | .sca, .scalar _ => .ok ()
      | .pred, .predicate _ => .ok ()
      | _, _ => raise 0x01 0x02 lanes
  | _ => .ok ()

/-- A latch read under a predicate field; an instruction whose field is 0b1000 raises no trap (R103). -/
def checkLatch (c : Ctx) (g : Guard) (want : Want) (x : Src) : Except Stop Unit :=
  if g.never then .ok () else latchOk c.p (c.act g) want x

/-- Vector registers an operand of a format takes. -/
def spanOf (f : Fmt) : Nat := if f == .b128 then 4 else if f.is64 then 2 else 1

/-- A register named as a vector operand stands within the window (R143). -/
def checkBound (w : Warp) (lanes : LaneMask) (f : Fmt) (i : Nat) : Except Stop Unit :=
  if i + spanOf f ≤ w.width then .ok () else raise 0x15 0x00 lanes (BitVec.ofNat 64 i)

/-- The bound of a register-kind vector source. -/
def checkSrcBound (w : Warp) (lanes : LaneMask) : Want × Src → Except Stop Unit
  | (.vec f, .reg i) => checkBound w lanes f i
  | _ => .ok ()

/-- The bound of a vector destination. -/
def checkDstBound (w : Warp) (lanes : LaneMask) (f : Fmt) (d : Dst) : Except Stop Unit :=
  if d.cls = .vector ∧ d.wb = true then checkBound w lanes f d.idx else .ok ()

/-- Latch reads of every source, then register bounds where a lane acts (R111 steps 3 and 4, R103). -/
def checkOperands (c : Ctx) (g : Guard) (d : Dst) (df : Fmt) (srcs : List (Want × Src)) : Except Stop Unit := do
  let lanes := c.act g
  srcs.forM fun x => checkLatch c g x.1 x.2
  if lanes ≠ 0 then
    checkDstBound c.w lanes df d
    srcs.forM (checkSrcBound c.w lanes)

/-! ### Elements (R184, R210, R213) -/

/-- The bits an element is stored in. -/
def elemBits : Fmt → Nat
  | .i64 | .f64 => 64
  | .i16 | .bf16 | .f16 => 16
  | .i8 | .e4m3 | .e5m2 | .e3m2 | .e2m3 => 8
  | .e2m1 => 4
  | .b128 => 128
  | _ => 32

/-- Elements of a lane's value. -/
def elemCount (f : Fmt) : Nat := if f.is64 then 1 else 32 / (elemBits f)

/-- The bits of a lane value at the place of element j. -/
def rawElement (f : Fmt) (x : Word) (j : Nat) : Nat := x.toNat / 2 ^ ((elemBits f) * j) % 2 ^ (elemBits f)

/-- Element j of a lane value; the top two bits of a 6-bit element's byte are ignored. -/
def element (f : Fmt) (x : Word) (j : Nat) : Nat :=
  let v := rawElement f x j
  if f == .e3m2 || f == .e2m3 then v % 64 else v

/-- A lane value from its elements. -/
def ofElements (f : Fmt) (g : Nat → Nat) : Word :=
  BitVec.ofNat 64 ((List.range (elemCount f)).foldr (fun j n => n * 2 ^ (elemBits f) + g j % 2 ^ (elemBits f)) 0)

/-- A lane value with element j replaced; the others keep their bits. -/
def setElement (f : Fmt) (old : Word) (j v : Nat) : Word := ofElements f fun k => if k = j then v else rawElement f old k

/-- The same value in every element (R100, R184). -/
def replicateElem (f : Fmt) (v : Nat) : Word := ofElements f fun _ => v

/-- Whether a format is a float. -/
def isFloat (f : Fmt) : Bool := realFmts.contains f

/-- An immediate as an element of a format (R100). -/
def immElem (f : Fmt) (v : Int) : Nat :=
  if isFloat f then ((fspec f).round rneOf (realOfInt v)).1 else (v % 2 ^ (elemBits f)).toNat

/-! ### Values -/

/-- The value of a vector operand in every lane: 64 bits for a 64-bit format, else the low 32 (R100, R102, R140). -/
def readVec (w : Warp) (p : Path) (f : Fmt) : Src → List Word
  | .reg i => w.vecValue f i
  | .latch k =>
    match p.place k with
    | some (.vector v) => if f.is64 then v else v.map fun x => (x.extractLsb' 0 32).zeroExtend 64
    | some (.scalar x) => List.replicate 32 (replicateElem f x.toNat)
    | _ => List.replicate 32 0
  | .bcast i => List.replicate 32 (replicateElem f (w.sreg i).toNat)
  | .imm v => List.replicate 32 (replicateElem f (immElem f v))

/-- The value of a `.b128` vector operand in every lane (R100, R217). -/
def readVec128 (w : Warp) : Src → List (BitVec 128)
  | .reg i => laneIndices.map fun l => laneOf (w.vreg (i + 3)) l ++ laneOf (w.vreg (i + 2)) l ++ laneOf (w.vreg (i + 1)) l ++ laneOf (w.vreg i) l
  | .bcast i => List.replicate 32 ((w.sreg i).zeroExtend 128)
  | .imm v => List.replicate 32 (BitVec.ofInt 128 v)
  | .latch _ => List.replicate 32 0

/-- The value of a scalar operand (R100). -/
def readSca (w : Warp) (p : Path) : Src → Word
  | .reg i => w.sreg i
  | .latch k => match p.place k with | some (.scalar x) => x | _ => 0
  | .imm v => BitVec.ofInt 64 v
  | .bcast i => w.sreg i

/-- The value of a predicate operand. -/
def readPred (w : Warp) (p : Path) : Src → LaneMask
  | .reg i => w.preg i
  | .latch k => match p.place k with | some (.predicate m) => m | _ => 0
  | _ => 0

/-- Lane l of a list of lane values. -/
def atLane (x : List Word) (l : Nat) : Word := nth x l 0

/-! ### Stochastic rounding (R224 to R226) -/

def srM0 : Word := 0x9C3E57A16B2DF4C5
def srM1 : Word := 0xE7A41D398F6B0C2B
def srK : List Word := [0x3A917C5E0B24D86F, 0x51C8E60297DA3B1D, 0xC40F2B956E17A8E3, 0x0D6B93F4C25871A9]

/-- srbits of R224 from the seed, counter base, block, warp, PC and count. -/
def srBits (seed base : Word) (bid wi : Nat) (pc : Word) (count l j : Nat) : Nat :=
  let x : Word := seed ^^^ (BitVec.ofNat 64 bid <<< 16) ^^^ (BitVec.ofNat 64 wi <<< 8) ^^^ (BitVec.ofNat 64 l <<< 3) ^^^ BitVec.ofNat 64 j
  let y : Word := (base + BitVec.ofNat 64 count) ^^^ pc
  let (x, y) := srK.foldl (fun (x, y) k =>
    let x := (x * srM0).rotateLeft 29 ^^^ y
    let y := (y * srM1).rotateLeft 17 ^^^ x ^^^ k
    (x, y)) (x, y)
  ((x ^^^ y).extractLsb' 32 32).toNat

/-- The random bits of an instruction at the issuing path, with the count it uses. -/
def Ctx.srBits (c : Ctx) (count l j : Nat) : Nat :=
  Sys2Proof.Machine.srBits (c.la.word 10) (c.la.word 11) c.blk.linear c.w.index c.p.pc count l j

/-- The count a mode-4 instruction uses (R226); other modes and a lone path use the warp's own. -/
def srCount (s : State) (c : Ctx) (lanes : LaneMask) (mode : RMode) : Except Stop (State × Nat) :=
  if mode = .rs ∧ 1 < c.w.unparked ∧ lanes ≠ 0 then chooseValue s c lanes 6 c.w.srcnt.toNat else .ok (s, c.w.srcnt.toNat)

/-- The count after an instruction of a mode that acted in at least one lane (R225). -/
def Warp.bumpCount (w : Warp) (mode : RMode) (lanes : LaneMask) : Warp :=
  if mode = .rs ∧ lanes ≠ 0 then { w with srcnt := w.srcnt + 1 } else w

/-! ### Shadow issue (R138, R139) -/

/-- The compare of the two copies in the lanes computed: none, corrected by the reissue, or the lanes that differ twice. The errors
themselves are an input (`State.upset`), consumed by the instruction that meets them. -/
def shadowCompare (s : State) (c : Ctx) (lanes : LaneMask) : Except Stop State :=
  if !c.la.shadow || s.upset.1 &&& lanes = 0 then .ok s
  else if s.upset.2 &&& lanes = 0 then
    let q := quarterOf c.wid
    .ok { s.reissueSlot q with upset := (0, 0), correctedCompute := s.correctedCompute.put q (s.correctedCompute.getD q 0 + 1) }
  else raise 0x50 0x00 (s.upset.2 &&& lanes)

end Sys2Proof.Machine
end

