-- ==== Sys2Proof/Machine/Vector.lean ====
section
/-! DEFINITION. The frame of every vector instruction (spec/07 R184, spec/09 R231), and vector integer and logic (R185 to R189). -/
namespace Sys2Proof.Machine

/-- A vector instruction: operands checked, every acting lane computed by `f` from its three source values, compared under shadow
issue, written where write-back asks for it, its flags set, its place taken. -/
def laneWise (s : State) (o : Alu) (df fa fb fc : Fmt) (mode : RMode) (f : Ctx → Nat → Nat → Word → Word → Word → Word × BitVec 5) :
    Answer :=
  s.run fun c => do
    checkOperands c o.g o.d df [(.vec fa, o.a), (.vec fb, o.b), (.vec fc, o.c)]
    let act := c.act o.g
    let (s, count) ← srCount s c act mode
    let s ← shadowCompare s c act
    let a := readVec c.w c.p fa o.a
    let b := readVec c.w c.p fb o.b
    let z := readVec c.w c.p fc o.c
    let out := laneIndices.map fun l => f c count l (atLane a l) (atLane b l) (atLane z l)
    let r := vectorResult c.w o.d df act fun l => (nth out l (0, 0)).1
    return s.complete c ((r.1.orFlags act fun l => (nth out l (0, 0)).2).bumpCount mode act) r.2

/-- A vector instruction that only computes values. -/
def laneValues (s : State) (o : Alu) (df fa fb fc : Fmt) (f : Word → Word → Word → Word) : Answer :=
  s.run fun c => do
    checkOperands c o.g o.d df [(.vec fa, o.a), (.vec fb, o.b), (.vec fc, o.c)]
    let act := c.act o.g
    let s ← shadowCompare s c act
    let a := readVec c.w c.p fa o.a
    let b := readVec c.w c.p fb o.b
    let z := readVec c.w c.p fc o.c
    let r := vectorResult c.w o.d df act fun l => f (atLane a l) (atLane b l) (atLane z l)
    return s.complete c r.1 r.2

/-! ### Integer elements (R184) -/

/-- An element as an integer. -/
def elemInt (f : Fmt) (uns : Bool) (x : Word) (j : Nat) : Int :=
  if uns then (element f x j : Int) else (BitVec.ofNat (elemBits f) (element f x j)).toInt

/-- The low e bits of an exact result. -/
def wrapTo (e : Nat) (v : Int) : Nat := (v % 2 ^ e).toNat

/-- An exact result limited to a range (R184). -/
def clampTo (e : Nat) (uns : Bool) (v : Int) : Nat :=
  if uns then wrapTo e (max 0 (min v (2 ^ e - 1))) else wrapTo e (max (-(2 ^ (e - 1) : Int)) (min v (2 ^ (e - 1) - 1)))

/-- A vector integer instruction: `op` on each element's exact values, reduced to the element. -/
def intVec (s : State) (o : Alu) (reduce : Nat → Int → Nat) (op : Nat → Int → Int → Int → Int) : Answer :=
  laneValues s o o.fmt o.fmt o.fmt o.fmt fun a b z =>
    ofElements o.fmt fun j => reduce (elemBits o.fmt)
      (op (elemBits o.fmt) (elemInt o.fmt o.uns a j) (elemInt o.fmt o.uns b j) (elemInt o.fmt o.uns z j))

/-- A vector instruction on the bits of each element. -/
def bitVec (s : State) (o : Alu) (op : Nat → Nat → Nat → Nat → Nat) : Answer :=
  laneValues s o o.fmt o.fmt o.fmt o.fmt fun a b z =>
    ofElements o.fmt fun j => op (elemBits o.fmt) (element o.fmt a j) (element o.fmt b j) (element o.fmt z j)

def execIadd (o : Alu) (s : State) : Answer := intVec s o wrapTo fun _ a b _ => a + b
def execIsub (o : Alu) (s : State) : Answer := intVec s o wrapTo fun _ a b _ => a - b
def execImul (o : Alu) (s : State) : Answer := intVec s o wrapTo fun _ a b _ => a * b
def execImad (o : Alu) (s : State) : Answer := intVec s o wrapTo fun _ a b z => a * b + z
def execImulh (o : Alu) (s : State) : Answer := intVec s o wrapTo fun e a b _ => a * b / 2 ^ e
def execIadds (o : Alu) (s : State) : Answer := intVec s o (fun e => clampTo e o.uns) fun _ a b _ => a + b
def execIsubs (o : Alu) (s : State) : Answer := intVec s o (fun e => clampTo e o.uns) fun _ a b _ => a - b
def execImin (o : Alu) (s : State) : Answer := intVec s o wrapTo fun _ a b _ => min a b
def execImax (o : Alu) (s : State) : Answer := intVec s o wrapTo fun _ a b _ => max a b
def execIabs (o : Alu) (s : State) : Answer := intVec s o wrapTo fun _ a _ _ => if a < 0 then -a else a
def execIneg (o : Alu) (s : State) : Answer := intVec s o wrapTo fun _ a _ _ => -a
def execIabsd (o : Alu) (s : State) : Answer := intVec s o wrapTo fun _ a b _ => if a < b then b - a else a - b

/-- The condition of a compare (R193). -/
def condHolds (c : Cond) (a b : Int) : Bool :=
  match c with
  | .eq => a == b | .ne => a != b | .lt => a < b | .le => a ≤ b | .gt => b < a | .ge => b ≤ a

/-- `icmp` (R185). -/
def execIcmp (cond : Cond) (o : Alu) (s : State) : Answer :=
  s.run fun c => do
    checkOperands c o.g o.d o.fmt [(.vec o.fmt, o.a), (.vec o.fmt, o.b)]
    let act := c.act o.g
    let s ← shadowCompare s c act
    let a := readVec c.w c.p o.fmt o.a
    let b := readVec c.w c.p o.fmt o.b
    let r := predicateResult c.w o.d act
      (maskOf fun l => condHolds cond (elemInt o.fmt o.uns (atLane a l) 0) (elemInt o.fmt o.uns (atLane b l) 0))
    return s.complete c r.1 r.2

/-- `isel`: source 2 is a predicate (R185). -/
def execIsel (o : Alu) (s : State) : Answer :=
  s.run fun c => do
    checkOperands c o.g o.d o.fmt [(.vec o.fmt, o.a), (.vec o.fmt, o.b), (.pred, o.c)]
    let act := c.act o.g
    let s ← shadowCompare s c act
    let a := readVec c.w c.p o.fmt o.a
    let b := readVec c.w c.p o.fmt o.b
    let m := readPred c.w c.p o.c
    let r := vectorResult c.w o.d o.fmt act fun l => if m.getLsbD l then atLane a l else atLane b l
    return s.complete c r.1 r.2

/-- A bitwise instruction. -/
def logicVec (s : State) (o : Alu) (f : Word → Word → Word → Word) : Answer := laneValues s o o.fmt o.fmt o.fmt o.fmt f

def execAnd (o : Alu) (s : State) : Answer := logicVec s o fun a b _ => a &&& b
def execOr (o : Alu) (s : State) : Answer := logicVec s o fun a b _ => a ||| b
def execXor (o : Alu) (s : State) : Answer := logicVec s o fun a b _ => a ^^^ b
def execAndn (o : Alu) (s : State) : Answer := logicVec s o fun a b _ => a &&& ~~~b
def execOrn (o : Alu) (s : State) : Answer := logicVec s o fun a b _ => a ||| ~~~b
def execXnor (o : Alu) (s : State) : Answer := logicVec s o fun a b _ => ~~~(a ^^^ b)
def execNot (o : Alu) (s : State) : Answer := logicVec s o fun a _ _ => ~~~a
def execImov (o : Alu) (s : State) : Answer := logicVec s o fun a _ _ => a

/-- The truth table of R187 applied to every bit. -/
def lut3Word (t : BitVec 8) (a b z : Word) : Word :=
  (List.range 8).foldl (fun acc k =>
    let pick (x : Word) (n : Nat) : Word := if k / n % 2 = 1 then x else ~~~x
    if t.getLsbD k then acc ||| (pick a 4 &&& pick b 2 &&& pick z 1) else acc) 0

def execLut3 (t : BitVec 8) (o : Alu) (s : State) : Answer := logicVec s o (lut3Word t)

/-! ### Shifts and bit counts, on e-bit patterns (R185, R191) -/

def shlBits (e a b : Nat) : Nat := a * 2 ^ (b % e) % 2 ^ e
def shrBits (e a b : Nat) : Nat := a / 2 ^ (b % e)
def sarBits (e a b : Nat) : Nat := wrapTo e ((BitVec.ofNat e a).toInt / 2 ^ (b % e))
def rotlBits (e a b : Nat) : Nat := (a * 2 ^ (b % e) % 2 ^ e) + a / 2 ^ (e - b % e)
def rotrBits (e a b : Nat) : Nat := rotlBits e a (e - b % e)
def popcBits (e a : Nat) : Nat := ((List.range e).filter a.testBit).length
def clzBits (e a : Nat) : Nat := if a = 0 then e else e - 1 - Nat.log2 a
def ctzBits (e a : Nat) : Nat := ((List.range e).find? a.testBit).getD e
def brevBits (e a : Nat) : Nat := (List.range e).foldl (fun n i => 2 * n + (a.testBit i).toNat) 0

def execShl (o : Alu) (s : State) : Answer := bitVec s o fun e a b _ => shlBits e a b
def execShr (o : Alu) (s : State) : Answer := bitVec s o fun e a b _ => shrBits e a b
def execSar (o : Alu) (s : State) : Answer := bitVec s o fun e a b _ => sarBits e a b
def execIrot (right : Bool) (o : Alu) (s : State) : Answer := bitVec s o fun e a b _ => if right then rotrBits e a b else rotlBits e a b
def execPopc (o : Alu) (s : State) : Answer := bitVec s o fun e a _ _ => popcBits e a
def execClz (o : Alu) (s : State) : Answer := bitVec s o fun e a _ _ => clzBits e a
def execCtz (o : Alu) (s : State) : Answer := bitVec s o fun e a _ _ => ctzBits e a
def execBrev (o : Alu) (s : State) : Answer := bitVec s o fun e a _ _ => brevBits e a

/-- Position and length of a bit field from its control value (R186); length 0 for an empty field. -/
def fieldOf (e ctl : Nat) : Nat × Nat :=
  let pos := ctl % 256
  let len := ctl / 256 % 256
  if e ≤ pos then (pos, 0) else (pos, min len (e - pos))

/-- `bfx` (R186). -/
def bfxBits (uns : Bool) (e a ctl : Nat) : Nat :=
  let (pos, k) := fieldOf e ctl
  if k = 0 then 0 else
    let v := a / 2 ^ pos % 2 ^ k
    if uns then v else wrapTo e (BitVec.ofNat k v).toInt

/-- `bfi` (R186). -/
def bfiBits (e a b ctl : Nat) : Nat :=
  let (pos, k) := fieldOf e ctl
  if k = 0 then a else a - (a / 2 ^ pos % 2 ^ k) * 2 ^ pos + (b % 2 ^ k) * 2 ^ pos

def execBfx (o : Alu) (s : State) : Answer := bitVec s o fun e a b _ => bfxBits o.uns e a b
def execBfi (o : Alu) (s : State) : Answer := bitVec s o fun e a b z => bfiBits e a b z

/-- `idot4` (R185). -/
def execIdot4 (o : Alu) (s : State) : Answer :=
  laneValues s o .i32 .i32 .i32 .i32 fun a b z =>
    BitVec.ofNat 64 (wrapTo 32 ((z.toNat : Int) + ([0, 1, 2, 3].map fun k => elemInt .i8 o.uns a k * elemInt .i8 o.uns b k).sum))

/-- The destination value whose other elements a narrower result keeps: the register's, or zero without write-back (R188, R239). -/
def keptValue (w : Warp) (d : Dst) (f : Fmt) (l : Nat) : Word := if d.wb then atLane (w.vecValue f d.idx) l else 0

/-- A result that fills its lane, or replaces element jd (R188, R239). -/
def placeElement (w : Warp) (d : Dst) (f : Fmt) (jd l v : Nat) : Word :=
  if elemCount f = 1 then BitVec.ofNat 64 v else setElement f (keptValue w d f l) jd v

/-- `icvt` (R188). -/
def execIcvt (sat : ICvtSat) (sf : Fmt) (js jd : Nat) (o : Alu) (s : State) : Answer :=
  s.run fun c => do
    checkOperands c o.g o.d o.fmt [(.vec sf, o.a), (.vec .i32, o.b), (.vec .i32, o.c)]
    let act := c.act o.g
    let s ← shadowCompare s c act
    let a := readVec c.w c.p sf o.a
    let e := elemBits o.fmt
    let r := vectorResult c.w o.d o.fmt act fun l =>
      let x := elemInt sf o.uns (atLane a l) js
      let v := match sat with
        | .wrap => wrapTo e x
        | .signed => clampTo e false x
        | .unsigned => clampTo e true x
      placeElement c.w o.d o.fmt jd l v
    return s.complete c r.1 r.2

/-! ### vmovx (R189) -/

/-- Lanes whose computed index leaves the window. -/
def vmovxBad (w : Warp) (f : Fmt) (base : Nat) (idx : List Word) (lanes : LaneMask) : LaneMask :=
  maskOf fun l => lanes.getLsbD l && w.width < base + spanOf f * (atLane idx l).toNat + spanOf f

/-- The lowest lane's computed index. -/
def vmovxIndex (f : Fmt) (base : Nat) (idx : List Word) (bad : LaneMask) : Word :=
  BitVec.ofNat 64 (base + spanOf f * (atLane idx ((lanesOf bad).headD 0)).toNat)

def vmovxRead (o : Alu) (base : Nat) (s : State) : Answer :=
  s.run fun c => do
    checkOperands c o.g o.d o.fmt [(.vec o.fmt, o.a), (.vec .i32, o.b)]
    let act := c.act o.g
    let idx := readVec c.w c.p .i32 o.b
    let bad := vmovxBad c.w o.fmt base idx act
    if bad &&& c.w.present ≠ 0 then raise 0x15 0x01 bad (vmovxIndex o.fmt base idx (bad &&& c.w.present))
    let act' := act &&& ~~~bad
    let s ← shadowCompare s c act
    let r := vectorResult c.w o.d o.fmt act' fun l => atLane (c.w.vecValue o.fmt (base + spanOf o.fmt * (atLane idx l).toNat)) l
    return s.complete c r.1 r.2

def vmovxWrite (o : Alu) (s : State) : Answer :=
  s.run fun c => do
    checkOperands c o.g o.d o.fmt [(.vec o.fmt, o.a), (.vec .i32, o.b)]
    let act := c.act o.g
    let idx := readVec c.w c.p .i32 o.b
    let bad := vmovxBad c.w o.fmt o.d.idx idx act
    if bad &&& c.w.present ≠ 0 then raise 0x15 0x01 bad (vmovxIndex o.fmt o.d.idx idx (bad &&& c.w.present))
    let act' := act &&& ~~~bad
    let s ← shadowCompare s c act
    let a := readVec c.w c.p o.fmt o.a
    let w := (lanesOf act').foldl (fun w l =>
      w.putVec o.fmt (o.d.idx + spanOf o.fmt * (atLane idx l).toNat) (maskOf (· == l)) fun _ => atLane a l) c.w
    let after := w.vecValue o.fmt o.d.idx
    return s.complete c w (.vector (laneIndices.map fun l => if act'.getLsbD l then atLane a l else atLane after l))

def execVmovx (write : Bool) (o : Alu) (s : State) : Answer :=
  if write then vmovxWrite o s else vmovxRead o (match o.a with | .reg i => i | _ => 0) s

end Sys2Proof.Machine
end

