-- ==== Sys2Proof/Machine/Scalar.lean ====
section
/-! DEFINITION. Scalar integer instructions (spec/07 R190 to R193) and the system registers (R194 to R196). -/
namespace Sys2Proof.Machine

/-- The element width of a scalar format. -/
def scaBits (f : Fmt) : Nat := if f = .i64 then 64 else 32

/-- The low e bits of a scalar as an integer. -/
def scaInt (f : Fmt) (uns : Bool) (x : Word) : Int :=
  let v := x.toNat % 2 ^ scaBits f
  if uns then (v : Int) else (BitVec.ofNat (scaBits f) v).toInt

/-- A result of e bits as the register holds it (R190). -/
def scaResult (f : Fmt) (uns : Bool) (r : Nat) : Word :=
  if f = .i64 then BitVec.ofNat 64 r
  else if uns then (BitVec.ofNat 32 r).zeroExtend 64 else (BitVec.ofNat 32 r).signExtend 64

/-- A scalar instruction: computed once where at least one lane acts (R103, R190). -/
def scalarOp (s : State) (o : Alu) (f : Word → Word → Word → Word) : Answer :=
  s.run fun c => do
    checkOperands c o.g o.d .none [(.sca, o.a), (.sca, o.b), (.sca, o.c)]
    let v := f (readSca c.w c.p o.a) (readSca c.w c.p o.b) (readSca c.w c.p o.c)
    let r := scalarResult c.w o.d (if c.once o.g then some v else none)
    return s.complete c r.1 r.2

/-- A scalar instruction on exact integers, wrapped. -/
def scalarInt (s : State) (o : Alu) (op : Int → Int → Int → Int) : Answer :=
  scalarOp s o fun a b z =>
    scaResult o.fmt o.uns (wrapTo (scaBits o.fmt) (op (scaInt o.fmt o.uns a) (scaInt o.fmt o.uns b) (scaInt o.fmt o.uns z)))

/-- A scalar instruction on e-bit patterns. -/
def scalarBits (s : State) (o : Alu) (op : Nat → Nat → Nat → Nat → Nat) : Answer :=
  scalarOp s o fun a b z =>
    let e := scaBits o.fmt
    scaResult o.fmt o.uns (op e (a.toNat % 2 ^ e) (b.toNat % 2 ^ e) (z.toNat % 2 ^ e))

def execSadd (o : Alu) (s : State) : Answer := scalarInt s o fun a b _ => a + b
def execSsub (o : Alu) (s : State) : Answer := scalarInt s o fun a b _ => a - b
def execSmul (o : Alu) (s : State) : Answer := scalarInt s o fun a b _ => a * b
def execSmulh (o : Alu) (s : State) : Answer := scalarInt s o fun a b _ => a * b / 2 ^ scaBits o.fmt
def execSmad (o : Alu) (s : State) : Answer := scalarInt s o fun a b z => a * b + z
def execSand (o : Alu) (s : State) : Answer := scalarBits s o fun _ a b _ => a &&& b
def execSor (o : Alu) (s : State) : Answer := scalarBits s o fun _ a b _ => a ||| b
def execSxor (o : Alu) (s : State) : Answer := scalarBits s o fun _ a b _ => a ^^^ b
def execSandn (o : Alu) (s : State) : Answer := scalarBits s o fun e a b _ => a &&& (2 ^ e - 1 - b)
def execSshl (o : Alu) (s : State) : Answer := scalarBits s o fun e a b _ => shlBits e a b
def execSshr (o : Alu) (s : State) : Answer := scalarBits s o fun e a b _ => shrBits e a b
def execSsar (o : Alu) (s : State) : Answer := scalarBits s o fun e a b _ => sarBits e a b
def execSrot (o : Alu) (s : State) : Answer := scalarBits s o fun e a b _ => rotlBits e a b
def execSmov (o : Alu) (s : State) : Answer := scalarBits s o fun _ a _ _ => a
def execSsel (o : Alu) (s : State) : Answer := scalarBits s o fun _ a b z => if z ≠ 0 then a else b
def execSpopc (o : Alu) (s : State) : Answer := scalarBits s o fun e a _ _ => popcBits e a
def execSclz (o : Alu) (s : State) : Answer := scalarBits s o fun e a _ _ => clzBits e a
def execSctz (o : Alu) (s : State) : Answer := scalarBits s o fun e a _ _ => ctzBits e a
def execSbrev (o : Alu) (s : State) : Answer := scalarBits s o fun e a _ _ => brevBits e a

/-- Quotient and remainder of R192. -/
def quotient (a b : Int) : Int := if b = 0 then -1 else a.tdiv b
def remainder (a b : Int) : Int := if b = 0 then a else a.tmod b

def execSdiv (o : Alu) (s : State) : Answer := scalarInt s o fun a b _ => quotient a b
def execSrem (o : Alu) (s : State) : Answer := scalarInt s o fun a b _ => remainder a b

/-- `scmp`: one result in the bit of every acting lane (R193). -/
def execScmp (cond : Cond) (o : Alu) (s : State) : Answer :=
  s.run fun c => do
    checkOperands c o.g o.d .none [(.sca, o.a), (.sca, o.b)]
    let v := condHolds cond (scaInt o.fmt o.uns (readSca c.w c.p o.a)) (scaInt o.fmt o.uns (readSca c.w c.p o.b))
    let r := predicateResult c.w o.d (c.act o.g) (if v then BitVec.allOnes 32 else 0)
    return s.complete c r.1 r.2

/-! ### System registers (R194 to R196) -/

/-- Coordinates of a block (R20). -/
def blockX (la : Launch) (i : Nat) : Nat := i % la.gx
def blockY (la : Launch) (i : Nat) : Nat := i / la.gx % la.gy
def blockZ (la : Launch) (i : Nat) : Nat := i / la.gx / la.gy

/-- The value of a system register (R195). -/
def sysValue (s : State) (c : Ctx) (n : Nat) : Word :=
  let pt := s.parts.get? c.env.part
  match n with
  | 0x00 => BitVec.ofNat 64 (pt.elim 0 (·.tframe))
  | 0x01 => BitVec.ofNat 64 (pt.elim 0 (·.vtab))
  | 0x02 => c.w.cause
  | 0x03 => c.w.cdata
  | 0x04 => c.w.lmask
  | 0x08 => BitVec.ofNat 64 (argPlace (pt.elim 0 (·.argArea)) c.lid)
  | 0x09 => BitVec.ofNat 64 c.la.argSize
  | 0x0A => BitVec.ofNat 64 (launchId c.la.born (queueOfLaunch c.lid) (seqOfLaunch c.lid))
  | 0x0B => c.la.modes
  | 0x0C => BitVec.ofNat 64 c.blk.linear
  | 0x0D => BitVec.ofNat 64 (blockZ c.la c.blk.linear * 2 ^ 48 + blockY c.la c.blk.linear * 2 ^ 32 + blockX c.la c.blk.linear)
  | 0x0E => c.la.word 4
  | 0x0F => c.la.word 5
  | 0x10 => BitVec.ofNat 64 (c.la.blockWarps * 256 + c.w.index)
  | 0x11 => BitVec.ofNat 64 (c.blk.cluster * 256 + c.blk.rank)
  | 0x12 => if c.blk.sramLen = 0 then 0 else BitVec.ofNat 64 (0x7E0000000000 + 128 * c.blk.sramBase)
  | 0x13 => if c.blk.sramLen = 0 then 0 else BitVec.ofNat 64 (0x7F0000000000 + c.blk.home * 2 ^ 21 + 128 * c.blk.sramBase)
  | 0x14 => BitVec.ofNat 64 c.blk.sramLen
  | 0x18 => c.w.spill
  | 0x19 => c.w.spilllim
  | 0x1A => c.w.jstk
  | 0x1B => c.w.jstklim
  | 0x1C => c.w.rstk
  | 0x1D => c.w.rstklim
  | 0x1E => BitVec.ofNat 64 c.w.cdepth
  | 0x20 => BitVec.ofNat 64 (c.w.width * 65536 + c.w.n)
  | 0x21 => BitVec.ofNat 64 c.w.wbase
  | 0x22 => BitVec.ofNat 64 c.w.sfloor
  | 0x24 => c.w.srcnt
  | _ => 0

/-- `rdsys` (R194, R195). -/
def execRdsys (g : Guard) (d : Dst) (n : Nat) (s : State) : Answer :=
  s.run fun c =>
    let r := scalarResult c.w d (if c.once g then some (sysValue s c n) else none)
    .ok (s.complete c r.1 r.2)

/-- Writes one of the six writable registers. -/
def Warp.setSys (w : Warp) (n : Nat) (x : Word) : Warp :=
  match n with
  | 0x18 => { w with spill := x }
  | 0x19 => { w with spilllim := x }
  | 0x1A => { w with jstk := x }
  | 0x1B => { w with jstklim := x }
  | 0x1C => { w with rstk := x }
  | _ => { w with rstklim := x }

/-- Whether the area of a writable register is in use (R196). -/
def Warp.areaInUse (w : Warp) (n : Nat) : Bool :=
  if n ≤ 0x19 then 0 < w.sfloor
  else if n ≤ 0x1B then 1 < w.joins.length + w.jspilled.length
  else 0 < w.rspilled

/-- `wrsys` (R194, R196). R196 gives its two refusals no order: a bad value is seen before an area in use (DESIGN CHOICE, log entry 173). -/
def execWrsys (g : Guard) (d : Dst) (a : Src) (s : State) : Answer :=
  s.run fun c => do
    checkOperands c g d .none [(.sca, a)]
    if !c.once g then return s.complete c c.w .system
    let lanes := c.real g
    if !d.wb || d.idx < 0x18 || 0x1D < d.idx then raise 0x11 0x09 lanes
    let x := readSca c.w c.p a
    if x.toNat % 16 ≠ 0 ∨ 2 ^ 47 < x.toNat then raise 0x10 0x0B lanes x
    if c.w.areaInUse d.idx then raise 0x11 0x0A lanes
    return s.complete c (c.w.setSys d.idx x) .system

end Sys2Proof.Machine
end

