-- ==== Sys2Proof/Machine/Address.lean ====
section
/-! DEFINITION. Address registers and stream bindings (spec/07 R197 to R207). -/
namespace Sys2Proof.Machine

/-- An address instruction: acts once where at least one lane does; `f` gives the new register or the trap. -/
def addressOp (s : State) (o : AddrOp) (f : Ctx → LaneMask → AReg → Word → Word → Except Stop AReg) : Answer :=
  s.run fun c => do
    checkOperands c o.g o.d .none [(.sca, o.x), (.sca, o.y)]
    if c.once o.g then
      let a ← f c (c.real o.g) (c.w.areg o.a) (readSca c.w c.p o.x) (readSca c.w c.p o.y)
      let r := addressResult c.w o.d (some a)
      return s.complete c r.1 r.2
    else
      let r := addressResult c.w o.d none
      return s.complete c r.1 r.2

/-- The register invariant (R200). -/
def keepOrder (lanes : LaneMask) (a : AReg) (refused : Word) : Except Stop AReg :=
  if a.ordered then .ok a else raise 0x10 0x08 lanes refused

/-- `aset` (R200). The rule gives its refusals no order: a bound stream is seen before a result out of order (DESIGN CHOICE, log entry
174). -/
def execAset (sel : ASel) (o : AddrOp) (s : State) : Answer :=
  addressOp s o fun _ lanes a x y => do
    if sel ≠ .perm ∧ a.stream.isSome then raise 0x11 0x08 lanes
    match sel with
    | .ptr => keepOrder lanes { a with pointer := x } x
    | .base => keepOrder lanes { a with base := x } x
    | .lim => keepOrder lanes { a with limit := x } x
    | .perm => return { a with perm := x.extractLsb' 0 4 }
    | .rgn =>
      if 2 ^ 64 ≤ x.toNat + y.toNat then raise 0x10 0x08 lanes x
      return { a with base := x, pointer := x, limit := x + y }

/-- `aadv` (R201). The refusals stand in the order of `aset` (log entry 174), and the refused value that 0x10 subcode 0x08 gives is the new
pointer modulo 2^64 (DESIGN CHOICE, log entry 175). -/
def execAadv (o : AddrOp) (s : State) : Answer :=
  addressOp s o fun _ lanes a x _ => do
    if a.stream.isSome then raise 0x11 0x08 lanes
    let p : Int := a.pointer.toNat + x.toInt
    if p < a.base.toNat ∨ (a.limit.toNat : Int) < p ∨ p < 0 ∨ 2 ^ 64 ≤ p then raise 0x10 0x08 lanes (BitVec.ofInt 64 p)
    return { a with pointer := BitVec.ofInt 64 p }

/-- The stream a descriptor of eight words describes (R204, R205), when it is accepted. -/
def streamFrom (d : Nat → Word) (pointer : Word) : Option Stream :=
  let lo (x : Word) : Nat := (x.extractLsb' 0 32).toNat
  let hi (x : Word) : Nat := (x.extractLsb' 32 32).toNat
  let t : Stream :=
    { origin := pointer, dims := ((d 0).extractLsb' 4 2).toNat + 1, log2 := ((d 0).extractLsb' 0 3).toNat
      n := [lo (d 1), hi (d 1), lo (d 2), hi (d 2)], t := [(d 3).toInt, (d 4).toInt, (d 5).toInt, (d 6).toInt]
      i := [0, 0, 0, 0], e := 0, done := false }
  if (d 0) >>> 6 = 0 ∧ (d 0).getLsbD 3 = false ∧ d 7 = 0 ∧ t.sound pointer = true then some t else none

/-- The stream eight scalars describe. -/
def streamOf (w : Warp) (k : Nat) (pointer : Word) : Option Stream := streamFrom (fun i => w.sreg (k + i)) pointer

/-- `abind` (R204, R205). The refused value that 0x10 subcode 0x0A gives is the first scalar, whichever word is bad (DESIGN CHOICE, log
entry 176). -/
def execAbind (o : AddrOp) (s : State) : Answer :=
  addressOp s { o with x := .zero, y := .zero } fun c lanes a _ _ => do
    let k := match o.x with | .reg k => k | _ => 0
    if !a.perm.getLsbD 0 then raise 0x11 0x0B lanes
    match streamOf c.w k a.pointer with
    | some t => return { a with stream := some t }
    | none => raise 0x10 0x0A lanes (c.w.sreg k)

/-- `aunbind` (R205). -/
def execAunbind (o : AddrOp) (s : State) : Answer :=
  addressOp s o fun _ _ a _ _ => .ok { a with stream := none }

/-- A field of an address register (R202). -/
def AReg.field (a : AReg) : AGetSel → Word
  | .ptr => a.pointer
  | .base => a.base
  | .lim => a.limit
  | .perm => BitVec.ofNat 64 (a.perm.toNat + (if a.stream.isSome then 16 else 0))
  | .runlo => match a.run with | some r => BitVec.ofNat 64 r.lo | none => 0
  | .runhi => match a.run with | some r => BitVec.ofNat 64 r.hi | none => 0
  | .strm => match a.stream with
    | some t => BitVec.ofNat 64 (t.log2 * 128 + (t.dims - 1) * 32 + (if t.done then 16 else 0) + t.e.toNat)
    | none => 0
  | .org => match a.stream with | some t => t.origin | none => 0

/-- `aget` (R202). -/
def execAget (sel : AGetSel) (o : AddrOp) (s : State) : Answer :=
  s.run fun c =>
    let r := scalarResult c.w o.d (if c.once o.g then some ((c.w.areg o.a).field sel) else none)
    .ok (s.complete c r.1 r.2)

/-- The run a resident page gives (R198): the whole page, never the longer stretch that the rule also lets the TLB report (DESIGN CHOICE, log
entry 171). A peer that cannot be reached gives none. -/
def State.runAt (s : State) (part a : Nat) : Option Run :=
  match s.placeUnified part a 1 a, (s.parts.get? part).bind fun pt => s.pageOf pt.pasid a with
  | .ok _, some p =>
    let p := (s.iommu.find? fun q => (s.parts.get? part).any fun pt => pageCovers q pt.pasid a).getD p
    some ⟨p.va, p.va + p.size, p.space, p.pa⟩
  | _, _ => none

/-- `atrn` (R203): an SRAM address has no translation and leaves no cached run. -/
def execAtrn (o : AddrOp) (s : State) : Answer :=
  s.run fun c =>
    if !c.once o.g then .ok (s.skip c)
    else
      let a := c.w.areg o.a
      let run := if windowOf a.pointer.toNat = .unified then s.runAt c.env.part a.pointer.toNat else none
      .ok (s.complete c (c.w.setAreg o.a { a with run := run }) .none)

/-- The advance of a stream (R206). -/
def Stream.advance (t : Stream) : Stream := go 4 0 0 t
where
  go : Nat → Nat → BitVec 4 → Stream → Stream
    | 0, _, e, t => finish e true t
    | fuel + 1, d, e, t =>
      if t.dims ≤ d then finish e true t
      else if nth t.i d 0 + 1 = nth t.n d 0 then go fuel (d + 1) (e ||| (1 <<< d)) { t with i := t.i.set d 0 }
      else finish e false { t with i := t.i.set d (nth t.i d 0 + 1) }
  finish (e : BitVec 4) (carry : Bool) (t : Stream) : Stream :=
    if carry then { t with e := 0b1111, done := true } else { t with e := e }

/-- The pointer of a stream's position (R206). -/
def Stream.position (t : Stream) : Word :=
  t.origin + BitVec.ofInt 64 (((List.range t.dims).map fun d => ((nth t.i d 0 : Nat) : Int) * nth t.t d 0).sum)

/-- A bound register after its position is consumed. -/
def AReg.advanced (a : AReg) : AReg :=
  match a.stream with
  | none => a
  | some t => let t := t.advance; { a with stream := some t, pointer := t.position }

end Sys2Proof.Machine
end

