-- ==== Sys2Proof/Machine/Access.lean ====
section
/-! DEFINITION. An access through an address register: its lanes' addresses and the checks they pass (spec/13 R313, R314), the waits
before it (R297, R333), the register's cached run (R198), and a lane's view of its own stores (R318). -/
namespace Sys2Proof.Machine

/-- Bytes of an access (R313, R372). -/
def accessBytes : Fmt → Nat
  | .i8 => 1 | .i16 => 2 | .i64 | .f64 => 8 | .b128 => 16 | _ => 4

/-- A scalar read as a signed number of 32 bits. -/
def signed32 (x : Word) : Int := (x.extractLsb' 0 32).toInt

/-- The lane term (R313). -/
def laneTerm (m : LaneMode) (size l : Nat) (x : Word) : Int :=
  match m with
  | .linear => l * size
  | .offset => signed32 x
  | .index => signed32 x * size

/-- One access: its lane and its exact address. -/
abbrev Aim := Nat × Int

/-- Every access passes a step before any meets the next; the lanes that fail form the lane mask, or the acting lanes of an instruction
that acts once (`whole`), and the lowest of them gives cause and address (R314, R452). -/
def stepAll (whole : Option LaneMask) (xs : List Aim) (f : Int → Except Refused β) : Except Stop (List β) :=
  let failed := xs.filter fun x => match f x.2 with | .ok _ => false | .error _ => true
  match failed with
  | [] => .ok (xs.filterMap fun x => match f x.2 with | .ok b => some b | .error _ => none)
  | x :: _ =>
    let lanes := whole.getD (maskOf fun l => failed.any (·.1 == l))
    match f x.2 with
    | .error (c, sub) => raise c sub lanes (BitVec.ofInt 64 x.2)
    | .ok _ => .ok []

/-- Step 1 of R314: rd and wr. -/
def checkRights (a : AReg) (rd wr : Bool) (whole : Option LaneMask) (xs : List Aim) : Except Stop Unit := do
  let _ ← stepAll whole xs fun _ =>
    if rd && !a.perm.getLsbD 0 then .error (0x11, 0x00)
    else if wr && !a.perm.getLsbD 1 then .error (0x11, 0x01)
    else (.ok () : Except Refused Unit)

/-- Alignment of an access to its size; `sub` is the subcode of 0x14 (R321, R372, R394). -/
def checkAligned (size sub : Nat) (whole : Option LaneMask) (xs : List Aim) : Except Stop Unit := do
  let _ ← stepAll whole xs fun ea => if ea % size ≠ 0 then .error (0x14, sub) else (.ok () : Except Refused Unit)

/-- Steps 2 to 6 of R314, giving each lane's address and pieces. -/
def checkRange (s : State) (e : Env) (a : AReg) (rd wr : Bool) (size : Nat) (whole : Option LaneMask) (xs : List Aim) :
    Except Stop (List (Nat × Nat × List Piece)) := do
  let _ ← stepAll whole xs fun ea =>
    if ea < a.base.toNat ∨ (a.limit.toNat : Int) < ea + size then .error (0x10, 0x00) else (.ok () : Except Refused Unit)
  let _ ← stepAll whole xs fun ea => placeAccess ea.toNat size
  let _ ← stepAll whole xs fun ea =>
    if windowOf ea.toNat ≠ .unified ∧ a.perm.getLsbD 3 = false then .error (0x11, 0x02) else (.ok () : Except Refused Unit)
  let ps ← stepAll whole xs fun ea => s.placeAll e ea.toNat size
  let _ ← stepAll whole xs fun ea => do
    permitted rd wr (a.perm.getLsbD 2) (← s.placeAll e ea.toNat size)
    if wr && s.inArguments e ea.toNat size then .error (0x11, 0x11) else .ok ()
  return xs.zip ps |>.map fun x => (x.1.1, x.1.2.toNat, x.2.map (·.piece))

/-- The waits of a thread access: a clear presence bit, then a line a barge owns (R297, R333). -/
def waitLines (s : State) (xs : List (Nat × Nat × List Piece)) : Except Stop Unit :=
  if xs.any fun x => x.2.2.any s.lineAbsent then .error (.park .presence)
  else if xs.any fun x => x.2.2.any s.lineOwned then .error (.park .recall)
  else .ok ()

/-- The cached run of a register after accesses (R198). The spec gives the lanes of one access no order here: they are taken in ascending
order, so the run of the highest lane that leaves the standing run remains (DESIGN CHOICE, log entry 172). -/
def State.cachedRun (s : State) (part : Nat) (a : AReg) (xs : List (Nat × Nat × List Piece)) : AReg :=
  xs.foldl (fun a x =>
    let inside := match a.run with | some r => r.lo ≤ x.2.1 && x.2.1 < r.hi | none => false
    if windowOf x.2.1 ≠ .unified ∨ inside = true then a
    else match s.runAt part x.2.1 with
      | some r => { a with run := some r }
      | none => a) a

/-- Poison an access consumes (R301): subcode 0x03 for a completion synthesised for a peer that is gone, 0x00 for a poisoned sector. -/
def State.poisonOf (s : State) (ps : List Piece) : Option Nat :=
  match ps.find? fun p => s.poisoned p || (match p.peer with | some m => !s.peerReachable m | none => false) with
  | some p => some (match p.peer with | some m => if s.peerReachable m then 0 else 3 | none => 0)
  | none => none

/-- An access is ordered after a sequentially consistent store of its lanes (R358 c), and a sequentially consistent one is a fence first
(R358 d): it waits for what its lanes have done. -/
def checkSc (s : State) (c : Ctx) (e : MExt) (lanes : LaneMask) : Except Stop Unit :=
  if s.scOpen c.wid lanes || (e.ord == .sc && !s.releasable c.wid lanes e.mask) then .error (.park .fence) else .ok ()

/-- The fence before a sequentially consistent access (R358 d). -/
def State.scFence (s : State) (c : Ctx) (e : MExt) : State := if e.ord = .sc then s.fenceAt (coreOf c.wid) .sc e.mask else s

/-- A store issues: its pieces join the queue in ascending lane order, each with its lanes (R318, R349 a). -/
def State.enqueue (s : State) (c : Ctx) (lanes : LaneMask) (xs : List (LaneMask × Piece × List Byte)) (e : MExt) : State :=
  let ps := xs.map (·.2.1)
  let s := s.noteWrite c.bid ps
  let interval := (s.parts.get? c.env.part).elim 0 (·.ck.current)
  { s with stores := s.stores ++ (xs.zip (clearing ps ps)).map fun x =>
      ⟨c.wid, c.bid, c.lid, c.env.part, none, x.1.1, lanes, c.w.retired, x.1.2.1, x.1.2.2, e.ord, e.mask, interval, x.2, false, []⟩ }

end Sys2Proof.Machine
end

