-- ==== Sys2Proof/Machine/LoadStore.lean ====
section
/-! DEFINITION. Loads, stores, stream reads, address-register transfers and line hints (spec/13), with the two events that end them:
data returned to a load, and a store performed. -/
namespace Sys2Proof.Machine

/-! ### Addresses -/

/-- The accesses of a per-lane instruction: its present acting lanes (R313, R314). -/
def laneAims (c : Ctx) (o : Mem) (m : LaneMode) : List Aim :=
  let x := if m = .linear then [] else readVec c.w c.p .i32 o.x
  (lanesOf (c.real o.g)).map fun l =>
    (l, (c.w.areg o.a).pointer.toNat + o.e.off + laneTerm m (accessBytes o.fmt) l (atLane x l))

/-- The one access of an instruction that acts once: its lowest acting lane stands for the path. -/
def onceAim (c : Ctx) (g : Guard) (a : AReg) (off : Int) : List Aim :=
  if c.once g then [((lanesOf (c.real g)).headD 0, a.pointer.toNat + off)] else []

/-- The lane term of `lds` and `sts` (R319). -/
def onceTerm (c : Ctx) (indexed : Bool) (x : Src) : Int := if indexed then (readSca c.w c.p x).toInt else 0

/-! ### Loads (R316, R319 to R321) -/

/-- A load that has passed its checks issues and awaits its data. -/
def issueLoad (s : State) (c : Ctx) (o : Mem) (shape : LoadShape) (act : LaneMask) (xs : List (Nat × Nat × List Piece))
    (stream : Option Nat) (reserve : Nat) : Except Stop State := do
  waitLines s xs
  checkSc s c o.e act
  let w := c.w.setAreg o.a (s.cachedRun c.env.part (c.w.areg o.a) xs)
  return ((s.scFence c o.e).translated c.env (xs.map (·.2.1))).awaits c w .live (.load ⟨shape, o.d, o.fmt, o.uns, act, o.e.mask, xs, o.e.ord, [], [], stream⟩) reserve

/-- The checks of a load's range and, where the instruction acts once, its lane mask. -/
def loadRange (s : State) (c : Ctx) (o : Mem) (whole : Option LaneMask) (size : Nat) (xs : List Aim) :
    Except Stop (List (Nat × Nat × List Piece)) := do
  let ys ← checkRange s c.env (c.w.areg o.a) true false size whole xs
  watch s c true false whole ys
  return ys

/-- `ld` (R316). -/
def execLd (m : LaneMode) (o : Mem) (s : State) : Answer :=
  s.run fun c => do
    checkOperands c o.g o.d o.fmt (if m = .linear then [] else [(.vec .i32, o.x)])
    let act := c.act o.g
    if act = 0 then
      let r := vectorResult c.w o.d o.fmt 0 fun _ => 0
      return s.complete c r.1 r.2
    let xs := laneAims c o m
    checkRights (c.w.areg o.a) true false none xs
    let ys ← loadRange s c o none (accessBytes o.fmt) xs
    issueLoad s c o .lanes act ys none 0

/-- `lds` (R319). -/
def execLds (indexed : Bool) (o : Mem) (s : State) : Answer :=
  s.run fun c => do
    checkOperands c o.g o.d .none (if indexed then [(.sca, o.x)] else [])
    if !c.once o.g then
      let r := scalarResult c.w o.d none
      return s.complete c r.1 r.2
    let whole := some (c.real o.g)
    let xs := onceAim c o.g (c.w.areg o.a) (o.e.off + onceTerm c indexed o.x)
    checkRights (c.w.areg o.a) true false whole xs
    let ys ← loadRange s c o whole (accessBytes o.fmt) xs
    issueLoad s c o .scalar (c.real o.g) ys none 0

/-- The place of a stream's position, as the logbook names it (R524 POS). -/
def Stream.place (t : Stream) : Nat :=
  (nth t.i 0 0 + nth t.n 0 0 * (nth t.i 1 0 + nth t.n 1 0 * (nth t.i 2 0 + nth t.n 2 0 * nth t.i 3 0))) % 2 ^ 40

/-- Whether a path waits at an `sread` for its turn in the replay order. -/
def Warp.waitsAtStream (w : Warp) (i : Nat) : Bool :=
  (w.path i).state == .parked .monitor && (w.path i).await.isNone && wordOp (unitOf (w.path i) none).word == 0x74

/-- No unparked path but the issuing one is left, and replay's head is another position: the path that issued longest ago diverges
(R528 POS). -/
def streamStuck (s : State) (c : Ctx) (e : ReplayEntry) : Except Stop State :=
  let others := (List.range 16).filter fun i => i != c.pidx && c.w.waitsAtStream i
  let oldest := others.foldl (fun (b : Nat) i => if ((c.w.path i).last.getD 0) < ((c.w.path b).last.getD 0) then i else b) c.pidx
  let data := BitVec.ofNat 64 e.index
  if oldest = c.pidx then raise 0x60 0 c.p.mask data
  else .ok ((s.park c .monitor).takeTrap c.wid oldest ⟨0x60, 0, data, (c.w.path oldest).mask⟩ (unitOf (c.w.path oldest) none))

/-- What the determinism mode makes of an `sread` (R207, R524, R528): the entries it reserves, or the state it stops in. -/
def choosePosition (s : State) (c : Ctx) (lanes : LaneMask) (t : Stream) : Except Stop (Nat ⊕ State) :=
  match c.la.det with
  | 0 => .ok (.inl 0)
  | 1 => do
    needRoom s c lanes 1
    return .inl 1
  | 2 =>
    match s.replayHead c.env.part c.lid fun e => e.kind == 7 && e.block == c.blk.linear && e.warp == c.w.index with
    | none => replayEmpty s c lanes
    | some e =>
      if e.key = choiceKey (c.la.word 1) c.p.pc ∧ e.value = t.place then .ok (.inl 0)
      else if c.w.unparked = 1 then do return .inr (← streamStuck s c e)
      else .error (.park .monitor)
  | _ => .ok (.inl 0)

/-- The accesses of `sread` (R320): one of the path, or one for each lane. -/
def streamAims (c : Ctx) (o : Mem) (vec : Bool) : List Aim :=
  if vec then (lanesOf (c.real o.g)).map fun l => (l, (c.w.areg o.a).pointer.toNat + (l * accessBytes o.fmt : Nat))
  else onceAim c o.g (c.w.areg o.a) 0

/-- `sread` (R320). -/
def execSread (vec : Bool) (o : Mem) (s : State) : Answer :=
  s.run fun c => do
    checkOperands c o.g o.d (if o.d.cls = .vector then o.fmt else .none) []
    let act := c.act o.g
    if !c.once o.g then
      let r := if o.d.cls = .vector then vectorResult c.w o.d o.fmt 0 fun _ => 0 else scalarResult c.w o.d none
      return s.complete c r.1 r.2
    let a := c.w.areg o.a
    let lanes := c.real o.g
    if c.la.det = 3 ∧ 1 < c.w.unparked then raise 0x62 0 lanes
    let whole := if vec then none else some lanes
    let xs := streamAims c o vec
    checkRights a true false whole xs
    match a.stream with
    | none => raise 0x11 0x03 lanes (BitVec.ofInt 64 ((xs.head?.map (·.2)).getD 0))
    | some t =>
      if t.done then raise 0x10 0x09 lanes a.pointer
      if 2 ^ t.log2 ≠ accessBytes o.fmt then raise 0x10 0x0C lanes a.pointer
      let ys ← loadRange s c o whole (accessBytes o.fmt) xs
      waitLines s ys
      match ← choosePosition s c lanes t with
      | .inr s' => return s'
      | .inl n =>
        let shape := if vec then .lanes else if o.d.cls = .vector then .uniform else .scalar
        issueLoad s c o shape act ys (some o.a) n

/-- `lda` (R321). -/
def execLda (o : Mem) (s : State) : Answer :=
  s.run fun c => do
    if !c.once o.g then
      let r := addressResult c.w o.d none
      return s.complete c r.1 r.2
    let whole := some (c.real o.g)
    let xs := onceAim c o.g (c.w.areg o.a) o.e.off
    checkRights (c.w.areg o.a) true false whole xs
    checkAligned 32 1 whole xs
    let ys ← loadRange s c o whole 32 xs
    issueLoad s c o .address (c.real o.g) ys none 0

/-! ### Data returned -/

/-- A value of `size` bytes as a lane or a scalar takes it (R316, R319): 8- and 16-bit values extended, and 32-bit values where the
destination is 64 bits wide. -/
def extendLoad (f : Fmt) (uns wide : Bool) (v : Nat) : Word :=
  let e := elemBits f
  if e < 32 ∨ (e = 32 ∧ wide = true) then if uns then BitVec.ofNat 64 v else BitVec.ofInt 64 (BitVec.ofNat e v).toInt
  else BitVec.ofNat 64 v

/-- Writes a `.b128` result in lanes of four registers; its place keeps the lower 64 bits (R140, R217). -/
def vectorResult128 (w : Warp) (d : Dst) (m : LaneMask) (x : Nat → Nat) : Warp × Place :=
  let put (w : Warp) (k : Nat) : Warp :=
    w.setVreg (d.idx + k) fun l => if m.getLsbD l then some (BitVec.ofNat 32 (x l / 2 ^ (32 * k))) else none
  let w' := if d.wb then [0, 1, 2, 3].foldl put w else w
  let after := if d.wb then w'.vecValue .b128 d.idx else []
  (w', .vector (laneIndices.map fun l => if m.getLsbD l then BitVec.ofNat 64 (x l) else nth after l 0))

/-- What has been read, access by access: its lane, its address, its bytes as a number, and the poison of its first poisoned piece. -/
def regroup : List (Nat × Nat × List Piece) → List (List Byte × Option Nat) → List (Nat × Nat × Nat × Option Nat)
  | [], _ => []
  | x :: r, got =>
    let mine := got.take x.2.2.length
    (x.1, x.2.1, leNat (mine.flatMap (·.1)), mine.findSome? (·.2)) :: regroup r (got.drop x.2.2.length)

/-- The trap of a load whose data carries poison (R301, R316): the lanes that consume it, the lowest one's address. -/
def poisonTrap (whole : Option LaneMask) (xs : List (Nat × Nat × Nat × Option Nat)) : Option Trap :=
  let bad := xs.filter (·.2.2.2.isSome)
  match bad with
  | [] => none
  | x :: _ => some ⟨0x51, x.2.2.2.getD 0, BitVec.ofNat 64 x.2.1, whole.getD (maskOf fun l => bad.any (·.1 == l))⟩

/-- An address register from its image (R321). -/
def aregOfImage (v : Nat) : AReg :=
  let word (k : Nat) : Word := BitVec.ofNat 64 (v / 2 ^ (64 * k))
  ⟨word 0, word 1, word 2, BitVec.ofNat 4 (v / 2 ^ 192), none, none⟩

/-- The destination of a load once its data is there (R316, R319, R320). -/
def loadResult (w : Warp) (r : LoadReq) (vs : NMap Nat) : Warp × Place :=
  let one := (vs.head?.map (·.2)).getD 0
  let lane (l : Nat) : Nat := if r.shape = .uniform then one else vs.getD l 0
  match r.shape with
  | .scalar => scalarResult w r.d (some (extendLoad r.fmt r.uns true one))
  | .address => addressResult w r.d (some (aregOfImage one))
  | _ =>
    if r.fmt = .b128 then vectorResult128 w r.d r.acting lane
    else vectorResult w r.d r.fmt r.acting fun l => extendLoad r.fmt r.uns false (lane l)

/-- The stream's position is consumed and its choice recorded (R206, R320, R524, R527). -/
def consumePosition (s : State) (c : Ctx) (k : Nat) : State × Warp :=
  let w := c.w.setAreg k (c.w.areg k).advanced
  match (c.w.areg k).stream, c.la.det with
  | some t, 1 =>
    (s.logChoice c.env.part c.lid c.bid true 7 none c.w.index c.blk.linear (choiceKey (c.la.word 1) c.p.pc) t.place, w)
  | some _, 2 =>
    match s.replayHead c.env.part c.lid fun e => e.kind == 7 && e.block == c.blk.linear && e.warp == c.w.index with
    | some e => (s.consume c.env.part c.bid e, w)
    | none => (s, w)
  | _, _ => (s, w)

/-- Whether a load acts once for its path. -/
def LoadReq.whole (r : LoadReq) (present : LaneMask) : Option LaneMask :=
  if r.shape = .lanes then none else some (r.acting &&& present)

/-- The pieces a load has still to read, each with the lanes it is read for. -/
def LoadReq.left (r : LoadReq) (present : LaneMask) : List (LaneMask × Piece) :=
  (r.lanes.flatMap fun x => x.2.2.map fun p => ((r.whole present).getD (maskOf (· == x.1)), p)).drop r.got.length

/-- Reads pieces for a load: their bytes and their poison. -/
def State.readFor (s : State) (wid : Nat) (r : LoadReq) (xs : List (LaneMask × Piece)) : List (List Byte × Option Nat) :=
  xs.map fun x =>
    let view := s.seenBy wid x.1 r.mask
    (view.readPiece x.2, if x.2.peer.any r.lost.contains then some 3 else view.poisonOf [x.2])

/-- A load whose pieces have all been read is complete (R316, R320, R321, R301): poison and a broken image trap. -/
def completeLoad (s : State) (c : Ctx) (r : LoadReq) : State :=
  let xs := regroup r.lanes r.got
  match poisonTrap (r.whole c.w.present) xs with
  | some t => s.answeredTrap c t
  | none =>
    let vs := xs.map fun x => (x.1, x.2.2.1)
    let image := aregOfImage ((vs.head?.map (·.2)).getD 0)
    if r.shape = .address ∧ image.ordered = false then s.answeredTrap c ⟨0x10, 0x08, image.pointer, c.w.present &&& r.acting⟩
    else
      let s := if isAcquire r.ord then s.acquireAt (coreOf c.wid) r.mask else s
      let (s, w) := match r.stream with
        | some k => consumePosition s c k
        | none => (s, c.w)
      let out := loadResult w r vs
      s.answered c out.1 out.2

/-- The next n pieces of a load are read (R316, R320, R321, R349 a): with the last of them the load is complete. -/
def execLoadDataReturn (warp : Nat) (a : PathRead) (s : State) : Answer :=
  match s.awaiting warp a.path with
  | some (c, .load r) =>
    let left := r.left c.w.present
    let xs := left.take a.n
    let ps := xs.map (·.2)
    if (xs.isEmpty && !left.isEmpty) || s.heldFrom (some c.env.part) ps || !(xs.all fun x => s.mayRead warp x.1 [x.2]) then .next s
    else
      let r := { r with got := r.got ++ s.readFor warp r xs }
      let s := (s.noteReads c.env.part ps).sawAt (coreOf warp) r.mask ps
      if (left.drop a.n).isEmpty then .next (completeLoad s c r)
      else .next (s.setPath warp a.path fun p => { p with await := p.await.map fun (a : Pending) => { a with what := .load r } })
  | _ => .next s

/-! ### Stores (R317 to R319, R321) -/

/-- Issues a store: its pieces join the queue. -/
def issueStore (s : State) (c : Ctx) (o : Mem) (lanes : LaneMask) (whole : Bool) (xs : List (Nat × Nat × List Piece))
    (data : Nat → List Byte) : Except Stop State := do
  waitLines s xs
  checkSc s c o.e lanes
  let w := c.w.setAreg o.a (s.cachedRun c.env.part (c.w.areg o.a) xs)
  let writes := xs.flatMap fun x => (cutBytes x.2.2 (data x.1)).map fun y => (if whole then lanes else maskOf (· == x.1), y.1, y.2)
  return ((s.translated c.env (xs.map (·.2.1))).enqueue c lanes writes o.e).complete c w .none

/-- The range checks of a store. -/
def storeRange (s : State) (c : Ctx) (o : Mem) (whole : Option LaneMask) (size : Nat) (xs : List Aim) :
    Except Stop (List (Nat × Nat × List Piece)) := do
  let ys ← checkRange s c.env (c.w.areg o.a) false true size whole xs
  watch s c false true whole ys
  return ys

/-- `st` (R317). -/
def execSt (m : LaneMode) (o : Mem) (s : State) : Answer :=
  s.run fun c => do
    checkOperands c o.g .noDest .none ((if m = .linear then [] else [(.vec .i32, o.x)]) ++ [(.vec o.fmt, o.y)])
    let size := accessBytes o.fmt
    let lanes := c.real o.g
    if lanes = 0 then return s.skip c
    let xs := laneAims c o m
    checkRights (c.w.areg o.a) false true none xs
    let ys ← storeRange s c o none size xs
    let wide := if o.fmt = .b128 then readVec128 c.w o.y else []
    let narrow := if o.fmt = .b128 then [] else readVec c.w c.p o.fmt o.y
    issueStore s c o lanes false ys fun l => leBytes size (if o.fmt = .b128 then (nth wide l 0).toNat else (atLane narrow l).toNat)

/-- `sts` (R319). -/
def execSts (indexed : Bool) (o : Mem) (s : State) : Answer :=
  s.run fun c => do
    checkOperands c o.g .noDest .none ((if indexed then [(.sca, o.x)] else []) ++ [(.sca, o.y)])
    if !c.once o.g then return s.skip c
    let size := accessBytes o.fmt
    let whole := some (c.real o.g)
    let xs := onceAim c o.g (c.w.areg o.a) (o.e.off + onceTerm c indexed o.x)
    checkRights (c.w.areg o.a) false true whole xs
    let ys ← storeRange s c o whole size xs
    issueStore s c o (c.real o.g) true ys fun _ => leBytes size (readSca c.w c.p o.y).toNat

/-- The 32 bytes `sta` writes (R321): no stream state. -/
def AReg.stored (a : AReg) : List Byte := AReg.image { a with stream := none }

/-- `sta` (R321). -/
def execSta (o : Mem) (s : State) : Answer :=
  s.run fun c => do
    if !c.once o.g then return s.skip c
    let whole := some (c.real o.g)
    let xs := onceAim c o.g (c.w.areg o.a) o.e.off
    checkRights (c.w.areg o.a) false true whole xs
    checkAligned 32 1 whole xs
    let ys ← storeRange s c o whole 32 xs
    let k := match o.x with | .reg k => k | _ => 0
    issueStore s c o (c.real o.g) true ys fun _ => (c.w.areg k).stored

/-! ### A store performed (R350, R353) -/

/-- The n-th store of the queue is performed, and is visible to some cores; a number past the queue names a write that not every core
sees, which comes to more cores (R350). -/
def execStorePerformed (a : StoreShow) (s : State) : Answer :=
  match s.stores[a.n]? with
  | none => .next (s.spread (a.n - s.stores.length) a.cores)
  | some t =>
    if s.storeReady a.n && !s.heldFrom (some t.part) [t.piece] && !s.logFull t.block [t.piece] then
      .next ((({ s with stores := s.stores.eraseIdx a.n }.performStore t a.cores).wake .fence).wake .barrier)
    else .next s

/-! ### Hints and the memory-side caches (R299, R300, R322) -/

/-- Lines a die's cache holds: 32 MiB (R3). -/
def cacheLines : Nat := 262144

/-- The die whose cache holds a line of HBM (R299). -/
def lineDie (line : Nat) : Nat := stackOf (128 * line) / 2

/-- A line written back to HBM. -/
def CacheLine.clean (c : CacheLine) : CacheLine := { c with under := none }

/-- Allocates a line with its replacement class; a full cache drops a streaming line, else the lowest not kept, else the lowest. -/
def State.allocate (s : State) (hint line : Nat) : State :=
  if hint = 3 || (s.cache.get? line).isSome then s else
  let mine := s.cache.filter fun x => lineDie x.1 == lineDie line
  let victim := (mine.find? (·.2.hint == 1)).or ((mine.find? (·.2.hint != 2)).or mine.head?)
  let kept := match victim with
    | some v => if cacheLines ≤ mine.length then s.cache.del v.1 else s.cache
    | none => s.cache
  { s with cache := kept.put line ⟨none, hint⟩ }

/-- The line of HBM an access to 128 bytes at an address reaches, when it passes every check of R314 and no presence bit is clear. -/
def hbmLine (s : State) (c : Ctx) (a : AReg) (wr : Bool) (at' : Int) : Option Nat :=
  let x : List Aim := [(0, at')]
  match (do checkRights a (!wr) wr none x; checkRange s c.env a (!wr) wr 128 none x : Except Stop (List (Nat × Nat × List Piece))) with
  | .ok ((_, _, p :: r) :: _) => if p.key < 2 ^ 52 && !((p :: r).any s.lineAbsent) then some (p.key / 128) else none
  | _ => none

/-- The lines a hint names (R322). -/
def hintLines (c : Ctx) (lane : Bool) (o : Mem) : List Int :=
  let line (ea : Int) : Int := ea / 128 * 128
  if lane then (laneAims c { o with fmt := .i8 } .offset).map fun x => line x.2
  else match onceAim c o.g (c.w.areg o.a) o.e.off with
    | [] => []
    | (_, ea) :: _ => (List.range (min 4096 (readSca c.w c.p o.x).toNat)).map fun (i : Nat) => line ea + 128 * (i : Int)

/-- `pf`, `wback`, `inv`: they change no value an agent can read, raise no trap of an access, and never wait (R322). -/
def hint (lane wr : Bool) (act : State → Nat → State) (o : Mem) (s : State) : Answer :=
  s.run fun c => do
    checkOperands c o.g .noDest .none [(if lane then .vec .i32 else .sca, o.x)]
    let lines := (hintLines c lane o).filterMap (hbmLine s c (c.w.areg o.a) wr)
    return (lines.foldl act s).skip c

def execPf (lane : Bool) (o : Mem) (s : State) : Answer := hint lane false (fun s l => s.allocate o.e.hint l) o s
def execWback (lane : Bool) (o : Mem) (s : State) : Answer :=
  hint lane true (fun s l => { s with cache := s.cache.adjust l CacheLine.clean }) o s
def execInv (lane : Bool) (o : Mem) (s : State) : Answer := hint lane true (fun s l => { s with cache := s.cache.del l }) o s

end Sys2Proof.Machine
end

