-- ==== Sys2Proof/Machine/Region.lean ====
section
/-! DEFINITION. Exact accumulation regions (spec/14 R336, R337). -/
namespace Sys2Proof.Machine

/-- A region as its header describes it: where the header lies, the anchor and the cell count. -/
structure Region where
  base   : Nat
  header : List Piece
  anchor : Int
  cells  : Nat
deriving DecidableEq, Repr

/-- Why a region cannot be used. -/
inductive RegionFault where
  | invalid
  | foreign
  | refused (cause sub : Nat)
  | poisoned
deriving DecidableEq, Repr

/-- Whether a piece lies behind a host port. -/
def Piece.foreign (p : Piece) : Bool := p.host.isSome

/-- Whether 32 bytes are a valid header (R336, R337). -/
def headerValid (bs : List Byte) : Bool :=
  fieldAt bs 0 4 == 0x43524558 && (-160 ≤ intAt bs 4 2 && intAt bs 4 2 ≤ 127) && fieldAt bs 6 2 == 0
    && 1 ≤ fieldAt bs 8 4 && fieldAt bs 8 4 ≤ 2 ^ 24 && fieldAt bs 12 4 == 0 && fieldAt bs 16 8 < 8 && fieldAt bs 24 8 == 0

/-- The region whose header stands at an address. -/
def State.regionAt (s : State) (e : Env) (a : Nat) : Except RegionFault Region :=
  if a % 32 ≠ 0 then .error .invalid
  else match s.checkPlain e a 32 true false with
  | .error (c, sub) => .error (.refused c sub)
  | .ok ps =>
    if ps.any Piece.foreign then .error .foreign
    else if ps.any s.poisoned then .error .poisoned
    else
      let bs := s.readPieces ps
      if headerValid bs then .ok ⟨a, ps, intAt bs 4 2, fieldAt bs 8 4⟩ else .error .invalid

/-- The address of a cell. -/
def Region.cell (r : Region) (i : Nat) : Nat := r.base + 32 + 16 * i

/-- ORs flags into a header. -/
def State.orRegionFlags (s : State) (bid : Nat) (r : Region) (fl : Nat) : State :=
  if fl = 0 then s
  else match r.header with
    | p :: _ =>
      let old := leNat (s.mem.bytes (p.key + 16) 8)
      let q : Piece := { p with key := p.key + 16, len := 8, va := p.va + 16 }
      (s.track bid [q]).writePiece q (leBytes 8 (old ||| fl))
    | [] => s

/-- q of R337 for an element, with its flags: none for NaN and infinity. -/
def regionTerm (anchor : Int) (x : FVal) : Option Int × Nat :=
  match x with
  | .fin neg m e =>
    let (n, exact) := scaleDown m (e - anchor)
    let q : Int := if neg then -(n : Int) - (if exact then 0 else 1) else n
    (some q, (if exact then 0 else 1) + (if q < -(2 ^ 127) ∨ 2 ^ 127 ≤ q then 2 else 0))
  | _ => (none, 4)

/-- Adds an element into a cell. -/
def State.addCell (s : State) (bid : Nat) (r : Region) (cell : Piece) (x : FVal) : State :=
  let (q, fl) := regionTerm r.anchor x
  let s := match q with
    | none => s
    | some q =>
      let old := (BitVec.ofNat 128 (leNat (s.readPiece cell))).toInt
      (s.track bid [cell]).writePiece cell (leBytes 16 (BitVec.ofInt 128 (old + q)).toNat)
  s.orRegionFlags bid r fl

end Sys2Proof.Machine
end

