-- ==== Sys2Proof/Machine/Atomic.lean ====
section
/-! DEFINITION. Atomics and the lockkeepers (spec/16): the instructions send requests; a lockkeeper applies them; the results return. -/
namespace Sys2Proof.Machine

/-! ### Homes (R365) -/

/-- The core group of an HBM location's home. -/
def hbmHome (pa : Nat) : Nat := 4 * (stackOf pa / 2) + pa / 2 ^ 7 % 4

/-- The home lockkeeper of a location by its key of memory: core group g of this device is g, that of device m is 32 * (m + 1) + g. -/
def homeOfKey (key : Nat) : Nat :=
  if 2 ^ 64 ≤ key then 32 * ((key - 2 ^ 64) / 2 ^ 52 + 1) + hbmHome (key % 2 ^ 52)
  else if isSram key then (key - 2 ^ 60) / 2 ^ 21 / 16 else hbmHome key

/-- The home lockkeeper of a piece. -/
def homeOf (p : Piece) : Nat := homeOfKey p.key

/-- The pair of a source core and a home. -/
def pairKey (core home : Nat) : Nat := core * 2 ^ 16 + home

/-- The sequence state of a pair; the first number given is 1. -/
def State.pairOf (s : State) (key : Nat) : LockPair := s.lockPairs.getD key ⟨0, 0, []⟩

/-- The requests of a pair that have been sent and not executed (R369). -/
def LockPair.outstanding (p : LockPair) : Nat := (p.issued + 2 ^ 16 - p.executed) % 2 ^ 16

/-- Whether an earlier request of a pair still waits at its source. -/
def State.pairWaits (s : State) (core home : Nat) : Bool :=
  s.warps.any fun w => coreOf w.1 == core && w.2.paths.any fun p => match p.await with
    | some ⟨.atomic r, _, _, _⟩ => !r.stands && r.todo.any fun t => homeOf t.piece == home && (r.seqs.get? home).isNone
    | _ => false

/-- A request of a home is sent and takes its number. -/
def State.giveNumber (s : State) (core home : Nat) : State × Nat :=
  let p := s.pairOf (pairKey core home)
  let n := (p.issued + 1) % 2 ^ 16
  ({ s with lockPairs := s.lockPairs.put (pairKey core home) { p with issued := n } }, n)

/-- Gives each home that lanes name its request's sequence number, unless 64 requests of the pair are outstanding (R369). -/
def State.giveNumbers (s : State) (core : Nat) (homes : List Nat) : State × NMap Nat :=
  homes.foldl (fun (s, m) h =>
    if (m.get? h).isSome || 64 ≤ (s.pairOf (pairKey core h)).outstanding || s.pairWaits core h then (s, m) else
      let x := s.giveNumber core h
      (x.1, m.put h x.2)) (s, [])

/-! ### Issue (R371, R372, R375) -/

/-- Operands of an atomic: per lane, or of the path. -/
def atomWant (o : Mem) (df : Fmt) : List (Want × Src) :=
  if o.d.cls = .scalar then [(.sca, o.x), (.sca, o.y)] else [(.vec .i32, o.x), (.vec df, o.y)]

/-- Steps 1 to 7 of R372. -/
def checkAtomic (s : State) (c : Ctx) (a : AReg) (wr : Bool) (size : Nat) (whole : Option LaneMask) (xs : List Aim) :
    Except Stop (List (Nat × Nat × List Piece)) := do
  checkRights a true wr whole xs
  checkAligned size 0 whole xs
  let ys ← checkRange s c.env a true wr size whole xs
  let far := ys.filter fun x => x.2.2.any fun p => p.foreign || (match p.peer with | some m => otherDomain m | none => false)
  match far with
  | x :: _ => raise 0x11 0x12 (whole.getD (maskOf fun l => far.any (·.1 == l))) (BitVec.ofNat 64 x.2.1)
  | [] => pure ()
  watch s c true wr whole ys
  waitLines s ys
  return ys

/-- The accesses of an atomic and what each lane brings: its operand and its second operand. -/
structure AtomPlan where
  xs    : List Aim
  whole : Option LaneMask
  x     : Nat → Word
  y     : Nat → Word

/-- The plan of an atomic of opcode 0x80 or 0x81; a scalar destination makes it one access of the path. -/
def atomPlan (c : Ctx) (o : Mem) (rgn : Bool) : AtomPlan :=
  let base : Int := (c.w.areg o.a).pointer.toNat + o.e.off
  if o.d.cls = .scalar then
    let l := (lanesOf (c.real o.g)).headD 0
    ⟨if c.once o.g then [(l, base + (readSca c.w c.p o.x).toInt)] else [], some (c.real o.g),
      fun _ => readSca c.w c.p o.y, fun _ => c.w.sreg o.d.idx⟩
  else
    let off := readVec c.w c.p .i32 o.x
    let b := readVec c.w c.p (if rgn then .f32 else o.fmt) o.y
    let old := if o.d.cls = .vector then c.w.vecValue o.fmt o.d.idx else []
    let index (l : Nat) : Word := atLane off l
    ⟨(lanesOf (c.real o.g)).map fun l =>
        (l, if rgn then base + 32 + 16 * ((index l).toNat % 2 ^ 32 : Nat) else base + signed32 (index l)), none,
      fun l => atLane b l, fun l => if rgn then index l else nth old l 0⟩

/-- What the determinism mode makes of a plain `atfadd` of n lanes at issue (R378, R525, R526). -/
def admitFloatAdd (s : State) (c : Ctx) (lanes : LaneMask) (ys : List (Nat × Nat × List Piece)) (whole : Option LaneMask) :
    Except Stop Nat :=
  match c.la.det with
  | 0 => .ok 0
  | 3 => .ok 0
  | d =>
    let far := ys.filter fun x => x.2.2.any fun p => p.peer.isSome
    match far with
    | x :: _ => raise 0x11 0x12 (whole.getD (maskOf fun l => far.any (·.1 == l))) (BitVec.ofNat 64 x.2.1)
    | [] => if d = 1 then do
        needRoom s c lanes (2 * ys.length)
        return 2 * ys.length
      else .ok 0

/-- Sends the requests of an atomic: each home's request takes its number, and the path awaits the answers (R368, R369, R451). -/
def sendRequests (s : State) (c : Ctx) (op : AtomOp) (d : Dst) (f : Fmt) (e : MExt) (acting : LaneMask) (header : Int)
    (todo : List AtomLane) (aims : NMap Nat) (st : PathState)
    (w : Warp) (reserve : Nat) : State :=
  let s := s.noteWrite c.bid (todo.map (·.piece))
  let (s, seqs) := s.giveNumbers (coreOf c.wid) (todo.map fun t => homeOf t.piece)
  s.awaits c w st (.atomic ⟨op, d, f, e.ord, e.mask, acting, header, todo, [], 0, 0, 0, seqs, aims, false, none⟩) reserve

/-- An atomic instruction (R371, R372). -/
def atomic (op : AtomOp) (o : Mem) (s : State) : Answer :=
  s.run fun c => do
    let rgn := op == .rgn
    let df := if rgn then .f32 else o.fmt
    checkOperands c o.g o.d o.fmt (atomWant o df)
    let act := c.act o.g
    let lanes := c.real o.g
    if lanes = 0 then
      let r := match o.d.cls with
        | .scalar => scalarResult c.w o.d none
        | .vector => vectorResult c.w o.d o.fmt act fun _ => 0
        | _ => (c.w, .none)
      return s.complete c r.1 r.2
    if op = .fadd ∧ c.la.det = 3 then raise 0x62 0 lanes
    let plan := atomPlan c o rgn
    let ys ← checkAtomic s c (c.w.areg o.a) true (if rgn then 16 else accessBytes o.fmt) plan.whole plan.xs
    checkSc s c o.e lanes
    let reserve ← if op = .fadd then admitFloatAdd s c lanes ys plan.whole else .ok 0
    let todo := ys.flatMap fun t => t.2.2.map fun p => ⟨t.1, p, plan.x t.1, plan.y t.1⟩
    let w := c.w.setAreg o.a (s.cachedRun c.env.part (c.w.areg o.a) ys)
    return sendRequests ((s.scFence c o.e).translated c.env (ys.map (·.2.1))) c op o.d o.fmt o.e act ((c.w.areg o.a).pointer.toNat + o.e.off) todo
      (ys.map fun t => (t.1, t.2.1)) .live w reserve

def execAtadd (o : Mem) (s : State) : Answer := atomic .add o s
def execAtsub (o : Mem) (s : State) : Answer := atomic .sub o s
def execAtmin (o : Mem) (s : State) : Answer := atomic .min o s
def execAtmax (o : Mem) (s : State) : Answer := atomic .max o s
def execAtminN (o : Mem) (s : State) : Answer := atomic .minu o s
def execAtmaxN (o : Mem) (s : State) : Answer := atomic .maxu o s
def execAtand (o : Mem) (s : State) : Answer := atomic .and o s
def execAtor (o : Mem) (s : State) : Answer := atomic .or o s
def execAtxor (o : Mem) (s : State) : Answer := atomic .xor o s
def execAtswp (o : Mem) (s : State) : Answer := atomic .swp o s
def execAtinc (o : Mem) (s : State) : Answer := atomic .inc o s
def execAtfadd (o : Mem) (s : State) : Answer := atomic .fadd o s
def execAtfaddRgn (o : Mem) (s : State) : Answer := atomic .rgn o s
def execAcas (o : Mem) (s : State) : Answer := atomic .cas o s

/-! ### What a lockkeeper does (R368, R373 to R375, R390) -/

/-- The new value of a location of e bits that holds x (R373, R374, R390); `b` and `n` are the lane's operands. -/
def atomValue (op : AtomOp) (f : Fmt) (x b n : Nat) : Nat :=
  let e := elemBits f
  let sgn (v : Nat) : Int := (BitVec.ofNat e v).toInt
  let b := b % 2 ^ e
  match op with
  | .add | .semp => (x + b) % 2 ^ e
  | .sub | .semw _ => (x + (2 ^ e - b)) % 2 ^ e
  | .min => if sgn b < sgn x then b else x
  | .max => if sgn x < sgn b then b else x
  | .minu => min x b
  | .maxu => max x b
  | .and => x &&& b
  | .or => x ||| b
  | .xor => Nat.xor x b
  | .swp => b
  | .inc => if b ≤ x then 0 else x + 1
  | .fadd => (FSpec.round (fspec f) rneOf (realAdd .rne ((fspec f).decode x) ((fspec f).decode b)).1).1
  | .cas => if x = b then n % 2 ^ e else x
  | .rgn => x

/-- Whether a lane finds its answer poisoned: a poisoned sector, or a peer that is gone (R370, R376). -/
def State.lanePoison (s : State) (t : AtomLane) : Option Nat := s.poisonOf [t.piece]

/-- The region whose header stands at an exact address; an address below zero names none (R375). -/
def State.regionOf (s : State) (e : Env) (a : Int) : Except RegionFault Region :=
  if a < 0 then .error .invalid else s.regionAt e a.toNat

/-- Applies one lane: its read and its write are one access of the requester (R347, R349 b). -/
def applyLane (who : Agent) (bid : Nat) (e : Env) (r : AtomReq) (s : State) (t : AtomLane) : State × AtomReq :=
  let bit := maskOf (· == t.lane)
  match s.lanePoison t with
  | some 0 => (s, { r with poison := r.poison ||| bit })
  | some _ => (s, { r with gone := r.gone ||| bit })
  | none =>
    if r.op = .rgn then
      match s.regionOf e r.header with
      | .ok g =>
        if t.y.toNat % 2 ^ 32 < g.cells then
          (s.addCell bid g t.piece ((fspec .f32).decode (t.x.toNat % 2 ^ 32)), { r with done := r.done.put t.lane 0 })
        else (s, { r with refused := r.refused ||| bit })
      | .error .poisoned => (s, { r with poison := r.poison ||| bit })
      | .error _ => (s, { r with refused := r.refused ||| bit })
    else
      let old := leNat (s.readPiece t.piece)
      ((s.track bid [t.piece]).performAt who everyCore t.piece (leBytes t.piece.len (atomValue r.op r.fmt old t.x.toNat t.y.toNat)),
        { r with done := r.done.put t.lane (BitVec.ofNat 64 old) })

/-- Applies the lanes of one request consecutively (R368). -/
def applyLanes (who : Agent) (bid : Nat) (e : Env) (s : State) (r : AtomReq) (ts : List AtomLane) : State × AtomReq :=
  ts.foldl (fun (s, r) t => applyLane who bid e r s t) (s, r)

/-! ### The order a log keeps and forces (R378, R523, R524, R527 to R529) -/

/-- A location as the logbook names it: a slice byte by its global-window address. -/
def siteOf (home : Nat) (va : Nat) : Nat :=
  match windowOf va with
  | .localSlice => 0x7F0000000000 + home * 2 ^ 21 + (va - 0x7E0000000000)
  | _ => va

/-- The entries of a location that replay still holds for a launch. -/
def State.siteEntries (s : State) (part lid kind site : Nat) : List ReplayEntry :=
  match s.parts.get? part with
  | none => []
  | some pt => pt.replayHeld.filter fun e => e.launch == lid && e.kind == kind && e.site == some site

/-- What replay says of one request's lanes: they go, they are held at the lockkeeper, or a lane is not named in its queue. -/
inductive Turn where
  | go (consumed : List ReplayEntry)
  | hold
  | diverge (index lane : Nat)
deriving DecidableEq, Repr

/-- Whether an entry names a lane of the issuing warp. -/
def ReplayEntry.names (e : ReplayEntry) (c : Ctx) (key value : Nat) : Bool :=
  e.block == c.blk.linear && e.warp == c.w.index && e.key == key && e.value == value

/-- The turn of a party in a queue (R527, R528): its head names it; another entry does; none does, and none can come. -/
def queueTurn (s : State) (c : Ctx) (key value lane : Nat) (q : List ReplayEntry) : Turn :=
  match q.find? (·.names c key value) with
  | some e => if q.head? = some e then .go [e] else .hold
  | none =>
    if s.replayDry c.env.part then .diverge ((q.head?.map (·.index)).getD (s.soughtAt c.env.part)) lane else .hold

/-- The turn of a request of plain `atfadd` lanes in replay: its lanes are applied consecutively (R368), so each must be next at its
location, those before it consumed; a lane no entry can name any more diverges whatever the others wait for. -/
def floatAddTurn (s : State) (c : Ctx) (ts : List AtomLane) : Turn :=
  ts.foldl (fun turn t =>
    let used := match turn with | .go used => used | _ => []
    let q := (s.siteEntries c.env.part c.lid 3 (siteOf c.env.home t.piece.va)).filter fun e => !used.contains e
    match turn, queueTurn s c (choiceKey (c.la.word 1) c.p.pc) t.lane t.lane q with
    | .diverge i l, _ => .diverge i l
    | _, .diverge i l => .diverge i l
    | .go used, .go e => .go (used ++ e)
    | _, _ => .hold) (.go [])

/-- Logs the lanes of a request in the order in which they are applied. -/
def logLanes (s : State) (c : Ctx) (ts : List AtomLane) : State :=
  let s := s.spend c.env.part c.wid c.pidx (2 * ts.length)
  ts.foldl (fun s t => s.logChoice c.env.part c.lid c.bid true 3 (some (siteOf c.env.home t.piece.va)) c.w.index c.blk.linear
    (choiceKey (c.la.word 1) c.p.pc) t.lane) s

/-! ### Requests executed, results returned -/

/-- The next request of an atomic: its first waiting lane's home and every waiting lane of that home. -/
def AtomReq.request (r : AtomReq) : Option (Nat × List AtomLane) :=
  match r.todo with
  | [] => none
  | t :: _ => let h := homeOf t.piece; some (h, r.todo.filter fun u => homeOf u.piece == h)

/-- The key of a request among those that become executable at a home in one cycle: source core, quarter, lowest lane (R367). -/
def requestKey (wid : Nat) (ts : List AtomLane) : Nat := quarterOf wid * 32 + (ts.head?.map (·.lane)).getD 0

/-- Whether a home has executed no request of a higher key in this cycle; one that comes later becomes executable in the next (R367). -/
def State.lockTurn (s : State) (home key : Nat) : Bool :=
  match s.lockLast.get? home with
  | some (cycle, k) => cycle != s.cycle || k ≤ key
  | none => true

/-- Whether a request is the next of its pair (R369), and the earlier writes of its lanes it must follow have been performed (R353, R357). -/
def State.requestNext (s : State) (c : Ctx) (r : AtomReq) (home : Nat) (ts : List AtomLane) : Bool :=
  r.seqs.get? home == some (((s.pairOf (pairKey (coreOf c.wid) home)).executed + 1) % 2 ^ 16)
    && !(s.stores.any fun t => t.ofLanes c.wid c.bid r.acting && (isRelease r.ord || ts.any fun u => t.piece.meets u.piece))
    && !s.onItsWay (ts.map (·.piece)) && (!isRelease r.ord || s.peersDone (.lane (coreOf c.wid)) r.mask)

/-- Whether a request may be executed now: nothing holds it at its home, and its key lets it be applied in this cycle. -/
def State.requestReady (s : State) (c : Ctx) (r : AtomReq) (home : Nat) (ts : List AtomLane) : Bool :=
  s.requestNext c r home ts && !s.heldFrom (some c.env.part) (ts.map (·.piece)) && !s.logFull c.bid (ts.map (·.piece))
    && s.lockTurn home (requestKey c.wid ts)

/-- An awaited atomic as it now stands. -/
def State.setAtomic (s : State) (c : Ctx) (r : AtomReq) : State :=
  s.setPath c.wid c.pidx fun q => { q with await := q.await.map fun (a : Pending) => { a with what := .atomic r } }

/-- A request's number is the highest its pair has executed, with the results kept for a resend (R369). -/
def State.numberDone (s : State) (key n : Nat) (result : List Byte) (poisoned : Bool) : State :=
  let p := s.pairOf key
  let kept := p.kept.filter fun k => (n + 2 ^ 16 - k.1) % 2 ^ 16 < 64
  { s with lockPairs := s.lockPairs.put key { p with executed := n, kept := NMap.put kept n (result, poisoned) } }

/-- A request is executed: it leaves the request's list, and its number is the pair's highest. -/
def State.requestDone (s : State) (c : Ctx) (r : AtomReq) (home : Nat) (ts : List AtomLane) : State :=
  let result := ts.flatMap fun t => leBytes t.piece.len (r.done.getD t.lane 0).toNat
  let poisoned := ts.any fun t => r.poison.getLsbD t.lane
  let s := s.numberDone (pairKey (coreOf c.wid) home) (r.seqs.getD home 0) result poisoned
  { s with lockLast := s.lockLast.put home (s.cycle, requestKey c.wid ts) }.setAtomic c
    { r with todo := r.todo.filter fun u => !ts.contains u }

/-- Executes a request of a plain atomic or of `semp`. -/
def executeRequest (s : State) (c : Ctx) (r : AtomReq) (home : Nat) (ts : List AtomLane) : State :=
  let turn := if r.op = .fadd ∧ c.la.det = 2 then floatAddTurn s c ts else .go []
  match turn with
  | .hold => s
  | .diverge i l => s.requestDone c { r with diverged := r.diverged.or (some (i, maskOf (· == l))) } home ts
  | .go used =>
    let who := Agent.lane (coreOf c.wid)
    let s := used.foldl (fun s e => s.consume c.env.part c.bid e) s
    let s := if isRelease r.ord then s.publish who r.mask else s
    let (s, r') := applyLanes who c.bid c.env (s.noteReads c.env.part (ts.map (·.piece))) r ts
    let s := if r.op = .fadd ∧ c.la.det = 1 then logLanes s c (ts.filter fun t => (r'.done.get? t.lane).isSome) else s
    s.requestDone c r' home ts

/-- A request that waited at its source is sent (R369). -/
def sendLate (s : State) (c : Ctx) (r : AtomReq) (home : Nat) : State :=
  if 64 ≤ (s.pairOf (pairKey (coreOf c.wid) home)).outstanding then s
  else
    let x := s.giveNumber (coreOf c.wid) home
    x.1.setAtomic c { r with seqs := r.seqs.put home x.2 }

/-- A stop withdraws a request that its home or replay holds: its number counts as executed with no effect, and the pair's later requests
proceed (R379). -/
def withdrawRequest (s : State) (c : Ctx) (r : AtomReq) (home : Nat) : State :=
  (s.numberDone (pairKey (coreOf c.wid) home) (r.seqs.getD home 0) [] false).setAtomic c { r with seqs := r.seqs.del home }

/-- The lane mask of an atomic's trap: the lanes named, or the acting lanes of one access of the path. -/
def AtomReq.trapLanes (c : Ctx) (r : AtomReq) (m : LaneMask) : LaneMask :=
  if r.d.cls = .vector || (r.d.cls = .none && !(match r.op with | .semw _ | .semp => true | _ => false)) then m
  else r.acting &&& c.w.present

/-- The destination of an atomic (R373, R374): the values its lanes found; helpers receive zero. -/
def atomicResult (c : Ctx) (r : AtomReq) : Warp × Place :=
  match r.d.cls with
  | .vector =>
    let lanes := r.acting &&& (~~~c.w.present ||| maskOf fun l => (r.done.get? l).isSome)
    vectorResult c.w r.d r.fmt lanes fun l => r.done.getD l 0
  | .scalar => match r.done with
    | (_, v) :: _ => scalarResult c.w r.d (some v)
    | [] => (c.w, .none)
  | _ => (c.w, .none)

/-- The answer to an atomic is complete (R376, R378): a disagreement with the log traps; else the lanes performed are written; then poison, then refused cells, trap. -/
def answerAtomic (s : State) (c : Ctx) (r : AtomReq) : State :=
  match r.diverged with
  | some (i, lanes) => s.answeredTrap c ⟨0x60, 0, BitVec.ofNat 64 i, lanes⟩
  | none =>
  let s := if isAcquire r.ord then s.acquireAt (coreOf c.wid) r.mask else s
  let out := atomicResult c r
  let bad := r.poison ||| r.gone
  let low (m : LaneMask) : Nat := (lanesOf m).headD 0
  let data (m : LaneMask) : Word := BitVec.ofNat 64 (r.aims.getD (low m) 0)
  if bad ≠ 0 then
    s.answeredTrap { c with w := out.1 } ⟨0x51, if r.gone.getLsbD (low bad) then 3 else 0, data bad, r.trapLanes c bad⟩
  else if r.refused ≠ 0 then s.answeredTrap { c with w := out.1 } ⟨0x10, 0x0E, data r.refused, r.refused⟩
  else s.answered c out.1 out.2

/-- The results of an atomic return once no request of it is left (R373, R376). -/
def execAtomicResultReturn (warp path : Nat) (s : State) : Answer :=
  match s.awaiting warp path with
  | some (c, .atomic r) =>
    match r.op, r.todo with
    | _, _ :: _ => .next s
    | .semw _, [] => .next s
    | _, [] => .next (answerAtomic s c r)
  | _ => .next s

end Sys2Proof.Machine
end

