-- ==== Sys2Proof/Machine/Barge.lean ====
section
/-! DEFINITION. What a barge's command moves (spec/14 R335 to R338): its units, in the order in which it moves them, the bytes each
reads and writes, and the lines its destination touches (R331). -/
namespace Sys2Proof.Machine

/-- A run of bytes: address and length. -/
abbrev Bytes := Nat × Nat

/-- One move of a command: the bytes it reads, the bytes it writes, and the command's place after it. -/
structure CopyUnit where
  reads  : List Bytes
  writes : List Bytes
  next   : Nat
deriving DecidableEq, Repr

/-- Parameter word i as a number. -/
def CopyCmd.arg (c : CopyCmd) (i : Nat) : Nat := (nth c.par i 0).toNat

/-! ### Geometry of `plane` and `unplane` (R338) -/

/-- A geometry as its parameter words give it. -/
structure Geometry where
  transposed : Bool
  ef    : Nat
  lp    : Nat
  p     : Nat
  m     : Nat
  k     : Nat
  pitch : Nat
  scale : Nat
deriving DecidableEq, Repr

def geometryOf (par : List Word) : Geometry :=
  let w (i : Nat) : Word := nth par i 0
  ⟨(w 0).getLsbD 16, ((w 0).extractLsb' 12 4).toNat, ((w 0).extractLsb' 8 4).toNat, ((w 0).extractLsb' 0 5).toNat,
    ((w 1).extractLsb' 0 16).toNat, ((w 1).extractLsb' 32 32).toNat, (w 2).toNat, (w 3).toNat⟩

def CopyCmd.geo (c : CopyCmd) : Geometry := geometryOf c.par

/-- Bits of an element of the matrix. -/
def Geometry.bits (g : Geometry) : Nat := elemBits (Fmt.ofCode g.ef)

/-- Bytes of `n` elements in a row. -/
def Geometry.bytes (g : Geometry) (n : Nat) : Nat := n * g.bits / 8

/-- k-steps of a segment. -/
def Geometry.seg (g : Geometry) : Nat := 2 ^ g.lp

/-- Where `n` elements (r, k) to (r, k + n − 1) of the matrix stand: one run, or an element each when transposed. -/
def Geometry.elements (g : Geometry) (base r k n : Nat) : List Bytes :=
  if g.transposed then (List.range n).map fun i => (base + (k + i) * g.pitch + g.bytes r, g.bytes 1)
  else [(base + r * g.pitch + g.bytes k, g.bytes n)]

/-- The word of row r, k-step s, plane q of a plane block (R215). -/
def Geometry.word (g : Geometry) (base s q r : Nat) : Bytes := (base + 4 * ((s * g.p + q) * g.m + r), 4)

/-- The scale byte of row r in segment x (R216). -/
def Geometry.scaleByte (g : Geometry) (x r : Nat) : Bytes := (g.scale + x * g.m + r, 1)

/-- The bytes of the matrix from its lowest to its highest. -/
def Geometry.extent (g : Geometry) : Nat :=
  if g.transposed then (g.k - 1) * g.pitch + g.bytes g.m else (g.m - 1) * g.pitch + g.bytes g.k

/-- Bytes of the data and scale areas. -/
def Geometry.dataBytes (g : Geometry) : Nat := g.k / 32 * g.p * g.m * 4
def Geometry.scaleBytes (g : Geometry) : Nat := g.k / (32 * g.seg) * g.m

/-! ### Patterns of `cpys` (R204, R206, R335) -/

/-- The pattern, its stamp word read as the zero of R204. -/
def patternOf (par : List Word) (pointer : Nat) : Option Stream :=
  streamFrom (fun i => if i = 7 then 0 else nth par i 0) (BitVec.ofNat 64 pointer)

/-- Positions of a pattern. -/
def Stream.positions (t : Stream) : Nat := ((List.range t.dims).map fun d => nth t.n d 1).foldl (· * ·) 1

/-- The address of position i. -/
def Stream.addressAt (t : Stream) (i : Nat) : Nat :=
  let step (x : Int × Nat) (d : Nat) : Int × Nat := (x.1 + (x.2 % nth t.n d 1 : Nat) * nth t.t d 0, x.2 / nth t.n d 1)
  (((List.range t.dims).foldl step (((t.origin.toNat : Nat) : Int), i)).1).toNat

/-- The lowest byte a pattern reaches, and one past the highest. -/
def Stream.reach (t : Stream) : Int × Int :=
  let d (k : Nat) : Int := ((nth t.n k 1 : Nat) - 1 : Int) * nth t.t k 0
  let ks := List.range t.dims
  ((t.origin.toNat : Int) + (ks.map fun k => min 0 (d k)).sum,
    (t.origin.toNat : Int) + (ks.map fun k => max 0 (d k)).sum + 2 ^ t.log2)

/-! ### Units -/

/-- The bytes from an address on that stay in its sector. -/
def inSector (a left : Nat) : Nat := min left (32 - a % 32)

/-- The elements of `e` bytes from an address on that begin in its sector. -/
def elementsInSector (a e left : Nat) : Nat := min left (ceilDiv (32 - a % 32) e)

/-- How far a command has to go, in its own units (R335 to R338). -/
def CopyCmd.total (c : CopyCmd) : Nat :=
  match c.op with
  | .copy | .fill | .bcast | .add _ => c.arg 0
  | .gather => ((patternOf c.par c.src).map Stream.positions).getD 0
  | .scatter => ((patternOf c.par c.dst).map Stream.positions).getD 0
  | .plane _ => c.geo.m * (c.geo.k / (32 * c.geo.seg))
  | .unplane _ _ => c.geo.m * (c.geo.k / 32)

/-- How many of its own units a command moves to the next sector boundary (R334, R340): a source sector of the bytes or packed elements it
reads, a destination sector of those it only writes, a segment or a k-step of a row. -/
def CopyCmd.span (c : CopyCmd) (pos : Nat) : Nat :=
  match c.op with
  | .copy | .bcast => inSector (c.src + pos) (c.arg 0 - pos)
  | .fill => inSector (c.dst + pos) (c.arg 0 - pos)
  | .gather => match patternOf c.par c.src with
    | some t => elementsInSector (c.dst + pos * 2 ^ t.log2) (2 ^ t.log2) (t.positions - pos)
    | none => 1
  | .scatter => match patternOf c.par c.dst with
    | some t => elementsInSector (c.src + pos * 2 ^ t.log2) (2 ^ t.log2) (t.positions - pos)
    | none => 1
  | .add f => elementsInSector (c.src + pos * (elemBits f / 8)) (elemBits f / 8) (c.arg 0 - pos)
  | .plane _ | .unplane _ _ => 1

/-- The move of n units from a place on; `runs` are the runs of the receiving ranks of a `cpybc`. -/
def CopyCmd.move (c : CopyCmd) (runs : List Nat) (pos n : Nat) : CopyUnit :=
  let each (e : Nat) (a b : Nat → Nat) (w : Nat) : CopyUnit :=
    ⟨(List.range n).map fun i => (a (pos + i), e), (List.range n).map fun i => (b (pos + i), w), pos + n⟩
  match c.op with
  | .copy => ⟨[(c.src + pos, n)], [(c.dst + pos, n)], pos + n⟩
  | .fill => ⟨[], [(c.dst + pos, n)], pos + n⟩
  | .bcast => ⟨[(c.src + pos, n)], runs.map fun r => (r + c.dst + pos, n), pos + n⟩
  | .gather =>
    match patternOf c.par c.src with
    | some t => each (2 ^ t.log2) t.addressAt (fun i => c.dst + i * 2 ^ t.log2) (2 ^ t.log2)
    | none => ⟨[], [], pos + n⟩
  | .scatter =>
    match patternOf c.par c.dst with
    | some t => each (2 ^ t.log2) (fun i => c.src + i * 2 ^ t.log2) t.addressAt (2 ^ t.log2)
    | none => ⟨[], [], pos + n⟩
  | .add f => each (elemBits f / 8) (fun i => c.src + i * (elemBits f / 8)) (fun i => c.dst + 32 + 16 * (c.arg 1 + i)) 16
  | .plane _ =>
    let g := c.geo
    let x := pos / g.m
    let r := pos % g.m
    ⟨g.elements c.src r (x * 32 * g.seg) (32 * g.seg),
      ((List.range g.seg).flatMap fun s => (List.range g.p).map fun q => g.word c.dst (x * g.seg + s) q r) ++ [g.scaleByte x r],
      pos + 1⟩
  | .unplane _ _ =>
    let g := c.geo
    let s := pos / g.m
    let r := pos % g.m
    ⟨(List.range g.p).map (fun q => g.word c.src s q r) ++ [g.scaleByte (s / g.seg) r], g.elements c.dst r (32 * s) 32, pos + 1⟩

/-- The move a command makes next. -/
def CopyCmd.unitAt (c : CopyCmd) (runs : List Nat) (pos : Nat) : CopyUnit := c.move runs pos (c.span pos)

/-- Whether each write of a command takes the bytes of the read in the same place of its list. -/
def CopyCmd.elementwise (c : CopyCmd) : Bool := match c.op with | .gather | .scatter | .add _ => true | _ => false

/-! ### Contents (R335, R338) -/

/-- The 8-byte pattern's bytes from a place on. -/
def patternBytes (v pos n : Nat) : List Byte := (List.range n).map fun i => BitVec.ofNat 8 (v / 256 ^ ((pos + i) % 8))

/-- Elements of a run of bytes, each `bits` wide. -/
def unpackElements (bits : Nat) (bs : List Byte) : List Nat :=
  let v := leNat bs
  (List.range (bs.length * 8 / bits)).map fun i => v / 2 ^ (bits * i) % 2 ^ bits

/-- floor(log2 |x|) of a nonzero value. -/
def FVal.log2Floor : FVal → Int
  | .fin _ m e => (Nat.log2 m : Int) + e
  | _ => 0

/-- A value times 2^k rounded to an integer and clamped to p bits (R338). -/
def planeInteger (mode : RMode) (p : Nat) (k : Int) (x : FVal) : Int :=
  match x with
  | .fin neg m e =>
    let n := (roundInt ⟨mode, 0, false, false⟩ neg m (e + k)).1
    let v : Int := if neg then -(n : Int) else n
    max (-(2 ^ (p - 1))) (min v (2 ^ (p - 1) - 1))
  | _ => 0

/-- The scale byte and integers of a row's segment (R338). -/
def planeSegment (mode : RMode) (p : Nat) (xs : List FVal) : Nat × List Int :=
  if xs.any fun x => x.isNan || x.isInf then (255, xs.map fun _ => 0)
  else
    match (xs.filter fun x => !x.isZero).map FVal.log2Floor with
    | [] => (127, xs.map fun _ => 0)
    | e :: r =>
      let top := r.foldl max e
      let scale := max 0 (min 254 (top - p + 2 + 127))
      (scale.toNat, xs.map (planeInteger mode p (127 - scale)))

/-- Plane word q of 32 integers. -/
def planeWord (xs : List Int) (q : Nat) : Nat :=
  (xs.zipIdx.map fun x => if (BitVec.ofInt 24 x.1).getLsbD q then 2 ^ x.2 else 0).sum

/-- What the writes of a unit hold, from what its reads held. -/
def CopyCmd.contents (c : CopyCmd) (pos : Nat) (u : CopyUnit) (reads : List (List Byte)) : List (List Byte) :=
  match c.op with
  | .fill => u.writes.map fun w => patternBytes (c.arg 1) pos w.2
  | .plane rz =>
    let g := c.geo
    let xs := (unpackElements g.bits reads.flatten).map (fspec (Fmt.ofCode g.ef)).decode
    let r := planeSegment (if rz then .rz else .rne) g.p xs
    ((List.range g.seg).flatMap fun s => (List.range g.p).map fun q => leBytes 4 (planeWord ((r.2.drop (32 * s)).take 32) q))
      ++ [leBytes 1 r.1]
  | .unplane rz f =>
    let g := c.geo
    let words := (reads.take g.p).map leNat
    let scale := leNat ((reads.drop g.p).flatten)
    let value (j : Nat) : Int := (words.zipIdx.map fun x =>
      let b : Int := if x.1.testBit j then 2 ^ x.2 else 0
      if x.2 + 1 = g.p then -b else b).sum
    let code (j : Nat) : Nat := if scale = 255 then (fspec f).nanCode
      else ((fspec f).round ⟨if rz then .rz else .rne, 0, false, false⟩ (⟨value j, (scale : Int) - 127, false⟩ : Dyadic).real).1
    let all := (List.range 32).foldr (fun j n => n * 2 ^ g.bits + code j) 0
    if g.transposed then (List.range 32).map fun j => leBytes (g.bytes 1) (code j) else [leBytes (g.bytes 32) all]
  | .gather | .scatter | .add _ => reads
  | .copy | .bcast => u.writes.map fun _ => reads.flatten

/-! ### Destination lines (R331) -/

/-- The 128-byte lines of a run of bytes. -/
def linesOf (b : Bytes) : List Nat := if b.2 = 0 then [] else (List.range ((b.1 + b.2 - 1) / 128 - b.1 / 128 + 1)).map (b.1 / 128 + ·)

/-- Every run of bytes a command writes, merged where they follow one another. -/
def CopyCmd.targets (c : CopyCmd) (runs : List Nat) : List Bytes :=
  match c.op with
  | .copy | .fill => [(c.dst, c.arg 0)]
  | .bcast => runs.map fun r => (r + c.dst, c.arg 0)
  | .gather => match patternOf c.par c.src with | some t => [(c.dst, t.positions * 2 ^ t.log2)] | none => []
  | .scatter => match patternOf c.par c.dst with
    | some t => (List.range t.positions).map fun i => (t.addressAt i, 2 ^ t.log2)
    | none => []
  | .add _ => [(c.dst + 32 + 16 * c.arg 1, 16 * c.arg 0)]
  | .plane _ => [(c.dst, c.geo.dataBytes), (c.geo.scale, c.geo.scaleBytes)]
  | .unplane _ _ => (List.range (c.geo.k / 32)).flatMap fun s => (List.range c.geo.m).flatMap fun r => c.geo.elements c.dst r (32 * s) 32

/-- The lines a command's destination touches. -/
def CopyCmd.targetLines (c : CopyCmd) (runs : List Nat) : List Nat := ((c.targets runs).flatMap linesOf).eraseDups

/-- Whether a run of bytes meets a line. -/
def meetsLine (line : Nat) (b : Bytes) : Bool := b.2 != 0 && b.1 < 128 * (line + 1) && 128 * line < b.1 + b.2

/-- Whether a command standing at a place has still to write bytes of a line (R331). -/
def CopyCmd.stillWrites (c : CopyCmd) (runs : List Nat) (pos line : Nat) : Bool :=
  match c.op with
  | .copy | .fill => meetsLine line (c.dst + pos, c.arg 0 - pos)
  | .bcast => runs.any fun r => meetsLine line (r + c.dst + pos, c.arg 0 - pos)
  | .add _ => meetsLine line (c.dst + 32 + 16 * (c.arg 1 + pos), 16 * (c.arg 0 - pos))
  | .plane _ =>
    let g := c.geo
    let n := c.total
    meetsLine line (g.scale + pos, n - pos) ||
      (List.range 32).any fun i =>
        let a := 128 * line + 4 * i
        let w := (a - c.dst) / 4
        c.dst ≤ a && a < c.dst + g.dataBytes && pos ≤ w / (g.p * g.m) / g.seg * g.m + w % g.m
  | _ => (List.range (c.total - pos)).any fun i => (c.move runs (pos + i) 1).writes.any (meetsLine line)

end Sys2Proof.Machine
end

