-- ==== Sys2Proof/Machine/Barges.lean ====
section
/-! DEFINITION. Barge commands as instructions, and the events that move, stop and end them (spec/14; page requests: spec/12 R308). -/
namespace Sys2Proof.Machine

/-! ### Parts -/

/-- The global-window address of a block's SRAM run (R77). -/
def Block.runAddr (b : Block) : Nat := 0x7F0000000000 + b.home * 2 ^ 21 + 128 * b.sramBase

/-- The blocks of a cluster, by rank. -/
def State.clusterOf (s : State) (b : Block) : List Block :=
  sortBy (fun x y => x.rank ≤ y.rank) ((s.blocks.map (·.2)).filter fun x => x.launch == b.launch && x.cluster == b.cluster)

/-- The runs a `cpybc` writes: those of the ranks its mask names, every rank where it is 0 (R328, R335). -/
def State.receivers (s : State) (b : Block) (c : CopyCmd) : List Nat :=
  if c.op = .bcast then
    ((s.clusterOf b).filter fun x => c.arg 1 == 0 || (c.arg 1).testBit x.rank).map Block.runAddr
  else []

def State.setCopy (s : State) (bid : Nat) (c : CopyCmd) : State := s.setBlock bid fun b => { b with copies := b.copies.put c.seq c }

/-- Whether a command has not ended. -/
def CopyCmd.open' (c : CopyCmd) : Bool := c.state != .ended

/-! ### Issue (R326, R328, R329) -/

/-- The rights of R326. -/
def checkProducer (c : Ctx) (lanes : LaneMask) : Except Stop Unit :=
  if c.la.prodValid && c.la.prodWarp == c.w.index then .ok () else raise 0x20 0x00 lanes

/-- The parameter words of each command (R328). -/
def paramCount : CopyOp → Nat
  | .copy => 2
  | .bcast | .fill | .add _ => 3
  | _ => 8

/-- Whether an address lies in the local slice window. -/
def isLocal (a : Nat) : Bool := windowOf a == .localSlice

/-- The per-command rules of step 2 of R329: the place of the first word that breaks one. -/
def badParam (b : Block) (c : CopyCmd) : Option Nat :=
  let g := c.geo
  let w (i : Nat) : Word := nth c.par i 0
  match c.op with
  | .copy | .fill => if 2 ^ 32 < c.arg 0 then some 0 else none
  | .bcast =>
    let lo := 0x7E0000000000 + 128 * b.sramBase
    let len := 128 * b.sramLen
    let own := c.arg 1 == 0 || (c.arg 1).testBit b.rank
    if 2 ^ 21 < c.arg 0 then some 0
    else if 2 ^ 16 ≤ c.arg 1 then some 1
    else if c.src < lo || lo + len < c.src + c.arg 0 || len < c.dst + c.arg 0 then some 0
    else if own && c.src < lo + c.dst + c.arg 0 && lo + c.dst < c.src + c.arg 0 then some 0
    else none
  | .add _ => if 2 ^ 24 < c.arg 0 then some 0 else if 2 ^ 24 < c.arg 0 + c.arg 1 then some 1 else none
  | .gather => if (patternOf c.par c.src).isNone then some 0 else none
  | .scatter => if (patternOf c.par c.dst).isNone then some 0 else none
  | _ =>
    let data := match c.op with | .plane _ => c.dst | _ => c.src
    let formatOk := match c.op with | .unplane _ f => g.ef == f.code | _ => 4 ≤ g.ef && g.ef ≤ 12
    if (w 0) >>> 17 ≠ 0 || (w 0).extractLsb' 5 3 ≠ 0 || !formatOk || g.p < 2 || 24 < g.p || (g.ef == 10 && g.transposed) then some 0
    else if (w 1).extractLsb' 16 16 ≠ 0 || g.m < 64 || 4096 < g.m || g.m % 64 ≠ 0 || g.k % (32 * g.seg) ≠ 0 then some 1
    else if !isLocal g.scale then some 3
    else if !isLocal data || data % 128 ≠ 0 then some 0
    else [4, 5, 6].find? fun i => w i != 0

/-- The offset of a `cpybc`'s destination from its block's run; none when the address lies before it or outside the local window. -/
def ownOffset (b : Block) (a : Int) : Option Nat :=
  let lo : Int := 0x7E0000000000 + 128 * b.sramBase
  if lo ≤ a ∧ a < 0x7E0000200000 then some (a - lo).toNat else none

/-- One range of step 3 of R329: its register, its first byte and the byte after its last, and what it needs. -/
structure Range where
  a  : AReg
  lo : Int
  hi : Int
  wr : Bool
deriving DecidableEq, Repr

/-- The ranges of a command, in the order in which they are checked: the destination, with the scale area of a `plane`; the source, with that
of an `unplane`; the region, of which a `cpyadd` of no element names the header. -/
def copyRanges (c : CopyCmd) (d r : AReg) (dst src : Int) : List Range :=
  let g := c.geo
  match c.op with
  | .copy => [⟨d, dst, dst + c.arg 0, true⟩, ⟨r, src, src + c.arg 0, false⟩]
  | .fill => [⟨d, dst, dst + c.arg 0, true⟩]
  | .bcast => [⟨d, dst, dst + c.arg 0, true⟩, ⟨r, src, src + c.arg 0, false⟩]
  | .add f => [⟨r, src, src + c.arg 0 * (elemBits f / 8), false⟩,
      ⟨d, dst, dst + 32 + if c.arg 0 = 0 then 0 else 16 * (c.arg 1 + c.arg 0), true⟩]
  | .gather => match patternOf c.par c.src with
    | some t => [⟨d, dst, dst + t.positions * 2 ^ t.log2, true⟩, ⟨r, t.reach.1, t.reach.2, false⟩]
    | none => []
  | .scatter => match patternOf c.par c.dst with
    | some t => [⟨d, t.reach.1, t.reach.2, true⟩, ⟨r, src, src + t.positions * 2 ^ t.log2, false⟩]
    | none => []
  | .plane _ => if g.k = 0 then [] else
      [⟨d, dst, dst + g.dataBytes, true⟩, ⟨d, g.scale, g.scale + g.scaleBytes, true⟩, ⟨r, src, src + g.extent, false⟩]
  | .unplane _ _ => if g.k = 0 then [] else
      [⟨d, dst, dst + g.extent, true⟩, ⟨r, src, src + g.dataBytes, false⟩, ⟨r, g.scale, g.scale + g.scaleBytes, false⟩]

/-- Steps 1 to 4 of R314 for a range, and the mapped slices of R294. -/
def checkCopyRange (s : State) (c : Ctx) (lanes : LaneMask) (x : Range) : Except Stop Unit := do
  if x.hi ≤ x.lo then return
  let fail (cause sub : Nat) (a : Int) : Except Stop Unit := raise cause sub lanes (BitVec.ofInt 64 a)
  if !x.wr && !x.a.perm.getLsbD 0 then fail 0x11 0x00 x.lo
  if x.wr && !x.a.perm.getLsbD 1 then fail 0x11 0x01 x.lo
  if x.lo < x.a.base.toNat then fail 0x10 0x00 x.lo
  if (x.a.limit.toNat : Int) < x.hi then fail 0x10 0x00 (x.hi - 1)
  let lo := x.lo.toNat
  let len := (x.hi - x.lo).toNat
  match placeAccess lo len with
  | .error (cause, sub) => fail cause sub x.lo
  | .ok .unified => pure ()
  | .ok _ =>
    if !x.a.perm.getLsbD 3 then fail 0x11 0x02 x.lo
    let slice (a : Nat) : Nat := if isLocal a then c.env.home else (a - 0x7F0000000000) / 2 ^ 21
    let pt := s.parts.get? c.env.part
    let first := slice lo
    let last := slice (lo + len - 1)
    if (List.range (last - first + 1)).any fun i => (pt.bind (·.slices.get? (first + i))).isNone then fail 0x13 0x02 x.lo

/-- Step 4 of R329: the stamp's alignment and place. -/
def checkStamp (lanes : LaneMask) (a : Nat) : Except Stop Unit :=
  if a = 0 then .ok ()
  else if a % 8 ≠ 0 then raise 0x14 0x02 lanes (BitVec.ofNat 64 a)
  else match placeAccess a 8 with
    | .ok _ => .ok ()
    | .error (cause, sub) => raise cause sub lanes (BitVec.ofNat 64 a)

/-- A line of memory gains a command that holds it: its presence bit clears, or the barge owns it (R331, R333). -/
def State.holdLine (s : State) (key : Nat) : State :=
  if isSram (128 * key) then { s with absent := s.absent.put key (s.absent.getD key 0 + 1) }
  else { s with owned := s.owned.put key (s.owned.getD key 0 + 1) }

/-- A command holds those lines of a list that are resident and that it does not hold (R331, R333). -/
def State.holdLines (s : State) (e : Env) (c : CopyCmd) (lines : List Nat) : State × CopyCmd :=
  lines.foldl (fun (s, c) l =>
    if c.lines.any (·.1 == l) then (s, c) else
      match s.placePiece e (128 * l) 32 with
      | .ok p => (s.holdLine (p.piece.key / 128), { c with lines := c.lines ++ [(l, p.piece.key / 128)] })
      | .error _ => (s, c)) (s, c)

/-- Whether a command writes outside its block's run (R465). -/
def CopyCmd.reachesOut (c : CopyCmd) (b : Block) (runs : List Nat) : Bool :=
  (c.targets runs).any (fun x => x.2 != 0 && !b.inRun x.1 x.2) || (c.stamp != 0 && !b.inRun c.stamp 8)

/-- Accepts a command (R330, R331, R333). -/
def acceptCopy (s : State) (c : Ctx) (cmd : CopyCmd) : State :=
  let seq := (c.blk.copySeq + 1) % 2 ^ 48
  let cmd := { cmd with seq := seq }
  let runs := s.receivers c.blk cmd
  let (s, cmd) := s.holdLines c.env cmd (cmd.targetLines runs)
  let out := cmd.reachesOut c.blk runs
  s.setBlock c.bid fun b =>
    { b with copySeq := seq, wroteOut := b.wroteOut || out
             copies := NMap.put (b.copies.filter fun x => x.2.open' || seq < x.1 + 64) seq cmd }

/-- A barge command (R326 to R330). -/
def copyCommand (op : CopyOp) (o : Copy) (s : State) : Answer :=
  s.run fun c => do
    if !c.once o.g then
      let r := if o.d.cls = .scalar then scalarResult c.w o.d none else (c.w, .none)
      return s.complete c r.1 r.2
    let lanes := c.real o.g
    checkProducer c lanes
    let n := paramCount op
    let par := (List.range n).map fun i => c.w.sreg (o.k + i)
    let d := c.w.areg o.dst
    let r := c.w.areg o.src
    let dst : Int := d.pointer.toNat + o.e.off
    let src : Int := r.pointer.toNat
    let place := if op = .bcast then (ownOffset c.blk dst).getD (2 ^ 64) else dst.toNat
    let stamp := (nth par (n - 1) 0).toNat
    let cmd : CopyCmd :=
      { op := op, seq := 0, warp := c.w.index, dst := place, src := src.toNat, par := par, stamp := stamp, mask := o.e.mask
        ex := r.perm.getLsbD 2
        state := .queued, status := 0, lines := [], pos := 0, done := 0, retries := 0, poisoned := false, badRead := false, cancel := false
        cancelAt := none, endWith := none, region := none, wrote := [] }
    match badParam c.blk cmd with
    | some i => raise 0x10 0x0D lanes (nth par i 0)
    | none => pure ()
    (copyRanges cmd d r dst src).forM (checkCopyRange s c lanes)
    checkStamp lanes stamp
    if 32 ≤ (c.blk.copies.filter fun x => x.2.open').length then .error (.park .copyQueue)
    if !s.drainedFor c.wid lanes 0x08 then .error (.park .fence)
    let s := acceptCopy s c cmd
    let out := if o.d.cls = .scalar then scalarResult c.w o.d (some (BitVec.ofNat 64 ((c.blk.copySeq + 1) % 2 ^ 48))) else (c.w, .none)
    return s.complete c out.1 out.2

def execCpy (o : Copy) (s : State) : Answer := copyCommand .copy o s
def execCpys (scatter : Bool) (o : Copy) (s : State) : Answer := copyCommand (if scatter then .scatter else .gather) o s
def execCpyadd (o : Copy) (s : State) : Answer := copyCommand (.add o.fmt) o s
def execCpybc (o : Copy) (s : State) : Answer := copyCommand .bcast o s
def execPlane (rz : Bool) (o : Copy) (s : State) : Answer := copyCommand (.plane rz) o s
def execUnplane (rz : Bool) (o : Copy) (s : State) : Answer := copyCommand (.unplane rz o.fmt) o s
def execCpyfill (o : Copy) (s : State) : Answer := copyCommand .fill o s

/-- The value of `cpyq` (R339). -/
def copyState (b : Block) (q : Word) : Word :=
  let n := q.toNat
  match b.copies.get? n with
  | none => 0
  | some c =>
    if n + 64 ≤ b.copySeq then 0 else
    let code := match c.state with | .queued => 1 | .active | .ending => 2 | .waiting _ => 3 | .ended => 4
    BitVec.ofNat 64 (code * 2 ^ 60 + (if c.state = .ended then c.status else 0) * 2 ^ 32 + min c.done (2 ^ 32 - 1))

/-- `cpyq` (R339). -/
def execCpyq (g : Guard) (d : Dst) (q : Src) (s : State) : Answer :=
  s.run fun c => do
    checkLatch c g .sca q
    let r := scalarResult c.w d (if c.once g then some (copyState c.blk (readSca c.w c.p q)) else none)
    return s.complete c r.1 r.2

/-- Whether a command can still be cancelled (R340). -/
def CopyCmd.cancellable (c : CopyCmd) : Bool :=
  match c.state with
  | .queued | .active => true
  | .waiting r => !r.stamp
  | _ => false

/-- The CAN entry replay holds for a command (R346, R528). -/
def cancelEntry (s : State) (c : Ctx) (x : CopyCmd) : Option ReplayEntry :=
  s.replayHead c.env.part c.lid fun e => e.kind == 11 && e.block == c.blk.linear && e.key == x.seq % 2 ^ 24

/-- A cancel asked for, at once or in replay at the logged count; a command already past it diverges (R340, R346). -/
def cancelOne (s : State) (c : Ctx) (lanes : LaneMask) (x : CopyCmd) : Except Stop State :=
  if c.la.det = 2 then
    match cancelEntry s c x with
    | none => if x.cancellable then replayEmpty s c lanes else .ok s
    | some e =>
      if e.value < x.done then raise 0x60 0 lanes (BitVec.ofNat 64 e.index)
      else .ok ((s.consume c.env.part c.bid e).setCopy c.bid (if x.cancellable then { x with cancelAt := some e.value } else x))
  else .ok (if x.cancellable then s.setCopy c.bid { x with cancel := true } else s)

/-- `cpycan` (R340, R346). -/
def execCpycan (g : Guard) (q : Src) (s : State) : Answer :=
  s.run fun c => do
    checkLatch c g .sca q
    if !c.once g then return s.skip c
    let lanes := c.real g
    checkProducer c lanes
    if c.la.det = 3 then raise 0x62 0 lanes
    let n := (readSca c.w c.p q).toNat
    let xs := (c.blk.copies.map (·.2)).filter fun x => n == 0 || x.seq == n
    return (← xs.foldlM (fun s x => cancelOne s c lanes x) s).skip c

/-! ### Moving (R332, R333, R343) -/

/-- Why a move cannot be made. -/
inductive CopyStop where
  | fault (addr : Nat) (write : Bool)
  | gone
  | unmapped
deriving DecidableEq, Repr

/-- Whether a page lets a barge make an access; the copy of a launch's arguments is read only (R35, R307). -/
def State.bargeMay (s : State) (e : Env) (ex rd wr : Bool) (b : Bytes) (p : Placed) : Bool :=
  (!rd || p.r || (ex && p.x)) && (!wr || (p.w && !s.inArguments e b.1 b.2))

/-- A barge's translation of one sector piece (R308, R343); `ex` is that of the register it reads through. -/
def State.bargePiece (s : State) (e : Env) (ex rd wr : Bool) (b : Bytes) : Except CopyStop (List Piece) :=
  match s.placePiece e b.1 b.2 with
  | .ok p => if s.bargeMay e ex rd wr b p then .ok (p.units.map (·.piece)) else .error (.fault (s.unifiedOf e b.1) wr)
  | .error (_, sub) =>
    if sub = 3 then .error .gone else if sub = 2 then .error .unmapped else .error (.fault (s.unifiedOf e b.1) wr)

/-- The pieces of a run of bytes. -/
def State.bargePieces (s : State) (e : Env) (ex rd wr : Bool) (b : Bytes) : Except CopyStop (List Piece) := do
  return (← (sectors b.1 b.2).mapM (s.bargePiece e ex rd wr)).flatten

/-- The context of a command: its block, launch, environment and receiving runs. -/
structure CopyCtx where
  bid  : Nat
  blk  : Block
  lid  : Nat
  la   : Launch
  env  : Env
  cmd  : CopyCmd
  runs : List Nat

def State.copyOf (s : State) (bid seq : Nat) : Option CopyCtx :=
  match s.blocks.get? bid with
  | none => none
  | some b =>
    match b.copies.get? seq, s.launches.get? b.launch with
    | some c, some la => some ⟨bid, b, b.launch, la, ⟨partOfLaunch b.launch, b.home⟩, c, s.receivers b c⟩
    | _, _ => none

/-- The context of a command that its barge may move on: its context is not stopped (R344). -/
def State.movable (s : State) (bid seq : Nat) : Option CopyCtx := if s.mayIssue bid then s.copyOf bid seq else none

/-- A line gives up one holder; at zero its presence bit is set, or it is owned no more (R331, R333). -/
def State.dropLine (s : State) (key : Nat) : State :=
  let drop (m : NMap Nat) : NMap Nat := let n := m.getD key 0; if n ≤ 1 then m.del key else m.put key (n - 1)
  if isSram (128 * key) then { s with absent := drop s.absent } else { s with owned := drop s.owned }

/-- Whether a command adds to a region: its order is never a choice (R337, R346). -/
def CopyCmd.adds (c : CopyCmd) : Bool := match c.op with | .add _ => true | _ => false

/-- Whether giving up a line is a choice the log keeps: another block's command wrote it last (R346, R524). -/
def State.landChoice (s : State) (x : CopyCtx) (key : Nat) : Bool :=
  !x.cmd.adds && x.cmd.wrote.contains key
    && (match s.lineWriters.get? key with | some w => w != (x.lid, x.blk.linear) | none => false)

/-- The lines a command gives up now. -/
def landLines (s : State) (x : CopyCtx) (lines : List (Nat × Nat)) : List (Nat × Nat) := lines.filter fun l => s.landChoice x l.2

/-- The site a line is logged under (R524). -/
def lineSite (x : CopyCtx) (line : Nat) : Nat := siteOf' x.env.home (128 * line)
where
  siteOf' (home va : Nat) : Nat := match windowOf va with
    | .localSlice => 0x7F0000000000 + home * 2 ^ 21 + (va - 0x7E0000000000)
    | _ => va

/-- A line a command gives up: a thread that waited for it reads what the command wrote there (R361). -/
def State.showLine (s : State) (key : Nat) : State :=
  { s with hidden := settleWrites [(⟨128 * key, 128, 0, none, none⟩, everyCore, everyCore)] s.hidden }

/-- A command gives up lines (R331): the choice of who landed last is logged, or consumed in replay (R346). -/
def giveUp (s : State) (x : CopyCtx) (lines : List (Nat × Nat)) : State × CopyCmd :=
  lines.foldl (fun (s, c) l =>
    let wrote := c.wrote.contains l.2
    let s := if s.landChoice { x with cmd := c } l.2 then
        match x.la.det with
        | 1 => s.logChoice x.env.part x.lid x.bid false 5 (some (lineSite x l.1)) 0 x.blk.linear (c.seq % 2 ^ 24) 0
        | 2 => match s.replayHead x.env.part x.lid fun e => e.kind == 5 && e.site == some (lineSite x l.1) with
          | some e => s.consume x.env.part x.bid e
          | none => s
        | _ => s
      else s
    let s := if wrote && !c.adds then { s with lineWriters := s.lineWriters.put l.2 (x.lid, x.blk.linear) } else s
    ((s.showLine l.2).dropLine l.2, { c with lines := c.lines.filter (· != l), wrote := c.wrote.filter (· != l.2) })) (s, x.cmd)

/-- Paths that waited for lines go on. -/
def State.wakeLines (s : State) : State := (s.wake .presence).wake .recall

/-- The logbook entries that giving up these lines needs, with `more` others. -/
def roomFor (s : State) (x : CopyCtx) (lines : List (Nat × Nat)) (more : Nat) : Bool :=
  x.la.det != 1 || s.logRoom x.env.part (2 * (landLines s x lines).length + more)

/-- A command begins to end with a status: its lines are given up, and a cancel that stopped it is logged (R341, R346). -/
def endCopy (s : State) (x : CopyCtx) (status : Nat) : State :=
  let can := status == 1 && x.la.det == 1
  if !roomFor s x x.cmd.lines (if can then 1 else 0) then s.setCopy x.bid { x.cmd with state := .active, endWith := some status } else
  let (s, c) := giveUp s x x.cmd.lines
  let s := if can then
      s.logChoice x.env.part x.lid x.bid true 11 none c.warp x.blk.linear (c.seq % 2 ^ 24) c.done
    else s
  (s.setCopy x.bid { c with state := .ending, status := status, retries := 0 }).wakeLines

/-- Page requests outstanding (R308 a). -/
def State.requestsOut (s : State) : Nat :=
  (s.blocks.map fun b => (b.2.copies.filter fun c => match c.2.state with | .waiting r => r.sent | _ => false).length).sum

/-- Sends a command's page request where the interface and the allocation allow (R308). -/
def sendRequest (s : State) (x : CopyCtx) (r : PageReq) : State :=
  if s.pageRequests && s.requestsOut < 512 && r.from' ≤ s.cycle then
    let pasid := (s.parts.get? x.env.part).elim 0 (·.pasid)
    (s.setCopy x.bid { x.cmd with state := .waiting { r with sent := true } }).send (.pageRequest pasid r.addr r.write)
  else s.setCopy x.bid { x.cmd with state := .waiting r }

/-- Whether a command has still to move bytes. -/
def CopyCmd.moving (c : CopyCmd) : Bool := match c.state with | .queued | .active => true | .waiting r => !r.stamp | _ => false

/-- Whether an earlier command of the block holds a line (R332). -/
def heldEarlier (b : Block) (seq key : Nat) : Bool := b.copies.any fun c => c.1 < seq && c.2.lines.any (·.2 == key)

/-- Whether an earlier command of the block has still to give up a line of a command's destination: one it holds, or one not resident when
it was accepted that it has still to write (R332). -/
def State.sharedEarlier (s : State) (b : Block) (seq line : Nat) (key : Option Nat) : Bool :=
  b.copies.any fun c => c.1 < seq && c.2.moving
    && (c.2.lines.any (fun l => l.1 == line || some l.2 == key) || c.2.stillWrites (s.receivers b c.2) c.2.pos line)

/-- Whether a line of unified memory belongs to a barge other than that of a command (R333): each core has one for odd sequence numbers
and one for even ones (R330). -/
def State.ownedByOther (s : State) (core seq : Nat) (p : Piece) : Bool :=
  s.lineOwned p && s.blocks.any fun b => b.2.copies.any fun c =>
    c.2.lines.any (·.2 == p.key / 128) && !(b.2.core == core && c.1 % 2 == seq % 2)

/-- Whether a restored slice's line has still to land (R470). -/
def State.notLanded (s : State) (part : Nat) (p : Piece) : Bool :=
  isSram p.key && match s.parts.get? part with
    | none => false
    | some pt => !pt.landing.isEmpty && pt.slices.any fun l =>
        l.2 == .physical ((p.key - 2 ^ 60) / 2 ^ 21) && (pt.landing.get? (16384 * l.1 + p.key % 2 ^ 21 / 128)).isSome

/-- What replay says of writing a line (R346, R528 LAND). -/
def landTurn (s : State) (x : CopyCtx) (line key : Nat) : Option (Option Nat) :=
  if x.la.det ≠ 2 then some none else
  match s.lineWriters.get? key with
  | some w => if w = (x.lid, x.blk.linear) then some none else go (some w)
  | none => go none
where
  go (prev : Option (Nat × Nat)) : Option (Option Nat) :=
    let q := match s.parts.get? x.env.part with
      | some pt => pt.replayHeld.filter fun (e : ReplayEntry) => e.launch == x.lid && e.kind == 5 && e.site == some (lineSite x line)
      | none => []
    let mine (e : ReplayEntry) : Bool := e.block == x.blk.linear && e.key == x.cmd.seq % 2 ^ 24
    if (match q.head? with | some e => mine e | none => false) && prev.isSome then some none
    else if q.any mine then none
    else if prev.isNone then some none
    else if s.replayDry x.env.part then some (some (s.soughtAt x.env.part))
    else none

/-- Marks the sectors of pieces poisoned. -/
def State.poisonPieces (s : State) (ps : List Piece) : State := ps.foldl (fun s p => s.setPoison p.key) s

/-- Whether a piece that a barge reads carries poison. -/
def State.carriesPoison (s : State) (ps : List Piece) : Bool := ps.any s.poisoned

/-- Writes pieces for a command: those of a peer are sent to it, the others performed and visible to some cores (R350). -/
def writeRun (s : State) (x : CopyCtx) (cores : CoreMask) (ps : List Piece) (bs : List Byte) (poison : Bool) : State :=
  (cutBytes ps bs).foldl (fun s w =>
    let a : Agent := .barge x.blk.core
    let s := if w.1.peer.isSome then s.sendFar a x.blk.core x.bid x.lid x.env.part x.cmd.seq (x.cmd.mask ||| 0x08) w.1 w.2
      else s.performAt a cores w.1 w.2
    if poison then s.poisonPiece w.1 else s) (s.track x.bid ps)

/-- The elements of a `cpyadd`'s unit, each with its cell and whether its source carries poison (R337). -/
def addElements (s : State) (x : CopyCtx) (f : Fmt) (r : Region) (es : List (List Piece × List Piece × Bool)) : State :=
  let xs := es.map fun e => (e.2, (fspec f).decode (leNat (s.readPieces e.1)))
  xs.foldl (fun s e => match e.1.1.head? with
    | some p => if e.1.2 then s.setPoison p.key else s.addCell x.bid r p e.2
    | none => s) s

/-- A unit has been moved: the command's place, its bytes, the lines it has finished with (R331). -/
def movedOn (s : State) (x : CopyCtx) (u : CopyUnit) (keys : List Nat) (poison : Bool) : State :=
  let c := { x.cmd with
    pos := u.next, done := x.cmd.done + (u.writes.map (·.2)).sum, retries := 0, poisoned := x.cmd.poisoned || poison
    badRead := x.cmd.badRead && u.reads.isEmpty
    wrote := keys.foldl (fun w k => if w.contains k then w else k :: w) x.cmd.wrote }
  let free := c.lines.filter fun l => !c.stillWrites x.runs u.next l.1
  let (s, c) := giveUp s { x with cmd := c } free
  (s.setCopy x.bid c).wakeLines

/-- A unit with the pieces of its reads and its writes, those of a `cpyadd`'s header among the writes it needs. -/
structure Placing where
  unit   : CopyUnit
  reads  : List (List Piece)
  writes : List (List Piece)
  header : List Piece

/-- The translations of a unit, or the first that fails (R343). -/
def placeUnit (s : State) (x : CopyCtx) (u : CopyUnit) : Except CopyStop Placing := do
  let rs ← u.reads.mapM (s.bargePieces x.env x.cmd.ex true false)
  let header ← if x.cmd.adds then s.bargePieces x.env false true true (x.cmd.dst, 32) else .ok []
  let ws ← u.writes.mapM (s.bargePieces x.env false x.cmd.adds true)
  return ⟨u, rs, ws, header⟩

/-- Whether a read of a command waits: for a line an earlier command of the block holds, for one another barge owns, for one that has
not landed, for another group's interval, for a write on its way to a peer (R332, R333, R470, R486). -/
def readWaits (s : State) (x : CopyCtx) (ps : List Piece) : Bool :=
  ps.any (fun p => (s.lineAbsent p && heldEarlier x.blk x.cmd.seq (p.key / 128)) || s.ownedByOther x.blk.core x.cmd.seq p
    || s.notLanded x.env.part p) || s.heldFrom (some x.env.part) ps || s.onItsWay ps

/-- Whether a write of a command waits: for an earlier command of the block, a line that has not landed, another group's interval, room in
the undo log, a peer's window (R332, R435, R470, R478, R486). -/
def writeWaits (s : State) (x : CopyCtx) (u : CopyUnit) (ps : List Piece) : Bool :=
  let key (l : Nat) : Option Nat := (x.cmd.lines.find? (·.1 == l)).map (·.2)
  (u.writes.any fun b => (linesOf b).any fun l => s.sharedEarlier x.blk x.cmd.seq l (key l))
    || ps.any (s.notLanded x.env.part) || s.heldFrom (some x.env.part) ps || s.logFull x.bid ps
    || ps.any fun p => p.peer.any fun m => !s.windowOpen m

/-- Moves a unit whose translations hold, unless it waits. -/
def moveUnit (s : State) (x : CopyCtx) (cores : CoreMask) (y : Placing) : State :=
  let u := y.unit
  let ps := y.writes.flatten
  let keys := ps.map (·.key / 128)
  let (s, c) := s.holdLines x.env x.cmd (u.writes.flatMap linesOf)
  let x := { x with cmd := c }
  let free := c.lines.filter fun l => !c.stillWrites x.runs u.next l.1
  if readWaits s x y.reads.flatten || writeWaits s x u (ps ++ y.header) then s.setCopy x.bid c
  else if !roomFor s { x with cmd := { c with wrote := keys ++ c.wrote } } free 0 then s.setCopy x.bid c
  else
    let turns := u.writes.flatMap fun b => (linesOf b).map fun l => (l, (c.lines.find? (·.1 == l)).map (·.2))
    let verdicts := turns.map fun t => landTurn s x t.1 (t.2.getD 0)
    match verdicts.findSome? fun v => v.bind id with
    | some i => s.setBlock x.bid fun b => { b with copies := b.copies.put c.seq c, copyFault := b.copyFault.or (some i) }
    | none =>
      if verdicts.any (·.isNone) then s.setCopy x.bid c
      else
        let bad := y.reads.map fun r => s.carriesPoison r || c.badRead
        let poison := bad.any id
        let s := s.translated x.env ((y.reads.flatten ++ ps).map (·.va))
        let s := (s.noteWrite x.bid ps).noteReads x.env.part y.reads.flatten
        match c.op, c.region with
        | .add f, some (anchor, cells) =>
          movedOn (addElements s x f ⟨c.dst, y.header, anchor, cells⟩ (y.reads.zip (y.writes.zip bad))) x u keys poison
        | _, _ =>
          let data := c.contents c.pos u (y.reads.map s.readPieces)
          let marks := if c.elementwise then bad else y.writes.map fun _ => poison
          movedOn ((y.writes.zip (data.zip marks)).foldl (fun s w => writeRun s x cores w.1 w.2.1 w.2.2) s) x u keys poison

/-- The longest part of the next unit, short of all of it, whose translations hold. -/
def unitBefore (s : State) (x : CopyCtx) : Option Placing :=
  (List.range (x.cmd.span x.cmd.pos - 1)).reverse.findSome? fun n =>
    match placeUnit s x (x.cmd.move x.runs x.cmd.pos (n + 1)) with
    | .ok y => some y
    | .error _ => none

/-- A command that a translation ends: the bytes before the fault are written (R342). -/
def endBefore (s : State) (x : CopyCtx) (cores : CoreMask) (status : Nat) : State :=
  if x.cmd.adds && x.cmd.region.isNone then endCopy s x status else
  match unitBefore s x with
  | none => endCopy s x status
  | some y =>
    let t := moveUnit s x cores y
    match t.copyOf x.bid x.cmd.seq with
    | none => t
    | some x' =>
      if x'.cmd.pos = x.cmd.pos then t.setCopy x.bid { x'.cmd with state := .active, endWith := some status } else endCopy t x' status

/-- A command meets a translation it cannot use (R343). -/
def stopCopy (s : State) (x : CopyCtx) (cores : CoreMask) (w : CopyStop) : State :=
  match w with
  | .fault a wr => sendRequest s x ⟨a / 2 ^ 19 * 2 ^ 19, wr, false, s.cycle, false⟩
  | .gone => endBefore s x cores 0x0204
  | .unmapped => endBefore s x cores 0x0207

/-- An address in each page that the cells of a `cpyadd` reach: the first cell's and each 512 KiB boundary after it. -/
def CopyCmd.cellPages (c : CopyCmd) : List Nat :=
  let lo := c.dst + 32 + 16 * c.arg 1
  let hi := lo + 16 * c.arg 0
  if c.arg 0 = 0 then [] else lo :: (List.range (hi / 2 ^ 19 - lo / 2 ^ 19)).map fun i => (lo / 2 ^ 19 + 1 + i) * 2 ^ 19

/-- `cpyadd` reads its header, and sees that no cell lies in host or CXL memory before it adds to any (R337, R342). -/
def readHeader (s : State) (x : CopyCtx) (cores : CoreMask) : State :=
  if x.cmd.dst % 32 ≠ 0 then endCopy s x 0x0205
  else match s.bargePieces x.env false true true (x.cmd.dst, 32) with
    | .error w => stopCopy s x cores w
    | .ok ps =>
      if ps.any Piece.foreign then endCopy s x 0x0206
      else if readWaits s x ps then s
      else
        let bs := s.readPieces ps
        if s.carriesPoison ps || !headerValid bs || fieldAt bs 8 4 < x.cmd.arg 0 + x.cmd.arg 1 then endCopy s x 0x0205
        else match x.cmd.cellPages.mapM fun a => s.bargePieces x.env false true true (a, 16) with
          | .error w => stopCopy s x cores w
          | .ok qs =>
            if qs.flatten.any Piece.foreign then endCopy s x 0x0206
            else (s.noteReads x.env.part ps).setCopy x.bid { x.cmd with region := some (intAt bs 4 2, fieldAt bs 8 4) }

/-- Whether a cancel takes effect where a command stands. -/
def CopyCmd.cancelled (c : CopyCmd) : Bool := c.cancel || (match c.cancelAt with | some n => n ≤ c.done | none => false)

/-- An active command does its next move, or begins to end (R343). -/
def stepCopy (s : State) (x : CopyCtx) (cores : CoreMask) : State :=
  let c := x.cmd
  if let some status := c.endWith then (if status < 0x0200 then endCopy s x status else endBefore s x cores status)
  else if c.cancelled then endCopy s x 0x0001
  else if c.adds && c.region.isNone then readHeader s x cores
  else if c.total ≤ c.pos then endCopy s x (if c.poisoned then 0x0003 else 0)
  else match placeUnit s x (c.unitAt x.runs c.pos) with
    | .error w => stopCopy s x cores w
    | .ok y => if c.adds && y.writes.flatten.any Piece.foreign then endCopy s x 0x0206 else moveUnit s x cores y

/-- A barge moves one sector of an active command, whose writes become visible to some cores; a cancel ends any other (R340, R343). -/
def execSectorMove (block : Nat) (a : MoveShow) (s : State) : Answer :=
  match s.movable block a.seq with
  | none => .next s
  | some x =>
    match x.cmd.state with
    | .active => .next (stepCopy s x a.cores)
    | .queued => if x.cmd.cancel || x.cmd.cancelAt == some 0 then .next (endCopy s x 0x0001) else .next s
    | .waiting r => if !r.stamp && x.cmd.cancelled then .next (endCopy s x 0x0001) else .next s
    | _ => .next s

/-- Whether a command of the same core and barge is under way (R330, R343). -/
def State.bargeBusy (s : State) (core seq : Nat) : Bool :=
  s.blocks.any fun b => b.2.core == core && b.2.copies.any fun c => c.1 % 2 == seq % 2 &&
    (match c.2.state with | .active | .waiting _ | .ending => true | _ => false)

/-- A queued command becomes active (R332, R343). -/
def execCommandActive (block seq : Nat) (s : State) : Answer :=
  match s.movable block seq with
  | none => .next s
  | some x =>
    let key (l : Nat) : Option Nat := (x.cmd.lines.find? (·.1 == l)).map (·.2)
    let shares := (x.blk.copies.any fun c => c.1 < seq && c.2.moving)
      && (x.cmd.targetLines x.runs).any fun l => s.sharedEarlier x.blk seq l (key l)
    if x.cmd.state = .queued ∧ s.bargeBusy x.blk.core seq = false ∧ shares = false then
      .next (s.setCopy block { x.cmd with state := .active })
    else .next s

/-! ### Stamps and page requests (R308, R341) -/

/-- The stamp word of a command (R341). -/
def CopyCmd.stampWord (c : CopyCmd) : Nat := c.status * 2 ^ 48 + c.seq

/-- The addresses a command stamps: those of each receiving block for a `cpybc` whose stamp lies in its own run (R335). -/
def CopyCtx.stamps (x : CopyCtx) : List Nat :=
  if x.cmd.stamp = 0 then []
  else if x.cmd.op = .bcast ∧ x.blk.inRun x.cmd.stamp 8 = true then
    x.runs.map fun r => r + (x.cmd.stamp % 2 ^ 21 - 128 * x.blk.sramBase)
  else [x.cmd.stamp]

/-- A command has ended: its barge is free, its block may hold another. -/
def endedCopy (s : State) (x : CopyCtx) : State := (s.setCopy x.bid { x.cmd with state := .ended }).wake .copyQueue

/-- A stamp that cannot be written is counted (R341). -/
def lostStamp (s : State) (x : CopyCtx) : State :=
  endedCopy { s with copyErrors := s.copyErrors.put x.blk.core (s.copyErrors.getD x.blk.core 0 + 1) } x

/-- Writes the stamp as a release to mask | 0x08, or waits: for its page, and with bit 5 until the payload's peers have acknowledged it and
what the barge's release follows (R341, R357, R360). -/
def writeStamp (s : State) (x : CopyCtx) : State :=
  let a : Agent := .barge x.blk.core
  let mask := x.cmd.mask ||| 0x08
  match x.stamps.mapM fun a => s.bargePieces x.env false false true (a, 8) with
  | .ok ps =>
    let own (t : Store) : Bool := t.copy == some x.cmd.seq && t.block == x.bid
    if (mask.getLsbD 5 && s.unacked.any own) || !s.peersDone a mask || ps.flatten.any (s.notLanded x.env.part)
        || s.heldFrom (some x.env.part) ps.flatten || s.logFull x.bid ps.flatten || ps.flatten.any (fun p => p.peer.any fun m => !s.windowOpen m)
    then s
    else
      let s := (s.noteWrite x.bid ps.flatten).publish a mask
      endedCopy (ps.foldl (fun s p => writeRun s x everyCore p (leBytes 8 x.cmd.stampWord) false) s) x
  | .error (.fault a wr) => sendRequest s x ⟨a / 2 ^ 19 * 2 ^ 19, wr, false, s.cycle, true⟩
  | .error _ => lostStamp s x

/-- An ending command writes its stamp (R341, R343). -/
def execCopyEnd (block seq : Nat) (s : State) : Answer :=
  match s.movable block seq with
  | none => .next s
  | some x => if x.cmd.state = .ending then .next (writeStamp s x) else .next s

/-- The translation a command needs next. -/
def nextNeed (s : State) (x : CopyCtx) (stamp : Bool) : Except CopyStop Unit :=
  if stamp then (x.stamps.mapM fun a => s.bargePieces x.env false false true (a, 8)).map fun _ => ()
  else if x.cmd.adds && x.cmd.region.isNone then
    ([(x.cmd.dst, 32)] ++ x.cmd.cellPages.map (·, 16)).forM fun b => (s.bargePieces x.env false true true b).map fun _ => ()
  else (placeUnit s x (x.cmd.unitAt x.runs x.cmd.pos)).map fun _ => ()

/-- Whether the translation a waiting command asked for now holds: what it meets next is no fault of the page it requested (R308, R343). -/
def nowResident (s : State) (x : CopyCtx) (r : PageReq) : Bool :=
  match nextNeed s x r.stamp with
  | .error (.fault a wr) => !(a / 2 ^ 19 * 2 ^ 19 == r.addr && wr == r.write)
  | _ => true

/-- A request that failed for good. -/
def refusedRequest (s : State) (x : CopyCtx) (r : PageReq) (status : Nat) : State :=
  if r.stamp then lostStamp s x else endBefore s x everyCore status

/-- Whether a stop of the context has made a command abandon its request (R344). -/
def State.abandons (s : State) (bid : Nat) : Bool := match s.parts.get? (s.partOf bid) with
  | some pt => pt.ctx.state != 1 && !s.mayIssue bid
  | none => true

/-- The host answers a page request (R308 b, R343); the answer to one that was cancelled or abandoned is ignored (R340, R344). -/
def execPrgResponse (block seq : Nat) (code : PrgCode) (s : State) : Answer :=
  match s.copyOf block seq with
  | none => .next s
  | some x =>
    match x.cmd.state with
    | .waiting r =>
      if !r.sent || s.abandons block || (!r.stamp && x.cmd.cancelled) then .next s else
      match code with
      | .success =>
        if nowResident s x r then .next (s.setCopy block { x.cmd with state := if r.stamp then .ending else .active, retries := 0 })
        else if x.cmd.retries + 1 < 8 then
          .next (s.setCopy block { x.cmd with
            retries := x.cmd.retries + 1, state := .waiting { r with sent := false, from' := s.cycle + 4096 } })
        else .next (refusedRequest s x r 0x0201)
      | .invalid => .next (refusedRequest s x r 0x0202)
      | .failure => .next { refusedRequest s x r 0x0203 with pageRequests := false }
    | _ => .next s

/-- A waiting command sends its request again (R308 c). -/
def execPageRequestRetry (block seq : Nat) (s : State) : Answer :=
  match s.movable block seq with
  | none => .next s
  | some x =>
    match x.cmd.state with
    | .waiting r => if r.sent then .next s else .next (sendRequest s x r)
    | _ => .next s

/-- The host enables the page request interface again (R308 b). -/
def execPageRequestEnable (s : State) : Answer := .next { s with pageRequests := true }

end Sys2Proof.Machine
end

