-- ==== Sys2Proof/Machine/Issue.lean ====
section
/-! DEFINITION. The scheduler of a quarter (spec/05 R133 to R136), slot accounting (spec/28 R538), a path's entry into its line
(spec/03 R89 to R91), and the register pool's grants and evictions (R150 to R154). -/
namespace Sys2Proof.Machine

/-! ### The issue set (R133) -/

/-- Whether a path stands unparked in its warp's issue set. -/
def Warp.inIssue (w : Warp) (i : Nat) : Bool := w.runs i && (w.path i).inSet

/-- The unparked path that has stood outside longest. -/
def Warp.longestOutside (w : Warp) : Option Nat :=
  ((List.range 16).filter fun i => w.runs i && !(w.path i).inSet).foldl
    (fun (best : Option Nat) i => match best with
      | some b => if (w.path i).since < (w.path b).since then some i else best
      | none => some i) none

/-- Free places of the issue set are filled. -/
def Warp.fillSet (w : Warp) : Nat → Warp
  | 0 => w
  | fuel + 1 =>
    if 2 ≤ ((List.range 16).filter w.inIssue).length then w else
    match w.longestOutside with
    | some i => (w.setPath i { w.path i with inSet := true, units := 0 }).fillSet fuel
    | none => w

/-- Paths that have issued 64 units leave for those that wait outside, and free places are filled. -/
def execIssueSetRotation (warp : Nat) (s : State) : Answer :=
  match s.warps.get? warp with
  | none => .next s
  | some w =>
    let w := (List.range 16).foldl (fun (w : Warp) i => if w.inIssue i then w.rotate i s.cycle else w) w
    .next (s.setWarp warp (w.fillSet 2))

/-! ### The choice (R134, R135) -/

/-- From when a path counts as waiting. -/
def Path.age (p : Path) (cycle : Nat) : Nat := p.last.getD (p.readyAt.getD cycle)

/-- The launch of a warp. -/
def State.launchOf (s : State) (w : Warp) : Option Launch := (s.blocks.get? w.block).bind fun b => s.launches.get? b.launch

/-- The launch priority of a warp. -/
def State.priorityOf (s : State) (w : Warp) : Nat := (s.launchOf w).elim 0 (·.priority)

/-- The oldest of some paths, ties to the higher priority, then to the lower slot and index (in which order they are listed). -/
def State.oldestPath (s : State) (xs : List (Nat × Warp × Nat)) : Option (Nat × Warp × Nat) :=
  xs.foldl (fun (best : Option (Nat × Warp × Nat)) x => match best with
    | some b =>
      let a := (x.2.1.path x.2.2).age s.cycle
      let b' := (b.2.1.path b.2.2).age s.cycle
      if a < b' || (a == b' && decide (s.priorityOf b.2.1 < s.priorityOf x.2.1)) then some x else best
    | none => some x) none

/-! The unit of a path as the scheduler sees it (R135, R137). -/

/-- One instruction of a unit: its registers and latches (counted from before the unit), whether it is a vector instruction, and whether
it takes two cycles of the datapath. -/
structure Choice where
  instr   : Instr
  latches : List Nat
  vector  : Bool
  twice   : Bool
deriving DecidableEq, Repr

/-- The instruction a word holds, when it is one, `before` of its latches being places of the unit itself. -/
def choiceOf (i : Instr) (w : IWord) (before : Nat) : Choice where
  instr := i
  latches := (latchesOf w).filterMap fun k => if before < k then some (k - before) else none
  vector := isVectorOp w
  twice := isVectorOp w && ((Fields.ofWord w).fmt == 1 || (Fields.ofWord w).fmt == 5)

/-- The instruction in slot k of a line. -/
def Line.choice (l : Line) (k before : Nat) : List Choice :=
  match decode (l.word k) with
  | .ok (.ximm sel payload) =>
    match decodeGoverned sel payload (l.word (k + 1)) with
    | .instr i => [choiceOf i (l.word (k + 1)) before]
    | _ => []
  | .ok i => [choiceOf i (l.word k) before]
  | .error _ => []

/-- The unit at a path's PC: one instruction, or the two of a pair. A word that is no instruction names no register. -/
def Path.unit (p : Path) : List Choice :=
  match p.line with
  | none => []
  | some l =>
    let k := pcSlot p.pc
    l.choice k 0 ++ (if l.pair k then l.choice (k + 1) 1 else [])

/-- Whether the unit at a path's PC is the first of a pair. -/
def Path.atPair (p : Path) : Bool := match p.line with | some l => l.pair (pcSlot p.pc) | none => false

/-- The registers an instruction may not meet while an earlier result for them is pending. One that moves the vector window names all of
it (log entry 164). -/
def Choice.regs (x : Choice) : List Reg := x.instr.reads ++ x.instr.writes ++ (if x.instr.movesWindow then [.window] else [])

/-- The registers the answer a path awaits will write (R137). -/
def Path.promised (p : Path) : List Reg :=
  match p.await with
  | none => []
  | some a => match a.what with
    | .load r => r.d.regs r.fmt ++ (match r.stream with | some k => [.a k] | none => [])
    | .atomic r => r.d.regs r.fmt
    | .monitor r => r.d.regs r.fmt
    | .cwait r => r.d.regs .none
    | .viewjoin r => r.d.regs .none
    | .ckpt d _ => d.regs .none
    | .grow _ => []

/-- Whether another path's pending answer will write a register of a unit. -/
def Warp.awaitsFor (w : Warp) (i : Nat) : Bool :=
  (List.range 16).any fun j => j != i && (w.path j).promised.any fun r => (w.path i).unit.any fun x => x.regs.any r.meets

/-- Whether no register or latch of a path's unit is held by the interlock (R137). -/
def Warp.unlocked (w : Warp) (i cycle : Nat) : Bool :=
  let p := w.path i
  let busy := w.busy.filter (cycle < ·.2)
  let late := p.latchAt.any (cycle < ·)
  (busy.isEmpty && !late && (List.range 16).all fun j => j == i || (w.path j).await.isNone)
    || (!(w.awaitsFor i) && p.unit.all fun x =>
      (x.regs.all fun r => !(busy.any fun b => b.1.meets r)) && x.latches.all fun k => nth p.latchAt (k - 1) 0 ≤ cycle)

/-- Conditions (a) to (c) of R134: in the issue set, unparked, its line checked. -/
def State.entered (s : State) (w : Warp) (i : Nat) : Bool :=
  w.inIssue i && (w.path i).await.isNone && w.evicted.isNone && (w.path i).line.isSome && s.mayIssue w.block

/-- Whether a path is ready (R134). -/
def State.readyPath (s : State) (w : Warp) (i : Nat) : Bool := s.entered w i && w.unlocked i s.cycle

/-- The warps of a quarter. -/
def State.quarterWarps (s : State) (q : Nat) : NMap Warp := s.warps.filter fun x => quarterOf x.1 == q

/-- The paths of a quarter's warps that satisfy a test. -/
def State.quarterPaths (s : State) (q : Nat) (f : Warp → Nat → Bool) : List (Nat × Warp × Nat) :=
  (s.quarterWarps q).flatMap fun x => (List.range 16).filterMap fun i => if f x.2 i then some (x.1, x.2, i) else none

/-- A path whose pair's first member has issued in this cycle: the second issues with it (R93). -/
def Path.midPair (p : Path) (cycle : Nat) : Bool := p.pairAt == some cycle && p.last == some cycle

/-- The scheduler of a quarter. -/
def State.schedOf (s : State) (q : Nat) : Sched := s.sched.getD q Sched.reset
def State.setSched (s : State) (q : Nat) (f : Sched → Sched) : State := { s with sched := s.sched.put q (f (s.schedOf q)) }

/-- Whether shadow issue is on for a warp (R30). -/
def State.shadowOf (s : State) (w : Warp) : Bool := (s.launchOf w).any (·.shadow)

/-- How many halves a unit takes (R135): both under shadow issue, else one, where it has a vector instruction. The scalar pipe is taken
for one cycle by at most one unit of a cycle, since a second choice is a vector instruction, and so is never held. -/
def halvesOf (shadow : Bool) (u : List Choice) : Nat := if u.any (·.vector) then (if shadow then 2 else 1) else 0

/-- Whether the halves a unit takes are free. -/
def Sched.has (x : Sched) (n cycle : Nat) : Bool := n ≤ (decide (x.half0 ≤ cycle)).toNat + (decide (x.half1 ≤ cycle)).toNat

/-- The halves a unit takes are held until a cycle. -/
def Sched.hold (x : Sched) (n cycle till : Nat) : Sched :=
  match n with
  | 0 => x
  | 1 => if x.half0 ≤ cycle then { x with half0 := till } else { x with half1 := till }
  | _ => { x with half0 := till, half1 := till }

/-- The cycle from which the halves a unit takes are free again: one cycle, or two for a 64-bit format (R135). -/
def heldTill (u : List Choice) (cycle : Nat) : Nat := if u.any (·.twice) then cycle + 2 else cycle + 1

/-- A warp whose path's unit issues in a cycle: when each result may be read (R137; shadow issue adds a cycle to a vector instruction). -/
def Warp.issues (w : Warp) (i cycle : Nat) (shadow : Bool) : Warp :=
  let p := w.path i
  let late (x : Choice) : Nat := cycle + x.instr.latency + (x.vector && shadow).toNat
  let busy : List (Reg × Nat) := p.unit.flatMap fun x => x.instr.writes.map fun r => (r, late x + 1)
  let old := w.busy.filter fun (r : Reg × Nat) => cycle < r.2
  { w with busy := busy ++ old }.setPath i { p with
    latchAt := (p.unit.foldl (fun t x => late x :: t) p.latchAt).take 8, pairAt := if p.atPair then some cycle else none }

/-- The unit of a path starts in this cycle. -/
def State.startUnit (s : State) (q : Nat) (x : Nat × Warp × Nat) : State :=
  let u := (x.2.1.path x.2.2).unit
  let shadow := s.shadowOf x.2.1
  (s.setWarp x.1 (x.2.1.issues x.2.2 s.cycle shadow)).setSched q fun y => y.hold (halvesOf shadow u) s.cycle (heldTill u s.cycle)

/-- Whether a unit is an unpaired single-cycle vector instruction with shadow issue off (R136 a, c). -/
def State.dualUnit (s : State) (w : Warp) (i : Nat) : Bool :=
  !(s.shadowOf w) && !(w.path i).atPair && (match (w.path i).unit with | [x] => x.vector && !x.twice | _ => false)

/-- The first choice (R135): the path chosen before whose resources were held, else the oldest ready path. -/
def State.firstChoice (s : State) (q : Nat) : Option (Nat × Warp × Nat) :=
  let ready := s.quarterPaths q s.readyPath
  match ready.find? fun (x : Nat × Warp × Nat) => (s.schedOf q).pick == some (x.1, x.2.2) with
  | some x => some x
  | none => s.oldestPath ready

/-- The second choice (R136), after the first has started. -/
def State.secondChoice (s : State) (q : Nat) (first : Nat × Warp × Nat) : Option (Nat × Warp × Nat) :=
  if s.dualUnit first.2.1 first.2.2 && (s.schedOf q).has 1 s.cycle then
    s.oldestPath ((s.quarterPaths q fun w i => s.readyPath w i && s.dualUnit w i).filter fun x => x.1 != first.1)
  else none

/-- The first choice issues in the next step, with the second choice after it; the slot counts for its leaf (R538). -/
def State.issueFirst (s : State) (q : Nat) (x : Nat × Warp × Nat) : State :=
  let t := s.startUnit q x
  let go (t : State) (leaf : Nat) (y : Option (Nat × Nat)) : State :=
    { (t.setSched q fun z => { z with pick := none, second := y }).countSlot q leaf with
      focus := some (.path x.1 x.2.2 none), issued := q :: t.issued }
  match t.secondChoice q x with
  | some y => go (t.startUnit q y) 3 (some (y.1, y.2.2))
  | none => go t (if (x.2.1.path x.2.2).atPair then 2 else 1) none

/-- The scheduler of a quarter: the second member of a pair goes with the first, the second choice with the first choice; else the first
choice of the cycle issues its unit in the next step, or holds the slot while its resources are held. -/
def execIssueCycle (core quarter : Nat) (s : State) : Answer :=
  let q := 4 * core + quarter
  if s.focus.isSome || 512 ≤ core || 4 ≤ quarter then .next s else
  match (s.quarterPaths q fun w i => s.entered w i && (w.path i).midPair s.cycle).head? with
  | some x => .next { s.setPath x.1 x.2.2 fun p => { p with pairAt := none } with focus := some (.path x.1 x.2.2 none) }
  | none =>
    match (s.schedOf q).second with
    | some y =>
      let t := s.setSched q fun z => { z with second := none }
      .next (if (s.warps.get? y.1).any fun w => s.entered w y.2 then { t with focus := some (.path y.1 y.2 none) } else t)
    | none =>
      if s.issued.contains q then .next s else
      match s.firstChoice q with
      | none => .next s
      | some x =>
        if (s.schedOf q).has (halvesOf (s.shadowOf x.2.1) (x.2.1.path x.2.2).unit) s.cycle then .next (s.issueFirst q x)
        else .next (s.setSched q fun z => { z with pick := some (x.1, x.2.2) })

/-! ### Slots that issue nothing (R538) -/

/-- The leaf of a park reason. -/
def ParkReason.leaf : ParkReason → Nat
  | .presence => 19 | .recall => 20 | .copyQueue => 21 | .barrier => 12 | .barrierAfterArrival => 12 | .semaphore => 13
  | .monitor => 14 | .collQueue => 16 | .stream => 17 | .fence => 11 | .grow => 9 | .evicted => 9 | .pathTable => 6
  | .halted => 25 | .debugHold => 26

/-- The leaf of a parked path's slot: the reason's, but a wait for a busy tile (`mchk`, R286) has its own. -/
def Path.parkLeaf (p : Path) (r : ParkReason) : Nat :=
  match r, p.unit.map Choice.instr with
  | .stream, [.mchk _ _ _ _] => 18
  | _, _ => r.leaf

/-- The leaf of a quarter whose slot issues nothing. -/
def State.idleLeaf (s : State) (q : Nat) : Nat :=
  let pt := s.parts.find? fun p => p.2.cores.contains (q / 4)
  if pt.any fun p => p.2.ctx.state == 2 || p.2.ctx.state == 5 then 23
  else if pt.any fun p => p.2.ck.closing || p.2.ck.due then 24
  else match s.oldestPath (s.quarterPaths q fun w i => (w.path i).state != .free) with
    | none => 22
    | some (wid, w, i) =>
      let p := w.path i
      if w.halted then 25 else
      match p.state with
      | .parked r => p.parkLeaf r
      | .waitingGroup | .heldRemainder => 15
      | _ =>
        if w.evicted.isSome then 9
        else if w.heldByCall p then 15
        else if p.line.isNone then 5
        else if p.await.isSome || w.awaitsFor i then 10
        else if (s.schedOf q).pick == some (wid, i) then 8
        else 7

/-- The quarters that hold warps. -/
def State.quarters (s : State) : List Nat := (s.warps.map fun x => quarterOf x.1).eraseDups

/-- Paths that have never issued and are ready count from this cycle (R135). -/
def State.noteReady (s : State) (w : Warp) : Warp :=
  let fresh (i : Nat) : Bool := (w.path i).last.isNone && (w.path i).readyAt.isNone && s.readyPath w i
  if (List.range 16).any fresh then
    { w with paths := w.paths.zipIdx.map fun p => if fresh p.2 then { p.1 with readyAt := some s.cycle } else p.1 }
  else w

/-- A cycle ends: quarters that issued nothing count their slot. -/
def State.tick (s : State) : State :=
  let s := (s.quarters.filter fun q => !s.issued.contains q).foldl (fun (s : State) q => s.countSlot q (s.idleLeaf q)) s
  let warps := s.warps.map fun x => (x.1, s.noteReady x.2)
  { s with warps := warps, cycle := s.cycle + 1, issued := s.issued.filterMap reissueOf }.ageWrites.grantForks

/-! ### Entering a line (R89 to R91, R94) -/

/-- A path enters the line of its PC: the line stands, or the first failing check. -/
def State.enterLine (s : State) (c : Ctx) : State × Option PcFault :=
  match checkPc c.p.pc with
  | .error f => (s, some f)
  | .ok _ => match s.fetchLine c.env (coreOf c.wid) (.fetch c.wid c.pidx) (pcLineAddr c.p.pc) with
    | (t, .error f) => (t, some f)
    | (t, .ok l) =>
      if c.p.entering && !(pcSlot c.p.pc == 0 && l.target 0) then (t, some (0x03, 0, c.p.pc))
      else (t.setPath c.wid c.pidx fun p => { p with line := some l }, none)

/-- The trap of a refused entry. -/
def State.entryTrap (s : State) (c : Ctx) (f : PcFault) : State :=
  s.takeTrap c.wid c.pidx ⟨f.1, f.2.1, f.2.2, c.p.mask⟩ (unitOf c.p none)

/-- Fetch reads and checks a line a path enters. -/
def execLineFetch (warp path : Nat) (s : State) : Answer :=
  match s.ctx? warp path none with
  | none => .next s
  | some c =>
    if c.p.line.isSome || !s.mayIssue c.bid then .next s else
    match s.enterLine c with
    | (t, none) => .next t
    | (t, some f) => .next { t.entryTrap c f with focus := s.focus }

/-! ### The register pool (R150 to R153) -/

/-- Serves a waiting request where its whole increase fits. A count the warp has meanwhile grown past traps as at issue (R174). -/
def State.serveGrow (s : State) (q : Nat) (g : Nat × Nat × Nat) : Option State :=
  match s.requesting g.1 g.2.1 with
  | some (c, .grow n) =>
    if !s.mayIssue c.bid then none
    else if growable c.w n = false then some (s.answeredTrap c ⟨0x15, 0x04, BitVec.ofNat 64 n, c.p.mask⟩)
    else if granules n - granules c.w.n ≤ s.freeGranules q then some (s.answered c (c.w.relocate n) .none)
    else none
  | _ => none

/-- The waiting requests of a quarter that may be served, oldest first: of each warp its first (R174), and once the oldest has waited
4,096 cycles no other (R150). -/
def State.growTurns (s : State) (q : Nat) : List (Nat × Nat × Nat) :=
  match sortBy (fun x y => x.2.2 ≤ y.2.2) (s.growers q) with
  | [] => []
  | g :: r => if g.2.2 + 4096 ≤ s.cycle then [g] else
    (g :: r).foldl (fun acc x => if acc.any (·.1 == x.1) then acc else acc ++ [x]) []

/-- Serves waiting requests in their order. -/
def State.serveGrows (s : State) (q : Nat) : Nat → State
  | 0 => s
  | fuel + 1 =>
    match (s.growTurns q).findSome? (s.serveGrow q) with
    | some t => t.serveGrows q fuel
    | none => s

/-- The evicted warp of a quarter that was evicted earliest. -/
def State.firstEvicted (s : State) (q : Nat) : Option (Nat × Warp) :=
  ((s.quarterWarps q).filter fun x => x.2.evicted.isSome).foldl (fun (best : Option (Nat × Warp)) x => match best with
    | some b => if x.2.evicted.getD 0 < b.2.evicted.getD 0 then some x else best
    | none => some x) none

/-- The earliest evicted warp returns, where its whole allocation fits. -/
def State.returnEvicted (s : State) (q : Nat) : Option State :=
  match s.firstEvicted q with
  | some (wid, w) => if granules w.n ≤ s.freeGranules q then some (s.setWarp wid { w with evicted := none }) else none
  | none => none

/-- Evicted warps return in their order as far as they fit. -/
def State.returnAll (s : State) (q : Nat) : Nat → State
  | 0 => s
  | fuel + 1 => match s.returnEvicted q with
    | some t => t.returnAll q fuel
    | none => s

/-- The free granules of a quarter have been offered: those that stand now go to no evicted warp until others are freed (R150). -/
def State.granulesOffered (s : State) (q : Nat) : State := s.setSched q fun z => { z with spare := s.freeGranules q }

/-- Granules freed otherwise than by an eviction are offered with the rest: to returning warps, and then to waiting requests (R150). -/
def execGranuleGrant (core quarter : Nat) (s : State) : Answer :=
  let q := 4 * core + quarter
  if s.freeGranules q ≤ (s.schedOf q).spare then .next (if s.freeGranules q = (s.schedOf q).spare then s else s.granulesOffered q) else
  let s := s.returnAll q 16
  .next ((if (s.firstEvicted q).isSome then s else s.serveGrows q (s.growers q).length).granulesOffered q)

/-- An evicted warp returns (R153), where granules have been freed otherwise than by an eviction (R150). -/
def execEvictedWarpReturn (core quarter : Nat) (s : State) : Answer :=
  let q := 4 * core + quarter
  .next (if (s.schedOf q).spare < s.freeGranules q then (s.returnEvicted q).getD s else s)

/-- Whether a warp is parked: none of its paths may issue (R151, with R159 and R458). -/
def Warp.parked (w : Warp) : Bool := (List.range 16).all fun i => !w.runs i

/-- The victim (R151, R152). -/
def State.victim (s : State) (q : Nat) : Option (Nat × Warp) :=
  let waits (x : Nat × Warp) : Bool := (s.growers q).any fun g => g.1 == x.1
  let key (x : Nat × Warp) : Nat × Nat := (s.priorityOf x.2, (s.blocks.get? x.2.block).elim 0 (·.placed))
  ((s.quarterWarps q).filter fun x => x.2.evicted.isNone && x.2.parked && !x.2.halted && !waits x).foldl
    (fun (best : Option (Nat × Warp)) x => match best with
      | some b => if (key b).1 < (key x).1 || ((key b).1 == (key x).1 && (key x).2 < (key b).2) then best else some x
      | none => some x) none

/-- The order number of the next eviction of a quarter. -/
def State.nextEviction (s : State) (q : Nat) : Nat := ((s.quarterWarps q).map fun x => x.2.evicted.elim 0 (· + 1)).foldl max 0

/-- A quarter evicts a warp for a waiting `grow`, and offers what is free to those that wait (R150 to R152). While an evicted warp waits
no request is served from the free granules but at an eviction, so none can be served for R151 (a) then. -/
def execWarpEviction (core quarter : Nat) (s : State) : Answer :=
  let q := 4 * core + quarter
  let gs := s.growers q
  let served := (s.firstEvicted q).isNone && (s.growTurns q).any fun g => (s.serveGrow q g).isSome
  if gs.isEmpty || served || !((s.quarterWarps q).all fun x => x.2.parked || x.2.evicted.isSome)
  then .next s
  else match s.victim q with
    | none => .next s
    | some (wid, w) =>
      let s := s.setWarp wid { w with evicted := some (s.nextEviction q) }
      .next ((s.serveGrows q gs.length).granulesOffered q)

end Sys2Proof.Machine
end

