-- ==== Sys2Proof/Machine/Sha.lean ====
section
/-! DEFINITION. SHA-384 (FIPS 180-4), which the digests of spec/27 R513, R514 and the measurements of spec/29 use: an outside standard
the spec names (log entry 41). Its constants are computed as that standard defines them: the first 64 bits of the fractional parts of
roots of primes. -/
namespace Sys2Proof.Machine

/-- The greatest x below 2^k with x ^ e ≤ n. -/
def rootFloor (e n : Nat) : Nat → Nat → Nat
  | 0, x => x
  | k + 1, x => let y := x + 2 ^ k; rootFloor e n k (if y ^ e ≤ n then y else x)

/-- Whether a number from 2 on is prime. -/
def isPrime (n : Nat) : Bool := 2 ≤ n && (List.range n).all fun d => d < 2 || n % d != 0

/-- The first 80 primes. -/
def shaPrimes : List Nat := ((List.range 410).filter isPrime).take 80

/-- The 80 round constants. -/
def shaK : List Nat := shaPrimes.map fun p => rootFloor 3 (p * 2 ^ 192) 68 0 % 2 ^ 64

/-- The initial hash value of SHA-384: the ninth to sixteenth primes. -/
def shaInit : List Nat := ((shaPrimes.drop 8).take 8).map fun p => rootFloor 2 (p * 2 ^ 128) 68 0 % 2 ^ 64

def shaRotr (n x : Nat) : Nat := x / 2 ^ n + x % 2 ^ n * 2 ^ (64 - n)
def shaXor (a b c : Nat) : Nat := Nat.xor a (Nat.xor b c)
def shaBig0 (x : Nat) : Nat := shaXor (shaRotr 28 x) (shaRotr 34 x) (shaRotr 39 x)
def shaBig1 (x : Nat) : Nat := shaXor (shaRotr 14 x) (shaRotr 18 x) (shaRotr 41 x)
def shaSmall0 (x : Nat) : Nat := shaXor (shaRotr 1 x) (shaRotr 8 x) (x / 2 ^ 7)
def shaSmall1 (x : Nat) : Nat := shaXor (shaRotr 19 x) (shaRotr 61 x) (x / 2 ^ 6)
def shaCh (x y z : Nat) : Nat := Nat.xor (x &&& y) ((2 ^ 64 - 1 - x) &&& z)
def shaMaj (x y z : Nat) : Nat := shaXor (x &&& y) (x &&& z) (y &&& z)

/-- The message schedule, newest word first: `n` more words. -/
def shaSchedule : Nat → List Nat → List Nat
  | 0, w => w
  | n + 1, w =>
    shaSchedule n ((shaSmall1 (nth w 1 0) + nth w 6 0 + shaSmall0 (nth w 14 0) + nth w 15 0) % 2 ^ 64 :: w)

/-- One round: the eight working variables in order. -/
def shaRound (v : List Nat) (kw : Nat × Nat) : List Nat :=
  match v with
  | [a, b, c, d, e, f, g, h] =>
    let t1 := h + shaBig1 e + shaCh e f g + kw.1 + kw.2
    let t2 := shaBig0 a + shaMaj a b c
    [(t1 + t2) % 2 ^ 64, a, b, c, (d + t1) % 2 ^ 64, e, f, g]
  | _ => v

/-- One block of 128 bytes. -/
def shaBlock (h : List Nat) (block : List Byte) : List Nat :=
  let words := (List.range 16).map fun i => ((block.drop (8 * i)).take 8).foldl (fun n b => n * 256 + b.toNat) 0
  let w := (shaSchedule 64 words.reverse).reverse
  List.zipWith (fun x y => (x + y) % 2 ^ 64) h ((shaK.zip w).foldl shaRound h)

/-- Blocks of 128 bytes. -/
def shaBlocks : Nat → List Nat → List Byte → List Nat
  | 0, h, _ => h
  | n + 1, h, bs => shaBlocks n (shaBlock h (bs.take 128)) (bs.drop 128)

/-- The bytes of a number, highest first. -/
def beBytes (n v : Nat) : List Byte := (leBytes n v).reverse

/-- SHA-384: 48 bytes. -/
def sha384 (m : List Byte) : List Byte :=
  let pad := (239 - m.length % 128) % 128
  let all := m ++ (0x80 :: zeros pad) ++ beBytes 16 (8 * m.length)
  ((shaBlocks (all.length / 128) shaInit all).take 6).flatMap (beBytes 8)

end Sys2Proof.Machine
end

