-- ==== Sys2Proof/Machine/Asder.lean ====
section
/-! DEFINITION. Asder objects (spec/01 R45 to R51): the header, the 16-byte operations, what makes a translation fail, and how the threads
of a logical block stand on the lanes and in the SRAM of the native one. -/
namespace Sys2Proof.Machine

/-! ### The object (R45, R46) -/

/-- The header of an object (R45). -/
structure AsderHead where
  magic   : Nat
  version : Nat
  opsOff  : Nat
  count   : Nat
  hash    : Nat
  entry   : Nat
  /-- The zero bytes at 0x06 and from 0x30 on. -/
  zeros   : Nat
deriving DecidableEq, Repr

/-- The header's fields in its 64 bytes. -/
def AsderHead.ofBytes (bs : List Byte) : AsderHead where
  magic := fieldAt bs 0x00 4
  version := fieldAt bs 0x04 2
  opsOff := fieldAt bs 0x08 8
  count := fieldAt bs 0x10 8
  hash := fieldAt bs 0x18 16
  entry := fieldAt bs 0x28 8
  zeros := fieldAt bs 0x06 2 + 2 ^ 16 * fieldAt bs 0x30 16

/-- An operation (R46): its native-like word and the fields of its tail word. -/
structure AsderOp where
  word : IWord
  line : Nat
  kind : Nat
  zero : Nat
  vdst : Nat
deriving DecidableEq, Repr

/-- The operation in 16 bytes. -/
def AsderOp.ofBytes (bs : List Byte) : AsderOp :=
  let tail := BitVec.ofNat 32 (fieldAt bs 12 4)
  { word := BitVec.ofNat 96 (fieldAt bs 0 12)
    line := (tail.extractLsb' 16 16).toNat
    kind := (tail.extractLsb' 14 2).toNat
    zero := (tail.extractLsb' 10 4).toNat
    vdst := (tail.extractLsb' 0 10).toNat }

/-- The tail word of an operation. -/
def AsderOp.tail (o : AsderOp) : BitVec 32 :=
  BitVec.ofNat 16 o.line ++ BitVec.ofNat 2 o.kind ++ BitVec.ofNat 4 o.zero ++ BitVec.ofNat 10 o.vdst

/-- The 16 bytes of an operation. -/
def AsderOp.bytes (o : AsderOp) : List Byte := leBytes 12 o.word.toNat ++ leBytes 4 o.tail.toNat

/-- The operation as an instruction over virtual registers: source fields name registers 0 to 1,023 of their class, and the tail names
the destination (R46 a, b). -/
def AsderOp.instr (o : AsderOp) : Option Instr := { Fields.ofWord o.word with di := o.vdst }.build

/-- Whether an operation breaks a region. -/
def AsderOp.breaks (o : AsderOp) : Bool := o.kind == 1

/-- The operations of a section of bytes. -/
def asderOps : Nat → List Byte → List AsderOp
  | 0, _ => []
  | n + 1, bs => AsderOp.ofBytes (bs.take 16) :: asderOps n (bs.drop 16)

/-! ### What fails (R47) -/

/-- An opcode the native map marks illegal; pages 0xD0 to 0xEF are future space and are passed through. -/
def asderIllegal (op : Nat) : Bool := !opcodeAssigned op && op != 0xF0 && !(decide (0xD0 ≤ op) && decide (op ≤ 0xEF))

/-- A word that no object may contain: pages 0x90 to 0xCF, `bara`, `barw`, `bars`, a latch source, an illegal opcode, a destination
index. -/
def asderWordBad (w : IWord) : Bool :=
  let f := Fields.ofWord w
  (decide (0x90 ≤ f.op) && decide (f.op ≤ 0xCF)) || asderIllegal f.op || f.di != 0 || !(latchesOf w).isEmpty
    || (match f.build with | some (.bara _ _ _ _) | some (.barw _ _ _) | some (.bars _ _ _ _) => true | _ => false)

/-- An operation on which translation fails; the word of a region break is not looked at (log entry 167). -/
def AsderOp.bad (o : AsderOp) : Bool := 2 ≤ o.kind || o.zero != 0 || (o.kind == 0 && asderWordBad o.word)

/-- A header that is none of an object, or whose zero bytes are not zero; `key` is the packet's code hash (R45, R47). -/
def AsderHead.bad (h : AsderHead) (key : Nat) : Bool :=
  h.magic != 0x52445341 || h.version != 1 || h.zeros != 0 || h.opsOff % 16 != 0 || h.hash != key || h.count ≤ h.entry

/-- An object as the translator reads it. -/
structure Asder where
  head : AsderHead
  ops  : List AsderOp
deriving DecidableEq, Repr

/-- The object at an address: none where it cannot be read, its header is none of an object, or its operations do not have its hash. -/
def State.asderAt (s : State) (part a key : Nat) : Option Asder :=
  match s.readPlain ⟨part, 0⟩ a 64 with
  | .error _ => none
  | .ok bs =>
    let h := AsderHead.ofBytes bs
    if h.bad key then none else
    match s.readPlain ⟨part, 0⟩ (a + h.opsOff) (16 * h.count) with
    | .error _ => none
    | .ok ops => if leNat ((sha384 ops).take 16) = h.hash then some ⟨h, asderOps h.count ops⟩ else none

/-- Whether an object can be translated (R47). -/
def Asder.sound (o : Asder) : Bool := !(o.ops.any AsderOp.bad)

/-! ### Threads on lanes (R48) -/

/-- Lanes of the native block of S threads. -/
def nativeLanes (threads : Nat) : Nat := min threads 1024

/-- The logical threads that lane l runs in each region, in their order. -/
def laneThreads (threads l : Nat) : List Nat :=
  ((List.range (ceilDiv threads (nativeLanes threads))).map (l + nativeLanes threads * ·)).filter (· < threads)

/-- The lane that runs a thread, and the thread's quad. -/
def threadLane (threads t : Nat) : Nat := t % nativeLanes threads
def threadQuad (t : Nat) : Nat := t / 4

/-- The barrier that a region break arrives at and waits on, which an Asder kernel does without. -/
def regionBarrier : Nat := 15

/-! ### Virtual registers live across a region break (R48) -/

/-- What an operation does to virtual registers: those it reads, those it surely writes, and the operations that may follow it. -/
structure AsderFlow where
  reads : List Reg
  kills : List Reg
  next  : List Nat
  break' : Bool
deriving DecidableEq, Repr

/-- The branch offset of an instruction, in operations (R46 c), and whether the next operation may follow it too. -/
def Instr.flow : Instr → Option Int × Bool
  | .br g o => (some o, g.p != 0 || g.neg)
  | .bre _ _ _ o | .mark o | .call _ o => (some o, true)
  | .jmpx _ | .ret => (none, false)
  | _ => (none, true)

/-- The flow of operation i. -/
def AsderOp.flow (o : AsderOp) (i : Nat) : AsderFlow :=
  if o.breaks then ⟨[], [], [i + 1], true⟩ else
  match o.instr with
  | none => ⟨[], [], [i + 1], false⟩
  | some x =>
    let sure := (Fields.ofWord o.word).pred == 0 && !(Fields.ofWord o.word).neg
    let (off, falls) := Instr.flow x
    let far := match off with | some d => if 0 ≤ (i : Int) + d then [((i : Int) + d).toNat] else [] | none => []
    ⟨x.reads, if sure then x.results else [], far ++ (if falls then [i + 1] else []), false⟩

/-- One round over the operations: a register is live before one that reads it, or where it is live after and not written. -/
def liveRound (fs : List AsderFlow) (live : List (List Reg)) : List (List Reg) :=
  fs.map fun f => (f.reads ++ (f.next.flatMap fun k => nth live k []).filter fun r => !f.kills.contains r).eraseDups

def liveRounds (fs : List AsderFlow) : Nat → List (List Reg) → List (List Reg)
  | 0, live => live
  | n + 1, live => liveRounds fs n (liveRound fs live)

/-- Registers live before each operation. -/
def liveBefore (fs : List AsderFlow) : List (List Reg) := liveRounds fs (fs.length + 1) (fs.map fun _ => [])

/-- The virtual registers live across some region break. -/
def Asder.spilled (o : Asder) : List Reg :=
  let fs := o.ops.zipIdx.map fun x => x.1.flow x.2
  (((fs.zip (liveBefore fs)).filter fun x => x.1.break').flatMap (·.2)).eraseDups

/-- Bits of a virtual register of one thread. -/
def Reg.bits : Reg → Nat
  | .v _ => 32
  | .s _ => 64
  | .a _ => 196
  | .p _ => 1
  | _ => 0

/-- Lines of SRAM that hold these registers for S threads: the translator adds no fewer. -/
def spillLines (threads : Nat) (rs : List Reg) : Nat := ceilDiv (threads * (rs.map Reg.bits).sum) 1024

/-! ### The translator's answer (R48, R51) -/

/-- Whether native values are those of a translation of an object for S threads: L lanes, and room for the spilled registers. -/
def Launch.maps (n : Launch) (o : Asder) (threads : Nat) : Bool :=
  n.lanes == nativeLanes threads && spillLines threads o.spilled ≤ n.sramLines

end Sys2Proof.Machine
end

