-- ==== Sys2Proof/Machine/Place.lean ====
section
/-! DEFINITION. The distributor (spec/02 R72 to R85): clusters in their order, where a block fits, ranks reserved on a target group,
and a cluster's blocks placed with the registers a warp starts with (spec/05 R142, spec/06 R155, spec/18 R383). -/
namespace Sys2Proof.Machine

/-! ### The order of clusters (R72, R80) -/

/-- d2xy of R80 on fuel: `s` doubles while below `n`. -/
def d2xyStep (n : Nat) : Nat → Nat → Nat → Nat → Nat → Nat × Nat
  | 0, _, _, x, y => (x, y)
  | fuel + 1, s, t, x, y =>
    if n ≤ s then (x, y) else
      let rx := t / 2 % 2
      let ry := (t % 2 + rx) % 2
      let (x, y) := if ry = 0 then (if rx = 1 then (s - 1 - y, s - 1 - x) else (y, x)) else (x, y)
      d2xyStep n fuel (2 * s) (t / 4) (x + s * rx) (y + s * ry)

/-- d2xy(N, d). -/
def d2xy (n d : Nat) : Nat × Nat := d2xyStep n 64 1 d 0 0

/-- The smallest power of two at least m. -/
def powerUp (m : Nat) : Nat := 2 ^ ((List.range 33).find? fun k => m ≤ 2 ^ k).getD 33

/-- The k-th point of a plane that the walk meets, from distance d on. -/
def curveFrom (kx ky n : Nat) : Nat → Nat → Nat → Nat × Nat
  | 0, _, _ => (0, 0)
  | fuel + 1, d, k =>
    let p := d2xy n d
    if p.1 < kx ∧ p.2 < ky then (if k = 0 then p else curveFrom kx ky n fuel (d + 1) (k - 1))
    else curveFrom kx ky n fuel (d + 1) k

/-- The cluster met k-th: its coordinates (R72, R80). -/
def Launch.clusterAt (l : Launch) (k : Nat) : Nat × Nat × Nat :=
  let plane := l.kx * l.ky
  if l.det = 3 then
    let n := powerUp (max l.kx l.ky)
    let p := curveFrom l.kx l.ky n (n * n) 0 (k % plane)
    (p.1, p.2, k / plane)
  else (k % l.kx, k / l.kx % l.ky, k / plane)

/-- The linear index of the cluster met k-th. -/
def Launch.clusterIndex (l : Launch) (k : Nat) : Nat :=
  let p := l.clusterAt k
  p.1 + l.kx * (p.2.1 + l.ky * p.2.2)

/-- The linear index of the block of rank j of the cluster met k-th (R20). -/
def Launch.blockIndex (l : Launch) (k j : Nat) : Nat :=
  let p := l.clusterAt k
  let x := p.1 * l.cx + j % l.cx
  let y := p.2.1 * l.cy + j / l.cx % l.cy
  let z := p.2.2 * l.cz + j / l.cx / l.cy
  x + l.gx * (y + l.gy * z)

/-! ### Where a block fits (R22, R74, R76, R77, R84) -/

/-- How many blocks count for a core's rotation: of the context, or in canonical mode of the launch (R76). -/
def rotKey (lid core : Nat) (l : Launch) : Nat := if l.det = 3 then 512 * (lid + 1) + core else core

/-- The rotation of the next block on a core: reservations there count as placed in their order (log entry 165). -/
def State.nextRot (s : State) (lid core : Nat) (l : Launch) : Nat :=
  s.rot.getD (rotKey lid core l) 0 + (if l.det = 3 then 0 else (s.reservedOn core).length)

/-- The warp slots of a quarter that hold a warp or a translator block, and that waiting clusters hold. -/
def State.usedSlots (s : State) (q : Nat) : Nat :=
  (s.warps.filter fun x => quarterOf x.1 == q).length + (s.sysBlocks.filter fun x => quarterOf x.1 == q).length
    + ((s.reservedOn (q / 4)).map fun r => warpsOnQuarter r.2.blockWarps r.1.rot (q % 4)).sum

/-- The slots of a quarter: 16, less the system queue's. -/
def State.quarterSlots (s : State) (q : Nat) : Nat := if q % 4 == 0 && s.systemCore (q / 4) then 15 else 16

/-- Granules a quarter offers to placement: those in excess of what its evicted warps wait to take back. -/
def State.offered (s : State) (q : Nat) : Nat :=
  s.freeGranules q - (s.warps.map fun x => if quarterOf x.1 == q && x.2.evicted.isSome then granules x.2.n else 0).sum

/-- SRAM runs of a core that are taken: blocks, reservations, translator blocks, and the system queue's last 512 lines. -/
def State.usedRuns (s : State) (core : Nat) : List (Nat × Nat) :=
  let here (b : Block) : Bool :=
    (s.parts.get? (partOfLaunch b.launch)).elim false fun p => p.slices.get? b.home == some (Slice.physical core)
  ((s.blocks.filter fun b => here b.2).map fun b => (b.2.sramBase, b.2.sramLen))
    ++ (s.launches.flatMap fun l => match l.2.wait with
        | some cw => (cw.reserved.filter (·.core == core)).map fun r => (r.base, l.2.sramLines)
        | none => [])
    ++ ((s.sysBlocks.filter fun x => coreOf x.1 == core).map fun x => (x.2, 512))
    ++ (if s.systemCore core then [(15872, 512)] else [])

/-- The lowest free run of lines (R77). -/
def State.freeRun (s : State) (core lines : Nat) : Option Nat :=
  if lines = 0 then some 0 else
  let used := s.usedRuns core
  let fits (b : Nat) : Bool := b + lines ≤ 16384 && used.all fun r => r.2 == 0 || b + lines ≤ r.1 || r.1 + r.2 ≤ b
  (0 :: used.map fun r => r.1 + r.2).foldl (fun (best : Option Nat) b =>
    if fits b then (match best with | some x => some (min x b) | none => some b) else best) none

/-- Whether the quarters of a core have slots and granules for warps of these allocations, warp j on quarter (j + rot) mod 4 (R76). -/
def State.warpsFit (s : State) (core rot : Nat) (ns : List Nat) : Bool :=
  (List.range 4).all fun k =>
    let q := 4 * core + k
    let mine := (ns.zipIdx.filter fun x => (x.2 + rot) % 4 == k).map fun x => granules x.1
    s.usedSlots q + mine.length ≤ s.quarterSlots q && mine.sum ≤ s.offered q

/-- The place a block takes on a core, when it fits there (R76). -/
def State.fits (s : State) (lid core : Nat) (l : Launch) : Option Spot :=
  let rot := s.nextRot lid core l
  if s.warpsFit core rot (List.replicate l.blockWarps l.regs) then (s.freeRun core l.sramLines).map fun b => ⟨core, b, rot⟩ else none

/-- The groups of a partition, ascending. -/
def Partition.groupList (p : Partition) : List Nat := (List.range 32).filter p.groups.getLsbD

/-- A core's free granules. -/
def State.coreGranules (s : State) (core : Nat) : Nat := ((List.range 4).map fun k => s.freeGranules (4 * core + k)).sum

/-- Group and core of rank j of the cluster with curve index k (R81). -/
def Partition.canonGroup (pt : Partition) (k : Nat) : Nat := nth pt.groupList (k % pt.groupList.length) 0
def Partition.canonCore (pt : Partition) (k j : Nat) : Nat := 16 * pt.canonGroup k + (k / pt.groupList.length + j) % 16

/-- The place of a group that takes a rank (R74 b, R81). -/
def State.rankCore (s : State) (pt : Partition) (lid : Nat) (l : Launch) (turn group j : Nat) : Option Spot :=
  if l.det = 3 then s.fits lid (pt.canonCore turn j) l
  else
    ((List.range 16).map (16 * group + ·)).foldl (fun (best : Option Spot) core =>
      match s.fits lid core l, best with
      | some b, some x => if s.coreGranules x.core < s.coreGranules core then some b else best
      | some b, none => some b
      | none, _ => best) none

/-! ### Reserving (R74) -/

/-- Reserves one rank for a waiting cluster. -/
def State.reserve (s : State) (lid : Nat) (r : Spot) : State :=
  s.setLaunch lid fun l => { l with wait := l.wait.map fun w => { w with reserved := w.reserved ++ [r] } }

/-- Reserves ranks in ascending order as long as they fit. -/
def reserveRanks (pt : Partition) (lid : Nat) (l : Launch) (turn group : Nat) : Nat → State → State
  | 0, s => s
  | fuel + 1, s =>
    let j := ((s.launches.get? lid).bind (·.wait)).elim 0 (·.reserved.length)
    if l.ranks ≤ j then s else
      match s.rankCore pt lid l turn group j with
      | none => s
      | some r => reserveRanks pt lid l turn group fuel (s.reserve lid r)

/-- How many ranks are reserved. -/
def State.reservedRanks (s : State) (lid : Nat) : Nat := ((s.launches.get? lid).bind (·.wait)).elim 0 (·.reserved.length)

/-- A cluster begins to wait on a group and reserves there what it can; on a group that is closed to it, nothing (R75). -/
def State.beginWait (s : State) (pt : Partition) (lid : Nat) (l : Launch) (turn group : Nat) (closed : List Nat) : State :=
  let t := s.setLaunch lid fun l => { l with wait := some ⟨s.cycle, group, [], false⟩ }
  if closed.contains group then t else reserveRanks pt lid l turn group l.ranks t

/-- The target group of a cluster: fixed in canonical mode, else the one where most ranks can be reserved, ties to the lowest (R74, R81);
`closed` groups belong to aged clusters (R75), so none can be reserved there. -/
def State.chooseGroup (s : State) (pt : Partition) (lid : Nat) (l : Launch) (turn : Nat) (closed : List Nat) : Option State :=
  if l.det = 3 then some (s.beginWait pt lid l turn (pt.canonGroup turn) closed)
  else pt.groupList.foldl (fun (best : Option State) g =>
    let t := s.beginWait pt lid l turn g closed
    match best with
    | some b => if b.reservedRanks lid < t.reservedRanks lid then some t else best
    | none => some t) none

/-! ### A warp at block start -/

/-- The present lanes of warp j (R18). -/
def presentLanes (l : Launch) (j : Nat) : LaneMask := maskOf fun k => 32 * j + k < l.lanes

/-- The absent lanes of quads that hold a present lane (R19). -/
def helperLanes (present : LaneMask) : LaneMask :=
  maskOf fun k => !present.getLsbD k && [0, 1, 2, 3].any fun i => present.getLsbD (k / 4 * 4 + i)

/-- A warp when its block is placed (R142, R155, R157, R195, R221, R225). -/
def Warp.fresh (pt : Partition) (l : Launch) (bid j fs cycle : Nat) : Warp :=
  let m := presentLanes l j
  let area (base size : Nat) : Word := BitVec.ofNat 64 (base + size * fs)
  { block := bid, index := j, frameSlot := fs, present := m, helper := helperLanes m, n := l.regs, wbase := 0, sfloor := 0
    v := List.replicate l.regs (List.replicate 32 0)
    s := List.replicate 64 0
    a := List.replicate 16 AReg.zero
    p := BitVec.allOnes 32 :: List.replicate 7 0
    flags := List.replicate 32 0
    paths := { Path.free with state := .live, pc := l.entry, mask := m ||| helperLanes m, inSet := true, since := cycle, entering := true }
      :: List.replicate 15 Path.free
    joins := [(0, ⟨.root, 0, 0, 1, none, none⟩)], jspilled := [], calls := [], rets := [], rspilled := 0, fspilled := 0
    spill := area pt.spillArea 65536, spilllim := area (pt.spillArea + 65536) 65536
    jstk := area pt.jstkArea 16384, jstklim := area (pt.jstkArea + 16384) 16384
    rstk := area pt.rstkArea 4096, rstklim := area (pt.rstkArea + 4096) 4096
    cause := 0, cdata := 0, lmask := 0, srcnt := 0, inHandler := false, halted := false, trapPath := 0, trapArrived := none, frozen := []
    evicted := none, retired := 0, busy := [], memberTrap := none, collTrap := none }

/-! ### Placing -/

/-- The lowest slot of a quarter that no warp and no translator block holds. -/
def State.freeSlot (s : State) (q : Nat) : Nat :=
  let taken := s.sysBlocks.map (·.1)
  ((List.range 16).map (16 * q + ·)).find? (fun w => (s.warps.get? w).isNone && !taken.contains w) |>.getD (16 * q)

/-- The lowest frame slot no warp of the context holds (R453). -/
def State.freeFrame (s : State) (part : Nat) : Nat :=
  let mine := (s.warps.filter fun x => s.partOf x.2.block == part).map (·.2.frameSlot)
    ++ ((s.parts.get? part).elim [] fun p => p.returning.flatMap fun b => b.warps.map (·.2.frameSlot))
  ((List.range (mine.length + 1)).find? fun k => !mine.contains k).getD mine.length

/-- The lowest block slot of a core that no block holds, for a block of a launch with a stream (R262). -/
def State.freeBlockSlot (s : State) (core : Nat) (l : Launch) : Option Nat :=
  if l.streamEntry = 0 then none
  else (List.range 64).find? fun k => !(s.blocks.any fun b => b.2.core == core && b.2.mslot == some k)

/-- Places the warps of a new block one after another. -/
def placeWarps (pt : Partition) (part : Nat) (l : Launch) (bid core rot : Nat) : List Nat → State → State × List Nat
  | [], s => (s, [])
  | j :: r, s =>
    let wid := s.freeSlot (4 * core + (j + rot) % 4)
    let s := s.setWarp wid (Warp.fresh pt l bid j (s.freeFrame part) s.cycle)
    let (s, ws) := placeWarps pt part l bid core rot r s
    (s, wid :: ws)

/-- A block with nothing run. -/
def Block.fresh (lid linear cluster rank turn core home base len cycle : Nat) (mslot : Option Nat) (slots : List Nat) : Block where
  launch := lid
  linear := linear
  cluster := cluster
  rank := rank
  core := core
  home := home
  sramBase := base
  sramLen := len
  slots := slots
  live := slots
  placed := cycle
  retired := 0
  wroteOut := false
  logged := false
  logCounts := []
  bars := List.replicate 16 Barrier.fresh
  copySeq := 0
  copies := []
  copyFault := none
  collSeq := 0
  collOpen := 0
  collStamps := []
  accum := 0
  turn := turn
  mx := Mx.fresh
  mslot := mslot

/-- One more block of a launch counts as placed on a core: for the context, and in canonical mode for the launch too (R76). -/
def State.countPlaced (s : State) (lid core : Nat) (l : Launch) : State :=
  let up (m : NMap Nat) (k : Nat) : NMap Nat := m.put k (m.getD k 0 + 1)
  { s with rot := if l.det = 3 then up (up s.rot core) (rotKey lid core l) else up s.rot core }

/-- Places the block of rank j on a core. -/
def State.placeBlock (s : State) (pt : Partition) (lid : Nat) (l : Launch) (turn j : Nat) (spot : Spot) : State :=
  let core := spot.core
  let bid := s.nextBlock
  let (s', slots) := placeWarps pt (partOfLaunch lid) l bid core spot.rot (List.range l.blockWarps) s
  let b := Block.fresh lid (l.blockIndex turn j) (l.clusterIndex turn) j turn core (pt.sliceOf core) spot.base l.sramLines
    s.cycle (s.freeBlockSlot core l) slots
  { s' with blocks := s'.blocks.put bid b, nextBlock := bid + 1 }.countPlaced lid core l

/-- The dispatch position of a launch's next cluster: a flushed one first, else the next in order. -/
def Launch.nextTurn (l : Launch) : Option Nat :=
  match l.again with
  | k :: _ => some k
  | [] => if l.next < l.clusters then some l.next else none

/-- The launch once a cluster of it has been placed. -/
def Launch.placedOne (l : Launch) : Launch :=
  let l := match l.again with
    | _ :: r => { l with again := r, wait := none }
    | [] => { l with next := l.next + 1, wait := none }
  { l with state := if l.nextTurn.isSome then .dispatching else .draining }

/-- Every block of a cluster whose ranks are all reserved is placed in the same cycle (R74 d). -/
def State.placeReserved (s : State) (pt : Partition) (lid : Nat) (l : Launch) (turn : Nat) (spots : List Spot) : State :=
  let s := s.setLaunch lid fun l => { l with wait := none }
  let s := spots.zipIdx.foldl (fun s x => s.placeBlock pt lid l turn x.2 x.1) s
  s.setLaunch lid Launch.placedOne

/-- One claimant's turn: its cluster reserves what it can, and is placed once every rank is; none where nothing changes. -/
def State.offer (s : State) (pt : Partition) (closed : List Nat) (lid : Nat) : Option State :=
  match s.launches.get? lid with
  | none => none
  | some l =>
    match l.nextTurn with
    | none => none
    | some turn =>
      let s' : Option State := match l.wait with
        | none => s.chooseGroup pt lid l turn closed
        | some w =>
          if closed.contains w.target && !w.aged then none else
            let t := reserveRanks pt lid l turn w.target l.ranks s
            if t.reservedRanks lid = w.reserved.length && w.reserved.length < l.ranks then none else some t
      s'.map fun t =>
        match (t.launches.get? lid).bind (·.wait) with
        | some w => if w.reserved.length = l.ranks then t.placeReserved pt lid l turn w.reserved else t
        | none => t

/-- Whether a launch may place a cluster. -/
def Launch.dispatchable (l : Launch) : Bool :=
  !l.aborted && l.nextTurn.isSome && (match l.state with | .ready | .dispatching => true | _ => false)

/-- Whether launch x claims before launch y (R73 items 2 to 4; item 1 stands before them all). -/
def Launch.before (x y : Launch) : Bool :=
  let age (l : Launch) : Option Nat := match l.wait with | some w => if w.aged then some w.since else none | none => none
  match age x, age y with
  | some a, some b => a < b || (a == b && x.accept < y.accept)
  | some _, none => true
  | none, some _ => false
  | none, none => y.priority < x.priority || (x.priority == y.priority && x.accept < y.accept)

/-- Puts a claimant into its place. -/
def insertClaimant (x : Nat × Launch) : List (Nat × Launch) → List (Nat × Launch)
  | [] => [x]
  | y :: r => if x.2.before y.2 then x :: y :: r else y :: insertClaimant x r

/-- The claimants of a partition in their order of precedence. -/
def State.claimants (s : State) (part : Nat) : List (Nat × Launch) :=
  (s.launches.filter fun x => partOfLaunch x.1 == part && x.2.dispatchable).foldl (fun r x => insertClaimant x r) []

/-- Groups that aged clusters hold for themselves (R75). -/
def State.agedGroups (s : State) (part : Nat) : List Nat :=
  s.launches.filterMap fun x => match x.2.wait with
    | some w => if partOfLaunch x.1 == part && w.aged then some w.target else none
    | none => none

/-! ### Restored blocks (R472) -/

/-- A path's atomic some of whose requests a stop withdrew: what is left of it is to be sent anew, with numbers of its new pairs (R379). -/
def State.renumber (s : State) (wid i : Nat) : State :=
  s.setPath wid i fun p => { p with await := p.await.map fun (a : Pending) => match a.what with
    | .atomic r => { a with what := .atomic { r with seqs := [], stands := false } }
    | _ => a }

/-- A saved warp in its new slot. -/
def replaceWarps (core rot : Nat) : NMap Warp → State → State × NMap Nat
  | [], s => (s, [])
  | (j, w) :: r, s =>
    let wid := s.freeSlot (4 * core + (j + rot) % 4)
    let (s, ws) := replaceWarps core rot r ((List.range 16).foldl (fun s i => s.renumber wid i) (s.setWarp wid w))
    (s, ws.put j wid)

/-- Places a saved block on a core: its barriers, copies, matrix context and counts come with it. -/
def State.replaceBlock (s : State) (lid : Nat) (l : Launch) (sb : SavedBlock) (core : Nat) : State :=
  let (s', ws) := replaceWarps core (s.nextRot lid core l) sb.warps s
  let lift (k : Nat) : Nat := ws.getD k 0
  let b := { sb.block with
    core := core, mslot := s.freeBlockSlot core l
    slots := (List.range l.blockWarps).map lift, live := sb.warps.map fun x => lift x.1 }
  { s' with blocks := s'.blocks.put sb.id b }.countPlaced lid core l

/-- The core for one saved block beside those already chosen, in its group: its warps need room for the allocations they have now (R154).
Its SRAM run keeps its place in its home slice, which moves with the slice map. -/
def State.returnCore (s : State) (pt : Partition) (lid : Nat) (l : Launch) (sb : SavedBlock) (group : Nat) : Option Nat :=
  let b := sb.block
  let ns := (List.range l.blockWarps).map fun j => (sb.warps.get? j).elim 0 (·.n)
  let cores := if l.det = 3 then [pt.canonCore b.turn b.rank].filter fun c => c / 16 == group else (List.range 16).map (16 * group + ·)
  (cores.filter fun core => s.warpsFit core (s.nextRot lid core l) ns).foldl (fun (best : Option Nat) core =>
    match best with
    | some x => if s.coreGranules x < s.coreGranules core then some core else best
    | none => some core) none

/-- Places the saved blocks of one cluster in a group, or none. -/
def returnCluster (pt : Partition) (group : Nat) : List SavedBlock → State → Option State
  | [], s => some s
  | sb :: r, s =>
    match s.launches.get? sb.block.launch with
    | none => none
    | some l =>
      match s.returnCore pt sb.block.launch l sb group with
      | none => none
      | some core => returnCluster pt group r (s.replaceBlock sb.block.launch l sb core)

/-- Restored clusters are placed before any other claimant. -/
def State.placeReturning (s : State) (part : Nat) (pt : Partition) : Option State :=
  match pt.returning with
  | [] => none
  | sb :: _ =>
    let mine (x : SavedBlock) : Bool := x.block.launch == sb.block.launch && x.block.turn == sb.block.turn
    let s' := s.setPart part fun p => { p with returning := p.returning.filter fun x => !mine x }
    pt.groupList.findSome? fun g => returnCluster pt g (pt.returning.filter mine) s'

/-! ### The system queue (R61, R73 item 1, R84) -/

/-- The idle warp slot outside the held resources that a translator block takes: of the partition's cores the one with the most free
granules, its first quarter with room; the lowest slot there, and the lowest run of 512 lines. -/
def State.idleSlot (s : State) (pt : Partition) : Option (Nat × Nat) :=
  let quarter (core : Nat) : Option Nat := ((List.range 4).map (4 * core + ·)).find? fun q => s.usedSlots q < s.quarterSlots q && 8 ≤ s.offered q
  let place (core : Nat) : Option (Nat × Nat) := match quarter core, s.freeRun core 512 with
    | some q, some base => some (s.freeSlot q, base)
    | _, _ => none
  pt.cores.foldl (fun (best : Option (Nat × Nat)) core => match place core, best with
    | some x, some b => if s.coreGranules (coreOf b.1) < s.coreGranules core then some x else best
    | some x, none => some x
    | none, _ => best) none

/-- Where the next translator block runs: on the held resources where no other does, else on an idle slot (log entry 166). -/
def State.sysSpot (s : State) (pt : Partition) : Option SysPlace :=
  if pt.sysQueue.any fun j => j.place == some .held then (s.idleSlot pt).map fun x => .slot x.1 x.2 else some .held

/-- The system queue's first waiting block is placed (R73 item 1); none where there is none, or no room for it. -/
def State.placeSystem (s : State) (part : Nat) (pt : Partition) : Option State :=
  match pt.sysQueue.find? fun j => j.accept.isSome && j.place.isNone with
  | none => none
  | some j => (s.sysSpot pt).map fun at' => s.setPart part fun p =>
      { p with sysQueue := p.sysQueue.map fun x => if x.launch == j.launch then { x with place := some at' } else x }

/-- The distributor offers freed resources to the first claimant that can use them (R73). -/
def execPlaceCluster (part : Nat) (s : State) : Answer :=
  match s.parts.get? part with
  | none => .next s
  | some pt =>
    if pt.ctx.state ≠ 1 || pt.ck.closing || pt.ck.due then .next s else
    match s.placeReturning part pt with
    | some t => .next t
    | none =>
      if !pt.returning.isEmpty then .next s else
      match s.placeSystem part pt with
      | some t => .next t
      | none =>
        let aged := s.agedGroups part
        let closed (x : Nat × Launch) : List Nat := match x.2.wait with
          | some w => if w.aged then [] else aged
          | none => aged
        .next (((s.claimants part).findSome? fun x => s.offer pt (closed x) x.1).getD s)

/-- A waiting cluster reaches the age threshold of 16,384 cycles (R75). -/
def execClusterAgeThreshold (launch : Nat) (s : State) : Answer :=
  match (s.launches.get? launch).bind (·.wait) with
  | some w =>
    if w.since + 16384 ≤ s.cycle then .next (s.setLaunch launch fun l => { l with wait := l.wait.map fun w => { w with aged := true } })
    else .next s
  | none => .next s

end Sys2Proof.Machine
end

