-- ==== Sys2Proof/Machine/Record.lean ====
section
/-! DEFINITION. The end of a block and of a launch (spec/27 R510 to R519): retirement, the result digest, the guestbook record, the
completion stamp (spec/01 R36), and what completes a packet without running it (R34, R37, R58). -/
namespace Sys2Proof.Machine

/-! ### Queues (R57, R58) -/

/-- Queue q of a partition. -/
def Partition.queue (p : Partition) (q : Nat) : Queue := p.queues.getD q Queue.reset

def State.setQueue (s : State) (part q : Nat) (f : Queue → Queue) : State :=
  s.setPart part fun p => { p with queues := p.queues.put q (f (p.queue q)) }

/-- Records an error of a queue (R58). -/
def State.queueError (s : State) (part q status seq : Nat) : State :=
  s.setQueue part q fun x =>
    { x with
      errStatus := if x.errStatus = 0 ∧ x.errSeq = 0 then status else x.errStatus
      errSeq := if x.errStatus = 0 ∧ x.errSeq = 0 then seq else x.errSeq
      errCount := satAdd 32 x.errCount 1 }

/-- QUEUE_DONE moves past completed packets. -/
def advanceDone (part q : Nat) : Nat → State → State
  | 0, s => s
  | fuel + 1, s =>
    match s.parts.get? part with
    | none => s
    | some pt =>
      let x := pt.queue q
      if x.done < x.head ∧ (s.statuses.get? (launchId part q x.done)).isSome then
        advanceDone part q fuel (s.setQueue part q fun x => { x with done := x.done + 1 })
      else s

/-- The completion stamp (R36): nothing where the address is zero or misaligned, and an error of the queue where it cannot be written. -/
def State.completionStamp (s : State) (lid : Nat) (l : Launch) (status : Nat) : State :=
  let part := partOfLaunch lid
  if l.stamp = 0 ∨ l.stamp % 8 ≠ 0 then s else
  match s.checkPlain ⟨part, 0⟩ l.stamp 8 false true with
  | .ok ps =>
    if ps.any (·.host.isSome) && (s.portFault (.stamp lid)).isSome then
      (s.faultMet (.stamp lid)).queueError part (queueOfLaunch lid) 0x0115 (seqOfLaunch lid)
    else
      let s := ps.foldl (fun s p => s.logLine part l.cls p) (s.publish .command l.stampMask)
      s.writeOrSend .command 512 0 lid part 0 l.stampMask (cutBytes ps (leBytes 8 (status * 2 ^ 48 + seqOfLaunch lid)))
  | .error _ => s.queueError part (queueOfLaunch lid) 0x0115 (seqOfLaunch lid)

/-- The translator is done with a launch, or gives it up (R50, R61). -/
def State.dropJob (s : State) (lid : Nat) : State :=
  s.setPart (partOfLaunch lid) fun p => { p with sysQueue := p.sysQueue.filter (·.launch != lid) }

/-- A packet is complete: its stamp written, its status kept, QUEUE_DONE advanced, its place freed. -/
def State.completePacket (s : State) (lid : Nat) (l : Launch) (status : Nat) : State :=
  let s := (s.completionStamp lid l status).dropJob lid
  let s : State := { s with statuses := NMap.put s.statuses lid status, launches := s.launches.del lid }
  let s := if l.cls = 0 then s.setCk (partOfLaunch lid) fun c => { c with finished := NMap.put c.finished lid status } else s
  let head := ((s.parts.get? (partOfLaunch lid)).elim 0 fun p => (p.queue (queueOfLaunch lid)).head)
  advanceDone (partOfLaunch lid) (queueOfLaunch lid) (head + 1) s

/-! ### The guestbook (R517 to R519) -/

/-- Whether a partition's guestbook has been configured (log entry 42). -/
def Partition.hasBook (p : Partition) : Bool := 4 ≤ p.gbk.log2

/-- The address of record i. -/
def Partition.recordAt (p : Partition) (i : Nat) : Nat := p.gbk.base + 128 * (i % 2 ^ p.gbk.log2)

/-- The info word (R518). -/
def guestInfo (pt : Partition) (view status state : Nat) (rerr rpois : Bool) : Nat :=
  view * 2 ^ 32 + status * 2 ^ 16 + state * 2 ^ 14 + rerr.toNat * 2 ^ 13 + rpois.toNat * 2 ^ 12
    + pt.groupList.length % 64 * 2 ^ 6 + (pt.groupList.headD 0) * 2

/-- A record as it is opened. -/
def openBytes (s : State) (pt : Partition) (lid : Nat) (l : Launch) : List Byte :=
  leBytes 8 lid ++ leBytes 8 (l.word 2).toNat ++ leBytes 8 (l.word 3).toNat ++ leBytes 8 (l.word 10).toNat
    ++ leBytes 8 (l.word 11).toNat ++ leBytes 8 (l.word 4).toNat ++ leBytes 8 (l.word 5).toNat
    ++ leBytes 4 (l.modes.toNat % 2 ^ 32) ++ leBytes 4 l.tag ++ leBytes 8 (guestInfo pt s.viewNo 0 1 false false)
    ++ leBytes 4 pt.ck.current ++ zeros 4 ++ leBytes 8 s.cycle ++ zeros 8 ++ zeros 32

/-- Opens a launch's record (R65): none while it cannot open. -/
def State.openRecord (s : State) (lid : Nat) (l : Launch) : Option State :=
  let part := partOfLaunch lid
  match s.parts.get? part with
  | none => none
  | some pt =>
    let started (s : State) : State := s.setLaunch lid fun l => { l with start := s.cycle, openView := s.viewNo }
    if !pt.hasBook then some (started s)
    else if pt.gbk.head + 2 ^ pt.gbk.log2 ≤ pt.gbk.tail then none
    else match s.writePlain ⟨part, 0⟩ (pt.recordAt pt.gbk.tail) (openBytes s pt lid l) with
      | .error _ => none
      | .ok s =>
        let s := s.setPart part fun p => { p with gbk := { p.gbk with tail := p.gbk.tail + 1 } }
        some ((started s).setLaunch lid fun l => { l with record := some pt.gbk.tail })

/-- L (R517): retired instructions by block. -/
def Launch.perBlock (l : Launch) : Nat := min (l.retired / l.blocks) (2 ^ 32 - 1)

/-- Closes a launch's record (R519). -/
def State.closeRecord (s : State) (lid : Nat) (l : Launch) (status : Nat) (digest : List Byte) (rerr rpois : Bool) : State :=
  let part := partOfLaunch lid
  match s.parts.get? part, l.record with
  | some pt, some i =>
    let a := pt.recordAt i
    let put (s : State) (a : Nat) (bs : List Byte) : State := match s.writePlain ⟨part, 0⟩ a bs with | .ok t => t | .error _ => s
    let s := put s (a + 0x4C) (leBytes 4 l.perBlock)
    let s := put s (a + 0x58) (leBytes 8 s.cycle ++ digest)
    let s := put s (a + 0x40) (leBytes 8 (guestInfo pt l.openView status 2 rerr rpois))
    s.setPart part fun p => { p with closed := NMap.put p.closed i p.ck.current }
  | _, _ => s

/-- The records a lookup considers, newest first: closed, status zero, between head and tail (R519). -/
def State.guestRecords (s : State) (part : Nat) : List (List Byte) :=
  match s.parts.get? part with
  | none => []
  | some pt =>
    if !pt.hasBook then [] else
    (((List.range (pt.gbk.tail - pt.gbk.head)).map (pt.gbk.head + ·)).reverse.filterMap fun i =>
      match s.readPlain ⟨part, 0⟩ (pt.recordAt i) 128 with
      | .ok bs => if fieldAt bs 0x40 8 / 2 ^ 14 % 4 = 2 ∧ fieldAt bs 0x42 2 = 0 then some bs else none
      | .error _ => none)

/-- The progress record of a launch (R465): L of the newest launch with its code hash and block shape. -/
def State.expectedLength (s : State) (part : Nat) (l : Launch) : Option Nat :=
  ((s.guestRecords part).find? fun bs =>
    fieldAt bs 8 8 == (l.word 2).toNat && fieldAt bs 16 8 == (l.word 3).toNat
      && fieldAt bs 0x30 6 == ((l.word 5).extractLsb' 0 48).toNat).map fun bs => fieldAt bs 0x4C 4

/-! ### The result digest (R513 to R515) -/

/-- How the fold of a launch reads a piece: its bytes, or zeros with whether it was poisoned or could not be read. A completion from
behind a host port that was marked poisoned is poison, another error there leaves the bytes unread (R301, R444). -/
def State.foldPiece (s : State) (lid : Nat) (a len : Nat) : List Byte × Bool × Bool :=
  match s.placePiece ⟨partOfLaunch lid, 0⟩ a len with
  | .error _ => (zeros len, true, false)
  | .ok q =>
    let fault := if q.piece.host.isSome then s.portFault (.fold lid a) else none
    if !q.r || fault.any (· != 0) then (zeros len, true, false)
    else if s.poisoned q.piece || fault.isSome then (zeros len, false, true)
    else (s.readPiece q.piece, false, false)

/-- The bytes of a region as the fold reads them, with rerr and rpois. -/
def State.foldBytes (s : State) (lid a len : Nat) : List Byte × Bool × Bool :=
  let ps := (sectors a len).map fun p => s.foldPiece lid p.1 p.2
  (ps.flatMap (·.1), ps.any (·.2.1), ps.any (·.2.2))

/-- D, rerr and rpois of a launch (R514). -/
def State.launchDigest (s : State) (lid : Nat) (l : Launch) : List Byte × Bool × Bool :=
  let rs := (List.range l.regions).map fun r => s.foldBytes lid (l.region r).1 (l.region r).2
  ((sha384 (leBytes 32 l.accum.toNat ++ rs.flatMap fun r => sha384 r.1)).take 32, rs.any (·.2.1), rs.any (·.2.2))

/-! ### Retirement (R510 to R512) -/

/-- Whether a block's work is over (R510). -/
def State.blockOver (s : State) (bid : Nat) (b : Block) : Bool :=
  b.live.isEmpty && !(s.stores.any (·.block == bid)) && !(s.unacked.any fun t => t.block == bid && t.launch == b.launch)
    && !(b.copies.any fun c => c.2.state != .ended)
    && (b.mx.stream.isNone || b.mx.stopped.any (!·.delivered)) && b.collOpen == 0

/-- A block leaves its core's engine. -/
def State.dropBanks (s : State) (bid core : Nat) : State :=
  { s with engines := s.engines.adjust core fun e =>
      let no (l : List Nat) : List Nat := l.filter (· != bid)
      { e with banks := no e.banks, cellar := no e.cellar, area := e.area.del bid, holder := e.holder.filter (· != bid) } }

/-- Whether a context stands for a close or a rollback (R479, R483). -/
def State.standing (s : State) (part : Nat) : Bool := (s.parts.get? part).any fun p => p.ck.closing || p.ck.due

/-- A block whose work is over retires (R510, R511); its stream stopped with no warp left ends the launch with 0x010A (R261). -/
def execBlockRetire (block : Nat) (s : State) : Answer :=
  match s.blocks.get? block with
  | none => .next s
  | some b =>
    match s.launches.get? b.launch with
    | none => .next s
    | some l =>
      if !s.blockOver block b || s.standing (partOfLaunch b.launch) || (l.det == 3 && l.retiredClusters < b.turn) then .next s
      else
        let s := { s.dropBanks block b.core with blocks := s.blocks.del block }
        let last := !(s.blocks.any fun x => x.2.launch == b.launch && x.2.turn == b.turn)
        .next ((s.setLaunch b.launch fun l =>
          { l with
            accum := l.accum + b.accum, retired := l.retired + b.retired, retiredBlocks := l.retiredBlocks + 1
            retiredClusters := l.retiredClusters + last.toNat
            aborted := l.aborted || b.mx.stopped.isSome
            status := if b.mx.stopped.isSome then 0x010A else l.status }))

/-- Whether every block of a launch has retired and no further one will be placed. -/
def State.launchOver (s : State) (lid : Nat) (l : Launch) : Bool :=
  !(s.blocks.any fun b => b.2.launch == lid)
    && !((s.parts.get? (partOfLaunch lid)).elim false fun p => p.returning.any fun b => b.block.launch == lid)
    && (match l.state with | .waiting => false | _ => l.aborted || l.nextTurn.isNone)

/-- Completes a launch that has opened its record (R512). -/
def State.completeLaunch (s : State) (lid : Nat) (l : Launch) (status : Nat) : State :=
  let d := if status = 0x0108 ∨ status = 0x010A then (zeros 32, false, false) else s.launchDigest lid l
  (s.closeRecord lid l status d.1 d.2.1 d.2.2).completePacket lid l status

/-- After the last block has retired: digest, record, stamp, QUEUE_DONE (R512). -/
def execLaunchComplete (launch : Nat) (s : State) : Answer :=
  match s.launches.get? launch with
  | none => .next s
  | some l =>
    if !s.launchOver launch l || s.standing (partOfLaunch launch) then .next s
    else .next (s.completeLaunch launch l (if l.status ≠ 0 then l.status else if l.aborted then 0x0108 else 0))

end Sys2Proof.Machine
end

