-- ==== Sys2Proof/Machine/Sync.lean ====
section
/-! DEFINITION. Barriers, semaphores, `mwait` and fences as instructions, and the events that end their waits (spec/18). -/
namespace Sys2Proof.Machine

/-! ### Barrier instructions (R385 to R388) -/

/-- The checks of a barrier instruction before it arrives or waits: the scope checker (R388 subcode 0x01), then a stream fault that
this wait must take (R270). -/
def checkBarrier (s : State) (c : Ctx) (g : Guard) (k : Nat) (waits : Bool) : Except Stop Unit := do
  let lanes := c.real g
  if c.w.divided c.pidx then raise 0x71 0x01 lanes (BitVec.ofNat 64 k)
  match if waits then s.faultDue c.bid c.wid k else none with
  | some f => raise f.cause f.sub lanes f.data
  | none => pure ()

/-- The trap of a barrier instruction is taken; where it delivers a stream fault, the fault is delivered. -/
def State.barrierTrap (s : State) (c : Ctx) (k : Nat) (t : Trap) : State :=
  let s := match s.faultDue c.bid c.wid k with
    | some f => if t.cause = f.cause ∧ t.sub = f.sub ∧ t.data = f.data then s.faultTaken c.bid c.wid k else s
    | none => s
  s.takeTrap c.wid c.pidx t (unitOf c.p c.pre)

/-- Runs a barrier instruction. -/
def State.runBarrier (s : State) (k : Nat) (body : Ctx → Except Stop State) : Answer :=
  s.run fun c => match body c with
    | .error (.trap t) => .ok (s.barrierTrap c k t)
    | r => r

/-- The arrival half (R385, R387): a release arrival waits for the earlier writes of its lanes; then the count is checked. -/
def arriveHalf (s : State) (c : Ctx) (g : Guard) (k count : Nat) (e : MExt) : Except Stop State := do
  if isRelease e.ord && !s.releasable c.wid (c.real g) e.mask then .error (.park .barrier)
  if !(c.blk.barrier k).admits count then raise 0x71 0x02 (c.real g) (BitVec.ofNat 64 k)
  let s := if isRelease e.ord then s.publish (.lane (coreOf c.wid)) e.mask else s
  return s.arriveAt c.bid c.w.index k (some count)

/-- Parks in a wait on barrier k; `arrived` is the PC of a `bars` that keeps its arrival (R386). -/
def State.parkAtBarrier (s : State) (c : Ctx) (k : Nat) (r : ParkReason) (arrived : Option Word) : State :=
  (s.park c r).setPath c.wid c.pidx fun p => { p with waits := some k, arrived := arrived }

/-- The wait half (R386): a wait that continues is an acquire where its order has one (R387). -/
def waitHalf (s : State) (c : Ctx) (k : Nat) (e : MExt) (r : ParkReason) (arrived : Option Word) : State :=
  let b := match s.blocks.get? c.bid with
    | some blk => blk.barrier k
    | none => Barrier.fresh
  let rec' := b.record c.w.index
  if rec'.state = .done then
    let s := if isAcquire e.ord then s.acquireAt (coreOf c.wid) e.mask else s
    (s.setBarrier c.bid k (b.setRecord c.w.index { rec' with state := .none })).complete c
      (c.w.setPath c.pidx { c.p with arrived := none }) .none
  else s.parkAtBarrier c k r arrived

/-- `bara` (R385, R387). -/
def execBara (g : Guard) (b : Int) (n : Src) (e : MExt) (s : State) : Answer :=
  let k := b.toNat
  s.runBarrier k fun c => do
    checkLatch c g .sca n
    if !c.once g then return s.skip c
    checkBarrier s c g k false
    return (← arriveHalf s c g k (readSca c.w c.p n).toNat e).skip c

/-- `barw` (R386, R387). -/
def execBarw (g : Guard) (b : Int) (e : MExt) (s : State) : Answer :=
  let k := b.toNat
  s.runBarrier k fun c => do
    if !c.once g then return s.skip c
    checkBarrier s c g k true
    return waitHalf s c k e .barrier none

/-- `bars` (R385 to R387): once its arrival has counted, an issue performs only the wait half. -/
def execBars (g : Guard) (b : Int) (n : Src) (e : MExt) (s : State) : Answer :=
  let k := b.toNat
  s.runBarrier k fun c => do
    if c.p.arrived = some c.p.pc then
      match s.faultDue c.bid c.wid k with
      | some f => raise f.cause f.sub (c.real g) f.data
      | none => return waitHalf s c k e .barrierAfterArrival (some c.p.pc)
    checkLatch c g .sca n
    if !c.once g then return s.skip c
    checkBarrier s c g k true
    return waitHalf (← arriveHalf s c g k (readSca c.w c.p n).toNat e) c k e .barrierAfterArrival (some c.p.pc)

/-! ### Fences (R398) -/

/-- `fence`: the path goes on once its order holds in its acting lanes; a path's loads have returned before it issues again. -/
def execFence (g : Guard) (e : MExt) (s : State) : Answer :=
  s.run fun c => do
    if !c.once g then return s.skip c
    if isRelease e.ord && !s.releasable c.wid (c.real g) e.mask then .error (.park .fence)
    return (s.fenceAt (coreOf c.wid) e.ord e.mask).skip c

/-! ### Semaphores (R389 to R393) -/

/-- What the determinism mode makes of a `semw.take` at issue (R393, R525, R526): the entries it reserves. -/
def admitTake (s : State) (c : Ctx) (lanes : LaneMask) (ys : List (Nat × Nat × List Piece)) : Except Stop Nat :=
  match c.la.det with
  | 0 => .ok 0
  | 3 => .ok 0
  | d =>
    match ys.filter fun x => x.2.2.any fun p => p.peer.isSome with
    | x :: _ => raise 0x11 0x12 lanes (BitVec.ofNat 64 x.2.1)
    | [] => if d = 1 then do
        needRoom s c lanes 2
        return 2
      else .ok 0

/-- A semaphore instruction sends its request: `semp` awaits its result, `semw` parks with reason semaphore (R389 to R392). -/
def semaphore (op : AtomOp) (o : Mem) (s : State) : Answer :=
  s.run fun c => do
    checkLatch c o.g .sca o.x
    if !c.once o.g then return s.skip c
    let lanes := c.real o.g
    if op = .semw true ∧ c.la.det = 3 then raise 0x62 0 lanes
    let a := c.w.areg o.a
    let ys ← checkAtomic s c a (op != .semw false) 8 (some lanes) (onceAim c o.g a o.e.off)
    checkSc s c o.e lanes
    let reserve ← if op = .semw true then admitTake s c lanes ys else .ok 0
    let m := readSca c.w c.p o.x
    let todo := ys.flatMap fun t => t.2.2.map fun p => ⟨t.1, p, m, 0⟩
    let w := c.w.setAreg o.a (s.cachedRun c.env.part a ys)
    return sendRequests ((s.scFence c o.e).translated c.env (ys.map (·.2.1))) c op .noDest .i64 o.e lanes 0 todo (ys.map fun t => (t.1, t.2.1))
      (if op = .semp then .live else .parked .semaphore) w reserve

def execSemwTk (o : Mem) (s : State) : Answer := semaphore (.semw false) o s
def execSemwTake (o : Mem) (s : State) : Answer := semaphore (.semw true) o s
def execSemp (o : Mem) (s : State) : Answer := semaphore .semp o s

/-- Whether an operation is a `semw`. -/
def AtomOp.isWait : AtomOp → Bool
  | .semw _ => true
  | _ => false

/-- Takers waiting at a home's lockkeeper, those of other devices among them. -/
def State.waitersAt (s : State) (home : Nat) : Nat := (s.semQueues.map fun q => if homeOfKey q.1 == home then q.2.length else 0).sum

/-- A waiter joins the queue of a location. -/
def State.joinQueue (s : State) (key : Nat) (who : Nat × Nat) : State :=
  { s with semQueues := s.semQueues.put key (s.semQueues.getD key [] ++ [who]) }

/-- A `semw` joins its lockkeeper: a take joins its location's queue, of which a lockkeeper holds 1,024 places (R391, R392). -/
def registerWait (s : State) (c : Ctx) (r : AtomReq) (home : Nat) (t : AtomLane) : State :=
  if r.op = .semw true ∧ 1024 ≤ s.waitersAt home then s else
  let s := s.numberDone (pairKey (coreOf c.wid) home) (r.seqs.getD home 0) [] false
  let s := { s with lockLast := s.lockLast.put home (s.cycle, requestKey c.wid [t]) }
  let s := if r.op = .semw true then s.joinQueue t.piece.key (c.wid, c.pidx) else s
  s.setAtomic c { r with seqs := [], stands := true }

/-- The homes that lanes still wait for, and the lanes of one. -/
def AtomReq.homes (r : AtomReq) : List Nat := (r.todo.map fun t => homeOf t.piece).eraseDups
def AtomReq.lanesAt (r : AtomReq) (home : Nat) : List AtomLane := r.todo.filter fun t => homeOf t.piece == home

/-- Whether a context runs: what its requests wait for may still come. -/
def State.contextRuns (s : State) (part : Nat) : Bool := (s.parts.get? part).any (·.ctx.state == 1)

/-- What happens to one home's request, if anything: it is sent, executed, or withdrawn by a stop (R367 to R369, R379). -/
def requestStep (s : State) (c : Ctx) (r : AtomReq) (home : Nat) : Option State :=
  let ts := r.lanesAt home
  let runs := s.contextRuns c.env.part
  let held := s.heldFrom (some c.env.part) (ts.map (·.piece))
    || (r.op == .semw true && 1024 ≤ s.waitersAt home)
    || (r.op == .fadd && c.la.det == 2 && floatAddTurn s c ts == .hold)
  if (r.seqs.get? home).isNone then
    if runs && (s.pairOf (pairKey (coreOf c.wid) home)).outstanding < 64 then some (sendLate s c r home) else none
  else if !s.requestNext c r home ts then none
  else if held then if runs then none else some (withdrawRequest s c r home)
  else if !s.requestReady c r home ts then none
  else match r.op.isWait, ts with
    | true, t :: _ => some (registerWait s c r home t)
    | _, _ => some (executeRequest s c r home ts)

/-- The first of an atomic's requests for which something is to be done, whatever has stopped its path since. -/
def execLockkeeperRequest (warp path : Nat) (s : State) : Answer :=
  match s.requesting warp path with
  | some (c, .atomic r) => if r.stands then .next s else .next ((r.homes.findSome? (requestStep s c r)).getD s)
  | _ => .next s

/-- A waiter leaves its queue. -/
def State.leaveQueue (s : State) (key wid pidx : Nat) : State :=
  { s with semQueues := (s.semQueues.adjust key (·.filter (· != (wid, pidx)))).filter fun q => !q.2.isEmpty }

/-- Whether it is a taker's turn: the head of its queue, or in replay the head of the log's order (R392, R393, R528). -/
def takeTurn (s : State) (c : Ctx) (t : AtomLane) : Turn :=
  if c.la.det = 2 then
    queueTurn s c (choiceKey (c.la.word 1) c.p.pc) 0 t.lane (s.siteEntries c.env.part c.lid 4 (siteOf c.env.home t.piece.va))
  else if (s.semQueues.getD t.piece.key []).head? = some (c.wid, c.pidx) then .go [] else .hold

/-- A `semw` ends: an acquire where its order has one (R391, R392). -/
def endWait (s : State) (c : Ctx) (r : AtomReq) : State :=
  (if isAcquire r.ord then s.acquireAt (coreOf c.wid) r.mask else s).answered c c.w .none

/-- A take is granted: the value falls, the grant is logged, the path goes on (R392, R393). -/
def grantTake (s : State) (c : Ctx) (r : AtomReq) (t : AtomLane) (v : Nat) (used : List ReplayEntry) : State :=
  let who := Agent.lane (coreOf c.wid)
  let s := used.foldl (fun s e => s.consume c.env.part c.bid e) s
  let s := if isRelease r.ord then s.publish who r.mask else s
  let s := (s.track c.bid [t.piece]).performAt who everyCore t.piece (leBytes 8 (atomValue r.op .i64 v t.x.toNat 0))
  let s := (s.noteWrite c.bid [t.piece]).leaveQueue t.piece.key c.wid c.pidx
  let s := if c.la.det = 1 then
      s.logChoice c.env.part c.lid c.bid true 4 (some (siteOf c.env.home t.piece.va)) c.w.index c.blk.linear
        (choiceKey (c.la.word 1) c.p.pc) 0
    else s
  endWait s c r

/-- A watch translates its address at each evaluation (R309): the location as it now stands, or why there is none. -/
def reAim (s : State) (c : Ctx) (r : AtomReq) (t : AtomLane) : Except Refused AtomLane := do
  let ps ← s.placeAll c.env (r.aims.getD t.lane 0) 8
  if ps.any fun p => !(p.r || p.x) then .error (0x11, 0x10)
  else if r.op == .semw true && ps.any fun p => !p.w then .error (0x11, 0x11)
  else match ps with
    | [p] => if p.piece.foreign then .error (0x11, 0x12) else .ok { t with piece := p.piece }
    | _ => .error (0x11, 0x12)

/-- The lockkeeper evaluates a `semw` it holds: at its location as it now translates; one that has moved goes to its new home. -/
def evalWait (s : State) (c : Ctx) (r : AtomReq) (take : Bool) (t : AtomLane) : State :=
  let out (cause sub data : Nat) : State :=
    (s.leaveQueue t.piece.key c.wid c.pidx).answeredTrap c ⟨cause, sub, BitVec.ofNat 64 data, r.acting &&& c.w.present⟩
  let at' := r.aims.getD t.lane 0
  if r.gone ≠ 0 then out 0x51 3 at' else
  match reAim s c r t with
  | .error (cause, sub) => out cause sub at'
  | .ok t' =>
    if t'.piece ≠ t.piece then
      (s.leaveQueue t.piece.key c.wid c.pidx).setAtomic c { r with todo := [t'], stands := false, seqs := [] }
    else if s.heldFrom (some c.env.part) [t.piece] || s.onItsWay [t.piece] then s
    else match s.lanePoison t with
      | some sub => out 0x51 sub at'
      | none =>
        let v := leNat (s.readPiece t.piece)
        let turn := if take then takeTurn s c t else .go []
        match turn with
        | .hold => s
        | .diverge i _ => out 0x60 0 i
        | .go used =>
          if v < t.x.toNat then s
          else
            let s := s.noteReads c.env.part [t.piece]
            if take then grantTake s c r t v used else endWait s c r

/-! ### Semaphore waits of other devices (R389 to R392, R436) -/

/-- The class of a request (R435), and its pair's key (R436). -/
def classOfOp : CanalOp → Nat
  | .read _ _ => 0 | .write _ _ => 1 | .atomic _ _ _ _ => 2
def canalKey (m : Nat) (op : CanalOp) : Nat := m * 4 + classOfOp op

/-- The key of a member's atomic pair among the lockkeepers' pairs. -/
def atomicPair (m : Nat) : Nat := 2 ^ 40 + m * 4 + 2

/-- A member's place in a queue of takers: members follow the 32,768 warp slots. -/
def PeerWait.place (p : PeerWait) : Nat × Nat := (32768 + p.member, p.seq)

/-- A member's wait ends: its answer is kept and sent. -/
def State.answerPeer (s : State) (p : PeerWait) (v : Nat) (poisoned : Bool) : State :=
  let s := { s with peerWaits := s.peerWaits.filter (· != p) }.leaveQueue p.key p.place.1 p.place.2
  let q := s.pairOf (atomicPair p.member)
  let s := { s with lockPairs := s.lockPairs.put (atomicPair p.member) { q with kept := NMap.put q.kept p.seq (leBytes 8 v, poisoned) } }
  s.send (.member p.member (.completion p.seq (leBytes 8 v) poisoned))

/-- The lockkeeper evaluates a member's wait. -/
def State.evalPeerWait (s : State) (p : PeerWait) : State :=
  let at' : Piece := ⟨p.key, 8, p.key, none, none⟩
  if s.heldFrom none [at'] then s
  else if s.poisoned at' then s.answerPeer p 0 true
  else
    let v := leNat (s.readPiece at')
    if v < p.x || (p.take && (s.semQueues.getD p.key []).head? != some p.place) then s
    else if p.take then (s.performAt (.device p.member) everyCore at' (leBytes 8 (v - p.x))).answerPeer p v false
    else s.answerPeer p v false

/-- The lockkeeper evaluates a `semw` it holds (R391, R392): a path's, or a member's by its place among the takers. -/
def execSemaphoreWatchEval (warp path : Nat) (s : State) : Answer :=
  match s.awaiting warp path with
  | some (c, .atomic r) =>
    match r.op, r.todo with
    | .semw take, t :: _ => if r.stands then .next (evalWait s c r take t) else .next s
    | _, _ => .next s
  | _ => match s.peerWaits.find? (·.place == (warp, path)) with
    | some p => .next (s.evalPeerWait p)
    | none => .next s

/-! ### Monitor and wait (R394 to R397) -/

/-- A condition of R395 over words of `e` bits. -/
def waitHolds (k : WCond) (e : Nat) (v x : Nat) : Bool :=
  let x := x % 2 ^ e
  match k with
  | .eq => v == x
  | .ne => v != x
  | .ge => x ≤ v
  | .lt => v < x
  | .seq => v % 2 ^ 48 == x % 2 ^ 48
  | .any => v &&& x != 0

/-- The destination of a wait: 1 for met, 0 for timed out (R394). -/
def waitResult (w : Warp) (d : Dst) (acting : LaneMask) (met : Bool) : Warp × Place :=
  match d.cls with
  | .predicate => predicateResult w d acting (if met then BitVec.allOnes 32 else 0)
  | .scalar => scalarResult w d (some (if met then 1 else 0))
  | _ => (w, .none)

/-- The destination of a wait that does not act (R101). -/
def waitIdle (w : Warp) (d : Dst) : Warp × Place :=
  match d.cls with
  | .predicate => predicateResult w d 0 0
  | .scalar => scalarResult w d none
  | _ => (w, .none)

/-- No limit stands from 2^40 on (R394, R421, R424). -/
def deadlineOf (cycle : Nat) (t : Word) : Option Nat := if 2 ^ 40 ≤ t.toNat then none else some (cycle + t.toNat)

/-- The logged outcomes that waiting paths of a warp have taken up (R397, R421). -/
def Warp.takenUp (w : Warp) : List ReplayEntry := w.paths.filterMap fun p => match p.await with
  | some ⟨.monitor r, _, _, _⟩ => r.entry
  | some ⟨.cwait r, _, _, _⟩ => r.entry
  | _ => none

/-- The logged outcome of a wait: the first that no other wait of the warp has taken up. While other paths of the warp stand, the first
with the wait's own key, for theirs may come in another order (log entry 179). -/
def State.loggedWait (s : State) (c : Ctx) (key : Nat) : Option ReplayEntry :=
  let free (e : ReplayEntry) : Bool := e.kind == 8 && e.block == c.blk.linear && e.warp == c.w.index && !c.w.takenUp.contains e
  let alone := (List.range 16).all fun i => i == c.pidx || (c.w.path i).state == .free
  if alone then s.replayHead c.env.part c.lid free
  else (s.replayHead c.env.part c.lid fun e => free e && e.key == key).or (s.replayHead c.env.part c.lid free)

/-- What the determinism mode makes of a wait with a limit at issue: entries reserved, and the outcome a log forces (R397, R421). -/
def admitWait (s : State) (c : Ctx) (lanes : LaneMask) (limited : Bool) : Except Stop (Nat × Option ReplayEntry) :=
  if !limited then .ok (0, none) else
  match c.la.det with
  | 1 => do
    needRoom s c lanes 1
    return (1, none)
  | 2 =>
    let key := choiceKey (c.la.word 1) c.p.pc
    match s.loggedWait c key with
    | none => replayEmpty s c lanes
    | some e => if e.key ≠ key then raise 0x60 0 lanes (BitVec.ofNat 64 e.index) else .ok (0, some e)
  | _ => .ok (0, none)

/-- The outcome a logged entry forces: 1 waits without limit, 0 for the whole limit (R397). -/
def forcedBy (e : Option ReplayEntry) : Option Bool := e.map (·.value % 2 == 1)

/-- The outcome of a wait is recorded, or the logged entry that forced it consumed. -/
def recordWait (s : State) (c : Ctx) (limited : Bool) (entry : Option ReplayEntry) (met : Bool) : State :=
  match entry with
  | some e => s.consume c.env.part c.bid e
  | none =>
    if limited && c.la.det == 1 then
      s.logChoice c.env.part c.lid c.bid true 8 none c.w.index c.blk.linear (choiceKey (c.la.word 1) c.p.pc) met.toNat
    else s

/-- The acting lanes of a wait as a trap names them. -/
def MonitorReq.lanes (r : MonitorReq) (c : Ctx) : LaneMask := r.acting &&& c.w.present

/-- A wait ends with an outcome; with the condition met it is an acquire where its order has one (R396). -/
def monitorResult (s : State) (c : Ctx) (r : MonitorReq) (met : Bool) : State × Warp × Place :=
  let s := recordWait s c r.deadline.isSome r.entry met
  (if met && isAcquire r.ord then s.acquireAt (coreOf c.wid) r.mask else s, waitResult c.w r.d r.acting met)

/-- Whether a wait's word may be read now: no group holds it (R364), and the lanes may read it. -/
def wordReadable (s : State) (c : Ctx) (lanes : LaneMask) (ps : List Piece) : Bool :=
  !s.heldFrom (some c.env.part) ps && s.mayRead c.wid lanes ps

/-- One evaluation of a wait: whether its condition holds, or the poison its word carries; the state after the read. -/
def evalWord (s : State) (c : Ctx) (r : MonitorReq) (ps : List Piece) : State × Except Nat Bool :=
  let view := s.seenBy c.wid (r.lanes c) r.mask
  let s := (s.noteReads c.env.part ps).sawAt (coreOf c.wid) r.mask ps
  match view.poisonOf ps with
  | some sub => (s, .error sub)
  | none => (s, .ok (forcedBy r.entry != some false
      && waitHolds r.cond (8 * accessBytes r.fmt) (leNat (view.readPieces ps)) r.x.toNat))

/-- `mwait` (R394): the condition is evaluated at issue; where it fails the path parks, unless the limit is zero. -/
def execMwait (k : WCond) (o : Mem) (s : State) : Answer :=
  s.run fun c => do
    checkLatch c o.g .sca o.x
    checkLatch c o.g .sca o.y
    if !c.once o.g then
      let r := waitIdle c.w o.d
      return s.complete c r.1 r.2
    let lanes := c.real o.g
    let size := accessBytes o.fmt
    let a := c.w.areg o.a
    let xs := onceAim c o.g a o.e.off
    checkRights a true false (some lanes) xs
    let ys ← checkRange s c.env a true false size (some lanes) xs
    checkAligned size 0 (some lanes) xs
    watch s c true false (some lanes) ys
    waitLines s ys
    checkSc s c o.e lanes
    let deadline := deadlineOf s.cycle (readSca c.w c.p o.y)
    let (reserve, entry) ← admitWait s c lanes deadline.isSome
    let aim := (ys.head?.map (·.2.1)).getD 0
    let r : MonitorReq := ⟨k, c.act o.g, entry, o.d, o.fmt, aim, a.perm.getLsbD 2, o.e.ord, o.e.mask, readSca c.w c.p o.x, deadline⟩
    let c := { c with w := c.w.setAreg o.a (s.cachedRun c.env.part a ys) }
    let s := (s.scFence c o.e).translated c.env (ys.map (·.2.1))
    let ps := ys.flatMap (·.2.2)
    if !wordReadable s c lanes ps then return s.awaits c c.w (.parked .monitor) (.monitor r) reserve
    match evalWord s c r ps with
    | (_, .error sub) => raise 0x51 sub lanes (BitVec.ofNat 64 aim)
    | (s, .ok met) =>
      if met || (deadline == some s.cycle && forcedBy entry != some true) then
        if !met && c.la.det == 3 then raise 0x62 0 lanes
        let out := monitorResult s c r met
        return out.1.complete c out.2.1 out.2.2
      else return s.awaits c c.w (.parked .monitor) (.monitor r) reserve

/-- A wait ends with an outcome. -/
def endMonitor (s : State) (c : Ctx) (r : MonitorReq) (met : Bool) : State :=
  let out := monitorResult s c r met
  out.1.answered c out.2.1 out.2.2

/-- The pieces of a waiting path's word, translated for this reading (R309), or the refusal it meets. -/
def MonitorReq.pieces (r : MonitorReq) (s : State) (e : Env) : Except Refused (List Piece) := do
  let ps ← s.placeAll e r.aim (accessBytes r.fmt)
  permitted true false r.ex ps
  return ps.map (·.piece)

/-- The wait reads its word again (R394, R396, R397). -/
def execMwaitReread (warp path : Nat) (s : State) : Answer :=
  match s.awaiting warp path with
  | some (c, .monitor r) =>
    let out (s : State) (cause sub : Nat) : State := s.answeredTrap c ⟨cause, sub, BitVec.ofNat 64 r.aim, r.lanes c⟩
    match r.pieces s c.env with
    | .error (cause, sub) => .next (out s cause sub)
    | .ok ps =>
      if !wordReadable s c (r.lanes c) ps then .next s
      else match evalWord s c r ps with
        | (s, .error sub) => .next (out s 0x51 sub)
        | (s, .ok met) => if met then .next (endMonitor s c r true) else .next s
  | _ => .next s

/-- A wait's limit passes (R394, R397): a word that a group holds has not been read yet, and is read first (R364). -/
def execMwaitTimeout (warp path : Nat) (s : State) : Answer :=
  match s.awaiting warp path with
  | some (c, .monitor r) =>
    let held := match r.pieces s c.env with
      | .ok ps => s.heldFrom (some c.env.part) ps
      | .error _ => false
    match r.deadline with
    | some t =>
      if s.cycle < t ∨ forcedBy r.entry = some true ∨ held = true then .next s
      else if c.la.det = 3 then .next (s.answeredTrap c ⟨0x62, 0, 0, r.lanes c⟩)
      else .next (endMonitor s c r false)
    | none => .next s
  | _ => .next s

end Sys2Proof.Machine
end

