-- ==== Sys2Proof/Machine/Launch.lean ====
section
/-! DEFINITION. Queues and the command processors (spec/02 R56 to R66), the checks of a packet (spec/01 R23 to R37), Asder launches
(R50, R51), and the `launch` instruction (R67 to R70). -/
namespace Sys2Proof.Machine

/-! ### Host writes to queue registers (R57 to R59) -/

/-- An erroneous register write: ignored and recorded with the current tail. -/
def State.queueWriteError (s : State) (part q status : Nat) : State :=
  match s.parts.get? part with
  | some pt => s.queueError part q status (pt.queue q).tail
  | none => s

/-- Runs a host write to a queue of a partition that stands. -/
def State.onQueue (s : State) (part q : Nat) (f : Partition → Queue → State) : Answer :=
  match s.parts.get? part with
  | some pt => if q < 64 then .next (f pt (pt.queue q)) else .next s
  | none => .next s

/-- QUEUE_TAIL: refused on a device-fed queue, on a disabled one, and outside tail to head + 2^m. -/
def execQueueTail (part q : Nat) (v : Word) (s : State) : Answer :=
  s.onQueue part q fun _ x =>
    let t := (v.extractLsb' 0 48).toNat
    if x.devFeed then s.queueWriteError part q 0x0111
    else if !x.enable then s.queueWriteError part q 0x0112
    else if t < x.tail ∨ x.head + 2 ^ x.log2 < t then s.queueWriteError part q 0x0110
    else (s.setQueue part q fun x => { x with tail := t }).wake .monitor

/-- QUEUE_CFG. -/
def execQueueCfg (part q : Nat) (v : Word) (s : State) : Answer :=
  s.onQueue part q fun _ x =>
    let m := (v.extractLsb' 4 5).toNat
    if m < 4 ∨ 16 < m ∨ (x.enable = true ∧ (m ≠ x.log2 ∨ v.getLsbD 1 ≠ x.devFeed)) then s.queueWriteError part q 0x0113
    else s.setQueue part q fun x =>
      { x with log2 := m, serial := v.getLsbD 2, devFeed := v.getLsbD 1, enable := v.getLsbD 0 }

/-- QUEUE_BASE. -/
def execQueueBase (part q : Nat) (v : Word) (s : State) : Answer :=
  s.onQueue part q fun _ x =>
    if x.enable then s.queueWriteError part q 0x0113
    else s.setQueue part q fun x => { x with base := (v.extractLsb' 12 35).toNat * 4096 }

/-- QUEUE_ERRCTL.clear. -/
def execQueueErrctlClear (part q : Nat) (v : Word) (s : State) : Answer :=
  s.onQueue part q fun _ _ =>
    if v.getLsbD 32 then s.setQueue part q fun x => { x with errStatus := 0, errSeq := 0, errCount := 0 } else s

/-- QUEUE_ABORT (R66). -/
def execQueueAbort (part q : Nat) (v : Word) (s : State) : Answer :=
  s.onQueue part q fun _ x =>
    let n := (v.extractLsb' 0 48).toNat
    let lid := launchId part q n
    if x.tail ≤ n then s.queueError part q 0x0114 n
    else if x.head ≤ n then
      if x.aborts.contains n then s else s.setQueue part q fun x => { x with aborts := n :: x.aborts }
    else match s.launches.get? lid with
      | none => s.queueError part q 0x0114 n
      | some l => match l.state with
        | .waiting => s.completePacket lid l 0x0108
        | _ => s.setLaunch lid fun l => { l with aborted := true, wait := none }

/-! ### The checks of a packet (R28 to R33, R37) -/

/-- Reserved bits of the dependence words, a stamp without observers, a misaligned stamp: what a packet of type 0 is checked for too. -/
def Launch.headBad (l : Launch) : Bool :=
  2 < l.kind || (l.word 0).extractLsb' 8 8 != 1 || (l.word 0).extractLsb' 16 16 != 0
    || l.deps.any (fun d => d.extractLsb' 55 8 != 0)
    || (l.stamp != 0 && l.stampMask == 0) || l.stamp % 8 != 0

/-- A digest region that check 1 refuses. -/
def Launch.regionBad (l : Launch) (r : Nat) : Bool :=
  let (a, n) := l.region r
  if r < l.regions then n == 0 || n % 128 != 0 || a % 128 != 0 else a != 0 || n != 0

/-- Check 1 for a launch. -/
def Launch.fieldsBad (l : Launch) : Bool :=
  (l.word 5).extractLsb' 60 4 != 0
    || (l.word 6).extractLsb' 48 16 != 0 || (l.word 6).getLsbD 31 || (l.word 6).getLsbD 15
    || l.modes.extractLsb' 27 37 != 0 || l.modes.getLsbD 23 || l.modes.extractLsb' 12 4 != 0
    || (List.range 6).any (fun k => l.word (26 + k) != 0)
    || l.cls == 3 || (l.reference != 0 && l.det != 2)
    || (l.kind == 2 && (l.sramLines != 0 || l.prodValid || l.prodWarp != 0 || l.regs != 0 || l.streamEntry != 0))
    || 4 < l.regions || (List.range 4).any l.regionBad
    || l.entry.toNat % 64 != 0 || l.streamEntry.toNat % 64 != 0 || (l.word 8).toNat % 16 != 0

/-- Check 2: the shape rules (R28). -/
def Launch.shapeBad (l : Launch) : Bool :=
  l.bx == 0 || l.by' == 0 || l.bz == 0 || l.gx == 0 || l.gy == 0 || l.gz == 0
    || (if l.kind == 2 then decide (32768 < l.lanes) || (decide (1024 < l.lanes) && l.lanes % 1024 != 0) else decide (1024 < l.lanes))
    || 16 < l.ranks || l.gx % l.cx != 0 || l.gy % l.cy != 0 || l.gz % l.cz != 0 || 2 ^ 40 < l.blocks

/-- The native part of check 3 (R22). -/
def Launch.resourcesBad (l : Launch) : Bool :=
  l.regs < 8 || 256 < l.regs || 16384 < l.sramLines || 1024 < ceilDiv l.blockWarps 4 * (8 * granules l.regs)
    || (l.prodValid && l.blockWarps ≤ l.prodWarp)

/-- Check 3. -/
def Launch.needsBad (l : Launch) : Bool :=
  4096 < l.argSize || l.argSize % 16 != 0 || 16 < l.ranks || (l.kind == 1 && l.resourcesBad)

/-- A dependence word's fields (R33). -/
def depValid (d : Word) : Bool := d.getLsbD 63
def depQueue (d : Word) : Nat := (d.extractLsb' 48 6).toNat
def depSeq (d : Word) : Nat := (d.extractLsb' 0 48).toNat
def depLaunch (part : Nat) (d : Word) : Nat := launchId part (depQueue d) (depSeq d)

/-- Check 4. -/
def Launch.selfDependent (l : Launch) (q seq : Nat) : Bool := l.deps.any fun d => depValid d && depQueue d == q && seq ≤ depSeq d

/-- Whether a run of 64 bytes of unified memory is resident with a permission. -/
def State.lineUsable (s : State) (part a : Nat) (p : Placed → Bool) : Bool :=
  windowOf a == .unified && (match s.placeAll ⟨part, 0⟩ a 64 with | .ok ps => ps.all p | .error _ => false)

/-- Check 5. -/
def State.entryBad (s : State) (part : Nat) (l : Launch) : Bool :=
  if l.kind = 1 then
    !s.lineUsable part l.entry.toNat (·.x) || (l.streamEntry != 0 && !s.lineUsable part l.streamEntry.toNat (·.x))
  else !s.lineUsable part l.entry.toNat (·.r)

/-- Check 6 (R519). -/
def State.referenceBad (s : State) (part : Nat) (l : Launch) : Bool :=
  l.det == 2 && !((s.guestRecords part).any fun bs =>
    fieldAt bs 0 8 == l.reference && fieldAt bs 0x38 4 % 4 == 1
      && fieldAt bs 0x08 8 == (l.word 2).toNat && fieldAt bs 0x10 8 == (l.word 3).toNat && fieldAt bs 0x18 8 == (l.word 10).toNat
      && fieldAt bs 0x28 8 == (l.word 4).toNat && fieldAt bs 0x30 6 == ((l.word 5).extractLsb' 0 48).toNat)

/-- The first failing check, 0 when a packet passes (R37). -/
def State.checkPacket (s : State) (part q seq : Nat) (l : Launch) : Nat :=
  if l.headBad || (l.kind != 0 && l.fieldsBad) then 0x0101
  else if l.kind = 0 then (if l.selfDependent q seq then 0x0104 else 0)
  else if l.shapeBad then 0x0102
  else if l.needsBad then 0x0103
  else if l.selfDependent q seq then 0x0104
  else if s.entryBad part l then 0x0106
  else if s.referenceBad part l then 0x0107
  else 0

/-! ### Acceptance (R62, R63) -/

/-- Whether a packet has dispatched its last block (R62, R64 c). -/
def Launch.dispatched (l : Launch) : Bool :=
  match l.state with
  | .waiting => false
  | _ => l.aborted || l.nextTurn.isNone

/-- The packets of a queue that stand, by sequence number. -/
def State.queueLaunches (s : State) (part q : Nat) : NMap Launch :=
  s.launches.filter fun x => partOfLaunch x.1 == part && queueOfLaunch x.1 == q

/-- Whether a queue may be served. -/
def State.queueServes (s : State) (part q : Nat) (x : Queue) : Bool :=
  x.enable && x.head < x.tail
    && ((s.queueLaunches part q).filter fun l => !l.2.dispatched).length < 16
    && !((s.queueLaunches part q).any fun l => seqOfLaunch l.1 % 64 == x.head % 64)

/-- The address of a packet's slot (R56). -/
def Queue.slot (x : Queue) (n : Nat) : Nat := x.base + 256 * (n % 2 ^ x.log2)

/-- A packet as read. -/
def Launch.ofWords (words : List Word) (born accept : Nat) : Launch where
  words := words
  born := born
  accept := accept
  state := .waiting
  next := 0
  again := []
  wait := none
  retiredBlocks := 0
  retiredClusters := 0
  aborted := false
  translated := false
  status := 0
  start := 0
  retired := 0
  accum := 0
  record := none
  openView := 0
  ltag := none

/-- The command processor reads 16 bytes of an argument block, or meets a failing one (R35). -/
def State.readArguments (s : State) (part q a : Nat) : Except State (List Byte) :=
  match s.checkPlain ⟨part, 0⟩ a 16 true false with
  | .error _ => .error s
  | .ok ps =>
    if ps.any s.poisoned then .error s
    else if ps.any (·.host.isSome) && (s.portFault (.arguments part q)).isSome then .error (s.faultMet (.arguments part q))
    else .ok (s.readPieces ps)

/-- Copies an argument block, 16 bytes at a time; false where a byte failed (R35). A place that cannot be written fails the copy too: the
model's choice, since R35 names only what fails the read (log entry 162). -/
def copyArguments (part q from' to' : Nat) : Nat → State → State × Bool
  | 0, s => (s, true)
  | n + 1, s =>
    match s.readArguments part q from' with
    | .error t => (t, false)
    | .ok bs =>
      match s.writePlain ⟨part, 0⟩ to' bs with
      | .error _ => (s, false)
      | .ok t => copyArguments part q (from' + 16) (to' + 16) n t

/-- A packet is completed before it has opened a record, its status standing in QUEUE_ERR. -/
def State.rejectPacket (s : State) (part q seq : Nat) (l : Launch) (status : Nat) : State :=
  (s.queueError part q status seq).completePacket (launchId part q seq) l status

/-- Sets the native launch's values (R50). -/
def Launch.translate (l : Launch) (t : Translated) : Launch :=
  let w (n : Nat) : Word := BitVec.ofNat 64 n
  { l with
    words := ((((l.words.set 1 (w t.entry)).set 2 (w t.codeHash)).set 3 (w (t.codeHash / 2 ^ 64))).set 5 (w t.blockWord)).set 6 (w t.resources)
    translated := true }

/-- The hash that keys an Asder launch's translation (R51). -/
def Launch.hash (l : Launch) : Nat := (l.word 2).toNat + 2 ^ 64 * (l.word 3).toNat

/-- A translation reaches a launch: the native checks are met then, and fail with 0x0109 (R37). -/
def State.useTranslation (s : State) (lid : Nat) (l : Launch) (t : Translated) : State :=
  let n := l.translate t
  if n.resourcesBad || 1024 < n.lanes || n.lanes == 0 then s.completePacket lid l 0x0109
  else s.setLaunch lid fun _ => n

/-- The key of a launch's translation (R51). -/
def State.codeKey (s : State) (l : Launch) : CodeKey := ⟨l.hash, l.lanes, s.ctl.translator⟩

/-- An accepted packet is held until it is ready; an Asder launch whose translation is cached has it at once, and for another the command
processors enqueue a translator launch (R50, R61). -/
def State.holdPacket (s : State) (part lid : Nat) (l : Launch) : State :=
  let s := { s with launches := s.launches.put lid l }
  if l.kind ≠ 2 then s else
  let key := s.codeKey l
  match (s.parts.get? part).bind fun pt => pt.codes.find? (·.key == key) with
  | none => s.setPart part fun p => { p with sysQueue := p.sysQueue ++ [⟨lid, none, none⟩] }
  | some c =>
    let now := s.cycle
    let s := s.setPart part fun p => { p with codes := p.codes.map fun c => if c.key == key then { c with used := now } else c }
    s.useTranslation lid l c.value

/-- A partition accepts a packet: at most one a cycle (R62). -/
def Partition.acceptsAt (p : Partition) (cycle : Nat) : Partition := { p with accepted := p.accepted + 1, acceptedAt := some cycle }

/-- The first translator launch that has not been accepted is (R61); it passes the hardware queues (log entry 166). -/
def State.acceptJob (s : State) (part : Nat) (pt : Partition) (j : SysJob) : State :=
  s.setPart part fun p => { p.acceptsAt s.cycle with
    sysQueue := p.sysQueue.map fun x => if x.launch == j.launch then { x with accept := some pt.accepted } else x }

/-- The steps of R63 for the head of a queue; a packet that a rollback has completed is passed over (R483 step 5). -/
def State.acceptHead (s : State) (part : Nat) (pt : Partition) (q : Nat) : State :=
  let x := pt.queue q
  let seq := x.head
  let lid := launchId part q seq
  let bytes := s.readPlain ⟨part, 0⟩ (x.slot seq) 256
  let words := match bytes with
    | .ok bs => (List.range 32).map fun k => BitVec.ofNat 64 (fieldAt bs (8 * k) 8)
    | .error _ => List.replicate 32 0
  let l := Launch.ofWords words part pt.accepted
  let status := match bytes with | .ok _ => s.checkPacket part q seq l | .error _ => 0x0101
  let asked := x.aborts.contains seq
  let s := ((s.setPart part fun p => p.acceptsAt s.cycle).setPart part fun p => { p with lastServed := q }).setQueue part q fun x =>
    { x with head := x.head + 1, aborts := x.aborts.filter (· != seq) }
  if (s.statuses.get? lid).isSome then advanceDone part q (x.head + 2) s
  else if status ≠ 0 then s.rejectPacket part q seq l status
  else
    let (s, ok) := if l.kind = 0 then (s, true)
      else copyArguments part q (l.word 8).toNat (argPlace pt.argArea lid) (l.argSize / 16) s
    if !ok then s.rejectPacket part q seq l 0x010B
    else if asked then s.completePacket lid l 0x0108
    else s.holdPacket part lid l

/-- The command processors accept a packet: the queues are served in turn. -/
def execAcceptPacket (part : Nat) (s : State) : Answer :=
  match s.parts.get? part with
  | none => .next s
  | some pt =>
    if pt.ctx.state ≠ 1 || s.standing part || pt.acceptedAt == some s.cycle then .next s else
    match pt.sysQueue.find? (·.accept.isNone) with
    | some j => .next (s.acceptJob part pt j)
    | none =>
      match ((List.range 64).map fun k => (pt.lastServed + 1 + k) % 64).find? fun q => s.queueServes part q (pt.queue q) with
      | some q => .next ((s.acceptHead part pt q).wake .monitor)
      | none => .next s

/-- Whether a running launch uses a translation. -/
def State.codeInUse (s : State) (part : Nat) (c : CachedCode) : Bool :=
  s.launches.any fun x => partOfLaunch x.1 == part && x.2.translated && x.2.entry.toNat == c.value.entry

/-- The least recently used entry no running launch uses. -/
def State.oldestCode (s : State) (part : Nat) (cs : List CachedCode) : Option CachedCode :=
  cs.foldl (fun (best : Option CachedCode) c =>
    if s.codeInUse part c then best else match best with
      | some b => if c.used < b.used then some c else best
      | none => some c) none

/-- A translation enters the cache of 256 entries; none where no entry can leave it (R51). -/
def State.cacheCode (s : State) (part : Nat) (pt : Partition) (key : CodeKey) (t : Translated) : Option State :=
  let kept := if pt.codes.length < 256 then some pt.codes
    else (s.oldestCode part pt.codes).map fun c => pt.codes.filter (· != c)
  let entry : CachedCode := ⟨key, t, s.cycle⟩
  kept.map fun cs =>
    { s with natives := if s.natives.any (·.1 == key) then s.natives else s.natives ++ [(key, t)] }.setPart part fun p =>
      { p with codes := cs ++ [entry] }

/-- Whether a launch's translator block is running. -/
def Partition.translates (p : Partition) (lid : Nat) : Bool := p.sysQueue.any fun j => j.launch == lid && j.place.isSome

/-- The translator block of an Asder launch has ended (R50): an object that fails R47 completes the launch with 0x0109, and so does a
translator that gives no text; else the native values, which are the same for equal keys (R51), enter the cache and the launch. Values
that are no translation of the object (R48) are no answer of the translator, and change nothing. -/
def execAsderTranslationDone (launch : Nat) (r : Option Translated) (s : State) : Answer :=
  let part := partOfLaunch launch
  match s.launches.get? launch, s.parts.get? part with
  | some l, some pt =>
    if l.kind ≠ 2 || l.translated || pt.ctx.state ≠ 1 || s.standing part || !pt.translates launch then .next s else
    let key := s.codeKey l
    let fails := s.completePacket launch l 0x0109
    match s.asderAt part l.entry.toNat l.hash, ((s.natives.find? (·.1 == key)).map (·.2)).or r with
    | some o, some t =>
      if !o.sound then .next fails
      else if !(l.translate t).maps o l.lanes then .next s
      else match s.cacheCode part pt key t with
        | none => .next fails
        | some u => .next ((u.dropJob launch).useTranslation launch l t)
    | _, _ => .next fails
  | _, _ => .next s

/-! ### Readiness (R34, R64, R65) -/

/-- Whether a packet's queue lets it start: every earlier packet has dispatched its last block, and with serial the previous one has
completed. -/
def State.turnCome (s : State) (lid : Nat) (x : Queue) : Bool :=
  let part := partOfLaunch lid
  let q := queueOfLaunch lid
  let n := seqOfLaunch lid
  (s.queueLaunches part q).all (fun y => n ≤ seqOfLaunch y.1 || y.2.dispatched)
    && (!x.serial || n == 0 || (s.statuses.get? (launchId part q (n - 1))).isSome)

/-- The lowest log tag no open logged launch of the partition holds (R523). -/
def State.freeTag (s : State) (part : Nat) : Option Nat :=
  (List.range 4096).find? fun t => !(s.launches.any fun x => partOfLaunch x.1 == part && x.2.ltag == some t)

/-- A launch becomes ready: its record opens, and a logged one writes its LAUNCH entry (R65, R523, R526). -/
def State.openLaunch (s : State) (lid : Nat) (l : Launch) : State :=
  let part := partOfLaunch lid
  let ready (s : State) : State := s.setLaunch lid fun l => { l with state := .ready }
  if l.det = 1 then
    match s.freeTag part with
    | none => s
    | some t =>
      if !s.logRoom part 1 then s else
      match s.openRecord lid l with
      | none => s
      | some u => ready ((u.putEntry part (entryHead 1 t 0) lid).setLaunch lid fun l => { l with ltag := some t })
  else match s.openRecord lid l with
    | none => s
    | some u => ready u

/-- A packet whose dependences have completed becomes ready, or completes without running. -/
def execPacketReady (launch : Nat) (s : State) : Answer :=
  let part := partOfLaunch launch
  match s.launches.get? launch, s.parts.get? part with
  | some l, some pt =>
    if l.state ≠ .waiting || pt.ctx.state ≠ 1 || s.standing part then .next s else
    let deps := l.deps.filter depValid
    let status (d : Word) : Option Nat := s.statuses.get? (depLaunch part d)
    if deps.any fun d => d.getLsbD 54 && (status d).any (· != 0) then .next (s.completePacket launch l 0x0105)
    else if deps.any (fun d => (status d).isNone) || (l.kind == 2 && !l.translated)
      || !s.turnCome launch (pt.queue (queueOfLaunch launch)) then .next s
    else if l.kind = 0 then .next (s.completePacket launch l 0)
    else .next (s.openLaunch launch l)
  | _, _ => .next s

/-! ### `launch` (R67 to R70) -/

/-- Whether a queue takes packets from `launch`. -/
def Queue.takesLaunch (x : Queue) : Bool := x.enable && x.devFeed

/-- The value of a LNCH entry (R524). -/
def launchValue (q : Nat) (full : Bool) (seq : Nat) : Nat := q * 2 ^ 34 + full.toNat * 2 ^ 33 + seq % 2 ^ 33

/-- What replay makes of an append (R70): whether it is the append's turn, after the logged entry that holds it. Two cases that R70 and
R528 do not name are the model's choice (log entry 163): a logged q other than the instruction's diverges, and an append whose turn has
come while the queue is full parks. -/
def launchTurn (s : State) (c : Ctx) (lanes : LaneMask) (q : Nat) (x : Queue) : Except Stop (Option ReplayEntry) :=
  if c.la.det ≠ 2 then .ok none else
  match s.replayHead c.env.part c.lid fun e => e.kind == 9 && e.block == c.blk.linear && e.warp == c.w.index with
  | none => replayEmpty s c lanes
  | some e =>
    let differs : Except Stop (Option ReplayEntry) := raise 0x60 0 lanes (BitVec.ofNat 64 e.index)
    let isFull := x.tail - x.head == 2 ^ x.log2
    let logged := e.value % 2 ^ 33
    if e.key ≠ choiceKey (c.la.word 1) c.p.pc || e.value / 2 ^ 34 % 64 ≠ q then differs
    else if e.value.testBit 33 then (if isFull then .ok (some e) else differs)
    else if logged < x.tail % 2 ^ 33 then differs
    else if x.tail % 2 ^ 33 < logged || isFull then .error (.park .monitor)
    else .ok (some e)

/-- `launch`: one step from its checks to its append, parking where it has to wait. -/
def execLaunch (d : Dst) (a : Nat) (q : Src) (e : MExt) (s : State) : Answer :=
  s.run fun c => do
    let g := Guard.always
    let lanes := c.real g
    if c.la.det = 3 then raise 0x62 0 lanes
    let ar := c.w.areg a
    let xs := onceAim c g ar e.off
    checkRights ar true false (some lanes) xs
    let ys ← checkRange s c.env ar true false 256 (some lanes) xs
    let ea := (ys.head?.map (·.2.1)).getD 0
    let qn := (readSca c.w c.p q).toNat
    let part := c.env.part
    let x := ((s.parts.get? part).map (·.queue qn)).getD Queue.reset
    if 63 < qn || !x.takesLaunch then raise 0x11 0 lanes (BitVec.ofNat 64 ea)
    waitLines s ys
    if !s.releasable c.wid lanes (e.mask ||| 0x0C) then .error (.park .fence)
    let s := s.publish (.lane (coreOf c.wid)) (e.mask ||| 0x0C)
    if c.la.det = 1 then needRoom s c lanes 1
    let used ← launchTurn s c lanes qn x
    let full := x.tail - x.head == 2 ^ x.log2
    let pieces := ys.flatMap (·.2.2)
    let view := s.seenBy c.wid lanes e.mask
    if !full && !s.mayRead c.wid lanes pieces then .error (.park .fence)
    match if full then none else view.poisonOf pieces with
    | some sub => raise 0x51 sub lanes (BitVec.ofNat 64 ea)
    | none =>
      let s := s.translated c.env (ys.map (·.2.1))
      let w := c.w.setAreg a (s.cachedRun part ar ys)
      let result : Word := if full then BitVec.allOnes 64 else BitVec.ofNat 64 (launchId part qn x.tail)
      let s ← if full then (.ok s : Except Stop State) else
        match s.writeFor c.bid c.env (x.slot x.tail) (view.readPieces pieces) with
        | .error _ => raise 0x11 0 lanes (BitVec.ofNat 64 ea)
        | .ok t => .ok (((t.noteReads part pieces).wroteOut c.bid).setQueue part qn fun x => { x with tail := x.tail + 1 })
      let s := match used with
        | some e => s.consume part c.bid e
        | none => s
      let s := if c.la.det = 1 then
          s.logChoice part c.lid c.bid true 9 none c.w.index c.blk.linear (choiceKey (c.la.word 1) c.p.pc) (launchValue qn full x.tail)
        else s
      let r := if d.cls = .scalar then scalarResult w d (some result) else (w, .none)
      return (s.complete c r.1 r.2).wake .monitor

end Sys2Proof.Machine
end

