-- ==== Sys2Proof/Machine/Matrix.lean ====
section
/-! DEFINITION. The matrix stream's instructions, the warp-class matrix instructions, and the engine's events (spec/10, spec/11). -/
namespace Sys2Proof.Machine

/-! ### Running a stream word -/

/-- Runs a stream-class word: on the stream, by what it does there and what it does on a drain retry's walk (R268); a warp that issues
it takes 0x01 subcode 0x04 (R123). -/
def State.runStream (s : State) (live : SCtx → State) (walk : SCtx → Walk → State) : Answer :=
  match s.focus with
  | some (.stream b pre) =>
    match s.stream? b pre with
    | none => .next { s with focus := none }
    | some c => match c.m.drain with
      | some w => .next (walk c w)
      | none => .next (live c)
  | _ => s.run fun c => raise 0x01 0x04 c.p.mask

/-- A word a walk skips (R268). -/
def skipped (s : State) (c : SCtx) (_ : Walk) : State := s.streamOn c

/-- Nobody goes on: the word is issued again later. -/
def State.waitHere (s : State) : State := { s with focus := none }

/-! ### Descriptors (R274, R275) -/

/-- The 32 bytes of descriptor d, when they lie wholly in the block's SRAM run. -/
def descriptorAt (c : SCtx) (d : Int) : Option Nat :=
  let off := 32 * d.toNat
  if off + 32 ≤ 128 * c.blk.sramLen then some (0x7E0000000000 + 128 * c.blk.sramBase + off) else none

/-- Why a stream instruction does not go on: it waits, or it stops with a cause, a subcode and the poisoned sectors it met. -/
abbrev Held' := Option (Nat × Nat × List Nat)

/-- A stop for a read the engine cannot make: poison is 0x51 subcode 0x02, a refusal 0x31 subcode 0x01. -/
def ReadStop.codes : ReadStop → Held'
  | .wait => none
  | .poison sectors => some (0x51, 0x02, sectors)
  | .refused => some (0x31, 0x01, [])

/-- A stop that meets no poison. -/
def stopAt (cause sub : Nat) : Except Held' α := .error (some (cause, sub, []))

/-- How a stream instruction ends that does not go on. -/
def State.heldAt (s : State) (c : SCtx) : Held' → State
  | none => s.waitHere
  | some x => s.stopHere c x.1 x.2.1 x.2.2

/-- Reads a descriptor; nonzero reserved bytes are 0x31 subcode 0x05 (R276). -/
def readDescriptor (s : State) (c : SCtx) (d : Int) (zeroAt : List (Nat × Nat)) : Except Held' (List Byte) :=
  match descriptorAt c d with
  | none => stopAt 0x31 0x05
  | some a =>
    match s.engineRead c.env a 32 with
    | .error r => .error r.codes
    | .ok bs => if zeroAt.any fun z => fieldAt bs z.1 z.2 != 0 then stopAt 0x31 0x05 else .ok bs

/-- Descriptors have been read. -/
def State.notedDescriptors (s : State) (c : SCtx) (ds : List Int) : State :=
  ds.foldl (fun s d => match descriptorAt c d with | some a => s.engineNoted c.env a 32 | none => s) s

/-- An operand descriptor (R274), with log2 P. -/
def readOperand (s : State) (c : SCtx) (d : Int) : Except Held' Operand := do
  let bs ← readDescriptor s c d [(0x16, 2), (0x1C, 4)]
  return ⟨fieldAt bs 0 8, fieldAt bs 8 8, fieldAt bs 0x10 2, fieldAt bs 0x12 2, fieldAt bs 0x14 1, fieldAt bs 0x15 1, fieldAt bs 0x18 4⟩

/-- Whether bytes from a 128-byte aligned base lie in the local slice window. -/
def inSlice (a len align : Nat) : Bool := a % align == 0 && 0x7E0000000000 ≤ a && a + len ≤ 0x7E0000200000

/-- The bases of an operand (R257, R274). -/
def Operand.basesOk (o : Operand) : Bool :=
  inSlice o.dbase (4 * o.kcount * o.p * o.m) 128 && inSlice o.sbase (o.kcount / 2 ^ o.lp * o.m) 128

/-- Rows and planes of an operand (R257). -/
def Operand.shapeOk (o : Operand) : Bool :=
  64 ≤ o.m && o.m ≤ 4096 && o.m % 64 == 0 && 1 ≤ o.p && o.p ≤ 24 && o.lp ≤ 15

def Operand.rowOk (o : Operand) : Bool := o.row0 % 64 == 0 && o.row0 + 64 ≤ o.m

/-- The checks of an `mma`, in the order of R276. -/
def checkMma (a b : Operand) (ks nk : Nat) : Except Held' Unit :=
  if !a.basesOk || !b.basesOk then stopAt 0x31 0x01
  else if !a.shapeOk || !b.shapeOk || a.lp != b.lp then stopAt 0x31 0x02
  else if !a.rowOk || !b.rowOk then stopAt 0x31 0x04
  else if ks % 2 ^ a.lp ≠ 0 || nk % 2 ^ a.lp ≠ 0 || nk < 1 || 8192 < nk || a.kcount < ks + nk || b.kcount < ks + nk then
    stopAt 0x31 0x03
  else if 62 < a.p + b.p + 5 + a.lp then stopAt 0x32 0x00
  else .ok ()

/-- The work of an `mma` whose checks pass. -/
def mmaWork (s : State) (c : SCtx) (loops : List Nat) (walk acc : Nat) (da db ks : Int) (nk : Nat) : Except Held' MWork := do
  let a ← readOperand s c da
  let b ← readOperand s c db
  let base := ks.toNat + (if walk = 0 then 0 else nth loops (walk - 1) 0 * nk)
  checkMma a b base nk
  let first := base / 2 ^ a.lp
  return MWork.cleared
    { tile := acc, a := a, b := b, first := first, last := (base + nk) / 2 ^ a.lp, g := first, k := 0, sums := [], col := []
      row := [], corner := 0, retry := false, tries := 0, next := c.nextPc }

/-- Whether a tile is in its promotion hold (R256). -/
def SCtx.busy (c : SCtx) (t : Nat) : Bool := c.blk.mx.holds.contains t

/-- An `mma` passes its checks and waits for the array, or stops (R276). -/
def startMma (s : State) (c : SCtx) (ds : List Int) (x : Except Held' MWork) : State :=
  match x with
  | .ok w => (s.waitHere.notedDescriptors c ds).setStream c.bid fun m => m.setDoing (some w)
  | .error h => s.heldAt c h

/-! ### The stream's instructions (R276 to R281) -/

/-- `mma` (R276). -/
def execMma (walk acc : Nat) (da db ks : Int) (nk : Nat) (s : State) : Answer :=
  s.runStream
    (fun c => if c.busy acc then s.waitHere else startMma s c [da, db] (mmaWork s c c.m.loops walk acc da db ks nk))
    (fun c w => if w.tile ≠ acc then s.streamOn c
      else if c.busy acc then s.waitHere else startMma s c [da, db] (mmaWork s c w.loops walk acc da db ks nk))

/-- A tile and its column are zeroed, their place recorded (R277). -/
def Mx.mzero (x : Mx) (t : Nat) (pc : Word) (loops : List Nat) : Mx :=
  { x.zeroTile t with zaddr := x.zaddr.set t pc, zloops := x.zloops.set t loops, zruns := x.zruns.set t x.runs }

/-- `mzero` (R277). -/
def execMzero (acc : Nat) (s : State) : Answer :=
  s.runStream
    (fun c => if c.busy acc then s.waitHere
      else (s.setMx c.bid fun x => x.mzero acc c.m.pc c.m.loops).streamOn c)
    (fun c w => if w.tile ≠ acc then s.streamOn c
      else if c.busy acc then s.waitHere else (s.setMx c.bid fun x => x.zeroTile acc).streamOn c)

/-- A drain retry begins (R268): the tile is zeroed and the walk stands at its last `mzero`. -/
def startDrain (s : State) (bid tile tries : Nat) : State :=
  s.waitHere.setMx bid fun x =>
    { x.zeroTile tile with
      retries := satAdd 16 x.retries 1, stopped := none
      stream := x.stream.map fun m => { m with
        line := none, dtries := none, store := none
        drain := some ⟨tile, nth x.zaddr tile 0, nth x.zloops tile [0, 0, 0], x.runs - nth x.zruns tile 0, none, tries⟩ } }

/-- What an output descriptor gives: the base and the pitch of the rows, or how the `mstore` stops (R275). -/
def readOutput (s : State) (c : SCtx) (f : Fmt) (od : Int) : Except Held' (Nat × Nat) := do
  let bs ← readDescriptor s c od [(0x0C, 8), (0x14, 8), (0x1C, 4)]
  let size := 64 * Mx.rowBytes.elemBytes f
  let obase := fieldAt bs 0 8
  let pitch := fieldAt bs 8 4
  if !inSlice obase (63 * pitch + size) 32 then stopAt 0x31 0x01
  if pitch % 32 ≠ 0 ∨ pitch < size ∨ 2 ^ 20 < pitch then stopAt 0x31 0x02
  return (obase, pitch)

/-- The row pieces an `mstore` writes. -/
def storeRows (s : State) (c : SCtx) (f : Fmt) (acc obase pitch : Nat) : Except Held' (List (Piece × List Byte)) := do
  let rows ← tileIndices.mapM fun i =>
    match s.placeAll c.env (obase + i * pitch) (64 * Mx.rowBytes.elemBytes f) with
    | .ok ps => .ok (cutBytes (ps.map (·.piece)) (c.blk.mx.rowBytes acc i f))
    | .error _ => stopAt 0x31 0x01
  return rows.flatten

/-- The state Drain of R268: rows fail, in a first check or in that of a retry. -/
def drainFails (s : State) (c : SCtx) (acc row : Nat) : State :=
  let f (tries : Nat) : MFault := ⟨3, acc, row, 0, tries, 0, 0⟩
  match c.m.dtries with
  | none => if c.blk.mx.policy = 0 then s.stopStream c.bid 0x30 0x02 c.m.pc (f 0) else startDrain s c.bid acc 0
  | some n => if n < 1 then startDrain s c.bid acc (n + 1) else s.stopStream c.bid 0x33 0x01 c.m.pc (f 2)

/-- The state Store (R268, R278): the rows are written once every line they touch is there. -/
def storeTile (s : State) (c : SCtx) (f : Fmt) (acc obase pitch : Nat) : State :=
  match storeRows s c f acc obase pitch with
  | .error h => s.heldAt c h
  | .ok ws =>
    let ps := ws.map (·.1)
    if (ps.any fun p => s.lineAbsent p || s.lineOwned p) || s.heldFrom (some c.env.part) ps || s.logFull c.bid ps then
      s.waitHere.setStream c.bid fun m => { m with store := some (obase, pitch, true) }
    else
      let s := ws.foldl (fun s w => s.performAt (.engine c.blk.core) everyCore w.1 w.2) ((s.noteWrite c.bid ps).track c.bid ps)
      (s.setStream c.bid fun m => { m with store := none, checked := false, dtries := none }).streamOn c

/-- `mstore` (R278): the output descriptor is read once, then comes the drain check, then the store. -/
def execMstore (f : Fmt) (acc : Nat) (od : Int) (s : State) : Answer :=
  s.runStream
    (fun c =>
      let check (s : State) (o : Nat × Nat) : State :=
        match if c.m.checked then none else (c.blk.mx.failingRows acc f).head? with
        | some row => drainFails (s.setStream c.bid fun m => { m with store := some (o.1, o.2, false) }) c acc row
        | none => storeTile s c f acc o.1 o.2
      if c.busy acc then s.waitHere
      else match c.m.store with
        | some (o, p, true) => storeTile s c f acc o p
        | some (o, p, false) => check s (o, p)
        | none => match readOutput s c f od with
          | .error h => s.heldAt c h
          | .ok o => check (s.notedDescriptors c [od]) o)
    (skipped s)

/-- The stream has named a barrier (R270). -/
def MStream.names (m : MStream) (k : Nat) : MStream := if m.named.contains k then m else { m with named := k :: m.named }

/-- `msig` (R279, R385). -/
def execMsig (b : Int) (s : State) : Answer :=
  let k := b.toNat
  s.runStream
    (fun c =>
      let s := s.setStream c.bid (·.names k)
      if (c.blk.barrier k).n = 1024 then s.stopStream c.bid 0x71 0x03 (BitVec.ofNat 64 k) MFault.none
      else ((s.publish (.engine c.blk.core) 0x11).arriveAt c.bid streamAgent k none).streamOn c)
    (skipped s)

/-- `mwaitb` (R279, R386). -/
def execMwaitb (b : Int) (s : State) : Answer :=
  let k := b.toNat
  s.runStream
    (fun c =>
      let s := s.setStream c.bid (·.names k)
      let x := c.blk.barrier k
      let r := x.record streamAgent
      if r.state = .done then (s.setBarrier c.bid k (x.setRecord streamAgent { r with state := .none })).streamOn c
      else s.waitHere.setStream c.bid fun m => { m with waits := some k })
    (skipped s)

/-- The loop counters a word of the stream works on. -/
def MStream.counters (m : MStream) : List Nat := match m.drain with | some w => w.loops | none => m.loops

def MStream.setCounters (m : MStream) (l : List Nat) : MStream :=
  match m.drain with
  | some w => { m with drain := some { w with loops := l } }
  | none => { m with loops := l }

/-- `mloop` of the stream or of its walk (R280). -/
def streamLoop (s : State) (k : Nat) (count o : Int) (c : SCtx) : State :=
  let n := nth c.m.counters k 0 + 1
  if (n : Int) < count then
    match do let t ← branchTarget c.branchPc o; s.checkTarget c.env t; return t with
    | .error f => s.stopPc c f
    | .ok t => s.waitHere.setStream c.bid fun m => (m.setCounters (m.counters.set k n)).goto t true
  else (s.setStream c.bid fun m => m.setCounters (m.counters.set k 0)).streamOn c

/-- `mloop` (R280). -/
def execMloop (k : Nat) (count o : Int) (s : State) : Answer :=
  s.runStream (streamLoop s k count o) fun c _ => streamLoop s k count o c

/-- `mend` (R281); a walk goes on at the stream's entry, in its next run (R268). -/
def execMend (s : State) : Answer :=
  s.runStream (fun c => s.endStream c.bid)
    (fun c w => s.waitHere.setStream c.bid fun m => { m with
      line := none, drain := some { w with pc := c.la.streamEntry, loops := [0, 0, 0], ends := w.ends - 1 } })

/-! ### Warp-class instructions (R282 to R288) -/

/-- Whether a warp of lower index issues a `fork` of the same stream in this cycle, which comes first (R282). -/
def State.forkAhead (s : State) (c : Ctx) : Bool :=
  let forks (x : Choice) : Bool := match x.instr with | .fork _ => true | _ => false
  (s.liveWarps c.bid).any fun x => decide (x.2.index < c.w.index) && !s.issued.contains (quarterOf x.1) &&
    (match s.firstChoice (quarterOf x.1) with
      | some y => y.1 == x.1 && (y.2.1.path y.2.2).unit.any forks
      | none => false)

/-- Whether a `fork` may start the stream now: it is free, and no other parked or issuing `fork` comes before this one (R282). -/
def State.forkTurn (s : State) (c : Ctx) : Bool :=
  c.blk.mx.stream.isNone &&
    match c.blk.mx.granted with
    | some g => (g.1 == c.w.index && g.2.1 == c.pidx) || !(s.forkGranted c.bid g)
    | none => !s.forkAhead c

/-- A stream at its entry. -/
def MStream.entered (entry : Word) : MStream where
  pc := entry
  loops := [0, 0, 0]
  named := []
  waits := none
  line := none
  entering := true
  work := none
  drain := none
  store := none
  checked := false
  dtries := none

/-- `fork` (R282). -/
def execFork (g : Guard) (s : State) : Answer :=
  s.run fun c => do
    if !c.once g then return s.skip c
    if c.la.streamEntry = 0 then raise 0x31 0x00 (c.real g)
    if !s.forkTurn c then .error (.park .stream)
    if !s.releasable c.wid c.p.mask 0x11 then .error (.park .fence)
    return ((s.publish (.lane (coreOf c.wid)) 0x11).setMx c.bid fun x =>
      { x with stream := some (MStream.entered c.la.streamEntry), forker := c.w.index, runs := x.runs + 1, granted := none }).skip c

def Mx.pend (x : Mx) : Bool := x.stopped.isSome

/-- The value of a matrix register (R267). -/
def Mx.reg (x : Mx) (n : Nat) : Word :=
  let w (v : Nat) : Word := BitVec.ofNat 64 v
  if n = 0x00 then w x.policy
  else if n = 0x01 then w (x.retries * 2 ^ 48 + x.fixes * 2 ^ 32 + x.pend.toNat * 256 + x.flags.toNat)
  else if n = 0x02 then
    w (x.fault.kind * 2 ^ 62 + x.fault.tile * 2 ^ 59 + x.fault.row * 2 ^ 53 + x.fault.col * 2 ^ 47 + x.fault.tries * 2 ^ 45
      + x.fault.interval)
  else if n = 0x03 then x.fault.syndrome
  else if 0x08 ≤ n ∧ n ≤ 0x0C then (nth x.tols (n - 8) 0).zeroExtend 64
  else nth x.zaddr (n - 0x10) 0

/-- `mrd` (R283). -/
def execMrd (g : Guard) (d : Dst) (n : Nat) (s : State) : Answer :=
  s.run fun c =>
    let r := scalarResult c.w d (if c.once g then some (c.blk.mx.reg n) else none)
    .ok (s.complete c r.1 r.2)

/-- Whether a value is a finite, non-negative f32 with no bit above (R283). -/
def toleranceOk (v : Word) : Bool :=
  v.toNat < 2 ^ 32 && (match (fspec .f32).decode v.toNat with | .fin neg m _ => !neg || m == 0 | _ => false)

/-- The registers after a write (R283), or the subcode of cause 0x11. -/
def Mx.write (x : Mx) (n : Nat) (v : Word) : Except Nat Mx :=
  if n = 0x00 then if 3 < v.toNat then .error 0x0C else .ok { x with policy := v.toNat }
  else if n = 0x01 then
    if v.extractLsb' 9 23 ≠ 0 ∨ v.extractLsb' 4 4 ≠ 0 then .error 0x0C
    else .ok { x with flags := x.flags &&& ~~~(v.extractLsb' 0 4) }
  else if 0x08 ≤ n ∧ n ≤ 0x0C then
    if toleranceOk v then .ok { x with tols := x.tols.set (n - 8) (v.extractLsb' 0 32) } else .error 0x0C
  else .error 0x09

/-- Writes a matrix register for a warp. -/
def writeMatrix (s : State) (c : Ctx) (g : Guard) (n : Nat) (v : Word) : Except Stop State :=
  match c.blk.mx.write n v with
  | .error sub => raise 0x11 sub (c.real g)
  | .ok x => .ok ((s.setMx c.bid fun _ => x).skip c)

/-- `mwr` (R283). -/
def execMwr (g : Guard) (n : Nat) (x : Src) (s : State) : Answer :=
  s.run fun c => do
    checkLatch c g .sca x
    if !c.once g then return s.skip c
    writeMatrix s c g n (readSca c.w c.p x)

/-- `mtol` (R284). -/
def execMtol (g : Guard) (f : Fmt) (x : Src) (s : State) : Answer :=
  s.run fun c => do
    checkLatch c g .sca x
    if !c.once g then return s.skip c
    writeMatrix s c g (8 + tolIndex f) (((readSca c.w c.p x).extractLsb' 0 32).zeroExtend 64)

/-- The view of R285. -/
def Mx.view (x : Mx) : Word :=
  BitVec.ofNat 64 (x.stream.isSome.toNat * 2 ^ 63 + x.pend.toNat * 2 ^ 62 + x.fault.kind * 2 ^ 60 + x.fault.tile * 2 ^ 57
    + x.forker * 2 ^ 52 + x.flags.toNat)

/-- `mstat` (R285). -/
def execMstat (g : Guard) (d : Dst) (s : State) : Answer :=
  s.run fun c =>
    let r := scalarResult c.w d (if c.once g then some c.blk.mx.view else none)
    .ok (s.complete c r.1 r.2)

/-- `mstat.clr` (R285). -/
def execMstatClr (g : Guard) (d : Dst) (s : State) : Answer :=
  s.run fun c =>
    let r := scalarResult c.w d (if c.once g then some c.blk.mx.view else none)
    let s := if c.once g then s.setMx c.bid fun x => { x with flags := 0 } else s
    .ok (s.complete c r.1 r.2)

/-- Whether a tile is idle: no `mma` stands on it and its hold is over. -/
def Mx.idle (x : Mx) (t : Nat) : Bool :=
  !x.holds.contains t && (match x.stream.bind (·.doing) with | some w => w.tile != t | none => true)

/-- `mchk` (R286). -/
def execMchk (g : Guard) (f : Fmt) (d : Dst) (acc : Nat) (s : State) : Answer :=
  s.run fun c => do
    if !c.once g then
      let r := scalarResult c.w d none
      return s.complete c r.1 r.2
    if !c.blk.mx.idle acc then .error (.park .stream)
    let mask := (c.blk.mx.failingRows acc f).foldl (fun n i => n + 2 ^ i) 0
    let r := scalarResult c.w d (some (BitVec.ofNat 64 mask))
    return s.complete c r.1 r.2

/-- The value of `mloc` (R287). -/
def Mx.location (x : Mx) : Word :=
  if x.pend && x.fault.kind == 1 then BitVec.ofNat 64 (2 ^ 15 + x.fault.tile * 2 ^ 12 + x.fault.row * 2 ^ 6 + x.fault.col)
  else BitVec.allOnes 64

/-- `mloc` (R287). -/
def execMloc (g : Guard) (d : Dst) (s : State) : Answer :=
  s.run fun c =>
    let r := scalarResult c.w d (if c.once g then some c.blk.mx.location else none)
    .ok (s.complete c r.1 r.2)

/-! ### Interval ends (R268) -/

/-- The end of an interval: the tile promoted (R259), its work at the next interval or done, the tile held (R256). Scales whose line is
absent are waited for with the interval's sums kept, which then pass their check (R258). -/
def promoteInterval (s : State) (c : SCtx) (w : MWork) : State :=
  match s.readScales c.env w.a w.g, s.readScales c.env w.b w.g with
  | .ok xa, .ok xb =>
    let out := promote w xa xb (c.blk.mx.tile w.tile) (c.blk.mx.column w.tile)
    let s := (s.engineNoted c.env (w.a.sbase + w.g * w.a.m + w.a.row0) 64).engineNoted c.env (w.b.sbase + w.g * w.b.m + w.b.row0) 64
    let s := s.setMx c.bid fun x =>
      { x with tiles := x.tiles.put w.tile out.1, sums := x.sums.put w.tile out.2.1, flags := x.flags ||| out.2.2
               holds := if w.g + 1 = w.last then w.tile :: x.holds.erase w.tile else x.holds }
    if w.g + 1 < w.last then
      s.setStream c.bid fun m => m.setDoing (some { w.cleared with g := w.g + 1, retry := false, tries := 0 })
    else (s.freeArray c.bid c.blk.core).setStream c.bid fun m => (m.setDoing none).goto w.next false
  | .error (.poison x), _ => s.stopHere c 0x51 0x02 x
  | _, .error (.poison x) => s.stopHere c 0x51 0x02 x
  | .error .refused, _ => s.stopHere c 0x31 0x01
  | _, .error .refused => s.stopHere c 0x31 0x01
  | _, _ => s.setStream c.bid fun m => m.setDoing (some { w with retry := false })

/-- The fault record of an interval that fails (R267, R268). -/
def intervalFault (w : MWork) (x : Checked) (tries : Nat) : MFault :=
  match x with
  | .single i j d => ⟨1, w.tile, i, j, tries, w.g - w.first, BitVec.ofInt 64 d⟩
  | _ => ⟨2, w.tile, 0, 0, tries, w.g - w.first, 0⟩

/-- The interval is computed again (R268 Retry). -/
def retryInterval (s : State) (c : SCtx) (w : MWork) (tries : Nat) : State :=
  (s.setMx c.bid fun x => { x with retries := satAdd 16 x.retries 1 }).setStream c.bid fun m =>
    m.setDoing (some { w.cleared with retry := true, tries := tries })

/-- The stream stops at an interval that fails. -/
def stopInterval (s : State) (c : SCtx) (w : MWork) (x : Checked) (cause sub tries : Nat) : State :=
  (s.setStream c.bid fun m => m.setDoing (some { w with tries := tries })).stopStream c.bid cause sub c.m.place
    (intervalFault w x tries)

/-- The correction of a single error, and promotion (R265, R268 Correct). -/
def correctInterval (s : State) (c : SCtx) (w : MWork) (i j : Nat) (d : Int) : State :=
  promoteInterval (s.setMx c.bid fun x => { x with fixes := satAdd 16 x.fixes 1 }) c (w.correct i j d)

/-- The state Check, or the end of a Retry, for an interval whose k-steps are all summed (R268). -/
def endInterval (s : State) (c : SCtx) (w : MWork) : State :=
  let mode := c.blk.mx.policy
  match w.check with
  | .pass => promoteInterval s c w
  | x =>
    if w.retry then
      if w.tries < 1 then retryInterval s c w (w.tries + 1) else stopInterval s c w x 0x33 0x00 2
    else match x with
      | .single i j d =>
        if mode = 1 ∨ mode = 3 then correctInterval s c w i j d
        else if mode = 2 then retryInterval s c w 0 else stopInterval s c w x 0x30 0x00 0
      | _ => if mode = 1 ∨ mode = 2 then retryInterval s c w 0 else stopInterval s c w x 0x30 0x01 0

/-! ### Fault instructions (R288) -/

/-- Runs a fault instruction, with its scalar source, on the stopped stream; what it may not do is 0x31 subcode 0x08. -/
def onFault (g : Guard) (x : Src) (s : State) (body : Ctx → SCtx → Option State) : Answer :=
  s.run fun c => do
    checkLatch c g .sca x
    if !c.once g then return s.skip c
    match s.streamOf c.bid none with
    | none => raise 0x31 0x08 (c.real g)
    | some sc =>
      if !c.blk.mx.pend then raise 0x31 0x08 (c.real g)
      match body c sc with
      | some s' => return s'.skip { c with w := (s'.warps.get? c.wid).getD c.w }
      | none => raise 0x31 0x08 (c.real g)

/-- The fault is cleared, its record as the instruction leaves it. -/
def Mx.resolved (x : Mx) (f : MFault → MFault) : Mx := { x with stopped := none, fault := f x.fault }

/-- The record of a fault that has been fixed, and of one that is tried again. -/
def MFault.fixed (f : MFault) : MFault := { f with kind := 0 }
def MFault.again (f : MFault) : MFault := { f with tries := 0 }

/-- `mfix` (R288). -/
def execMfix (g : Guard) (x : Src) (s : State) : Answer :=
  onFault g x s fun c sc =>
    match sc.m.doing with
    | some w =>
      let f := c.blk.mx.fault
      if f.kind = 1 ∧ readSca c.w c.p x = c.blk.mx.location then
        some (correctInterval (s.setMx c.bid (·.resolved MFault.fixed)) sc w f.row f.col f.syndrome.toInt)
      else none
    | none => none

/-- `mretry` (R288). -/
def execMretry (g : Guard) (s : State) : Answer :=
  onFault g .zero s fun c sc =>
    let f := c.blk.mx.fault
    let s := s.setMx c.bid (·.resolved MFault.again)
    if f.kind = 1 ∨ f.kind = 2 then sc.m.doing.map fun w => retryInterval s sc w 0
    else if f.kind = 3 then some { startDrain s c.bid f.tile 0 with focus := s.focus }
    else none

/-- The stopped instruction issues again from its start; an `mma` that met poison restarts its interval (R288). -/
def MStream.reissued (m : MStream) (cause : Nat) : MStream :=
  match m.doing with
  | some w => if cause = 0x51 then m.setDoing (some w.cleared) else { m.setDoing none with line := none, store := none }
  | none => { m with line := none, store := none }

/-- `mresume` (R288). -/
def execMresume (g : Guard) (s : State) : Answer :=
  onFault g .zero s fun c _ =>
    let f := c.blk.mx.fault
    let s' := s.setMx c.bid (·.resolved MFault.fixed)
    if f.kind = 0 then some (s'.setStream c.bid fun m => m.reissued ((c.blk.mx.stopped.map (·.cause)).getD 0))
    else if f.kind = 3 then some (s'.setStream c.bid fun m => { m with checked := true, dtries := none })
    else none

/-- `mresume.abandon` (R288). -/
def execMresumeAbandon (g : Guard) (s : State) : Answer :=
  onFault g .zero s fun c _ => some { (s.setMx c.bid (·.resolved id)).endStream c.bid with focus := s.focus }

/-! ### The array (R258, R262 to R264) -/

/-- Bytes of a bank image (R263). -/
def bankBytes : Nat := 172032

/-- The streams of a core's blocks that stand at a ready `mma`, with their block slots (R262). -/
def State.readyStreams (s : State) (core : Nat) : List (Nat × Nat) :=
  (s.blocks.filter fun x => x.2.core == core && s.mayIssue x.1 && x.2.mx.stopped.isNone
    && (match x.2.mx.stream with | some m => m.doing.isSome | none => false)).map fun x => (x.2.mslot.getD 0, x.1)

/-- The one served next: the lowest block slot above the last, else the lowest. -/
def nextSlot (last : Nat) (xs : List (Nat × Nat)) : Option (Nat × Nat) :=
  let best (ys : List (Nat × Nat)) : Option (Nat × Nat) := ys.foldl (fun b x => match b with
    | some y => if x.1 < y.1 then some x else b
    | none => some x) none
  match best (xs.filter fun x => last < x.1) with
  | some x => some x
  | none => best xs

/-- Bytes of a core's cellar share that are free: none while a context is parked there (R152, R263, R470). -/
def State.cellarFree (s : State) (core part : Nat) : Nat :=
  if (s.parts.get? part).any fun p => p.cellarArea != 0 then 0
  else 524288 - (s.warps.map fun x => if coreOf x.1 == core && x.2.evicted.isSome then x.2.n * 128 else 0).sum
    - bankBytes * (s.engineOf core).cellar.length

/-- The bytes of memory that a block's place in the matrix save area takes, where it can take a bank image (R264): that of its block slot on
its core's home logical slice. -/
def State.areaPlace (s : State) (part : Nat) (b : Block) : Option (List Piece) :=
  match s.parts.get? part with
  | none => none
  | some pt =>
    if pt.mxArea == 0 then none
    else match s.checkPlain ⟨part, b.home⟩ (pt.mxArea + bankBytes * (64 * pt.sliceOf b.core + b.mslot.getD 0)) bankBytes true true with
      | .ok ps => if ps.any s.poisoned then none else some ps
      | .error _ => none

/-- A bank image is written to its place, which holds bytes the spec gives no layout: free values, numbered from the answer on. -/
def State.storeBank (s : State) (ps : List Piece) : State × Nat :=
  let d := s.draw (bankBytes / 8)
  (d.2.writePieces (cutBytes ps d.1), s.drawn)

/-- Lanes as a place of the matrix save area gives them that no longer holds what was written there: free values. -/
def freeLanes (first n : Nat) : List Lane :=
  (List.range n).map fun i => ((Config.freeValue (first + i / 2)) >>> (32 * (i % 2))).extractLsb' 0 32

/-- A matrix context whose bank image has been overwritten: its tiles and columns are free values (log entry 181). -/
def State.strangeBank (s : State) (bid : Nat) : State :=
  let at' (t : Nat) : Nat := s.drawn + 2080 * t
  { s.setMx bid fun x => { x with
      tiles := (List.range 8).map fun t => (t, freeLanes (at' t) 4096)
      sums := (List.range 8).map fun t => (t, freeLanes (at' t + 2048) 64) } with drawn := s.drawn + 16640 }

/-- A bank is filled from a block's place in the matrix save area (R264): what was spilled there, unless its bytes have changed since. -/
def State.fillBank (s : State) (part bid first : Nat) (b : Block) : Option State :=
  (s.areaPlace part b).map fun ps =>
    if s.readPieces ps = ({ s with drawn := first }.draw (bankBytes / 8)).1 then s else s.strangeBank bid

/-- A block's context stands in a bank, the least recently run one spilled where both hold others (R263, R264); none where the spill
or the fill fails. -/
def State.takeBank (s : State) (core part bid : Nat) (b : Block) : Option State := do
  let e := s.engineOf core
  let into (e : Engine) (banks : List Nat) : Engine :=
    { e with banks := banks ++ [bid], cellar := e.cellar.erase bid, area := e.area.del bid }
  if e.banks.contains bid then return s.setEngine core fun e => into e (e.banks.erase bid)
  let s ← match e.banks with
    | old :: _ :: _ =>
      if bankBytes ≤ s.cellarFree core part then
        some (s.setEngine core fun e => { e with cellar := old :: e.cellar, banks := e.banks.erase old })
      else match s.blocks.get? old with
        | none => some (s.setEngine core fun e => { e with banks := e.banks.erase old })
        | some o => (s.areaPlace part o).map fun ps =>
            let r := s.storeBank ps
            r.1.setEngine core fun e => { e with area := e.area.put old r.2, banks := e.banks.erase old }
    | _ => some s
  let s ← match e.area.get? bid with
    | some first => s.fillBank part bid first b
    | none => some s
  return s.setEngine core fun e => into e e.banks

/-- The free array goes to the next block slot whose stream stands at a ready `mma` (R262). -/
def execArrayGrant (core : Nat) (s : State) : Answer :=
  let e := s.engineOf core
  if e.holder.isSome then .next s else
  match nextSlot e.last (s.readyStreams core) with
  | none => .next s
  | some (slot, bid) =>
    match s.streamOf bid none with
    | none => .next s
    | some c =>
      match s.takeBank core c.env.part bid c.blk with
      | some s => .next (s.setEngine core fun e => { e with holder := some bid, last := slot })
      | none => .next { s.stopHere c 0x31 0x01 with focus := s.focus }

/-- A k-step of operands has been read. -/
def State.notedStep (s : State) (e : Env) (os : List Operand) (k : Nat) : State :=
  os.foldl (fun s o => (List.range o.p).foldl (fun s q => s.engineNoted e (o.dbase + 4 * ((k * o.p + q) * o.m + o.row0)) 256) s) s

/-- The error that a k-step's operands meet behind a host port (R301, R444): its subcode. -/
def State.operandFault (s : State) (c : SCtx) (os : List Operand) (k : Nat) : Option Nat :=
  let far (o : Operand) (q : Nat) : Bool := match s.placeAll c.env (o.dbase + 4 * ((k * o.p + q) * o.m + o.row0)) 256 with
    | .ok ps => ps.any (·.piece.host.isSome)
    | .error _ => false
  if os.any fun o => (List.range o.p).any (far o) then s.portFault (.operand c.bid) else none

/-- The array performs one k-step (R255, R258), with the errors of its cells as an input; the last one of an interval ends it. -/
def execMmaKstep (core : Nat) (upsets : List Upset) (s : State) : Answer :=
  match ((s.engineOf core).holder.filter s.mayIssue).bind fun bid => s.streamOf bid none with
  | none => .next s
  | some c =>
    match c.m.doing with
    | none => .next s
    | some w =>
      let steps := 2 ^ w.a.lp
      if steps ≤ w.k then .next (if w.retry then s else { endInterval s c w with focus := s.focus }) else
      let at' := w.g * steps + w.k
      match s.operandFault c [w.a, w.b] at' with
      | some sub => .next { (s.faultMet (.operand c.bid)).stopHere c 0x51 (if sub = 0 then 2 else sub) with focus := s.focus }
      | none =>
      match s.readStep c.env w.a at', s.readStep c.env w.b at' with
      | .ok a, .ok b =>
        let s := s.notedStep c.env [w.a, w.b] at'
        let w := upsets.foldl MWork.upset (w.addStep (stepRows a) (stepRows b))
        if w.k < steps || w.retry then .next (s.setStream c.bid fun m => m.setDoing (some w))
        else .next { endInterval s c w with focus := s.focus }
      | .error .wait, _ => .next s
      | _, .error .wait => .next s
      | .error (.poison x), _ => .next { s.stopHere c 0x51 0x02 x with focus := s.focus }
      | _, .error (.poison x) => .next { s.stopHere c 0x51 0x02 x with focus := s.focus }
      | _, _ => .next { s.stopHere c 0x31 0x01 with focus := s.focus }

/-- A recomputed interval is checked again (R268 Retry). -/
def execIntervalRetryDone (core : Nat) (s : State) : Answer :=
  match ((s.engineOf core).holder.filter s.mayIssue).bind fun bid => s.streamOf bid none with
  | none => .next s
  | some c =>
    match c.m.doing with
    | none => .next s
    | some w => if w.retry && w.k == 2 ^ w.a.lp then .next { endInterval s c w with focus := s.focus } else .next s

/-- A drain retry has recomputed its tile (R268): the `mstore` checks it again. -/
def execDrainRetryDone (block : Nat) (s : State) : Answer :=
  match s.streamOf block none with
  | none => .next s
  | some c =>
    match c.m.drain with
    | some w =>
      if c.m.arrived && c.blk.mx.stopped.isNone && s.mayIssue block then
        .next (s.setStream block fun m => { m with drain := none, line := none, dtries := some w.tries })
      else .next s
    | none => .next s

/-- A promotion hold ends (R256): who waits for the tile goes on. -/
def execPromotionHoldEnd (block tile : Nat) (s : State) : Answer :=
  .next ((s.setMx block fun x => { x with holds := x.holds.filter (· != tile) }).wakeTiles block)

/-- The acting lanes of a parked barrier wait. -/
def waitLanes (w : Warp) (p : Path) : LaneMask :=
  match decode (unitOf p none).word with
  | .ok (.barw g _ _) => w.acting p g
  | .ok (.bars g _ _ _) => w.acting p g
  | _ => p.mask

/-- A fault reaches the warp that owes it a wait, parked there: a stopped stream's (R270), or a copy's (R528). -/
def execStreamFaultDelivery (block : Nat) (s : State) : Answer :=
  let due := (s.liveWarps block).findSome? fun x => (List.range 16).findSome? fun i =>
    match (x.2.path i).waits with
    | some k => if (x.2.path i).waitsOn k then (s.faultDue block x.1 k).map fun f => (x.1, x.2, i, k, f) else none
    | none => none
  match if s.mayIssue block then due else none with
  | none => .next s
  | some (wid, w, i, k, f) =>
    let p := w.path i
    let s1 := (s.faultTaken block wid k).setPath wid i fun p => { p with state := .live, waits := none }
    .next { s1.takeTrap wid i ⟨f.cause, f.sub, f.data, waitLanes w p⟩ (unitOf p none) with focus := s.focus }

end Sys2Proof.Machine
end

