-- ==== Sys2Proof/Machine/Context.lean ====
section
/-! DEFINITION. Contexts (spec/22 R463 to R473, spec/02 R79): what a stop does with each block, when it is complete, an image taken and
restored, and the operations of CTX_CMD. -/
namespace Sys2Proof.Machine

/-! ### What a stop does with a block (R465, R466) -/

/-- The blocks of a partition's running context. -/
def State.partBlocks (s : State) (part : Nat) : NMap Block := s.blocks.filter fun b => partOfLaunch b.2.launch == part

/-- The warps of a partition's running context. -/
def State.partWarps (s : State) (part : Nat) : NMap Warp := s.warps.filter fun w => s.partOf w.2.block == part

/-- The first matching row of R465's table. -/
def State.blockAction (s : State) (part : Nat) (whole : Bool) (bid : Nat) (b : Block) : StopAction :=
  match s.launches.get? b.launch with
  | none => .save
  | some l =>
    let ws := s.liveWarps bid
    let f := (s.expectedLength part l).filter (· != 0)
    if whole || b.mx.stopped.isSome || ws.any (fun w => w.2.inHandler || w.2.halted) then .save
    else if l.idem && !b.wroteOut && !b.logged
      && (match f with | some n => decide (2 * b.retired < n) | none => decide (b.retired < 65536)) then .flush
    else match f with
      | some n => if 9 * n ≤ 10 * b.retired then .drain else .save
      | none => .save

/-- Whether two blocks are of one cluster. -/
def Block.sameCluster (a b : Block) : Bool := a.launch == b.launch && a.turn == b.turn

/-- A cluster takes one action (R466); one of whose blocks some have retired cannot flush. -/
def clusterAction (ranks : Nat) (as : List StopAction) : StopAction :=
  if as.contains .save then .save else if as.all (· == .flush) && as.length == ranks then .flush else .drain

/-- What becomes of each block of a context that is stopped. -/
def State.stopPlan (s : State) (part : Nat) (whole : Bool) : NMap StopAction :=
  let bs := s.partBlocks part
  let acts := bs.map fun b => (b, s.blockAction part whole b.1 b.2)
  bs.map fun b => (b.1, clusterAction ((s.launches.get? b.2.launch).elim 1 Launch.ranks)
    ((acts.filter fun a => a.1.2.sameCluster b.2).map (·.2)))

/-- Whether nothing of an atomic has been performed, or it only waits for its value. -/
def AtomReq.untouched (r : AtomReq) : Bool :=
  r.op.isWait || (r.done.isEmpty && r.poison == 0 && r.gone == 0 && r.refused == 0)

/-- A wait whose answer a stop discards at once (R464). -/
def Await.discarded : Await → Bool
  | .load _ => true
  | .monitor _ => true
  | _ => false

/-- A wait a stop withdraws once nothing of the context is under way: that of an atomic no request of which has been performed (R379). -/
def Await.withdrawn : Await → Bool
  | .atomic r => r.untouched
  | _ => false

/-- A path that gives up a wait of a kind stands at its instruction. -/
def Path.leave (p : Path) (f : Await → Bool) : Path := if p.await.any fun a => f a.what then { p with await := none } else p

/-- The logbook entries its paths had reserved for waits of a kind. -/
def Warp.reservedFor (w : Warp) (f : Await → Bool) : Nat :=
  (w.paths.map fun p => p.await.elim 0 fun a => if f a.what then a.reserved else 0).sum

/-- Waits of a kind are given up in some blocks of a partition, and the entries reserved for them are given back (R464, R526). -/
def State.leaveWaits (s : State) (part : Nat) (f : Await → Bool) (chosen : Nat → Bool) : State :=
  let given := ((s.partWarps part).map fun w => if chosen w.2.block then w.2.reservedFor f else 0).sum
  let mine (w : Warp) : Bool := s.partOf w.block == part && chosen w.block
  let s : State := { s with warps := s.warps.map fun (w : Nat × Warp) =>
    (w.1, if mine w.2 then { w.2 with paths := w.2.paths.map (·.leave f) } else w.2) }
  s.setPart part fun p => { p with logReserved := p.logReserved - given }

/-- Waits whose answers a stop discards. -/
def State.discardWaits (s : State) (part : Nat) (chosen : Nat → Bool) : State := s.leaveWaits part Await.discarded chosen

/-! ### When a stop is complete (R463, R464) -/

/-- Whether a path's atomic has a request that will be executed or withdrawn (R379). -/
def State.requestRuns (s : State) (wid pidx : Nat) : Bool :=
  match s.requesting wid pidx with
  | some (c, .atomic r) => !r.stands && r.homes.any fun h => s.requestNext c r h (r.lanesAt h)
  | _ => false

/-- Whether a path's atomic has all its answers and waits to write them. -/
def State.resultDue (s : State) (wid pidx : Nat) : Bool :=
  match s.awaiting wid pidx with
  | some (_, .atomic r) => !r.op.isWait && r.todo.isEmpty
  | _ => false

/-- Whether a context stands still: no issued store is left but those held at their homes, no atomic will be executed or answered. -/
def State.quiet (s : State) (part : Nat) : Bool :=
  !(s.stores.any fun t => t.part == part && !s.heldFrom (some part) [t.piece]) && !(s.unacked.any (·.part == part))
    && (s.partWarps part).all fun w => (List.range 16).all fun i => !s.requestRuns w.1 i && !s.resultDue w.1 i

/-- The sequence numbers of withdrawn requests count as executed (R379). -/
def State.settlePairs (s : State) (part : Nat) : State :=
  let cores := (s.parts.get? part).elim [] Partition.cores
  { s with lockPairs := s.lockPairs.map fun k => if cores.contains (k.1 / 2 ^ 16) then (k.1, { k.2 with executed := k.2.issued }) else k }

/-- The context stands still where it is: atomics that no home has performed are withdrawn, what is left of others takes new numbers, its
waiters leave their queues (R379, R399), and every path that nothing else parks issues its instruction again. -/
def State.standStill (s : State) (part : Nat) : State :=
  let s := (s.settlePairs part).leaveWaits part Await.withdrawn fun _ => true
  let wids := (s.partWarps part).map (·.1)
  let s := { s with semQueues := (s.semQueues.map fun q => (q.1, q.2.filter fun x => !wids.contains x.1)).filter fun q => !q.2.isEmpty }
  wids.foldl (fun s w => (List.range 16).foldl (fun s i => s.renumber w i) s) s

/-- Its parked paths go back to their instructions. -/
def State.resumePaths (s : State) (part : Nat) : State :=
  let cycle := s.cycle
  let back (w : Warp) (p : Path) (i : Nat) : Path := match p.state with
    | .parked .halted | .parked .debugHold | .parked .evicted => p
    | .parked _ => if p.await.isSome || p.waits.isSome || w.stopped i then p else { p with state := .live, since := cycle }
    | _ => p
  let part' := s.partOf
  { s with warps := s.warps.map fun (x : Nat × Warp) =>
      if part' x.2.block == part then (x.1, { x.2 with paths := x.2.paths.zipIdx.map fun q => back x.2 q.1 q.2 }) else x }

/-! ### Blocks that leave their cores -/

/-- A block leaves with its warps: its engine, its copies' lines, its places in the lockkeepers' queues (R399). -/
def State.removeBlock (s : State) (bid : Nat) (b : Block) : State :=
  let s := (b.copies.flatMap fun c => c.2.lines).foldl (fun s l => s.dropLine l.2) (s.dropBanks bid b.core)
  let slots := (s.liveWarps bid).map (·.1)
  { s with
    blocks := s.blocks.del bid
    warps := s.warps.filter fun w => w.2.block != bid
    semQueues := (s.semQueues.map fun q => (q.1, q.2.filter fun x => !slots.contains x.1)).filter fun q => !q.2.isEmpty }

/-- A flushed block is discarded; its cluster will be placed again (R465). -/
def State.flushBlock (s : State) (bid : Nat) (b : Block) : State :=
  let s := { s.removeBlock bid b with stores := s.stores.filter (·.block != bid) }
  s.setLaunch b.launch fun l => { l with again := if l.again.contains b.turn then l.again else l.again ++ [b.turn], state := .dispatching }

/-! ### Names that do not depend on the cores (R472) -/

/-- A map with other keys. -/
def NMap.rekey (f : Nat → Nat) (m : NMap α) : NMap α := m.foldl (fun a e => NMap.put a (f e.1) e.2) []

/-- The key an SRAM byte would have if its logical slice stood on the core of its number. -/
def Partition.logicalKey (p : Partition) (key : Nat) : Nat :=
  if isSram key then sramKey (p.sliceOf ((key - 2 ^ 60) / 2 ^ 21)) (key % 2 ^ 21) else key

/-- The key of memory at an address of a partition, when it is resident. -/
def State.keyAt (s : State) (part a : Nat) : Option Nat :=
  match s.placePiece ⟨part, 0⟩ a 1 with
  | .ok p => some p.piece.key
  | .error _ => none

/-- The key of memory of a byte named by its logical slice. -/
def State.physicalKey (s : State) (part key : Nat) : Nat :=
  if isSram key then
    match (s.parts.get? part).bind fun p => p.slices.get? ((key - 2 ^ 60) / 2 ^ 21) with
    | some (.physical core) => sramKey core (key % 2 ^ 21)
    | some (.backed f) => (s.keyAt part (f * 2 ^ 21 + key % 2 ^ 21)).getD key
    | none => key
  else key

/-- A function of keys applied to the number of a line or of a sector of `n` bytes. -/
def byUnit (n : Nat) (f : Nat → Nat) (k : Nat) : Nat := f (n * k) / n

/-- The checkpoint engine's lines under other keys. -/
def Ckpt.rekey (f : Nat → Nat) (c : Ckpt) : Ckpt :=
  let line := byUnit 128 f
  { c with
    undo := NMap.rekey line (c.undo.map fun u => (u.1, { u.2 with poison := u.2.poison.map (byUnit 32 f) }))
    logged := c.logged.map fun x => (x.1, x.2.map line)
    deltas := c.deltas.map fun x => (x.1, x.2.map fun y => (line y.1, y.2)) }

/-- A command's lines under other keys. -/
def CopyCmd.rekey (f : Nat → Nat) (c : CopyCmd) : CopyCmd := { c with wrote := c.wrote.map (byUnit 128 f) }

/-- The bytes of a partition's slices: the key each run has by its logical slice, the key of memory at which it stands, its length. -/
def State.sliceRuns (s : State) (part : Nat) : List (Nat × Nat × Nat) :=
  match s.parts.get? part with
  | none => []
  | some p => p.slices.flatMap fun e => match e.2 with
    | .physical core => [(sramKey e.1 0, sramKey core 0, 2 ^ 21)]
    | .backed f => (List.range 4).filterMap fun k =>
        (s.keyAt part (f * 2 ^ 21 + k * 2 ^ 19)).map fun key => (sramKey e.1 (k * 2 ^ 19), key, 2 ^ 19)

/-- Numbers that lie in runs counted in units of n bytes, under their logical names. -/
def throughRuns (n : Nat) (runs : List (Nat × Nat × Nat)) (m : NMap α) : NMap α :=
  runs.flatMap fun r => (m.filter fun e => r.2.1 / n ≤ e.1 && e.1 < (r.2.1 + r.2.2) / n).map fun e => (e.1 - r.2.1 / n + r.1 / n, e.2)

/-! ### Taking an image (R468, R471, R479) -/

/-- A path as an image keeps it: it stands at its instruction, but for an atomic part of which has been performed. -/
def Path.saved (p : Path) : Path :=
  p.leave fun a => match a with
    | .atomic r => r.untouched
    | _ => true

/-- The logbook entries that the saved paths of a block keep reserved. -/
def SavedBlock.reserved (b : SavedBlock) : Nat := (b.warps.map fun w => w.2.reservedFor fun _ => true).sum

/-- A stream in an image fetches its line again (R89), and its `mstore` starts again (R290). -/
def Mx.saved (m : Mx) : Mx := { m with stream := m.stream.map fun t => { t with line := none, store := none } }

/-- A block with its warps by index. -/
def State.savedBlock (s : State) (part bid : Nat) (b : Block) : SavedBlock where
  id := bid
  block :=
    let b := { b with mx := b.mx.saved }
    match s.parts.get? part with
    | some p => { b with copies := b.copies.map fun c => (c.1, c.2.rekey p.logicalKey) }
    | none => b
  warps := (s.liveWarps bid).foldl
    (fun m w => NMap.put m w.2.index { w.2 with evicted := none, paths := w.2.paths.map Path.saved }) []

/-- The place of a core among its partition's, in a rotation count's key (R76). -/
def rotByIndex (cores : List Nat) (k : Nat) : Nat := k / 512 * 512 + (cores.findIdx (· == k % 512))
/-- The core of a place. -/
def rotByCore (cores : List Nat) (k : Nat) : Nat := k / 512 * 512 + nth cores (k % 512) 0

/-- The bytes of a line of a restored slice are in memory. -/
def State.landBytes (s : State) (key : Nat) (bs : List Byte) : State := s.writePiece ⟨key, bs.length, key, none, none⟩ bs

/-- Lines that are still on their way land. -/
def State.landAll (s : State) (part : Nat) : State :=
  match s.parts.get? part with
  | none => s
  | some p =>
    let s := p.landing.foldl (fun s l => s.landBytes (s.physicalKey part (sramKey 0 (128 * l.1))) l.2) s
    let keys := p.landing.map fun l => s.physicalKey part (sramKey 0 (128 * l.1)) / 128
    (keys.foldl (fun s k => s.dropLine k) s).setPart part fun p => { p with landing := [] }

/-- A translator launch whose block is flushed by a stop: it is placed again later (log entry 166). -/
def SysJob.waiting (j : SysJob) : SysJob := { j with place := none }

/-- The context of a partition as an image. -/
def State.capture (s : State) (part : Nat) : Option CtxImage :=
  match s.parts.get? part with
  | none => none
  | some p =>
    let runs := s.sliceRuns part
    let mine (k : Nat) : Bool := partOfLaunch k == part
    let blocks := (s.partBlocks part).map (fun b => s.savedBlock part b.1 b.2) ++ p.returning
    some
      { part := { p with
          ck := p.ck.rekey p.logicalKey, returning := [], landing := [], logReserved := (blocks.map SavedBlock.reserved).sum
          sysQueue := p.sysQueue.map SysJob.waiting }
        launches := (s.launches.filter fun l => mine l.1).map fun l => (l.1, { l.2 with wait := none })
        statuses := s.statuses.filter fun x => mine x.1
        blocks := blocks
        rot := NMap.rekey (rotByIndex p.cores) (s.rot.filter fun r => p.cores.contains (r.1 % 512))
        pairs := s.lockPairs.filter fun k => p.cores.contains (k.1 / 2 ^ 16)
        lines := throughRuns 1 runs s.mem
        poison := (throughRuns 32 runs (sortBy (fun x y => x.1 ≤ y.1) (s.poison.map fun k => (k, ())))).map (·.1)
        writers := throughRuns 128 runs s.lineWriters
        colls := [] }

/-- No context of the partition stands any more: its blocks, warps and launches are gone. -/
def State.evacuate (s : State) (part : Nat) : State :=
  let s := (s.partBlocks part).foldl (fun s b => s.removeBlock b.1 b.2) s
  let s := { s with launches := s.launches.filter fun l => partOfLaunch l.1 != part }
  s.setPart part fun p => { p with returning := [], landing := [], logReserved := 0, sysQueue := [] }

/-- The area's first bytes: magic and encoding version (R471). -/
def imageHead : List Byte := leBytes 4 0x58435458 ++ leBytes 4 1

/-- Where the slice section of an image begins, in frames of 2 MiB (log entry 23). -/
def sectionOf (area : Nat) : Nat := ceilDiv (area + 2 ^ 26) (2 ^ 21)

/-- The resident runs of an image's slice section (R471): the key of each run by its logical slice, the key of memory at which it
stands, its length. -/
def State.sectionRuns (s : State) (part area count : Nat) : List (Nat × Nat × Nat) :=
  (List.range (4 * count)).filterMap fun k =>
    (s.keyAt part (sectionOf area * 2 ^ 21 + k * 2 ^ 19)).map fun key => (sramKey 0 (k * 2 ^ 19), key, 2 ^ 19)

/-- An image's slices are written to the slice section of an area (R470, R471): bytes and poison. -/
def State.storeSlices (s : State) (part area : Nat) (img : CtxImage) : State :=
  let runs := s.sectionRuns part area img.part.slices.length
  let back := runs.map fun r => (r.2.1, r.1, r.2.2)
  let inside (k : Nat) : Bool := runs.any fun r => r.2.1 ≤ k && k < r.2.1 + r.2.2
  let s := { s with
    mem := (throughRuns 1 back img.lines).foldl (fun m c => Memory.write m c.1 [c.2]) (s.mem.filter fun c => !inside c.1)
    poison := s.poison.filter fun k => !inside (32 * k) }
  (throughRuns 32 back (img.poison.map fun k => (k, ()))).foldl (fun s k => s.setPoison (32 * k.1)) s

/-- Writes an image to an area: the 4 KiB header, whose bytes after magic and version have no place in the spec and are free, and the
slice section; the records stand beside memory (log entry 23). -/
def State.storeImage (s : State) (part area : Nat) (img : CtxImage) : State :=
  let d := s.draw 511
  match d.2.writePlain ⟨part, 0⟩ area (imageHead ++ d.1), s.keyAt part area with
  | .ok t, some key => { t.storeSlices part area img with images := NMap.put t.images key img }
  | _, _ => s

/-- The image at an area, when its magic and version are right; its slices are those of the slice section. -/
def State.loadImage (s : State) (part area : Nat) : Option CtxImage :=
  match s.readPlain ⟨part, 0⟩ area 8, s.keyAt part area with
  | .ok bs, some key =>
    if bs = imageHead then (s.images.get? key).map fun img =>
      let runs := s.sectionRuns part area img.part.slices.length
      if runs.length = 4 * img.part.slices.length then
        { img with
          lines := throughRuns 1 runs s.mem
          poison := (throughRuns 32 runs (sortBy (fun x y => x.1 ≤ y.1) (s.poison.map fun k => (k, ())))).map (·.1) }
      else img
    else none
  | _, _ => none

/-! ### Restoring one (R468, R470, R472) -/

/-- The slice map of a restored context: a core for each slice as far as they go, then frames of the slice section. -/
def restoredSlices (cores : List Nat) (count area : Nat) : NMap Slice :=
  cores.zipIdx.map (fun c => (c.2, Slice.physical c.1))
    ++ (List.range (count - cores.length)).map fun i => (cores.length + i, Slice.backed (sectionOf area + cores.length + i))

/-- SRAM of cores as at context creation: zero, with nothing poisoned, every presence bit set. -/
def State.clearSlices (s : State) (cores : List Nat) : State :=
  let on (k : Nat) : Bool := isSram k && cores.contains ((k - 2 ^ 60) / 2 ^ 21)
  { s with
    mem := s.mem.filter fun c => !on c.1
    poison := s.poison.filter fun k => !on (32 * k)
    absent := s.absent.filter fun l => !on (128 * l.1)
    lineWriters := s.lineWriters.filter fun l => !on (128 * l.1) }

/-- The lines of an image's slices that hold a byte that is not zero. -/
def CtxImage.lineNumbers (img : CtxImage) : List Nat := (img.lines.map fun c => c.1 / 128).eraseDups

/-- One line of a restored slice: at once, or on its way with its presence bit clear (R470). -/
def State.bringLine (s : State) (part : Nat) (img : CtxImage) (moving : Bool) (line : Nat) : State :=
  let bs := img.lines.bytes (128 * line) 128
  let key := s.physicalKey part (128 * line)
  if moving && isSram key then
    (s.holdLine (key / 128)).setPart part fun p => { p with landing := p.landing.put (line - 2 ^ 60 / 128) bs }
  else { s with mem := s.mem.write key bs }

/-- The bytes, poison and writers of an image's slices come back. -/
def State.bringSlices (s : State) (part : Nat) (img : CtxImage) (moving : Bool) : State :=
  let s := img.lineNumbers.foldl (fun s l => s.bringLine part img moving l) s
  let s := img.poison.foldl (fun s k => s.setPoison (s.physicalKey part (32 * k))) s
  img.writers.foldl (fun s w => { s with lineWriters := s.lineWriters.put (s.physicalKey part (128 * w.1) / 128) w.2 }) s

/-- A path of a restored context: it fetches its line again, and goes on unless it is held, halted or waits on a barrier. -/
def Path.restored (p : Path) (cycle : Nat) : Path :=
  let p := { p with line := none, inSet := false, units := 0, since := cycle, latchAt := [], pairAt := none }
  match p.state with
  | .parked .halted | .parked .debugHold => p
  | .parked _ => if p.waits.isSome then p else { p with state := .live }
  | _ => p

/-- A warp of a restored context: no register keeps a translation. -/
def Warp.restored (w : Warp) (cycle : Nat) : Warp :=
  { w with a := w.a.map fun a => { a with run := none }, busy := [], paths := w.paths.map fun p => p.restored cycle }

/-- A command of a restored context continues at its place; one that waited for a page translates again (R344). -/
def CopyCmd.restored (c : CopyCmd) : CopyCmd :=
  match c.state with
  | .waiting r => { c with state := if r.stamp then .ending else .active }
  | _ => c

/-- The lines of a block's commands are held again. -/
def State.holdAgain (s : State) (part : Nat) (sb : SavedBlock) : State × SavedBlock :=
  let e : Env := ⟨part, sb.block.home⟩
  let out := sb.block.copies.foldl (fun (x : State × NMap CopyCmd) c =>
    let cmd := c.2.restored.rekey (s.physicalKey part)
    let r := x.1.holdLines e { cmd with lines := [] } (cmd.lines.map (·.1))
    (r.1, x.2.put c.1 r.2)) (s, [])
  (out.1, { sb with block := { sb.block with copies := out.2 } })

/-- A launch id in another partition. -/
def moveLaunch (part lid : Nat) : Nat := launchId part (queueOfLaunch lid) (seqOfLaunch lid)

/-- The restored blocks, in the order of the image, waiting for their cores. -/
def State.bringBlocks (s : State) (part : Nat) (bs : List SavedBlock) : State :=
  bs.foldl (fun (s : State) sb =>
    let r := s.holdAgain part { sb with
      block := { sb.block with launch := moveLaunch part sb.block.launch }
      warps := sb.warps.map fun w => (w.1, w.2.restored s.cycle) }
    r.1.setPart part fun p => { p with returning := p.returning ++ [r.2] }) s

/-- The partition block of a restored context: what describes the partition stays, what describes the context comes back. -/
def restoredPart (now : Partition) (img : CtxImage) (area : Nat) : Partition :=
  { img.part with
    groups := now.groups
    ctx := { now.ctx with state := 1, running := area, work := none }
    cellarArea := now.cellarArea
    comps := now.comps
    trc := now.trc
    trcEn := now.trcEn
    dropped := now.dropped
    vector := now.vector
    joinOk := now.joinOk
    slices := restoredSlices now.cores img.part.slices.length area }

/-- The context of an image runs in a partition. -/
def State.restoreImage (s : State) (part : Nat) (img : CtxImage) (area : Nat) (moving : Bool) : State :=
  match s.parts.get? part with
  | none => s
  | some now =>
    let cores := now.cores
    let s := s.showAll.clearSlices cores
    let s := s.setPart part fun p => restoredPart p img area
    let s := s.setCk part fun c => c.rekey (s.physicalKey part)
    let s := s.bringSlices part img moving
    let s : State := { s with
      launches := img.launches.foldl (fun m l => NMap.put m (moveLaunch part l.1) l.2) s.launches
      statuses := img.statuses.foldl (fun m l => NMap.put m (moveLaunch part l.1) l.2)
        (s.statuses.filter fun x => partOfLaunch x.1 != part)
      rot := (NMap.rekey (rotByCore cores) (img.rot.filter fun r => decide (r.1 % 512 < cores.length))).foldl
        (fun m r => NMap.put m r.1 r.2) (s.rot.filter fun r => !cores.contains (r.1 % 512)) }
    s.bringBlocks part img.blocks

/-! ### The operations (R463 to R470) -/

/-- A write of CTX_CMD reaches a partition that is not busy. -/
def State.onContext (s : State) (part : Nat) (states : List Nat) (f : Partition → State) : Answer :=
  match s.parts.get? part with
  | none => .next s
  | some p =>
    if p.ctx.work.isSome || p.ck.closing || p.ck.due || !states.contains p.ctx.state then .next s else .next (f p)

/-- CTX_CMD.force. -/
def forceBit (v : Word) : Bool := v.getLsbD 3

/-- A stop begins: the blocks' actions are chosen, issue halts, answers that a stop discards are discarded (R463, R465). -/
def State.beginStop (s : State) (part : Nat) (p : Partition) (op : CtxOp) (force : Bool) : State :=
  let plan := s.stopPlan part (force || op == .terminate)
  let s := s.setCtx part fun c => { c with state := 2, work := some ⟨op, s.cycle, p.ctx.area, plan, none⟩ }
  s.discardWaits part fun bid => plan.get? bid != some .drain

/-- CTX_CMD op 1: the running context is parked. -/
def execCtxPark (part : Nat) (v : Word) (s : State) : Answer :=
  s.onContext part [1] fun p => s.beginStop part p .park (forceBit v)

/-- CTX_CMD op 2: its image is written. -/
def execCtxSave (part : Nat) (v : Word) (s : State) : Answer :=
  s.onContext part [1] fun p => s.beginStop part p .save (forceBit v)

/-- CTX_CMD op 4: it is parked, and another runs. -/
def execCtxSwitch (part : Nat) (v : Word) (s : State) : Answer :=
  s.onContext part [1] fun p => s.beginStop part p .switch (forceBit v)

/-- CTX_CMD op 5: it ends. -/
def execCtxTerminate (part : Nat) (v : Word) (s : State) : Answer :=
  s.onContext part [1] fun p => s.beginStop part p .terminate (forceBit v)

/-- No context runs: the state of CTX_STAT, the operation over. -/
def State.contextAt (s : State) (part state : Nat) : State := s.setCtx part fun c => { c with state := state, work := none }

/-- The image at an area comes in, or is refused (R471). -/
def State.enterImage (s : State) (part area : Nat) : State :=
  match s.loadImage part area with
  | some img =>
    let count := max img.part.slices.length ((s.parts.get? part).elim 0 fun p => p.cores.length)
    if 2048 < count then s.contextAt part 6 else s.restoreImage part img area true
  | none => s.contextAt part 6

/-- CTX_CMD op 3: the context of CTX_AREA runs, by an exchange where it stands in the cellar. -/
def execCtxRestore (part : Nat) (_ : Word) (s : State) : Answer :=
  s.onContext part [0, 3, 4, 6] fun p =>
    if p.ctx.area = p.cellarArea ∧ (s.cellars.get? part).isSome = true then
      let cycle := s.cycle
      s.setCtx part fun c => { c with state := 5, work := some ⟨.restore, cycle, p.ctx.area, [], some cycle⟩ }
    else s.enterImage part p.ctx.area

/-- An image that leaves the cellar for another is written to its area. -/
def State.emptyCellar (s : State) (part : Nat) : State :=
  match s.cellars.get? part, s.parts.get? part with
  | some img, some p => { s.storeImage part p.cellarArea img with cellars := s.cellars.del part }
  | _, _ => s

/-- The running context goes into the cellar, and its lines to its area's slice section (R470); its slices keep them (R468). -/
def State.parkContext (s : State) (part : Nat) : State :=
  let s := (s.emptyCellar part).landAll part
  match s.capture part with
  | none => s
  | some img =>
    let s := { s.storeSlices part ((s.parts.get? part).elim 0 (·.ctx.running)) img with cellars := s.cellars.put part img }
    (s.evacuate part).setPart part fun p => { p with cellarArea := p.ctx.running }

/-- The context in the cellar runs. -/
def State.unparkContext (s : State) (part area : Nat) (img : CtxImage) : State :=
  ({ s with cellars := s.cellars.del part }.restoreImage part img area true).setPart part fun p => { p with cellarArea := 0 }

/-- Every launch of a terminated context completes with 0x010A (R468). -/
def State.endLaunches (s : State) (part : Nat) : State :=
  (s.launches.filter fun l => partOfLaunch l.1 == part).foldl (fun s l =>
    if l.2.state = .waiting then s.completePacket l.1 l.2 0x010A else s.completeLaunch l.1 l.2 0x010A) s

/-- What the operation does once the context stands still. -/
def State.afterStop (s : State) (part : Nat) (w : CtxWork) : State :=
  let s := s.showAll.settlePairs part
  let s := (s.partBlocks part).foldl (fun s b => if w.plan.get? b.1 = some .flush then s.flushBlock b.1 b.2 else s) s
  let s := s.setCtx part fun c => { c with stopcyc := s.cycle - w.since }
  match w.op with
  | .save =>
    let s := s.landAll part
    let area := (s.parts.get? part).elim 0 (·.ctx.running)
    let s := match s.capture part with
      | some img => s.storeImage part area img
      | none => s
    (s.evacuate part).contextAt part 4
  | .terminate => ((s.endLaunches part).evacuate part).contextAt part 0
  | _ => s.setCtx part fun c => { c with work := some { w with exchange := some s.cycle } }

/-- A stop is complete (R463, R464): every drained block has retired, the stores are performed, the atomics answered. -/
def execContextStopComplete (part : Nat) (s : State) : Answer :=
  match s.parts.get? part with
  | none => .next s
  | some p =>
    match p.ctx.work with
    | none => .next s
    | some w =>
      if p.ctx.state ≠ 2 || w.exchange.isSome || (w.plan.any fun a => a.2 == .drain && (s.blocks.get? a.1).isSome) || !s.quiet part
      then .next s
      else .next (s.afterStop part w)

/-- 512 cycles after the request, a block that has not drained is saved, with its cluster (R465, R466). -/
def execDrainTimeout (part : Nat) (s : State) : Answer :=
  match (s.parts.get? part).bind (·.ctx.work) with
  | none => .next s
  | some w =>
    if s.cycle < w.since + 512 || !(w.plan.any fun a => a.2 == .drain) then .next s else
    let late : NMap StopAction := w.plan.filter fun a => a.2 == .drain
    let s := s.setCtx part fun c => { c with work := some { w with
      plan := w.plan.map fun a => if a.2 = .drain then (a.1, .save) else a } }
    .next (s.discardWaits part fun bid => (late.get? bid).isSome)

/-- The exchange ends 1,024 cycles after the stop (R470). -/
def execExchangeComplete (part : Nat) (s : State) : Answer :=
  match s.parts.get? part with
  | none => .next s
  | some p =>
    match p.ctx.work with
    | none => .next s
    | some w =>
      match w.exchange with
      | none => .next s
      | some t =>
        if s.cycle < t + 1024 then .next s else
        match w.op, s.cellars.get? part with
        | .park, _ => .next ((s.parkContext part).contextAt part 3)
        | .restore, some img => .next (s.unparkContext part w.target img)
        | .restore, none => .next (s.contextAt part 6)
        | .switch, some img =>
          if w.target = p.cellarArea then
            let s := { s with cellars := s.cellars.del part }
            let s := (s.parkContext part).contextAt part 3
            .next (s.restoreImage part img w.target true)
          else .next (((s.parkContext part).contextAt part 3).enterImage part w.target)
        | _, _ => .next (((s.parkContext part).contextAt part 3).enterImage part w.target)

/-- A line of a restored slice lands: its presence bit is set, and paths that wait for it go on (R470). -/
def execSliceLineLand (part slice line : Nat) (s : State) : Answer :=
  let n := 16384 * slice + line
  match (s.parts.get? part).bind fun p => p.landing.get? n with
  | none => .next s
  | some bs =>
    let key := s.physicalKey part (sramKey 0 (128 * n))
    let s := (s.landBytes key bs).dropLine (key / 128)
    .next ((s.setPart part fun p => { p with landing := p.landing.del n }).wakeLines)

/-! ### Creating one (R79, R469) -/

/-- The values of a record, 8 bytes each (R552, log entry 24). -/
def Flash.values (f : Flash) (kind part : Nat) : Option (List Nat) :=
  (f.records.get? (kind * 65536 + part)).map fun r => (List.range (r.body.length / 8)).map fun i => fieldAt r.body (8 * i) 8

/-- The slice map at context creation (R79). -/
def createdSlices (cores : List Nat) : NMap Slice := cores.zipIdx.map fun c => (c.2, Slice.physical c.1)

/-- A ring whose counters are zero. -/
def RingRegs.restarted (r : RingRegs) : RingRegs := { r with tail := 0, head := 0, cmt := 0 }

/-- The partition block of a new context, from the values of kinds 2 and 3. -/
def createdPart (p : Partition) (owner : Nat) (v2 v3 : List Nat) : Partition :=
  let a (i : Nat) : Nat := nth v3 i 0
  { p with
    pasid := nth v2 0 0 % 2 ^ 20, joinOk := nth v2 1 0 % 2 == 1, vector := nth v2 2 0, port := nth v2 3 0 % 2
    argArea := a 0, tframe := a 2, spillArea := a 4, jstkArea := a 6, rstkArea := a 8, codeArea := a 10, codeSize := a 11
    mxArea := a 12, vtab := a 14
    slices := createdSlices p.cores
    accepted := 0, sysQueue := []
    gbk := p.gbk.restarted, log := p.log.restarted, rpl := { p.rpl.restarted with fin := false }
    logReserved := 0, replayHeld := [], replayTags := [], replaySites := []
    halts := 0, unack := false, closed := [], codes := [], returning := [], landing := []
    ck := { Ckpt.reset with owner := owner, current := 1 }
    ctx := { p.ctx with state := 1, running := p.ctx.area, work := none } }

/-- A new context on a partition. -/
def State.createContext (s : State) (part : Nat) (p : Partition) (v2 v3 : List Nat) : State :=
  let owner := s.contexts + 1
  let s := s.showAll.clearSlices p.cores
  let s := { s with contexts := owner, rot := s.rot.filter fun r => !p.cores.contains (r.1 % 512) }
  let s := s.setPart part fun p => createdPart p owner v2 v3
  let s := s.setCk part fun c => { c with closedAt := s.cycle }
  match s.capture part with
  | some img => { s with marks := NMap.put s.marks (2 * owner) img }
  | none => s

/-- CTX_CMD op 6. -/
def execCtxCreate (part : Nat) (_ : Word) (s : State) : Answer :=
  s.onContext part [0, 4, 6] fun p =>
    match s.flash.values 2 part, s.flash.values 3 part with
    | some v2, some v3 => if v2.length < 4 || v3.length < 15 then s.contextAt part 6 else s.createContext part p v2 v3
    | _, _ => s.contextAt part 6

/-! ### CTX_SAVECOST (R473, R477) -/

/-- Dirty bytes: resident registers, SRAM lines and HBM granules written in the open interval. -/
def State.dirtyBytes (s : State) (part : Nat) : Nat :=
  let lines := (s.parts.get? part).elim [] fun p => p.ck.undo.map fun u => 128 * u.1
  ((s.partWarps part).map fun w => w.2.n * 128).sum + (lines.filter isSram).length * 128
    + (((lines.filter fun k => !isSram k).map (· / 16384)).eraseDups).length * 16384

/-- CTX_SAVECOST is updated every 65,536 cycles. -/
def execSavecostUpdate (part : Nat) (s : State) : Answer :=
  match s.parts.get? part with
  | none => .next s
  | some p =>
    if p.ctx.state ≠ 1 || s.cycle < p.ctx.costAt + 65536 then .next s else
    let n := s.dirtyBytes part
    .next (s.setCtx part fun c =>
      { c with dirty := min (n / 1024) (2 ^ 32 - 1), cycles := min (1624 + ceilDiv n 512) (2 ^ 32 - 1), costAt := s.cycle })

end Sys2Proof.Machine
end

