-- ==== Sys2Proof/Machine/Home.lean ====
section
/-! DEFINITION. What reaches the device's memory from outside it, in order (spec/15 R363, spec/20 R435 to R437, spec/23 R486), what
becomes of writes whose peer is gone (spec/20 R439, R440), and of translations that are removed (spec/12 R309, R312). -/
namespace Sys2Proof.Machine

/-! ### The write-drop log (R440) -/

/-- The port whose far end is a device. -/
def State.portTo (s : State) (m : Nat) : Nat := ((s.ports.find? fun p => p.2.link.state != 3 && p.2.peer == m).map (·.1)).getD 0

/-- One dropped write enters the log: its entry first, then the count. -/
def State.logDrop (s : State) (core : Nat) (p : Piece) (m : Nat) : State :=
  let d := s.dropTotal
  let cross := if otherDomain m then 32768 else 0
  let entry := leBytes 6 p.va ++ leBytes 2 p.len ++ leBytes 2 (m % 1024 + s.portTo m * 1024 + cross) ++ leBytes 2 core ++ leBytes 4 d
  { s with drops := s.drops.put (d % 256) entry, dropTotal := (d + 1) % 2 ^ 64 }

/-- Whether a write goes to a device that is gone. -/
def Store.goesTo (gone : Nat → Bool) (t : Store) : Bool := t.piece.peer.any gone

/-- Paths that wait for their stores go on where nothing is left to wait for. -/
def State.wakeStores (s : State) : State := (s.wake .fence).wake .barrier

/-- A write is dropped and logged: it is in no memory (R362, R440). -/
def State.dropWrite (s : State) (t : Store) : State := s.logDrop (coreOf t.warp) t.piece (t.piece.peer.getD 0)

/-- An atomic whose requests to devices that are gone end: their lanes are answered poisoned, and each request that has been sent is
counted among the drops (R370). -/
def AtomReq.lose (gone : Nat → Bool) (r : AtomReq) : AtomReq :=
  let far := r.todo.filter fun t => t.piece.peer.any gone
  if r.op.isWait then (if far.isEmpty then r else { r with gone := r.acting })
  else { r with todo := r.todo.filter (!far.contains ·), gone := r.gone ||| maskOf fun l => far.any (·.lane == l) }

/-- The first piece of each request of an atomic that has been sent to a device that is gone. -/
def AtomReq.lostRequests (gone : Nat → Bool) (r : AtomReq) : List Piece :=
  r.homes.filterMap fun h =>
    if (r.seqs.get? h).isNone && !r.stands then none
    else ((r.lanesAt h).head?.map (·.piece)).filter fun p => p.peer.any gone

/-- A load whose reads of devices that are gone end: their bytes are poisoned (R312 b). -/
def LoadReq.lose (gone : Nat → Bool) (r : LoadReq) : LoadReq :=
  let far := ((r.lanes.flatMap (·.2.2)).filterMap (·.peer)).filter fun m => gone m && !r.lost.contains m
  { r with lost := far.eraseDups ++ r.lost }

/-- What a path awaits, once devices are gone. -/
def Path.lose (gone : Nat → Bool) (p : Path) : Path :=
  { p with await := p.await.map fun a => match a.what with
    | .load r => { a with what := .load (r.lose gone) }
    | .atomic r => { a with what := .atomic (r.lose gone) }
    | _ => a }

/-- A barge's read in flight ends poisoned: what it moves next carries poison. -/
def State.spoilCopy (s : State) (block seq : Nat) (f : Piece → Bool) : State :=
  match s.copyOf block seq with
  | none => s
  | some x =>
    if x.cmd.state ≠ .active then s else
    match (x.cmd.unitAt x.runs x.cmd.pos).reads.mapM (s.bargePieces x.env x.cmd.ex true false) with
    | .ok ps => if ps.flatten.any f then s.setCopy block { x.cmd with badRead := true } else s
    | .error _ => s

/-- Reads and atomics in flight to devices that are gone end (R312 b, R370, R439 a). -/
def State.loseReads (s : State) (gone : Nat → Bool) : State :=
  let lost := s.warps.flatMap fun w => w.2.paths.flatMap fun p => match p.await with
    | some ⟨.atomic r, _, _, _⟩ => (r.lostRequests gone).map (coreOf w.1, ·)
    | _ => []
  let s := lost.foldl (fun s x => s.logDrop x.1 x.2 (x.2.peer.getD 0)) s
  { s with
    warps := s.warps.map fun w => (w.1, { w.2 with paths := w.2.paths.map (Path.lose gone) })
    lockPairs := s.lockPairs.map fun k =>
      let home := k.1 % 2 ^ 16
      if k.1 < 2 ^ 40 && 32 ≤ home && gone (home / 32 - 1) then (k.1, { k.2 with executed := k.2.issued }) else k }

/-- Every write in flight to devices that are gone is dropped and counts as performed, and reads and atomics end (R312 b and c, R439). -/
def State.dropTo (s : State) (gone : Nat → Bool) : State :=
  let s := ((s.stores ++ s.unacked).filter (·.goesTo gone)).foldl State.dropWrite s
  let stay (t : Store) : Bool := !t.goesTo gone
  ({ s with stores := s.stores.filter stay, unacked := s.unacked.filter stay }.loseReads gone).wakeStores

/-- Whether anything is outstanding to devices that are gone. -/
def State.outstandingTo (s : State) (gone : Nat → Bool) : Bool :=
  (s.stores ++ s.unacked).any (·.goesTo gone) || s.warps.any fun w => w.2.paths.any fun p => p.lose gone != p

/-- Barges whose next unit reads a device that is about to go find it poisoned (R312 b); this comes before the device is gone. -/
def State.spoilCopies (s : State) (gone : Nat → Bool) : State :=
  s.blocks.foldl (fun s b => b.2.copies.foldl (fun s c => s.spoilCopy b.1 c.1 fun p => p.peer.any gone) s) s

/-! ### Translations removed (R309, R312) -/

/-- Cached runs are cleared (R198): those of a context's registers that a test names. -/
def State.clearRuns (s : State) (f : Nat → Run → Bool) : State :=
  { s with warps := s.warps.map fun x =>
      (x.1, { x.2 with a := x.2.a.map fun a => match a.run with
        | some r => if f (s.partOf x.2.block) r then { a with run := none } else a
        | none => a }) }

/-- Remote entries for some peers are removed, with the runs they cover (R312 a). -/
def State.forgetPeers (s : State) (gone : Nat → Bool) : State :=
  let far (x : Space) : Bool := match x with | .peer m => gone m | _ => false
  { s with atc := s.atc.filter fun p => !far p.space }.clearRuns fun _ r => far r.space

/-! ### Accesses of the host and of peers (R363, R436, R486) -/

/-- The pieces of this device's HBM from an address on. -/
def hbmPieces (a len : Nat) : List Piece := (sectors a len).map fun x => ⟨x.1, x.2, x.1, none, none⟩

/-- The pieces of a request. -/
def HeldAccess.pieces : HeldAccess → List Piece
  | .hostRead _ a len => hbmPieces a len
  | .hostWrite _ a bs => hbmPieces a bs.length
  | .peer _ _ (.read a len) => hbmPieces a len
  | .peer _ _ (.write a bs) => hbmPieces a bs.length
  | .peer _ _ (.atomic _ f a _) => hbmPieces a (elemBits f / 8)

/-- The operations of an atomic request by the sub of opcode 0x80 (R371); 12 is a compare and swap, 13 `semp`, 14 `semw.tk` and 15
`semw.take` (log entry 180). -/
def peerAtom : Nat → AtomOp
  | 0 => .add | 1 => .sub | 2 => .min | 3 => .max | 4 => .and | 5 => .or | 6 => .xor | 7 => .swp | 8 => .inc | 9 => .fadd
  | 10 => .minu | 11 => .maxu | 12 => .cas | 13 => .semp | 14 => .semw false | _ => .semw true

/-- The region a piece of this device's memory begins, as its home reads it (R375). -/
def State.regionHere (s : State) (h : Piece) : Option Region :=
  let bs := s.readPiece h
  if h.key % 32 = 0 && headerValid bs then some ⟨h.key, [h], intAt bs 4 2, fieldAt bs 8 4⟩ else none

/-- An `atfadd.rgn` lane of a peer: the header's address, the element below the cell index. It answers one byte, 1 where the region or the
index is refused (log entry 180). -/
def State.peerRegion (s : State) (a x : Nat) : State × List Byte × Bool :=
  let h : Piece := ⟨a, 32, a, none, none⟩
  let i := x / 2 ^ 32
  let cell : Piece := ⟨a + 32 + 16 * i, 16, a + 32 + 16 * i, none, none⟩
  if s.poisoned h || s.poisoned cell then (s, [0], true)
  else match s.regionHere h with
    | some g => if i < g.cells then (s.addCell (2 ^ 64) g cell ((fspec .f32).decode (x % 2 ^ 32)), [0], false) else (s, [1], false)
    | none => (s, [1], false)

/-- What a peer's request does and what it answers; an atomic on poison changes nothing (R376). The operand of a compare and swap is
its first in the low 64 bits, its second above them. -/
def State.servePeer (s : State) (m : Nat) (op : CanalOp) (ps : List Piece) : State × List Byte × Bool :=
  let old := s.readPieces ps
  let bad := ps.any s.poisoned
  let put (bs : List Byte) : State := (cutBytes ps bs).foldl (fun s w => s.performAt (.device m) everyCore w.1 w.2) s
  match op with
  | .read _ _ => (s, old, bad)
  | .write _ bs => (put bs, [], false)
  | .atomic sub f a x =>
    if sub = 9 && f == .none then s.peerRegion a x
    else if bad then (s, old, true)
    else (put (leBytes (elemBits f / 8) (atomValue (peerAtom sub) f (leNat old) (x % 2 ^ 64) (x / 2 ^ 64))), old, false)

/-- A member's semaphore wait comes to stand at its lockkeeper (R391, R392). -/
def State.standPeer (s : State) (p : PeerWait) : State :=
  let s := { s with peerWaits := s.peerWaits ++ [p] }
  if p.take then s.joinQueue p.key p.place else s

/-- Performs an access: the host's read gives its data, a peer's request is executed and answered once (R436). -/
def State.perform (s : State) (h : HeldAccess) : State :=
  match h with
  | .hostRead port _ _ =>
    let bs := s.readPieces h.pieces
    { s with hostData := bs }.send (.hostData port bs)
  | .hostWrite _ _ bs => s.writePieces (cutBytes h.pieces bs)
  | .peer m seq op =>
    let s := { s with canalSeqs := s.canalSeqs.put (canalKey m op) seq }
    match op with
    | .atomic sub _ a x =>
      let home := homeOfKey a
      let s := { s with lockLast := s.lockLast.put home (s.cycle, (512 + m) * 128) }
      if (peerAtom sub).isWait then s.standPeer ⟨m, seq, a, sub != 14, x % 2 ^ 64⟩
      else
        let r := s.servePeer m op h.pieces
        (r.1.numberDone (atomicPair m) seq r.2.1 r.2.2).send (.member m (.completion seq r.2.1 r.2.2))
    | _ =>
      let r := s.servePeer m op h.pieces
      r.1.send (.member m (.completion seq r.2.1 r.2.2))

/-- Whether two accesses come in one order: the writes and reads of one host port, the requests of one pair. -/
def HeldAccess.chained (h k : HeldAccess) : Bool :=
  match h, k with
  | .hostRead p _ _, .hostWrite q _ _ => p == q
  | .hostWrite p _ _, .hostWrite q _ _ => p == q
  | .peer m _ o, .peer n _ o' => m == n && classOfOp o == classOfOp o'
  | _, _ => false

/-- Whether a request's sequence number is the next of its pair. -/
def State.nextOfPair (s : State) (h : HeldAccess) : Bool :=
  match h with
  | .peer m seq op => seq == (s.canalSeqs.getD (canalKey m op) 0 + 1) % 2 ^ 16
  | _ => true

/-- Whether a peer's atomic may be applied in this cycle: it counts as core 512 + its device number (R367), and a lockkeeper holds at most
1,024 takers (R392). -/
def State.peerTurn (s : State) (h : HeldAccess) : Bool :=
  match h with
  | .peer m _ (.atomic sub _ a _) =>
    s.lockTurn (homeOfKey a) ((512 + m) * 128) && !(peerAtom sub == .semw true && 1024 ≤ s.waitersAt (homeOfKey a))
  | _ => true

/-- Whether an access may be performed now: no barge owns its line (R333), no group holds it, it is next in its order, and no earlier one of its order waits. -/
def State.mayPerform (s : State) (earlier : List HeldAccess) (h : HeldAccess) : Bool :=
  s.nextOfPair h && !s.heldFrom none h.pieces && !(match h with | .peer _ _ _ => false | _ => earlier.any h.chained)
    && !(h.pieces.any s.lineOwned) && s.peerTurn h

/-- Held accesses proceed in their arrival order as far as they may. -/
def releaseSome (keep : List HeldAccess) : List HeldAccess → State → State × List HeldAccess
  | [], s => (s, keep)
  | h :: r, s => if s.mayPerform keep h then releaseSome keep r (s.perform h) else releaseSome (keep ++ [h]) r s

/-- Held accesses proceed; a peer's early request may follow another of its pair. -/
def State.releaseHeld (s : State) : State := go (s.held.length + 1) s
where
  go : Nat → State → State
    | 0, s => s
    | fuel + 1, s =>
      let r := releaseSome [] s.held s
      let t := { r.1 with held := r.2 }
      if r.2.length = s.held.length then t else go fuel t

/-- An access arrives: it is performed, or waits in its place. -/
def State.arrives (s : State) (h : HeldAccess) : State := { s with held := s.held ++ [h] }.releaseHeld

/-- A posted write arrives from the host through BAR2 and is performed as a release, after those before it on its port (R363). -/
def execHostPostedWrite (port addr : Nat) (data : List Byte) (s : State) : Answer :=
  if data.isEmpty || 2 ^ 52 < addr + data.length then .next s else .next (s.arrives (.hostWrite port addr data))

/-- A peer's request arrives (R436): executed once, in the sequence order of its pair; a resent one is answered from what is kept. -/
def execCanalRequest (member seq : Nat) (op : CanalOp) (s : State) : Answer :=
  let h := HeldAccess.peer member (seq % 2 ^ 16) op
  let last := s.canalSeqs.getD (canalKey member op) 0
  if 2 ^ 52 < ((h.pieces.getLast?).elim 0 fun p => p.key + p.len) || s.held.contains h then .next s
  else if (last + 2 ^ 16 - seq % 2 ^ 16) % 2 ^ 16 < 2 ^ 15 then
    match (s.pairOf (atomicPair member)).kept.get? (seq % 2 ^ 16) with
    | some x => if classOfOp op = 2 then .next (s.send (.member member (.completion (seq % 2 ^ 16) x.1 x.2))) else .next s
    | none => .next s
  else .next (s.arrives h)

/-- A peer's home has performed the n-th write on its way, the earliest to that peer, and acknowledges it (R350 d, R435): it is in memory
there, and waits with bit 5 go on. -/
def execWriteAcknowledgement (n : Nat) (s : State) : Answer :=
  match s.unacked[n]? with
  | none => .next s
  | some t =>
    if (s.unacked.take n).any (·.piece.peer == t.piece.peer) then .next s
    else
      let s := { s with unacked := s.unacked.eraseIdx n }.writePiece t.piece t.data
      let s := if t.clears then s.clearSector t.piece else s
      let s := if t.poison then s.setPoison t.piece.key else s
      let s := if t.ord = .sc then s.acquireAt (coreOf t.warp) t.mask else s
      .next s.wakeStores

/-! ### Requests that end without their data (R301, R343, R437, R444) -/

/-- The pieces a wait reads that satisfy a test, by lane with its address. -/
def Await.reads (a : Await) (s : State) (e : Env) (f : Piece → Bool) : List (Nat × Nat) :=
  match a with
  | .load r => (r.lanes.filter fun x => x.2.2.any f).map fun x => (x.1, x.2.1)
  | .monitor r => match r.pieces s e with
    | .ok ps => (ps.filter f).map fun p => (0, p.va)
    | .error _ => []
  | _ => []

/-- A path's request ends with a poisoned completion: subcode 0x00 for data marked poisoned, 0x03 for a synthesised one. -/
def State.endRead (s : State) (warp path : Nat) (f : Piece → Bool) (sub : Nat) : State :=
  match s.awaiting warp path with
  | none => s
  | some (c, a) =>
    match a.reads s c.env f with
    | [] => s
    | x :: r =>
      let lanes : LaneMask := match a with
        | .load q => (q.whole c.w.present).getD (maskOf fun l => (x :: r).any fun (y : Nat × Nat) => y.1 == l)
        | .monitor q => q.lanes c
        | _ => 0
      s.answeredTrap c ⟨0x51, sub, BitVec.ofNat 64 x.2, lanes⟩

/-- Ends an outstanding read. -/
def State.endRequest (s : State) (who : Outstanding) (f : Piece → Bool) (sub : Nat) : State :=
  match who with
  | .path w i => s.endRead w i f sub
  | .copy b q => s.spoilCopy b q f
  | _ => s

/-- Ends a request behind a host port (R444): a path's or a barge's at once, another one when it is next made. -/
def State.endHostRequest (s : State) (who : Outstanding) (sub : Nat) : State :=
  match who with
  | .path _ _ | .copy _ _ => s.endRequest who Piece.foreign sub
  | .write _ => s
  | _ => { s with portFaults := s.portFaults ++ [(who, sub)] }

/-- A UR, CA or poisoned completion from behind a host port (R444, R301). -/
def execHostCompletionError (who : Outstanding) (marked : Bool) (s : State) : Answer :=
  .next (s.endHostRequest who (if marked then 0 else 3))

/-- No completion from behind a host port within 50 ms (R444). -/
def execHostCompletionTimeout (who : Outstanding) (s : State) : Answer := .next (s.endHostRequest who 3)

/-- Whether a piece lives on a device of another domain. -/
def Piece.crossDomain (p : Piece) : Bool := match p.peer with | some m => otherDomain m | none => false

/-- A cross-domain request unanswered after 1 ms (R437): a read ends poisoned, a write is dropped and logged. -/
def execCrossDomainTimeout (who : Outstanding) (s : State) : Answer :=
  match who with
  | .write n =>
    match s.unacked[n]? with
    | none => .next s
    | some t =>
      if t.piece.crossDomain then .next { s.dropWrite t with unacked := s.unacked.eraseIdx n }.wakeStores else .next s
  | _ => .next (s.endRequest who Piece.crossDomain 3)

/-! ### Translations of the host (R306, R309, R310) -/

/-- Where a translated address stands (R306): a peer's memory inside the partition's Canal aperture, one run of 2^40 bytes for each member,
the device's HBM inside its BAR2 range, else host or CXL memory behind the port that partition configuration names (log entry 182). -/
def State.spaceOf (s : State) (pt : Partition) (ta : Nat) : Space × Nat :=
  let (base, size) := pt.aperture
  if base ≤ ta ∧ ta < base + size then (.peer ((ta - base) / 2 ^ 40), (ta - base) % 2 ^ 40)
  else if s.bar2 ≤ ta ∧ ta < s.bar2 + 768 * 2 ^ 30 then (.hbm, ta - s.bar2)
  else (.host pt.port, ta)

/-- An ATS translation completion: what the IOMMU answers is known, and its range enters the die caches, tagged with the view. -/
def execAtsTranslationCompletion (a : AtsAnswer) (s : State) : Answer :=
  match s.parts.find? fun p => p.2.pasid == a.pasid with
  | none => .next s
  | some pt =>
    let at' := s.spaceOf pt.2 a.ta
    let p : Page := ⟨a.pasid, a.va, a.size, at'.1, at'.2, a.r, a.w, a.x, s.viewNo⟩
    .next ({ s with iommu := p :: s.iommu.filter fun q => !(q.pasid == p.pasid && q.va == p.va) }.cachePage p a.va)

/-- Whether a page meets a range of a PASID. -/
def pageMeets (p : Page) (pasid va size : Nat) : Bool := p.pasid == pasid && p.va < va + size && va < p.va + p.size

/-- Whether a partition's context runs under a PASID. -/
def State.hasPasid (s : State) (pasid part : Nat) : Bool := (s.parts.get? part).any (·.pasid == pasid)

/-- The host invalidates a range (R309 steps 1 and 2): what its IOMMU answers from now on is given with the request. -/
def execAtsInvalidation (pasid va size : Nat) (r w x resident : Bool) (s : State) : Answer :=
  let hit (p : Page) : Bool := pageMeets p pasid va size
  let exec' := (s.atc ++ s.iommu).any fun p => hit p && p.x
  let s := { s with
    atc := s.atc.filter fun p => !hit p
    iommu := if resident then s.iommu.map fun p => if hit p then { p with r := r, w := w, x := x } else p
      else s.iommu.filter fun p => !hit p }
  let s := s.clearRuns fun part run => s.hasPasid pasid part && run.lo < va + size && va < run.hi
  .next { s with invalidations := s.invalidations ++ [(pasid, va, size, exec')] }

/-- Whether an access of a PASID's contexts issued in a range has not been performed (R309 step 3). -/
def State.accessOpen (s : State) (pasid va size : Nat) : Bool :=
  let inside (bid part : Nat) (p : Piece) : Bool :=
    let a := s.unifiedOf ⟨part, (s.blocks.get? bid).elim 0 (·.home)⟩ p.va
    a < va + size && va < a + p.len
  (s.stores ++ s.unacked).any (fun t => s.hasPasid pasid t.part && inside t.block t.part t.piece)
    || s.warps.any fun x =>
      let part := s.partOf x.2.block
      s.hasPasid pasid part && x.2.paths.any fun p => match p.await with
      | some ⟨.load r, _, _, _⟩ => r.lanes.any fun l => l.2.2.any (inside x.2.block part)
      | some ⟨.atomic r, _, _, _⟩ => !r.op.isWait && r.todo.any fun t => inside x.2.block part t.piece
      | _ => false

/-- Whether a fetched line lies in a range. -/
def lineFrom (va size : Nat) (l : Option Line) : Bool := l.any fun l => l.addr < va + size && va < l.addr + 64

/-- Whether a block's stream stands at a word it is about to issue. -/
def State.streamReady (s : State) (bid : Nat) (x : Mx) (m : MStream) : Bool :=
  x.stopped.isNone && m.waits.isNone && m.doing.isNone && m.drain.isNone && m.store.isNone && s.mayIssue bid

/-- The paths and streams of a PASID's contexts that are not ready lose words fetched from a range (R310 b). -/
def State.discardFetched (s : State) (pasid va size : Nat) : State :=
  let left (l : Option Line) (ready : Bool) : Option Line := if lineFrom va size l && !ready then none else l
  let ofWarp (w : Warp) : Warp :=
    { w with paths := w.paths.zipIdx.map fun p => { p.1 with line := left p.1.line (s.readyPath w p.2) } }
  let ofBlock (bid : Nat) (b : Block) : Block :=
    { b with mx := { b.mx with stream := b.mx.stream.map fun m => { m with line := left m.line (s.streamReady bid b.mx m) } } }
  { s with
    warps := s.warps.map fun x => (x.1, if s.hasPasid pasid (s.partOf x.2.block) then ofWarp x.2 else x.2)
    blocks := s.blocks.map fun b => (b.1, if s.hasPasid pasid (partOfLaunch b.2.launch) then ofBlock b.1 b.2 else b.2) }

/-- Whether a path or a stream still holds such words (R310 a). -/
def State.fetchHeld (s : State) (pasid va size : Nat) : Bool :=
  (s.warps.any fun x => s.hasPasid pasid (s.partOf x.2.block) && x.2.paths.any fun p => lineFrom va size p.line)
    || s.blocks.any fun b => s.hasPasid pasid (partOfLaunch b.2.launch) && b.2.mx.stream.any fun m => lineFrom va size m.line

/-- An invalidation is completed once nothing uses what it removed (R309 steps 3 to 5, R310). -/
def execInvalidationCompletion (pasid va size : Nat) (s : State) : Answer :=
  match s.invalidations.find? fun i => i.1 == pasid && i.2.1 == va && i.2.2.1 == size with
  | none => .next s
  | some i =>
    if s.accessOpen pasid va size then .next s else
    let t := if i.2.2.2 then s.discardFetched pasid va size else s
    if i.2.2.2 && t.fetchHeld pasid va size then .next t
    else .next ({ t with invalidations := t.invalidations.erase i }.send (.invalidated pasid va size))

/-- An uncorrectable ECC error poisons its sector (R301). -/
def execEccUncorrectableError (key : Nat) (s : State) : Answer := .next (s.setPoison key)

end Sys2Proof.Machine
end

