-- ==== Sys2Proof/Machine/VFloat.lean ====
section
/-! DEFINITION. Floating-point arithmetic, estimates and conversions (spec/09 R230 to R242). -/
namespace Sys2Proof.Machine

/-- Element results put together: the lane value and the OR of the elements' flags (R231). -/
def joinElements (f : Fmt) (g : Nat → Nat × BitVec 5) : Word × BitVec 5 :=
  (ofElements f fun j => (g j).1, (List.range (elemCount f)).foldl (fun fl j => fl ||| (g j).2) 0)

/-- Rounds an exact result that comes with flags. -/
def FSpec.roundWith (f : FSpec) (r : Rounding) (x : Real' × BitVec 5) : Nat × BitVec 5 :=
  let y := f.round r x.1
  (y.1, y.2 ||| x.2)

/-- How an instruction of page 0x40 to 0x4F rounds at one element. -/
def Ctx.rounding (c : Ctx) (mode : RMode) (count l j : Nat) : Rounding := ⟨mode, c.srBits count l j, false, c.la.flush⟩

/-- An instruction on the values of each element. -/
def floatVec (s : State) (o : Alu) (mode : RMode) (op : FVal → FVal → FVal → Real' × BitVec 5) : Answer :=
  laneWise s o o.fmt o.fmt o.fmt o.fmt mode fun c count l a b z =>
    let f := fspec o.fmt
    let v (x : Word) (j : Nat) := f.input c.la.flush (element o.fmt x j)
    joinElements o.fmt fun j => f.roundWith (c.rounding mode count l j) (op (v a j) (v b j) (v z j))

def execFadd (m : RMode) (o : Alu) (s : State) : Answer := floatVec s o m fun a b _ => realAdd m a b
def execFsub (m : RMode) (o : Alu) (s : State) : Answer := floatVec s o m fun a b _ => realSub m a b
def execFmul (m : RMode) (o : Alu) (s : State) : Answer := floatVec s o m fun a b _ => realMul a b
def execFfma (m : RMode) (o : Alu) (s : State) : Answer := floatVec s o m fun a b z => realFma m a b z
def execFsqrt (m : RMode) (o : Alu) (s : State) : Answer := floatVec s o m fun a _ _ => realSqrt a
def execFdiv (m : RMode) (o : Alu) (s : State) : Answer := floatVec s o m fun a b _ => realDiv a b
def execFexp2 (m : RMode) (o : Alu) (s : State) : Answer := floatVec s o m fun a _ _ => realExp2 a
def execFlog2 (m : RMode) (o : Alu) (s : State) : Answer := floatVec s o m fun a _ _ => realLog2 a

/-- The format of the exponents of `fscale` (R232). -/
def scaleFmt (f : Fmt) : Fmt := if elemBits f = 16 then .i16 else .i32

/-- `fscale` (R232, R233). -/
def execFscale (m : RMode) (o : Alu) (s : State) : Answer :=
  laneWise s o o.fmt o.fmt (scaleFmt o.fmt) .i32 m fun c count l a b _ =>
    let f := fspec o.fmt
    joinElements o.fmt fun j =>
      let x := f.input c.la.flush (element o.fmt a j)
      let y := realScale x (elemInt (scaleFmt o.fmt) false b j)
      f.roundWith (c.rounding m count l j) (y.1, y.2 ||| snanFlag [x])

/-! ### Comparison, sign and class (R234 to R236) -/

/-- An order of values that are no NaN, in which -0 comes before +0. -/
def FVal.lessEq : FVal → FVal → Bool
  | .inf a, .inf b => a || !b
  | .inf a, _ => a
  | _, .inf b => !b
  | .fin a m e, .fin b n g =>
    let x := Dyadic.ofParts a m e
    let y := Dyadic.ofParts b n g
    let k := min e g
    let u := x.n * 2 ^ (x.e - k).toNat
    let v := y.n * 2 ^ (y.e - k).toNat
    u < v || (u == v && (m != 0 || a || !b))
  | _, _ => false

/-- The code of a value of the format it came from. -/
def FSpec.code (f : FSpec) (v : FVal) : Nat := (f.round rneOf v.real).1

/-- `fmin` and `fmax` of two codes (R234). -/
def FSpec.pick (f : FSpec) (larger flush : Bool) (a b : Nat) : Nat × BitVec 5 :=
  let x := f.input flush a
  let y := f.input flush b
  let v := if x.isNan then y else if y.isNan then x else if x.lessEq y != larger then x else y
  (if v.isNan then f.nanCode else f.code v, snanFlag [x, y])

/-- `fmin` and `fmax`. -/
def pickVec (larger : Bool) (o : Alu) (s : State) : Answer :=
  laneWise s o o.fmt o.fmt o.fmt o.fmt .rne fun c _ _ a b _ =>
    joinElements o.fmt fun j => (fspec o.fmt).pick larger c.la.flush (element o.fmt a j) (element o.fmt b j)

def execFmin (o : Alu) (s : State) : Answer := pickVec false o s
def execFmax (o : Alu) (s : State) : Answer := pickVec true o s

/-- The condition of `fcmp` (R234) with the flags it sets. -/
def fcondHolds (c : FCond) (a b : FVal) : Bool × BitVec 5 :=
  let un := a.isNan || b.isNan
  let le := a.lessEq b || (a.isZero && b.isZero)
  let ge := b.lessEq a || (a.isZero && b.isZero)
  let quiet := snanFlag [a, b]
  let loud := if un then fNv else 0
  match c with
  | .eq => (!un && le && ge, quiet)
  | .ne => (un || !(le && ge), quiet)
  | .lt => (!un && le && !ge, loud)
  | .le => (!un && le, loud)
  | .gt => (!un && ge && !le, loud)
  | .ge => (!un && ge, loud)
  | .un => (un, quiet)

/-- `fcmp` (R234). -/
def execFcmp (cond : FCond) (o : Alu) (s : State) : Answer :=
  s.run fun c => do
    checkOperands c o.g o.d o.fmt [(.vec o.fmt, o.a), (.vec o.fmt, o.b)]
    let act := c.act o.g
    let s ← shadowCompare s c act
    let a := readVec c.w c.p o.fmt o.a
    let b := readVec c.w c.p o.fmt o.b
    let v (x : Word) : FVal := (fspec o.fmt).input c.la.flush (element o.fmt x 0)
    let out (l : Nat) : Bool × BitVec 5 := fcondHolds cond (v (atLane a l)) (v (atLane b l))
    let r := predicateResult c.w o.d act (maskOf fun l => (out l).1)
    return s.complete c (r.1.orFlags act fun l => (out l).2) r.2

/-- A sign instruction (R235): `sign` of the codes is the sign of the result. -/
def signVec (o : Alu) (s : State) (sign : Bool → Bool → Bool) : Answer :=
  laneWise s o o.fmt o.fmt o.fmt o.fmt .rne fun c _ _ a b _ =>
    let f := fspec o.fmt
    let top (x : Nat) : Bool := x.testBit f.magBits
    joinElements o.fmt fun j =>
      let x := element o.fmt a j
      match f.input c.la.flush x with
      | .nan sg => (f.nanCode, if sg then fNv else 0)
      | v => (f.signed (sign (top x) (top (element o.fmt b j))) (if v.isZero then 0 else x % 2 ^ f.magBits), 0)

def execFabs (o : Alu) (s : State) : Answer := signVec o s fun _ _ => false
def execFneg (o : Alu) (s : State) : Answer := signVec o s fun a _ => !a
def execFcsgn (o : Alu) (s : State) : Answer := signVec o s fun _ b => b

/-- The class mask of an encoding (R236). -/
def FSpec.classOf (f : FSpec) (flush : Bool) (bits : Nat) : Nat :=
  match f.input flush bits with
  | .nan s => if s then 2 ^ 8 else 2 ^ 9
  | .inf neg => if neg then 1 else 2 ^ 7
  | .fin neg m _ =>
    if m = 0 then (if neg then 2 ^ 3 else 2 ^ 4)
    else if f.subnormal bits then (if neg then 2 ^ 2 else 2 ^ 5)
    else if neg then 2 else 2 ^ 6

/-- The destination format of `fclass`: one 32-bit register for f64 (R236). -/
def classFmt (f : Fmt) : Fmt := if f = .f64 then .i32 else f

/-- `fclass` sub 0 (R236). -/
def execFclass (o : Alu) (s : State) : Answer :=
  laneWise s o (classFmt o.fmt) o.fmt .i32 .i32 .rne fun c _ _ a _ _ =>
    (ofElements (classFmt o.fmt) fun j => (fspec o.fmt).classOf c.la.flush (element o.fmt a j), 0)

/-- `fclass.fl` (R236). -/
def execFclassFl (o : Alu) (s : State) : Answer :=
  s.run fun c => do
    checkOperands c o.g o.d .i32 [(.vec .i32, o.a)]
    let act := c.act o.g
    let s ← shadowCompare s c act
    let m := readVec c.w c.p .i32 o.a
    let r := vectorResult c.w o.d .i32 act fun l => if c.w.present.getLsbD l then (c.w.flag l).zeroExtend 64 else 0
    return s.complete c (r.1.clearFlags act fun l => (atLane m l).extractLsb' 0 5) r.2

/-! ### Estimates (R237, R238) -/

/-- e = floor(log2 |x|) and the seven bits of y below its leading one, for m · 2^q. -/
def estimateIndex (m : Nat) (q : Int) : Int × Nat := (q + Nat.log2 m, m * 128 / 2 ^ Nat.log2 m - 128)

/-- `frcp` of a value. -/
def rcpOf (f : FSpec) (flush : Bool) (x : FVal) : Nat × BitVec 5 :=
  match x with
  | .nan s => (f.nanCode, if s then fNv else 0)
  | .inf neg => (f.signed neg 0, 0)
  | .fin neg m q =>
    if m = 0 then (f.signed neg (f.inf.getD 0), fDz)
    else
      let (e, i) := estimateIndex m q
      let t := (2 ^ 26 / (257 + 2 * i) + 1) / 2
      f.round ⟨.rne, 0, false, flush⟩ (.val neg (.rat t 1 (-e - 17)))

/-- `frsq` of a value. -/
def rsqOf (f : FSpec) (x : FVal) : Nat × BitVec 5 :=
  match x with
  | .nan s => (f.nanCode, if s then fNv else 0)
  | .inf neg => if neg then (f.nanCode, fNv) else (0, 0)
  | .fin neg m q =>
    if m = 0 then (f.signed neg (f.inf.getD 0), fDz)
    else if neg then (f.nanCode, fNv)
    else
      let (e, i) := estimateIndex m q
      let p := e % 2
      let t := (isqrt (4 * 2 ^ (42 - p.toNat) / (257 + 2 * i)) + 1) / 2
      f.round rneOf (.val false (.rat t 1 (-(e - p) / 2 - 17)))

/-- `frcp` (R237). -/
def execFrcp (o : Alu) (s : State) : Answer :=
  laneWise s o o.fmt o.fmt o.fmt o.fmt .rne fun c _ _ a _ _ =>
    joinElements o.fmt fun j => rcpOf (fspec o.fmt) c.la.flush ((fspec o.fmt).input c.la.flush (element o.fmt a j))

/-- `frsq` (R238). -/
def execFrsq (o : Alu) (s : State) : Answer :=
  laneWise s o o.fmt o.fmt o.fmt o.fmt .rne fun c _ _ a _ _ =>
    joinElements o.fmt fun j => rsqOf (fspec o.fmt) ((fspec o.fmt).input c.la.flush (element o.fmt a j))

/-! ### Conversions (R239 to R242) -/

/-- A conversion of element js of source 0 into element jd: `f` gives the code and flags from the element, source 1 and the random
bits of the lane. A stochastic conversion draws for jd, the index of the element it rounds (DESIGN CHOICE, log entry 177). -/
def convert (s : State) (o : Alu) (v : Cv) (m : RMode) (f : Nat → Word → Nat → Nat × BitVec 5) : Answer :=
  laneWise s o o.fmt v.sf .i32 .i32 m fun c count l a b _ =>
    let r := f (element v.sf a v.js) b (c.srBits count l v.jd)
    (placeElement c.w o.d o.fmt v.jd l r.1, r.2)

/-- `cvt` (R240). -/
def execCvt (m : RMode) (v : Cv) (o : Alu) (s : State) : Answer :=
  convert s o v m fun x _ rb =>
    let y := (fspec v.sf).decode x
    (fspec o.fmt).roundWith ⟨m, rb, v.sat, false⟩ (y.real, snanFlag [y])

/-- `cvtf` (R240). -/
def execCvtf (m : RMode) (v : Cv) (o : Alu) (s : State) : Answer :=
  convert s o v m fun x _ rb =>
    let n : Int := if o.uns then x else (BitVec.ofNat (elemBits v.sf) x).toInt
    (fspec o.fmt).round ⟨m, rb, false, false⟩ (realOfInt n)

/-- `cvti` (R240, R223). -/
def execCvti (m : RMode) (v : Cv) (o : Alu) (s : State) : Answer :=
  convert s o v m fun x _ rb => toInteger ⟨m, rb, false, false⟩ (elemBits o.fmt) o.uns ((fspec v.sf).decode x)

/-- `frint` (R240). -/
def execFrint (m : RMode) (v : Cv) (o : Alu) (s : State) : Answer :=
  convert s o v m fun x _ rb => (fspec o.fmt).integral ⟨m, rb, false, false⟩ ((fspec o.fmt).decode x)

/-- Encoding through a scale σ (R241). -/
def encodeScaled (f : FSpec) (m : RMode) (rb : Nat) (x : FVal) (scale : Nat) : Nat × BitVec 5 :=
  if scale = 255 then (f.nanCode, (if f.nan.isNone then fNv else 0) ||| snanFlag [x])
  else match x, f.inf with
    | .inf neg, some i => (f.signed neg i, 0)
    | _, _ =>
      let y := realScale x (127 - scale)
      f.roundWith ⟨m, rb, true, false⟩ (y.1, snanFlag [x])

/-- Decoding through a scale σ (R241, R214). -/
def decodeScaled (f : FSpec) (m : RMode) (rb : Nat) (x : FVal) (scale : Nat) : Nat × BitVec 5 :=
  if scale = 255 then (f.nanCode, 0)
  else
    let y := realScale x (scale - 127)
    f.roundWith ⟨m, rb, false, false⟩ (y.1, snanFlag [x])

/-- `cvtbs` (R241). -/
def execCvtbs (m : RMode) (v : Cv) (o : Alu) (s : State) : Answer :=
  convert s o v m fun x b rb =>
    let scale := b.toNat % 256
    let y := (fspec v.sf).decode x
    if elemBits o.fmt ≤ 8 then encodeScaled (fspec o.fmt) m rb y scale else decodeScaled (fspec o.fmt) m rb y scale

/-- `fdot2` (R242). -/
def execFdot2 (m : RMode) (v : Cv) (o : Alu) (s : State) : Answer :=
  laneWise s o .f32 v.sf v.sf .f32 m fun c count l a b z =>
    let f := fspec v.sf
    let e (x : Word) (j : Nat) : FVal := f.input c.la.flush (element v.sf x j)
    let r := (fspec .f32).roundWith (c.rounding m count l 0)
      (realDot2 m (e a 0) (e b 0) (e a 1) (e b 1) ((fspec .f32).input c.la.flush (element .f32 z 0)))
    (r.1, r.2)

end Sys2Proof.Machine
end

