-- ==== Sys2Proof/Machine/Coll.lean ====
section
/-! DEFINITION. The collective engine (spec/19 R408 to R418): descriptors, what each participant sends and makes of what it receives, the
life of an instance, its stamp; and the instructions `coll`, `cwait` and `cabort` (R412, R413, R421, R425). -/
namespace Sys2Proof.Machine

/-! ### Members -/

/-- The members of a mask, ascending. -/
def membersOf (m : BitVec 1024) : List Nat := (List.range 1024).filter m.getLsbD

/-- A mask of members. -/
def maskOfMembers (ms : List Nat) : BitVec 1024 := ms.foldl (fun m k => m ||| BitVec.ofNat 1024 (2 ^ (k % 1024))) 0

/-- Sends a message to members other than this one. -/
def State.sendTo (s : State) (ms : List Nat) (x : MemberMsg) : State :=
  (ms.filter (· != s.self)).foldl (fun s m => s.send (.member m x)) s

/-- Whether the device belongs to no view (R402). -/
def State.excluded (s : State) : Bool := s.viewNo == 0

/-! ### Descriptors (R409, R410) -/

/-- Bytes of an element (R409, R412). -/
def CollDesc.unit (d : CollDesc) : Nat := if d.fmt = .none then 1 else elemBits d.fmt / 8

/-- Bytes of a chunk. -/
def CollDesc.chunk (d : CollDesc) : Nat := d.count * d.unit

/-- Whether the kind is a reduction, and whether it sums floats exactly. -/
def CollDesc.reduces (d : CollDesc) : Bool := d.kind == .allReduce || d.kind == .reduceScatter
def CollDesc.floats (d : CollDesc) : Bool := d.fmt == .f32 || d.fmt == .bf16 || d.fmt == .f16
def CollDesc.exact (d : CollDesc) : Bool := d.reduces && d.floats && d.op ≤ 1

/-- How many members mset names, and a member's mask rank. -/
def CollDesc.width (d : CollDesc) : Nat := (membersOf d.mset).length
def CollDesc.rank (d : CollDesc) (m : Nat) : Nat := ((membersOf d.mset).filter (· < m)).length

/-- Bytes of the source and destination buffers. -/
def CollDesc.srcLen (d : CollDesc) : Nat :=
  match d.kind with | .reduceScatter | .allToAll => d.width * d.chunk | _ => d.chunk
def CollDesc.dstLen (d : CollDesc) : Nat :=
  match d.kind with | .allGather | .allToAll => d.width * d.chunk | _ => d.chunk

/-- What this member sends to member j: a run of its source, or nothing. -/
def CollDesc.part (d : CollDesc) (self j : Nat) : Option Bytes :=
  match d.kind with
  | .reduceScatter | .allToAll => some (d.src + d.rank j * d.chunk, d.chunk)
  | .broadcast => if self = d.root then some (d.src, d.chunk) else none
  | _ => some (d.src, d.chunk)

/-- A descriptor's bytes and its instruction's fields (R409, R412). -/
def collDesc (kind : CollKind) (f : Fmt) (uns : Bool) (bs : List Byte) : CollDesc where
  kind := kind
  fmt := f
  uns := uns
  op := fieldAt bs 0 1
  mode := fieldAt bs 1 1
  anchor := intAt bs 2 2
  comm := fieldAt bs 4 2
  root := fieldAt bs 6 2
  count := fieldAt bs 8 8
  src := fieldAt bs 0x10 8
  dst := fieldAt bs 0x18 8
  msetAt := fieldAt bs 0x20 8
  mset := 0
  stamp := fieldAt bs 0x28 8
  record := fieldAt bs 0x38 8

/-- Whether a run of bytes lies in one window. -/
def inOneWindow (a len : Nat) : Bool := match placeAccess a len with | .ok _ => true | .error _ => false

/-- The content checks that need no reading (R413, R409). -/
def CollDesc.contentBad (d : CollDesc) (bs : List Byte) : Bool :=
  (if d.reduces then decide (3 < d.op) else d.op != 0) || decide (1 < d.mode)
    || (if d.exact then decide (d.anchor < -160) || decide (127 < d.anchor) else d.anchor != 0)
    || (if d.kind == .broadcast then decide (1023 < d.root) else d.root != 0)
    || d.count == 0 || decide (2 ^ 32 / d.unit < d.count) || fieldAt bs 0x34 4 != 0
    || fieldAt bs 0x20 8 % 8 != 0 || !inOneWindow (fieldAt bs 0x20 8) 128
    || d.stamp % 8 != 0 || !inOneWindow d.stamp 8 || (d.record != 0 && (d.record % 8 != 0 || !inOneWindow d.record 8))

/-- Whether a member reads its source: in a broadcast only the root does (R410). -/
def CollDesc.sends (d : CollDesc) (self : Nat) : Bool := d.kind != .broadcast || self == d.root

/-- The content checks that need mset. -/
def CollDesc.membersBad (d : CollDesc) (domain : BitVec 1024) (self : Nat) : Bool :=
  d.mset &&& ~~~domain != 0 || !d.mset.getLsbD self || (d.sends self && !inOneWindow d.src d.srcLen) || !inOneWindow d.dst d.dstLen

/-- The digest of an instance's descriptor (R414, log entry 26). -/
def CollDesc.digest (d : CollDesc) : List Byte :=
  (sha384 (leBytes 1 (match d.kind with | .allReduce => 0 | .reduceScatter => 1 | .allGather => 2 | .broadcast => 3 | .allToAll => 4)
    ++ leBytes 1 d.fmt.code ++ leBytes 1 d.uns.toNat ++ leBytes 1 d.op ++ leBytes 1 d.mode ++ leBytes 2 (BitVec.ofInt 16 d.anchor).toNat
    ++ leBytes 8 d.count ++ leBytes 2 d.root ++ leBytes 128 d.mset.toNat)).take 16

/-! ### Elements and partial sums (R411, log entry 26) -/

/-- An element of a partial sum: an exact value or a code, with bits 0 inexact, 1 overflow, 2 invalid, 3 poison. -/
structure CollElem where
  v  : Int
  fl : Nat
deriving DecidableEq, Repr

/-- An element as the sum takes it: floor(x · 2^-anchor) for exact sums, an integer as sub[3] reads it, else its code. -/
def CollDesc.term (d : CollDesc) (code : Nat) (poison : Bool) : CollElem :=
  if poison then ⟨0, 8⟩
  else if d.exact then
    match (fspec d.fmt).decode code with
    | .fin neg m e =>
      let n := scaleDown m (e - d.anchor)
      ⟨if neg then -(n.1 : Int) - (if n.2 then 0 else 1) else n.1, if n.2 then 0 else 1⟩
    | _ => ⟨0, 4⟩
  else if d.reduces && !d.floats && !d.uns then ⟨(BitVec.ofNat (8 * d.unit) code).toInt, 0⟩
  else ⟨code, 0⟩

/-- Two elements joined. -/
def CollDesc.join (d : CollDesc) (x y : CollElem) : CollElem :=
  let fl := x.fl ||| y.fl
  if d.op ≤ 1 then ⟨x.v + y.v, fl⟩
  else if d.floats then ⟨((fspec d.fmt).pick (d.op == 3) false x.v.toNat y.v.toNat).1, fl⟩
  else if (d.op == 3) == decide (x.v < y.v) then ⟨y.v, fl⟩ else ⟨x.v, fl⟩

/-- The result of an element over s members: its code, its flags. -/
def CollDesc.finish (d : CollDesc) (s : Nat) (x : CollElem) : Nat × Nat :=
  let bits := 8 * d.unit
  if !d.reduces || 2 ≤ d.op then ((BitVec.ofInt bits x.v).toNat, x.fl)
  else if d.exact then
    if x.fl.testBit 2 then ((fspec d.fmt).nanCode, 4 ||| (x.fl &&& 8))
    else
      let i := (BitVec.ofInt 128 x.v).toInt
      let fl := x.fl ||| (if i = x.v then 0 else 2)
      let r : Real' := if i = 0 then .zero false else .val (i < 0) (.rat i.natAbs (if d.op = 1 then s else 1) d.anchor)
      (((fspec d.fmt).round rneOf r).1, fl)
  else ((BitVec.ofInt bits (if d.op = 1 then x.v / s else x.v)).toNat, x.fl)

/-- Elements in a message, 65 bytes each, and back. -/
def elemBytes (x : CollElem) : List Byte := leBytes 64 (BitVec.ofInt 512 x.v).toNat ++ leBytes 1 x.fl
def elemsOf (n : Nat) (bs : List Byte) : List CollElem := (List.range n).map fun i => ⟨intAt bs (65 * i) 64, fieldAt bs (65 * i + 64) 1⟩

/-! ### The engine's accesses (R408) -/

/-- How an access of the engine ends that does not go on. -/
inductive EngineStop where
  | wait | refused
deriving DecidableEq, Repr

/-- Whether the issuing context runs on its partition. -/
def State.running (s : State) (h : CollHere) : Bool :=
  (s.parts.get? h.part).any fun p => p.ck.owner == h.owner && (p.ctx.state == 1 || p.ctx.state == 2)

/-- One sector piece: a unified address under the context's PASID, a window address while its slices are mapped. -/
def State.enginePiece (s : State) (h : CollHere) (rd wr : Bool) (b : Bytes) : Except EngineStop Piece :=
  let use (r : Except Refused Placed) : Except EngineStop Piece := match r with
    | .ok p => if (rd && !p.r) || (wr && !p.w) then .error .refused else .ok p.piece
    | .error _ => .error .refused
  if windowOf b.1 = .unified then use (s.placePasid h.pasid b.1 b.2 b.1)
  else if s.running h then use (s.placePiece ⟨h.part, h.home⟩ b.1 b.2) else .error .wait

/-- Every piece of a run of bytes. An access waits that is held at its home (R486), that reads a line a barge owns (R333) or bytes on their
way to a peer, or that finds a peer's window full (R435). -/
def State.enginePieces (s : State) (h : CollHere) (rd wr : Bool) (b : Bytes) : Except EngineStop (List Piece) := do
  let ps ← (sectors b.1 b.2).mapM (s.enginePiece h rd wr)
  if s.heldFrom (some h.part) ps || (rd && (ps.any s.lineOwned || s.onItsWay ps)) || (wr && ps.any fun p => p.peer.any fun m => !s.windowOpen m)
  then .error .wait else return ps

/-- Whether what the engine reads for an instance is poisoned: in its sector, or as it comes from behind a host port (R301, R444). -/
def State.enginePoison (s : State) (key : Nat) (p : Piece) : Bool :=
  s.poisoned p || (p.host.isSome && (s.portFault (.collective (key / 2 ^ 48) (key % 2 ^ 48) p.va)).isSome)

/-- The elements of a run of bytes. -/
def State.engineElems (s : State) (key : Nat) (h : CollHere) (b : Bytes) : Except EngineStop (List CollElem) := do
  let ps ← s.enginePieces h true false b
  let bs := s.readPieces ps
  let bad := ps.flatMap fun p => List.replicate p.len (s.enginePoison key p)
  let n := h.desc.unit
  return (List.range (b.2 / n)).map fun i =>
    h.desc.term (fieldAt bs (n * i) n) ((List.range n).any fun j => nth bad (n * i + j) false)

/-- Writes bytes for an instance, tracked as its block's writes are. -/
def State.engineWrite (s : State) (h : CollHere) (ps : List Piece) (bs : List Byte) : State :=
  let s := if s.running h then ps.foldl (fun s p => s.logLine h.part h.cls p) s else s
  s.writeOrSend .collective 512 h.bid h.lid h.part h.seq h.mask (cutBytes ps bs)

/-! ### Instances -/

/-- The key of an instance. -/
def collKey (comm k : Nat) : Nat := comm * 2 ^ 48 + k

/-- Its members of P, its lowest one. -/
def CollHere.members (h : CollHere) : List Nat := membersOf h.parties
def CollHere.lowest (h : CollHere) : Nat := h.members.headD 0

/-- An instance of which nothing is known but messages. -/
def Coll.blank : Coll := ⟨none, .gathering, 1, [], [], false, 0⟩

def State.setColl (s : State) (key : Nat) (x : Coll) : State := { s with colls := s.colls.put key x }

/-- An instance ends with a status, which its stamp will give; ABORT goes to the others where the end is this member's. -/
def State.endColl (s : State) (key : Nat) (x : Coll) (status : Nat) (tell : Bool) : State :=
  let s := s.setColl key { x with state := .ending status }
  match x.here with
  | some h => if tell then s.sendTo h.members (.abort (key / 2 ^ 48) (key % 2 ^ 48) s.viewNo) else s
  | none => s

/-- An access of an instance did not go on: it waits, or the instance ends with 0x0308. -/
def State.stopColl (s : State) (key : Nat) (x : Coll) (e : EngineStop) : State :=
  match e with | .wait => s | .refused => s.endColl key x 0x0308 true

/-- Whether an instance has not committed and not ended. -/
def Coll.open' (x : Coll) : Bool := x.state == .gathering || x.state == .ready

/-! ### Changing a block or warp wherever it stands (R426) -/

/-- A block of a running, returning or saved context. -/
def State.editBlock (s : State) (bid : Nat) (f : Block → Block) : State :=
  let sb (b : SavedBlock) : SavedBlock := if b.id = bid then { b with block := f b.block } else b
  let img (x : Nat × CtxImage) : Nat × CtxImage := (x.1, { x.2 with blocks := x.2.blocks.map sb })
  { s.setBlock bid f with
    parts := s.parts.map fun p => (p.1, { p.2 with returning := p.2.returning.map sb })
    images := s.images.map img, cellars := s.cellars.map img }

/-- A warp of one. -/
def State.editWarp (s : State) (bid index : Nat) (f : Warp → Warp) : State :=
  let sb (b : SavedBlock) : SavedBlock := if b.id = bid then { b with warps := b.warps.adjust index f } else b
  let img (x : Nat × CtxImage) : Nat × CtxImage := (x.1, { x.2 with blocks := x.2.blocks.map sb })
  { s with
    warps := s.warps.map fun x => if x.2.block = bid ∧ x.2.index = index then (x.1, f x.2) else x
    parts := s.parts.map fun p => (p.1, { p.2 with returning := p.2.returning.map sb })
    images := s.images.map img, cellars := s.cellars.map img }

/-! ### The membership-change trap and `cwait` (R418, R421) -/

/-- The trap of R418. -/
def memberData (t : Nat × Nat) : Word := BitVec.ofNat 64 (min t.1 65535 * 2 ^ 32 + t.2)

/-- A trap that stands pending for a warp and is taken at its next `coll` or `cwait`: a membership change (R418), a replay divergence
(R428). -/
def Warp.collDue (w : Warp) (lanes : LaneMask) : Option Trap :=
  match w.memberTrap, w.collTrap with
  | some t, _ => some ⟨0x40, 0, memberData t, lanes⟩
  | none, some i => some ⟨0x60, 0, BitVec.ofNat 64 i, lanes⟩
  | none, none => none

/-- It is taken: the first of the two stands no longer. -/
def Warp.collTold (w : Warp) : Warp := if w.memberTrap.isSome then { w with memberTrap := none } else { w with collTrap := none }

/-- A pending trap is taken by the issuing path. -/
def State.tellColl (s : State) (c : Ctx) (t : Trap) : State :=
  (s.setWarp c.wid c.w.collTold).takeTrap c.wid c.pidx t (unitOf c.p c.pre)

/-- The value a wait on collective q finds at once: that of its stamp, or all ones where there is nothing to wait for (R421). -/
def Block.collFound (b : Block) (q : Nat) : Option Word :=
  if q = 0 || b.collSeq < q || q + 64 ≤ b.collSeq then some (BitVec.allOnes 64) else b.collStamps.get? q

/-- The destination of `cwait` and of others that give a scalar or nothing. -/
def scalarOrNone (w : Warp) (d : Dst) (x : Option Word) : Warp × Place := if d.cls = .scalar then scalarResult w d x else (w, .none)

/-- A `cwait`'s outcome and value: that of a collective's end is an acquire where its order has one (R417, R421). -/
def cwaitResult (s : State) (c : Ctx) (r : CollWait) (met : Bool) (v : Word) : State × Warp × Place :=
  let s := recordWait s c r.deadline.isSome r.entry met
  (if met && isAcquire r.ord then s.acquireAt (coreOf c.wid) r.mask else s, scalarOrNone c.w r.d (some (if met then v else 0)))

/-- `cwait` (R421). -/
def execCwait (g : Guard) (d : Dst) (q t : Src) (e : MExt) (s : State) : Answer :=
  s.run fun c => do
    checkLatch c g .sca q
    checkLatch c g .sca t
    if !c.once g then
      let r := scalarOrNone c.w d none
      return s.complete c r.1 r.2
    let lanes := c.real g
    match c.w.collDue lanes with
    | some t => return s.tellColl c t
    | none =>
      let n := (readSca c.w c.p q).toNat
      let found := c.blk.collFound n
      if found = some (BitVec.allOnes 64) then
        let r := scalarOrNone c.w d found
        return s.complete c r.1 r.2
      let deadline := deadlineOf s.cycle (readSca c.w c.p t)
      let (reserve, entry) ← admitWait s c lanes deadline.isSome
      let met := forcedBy entry != some false && found.isSome
      let r : CollWait := ⟨n, d, c.act g, entry, e.ord, e.mask, deadline⟩
      if met || (deadline == some s.cycle && forcedBy entry != some true) then
        if !met && c.la.det == 3 then raise 0x62 0 lanes
        let out := cwaitResult s c r met (found.getD 0)
        return out.1.complete c out.2.1 out.2.2
      else return s.awaits c c.w (.parked .monitor) (.cwait r) reserve

/-- A `cwait` ends with an outcome and a value. -/
def endCwait (s : State) (c : Ctx) (r : CollWait) (met : Bool) (v : Word) : State :=
  let out := cwaitResult s c r met v
  out.1.answered c out.2.1 out.2.2

/-- A `cwait`'s limit passes (R421). -/
def execCwaitTimeout (warp path : Nat) (s : State) : Answer :=
  match s.awaiting warp path with
  | some (c, .cwait r) =>
    match r.deadline with
    | some t =>
      if s.cycle < t ∨ forcedBy r.entry = some true then .next s
      else if c.la.det = 3 then .next (s.answeredTrap c ⟨0x62, 0, 0, r.acting &&& c.w.present⟩)
      else .next (endCwait s c r false 0)
    | none => .next s
  | _ => .next s

/-- A path parked in `cwait` meets what has ended: its warp's pending trap first, else its own collective. -/
def State.checkCwait (s : State) (wid pidx : Nat) : State :=
  match s.awaiting wid pidx with
  | some (c, .cwait r) =>
    match c.w.collDue (r.acting &&& c.w.present) with
    | some t =>
      let w := c.w.collTold
      (s.setWarp wid w).answeredTrap { c with w := w } t
    | none =>
      match c.blk.collFound r.q with
      | some v => if forcedBy r.entry = some false then s else endCwait s c r true v
      | none => s
  | _ => s

/-- Every parked `cwait` of a block is met. -/
def State.checkCwaits (s : State) (bid : Nat) : State :=
  (s.liveWarps bid).foldl (fun s w => (List.range 16).foldl (fun s i => s.checkCwait w.1 i) s) s

/-! ### The life of an instance (R415 to R417, R428) -/

/-- The contributors whose parts are held. -/
def Coll.heard (x : Coll) : List Nat := x.parts.flatMap (·.1)

/-- This member's parts are read and sent to every participant; its own is kept. -/
def State.collRound (s : State) (key : Nat) (x : Coll) (h : CollHere) : State :=
  let d := h.desc
  let one (j : Nat) : Except EngineStop (Nat × List Byte) := do
    match d.part s.self j with
    | none => return (j, d.digest)
    | some b =>
      let es ← s.engineElems key h b
      return (j, d.digest ++ es.flatMap elemBytes)
  match h.members.mapM one with
  | .error e => s.stopColl key x e
  | .ok parts =>
    let s := parts.foldl (fun s p => s.sendTo [p.1] (.partialSum (key / 2 ^ 48) (key % 2 ^ 48) s.viewNo x.attempt [s.self] p.2)) s
    let mine := ((parts.find? fun p => p.1 == s.self).map (·.2)).getD []
    s.setColl key { x with parts := x.parts ++ [([s.self], mine)] }

/-- Every participant's part is held: READY goes to the lowest; digests that differ end the instance (R414, R415). -/
def State.collFull (s : State) (key : Nat) (x : Coll) (h : CollHere) : State :=
  if x.parts.any fun p => p.2.take 16 != h.desc.digest then s.endColl key x 0x0305 false
  else
    let s := s.setColl key { x with state := .ready, readys := if s.self = h.lowest then s.self :: x.readys else x.readys }
    s.sendTo [h.lowest] (.ready (key / 2 ^ 48) (key % 2 ^ 48) s.viewNo)

/-- A collective that commits in the open interval leaves its context dependent on every other participant's of its group (R485). -/
def State.dependAll (s : State) (part : Nat) : State := s.setCk part fun c => { c with remoteDep := c.remoteDep || c.group != 0 }

/-- An instance commits. -/
def State.commitColl (s : State) (key : Nat) (x : Coll) (h : CollHere) : State :=
  (if s.running h then s.dependAll h.part else s).setColl key { x with state := .committed, view := s.viewNo }

/-- Whether the leader's held rejoin requests let an instance commit: it was outstanding when each arrived (R424). -/
def State.joinsAllow (s : State) (key : Nat) : Bool := s.joins.all fun j => j.2.contains key

/-- The lowest participant holds READY from every other: COMMIT. -/
def State.collReady (s : State) (key : Nat) (x : Coll) (h : CollHere) : State :=
  if s.self == h.lowest && h.members.all x.readys.contains && s.joinsAllow key then
    (s.commitColl key x h).sendTo h.members (.collCommit (key / 2 ^ 48) (key % 2 ^ 48) s.viewNo)
  else s

/-- The full result: the runs to be written, each with its elements' codes and flags. -/
def Coll.result (x : Coll) (h : CollHere) : List (Nat × List (Nat × Nat)) :=
  let d := h.desc
  let elems (p : List Nat × List Byte) : List CollElem := elemsOf ((p.2.length - 16) / 65) (p.2.drop 16)
  if d.reduces then
    match x.parts.map elems with
    | [] => []
    | p :: r => [(d.dst, (r.foldl (fun a b => List.zipWith d.join a b) p).map (d.finish h.members.length))]
  else
    let whole (p : List Nat × List Byte) : List (Nat × Nat) := (elems p).map (d.finish 1)
    match d.kind with
    | .broadcast => (x.parts.filter fun p => p.1 == [d.root]).map fun p => (d.dst, whole p)
    | _ => x.parts.map fun p => (d.dst + d.rank (p.1.headD 0) * d.chunk, whole p)

/-- The sectors of a run that poisoned elements land in (R301). -/
def poisonedSectors (unit : Nat) (ps : List Piece) (es : List (Nat × Nat)) : List Piece :=
  let bytes := ps.flatMap fun p => List.replicate p.len p
  es.zipIdx.flatMap fun e => if e.1.2.testBit 3 then (List.range unit).filterMap fun j => bytes[unit * e.2 + j]? else []

/-- The destination and the record are written; a poisoned element poisons its sector. -/
def State.collWrite (s : State) (key : Nat) (x : Coll) (h : CollHere) : State :=
  let d := h.desc
  let out := x.result h
  let fl := (out.flatMap fun r => r.2.map (·.2)).foldl (· ||| ·) 0
  let plan : Except EngineStop (List (List Piece) × List Piece) := do
    let ws ← out.mapM fun r => s.enginePieces h false true (r.1, r.2.length * d.unit)
    let rc ← if d.record = 0 then .ok [] else s.enginePieces h false true (d.record, 8)
    return (ws, rc)
  match plan with
  | .error e => s.stopColl key x e
  | .ok (ws, rc) =>
    let s := (out.zip ws).foldl (fun s r =>
      let s := s.engineWrite h r.2 (r.1.2.flatMap fun e => leBytes d.unit e.1)
      (poisonedSectors d.unit r.2 r.1.2).foldl State.poisonPiece s) s
    let s := if rc.isEmpty then s else s.engineWrite h rc (leBytes 8 ((fl &&& 7) * 2 ^ 32 + x.view))
    s.setColl key { x with state := .ending (if x.again then 0x0302 else if fl.testBit 3 then 0x0003 else 0) }

/-- Whether an ended instance is one whose warp takes the membership-change trap (R415, R418). -/
def trapsMember (status mode : Nat) : Bool := status == 0x0301 || (status == 0x0306 && mode == 0)

/-- Whether the release of an instance's stamp may be performed: with bit 5 of its mask, once the peers it wrote to have acknowledged its
payload, and what the release follows (R357, R417). -/
def State.collReleasable (s : State) (h : CollHere) : Bool :=
  let mask := h.mask ||| 0x08
  (!mask.getLsbD 5 || !(s.unacked.any fun t => t.copy == some h.seq && t.block == h.bid && t.warp == 64 * 512))
    && s.peersDone .collective mask

/-- The stamp is written as a release to mask | 0x08, and the block and warp are told. -/
def State.collStamped (s : State) (key : Nat) (h : CollHere) (status : Nat) : State :=
  let stamp := status * 2 ^ 48 + h.seq
  let origin : Agent := (s.blocks.get? h.bid).elim .collective fun b => .lane b.core
  let s := s.publish .collective (h.mask ||| 0x08) origin
  let s := match s.enginePieces h false true (h.desc.stamp, 8) with
    | .ok ps => s.engineWrite h ps (leBytes 8 stamp)
    | .error _ => s
  let s : State := { s with colls := s.colls.del key }
  let s := s.editBlock h.bid fun b =>
    { b with collOpen := b.collOpen - 1
             collStamps := NMap.put (b.collStamps.filter fun x => b.collSeq < x.1 + 64) h.seq (BitVec.ofNat 64 stamp) }
  let view := s.viewNo
  let s := if trapsMember status h.desc.mode then
      s.editWarp h.bid h.warp fun w => { w with memberTrap := some ((w.memberTrap.elim 0 (·.1)) + 1, view) }
    else s
  (s.checkCwaits h.bid).wake .collQueue

/-- The end of an instance is logged, or held against the log (R428, R524 COLL). -/
def State.collLogged (s : State) (key : Nat) (x : Coll) (h : CollHere) (status : Nat) : Option State :=
  let value := status * 2 ^ 24 + x.view % 2 ^ 24
  match h.det with
  | 1 =>
    if s.running h && (s.launches.get? h.lid).isSome && s.logRoom h.part 1 then
      some (s.logChoice h.part h.lid h.bid true 10 none h.warp h.linear (h.seq % 2 ^ 24) value)
    else none
  | 2 =>
    if !s.running h then none else
    let diverge (s : State) (i : Nat) : State := s.editWarp h.bid h.warp fun w => { w with collTrap := w.collTrap.or (some i) }
    match s.replayHead h.part h.lid fun e => e.kind == 10 && e.block == h.linear && e.warp == h.warp && e.key == h.seq % 2 ^ 24 with
    | some e => let s := s.consume h.part h.bid e; some (if e.value = value then s else diverge s e.index)
    | none => if s.replayDry h.part then some (diverge s (s.soughtAt h.part)) else none
  | _ => (some s).map fun s => s.setColl key x

/-- Reads mset for the engine. -/
def State.readMset (s : State) (key : Nat) (h : CollHere) : Except EngineStop (BitVec 1024) := do
  let ps ← s.enginePieces h true false (h.desc.msetAt, 128)
  if ps.any (s.enginePoison key) then .error .refused else return BitVec.ofNat 1024 (leNat (s.readPieces ps))

/-- The engine reads the member set of an instance, as soon as it may, and checks what depends on it; then P is formed (R410, R413). -/
def State.takeUp (s : State) (key : Nat) (x : Coll) (h : CollHere) : State :=
  let early (h : CollHere) (status : Nat) : State := s.setColl key { x with here := some h, state := .ending status }
  match s.readMset key h with
  | .error .wait => s.setColl key x
  | .error .refused => s.endColl key x 0x0308 true
  | .ok m =>
    let h := { h with desc := { h.desc with mset := m }, parties := m &&& s.manifest }
    if h.desc.membersBad s.domain s.self then early h 0x0304
    else match x.state with
      | .ending st => early h st
      | _ => if h.desc.kind == .broadcast && !h.parties.getLsbD h.desc.root then early h 0x0303
        else s.setColl key { x with here := some h }

/-- The next thing the engine does for an instance. While an agreement runs it starts no new round (R405). -/
def State.stepColl (s : State) (key : Nat) (x : Coll) : State :=
  match x.here with
  | none => s
  | some h =>
    match x.state with
    | .gathering =>
      if h.desc.mset = 0 then s.takeUp key x h
      else if s.agreement.isSome then s
      else if !x.heard.contains s.self then s.collRound key x h
      else if h.members.all x.heard.contains then s.collFull key x h
      else s
    | .ready => if s.agreement.isSome then s else s.collReady key x h
    | .committed => s.collWrite key x h
    | .ending status =>
      if !s.collReleasable h then s else
      match s.enginePieces h false true (h.desc.stamp, 8), s.collLogged key x h status with
      | .error .wait, _ => s
      | _, none => s
      | _, some t => t.collStamped key h status

/-! ### Messages (R407, R414 to R416) -/

/-- A message tagged with another view is discarded and counted on the port it came through (R407, R441). -/
def State.discardMessage (s : State) (sender : Nat) : State :=
  { s with ports := s.ports.adjust (s.portTo sender) fun p => { p with discards := satAdd 32 p.discards 1 } }

/-- An instance a message names: one that stands, or one this device has not accepted yet. -/
def State.collNamed (s : State) (comm k : Nat) : Option Coll :=
  match s.colls.get? (collKey comm k) with
  | some x => some x
  | none => if s.comms.getD comm 0 < k then some Coll.blank else none

/-- The device a COMMIT or ABORT of an instance is taken to come from: the lowest participant, where the instance is known here. -/
def State.collSender (s : State) (comm k : Nat) : Nat := ((s.colls.get? (collKey comm k)).bind (·.here)).elim 0 CollHere.lowest

/-- A partial sum is kept, unless R416 discards it or its contributors are heard already; one of a later attempt begins that attempt
here. -/
def execPartialSum (comm k view attempt : Nat) (contributors : List Nat) (data : List Byte) (s : State) : Answer :=
  if view ≠ s.viewNo || s.excluded then .next (s.discardMessage (contributors.headD 0)) else
  match s.collNamed comm k with
  | none => .next s
  | some x =>
    let far (m : Nat) : Bool := !s.manifest.getLsbD m
    if !x.open' || attempt < x.attempt || contributors.isEmpty || contributors.any far
      || (contributors.length != 1 && (match x.here with | some h => !h.desc.reduces | none => false)) then .next s
    else
      let x := if x.attempt < attempt then { x with state := .gathering, attempt := attempt, parts := [], readys := [] } else x
      if contributors.any x.heard.contains then .next s
      else .next (s.setColl (collKey comm k) { x with parts := x.parts ++ [(contributors, data)] })

/-- READY reaches the lowest participant. -/
def execReady (comm k sender view : Nat) (s : State) : Answer :=
  if view ≠ s.viewNo || s.excluded then .next (s.discardMessage sender) else
  match s.collNamed comm k with
  | none => .next s
  | some x => if !x.open' || x.readys.contains sender then .next s
    else .next (s.setColl (collKey comm k) { x with readys := sender :: x.readys })

/-- COMMIT: the instance's full result will be written. -/
def execCollCommit (comm k view : Nat) (s : State) : Answer :=
  if view ≠ s.viewNo || s.excluded then .next (s.discardMessage (s.collSender comm k)) else
  match s.colls.get? (collKey comm k) with
  | none => .next s
  | some x =>
    match x.here with
    | some h => if x.state = .ready then .next (s.commitColl (collKey comm k) x h) else .next s
    | none => .next s

/-- ABORT: the instance ends with 0x0307. -/
def execAbort (comm k view : Nat) (s : State) : Answer :=
  if view ≠ s.viewNo || s.excluded then .next (s.discardMessage (s.collSender comm k)) else
  match s.collNamed comm k with
  | none => .next s
  | some x =>
    if x.open' then .next (s.endColl (collKey comm k) { x with view := view } 0x0307 false)
    else .next s

/-! ### `coll` and `cabort` (R413, R425) -/

/-- The engine takes an accepted collective up: its content is checked, an instance of another member's messages is joined. -/
def State.beginColl (s : State) (h : CollHere) (bs : List Byte) (k : Nat) : State :=
  let key := collKey h.desc.comm k
  let x := { s.colls.getD key Coll.blank with here := some h, view := s.viewNo }
  if h.desc.contentBad bs then s.setColl key { x with state := .ending 0x0304 } else s.takeUp key x h

/-- `coll` (R413). -/
def execColl (kind : CollKind) (uns : Bool) (g : Guard) (f : Fmt) (d : Dst) (a : Nat) (e : MExt) (s : State) : Answer :=
  s.run fun c => do
    if !c.once g then
      let r := scalarOrNone c.w d none
      return s.complete c r.1 r.2
    let lanes := c.real g
    let ar := c.w.areg a
    let xs := onceAim c g ar e.off
    checkAligned 64 3 (some lanes) xs
    checkRights ar true false (some lanes) xs
    let ys ← checkRange s c.env ar true false 64 (some lanes) xs
    watch s c true false (some lanes) ys
    waitLines s ys
    let pieces := ys.flatMap (·.2.2)
    if !s.mayRead c.wid lanes pieces then .error (.park .fence)
    let view := s.seenBy c.wid lanes e.mask
    match view.poisonOf pieces with
    | some sub => raise 0x51 sub lanes (BitVec.ofNat 64 ((ys.head?.map (·.2.1)).getD 0))
    | none => pure ()
    let bs := view.readPieces pieces
    if s.excluded then raise 0x40 2 lanes
    let pt := (s.parts.get? c.env.part).getD (Partition.reset 0)
    if pt.unack then raise 0x41 1 lanes (BitVec.ofNat 64 s.viewNo)
    if fieldAt bs 0x30 4 ≠ 0 ∧ fieldAt bs 0x30 4 ≠ s.viewNo then raise 0x41 0 lanes (BitVec.ofNat 64 s.viewNo)
    match c.w.collDue lanes with
    | some t => return s.tellColl c t
    | none =>
      if 32 ≤ c.blk.collOpen || 512 ≤ (s.colls.filter fun x => x.2.here.isSome && x.2.open').length then .error (.park .collQueue)
      if !s.releasable c.wid lanes (e.mask ||| 0x08) then .error (.park .fence)
      let s := s.publish (.lane (coreOf c.wid)) (e.mask ||| 0x08)
      let desc := collDesc kind f uns bs
      let seq := (c.blk.collSeq + 1) % 2 ^ 48
      let k := s.comms.getD desc.comm 0 + 1
      let h : CollHere :=
        { desc := desc, lid := c.lid, bid := c.bid, linear := c.blk.linear, warp := c.w.index
          key := choiceKey (c.la.word 1) c.p.pc, seq := seq, mask := e.mask, part := c.env.part, home := c.env.home
          pasid := pt.pasid, owner := pt.ck.owner, cls := c.la.cls, det := c.la.det, parties := 0 }
      let s := ((s.translated c.env (ys.map (·.2.1))).noteReads c.env.part pieces).setBlock c.bid fun b => { b with collSeq := seq, collOpen := b.collOpen + 1, wroteOut := true }
      let s := { s with comms := s.comms.put desc.comm k }.beginColl h bs k
      let w := c.w.setAreg a (s.cachedRun c.env.part ar ys)
      let r := scalarOrNone w d (some (BitVec.ofNat 64 seq))
      return s.complete c r.1 r.2

/-- `cabort` (R425). -/
def execCabort (g : Guard) (q : Src) (s : State) : Answer :=
  s.run fun c => do
    checkLatch c g .sca q
    if !c.once g then return s.skip c
    if c.la.det = 3 then raise 0x62 0 (c.real g)
    let n := (readSca c.w c.p q).toNat
    let mine (x : Coll) : Bool := x.open' && (match x.here with | some h => h.bid == c.bid && (n == 0 || h.seq == n) | none => false)
    let s := (s.colls.filter fun x => mine x.2).foldl (fun s x => s.endColl x.1 { x.2 with view := s.viewNo } 0x0001 true) s
    return s.skip c

end Sys2Proof.Machine
end

