-- ==== Sys2Proof/Machine/View.lean ====
section
/-! DEFINITION. Views (spec/19 R400 to R407): what begins a change, the agreement, what a new view and exclusion do here, the rejoin
handshake (R424); the stamp of a collective (R417); the instructions `viewq`, `viewack` and `viewjoin` (R422 to R424). -/
namespace Sys2Proof.Machine

/-- 20 µs (R403, R405) and 2 µs (R403) in cycles. -/
def silence : Nat := 25000
def beatPeriod : Nat := 2500

/-- The view number after one, and before one (R401). -/
def viewAfter (v : Nat) : Nat := if v = 0xFFFFFFFF then 1 else v + 1
def viewBefore (v : Nat) : Nat := if v = 1 then 0xFFFFFFFF else v - 1

/-! ### Proposals (R405, R406) -/

/-- A member that an agreement leaves out: this one suspects it, or a message names it. -/
def Agreement.out (a : Agreement) (m : Nat) : Bool := a.suspects.contains m || a.named.contains m

/-- The leader by this member's knowledge (R405 step 2). -/
def State.leaderOf (s : State) (a : Agreement) : Option Nat := (membersOf s.manifest).find? fun m => !a.out m

/-- The manifest this member would propose. -/
def State.proposalOf (s : State) (a : Agreement) : BitVec 1024 :=
  maskOfMembers (((membersOf s.manifest).filter fun m => !a.out m) ++ a.adding.toList)

/-- Whether a proposed manifest is legal (R406). -/
def State.legalManifest (s : State) (m : BitVec 1024) : Bool :=
  let old := membersOf s.manifest
  let kept := (old.filter m.getLsbD).length
  decide (old.length < 2 * kept) || (2 * kept == old.length && old.head?.any m.getLsbD)

/-- The collectives held in state Committed: those whose stamp has not been written (R405 step 3, R415). -/
def State.committedList (s : State) : List (Nat × Nat) :=
  (s.colls.filter fun x => match x.2.state with
    | .committed => true
    | .ending st => st == 0 || st == 3 || st == 0x0302
    | _ => false).map fun x => (x.1 / 2 ^ 48, x.1 % 2 ^ 48)

/-! ### What a change of view does here (R312, R402, R415, R423) -/

/-- Every context of the device, running, parked or saved, has a view it has not acknowledged, or has acknowledged it. -/
def State.markUnack (s : State) : State :=
  let img (x : Nat × CtxImage) : Nat × CtxImage := (x.1, { x.2 with part := { x.2.part with unack := true } })
  { s with
    parts := s.parts.map fun p => (p.1, { p.2 with unack := true })
    images := s.images.map img, cellars := s.cellars.map img, marks := s.marks.map img }

/-- Every path parked in `viewjoin` goes on with a value; on success its context starts with the new view acknowledged (R424). -/
def State.endJoins (s : State) (v : Word) (acknowledged : Bool) : State :=
  s.warps.foldl (fun s w => (List.range 16).foldl (fun s i =>
    match s.awaiting w.1 i with
    | some (c, .viewjoin r) =>
      let s := if acknowledged then s.setPart c.env.part fun p => { p with unack := false } else s
      let out := scalarResult c.w r.d (some v)
      s.answered c out.1 out.2
    | _ => s) s) s

/-- One instance under a new view: the rows of R415's table. -/
def Coll.underView (x : Coll) (key : Nat) (old : Nat) (manifest : BitVec 1024) (committed : List (Nat × Nat)) : Coll :=
  if !x.open' then x else
  match x.here with
  | none => { x with parts := [], readys := [] }
  | some h =>
    let p := h.parties &&& manifest
    if committed.contains (key / 2 ^ 48, key % 2 ^ 48) then { x with state := .committed, view := old }
    else if h.desc.mode = 0 then { x with state := .ending 0x0301, view := viewAfter old }
    else if h.desc.kind == .broadcast && h.desc.mset != 0 && !p.getLsbD h.desc.root then { x with state := .ending 0x0303, view := viewAfter old }
    else
      { x with here := some { h with parties := p }, state := .gathering, attempt := x.attempt + 1, parts := [], readys := []
               again := true }

/-- A context whose stripe lost a member while it holds an interval that has not committed can no longer commit striped (R481). -/
def Ckpt.memberGone (c : Ckpt) : Ckpt :=
  if c.members ≠ 0 ∧ c.committed + 1 < c.current then { c with stripeFailed := true } else c

/-- The device is excluded (R402). -/
def State.exclude (s : State) : State :=
  let gone (m : Nat) : Bool := !otherDomain m
  let s := s.spoilCopies gone
  let s : State := { s with
    viewNo := 0, manifest := 0, agreement := none, joins := [], viewCtl := { s.viewCtl with toAdmit := false, toRemove := false }
    colls := s.colls.map fun (x : Nat × Coll) => if x.2.open' then (x.1, { x.2 with state := .ending 0x0306, view := 0 }) else x }
  (s.forgetPeers gone).dropTo gone

/-- Peers reached only through links that carry no memory traffic (R438, R442). -/
def State.countIsolated (s : State) : State :=
  let far := (s.ports.filter fun p => p.2.link.state != 3).map fun p => (p.2.peer, p.2.isolated || p.2.viewOnly)
  { s with isolatedPeers := ((far.map (·.1)).filter fun m => (far.filter fun x => x.1 == m).all (·.2)).eraseDups }

/-- The device adopts a view (R405, R412, R415, R423). -/
def State.adoptView (s : State) (view : Nat) (manifest : BitVec 1024) (committed : List (Nat × Nat)) : State :=
  let gone (m : Nat) : Bool := !otherDomain m && !manifest.getLsbD m
  let departed := !(membersOf (s.manifest &&& ~~~manifest)).isEmpty
  let old := s.viewNo
  let fresh := (s.colls.filter fun x => x.2.open' && committed.contains (x.1 / 2 ^ 48, x.1 % 2 ^ 48)).filterMap (·.2.here)
  let cycle := s.cycle
  let s := s.spoilCopies gone
  let s : State := { s with
    viewNo := view, manifest := manifest, agreement := none, viewCtl := { s.viewCtl with toAdmit := false, toRemove := false }
    joins := s.joins.filter fun j => !manifest.getLsbD j.1
    heard := (membersOf manifest).map fun m => (m, cycle)
    ports := s.ports.map fun (p : Nat × Port) => if manifest.getLsbD p.2.peer then (p.1, { p.2 with viewOnly := false }) else p
    colls := s.colls.map fun (x : Nat × Coll) => (x.1, x.2.underView x.1 old manifest committed)
    parts := if departed then s.parts.map fun (p : Nat × Partition) => (p.1, { p.2 with ck := p.2.ck.memberGone }) else s.parts }
  let s := fresh.foldl (fun (s : State) (h : CollHere) => if s.running h then s.dependAll h.part else s) s
  let s := ((s.countIsolated.markUnack.forgetPeers fun _ => true).dropTo gone)
  { s.endJoins (BitVec.ofNat 64 view) true with joining := false }

/-! ### The agreement (R405) -/

/-- The agreement has nothing left to change: it ends, and what was asked for has failed (R404). -/
def State.endAgreement (s : State) : State :=
  { s with agreement := none, viewCtl := { s.viewCtl with toAdmit := false, toRemove := false } }

/-- Every proposed member has accepted: COMMIT. -/
def State.commitView (s : State) (a : Agreement) (m : BitVec 1024) : State :=
  let v := viewAfter s.viewNo
  (s.sendTo (membersOf (s.manifest ||| m)) (.commit v m a.lists)).adoptView v m a.lists

/-- Step 2: the leader proposes, the others wait; with no legal proposal no view forms (R406). -/
def State.lead (s : State) (a : Agreement) : State :=
  if s.leaderOf a = some s.self then
    let m := s.proposalOf a
    if m = s.manifest then s.endAgreement
    else if !s.legalManifest m then s.exclude
    else
      let a := { a with proposed := some m, accepted := [s.self], lists := s.committedList, since := s.cycle }
      if membersOf m = [s.self] then s.commitView a m
      else { s with agreement := some a }.sendTo (membersOf m) (.propose (viewAfter s.viewNo) m)
  else if (s.leaderOf a).isNone then s.exclude
  else { s with agreement := some { a with proposed := none, accepted := [], lists := [], since := s.cycle } }

/-- Step 1: this member begins a change, or adds to one that runs. -/
def State.beginChange (s : State) (suspects : List Nat) (adding : Option Nat) : State :=
  let fresh := suspects.filter fun m => m != s.self && s.manifest.getLsbD m
  let a := s.agreement.getD ⟨[], [], none, none, [], [], s.cycle⟩
  let a' := { a with suspects := a.suspects ++ fresh.filter fun m => !a.suspects.contains m, adding := a.adding.or adding }
  if s.excluded || (s.agreement.isSome && a' == a) || (fresh.isEmpty && adding.isNone) then s
  else (s.sendTo ((membersOf s.manifest).filter fun m => !a'.suspects.contains m) (.suspect s.viewNo a'.suspects)).lead a'

/-- As leader, this member starts to admit a joiner once no collective that was outstanding when its request came is left (R424). -/
def State.startJoin (s : State) : State :=
  if s.agreement.isSome || s.excluded then s else
  match s.joins.find? fun j => !j.2.any fun k => (s.colls.get? k).any Coll.open' with
  | some j => s.beginChange [] (some j.1)
  | none => s

/-- SUSPECT arrives: its names count, and the leader is chosen again (R405 step 2). -/
def execSuspect (_sender view : Nat) (suspects : List Nat) (s : State) : Answer :=
  if s.excluded || view ≠ s.viewNo then .next s else
  match s.agreement with
  | none => .next (s.lead ⟨[], suspects.eraseDups, none, none, [], [], s.cycle⟩)
  | some a =>
    let fresh := suspects.eraseDups.filter fun m => !a.named.contains m
    if fresh.isEmpty then .next s else .next (s.lead { a with named := a.named ++ fresh })

/-- PROPOSE arrives: ACCEPT with the committed list, or REFUSE with the suspects (R405 step 3). -/
def execPropose (sender view : Nat) (manifest : BitVec 1024) (s : State) : Answer :=
  if !manifest.getLsbD s.self then .next s
  else if s.excluded then
    if s.joining then .next (s.send (.member sender (.accept (viewBefore view) []))) else .next s
  else if view ≠ viewAfter s.viewNo then .next s
  else
    let a := s.agreement.getD ⟨[], [], none, none, [], [], s.cycle⟩
    if a.suspects.any manifest.getLsbD || s.leaderOf a ≠ some sender then
      .next ({ s with agreement := some a }.send (.member sender (.refuse s.viewNo a.suspects)))
    else .next ({ s with agreement := some { a with proposed := some manifest } }.send (.member sender (.accept s.viewNo s.committedList)))

/-- Whether this member leads an agreement that has proposed a manifest. -/
def State.leading (s : State) : Option (Agreement × BitVec 1024) :=
  match s.agreement with
  | some a => if s.leaderOf a = some s.self then a.proposed.map fun m => (a, m) else none
  | none => none

/-- ACCEPT arrives at the leader (R405 step 4). -/
def execAccept (sender view : Nat) (committed : List (Nat × Nat)) (s : State) : Answer :=
  match s.leading with
  | none => .next s
  | some (a, m) =>
    if view ≠ s.viewNo || !m.getLsbD sender || a.accepted.contains sender then .next s else
    let a := { a with accepted := sender :: a.accepted, lists := a.lists ++ committed.filter fun x => !a.lists.contains x }
    if (membersOf m).all a.accepted.contains then .next (s.commitView a m) else .next { s with agreement := some a }

/-- The leader goes on without a proposed member; a joiner is told that its request has failed. -/
def State.without (s : State) (a : Agreement) (member : Nat) (named : List Nat) : State :=
  let a := { a with named := a.named ++ named.filter fun m => m != s.self && !a.named.contains m }
  if a.adding = some member then
    ({ s with joins := s.joins.filter fun j => j.1 != member }.send (.member member (.refuse s.viewNo []))).lead { a with adding := none }
  else s.lead { a with suspects := a.suspects ++ [member] }

/-- REFUSE arrives: the leader returns to leader choice without that member and with what it suspects; a joiner's request has failed
(R405 step 4, R424). -/
def execRefuse (sender view : Nat) (suspects : List Nat) (s : State) : Answer :=
  if s.excluded && s.joining then .next { s.endJoins 0 false with joining := false } else
  match s.leading with
  | none => .next s
  | some (a, m) => if view ≠ s.viewNo || !m.getLsbD sender then .next s else .next (s.without a sender suspects)

/-- A view's COMMIT arrives: the member adopts the view, or is excluded (R405). -/
def execViewCommit (view : Nat) (manifest : BitVec 1024) (committed : List (Nat × Nat)) (s : State) : Answer :=
  if s.excluded then
    if s.joining && manifest.getLsbD s.self then .next (s.adoptView view manifest committed) else .next s
  else if view ≠ viewAfter s.viewNo then .next s
  else if manifest.getLsbD s.self then .next (s.adoptView view manifest committed).startJoin
  else .next s.exclude

/-- After 20 µs without a PROPOSE the member suspects its leader (R405 step 2). -/
def execProposeTimeout (s : State) : Answer :=
  match s.agreement with
  | none => .next s
  | some a =>
    match s.leaderOf a with
    | none => .next s
    | some l => if l = s.self || a.proposed.isSome || s.cycle < a.since + silence then .next s else .next (s.beginChange [l] none)

/-- After 20 µs of silence the leader proposes without that member (R405 step 4). -/
def execAcceptTimeout (member : Nat) (s : State) : Answer :=
  match s.leading with
  | none => .next s
  | some (a, m) =>
    if !m.getLsbD member || a.accepted.contains member || s.cycle < a.since + silence then .next s else .next (s.without a member [])

/-! ### Heartbeats (R403) -/

/-- The devices at the far ends of the ports that carry View messages. -/
def State.neighbours (s : State) : List Nat :=
  ((s.ports.filter fun p => p.2.link.state == 0 && !p.2.isolated).map (·.2.peer)).eraseDups

/-- A heartbeat on each Canal link every 2 µs. -/
def execHeartbeatSend (s : State) : Answer :=
  if s.neighbours.isEmpty || s.cycle < s.beatAt + beatPeriod then .next s
  else .next (s.neighbours.foldl (fun s m => s.send (.member m .heartbeat)) { s with beatAt := s.cycle })

/-- A member's heartbeat arrives, directly or relayed. -/
def execHeartbeat (member : Nat) (s : State) : Answer := .next { s with heard := s.heard.put member s.cycle }

/-- 20 µs without one. -/
def execHeartbeatTimeout (member : Nat) (s : State) : Answer :=
  if member = s.self || !s.manifest.getLsbD member || s.cycle < s.heard.getD member 0 + silence then .next s
  else .next (s.beginChange [member] none)

/-! ### VIEW_CTL and rejoin requests (R404, R424) -/

/-- The leader of the current view. -/
def State.viewLeader (s : State) : Option Nat := s.leaderOf (s.agreement.getD ⟨[], [], none, none, [], [], 0⟩)

/-- A request to admit a member reaches this device: the leader holds it until it may begin, another passes it on. -/
def State.takeJoin (s : State) (member : Nat) : State :=
  if s.excluded || s.manifest.getLsbD member then s
  else if s.viewLeader ≠ some s.self then
    match s.viewLeader with
    | some l => s.send (.member l (.join member))
    | none => s
  else if (s.joins.get? member).isSome then s
  else
    let open' := (s.colls.filter fun x => x.2.here.isSome && x.2.open').map (·.1)
    { s with joins := s.joins.put member open' }.startJoin

/-- JOIN arrives. -/
def execJoinMessage (member : Nat) (s : State) : Answer := .next (s.takeJoin member)

/-- Whether a write of VIEW_CTL is ignored (R404). -/
def State.viewBusy (s : State) (v : Word) : Bool := (v.getLsbD 44 && v.getLsbD 43) || ((v.getLsbD 44 || v.getLsbD 43) && s.agreement.isSome)

/-- The member field of VIEW_CTL. -/
def viewMember (v : Word) : Nat := (v.extractLsb' 32 10).toNat

/-- VIEW_CTL.admit: a request that can begin nothing has failed. -/
def execViewAdmit (v : Word) (s : State) : Answer :=
  if s.viewBusy v || !v.getLsbD 44 then .next s else
  let m := viewMember v
  let s := { s with viewCtl := { s.viewCtl with member := m } }
  if s.excluded || s.manifest.getLsbD m || !s.domain.getLsbD m then .next s
  else .next ({ s with viewCtl := { s.viewCtl with toAdmit := true } }.takeJoin m)

/-- VIEW_CTL.remove. -/
def execViewRemove (v : Word) (s : State) : Answer :=
  if s.viewBusy v || !v.getLsbD 43 then .next s else
  let m := viewMember v
  let s := { s with viewCtl := { s.viewCtl with member := m } }
  if s.excluded || !s.manifest.getLsbD m || m = s.self then .next s
  else .next ({ s with viewCtl := { s.viewCtl with toRemove := true } }.beginChange [m] none)

/-! ### The stamp of a collective (R417) -/

/-- The collective engine does the next thing an instance needs, its stamp last; held rejoin requests may then begin. -/
def execCollStamp (comm k : Nat) (s : State) : Answer :=
  match s.colls.get? (collKey comm k) with
  | none => .next s
  | some x => .next (s.stepColl (collKey comm k) x).startJoin

/-! ### `viewq`, `viewack`, `viewjoin` (R422 to R424) -/

/-- The snapshot a number selects (R422). -/
def State.viewWord (s : State) (part k : Nat) : Word :=
  if 1 ≤ k then s.manifest.extractLsb' (64 * (k - 1)) 64
  else
    let unack := (s.parts.get? part).any (·.unack)
    BitVec.ofNat 64 (unack.toNat * 2 ^ 63 + s.agreement.isSome.toNat * 2 ^ 62 + s.excluded.toNat * 2 ^ 61 + s.self * 2 ^ 48
      + (membersOf s.manifest).length * 2 ^ 32 + s.viewNo)

/-- `viewq` (R422). -/
def execViewq (g : Guard) (d : Dst) (k : Int) (s : State) : Answer :=
  s.run fun c =>
    let r := scalarResult c.w d (if c.once g then some (s.viewWord c.env.part k.toNat) else none)
    .ok (s.complete c r.1 r.2)

/-- `viewack` (R423). -/
def execViewack (g : Guard) (d : Dst) (x : Src) (s : State) : Answer :=
  s.run fun c => do
    checkLatch c g .sca x
    if !c.once g then
      let r := scalarOrNone c.w d none
      return s.complete c r.1 r.2
    match c.w.memberTrap with
    | some t => return s.tellColl c ⟨0x40, 0, memberData t, c.real g⟩
    | none =>
      let current := (readSca c.w c.p x).toNat % 2 ^ 32 == s.viewNo
      let s := if current then s.setPart c.env.part fun p => { p with unack := false } else s
      let r := scalarOrNone c.w d (some (if current then 1 else 0))
      return s.complete c r.1 r.2

/-- The device's own rejoin request goes to the lowest member its links reach. -/
def State.askJoin (s : State) : State :=
  if s.joining then s
  else match sortBy (· ≤ ·) s.neighbours with
    | m :: _ => { s with joining := true }.send (.member m (.join s.self))
    | [] => { s with joining := true }

/-- `viewjoin` (R424). -/
def execViewjoin (g : Guard) (d : Dst) (t : Src) (s : State) : Answer :=
  s.run fun c => do
    checkLatch c g .sca t
    let give (s : State) (v : Option Word) : State := let r := scalarResult c.w d v; s.complete c r.1 r.2
    if !c.once g then return give s none
    if !((s.parts.get? c.env.part).any (·.joinOk)) then raise 0x11 0x13 (c.real g)
    if !s.excluded then return give s (some (BitVec.ofNat 64 s.viewNo))
    let deadline := deadlineOf s.cycle (readSca c.w c.p t)
    if deadline = some s.cycle then return give s (some 0)
    else return s.askJoin.awaits c c.w (.parked .monitor) (.viewjoin ⟨d, deadline⟩) 0

/-- Whether some path waits in `viewjoin`. -/
def State.anyJoin (s : State) : Bool :=
  s.warps.any fun w => w.2.paths.any fun p => match p.await with
    | some ⟨.viewjoin _, _, _, _⟩ => true
    | _ => false

/-- A `viewjoin`'s limit passes; the last one withdraws the request. -/
def execViewjoinTimeout (warp path : Nat) (s : State) : Answer :=
  match s.awaiting warp path with
  | some (c, .viewjoin r) =>
    match r.deadline with
    | some t =>
      if s.cycle < t then .next s
      else
        let out := scalarResult c.w r.d (some 0)
        let s := s.answered c out.1 out.2
        .next (if s.anyJoin then s else { s with joining := false })
    | none => .next s
  | _ => .next s

end Sys2Proof.Machine
end

