-- ==== Sys2Proof/Machine/Links.lean ====
section
/-! DEFINITION. Links (spec/20): flits, replay and retraining of the die-to-die modules and the Canal ports (R430 to R434), a module that
is down (R432), isolation of a port and what it ends (R438 to R442). Link k below 20 is a module, link 20 + p is Canal port p. -/
namespace Sys2Proof.Machine

/-! ### Ports and isolation (R438, R439, R442) -/

def State.setPort (s : State) (p : Nat) (f : Port → Port) : State := { s with ports := s.ports.adjust p f }

/-- The set of isolated peers is formed again: reads in flight to a newly isolated one end poisoned, remote entries that name it are
removed, and a member among them is suspected (R312 a and b, R438, R403 a). -/
def State.reconsider (s : State) : State :=
  let t := s.countIsolated
  let fresh := t.isolatedPeers.filter fun m => !s.isolatedPeers.contains m
  if fresh.isEmpty then t
  else (((s.spoilCopies fresh.contains).countIsolated.loseReads fresh.contains).forgetPeers fresh.contains).beginChange fresh none

/-- A port is isolated. -/
def State.isolatePort (s : State) (p : Nat) : State :=
  let cycle := s.cycle
  (s.setPort p fun x => { x with isolated := true, isolate := false, restore := false, since := cycle }).reconsider

/-- What is outstanding to peers behind isolated ports ends: writes are dropped and logged, reads and atomics end poisoned (R439). -/
def execIsolationRequestEnd (port : Nat) (s : State) : Answer :=
  match s.ports.get? port with
  | none => .next s
  | some p =>
    if (p.isolated || p.viewOnly) && s.outstandingTo s.isolatedPeers.contains then .next (s.dropTo s.isolatedPeers.contains) else .next s

/-! ### The link layer (R430, R431, R434) -/

/-- A link of either kind. -/
def State.link? (s : State) (k : Nat) : Option Link := if k < 20 then s.links.get? k else (s.ports.get? (k - 20)).map (·.link)

def State.setLink (s : State) (k : Nat) (f : Link → Link) : State :=
  if k < 20 then { s with links := s.links.adjust k f } else s.setPort (k - 20) fun p => { p with link := f p.link }

/-- One of a link's directions. -/
def Link.dir (x : Link) (forward : Bool) : LinkDir := if forward then x.forward else x.back
def Link.setDir (x : Link) (forward : Bool) (d : LinkDir) : Link := if forward then { x with forward := d } else { x with back := d }

/-- How far flit number b is ahead of flit number a. -/
def ahead (a b : Nat) : Nat := (b + 1024 - a) % 1024

/-- A link begins to retrain. -/
def State.retrain (s : State) (k : Nat) : State :=
  let cycle := s.cycle
  let s := s.setLink k fun x => { x with state := 1, retrains := satAdd 8 x.retrains 1, fails := [], redo := none }
  if k < 20 then s else s.setPort (k - 20) fun p => { p with since := cycle }

/-- A direction whose sender has sent a flit. -/
def LinkDir.sent (d : LinkDir) (seq : Nat) : LinkDir :=
  if ahead d.acked seq < 128 ∧ ahead d.acked d.next ≤ ahead d.acked seq then { d with next := (seq + 1) % 1024 } else d

/-- A flit fails its CRC: a NAK names the number expected; one that fails again, or the sixteenth failure within 2^20 cycles, begins a
retrain (R430, R431). -/
def State.flitFails (s : State) (k : Nat) (forward : Bool) (x : Link) : State :=
  let n := (x.dir forward).expected
  let fails := (s.cycle :: x.fails).filter fun c => s.cycle < c + 2 ^ 20
  let again := x.redo == some (forward, n)
  let s := s.setLink k fun x => { x with crcfail := satAdd 32 x.crcfail 1, fails := fails, redo := some (forward, n) }
  let s := s.send (.flitNak k forward n)
  if again || 16 ≤ fails.length then s.retrain k else s

/-- A flit arrives (R430): delivered where its number is the expected one, else discarded. -/
def execFlitReceive (link : Nat) (forward : Bool) (seq : Nat) (crcOk : Bool) (s : State) : Answer :=
  match s.link? link with
  | none => .next s
  | some x =>
    if x.state ≠ 0 then .next s
    else if !crcOk then .next (s.flitFails link forward x)
    else
      let d := (x.dir forward).sent (seq % 1024)
      if seq % 1024 ≠ d.expected then .next (s.setLink link fun x => x.setDir forward d)
      else
        let s := s.setLink link fun x =>
          { x.setDir forward { d with expected := (d.expected + 1) % 1024 } with
            redo := if x.redo == some (forward, d.expected) then none else x.redo }
        .next (s.send (.flitAck link forward (seq % 1024)))

/-- An acknowledgement: the flits up to its number leave the sender's buffer. -/
def execFlitAck (link : Nat) (forward : Bool) (seq : Nat) (s : State) : Answer :=
  match s.link? link with
  | none => .next s
  | some x =>
    let d := x.dir forward
    if ahead d.acked (seq % 1024) < ahead d.acked d.next then
      .next (s.setLink link fun x => x.setDir forward { d with acked := (seq + 1) % 1024 })
    else .next s

/-- A NAK: the flits from the one it names on are sent again. -/
def execFlitNak (link : Nat) (forward : Bool) (seq : Nat) (s : State) : Answer :=
  match s.link? link with
  | none => .next s
  | some x =>
    let d := x.dir forward
    if ahead d.acked d.next < ahead d.acked (seq % 1024) then .next s
    else .next (s.setLink link fun x =>
      { x.setDir forward { d with acked := seq % 1024 } with replays := satAdd 32 x.replays (ahead (seq % 1024) d.next) })

/-! ### The end of a retrain (R431, R432, R434) -/

/-- The lanes of a range that a direction has found failed. -/
def failedIn (m : BitVec 64) (lo n : Nat) : Nat := ((List.range n).filter fun i => m.getLsbD (lo + i)).length

/-- A module after its lanes are tested: spares in both directions, else the lower or the upper half, else down. -/
def Link.trained (x : Link) (f b : BitVec 64) : Link :=
  let fits (lo n : Nat) : Bool := failedIn f lo n ≤ 4 && failedIn b lo n ≤ 4
  let up (w lo n : Nat) : Link := { x with state := 0, width := w, spares := failedIn f lo n + failedIn b lo n }
  if fits 0 64 then up 0 0 64 else if fits 0 32 then up 1 0 32 else if fits 32 32 then up 1 32 32
  else { x with state := 2, width := 2, spares := 0 }

/-- The two dies a module joins: compute dies 0 to 7, I/O dies 8 and 9 (R429). -/
def diesOf (k : Nat) : Nat × Nat :=
  if k < 8 then (k, (k + 1) % 8) else if k < 12 then (k - 8, k - 4) else (k - 12, 8 + (k - 12) / 4)

/-- The die a number of ring hops from a compute die. -/
def onRing (a : Nat) (hops : Int) : Nat := ((a + hops) % 8).toNat

/-- The dies that the fixed route from a die to another one passes, its end included (R429): at most two ring hops, or the cross link and
one ring hop; to and from an I/O die over its own module, from a compute die without one over the cross link first. Timing only. -/
def fixedRoute (a b : Nat) : List Nat :=
  if a < 8 ∧ b < 8 then
    match (b + 8 - a) % 8 with
    | 0 => []
    | 1 => [b]
    | 2 => [onRing a 1, b]
    | 3 => [onRing a 4, b]
    | 4 => [b]
    | 5 => [onRing a 4, b]
    | 6 => [onRing a (-1), b]
    | _ => [b]
  else if a < 8 then (if a / 4 = b - 8 then [b] else [onRing a 4, b])
  else if b < 8 then (if b / 4 = a - 8 then [b] else [onRing b 4, b])
  else []

/-- The module that joins two dies. -/
def moduleOf (a b : Nat) : Option Nat := (List.range 20).find? fun k => diesOf k == (a, b) || diesOf k == (b, a)

/-- Whether a route crosses only modules that are not down. -/
def State.stands (s : State) : Nat → List Nat → Bool
  | _, [] => true
  | a, b :: r => ((moduleOf a b).bind s.links.get?).any (·.state != 2) && s.stands b r

/-- The dies next to a die, the forward ring direction first. -/
def nextDies (a : Nat) : List Nat :=
  if a < 8 then [onRing a 1, onRing a 4, onRing a (-1), 8 + a / 4] else (List.range 4).map (4 * (a - 8) + ·)

/-- Routes of one crossing more, each to a die that no shorter one reaches; the forward direction of two equal ones stays. -/
def State.widen (s : State) (a : Nat) (rs : List (Nat × List Nat)) : List (Nat × List Nat) :=
  (rs.flatMap fun r => ((nextDies r.1).filter fun d => s.stands r.1 [d]).map fun d => (d, r.2 ++ [d])).foldl
    (fun rs r => if r.1 == a || rs.any (·.1 == r.1) then rs else rs ++ [r]) rs

/-- The route from a die to another (R429, R432): the fixed one; where a module of it is down, that with the fewest crossings. -/
def State.route (s : State) (a b : Nat) : Option (List Nat) :=
  if a = b ∨ (fixedRoute a b ≠ [] ∧ s.stands a (fixedRoute a b)) then some (fixedRoute a b)
  else (((List.range 9).foldl (fun rs _ => s.widen a rs) [(a, [])]).find? (·.1 == b)).map (·.2)

/-- Whether every die still has a route to every other. -/
def State.connected (s : State) : Bool := (List.range 10).all fun b => (s.route 0 b).isSome

/-- A context ends where it stands: its launches complete with 0x010A. -/
def State.endContext (s : State) (part : Nat) : State := ((s.endLaunches part).evacuate part).contextAt part 0

/-- The contexts of a partition end: the one that runs, and the one that stands in the cellar, which comes back to end too. -/
def State.endContexts (s : State) (part : Nat) (p : Partition) : State :=
  let s := if p.ctx.state = 0 ∨ p.ctx.state = 4 then s else s.endContext part
  match s.cellars.get? part with
  | some img => (s.unparkContext part p.cellarArea img).endContext part
  | none => s

/-- A fatal link error: with the dies in two parts each die lacks a route to some other, so every context of a partition that holds core
groups ends (R432). -/
def State.fatalLink (s : State) : State :=
  (s.parts.filter fun p => p.2.groups != 0).foldl (fun s p => (s.endContexts p.1 p.2).send (.msix p.1 "fatal link error")) s

/-- A Canal port after its lanes are tested: as many of four lanes as two directions leave healthy. -/
def Link.canalTrained (x : Link) (f b : BitVec 64) : Link :=
  let n := 4 - failedIn (f ||| b) 0 4
  if n = 0 then { x with state := 2, width := 3 } else { x with state := 0, width := if n = 4 then 0 else if n = 1 then 2 else 1 }

/-- A retrain ends with the lanes found failed in each direction. -/
def execRetrainComplete (link : Nat) (failedForward failedBack : BitVec 64) (s : State) : Answer :=
  match s.link? link with
  | none => .next s
  | some x =>
    if x.state ≠ 1 then .next s
    else if link < 20 then
      let s := s.setLink link fun x => x.trained failedForward failedBack
      .next (if (s.link? link).any (·.state == 2) && !s.connected then s.fatalLink else s)
    else
      let p := link - 20
      let s := s.setLink link fun x => x.canalTrained failedForward failedBack
      if (s.link? link).any (·.state == 2) then .next (s.isolatePort p)
      else .next (s.setPort p fun x =>
        if x.restore then { x with restore := false, isolated := false, viewOnly := true } else x).reconsider

/-- D2D_CTL.clear (R433). -/
def execD2dClear (link : Nat) (v : Word) (s : State) : Answer :=
  if 20 ≤ link || !v.getLsbD 0 then .next s
  else .next ((s.setLink link fun x => { x with crcfail := 0, replays := 0 }).retrain link)

/-! ### Canal ports (R438, R441, R442) -/

/-- CANAL_CTL.isolate: it also ends a restoring retrain. -/
def execCanalIsolate (port : Nat) (v : Word) (s : State) : Answer :=
  match s.ports.get? port with
  | none => .next s
  | some p =>
    if !v.getLsbD 0 then .next s
    else
      let s := if p.link.state = 1 then s.setLink (20 + port) fun x => { x with state := 2, width := 3 } else s
      .next (s.isolatePort port)

/-- CANAL_CTL.restore: an isolated port retrains. -/
def execCanalRestore (port : Nat) (v : Word) (s : State) : Answer :=
  match s.ports.get? port with
  | none => .next s
  | some p =>
    if !v.getLsbD 1 || !p.isolated || p.restore || p.link.state = 3 then .next s
    else .next ((s.retrain (20 + port)).setPort port fun p => { p with restore := true })

/-- A port goes down. -/
def execCanalPortDown (port : Nat) (s : State) : Answer :=
  match s.ports.get? port with
  | none => .next s
  | some p =>
    if p.link.state = 3 then .next s
    else .next ((s.setLink (20 + port) fun x => { x with state := 2, width := 3 }).isolatePort port)

/-- A retrain of a port has not completed within 50,000 cycles. -/
def execCanalRetrainTimeout (port : Nat) (s : State) : Answer :=
  match s.ports.get? port with
  | none => .next s
  | some p =>
    if p.link.state ≠ 1 || s.cycle < p.since + 50000 then .next s
    else .next ((s.setLink (20 + port) fun x => { x with state := 2, width := 3 }).isolatePort port)

/-- A device appears at the far end of a port, which trains. -/
def execCanalLinkUp (port peer : Nat) (s : State) : Answer :=
  match s.ports.get? port with
  | none => .next s
  | some p =>
    if p.link.state ≠ 3 then .next s
    else
      let cycle := s.cycle
      .next (s.setPort port fun p => { p with peer := peer, link := { p.link with state := 1 }, since := cycle })

end Sys2Proof.Machine
end

