-- ==== Sys2Proof/Machine/Checkpoint.lean ====
section
/-! DEFINITION. The checkpoint engine (spec/23): closing an interval (R479, R480), streaming it out and committing it (R481, R482, R486,
R522), rolling back (R483 to R485), its registers (R476) and instructions (R487 to R489). -/
namespace Sys2Proof.Machine

/-! ### Members of a group (R475, R479) -/

/-- The running contexts of a group on this device. -/
def State.groupHere (s : State) (part : Nat) : List Nat := (s.parts.filter fun x => s.oneGroup x.1 part && x.2.ctx.state == 1).map (·.1)

/-- A message to the checkpoint harts of the other devices of a view, for a context of a group. -/
def State.tellGroup (s : State) (p : Partition) (m : CkptMsg) : State :=
  if p.ck.group = 0 then s else s.sendTo (membersOf s.manifest) (.checkpoint p.ck.group m)

/-- How many other devices a close waits for: those of the stripe, and any more that have announced it. -/
def Ckpt.others (c : Ckpt) : Nat := if c.group = 0 then 0 else max c.members c.started

/-! ### Committing (R481, R486, R522) -/

/-- The lowest replay index not yet consumed (R521). -/
def Partition.replayLow (p : Partition) : Nat := (p.replayHeld.map (·.index)).foldl min p.rpl.head

/-- The guestbook index below which records are final once an interval has committed. -/
def State.bookFinal (s : State) (part : Nat) (p : Partition) (committed : Nat) : Nat :=
  let opened := (s.launches.filter fun l => partOfLaunch l.1 == part).filterMap (·.2.record)
  let closed := (p.closed.filter fun x => committed < x.2).map (·.1)
  (opened ++ closed).foldl min p.gbk.tail

/-- Paths in `ckpt.wait` for intervals up to one go on (R488). -/
def State.endCkptWaits (s : State) (part upTo : Nat) : State :=
  (s.partWarps part).foldl (fun s w => (List.range 16).foldl (fun s i =>
    match s.awaiting w.1 i with
    | some (c, .ckpt d k) =>
      if k ≤ upTo then
        let r := scalarOrNone c.w d (some (BitVec.ofNat 64 k))
        s.answered c r.1 r.2
      else s
    | _ => s) s) s

/-- An interval commits. -/
def State.commitInterval (s : State) (part k : Nat) (p : Partition) : State :=
  let note := p.ck.notes.getD k ⟨0, 0, 0⟩
  let final := s.bookFinal part p k
  let s := s.setPart part fun p => { p with
    log := { p.log with cmt := note.log }, rpl := { p.rpl with cmt := note.rpl }, gbk := { p.gbk with cmt := final }
    closed := p.closed.filter fun x => decide (k < x.2) }
  let s := s.setCk part fun c => { c with
    committed := k, acked := c.acked.filter fun x => decide (k < x), logged := c.logged.filter fun x => decide (k < x.1)
    notes := c.notes.filter fun x => decide (k ≤ x.1) }
  s.endCkptWaits part k

/-- Intervals commit in order, as far as they may; accesses held from outside then proceed. -/
def commitReady (part : Nat) : Nat → State → State
  | 0, s => s
  | fuel + 1, s =>
    match s.parts.get? part with
    | none => s
    | some p =>
      if !p.ck.stripeFailed && p.ck.acked.contains (p.ck.committed + 1) then
        commitReady part fuel (s.commitInterval part (p.ck.committed + 1) p)
      else s

def State.commitAll (s : State) (part : Nat) : State :=
  (commitReady part ((s.parts.get? part).elim 0 fun p => p.ck.acked.length) s).releaseHeld.wakeStores

/-! ### Closing (R479, R480) -/

/-- Whether a context waits to close and nothing else keeps its group. -/
def State.mayClose (s : State) (part : Nat) : Bool :=
  (s.parts.filter fun x => s.oneGroup x.1 part).all fun x =>
    x.2.ctx.work.isNone && !x.2.ck.due && !x.2.ck.closing

/-- Step 1: every member of the group on this device stops; those on other devices are told. -/
def State.beginClose (s : State) (part : Nat) (p : Partition) : State :=
  let cycle := s.cycle
  let s := (s.groupHere part).foldl (fun (s : State) m =>
    (s.setCk m fun c => { c with closing := true, imaged := false, closedAt := cycle, wanted := none }).discardWaits m fun _ => true) s
  s.tellGroup p (.closeStart p.ck.current)

/-- The blocks of 4 KiB a delta is streamed in. -/
def deltaBlocks (d : List (Nat × List Byte)) : List (List Byte) :=
  let bs := d.flatMap (·.2)
  (List.range (ceilDiv bs.length 4096)).map fun j => (bs.drop (4096 * j)).take 4096

/-- Steps 2 to 4 for one member: its image is taken, the interval id rises, the context goes on. Its delta goes to the parity member. -/
def State.closeOne (s : State) (part : Nat) : State :=
  let s := s.standStill part
  match s.parts.get? part, s.capture part with
  | some p, some img =>
    let c := p.ck
    let k := c.current
    let owner := c.owner
    let img := { img with colls := s.colls.filter fun x => x.2.here.any fun h => h.owner == owner }
    let delta := if c.members = 0 then [] else (c.undo.filter fun u => u.2.delta).map fun u => (u.1, s.mem.bytes (128 * u.1) 128)
    let note : RingNote := ⟨p.gbk.tail, p.log.tail, p.replayLow⟩
    let s := { s with marks := NMap.put s.marks (2 * owner + k % 2) img }
    let s := s.setCk part fun c => { c with
      current := (k + 1) % 2 ^ 32, closing := false, imaged := false, started := 0, written := 0
      undo := [], entries := 0, rolls := 0, deps := [], remoteDep := false, finished := []
      logged := NMap.put c.logged k (c.undo.map (·.1))
      deltas := if delta.isEmpty then c.deltas else NMap.put c.deltas k delta
      acked := if delta.isEmpty then c.acked ++ [k] else c.acked
      notes := NMap.put c.notes k note, cfgNow := c.cfg, areaNow := c.area }
    let home := k % (c.members + 1)
    let s := if home = ckptPos c.cfgNow then s
      else (deltaBlocks delta).zipIdx.foldl (fun s b => s.send (.member home (.parity k b.2 b.1))) s
    s.resumePaths part
  | _, _ => s

/-- A close: it starts when one is wanted, each member says when it stands still, and all go on together. -/
def execIntervalClose (part : Nat) (s : State) : Answer :=
  match s.parts.get? part with
  | none => .next s
  | some p =>
    if p.ctx.state ≠ 1 || p.ck.due then .next s
    else if !p.ck.closing then
      if p.ck.wanted.any (fun t => t ≤ s.cycle) && s.mayClose part then .next (s.beginClose part p) else .next s
    else if !p.ck.imaged then
      if s.quiet part then .next ((s.setCk part fun c => { c with imaged := true }).tellGroup p (.imageWritten p.ck.current)) else .next s
    else
      let ms := s.groupHere part
      if ms.all (fun m => (s.parts.get? m).any fun x => x.ck.imaged && !x.ck.due) && p.ck.others ≤ p.ck.written then
        .next (ms.foldl (fun s m => s.commitAll m) (ms.foldl (fun s m => s.closeOne m) s))
      else .next s

/-- A close is asked for by the host or by `ckpt` (R480 c, d). -/
def State.requestClose (s : State) (part : Nat) : State := let cycle := s.cycle; s.setCk part fun c => c.request cycle

/-- CKPT_CMD op 1. -/
def execCkptCloseNow (part : Nat) (s : State) : Answer :=
  match s.parts.get? part with
  | none => .next s
  | some p => if p.ctx.state = 1 then .next (s.requestClose part) else .next s

/-- The period has passed since the latest close started (R480 a); 1,250,000 cycles are a millisecond. -/
def execCkptPeriodExpiry (part : Nat) (s : State) : Answer :=
  match s.parts.get? part with
  | none => .next s
  | some p =>
    let cycle := s.cycle
    if p.ctx.state ≠ 1 || p.ck.closing || p.ck.period = 0 || cycle < p.ck.closedAt + p.ck.period * 1250000 then .next s
    else .next (s.setCk part fun c => c.want cycle)

/-! ### Streaming out (R481, R482) -/

/-- A block of another member's delta reaches the parity member of an interval. -/
def execParityBlock (part interval block : Nat) (data : List Byte) (s : State) : Answer :=
  match s.parts.get? part with
  | none => .next s
  | some p =>
    let c := p.ck
    if c.members = 0 || ckptPos c.cfgNow ≠ interval % (c.members + 1) then .next s
    else
      let key := interval * 2 ^ 32 + block
      let old := c.parity.getD key (zeros 4096)
      let new := old.zipIdx.map fun b => b.1 ^^^ nth data b.2 0
      let s := s.setCk part fun c => { c with parity := c.parity.put key new }
      .next (((List.range (c.members + 1)).filter (· != ckptPos c.cfgNow)).foldl (fun s m => s.send (.member m (.parityAck interval))) s)

/-- The parity member has acknowledged its last parity block of an interval. -/
def execParityAck (part interval : Nat) (s : State) : Answer :=
  match s.parts.get? part with
  | none => .next s
  | some p =>
    if interval ≤ p.ck.committed || p.ck.current ≤ interval || p.ck.acked.contains interval then .next s
    else .next ((s.setCk part fun c => { c with acked := c.acked ++ [interval] }).commitAll part)

/-- An interval's delta is whole in the CXL tier, the intervals before it too. -/
def execCxlDrainDone (part interval : Nat) (s : State) : Answer :=
  match s.parts.get? part with
  | none => .next s
  | some p =>
    if interval ≤ p.ck.drained || p.ck.committed < interval || p.ck.deltas.any fun x => p.ck.drained < x.1 && x.1 < interval then .next s
    else .next (s.setCk part fun c => { c with drained := interval })

/-! ### Rolling back (R483 to R485) -/

/-- A queue after a rollback: its packets are accepted again from the image's head; what the host wrote of it stands. -/
def Queue.rolled (now image : Queue) : Queue :=
  { now with head := image.head, done := image.done, tail := if now.devFeed then image.tail else now.tail }

/-- The partition block after a rollback. -/
def rolledPart (now : Partition) (img : Partition) : Partition :=
  { img with
    groups := now.groups
    ctx := now.ctx
    cellarArea := now.cellarArea
    comps := now.comps
    trc := now.trc
    trcEn := now.trcEn
    dropped := now.dropped
    vector := now.vector
    joinOk := now.joinOk
    slices := now.slices
    unack := now.unack
    codes := now.codes
    gbk := { now.gbk with tail := img.gbk.tail }
    log := { now.log with tail := img.log.tail }
    rpl := { now.rpl with head := img.rpl.head }
    closed := now.closed.filter fun x => x.2 != now.ck.current
    queues := now.queues.map fun q => (q.1, q.2.rolled (img.queue q.1))
    ck := { now.ck with
      undo := [], entries := 0, deps := [], remoteDep := false, due := false
      closing := false, imaged := false, started := 0, written := 0
      wanted := if now.ck.closing then some now.ck.closedAt else now.ck.wanted
      rolls := now.ck.rolls + 1, rollbacks := satAdd 16 now.ck.rollbacks 1 } }

/-- Step 3: the lines of the undo log take their old values, with the poison they had. -/
def State.writeBack (s : State) (undo : NMap UndoLine) : State :=
  let back (s : State) (u : Nat × UndoLine) : State :=
    let s := s.writePiece ⟨128 * u.1, 128, u.2.addr, none, none⟩ u.2.old
    { s with poison := u.2.poison ++ s.poison.filter fun k => k / 4 != u.1 }
  undo.foldl back s

/-- Every presence bit of a context's slices is set (R298 e). -/
def State.setPresence (s : State) (p : Partition) : State :=
  let mine (line : Nat) : Bool := p.slices.any fun e => match e.2 with
    | .physical core => isSram (128 * line) && (128 * line - 2 ^ 60) / 2 ^ 21 == core
    | .backed _ => false
  { s with absent := s.absent.filter fun l => !mine l.1 }

/-- The class 0 launches that had a block resident or retired since the close (step 5). -/
def State.classZero (s : State) (part : Nat) (img : CtxImage) : NMap Launch :=
  (s.launches.filter fun l => partOfLaunch l.1 == part && l.2.cls == 0).filter fun l =>
    (s.partBlocks part).any (fun b => b.2.launch == l.1) || img.blocks.any (fun b => b.block.launch == l.1)
      || decide ((img.launches.get? l.1).elim 0 (·.retiredBlocks) < l.2.retiredBlocks)

/-- Guestbook records opened since the close go to state 0, and those closed since it are open again (R522). -/
def State.rewindBook (s : State) (part : Nat) (now img : Partition) : State :=
  let e : Env := ⟨part, 0⟩
  let put (s : State) (a : Nat) (bs : List Byte) : State := match s.writePlain e a bs with | .ok t => t | .error _ => s
  let s := (List.range (now.gbk.tail - img.gbk.tail)).foldl (fun s i =>
    put s (now.recordAt (img.gbk.tail + i) + 0x40) (zeros 8)) s
  (now.closed.filter fun x => x.2 == now.ck.current && decide (x.1 < img.gbk.tail)).foldl (fun s x =>
    let a := now.recordAt x.1
    match s.readPlain e (a + 0x40) 8 with
    | .ok bs =>
      let info := leNat bs / 2 ^ 32 * 2 ^ 32 + 2 ^ 14 + leNat bs % 2 ^ 12
      put (put (put s (a + 0x4C) (zeros 4)) (a + 0x58) (zeros 40)) (a + 0x40) (leBytes 8 info)
    | .error _ => s) s

/-- The context's collectives after a rollback (R427): instances accepted since the close are gone, those of it that have not committed
end with 0x0307, as do those whose end is undone; other participants are told. -/
def State.rollColls (s : State) (owner : Nat) (img : CtxImage) : State :=
  let known (h : CollHere) : Bool := img.blocks.any fun b => b.id == h.bid && decide (h.seq ≤ b.block.collSeq)
  let mine := s.colls.filter fun x => x.2.here.any fun h => h.owner == owner
  let s := mine.foldl (fun s x => match x.2.here with
    | some h =>
      let t := if x.2.open' then s.endColl x.1 x.2 0x0307 true else s
      if known h then t else { t with colls := t.colls.del x.1 }
    | none => s) s
  (img.colls.filter fun x => (s.colls.get? x.1).isNone).foldl (fun s x => s.setColl x.1 { x.2 with state := .ending 0x0307 }) s

/-- A context returns to the start of its open interval. -/
def State.rollOne (s : State) (part : Nat) : State :=
  match s.parts.get? part with
  | none => s
  | some now =>
    match s.marks.get? (2 * now.ck.owner + (now.ck.current - 1) % 2) with
    | none => s.setCk part fun c => { c with due := false }
    | some img =>
      let cores := now.cores
      let zero := s.classZero part img
      let isZero (lid : Nat) : Bool := (zero.get? lid).isSome
      let s := ((s.showAll.landAll part).writeBack now.ck.undo).evacuate part
      let late (t : Store) : Bool := t.part == part && t.interval == now.ck.current
      let s := { s with stores := s.stores.filter fun t => !late t, unacked := s.unacked.filter fun t => !late t }
      let s : State := { s with
        launches := (img.launches.filter fun l => !isZero l.1).foldl (fun m l => NMap.put m l.1 l.2) s.launches
        statuses := (img.statuses ++ now.ck.finished).foldl (fun m l => NMap.put m l.1 l.2)
          (s.statuses.filter fun x => partOfLaunch x.1 != part)
        rot := (NMap.rekey (rotByCore cores) img.rot).foldl (fun m r => NMap.put m r.1 r.2)
          (s.rot.filter fun r => !cores.contains (r.1 % 512))
        lockPairs := img.pairs.foldl (fun m k => NMap.put m k.1 k.2) (s.lockPairs.filter fun k => !cores.contains (k.1 / 2 ^ 16)) }
      let s := s.setPart part fun p => rolledPart p img.part
      let s := (s.bringBlocks part (img.blocks.filter fun b => !isZero b.block.launch)).setPresence now
      let s := s.rewindBook part now img.part
      let s := zero.foldl (fun s l =>
        s.completeLaunch l.1 { l.2 with record := l.2.record.filter fun i => decide (i < img.part.gbk.tail) } 0x010A) s
      (s.rollColls now.ck.owner img).wakeStores

/-- A context is to be rolled back. -/
def State.markDue (s : State) (part : Nat) : State := (s.setCk part fun c => { c with due := true }).discardWaits part fun _ => true

/-- The whole group is to be rolled back: its running contexts here, one parked in a cellar once it runs again, and those of other
devices, which are told. -/
def State.rollGroup (s : State) (part : Nat) (p : Partition) (tell : Bool) : State :=
  let grouped (c : Ckpt) : Bool := c.group != 0 && c.group == p.ck.group
  let s := (s.groupHere part).foldl (fun (s : State) m => (s.markDue m).setCk m fun c => { c with remoteDep := false, deps := [] }) s
  let parked (x : CtxImage) : CtxImage := { x with part := { x.part with ck := { x.part.ck with due := true } } }
  let s := { s with cellars := s.cellars.map fun x => (x.1, if grouped x.2.part.ck then parked x.2 else x.2) }
  if tell then s.tellGroup p .rollback else s

/-- CKPT_CMD op 2, and every rollback that is due: first the set is formed (R485), then its contexts stop, then all return together. -/
def execCkptRollbackNow (part : Nat) (s : State) : Answer :=
  match s.parts.get? part with
  | none => .next s
  | some p =>
    if p.ctx.state ≠ 1 || p.ctx.work.isSome then .next s
    else if !p.ck.due then .next (s.rollGroup part p true)
    else if p.ck.remoteDep || !p.ck.deps.isEmpty then
      .next (s.rollGroup part p true)
    else
      let t := s.markDue part
      if t ≠ s then .next t else
      let ms := (s.groupHere part).filter fun m => (s.parts.get? m).any fun x => x.ck.due
      if ms.all s.quiet && ms.all (fun m => (s.parts.get? m).any fun x => !x.ck.remoteDep && x.ck.deps.isEmpty) then
        .next (ms.foldl State.rollOne s)
      else .next s

/-- A message of another device's checkpoint hart reaches a member of its group. -/
def execCheckpointMessage (part : Nat) (m : CkptMsg) (s : State) : Answer :=
  match s.parts.get? part with
  | none => .next s
  | some p =>
    if p.ctx.state ≠ 1 || p.ck.group = 0 then .next s else
    let cycle := s.cycle
    match m with
    | .closeStart k =>
      if k ≠ p.ck.current then .next s
      else .next (s.setCk part fun c => let d := { c with started := c.started + 1 }; if d.closing then d else d.want cycle)
    | .imageWritten k => if k ≠ p.ck.current then .next s else .next (s.setCk part fun c => { c with written := c.written + 1 })
    | .rollback => if p.ck.due then .next s else .next (s.rollGroup part p false)

/-! ### Registers (R467, R476) -/

/-- The pieces a context of another group, or an agent outside, waits to access. -/
def Path.wanting (p : Path) : List Piece :=
  match p.await with
  | some ⟨.load r, _, _, _⟩ => r.lanes.flatMap (·.2.2)
  | some ⟨.atomic r, _, _, _⟩ => r.todo.map (·.piece)
  | _ => []

/-- Accesses now held under R486 for a context's lines. -/
def State.heldCount (s : State) (part : Nat) (p : Partition) : Nat :=
  let hit (ps : List Piece) : Bool := ps.any fun x => p.ck.hasLogged (x.key / 128)
  let word (q : Path) (b : Nat) : List Piece := match q.await with
    | some ⟨.monitor r, _, _, _⟩ => match r.pieces s ⟨s.partOf b, (s.blocks.get? b).elim 0 (·.home)⟩ with
      | .ok ps => ps
      | .error _ => []
    | _ => []
  let outside (q : Nat) : Bool := !s.oneGroup part q
  (s.held.filter fun h => hit h.pieces).length
    + (s.stores.filter fun t => outside t.part && hit [t.piece]).length
    + (s.warps.map fun w => if outside (s.partOf w.2.block) then (w.2.paths.filter fun q => hit q.wanting || hit (word q w.2.block)).length else 0).sum

/-- CKPT_STAT2.state. -/
def Ckpt.phase (c : Ckpt) : Nat :=
  if c.stripeFailed then 5 else if c.due then 4 else if c.closing then 1
  else if c.committed + 1 < c.current then 2
  else if c.deltas.any fun x => decide (c.drained < x.1) then 3 else 0

/-- CKPT_STAT, CKPT_STAT2 and CTX_SAVECOST. -/
def Ckpt.stat (c : Ckpt) : Nat := c.committed * 2 ^ 32 + c.current
def State.ckptStat2 (s : State) (part : Nat) (p : Partition) : Nat :=
  p.ck.rollbacks * 2 ^ 48 + p.ck.forced * 2 ^ 32 + min (s.heldCount part p) 65535 * 2 ^ 16 + p.ck.phase
def CtxRegs.saveCost (c : CtxRegs) : Nat := c.dirty * 2 ^ 32 + c.cycles

/-! ### Instructions (R487 to R489) -/

/-- The current interval of the issuing context. -/
def State.intervalOf (s : State) (part : Nat) : Nat := (s.parts.get? part).elim 0 (·.ck.current)

/-- `ckpt`: the interval's id, and a close is requested. -/
def execCkpt (g : Guard) (d : Dst) (s : State) : Answer :=
  s.run fun c =>
    let on := c.once g
    let r := scalarOrNone c.w d (if on then some (BitVec.ofNat 64 (s.intervalOf c.env.part)) else none)
    .ok ((if on then s.requestClose c.env.part else s).complete c r.1 r.2)

/-- `ckpt.wait`: the path parks until that interval has committed. -/
def execCkptWait (g : Guard) (d : Dst) (s : State) : Answer :=
  s.run fun c =>
    if c.once g then
      .ok ((s.requestClose c.env.part).awaits c c.w (.parked .monitor) (.ckpt d (s.intervalOf c.env.part)) 0)
    else
      let r := scalarOrNone c.w d none
      .ok (s.complete c r.1 r.2)

/-- What `ckq` reads. -/
def State.ckptWord (s : State) (part k : Nat) : Word :=
  match s.parts.get? part with
  | none => 0
  | some p =>
    match k with
    | 0 => BitVec.ofNat 64 p.ck.stat
    | 1 => BitVec.ofNat 64 p.ctx.saveCost
    | 2 => BitVec.ofNat 64 (s.ckptStat2 part p)
    | _ => p.ck.cfg &&& 0xFFFFFF0000000000

/-- `ckq`. -/
def execCkq (g : Guard) (d : Dst) (k : Int) (s : State) : Answer :=
  s.run fun c =>
    let r := scalarResult c.w d (if c.once g then some (s.ckptWord c.env.part k.toNat) else none)
    .ok (s.complete c r.1 r.2)

end Sys2Proof.Machine
end

