-- ==== Sys2Proof/Machine/Rings.lean ====
section
/-! DEFINITION. The result digest's instruction and `detq` (spec/27 R513, R516), the rings' registers and the reading of the replay ring
(R520 to R523, R527), and debug (spec/28): `brk`, `tmark`, `rdclk`, comparators' registers, held paths, the trace ring, slot counters,
the freeze and what the debug port reads. -/
namespace Sys2Proof.Machine

/-! ### `digest` and `detq` -/

/-- The message of one lane (R513). -/
def digestMessage (c : Ctx) (f : Fmt) (ch l : Nat) (value : List Byte) : List Byte :=
  leBytes 8 c.blk.linear ++ leBytes 1 c.w.index ++ leBytes 1 l ++ leBytes 2 ch ++ leBytes 1 f.code ++ value

/-- `digest`: each acting lane adds its value to the block's accumulator. -/
def execDigest (g : Guard) (f : Fmt) (a : Src) (ch : Int) (s : State) : Answer :=
  s.run fun c => do
    checkOperands c g .noDest f (if f = .b128 then [] else [(.vec f, a)])
    let value : Nat → List Byte :=
      if f = .b128 then let v := readVec128 c.w a; fun l => leBytes 16 (nth v l 0).toNat
      else let v := readVec c.w c.p f a; fun l => leBytes (accessBytes f) (atLane v l).toNat
    let sum := (lanesOf (c.real g)).foldl (fun (n : BitVec 256) l =>
      n + BitVec.ofNat 256 (leNat ((sha384 (digestMessage c f ch.toNat l (value l))).take 32))) 0
    return (s.setBlock c.bid fun b => { b with accum := b.accum + sum }).skip c

/-- `detq` (R516). -/
def execDetq (g : Guard) (d : Dst) (s : State) : Answer :=
  s.run fun c =>
    let v := BitVec.ofNat 64 (c.la.det + c.blk.logCounts.getD c.w.index 0 * 2 ^ 32)
    let r := scalarResult c.w d (if c.once g then some v else none)
    .ok (s.complete c r.1 r.2)

/-! ### `brk`, `tmark`, `rdclk` (R530) -/

def execBrk (g : Guard) (n : Int) (s : State) : Answer :=
  s.run fun c => do
    if !c.once g then return s.skip c
    raise 0x70 0 (c.real g) (BitVec.ofInt 64 n)

def execTmark (g : Guard) (x : Src) (s : State) : Answer :=
  s.run fun c => do
    checkLatch c g .sca x
    if !c.once g then return s.skip c
    return (s.trace c.env.part 1 c.wid c.pidx (readSca c.w c.p x).toNat).skip c

def execRdclk (g : Guard) (d : Dst) (s : State) : Answer :=
  s.run fun c =>
    let r := scalarResult c.w d (if c.once g then some (BitVec.ofNat 64 s.cycle) else none)
    .ok (s.complete c r.1 r.2)

/-! ### Ring registers (R520, R521, R535) -/

/-- A counter field of 48 bits. -/
def low48 (v : Word) : Nat := v.toNat % 2 ^ 48

/-- The first trace record once room has come back says how many were dropped (R537). -/
def State.tellLost (s : State) (part : Nat) : State :=
  match s.parts.get? part with
  | none => s
  | some p =>
    if p.dropped = 0 || !p.trcEn.getLsbD 7 || !p.traceRoom then s
    else
      let bs := leBytes 8 s.cycle ++ zeros 8 ++ leBytes 8 (7 * 2 ^ 60) ++ leBytes 8 p.dropped
      (s.putTrace part bs).setPart part fun p => { p with dropped := 0 }

/-- A HEAD write: accepted from the old head to cmt, for the trace ring to tail; RPL_HEAD is read only. Those that wait for room go on. -/
def execRingHeadWrite (part : Nat) (ring : Ring) (v : Word) (s : State) : Answer :=
  match s.parts.get? part with
  | none => .next s
  | some p =>
    let n := low48 v
    let within (r : RingRegs) (top : Nat) : Bool := r.head ≤ n && n ≤ top
    match ring with
    | .guestbook => if within p.gbk p.gbk.cmt then .next (s.setPart part fun p => { p with gbk := { p.gbk with head := n } }) else .next s
    | .logbook =>
      if within p.log p.log.cmt then .next ((s.setPart part fun p => { p with log := { p.log with head := n } }).wake .monitor) else .next s
    | .trace =>
      if within p.trc p.trc.tail then .next ((s.setPart part fun p => { p with trc := { p.trc with head := n } }).tellLost part)
      else .next s
    | .replay => .next s

/-- A BASE or CFG value in a ring that restarts. -/
def RingRegs.configured (r : RingRegs) (cfg : Bool) (v : Word) : RingRegs :=
  let r := r.restarted
  if cfg then { r with log2 := v.toNat % 32 } else { r with base := (v.extractLsb' 12 35).toNat * 4096 }

/-- A BASE or CFG write: only with no context; TRC_CFG is a plain register. -/
def execRingBaseCfgWrite (part : Nat) (ring : Ring) (cfg : Bool) (v : Word) (s : State) : Answer :=
  match s.parts.get? part with
  | none => .next s
  | some p =>
    if ring = .trace && cfg then
      .next (s.setPart part fun p => { p with trcEn := v.extractLsb' 8 8, trc := { p.trc with log2 := v.toNat % 32 } })
    else if p.ctx.state ≠ 0 then .next s
    else match ring with
      | .guestbook => .next (s.setPart part fun p => { p with gbk := p.gbk.configured cfg v, closed := [] })
      | .logbook => .next (s.setPart part fun p => { p with log := p.log.configured cfg v })
      | .replay => .next (s.setPart part fun p => { p with rpl := p.rpl.configured cfg v, replayHeld := [] })
      | .trace => .next (s.setPart part fun p => { p with trc := p.trc.configured cfg v })

/-- RPL_TAIL: entries software has supplied. -/
def execRplTail (part : Nat) (v : Word) (s : State) : Answer :=
  match s.parts.get? part with
  | none => .next s
  | some p =>
    let n := low48 v
    if p.rpl.tail ≤ n && n ≤ p.rpl.cmt + 2 ^ p.rpl.log2 then
      .next (s.setPart part fun p => { p with rpl := { p.rpl with tail := n, fin := false } })
    else .next (s.setPart part fun p => { p with rpl := { p.rpl with fin := false } })

/-- RPL_CTL.end: no further entries; decisions that wait for one look again. -/
def execRplCtlEnd (part : Nat) (v : Word) (s : State) : Answer :=
  if v.getLsbD 48 then .next ((s.setPart part fun p => { p with rpl := { p.rpl with fin := true } }).wake .monitor) else .next s

/-! ### Reading the replay ring (R523, R527) -/

/-- The replaying launch whose packet names a reference. -/
def State.replayOf (s : State) (part reference : Nat) : Option Nat :=
  (s.launches.find? fun l => partOfLaunch l.1 == part && l.2.det == 2 && l.2.reference == reference).map (·.1)

/-- One entry enters its queue; a LAUNCH entry waits for the launch it is supplied for. -/
def State.sortEntry (s : State) (part : Nat) (p : Partition) (w0 w1 : Nat) : Option State :=
  let kind := w0 / 2 ^ 60
  let ltag := w0 / 2 ^ 48 % 4096
  let next (s : State) : State := s.setPart part fun p => { p with rpl := { p.rpl with head := p.rpl.head + 1 } }
  if kind = 1 then
    (s.replayOf part w1).map fun lid => next (s.setPart part fun p => { p with replayTags := p.replayTags.put ltag lid })
  else if kind = 2 then
    some (next (s.setPart part fun p => { p with replaySites := p.replaySites.put ltag (w0 % 2 ^ 47) }))
  else if 3 ≤ kind && kind ≤ 11 then
    match p.replayTags.get? ltag with
    | none => some (next s)
    | some lid =>
      let e : ReplayEntry :=
        { index := p.rpl.head, kind := kind, launch := lid, site := if kind ≤ 5 then p.replaySites.get? ltag else none
          warp := w0 / 2 ^ 40 % 32, block := w0 % 2 ^ 40, key := w1 / 2 ^ 40, value := w1 % 2 ^ 40 }
      some (next (s.setPart part fun p => { p with replayHeld := p.replayHeld ++ [e] }))
  else some (next s)

/-- The command processors read the next supplied entry while fewer than 65,536 are held. -/
def execReplayRingRead (part : Nat) (s : State) : Answer :=
  match s.parts.get? part with
  | none => .next s
  | some p =>
    if p.ctx.state ≠ 1 || s.standing part || p.rpl.tail ≤ p.rpl.head || 65536 ≤ p.replayHeld.length then .next s else
    let (w0, w1) := match s.readPlain ⟨part, 0⟩ (p.rpl.base + 16 * (p.rpl.head % 2 ^ p.rpl.log2)) 16 with
      | .ok bs => (fieldAt bs 0 8, fieldAt bs 8 8)
      | .error _ => (0, 0)
    match s.sortEntry part p w0 w1 with
    | some t => .next (t.wake .monitor)
    | none => .next s

/-! ### Held paths (R531, R534) -/

/-- The warp of a partition's running context that holds a frame slot. -/
def State.warpAtSlot (s : State) (part slot : Nat) : Option (Nat × Warp) := (s.partWarps part).find? fun w => w.2.frameSlot == slot

/-- The path a DBG_CMD value names, where it is one that may be held: neither free nor halted. -/
def State.namedPath (s : State) (part : Nat) (v : Word) : Option (Nat × Nat × Path) :=
  match s.warpAtSlot part (v.extractLsb' 5 15).toNat with
  | none => none
  | some (wid, w) =>
    let i := (v.extractLsb' 20 4).toNat
    let p := w.path i
    if p.state == .free || w.halted || p.state == .parked .halted then none else some (wid, i, p)

/-- DBG_CMD op 1: the path is held before its next issue. -/
def execDbgHold (part : Nat) (v : Word) (s : State) : Answer :=
  match s.namedPath part v with
  | none => .next s
  | some (wid, i, p) =>
    if p.state == .parked .debugHold then .next s else .next (s.setPath wid i fun p => { p with holdAsked := true })

/-- A path is released: its unit issues again from its start. -/
def State.release (s : State) (part wid i : Nat) (p : Path) : State :=
  if p.state == .parked .debugHold then
    let cycle := s.cycle
    (s.trace part 5 wid i 0).setPath wid i fun p => { p with state := .live, since := cycle, exempt := 2, holdAsked := false }
  else s.setPath wid i fun p => { p with holdAsked := false }

/-- DBG_CMD op 2. -/
def execDbgRelease (part : Nat) (v : Word) (s : State) : Answer :=
  match s.namedPath part v with
  | none => .next s
  | some (wid, i, p) => .next (s.release part wid i p)

/-- The held paths of a partition. -/
def State.heldPaths (s : State) (part : Nat) : List (Nat × Nat × Path) :=
  (s.partWarps part).flatMap fun w => w.2.paths.zipIdx.filterMap fun p =>
    if p.1.state == .parked .debugHold then some (w.1, p.2, p.1) else none

/-- DBG_CMD op 3. -/
def execDbgReleaseAll (part : Nat) (_ : Word) (s : State) : Answer :=
  .next ((s.heldPaths part).foldl (fun s x => s.release part x.1 x.2.1 x.2.2) s)

/-! ### Slot counters (R538, R539) -/

/-- The 32 counters of a quarter. -/
def State.counters (s : State) (q : Nat) : List Nat :=
  let leaves := s.slots.getD q (List.replicate 28 0)
  let named := (List.range 28).map fun k => if k = 0 ∨ k = 22 then 0 else nth leaves k 0
  ((List.range 28).map fun k => if k = 0 then s.cycle else if k = 22 then s.cycle - named.sum else nth leaves k 0)
    ++ [0, s.correctedCompute.getD q 0, s.correctedFetch.getD (q / 4) 0, s.copyErrors.getD (q / 4) 0]

/-- A read of counter 0 latches the others. -/
def execCounterRead (core quarter : Nat) (s : State) : Answer :=
  if 512 ≤ core || 4 ≤ quarter then .next s else
  let q := 4 * core + quarter
  let cs := s.counters q
  .next { s with latched := s.latched.put q cs, hostData := leBytes 8 (nth cs 0 0) }

/-! ### The freeze (R540, R545) -/

/-- FRZ_N is driven low. -/
def execFrzN (s : State) : Answer := .next (s.freeze 0 0)

/-- CTL_FREEZE: with its key, from the port that holds CTL_HWSEM. -/
def execCtlFreeze (port : Nat) (v : Word) (s : State) : Answer :=
  if s.ctl.owner = port + 1 && v.extractLsb' 8 8 = 0xA5 && v.getLsbD 0 then .next (s.freeze 9 0) else .next s

/-! ### What the debug port reads (R541, R542, log entry 43) -/

/-- A run of bytes of which each can be read by itself. -/
structure Section where
  kind : Nat
  unit : Nat
  len  : Nat
  at'  : Nat → Byte

/-- The bytes of a list as a section's body. -/
def Section.ofBytes (kind unit : Nat) (bs : List Byte) : Section := ⟨kind, unit, bs.length, fun i => nth bs i 0⟩

/-- CTX_STAT (R467). -/
def State.ctxStat (s : State) (part : Nat) (p : Partition) : Nat :=
  let busy := p.ctx.work.isSome
  p.ctx.stopcyc % 2 ^ 32 * 2 ^ 32 + p.halts * 2 ^ 16 + (s.cellars.get? part).isSome.toNat * 256 + busy.toNat * 128 + p.ctx.state

/-- Section 1. -/
def State.headSection (s : State) : Section :=
  let t := s.trigger.getD (0, 0)
  Section.ofBytes 1 0 (leBytes 8 s.cycle ++ leBytes 4 t.1 ++ leBytes 1 t.2 ++ zeros 3
    ++ (List.range 32).flatMap fun k => leBytes 8 ((s.parts.get? k).elim 0 fun p => s.ctxStat k p))

/-- The record of a warp: its frame, the windows of its paths, its stack entries held in hardware, its allocation, and its own numbers. -/
def Warp.recordBytes (w : Warp) (cycle : Nat) : List Byte :=
  frameBytes w w.trapPath ⟨w.cause.toNat % 256, w.cause.toNat / 256 % 256, w.cdata, w.lmask.setWidth 32⟩ ⟨0, none⟩ cycle 0 0
    ++ w.paths.flatMap (fun p => ([1, 2, 3, 4, 5, 6, 7, 8].map fun k => BitVec.ofNat 8 ((p.place k).elim 255 Place.code))
        ++ [1, 2, 3, 4, 5, 6, 7, 8].flatMap fun k => Place.image (p.place k))
    ++ w.rets.flatMap (fun r => leBytes 8 r.pc.toNat ++ leBytes 4 r.f ++ leBytes 4 r.id)
    ++ w.v.flatMap (fun r => r.flatMap fun x => leBytes 4 x.toNat)
    ++ leBytes 4 w.frameSlot ++ leBytes 4 w.wbase ++ leBytes 4 w.sfloor ++ leBytes 4 w.index

/-- The record of a block: its barriers, its SRAM run, its commands' numbers and states, its collective counter. -/
def Block.recordBytes (b : Block) : List Byte :=
  b.bars.flatMap (fun x => leBytes 4 x.e ++ leBytes 4 x.n ++ leBytes 4 x.ph.toNat ++ zeros 4)
    ++ leBytes 8 (128 * b.sramBase) ++ leBytes 8 b.collSeq
    ++ b.copies.flatMap fun c => leBytes 8 c.1 ++ leBytes 8 c.2.done

/-- A core's slice and presence bits. -/
def State.coreSection (s : State) (core : Nat) : Section :=
  let m := s.beneath.mem
  ⟨4, core, 2 ^ 21 + 2048, fun i =>
    if i < 2 ^ 21 then m.byte (sramKey core i)
    else
      let line := sramKey core 0 / 128 + 8 * (i - 2 ^ 21)
      BitVec.ofNat 8 ((List.range 8).map fun k => if (s.absent.get? (line + k)).isNone then 2 ^ k else 0).sum⟩

/-- The code of an order (R104). -/
def Order.code' : Order → Nat
  | .rlx => 0 | .acq => 1 | .rel => 2 | .acqrel => 3 | .sc => 4

/-- The entry of a pending store. -/
def Store.entry (t : Store) : List Byte :=
  leBytes 8 t.piece.va ++ padTo 16 (t.data.take 16) ++ leBytes 1 t.data.length ++ leBytes 1 (Order.code' t.ord) ++ leBytes 1 t.mask.toNat
    ++ leBytes 1 ((lanesOf t.lanes).headD 0) ++ zeros 4

/-- A piece of more than 16 bytes takes an entry for each 16 of them. -/
def Store.entries (t : Store) : List Byte :=
  let rest : Store := { t with piece := { t.piece with va := t.piece.va + 16 }, data := t.data.drop 16 }
  if t.data.length ≤ 16 then t.entry else { t with data := t.data.take 16 }.entry ++ rest.entry

/-- The pending stores of a core in issue order (R542): performed ones that some lanes do not see, then those in the queue. -/
def State.pendingOf (s : State) (core : Nat) : List Store :=
  ((s.hidden.reverse.filterMap (·.store)) ++ s.stores).filter fun t => t.copy.isNone && coreOf t.warp == core

/-- The lines of a die's memory-side cache that differ from HBM: address and bytes (R541). -/
def State.dirtyLines (s : State) (die : Nat) : List Byte :=
  let m := s.beneath.mem
  (s.cache.filter fun x => lineDie x.1 == die && x.2.under.isSome).flatMap fun x => leBytes 8 (128 * x.1) ++ m.bytes (128 * x.1) 128

/-- The sections of the image, in the order of their types. -/
def State.imageSections (s : State) : List Section :=
  s.headSection
    :: (s.warps.map fun w => Section.ofBytes 2 w.2.frameSlot (w.2.recordBytes s.cycle))
    ++ (s.blocks.map fun b => Section.ofBytes 3 (b.2.mslot.getD 0xFFFF) b.2.recordBytes)
    ++ (List.range 512).map s.coreSection
    ++ ((List.range 512).map fun c => Section.ofBytes 5 c ((s.pendingOf c).flatMap Store.entries))
    ++ ((List.range 2048).map fun q => Section.ofBytes 6 q ((s.counters q).flatMap (leBytes 8)))
    ++ ((List.range 8).map fun d => Section.ofBytes 7 d (s.dirtyLines d))

/-- The byte of a section at an offset from its header on. -/
def Section.byte (x : Section) (i : Nat) : Byte :=
  if i < 16 then nth (leBytes 2 x.kind ++ leBytes 2 x.unit ++ leBytes 4 x.len ++ zeros 8) i 0 else x.at' (i - 16)

/-- A byte of a stream of sections. -/
def sectionByte : List Section → Nat → Byte
  | [], _ => 0
  | x :: r, i => if i < 16 + x.len then x.byte i else sectionByte r (i - (16 + x.len))

/-- A byte of HBM itself: for a modified line of a memory-side cache what lies under it, else what memory holds without pending writes. -/
def State.hbmByte (s : State) (m : Memory) (k : Nat) : Byte :=
  match (s.cache.get? (k / 128)).bind (·.under) with
  | some old => nth old (k % 128) 0
  | none => m.byte k

/-- The TAP reads HBM by address, and the frozen image as one byte stream from 2^52 on. -/
def execDebugPortRead (addr len : Nat) (s : State) : Answer :=
  if addr < 2 ^ 52 then
    let m := s.beneath.mem
    .next { s with hostData := (List.range len).map fun i => s.hbmByte m (addr + i) }
  else if s.frozen then
    let xs := s.imageSections
    .next { s with hostData := (List.range len).map fun i => sectionByte xs (addr - 2 ^ 52 + i) }
  else .next s

end Sys2Proof.Machine
end

