-- ==== Sys2Proof/Machine/Manage.lean ====
section
/-! DEFINITION. The control block's semaphore (spec/29 R544), boot (R548 to R550), owner keys, configuration records and attestation (R551
to R554), the security mailbox's commands (R556), cold reset and the arithmetic clock (R557). -/
namespace Sys2Proof.Machine

def State.setCtl (s : State) (f : Control → Control) : State := { s with ctl := f s.ctl }

/-! ### The hardware semaphore (R544) -/

/-- A hold lasts 10,000 µs: 12,500,000 cycles. -/
def holdCycles : Nat := 12500000

/-- CTL_HWSEM. -/
def State.hwsemWord (s : State) : Nat :=
  if s.ctl.owner = 0 then 0 else ceilDiv (s.ctl.until' - s.cycle) 1250 * 2 ^ 16 + s.ctl.owner * 2 + 1

/-- A read from a port takes a free semaphore, and restarts its owner's hold. -/
def execHwsemRead (port : Nat) (s : State) : Answer :=
  let t := { s with hostData := leBytes 8 s.hwsemWord }
  let until' := s.cycle + holdCycles
  if s.ctl.owner = 0 || s.ctl.owner = port + 1 then .next (t.setCtl fun c => { c with owner := port + 1, until' := until' }) else .next t

/-- A write of any value from the owner releases it. -/
def execHwsemRelease (port : Nat) (s : State) : Answer :=
  if s.ctl.owner = port + 1 then .next (s.setCtl fun c => { c with owner := 0, until' := 0 }) else .next s

/-- The hold lapses. -/
def execHwsemLapse (s : State) : Answer :=
  if s.ctl.owner = 0 || s.cycle < s.ctl.until' then .next s
  else .next (s.setCtl fun c => { c with owner := 0, until' := 0, lapses := satAdd 8 c.lapses 1 })

/-! ### Signatures (R549, R551) -/

/-- The owner's public keys: ECDSA, LMS. -/
def Flash.ownerKeys (f : Flash) : List Byte × List Byte := f.keys.getD (Config.shippedEcdsaKey, Config.shippedLmsKey)

/-- Whether both signatures of the owner verify. -/
def Flash.verifies (f : Flash) (message ecdsa lms : List Byte) : Bool :=
  Config.ecdsaVerifies f.ownerKeys.1 message ecdsa && Config.lmsVerifies f.ownerKeys.2 message lms

/-! ### Configuration (R552, R553) -/

/-- The key of a record. -/
def recordKey (kind part : Nat) : Nat := kind * 65536 + part

/-- A record's body as 8-byte values. -/
def bodyValues (body : List Byte) : List Nat := (List.range (body.length / 8)).map fun i => fieldAt body (8 * i) 8

/-- Whether the partitions of a kind 1 body are disjoint sets of core groups. -/
def maskDisjoint (vs : List Nat) : Bool :=
  (vs.take 32).foldl (fun (x : Nat × Bool) v => (x.1 ||| v % 2 ^ 32, x.2 && x.1 &&& (v % 2 ^ 32) == 0)) (0, true) |>.2

/-- Kind 1: the partitions and their core groups. -/
def State.applyPartitions (s : State) (vs : List Nat) : State :=
  { s with parts := (vs.take 32).zipIdx.foldl (fun (m : NMap Partition) v =>
      if v.1 % 2 ^ 32 = 0 then m.del v.2
      else m.put v.2 { m.getD v.2 (Partition.reset 0) with groups := BitVec.ofNat 32 v.1 }) s.parts }

/-- A queue with the base and configuration a record gives it. -/
def Queue.initial (x : Queue) (base cfg : Nat) : Queue :=
  { x with base := base / 4096 % 2 ^ 35 * 4096, log2 := cfg / 16 % 32, serial := cfg.testBit 2, devFeed := cfg.testBit 1, enable := cfg.testBit 0 }

/-- Kind 3: initial values of queues, two values each after the fifteen of the areas. -/
def State.applyQueues (s : State) (part : Nat) (vs : List Nat) : State :=
  s.setPart part fun p => { p with queues := (List.range (min 64 ((vs.length - 15) / 2))).foldl (fun m q =>
    NMap.put m q ((p.queue q).initial (nth vs (15 + 2 * q) 0) (nth vs (16 + 2 * q) 0))) p.queues }

/-- Kind 5: the member index, the domain's initial manifest, which the initial view holds (R400, R401), and each partition's Canal aperture,
its base and its size (R306, log entry 24). -/
def State.applyDomain (s : State) (body : List Byte) : State :=
  let self := fieldAt body 0 8 % 1024
  let manifest := BitVec.ofNat 1024 (leNat ((body.drop 8).take 128))
  let s := { s with
    self := self, domain := manifest
    parts := s.parts.map fun p => (p.1, { p.2 with aperture := (fieldAt body (136 + 16 * p.1) 8, fieldAt body (144 + 16 * p.1) 8) }) }
  if manifest.getLsbD self then
    let cycle := s.cycle
    { s with viewNo := 1, manifest := manifest, heard := (membersOf manifest).map fun m => (m, cycle) }
  else s

/-- A record takes effect. -/
def State.applyRecord (s : State) (kind part : Nat) (body : List Byte) : State :=
  match kind with
  | 1 => s.applyPartitions (bodyValues body)
  | 3 => s.applyQueues part (bodyValues body)
  | 5 => s.applyDomain body
  | _ => s

/-- The partitions a record affects: its own, every one for a device-wide kind but that of the security versions. -/
def State.affected (s : State) (kind part : Nat) : NMap Partition :=
  if kind = 2 ∨ kind = 3 then s.parts.filter fun p => p.1 == part else if kind = 7 then [] else s.parts

/-- The status of a configuration record (R553, R556): 0 where it may be applied. -/
def State.recordStatus (s : State) (bs : List Byte) : Nat :=
  let kind := fieldAt bs 4 2
  let part := fieldAt bs 6 2
  let blen := fieldAt bs 0x10 4
  let suits := if kind = 2 ∨ kind = 3 then decide (part < 32) else part == 0xFFFF
  if bs.length < 0xA0 then 2
  else if fieldAt bs 0 4 ≠ 0x47464358 || kind = 0 || 7 < kind || !suits || fieldAt bs 0x18 40 ≠ 0 then 1
  else if blen % 8 ≠ 0 || 65536 < blen || bs.length ≠ 0xA0 + blen + fieldAt bs 0x14 4 then 2
  else if kind = 1 && !maskDisjoint (bodyValues ((bs.drop 0x40).take blen)) then 1
  else if !s.flash.verifies (bs.take (0x40 + blen)) ((bs.drop (0x40 + blen)).take 96) (bs.drop (0xA0 + blen)) then 3
  else if (s.flash.records.get? (recordKey kind part)).any fun r => fieldAt bs 8 8 < r.generation then 5
  else if (s.affected kind part).any fun p => p.2.ctx.state ≠ 0 then 6
  else 0

/-- A record that passed is kept in flash and takes effect. -/
def State.takeRecord (s : State) (bs : List Byte) : State :=
  let kind := fieldAt bs 4 2
  let part := fieldAt bs 6 2
  let body := (bs.drop 0x40).take (fieldAt bs 0x10 4)
  let s := { s with flash := { s.flash with records := NMap.put s.flash.records (recordKey kind part) ⟨fieldAt bs 8 8, bs, body⟩ } }
  s.applyRecord kind part body

/-! ### Images and boot (R549, R550) -/

/-- The minimum security version of a hart class (R552 kind 7). -/
def Flash.minVersion (f : Flash) (cls : Nat) : Nat :=
  ((f.records.get? (recordKey 7 0xFFFF)).map fun r => nth (bodyValues r.body) cls 0).getD 0

/-- A field of an image's header as a number. -/
def imageNumber (k : Nat) (bs : List Byte) : Nat := leNat (Config.imageField k (bs.take 256))

/-- The status of an image: 0 where it is accepted. -/
def Flash.imageStatus (f : Flash) (bs : List Byte) : Nat :=
  if bs.length < 256 ∨ bs.length ≠ 256 + imageNumber 2 bs then 2
  else if fieldAt bs 0 4 ≠ 0x4D495850 then 1
  else if sha384 (bs.drop 256) ≠ Config.imageField 3 (bs.take 256)
    || !f.verifies (bs.take 96) (Config.imageField 4 (bs.take 256)) (Config.imageField 5 (bs.take 256)) then 3
  else if imageNumber 1 bs < f.minVersion (imageNumber 0 bs) then 5
  else 0

/-- The image of a stage: one that the mailbox has brought, else flash's. -/
def State.stageImage (s : State) (stage : Nat) : List Byte :=
  (s.ctl.running.get? stage).getD (s.flash.images.getD stage (Config.shippedImage stage))

/-- Whether a record that flash holds verifies against the owner's keys (R551 to R553). -/
def Flash.holds (f : Flash) (r : ConfRecord) : Bool :=
  let n := 0x40 + r.body.length
  f.verifies (r.bytes.take n) ((r.bytes.drop n).take 96) (r.bytes.drop (n + 96))

/-- What a stage does once its image is accepted: the second verifies and applies the records; one that no longer verifies, since the
keys have changed, is refused and is not in force (log entry 203). -/
def State.runStage (s : State) (stage : Nat) : State :=
  let image := s.stageImage stage
  let s := s.setCtl fun c => { c with boot := stage, refused := 0, running := NMap.put c.running stage image }
  if stage = 2 then
    let s := { s with flash := { s.flash with records := s.flash.records.filter fun r => s.flash.holds r.2 } }
    s.flash.records.foldl (fun s r => s.applyRecord (r.1 / 65536) (r.1 % 65536) r.2.body) s else s

/-- Boot from a stage on, until one is refused. -/
def bootFrom : Nat → Nat → State → State
  | 0, _, s => s
  | fuel + 1, stage, s =>
    if 4 < stage then s
    else if s.flash.imageStatus (s.stageImage stage) = 0 then bootFrom fuel (stage + 1) (s.runStage stage)
    else s.setCtl fun c => { c with refused := stage }

/-- Boot after a cold reset; the mailbox is served whatever a stage finds. -/
def State.startBoot (s : State) : State := (bootFrom 4 1 s).setCtl fun c => { c with ready := true }

/-! ### The mailbox's commands (R551, R554, R556) -/

/-- The end of a command: its status, its response. -/
def State.mailDone (s : State) (status : Nat) (response : List Byte) : State :=
  s.setCtl fun c => { c with
    status := status, rlen := response.length % 4096, buf := (response ++ c.buf.drop response.length).take 2048 }

/-- A command of a mailbox that is ready. -/
def State.mail (s : State) (f : State) : Answer := if s.ctl.ready then .next f else .next (s.mailDone 8 [])

/-- NONCE. -/
def execNonce (s : State) : Answer :=
  let n := leBytes 48 (Config.freshNonce s.ctl.nonces).toNat
  s.mail ((s.setCtl fun c => { c with nonce := some n, nonces := c.nonces + 1 }).mailDone 0 n)

/-- IMAGE: an accepted image restarts boot at its stage; one of stage 1 replaces the security image in flash. -/
def execImage (stage : Nat) (bytes : List Byte) (s : State) : Answer :=
  let status := if stage = 0 ∨ 4 < stage then 1 else s.flash.imageStatus bytes
  if status ≠ 0 then s.mail (s.mailDone status [])
  else
    let t := s.setCtl fun c => { c with running := NMap.put c.running stage bytes }
    let t := if stage = 1 then { t with flash := { t.flash with images := NMap.put t.flash.images 1 bytes } } else t
    s.mail ((bootFrom 4 stage t).mailDone 0 [])

/-- The fields of a transfer record (log entry 44): the new keys, the nonce, the signatures. -/
def transferFields (bs : List Byte) : List Byte × List Byte × List Byte × List Byte × List Byte :=
  ((bs.drop 4).take 96, (bs.drop 100).take 48, (bs.drop 148).take 48, (bs.drop 196).take 96, bs.drop 292)

/-- TRANSFER: the new keys go to the other slot, which is then selected; the nonce is used. -/
def execTransfer (bytes : List Byte) (s : State) : Answer :=
  let (ecdsaKey, lmsKey, nonce, ecdsa, lms) := transferFields bytes
  let status :=
    if bytes.length < 292 then 2
    else if fieldAt bytes 0 4 ≠ 0x46525458 then 1
    else if s.ctl.nonce ≠ some nonce then 4
    else if !s.flash.verifies (bytes.take 196) ecdsa lms then 3
    else 0
  if status ≠ 0 then s.mail (s.mailDone status [])
  else
    let t := { s with flash := { s.flash with keys := some (ecdsaKey, lmsKey), slot := 1 - s.flash.slot } }
    s.mail ((t.setCtl fun c => { c with nonce := none }).mailDone 0 [])

/-- CONFIG. -/
def execConfig (bytes : List Byte) (s : State) : Answer :=
  let status := s.recordStatus bytes
  if status ≠ 0 then s.mail (s.mailDone status []) else s.mail ((s.takeRecord bytes).mailDone 0 [])

/-- The dies whose harts run a stage's image (R548): compute dies 0 to 7, I/O dies 8 and 9. -/
def stageDies (stage : Nat) : List Nat := if stage = 3 then [0, 1, 2, 3, 4, 5, 6, 7] else [8, 9]

/-- A report before its signatures. -/
def State.reportBody (s : State) (nonce : List Byte) : List Byte :=
  let images := s.ctl.running.flatMap fun r => (stageDies r.1).map fun d =>
    leBytes 2 (imageNumber 0 r.2) ++ leBytes 2 d ++ zeros 4 ++ sha384 r.2
  leBytes 4 0x54544158 ++ nonce ++ leBytes 4 images.length ++ images.flatten
    ++ leBytes 4 s.flash.records.length ++ s.flash.records.flatMap (fun r => sha384 r.2.bytes)
    ++ sha384 (s.flash.ownerKeys.1 ++ s.flash.ownerKeys.2)

/-- ATTEST: the report goes to MBX_HADDR in host memory, its length to MBX_BUF. -/
def execAttest (nonce : List Byte) (s : State) : Answer :=
  let body := s.reportBody nonce
  let report := body ++ Config.attestationSignature body s.ctl.reports
  if nonce.length ≠ 48 || s.ctl.hlen < report.length then s.mail (s.mailDone 2 [])
  else if 2 ^ 52 < s.ctl.haddr + report.length then s.mail (s.mailDone 7 [])
  else
    let t := s.writePiece ⟨hostKey s.ctl.haddr, report.length, s.ctl.haddr, none, none⟩ report
    s.mail ((t.setCtl fun c => { c with reports := c.reports + 1 }).mailDone 0 (leBytes 4 report.length))

/-- KEYS. -/
def execKeys (s : State) : Answer :=
  s.mail (s.mailDone 0 (sha384 (s.flash.ownerKeys.1 ++ s.flash.ownerKeys.2) ++ Config.attestationPublicKeys))

/-! ### Cold reset and the clock (R550, R557) -/

/-- Whether a key of memory lies outside the device. -/
def outsideKey (k : Nat) : Bool := (2 ^ 52 ≤ k && k < 2 ^ 60) || 2 ^ 64 ≤ k

/-- Power-on or a cold reset: nothing of the device stays but its flash; what lies outside it is as it was. Boot runs its stages. -/
def execColdReset (s : State) : Answer :=
  .next { State.reset with
    flash := s.flash, agenda := s.agenda, outbox := s.outbox, drawn := s.drawn, contexts := s.contexts
    mem := s.mem.filter fun c => outsideKey c.1
    poison := s.poison.filter fun k => outsideKey (32 * k)
    iommu := s.iommu, bar2 := s.bar2, images := s.images.filter fun i => outsideKey i.1
    ctl := { Control.reset with nonces := s.ctl.nonces, reports := s.ctl.reports } }.startBoot

/-- The management harts lower the arithmetic clock to 1.0 GHz (1) or 0.75 GHz (2), or let it rise again (0). -/
def execThermalThrottle (level : Nat) (s : State) : Answer := .next { s with throttle := min level 2 }

end Sys2Proof.Machine
end

