-- ==== Sys2Proof/Machine/Bar.lean ====
section
/-! DEFINITION. The register map as the host reaches it (spec/29 R543 to R547, R555, and the register tables of spec/02, spec/19, spec/20,
spec/22, spec/23, spec/27, spec/28): what a write of BAR0 does, what a read of BAR0 or of device memory gives. -/
namespace Sys2Proof.Machine

/-! ### Where the blocks stand (R546) -/

def partBase : Nat := 0x100000
def linkBase : Nat := 0x300000
def canalBase : Nat := 0x302000
def viewBase : Nat := 0x304000
def mailBase : Nat := 0x305000
def counterBase : Nat := 0x380000

/-- Whether an offset lies in a block. -/
def inBlock (base size off : Nat) : Bool := base ≤ off && off < base + size

/-- After a refused image only the control block, the capability list and the mailbox are served (R550). -/
def State.served (s : State) (off : Nat) : Bool := s.ctl.refused == 0 || off < 0x2000 || inBlock mailBase 4096 off

/-! ### Writes of a partition block -/

/-- A queue register (R57). -/
def writeQueue (part o : Nat) (v : Word) (s : State) : Answer :=
  let q := o / 0x40
  match o % 0x40 with
  | 0x00 => execQueueBase part q v s
  | 0x08 => execQueueCfg part q v s
  | 0x10 => execQueueTail part q v s
  | 0x30 => execQueueErrctlClear part q v s
  | 0x38 => execQueueAbort part q v s
  | _ => .next s

/-- CTX_CMD (R467, R468). -/
def writeCtxCmd (part : Nat) (v : Word) (s : State) : Answer :=
  match v.toNat % 8 with
  | 1 => execCtxPark part v s
  | 2 => execCtxSave part v s
  | 3 => execCtxRestore part v s
  | 4 => execCtxSwitch part v s
  | 5 => execCtxTerminate part v s
  | 6 => execCtxCreate part v s
  | _ => .next s

/-- CKPT_CMD (R476). -/
def writeCkptCmd (part : Nat) (v : Word) (s : State) : Answer :=
  match v.toNat % 4 with
  | 1 => execCkptCloseNow part s
  | 2 => execCkptRollbackNow part s
  | _ => .next s

/-- DBG_CMD (R531). -/
def writeDbgCmd (part : Nat) (v : Word) (s : State) : Answer :=
  match v.toNat % 8 with
  | 1 => execDbgHold part v s
  | 2 => execDbgRelease part v s
  | 3 => execDbgReleaseAll part v s
  | _ => .next s

/-- DBG_BPCTL: setting enable starts its count again (R531). -/
def Comparator.control (x : Comparator) (v : Word) : Comparator :=
  { x with
    hits := if v.getLsbD 0 then 0 else x.hits
    action := (v.extractLsb' 6 2).toNat, len := (v.extractLsb' 4 2).toNat, kind := (v.extractLsb' 2 2).toNat, enable := v.getLsbD 0 }

/-- A comparator's register. -/
def State.writeComparator (s : State) (part o : Nat) (v : Word) : State :=
  s.setPart part fun p => { p with comps := modifyAt p.comps (o / 16) fun x =>
    if o % 16 = 0 then { x with addr := v } else if o % 16 = 8 then x.control v else x }

/-- Reserved bits of CKPT_CFG and CKPT_AREA read zero. -/
def ckptCfgMask : Word := 0xFFFFFFFFFFFF0007
def ckptAreaMask : Word := 0xFFF07FFFFFE00000

/-- A register of a partition block. -/
def writePart (part o : Nat) (v : Word) (s : State) : Answer :=
  if (s.parts.get? part).isNone then .next s
  else if o < 0x1000 then writeQueue part o v s
  else if inBlock 0x9000 0x80 o then .next (s.writeComparator part (o - 0x9000) v)
  else match o with
    | 0x6000 => writeCtxCmd part v s
    | 0x6010 => .next (s.setCtx part fun c => { c with area := (v.extractLsb' 16 31).toNat * 65536 })
    | 0x7000 => .next (s.setCk part fun c => { c with cfg := v &&& ckptCfgMask })
    | 0x7008 => .next (s.setCk part fun c => { c with area := v &&& ckptAreaMask })
    | 0x7020 => writeCkptCmd part v s
    | 0x8000 => execRingBaseCfgWrite part .guestbook false v s
    | 0x8008 => execRingBaseCfgWrite part .guestbook true v s
    | 0x8018 => execRingHeadWrite part .guestbook v s
    | 0x8040 => execRingBaseCfgWrite part .logbook false v s
    | 0x8048 => execRingBaseCfgWrite part .logbook true v s
    | 0x8058 => execRingHeadWrite part .logbook v s
    | 0x8080 => execRingBaseCfgWrite part .replay false v s
    | 0x8088 => execRingBaseCfgWrite part .replay true v s
    | 0x8090 => execRplTail part v s
    | 0x80A0 => execRplCtlEnd part v s
    | 0x9080 => writeDbgCmd part v s
    | 0x9100 => execRingBaseCfgWrite part .trace false v s
    | 0x9108 => execRingBaseCfgWrite part .trace true v s
    | 0x9118 => execRingHeadWrite part .trace v s
    | _ => .next s

/-! ### The mailbox (R555, R556) -/

/-- The bytes at MBX_HADDR, where they can be read. -/
def State.mailBytes (s : State) : Option (List Byte) :=
  if 2 ^ 52 < s.ctl.haddr + s.ctl.hlen then none else some (s.mem.bytes (hostKey s.ctl.haddr) s.ctl.hlen)

/-- Runs a command on the bytes it names. -/
def State.withMail (s : State) (f : List Byte → Answer) : Answer :=
  match s.mailBytes with
  | some bs => f bs
  | none => s.mail (s.mailDone 7 [])

/-- MBX_CTL.go. -/
def runMail (s : State) : Answer :=
  if 2048 < s.ctl.len then s.mail (s.mailDone 2 []) else
  match s.ctl.cmd with
  | 1 => execNonce s
  | 2 => s.withMail fun bs => execImage (nth s.ctl.buf 0 0).toNat bs s
  | 3 => s.withMail fun bs => execTransfer bs s
  | 4 => s.withMail fun bs => execConfig bs s
  | 5 => execAttest (s.ctl.buf.take (if s.ctl.len = 48 then 48 else 0)) s
  | 6 => execKeys s
  | _ => s.mail (s.mailDone 1 [])

/-- A mailbox register, from the port that holds CTL_HWSEM (R545). -/
def writeMail (port o : Nat) (v : Word) (s : State) : Answer :=
  if s.ctl.owner ≠ port + 1 then .next s
  else if inBlock 0x800 2048 o then
    .next (s.setCtl fun c => { c with buf := (c.buf.take (o - 0x800)) ++ leBytes 8 v.toNat ++ c.buf.drop (o - 0x800 + 8) })
  else match o with
    | 0x000 =>
      let s := s.setCtl fun c => { c with len := (v.extractLsb' 32 12).toNat, cmd := (v.extractLsb' 8 8).toNat }
      if v.getLsbD 0 then runMail s else .next s
    | 0x010 => .next (s.setCtl fun c => { c with haddr := v.toNat })
    | 0x018 => .next (s.setCtl fun c => { c with hlen := v.toNat % 2 ^ 32 })
    | _ => .next s

/-! ### Other blocks -/

/-- CANAL_CTL of a port (R441): isolate ends a restore that the same write asks for (R442). -/
def writeCanal (o : Nat) (v : Word) (s : State) : Answer :=
  let p := o / 0x40
  if o % 0x40 ≠ 0x18 || 18 ≤ p then .next s
  else if v.getLsbD 0 then execCanalIsolate p v s
  else execCanalRestore p v s

/-- VIEW_CTL (R404). -/
def writeView (v : Word) (s : State) : Answer :=
  if v.getLsbD 44 then execViewAdmit v s
  else if v.getLsbD 43 then execViewRemove v s
  else .next { s with viewCtl := { s.viewCtl with member := viewMember v } }

/-- A write of an 8-byte register of BAR0 (R545, R546). -/
def execRegisterWrite (port off : Nat) (v : Word) (s : State) : Answer :=
  if off % 8 ≠ 0 || !s.served off then .next s
  else if off = 0x008 then execHwsemRelease port s
  else if off = 0x010 then execCtlFreeze port v s
  else if inBlock partBase 0x200000 off then writePart ((off - partBase) / 0x10000) ((off - partBase) % 0x10000) v s
  else if inBlock linkBase 0x280 off then
    if (off - linkBase) % 0x20 = 0x10 then execD2dClear ((off - linkBase) / 0x20) v s else .next s
  else if inBlock canalBase 0x800 off then writeCanal (off - canalBase) v s
  else if off = viewBase then writeView v s
  else if inBlock mailBase 4096 off then writeMail port (off - mailBase) v s
  else .next s

/-! ### Reads -/

/-- Whether a port runs in CXL mode (R552 kind 4). -/
def Flash.cxl (f : Flash) : Bool := (f.records.get? (recordKey 4 0xFFFF)).any fun r => (bodyValues r.body).any (· == 1)

/-- The capability entries: id and block (R547). -/
def State.capabilities (s : State) : List (Nat × Nat) :=
  [(1, partBase), (2, linkBase), (3, canalBase), (4, viewBase), (5, counterBase), (6, mailBase)] ++ (if s.flash.cxl then [(7, 0)] else [])

def State.readCapability (s : State) (o : Nat) : Nat :=
  let i := o / 16
  match s.capabilities[i]? with
  | none => 0
  | some (id, block) =>
    if o % 16 = 8 then block
    else id + 2 ^ 16 + (if i + 1 < s.capabilities.length then 0x1000 + 16 * (i + 1) else 0) * 2 ^ 32

def State.readControl (s : State) (o : Nat) : Nat :=
  match o with
  | 0x000 => 0xDA12 * 65536 + Config.stepping.toNat
  | 0x008 => s.hwsemWord
  | 0x018 => s.ctl.lapses * 2 ^ 24 + s.ctl.boot * 2 ^ 16 + s.ctl.refused * 256 + s.ctl.ready.toNat
  | 0x020 => 0x1000
  | _ => 0

def Queue.read (x : Queue) (o : Nat) : Nat :=
  match o with
  | 0x00 => x.base
  | 0x08 => x.log2 * 16 + x.serial.toNat * 4 + x.devFeed.toNat * 2 + x.enable.toNat
  | 0x10 => x.tail
  | 0x18 => x.head
  | 0x20 => x.done
  | 0x28 => x.errStatus * 2 ^ 48 + x.errSeq
  | 0x30 => x.errCount
  | _ => 0

/-- A slice map entry (R78). -/
def Slice.word : Option Slice → Nat
  | some (.physical core) => 2 ^ 62 + core
  | some (.backed f) => 2 * 2 ^ 62 + f * 2 ^ 21
  | none => 0

def Comparator.word (x : Comparator) : Nat := x.hits * 2 ^ 56 + x.action * 64 + x.len * 16 + x.kind * 4 + x.enable.toNat

def State.readPartBlock (s : State) (part o : Nat) (p : Partition) : Nat :=
  if o < 0x1000 then (p.queue (o / 0x40)).read (o % 0x40)
  else if inBlock 0x2000 0x4000 o then Slice.word (p.slices.get? ((o - 0x2000) / 8))
  else if inBlock 0x9000 0x80 o then
    let x := nth p.comps ((o - 0x9000) / 16) Comparator.reset
    if o % 16 = 0 then x.addr.toNat else x.word
  else match o with
    | 0x1000 => part * 2 ^ 32 + p.groups.toNat
    | 0x6008 => s.ctxStat part p
    | 0x6010 => p.ctx.area
    | 0x6018 => if (s.cellars.get? part).isSome then p.cellarArea else 0
    | 0x6020 => p.ctx.saveCost
    | 0x7000 => p.ck.cfg.toNat
    | 0x7008 => p.ck.area.toNat
    | 0x7010 => p.ck.stat
    | 0x7018 => s.ckptStat2 part p
    | 0x7028 => p.ck.drained * 2 ^ 32
    | 0x8000 => p.gbk.base
    | 0x8008 => p.gbk.log2
    | 0x8010 => p.gbk.tail
    | 0x8018 => p.gbk.head
    | 0x8020 => p.gbk.cmt
    | 0x8040 => p.log.base
    | 0x8048 => p.log.log2
    | 0x8050 => p.log.tail
    | 0x8058 => p.log.head
    | 0x8060 => p.log.cmt
    | 0x8080 => p.rpl.base
    | 0x8088 => p.rpl.log2
    | 0x8090 => p.rpl.tail
    | 0x8098 => p.replayLow
    | 0x80A0 => p.rpl.fin.toNat * 2 ^ 48 + p.rpl.cmt
    | 0x9088 => min (s.heldPaths part).length 65535
    | 0x9100 => p.trc.base
    | 0x9108 => p.trcEn.toNat * 256 + p.trc.log2
    | 0x9110 => p.trc.tail
    | 0x9118 => p.trc.head
    | _ => 0

def Link.read (x : Link) (o : Nat) : Nat :=
  match o with
  | 0x00 => x.retrains * 2 ^ 24 + x.spares * 256 + x.width * 16 + x.state
  | 0x08 => x.crcfail * 2 ^ 32 + x.replays
  | _ => 0

def Port.read (x : Port) (o : Nat) : Nat :=
  match o with
  | 0x00 => x.peer % 1024 * 2 ^ 32 + x.isolated.toNat * 2 ^ 31 + x.link.width * 2 ^ 24 + x.link.retrains * 2 ^ 16 + x.link.state
  | 0x08 => x.link.crcfail * 2 ^ 32 + x.link.replays
  | 0x10 => x.discards
  | 0x18 => x.restore.toNat * 2 + x.isolate.toNat
  | _ => 0

def State.readCanal (s : State) (o : Nat) : Nat :=
  if o < 0x480 then (s.ports.get? (o / 0x40)).elim 0 fun p => p.read (o % 0x40)
  else if o = 0x800 then s.dropTotal
  else if inBlock 0x1000 0x1000 o then fieldAt (s.drops.getD ((o - 0x1000) / 16) (zeros 16)) (o % 16) 8
  else 0

def State.readView (s : State) : Nat :=
  s.viewCtl.toAdmit.toNat * 2 ^ 44 + s.viewCtl.toRemove.toNat * 2 ^ 43 + s.agreement.isSome.toNat * 2 ^ 42 + s.viewCtl.member * 2 ^ 32
    + s.viewNo

def State.readMail (s : State) (o : Nat) : Nat :=
  if inBlock 0x800 2048 o then fieldAt s.ctl.buf (o - 0x800) 8
  else match o with
    | 0x000 => s.ctl.len * 2 ^ 32 + s.ctl.cmd * 256
    | 0x008 => s.ctl.rlen * 2 ^ 32 + s.ctl.status * 2 ^ 16
    | 0x010 => s.ctl.haddr
    | 0x018 => s.ctl.hlen
    | _ => 0

/-- The counters a read of counter 0 latched (R539). -/
def State.readCounter (s : State) (o : Nat) : Nat := nth (s.latched.getD (o / 256) []) (o % 256 / 8) 0

/-- The value of an 8-byte register of BAR0. -/
def State.barWord (s : State) (off : Nat) : Nat :=
  if !s.served off then 0
  else if off < 0x1000 then s.readControl off
  else if off < 0x2000 then s.readCapability (off - 0x1000)
  else if inBlock partBase 0x200000 off then
    let part := (off - partBase) / 0x10000
    (s.parts.get? part).elim 0 fun p => s.readPartBlock part ((off - partBase) % 0x10000) p
  else if inBlock linkBase 0x280 off then (s.links.get? ((off - linkBase) / 0x20)).elim 0 fun x => x.read ((off - linkBase) % 0x20)
  else if inBlock canalBase 0x2000 off then s.readCanal (off - canalBase)
  else if off = viewBase then s.readView
  else if inBlock mailBase 4096 off then s.readMail (off - mailBase)
  else if inBlock counterBase 0x80000 off then s.readCounter (off - counterBase)
  else 0

/-- BAR0 stands from here on in the addresses a host read names (log entry 45). -/
def barAddress : Nat := 2 ^ 62

/-- A read of one register, with what it does: the semaphore is taken, counters are latched. -/
def State.barRead (s : State) (port off : Nat) : Answer :=
  if off = 0x008 then execHwsemRead port s
  else if inBlock counterBase 0x80000 off && off % 256 = 0 then
    execCounterRead ((off - counterBase) / 1024) ((off - counterBase) / 256 % 4) s
  else .next { s with hostData := leBytes 8 (s.barWord off) }

/-- A host read: of device memory through BAR2, served or held at its home (R486), or of a register of BAR0. -/
def execHostRead (port addr len : Nat) (s : State) : Answer :=
  if len = 0 then .next s
  else if barAddress ≤ addr then
    match s.barRead port ((addr - barAddress) / 8 * 8) with
    | .next t => .next ({ t with hostData := (t.hostData.drop (addr % 8)).take len }.send
        (.hostData port ((t.hostData.drop (addr % 8)).take len)))
    | r => r
  else if 2 ^ 52 < addr + len then .next s
  else .next (s.arrives (.hostRead port addr len))

end Sys2Proof.Machine
end

