-- ==== Sys2Proof/Machine/Lane.lean ====
section
/-! DEFINITION. Quad, lane and predicate instructions (spec/09 R243 to R254; the orders of spec/08 R227, R228). -/
namespace Sys2Proof.Machine

/-! ### Reading other lanes (R244, R245) -/

/-- Whether a source holds a value of its own in every lane: a register, or a latch of class vector; a scalar latch is a broadcast
(R102). -/
def laneOwned (p : Path) : Src → Bool
  | .reg _ => true
  | .latch k => match p.place k with | some (.vector _) => true | _ => false
  | _ => false

/-- Lanes that have a value: present lanes and helpers. -/
def Warp.holding (w : Warp) : LaneMask := w.present ||| w.helper

/-- The value of a source in lane s as another lane reads it (R244). -/
def crossLane (c : Ctx) (f : Fmt) (x : Src) (s : Nat) : Word :=
  if laneOwned c.p x && !c.w.holding.getLsbD s then 0 else atLane (readVec c.w c.p f x) s

/-- A read outside the path while another path is unparked (R245): canonical mode refuses it. -/
def checkOrder (c : Ctx) (act : LaneMask) (x : Src) (reads : LaneMask) : Except Stop Unit :=
  if c.la.det = 3 ∧ 1 < c.w.unparked ∧ laneOwned c.p x = true ∧ reads &&& ~~~c.p.mask ≠ 0 then raise 0x62 0 act
  else .ok ()

/-- The lanes that acting lanes read; what a helper lane reads raises no trap and is not among them (R19). -/
def readLanes (act : LaneMask) (from' : Nat → Nat) : LaneMask := (lanesOf act).foldl (fun m l => m ||| maskOf (· == from' l)) 0

/-- A move between lanes: acting lane l takes source 0 of lane `from' b l`, where b is source 1 in lane l. -/
def crossMove (s : State) (o : Alu) (from' : Nat → Nat → Nat) : Answer :=
  s.run fun c => do
    checkOperands c o.g o.d o.fmt [(.vec o.fmt, o.a), (.vec .i32, o.b)]
    let act := c.act o.g
    let b := readVec c.w c.p .i32 o.b
    let src (l : Nat) : Nat := from' (atLane b l).toNat l
    checkOrder c act o.a (readLanes (c.real o.g) src)
    let s ← shadowCompare s c act
    let r := vectorResult c.w o.d o.fmt act fun l => crossLane c o.fmt o.a (src l)
    return s.complete c r.1 r.2

/-- The lane `qswap` reads (R246). -/
def qswapLane (q : QSwap) (l : Nat) : Nat :=
  Nat.xor l (match q with | .h => 1 | .v => 2 | .d => 3)

/-- The lane `lxch` reads (R247), in segments of 2^seg lanes. -/
def lxchLane (v : LXch) (seg b l : Nat) : Nat :=
  let n := 2 ^ seg
  let base := alignDown l n
  let r := l % n
  base + match v with
    | .pick => b % n
    | .rot => (r + b) % n
    | .refl => (((b : Int) - r) % n).toNat
    | .flip => Nat.xor r (b % n)

def execQswap (q : QSwap) (o : Alu) (s : State) : Answer := crossMove s o fun _ l => qswapLane q l
def execQbcast (k : Nat) (o : Alu) (s : State) : Answer := crossMove s o fun _ l => alignDown l 4 + k
def execLxch (v : LXch) (seg : Nat) (o : Alu) (s : State) : Answer := crossMove s o fun b l => lxchLane v seg b l

/-! ### One value for the warp -/

/-- A 32-bit or 64-bit result in a scalar register (R243). -/
def laneScalar (f : Fmt) (uns : Bool) (v : Word) : Word :=
  if f.is64 then v else if isFloat f || uns then (v.extractLsb' 0 32).zeroExtend 64 else (v.extractLsb' 0 32).signExtend 64

/-- One value as the result of an instruction of either destination class. -/
def broadcastResult (c : Ctx) (o : Alu) (act : LaneMask) (v : Word) : Warp × Place :=
  if o.d.cls = .scalar then scalarResult c.w o.d (if c.once o.g then some (laneScalar o.fmt o.uns v) else none)
  else vectorResult c.w o.d o.fmt act fun _ => v

/-- `lbcast` (R248). -/
def execLbcast (first : Bool) (o : Alu) (s : State) : Answer :=
  s.run fun c => do
    checkOperands c o.g o.d o.fmt [(.vec o.fmt, o.a)]
    let act := c.act o.g
    let k := if first then (lanesOf act).headD 0 else (readSca c.w c.p o.b).toNat % 32
    checkOrder c act o.a (if c.real o.g = 0 then 0 else maskOf (· == k))
    let s ← shadowCompare s c act
    let r := broadcastResult c o act (crossLane c o.fmt o.a k)
    return s.complete c r.1 r.2

/-! ### Reductions (R227, R228, R249, R250) -/

/-- One ⊕: its value and flags. -/
def combine (f : Fmt) (uns : Bool) (op : ROp) (r : Rounding) (x y : Word) : Word × BitVec 5 :=
  let e := elemBits f
  let int (g : Int → Int → Int) : Word × BitVec 5 := (BitVec.ofNat 64 (wrapTo e (g (elemInt f uns x 0) (elemInt f uns y 0))), 0)
  let flt (p : Nat × BitVec 5) : Word × BitVec 5 := (BitVec.ofNat 64 p.1, p.2)
  let fs := fspec f
  match op, isFloat f with
  | .add, true => flt (fs.roundWith r (realAdd r.mode (fs.decode (element f x 0)) (fs.decode (element f y 0))))
  | .min, true => flt (fs.pick false false (element f x 0) (element f y 0))
  | .max, true => flt (fs.pick true false (element f x 0) (element f y 0))
  | .add, false => int (· + ·)
  | .min, false => int min
  | .max, false => int max
  | .and, _ => (x &&& y, 0)
  | .or, _ => (x ||| y, 0)
  | .xor, _ => (x ^^^ y, 0)

/-- The result with no contributing lane (R249). -/
def emptyResult (f : Fmt) (uns : Bool) (op : ROp) : Word :=
  let e := elemBits f
  BitVec.ofNat 64 <| match op, isFloat f with
    | .min, true => (fspec f).inf.getD 0
    | .max, true => (fspec f).signed true ((fspec f).inf.getD 0)
    | .min, false => if uns then 2 ^ e - 1 else 2 ^ (e - 1) - 1
    | .max, false => if uns then 0 else 2 ^ (e - 1)
    | .and, _ => 2 ^ e - 1
    | _, _ => 0

/-- One level of the tree: lane l < d combined with lane l + d; a missing operand passes the other on. -/
def treeLevel (plus : Nat → Word → Word → Word × BitVec 5) (d : Nat) (t : List (Option Word)) : List (Option Word) × BitVec 5 :=
  let out := (List.range d).map fun l =>
    match nth t l none, nth t (l + d) none with
    | some x, some y => let r := plus l x y; (some r.1, r.2)
    | some x, none => (some x, 0)
    | none, y => (y, 0)
  (out.map (·.1), out.foldl (fun fl r => fl ||| r.2) 0)

/-- The tree of R227: its result, where some lane contributes, and the flags of all its steps. `plus d l` is ⊕ at distance d. -/
def treeReduce (plus : Nat → Nat → Word → Word → Word × BitVec 5) (t : List (Option Word)) : Option Word × BitVec 5 :=
  let out := [16, 8, 4, 2, 1].foldl (fun (acc : List (Option Word) × BitVec 5) d =>
    let r := treeLevel (plus d) d acc.1
    (r.1, acc.2 ||| r.2)) (t, 0)
  (nth out.1 0 none, out.2)

/-- How a ⊕ of a lane reduction rounds; this page never flushes (R231). -/
def Ctx.laneRounding (c : Ctx) (mode : RMode) (count l j : Nat) : Rounding := ⟨mode, c.srBits count l j, false, false⟩

/-- `lred` (R249). -/
def execLred (op : ROp) (m : RMode) (o : Alu) (s : State) : Answer :=
  s.run fun c => do
    checkOperands c o.g o.d o.fmt [(.vec o.fmt, o.a)]
    let act := c.act o.g
    let (s, count) ← srCount s c act m
    let s ← shadowCompare s c act
    let a := readVec c.w c.p o.fmt o.a
    let t := laneIndices.map fun l => if (act &&& c.w.present).getLsbD l then some (atLane a l) else none
    let (v, fl) := treeReduce (fun d l => combine o.fmt o.uns op (c.laneRounding m count l (1 + Nat.log2 d))) t
    let r := broadcastResult c o act (v.getD (emptyResult o.fmt o.uns op))
    return s.complete c ((r.1.orFlags act fun _ => fl).bumpCount m act) r.2

/-- The serial chain over lanes: the value and flags each lane receives, helpers passing the chain on. -/
def serialScan (plus : Nat → Word → Word → Word × BitVec 5) (counted : LaneMask) (x : Nat → Word) (start : Word) :
    List Nat → Option Word → List (Nat × Word × BitVec 5)
  | [], _ => []
  | l :: r, y =>
    if counted.getLsbD l then
      let v := match y with | some y => plus l y (x l) | none => (x l, 0)
      (l, v) :: serialScan plus counted x start r (some v.1)
    else (l, y.getD start, 0) :: serialScan plus counted x start r y

/-- `lscan` (R250). -/
def execLscan (op : ROp) (m : RMode) (o : Alu) (s : State) : Answer :=
  s.run fun c => do
    checkOperands c o.g o.d o.fmt [(.vec o.fmt, o.a)]
    let act := c.act o.g
    let (s, count) ← srCount s c act m
    let s ← shadowCompare s c act
    let a := readVec c.w c.p o.fmt o.a
    let out := serialScan (fun l => combine o.fmt o.uns op (c.laneRounding m count l 0)) c.w.present (atLane a)
      (emptyResult o.fmt o.uns op) (lanesOf act) none
    let get (l : Nat) : Word × BitVec 5 := NMap.getD out l (0, 0)
    let r := vectorResult c.w o.d o.fmt act fun l => (get l).1
    return s.complete c ((r.1.orFlags act fun l => (get l).2).bumpCount m act) r.2

/-! ### Polls, predicates and masks (R251 to R253) -/

/-- The result of a poll of bits x over polled lanes (R251). -/
def pollResult (v : Poll) (polled x : LaneMask) : Nat :=
  let ones := x &&& polled
  match v with
  | .some => (ones != 0).toNat
  | .every => (ones == polled).toNat
  | .same => (ones == polled || ones == 0).toNat
  | .mask => ones.toNat
  | .count => (lanesOf ones).length

/-- `lpoll` (R251). -/
def execLpoll (v : Poll) (o : Alu) (s : State) : Answer :=
  s.run fun c => do
    checkOperands c o.g o.d .none [(.pred, o.a)]
    let act := c.act o.g
    let s ← shadowCompare s c act
    let x := pollResult v (c.real o.g) (readPred c.w c.p o.a)
    let r := if o.d.cls = .scalar then scalarResult c.w o.d (if c.once o.g then some (BitVec.ofNat 64 x) else none)
      else predicateResult c.w o.d act (if x = 1 then BitVec.allOnes 32 else 0)
    return s.complete c r.1 r.2

/-- A predicate instruction (R252). -/
def predVec (s : State) (o : Alu) (f : LaneMask → LaneMask → LaneMask) : Answer :=
  s.run fun c => do
    checkOperands c o.g o.d .none [(.pred, o.a), (.pred, o.b)]
    let act := c.act o.g
    let s ← shadowCompare s c act
    let r := predicateResult c.w o.d act (f (readPred c.w c.p o.a) (readPred c.w c.p o.b))
    return s.complete c r.1 r.2

def execPand (o : Alu) (s : State) : Answer := predVec s o (· &&& ·)
def execPor (o : Alu) (s : State) : Answer := predVec s o (· ||| ·)
def execPxor (o : Alu) (s : State) : Answer := predVec s o (· ^^^ ·)
def execPnot (o : Alu) (s : State) : Answer := predVec s o fun a _ => ~~~a

/-- `pmov` (R252). To a scalar it reads the predicate bits of all 32 lanes; R245 speaks of cross-lane sources, and that this is none of
the reads it counts is the model's choice (log entry 170). -/
def execPmov (toScalar : Bool) (o : Alu) (s : State) : Answer :=
  s.run fun c => do
    checkOperands c o.g o.d .none [(if toScalar then .pred else .sca, o.a)]
    let act := c.act o.g
    let s ← shadowCompare s c act
    let r := if toScalar then
        scalarResult c.w o.d (if c.once o.g then some ((readPred c.w c.p o.a).zeroExtend 64) else none)
      else predicateResult c.w o.d act ((readSca c.w c.p o.a).extractLsb' 0 32)
    return s.complete c r.1 r.2

/-- `lidx` (R253). -/
def execLidx (v : LIdx) (o : Alu) (s : State) : Answer :=
  s.run fun c => do
    checkOperands c o.g o.d .i32 []
    let act := c.act o.g
    let s ← shadowCompare s c act
    let once (m : LaneMask) := scalarResult c.w o.d (if c.once o.g then some (m.zeroExtend 64) else none)
    let r := match v with
      | .lane => vectorResult c.w o.d .i32 act fun l => BitVec.ofNat 64 l
      | .active => once c.p.mask
      | .acting => once act
      | .rank => vectorResult c.w o.d .i32 act fun l => BitVec.ofNat 64 ((lanesOf act).filter (· < l)).length
    return s.complete c r.1 r.2

end Sys2Proof.Machine
end

