-- ==== Sys2Proof/Machine/Dispatch.lean ====
section
/-! DEFINITION. The meaning of every row of the opcode table, one arm per constructor. -/
namespace Sys2Proof.Machine

/-- What an instruction or event does. -/
def exec (i : Instr) (s : State) : Host.Outcome State Fault Refusal :=
  match i with
  | .nop g => Sys2Proof.Machine.execNop g s
  | .br g o => Sys2Proof.Machine.execBr g o s
  | .bre sense flag a o => Sys2Proof.Machine.execBre sense flag a o s
  | .mark o => Sys2Proof.Machine.execMark o s
  | .join => Sys2Proof.Machine.execJoin s
  | .call f o => Sys2Proof.Machine.execCall f o s
  | .callx g f val => Sys2Proof.Machine.execCallx g f val s
  | .ret => Sys2Proof.Machine.execRet s
  | .jmpx r => Sys2Proof.Machine.execJmpx r s
  | .grow val => Sys2Proof.Machine.execGrow val s
  | .shrink val => Sys2Proof.Machine.execShrink val s
  | .yield g => Sys2Proof.Machine.execYield g s
  | .exit g => Sys2Proof.Machine.execExit g s
  | .trap g n => Sys2Proof.Machine.execTrap g n s
  | .eret => Sys2Proof.Machine.execEret s
  | .rdsys g d n => Sys2Proof.Machine.execRdsys g d n s
  | .wrsys g d a => Sys2Proof.Machine.execWrsys g d a s
  | .sadd o => Sys2Proof.Machine.execSadd o s
  | .ssub o => Sys2Proof.Machine.execSsub o s
  | .smul o => Sys2Proof.Machine.execSmul o s
  | .smulh o => Sys2Proof.Machine.execSmulh o s
  | .smad o => Sys2Proof.Machine.execSmad o s
  | .sand o => Sys2Proof.Machine.execSand o s
  | .sor o => Sys2Proof.Machine.execSor o s
  | .sxor o => Sys2Proof.Machine.execSxor o s
  | .sandn o => Sys2Proof.Machine.execSandn o s
  | .sshl o => Sys2Proof.Machine.execSshl o s
  | .sshr o => Sys2Proof.Machine.execSshr o s
  | .ssar o => Sys2Proof.Machine.execSsar o s
  | .srot o => Sys2Proof.Machine.execSrot o s
  | .scmp c o => Sys2Proof.Machine.execScmp c o s
  | .smov o => Sys2Proof.Machine.execSmov o s
  | .ssel o => Sys2Proof.Machine.execSsel o s
  | .sdiv o => Sys2Proof.Machine.execSdiv o s
  | .srem o => Sys2Proof.Machine.execSrem o s
  | .spopc o => Sys2Proof.Machine.execSpopc o s
  | .sclz o => Sys2Proof.Machine.execSclz o s
  | .sctz o => Sys2Proof.Machine.execSctz o s
  | .sbrev o => Sys2Proof.Machine.execSbrev o s
  | .aset f o => Sys2Proof.Machine.execAset f o s
  | .aadv o => Sys2Proof.Machine.execAadv o s
  | .abind o => Sys2Proof.Machine.execAbind o s
  | .aunbind o => Sys2Proof.Machine.execAunbind o s
  | .aget f o => Sys2Proof.Machine.execAget f o s
  | .atrn o => Sys2Proof.Machine.execAtrn o s
  | .iadd o => Sys2Proof.Machine.execIadd o s
  | .isub o => Sys2Proof.Machine.execIsub o s
  | .imul o => Sys2Proof.Machine.execImul o s
  | .imad o => Sys2Proof.Machine.execImad o s
  | .imulh o => Sys2Proof.Machine.execImulh o s
  | .iadds o => Sys2Proof.Machine.execIadds o s
  | .isubs o => Sys2Proof.Machine.execIsubs o s
  | .imin o => Sys2Proof.Machine.execImin o s
  | .imax o => Sys2Proof.Machine.execImax o s
  | .iabs o => Sys2Proof.Machine.execIabs o s
  | .ineg o => Sys2Proof.Machine.execIneg o s
  | .icmp c o => Sys2Proof.Machine.execIcmp c o s
  | .isel o => Sys2Proof.Machine.execIsel o s
  | .and o => Sys2Proof.Machine.execAnd o s
  | .or o => Sys2Proof.Machine.execOr o s
  | .xor o => Sys2Proof.Machine.execXor o s
  | .andn o => Sys2Proof.Machine.execAndn o s
  | .orn o => Sys2Proof.Machine.execOrn o s
  | .xnor o => Sys2Proof.Machine.execXnor o s
  | .not o => Sys2Proof.Machine.execNot o s
  | .lut3 t o => Sys2Proof.Machine.execLut3 t o s
  | .shl o => Sys2Proof.Machine.execShl o s
  | .shr o => Sys2Proof.Machine.execShr o s
  | .sar o => Sys2Proof.Machine.execSar o s
  | .irot right o => Sys2Proof.Machine.execIrot right o s
  | .popc o => Sys2Proof.Machine.execPopc o s
  | .clz o => Sys2Proof.Machine.execClz o s
  | .ctz o => Sys2Proof.Machine.execCtz o s
  | .brev o => Sys2Proof.Machine.execBrev o s
  | .bfx o => Sys2Proof.Machine.execBfx o s
  | .bfi o => Sys2Proof.Machine.execBfi o s
  | .imov o => Sys2Proof.Machine.execImov o s
  | .vmovx write o => Sys2Proof.Machine.execVmovx write o s
  | .idot4 o => Sys2Proof.Machine.execIdot4 o s
  | .icvt sat sf js jd o => Sys2Proof.Machine.execIcvt sat sf js jd o s
  | .iabsd o => Sys2Proof.Machine.execIabsd o s
  | .fadd m1 o => Sys2Proof.Machine.execFadd m1 o s
  | .fsub m1 o => Sys2Proof.Machine.execFsub m1 o s
  | .fmul m1 o => Sys2Proof.Machine.execFmul m1 o s
  | .ffma m1 o => Sys2Proof.Machine.execFfma m1 o s
  | .fmin o => Sys2Proof.Machine.execFmin o s
  | .fmax o => Sys2Proof.Machine.execFmax o s
  | .fabs o => Sys2Proof.Machine.execFabs o s
  | .fneg o => Sys2Proof.Machine.execFneg o s
  | .fcsgn o => Sys2Proof.Machine.execFcsgn o s
  | .fcmp c o => Sys2Proof.Machine.execFcmp c o s
  | .fclass o => Sys2Proof.Machine.execFclass o s
  | .fclassFl o => Sys2Proof.Machine.execFclassFl o s
  | .frcp o => Sys2Proof.Machine.execFrcp o s
  | .frsq o => Sys2Proof.Machine.execFrsq o s
  | .fsqrt m1 o => Sys2Proof.Machine.execFsqrt m1 o s
  | .fdiv m1 o => Sys2Proof.Machine.execFdiv m1 o s
  | .fexp2 m1 o => Sys2Proof.Machine.execFexp2 m1 o s
  | .flog2 m1 o => Sys2Proof.Machine.execFlog2 m1 o s
  | .fscale m1 o => Sys2Proof.Machine.execFscale m1 o s
  | .cvt m1 val o => Sys2Proof.Machine.execCvt m1 val o s
  | .cvtf m1 val o => Sys2Proof.Machine.execCvtf m1 val o s
  | .cvti m1 val o => Sys2Proof.Machine.execCvti m1 val o s
  | .frint m1 val o => Sys2Proof.Machine.execFrint m1 val o s
  | .cvtbs m1 val o => Sys2Proof.Machine.execCvtbs m1 val o s
  | .fdot2 m1 val o => Sys2Proof.Machine.execFdot2 m1 val o s
  | .qswap val o => Sys2Proof.Machine.execQswap val o s
  | .qbcast k o => Sys2Proof.Machine.execQbcast k o s
  | .lxch val seg o => Sys2Proof.Machine.execLxch val seg o s
  | .lbcast first o => Sys2Proof.Machine.execLbcast first o s
  | .lred op m1 o => Sys2Proof.Machine.execLred op m1 o s
  | .lscan op m1 o => Sys2Proof.Machine.execLscan op m1 o s
  | .lpoll val o => Sys2Proof.Machine.execLpoll val o s
  | .pand o => Sys2Proof.Machine.execPand o s
  | .por o => Sys2Proof.Machine.execPor o s
  | .pxor o => Sys2Proof.Machine.execPxor o s
  | .pnot o => Sys2Proof.Machine.execPnot o s
  | .pmov toScalar o => Sys2Proof.Machine.execPmov toScalar o s
  | .lidx val o => Sys2Proof.Machine.execLidx val o s
  | .ld m1 o => Sys2Proof.Machine.execLd m1 o s
  | .st m1 o => Sys2Proof.Machine.execSt m1 o s
  | .lds indexed o => Sys2Proof.Machine.execLds indexed o s
  | .sts indexed o => Sys2Proof.Machine.execSts indexed o s
  | .sread vec o => Sys2Proof.Machine.execSread vec o s
  | .lda o => Sys2Proof.Machine.execLda o s
  | .sta o => Sys2Proof.Machine.execSta o s
  | .pf lane o => Sys2Proof.Machine.execPf lane o s
  | .wback lane o => Sys2Proof.Machine.execWback lane o s
  | .inv lane o => Sys2Proof.Machine.execInv lane o s
  | .atadd o => Sys2Proof.Machine.execAtadd o s
  | .atsub o => Sys2Proof.Machine.execAtsub o s
  | .atmin o => Sys2Proof.Machine.execAtmin o s
  | .atmax o => Sys2Proof.Machine.execAtmax o s
  | .atminN o => Sys2Proof.Machine.execAtminN o s
  | .atmaxN o => Sys2Proof.Machine.execAtmaxN o s
  | .atand o => Sys2Proof.Machine.execAtand o s
  | .ator o => Sys2Proof.Machine.execAtor o s
  | .atxor o => Sys2Proof.Machine.execAtxor o s
  | .atswp o => Sys2Proof.Machine.execAtswp o s
  | .atinc o => Sys2Proof.Machine.execAtinc o s
  | .atfadd o => Sys2Proof.Machine.execAtfadd o s
  | .atfaddRgn o => Sys2Proof.Machine.execAtfaddRgn o s
  | .acas o => Sys2Proof.Machine.execAcas o s
  | .bara g b c e => Sys2Proof.Machine.execBara g b c e s
  | .barw g b e => Sys2Proof.Machine.execBarw g b e s
  | .bars g b c e => Sys2Proof.Machine.execBars g b c e s
  | .semwTk o => Sys2Proof.Machine.execSemwTk o s
  | .semwTake o => Sys2Proof.Machine.execSemwTake o s
  | .semp o => Sys2Proof.Machine.execSemp o s
  | .mwait c o => Sys2Proof.Machine.execMwait c o s
  | .fence g e => Sys2Proof.Machine.execFence g e s
  | .cpy o => Sys2Proof.Machine.execCpy o s
  | .cpys scatter o => Sys2Proof.Machine.execCpys scatter o s
  | .cpyadd o => Sys2Proof.Machine.execCpyadd o s
  | .cpybc o => Sys2Proof.Machine.execCpybc o s
  | .plane rz o => Sys2Proof.Machine.execPlane rz o s
  | .unplane rz o => Sys2Proof.Machine.execUnplane rz o s
  | .cpyq g d q => Sys2Proof.Machine.execCpyq g d q s
  | .cpycan g q => Sys2Proof.Machine.execCpycan g q s
  | .cpyfill o => Sys2Proof.Machine.execCpyfill o s
  | .mma walk acc da db ks nk => Sys2Proof.Machine.execMma walk acc da db ks nk s
  | .mzero acc => Sys2Proof.Machine.execMzero acc s
  | .mstore fmt acc od => Sys2Proof.Machine.execMstore fmt acc od s
  | .msig b => Sys2Proof.Machine.execMsig b s
  | .mwaitb b => Sys2Proof.Machine.execMwaitb b s
  | .mloop c count o => Sys2Proof.Machine.execMloop c count o s
  | .mend => Sys2Proof.Machine.execMend s
  | .fork g => Sys2Proof.Machine.execFork g s
  | .mrd g d n => Sys2Proof.Machine.execMrd g d n s
  | .mwr g n x => Sys2Proof.Machine.execMwr g n x s
  | .mtol g fmt x => Sys2Proof.Machine.execMtol g fmt x s
  | .mstat g d => Sys2Proof.Machine.execMstat g d s
  | .mstatClr g d => Sys2Proof.Machine.execMstatClr g d s
  | .mchk g fmt d acc => Sys2Proof.Machine.execMchk g fmt d acc s
  | .mloc g d => Sys2Proof.Machine.execMloc g d s
  | .mfix g x => Sys2Proof.Machine.execMfix g x s
  | .mretry g => Sys2Proof.Machine.execMretry g s
  | .mresume g => Sys2Proof.Machine.execMresume g s
  | .mresumeAbandon g => Sys2Proof.Machine.execMresumeAbandon g s
  | .coll kind uns g fmt d a e => Sys2Proof.Machine.execColl kind uns g fmt d a e s
  | .cwait g d q t e => Sys2Proof.Machine.execCwait g d q t e s
  | .viewq g d k => Sys2Proof.Machine.execViewq g d k s
  | .viewack g d x => Sys2Proof.Machine.execViewack g d x s
  | .viewjoin g d t => Sys2Proof.Machine.execViewjoin g d t s
  | .cabort g q => Sys2Proof.Machine.execCabort g q s
  | .ckpt g d => Sys2Proof.Machine.execCkpt g d s
  | .ckptWait g d => Sys2Proof.Machine.execCkptWait g d s
  | .ckq g d k => Sys2Proof.Machine.execCkq g d k s
  | .digest g fmt a ch => Sys2Proof.Machine.execDigest g fmt a ch s
  | .detq g d => Sys2Proof.Machine.execDetq g d s
  | .brk g n => Sys2Proof.Machine.execBrk g n s
  | .tmark g x => Sys2Proof.Machine.execTmark g x s
  | .rdclk g d => Sys2Proof.Machine.execRdclk g d s
  | .launch d a q e => Sys2Proof.Machine.execLaunch d a q e s
  | .ximm sel payload => Sys2Proof.Machine.execXimm sel payload s
  | .unassignedOpcode w => Sys2Proof.Machine.execUnassignedOpcode w s
  | .lineFetch warp path => Sys2Proof.Machine.execLineFetch warp path s
  | .issueSetRotation warp => Sys2Proof.Machine.execIssueSetRotation warp s
  | .issueCycle core quarter => Sys2Proof.Machine.execIssueCycle core quarter s
  | .granuleGrant core quarter => Sys2Proof.Machine.execGranuleGrant core quarter s
  | .evictedWarpReturn core quarter => Sys2Proof.Machine.execEvictedWarpReturn core quarter s
  | .warpEviction core quarter => Sys2Proof.Machine.execWarpEviction core quarter s
  | .loadDataReturn warp a => Sys2Proof.Machine.execLoadDataReturn warp a s
  | .storePerformed a => Sys2Proof.Machine.execStorePerformed a s
  | .atomicResultReturn warp path => Sys2Proof.Machine.execAtomicResultReturn warp path s
  | .lockkeeperRequest warp path => Sys2Proof.Machine.execLockkeeperRequest warp path s
  | .semaphoreWatchEval warp path => Sys2Proof.Machine.execSemaphoreWatchEval warp path s
  | .mwaitReread warp path => Sys2Proof.Machine.execMwaitReread warp path s
  | .mwaitTimeout warp path => Sys2Proof.Machine.execMwaitTimeout warp path s
  | .cwaitTimeout warp path => Sys2Proof.Machine.execCwaitTimeout warp path s
  | .viewjoinTimeout warp path => Sys2Proof.Machine.execViewjoinTimeout warp path s
  | .acceptPacket part => Sys2Proof.Machine.execAcceptPacket part s
  | .packetReady launch => Sys2Proof.Machine.execPacketReady launch s
  | .placeCluster part => Sys2Proof.Machine.execPlaceCluster part s
  | .clusterAgeThreshold launch => Sys2Proof.Machine.execClusterAgeThreshold launch s
  | .blockRetire block => Sys2Proof.Machine.execBlockRetire block s
  | .launchComplete launch => Sys2Proof.Machine.execLaunchComplete launch s
  | .replayRingRead part => Sys2Proof.Machine.execReplayRingRead part s
  | .arrayGrant core => Sys2Proof.Machine.execArrayGrant core s
  | .mmaKstep core upsets => Sys2Proof.Machine.execMmaKstep core upsets s
  | .intervalRetryDone core => Sys2Proof.Machine.execIntervalRetryDone core s
  | .drainRetryDone block => Sys2Proof.Machine.execDrainRetryDone block s
  | .promotionHoldEnd block tile => Sys2Proof.Machine.execPromotionHoldEnd block tile s
  | .streamFaultDelivery block => Sys2Proof.Machine.execStreamFaultDelivery block s
  | .commandActive block seq => Sys2Proof.Machine.execCommandActive block seq s
  | .sectorMove block a => Sys2Proof.Machine.execSectorMove block a s
  | .pageRequestRetry block seq => Sys2Proof.Machine.execPageRequestRetry block seq s
  | .copyEnd block seq => Sys2Proof.Machine.execCopyEnd block seq s
  | .contextStopComplete part => Sys2Proof.Machine.execContextStopComplete part s
  | .drainTimeout part => Sys2Proof.Machine.execDrainTimeout part s
  | .exchangeComplete part => Sys2Proof.Machine.execExchangeComplete part s
  | .sliceLineLand part slice line => Sys2Proof.Machine.execSliceLineLand part slice line s
  | .savecostUpdate part => Sys2Proof.Machine.execSavecostUpdate part s
  | .ckptPeriodExpiry part => Sys2Proof.Machine.execCkptPeriodExpiry part s
  | .intervalClose part => Sys2Proof.Machine.execIntervalClose part s
  | .ckptRollbackNow part => Sys2Proof.Machine.execCkptRollbackNow part s
  | .collStamp comm k => Sys2Proof.Machine.execCollStamp comm k s
  | .heartbeatSend => Sys2Proof.Machine.execHeartbeatSend s
  | .heartbeatTimeout member => Sys2Proof.Machine.execHeartbeatTimeout member s
  | .proposeTimeout => Sys2Proof.Machine.execProposeTimeout s
  | .acceptTimeout member => Sys2Proof.Machine.execAcceptTimeout member s
  | .isolationRequestEnd port => Sys2Proof.Machine.execIsolationRequestEnd port s
  | .canalRetrainTimeout port => Sys2Proof.Machine.execCanalRetrainTimeout port s
  | .invalidationCompletion pasid va size => Sys2Proof.Machine.execInvalidationCompletion pasid va size s
  | .hwsemLapse => Sys2Proof.Machine.execHwsemLapse s
  | .queueTail part q val => Sys2Proof.Machine.execQueueTail part q val s
  | .queueCfg part q val => Sys2Proof.Machine.execQueueCfg part q val s
  | .queueBase part q val => Sys2Proof.Machine.execQueueBase part q val s
  | .queueErrctlClear part q val => Sys2Proof.Machine.execQueueErrctlClear part q val s
  | .queueAbort part q val => Sys2Proof.Machine.execQueueAbort part q val s
  | .registerWrite port off val => Sys2Proof.Machine.execRegisterWrite port off val s
  | .asderTranslationDone launch r => Sys2Proof.Machine.execAsderTranslationDone launch r s
  | .prgResponse block seq code => Sys2Proof.Machine.execPrgResponse block seq code s
  | .pageRequestEnable => Sys2Proof.Machine.execPageRequestEnable s
  | .atsTranslationCompletion a => Sys2Proof.Machine.execAtsTranslationCompletion a s
  | .atsInvalidation pasid va size r w x resident => Sys2Proof.Machine.execAtsInvalidation pasid va size r w x resident s
  | .eccUncorrectableError key => Sys2Proof.Machine.execEccUncorrectableError key s
  | .hostCompletionError who marked => Sys2Proof.Machine.execHostCompletionError who marked s
  | .hostCompletionTimeout who => Sys2Proof.Machine.execHostCompletionTimeout who s
  | .hostPostedWrite port addr data => Sys2Proof.Machine.execHostPostedWrite port addr data s
  | .hostRead port addr len => Sys2Proof.Machine.execHostRead port addr len s
  | .canalRequest member seq op => Sys2Proof.Machine.execCanalRequest member seq op s
  | .writeAcknowledgement n => Sys2Proof.Machine.execWriteAcknowledgement n s
  | .crossDomainTimeout who => Sys2Proof.Machine.execCrossDomainTimeout who s
  | .heartbeat member => Sys2Proof.Machine.execHeartbeat member s
  | .suspect sender view suspects => Sys2Proof.Machine.execSuspect sender view suspects s
  | .propose sender view manifest => Sys2Proof.Machine.execPropose sender view manifest s
  | .accept sender view committed => Sys2Proof.Machine.execAccept sender view committed s
  | .refuse sender view suspects => Sys2Proof.Machine.execRefuse sender view suspects s
  | .viewCommit view manifest committed => Sys2Proof.Machine.execViewCommit view manifest committed s
  | .joinMessage member => Sys2Proof.Machine.execJoinMessage member s
  | .viewAdmit val => Sys2Proof.Machine.execViewAdmit val s
  | .viewRemove val => Sys2Proof.Machine.execViewRemove val s
  | .partialSum comm k view attempt contributors data => Sys2Proof.Machine.execPartialSum comm k view attempt contributors data s
  | .ready comm k sender view => Sys2Proof.Machine.execReady comm k sender view s
  | .collCommit comm k view => Sys2Proof.Machine.execCollCommit comm k view s
  | .abort comm k view => Sys2Proof.Machine.execAbort comm k view s
  | .flitReceive link forward seq crcOk => Sys2Proof.Machine.execFlitReceive link forward seq crcOk s
  | .flitAck link forward seq => Sys2Proof.Machine.execFlitAck link forward seq s
  | .flitNak link forward seq => Sys2Proof.Machine.execFlitNak link forward seq s
  | .retrainComplete link failedForward failedBack => Sys2Proof.Machine.execRetrainComplete link failedForward failedBack s
  | .d2dClear link val => Sys2Proof.Machine.execD2dClear link val s
  | .canalIsolate port val => Sys2Proof.Machine.execCanalIsolate port val s
  | .canalRestore port val => Sys2Proof.Machine.execCanalRestore port val s
  | .canalPortDown port => Sys2Proof.Machine.execCanalPortDown port s
  | .canalLinkUp port peer => Sys2Proof.Machine.execCanalLinkUp port peer s
  | .ctxPark part val => Sys2Proof.Machine.execCtxPark part val s
  | .ctxSave part val => Sys2Proof.Machine.execCtxSave part val s
  | .ctxRestore part val => Sys2Proof.Machine.execCtxRestore part val s
  | .ctxSwitch part val => Sys2Proof.Machine.execCtxSwitch part val s
  | .ctxTerminate part val => Sys2Proof.Machine.execCtxTerminate part val s
  | .ctxCreate part val => Sys2Proof.Machine.execCtxCreate part val s
  | .ckptCloseNow part => Sys2Proof.Machine.execCkptCloseNow part s
  | .checkpointMessage part m1 => Sys2Proof.Machine.execCheckpointMessage part m1 s
  | .parityBlock part interval block data => Sys2Proof.Machine.execParityBlock part interval block data s
  | .parityAck part interval => Sys2Proof.Machine.execParityAck part interval s
  | .cxlDrainDone part interval => Sys2Proof.Machine.execCxlDrainDone part interval s
  | .ringHeadWrite part ring val => Sys2Proof.Machine.execRingHeadWrite part ring val s
  | .ringBaseCfgWrite part ring cfg val => Sys2Proof.Machine.execRingBaseCfgWrite part ring cfg val s
  | .rplTail part val => Sys2Proof.Machine.execRplTail part val s
  | .rplCtlEnd part val => Sys2Proof.Machine.execRplCtlEnd part val s
  | .dbgHold part val => Sys2Proof.Machine.execDbgHold part val s
  | .dbgRelease part val => Sys2Proof.Machine.execDbgRelease part val s
  | .dbgReleaseAll part val => Sys2Proof.Machine.execDbgReleaseAll part val s
  | .counterRead core quarter => Sys2Proof.Machine.execCounterRead core quarter s
  | .frzN => Sys2Proof.Machine.execFrzN s
  | .ctlFreeze port val => Sys2Proof.Machine.execCtlFreeze port val s
  | .debugPortRead addr len => Sys2Proof.Machine.execDebugPortRead addr len s
  | .hwsemRead port => Sys2Proof.Machine.execHwsemRead port s
  | .hwsemRelease port => Sys2Proof.Machine.execHwsemRelease port s
  | .nonce => Sys2Proof.Machine.execNonce s
  | .image stage bytes => Sys2Proof.Machine.execImage stage bytes s
  | .transfer bytes => Sys2Proof.Machine.execTransfer bytes s
  | .config bytes => Sys2Proof.Machine.execConfig bytes s
  | .attest nonce => Sys2Proof.Machine.execAttest nonce s
  | .keys => Sys2Proof.Machine.execKeys s
  | .coldReset => Sys2Proof.Machine.execColdReset s
  | .thermalThrottle level => Sys2Proof.Machine.execThermalThrottle level s

end Sys2Proof.Machine
end

