-- ==== Sys2Proof/Machine/Turn.lean ====
section
/-! DEFINITION. What a step finds to do (spec/03 R89 to R111, spec/05 R135, spec/28 R532 to R534): the unit of the path or stream that
issues, fetched and decoded; else what has come from outside, or the events the device's own agents may have (log entry 3). And the
machine with one word placed where the next unit is fetched. -/
namespace Sys2Proof.Machine

/-- What a step does. -/
inductive Action where
  /-- Runs an instruction or event. -/
  | exec (i : Instr) (s : State)
  /-- Something short of an instruction: a refused fetch or word, a hold, a comparator's action. -/
  | stay (s : State)
  /-- The first of these events that has an effect, and otherwise the next state given. -/
  | events (is : List Instr) (s idle : State)
  /-- The agenda names a word of a program. -/
  | notAnEvent

/-! ### The unit of a path -/

/-- The predicate field of a word (R103). -/
def guardOf (w : IWord) : Guard := ⟨(w.extractLsb' 16 3).toNat, w.getLsbD 19⟩

/-- Whether a word's opcode is a stream-class one (R123). -/
def isStreamOp (w : IWord) : Bool := 0xA0 ≤ wordOp w && wordOp w ≤ 0xA6

/-- A word whose fields name no instruction (R97, R123). -/
def State.refusedWord (s : State) (c : Ctx) (w : IWord) : State :=
  s.takeTrap c.wid c.pidx ⟨0x01, if isStreamOp w then 0x04 else 0x00, 0, c.real (guardOf w)⟩ (unitOf c.p c.pre)

/-- Registers of the window that an instruction of a path reads from the pool: those it names, and those `vmovx` finds by its lanes'
indexes (R189). -/
def Ctx.poolReads (c : Ctx) (i : Instr) : List Nat :=
  let named := i.reads.filterMap fun r => match r with | .v k => some k | _ => none
  match i with
  | .vmovx false o =>
    let idx := readVec c.w c.p .i32 o.b
    named ++ (lanesOf (c.act o.g)).flatMap fun l => (List.range (spanOf o.fmt)).map fun k =>
      (match o.a with | .reg b => b | _ => 0) + spanOf o.fmt * (atLane idx l).toNat + k
  | _ => named

/-- The lanes that an instruction of a path reads, where a register it reads holds an uncorrectable error (R484). -/
def State.poolHit (s : State) (c : Ctx) (g : Guard) (i : Instr) : LaneMask :=
  if s.poolUpset.any fun x => x.1 == c.wid && (c.poolReads i).any fun k => decide (k < c.w.width) && (c.w.wbase + k) % c.w.n == x.2 then c.act g
  else 0

/-- An instruction read a register with an uncorrectable error (R484): the context rolls back where rb[0] asks for it, else 0x50 names the
lanes read. -/
def State.poolError (s : State) (c : Ctx) (lanes : LaneMask) : State :=
  let t := { s with poolUpset := s.poolUpset.filter (·.1 != c.wid), focus := none }
  match t.rollsWith c.env.part (t.classOf c.w.block) 0 with
  | some u => u
  | none => { ({ t with upset := (0, 0) }.takeTrap c.wid c.pidx ⟨0x50, 0, 0, lanes⟩ (unitOf c.p c.pre)) with upset := s.upset }

/-- The instruction of a path's unit runs, unless it reads a register with an uncorrectable error. -/
def State.runUnit (s : State) (c : Ctx) (w : IWord) (i : Instr) : Action :=
  let lanes := s.poolHit c (guardOf w) i
  if lanes = 0 then .exec i s else .stay (s.poolError c lanes)

/-- The unit at a path's PC, whose line has been fetched: the comparators first, then its word. -/
def State.unitTurn (s : State) (c : Ctx) (l : Line) : Action :=
  let hits := if c.pre.isNone then s.pcHits c else []
  if !hits.isEmpty then .stay (s.matched c hits 1 1 c.p.mask fun k => k)
  else match c.pre with
    | none =>
      let w := l.word (pcSlot c.p.pc)
      match decode w with
      | .ok i => s.runUnit c w i
      | .error _ => .stay (s.refusedWord c w)
    | some (sel, payload) =>
      let w := l.word (pcSlot c.p.pc + 1)
      match decodeGoverned sel payload w with
      | .instr i => s.runUnit c w i
      | _ => .stay (s.refusedWord c w)

/-- A path's turn: a hold that was asked for comes before the unit (R534), a line not yet entered is fetched. -/
def State.pathTurn (s : State) (wid pidx : Nat) (pre : Option (Nat × BitVec 32)) : Action :=
  match s.ctx? wid pidx pre with
  | none => .stay { s with focus := none }
  | some c =>
    if c.p.holdAsked then .stay (s.hold wid pidx c.env.part 7)
    else match c.p.line with
      | some l => s.unitTurn c l
      | none =>
        match s.enterLine c with
        | (t, some f) => .stay (t.entryTrap c f)
        | (t, none) =>
          match t.ctx? wid pidx pre with
          | some c' => match c'.p.line with
            | some l => t.unitTurn c' l
            | none => .stay { t with focus := none }
          | none => .stay { t with focus := none }

/-! ### The unit of a stream -/

/-- A word of a stream whose fields name no instruction (R123, R272). -/
def State.refusedStreamWord (s : State) (c : SCtx) (w : IWord) : State :=
  s.stopHere c 0x01 (if isStreamOp w || wordOp w == 0x00 || isXimm w then 0x00 else 0x04)

/-- A stream's turn. -/
def State.streamTurn (s : State) (bid : Nat) (pre : Option (Nat × BitVec 32)) : Action :=
  match s.stream? bid pre with
  | none => .stay { s with focus := none }
  | some c =>
    match s.streamFetch c with
    | (t, .error f) => .stay (t.stopPc c f)
    | (t, .ok c) =>
      let k := pcSlot c.m.place
      let w (j : Nat) : IWord := match c.m.line with | some l => l.word j | none => 0
      match pre with
      | none => match decode (w k) with
        | .ok i => .exec i t
        | .error _ => .stay (t.refusedStreamWord c (w k))
      | some (sel, payload) => match decodeGoverned sel payload (w (k + 1)) with
        | .instr i => .exec i t
        | _ => .stay (t.refusedStreamWord c (w (k + 1)))

/-! ### The events the device's agents may have -/

/-- Events of a partition. -/
def partEvents (p : Nat) (pt : Partition) : List Instr :=
  [.contextStopComplete p, .drainTimeout p, .exchangeComplete p]
    ++ (pt.landing.map fun l => .sliceLineLand p (l.1 / 16384) (l.1 % 16384)).take 1
    ++ (if pt.ck.due then [.ckptRollbackNow p] else [])
    ++ [.intervalClose p, .ckptPeriodExpiry p, .savecostUpdate p, .replayRingRead p, .acceptPacket p]

/-- Events of a path that waits or enters a line. -/
def pathEvents (wid : Nat) (w : Warp) (i : Nat) : List Instr :=
  let p := w.path i
  match p.await with
  | none => if p.state == .live && p.line.isNone then [.lineFetch wid i] else []
  | some a => match a.what with
    | .load r => [.loadDataReturn wid ⟨i, (r.lanes.flatMap (·.2.2)).length⟩]
    | .atomic r => match r.op with
      | .semw _ => [.lockkeeperRequest wid i, .semaphoreWatchEval wid i]
      | _ => [.lockkeeperRequest wid i, .atomicResultReturn wid i]
    | .monitor _ => [.mwaitReread wid i, .mwaitTimeout wid i]
    | .cwait _ => [.cwaitTimeout wid i]
    | .viewjoin _ => [.viewjoinTimeout wid i]
    | .ckpt _ _ | .grow _ => []

/-- Events of a block: its copies, its stream's ends and its retirement. -/
def blockEvents (bid : Nat) (b : Block) : List Instr :=
  (b.copies.flatMap fun c => match c.2.state with
      | .queued => [.sectorMove bid ⟨c.1, everyCore⟩, .commandActive bid c.1]
      | .active => [.sectorMove bid ⟨c.1, everyCore⟩]
      | .waiting _ => [.sectorMove bid ⟨c.1, everyCore⟩, .pageRequestRetry bid c.1]
      | .ending => [.copyEnd bid c.1]
      | .ended => [])
    ++ b.mx.holds.map (.promotionHoldEnd bid ·)
    ++ [.drainRetryDone bid, .streamFaultDelivery bid, .blockRetire bid]

/-- Events of views, links and translations. -/
def State.outerEvents (s : State) : List Instr :=
  (s.colls.map fun k => .collStamp (k.1 / 2 ^ 48) (k.1 % 2 ^ 48))
    ++ [.hwsemLapse, .heartbeatSend, .proposeTimeout]
    ++ (membersOf s.manifest).map .heartbeatTimeout
    ++ ((s.leading.elim 0 (·.2) |> membersOf).map .acceptTimeout)
    ++ (s.ports.flatMap fun p =>
        (if p.2.isolated || p.2.viewOnly then [.isolationRequestEnd p.1] else [])
          ++ (if p.2.link.state = 1 then [.canalRetrainTimeout p.1] else []))
    ++ (s.peerWaits.map fun p => .semaphoreWatchEval p.place.1 p.place.2)
    ++ s.invalidations.map fun i => .invalidationCompletion i.1 i.2.1 i.2.2.1

/-- Every event the device may have by itself, the agents in a fixed order. -/
def State.candidates (s : State) : List Instr :=
  (s.parts.flatMap fun p => partEvents p.1 p.2)
    ++ (s.warps.flatMap fun w => (List.range 16).flatMap fun i => pathEvents w.1 w.2 i)
    ++ ((List.range s.stores.length).map fun k => .storePerformed ⟨k, everyCore⟩)
    ++ (s.blocks.flatMap fun b => blockEvents b.1 b.2)
    ++ ((s.blocks.map (·.2.core)).eraseDups.flatMap fun c => [.arrayGrant c, .mmaKstep c [], .intervalRetryDone c])
    ++ (s.launches.flatMap fun l => [.packetReady l.1, .clusterAgeThreshold l.1, .launchComplete l.1])
    ++ s.parts.map (.placeCluster ·.1)
    ++ s.outerEvents
    ++ (s.quarters.flatMap fun q => [.granuleGrant (q / 4) (q % 4), .evictedWarpReturn (q / 4) (q % 4), .warpEviction (q / 4) (q % 4)])
    ++ (s.warps.map fun w => .issueSetRotation w.1)
    ++ (s.quarters.map fun q => .issueCycle (q / 4) (q % 4))

/-- The number of a stream among those that issue in a cycle. -/
def streamSlot (bid : Nat) : Nat := 4096 + 2 * bid

/-- When nothing else has an effect: a stream that has not had its turn in this cycle issues, or the cycle ends. -/
def State.idle (s : State) : State :=
  match s.blocks.find? fun b => !s.issued.contains (streamSlot b.1) && (s.stream? b.1 none).isSome && s.mayIssue b.1 with
  | some b => { s with focus := some (.stream b.1 none), issued := streamSlot b.1 :: s.issued }
  | none => s.tick

/-- Whether a frozen device still has an event: the debug port reads, and only a cold reset ends the freeze (R540). -/
def whileFrozen : Instr → Bool
  | .debugPortRead _ _ => true
  | .coldReset => true
  | _ => false

/-- Whether a row of the table is a word of a program. -/
def isWord (i : Instr) : Bool := i.encodable

/-- The head of the agenda happens. -/
def State.outside (s : State) (i : Instr) (r : List Instr) : Action :=
  let s := { s with agenda := r }
  if isWord i then .notAnEvent
  else if s.frozen && !whileFrozen i then .stay s
  else .exec i s

/-- What the next step does. -/
def State.turn (s : State) : Action :=
  match s.frozen, s.focus, s.agenda with
  | true, _, i :: r => s.outside i r
  | true, _, [] => .stay s
  | false, some (.path wid pidx pre), _ => s.pathTurn wid pidx pre
  | false, some (.stream b pre), _ => s.streamTurn b pre
  | false, none, i :: r => s.outside i r
  | false, none, [] => if s.ctl.ready then .events s.candidates s s.idle else .stay s.startBoot

/-! ### A word placed to be fetched next (log entry 4) -/

/-- The line whose slot 0 holds a word and whose other slots hold `nop`. -/
def lineWith (w : IWord) : List Byte :=
  bytesOfWord w ++ zeros 48 ++ leBytes 4 ((fold16 w ^^^ 0x0201).toNat * 2 ^ 16 + 0x0201)

/-- Where that line stands. -/
def placedAt : Nat := 0x100000

/-- The partition the placed word runs in: one core group, one slice, its areas in the first 32 MiB. -/
def placedPart : Partition :=
  let p := Partition.reset 1
  { p with
    slices := [(0, .physical 0)], tframe := 0x4000, vtab := 0x2000, spillArea := 0x40000, jstkArea := 0x60000, rstkArea := 0x68000
    ctx := { p.ctx with state := 1 }, ck := { p.ck with current := 1 } }

/-- The launch it runs in: one block of one warp, 32 registers, 64 lines of SRAM, warp 0 the producer. -/
def placedLaunch : Launch where
  words := [0x0101, BitVec.ofNat 64 placedAt, 0, 0, 0x0001000100000001, 0x100010020, 0x404020, BitVec.ofNat 64 placedAt]
    ++ List.replicate 24 0
  born := 0
  accept := 0
  state := .draining
  next := 1
  again := []
  wait := none
  retiredBlocks := 0
  retiredClusters := 0
  aborted := false
  translated := false
  status := 0
  start := 0
  retired := 0
  accum := 0
  record := none
  openView := 0
  ltag := none

/-- A stream that runs at the placed line. -/
def placedStream : MStream where
  pc := BitVec.ofNat 64 placedAt
  loops := [0, 0, 0]
  named := []
  waits := none
  line := none
  entering := false
  work := none
  drain := none
  store := none
  checked := false
  dtries := none

/-- The machine with a word where its next unit is fetched. -/
def State.withWord (s : State) (w : IWord) : State :=
  let b := Block.fresh 0 0 0 0 0 0 0 0 64 s.cycle (some 0) [0]
  let b := if isStreamOp w then { b with mx := { b.mx with stream := some placedStream } } else b
  { s with
    frozen := false
    focus := some (if isStreamOp w then .stream 0 none else .path 0 0 none)
    mem := s.mem.write placedAt (lineWith w)
    poolUpset := s.poolUpset.filter (·.1 != 0)
    poison := s.poison.filter fun k => k != placedAt / 32 && k != placedAt / 32 + 1
    hidden := s.hidden.filter fun h => !h.piece.meets ⟨placedAt, 64, placedAt, none, none⟩
    owned := s.owned.del (placedAt / 128)
    iommu := ⟨0, 0, 2 ^ 25, .hbm, 0, true, true, true, 0⟩ :: s.iommu
    atc := ⟨0, 0, 2 ^ 25, .hbm, 0, true, true, true, 0⟩ :: s.atc.filter (·.pasid != 0)
    parts := NMap.put s.parts 0 placedPart
    launches := NMap.put s.launches 0 placedLaunch
    blocks := NMap.put s.blocks 0 b
    nextBlock := max 1 s.nextBlock
    warps := NMap.put s.warps 0 { Warp.fresh placedPart placedLaunch 0 0 0 s.cycle with
      paths := { Path.free with state := .live, pc := BitVec.ofNat 64 placedAt, mask := BitVec.allOnes 32, inSet := true }
        :: List.replicate 15 Path.free } }

end Sys2Proof.Machine
end

