-- ==== Sys2Proof/Machine/Step.lean ====
section
/-! DEFINITION. One step of the machine. -/
namespace Sys2Proof.Machine

/-- The first of some events that changes the state. -/
def firstEffect (s : State) : List Instr → Option State
  | [] => none
  | i :: r =>
    match exec i s with
    | .next t => if t = s then firstEffect s r else some t
    | _ => firstEffect s r

/-- One step. -/
def step (s : State) : Host.Outcome State Fault Refusal :=
  match s.turn with
  | .exec i t => exec i t
  | .stay t => .next t
  | .events is t idle => .next ((firstEffect t is).getD idle)
  | .notAnEvent => .fault .notAnEvent

/-- The machine with one word placed where `step` fetches its next unit. -/
def State.withFetchWord (s : State) (nbits w : Nat) : State := s.withWord (BitVec.ofNat 96 (w % 2 ^ nbits))

end Sys2Proof.Machine
end

