-- ==== Sys2Proof/Safety.lean ====
section
/-! DEFINITION. A safe run, and the terms the claims are stated in: who issues, what a family's instruction needs before it runs, and
the state its rules give. -/
namespace Sys2Proof

/-- Whether the next step stops. -/
def stops (s : Machine.State) : Bool :=
  match Machine.step s with
  | .next _ => false
  | _ => true

/-- `n` steps from a state, none of which stops. -/
def safeFor : Nat → Machine.State → Prop
  | 0, _ => True
  | n + 1, s => ∃ t, Machine.step s = .next t ∧ safeFor n t

/-- Three vector sources. -/
def Alu.vecSrcs (o : Alu) (fa fb fc : Fmt) : List (Machine.Want × Src) := [(.vec fa, o.a), (.vec fb, o.b), (.vec fc, o.c)]
/-- Three scalar sources. -/
def Alu.scaSrcs (o : Alu) : List (Machine.Want × Src) := [(.sca, o.a), (.sca, o.b), (.sca, o.c)]

end Sys2Proof

namespace Sys2Proof.Machine

/-- Path `c.pidx` of warp `c.wid` issues, and `c` is what its instruction sees. -/
def Issues (s : State) (c : Ctx) : Prop :=
  s.focus = some (.path c.wid c.pidx c.pre) ∧ s.ctx? c.wid c.pidx c.pre = some c

/-- The matrix stream of block `c.bid` issues, on its own place and not on a drain retry's walk, and `c` is what its word sees. -/
def StreamIssues (s : State) (c : SCtx) : Prop :=
  s.focus = some (.stream c.bid c.pre) ∧ s.stream? c.bid c.pre = some c ∧ c.m.drain = none

/-- Every checksum cell of an interval under way is the sum of its row, its column or the whole (R265). -/
structure MWork.Agrees (w : MWork) : Prop where
  sums   : w.sums.length = 4096
  col    : w.col = (List.range 64).map fun i => ((List.range 64).map fun j => nth w.sums (64 * i + j) 0).sum
  row    : w.row = (List.range 64).map fun j => ((List.range 64).map fun i => nth w.sums (64 * i + j) 0).sum
  corner : w.corner = w.sums.sum

/-- A lane instruction of the issuing path passes its operand checks (R102, R143), and the compare of its shadow issue leaves `t`
(R138, R139). -/
structure LaneReady (s : State) (c : Ctx) (g : Guard) (d : Dst) (df : Fmt) (srcs : List (Want × Src)) (t : State) : Prop where
  issues : Issues s c
  checks : checkOperands c g d df srcs = .ok ()
  compare : shadowCompare s c (c.act g) = .ok t

/-- The same for an instruction whose rounding may be stochastic: `u` is the state after the count `n` is chosen (R226). -/
structure RoundReady (s : State) (c : Ctx) (g : Guard) (d : Dst) (df : Fmt) (srcs : List (Want × Src)) (m : RMode) (u : State) (n : Nat)
    (t : State) : Prop where
  issues : Issues s c
  checks : checkOperands c g d df srcs = .ok ()
  count : srCount s c (c.act g) m = .ok (u, n)
  compare : shadowCompare u c (c.act g) = .ok t

/-- A scalar instruction of the issuing path passes its operand checks. -/
structure ScalarReady (s : State) (c : Ctx) (g : Guard) (d : Dst) (srcs : List (Want × Src)) : Prop where
  issues : Issues s c
  checks : checkOperands c g d .none srcs = .ok ()

/-- Completion with a vector result: acting lane l gets `x l`. -/
def State.vectorDone (t : State) (c : Ctx) (g : Guard) (d : Dst) (df : Fmt) (x : Nat → Word) : State :=
  t.complete c (vectorResult c.w d df (c.act g) x).1 (vectorResult c.w d df (c.act g) x).2

/-- Completion with a vector result whose lanes set flags, under a rounding mode. -/
def State.floatDone (t : State) (c : Ctx) (g : Guard) (d : Dst) (df : Fmt) (m : RMode) (x : Nat → Word) (fl : Nat → BitVec 5) : State :=
  t.complete c (((vectorResult c.w d df (c.act g) x).1.orFlags (c.act g) fl).bumpCount m (c.act g)) (vectorResult c.w d df (c.act g) x).2

/-- Completion with a scalar result, computed where a lane acts. -/
def State.scalarDone (t : State) (c : Ctx) (g : Guard) (d : Dst) (x : Word) : State :=
  t.complete c (scalarResult c.w d (if c.once g then some x else none)).1 (scalarResult c.w d (if c.once g then some x else none)).2

/-- Completion with a predicate result. -/
def State.predicateDone (t : State) (c : Ctx) (g : Guard) (d : Dst) (x : LaneMask) : State :=
  t.complete c (predicateResult c.w d (c.act g) x).1 (predicateResult c.w d (c.act g) x).2

/-- Completion with an address result. -/
def State.addressDone (t : State) (c : Ctx) (d : Dst) (x : Option AReg) : State :=
  t.complete c (addressResult c.w d x).1 (addressResult c.w d x).2

/-- Lane l of a vector source. -/
def Ctx.vec (c : Ctx) (f : Fmt) (x : Src) (l : Nat) : Word := atLane (readVec c.w c.p f x) l
/-- A scalar source. -/
def Ctx.sca (c : Ctx) (x : Src) : Word := readSca c.w c.p x

end Sys2Proof.Machine
end

