-- ==== Sys2Proof/WellFormed.lean ====
section
/-! DEFINITION. Which instructions are words: those whose operands the spec's tables list (spec/03 R97 to R109 and each page's table)
and whose immediates and offsets fit one word. -/
namespace Sys2Proof

/-- Well-formed: listed operands, one word. -/
def Instr.wellFormed (i : Instr) : Bool := i.legal && i.encodable

end Sys2Proof
end

