-- ==== Sys2Proof/Certificates/Slice0/Obligations.lean ====
section
/-! DEFINITION. The claims about the machine: each is proved elsewhere. -/
open Sys2Proof Sys2Proof.Machine

/-- A completed instruction moves its path on and changes nothing else; a result is written where write-back asks and in its lanes only. When
an instruction of path c.pidx completes with warp w and place pl, the state differs from before only in the warp, in its block's count of
retired instructions (one more) and in nobody issuing. The warp is w with one more retired instruction; its path stands at the slot after
the unit, holds pl as its newest place and at most eight places, has issued now, and keeps its line only where the next slot lies in it;
its mask, entry and state stay, and so does every other path. A vector result writes, with write-back, the low 32 bits of lane l into its
register and for a 64-bit format the high 32 into the next, in the lanes of the mask and nowhere else; without it, nothing. Its place
holds the result in those lanes and, in the others, the register's value after the instruction or zero. A scalar, an address and a
predicate result do the same once, a write to p0 being discarded and an address place holding no stream. (spec/03 R89, spec/03 R101,
spec/05 R133, spec/27 R510, spec/03 R98, spec/03 R99, spec/05 R140) -/
def Obligations.Completion : Prop :=
  (∀ (s : State) (c : Ctx) (w : Warp) (pl : Place), c.pidx < w.paths.length →
      let t := s.complete c w pl
      let p := w.path c.pidx
      ∃ v, t = { s with focus := none, warps := NMap.put s.warps c.wid v
                        blocks := NMap.adjust s.blocks c.bid fun b => { b with retired := b.retired + 1 } }
        ∧ v = { w with retired := w.retired + 1, paths := v.paths }
        ∧ (v.path c.pidx).pc = c.nextPc ∧ (v.path c.pidx).window = (some pl :: p.window).take 8
        ∧ (v.path c.pidx).last = some s.cycle
        ∧ (v.path c.pidx).line = (if pcLine c.nextPc = pcLine p.pc then p.line else none)
        ∧ (v.path c.pidx).mask = p.mask ∧ (v.path c.pidx).entry = p.entry ∧ (v.path c.pidx).state = p.state
        ∧ (v.path c.pidx).await = p.await ∧ (v.path c.pidx).arrived = p.arrived
        ∧ ∀ i, i ≠ c.pidx → v.path i = w.path i)
  ∧ ((∀ (w : Warp) (d : Dst) (f : Fmt) (m : LaneMask) (x : Nat → Word), w.v.length = w.n → d.idx + spanOf f ≤ w.n → f ≠ .b128 →
        ∃ v pl, vectorResult w d f m x = ({ w with v := v }, .vector pl)
          ∧ (d.wb = false → v = w.v)
          ∧ (d.wb = true → ∀ i l, i < w.n → l < 32 → laneOf (({ w with v := v } : Warp).vreg i) l =
              if m.getLsbD l = true ∧ i = d.idx then (x l).extractLsb' 0 32
              else if m.getLsbD l = true ∧ f.is64 = true ∧ i = d.idx + 1 then (x l).extractLsb' 32 32
              else laneOf (w.vreg i) l)
          ∧ ∀ l, l < 32 → atLane pl l = if m.getLsbD l then (if f.is64 then x l else ((x l).extractLsb' 0 32).zeroExtend 64)
              else if d.wb then atLane (({ w with v := v } : Warp).vecValue f d.idx) l else 0)
      ∧ (∀ (w : Warp) (d : Dst) (x : Word), d.idx < w.s.length →
        ∃ v, scalarResult w d (some x) = ({ w with s := v }, .scalar x)
          ∧ ∀ i, nth v i 0 = if d.wb = true ∧ i = d.idx then x else w.sreg i)
      ∧ (∀ (w : Warp) (d : Dst), scalarResult w d none = (w, .scalar (if d.wb then w.sreg d.idx else 0)))
      ∧ (∀ (w : Warp) (d : Dst) (x : AReg), d.idx < w.a.length →
        ∃ v, addressResult w d (some x) = ({ w with a := v }, .address x.pointer x.base x.limit x.perm)
          ∧ ∀ i, nth v i AReg.zero = if d.wb = true ∧ i = d.idx then x else w.areg i)
      ∧ (∀ (w : Warp) (d : Dst), (addressResult w d none).1 = w)
      ∧ (∀ (w : Warp) (d : Dst) (m x : LaneMask), d.idx < w.p.length →
        ∃ v pl, predicateResult w d m x = ({ w with p := v }, .predicate pl)
          ∧ (∀ i, i ≠ d.idx ∨ d.idx = 0 ∨ d.wb = false → nth v i 0 = w.preg i)
          ∧ (d.idx ≠ 0 → d.wb = true → ∀ l, (nth v d.idx 0).getLsbD l = if m.getLsbD l then x.getLsbD l else (w.preg d.idx).getLsbD l)
          ∧ ∀ l, pl.getLsbD l = if m.getLsbD l then x.getLsbD l else d.wb && (nth v d.idx 0).getLsbD l))

/-- Which operands pass and the trap of those that do not; a mismatch is corrected by one reissue and a second one traps. An instruction
whose predicate field is 0b1000 raises none of these. Otherwise the checks pass exactly when every latch source names a place of the
operand's class (a scalar place also serves a vector operand) and, where a lane acts, every vector register named stands below W. A latch
without a place or with one of class none raises 0x01 subcode 0x01, one of another class subcode 0x02; a register outside the window
raises 0x15 subcode 0x00 with its index, after every latch is checked. The compare passes where shadow issue is off or no computed lane
is in error. An error at the first compute only is corrected: the quarter's corrected-compute counter rises by one, the reissue takes the
quarter's next slot, counted under leaf 4, and nothing else changes but the errors, which are spent. Lanes that differ again raise 0x50
subcode 0x00 with those lanes, and a vector instruction that meets them takes that trap. (spec/03 R102, spec/03 R103, spec/05 R143,
spec/05 R138, spec/05 R139, spec/28 R538) -/
def Obligations.OperandAndShadowChecks : Prop :=
  (∀ (c : Ctx) (g : Guard) (d : Dst) (df : Fmt) (srcs : List (Want × Src)),
      let place (k : Nat) : Place := (nth c.p.window (k - 1) none).getD .none
      let fits (x : Want) (pl : Place) : Prop := match x, pl with
        | .vec _, .vector _ => True | .vec _, .scalar _ => True | .sca, .scalar _ => True | .pred, .predicate _ => True | _, _ => False
      let good (x : Want × Src) : Prop := ∀ k, x.2 = .latch k → fits x.1 (place k)
      let inside (f : Fmt) (i : Nat) : Prop := i + (if f = .b128 then 4 else if f = .i64 ∨ f = .f64 then 2 else 1) ≤ min 32 c.w.n
      let bounds : Prop := (d.cls = .vector → d.wb = true → inside df d.idx) ∧ ∀ f i, (Want.vec f, Src.reg i) ∈ srcs → inside f i
      (checkOperands c g d df srcs = .ok () ↔ (g.never = false → ∀ x ∈ srcs, good x) ∧ (c.act g ≠ 0 → bounds))
      ∧ (∀ before x after k, g.never = false → srcs = before ++ x :: after → (∀ y ∈ before, good y) → x.2 = .latch k → ¬fits x.1 (place k) →
          checkOperands c g d df srcs = .error (.trap ⟨0x01, if place k = .none then 0x01 else 0x02, 0, c.act g⟩))
      ∧ ((∀ x ∈ srcs, good x) → c.act g ≠ 0 → ¬bounds →
          ∃ i : Nat, checkOperands c g d df srcs = .error (.trap ⟨0x15, 0x00, BitVec.ofNat 64 i, c.act g⟩)))
  ∧ ((∀ (s : State) (c : Ctx) (lanes : LaneMask),
        let q := c.wid / 16
        let first := s.upset.1 &&& lanes
        let second := s.upset.2 &&& lanes
        (c.la.shadow = false ∨ first = 0 → shadowCompare s c lanes = .ok s)
        ∧ (c.la.shadow = true → first ≠ 0 → second = 0 → ∃ t, shadowCompare s c lanes = .ok t
            ∧ t = { s with upset := (0, 0), correctedCompute := t.correctedCompute, slots := t.slots, issued := t.issued }
            ∧ t.correctedCompute = s.correctedCompute.put q (s.correctedCompute.getD q 0 + 1)
            ∧ t.issued = reissueMark q :: s.issued
            ∧ t.slots = s.slots.put q ((s.slots.getD q (List.replicate 28 0)).modify 4 (· + 1)))
        ∧ (c.la.shadow = true → first ≠ 0 → second ≠ 0 → shadowCompare s c lanes = .error (.trap ⟨0x50, 0x00, 0, second⟩)))
      ∧ (∀ (s : State) (c : Ctx) (o : Alu), Issues s c → checkOperands c o.g o.d o.fmt (o.vecSrcs o.fmt o.fmt o.fmt) = .ok () →
        c.la.shadow = true → s.upset.1 &&& c.act o.g ≠ 0 → s.upset.2 &&& c.act o.g ≠ 0 →
        ∀ i ∈ [Instr.iadd o, .imul o, .and o, .shl o, .fabs o], exec i s =
          .next (s.takeTrap c.wid c.pidx ⟨0x50, 0x00, 0, s.upset.2 &&& c.act o.g⟩ (unitOf c.p c.pre))))

/-- Taking a trap writes the frame, loads the cause registers and enters the handler, or halts the warp. A second shadow mismatch (0x50 while
an error of the compare stands) first takes its reissue's slot. For a warp that is in no handler, where the event is no rollback, its
TRAP trace record is written (s1 is the state after it), the frame can be written (s2 is the state after it) and the vector entry of the
cause is a usable PC: the warp's cause register is cause + 256 * subcode, its cause data and its lane mask (present lanes only) are the
trap's, a0 is the frame with rd and wr, the in-handler flag is set, the trapping path stands live at the handler with an empty window and
its own mask, every other used path is frozen, and every other register, and every other warp, is as before. Where the entry is unusable,
or the warp was in a handler, the warp is halted instead. (spec/22 R450, spec/22 R458, spec/22 R459, spec/22 R461) -/
def Obligations.TrapEntry : Prop :=
  ∀ (s s1 : State) (wid pidx : Nat) (t : Trap) (u : Unit') (w : Warp) (b : Block) (pt : Partition),
    s.warps.get? wid = some w → s.blocks.get? w.block = some b → pidx < w.paths.length →
    let s0 : State := if t.cause = 0x50 ∧ s.upset.1 ≠ 0 then { s.reissueSlot (wid / 16) with focus := none, upset := (0, 0) } else { s with focus := none }
    let e : Env := ⟨partOfLaunch b.launch, b.home⟩
    let seen : Trap := { t with lanes := t.lanes &&& w.present }
    let fa := pt.tframe + w.frameSlot * 8192
    s0.rollsBack e.part (s.classOf w.block) t.cause t.sub (if t.cause = 0x51 then s0.poisonNear e t.data.toNat else []) = none →
    s1 = s0.trace e.part 3 wid pidx (t.sub * 256 + t.cause) → s1.parts.get? e.part = some pt →
    (∀ s2 bs, w.inHandler = false → s1.writeOwn wid w.block e fa (frameBytes w pidx seen u s.cycle 0 0) = .ok s2 →
      (s2.wroteOut w.block).readPlain e (pt.vtab + 8 * (t.cause / 16)) 8 = .ok bs →
      let pc := BitVec.ofNat 64 (leNat bs)
      (pc ≠ 0 → (s2.wroteOut w.block).checkTarget e pc = .ok () →
        ∃ v, (s.takeTrap wid pidx t u).warps.get? wid = some v
          ∧ (s.takeTrap wid pidx t u).mem = s2.mem ∧ (∀ k, k ≠ wid → (s.takeTrap wid pidx t u).warps.get? k = s2.warps.get? k)
          ∧ v = { w with cause := BitVec.ofNat 64 (t.cause + 256 * t.sub), cdata := t.data, lmask := seen.lanes.zeroExtend 64
                         inHandler := true, trapPath := pidx, trapArrived := (w.path pidx).arrived, frozen := v.frozen, a := v.a, paths := v.paths }
          ∧ v.a = w.a.set 0 ⟨BitVec.ofNat 64 fa, BitVec.ofNat 64 fa, BitVec.ofNat 64 (fa + 8192), 3, none, none⟩
          ∧ (∀ i, i ∈ v.frozen ↔ i < 16 ∧ i ≠ pidx ∧ (w.path i).state ≠ .free)
          ∧ (v.path pidx).state = .live ∧ (v.path pidx).pc = pc ∧ (v.path pidx).window = [] ∧ (v.path pidx).mask = (w.path pidx).mask)
      ∧ (pc = 0 ∨ (∃ f, (s2.wroteOut w.block).checkTarget e pc = .error f) → ∃ v, (s.takeTrap wid pidx t u).warps.get? wid = some v ∧ v.halted = true))
    ∧ (w.inHandler = true → ∃ v, (s.takeTrap wid pidx t u).warps.get? wid = some v ∧ v.halted = true)

/-- Returning through an untouched frame restores every register, the flags, the window and the PC. For a warp whose register files have
their sizes, the frame a trap writes is 8,192 bytes, passes the checks of eret, and restores s0 to s63, p0 to p7, v0 to v(W-1), a0 to a15
with their stream state and without their cached runs, the lane flags, the stochastic count, and the trapping path's PC and window places
to what they were. (spec/22 R454, spec/22 R455, spec/22 R457, spec/22 R460) -/
def Obligations.TrapFrameRoundTrip : Prop :=
  ∀ (w : Warp) (pidx : Nat) (t : Trap) (u : Unit') (cycle : Nat),
    pidx < w.paths.length → 8 ≤ w.n → w.n ≤ 256 → w.v.length = w.n → (∀ x ∈ w.v, x.length = 32) → w.s.length = 64 → w.a.length = 16 →
    w.p.length = 8 → w.flags.length = 32 → w.wbase < 2 ^ 32 → w.sfloor < 2 ^ 32 → w.cdepth < 2 ^ 16 →
    (∀ i, i < 16 → (w.areg i).ordered = true) → (∀ i, i < 8 → (w.areg i).stream = none) →
    (∀ i x, (w.areg i).stream = some x → 1 ≤ x.dims ∧ x.dims ≤ 4 ∧ x.sound (w.areg i).pointer = true ∧ x.n.length = 4 ∧ x.i.length = 4
      ∧ x.t.length = 4 ∧ (∀ k ∈ x.n, k < 2 ^ 32) ∧ (∀ k ∈ x.i, k < 2 ^ 32) ∧ ∀ k ∈ x.t, -2 ^ 63 ≤ k ∧ k < 2 ^ 63) →
    (w.path pidx).window.length ≤ 8 → (∀ v, some (.vector v) ∈ (w.path pidx).window → v.length = 32) →
    (∀ p b l perm, some (.address p b l perm) ∈ (w.path pidx).window → b ≤ p ∧ p ≤ l) →
    let bs := frameBytes w pidx t u cycle 0 0
    let r := w.restoreFrame pidx bs
    bs.length = 8192 ∧ frameMatches w bs = true ∧ frameAddressesOk bs = true
    ∧ r.s = w.s ∧ r.p = w.p ∧ (∀ i, i < w.width → r.vreg i = w.vreg i) ∧ r.flags = w.flags ∧ r.srcnt = w.srcnt
    ∧ (∀ i, i < 16 → r.areg i = { w.areg i with run := none })
    ∧ (r.path pidx).pc = (w.path pidx).pc ∧ ∀ k, 1 ≤ k → k ≤ 8 → (r.path pidx).place k = (w.path pidx).place k

/-- eret in a handler restores the frame and leaves the handler, and traps elsewhere. eret of the issuing path, where the warp is in its
handler and no other path has been made there, and the frame can be read, names the warp's B, S, n and depth, holds address images that
R460 accepts and a PC that R94 accepts, answers the next state in which the warp is out of its handler with no path frozen, its scalar
registers, flags, count and address registers are the frame's, the path stands at the frame's PC with the frame's window and its own mask
and entry. Outside a handler, or where the counts differ, it raises 0x01 subcode 0x0B; where an address image is refused, 0x10 subcode
0x08. (spec/06 R178, spec/22 R460) -/
def Obligations.TrapReturn : Prop :=
  ∀ (s : State) (c : Ctx), Issues s c →
    let alone : Prop := ∀ i, i < 16 → i ≠ c.pidx → (c.w.path i).state ≠ .free → c.w.frozen.contains i = true
    let fa := ((s.parts.get? c.env.part).elim 0 (·.tframe)) + c.w.frameSlot * 8192
    let trap (cause sub : Nat) : Prop := exec .eret s = .next (s.takeTrap c.wid c.pidx ⟨cause, sub, 0, c.p.mask⟩ (unitOf c.p c.pre))
    (c.w.inHandler = false → trap 0x01 0x0B)
    ∧ (∀ bs, c.w.inHandler = true → alone → c.w.frozen.contains c.pidx = false → c.pidx < 16 → c.pidx < c.w.paths.length →
      s.readOwn c.wid c.env fa 8192 = .ok bs →
      (frameMatches c.w bs = false → trap 0x01 0x0B)
      ∧ (frameMatches c.w bs = true → frameAddressesOk bs = false → trap 0x10 0x08)
      ∧ (frameMatches c.w bs = true → frameAddressesOk bs = true → checkPc (BitVec.ofNat 64 (fieldAt bs 0 8)) = .ok () →
        ∃ t v, exec .eret s = .next t ∧ t.warps.get? c.wid = some v ∧ t.mem = s.mem
          ∧ v.inHandler = false ∧ v.frozen = [] ∧ v.srcnt = BitVec.ofNat 64 (fieldAt bs 0x30 8) ∧ v.a = frameAregs bs
          ∧ (∀ i, i < 64 → v.sreg i = BitVec.ofNat 64 (fieldAt bs (0x1C0 + 8 * i) 8))
          ∧ (∀ l, l < 32 → v.flag l = BitVec.ofNat 5 (fieldAt bs (0x50 + l) 1))
          ∧ (∀ i, 1 ≤ i → i < 8 → v.preg i = BitVec.ofNat 32 (fieldAt bs (0x1A0 + 4 * i) 4))
          ∧ (v.path c.pidx).pc = BitVec.ofNat 64 (fieldAt bs 0 8)
          ∧ (v.path c.pidx).mask = c.p.mask ∧ (v.path c.pidx).entry = c.p.entry
          ∧ (v.path c.pidx).window = (List.range 8).map fun k => placeOfFrame bs (fieldAt bs (0x44 + k) 1) (0x800 + 256 * k)))

/-- nop only takes its latch place. nop of the issuing path, whatever its predicate field, answers the state in which it has completed with a
place of class none and no other effect; the padding word decodes to it. (R165) -/
def Obligations.NopHasNoEffect : Prop :=
  (∀ (s : State) (c : Ctx) (g : Guard), Issues s c → exec (.nop g) s = .next (s.complete c c.w .none))
    ∧ decode (BitVec.ofNat 96 0xC000F000) = .ok (.nop Guard.always)

/-- bre branches the whole path on a stream flag. bre of the issuing path: where the flag's value differs from the sense (an address register
without a stream has all four flags zero) it checks the target under R94 and then R91, raises the failing check's cause at the whole
path, and otherwise continues the whole path there; where the flag equals the sense it goes on at the next slot whatever its target.
Neither changes the address registers. (R167) -/
def Obligations.BranchOnFlag : Prop :=
  ∀ (s : State) (c : Ctx) (sense : Bool) (e a : Nat) (o : Int), Issues s c → e < 4 →
    let flag : Bool := match (c.w.areg a).stream with | some t => t.e.getLsbD e | none => false
    (flag = sense → exec (.bre sense e a o) s = .next (s.skip c))
    ∧ (flag ≠ sense →
        (∀ target, branchTarget c.branchPc o = .ok target → s.checkTarget c.env target = .ok () →
          exec (.bre sense e a o) s = .next (s.completeAt c c.w target))
        ∧ (∀ cause sub d, branchTarget c.branchPc o = .error (cause, sub, d) ∨
            (∃ target, branchTarget c.branchPc o = .ok target ∧ s.checkTarget c.env target = .error (cause, sub, d)) →
          exec (.bre sense e a o) s = .next (s.takeTrap c.wid c.pidx ⟨cause, sub, d, c.p.mask⟩ (unitOf c.p c.pre))))
    ∧ ∀ target, ∃ v, (s.completeAt c c.w target).warps.get? c.wid = some v ∧ v.a = c.w.a

/-- jmpx moves the path to a checked register value and opens nothing. jmpx of the issuing path raises the cause of the check its register's
value fails under R94 and then R91, and otherwise continues the whole path at that value; the warp's join entries and return entries stay
as they are. (R173) -/
def Obligations.IndirectJump : Prop :=
  ∀ (s : State) (c : Ctx) (r : Nat), Issues s c → c.pidx < c.w.paths.length →
    let target := c.w.sreg r
    (∀ f, checkPc target = .error f ∨ (checkPc target = .ok () ∧ s.checkTarget c.env target = .error f) →
        exec (.jmpx r) s = .next (s.takeTrap c.wid c.pidx ⟨f.1, f.2.1, f.2.2, c.p.mask⟩ (unitOf c.p c.pre)))
    ∧ (checkPc target = .ok () → s.checkTarget c.env target = .ok () →
        exec (.jmpx r) s = .next (s.completeAt c c.w target)
        ∧ ∃ v, (s.completeAt c c.w target).warps.get? c.wid = some v ∧ (v.path c.pidx).pc = target ∧ (v.path c.pidx).mask = c.p.mask
            ∧ (v.path c.pidx).entry = c.p.entry ∧ v.joins = c.w.joins ∧ v.jspilled = c.w.jspilled ∧ v.rets = c.w.rets
            ∧ v.rspilled = c.w.rspilled ∧ v.calls = c.w.calls)

/-- br moves the lanes whose predicate holds, splitting the path where others stay. br of the issuing path whose predicate no lane passes
goes on at the next slot without checking its target. Otherwise a failing check of the target raises its cause with those lanes. Where
every lane passes, the path continues at the target. Where some stay, the lowest free table entry takes the passing lanes to the target
outside the issue set, with the path's join entry and window and the branch's place in it; the others go on at the next slot; the
innermost entry's out count rises by one. With no free entry the path parks on the path table, or, where every other entry is a waiting
group or held remainder, raises 0x71 subcode 0x04. (spec/06 R156, spec/06 R160, spec/06 R166) -/
def Obligations.BranchAndSplit : Prop :=
  ∀ (s : State) (c : Ctx) (g : Guard) (o : Int), Issues s c → c.w.paths.length = 16 → c.pidx < 16 →
    let t := c.act g
    let rest := c.p.mask &&& ~~~t
    let trap (cause sub : Nat) (d : Word) : Prop :=
      exec (.br g o) s = .next (s.takeTrap c.wid c.pidx ⟨cause, sub, d, t &&& c.w.present⟩ (unitOf c.p c.pre))
    (t = 0 → exec (.br g o) s = .next (s.skip c))
    ∧ (t ≠ 0 → (∀ f, branchTarget c.branchPc o = .error f → trap f.1 f.2.1 f.2.2)
        ∧ (∀ target f, branchTarget c.branchPc o = .ok target → s.checkTarget c.env target = .error f → trap f.1 f.2.1 f.2.2)
        ∧ (∀ target, branchTarget c.branchPc o = .ok target → s.checkTarget c.env target = .ok () →
          (rest = 0 → exec (.br g o) s = .next (s.completeAt c c.w target))
          ∧ (rest ≠ 0 → (∀ i, i < 16 → (c.w.path i).state ≠ .free) →
              ((∀ i, i < 16 → i ≠ c.pidx → (c.w.path i).state = .waitingGroup ∨ (c.w.path i).state = .heldRemainder) → trap 0x71 0x04 0)
              ∧ ((∃ i, i < 16 ∧ i ≠ c.pidx ∧ (c.w.path i).state ≠ .waitingGroup ∧ (c.w.path i).state ≠ .heldRemainder) →
                  exec (.br g o) s = .next (s.park c .pathTable)))
          ∧ (∀ i j s1 w1, rest ≠ 0 → i < 16 → (c.w.path i).state = .free → (∀ k, k < i → (c.w.path k).state ≠ .free) →
              getJoin c.env t c.p.entry (s, c.w) = .ok (j, s1, w1) →
              ∃ v, exec (.br g o) s = .next (s1.finish c v)
                ∧ v = { w1 with joins := NMap.put w1.joins c.p.entry { j with out := j.out + 1 }, paths := v.paths }
                ∧ v.path i = { (c.p.took .none).goto target true with
                    mask := t, last := none, readyAt := none, pairAt := none, inSet := false, units := 0, since := s.cycle, entering := false }
                ∧ v.path c.pidx = { (c.p.took .none).goto c.nextPc false with mask := rest }
                ∧ ∀ k, k ≠ i → k ≠ c.pidx → v.path k = w1.path k)))

/-- mark opens a scope and join closes it when every path has come. mark with room opens an entry of kind mark with the label's PC, the
path's entry as parent and out 1, and makes it the path's entry; a label that fails R94 raises that cause. join at a PC that is not its
innermost mark's raises 0x01 subcode 0x08; while others are out, the path becomes the scope's waiting group or joins its lanes to it; the
last to come lets the group go on one slot after the rejoin PC, with all their lanes, the parent entry and an empty window, and the entry
is freed; where that PC fails R94 it raises that cause instead. (spec/06 R158, spec/06 R168, spec/06 R169) -/
def Obligations.MarkAndJoin : Prop :=
  (∀ (s : State) (c : Ctx) (o : Int), Issues s c →
      (∀ f, branchTarget c.branchPc o = .error f →
        exec (.mark o) s = .next (s.takeTrap c.wid c.pidx ⟨f.1, f.2.1, f.2.2, c.p.mask⟩ (unitOf c.p c.pre)))
      ∧ (∀ rejoin, branchTarget c.branchPc o = .ok rejoin → c.w.joins.length < 32 → c.pidx < c.w.paths.length →
        c.w.jstk.toNat + 16 * (c.w.joins.length + c.w.jspilled.length + 1) ≤ c.w.jstklim.toNat →
        ∃ id v, exec (.mark o) s = .next (s.complete c v .none) ∧ c.w.joins.get? id = none ∧ c.w.jspilled.get? id = none
          ∧ v = { c.w with joins := NMap.put c.w.joins id ⟨.mark, rejoin, c.p.entry, 1, none, none⟩, paths := v.paths }
          ∧ v.path c.pidx = { c.p with entry := id } ∧ ∀ i, i ≠ c.pidx → v.path i = c.w.path i))
    ∧ (∀ (s : State) (c : Ctx) (j pj : JoinEntry), Issues s c → c.w.paths.length = 16 → c.pidx < 16 →
      c.w.joins.get? c.p.entry = some j → c.w.joins.get? j.parent = some pj → j.parent ≠ c.p.entry → (∀ g, j.group = some g → g < 16 ∧ g ≠ c.pidx) →
      (j.kind ≠ .mark ∨ j.rejoin ≠ c.p.pc → exec .join s = .next (s.takeTrap c.wid c.pidx ⟨0x01, 0x08, 0, c.p.mask⟩ (unitOf c.p c.pre)))
      ∧ (∀ f, j.kind = .mark → j.rejoin = c.p.pc → j.out = 1 → checkPc (pcNext c.p.pc) = .error f →
          exec .join s = .next (s.takeTrap c.wid c.pidx ⟨f.1, f.2.1, f.2.2, c.p.mask⟩ (unitOf c.p c.pre)))
      ∧ (j.kind = .mark → j.rejoin = c.p.pc → 1 ≤ j.out → (j.out = 1 → checkPc (pcNext c.p.pc) = .ok ()) → pj.kind ≠ .callx → ∃ t v, exec .join s = .next t
          ∧ t = { s with focus := none, warps := NMap.put s.warps c.wid v, blocks := t.blocks } ∧ v.s = c.w.s ∧ v.v = c.w.v ∧ v.a = c.w.a ∧ v.p = c.w.p
          ∧ (2 ≤ j.out → j.group = none → (v.path c.pidx).state = .waitingGroup ∧ (v.path c.pidx).mask = c.p.mask
              ∧ v.joins.get? c.p.entry = some { j with group := some c.pidx, out := j.out - 1 })
          ∧ (∀ g, 2 ≤ j.out → j.group = some g → (v.path c.pidx).state = .free ∧ (v.path g).mask = (c.w.path g).mask ||| c.p.mask
              ∧ v.joins.get? c.p.entry = some { j with out := j.out - 1 })
          ∧ (∀ g, j.out = 1 → j.group.getD c.pidx = g → (v.path g).state = .live ∧ (v.path g).pc = pcNext c.p.pc
              ∧ (v.path g).entry = j.parent ∧ (v.path g).window = [] ∧ (v.path g).mask = (if g = c.pidx then c.p.mask else (c.w.path g).mask ||| c.p.mask)
              ∧ (g ≠ c.pidx → (v.path c.pidx).state = .free) ∧ v.joins.get? c.p.entry = none)))

/-- call, callx and ret move the register window with the return stack. call with f above W raises 0x15 subcode 0x02; otherwise, its target
checked and room in the stacks and the allocation, it opens a call entry with the next slot as rejoin, pushes it with f, adds f to B and
continues the path at the target with an empty window. ret with an empty stack raises 0x01 subcode 0x09 and under another entry 0x01
subcode 0x08; as the last path of its call, whose rejoin PC passes R94, it pops: B falls by f, the path goes on at the call's rejoin PC
under the parent entry with an empty window. callx without an acting lane goes on; otherwise the acting lanes with the lowest target
enter it as call does, the other acting lanes are held at the callx, and the lanes that do not act wait in its group. (spec/06 R158,
spec/06 R162, spec/06 R170, spec/06 R171, spec/06 R172) -/
def Obligations.CallAndReturn : Prop :=
  (∀ (s : State) (c : Ctx) (f : Nat) (o : Int), Issues s c →
      (min 32 c.w.n < f → exec (.call f o) s = .next (s.takeTrap c.wid c.pidx ⟨0x15, 0x02, BitVec.ofNat 64 f, c.p.mask⟩ (unitOf c.p c.pre)))
      ∧ (∀ target, f ≤ min 32 c.w.n → branchTarget c.branchPc o = .ok target → s.checkTarget c.env target = .ok () →
        (∀ s1 w1, enterCall c c.p.mask f target c.nextPc (s, c.w) = .ok (s1, w1) → exec (.call f o) s = .next (s1.finish c w1))
        ∧ (c.pidx < c.w.paths.length → c.w.joins.length < 32 → c.w.rets.length < 16 → c.w.wbase + f + min 32 c.w.n - c.w.sfloor ≤ c.w.n →
          c.w.jstk.toNat + 16 * (c.w.joins.length + c.w.jspilled.length + 1) ≤ c.w.jstklim.toNat →
          ∃ id v, exec (.call f o) s = .next (s.finish c v) ∧ c.w.joins.get? id = none
            ∧ v = { c.w with wbase := c.w.wbase + f, rets := ⟨c.nextPc, f, id⟩ :: c.w.rets, calls := id :: c.w.calls
                             joins := NMap.put c.w.joins id ⟨.call, c.nextPc, c.p.entry, 1, none, none⟩, paths := v.paths }
            ∧ (v.path c.pidx).pc = target ∧ (v.path c.pidx).entry = id ∧ (v.path c.pidx).window = [] ∧ (v.path c.pidx).mask = c.p.mask
            ∧ ∀ i, i ≠ c.pidx → v.path i = c.w.path i)))
    ∧ (∀ (s : State) (c : Ctx), Issues s c →
      (c.w.rets = [] → c.w.rspilled = 0 → exec .ret s = .next (s.takeTrap c.wid c.pidx ⟨0x01, 0x09, 0, c.p.mask⟩ (unitOf c.p c.pre)))
      ∧ (∀ j pj r rest, c.w.rets = r :: rest → c.w.joins.get? c.p.entry = some j →
        (j.kind ≠ .call → exec .ret s = .next (s.takeTrap c.wid c.pidx ⟨0x01, 0x08, 0, c.p.mask⟩ (unitOf c.p c.pre)))
        ∧ (j.kind = .call → j.out = 1 → j.group = none → j.held = none → c.w.sfloor + r.f ≤ c.w.wbase → c.pidx < c.w.paths.length →
          j.parent ≠ c.p.entry → c.w.joins.get? j.parent = some pj → pj.kind ≠ .callx → checkPc j.rejoin = .ok () →
          ∃ t v, exec .ret s = .next t ∧ t = { s with focus := none, warps := NMap.put s.warps c.wid v, blocks := t.blocks }
            ∧ v.wbase = c.w.wbase - r.f ∧ v.rets = rest ∧ v.sfloor = c.w.sfloor ∧ v.v = c.w.v ∧ v.s = c.w.s
            ∧ (v.path c.pidx).state = .live ∧ (v.path c.pidx).pc = j.rejoin ∧ (v.path c.pidx).entry = j.parent ∧ (v.path c.pidx).window = []
            ∧ v.joins.get? c.p.entry = none)))
    ∧ (∀ (s : State) (c : Ctx) (g : Guard) (f v : Nat) (j : JoinEntry), Issues s c → c.w.joins.get? c.p.entry = some j →
      ¬(j.kind = .callx ∧ j.rejoin = c.nextPc) →
      let t := c.act g
      let value (l : Nat) : Nat := (atLane (c.w.vecValue .i64 v) l).toNat
      (t &&& c.w.present = 0 → exec (.callx g f v) s = .next (s.skip c))
      ∧ (t &&& c.w.present ≠ 0 → min 32 c.w.n ≤ v + 1 →
          exec (.callx g f v) s = .next (s.takeTrap c.wid c.pidx ⟨0x15, 0x00, BitVec.ofNat 64 v, t⟩ (unitOf c.p c.pre)))
      ∧ (∀ u, t &&& c.w.present ≠ 0 → v + 1 < min 32 c.w.n → f ≤ min 32 c.w.n →
        (∃ l, l < 32 ∧ (t &&& c.w.present).getLsbD l = true ∧ value l = u) → (∀ l, l < 32 → (t &&& c.w.present).getLsbD l = true → u ≤ value l) →
        (∀ l, t.getLsbD l = true → c.w.present.getLsbD l = true) → checkPc (BitVec.ofNat 64 u) = .ok () → s.checkTarget c.env (BitVec.ofNat 64 u) = .ok () →
        c.w.paths.length = 16 → c.pidx < 16 → (∃ a b, a < b ∧ b < 16 ∧ (c.w.path a).state = .free ∧ (c.w.path b).state = .free) →
        c.w.joins.length + 1 < 32 → c.w.rets.length < 16 → c.w.wbase + f + min 32 c.w.n - c.w.sfloor ≤ c.w.n →
        c.w.jstk.toNat + 16 * (c.w.joins.length + c.w.jspilled.length + 2) ≤ c.w.jstklim.toNat →
        ∃ w id, exec (.callx g f v) s = .next (s.finish c w) ∧ w.wbase = c.w.wbase + f ∧ w.rets = ⟨c.nextPc, f, id⟩ :: c.w.rets
          ∧ (w.path c.pidx).pc = BitVec.ofNat 64 u ∧ (w.path c.pidx).entry = id ∧ (w.path c.pidx).window = []
          ∧ (∀ l, l < 32 → ((w.path c.pidx).mask.getLsbD l = true ↔ t.getLsbD l = true ∧ value l = u))
          ∧ ((∃ l, l < 32 ∧ t.getLsbD l = true ∧ value l ≠ u) → ∃ i, i < 16 ∧ (w.path i).state = .heldRemainder ∧ (w.path i).pc = c.p.pc
              ∧ ∀ l, l < 32 → ((w.path i).mask.getLsbD l = true ↔ t.getLsbD l = true ∧ value l ≠ u))
          ∧ (c.p.mask &&& ~~~t ≠ 0 → ∃ i, i < 16 ∧ (w.path i).state = .waitingGroup ∧ (w.path i).mask = c.p.mask &&& ~~~t)))

/-- grow, shrink, yield and exit; trap raises 0x72 where a lane acts, and an unassigned opcode its trap whatever acts. grow and shrink to a
count outside 8 to 256, or the wrong way, raise 0x15 subcode 0x04; grow that the pool serves completes with that count, every window
register keeping its value and new ones reading zero, and parks with its request where it does not, or where an earlier grow of its warp
is parked; shrink with nothing to spill completes with the registers of the smaller window kept. yield that acts leaves the issue set
where another unparked path, held by no open call, stands outside. exit removes the acting lanes, and the helpers of quads left without a
present lane; an exit of every lane of the warp's last path, with no partner left at a barrier, ends the warp. trap n of the issuing path
takes trap 0x72 with subcode n and the acting present lanes, or only its place where no lane acts. A word of an opcode that names nothing
takes its trap at the path whatever lanes are active: 0x02 subcode 0x00 for 0xD0 to 0xEF, 0x01 subcode 0x06 for 0xFF, 0x01 subcode 0x05
for the others. (spec/06 R174, spec/06 R175, spec/06 R176, spec/06 R177, spec/04 R111, spec/04 R110) -/
def Obligations.AllocationLaneEndsAndSoftwareTraps : Prop :=
  ((∀ (s : State) (c : Ctx) (x : Src) (n : Nat), Issues s c → (x = .imm n ∨ ∃ r, x = .reg r ∧ (c.w.sreg r).toNat = n) →
        let trap (i : Instr) : Prop := exec i s = .next (s.takeTrap c.wid c.pidx ⟨0x15, 0x04, BitVec.ofNat 64 n, c.p.mask⟩ (unitOf c.p c.pre))
        let extra := (n + 7) / 8 - (c.w.n + 7) / 8
        let behind : Prop := ∃ g ∈ s.growers (c.wid / 16), g.1 = c.wid
        (n < 8 ∨ 256 < n ∨ n < c.w.n → trap (.grow x)) ∧ (n < 8 ∨ 256 < n ∨ c.w.n < n → trap (.shrink x))
        ∧ (8 ≤ n → n ≤ 256 → n = c.w.n → exec (.grow x) s = .next (s.skip c) ∧ exec (.shrink x) s = .next (s.skip c))
        ∧ (8 ≤ n → n ≤ 256 → c.w.n < n → behind ∨ (extra ≠ 0 ∧ s.growServed (c.wid / 16) extra = false) →
            exec (.grow x) s = .next (s.awaits c c.w (.parked .grow) (.grow n) 0))
        ∧ (8 ≤ n → n ≤ 256 → c.w.n < n → ¬behind → (extra = 0 ∨ s.growServed (c.wid / 16) extra = true) → 0 < c.w.n →
            c.w.sfloor ≤ c.w.wbase → c.w.wbase + min 32 c.w.n - c.w.sfloor ≤ c.w.n →
            ∃ w, exec (.grow x) s = .next (s.complete c w .none) ∧ w = { c.w with n := n, v := w.v } ∧ w.v.length = n
              ∧ (∀ i, i < min 32 c.w.n → w.vreg i = c.w.vreg i)
              ∧ ∀ i, min 32 c.w.n ≤ i → i < min 32 n → w.vreg i = List.replicate 32 0)
        ∧ (8 ≤ n → n ≤ 256 → n < c.w.n → c.w.sfloor ≤ c.w.wbase → c.w.wbase + min 32 n - c.w.sfloor ≤ n →
            ∃ w, exec (.shrink x) s = .next (s.complete c w .none) ∧ w = { c.w with n := n, v := w.v } ∧ w.v.length = n
              ∧ ∀ i, i < min 32 n → w.vreg i = c.w.vreg i))
      ∧ (∀ (s : State) (c : Ctx) (g : Guard), Issues s c →
        let away : Prop := ∃ i, i < 16 ∧ i ≠ c.pidx ∧ (c.w.path i).state = .live ∧ (c.w.path i).inSet = false ∧ (c.w.inHandler && c.w.frozen.contains i) = false
          ∧ c.w.heldByCall (c.w.path i) = false
        (c.once g = false ∨ ¬away → exec (.yield g) s = .next (s.skip c))
        ∧ (c.once g = true → away → exec (.yield g) s = .next ((s.skip c).setPath c.wid c.pidx fun p => { p with inSet := false, units := 0, since := s.cycle })))
      ∧ (∀ (s : State) (c : Ctx) (g : Guard), Issues s c →
        let t := c.act g &&& c.w.present
        let kept (l : Nat) : Prop := c.p.mask.getLsbD l = true ∧ t.getLsbD l = false ∧ (c.w.present.getLsbD l = true ∨
          ∃ k, k / 4 = l / 4 ∧ c.p.mask.getLsbD k = true ∧ t.getLsbD k = false ∧ c.w.present.getLsbD k = true)
        (c.act g = 0 → exec (.exit g) s = .next (s.skip c))
        ∧ (c.act g ≠ 0 → (∃ l, l < 32 ∧ kept l) → ∃ m : LaneMask, (∀ l, l < 32 → (m.getLsbD l = true ↔ kept l))
            ∧ exec (.exit g) s = .next (s.complete c (c.w.setPath c.pidx { c.p with mask := m }) .none))
        ∧ (∀ j, c.act g ≠ 0 → (∀ l, l < 32 → ¬kept l) → c.w.joins.get? c.p.entry = some j → j.kind = .root → j.out = 1 → j.group = none →
            j.held = none → s.deserted c.bid c.wid c.w = none → c.pidx < c.w.paths.length →
            ∃ t, exec (.exit g) s = .next t ∧ t = { s with focus := none, warps := NMap.del s.warps c.wid, blocks := t.blocks }
              ∧ ∀ b, s.blocks.get? c.bid = some b →
                  t.blocks.get? c.bid = some { b with retired := b.retired + 1, live := b.live.filter (· != c.wid) })))
  ∧ ((∀ (s : State) (c : Ctx) (g : Guard) (n : Nat), Issues s c →
        (c.once g = true → exec (.trap g n) s = .next (s.takeTrap c.wid c.pidx ⟨0x72, n, 0, c.act g &&& c.w.present⟩ (unitOf c.p c.pre)))
        ∧ (c.once g = false → exec (.trap g n) s = .next (s.skip c)))
      ∧ (∀ (s : State) (c : Ctx) (w : IWord), Issues s c →
        let op := (w.extractLsb' 0 8).toNat
        let t (cause sub : Nat) : Prop := exec (.unassignedOpcode w) s = .next (s.takeTrap c.wid c.pidx ⟨cause, sub, 0, c.p.mask⟩ (unitOf c.p c.pre))
        (0xD0 ≤ op → op ≤ 0xEF → t 0x02 0x00) ∧ (op = 0xFF → t 0x01 0x06) ∧ (op < 0xD0 ∨ (0xEF < op ∧ op < 0xFF) → t 0x01 0x05)))

/-- Integer arithmetic and logic of the vector lanes compute the result the rules give in each acting lane. An iadd, isub, imul, imad, imulh,
iadds, isubs, imin, imax, iabs, ineg or iabsd of the issuing path whose operands pass their checks answers the next state in which
element j of every acting lane is the exact result of the two's-complement elements (unsigned where .u) reduced to the element: modulo
2^e, imulh the high half, the saturating forms limited to the element's range; the instruction then completes. An and, or, xor, andn,
orn, xnor, not, imov or lut3 of the issuing path whose operands pass their checks completes with a value whose every bit, in every acting
lane, is that function of the same bit of the sources; lut3 takes bit 4a + 2b + c of its table. (spec/07 R184, spec/07 R185, spec/07
R187) -/
def Obligations.VectorIntegerAndLogicResults : Prop :=
  (∀ (s t : State) (c : Ctx) (o : Alu), LaneReady s c o.g o.d o.fmt (o.vecSrcs o.fmt o.fmt o.fmt) t →
      let e := elemBits o.fmt
      let x (v : Src) (l j : Nat) : BitVec e := BitVec.ofNat e (element o.fmt (c.vec o.fmt v l) j)
      let i (v : Src) (l j : Nat) : Int := if o.uns then (x v l j).toNat else (x v l j).toInt
      let done (r : Nat → Nat → Nat) : Host.Outcome State Fault Refusal :=
        .next (t.vectorDone c o.g o.d o.fmt fun l => ofElements o.fmt fun j => r l j)
      let low : Int := if o.uns then 0 else -2 ^ (e - 1)
      let high : Int := if o.uns then 2 ^ e - 1 else 2 ^ (e - 1) - 1
      let limited (v : Int) : Nat := ((if v < low then low else if high < v then high else v) % 2 ^ e).toNat
      exec (.iadd o) s = done (fun l j => (x o.a l j + x o.b l j).toNat)
      ∧ exec (.isub o) s = done (fun l j => (x o.a l j - x o.b l j).toNat)
      ∧ exec (.imul o) s = done (fun l j => (x o.a l j * x o.b l j).toNat)
      ∧ exec (.imad o) s = done (fun l j => (x o.a l j * x o.b l j + x o.c l j).toNat)
      ∧ exec (.imulh o) s = done (fun l j => ((i o.a l j * i o.b l j).fdiv (2 ^ e) % 2 ^ e).toNat)
      ∧ exec (.iadds o) s = done (fun l j => limited (i o.a l j + i o.b l j))
      ∧ exec (.isubs o) s = done (fun l j => limited (i o.a l j - i o.b l j))
      ∧ exec (.imin o) s = done (fun l j => if i o.a l j ≤ i o.b l j then (x o.a l j).toNat else (x o.b l j).toNat)
      ∧ exec (.imax o) s = done (fun l j => if i o.a l j ≤ i o.b l j then (x o.b l j).toNat else (x o.a l j).toNat)
      ∧ exec (.iabs o) s = done (fun l j => (i o.a l j).natAbs % 2 ^ e)
      ∧ exec (.ineg o) s = done (fun l j => (-x o.a l j).toNat)
      ∧ exec (.iabsd o) s = done (fun l j => (i o.a l j - i o.b l j).natAbs % 2 ^ e))
  ∧ (∀ (s t : State) (c : Ctx) (o : Alu), LaneReady s c o.g o.d o.fmt (o.vecSrcs o.fmt o.fmt o.fmt) t →
      let done (r : Nat → Word) : Host.Outcome State Fault Refusal := .next (t.vectorDone c o.g o.d o.fmt r)
      let bits (i : Instr) (f : Bool → Bool → Bool → Bool) : Prop := ∃ r, exec i s = done r ∧ ∀ l b, b < 64 →
        (r l).getLsbD b = f ((c.vec o.fmt o.a l).getLsbD b) ((c.vec o.fmt o.b l).getLsbD b) ((c.vec o.fmt o.c l).getLsbD b)
      bits (.and o) (fun a b _ => a && b) ∧ bits (.or o) (fun a b _ => a || b) ∧ bits (.xor o) (fun a b _ => a != b)
      ∧ bits (.andn o) (fun a b _ => a && !b) ∧ bits (.orn o) (fun a b _ => a || !b) ∧ bits (.xnor o) (fun a b _ => a == b)
      ∧ bits (.not o) (fun a _ _ => !a) ∧ bits (.imov o) (fun a _ _ => a)
      ∧ ∀ table : BitVec 8, bits (.lut3 table o) (fun a b z => table.getLsbD (4 * a.toNat + 2 * b.toNat + z.toNat)))

/-- Vector shifts, rotations, counts and bit fields compute the result the rules give in each acting lane. A shl, shr, sar, irot (left or
right), popc, clz, ctz or brev of the issuing path whose operands pass their checks completes with, in element j of every acting lane,
the shift by source 1 modulo the element width, the rotation, the number of ones, the number of leading or trailing zeros (the width for
zero), or the bits in opposite order. With p the low byte and k the second byte of the control element, the field is bits p to p + k - 1
cut at the element's end, empty where p lies beyond it. bfx completes with those bits at bit 0, zero extended for .u and sign extended
otherwise, zero for an empty field; bfi completes with source 0 whose field bits are the low bits of source 1. (spec/07 R185, spec/07
R191, spec/07 R186) -/
def Obligations.VectorShiftsCountsAndFields : Prop :=
  (∀ (s t : State) (c : Ctx) (o : Alu), LaneReady s c o.g o.d o.fmt (o.vecSrcs o.fmt o.fmt o.fmt) t →
      let e := elemBits o.fmt
      let x (v : Src) (l j : Nat) : BitVec e := BitVec.ofNat e (element o.fmt (c.vec o.fmt v l) j)
      let k (l j : Nat) : Nat := (x o.b l j).toNat % e
      let done (r : Nat → Nat → Nat) : Host.Outcome State Fault Refusal :=
        .next (t.vectorDone c o.g o.d o.fmt fun l => ofElements o.fmt fun j => r l j)
      exec (.shl o) s = done (fun l j => (x o.a l j <<< k l j).toNat)
      ∧ exec (.shr o) s = done (fun l j => (x o.a l j >>> k l j).toNat)
      ∧ exec (.sar o) s = done (fun l j => ((x o.a l j).sshiftRight (k l j)).toNat)
      ∧ exec (.irot false o) s = done (fun l j => ((x o.a l j).rotateLeft (k l j)).toNat)
      ∧ exec (.irot true o) s = done (fun l j => ((x o.a l j).rotateRight (k l j)).toNat)
      ∧ exec (.popc o) s = done (fun l j => (List.range e).countP fun b => (x o.a l j).getLsbD b)
      ∧ (∃ r, exec (.clz o) s = done r ∧ ∀ l j, r l j ≤ e ∧ (∀ b, e - r l j ≤ b → b < e → (x o.a l j).getLsbD b = false)
          ∧ (r l j < e → (x o.a l j).getLsbD (e - 1 - r l j) = true))
      ∧ (∃ r, exec (.ctz o) s = done r ∧ ∀ l j, r l j ≤ e ∧ (∀ b, b < r l j → (x o.a l j).getLsbD b = false)
          ∧ (r l j < e → (x o.a l j).getLsbD (r l j) = true))
      ∧ (∃ r, exec (.brev o) s = done r ∧ ∀ l j, r l j < 2 ^ e ∧ ∀ b, b < e → (r l j).testBit b = (x o.a l j).getLsbD (e - 1 - b)))
  ∧ (∀ (s t : State) (c : Ctx) (o : Alu), LaneReady s c o.g o.d o.fmt (o.vecSrcs o.fmt o.fmt o.fmt) t →
      let e := elemBits o.fmt
      let x (v : Src) (l j : Nat) : Nat := element o.fmt (c.vec o.fmt v l) j
      let p (v : Src) (l j : Nat) : Nat := x v l j % 256
      let k (v : Src) (l j : Nat) : Nat := min (x v l j / 256 % 256) (e - p v l j)
      let done (r : Nat → Nat → Nat) : Host.Outcome State Fault Refusal :=
        .next (t.vectorDone c o.g o.d o.fmt fun l => ofElements o.fmt fun j => r l j)
      (∃ r, exec (.bfx o) s = done r ∧ ∀ l j b, b < e → (r l j).testBit b =
        (if b < k o.b l j then (x o.a l j).testBit (p o.b l j + b)
         else !o.uns && decide (0 < k o.b l j) && (x o.a l j).testBit (p o.b l j + k o.b l j - 1)))
      ∧ (∃ r, exec (.bfi o) s = done r ∧ ∀ l j b, b < e → (r l j).testBit b =
        (if p o.c l j ≤ b ∧ b < p o.c l j + k o.c l j then (x o.b l j).testBit (b - p o.c l j) else (x o.a l j).testBit b)))

/-- icmp, isel, idot4 and icvt. icmp completes with a predicate whose bit in every acting lane is the condition of the two elements; isel
with source 0 where the predicate of source 2 holds and source 1 elsewhere; idot4 with c plus the four byte products, modulo 2^32; icvt
with element js reduced as its sat field says (wrapped, or limited to the signed or unsigned range of the destination), filling the lane
of a 32 or 64-bit format and replacing element jd of a narrower one, whose other elements keep the destination register's value, or read
zero without write-back. (spec/07 R185, spec/07 R188, spec/07 R193) -/
def Obligations.CompareSelectConvert : Prop :=
  (∀ (s t : State) (c : Ctx) (o : Alu) (k : Cond), LaneReady s c o.g o.d o.fmt [(.vec o.fmt, o.a), (.vec o.fmt, o.b)] t →
      let i (v : Src) (l : Nat) : Int := elemInt o.fmt o.uns (c.vec o.fmt v l) 0
      exec (.icmp k o) s = .next (t.predicateDone c o.g o.d (maskOf fun l => match k with
        | .eq => decide (i o.a l = i o.b l) | .ne => decide (i o.a l ≠ i o.b l) | .lt => decide (i o.a l < i o.b l)
        | .le => decide (i o.a l ≤ i o.b l) | .gt => decide (i o.a l > i o.b l) | .ge => decide (i o.a l ≥ i o.b l))))
    ∧ (∀ (s t : State) (c : Ctx) (o : Alu), LaneReady s c o.g o.d o.fmt [(.vec o.fmt, o.a), (.vec o.fmt, o.b), (.pred, o.c)] t →
      exec (.isel o) s = .next (t.vectorDone c o.g o.d o.fmt fun l =>
        bif (readPred c.w c.p o.c).getLsbD l then c.vec o.fmt o.a l else c.vec o.fmt o.b l))
    ∧ (∀ (s t : State) (c : Ctx) (o : Alu), LaneReady s c o.g o.d .i32 (o.vecSrcs .i32 .i32 .i32) t →
      let b (v : Src) (l k : Nat) : Int := elemInt .i8 o.uns (c.vec .i32 v l) k
      exec (.idot4 o) s = .next (t.vectorDone c o.g o.d .i32 fun l => (BitVec.ofInt 32 ((c.vec .i32 o.c l).toNat
        + b o.a l 0 * b o.b l 0 + b o.a l 1 * b o.b l 1 + b o.a l 2 * b o.b l 2 + b o.a l 3 * b o.b l 3)).zeroExtend 64))
    ∧ (∀ (s t : State) (c : Ctx) (o : Alu) (sat : ICvtSat) (sf : Fmt) (js jd : Nat),
      LaneReady s c o.g o.d o.fmt [(.vec sf, o.a), (.vec .i32, o.b), (.vec .i32, o.c)] t → jd < elemCount o.fmt →
      let e := elemBits o.fmt
      let limit (lo hi v : Int) : Int := if v < lo then lo else if hi < v then hi else v
      let x (l : Nat) : Int := elemInt sf o.uns (c.vec sf o.a l) js
      let y (l : Nat) : Int := match sat with
        | .wrap => x l
        | .signed => limit (-2 ^ (e - 1)) (2 ^ (e - 1) - 1) (x l)
        | .unsigned => limit 0 (2 ^ e - 1) (x l)
      let old (l : Nat) : Word := bif o.d.wb then atLane (c.w.vecValue o.fmt o.d.idx) l else 0
      ∃ r, exec (.icvt sat sf js jd o) s = .next (t.vectorDone c o.g o.d o.fmt r)
        ∧ ∀ l j, j < elemCount o.fmt → e < 128 → (o.fmt ≠ .e3m2 ∧ o.fmt ≠ .e2m3) →
          element o.fmt (r l) j = if j = jd then (y l % 2 ^ e).toNat else rawElement o.fmt (old l) j)

/-- vmovx reads and writes the register its lane's index names, and refuses an index outside the window. The read form gives each acting lane
l the value its lane of register base + step * idx_l holds; the write form stores source 0 there and in no other register or lane. Where
some present acting lane's effective index, or its pair's second register, does not lie below W, either form raises 0x15 subcode 0x01
with those lanes, and no lane is written. (spec/07 R189) -/
def Obligations.RegisterMoves : Prop :=
  ∀ (s t : State) (c : Ctx) (o : Alu), LaneReady s c o.g o.d o.fmt [(.vec o.fmt, o.a), (.vec .i32, o.b)] t →
    let step := spanOf o.fmt
    let idx (l : Nat) : Nat := (c.vec .i32 o.b l).toNat
    let inside (base : Nat) : Prop := ∀ l, l < 32 → (c.act o.g).getLsbD l = true → base + step * idx l + step ≤ c.w.width
    let bad (base : Nat) : LaneMask := maskOf fun l => (c.act o.g).getLsbD l && decide (c.w.width < base + step * idx l + step)
    (∀ base, o.a = .reg base → inside base →
      exec (.vmovx false o) s = .next (t.vectorDone c o.g o.d o.fmt fun l => atLane (c.w.vecValue o.fmt (base + step * idx l)) l))
    ∧ (inside o.d.idx → o.fmt ≠ .b128 → c.w.v.length = c.w.n →
      ∃ w pl, exec (.vmovx true o) s = .next (t.complete c w pl) ∧ w = { c.w with v := w.v }
        ∧ (∀ l, l < 32 → (c.act o.g).getLsbD l = true → ∀ h, h < step →
            laneOf (w.vreg (o.d.idx + step * idx l + h)) l = (c.vec o.fmt o.a l).extractLsb' (32 * h) 32)
        ∧ (∀ r l, r < c.w.n → l < 32 →
            ((c.act o.g).getLsbD l = true → r < o.d.idx + step * idx l ∨ o.d.idx + step * idx l + step ≤ r) →
            laneOf (w.vreg r) l = laneOf (c.w.vreg r) l))
    ∧ (∀ base write, (if write then base = o.d.idx else o.a = .reg base) → bad base &&& c.w.present ≠ 0 →
      ∃ data, exec (.vmovx write o) s = .next (s.takeTrap c.wid c.pidx ⟨0x15, 0x01, data, bad base⟩ (unitOf c.p c.pre)))

/-- Scalar arithmetic, logic, shifts, counts and compares compute the result the rules give where a lane acts. A sadd, ssub, smul, smulh or
smad of the issuing path whose operands pass their checks completes with the exact result on the low e bits of its sources (signed, or
unsigned for .u) modulo 2^e, a 32-bit result sign extended or, for .u, zero extended; smulh takes the high half. A sand, sor, sxor,
sandn, sshl, sshr, ssar, srot, smov, ssel, spopc, sclz, sctz or sbrev of the issuing path whose operands pass their checks completes with
that operation on the low e bits of its sources (shifts by source 1 modulo e), a 32-bit result sign extended or, for .u, zero extended.
scmp of the issuing path whose operands pass their checks completes with a predicate result that has the condition of its two sources in
every lane that acts; the other lanes keep their bits, and p0 is never written. (spec/07 R190, spec/07 R191, spec/07 R193) -/
def Obligations.ScalarResults : Prop :=
  (∀ (s : State) (c : Ctx) (o : Alu), ScalarReady s c o.g o.d o.scaSrcs →
      let e := scaBits o.fmt
      let i (v : Src) : Int := if o.uns then (BitVec.ofNat e (c.sca v).toNat).toNat else (BitVec.ofNat e (c.sca v).toNat).toInt
      let done (r : Int) : Host.Outcome State Fault Refusal :=
        .next (s.scalarDone c o.g o.d (if o.uns then (BitVec.ofInt e r).zeroExtend 64 else (BitVec.ofInt e r).signExtend 64))
      exec (.sadd o) s = done (i o.a + i o.b)
      ∧ exec (.ssub o) s = done (i o.a - i o.b)
      ∧ exec (.smul o) s = done (i o.a * i o.b)
      ∧ exec (.smulh o) s = done ((i o.a * i o.b).fdiv (2 ^ e))
      ∧ exec (.smad o) s = done (i o.a * i o.b + i o.c))
  ∧ (∀ (s : State) (c : Ctx) (o : Alu), ScalarReady s c o.g o.d o.scaSrcs →
      let e := scaBits o.fmt
      let x (v : Src) : BitVec e := BitVec.ofNat e (c.sca v).toNat
      let k : Nat := (x o.b).toNat % e
      let done (r : BitVec e) : Host.Outcome State Fault Refusal :=
        .next (s.scalarDone c o.g o.d (if o.uns then r.zeroExtend 64 else r.signExtend 64))
      exec (.sand o) s = done (x o.a &&& x o.b)
      ∧ exec (.sor o) s = done (x o.a ||| x o.b)
      ∧ exec (.sxor o) s = done (x o.a ^^^ x o.b)
      ∧ exec (.sandn o) s = done (x o.a &&& ~~~x o.b)
      ∧ exec (.sshl o) s = done (x o.a <<< k)
      ∧ exec (.sshr o) s = done (x o.a >>> k)
      ∧ exec (.ssar o) s = done ((x o.a).sshiftRight k)
      ∧ exec (.srot o) s = done ((x o.a).rotateLeft k)
      ∧ exec (.smov o) s = done (x o.a)
      ∧ exec (.ssel o) s = done (if x o.c = 0 then x o.b else x o.a)
      ∧ exec (.spopc o) s = done (BitVec.ofNat e ((List.range e).countP fun b => (x o.a).getLsbD b))
      ∧ (∃ n, exec (.sclz o) s = done (BitVec.ofNat e n) ∧ n ≤ e ∧ (∀ b, e - n ≤ b → b < e → (x o.a).getLsbD b = false)
          ∧ (n < e → (x o.a).getLsbD (e - 1 - n) = true))
      ∧ (∃ n, exec (.sctz o) s = done (BitVec.ofNat e n) ∧ n ≤ e ∧ (∀ b, b < n → (x o.a).getLsbD b = false)
          ∧ (n < e → (x o.a).getLsbD n = true))
      ∧ (∃ r : BitVec e, exec (.sbrev o) s = done r ∧ ∀ b, b < e → r.getLsbD b = (x o.a).getLsbD (e - 1 - b)))
  ∧ (∀ (s : State) (c : Ctx) (o : Alu) (k : Cond), ScalarReady s c o.g o.d [(.sca, o.a), (.sca, o.b)] →
      let i (v : Src) : Int := scaInt o.fmt o.uns (c.sca v)
      let v : Bool := match k with
        | .eq => decide (i o.a = i o.b) | .ne => decide (i o.a ≠ i o.b) | .lt => decide (i o.a < i o.b)
        | .le => decide (i o.a ≤ i o.b) | .gt => decide (i o.a > i o.b) | .ge => decide (i o.a ≥ i o.b)
      ∃ w pl, exec (.scmp k o) s = .next (s.complete c w pl) ∧ w = { c.w with p := w.p }
        ∧ w.preg 0 = c.w.preg 0
        ∧ (o.d.wb = true → 0 < o.d.idx → o.d.idx < c.w.p.length → ∀ l, l < 32 →
            (w.preg o.d.idx).getLsbD l = (if (c.act o.g).getLsbD l then v else (c.w.preg o.d.idx).getLsbD l))
        ∧ (∀ i, i ≠ o.d.idx → w.preg i = c.w.preg i)
        ∧ (o.d.wb = false → w = c.w)
        ∧ ∃ m : LaneMask, pl = .predicate m ∧ ∀ l, l < 32 → (c.act o.g).getLsbD l = true → m.getLsbD l = v)

/-- sdiv truncates toward zero, srem takes the dividend's sign, and division by zero is defined. sdiv and srem of the issuing path whose
operands pass their checks complete: the quotient is truncated toward zero and the remainder has the dividend's sign; division by zero
gives a quotient with every bit one and a remainder equal to the dividend; the most negative number by -1 gives itself and remainder 0;
neither traps. (R192) -/
def Obligations.ScalarDivision : Prop :=
  ∀ (s : State) (c : Ctx) (o : Alu), ScalarReady s c o.g o.d o.scaSrcs →
    let e := scaBits o.fmt
    let x (v : Src) : BitVec e := BitVec.ofNat e (c.sca v).toNat
    let done (r : BitVec e) : Host.Outcome State Fault Refusal :=
      .next (s.scalarDone c o.g o.d (if o.uns then r.zeroExtend 64 else r.signExtend 64))
    ∃ q r : BitVec e, exec (.sdiv o) s = done q ∧ exec (.srem o) s = done r
      ∧ (x o.b = 0 → q = BitVec.allOnes e ∧ r = x o.a)
      ∧ (x o.b ≠ 0 → o.uns = true → q.toNat = (x o.a).toNat / (x o.b).toNat ∧ r.toNat = (x o.a).toNat % (x o.b).toNat)
      ∧ (x o.b ≠ 0 → o.uns = false → x o.b ≠ BitVec.allOnes e →
          q.toInt = (x o.a).toInt.tdiv (x o.b).toInt ∧ r.toInt = (x o.a).toInt - q.toInt * (x o.b).toInt)
      ∧ (o.uns = false → x o.b = BitVec.allOnes e → q = -x o.a ∧ r = 0)

/-- rdsys reads every assigned system register; wrsys writes the six stack registers where they may be written. rdsys completes with the
register the number names: the trap, launch, block, warp and allocation values of the issuing warp, its block, launch and partition.
wrsys completes with the register written where its destination is one of the six stack registers, its value a multiple of 16 not above
2^47 and its area unused; it raises 0x11 subcode 0x09 for another destination, 0x10 subcode 0x0B with the value as cause data for a value
outside that, and 0x11 subcode 0x0A for an area in use. (spec/07 R194, spec/07 R195, spec/07 R196) -/
def Obligations.SystemRegisters : Prop :=
  (∀ (s : State) (c : Ctx) (g : Guard) (d : Dst), Issues s c →
      let read (n : Nat) (v : Word) : Prop := exec (.rdsys g d n) s = .next (s.scalarDone c g d v)
      (∀ pt, s.parts.get? c.env.part = some pt →
        read 0x00 (BitVec.ofNat 64 pt.tframe) ∧ read 0x01 (BitVec.ofNat 64 pt.vtab)
        ∧ read 0x08 (BitVec.ofNat 64 (pt.argArea + 4096 * (64 * (queueOfLaunch c.lid) + c.lid % 64))))
      ∧ read 0x02 c.w.cause ∧ read 0x03 c.w.cdata ∧ read 0x04 c.w.lmask
      ∧ read 0x09 (BitVec.ofNat 64 c.la.argSize) ∧ read 0x0A (BitVec.ofNat 64 (c.la.born * 2 ^ 54 + c.lid % 2 ^ 54)) ∧ read 0x0B c.la.modes
      ∧ read 0x0C (BitVec.ofNat 64 c.blk.linear) ∧ read 0x0E (c.la.word 4) ∧ read 0x0F (c.la.word 5)
      ∧ read 0x10 (BitVec.ofNat 64 (c.la.blockWarps * 2 ^ 8 + c.w.index))
      ∧ read 0x11 (BitVec.ofNat 64 (c.blk.cluster * 2 ^ 8 + c.blk.rank)) ∧ read 0x14 (BitVec.ofNat 64 c.blk.sramLen)
      ∧ (∀ x y z, x < c.la.gx → y < c.la.gy → c.blk.linear = x + c.la.gx * (y + c.la.gy * z) →
        read 0x0D (BitVec.ofNat 64 (z * 2 ^ 48 + y * 2 ^ 32 + x)))
      ∧ (c.blk.sramLen = 0 → read 0x12 0 ∧ read 0x13 0)
      ∧ (0 < c.blk.sramLen → read 0x12 (BitVec.ofNat 64 (0x7E0000000000 + 128 * c.blk.sramBase))
        ∧ read 0x13 (BitVec.ofNat 64 (0x7F0000000000 + c.blk.home * 2 ^ 21 + 128 * c.blk.sramBase)))
      ∧ read 0x18 c.w.spill ∧ read 0x19 c.w.spilllim ∧ read 0x1A c.w.jstk ∧ read 0x1B c.w.jstklim
      ∧ read 0x1C c.w.rstk ∧ read 0x1D c.w.rstklim ∧ read 0x1E (BitVec.ofNat 64 (c.w.rets.length + c.w.rspilled))
      ∧ read 0x20 (BitVec.ofNat 64 (min 32 c.w.n * 2 ^ 16 + c.w.n)) ∧ read 0x21 (BitVec.ofNat 64 c.w.wbase)
      ∧ read 0x22 (BitVec.ofNat 64 c.w.sfloor) ∧ read 0x24 c.w.srcnt)
    ∧ (∀ (s : State) (c : Ctx) (g : Guard) (d : Dst) (a : Src), ScalarReady s c g d [(.sca, a)] → c.once g = true →
      let x := c.sca a
      let trap (cause sub : Nat) (data : Word) : Host.Outcome State Fault Refusal :=
        .next (s.takeTrap c.wid c.pidx ⟨cause, sub, data, c.real g⟩ (unitOf c.p c.pre))
      if d.wb = false ∨ d.idx < 0x18 ∨ 0x1D < d.idx then exec (.wrsys g d a) s = trap 0x11 0x09 0
      else if x.toNat % 16 ≠ 0 ∨ 2 ^ 47 < x.toNat then exec (.wrsys g d a) s = trap 0x10 0x0B x
      else if c.w.areaInUse d.idx = true then exec (.wrsys g d a) s = trap 0x11 0x0A 0
      else ∃ w, exec (.wrsys g d a) s = .next (s.complete c w .system)
        ∧ w = { c.w with spill := w.spill, spilllim := w.spilllim, jstk := w.jstk, jstklim := w.jstklim, rstk := w.rstk, rstklim := w.rstklim }
        ∧ w.spill = (if d.idx = 0x18 then x else c.w.spill) ∧ w.spilllim = (if d.idx = 0x19 then x else c.w.spilllim)
        ∧ w.jstk = (if d.idx = 0x1A then x else c.w.jstk) ∧ w.jstklim = (if d.idx = 0x1B then x else c.w.jstklim)
        ∧ w.rstk = (if d.idx = 0x1C then x else c.w.rstk) ∧ w.rstklim = (if d.idx = 0x1D then x else c.w.rstklim))
    ∧ (∀ (s : State) (c : Ctx) (g : Guard) (d : Dst) (a : Src), ScalarReady s c g d [(.sca, a)] → c.once g = false →
      exec (.wrsys g d a) s = .next (s.complete c c.w .system))

/-- Address registers are written with the checks of aset, aadv and atrn, and read by aget. For an aset, aadv or aunbind of the issuing path
that acts and whose operands pass their checks: aset replaces the field it names (rgn sets base, pointer and limit), raises 0x11 subcode
0x08 on a stream register but for perm, and 0x10 subcode 0x08 where base <= pointer <= limit would break or x + y leaves 64 bits; aadv
adds its source exactly, with the same two traps; aunbind clears the stream. Each otherwise completes with that address result, its
cached run copied. aget of the issuing path completes with the field its selector names, the stream word and the cached run's ends being
zero where there is none. atrn that acts completes with the address register's cached run set to the resident page of its pointer, or
cleared where no page is resident or the pointer is an SRAM address; the rest of the register stays. (spec/07 R200, spec/07 R201, spec/07
R205, spec/07 R202, spec/07 R203) -/
def Obligations.AddressRegisters : Prop :=
  (∀ (s : State) (c : Ctx) (o : AddrOp), ScalarReady s c o.g o.d [(.sca, o.x), (.sca, o.y)] → c.once o.g = true →
      let a := c.w.areg o.a
      let x := c.sca o.x
      let y := c.sca o.y
      let done (i : Instr) (r : AReg) : Prop := exec i s = .next (s.addressDone c o.d (some r))
      let trap (i : Instr) (cause : Nat) (data : Word) : Prop :=
        exec i s = .next (s.takeTrap c.wid c.pidx ⟨cause, 0x08, data, c.real o.g⟩ (unitOf c.p c.pre))
      let kept (i : Instr) (p b l : Word) (r : AReg) : Prop := if b ≤ p ∧ p ≤ l then done i r else trap i 0x10 x
      done (.aset .perm o) { a with perm := x.extractLsb' 0 4 }
      ∧ done (.aunbind o) { a with stream := none }
      ∧ (a.stream ≠ none → ∀ f, f ≠ .perm → trap (.aset f o) 0x11 0)
      ∧ (a.stream ≠ none → trap (.aadv o) 0x11 0)
      ∧ (a.stream = none →
          kept (.aset .ptr o) x a.base a.limit { a with pointer := x }
          ∧ kept (.aset .base o) a.pointer x a.limit { a with base := x }
          ∧ kept (.aset .lim o) a.pointer a.base x { a with limit := x }
          ∧ (x.toNat + y.toNat < 2 ^ 64 → done (.aset .rgn o) { a with pointer := x, base := x, limit := x + y })
          ∧ (2 ^ 64 ≤ x.toNat + y.toNat → trap (.aset .rgn o) 0x10 x)
          ∧ (∀ p : Int, p = a.pointer.toNat + x.toInt →
              if (a.base.toNat : Int) ≤ p ∧ p ≤ a.limit.toNat then
                done (.aadv o) { a with pointer := a.pointer + x }
              else trap (.aadv o) 0x10 (BitVec.ofInt 64 p))))
  ∧ (∀ (s : State) (c : Ctx) (o : AddrOp), Issues s c →
      let a := c.w.areg o.a
      let read (f : AGetSel) (v : Word) : Prop := exec (.aget f o) s = .next (s.scalarDone c o.g o.d v)
      (read .ptr a.pointer ∧ read .base a.base ∧ read .lim a.limit
        ∧ read .perm (a.perm.zeroExtend 64 ||| (if a.stream = none then 0 else 16))
        ∧ (a.run = none → read .runlo 0 ∧ read .runhi 0)
        ∧ (∀ r, a.run = some r → read .runlo (BitVec.ofNat 64 r.lo) ∧ read .runhi (BitVec.ofNat 64 r.hi))
        ∧ (a.stream = none → read .strm 0 ∧ read .org 0)
        ∧ (∀ t, a.stream = some t → 1 ≤ t.dims → t.dims ≤ 4 → t.log2 < 8 → read .org t.origin
            ∧ read .strm (BitVec.ofNat 64 (t.log2 * 2 ^ 7 + (t.dims - 1) * 2 ^ 5 + t.done.toNat * 2 ^ 4 + t.e.toNat))))
      ∧ (c.once o.g = true → exec (.atrn o) s = .next (s.complete c (c.w.setAreg o.a
          { a with run := if windowOf a.pointer.toNat = .unified then s.runAt c.env.part a.pointer.toNat else none }) .none))
      ∧ (c.once o.g = false → exec (.atrn o) s = .next (s.skip c)))

/-- Binding a stream, releasing it, and the walk its register takes at each advance. An abind of the issuing path that acts raises 0x11
subcode 0x0B on a source register without rd. Otherwise, with the eight scalars from k as the descriptor: where every used dimension has
a count of at least one and a stride that is a multiple of the element size, every unused one is zero, the pointer is a multiple of the
element size and the reserved bits are zero, it completes with the source register bound to that stream at its start, its other fields
kept; otherwise it raises 0x10 subcode 0x0A. For a bound stream whose counters stand below their counts: where some used dimension is not
at its last position, the advance adds one to the first such dimension d, zeroes the ones below it, sets exactly the flags of those below
d and is not done; where every used dimension is at its last, all counters used are zero again, all four flags are set and the stream is
done. The pointer is then the origin plus the sum of counter times stride. (This is the advance alone: the read that consumes the
position is in Loads.) (spec/07 R204, spec/07 R205, spec/07 R206) -/
def Obligations.StreamRegisters : Prop :=
  (∀ (s : State) (c : Ctx) (o : AddrOp) (k : Nat), Issues s c → c.once o.g = true → o.x = .reg k →
      let a := c.w.areg o.a
      let d (i : Nat) : Word := c.w.sreg (k + i)
      let size : Nat := 2 ^ ((d 0).toNat % 8)
      let dims : Nat := (d 0).toNat / 16 % 4 + 1
      let n : List Nat := [(d 1).toNat % 2 ^ 32, (d 1).toNat / 2 ^ 32, (d 2).toNat % 2 ^ 32, (d 2).toNat / 2 ^ 32]
      let t : List Int := [(d 3).toInt, (d 4).toInt, (d 5).toInt, (d 6).toInt]
      let accepted : Prop := (d 0).toNat % 8 ≤ 4 ∧ (d 0).getLsbD 3 = false ∧ (d 0).toNat < 64 ∧ d 7 = 0
        ∧ (∀ i, i < dims → 1 ≤ nth n i 0 ∧ nth t i 0 % size = 0) ∧ (∀ i, dims ≤ i → i < 4 → nth n i 0 = 0 ∧ nth t i 0 = 0)
        ∧ a.pointer.toNat % size = 0
      let bound : Stream := { origin := a.pointer, dims := dims, log2 := (d 0).toNat % 8, n := n, t := t, i := [0, 0, 0, 0], e := 0, done := false }
      let trap (cause sub : Nat) (data : Word) : Prop :=
        exec (.abind o) s = .next (s.takeTrap c.wid c.pidx ⟨cause, sub, data, c.real o.g⟩ (unitOf c.p c.pre))
      (a.perm.getLsbD 0 = false → trap 0x11 0x0B 0)
      ∧ (a.perm.getLsbD 0 = true → ¬accepted → trap 0x10 0x0A (d 0))
      ∧ (a.perm.getLsbD 0 = true → accepted → exec (.abind o) s = .next (s.addressDone c o.d (some { a with stream := some bound }))))
  ∧ (∀ (a : AReg) (t : Stream), a.stream = some t → t.dims ≤ 4 → t.i.length = 4 → (∀ d, d < t.dims → nth t.i d 0 < nth t.n d 0) →
      ∃ u, a.advanced = { a with stream := some u, pointer := u.position }
        ∧ u = { t with i := u.i, e := u.e, done := u.done }
        ∧ u.position = t.origin + BitVec.ofInt 64 (((List.range t.dims).map fun d => ((nth u.i d 0 : Nat) : Int) * nth t.t d 0).sum)
        ∧ (∀ d, d < t.dims → nth t.i d 0 + 1 < nth t.n d 0 → (∀ k, k < d → nth t.i k 0 + 1 = nth t.n k 0) →
            u.done = t.done ∧ (∀ k, k < 4 → u.e.getLsbD k = decide (k < d)) ∧ (∀ k, k < d → nth u.i k 0 = 0)
            ∧ nth u.i d 0 = nth t.i d 0 + 1 ∧ (∀ k, d < k → nth u.i k 0 = nth t.i k 0))
        ∧ ((∀ d, d < t.dims → nth t.i d 0 + 1 = nth t.n d 0) →
            u.done = true ∧ u.e = 0b1111 ∧ (∀ k, k < t.dims → nth u.i k 0 = 0) ∧ (∀ k, t.dims ≤ k → nth u.i k 0 = nth t.i k 0)))

/-- Floating-point arithmetic rounds the exact result of each element once; the exact results are those of real arithmetic. A fadd, fsub,
fmul, ffma, fsqrt, fdiv, fexp2, flog2, fscale or fdot2 of the issuing path whose operands pass their checks completes with, in each
element of every acting lane, the exact real result of the operation on the values of the source elements (a subnormal read as zero under
flush) rounded once under the instruction's mode with the random bits of its lane and element, and every acting lane's flags gain the OR
of those of its elements; a stochastic rounding counts once. On finite operands the result handed to the one rounding is, as a rational
number, exactly a + b, a - b, a * b, a * b + c, a / b for b not zero, a0 * b0 + a1 * b1 + c, and a * 2^k for k within -5000 to 5000, with
no flag; that of the square root of a positive operand squares to it. A sum of two zeros of opposite signs is +0, or -0 under rd. The
special operands of R233 give the result and flag it lists: opposite infinities, zero times infinity, 0 / 0, infinity / infinity,
division by zero, a root or logarithm below zero, the logarithm of zero. (spec/09 R231, spec/09 R232, spec/09 R242, spec/08 R222, spec/08
R224, spec/09 R233, spec/08 R219) -/
def Obligations.FloatResults : Prop :=
  ((∀ (s u t : State) (c : Ctx) (o : Alu) (m : RMode) (n : Nat), RoundReady s c o.g o.d o.fmt (o.vecSrcs o.fmt o.fmt o.fmt) m u n t →
        let f := fspec o.fmt
        let v (x : Src) (l j : Nat) : FVal := f.input c.la.flush (element o.fmt (c.vec o.fmt x l) j)
        let done (i : Instr) (x : Nat → Nat → Real' × BitVec 5) : Prop :=
          let y (l j : Nat) : Nat × BitVec 5 := f.round ⟨m, srBits (c.la.word 10) (c.la.word 11) c.blk.linear c.w.index c.p.pc n l j, false, c.la.flush⟩ (x l j).1
          exec i s = .next (t.floatDone c o.g o.d o.fmt m (fun l => ofElements o.fmt fun j => (y l j).1)
            fun l => (List.range (elemCount o.fmt)).foldl (fun fl j => fl ||| ((y l j).2 ||| (x l j).2)) 0)
        done (.fadd m o) (fun l j => realAdd m (v o.a l j) (v o.b l j))
        ∧ done (.fsub m o) (fun l j => realSub m (v o.a l j) (v o.b l j))
        ∧ done (.fmul m o) (fun l j => realMul (v o.a l j) (v o.b l j))
        ∧ done (.ffma m o) (fun l j => realFma m (v o.a l j) (v o.b l j) (v o.c l j))
        ∧ done (.fsqrt m o) (fun l j => realSqrt (v o.a l j))
        ∧ done (.fdiv m o) (fun l j => realDiv (v o.a l j) (v o.b l j))
        ∧ done (.fexp2 m o) (fun l j => realExp2 (v o.a l j))
        ∧ done (.flog2 m o) (fun l j => realLog2 (v o.a l j)))
      ∧ (∀ (s u t : State) (c : Ctx) (o : Alu) (m : RMode) (n : Nat), RoundReady s c o.g o.d o.fmt (o.vecSrcs o.fmt (scaleFmt o.fmt) .i32) m u n t →
        let f := fspec o.fmt
        let v (l j : Nat) : FVal := f.input c.la.flush (element o.fmt (c.vec o.fmt o.a l) j)
        let x (l j : Nat) : Real' × BitVec 5 := realScale (v l j) (elemInt (scaleFmt o.fmt) false (c.vec (scaleFmt o.fmt) o.b l) j)
        let y (l j : Nat) : Nat × BitVec 5 := f.round ⟨m, srBits (c.la.word 10) (c.la.word 11) c.blk.linear c.w.index c.p.pc n l j, false, c.la.flush⟩ (x l j).1
        exec (.fscale m o) s = .next (t.floatDone c o.g o.d o.fmt m (fun l => ofElements o.fmt fun j => (y l j).1)
          fun l => (List.range (elemCount o.fmt)).foldl (fun fl j => fl ||| ((y l j).2 ||| ((x l j).2 ||| snanFlag [v l j]))) 0))
      ∧ (∀ (s u t : State) (c : Ctx) (o : Alu) (m : RMode) (k : Cv) (n : Nat), RoundReady s c o.g o.d .f32 (o.vecSrcs k.sf k.sf .f32) m u n t →
        let e (x : Src) (l j : Nat) : FVal := (fspec k.sf).input c.la.flush (element k.sf (c.vec k.sf x l) j)
        let x (l : Nat) : Real' × BitVec 5 := realDot2 m (e o.a l 0) (e o.b l 0) (e o.a l 1) (e o.b l 1)
          ((fspec .f32).input c.la.flush (element .f32 (c.vec .f32 o.c l) 0))
        let y (l : Nat) : Nat × BitVec 5 := (fspec .f32).round ⟨m, srBits (c.la.word 10) (c.la.word 11) c.blk.linear c.w.index c.p.pc n l 0, false, c.la.flush⟩ (x l).1
        exec (.fdot2 m k o) s = .next (t.floatDone c o.g o.d .f32 m (fun l => BitVec.ofNat 64 (y l).1) fun l => (y l).2 ||| (x l).2)))
  ∧ (let value (neg : Bool) (x : ℚ) : ℚ := if neg then -x else x
    let val (x : FVal) : ℚ := match x with | .fin neg m e => value neg (m * (2 : ℚ) ^ e) | _ => 0
    let real (x : Real') : Option ℚ := match x with
      | .zero _ => some 0
      | .val neg (.rat n d e) => some (value neg (n / d * (2 : ℚ) ^ e))
      | _ => none
    let finite (x : FVal) : Prop := x.isNan = false ∧ x.isInf = false
    (∀ (m : RMode) (a b c d g : FVal), finite a → finite b → finite c → finite d → finite g →
        real (realAdd m a b).1 = some (val a + val b) ∧ (realAdd m a b).2 = 0
        ∧ real (realSub m a b).1 = some (val a - val b) ∧ (realSub m a b).2 = 0
        ∧ real (realMul a b).1 = some (val a * val b) ∧ (realMul a b).2 = 0
        ∧ real (realFma m a b c).1 = some (val a * val b + val c) ∧ (realFma m a b c).2 = 0
        ∧ real (realDot2 m a b c d g).1 = some (val a * val b + val c * val d + val g) ∧ (realDot2 m a b c d g).2 = 0
        ∧ (b.isZero = false → real (realDiv a b).1 = some (val a / val b) ∧ (realDiv a b).2 = 0)
        ∧ (∀ k : Int, -5000 ≤ k → k ≤ 5000 → real (realScale a k).1 = some (val a * (2 : ℚ) ^ k) ∧ (realScale a k).2 = 0)
        ∧ (0 < val a → ∃ (n : Nat) (e : Int), realSqrt a = (.val false (.sqrt n e), 0) ∧ (n : ℚ) * (2 : ℚ) ^ e = val a))
      ∧ (∀ (m : RMode) (n : Bool) (b c : FVal) (k e : Nat) (q r : Int),
        realAdd m (.fin n 0 q) (.fin (!n) 0 r) = (.zero (decide (m = .rd)), 0)
        ∧ realAdd m (.inf n) (.inf !n) = (.nan, fNv) ∧ realSub m (.inf n) (.inf n) = (.nan, fNv)
        ∧ (b.isZero = true → realMul (.inf n) b = (.nan, fNv) ∧ realMul b (.inf n) = (.nan, fNv)
            ∧ (c.isSnan = false → realFma m (.inf n) b c = (.nan, fNv) ∧ realFma m b (.inf n) c = (.nan, fNv)))
        ∧ realDiv (.inf n) (.inf b.neg) = (.nan, fNv) ∧ realDiv (.fin n 0 q) (.fin b.neg 0 r) = (.nan, fNv)
        ∧ (0 < k → realDiv (.fin n k q) (.fin b.neg 0 r) = (.inf (n != b.neg), fDz)
            ∧ realSqrt (.fin true k q) = (.nan, fNv) ∧ realLog2 (.fin true k q) = (.nan, fNv))
        ∧ realSqrt (.fin true 0 q) = (.zero true, 0) ∧ realSqrt (.inf true) = (.nan, fNv) ∧ realSqrt (.inf false) = (.inf false, 0)
        ∧ realExp2 (.inf true) = (.zero false, 0) ∧ realExp2 (.inf false) = (.inf false, 0)
        ∧ realLog2 (.fin n 0 q) = (.inf true, fDz) ∧ realLog2 (.inf true) = (.nan, fNv) ∧ realLog2 (.inf false) = (.inf false, 0)
        ∧ realLog2 (.fin false (2 ^ e) (-e)) = (.zero false, 0)
        ∧ realScale (.fin n 0 q) r = (.zero n, 0) ∧ realScale (.inf n) r = (.inf n, 0)))

/-- Rounding to nearest gives a value of the format that no other value of it is nearer than, and is inexact exactly when it differs. For
every rational magnitude and every floating-point format, rounding to nearest even gives a code of the argument's sign. Where that code
is finite, no finite value of the format lies nearer the exact result, and the inexact flag is clear exactly when the value given is the
exact result. (spec/08 R219, spec/08 R220, spec/08 R221) -/
def Obligations.RoundingIsNearest : Prop :=
  ∀ (fmt : Fmt) (neg : Bool) (n d : Nat) (e : Int), isFloat fmt = true → 0 < n → 0 < d →
    let f := fspec fmt
    let value (x : FVal) : ℚ := match x with | .fin _ m q => m * (2 : ℚ) ^ q | _ => 0
    let x : ℚ := n / d * (2 : ℚ) ^ e
    let r := f.round rneOf (.val neg (.rat n d e))
    r.1 / 2 ^ f.magBits = neg.toNat
    ∧ (∀ m q, f.decode r.1 = .fin neg m q →
        (∀ code m' q', f.decode code = .fin neg m' q' → |x - value (f.decode r.1)| ≤ |x - value (.fin neg m' q')|)
        ∧ (r.2.getLsbD 0 = false ↔ value (f.decode r.1) = x))

/-- Float compares, classes, sign operations and estimates give the lanes their results and flags. fmin and fmax complete with the smaller or
larger operand, the other operand where one is NaN; fcmp with the condition's bit in every acting lane, an ordered condition false and
invalid on a NaN; fabs, fneg and fcsgn with the magnitude of source 0 under the sign they name, a NaN giving the canonical NaN; fclass
with the class mask of each element; fclass.fl with the lane's five flags, clearing those its mask names. frcp and frsq of the issuing
path complete with the estimate of each lane. For a finite nonzero x = m * 2^q with e the exponent of its leading one and i the seven
bits below it, frcp rounds (2^16 + T) * 2^(-e-17) of x's sign with T = floor(2^25 / (257 + 2i) + 1/2) - 2^16, and frsq of a positive x
(2^16 + T) * 2^(-(e-p)/2-17) with p = e mod 2 and 2^16 + T the integer nearest the square root of 2^(42-p) / (257 + 2i); zeros,
infinities, NaNs and negative operands give the listed results and flags. (spec/09 R234, spec/09 R235, spec/09 R236, spec/09 R237,
spec/09 R238) -/
def Obligations.FloatCompareSignAndEstimates : Prop :=
  ((∀ (s u t : State) (c : Ctx) (o : Alu) (n : Nat), RoundReady s c o.g o.d o.fmt (o.vecSrcs o.fmt o.fmt o.fmt) .rne u n t →
        let f := fspec o.fmt
        let x (v : Src) (l j : Nat) : Nat := element o.fmt (c.vec o.fmt v l) j
        let v (y : Src) (l j : Nat) : FVal := f.input c.la.flush (x y l j)
        let done (i : Instr) (r : Nat → Nat → Nat × BitVec 5) : Prop :=
          exec i s = .next (t.floatDone c o.g o.d o.fmt .rne (fun l => ofElements o.fmt fun j => (r l j).1)
            fun l => (List.range (elemCount o.fmt)).foldl (fun fl j => fl ||| (r l j).2) 0)
        let snan (l j : Nat) : BitVec 5 := if (v o.a l j).isSnan ∨ (v o.b l j).isSnan then fNv else 0
        let other (l j : Nat) (k : FVal) : Nat := if (v o.a l j).isNan ∧ (v o.b l j).isNan then f.nanCode else f.code k
        let signed (l j : Nat) (neg : Bool) : Nat × BitVec 5 :=
          if (v o.a l j).isNan then (f.nanCode, if (v o.a l j).isSnan then fNv else 0)
          else (f.signed neg (if (v o.a l j).isZero then 0 else x o.a l j % 2 ^ f.magBits), 0)
        let sign (y : Src) (l j : Nat) : Bool := (x y l j).testBit f.magBits
        done (.fmin o) (fun l j => (other l j (if (v o.a l j).isNan then v o.b l j else if (v o.b l j).isNan then v o.a l j
          else if (v o.a l j).lessEq (v o.b l j) then v o.a l j else v o.b l j), snan l j))
        ∧ done (.fmax o) (fun l j => (other l j (if (v o.a l j).isNan then v o.b l j else if (v o.b l j).isNan then v o.a l j
          else if (v o.a l j).lessEq (v o.b l j) then v o.b l j else v o.a l j), snan l j))
        ∧ done (.fabs o) (fun l j => signed l j false)
        ∧ done (.fneg o) (fun l j => signed l j (!sign o.a l j))
        ∧ done (.fcsgn o) (fun l j => signed l j (sign o.b l j)))
      ∧ (∀ (s t : State) (c : Ctx) (o : Alu) (k : FCond), LaneReady s c o.g o.d o.fmt [(.vec o.fmt, o.a), (.vec o.fmt, o.b)] t →
        let v (y : Src) (l : Nat) : FVal := (fspec o.fmt).input c.la.flush (element o.fmt (c.vec o.fmt y l) 0)
        let un (l : Nat) : Bool := (v o.a l).isNan || (v o.b l).isNan
        let zeros (l : Nat) : Bool := (v o.a l).isZero && (v o.b l).isZero
        let le (l : Nat) : Bool := (v o.a l).lessEq (v o.b l) || zeros l
        let ge (l : Nat) : Bool := (v o.b l).lessEq (v o.a l) || zeros l
        let holds (l : Nat) : Bool := match k with
          | .eq => !un l && le l && ge l | .ne => !(!un l && le l && ge l) | .lt => !un l && le l && !ge l | .le => !un l && le l
          | .gt => !un l && ge l && !le l | .ge => !un l && ge l | .un => un l
        let quiet : Bool := match k with | .eq => true | .ne => true | .un => true | _ => false
        let flags (l : Nat) : BitVec 5 :=
          if (v o.a l).isSnan ∨ (v o.b l).isSnan ∨ (un l = true ∧ quiet = false) then fNv else 0
        exec (.fcmp k o) s = .next (t.complete c
          ((predicateResult c.w o.d (c.act o.g) (maskOf holds)).1.orFlags (c.act o.g) flags) (predicateResult c.w o.d (c.act o.g) (maskOf holds)).2))
      ∧ (∀ (a b : FVal), a.isNan = false → b.isNan = false →
        let val (x : FVal) : ℚ := match x with | .fin neg m e => (if neg then -1 else 1) * (m * (2 : ℚ) ^ e) | _ => 0
        (a.isInf = false → b.isInf = false → (a.lessEq b = true ↔ val a < val b ∨ (val a = val b ∧ (a.isZero = true → a.neg = true ∨ b.neg = false))))
        ∧ (a = .inf true ∨ b = .inf false → a.lessEq b = true) ∧ (a = .inf false → b ≠ .inf false → a.lessEq b = false)
        ∧ (b = .inf true → a ≠ .inf true → a.lessEq b = false))
      ∧ (∀ (s u t : State) (c : Ctx) (o : Alu) (n : Nat), RoundReady s c o.g o.d (classFmt o.fmt) (o.vecSrcs o.fmt .i32 .i32) .rne u n t →
        ∃ r : Nat → Nat → Nat, exec (.fclass o) s = .next (t.floatDone c o.g o.d (classFmt o.fmt) .rne (fun l => ofElements (classFmt o.fmt) (r l)) fun _ => 0)
          ∧ ∀ l j, r l j = (match (fspec o.fmt).input c.la.flush (element o.fmt (c.vec o.fmt o.a l) j) with
            | .nan true => 256 | .nan false => 512 | .inf true => 1 | .inf false => 128 | .fin true 0 _ => 8 | .fin false 0 _ => 16
            | .fin neg _ _ => if (fspec o.fmt).subnormal (element o.fmt (c.vec o.fmt o.a l) j) then (if neg then 4 else 32) else if neg then 2 else 64))
      ∧ (∀ (s t : State) (c : Ctx) (o : Alu), LaneReady s c o.g o.d .i32 [(.vec .i32, o.a)] t →
        let r := vectorResult c.w o.d .i32 (c.act o.g) fun l => if c.w.present.getLsbD l then (c.w.flag l).zeroExtend 64 else 0
        ∃ w, exec (.fclassFl o) s = .next (t.complete c w r.2) ∧ w = { r.1 with flags := w.flags }
          ∧ ∀ l, l < 32 → w.flag l = if (c.act o.g).getLsbD l then c.w.flag l &&& ~~~(c.vec .i32 o.a l).extractLsb' 0 5 else c.w.flag l))
  ∧ ((∀ (s u t : State) (c : Ctx) (o : Alu) (n : Nat), RoundReady s c o.g o.d o.fmt (o.vecSrcs o.fmt o.fmt o.fmt) .rne u n t →
        let f := fspec o.fmt
        let v (l j : Nat) : FVal := f.input c.la.flush (element o.fmt (c.vec o.fmt o.a l) j)
        let done (i : Instr) (r : Nat → Nat → Nat × BitVec 5) : Prop :=
          exec i s = .next (t.floatDone c o.g o.d o.fmt .rne (fun l => ofElements o.fmt fun j => (r l j).1)
            fun l => (List.range (elemCount o.fmt)).foldl (fun fl j => fl ||| (r l j).2) 0)
        done (.frcp o) (fun l j => rcpOf f c.la.flush (v l j)) ∧ done (.frsq o) (fun l j => rsqOf f (v l j)))
      ∧ (∀ (f : FSpec) (flush neg : Bool) (m : Nat) (q : Int), 0 < m →
        let e : Int := q + Nat.log2 m
        let i : Nat := m * 128 / 2 ^ Nat.log2 m % 128
        rcpOf f flush (.fin neg m q) = f.round ⟨.rne, 0, false, flush⟩ (.val neg (.rat ((2 * 2 ^ 25 + (257 + 2 * i)) / (2 * (257 + 2 * i))) 1 (-e - 17)))
        ∧ (neg = false → ∃ k : Nat, rsqOf f (.fin neg m q) = f.round rneOf (.val false (.rat k 1 (-(e - e % 2) / 2 - 17)))
            ∧ (2 * k - 1) ^ 2 * (257 + 2 * i) ≤ 4 * 2 ^ (42 - (e % 2).toNat) ∧ 4 * 2 ^ (42 - (e % 2).toNat) < (2 * k + 1) ^ 2 * (257 + 2 * i))
        ∧ (neg = true → rsqOf f (.fin neg m q) = (f.nanCode, fNv)))
      ∧ (∀ (f : FSpec) (flush neg sig : Bool) (q : Int) (inf : Nat), f.inf = some inf →
        rcpOf f flush (.fin neg 0 q) = (f.signed neg inf, fDz) ∧ rcpOf f flush (.inf neg) = (f.signed neg 0, 0)
        ∧ rcpOf f flush (.nan sig) = (f.nanCode, if sig then fNv else 0)
        ∧ rsqOf f (.fin neg 0 q) = (f.signed neg inf, fDz) ∧ rsqOf f (.inf false) = (0, 0) ∧ rsqOf f (.inf true) = (f.nanCode, fNv)
        ∧ rsqOf f (.nan sig) = (f.nanCode, if sig then fNv else 0)))

/-- Conversions round one element and place it. A cvt, cvtf, cvti, frint or cvtbs of the issuing path whose operands pass their checks
completes with element js of source 0 converted: cvt rounds its value once to the destination (clamped with sat), cvtf rounds the
integer, cvti rounds to an integer and limits it to the range, frint rounds to an integral value, cvtbs scales by 2^(127 - scale) into an
OCP format and by 2^(scale - 127) out of one, a scale of 255 giving NaN. The result fills its lane or replaces element jd, whose other
elements keep the destination register's value, or zero without write-back; the lane's flags gain the conversion's. (spec/09 R239,
spec/09 R240, spec/09 R241, spec/08 R223) -/
def Obligations.Conversions : Prop :=
  ∀ (s u t : State) (c : Ctx) (o : Alu) (m : RMode) (v : Cv) (n : Nat), RoundReady s c o.g o.d o.fmt (o.vecSrcs v.sf .i32 .i32) m u n t →
    let x (l : Nat) : Nat := element v.sf (c.vec v.sf o.a l) v.js
    let random (l : Nat) : Nat := srBits (c.la.word 10) (c.la.word 11) c.blk.linear c.w.index c.p.pc n l v.jd
    let old (l : Nat) : Word := if o.d.wb then atLane (c.w.vecValue o.fmt o.d.idx) l else 0
    let placed (l k : Nat) : Word := if elemCount o.fmt = 1 then BitVec.ofNat 64 k
      else ofElements o.fmt fun j => if j = v.jd then k else rawElement o.fmt (old l) j
    let done (i : Instr) (r : Nat → Nat × BitVec 5) : Prop :=
      exec i s = .next (t.floatDone c o.g o.d o.fmt m (fun l => placed l (r l).1) fun l => (r l).2)
    let snan (l : Nat) : BitVec 5 := if ((fspec v.sf).decode (x l)).isSnan then fNv else 0
    let scale (l : Nat) : Nat := (c.vec .i32 o.b l).toNat % 256
    done (.cvt m v o) (fun l =>
        let y := (fspec o.fmt).round ⟨m, random l, v.sat, false⟩ ((fspec v.sf).decode (x l)).real
        (y.1, y.2 ||| snan l))
    ∧ done (.cvtf m v o) (fun l => (fspec o.fmt).round ⟨m, random l, false, false⟩
        (realOfInt (if o.uns then (x l : Int) else (BitVec.ofNat (elemBits v.sf) (x l)).toInt)))
    ∧ done (.cvti m v o) (fun l => toInteger ⟨m, random l, false, false⟩ (elemBits o.fmt) o.uns ((fspec v.sf).decode (x l)))
    ∧ done (.frint m v o) (fun l => (fspec o.fmt).integral ⟨m, random l, false, false⟩ ((fspec o.fmt).decode (x l)))
    ∧ ((∀ l, l < 32 → scale l ≠ 255) → 8 < elemBits o.fmt → done (.cvtbs m v o) (fun l =>
        let y := (fspec o.fmt).round ⟨m, random l, false, false⟩ (realScale ((fspec v.sf).decode (x l)) (scale l - 127)).1
        (y.1, y.2 ||| snan l)))
    ∧ ((∀ l, l < 32 → scale l ≠ 255) → elemBits o.fmt ≤ 8 → done (.cvtbs m v o) (fun l =>
        match (fspec v.sf).decode (x l), (fspec o.fmt).inf with
        | .inf neg, some i => ((fspec o.fmt).signed neg i, 0)
        | d, _ =>
          let y := (fspec o.fmt).round ⟨m, random l, true, false⟩ (realScale d (127 - scale l)).1
          (y.1, y.2 ||| snan l)))
    ∧ ((∀ l, l < 32 → scale l = 255) → done (.cvtbs m v o) (fun l => ((fspec o.fmt).nanCode,
        if 8 < elemBits o.fmt then 0 else (if (fspec o.fmt).nan.isNone then fNv else 0) ||| snan l)))
    ∧ (∀ (r : Rounding) (w : Nat) (uns : Bool) (y : FVal), 0 < w → ∀ q neg k g, y = .fin neg k g → q = roundInt r neg k g →
        let z : Int := if neg then -(q.1 : Int) else q.1
        let low : Int := if uns then 0 else -2 ^ (w - 1)
        let high : Int := if uns then 2 ^ w - 1 else 2 ^ (w - 1) - 1
        (z < low → toInteger r w uns y = ((low % 2 ^ w).toNat, fNv)) ∧ (high < z → toInteger r w uns y = ((high % 2 ^ w).toNat, fNv))
        ∧ (low ≤ z → z ≤ high → toInteger r w uns y = ((z % 2 ^ w).toNat, if q.2 then 0 else fNx)))

/-- qswap, qbcast, lxch and lbcast give each acting lane the value of the lane they name. Each move of the issuing path whose operands pass
their checks completes with source 0 of the named lane in every acting lane: l xor 1, 2 or 3; lane k of the quad; the lane of the segment
that pick, rot, refl or flip names; one lane for all, or the lowest acting lane. A register or a latch of class vector gives zero in a
lane that is absent and no helper; a broadcast, an immediate and a scalar latch the same value in every lane. In canonical mode, with
more than one unparked path, a present acting lane's read of such a register or latch in a lane outside the path raises 0x62 instead.
(spec/09 R244, spec/09 R245, spec/09 R246, spec/09 R247, spec/09 R248) -/
def Obligations.LaneMoves : Prop :=
  (∀ (s t : State) (c : Ctx) (o : Alu), LaneReady s c o.g o.d o.fmt [(.vec o.fmt, o.a), (.vec .i32, o.b)] t →
      let own : Prop := (∃ i, o.a = .reg i) ∨ (∃ k v, o.a = .latch k ∧ c.p.place k = some (.vector v))
      let held (k : Nat) : Prop := c.w.present.getLsbD k = true ∨ c.w.helper.getLsbD k = true
      let b (l : Nat) : Nat := (c.vec .i32 o.b l).toNat
      let moves (i : Instr) (src : Nat → Nat) : Prop :=
        let refused : Prop := c.la.det = 3 ∧ 1 < c.w.unparked ∧ own
          ∧ ∃ l, l < 32 ∧ (c.act o.g).getLsbD l = true ∧ c.w.present.getLsbD l = true ∧ c.p.mask.getLsbD (src l) = false
        (refused → exec i s = .next (s.takeTrap c.wid c.pidx ⟨0x62, 0, 0, c.act o.g⟩ (unitOf c.p c.pre)))
        ∧ (¬refused → ∃ r, exec i s = .next (t.vectorDone c o.g o.d o.fmt r)
            ∧ ∀ l, l < 32 → (own → ¬held (src l) → r l = 0) ∧ (¬own ∨ held (src l) → r l = c.vec o.fmt o.a (src l)))
      moves (.qswap .h o) (fun l => l ^^^ 1) ∧ moves (.qswap .v o) (fun l => l ^^^ 2) ∧ moves (.qswap .d o) (fun l => l ^^^ 3)
      ∧ (∀ k, k < 4 → moves (.qbcast k o) (fun l => 4 * (l / 4) + k))
      ∧ (∀ x, 1 ≤ x → x ≤ 5 →
          moves (.lxch .pick x o) (fun l => l - l % 2 ^ x + b l % 2 ^ x)
          ∧ moves (.lxch .rot x o) (fun l => l - l % 2 ^ x + (l % 2 ^ x + b l) % 2 ^ x)
          ∧ moves (.lxch .refl x o) (fun l => l - l % 2 ^ x + (((b l : Int) - (l % 2 ^ x : Nat)) % 2 ^ x).toNat)
          ∧ moves (.lxch .flip x o) (fun l => l - l % 2 ^ x + ((l % 2 ^ x) ^^^ (b l % 2 ^ x)))))
    ∧ (∀ (s t : State) (c : Ctx) (o : Alu) (first : Bool) (k : Nat), LaneReady s c o.g o.d o.fmt [(.vec o.fmt, o.a)] t →
      (if first then (c.act o.g).getLsbD k = true ∧ ∀ j, j < k → (c.act o.g).getLsbD j = false else k = (c.sca o.b).toNat % 32) →
      let own : Prop := (∃ i, o.a = .reg i) ∨ (∃ j v, o.a = .latch j ∧ c.p.place j = some (.vector v))
      let held : Prop := c.w.present.getLsbD k = true ∨ c.w.helper.getLsbD k = true
      let refused : Prop := c.la.det = 3 ∧ 1 < c.w.unparked ∧ own ∧ c.act o.g &&& c.w.present ≠ 0 ∧ c.p.mask.getLsbD k = false
      (refused → exec (.lbcast first o) s = .next (s.takeTrap c.wid c.pidx ⟨0x62, 0, 0, c.act o.g⟩ (unitOf c.p c.pre)))
      ∧ (¬refused → ∃ v, (own → ¬held → v = 0) ∧ (¬own ∨ held → v = c.vec o.fmt o.a k)
          ∧ (o.d.cls ≠ .scalar → exec (.lbcast first o) s = .next (t.vectorDone c o.g o.d o.fmt fun _ => v))
          ∧ (o.d.cls = .scalar → exec (.lbcast first o) s = .next (t.scalarDone c o.g o.d (if o.fmt.is64 then v
              else if isFloat o.fmt ∨ o.uns then (v.extractLsb' 0 32).zeroExtend 64 else (v.extractLsb' 0 32).signExtend 64)))))

/-- Reductions and scans combine the acting lanes in the order the rules give; an integer sum is the exact sum in its width. lred of the
issuing path whose operands pass their checks completes with t[0] of the tree of R227: at distances 16, 8, 4, 2 and 1 lane l below the
distance takes t[l] combined with t[l + d], a missing operand passing the other on, over the acting lanes that are no helpers; with no
such lane, with the operation's empty result; a vector destination in every acting lane, a scalar one extended. lscan completes with, in
each acting lane, the chain of the acting lanes up to it, helpers receiving the chain without being counted. Flags: of all the tree's
steps in every acting lane, and of a lane's own step of the chain. For the integer formats, the tree of lred .add over any choice of
contributing lanes gives their sum modulo 2^e, and sets no flag. (spec/08 R227, spec/08 R228, spec/09 R249, spec/09 R250) -/
def Obligations.LaneReductionsAndScans : Prop :=
  ((∀ (s u t : State) (c : Ctx) (o : Alu) (op : ROp) (m : RMode) (n : Nat), RoundReady s c o.g o.d o.fmt [(.vec o.fmt, o.a)] m u n t →
        let plus (d l : Nat) : Word → Word → Word × BitVec 5 := combine o.fmt o.uns op
          ⟨m, srBits (c.la.word 10) (c.la.word 11) c.blk.linear c.w.index c.p.pc n l (1 + Nat.log2 d), false, false⟩
        let start (l : Nat) : Option Word :=
          if l < 32 ∧ (c.act o.g).getLsbD l = true ∧ c.w.present.getLsbD l = true then some (c.vec o.fmt o.a l) else none
        let merge (d l : Nat) (x y : Option Word) : Option Word := match x, y with
          | some x, some y => some (plus d l x y).1
          | some x, none => some x
          | none, y => y
        let flag (d l : Nat) (x y : Option Word) : BitVec 5 := match x, y with
          | some x, some y => (plus d l x y).2
          | _, _ => 0
        let tree : (Nat → Option Word) × BitVec 5 := [16, 8, 4, 2, 1].foldl (fun t d =>
          (fun l => if l < d then merge d l (t.1 l) (t.1 (l + d)) else t.1 l,
           (List.range d).foldl (fun fl l => fl ||| flag d l (t.1 l) (t.1 (l + d))) t.2)) (start, 0)
        let v : Word := (tree.1 0).getD (emptyResult o.fmt o.uns op)
        let r : Warp × Place := if o.d.cls = .scalar then scalarResult c.w o.d (if c.once o.g then some (laneScalar o.fmt o.uns v) else none)
          else vectorResult c.w o.d o.fmt (c.act o.g) fun _ => v
        exec (.lred op m o) s = .next (t.complete c ((r.1.orFlags (c.act o.g) fun _ => tree.2).bumpCount m (c.act o.g)) r.2))
      ∧ (∀ (s u t : State) (c : Ctx) (o : Alu) (op : ROp) (m : RMode) (n : Nat), RoundReady s c o.g o.d o.fmt [(.vec o.fmt, o.a)] m u n t →
        let plus (l : Nat) : Word → Word → Word × BitVec 5 := combine o.fmt o.uns op
          ⟨m, srBits (c.la.word 10) (c.la.word 11) c.blk.linear c.w.index c.p.pc n l 0, false, false⟩
        ∃ (y : Nat → Option Word) (fl : Nat → BitVec 5), y 0 = none
          ∧ (∀ l, l < 32 → (c.act o.g).getLsbD l = true → c.w.present.getLsbD l = true →
              match y l with
              | none => y (l + 1) = some (c.vec o.fmt o.a l) ∧ fl l = 0
              | some v => y (l + 1) = some (plus l v (c.vec o.fmt o.a l)).1 ∧ fl l = (plus l v (c.vec o.fmt o.a l)).2)
          ∧ (∀ l, l < 32 → ((c.act o.g).getLsbD l = false ∨ c.w.present.getLsbD l = false) → y (l + 1) = y l)
          ∧ exec (.lscan op m o) s = .next (t.floatDone c o.g o.d o.fmt m (fun l => (y (l + 1)).getD (emptyResult o.fmt o.uns op)) fl)))
  ∧ (∀ (f : Fmt) (uns : Bool) (m : RMode) (random : Nat → Nat → Nat) (x : Nat → Word) (counted : Nat → Bool),
      (f = .i32 ∨ f = .i64) → (∀ l, (x l).toNat < 2 ^ elemBits f) →
      let t : List (Option Word) := (List.range 32).map fun l => if counted l then some (x l) else none
      let r := treeReduce (fun d l => combine f uns .add ⟨m, random d l, false, false⟩) t
      (r.1.getD (emptyResult f uns .add)).toNat = (((List.range 32).filter counted).map fun l => (x l).toNat).sum % 2 ^ elemBits f ∧ r.2 = 0)

/-- lpoll, the predicate instructions, pmov and lidx. Each of the issuing path whose operands pass their checks completes: lpoll with whether
some, every or equal bits hold over the acting lanes that are no helpers, their mask or their count; pand, por, pxor and pnot with that
function of each bit; pmov with the scalar's bit l in lane l, or with the predicate zero extended; lidx with the lane's number, the
path's mask, the mask of acting lanes, or the number of acting lanes below. (spec/09 R251, spec/09 R252, spec/09 R253) -/
def Obligations.PredicatesAndPolls : Prop :=
  (∀ (s t : State) (c : Ctx) (o : Alu), LaneReady s c o.g o.d .none [(.pred, o.a)] t →
      let polled (l : Nat) : Bool := (c.act o.g).getLsbD l && c.w.present.getLsbD l
      let x (l : Nat) : Bool := (readPred c.w c.p o.a).getLsbD l
      let one (v : Poll) (holds : Prop) : Prop :=
        (o.d.cls = .scalar → ∃ r : Word, exec (.lpoll v o) s = .next (t.scalarDone c o.g o.d r) ∧ (holds → r = 1) ∧ (¬holds → r = 0))
        ∧ (o.d.cls ≠ .scalar → ∃ r : LaneMask, exec (.lpoll v o) s = .next (t.predicateDone c o.g o.d r)
            ∧ (holds → r = BitVec.allOnes 32) ∧ (¬holds → r = 0))
      one .some (∃ l, l < 32 ∧ polled l = true ∧ x l = true)
      ∧ one .every (∀ l, l < 32 → polled l = true → x l = true)
      ∧ one .same (∀ l k, l < 32 → k < 32 → polled l = true → polled k = true → x l = x k)
      ∧ (o.d.cls = .scalar → (∃ r : Word, exec (.lpoll .mask o) s = .next (t.scalarDone c o.g o.d r)
            ∧ ∀ l, l < 64 → r.getLsbD l = (decide (l < 32) && polled l && x l))
          ∧ exec (.lpoll .count o) s = .next (t.scalarDone c o.g o.d
              (BitVec.ofNat 64 ((List.range 32).countP fun l => polled l && x l)))))
    ∧ (∀ (s t : State) (c : Ctx) (o : Alu), LaneReady s c o.g o.d .none [(.pred, o.a), (.pred, o.b)] t →
      let a := readPred c.w c.p o.a
      let b := readPred c.w c.p o.b
      exec (.pand o) s = .next (t.predicateDone c o.g o.d (a &&& b)) ∧ exec (.por o) s = .next (t.predicateDone c o.g o.d (a ||| b))
      ∧ exec (.pxor o) s = .next (t.predicateDone c o.g o.d (a ^^^ b)) ∧ exec (.pnot o) s = .next (t.predicateDone c o.g o.d (~~~a)))
    ∧ (∀ (s t : State) (c : Ctx) (o : Alu), LaneReady s c o.g o.d .none [(.pred, o.a)] t →
      exec (.pmov true o) s = .next (t.scalarDone c o.g o.d ((readPred c.w c.p o.a).zeroExtend 64)))
    ∧ (∀ (s t : State) (c : Ctx) (o : Alu), LaneReady s c o.g o.d .none [(.sca, o.a)] t →
      exec (.pmov false o) s = .next (t.predicateDone c o.g o.d ((c.sca o.a).extractLsb' 0 32)))
    ∧ (∀ (s t : State) (c : Ctx) (o : Alu), LaneReady s c o.g o.d .i32 [] t →
      exec (.lidx .lane o) s = .next (t.vectorDone c o.g o.d .i32 fun l => BitVec.ofNat 64 l)
      ∧ exec (.lidx .active o) s = .next (t.scalarDone c o.g o.d (c.p.mask.zeroExtend 64))
      ∧ exec (.lidx .acting o) s = .next (t.scalarDone c o.g o.d ((c.act o.g).zeroExtend 64))
      ∧ exec (.lidx .rank o) s = .next (t.vectorDone c o.g o.d .i32 fun l =>
          BitVec.ofNat 64 ((List.range 32).countP fun k => decide (k < l) && (c.act o.g).getLsbD k)))

/-- An access passes the six checks in order, and the first step at which a lane fails decides the trap. Rights come first: an access
register without rd for a read raises 0x11 subcode 0x00, without wr for a write 0x11 subcode 0x01. Then every access must lie within base
and limit (0x10 subcode 0x00), be placed in one window (its own cause), have win for SRAM (0x11 subcode 0x02), and be mapped; each
failing step traps with exactly the lanes that fail there (all of them where the instruction acts once) and the address of the first of
them. Where all pass, each access has its address and its pieces, in order. (spec/13 R314, spec/12 R292) -/
def Obligations.AccessChecks : Prop :=
  (∀ (a : AReg) (rd wr : Bool) (whole : Option LaneMask) (x : Aim) (xs : List Aim),
      let lanes : LaneMask := whole.getD (maskOf fun l => (x :: xs).any (·.1 == l))
      (rd = true → a.perm.getLsbD 0 = false → checkRights a rd wr whole (x :: xs) = .error (.trap ⟨0x11, 0x00, BitVec.ofInt 64 x.2, lanes⟩))
      ∧ ((rd = true → a.perm.getLsbD 0 = true) → wr = true → a.perm.getLsbD 1 = false →
          checkRights a rd wr whole (x :: xs) = .error (.trap ⟨0x11, 0x01, BitVec.ofInt 64 x.2, lanes⟩))
      ∧ ((rd = true → a.perm.getLsbD 0 = true) → (wr = true → a.perm.getLsbD 1 = true) → checkRights a rd wr whole (x :: xs) = .ok ()))
    ∧ (∀ (s : State) (e : Env) (a : AReg) (rd wr : Bool) (size : Nat) (whole : Option LaneMask) (xs : List Aim),
      let inside (x : Aim) : Prop := (a.base.toNat : Int) ≤ x.2 ∧ x.2 + size ≤ a.limit.toNat
      let lanesAt (bad : Aim → Prop) (m : LaneMask) : Prop :=
        (∀ w, whole = some w → m = w) ∧ (whole = none → ∀ l, l < 32 → (m.getLsbD l = true ↔ ∃ x ∈ xs, x.1 = l ∧ bad x))
      let first (bad : Aim → Prop) (x : Aim) : Prop := ∃ before after, xs = before ++ x :: after ∧ bad x ∧ ∀ y ∈ before, ¬bad y
      let fails (bad : Aim → Prop) (why : Int → Option Refused) : Prop := ∀ x, first bad x → ∃ m refused, lanesAt bad m ∧ why x.2 = some refused
        ∧ checkRange s e a rd wr size whole xs = .error (.trap ⟨refused.1, refused.2, BitVec.ofInt 64 x.2, m⟩)
      let placed (x : Aim) : Prop := ∃ w, placeAccess x.2.toNat size = .ok w
      let winOk (x : Aim) : Prop := windowOf x.2.toNat = .unified ∨ a.perm.getLsbD 3 = true
      let mapped (x : Aim) : Prop := ∃ ps, s.placeAll e x.2.toNat size = .ok ps
      fails (fun x => ¬inside x) (fun _ => some (0x10, 0x00))
      ∧ ((∀ x ∈ xs, inside x) →
          fails (fun x => ¬placed x) (fun ea => match placeAccess ea.toNat size with | .error r => some r | .ok _ => none)
          ∧ ((∀ x ∈ xs, placed x) →
              fails (fun x => ¬winOk x) (fun _ => some (0x11, 0x02))
              ∧ ((∀ x ∈ xs, winOk x) →
                  fails (fun x => ¬mapped x) (fun ea => match s.placeAll e ea.toNat size with | .error r => some r | .ok _ => none))))
      ∧ (∀ ys, checkRange s e a rd wr size whole xs = .ok ys →
          (∀ x ∈ xs, inside x ∧ placed x ∧ winOk x ∧ mapped x) ∧ ys.length = xs.length
          ∧ ∀ (i : Nat) (x : Aim), xs[i]? = some x → ∃ ps, s.placeAll e x.2.toNat size = .ok ps ∧ ys[i]? = some (x.1, x.2.toNat, ps.map (·.piece))))

/-- A load issues with the addresses its form names and completes with the bytes at each access when its data returns. ld (linear, offset,
index), lds, sread and lda of the issuing path that act, their operands, rights and range checked: where a line's presence bit is clear
or a barge owns it, or a fence half of a sequentially consistent access is open, the path parks for that reason; otherwise the load has
issued with its destination, its acting lanes and its accesses at the addresses of R313 (lds adds its scalar, sread uses the stream's
pointer, plus l * size for .v), the register keeping a cached run, the addresses translated, and the path awaits the data. An ld with no
active lane, or another without an acting one, completes writing nothing. pf, wback and inv complete; they change nothing but the caches:
inv drops the lines it reaches, wback cleans them, pf with hint 3 leaves them. The next n pieces of an awaited load are read, each as its
lanes see memory, unless a group's open interval or an unperformed store of only some of the lanes holds them back. While pieces are left
the path goes on waiting, with what was read kept. With the last one the load completes: each acting lane (or the scalar, or every acting
lane of a uniform read) takes the little-endian bytes of its access, 8 and 16-bit values and 32-bit values into a scalar extended as the
instruction says; a lane without an access reads zero. An address image that is ordered becomes the address register, unbound; one that
is not raises 0x10 subcode 0x08. A stream read also advances its register. Poison raises 0x51 with the poisoned lanes and the address of
the first. (spec/13 R313, spec/13 R316, spec/13 R319, spec/13 R320, spec/13 R321, spec/13 R322, spec/13 R318, spec/12 R301, spec/15 R349) -/
def Obligations.Loads : Prop :=
  (∀ (s : State) (c : Ctx) (o : Mem), Issues s c →
      let a := c.w.areg o.a
      let size : Int := accessBytes o.fmt
      let lanes := lanesOf (c.real o.g)
      let lowest := lanes.headD 0
      let term (m : LaneMode) (l : Nat) : Int := match m with
        | .linear => l * size
        | .offset => ((c.vec .i32 o.x l).extractLsb' 0 32).toInt
        | .index => ((c.vec .i32 o.x l).extractLsb' 0 32).toInt * size
      let issues (i : Instr) (shape : LoadShape) (act : LaneMask) (whole : Option LaneMask) (n : Nat) (stream : Option Nat) (xs : List Aim) : Prop :=
        ∀ ys, loadRange s c o whole n xs = .ok ys →
          let free : Prop := ∀ y ∈ ys, ∀ p ∈ y.2.2, s.lineAbsent p = false ∧ s.lineOwned p = false
          let fenced : Prop := s.scOpen c.wid act = true ∨ (o.e.ord = .sc ∧ s.releasable c.wid act o.e.mask = false)
          ((∃ y ∈ ys, ∃ p ∈ y.2.2, s.lineAbsent p = true) → exec i s = .next (s.park c .presence))
          ∧ ((∀ y ∈ ys, ∀ p ∈ y.2.2, s.lineAbsent p = false) → (∃ y ∈ ys, ∃ p ∈ y.2.2, s.lineOwned p = true) → exec i s = .next (s.park c .recall))
          ∧ (free → fenced → exec i s = .next (s.park c .fence))
          ∧ (free → ¬fenced →
              let t := if o.e.ord = .sc then s.fenceAt (coreOf c.wid) .sc o.e.mask else s
              exec i s = .next ((t.translated c.env (ys.map (·.2.1))).awaits c (c.w.setAreg o.a (s.cachedRun c.env.part a ys)) .live
                (.load ⟨shape, o.d, o.fmt, o.uns, act, o.e.mask, ys, o.e.ord, [], [], stream⟩) 0))
      (∀ m, checkOperands c o.g o.d o.fmt (if m = .linear then [] else [(.vec .i32, o.x)]) = .ok () →
        (c.act o.g = 0 → exec (.ld m o) s = .next (s.vectorDone c o.g o.d o.fmt fun _ => 0))
        ∧ (c.act o.g ≠ 0 → a.perm.getLsbD 0 = true →
            issues (.ld m o) .lanes (c.act o.g) none (accessBytes o.fmt) none (lanes.map fun l => (l, a.pointer.toNat + o.e.off + term m l))))
      ∧ (∀ indexed, checkOperands c o.g o.d .none (if indexed then [(.sca, o.x)] else []) = .ok () →
        (c.once o.g = false → exec (.lds indexed o) s = .next (s.scalarDone c o.g o.d 0))
        ∧ (c.once o.g = true → a.perm.getLsbD 0 = true →
            issues (.lds indexed o) .scalar (c.real o.g) (some (c.real o.g)) (accessBytes o.fmt) none
              [(lowest, a.pointer.toNat + (o.e.off + if indexed then (c.sca o.x).toInt else 0))]))
      ∧ (∀ vec t, checkOperands c o.g o.d (if o.d.cls = .vector then o.fmt else .none) [] = .ok () → c.once o.g = true → a.perm.getLsbD 0 = true →
        a.stream = some t → t.done = false → 2 ^ t.log2 = accessBytes o.fmt → c.la.det = 0 →
        issues (.sread vec o) (if vec then .lanes else if o.d.cls = .vector then .uniform else .scalar) (c.act o.g)
          (if vec then none else some (c.real o.g)) (accessBytes o.fmt) (some o.a)
          (if vec then lanes.map fun l => (l, a.pointer.toNat + (l * accessBytes o.fmt : Nat)) else [(lowest, a.pointer.toNat + 0)]))
      ∧ (c.once o.g = true → a.perm.getLsbD 0 = true → (a.pointer.toNat + o.e.off) % 32 = 0 →
        issues (.lda o) .address (c.real o.g) (some (c.real o.g)) 32 none [(lowest, a.pointer.toNat + o.e.off)])
      ∧ (∀ lane, checkOperands c o.g .noDest .none [(if lane then .vec .i32 else .sca, o.x)] = .ok () →
        let named (wr : Bool) : List Nat := (hintLines c lane o).filterMap (hbmLine s c a wr)
        let done (i : Instr) (k : NMap CacheLine) : Prop := exec i s = .next ({ s with cache := k }.complete c c.w .none)
        (∃ k, done (.pf lane o) k ∧ (o.e.hint = 3 ∨ named false = [] → k = s.cache))
        ∧ (∃ k, done (.wback lane o) k
            ∧ ∀ l, k.get? l = if l ∈ named true then (s.cache.get? l).map CacheLine.clean else s.cache.get? l)
        ∧ (∃ k, done (.inv lane o) k ∧ ∀ l, k.get? l = if l ∈ named true then none else s.cache.get? l)))
  ∧ ((∀ (s : State) (wid pidx n : Nat) (c : Ctx) (r : LoadReq), s.awaiting wid pidx = some (c, .load r) →
      let whole : Option LaneMask := if r.shape = .lanes then none else some (r.acting &&& c.w.present)
      let left : List (LaneMask × Piece) :=
        (r.lanes.flatMap fun x => x.2.2.map fun p => (whole.getD (maskOf (· == x.1)), p)).drop r.got.length
      let xs := left.take n
      let ps := xs.map (·.2)
      let blocked : Prop := (xs = [] ∧ left ≠ []) ∨ s.heldFrom (some c.env.part) ps = true ∨ ∃ x ∈ xs, s.mayRead wid x.1 [x.2] = false
      let got := r.got ++ xs.map fun x => let view := s.seenBy wid x.1 r.mask
        (view.mem.bytes x.2.key x.2.len, if (∃ m ∈ r.lost, x.2.peer = some m) then some 3 else view.poisonOf [x.2])
      let s' := (s.noteReads c.env.part ps).sawAt (coreOf wid) r.mask ps
      let s'' := if isAcquire r.ord then s'.acquireAt (coreOf wid) r.mask else s'
      let groups := regroup r.lanes got
      let bits := elemBits r.fmt
      let extended (wide : Bool) (v : Nat) : Word :=
        if 64 ≤ bits ∨ (bits = 32 ∧ wide = false) then BitVec.ofNat 64 v
        else if r.uns then BitVec.ofNat 64 v else (BitVec.ofNat bits v).signExtend 64
      let answers (t : State) : Prop := exec (.loadDataReturn wid ⟨pidx, n⟩) s = .next t
      (blocked → answers s)
      ∧ (¬blocked → n < left.length →
          answers (s'.setPath wid pidx fun p => { p with await := p.await.map fun a => { a with what := .load { r with got := got } } }))
      ∧ (¬blocked → left.length ≤ n →
          (∀ before x after k, groups = before ++ x :: after → (∀ y ∈ before, y.2.2.2 = none) → x.2.2.2 = some k →
            ∃ m, answers (s'.answeredTrap c ⟨0x51, k, BitVec.ofNat 64 x.2.1, m⟩) ∧ (∀ w, whole = some w → m = w)
              ∧ (whole = none → ∀ l, l < 32 → (m.getLsbD l = true ↔ ∃ y ∈ groups, y.1 = l ∧ y.2.2.2 ≠ none)))
          ∧ ((∀ y ∈ groups, y.2.2.2 = none) →
            (r.shape = .lanes → r.fmt ≠ .b128 → r.stream = none → ∃ y : Nat → Nat,
                (∀ x ∈ groups, (∀ z ∈ groups, z.1 = x.1 → z = x) → y x.1 = x.2.2.1) ∧ (∀ l, (∀ x ∈ groups, x.1 ≠ l) → y l = 0)
                ∧ let out := vectorResult c.w r.d r.fmt r.acting fun l => extended false (y l)
                  answers (s''.answered c out.1 out.2))
            ∧ (∀ x, groups = [x] → r.shape = .scalar → r.stream = none →
                let out := scalarResult c.w r.d (some (extended true x.2.2.1))
                answers (s''.answered c out.1 out.2))
            ∧ (∀ x, groups = [x] → r.shape = .address → r.stream = none →
                let word (k : Nat) : Word := BitVec.ofNat 64 (x.2.2.1 / 2 ^ (64 * k))
                let image : AReg := ⟨word 0, word 1, word 2, BitVec.ofNat 4 (x.2.2.1 / 2 ^ 192), none, none⟩
                (image.ordered = true →
                  answers (s''.answered c (addressResult c.w r.d (some image)).1 (addressResult c.w r.d (some image)).2))
                ∧ (image.ordered = false → answers (s'.answeredTrap c ⟨0x10, 0x08, word 0, c.w.present &&& r.acting⟩)))
            ∧ (∀ x k, groups = [x] → r.shape = .uniform → r.fmt ≠ .b128 → r.stream = some k → c.la.det = 0 →
                let out := vectorResult (c.w.setAreg k (c.w.areg k).advanced) r.d r.fmt r.acting fun _ => extended false x.2.2.1
                answers (s''.answered c out.1 out.2)))))
      ∧ (∀ (lanes : List (Nat × Nat × List Piece)) (got : List (List Byte × Option Nat)) (k : Nat) (x : Nat × Nat × List Piece),
        lanes[k]? = some x →
          let mine := (got.drop ((lanes.take k).flatMap (·.2.2)).length).take x.2.2.length
          (regroup lanes got)[k]? = some (x.1, x.2.1, leNat (mine.flatMap (·.1)), mine.findSome? (·.2)))
      ∧ (∀ (s : State) (wid : Nat) (lanes : LaneMask) (mask : BitVec 7), s.hidden = [] →
        (∀ t ∈ s.stores, t.warp ≠ wid ∨ t.lanes &&& lanes = 0) → (s.seenBy wid lanes mask).mem = s.mem))

/-- A store issues its bytes at the addresses of its form, and once performed it wrote them and no other byte of memory. st (linear, offset,
index), sts and sta of the issuing path that act, their operands, rights and range checked and no line held: the low bytes of each acting
lane's value, of the scalar, or the 32 bytes of the address register without stream state, cut over the pieces of each access, join the
store queue in ascending lane order, each piece with its own lane (all acting lanes for an instruction that acts once) and the
instruction's order and mask, and the instruction completes writing no register but a cached run. Memory is unchanged at issue. While a
sequentially consistent store of its lanes is open, or before such a store while its lanes' earlier writes are not performed, it parks. A
store without an acting lane only takes its place. Where the n-th store of the queue may be performed (no earlier store of its lanes
holds it, its peer's window has room, a release's peers are done, no other group's open interval, no full log), storePerformed takes it
from the queue. A store to this device's or the host's memory is then in memory: for a block whose context keeps no undo log (class 0)
each byte of its piece reads as the byte stored and every other byte as before. A store to a peer changes no byte, and joins the writes
whose acknowledgement is awaited. A store that may not be performed changes nothing, and a number past the queue changes no byte of
memory and no store. (spec/13 R317, spec/13 R318, spec/13 R319, spec/13 R321, spec/15 R349, spec/15 R350, spec/15 R358, spec/15 R353,
spec/15 R357, spec/12 R304, spec/20 R435, spec/23 R478) -/
def Obligations.Stores : Prop :=
  (∀ (s : State) (c : Ctx) (o : Mem), Issues s c →
      let a := c.w.areg o.a
      let size : Int := accessBytes o.fmt
      let lanes := lanesOf (c.real o.g)
      let lowest := lanes.headD 0
      let term (m : LaneMode) (l : Nat) : Int := match m with
        | .linear => l * size
        | .offset => ((c.vec .i32 o.x l).extractLsb' 0 32).toInt
        | .index => ((c.vec .i32 o.x l).extractLsb' 0 32).toInt * size
      let issues (i : Instr) (whole : Option LaneMask) (n : Nat) (xs : List Aim) (data : Nat → List Byte) : Prop :=
        ∀ ys, storeRange s c o whole n xs = .ok ys → (∀ y ∈ ys, ∀ p ∈ y.2.2, s.lineAbsent p = false ∧ s.lineOwned p = false) →
          let writes := ys.flatMap fun y => (cutBytes y.2.2 (data y.1)).map fun z => (whole.getD (maskOf (· == y.1)), z.1, z.2)
          let fenced : Prop := s.scOpen c.wid (c.real o.g) = true ∨ (o.e.ord = .sc ∧ s.releasable c.wid (c.real o.g) o.e.mask = false)
          let w := c.w.setAreg o.a (s.cachedRun c.env.part a ys)
          (fenced → exec i s = .next (s.park c .fence))
          ∧ (¬fenced → exec i s =
              .next (((s.translated c.env (ys.map (·.2.1))).enqueue c (c.real o.g) writes o.e).complete c w .none))
      (∀ m, checkOperands c o.g .noDest .none ((if m = .linear then [] else [(.vec .i32, o.x)]) ++ [(.vec o.fmt, o.y)]) = .ok () →
        (c.real o.g = 0 → exec (.st m o) s = .next (s.skip c))
        ∧ (c.real o.g ≠ 0 → a.perm.getLsbD 1 = true →
            issues (.st m o) none (accessBytes o.fmt) (lanes.map fun l => (l, a.pointer.toNat + o.e.off + term m l))
              fun l => leBytes (accessBytes o.fmt) (if o.fmt = .b128 then (nth (readVec128 c.w o.y) l 0).toNat else (c.vec o.fmt o.y l).toNat)))
      ∧ (∀ indexed, checkOperands c o.g .noDest .none ((if indexed then [(.sca, o.x)] else []) ++ [(.sca, o.y)]) = .ok () →
        (c.once o.g = false → exec (.sts indexed o) s = .next (s.skip c))
        ∧ (c.once o.g = true → a.perm.getLsbD 1 = true →
            issues (.sts indexed o) (some (c.real o.g)) (accessBytes o.fmt)
              [(lowest, a.pointer.toNat + (o.e.off + if indexed then (c.sca o.x).toInt else 0))] fun _ => leBytes (accessBytes o.fmt) (c.sca o.y).toNat))
      ∧ (∀ k, c.once o.g = true → a.perm.getLsbD 1 = true → o.x = .reg k → (a.pointer.toNat + o.e.off) % 32 = 0 →
        issues (.sta o) (some (c.real o.g)) 32 [(lowest, a.pointer.toNat + o.e.off)] fun _ =>
          let r := c.w.areg k
          leBytes 8 r.pointer.toNat ++ leBytes 8 r.base.toNat ++ leBytes 8 r.limit.toNat ++ leBytes 8 r.perm.toNat)
      ∧ (∀ lanes writes e, let t := s.enqueue c lanes writes e
          t.mem = s.mem ∧ t.stores.length = s.stores.length + writes.length
          ∧ (∀ k, k < s.stores.length → t.stores[k]? = s.stores[k]?)
          ∧ ∀ k x, writes[k]? = some x → ∃ y, t.stores[s.stores.length + k]? = some y ∧ y.warp = c.wid ∧ y.block = c.bid ∧ y.copy = none
              ∧ y.lanes = x.1 ∧ y.acting = lanes ∧ y.piece = x.2.1 ∧ y.data = x.2.2 ∧ y.ord = e.ord ∧ y.mask = e.mask))
  ∧ ((∀ (s : State) (n : Nat) (cores : BitVec 512) (x : Store), s.stores[n]? = some x →
      let ready : Prop := (∀ k y, k < n → s.stores[k]? = some y → x.passes y = true)
        ∧ (∀ m, x.piece.peer = some m → (s.unacked.filter fun t => t.piece.peer == some m).length < 64)
        ∧ (isRelease x.ord = true → s.peersDone (.lane (coreOf x.warp)) x.mask = true)
        ∧ s.heldFrom (some x.part) [x.piece] = false ∧ s.logFull x.block [x.piece] = false
      (¬ready → exec (.storePerformed ⟨n, cores⟩) s = .next s)
      ∧ (ready → ∃ t, exec (.storePerformed ⟨n, cores⟩) s = .next t ∧ t.stores = s.stores.eraseIdx n
          ∧ (∀ w, (t.warps.get? w).isSome = (s.warps.get? w).isSome) ∧ t.launches = s.launches
          ∧ (s.classOf x.block = 0 → x.piece.peer = none →
              (∀ k, k < x.piece.key ∨ x.piece.key + x.data.length ≤ k → t.mem.byte k = s.mem.byte k)
              ∧ ∀ i, i < x.data.length → t.mem.byte (x.piece.key + i) = nth x.data i 0)
          ∧ (s.classOf x.block = 0 → x.piece.peer ≠ none →
              t.mem = s.mem ∧ ∃ u, t.unacked = s.unacked ++ [{ x with clock := u }])))
      ∧ (∀ (s : State) (n : Nat) (cores : BitVec 512), s.stores.length ≤ n →
        ∃ t, exec (.storePerformed ⟨n, cores⟩) s = .next t ∧ t.mem = s.mem ∧ t.stores = s.stores))

/-- An atomic issues one request per home lockkeeper with each acting lane's location and operands. Of the issuing path, its operands
checked: without an acting present lane the atomic completes with nothing changed but its place. In fp determinism mode 3 atfadd raises
0x62. A misaligned access raises 0x14 subcode 0x00. Otherwise (rights, alignment, range and lines checked, no room wanted in a log) the
path awaits an answer: each acting lane brings its own address (pointer + offset + its signed index; the cell of the region for
atfadd.rgn; one address of the path for a scalar destination), its operand and, for acas, its old destination; each home's request takes
its pair's next number, unless 64 are outstanding or an earlier one of the pair still waits at the source; no byte of memory changes at
issue. A fence half of a sequentially consistent access that is open parks the path first. (spec/16 R369, spec/16 R371, spec/16 R372,
spec/16 R375, spec/16 R378) -/
def Obligations.AtomicIssue : Prop :=
  ∀ (s : State) (c : Ctx) (o : Mem) (op : AtomOp) (i : Instr), Issues s c →
    (op, i) ∈ [(AtomOp.add, Instr.atadd o), (.sub, .atsub o), (.min, .atmin o), (.max, .atmax o), (.minu, .atminN o), (.maxu, .atmaxN o),
      (.and, .atand o), (.or, .ator o), (.xor, .atxor o), (.swp, .atswp o), (.inc, .atinc o), (.fadd, .atfadd o), (.rgn, .atfaddRgn o),
      (.cas, .acas o)] →
    let f : Fmt := if op = .rgn then .f32 else o.fmt
    let one : Bool := o.d.cls = .scalar
    let size := if op = .rgn then 16 else accessBytes o.fmt
    let base : Int := (c.w.areg o.a).pointer.toNat + o.e.off
    let lanes := lanesOf (c.real o.g)
    let whole : Option LaneMask := if one then some (c.real o.g) else none
    let index (l : Nat) : BitVec 32 := (c.vec .i32 o.x l).extractLsb' 0 32
    let xs : List Aim := if one then [(lanes.headD 0, base + (c.sca o.x).toInt)]
      else lanes.map fun l => (l, if op = .rgn then base + 32 + 16 * ((index l).toNat : Int) else base + (index l).toInt)
    let operand (l : Nat) : Word := if one then c.sca o.y else c.vec f o.y l
    let fenced : Prop := s.scOpen c.wid (c.real o.g) = true ∨ (o.e.ord = .sc ∧ s.releasable c.wid (c.real o.g) o.e.mask = false)
    let second (l : Nat) : Word := if one then c.w.sreg o.d.idx else if op = .rgn then c.vec .i32 o.x l
      else if o.d.cls = .vector then atLane (c.w.vecValue o.fmt o.d.idx) l else 0
    checkOperands c o.g o.d o.fmt (if one then [(.sca, o.x), (.sca, o.y)] else [(.vec .i32, o.x), (.vec f, o.y)]) = .ok () → c.pidx < c.w.paths.length →
    (c.real o.g = 0 →
      (o.d.cls = .scalar → exec i s = .next (s.scalarDone c o.g o.d 0))
      ∧ (o.d.cls = .vector → exec i s = .next (s.complete c (vectorResult c.w o.d o.fmt (c.act o.g) fun _ => 0).1
          (vectorResult c.w o.d o.fmt (c.act o.g) fun _ => 0).2))
      ∧ (o.d.cls = .none → exec i s = .next (s.skip c)))
    ∧ (c.real o.g ≠ 0 → op = .fadd → c.la.det = 3 → exec i s = .next (s.takeTrap c.wid c.pidx ⟨0x62, 0x00, 0, c.real o.g⟩ (unitOf c.p c.pre)))
    ∧ (c.real o.g ≠ 0 → (op = .fadd → c.la.det = 0 ∨ c.la.det = 2) → checkRights (c.w.areg o.a) true true whole xs = .ok () →
        (∀ before x after, xs = before ++ x :: after → (∀ y ∈ before, y.2 % (size : Int) = 0) → x.2 % (size : Int) ≠ 0 →
          exec i s = .next (s.takeTrap c.wid c.pidx ⟨0x14, 0x00, BitVec.ofInt 64 x.2,
            whole.getD (maskOf fun l => (xs.filter fun y => y.2 % (size : Int) ≠ 0).any (·.1 == l))⟩ (unitOf c.p c.pre)))
        ∧ (∀ ys, checkAtomic s c (c.w.areg o.a) true size whole xs = .ok ys →
          (fenced → exec i s = .next (s.park c .fence))
          ∧ (¬fenced → (op = .fadd → c.la.det = 2 → ∀ y ∈ ys, ∀ p ∈ y.2.2, p.peer = none) →
          ∃ t v r, exec i s = .next t ∧ t.warps.get? c.wid = some v ∧ (v.path c.pidx).await = some ⟨.atomic r, c.pre, (unitOf c.p c.pre).word, 0⟩
            ∧ (v.path c.pidx).state = .live ∧ (v.path c.pidx).pc = c.p.pc ∧ v.v = c.w.v ∧ v.s = c.w.s ∧ v.p = c.w.p ∧ t.mem = s.mem ∧ t.stores = s.stores
            ∧ r.op = op ∧ r.d = o.d ∧ r.fmt = o.fmt ∧ r.ord = o.e.ord ∧ r.mask = o.e.mask ∧ r.acting = c.act o.g ∧ r.header = base
            ∧ r.stands = false ∧ r.diverged = none ∧ r.done = [] ∧ r.poison = 0 ∧ r.gone = 0 ∧ r.refused = 0
            ∧ r.todo = (ys.flatMap fun y => y.2.2.map fun p => ⟨y.1, p, operand y.1, second y.1⟩)
            ∧ ∀ u ∈ r.todo, let key := pairKey (coreOf c.wid) (homeOf u.piece)
                let full : Prop := 64 ≤ ((s.pairOf key).issued + 2 ^ 16 - (s.pairOf key).executed) % 2 ^ 16
                  ∨ s.pairWaits (coreOf c.wid) (homeOf u.piece) = true
                let next := ((s.pairOf key).issued + 1) % 2 ^ 16
                r.seqs.get? (homeOf u.piece) = (if full then none else some next)
                ∧ t.pairOf key = if full then s.pairOf key else { s.pairOf key with issued := next })))

/-- A lockkeeper applies a request's lanes one after another in its number's turn, and the found values return. Of an atomic's homes the
first for which something is to be done is served; with none, nothing changes. A request is executed only in its pair's turn and its
key's turn at the home, after the earlier writes of its lanes it must follow, and outside other groups' open intervals. Executed, each of
its lanes in turn finds the location's value x and leaves the operation's value there, no other byte changing for a class 0 block; a lane
of atfadd.rgn whose cell the region has adds the element's floor at the anchor to the 128-bit cell and finds zero. The pair's executed
number rises to the request's. Once no lane is left the answer completes the path with the found values in the acting lanes; poison
raises 0x51, a refused cell 0x10 subcode 0x0E. (spec/16 R368, spec/16 R369, spec/16 R373, spec/16 R374, spec/16 R375, spec/16 R376,
spec/15 R353, spec/14 R337) -/
def Obligations.AtomicExecution : Prop :=
  (∀ (s : State) (wid pidx : Nat) (c : Ctx) (r : AtomReq), s.requesting wid pidx = some (c, .atomic r) → r.stands = false →
      (∀ h ∈ r.homes, requestStep s c r h = none) → exec (.lockkeeperRequest wid pidx) s = .next s)
    ∧ (∀ (s : State) (wid pidx : Nat) (c : Ctx) (r : AtomReq) (earlier later : List Nat) (home number : Nat),
      s.requesting wid pidx = some (c, .atomic r) → r.stands = false →
      r.homes = earlier ++ home :: later → (∀ h ∈ earlier, requestStep s c r h = none) → r.seqs.get? home = some number →
      (∀ take, r.op ≠ .semw take) → (r.op = .fadd → c.la.det = 0) →
      let ts := r.todo.filter fun x => homeOf x.piece == home
      let key := pairKey (coreOf c.wid) home
      let e := elemBits r.fmt
      let who := Agent.lane (coreOf c.wid)
      let s1 := (if isRelease r.ord then s.publish who r.mask else s).noteReads c.env.part (ts.map (·.piece))
      let ready : Prop := number = ((s.pairOf key).executed + 1) % 2 ^ 16
        ∧ (∀ x ∈ s.stores, x.copy = none → x.warp = c.wid → x.block = c.bid → x.lanes &&& r.acting ≠ 0 →
            isRelease r.ord = false ∧ ∀ z ∈ ts, x.piece.meets z.piece = false)
        ∧ (∀ x ∈ s.unacked, ∀ z ∈ ts, z.piece.meets x.piece = false) ∧ (isRelease r.ord = true → s.peersDone who r.mask = true)
        ∧ s.heldFrom (some c.env.part) (ts.map (·.piece)) = false ∧ s.logFull c.bid (ts.map (·.piece)) = false
        ∧ s.lockTurn home (requestKey c.wid ts) = true
      let value (x : Nat) (z : AtomLane) : Nat :=
        let b := z.x.toNat % 2 ^ e
        let int (n : Nat) : Int := (BitVec.ofNat e n).toInt
        match r.op with
        | .add | .semp => (x + b) % 2 ^ e
        | .sub | .semw _ => (((x : Int) - b) % 2 ^ e).toNat
        | .min => if int b < int x then b else x
        | .max => if int b > int x then b else x
        | .minu => if b < x then b else x
        | .maxu => if b > x then b else x
        | .and => x &&& b | .or => x ||| b | .xor => x ^^^ b | .swp => b
        | .inc => if x ≥ b then 0 else x + 1
        | .cas => if x = b then z.y.toNat % 2 ^ e else x
        | .fadd => (FSpec.round (fspec r.fmt) rneOf (realAdd .rne ((fspec r.fmt).decode x) ((fspec r.fmt).decode b)).1).1
        | .rgn => x
      (¬ready → s.contextRuns c.env.part = true → requestStep s c r home = none)
      ∧ (ready → r.op ≠ .rgn → (∀ z ∈ ts, s.lanePoison z = none) → (∀ z ∈ ts, z.piece.len * 8 = e) →
          let apply (t : State) (z : AtomLane) : State :=
            (t.track c.bid [z.piece]).performAt who everyCore z.piece (leBytes z.piece.len (value (leNat (t.readPiece z.piece)) z))
          ∃ t r', exec (.lockkeeperRequest wid pidx) s = .next t ∧ t.mem = (ts.foldl apply s1).mem
            ∧ ((t.warps.get? wid).map fun v => (v.path pidx).await.map (·.what)) = some (some (.atomic r'))
            ∧ (∀ z, z ∈ r'.todo ↔ z ∈ r.todo ∧ z ∉ ts) ∧ r'.op = r.op ∧ r'.acting = r.acting ∧ r'.poison = r.poison ∧ r'.refused = r.refused
            ∧ (∀ before z after, ts = before ++ z :: after → (∀ y ∈ after, y.lane ≠ z.lane) → r'.done.get? z.lane =
                some (BitVec.ofNat 64 (leNat ((before.foldl apply s1).readPiece z.piece))))
            ∧ (t.pairOf key).executed = number
            ∧ (s.classOf c.bid = 0 → ∀ k, (∀ z ∈ ts, k < z.piece.key ∨ z.piece.key + z.piece.len ≤ k) → t.mem.byte k = s.mem.byte k))
      ∧ (∀ u, ready → r.op = .rgn → ts = [u] → s.lanePoison u = none → s.classOf c.bid = 0 →
          ∀ g, s1.regionOf c.env r.header = .ok g → u.piece.len = 16 →
          (∀ p ∈ g.header, p.key + p.len ≤ u.piece.key ∨ u.piece.key + 16 ≤ p.key) → (∀ p ∈ g.header, p.len = 32) →
          (u.y.toNat % 2 ^ 32 < g.cells → ∀ neg m x, (fspec .f32).decode (u.x.toNat % 2 ^ 32) = .fin neg m x →
            ∃ (t : State) (q : Int), exec (.lockkeeperRequest wid pidx) s = .next t
              ∧ (q : ℚ) ≤ (if neg then -1 else 1) * (m : ℚ) * 2 ^ (x - g.anchor) ∧ (if neg then -1 else 1) * (m : ℚ) * 2 ^ (x - g.anchor) < q + 1
              ∧ t.mem.bytes u.piece.key 16 = leBytes 16 (BitVec.ofInt 128 ((BitVec.ofNat 128 (leNat (s.mem.bytes u.piece.key 16))).toInt + q)).toNat)
          ∧ (g.cells ≤ u.y.toNat % 2 ^ 32 → ∃ t v r', exec (.lockkeeperRequest wid pidx) s = .next t ∧ t.mem = s.mem ∧ t.warps.get? wid = some v
              ∧ ((v.path pidx).await.map (·.what)) = some (.atomic r') ∧ r'.refused = r.refused ||| maskOf (· == u.lane))))
    ∧ (∀ (s : State) (wid pidx : Nat) (c : Ctx) (r : AtomReq), s.awaiting wid pidx = some (c, .atomic r) → r.todo = [] → (∀ take, r.op ≠ .semw take) → r.diverged = none →
      let s' := if isAcquire r.ord then s.acquireAt (coreOf c.wid) r.mask else s
      (r.poison = 0 → r.gone = 0 → r.refused = 0 →
        (r.d.cls = .none → exec (.atomicResultReturn wid pidx) s = .next (s'.answered c c.w .none))
        ∧ (∀ n v, r.d.cls = .scalar → r.done = [(n, v)] →
            exec (.atomicResultReturn wid pidx) s = .next (s'.answered c (scalarResult c.w r.d (some v)).1 (scalarResult c.w r.d (some v)).2))
        ∧ (r.d.cls = .vector → (∀ l, l < 32 → (r.acting &&& c.w.present).getLsbD l = true → (r.done.get? l).isSome = true) →
            let out := vectorResult c.w r.d r.fmt r.acting fun l => r.done.getD l 0
            exec (.atomicResultReturn wid pidx) s = .next (s'.answered c out.1 out.2)))
      ∧ (∀ l m, r.d.cls = .vector → m = r.poison ||| r.gone → m.getLsbD l = true → (∀ k, k < l → m.getLsbD k = false) →
          let out := vectorResult c.w r.d r.fmt (r.acting &&& (~~~c.w.present ||| maskOf fun k => (r.done.get? k).isSome)) fun k => r.done.getD k 0
          exec (.atomicResultReturn wid pidx) s = .next (s'.answeredTrap { c with w := out.1 }
            ⟨0x51, if r.gone.getLsbD l then 0x03 else 0x00, BitVec.ofNat 64 (r.aims.getD l 0), m⟩))
      ∧ (∀ l, r.d.cls = .none → r.poison = 0 → r.gone = 0 → r.refused.getLsbD l = true → (∀ k, k < l → r.refused.getLsbD k = false) →
          exec (.atomicResultReturn wid pidx) s = .next (s'.answeredTrap c ⟨0x10, 0x0E, BitVec.ofNat 64 (r.aims.getD l 0), r.refused⟩)))

/-- Arrivals count, the last completes the phase and wakes its waiters, and a wait consumes the record of a done phase. Of an undivided warp
whose path acts and where no stream fault is due: a release arrival that earlier writes still hold parks; a count outside 1 to 1,024,
below the arrivals, or other than the one the phase has, raises 0x71 subcode 0x02. bara otherwise adds one arrival with its record
pending and goes on; the arrival that makes the count ends the phase: no arrivals, the next phase number, every pending record and every
parked waiter's done, waiting paths live. barw with its record done makes it none and goes on, and parks otherwise; bars does both
halves, keeps its arrival while it parks, and reissued only waits. Registers and memory stay. Another path with lanes raises 0x71 subcode
0x01, a due stream fault its trap. (spec/18 R383, spec/18 R385, spec/18 R386, spec/18 R387, spec/18 R388) -/
def Obligations.Barriers : Prop :=
  (∀ (s : State) (c : Ctx) (g : Guard) (k : Nat) (n : Src) (e : MExt), Issues s c → k < c.blk.bars.length → c.pidx < c.w.paths.length →
      checkLatch c g .sca n = .ok () →
      let b := c.blk.barrier k
      let me := c.w.index
      let count := (c.sca n).toNat
      let waitsFor : Prop := isRelease e.ord = true ∧ s.releasable c.wid (c.real g) e.mask = false
      let admits : Prop := 1 ≤ count ∧ count ≤ 1024 ∧ (b.n = 0 ∨ b.e = 0 ∨ b.e = count) ∧ b.n ≤ count
      let divided : Prop := ∃ i, i < 16 ∧ i ≠ c.pidx ∧ (c.w.path i).state ≠ .free ∧ (c.w.path i).mask ≠ 0
      let trap (i : Instr) (sub : Nat) : Prop :=
        exec i s = .next (s.takeTrap c.wid c.pidx ⟨0x71, sub, BitVec.ofNat 64 k, c.real g⟩ (unitOf c.p c.pre))
      let kept (t : State) : Prop := t.mem = s.mem ∧ t.stores = s.stores ∧ ∃ v, t.warps.get? c.wid = some v ∧ v.s = c.w.s ∧ v.v = c.w.v ∧ v.a = c.w.a ∧ v.p = c.w.p
      let goesOn (t : State) : Prop := ∃ v, t.warps.get? c.wid = some v ∧ (v.path c.pidx).state = .live ∧ (v.path c.pidx).pc = c.nextPc ∧ (v.path c.pidx).arrived = c.p.arrived
      let parks (t : State) (r : ParkReason) (at' : Option Word) : Prop := ∃ v, t.warps.get? c.wid = some v ∧ (v.path c.pidx).state = .parked r
        ∧ (v.path c.pidx).pc = c.p.pc ∧ (v.path c.pidx).waits = some k ∧ (v.path c.pidx).arrived = at'
      let after (t : State) (f : Barrier → Prop) : Prop := ∃ x, t.blocks.get? c.bid = some x ∧ f (x.barrier k) ∧ ∀ j, j ≠ k → x.barrier j = c.blk.barrier j
      let ended (mine : RecState) (x : Barrier) : Prop := x.e = count ∧ x.n = 0 ∧ x.ph = b.ph + 1 ∧ (x.record me).state = mine
        ∧ ∀ who, who ≠ me → (x.record who).state =
            (if (b.record who).state = .pending ∨ ((b.record who).state = .none ∧ who ∈ s.waitersOn c.bid k) then .done else (b.record who).state)
      let woken (t : State) : Prop := ∀ wid w i, s.warps.get? wid = some w → w.block = c.bid → wid ≠ c.wid → i < w.paths.length → (w.path i).waits = some k →
        (∃ r, (w.path i).state = .parked r) → ∃ v, t.warps.get? wid = some v ∧ (v.path i).state = .live ∧ (v.path i).pc = (w.path i).pc
      let fresh : Prop := c.once g = true ∧ ¬divided ∧ s.faultDue c.bid c.wid k = none ∧ c.p.arrived ≠ some c.p.pc
      (c.once g = false → exec (.bara g k n e) s = .next (s.skip c) ∧ exec (.barw g k e) s = .next (s.skip c)
          ∧ (c.p.arrived ≠ some c.p.pc → exec (.bars g k n e) s = .next (s.skip c)))
      ∧ (c.once g = true → divided → s.faultDue c.bid c.wid k = none → trap (.bara g k n e) 0x01 ∧ trap (.barw g k e) 0x01
          ∧ (c.p.arrived ≠ some c.p.pc → trap (.bars g k n e) 0x01))
      ∧ (fresh → waitsFor → ∀ i ∈ [Instr.bara g k n e, .bars g k n e], exec i s = .next (s.park c .barrier))
      ∧ (fresh → ¬waitsFor → ¬admits → trap (.bara g k n e) 0x02 ∧ trap (.bars g k n e) 0x02)
      ∧ (fresh → ¬waitsFor → admits → b.n + 1 < count →
          (∃ t, exec (.bara g k n e) s = .next t ∧ kept t ∧ goesOn t
            ∧ after t fun x => x.e = count ∧ x.n = b.n + 1 ∧ x.ph = b.ph ∧ x.record me = ⟨.pending, some b.ph.toNat⟩ ∧ ∀ who, who ≠ me → x.record who = b.record who)
          ∧ (∃ t, exec (.bars g k n e) s = .next t ∧ kept t ∧ parks t .barrierAfterArrival (some c.p.pc)
            ∧ after t fun x => x.e = count ∧ x.n = b.n + 1 ∧ x.ph = b.ph ∧ x.record me = ⟨.pending, some b.ph.toNat⟩ ∧ ∀ who, who ≠ me → x.record who = b.record who))
      ∧ (fresh → ¬waitsFor → admits → b.n + 1 = count →
          (∃ t, exec (.bara g k n e) s = .next t ∧ kept t ∧ goesOn t ∧ woken t ∧ after t (ended .done))
          ∧ (∃ t, exec (.bars g k n e) s = .next t ∧ kept t ∧ woken t ∧ after t (ended .none)
            ∧ ∃ v, t.warps.get? c.wid = some v ∧ (v.path c.pidx).pc = c.nextPc ∧ (v.path c.pidx).arrived = none))
      ∧ (∀ i, (i = .barw g k e ∧ c.once g = true ∧ ¬divided) ∨ (i = .bars g k n e ∧ c.p.arrived = some c.p.pc) → s.faultDue c.bid c.wid k = none →
          ((b.record me).state = .done → ∃ t, exec i s = .next t ∧ kept t
            ∧ (∃ v, t.warps.get? c.wid = some v ∧ (v.path c.pidx).pc = c.nextPc ∧ (v.path c.pidx).arrived = none)
            ∧ after t fun x => x.e = b.e ∧ x.n = b.n ∧ x.ph = b.ph ∧ x.record me = { b.record me with state := .none } ∧ ∀ who, who ≠ me → x.record who = b.record who)
          ∧ ((b.record me).state ≠ .done → ∃ t, exec i s = .next t ∧ kept t ∧ t.blocks = s.blocks
            ∧ (i = .barw g k e → i ≠ .bars g k n e → parks t .barrier none) ∧ (i = .bars g k n e → parks t .barrierAfterArrival (some c.p.pc))))
      ∧ (∀ f i, s.faultDue c.bid c.wid k = some f →
          (i = .barw g k e ∧ c.once g = true ∧ ¬divided) ∨ (i = .bars g k n e ∧ (c.p.arrived = some c.p.pc ∨ (c.once g = true ∧ ¬divided))) →
          exec i s = .next ((s.faultTaken c.bid c.wid k).takeTrap c.wid c.pidx ⟨f.cause, f.sub, f.data, c.real g⟩ (unitOf c.p c.pre))))

/-- Semaphores send a request and wait at their lockkeeper; mwait evaluates its condition; a fence waits for earlier writes. A semaphore
instruction that acts, checked, sends one request with its count: semp awaits its answer, semw parks. At its lockkeeper semw registers, a
take joining its location's queue. Its watch, at the address as it now translates, goes on once the value is at least the count; a take
only from the head of the queue, leaving the value less the count and every other byte as it was (class 0). mwait completes with 1 where
its condition holds, with 0 where it does not and the limit is 0, and parks otherwise; a reread that finds it true ends it with 1, the
passed limit with 0. fence parks while earlier writes hold its release; it changes only which core sees which write: a release shows what
it follows to the cores its mask reaches. Not acting, each only takes its place. (spec/18 R389, spec/18 R390, spec/18 R391, spec/18 R392,
spec/18 R394, spec/18 R395, spec/18 R396, spec/18 R398, spec/15 R354) -/
def Obligations.SemaphoresWaitsAndFences : Prop :=
  (∀ (s : State) (c : Ctx) (o : Mem) (op : AtomOp) (i : Instr), Issues s c → (op, i) ∈ [(AtomOp.semw false, Instr.semwTk o), (.semw true, .semwTake o), (.semp, .semp o)] →
      checkLatch c o.g .sca o.x = .ok () → c.pidx < c.w.paths.length →
      let fenced : Prop := s.scOpen c.wid (c.real o.g) = true ∨ (o.e.ord = .sc ∧ s.releasable c.wid (c.real o.g) o.e.mask = false)
      let ea : Int := (c.w.areg o.a).pointer.toNat + o.e.off
      (c.once o.g = false → exec i s = .next (s.skip c))
      ∧ (c.once o.g = true → op = .semw true → c.la.det = 3 → exec i s = .next (s.takeTrap c.wid c.pidx ⟨0x62, 0x00, 0, c.real o.g⟩ (unitOf c.p c.pre)))
      ∧ (∀ ys, c.once o.g = true → (op = .semw true → c.la.det = 0) →
          checkAtomic s c (c.w.areg o.a) (op ≠ .semw false) 8 (some (c.real o.g)) [((lanesOf (c.real o.g)).headD 0, ea)] = .ok ys →
          (fenced → exec i s = .next (s.park c .fence))
          ∧ (¬fenced → ∃ t v r, exec i s = .next t ∧ t.mem = s.mem ∧ t.warps.get? c.wid = some v
            ∧ (v.path c.pidx).await = some ⟨.atomic r, c.pre, (unitOf c.p c.pre).word, 0⟩
            ∧ (v.path c.pidx).state = (if op = .semp then .live else .parked .semaphore) ∧ (v.path c.pidx).pc = c.p.pc
            ∧ r.op = op ∧ r.acting = c.real o.g ∧ r.stands = false
            ∧ r.todo = (ys.flatMap fun y => y.2.2.map fun p => ⟨y.1, p, c.sca o.x, 0⟩)
            ∧ ∀ u ∈ r.todo, let pair := s.pairOf (pairKey (coreOf c.wid) (homeOf u.piece))
                r.seqs.get? (homeOf u.piece) = if 64 ≤ (pair.issued + 2 ^ 16 - pair.executed) % 2 ^ 16
                    ∨ s.pairWaits (coreOf c.wid) (homeOf u.piece) = true then none else some ((pair.issued + 1) % 2 ^ 16))))
    ∧ (∀ (s : State) (wid pidx : Nat) (c : Ctx) (r : AtomReq) (u : AtomLane) (take : Bool), s.requesting wid pidx = some (c, .atomic r) → r.op = .semw take →
      r.todo = [u] → r.stands = false → (r.seqs.get? (homeOf u.piece)).isSome = true → s.requestReady c r (homeOf u.piece) [u] = true →
      (take = true → s.contextRuns c.env.part = true → 1024 ≤ s.waitersAt (homeOf u.piece) → exec (.lockkeeperRequest wid pidx) s = .next s)
      ∧ ((take = true → s.waitersAt (homeOf u.piece) < 1024) → ∃ t v, exec (.lockkeeperRequest wid pidx) s = .next t ∧ t.mem = s.mem
          ∧ t.warps.get? wid = some v ∧ (v.path pidx).await.map (·.what) = some (.atomic { r with seqs := [], stands := true })
          ∧ (take = true → t.semQueues.getD u.piece.key [] = s.semQueues.getD u.piece.key [] ++ [(wid, pidx)]) ∧ (take = false → t.semQueues = s.semQueues)))
    ∧ (∀ (s : State) (wid pidx : Nat) (c : Ctx) (r : AtomReq) (u : AtomLane) (take : Bool), s.awaiting wid pidx = some (c, .atomic r) → r.op = .semw take →
      r.todo = [u] → r.stands = true → c.la.det = 0 →
      let v := leNat (s.readPiece u.piece)
      let turn : Prop := take = false ∨ (s.semQueues.getD u.piece.key []).head? = some (wid, pidx)
      let gone := s.leaveQueue u.piece.key c.wid c.pidx
      let ends (cause sub : Nat) : Prop := exec (.semaphoreWatchEval wid pidx) s =
        .next (gone.answeredTrap c ⟨cause, sub, BitVec.ofNat 64 (r.aims.getD u.lane 0), r.acting &&& c.w.present⟩)
      let stays : Prop := r.gone = 0 ∧ (∃ u', reAim s c r u = .ok u' ∧ u'.piece = u.piece)
      let held : Prop := s.heldFrom (some c.env.part) [u.piece] = true ∨ s.onItsWay [u.piece] = true
      let seen : Prop := stays ∧ ¬held ∧ s.lanePoison u = none
      (r.gone ≠ 0 → ends 0x51 0x03)
      ∧ (∀ cause sub, r.gone = 0 → reAim s c r u = .error (cause, sub) → ends cause sub)
      ∧ (∀ u', r.gone = 0 → reAim s c r u = .ok u' → u'.piece ≠ u.piece → exec (.semaphoreWatchEval wid pidx) s =
          .next (gone.setAtomic c { r with todo := [u'], stands := false, seqs := [] }))
      ∧ (∀ sub, stays → ¬held → s.lanePoison u = some sub → ends 0x51 sub)
      ∧ ((stays ∧ held) ∨ (seen ∧ (v < u.x.toNat ∨ ¬turn)) → exec (.semaphoreWatchEval wid pidx) s = .next s)
      ∧ (seen → u.x.toNat ≤ v → take = false →
          let t := s.noteReads c.env.part [u.piece]
          exec (.semaphoreWatchEval wid pidx) s =
            .next ((if isAcquire r.ord then t.acquireAt (coreOf c.wid) r.mask else t).answered c c.w .none))
      ∧ (seen → u.x.toNat ≤ v → take = true → turn → u.piece.len = 8 → s.classOf c.bid = 0 → pidx < c.w.paths.length →
          ∃ t w, exec (.semaphoreWatchEval wid pidx) s = .next t ∧ t.mem.bytes u.piece.key 8 = leBytes 8 (v - u.x.toNat)
            ∧ (∀ k, k < u.piece.key ∨ u.piece.key + 8 ≤ k → t.mem.byte k = s.mem.byte k)
            ∧ (∀ key xs, (key, xs) ∈ t.semQueues ↔ xs ≠ [] ∧ ∃ ys, (key, ys) ∈ s.semQueues ∧
                xs = if key = u.piece.key then ys.filter (· ≠ (wid, pidx)) else ys)
            ∧ t.warps.get? wid = some w ∧ (w.path pidx).state = .live ∧ (w.path pidx).pc = c.nextPc ∧ (w.path pidx).await = none ∧ w.s = c.w.s ∧ w.v = c.w.v))
    ∧ (∀ (k : WCond) (o : Mem),
      let size := accessBytes o.fmt
      let holds (v x : Nat) : Prop := match k with
        | .eq => v = x | .ne => v ≠ x | .ge => x ≤ v | .lt => v < x | .seq => v % 2 ^ 48 = x % 2 ^ 48 | .any => v &&& x ≠ 0
      let result (w : Warp) (d : Dst) (m : LaneMask) (x : Nat) : Warp × Place := match d.cls with
        | .predicate => predicateResult w d m (if x = 1 then BitVec.allOnes 32 else 0)
        | .scalar => scalarResult w d (some (BitVec.ofNat 64 x))
        | _ => (w, .none)
      (∀ (s : State) (c : Ctx), Issues s c → checkLatch c o.g .sca o.x = .ok () → checkLatch c o.g .sca o.y = .ok () →
        let a := c.w.areg o.a
        let ea : Int := a.pointer.toNat + o.e.off
        let limit := (c.sca o.y).toNat
        let aim : List Aim := [((lanesOf (c.real o.g)).headD 0, ea)]
        (c.once o.g = false → o.d.cls = .none → exec (.mwait k o) s = .next (s.skip c))
        ∧ (c.once o.g = false → o.d.cls = .scalar → exec (.mwait k o) s = .next (s.scalarDone c o.g o.d 0))
        ∧ (c.once o.g = false → o.d.cls = .predicate → exec (.mwait k o) s =
            .next (s.complete c (predicateResult c.w o.d 0 0).1 (predicateResult c.w o.d 0 0).2))
        ∧ (∀ ys, c.once o.g = true → a.perm.getLsbD 0 = true → checkRange s c.env a true false size (some (c.real o.g)) aim = .ok ys → ea % (size : Int) = 0 →
            watch s c true false (some (c.real o.g)) ys = .ok () → waitLines s ys = .ok () → (c.la.det = 0 ∨ 2 ^ 40 ≤ limit) →
            let fenced : Prop := s.scOpen c.wid (c.real o.g) = true ∨ (o.e.ord = .sc ∧ s.releasable c.wid (c.real o.g) o.e.mask = false)
            let pieces := ys.flatMap (·.2.2)
            let s1 := (if o.e.ord = .sc then s.fenceAt (coreOf c.wid) .sc o.e.mask else s).translated c.env (ys.map (·.2.1))
            let s2 := (s1.noteReads c.env.part pieces).sawAt (coreOf c.wid) o.e.mask pieces
            let s3 := if isAcquire o.e.ord then s2.acquireAt (coreOf c.wid) o.e.mask else s2
            let readable : Prop := s1.heldFrom (some c.env.part) pieces = false ∧ s1.mayRead c.wid (c.real o.g) pieces = true
            let view := s1.seenBy c.wid (c.real o.g) o.e.mask
            let v := leNat (view.readPieces pieces)
            let w := c.w.setAreg o.a (s.cachedRun c.env.part a ys)
            let x := (c.sca o.x).toNat % 2 ^ (8 * size)
            let r : MonitorReq := ⟨k, c.act o.g, none, o.d, o.fmt, ea.toNat, a.perm.getLsbD 2, o.e.ord, o.e.mask, c.sca o.x,
              if limit < 2 ^ 40 then some (s.cycle + limit) else none⟩
            let answers (t : State) : Prop := exec (.mwait k o) s = .next t
            (fenced → answers (s.park c .fence))
            ∧ (¬fenced → ¬readable → answers (s1.awaits c w (.parked .monitor) (.monitor r) 0))
            ∧ (∀ sub, ¬fenced → readable → view.poisonOf pieces = some sub →
                answers (s.takeTrap c.wid c.pidx ⟨0x51, sub, BitVec.ofNat 64 ea.toNat, c.real o.g⟩ (unitOf c.p c.pre)))
            ∧ (¬fenced → readable → view.poisonOf pieces = none →
                (holds v x → answers (s3.complete c (result w o.d (c.act o.g) 1).1 (result w o.d (c.act o.g) 1).2))
                ∧ (¬holds v x → limit = 0 → answers (s2.complete c (result w o.d (c.act o.g) 0).1 (result w o.d (c.act o.g) 0).2))
                ∧ (¬holds v x → limit ≠ 0 → answers (s2.awaits c w (.parked .monitor) (.monitor r) 0)))))
      ∧ (∀ (s : State) (wid pidx : Nat) (c : Ctx) (r : MonitorReq), s.awaiting wid pidx = some (c, .monitor r) → r.entry = none → r.cond = k → r.fmt = o.fmt →
        let lanes := r.acting &&& c.w.present
        let trap (t : State) (cause sub : Nat) : Prop :=
          exec (.mwaitReread wid pidx) s = .next (t.answeredTrap c ⟨cause, sub, BitVec.ofNat 64 r.aim, lanes⟩)
        (∀ cause sub, r.pieces s c.env = .error (cause, sub) → trap s cause sub)
        ∧ (∀ ps, r.pieces s c.env = .ok ps →
            let view := s.seenBy wid lanes r.mask
            let readable : Prop := s.heldFrom (some c.env.part) ps = false ∧ s.mayRead wid lanes ps = true
            let met : Prop := holds (leNat (view.readPieces ps)) (r.x.toNat % 2 ^ (8 * size))
            let s2 := (s.noteReads c.env.part ps).sawAt (coreOf wid) r.mask ps
            let s3 := if isAcquire r.ord then s2.acquireAt (coreOf wid) r.mask else s2
            (¬readable → exec (.mwaitReread wid pidx) s = .next s)
            ∧ (∀ sub, readable → view.poisonOf ps = some sub → trap s2 0x51 sub)
            ∧ (readable → view.poisonOf ps = none → ¬met → exec (.mwaitReread wid pidx) s = .next s2)
            ∧ (readable → view.poisonOf ps = none → met → (c.la.det = 0 ∨ r.deadline = none) →
                exec (.mwaitReread wid pidx) s = .next (s3.answered c (result c.w r.d r.acting 1).1 (result c.w r.d r.acting 1).2)))
        ∧ (∀ t, r.deadline = some t → s.cycle < t → exec (.mwaitTimeout wid pidx) s = .next s)
        ∧ (r.deadline = none → exec (.mwaitTimeout wid pidx) s = .next s)
        ∧ (∀ t, r.deadline = some t → t ≤ s.cycle → (∀ ps, r.pieces s c.env = .ok ps → s.heldFrom (some c.env.part) ps = false) →
            (c.la.det = 0 → exec (.mwaitTimeout wid pidx) s = .next (s.answered c (result c.w r.d r.acting 0).1 (result c.w r.d r.acting 0).2))
            ∧ (c.la.det = 3 → exec (.mwaitTimeout wid pidx) s = .next (s.answeredTrap c ⟨0x62, 0x00, 0, lanes⟩)))))
    ∧ (∀ (s : State) (c : Ctx) (g : Guard) (e : MExt), Issues s c →
      let waits : Prop := isRelease e.ord = true ∧ s.releasable c.wid (c.real g) e.mask = false
      let t := s.fenceAt (coreOf c.wid) e.ord e.mask
      (c.once g = false → exec (.fence g e) s = .next (s.skip c))
      ∧ (c.once g = true → waits → exec (.fence g e) s = .next (s.park c .fence))
      ∧ (c.once g = true → ¬waits → exec (.fence g e) s = .next (t.skip c))
      ∧ t = { s with hidden := t.hidden, clocks := t.clocks }
      ∧ (isRelease e.ord = true → ∀ h ∈ t.hidden, precedes h.clock (s.clockOf (.lane (coreOf c.wid))) = true →
          ∀ k, (reachCores e.mask (.lane (coreOf c.wid))).getLsbD k = true → h.visible.getLsbD k = true))

/-- A barge command is checked, accepted under the block's next number and holds its destination lines; cpyq reads its state. A command of a
path that does not act only takes its place. Another warp than the producer raises 0x20 subcode 0x00; a length past its limit 0x10
subcode 0x0D with that word; a copy's destination without wr or outside its register's bounds 0x11 subcode 0x01 or 0x10 subcode 0x00.
Checked, the path parks while 32 commands are open, then while its lanes' writes are not visible to the barges; otherwise the command is
accepted, queued, with the next sequence number in the destination, and every resident line of its destination is absent (SRAM) or owned.
No byte of memory changes. cpyq gives the state, status and bytes done of a kept command, else 0; cpycan asks every command it names that
has not ended to stop. (spec/14 R326, spec/14 R328, spec/14 R329, spec/14 R330, spec/14 R331, spec/14 R333, spec/14 R339, spec/14 R340) -/
def Obligations.BargeCommandIssue : Prop :=
  (∀ (s : State) (c : Ctx) (o : Copy) (op : CopyOp) (i : Instr) (rz : Bool), Issues s c →
      (op, i) ∈ [(CopyOp.copy, Instr.cpy o), (.gather, .cpys false o), (.scatter, .cpys true o), (.add o.fmt, .cpyadd o), (.bcast, .cpybc o),
        (.plane rz, .plane rz o), (.unplane rz o.fmt, .unplane rz o), (.fill, .cpyfill o)] →
      (o.d.cls = .scalar ∨ o.d.cls = .none) → c.pidx < c.w.paths.length →
      let real := c.real o.g
      let n := match op with | .copy => 2 | .bcast | .fill | .add _ => 3 | _ => 8
      let par := (List.range n).map fun j => c.w.sreg (o.k + j)
      let d := c.w.areg o.dst
      let r := c.w.areg o.src
      let dst : Int := d.pointer.toNat + o.e.off
      let at' := if op = .bcast then (ownOffset c.blk dst).getD (2 ^ 64) else dst.toNat
      let word (j : Nat) : Word := c.w.sreg (o.k + j)
      let cmd : CopyCmd := ⟨op, 0, c.w.index, at', r.pointer.toNat, par, (word (n - 1)).toNat, o.e.mask, r.perm.getLsbD 2, .queued, 0, [], 0, 0, 0, false, false, false, none, none, none, []⟩
      let trap (cause sub : Nat) (x : Word) : Prop := exec i s = .next (s.takeTrap c.wid c.pidx ⟨cause, sub, x, real⟩ (unitOf c.p c.pre))
      let producer : Prop := c.la.prodValid = true ∧ c.la.prodWarp = c.w.index
      (c.once o.g = false → (o.d.cls = .none → exec i s = .next (s.skip c)) ∧ (o.d.cls = .scalar → exec i s = .next (s.scalarDone c o.g o.d 0)))
      ∧ (c.once o.g = true → ¬producer → trap 0x20 0x00 0)
      ∧ (c.once o.g = true → producer → (op = .copy ∨ op = .fill) → 2 ^ 32 < (word 0).toNat → trap 0x10 0x0D (word 0))
      ∧ (c.once o.g = true → producer → op = .bcast → 2 ^ 21 < (word 0).toNat → trap 0x10 0x0D (word 0))
      ∧ (c.once o.g = true → producer → (∃ f, op = .add f) → (2 ^ 24 < (word 0).toNat → trap 0x10 0x0D (word 0))
          ∧ ((word 0).toNat ≤ 2 ^ 24 → 2 ^ 24 < (word 0).toNat + (word 1).toNat → trap 0x10 0x0D (word 1)))
      ∧ (c.once o.g = true → producer → op = .copy → 1 ≤ (word 0).toNat → (word 0).toNat ≤ 2 ^ 32 →
          (d.perm.getLsbD 1 = false → trap 0x11 0x01 (BitVec.ofInt 64 dst))
          ∧ (d.perm.getLsbD 1 = true → dst < d.base.toNat → trap 0x10 0x00 (BitVec.ofInt 64 dst))
          ∧ (d.perm.getLsbD 1 = true → (d.base.toNat : Int) ≤ dst → (d.limit.toNat : Int) < dst + (word 0).toNat →
              trap 0x10 0x00 (BitVec.ofInt 64 (dst + (word 0).toNat - 1))))
      ∧ (c.once o.g = true → producer → badParam c.blk cmd = none → (copyRanges cmd d r dst r.pointer.toNat).forM (checkCopyRange s c real) = .ok () →
          checkStamp real cmd.stamp = .ok () →
          let open' := (c.blk.copies.filter fun x => x.2.state ≠ .ended).length
          let seq := (c.blk.copySeq + 1) % 2 ^ 48
          let runs := s.receivers c.blk { cmd with seq := seq }
          (32 ≤ open' → exec i s = .next (s.park c .copyQueue))
          ∧ (open' < 32 → s.drainedFor c.wid real 0x08 = false → exec i s = .next (s.park c .fence))
          ∧ (open' < 32 → s.drainedFor c.wid real 0x08 = true → ∃ t b v x, exec i s = .next t ∧ t.mem = s.mem ∧ t.stores = s.stores
              ∧ t.blocks.get? c.bid = some b ∧ b.copySeq = seq ∧ b.copies.get? seq = some x ∧ x = { cmd with seq := seq, lines := x.lines }
              ∧ t.warps.get? c.wid = some v ∧ (v.path c.pidx).pc = c.nextPc
              ∧ v.s = (if o.d.cls = .scalar ∧ o.d.wb = true then c.w.s.set o.d.idx (BitVec.ofNat 64 seq) else c.w.s)
              ∧ (∀ l ∈ cmd.targetLines runs, ∀ p, s.placePiece c.env (128 * l) 32 = .ok p →
                  (l, p.piece.key / 128) ∈ x.lines ∧ (isSram p.piece.key = true → t.lineAbsent p.piece = true)
                  ∧ (isSram p.piece.key = false → t.lineOwned p.piece = true))
              ∧ (op = .copy ∨ op = .fill → ∀ l, l ∈ cmd.targetLines runs ↔
                  1 ≤ (word 0).toNat ∧ at' / 128 ≤ l ∧ l ≤ (at' + (word 0).toNat - 1) / 128))))
    ∧ (∀ (s : State) (c : Ctx) (g : Guard) (d : Dst) (q : Src), Issues s c → checkLatch c g .sca q = .ok () →
      let n := (c.sca q).toNat
      (c.blk.copies.get? n = none ∨ n + 64 ≤ c.blk.copySeq → exec (.cpyq g d q) s = .next (s.scalarDone c g d 0))
      ∧ (∀ x, c.blk.copies.get? n = some x → c.blk.copySeq < n + 64 →
          let code := match x.state with | .queued => 1 | .active => 2 | .ending => 2 | .waiting _ => 3 | .ended => 4
          exec (.cpyq g d q) s = .next (s.scalarDone c g d
            (BitVec.ofNat 64 (code * 2 ^ 60 + (if x.state = .ended then x.status else 0) * 2 ^ 32 + min x.done (2 ^ 32 - 1))))))
    ∧ (∀ (s : State) (c : Ctx) (g : Guard) (q : Src), Issues s c → checkLatch c g .sca q = .ok () → c.pidx < c.w.paths.length →
      let n := (c.sca q).toNat
      let producer : Prop := c.la.prodValid = true ∧ c.la.prodWarp = c.w.index
      let trap (cause : Nat) : Prop := exec (.cpycan g q) s = .next (s.takeTrap c.wid c.pidx ⟨cause, 0x00, 0, c.real g⟩ (unitOf c.p c.pre))
      (c.once g = false → exec (.cpycan g q) s = .next (s.skip c))
      ∧ (c.once g = true → ¬producer → trap 0x20) ∧ (c.once g = true → producer → c.la.det = 3 → trap 0x62)
      ∧ (c.once g = true → producer → c.la.det ≤ 1 → (∀ k x, (k, x) ∈ c.blk.copies → x.seq = k) → c.blk.copies.Pairwise (fun a b => a.1 < b.1) →
          ∃ t b, exec (.cpycan g q) s = .next t ∧ t.mem = s.mem ∧ t.blocks.get? c.bid = some b ∧ b.copySeq = c.blk.copySeq
            ∧ ∀ k x, c.blk.copies.get? k = some x →
              let named : Prop := (n = 0 ∨ n = k) ∧ x.state ≠ .ended ∧ x.state ≠ .ending ∧ ∀ w, x.state = .waiting w → w.stamp = false
              (named → b.copies.get? k = some { x with cancel := true }) ∧ (¬named → b.copies.get? k = some x)))

/-- A queued command becomes active in its turn, moves its bytes, and ends with its status and stamp. Of a block whose context runs, in a
launch without determinism: a queued command becomes active when its barge is free and earlier commands have given up its lines. An
active copy moves the bytes of the next source sector, a fill the pattern's bytes of the next destination sector, writing no other byte
for class 0, poison going with the data; each element of a cpyadd's next source sector adds its floor at the anchor to its cell; a move
that must wait changes only which lines the command holds. With every byte moved it begins to end with status 0, or 3 where poison was
carried; cancelled with 1; a peer gone with 0x0204, an unmapped slice with 0x0207; a missing translation makes it wait on a page request.
An ending command writes its stamp and has ended. Plane scales and integers are those of R338. Answers to page requests act by their
code. (spec/14 R332, spec/14 R335, spec/14 R337, spec/14 R338, spec/14 R340, spec/14 R341, spec/14 R342, spec/14 R343, spec/12 R301,
spec/12 R308, spec/14 R334) -/
def Obligations.BargeMoves : Prop :=
  (∀ (s : State) (bid seq : Nat) (cores : BitVec 512) (x : CopyCtx), s.mayIssue bid = true → s.copyOf bid seq = some x → x.la.det = 0 → x.cmd.seq = seq →
      let cmd := x.cmd
      let now (t : State) (f : CopyCmd → Prop) : Prop := ∃ b y, t.blocks.get? bid = some b ∧ b.copies.get? seq = some y ∧ f y
      let busy : Prop := ∃ k b j y, (k, b) ∈ s.blocks ∧ b.core = x.blk.core ∧ (j, y) ∈ b.copies ∧ j % 2 = seq % 2
        ∧ (y.state = .active ∨ y.state = .ending ∨ ∃ w, y.state = .waiting w)
      let blocked : Prop := ∃ l ∈ cmd.targetLines x.runs, ∃ j y, (j, y) ∈ x.blk.copies ∧ j < seq ∧ y.moving = true
        ∧ ((∃ m ∈ y.lines, m.1 = l ∨ some m.2 = (cmd.lines.find? (·.1 == l)).map (·.2)) ∨ y.stillWrites (s.receivers x.blk y) y.pos l = true)
      let u := cmd.unitAt x.runs cmd.pos
      let held := s.holdLines x.env cmd (u.writes.flatMap linesOf)
      let waits (rs ws : List Piece) : Prop := readWaits held.1 { x with cmd := held.2 } rs = true ∨ writeWaits held.1 { x with cmd := held.2 } u ws = true
      let moving : Prop := cmd.state = .active ∧ cmd.endWith = none ∧ cmd.cancelled = false ∧ cmd.pos < cmd.total
      (cmd.state = .queued → ¬busy → ¬blocked → ∃ t, exec (.commandActive bid seq) s = .next t ∧ t.mem = s.mem ∧ now t fun y => y = { cmd with state := .active })
      ∧ (cmd.state = .queued → busy ∨ blocked → exec (.commandActive bid seq) s = .next s)
      ∧ (∀ y : Placing, moving → (∀ f, cmd.op ≠ .add f) → placeUnit s x u = .ok y → waits y.reads.flatten (y.writes.flatten ++ y.header) →
          exec (.sectorMove bid ⟨seq, cores⟩) s = .next (held.1.setCopy bid held.2))
      ∧ (∀ ps qs, moving → (cmd.op = .copy ∨ cmd.op = .fill) → cmd.badRead = false → (cmd.op = .fill → ps = []) →
          let n := cmd.span cmd.pos
          (cmd.op = .copy → s.bargePieces x.env cmd.ex true false (cmd.src + cmd.pos, n) = .ok ps ∧ (ps.map (·.len)).sum = n) →
          s.bargePieces x.env false false true (cmd.dst + cmd.pos, n) = .ok qs → (qs.map (·.len)).sum = n → (∀ q ∈ qs, q.peer = none) → ¬waits ps qs →
          ∃ t, exec (.sectorMove bid ⟨seq, cores⟩) s = .next t
            ∧ (∀ before q after j, qs = before ++ q :: after → j < q.len → (∀ z ∈ after, q.key + j < z.key ∨ z.key + z.len ≤ q.key + j) →
                let i := (before.map (·.len)).sum + j
                t.mem.byte (q.key + j) = if cmd.op = .copy then nth (s.readPieces ps) i 0 else BitVec.ofNat 8 (cmd.arg 1 / 256 ^ ((cmd.pos + i) % 8)))
            ∧ (s.classOf bid = 0 → ∀ k, (∀ q ∈ qs, k < q.key ∨ q.key + q.len ≤ k) → t.mem.byte k = s.mem.byte k)
            ∧ ((∃ p ∈ ps, s.poisoned p = true) → ∀ q ∈ qs, q.host = none → holdsPoison q.key = true → t.poisoned q = true)
            ∧ now t fun y => y.pos = cmd.pos + n ∧ y.done = cmd.done + n ∧ y.state = .active ∧ y.poisoned = (cmd.poisoned || ps.any s.poisoned))
      ∧ (cmd.pos < cmd.arg 0 →
          (cmd.op = .copy → cmd.span cmd.pos = min (cmd.arg 0 - cmd.pos) (32 - (cmd.src + cmd.pos) % 32))
          ∧ (cmd.op = .fill → cmd.span cmd.pos = min (cmd.arg 0 - cmd.pos) (32 - (cmd.dst + cmd.pos) % 32)))
      ∧ (∀ f anchor cells rs qs hdr, moving → cmd.op = .add f → cmd.badRead = false → cmd.region = some (anchor, cells) → s.classOf bid = 0 →
          placeUnit s x u = .ok ⟨u, rs, qs.map fun q => [q], [hdr]⟩ → (∀ r ∈ rs, s.carriesPoison r = false) →
          (∀ q ∈ qs, q.len = 16 ∧ q.host = none ∧ hdr.key + 32 ≤ q.key) → qs.Pairwise (fun p q => p.key + 16 ≤ q.key ∨ q.key + 16 ≤ p.key) →
          ¬waits rs.flatten (qs ++ [hdr]) →
          ∃ t : State, exec (.sectorMove bid ⟨seq, cores⟩) s = .next t ∧ (now t fun y => y.pos = cmd.pos + cmd.span cmd.pos ∧ y.state = .active)
            ∧ ∀ (i : Nat) r q neg m e, rs[i]? = some r → qs[i]? = some q → (fspec f).decode (leNat (s.readPieces r)) = .fin neg m e → ∃ z : Int,
              (z : ℚ) ≤ (if neg then -1 else 1) * (m : ℚ) * 2 ^ (e - anchor) ∧ (if neg then -1 else 1) * (m : ℚ) * 2 ^ (e - anchor) < z + 1
              ∧ t.mem.bytes q.key 16 = leBytes 16 (BitVec.ofInt 128 ((BitVec.ofNat 128 (leNat (s.mem.bytes q.key 16))).toInt + z)).toNat)
      ∧ (∀ st, (cmd.cancel = true ∧ st = 0x0001 ∧ ((cmd.state = .active ∧ cmd.endWith = none) ∨ cmd.state = .queued ∨ ∃ r, cmd.state = .waiting r ∧ r.stamp = false))
            ∨ (cmd.state = .active ∧ cmd.endWith = none ∧ cmd.cancelled = false ∧ (∀ f, cmd.op = .add f → cmd.region ≠ none)
                ∧ cmd.total ≤ cmd.pos ∧ st = (if cmd.poisoned then 0x0003 else 0x0000)) →
          ∃ t, exec (.sectorMove bid ⟨seq, cores⟩) s = .next t ∧ t.mem = s.mem ∧ now t fun y => y.state = .ending ∧ y.status = st ∧ y.done = cmd.done ∧ y.lines = [])
      ∧ (∀ why, moving → (∀ f, cmd.op = .add f → cmd.region ≠ none) → placeUnit s x u = .error why →
          (why = .gone ∨ why = .unmapped → unitBefore s x = none → ∃ t, exec (.sectorMove bid ⟨seq, cores⟩) s = .next t ∧ t.mem = s.mem
              ∧ now t fun y => y.state = .ending ∧ y.status = (if why = .gone then 0x0204 else 0x0207))
          ∧ (∀ va wr, why = .fault va wr → ∃ t, exec (.sectorMove bid ⟨seq, cores⟩) s = .next t ∧ t.mem = s.mem
              ∧ now t fun y => ∃ sent, y.state = .waiting ⟨va / 2 ^ 19 * 2 ^ 19, wr, sent, s.cycle, false⟩ ∧ y.pos = cmd.pos
                ∧ (sent = true ↔ s.pageRequests = true ∧ s.requestsOut < 512)))
      ∧ (cmd.state = .ending → cmd.op ≠ .bcast →
          let ready (qs : List Piece) : Prop := (cmd.mask.getLsbD 5 = true → ∀ w ∈ s.unacked, w.copy ≠ some seq ∨ w.block ≠ bid)
            ∧ s.peersDone (.barge x.blk.core) (cmd.mask ||| 0x08) = true ∧ (∀ q ∈ qs, s.notLanded x.env.part q = false)
            ∧ s.heldFrom (some x.env.part) qs = false ∧ s.logFull bid qs = false
          (cmd.stamp = 0 → ready [] → ∃ t, exec (.copyEnd bid seq) s = .next t ∧ t.mem = s.mem ∧ now t fun y => y.state = .ended ∧ y.status = cmd.status)
          ∧ (∀ qs, cmd.stamp ≠ 0 → s.bargePieces x.env false false true (cmd.stamp, 8) = .ok qs → ¬ready qs → exec (.copyEnd bid seq) s = .next s)
          ∧ (∀ q, cmd.stamp ≠ 0 → s.bargePieces x.env false false true (cmd.stamp, 8) = .ok [q] → q.len = 8 → q.peer = none → ready [q] →
              ∃ t, exec (.copyEnd bid seq) s = .next t
              ∧ t.mem.bytes q.key 8 = leBytes 8 (cmd.status * 2 ^ 48 + seq) ∧ (s.classOf bid = 0 → ∀ k, k < q.key ∨ q.key + 8 ≤ k → t.mem.byte k = s.mem.byte k)
              ∧ now t fun y => y.state = .ended ∧ y.status = cmd.status)
          ∧ (∀ e, cmd.stamp ≠ 0 → s.bargePieces x.env false false true (cmd.stamp, 8) = .error e → e = .gone ∨ e = .unmapped → ∃ t, exec (.copyEnd bid seq) s = .next t
              ∧ t.mem = s.mem ∧ t.copyErrors.getD x.blk.core 0 = s.copyErrors.getD x.blk.core 0 + 1 ∧ now t fun y => y.state = .ended))
      ∧ (∀ r, cmd.state = .waiting r →
          (r.sent = false → s.pageRequests = true → s.requestsOut < 512 → r.from' ≤ s.cycle → ∃ t, exec (.pageRequestRetry bid seq) s = .next t ∧ t.mem = s.mem
              ∧ (now t fun y => y = { cmd with state := .waiting { r with sent := true } })
              ∧ t.outbox = .pageRequest ((s.parts.get? x.env.part).elim 0 (·.pasid)) r.addr r.write :: s.outbox)
          ∧ (cmd.cancelled = true → r.stamp = false → ∀ code, exec (.prgResponse bid seq code) s = .next s)
          ∧ (r.sent = true → r.stamp = false → cmd.cancelled = false → s.abandons bid = false → unitBefore s x = none →
              (nowResident s x r = true → ∃ t, exec (.prgResponse bid seq .success) s = .next t ∧ now t fun y => y = { cmd with state := .active, retries := 0 })
              ∧ (nowResident s x r = false → cmd.retries < 7 → ∃ t, exec (.prgResponse bid seq .success) s = .next t ∧ now t fun y =>
                  y = { cmd with retries := cmd.retries + 1, state := .waiting { r with sent := false, from' := s.cycle + 4096 } })
              ∧ (nowResident s x r = false → 7 ≤ cmd.retries → ∃ t, exec (.prgResponse bid seq .success) s = .next t ∧ now t fun y => y.state = .ending ∧ y.status = 0x0201)
              ∧ (∃ t, exec (.prgResponse bid seq .invalid) s = .next t ∧ t.pageRequests = s.pageRequests ∧ now t fun y => y.state = .ending ∧ y.status = 0x0202)
              ∧ (∃ t, exec (.prgResponse bid seq .failure) s = .next t ∧ t.pageRequests = false ∧ now t fun y => y.state = .ending ∧ y.status = 0x0203))))
    ∧ (∀ s : State, exec .pageRequestEnable s = .next { s with pageRequests := true })
    ∧ (∀ (rz : Bool) (p : Nat) (xs : List FVal), 2 ≤ p → p ≤ 24 → (∀ v ∈ xs, v.isNan = false ∧ v.isInf = false) →
      let value (v : FVal) : ℚ := match v with | .fin neg m e => (if neg then -1 else 1) * (m : ℚ) * 2 ^ e | _ => 0
      let out := planeSegment (if rz then .rz else .rne) p xs
      ((∀ v ∈ xs, value v = 0) → out = (127, xs.map fun _ => 0))
      ∧ (∀ E : Int, (∃ v ∈ xs, value v ≠ 0 ∧ (2 : ℚ) ^ E ≤ |value v|) → (∀ v ∈ xs, |value v| < (2 : ℚ) ^ (E + 1)) →
          (out.1 : Int) = max 0 (min 254 (E - p + 129)) ∧ out.2.length = xs.length
          ∧ ∀ (k : Nat) (v : FVal), xs[k]? = some v → ∃ z n : Int, out.2[k]? = some z ∧ z = max (-(2 ^ (p - 1))) (min n (2 ^ (p - 1) - 1))
            ∧ (rz = false → |(n : ℚ) - value v * 2 ^ (127 - (out.1 : Int))| ≤ 1 / 2)
            ∧ (rz = true → |(n : ℚ)| ≤ |value v * 2 ^ (127 - (out.1 : Int))| ∧ |value v * 2 ^ (127 - (out.1 : Int))| < |(n : ℚ)| + 1)))

/-- What each word of the matrix stream does on the stream, and that a warp which issues one traps. On a running stream (not on a drain
retry's walk): mzero makes its idle tile and column +0 and notes its place; mma reads its descriptors, stops in the order of R276 at the
first check that fails, and otherwise stands at work on its intervals; mstore reads its output descriptor once, then checks the tile, a
failing row stopping it (mode 0) or beginning a drain retry, and then writes the rows in its format as soon as every line of them is
there; a row fails exactly as R266 says; msig arrives; mwaitb goes on with a done record and waits otherwise; mloop counts its loop; mend
ends the stream, tiles staying. A busy tile makes its words wait. nop goes on; ximm hands its payload to the next word. A warp's word
stops the stream with 0x01 subcode 0x04, and a stream word issued by a warp raises it. (spec/11 R272, spec/11 R274, spec/11 R275, spec/11
R276, spec/11 R277, spec/11 R278, spec/11 R279, spec/11 R280, spec/11 R281, spec/10 R257, spec/10 R266, spec/10 R268) -/
def Obligations.MatrixStreamWords : Prop :=
  (∀ (s : State) (c : SCtx), StreamIssues s c →
      let kept (t : State) : Prop := t.warps = s.warps ∧ t.mem = s.mem ∧ t.stores = s.stores ∧ t.focus = none
      let mx (t : State) (f : Mx → Prop) : Prop := ∃ b, t.blocks.get? c.bid = some b ∧ f b.mx
      let next (m : MStream) (pc : Word) : Prop := m.pc = pc ∧ m.loops = c.m.loops ∧ m.work = c.m.work ∧ m.drain = none ∧ m.entering = false
      let onward (x : Mx) : Prop := ∃ m, x.stream = some m ∧ next m c.nextPc
      let stops (i : Instr) (cause sub : Nat) : Prop := ∃ t, exec i s = .next t ∧ kept t ∧ mx t fun x =>
        x.stopped = some ⟨cause, sub, c.m.pc, false⟩ ∧ x.fault.kind = 0 ∧ x.tiles = c.blk.mx.tiles ∧ x.sums = c.blk.mx.sums ∧ x.stream = some c.m
      (∀ (acc walk nk : Nat) (da db ks od : Nat) (f : Fmt), c.blk.mx.holds.contains acc = true →
        ∀ i ∈ [Instr.mzero acc, .mma walk acc da db ks nk, .mstore f acc od], exec i s = .next { s with focus := none })
      ∧ (∀ acc : Nat, acc < 8 → c.blk.mx.zaddr.length = 8 → c.blk.mx.zloops.length = 8 → c.blk.mx.holds.contains acc = false →
          ∃ t, exec (.mzero acc) s = .next t ∧ kept t ∧ mx t fun x => onward x ∧ x.tile acc = List.replicate 4096 0 ∧ x.column acc = List.replicate 64 0
            ∧ (∀ k, k ≠ acc → x.tile k = c.blk.mx.tile k ∧ x.column k = c.blk.mx.column k) ∧ nth x.zaddr acc 0 = c.m.pc
            ∧ nth x.zloops acc [] = c.m.loops ∧ x.flags = c.blk.mx.flags ∧ x.fault = c.blk.mx.fault)
      ∧ (∀ (acc walk nk : Nat) (da db ks : Nat), c.blk.mx.holds.contains acc = false →
          let i : Instr := .mma walk acc da db ks nk
          let base := ks + if walk = 0 then 0 else nth c.m.loops (walk - 1) 0 * nk
          (128 * c.blk.sramLen < 32 * da + 32 → stops i 0x31 0x05)
          ∧ (∀ a b, readOperand s c da = .ok a → readOperand s c db = .ok b →
            let P := 2 ^ a.lp
            let within (x len : Nat) : Prop := x % 128 = 0 ∧ 0x7E0000000000 ≤ x ∧ x + len ≤ 0x7E0000200000
            let bases (o : Operand) : Prop := within o.dbase (4 * o.kcount * o.p * o.m) ∧ within o.sbase (o.kcount / 2 ^ o.lp * o.m)
            let shape (o : Operand) : Prop := 64 ≤ o.m ∧ o.m ≤ 4096 ∧ o.m % 64 = 0 ∧ 1 ≤ o.p ∧ o.p ≤ 24 ∧ o.lp ≤ 15
            let rows (o : Operand) : Prop := o.row0 % 64 = 0 ∧ o.row0 + 64 ≤ o.m
            let c1 : Prop := bases a ∧ bases b
            let c2 : Prop := shape a ∧ shape b ∧ a.lp = b.lp
            let c3 : Prop := rows a ∧ rows b
            let c4 : Prop := base % P = 0 ∧ nk % P = 0 ∧ 1 ≤ nk ∧ nk ≤ 8192 ∧ base + nk ≤ a.kcount ∧ base + nk ≤ b.kcount
            let c5 : Prop := a.p + b.p + 5 + a.lp ≤ 62
            (¬c1 → stops i 0x31 0x01) ∧ (c1 → ¬c2 → stops i 0x31 0x02) ∧ (c1 → c2 → ¬c3 → stops i 0x31 0x04)
            ∧ (c1 → c2 → c3 → ¬c4 → stops i 0x31 0x03) ∧ (c1 → c2 → c3 → c4 → ¬c5 → stops i 0x32 0x00)
            ∧ (c1 → c2 → c3 → c4 → c5 → ∃ t, exec i s = .next t ∧ kept t ∧ mx t fun x => x.tiles = c.blk.mx.tiles ∧ x.stopped = none ∧
                x.stream = some { c.m with work := some ⟨acc, a, b, base / P, (base + nk) / P, base / P, 0, List.replicate 4096 0,
                  List.replicate 64 0, List.replicate 64 0, 0, false, 0, c.nextPc⟩ })))
      ∧ (∀ (f : Fmt) (acc od : Nat) (P : Nat → List Placed), f ∈ [Fmt.f32, .bf16, .f16, .e4m3, .e5m2] → c.blk.mx.holds.contains acc = false →
          let es := if f = .f32 then 4 else if f = .bf16 ∨ f = .f16 then 2 else 1
          let value (x : Lane) : Nat := if f = .f32 then x.toNat else ((fspec f).round rneOf ((fspec .f32).decode x.toNat).real).1
          let row (i : Nat) : List Byte := (List.range 64).flatMap fun j => leBytes es (value (nth (c.blk.mx.tile acc) (64 * i + j) 0))
          let ws := (List.range 64).flatMap fun i => cutBytes ((P i).map (·.piece)) (row i)
          let ps := ws.map (·.1)
          let s1 := if c.m.store = none then s.notedDescriptors c [od] else s
          let waits : Prop := (∃ p ∈ ps, s1.lineAbsent p = true ∨ s1.lineOwned p = true) ∨ s1.heldFrom (some c.env.part) ps = true ∨ s1.logFull c.bid ps = true
          let stored (o pitch : Nat) : Prop := (∀ i, i < 64 → s1.placeAll c.env (o + i * pitch) (64 * es) = .ok (P i)) →
            (waits → ∃ t, exec (.mstore f acc od) s = .next t ∧ kept t ∧ mx t fun x => x.stream = some { c.m with store := some (o, pitch, true) } ∧ x.tiles = c.blk.mx.tiles)
            ∧ (¬waits → ∃ t, exec (.mstore f acc od) s = .next t ∧ t.mem = (((s1.noteWrite c.bid ps).track c.bid ps).writePieces ws).mem
                ∧ mx t fun x => onward x ∧ x.tiles = c.blk.mx.tiles ∧ x.flags = c.blk.mx.flags)
          let checks (o pitch : Nat) : Prop := (c.m.checked = true ∨ c.blk.mx.failingRows acc f = [] → stored o pitch)
            ∧ (∀ r rest, c.m.checked = false → c.m.dtries = none → c.blk.mx.failingRows acc f = r :: rest →
              (c.blk.mx.policy = 0 → ∃ t, exec (.mstore f acc od) s = .next t ∧ kept t ∧ mx t fun x =>
                x.stopped = some ⟨0x30, 0x02, c.m.pc, false⟩ ∧ x.fault = ⟨3, acc, r, 0, 0, 0, 0⟩ ∧ x.tiles = c.blk.mx.tiles)
              ∧ (c.blk.mx.policy ≠ 0 → ∃ t, exec (.mstore f acc od) s = .next t ∧ kept t ∧ mx t fun x => x.tile acc = List.replicate 4096 0
                ∧ x.retries = min (c.blk.mx.retries + 1) 65535 ∧ ∃ m w, x.stream = some m ∧ m.pc = c.m.pc ∧ m.drain = some w ∧ w.tile = acc
                ∧ w.pc = nth c.blk.mx.zaddr acc 0 ∧ w.loops = nth c.blk.mx.zloops acc [0, 0, 0]))
          (c.blk.mx.tile acc).length = 4096 →
          (∀ bs, c.m.store = none → 32 * od + 32 ≤ 128 * c.blk.sramLen → s.engineRead c.env (0x7E0000000000 + 128 * c.blk.sramBase + 32 * od) 32 = .ok bs →
            let obase := fieldAt bs 0 8
            let pitch := fieldAt bs 8 4
            ((∃ i, 12 ≤ i ∧ i < 32 ∧ nth bs i 0 ≠ 0) → bs.length = 32 → stops (.mstore f acc od) 0x31 0x05)
            ∧ ((∀ i, 12 ≤ i → nth bs i 0 = 0) →
              let inside : Prop := obase % 32 = 0 ∧ 0x7E0000000000 ≤ obase ∧ obase + 63 * pitch + 64 * es ≤ 0x7E0000200000
              let pitched : Prop := pitch % 32 = 0 ∧ 64 * es ≤ pitch ∧ pitch ≤ 2 ^ 20
              (¬inside → stops (.mstore f acc od) 0x31 0x01) ∧ (inside → ¬pitched → stops (.mstore f acc od) 0x31 0x02)
              ∧ (inside → pitched → checks obase pitch)))
          ∧ (∀ o pitch, c.m.store = some (o, pitch, false) → checks o pitch) ∧ (∀ o pitch, c.m.store = some (o, pitch, true) → stored o pitch))
      ∧ (∀ k : Nat, k < c.blk.bars.length →
          let b := c.blk.barrier k
          let bar (t : State) (f : Barrier → Prop) : Prop := ∃ x, t.blocks.get? c.bid = some x ∧ f (x.barrier k)
          (b.n = 1024 → ∃ t, exec (.msig k) s = .next t ∧ kept t ∧ (mx t fun x => x.stopped = some ⟨0x71, 0x03, BitVec.ofNat 64 k, false⟩) ∧ bar t fun x => x = b)
          ∧ (b.n ≠ 1024 → (b.e = 0 ∨ b.n + 1 ≠ b.e) → ∃ t, exec (.msig k) s = .next t ∧ kept t ∧ mx t onward
              ∧ bar t fun x => x = { b with n := b.n + 1, recs := NMap.put b.recs 1000 ⟨.pending, some b.ph.toNat⟩ })
          ∧ (b.n ≠ 1024 → b.e ≠ 0 → b.n + 1 = b.e → ∃ t, exec (.msig k) s = .next t ∧ t.mem = s.mem ∧ mx t onward
              ∧ bar t fun x => x.n = 0 ∧ x.ph = b.ph + 1 ∧ x.e = b.e ∧ (x.record 1000).state = .done)
          ∧ ((b.record 1000).state = .done → ∃ t, exec (.mwaitb k) s = .next t ∧ kept t ∧ mx t onward
              ∧ bar t fun x => x.n = b.n ∧ x.ph = b.ph ∧ (x.record 1000).state = .none)
          ∧ ((b.record 1000).state ≠ .done → ∃ t, exec (.mwaitb k) s = .next t ∧ kept t ∧ (bar t fun x => x = b)
              ∧ mx t fun x => ∃ m, x.stream = some m ∧ m.pc = c.m.pc ∧ m.waits = some k ∧ k ∈ m.named))
      ∧ (∀ (k : Nat) (count o : Int), k < c.m.loops.length →
          let n := nth c.m.loops k 0 + 1
          ((n : Int) < count → ∀ target, branchTarget c.branchPc o = .ok target → s.checkTarget c.env target = .ok () →
            ∃ t, exec (.mloop k count o) s = .next t ∧ kept t ∧ mx t fun x => ∃ m, x.stream = some m ∧ m.pc = target ∧ m.loops = c.m.loops.set k n ∧ m.line = none)
          ∧ (count ≤ (n : Int) → ∃ t, exec (.mloop k count o) s = .next t ∧ kept t ∧ mx t fun x =>
              ∃ m, x.stream = some m ∧ m.pc = c.nextPc ∧ m.loops = c.m.loops.set k 0))
      ∧ (∃ t, exec .mend s = .next t ∧ t.mem = s.mem ∧ t.focus = none ∧ (t.engineOf c.blk.core).holder ≠ some c.bid
          ∧ mx t fun x => x.stream = none ∧ x.stopped = none ∧ x.tiles = c.blk.mx.tiles ∧ x.sums = c.blk.mx.sums ∧ x.zaddr = c.blk.mx.zaddr ∧ x.policy = c.blk.mx.policy)
      ∧ (∃ t, exec (.nop Guard.always) s = .next t ∧ kept t ∧ mx t onward) ∧ (∀ g, g ≠ Guard.always → stops (.nop g) 0x01 0x00)
      ∧ (∀ sel payload, c.pre = none →
          let w := (c.m.line.map fun l => l.word (pcSlot c.m.pc + 1)).getD 0
          (pcSlot c.m.pc ≠ 4 → decodeGoverned sel payload w ≠ .misuse →
            exec (.ximm sel payload) s = .next { s with focus := some (.stream c.bid (some (sel, payload))) })
          ∧ (pcSlot c.m.pc = 4 ∨ decodeGoverned sel payload w = .misuse → stops (.ximm sel payload) 0x01 0x03))
      ∧ (∀ (o : Alu) (rm : RMode) (m : Mem) (g : Guard) (y : Copy), ∀ i ∈ [Instr.iadd o, .sadd o, .fadd rm o, .ld .linear m, .st .linear m, .atadd m, .semp m, .cpy y, .fork g, .exit g, .join, .eret],
          stops i 0x01 0x04))
    ∧ (∀ (s : State) (c : Ctx) (walk acc nk k : Nat) (da db ks od b count o : Int) (f : Fmt), Issues s c →
      ∀ i ∈ [Instr.mma walk acc da db ks nk, .mzero acc, .mstore f acc od, .msig b, .mwaitb b, .mloop k count o, .mend],
        exec i s = .next (s.takeTrap c.wid c.pidx ⟨0x01, 0x04, 0, c.p.mask⟩ (unitOf c.p c.pre)))
    ∧ (∀ (x : Mx) (acc i : Nat) (f : Fmt), f ∈ [Fmt.f32, .bf16, .f16, .e4m3, .e5m2] → i < 64 → (x.tile acc).length = 4096 → (x.column acc).length = 64 →
      let real (v : FVal) : Option ℚ := match v with | .fin neg m e => some ((if neg then -1 else 1) * (m : ℚ) * 2 ^ e) | _ => none
      let cell (j : Nat) : Lane := nth (x.tile acc) (64 * i + j) 0
      let col : Lane := nth (x.column acc) i 0
      let out (v : Lane) : FVal := (fspec f).decode (if f = .f32 then v.toNat else ((fspec f).round rneOf ((fspec .f32).decode v.toNat).real).1)
      let tol := nth x.tols (if f = .f32 then 0 else if f = .bf16 then 1 else if f = .f16 then 2 else if f = .e4m3 then 3 else 4) 0
      ∀ tau, real ((fspec .f32).decode tol.toNat) = some tau → 0 ≤ tau →
      (i ∈ x.failingRows acc f ↔ ∃ (o : Nat → ℚ) (u : ℚ), (∀ j, j < 64 → real ((fspec .f32).decode (cell j).toNat) ≠ none ∧ real (out (cell j)) = some (o j))
        ∧ real ((fspec .f32).decode col.toNat) ≠ none ∧ real (out col) = some u
        ∧ tau * (((List.range 64).map fun j => |o j|).sum + |u|) < |((List.range 64).map o).sum - u|))

/-- The array sums exact inner products with agreeing checksums, and a single cell error is corrected without trace. A free array goes to the
next block slot after the last served, its context in a bank. A k-step adds to every cell the exact inner product of the elements of its
planes, and to the checksum cells what keeps them agreeing. The last k-step of an interval without error promotes every cell, each value
and sum rounded to f32, and goes on with the next interval, or past the mma with the tile held and the array free. One wrong cell stops
the stream with kind single and its syndrome (mode 0), is computed again (mode 2), or is corrected (modes 1 and 3): the state is then
that without the error but for one more fix. A recomputed interval that agrees is promoted; a second failed retry stops with 0x33, or
asks for the rollback that the context wants in its place. Drain retries, holds and stream faults end as the rules say. (spec/10 R255,
spec/10 R256, spec/10 R259, spec/10 R262, spec/10 R263, spec/10 R265, spec/10 R268, spec/10 R270) -/
def Obligations.MatrixEngineSteps : Prop :=
  (∀ (s : State) (core bid slot : Nat), (s.engineOf core).holder = none → (slot, bid) ∈ s.readyStreams core →
      (∀ x ∈ s.readyStreams core, (s.streamOf x.2 none).isSome = true ∧ (x.1 = slot → x = (slot, bid))) →
      let last := (s.engineOf core).last
      ((last < slot ∧ ∀ x ∈ s.readyStreams core, last < x.1 → slot ≤ x.1) ∨ (∀ x ∈ s.readyStreams core, x.1 ≤ last ∧ slot ≤ x.1)) →
      (((s.engineOf core).banks.length ≤ 1 ∧ (s.engineOf core).area.get? bid = none) ∨ bid ∈ (s.engineOf core).banks) →
      ∃ t, exec (.arrayGrant core) s = .next t ∧ (t.engineOf core).holder = some bid ∧ (t.engineOf core).last = slot
        ∧ bid ∈ (t.engineOf core).banks ∧ (∀ b ∈ (s.engineOf core).banks, b ∈ (t.engineOf core).banks) ∧ t = { s with engines := t.engines })
    ∧ (∀ (s : State) (core bid : Nat) (c : SCtx) (w : MWork) (wa wb : List (List Nat)), (s.engineOf core).holder = some bid → s.mayIssue bid = true →
      s.streamOf bid none = some c → c.blk.core = core → c.m.doing = some w → w.k < 2 ^ w.a.lp → w.sums.length = 4096 → w.col.length = 64 → w.row.length = 64 →
      s.readStep c.env w.a (w.g * 2 ^ w.a.lp + w.k) = .ok wa → s.readStep c.env w.b (w.g * 2 ^ w.a.lp + w.k) = .ok wb → 1 ≤ wa.length → 1 ≤ wb.length →
      s.operandFault c [w.a, w.b] (w.g * 2 ^ w.a.lp + w.k) = none →
      let s1 := s.notedStep c.env [w.a, w.b] (w.g * 2 ^ w.a.lp + w.k)
      let el (ws : List (List Nat)) (r x : Nat) : Int :=
        (BitVec.ofNat ws.length ((List.range ws.length).map fun q => if (nth (nth ws q []) r 0).testBit x then 2 ^ q else 0).sum).toInt
      let dot (i j : Nat) : Int := ((List.range 32).map fun x => el wa i x * el wb j x).sum
      let mx (t : State) (f : Mx → Prop) : Prop := ∃ b, t.blocks.get? bid = some b ∧ f b.mx
      let stepped (w' : MWork) : Prop := w' = { w with k := w.k + 1, sums := w'.sums, col := w'.col, row := w'.row, corner := w'.corner }
        ∧ (∀ i j, i < 64 → j < 64 → nth w'.sums (64 * i + j) 0 = nth w.sums (64 * i + j) 0 + dot i j)
        ∧ (w.Agrees → w'.Agrees)
      let doing (t : State) (f : MWork → Prop) : Prop := mx t fun x => ∃ m v, x.stream = some m ∧ m.doing = some v ∧ m.place = c.m.place ∧ f v
      (w.k + 1 < 2 ^ w.a.lp → ∃ t, exec (.mmaKstep core []) s = .next t ∧ t.mem = s.mem ∧ t.warps = s.warps ∧ t.engines = s.engines
          ∧ doing t stepped ∧ mx t fun x => x.tiles = c.blk.mx.tiles ∧ x.stopped = c.blk.mx.stopped)
      ∧ (∀ xa xb, w.k + 1 = 2 ^ w.a.lp → w.retry = false → w.Agrees → s1.readScales c.env w.a w.g = .ok xa → s1.readScales c.env w.b w.g = .ok xb →
          let old := c.blk.mx.tile w.tile
          let cell (i j : Nat) : Lane := BitVec.ofNat 32 (addF32 (nth old (64 * i + j) 0).toNat
            (scaledSum (nth w.sums (64 * i + j) 0 + dot i j) (nth xa i 0) (nth xb j 0)).1).1
          (∃ t0, exec (.mmaKstep core []) s = .next t0 ∧ t0.mem = s.mem ∧ t0.warps = s.warps
            ∧ (mx t0 fun x => (∀ i j, i < 64 → j < 64 → nth (x.tile w.tile) (64 * i + j) 0 = cell i j) ∧ (∀ k, k ≠ w.tile → x.tile k = c.blk.mx.tile k))
            ∧ (w.g + 1 < w.last → doing t0 fun v => v = { w.cleared with g := w.g + 1, retry := false, tries := 0 })
            ∧ (w.last ≤ w.g + 1 → (t0.engineOf core).holder = none ∧ mx t0 fun x => (w.g + 1 = w.last → w.tile ∈ x.holds)
                ∧ ∃ m, x.stream = some m ∧ m.doing = none ∧ m.place = w.next)
            ∧ ∀ (i j : Nat) (d : Int), i < 64 → j < 64 → d ≠ 0 →
              let v : Int := nth w.sums (64 * i + j) 0 + dot i j
              (-2 ^ 63 : Int) ≤ v → v < 2 ^ 63 → (-2 ^ 63 : Int) ≤ v + d → v + d < 2 ^ 63 →
              (c.blk.mx.policy = 1 ∨ c.blk.mx.policy = 3 → exec (.mmaKstep core [⟨i, j, d⟩]) s = .next (t0.setMx bid fun x => { x with fixes := min (x.fixes + 1) 65535 }))
              ∧ (c.blk.mx.policy = 0 → ∃ t, exec (.mmaKstep core [⟨i, j, d⟩]) s = .next t ∧ (t.engineOf core).holder = none ∧ mx t fun x =>
                  x.stopped = some ⟨0x30, 0x00, c.m.place, false⟩ ∧ x.fault = ⟨1, w.tile, i, j, 0, w.g - w.first, BitVec.ofInt 64 d⟩ ∧ x.tiles = c.blk.mx.tiles)
              ∧ (c.blk.mx.policy = 2 → ∃ t, exec (.mmaKstep core [⟨i, j, d⟩]) s = .next t ∧ (mx t fun x => x.retries = min (c.blk.mx.retries + 1) 65535 ∧ x.tiles = c.blk.mx.tiles)
                  ∧ doing t fun v => v = { w.cleared with retry := true, tries := 0 }))))
    ∧ (∀ (s : State) (core bid : Nat) (c : SCtx) (w : MWork), (s.engineOf core).holder = some bid → s.mayIssue bid = true → s.streamOf bid none = some c →
      c.blk.core = core → c.m.doing = some w → w.retry = true → w.k = 2 ^ w.a.lp →
      let mx (t : State) (f : Mx → Prop) : Prop := ∃ b, t.blocks.get? bid = some b ∧ f b.mx
      (∀ xa xb, w.Agrees → s.readScales c.env w.a w.g = .ok xa → s.readScales c.env w.b w.g = .ok xb →
        ∃ t, exec (.intervalRetryDone core) s = .next t ∧ mx t fun x => ∀ i j, i < 64 → j < 64 → nth (x.tile w.tile) (64 * i + j) 0 =
          BitVec.ofNat 32 (addF32 (nth (c.blk.mx.tile w.tile) (64 * i + j) 0).toNat (scaledSum (nth w.sums (64 * i + j) 0) (nth xa i 0) (nth xb j 0)).1).1)
      ∧ (w.check ≠ .pass → w.tries = 0 → ∃ t, exec (.intervalRetryDone core) s = .next t ∧ mx t fun x => x.tiles = c.blk.mx.tiles
          ∧ x.retries = min (c.blk.mx.retries + 1) 65535 ∧ ∃ m, x.stream = some m ∧ m.doing = some { w.cleared with retry := true, tries := 1 })
      ∧ (w.check ≠ .pass → 1 ≤ w.tries → s.rollsBack (partOfLaunch c.lid) (s.classOf bid) 0x33 0x00 [] = none →
        ∃ t, exec (.intervalRetryDone core) s = .next t ∧ (t.engineOf core).holder = none ∧ mx t fun x => x.tiles = c.blk.mx.tiles
          ∧ x.stopped = some ⟨0x33, 0x00, c.m.place, false⟩ ∧ x.fault.tries = 2)
      ∧ (w.check ≠ .pass → 1 ≤ w.tries → s.rollsBack (partOfLaunch c.lid) (s.classOf bid) 0x33 0x00 [] ≠ none →
        ∃ t pt, exec (.intervalRetryDone core) s = .next t ∧ (mx t fun x => x.tiles = c.blk.mx.tiles ∧ x.stopped = c.blk.mx.stopped)
          ∧ t.parts.get? (partOfLaunch c.lid) = some pt ∧ pt.ck.due = true))
    ∧ (∀ w : MWork, w.sums.length = 4096 → w.col.length = 64 → w.row.length = 64 →
      let rowErr (i : Nat) : Int := ((List.range 64).map fun j => nth w.sums (64 * i + j) 0).sum - nth w.col i 0
      let colErr (j : Nat) : Int := ((List.range 64).map fun i => nth w.sums (64 * i + j) 0).sum - nth w.row j 0
      (w.check = .pass ↔ w.Agrees)
      ∧ ∀ i j d, w.check = .single i j d ↔ i < 64 ∧ j < 64 ∧ d ≠ 0 ∧ rowErr i = d ∧ colErr j = d ∧ w.sums.sum - w.corner = d
          ∧ (∀ k, k < 64 → k ≠ i → rowErr k = 0) ∧ ∀ k, k < 64 → k ≠ j → colErr k = 0)
    ∧ (∀ (s : State) (bid : Nat) (c : SCtx) (w : Walk), s.streamOf bid none = some c → c.m.drain = some w → w.pc = c.m.pc → w.loops = c.m.loops → w.ends = 0 →
      c.blk.mx.stopped = none → s.mayIssue bid = true → ∃ t b, exec (.drainRetryDone bid) s = .next t ∧ t.mem = s.mem ∧ t.blocks.get? bid = some b
        ∧ b.mx.stream = some { c.m with drain := none, line := none, dtries := some w.tries })
    ∧ (∀ (s : State) (bid tile : Nat) (b : Block), s.blocks.get? bid = some b → ∃ t b', exec (.promotionHoldEnd bid tile) s = .next t ∧ t.mem = s.mem
      ∧ t.blocks.get? bid = some b' ∧ (∀ k, k ∈ b'.mx.holds ↔ k ∈ b.mx.holds ∧ k ≠ tile) ∧ b'.mx.tiles = b.mx.tiles)
    ∧ (∀ (s : State) (bid wid i k : Nat) (w : Warp) (f : StreamStop), s.mayIssue bid = true → (wid, w) ∈ s.liveWarps bid → i < 16 → (w.path i).waitsOn k = true →
      s.faultDue bid wid k = some f →
      (∀ wid' v i' k', (wid', v) ∈ s.liveWarps bid → i' < 16 → (v.path i').waitsOn k' = true → (s.faultDue bid wid' k').isSome = true → wid' = wid ∧ v = w ∧ i' = i) →
      exec (.streamFaultDelivery bid) s = .next { (((s.faultTaken bid wid k).setPath wid i fun p => { p with state := .live, waits := none }).takeTrap wid i
        ⟨f.cause, f.sub, f.data, waitLanes w (w.path i)⟩ (unitOf (w.path i) none)) with focus := s.focus })

/-- fork starts the stream, the matrix registers read and write as their fields say, and a stopped stream is fixed, retried, resumed or
abandoned. fork without a stream entry raises 0x31 subcode 0x00, parks while a stream runs or stands stopped or another fork comes first,
waits for the path's writes, and starts the stream at its entry with zero counters and this warp as its forker. mrd reads every register;
mwr writes mode, clears flags and sets tolerances, 0x11 subcode 0x09 for a register without a writable field and 0x0C for reserved bits
or a bad tolerance; mtol writes its format's; mstat and mstat.clr read one view, the second clearing the flags; mchk waits for an idle
tile and gives the mask of its failing rows; mloc names a pending single error. The fault instructions need a stopped stream of the kinds
R288 allows (else 0x31 subcode 0x08) and clear pend. Where no lane acts each only takes its place. (spec/10 R267, spec/10 R268, spec/11
R282, spec/11 R283, spec/11 R284, spec/11 R285, spec/11 R286, spec/11 R287, spec/11 R288) -/
def Obligations.MatrixControl : Prop :=
  (∀ (s : State) (c : Ctx) (g : Guard), Issues s c → c.pidx < c.w.paths.length →
      let x := c.blk.mx
      let trap (i : Instr) (cause sub : Nat) : Prop := exec i s = .next (s.takeTrap c.wid c.pidx ⟨cause, sub, 0, c.real g⟩ (unitOf c.p c.pre))
      let writes (i : Instr) (f : Mx → Prop) : Prop := ∃ t b v, exec i s = .next t ∧ t.mem = s.mem ∧ t.blocks.get? c.bid = some b ∧ f b.mx
        ∧ b = { c.blk with mx := b.mx, retired := c.blk.retired + 1 } ∧ t.warps.get? c.wid = some v ∧ (v.path c.pidx).pc = c.nextPc ∧ v.s = c.w.s ∧ v.v = c.w.v
      (c.once g = false → ∀ (v : Src) (n : Nat) (f : Fmt), checkLatch c g .sca v = .ok () →
          ∀ i ∈ [Instr.fork g, .mwr g n v, .mtol g f v, .mfix g v, .mretry g, .mresume g, .mresumeAbandon g], exec i s = .next (s.skip c))
      ∧ (c.once g = true → c.la.streamEntry = 0 → trap (.fork g) 0x31 0x00)
      ∧ (let turn : Prop := x.stream = none ∧ (∀ w, x.granted = some w → (w.1 = c.w.index ∧ w.2.1 = c.pidx) ∨ s.forkGranted c.bid w = false)
            ∧ (x.granted = none → s.forkAhead c = false)
         (c.once g = true → c.la.streamEntry ≠ 0 → ¬turn → exec (.fork g) s = .next (s.park c .stream))
         ∧ (c.once g = true → c.la.streamEntry ≠ 0 → turn → s.releasable c.wid c.p.mask 0x11 = false → exec (.fork g) s = .next (s.park c .fence))
         ∧ (c.once g = true → c.la.streamEntry ≠ 0 → turn → s.releasable c.wid c.p.mask 0x11 = true → writes (.fork g) fun y =>
          y.granted = none ∧ y.forker = c.w.index ∧ y.tiles = x.tiles ∧ y.zaddr = x.zaddr ∧ y.policy = x.policy ∧ ∃ m, y.stream = some m ∧ m.pc = c.la.streamEntry ∧ m.loops = [0, 0, 0]
            ∧ m.waits = none ∧ m.work = none ∧ m.named = []))
      ∧ (∀ (d : Dst) (n : Nat),
          let value : Word := BitVec.ofNat 64 (if n = 0 then x.policy
            else if n = 1 then x.retries * 2 ^ 48 + x.fixes * 2 ^ 32 + (if x.stopped = none then 0 else 2 ^ 8) + x.flags.toNat
            else if n = 2 then x.fault.kind * 2 ^ 62 + x.fault.tile * 2 ^ 59 + x.fault.row * 2 ^ 53 + x.fault.col * 2 ^ 47 + x.fault.tries * 2 ^ 45 + x.fault.interval
            else if n = 3 then x.fault.syndrome.toNat
            else if 8 ≤ n ∧ n ≤ 12 then (nth x.tols (n - 8) 0).toNat else (nth x.zaddr (n - 16) 0).toNat)
          exec (.mrd g d n) s = .next (s.scalarDone c g d value))
      ∧ (∀ (n : Nat) (v : Src), c.once g = true → checkLatch c g .sca v = .ok () →
          let y := c.sca v
          let finite : Prop := y.toNat < 2 ^ 31 ∧ y.toNat / 2 ^ 23 ≠ 255 ∨ y.toNat = 2 ^ 31
          (n = 0 → 3 < y.toNat → trap (.mwr g n v) 0x11 0x0C) ∧ (n = 0 → y.toNat ≤ 3 → writes (.mwr g n v) fun z => z = { x with policy := y.toNat })
          ∧ (n = 1 → (y.toNat / 2 ^ 9 % 2 ^ 23 ≠ 0 ∨ y.toNat / 2 ^ 4 % 2 ^ 4 ≠ 0) → trap (.mwr g n v) 0x11 0x0C)
          ∧ (n = 1 → y.toNat / 2 ^ 9 % 2 ^ 23 = 0 → y.toNat / 2 ^ 4 % 2 ^ 4 = 0 → writes (.mwr g n v) fun z => z = { x with flags := z.flags }
              ∧ ∀ k, k < 4 → z.flags.getLsbD k = (x.flags.getLsbD k && !y.getLsbD k))
          ∧ (8 ≤ n → n ≤ 12 → ¬finite → trap (.mwr g n v) 0x11 0x0C)
          ∧ (8 ≤ n → n ≤ 12 → finite → writes (.mwr g n v) fun z => z = { x with tols := x.tols.set (n - 8) (y.extractLsb' 0 32) })
          ∧ (n = 2 ∨ n = 3 ∨ (4 ≤ n ∧ n < 8) ∨ 12 < n → trap (.mwr g n v) 0x11 0x09)
          ∧ (∀ f k, (f, k) ∈ [(Fmt.f32, 0), (.bf16, 1), (.f16, 2), (.e4m3, 3), (.e5m2, 4)] → (y.toNat % 2 ^ 32 < 2 ^ 31 ∧ y.toNat % 2 ^ 32 / 2 ^ 23 ≠ 255) →
              writes (.mtol g f v) fun z => z = { x with tols := x.tols.set k (y.extractLsb' 0 32) }))
      ∧ (∀ d : Dst,
          let view : Word := BitVec.ofNat 64 ((if x.stream = none then 0 else 2 ^ 63) + (if x.stopped = none then 0 else 2 ^ 62) + x.fault.kind * 2 ^ 60
            + x.fault.tile * 2 ^ 57 + x.forker * 2 ^ 52 + x.flags.toNat)
          exec (.mstat g d) s = .next (s.scalarDone c g d view)
          ∧ (c.once g = true → exec (.mstatClr g d) s = .next ((s.setMx c.bid fun y => { y with flags := 0 }).scalarDone c g d view))
          ∧ (c.once g = false → exec (.mstatClr g d) s = .next (s.scalarDone c g d view))
          ∧ exec (.mloc g d) s = .next (s.scalarDone c g d (if x.stopped ≠ none ∧ x.fault.kind = 1 then
              BitVec.ofNat 64 (2 ^ 15 + x.fault.tile * 2 ^ 12 + x.fault.row * 2 ^ 6 + x.fault.col) else BitVec.allOnes 64)))
      ∧ (∀ (d : Dst) (f : Fmt) (acc : Nat),
          let idle : Prop := acc ∉ x.holds ∧ ∀ m w, x.stream = some m → m.doing = some w → w.tile ≠ acc
          (c.once g = false → exec (.mchk g f d acc) s = .next (s.scalarDone c g d 0))
          ∧ (c.once g = true → ¬idle → exec (.mchk g f d acc) s = .next (s.park c .stream))
          ∧ (c.once g = true → idle → ∃ y : Word, exec (.mchk g f d acc) s = .next (s.scalarDone c g d y)
              ∧ ∀ i, i < 64 → (y.getLsbD i = true ↔ i ∈ x.failingRows acc f))))
    ∧ (∀ (s : State) (c : Ctx) (g : Guard) (v : Src), Issues s c → c.once g = true → checkLatch c g .sca v = .ok () →
      let x := c.blk.mx
      let k := x.fault.kind
      let refused (i : Instr) : Prop := exec i s = .next (s.takeTrap c.wid c.pidx ⟨0x31, 0x08, 0, c.real g⟩ (unitOf c.p c.pre))
      let here (i : Instr) (f : State → Mx → Prop) : Prop := ∃ t b, exec i s = .next t ∧ t.mem = s.mem ∧ t.blocks.get? c.bid = some b ∧ b.mx.stopped = none ∧ f t b.mx
      (x.stream = none ∨ x.stopped = none → ∀ i ∈ [Instr.mretry g, .mresume g, .mresumeAbandon g], refused i)
      ∧ (∀ (m : MStream) (f : StreamStop), x.stream = some m → x.stopped = some f →
        (k ≠ 0 → k ≠ 3 → refused (.mresume g))
        ∧ (k = 0 → f.cause ≠ 0x51 → m.drain = none → here (.mresume g) fun _ y => y.fault = { x.fault with kind := 0 } ∧ y.tiles = x.tiles
            ∧ y.stream = some { m with work := none, line := none, store := none })
        ∧ (∀ w, k = 0 → f.cause = 0x51 → m.doing = some w → here (.mresume g) fun _ y => y.tiles = x.tiles
            ∧ ∃ m', y.stream = some m' ∧ m'.place = m.place ∧ m'.doing = some { w with k := 0, sums := List.replicate 4096 0, col := List.replicate 64 0, row := List.replicate 64 0, corner := 0 })
        ∧ (k = 3 → here (.mresume g) fun _ y => y.fault.kind = 0 ∧ y.tiles = x.tiles ∧ y.stream = some { m with checked := true, dtries := none })
        ∧ (∀ w, (k = 1 ∨ k = 2) → m.doing = some w → here (.mretry g) fun _ y => y.retries = min (x.retries + 1) 65535 ∧ y.tiles = x.tiles ∧ y.fault = { x.fault with tries := 0 }
            ∧ ∃ m', y.stream = some m' ∧ m'.place = m.place ∧ m'.doing = some { w.cleared with retry := true, tries := 0 })
        ∧ (k = 3 → here (.mretry g) fun _ y => y.retries = min (x.retries + 1) 65535 ∧ y.tile x.fault.tile = List.replicate 4096 0
            ∧ ∃ m' w, y.stream = some m' ∧ m'.pc = m.pc ∧ m'.drain = some w ∧ w.tile = x.fault.tile ∧ w.pc = nth x.zaddr x.fault.tile 0 ∧ w.tries = 0)
        ∧ (k = 0 → refused (.mretry g))
        ∧ (here (.mresumeAbandon g) fun _ y => y.stream = none ∧ y.tiles = x.tiles ∧ y.sums = x.sums ∧ y.fault = x.fault)
        ∧ (k ≠ 1 ∨ c.sca v ≠ x.location → refused (.mfix g v))
        ∧ (∀ w xa xb e, k = 1 → c.sca v = x.location → m.doing = some w → e = Env.mk (partOfLaunch c.lid) c.blk.home → w.sums.length = 4096 → x.fault.row < 64 → x.fault.col < 64 →
            s.readScales e w.a w.g = .ok xa → s.readScales e w.b w.g = .ok xb → here (.mfix g v) fun _ y => y.fixes = min (x.fixes + 1) 65535 ∧ y.fault.kind = 0
              ∧ ∀ i j, i < 64 → j < 64 →
                let n := nth w.sums (64 * i + j) 0
                let fixed := if i = x.fault.row ∧ j = x.fault.col then (BitVec.ofInt 64 (n - x.fault.syndrome.toInt)).toInt else n
                nth (y.tile w.tile) (64 * i + j) 0 = BitVec.ofNat 32 (addF32 (nth (x.tile w.tile) (64 * i + j) 0).toNat (scaledSum fixed (nth xa i 0) (nth xb j 0)).1).1)))

/-- coll passes its checks in order and is accepted under the block's next number; cwait, cabort, viewq, viewack and viewjoin. coll: a
descriptor not 64-byte aligned raises 0x14 subcode 0x03, an excluded device 0x40 subcode 0x02, an unacknowledged view 0x41 subcode 0x01,
another view's descriptor 0x41 subcode 0x00, a pending membership trap itself; 32 open collectives park it, then its unseen writes;
accepted, it takes the block's and the communicator's next numbers, and bad content ends it with 0x0304. cwait gives all ones for a
number with nothing to wait for, a stamp that stands, 0 for limit 0, and else parks; its passed limit gives 0. cabort ends the block's
named open collectives with 0x0001. viewq reads the view; viewack acknowledges it; viewjoin gives a member its view, 0 for limit 0, and
else parks; its limit gives 0. No byte of memory changes. (spec/19 R412, spec/19 R413, spec/19 R418, spec/19 R421, spec/19 R422, spec/19
R423, spec/19 R424, spec/19 R425) -/
def Obligations.CollectiveAndViewInstructions : Prop :=
  (∀ (s : State) (c : Ctx) (kind : CollKind) (uns : Bool) (g : Guard) (f : Fmt) (d : Dst) (a : Nat) (e : MExt) (pt : Partition), Issues s c →
      (d.cls = .scalar ∨ d.cls = .none) → s.parts.get? c.env.part = some pt → c.pidx < c.w.paths.length →
      let i : Instr := .coll kind uns g f d a e
      let ar := c.w.areg a
      let ea : Int := ar.pointer.toNat + e.off
      let lanes := c.real g
      let trap (cause sub : Nat) (x : Word) : Prop := exec i s = .next (s.takeTrap c.wid c.pidx ⟨cause, sub, x, lanes⟩ (unitOf c.p c.pre))
      (c.once g = false → (d.cls = .none → exec i s = .next (s.skip c)) ∧ (d.cls = .scalar → exec i s = .next (s.scalarDone c g d 0)))
      ∧ (c.once g = true → ea % 64 ≠ 0 → trap 0x14 0x03 (BitVec.ofInt 64 ea))
      ∧ (∀ ys, c.once g = true → ea % 64 = 0 → ar.perm.getLsbD 0 = true → checkRange s c.env ar true false 64 (some lanes) [((lanesOf lanes).headD 0, ea)] = .ok ys →
          watch s c true false (some lanes) ys = .ok () → waitLines s ys = .ok () →
          let ps := ys.flatMap (·.2.2)
          let view := s.seenBy c.wid lanes e.mask
          let bs := view.readPieces ps
          let desc := collDesc kind f uns bs
          let seq := (c.blk.collSeq + 1) % 2 ^ 48
          let k := s.comms.getD desc.comm 0 + 1
          let opened := (s.colls.filter fun x => x.2.here.isSome && x.2.open').length
          s.mayRead c.wid lanes ps = true → view.poisonOf ps = none →
          (s.viewNo = 0 → trap 0x40 0x02 0)
          ∧ (s.viewNo ≠ 0 → pt.unack = true → trap 0x41 0x01 (BitVec.ofNat 64 s.viewNo))
          ∧ (s.viewNo ≠ 0 → pt.unack = false → fieldAt bs 0x30 4 ≠ 0 → fieldAt bs 0x30 4 ≠ s.viewNo → trap 0x41 0x00 (BitVec.ofNat 64 s.viewNo))
          ∧ (s.viewNo ≠ 0 → pt.unack = false → (fieldAt bs 0x30 4 = 0 ∨ fieldAt bs 0x30 4 = s.viewNo) →
            (∀ n v, c.w.memberTrap = some (n, v) → exec i s = .next ((s.setWarp c.wid { c.w with memberTrap := none }).takeTrap c.wid c.pidx
                ⟨0x40, 0x00, BitVec.ofNat 64 (min n 65535 * 2 ^ 32 + v), lanes⟩ (unitOf c.p c.pre)))
            ∧ (c.w.memberTrap = none → c.w.collTrap = none →
              (32 ≤ c.blk.collOpen ∨ 512 ≤ opened → exec i s = .next (s.park c .collQueue))
              ∧ (c.blk.collOpen < 32 → opened < 512 → s.releasable c.wid lanes (e.mask ||| 0x08) = false → exec i s = .next (s.park c .fence))
              ∧ (c.blk.collOpen < 32 → opened < 512 → s.releasable c.wid lanes (e.mask ||| 0x08) = true → ∃ t b v x h, exec i s = .next t ∧ t.mem = s.mem
                  ∧ t.blocks.get? c.bid = some b ∧ b.collSeq = seq ∧ b.collOpen = c.blk.collOpen + 1 ∧ t.warps.get? c.wid = some v
                  ∧ (v.path c.pidx).pc = c.nextPc ∧ v.s = (if d.cls = .scalar ∧ d.wb = true then c.w.s.set d.idx (BitVec.ofNat 64 seq) else c.w.s)
                  ∧ t.comms.getD desc.comm 0 = k ∧ t.colls.get? (collKey desc.comm k) = some x ∧ x.here = some h ∧ h.seq = seq ∧ h.bid = c.bid ∧ h.warp = c.w.index
                  ∧ h.mask = e.mask ∧ h.pasid = pt.pasid ∧ (desc.contentBad bs = true → x.state = .ending 0x0304))))))
    ∧ (∀ (s : State) (c : Ctx) (g : Guard) (d : Dst) (q y : Src) (e : MExt), Issues s c → (d.cls = .scalar ∨ d.cls = .none) → checkLatch c g .sca q = .ok () →
      checkLatch c g .sca y = .ok () →
      let n := (c.sca q).toNat
      let limit := (c.sca y).toNat
      let gives (v : Word) : Prop := (d.cls = .scalar → exec (.cwait g d q y e) s = .next (s.scalarDone c g d v)) ∧ (d.cls = .none → exec (.cwait g d q y e) s = .next (s.skip c))
      (c.once g = false → gives 0)
      ∧ (∀ m v, c.once g = true → c.w.memberTrap = some (m, v) → exec (.cwait g d q y e) s = .next ((s.setWarp c.wid { c.w with memberTrap := none }).takeTrap c.wid c.pidx
          ⟨0x40, 0x00, BitVec.ofNat 64 (min m 65535 * 2 ^ 32 + v), c.real g⟩ (unitOf c.p c.pre)))
      ∧ (c.once g = true → c.w.memberTrap = none → c.w.collTrap = none →
          (n = 0 ∨ c.blk.collSeq < n ∨ n + 64 ≤ c.blk.collSeq → gives (BitVec.allOnes 64))
          ∧ (n ≠ 0 → n ≤ c.blk.collSeq → c.blk.collSeq < n + 64 → (c.la.det = 0 ∨ 2 ^ 40 ≤ limit) →
            (∀ v, c.blk.collStamps.get? n = some v → v ≠ BitVec.allOnes 64 →
              let u := if e.ord = .acq ∨ e.ord = .acqrel ∨ e.ord = .sc then s.acquireAt (coreOf c.wid) e.mask else s
              (d.cls = .scalar → exec (.cwait g d q y e) s = .next (u.scalarDone c g d v)) ∧ (d.cls = .none → exec (.cwait g d q y e) s = .next (u.skip c)))
            ∧ (c.blk.collStamps.get? n = none → limit = 0 → gives 0)
            ∧ (c.blk.collStamps.get? n = none → limit ≠ 0 → exec (.cwait g d q y e) s = .next (s.awaits c c.w (.parked .monitor)
                (.cwait ⟨n, d, c.act g, none, e.ord, e.mask, if limit < 2 ^ 40 then some (s.cycle + limit) else none⟩) 0)))))
    ∧ (∀ (s : State) (wid pidx : Nat) (c : Ctx) (r : CollWait) (t : Nat), s.awaiting wid pidx = some (c, .cwait r) → r.deadline = some t → r.entry = none → r.d.cls = .scalar →
      (s.cycle < t → exec (.cwaitTimeout wid pidx) s = .next s)
      ∧ (t ≤ s.cycle → c.la.det = 0 → exec (.cwaitTimeout wid pidx) s = .next (s.answered c (scalarResult c.w r.d (some 0)).1 (scalarResult c.w r.d (some 0)).2))
      ∧ (t ≤ s.cycle → c.la.det = 3 → exec (.cwaitTimeout wid pidx) s = .next (s.answeredTrap c ⟨0x62, 0x00, 0, r.acting &&& c.w.present⟩)))
    ∧ (∀ (s : State) (c : Ctx) (g : Guard) (q : Src), Issues s c → checkLatch c g .sca q = .ok () → s.colls.Pairwise (fun a b => a.1 < b.1) →
      let n := (c.sca q).toNat
      (c.once g = false → exec (.cabort g q) s = .next (s.skip c))
      ∧ (c.once g = true → c.la.det = 3 → exec (.cabort g q) s = .next (s.takeTrap c.wid c.pidx ⟨0x62, 0x00, 0, c.real g⟩ (unitOf c.p c.pre)))
      ∧ (c.once g = true → c.la.det ≠ 3 → ∃ t : State, exec (.cabort g q) s = .next (t.skip c) ∧ t = { s with colls := t.colls, outbox := t.outbox }
          ∧ ∀ key x, s.colls.get? key = some x →
            let named : Prop := (x.state = .gathering ∨ x.state = .ready) ∧ ∃ h, x.here = some h ∧ h.bid = c.bid ∧ (n = 0 ∨ h.seq = n)
            (named → t.colls.get? key = some { x with view := s.viewNo, state := .ending 0x0001 }) ∧ (¬named → t.colls.get? key = some x)))
    ∧ (∀ (s : State) (c : Ctx) (g : Guard) (d : Dst) (x : Src) (k : Nat) (pt : Partition), Issues s c → s.parts.get? c.env.part = some pt → d.cls = .scalar →
      checkLatch c g .sca x = .ok () →
      let word : Word := if k = 0 then BitVec.ofNat 64 ((if pt.unack then 2 ^ 63 else 0) + (if s.agreement = none then 0 else 2 ^ 62) + (if s.viewNo = 0 then 2 ^ 61 else 0)
        + s.self * 2 ^ 48 + ((List.range 1024).filter s.manifest.getLsbD).length * 2 ^ 32 + s.viewNo) else s.manifest.extractLsb' (64 * (k - 1)) 64
      let limit := (c.sca x).toNat
      exec (.viewq g d k) s = .next (s.scalarDone c g d word)
      ∧ (c.once g = false → exec (.viewack g d x) s = .next (s.scalarDone c g d 0) ∧ exec (.viewjoin g d x) s = .next (s.scalarDone c g d 0))
      ∧ (∀ m v, c.once g = true → c.w.memberTrap = some (m, v) → exec (.viewack g d x) s = .next ((s.setWarp c.wid { c.w with memberTrap := none }).takeTrap c.wid c.pidx
          ⟨0x40, 0x00, BitVec.ofNat 64 (min m 65535 * 2 ^ 32 + v), c.real g⟩ (unitOf c.p c.pre)))
      ∧ (c.once g = true → c.w.memberTrap = none → limit % 2 ^ 32 = s.viewNo → exec (.viewack g d x) s =
          .next ((s.setPart c.env.part fun p => { p with unack := false }).scalarDone c g d 1))
      ∧ (c.once g = true → c.w.memberTrap = none → limit % 2 ^ 32 ≠ s.viewNo → exec (.viewack g d x) s = .next (s.scalarDone c g d 0))
      ∧ (c.once g = true → pt.joinOk = false → exec (.viewjoin g d x) s = .next (s.takeTrap c.wid c.pidx ⟨0x11, 0x13, 0, c.real g⟩ (unitOf c.p c.pre)))
      ∧ (c.once g = true → pt.joinOk = true → s.viewNo ≠ 0 → exec (.viewjoin g d x) s = .next (s.scalarDone c g d (BitVec.ofNat 64 s.viewNo)))
      ∧ (c.once g = true → pt.joinOk = true → s.viewNo = 0 → limit = 0 → exec (.viewjoin g d x) s = .next (s.scalarDone c g d 0))
      ∧ (c.once g = true → pt.joinOk = true → s.viewNo = 0 → limit ≠ 0 → ∃ t : State, exec (.viewjoin g d x) s =
          .next (t.awaits c c.w (.parked .monitor) (.viewjoin ⟨d, if limit < 2 ^ 40 then some (s.cycle + limit) else none⟩) 0)
          ∧ t = { s with joining := true, outbox := t.outbox } ∧ (s.joining = true → t.outbox = s.outbox)
          ∧ (∀ m, s.joining = false → m ∈ s.neighbours → (∀ j ∈ s.neighbours, m ≤ j) → t.outbox = .member m (.join s.self) :: s.outbox)))
    ∧ (∀ (s : State) (wid pidx : Nat) (c : Ctx) (r : JoinWait) (t : Nat), s.awaiting wid pidx = some (c, .viewjoin r) → r.deadline = some t →
      (s.cycle < t → exec (.viewjoinTimeout wid pidx) s = .next s)
      ∧ (t ≤ s.cycle → ∃ u, exec (.viewjoinTimeout wid pidx) s = .next u
          ∧ u = { s.answered c (scalarResult c.w r.d (some 0)).1 (scalarResult c.w r.d (some 0)).2 with joining := u.joining } ∧ (s.joining = false → u.joining = false)))

/-- ckpt, ckpt.wait, ckq, digest, detq, brk, tmark, rdclk and launch. ckpt gives the open interval's number and asks for a close, ckpt.wait
parks until it has committed; ckq reads the checkpoint registers; digest adds the hash of each acting present lane's message to the
block's accumulator modulo 2^256; detq gives the determinism mode and the warp's logged entries; brk raises 0x70 subcode 0x00 with its
number; tmark writes a trace record of kind 1; rdclk reads the cycle. launch: canonical mode raises 0x62, a queue above 63, disabled or
host-fed 0x11 subcode 0x00; it waits for its path's writes, appends the 256 bytes of the packet at the queue's tail and gives the launch
id, or all ones and no append where the queue is full. Where no lane acts each only takes its place. (spec/02 R67, spec/02 R68, spec/02
R69, spec/23 R487, spec/23 R488, spec/23 R489, spec/27 R513, spec/27 R516, spec/28 R530) -/
def Obligations.CheckpointDigestDebugAndLaunch : Prop :=
  (∀ (s : State) (c : Ctx) (g : Guard) (d : Dst) (pt : Partition), Issues s c → s.parts.get? c.env.part = some pt →
      (d.cls = .scalar →
        (c.once g = true → ∃ t : State, exec (.ckpt g d) s = .next (t.scalarDone c g d (BitVec.ofNat 64 pt.ck.current)) ∧ t.mem = s.mem ∧ t.warps = s.warps
            ∧ ∃ p, t.parts.get? c.env.part = some p ∧ p.ck.wanted.isSome = true)
        ∧ (c.once g = false → exec (.ckpt g d) s = .next (s.scalarDone c g d 0) ∧ exec (.ckptWait g d) s = .next (s.scalarDone c g d 0))
        ∧ (c.once g = true → ∃ t : State, exec (.ckptWait g d) s = .next (t.awaits c c.w (.parked .monitor) (.ckpt d pt.ck.current) 0) ∧ t.mem = s.mem ∧ t.warps = s.warps
            ∧ ∃ p, t.parts.get? c.env.part = some p ∧ p.ck.wanted.isSome = true)
        ∧ (∀ k : Nat, exec (.ckq g d k) s = .next (s.scalarDone c g d (if k = 0 then BitVec.ofNat 64 (pt.ck.committed * 2 ^ 32 + pt.ck.current)
            else if k = 1 then BitVec.ofNat 64 (pt.ctx.dirty * 2 ^ 32 + pt.ctx.cycles) else if k = 2 then BitVec.ofNat 64 (s.ckptStat2 c.env.part pt)
            else pt.ck.cfg &&& 0xFFFFFF0000000000)))
        ∧ exec (.detq g d) s = .next (s.scalarDone c g d (BitVec.ofNat 64 (c.la.det + c.blk.logCounts.getD c.w.index 0 * 2 ^ 32)))
        ∧ exec (.rdclk g d) s = .next (s.scalarDone c g d (BitVec.ofNat 64 s.cycle))))
    ∧ (∀ (s : State) (c : Ctx) (g : Guard) (x : Src) (n : Int), Issues s c →
      (c.once g = false → exec (.brk g n) s = .next (s.skip c)) ∧ (c.once g = false → checkLatch c g .sca x = .ok () → exec (.tmark g x) s = .next (s.skip c))
      ∧ (c.once g = true → exec (.brk g n) s = .next (s.takeTrap c.wid c.pidx ⟨0x70, 0x00, BitVec.ofInt 64 n, c.real g⟩ (unitOf c.p c.pre)))
      ∧ (c.once g = true → checkLatch c g .sca x = .ok () → exec (.tmark g x) s =
          .next ((s.trace c.env.part 1 c.wid c.pidx (c.sca x).toNat).skip c)))
    ∧ (∀ (s : State) (c : Ctx) (g : Guard) (f : Fmt) (x : Src) (ch : Nat), Issues s c → f ≠ .b128 → checkOperands c g .noDest f [(.vec f, x)] = .ok () →
      let message (l : Nat) : List Byte := leBytes 8 c.blk.linear ++ leBytes 1 c.w.index ++ leBytes 1 l ++ leBytes 2 ch ++ leBytes 1 f.code ++ leBytes (accessBytes f) (c.vec f x l).toNat
      exec (.digest g f x ch) s = .next ((s.setBlock c.bid fun b => { b with accum := b.accum
        + ((lanesOf (c.real g)).map fun l => BitVec.ofNat 256 (leNat ((sha384 (message l)).take 32))).sum }).skip c))
    ∧ (∀ (s : State) (c : Ctx) (d : Dst) (a : Nat) (q : Src) (e : MExt), Issues s c → (d.cls = .scalar ∨ d.cls = .none) → c.once Guard.always = true → c.pidx < c.w.paths.length →
      let i : Instr := .launch d a q e
      let lanes := c.real Guard.always
      let ar := c.w.areg a
      let ea : Int := ar.pointer.toNat + e.off
      let part := c.env.part
      let n := (c.sca q).toNat
      let x := ((s.parts.get? part).map (·.queue n)).getD Queue.reset
      (c.la.det = 3 → exec i s = .next (s.takeTrap c.wid c.pidx ⟨0x62, 0x00, 0, lanes⟩ (unitOf c.p c.pre)))
      ∧ (∀ y, c.la.det = 0 → ar.perm.getLsbD 0 = true → checkRange s c.env ar true false 256 (some lanes) [((lanesOf lanes).headD 0, ea)] = .ok [y] →
        (63 < n ∨ x.enable = false ∨ x.devFeed = false → exec i s = .next (s.takeTrap c.wid c.pidx ⟨0x11, 0x00, BitVec.ofNat 64 y.2.1, lanes⟩ (unitOf c.p c.pre)))
        ∧ (n ≤ 63 → x.enable = true → x.devFeed = true → waitLines s [y] = .ok () →
          (s.releasable c.wid lanes (e.mask ||| 0x0C) = false → exec i s = .next (s.park c .fence))
          ∧ (s.releasable c.wid lanes (e.mask ||| 0x0C) = true →
            let s1 := s.publish (.lane (coreOf c.wid)) (e.mask ||| 0x0C)
            let view := s1.seenBy c.wid lanes e.mask
            let bs := view.readPieces y.2.2
            let id : Word := BitVec.ofNat 64 (part * 2 ^ 54 + n * 2 ^ 48 + x.tail)
            let registers (v : Warp) (r : Word) : Prop := v.s = (if d.cls = .scalar ∧ d.wb = true then c.w.s.set d.idx r else c.w.s) ∧ (v.path c.pidx).pc = c.nextPc
            (x.tail - x.head = 2 ^ x.log2 → ∃ t v, exec i s = .next t ∧ t.mem = s.mem ∧ t.parts = s.parts ∧ t.warps.get? c.wid = some v ∧ registers v (BitVec.allOnes 64))
            ∧ (∀ u, x.tail - x.head ≠ 2 ^ x.log2 → s1.mayRead c.wid lanes y.2.2 = true → view.poisonOf y.2.2 = none →
                (s1.translated c.env [y.2.1]).writeFor c.bid c.env (x.base + 256 * (x.tail % 2 ^ x.log2)) bs = .ok u → ∃ t v p, exec i s = .next t ∧ t.mem = u.mem
                ∧ t.warps.get? c.wid = some v ∧ registers v id ∧ t.parts.get? part = some p ∧ (p.queue n).tail = x.tail + 1 ∧ (p.queue n).head = x.head)))))

/-- A prefix, the fetch of a line, the issue set, the choice of a path, and the register pool's grants, returns and evictions. ximm in slot
4, or before a word it may not govern, raises 0x01 subcode 0x03; else its unit goes on with it. A fetch puts the checked line into the
path, or takes the trap of the first check that fails. The issue set keeps at most two unparked paths; those with fewer than 64 units
stay, a free place goes to the path outside longest. The second of a pair goes with the first, the second choice with the first choice;
else the slot goes to the held choice or the ready path whose last issue is oldest, ties to the higher priority, or is held while its
halves are taken. Granules freed otherwise than by an eviction bring back the earliest evicted warp whose whole allocation fits, before
any grow is served; a waiting grow is served when its increase fits, and none passes one that has waited 4,096 cycles. A victim has the
lowest priority, then the latest placing. (spec/03 R89, spec/03 R91, spec/03 R106, spec/03 R108, spec/05 R133, spec/05 R134, spec/05
R135, spec/05 R136, spec/05 R150, spec/05 R151, spec/05 R152, spec/05 R153) -/
def Obligations.SchedulingFetchAndPool : Prop :=
  (∀ (s : State) (c : Ctx) (sel : Nat) (payload : BitVec 32), Issues s c →
      (pcSlot c.p.pc = 4 ∨ decodeGoverned sel payload c.governed = .misuse →
        exec (.ximm sel payload) s = .next (s.takeTrap c.wid c.pidx ⟨0x01, 0x03, 0, c.p.mask⟩ (unitOf c.p c.pre)))
      ∧ (pcSlot c.p.pc ≠ 4 → decodeGoverned sel payload c.governed ≠ .misuse →
        exec (.ximm sel payload) s = .next { s with focus := some (.path c.wid c.pidx (some (sel, payload))) }))
    ∧ (∀ (s : State) (wid i : Nat) (c : Ctx), s.ctx? wid i none = some c → c.p.line = none → s.mayIssue c.bid = true → i < c.w.paths.length →
      let line := pcLineAddr c.p.pc
      let refused (f : PcFault) : Prop := ∃ t : State, t.mem = s.mem ∧ t.warps = s.warps ∧ t.parts = s.parts
        ∧ exec (.lineFetch wid i) s = .next { t.takeTrap wid i ⟨f.1, f.2.1, f.2.2, c.p.mask⟩ (unitOf c.p none) with focus := s.focus }
      (∀ f, checkPc c.p.pc = .error f → refused f)
      ∧ (∀ ps sub, checkPc c.p.pc = .ok () → s.linePieces c.env line = .ok ps → (∃ p ∈ ps, p.host.isSome = true) → s.portFault (.fetch wid i) = some sub →
          refused (0x51, if sub = 0 then 1 else sub, BitVec.ofNat 64 line))
      ∧ (checkPc c.p.pc = .ok () → s.portFault (.fetch wid i) = none →
        (∀ f, s.readLine c.env line = .error f → refused f)
        ∧ (∀ l, s.readLine c.env line = .ok l →
          (c.p.entering = true → ¬(pcSlot c.p.pc = 0 ∧ l.target 0 = true) → refused (0x03, 0, c.p.pc))
          ∧ ((c.p.entering = false ∨ (pcSlot c.p.pc = 0 ∧ l.target 0 = true)) → ∃ t v, exec (.lineFetch wid i) s = .next t ∧ t.mem = s.mem ∧ t.fetchUpset = false
              ∧ t.warps.get? wid = some v ∧ v.path i = { c.w.path i with line := some l } ∧ (∀ j, j ≠ i → v.path j = c.w.path j) ∧ v.s = c.w.s ∧ v.v = c.w.v ∧ v.p = c.w.p
              ∧ t.correctedFetch.getD (wid / 64) 0 = s.correctedFetch.getD (wid / 64) 0 + s.fetchUpset.toNat))))
    ∧ (∀ (s : State) (wid : Nat) (w : Warp), s.warps.get? wid = some w → w.paths.length = 16 → ((List.range 16).filter w.inIssue).length ≤ 2 →
      let outside (i : Nat) : Prop := i < 16 ∧ w.runs i = true ∧ (w.path i).inSet = false
      ∃ v : Warp, exec (.issueSetRotation wid) s = .next (s.setWarp wid v) ∧ v = { w with paths := v.paths }
        ∧ (∀ i, v.path i = { w.path i with inSet := (v.path i).inSet, units := (v.path i).units, since := (v.path i).since })
        ∧ ((List.range 16).filter v.inIssue).length ≤ 2
        ∧ (((List.range 16).filter v.inIssue).length < 2 → ∀ i, i < 16 → w.runs i = true → v.inIssue i = true)
        ∧ (∀ i, i < 16 → w.inIssue i = true → (w.path i).units < 64 → v.inIssue i = true)
        ∧ (∀ i, outside i → (∀ j, outside j → j ≠ i → (w.path i).since < (w.path j).since) → ((List.range 16).filter w.inIssue).length < 2 →
            (∀ j, j < 16 → w.inIssue j = true → (w.path j).units < 64) → v.inIssue i = true))
    ∧ (∀ (s : State) (core quarter : Nat), s.focus = none → core < 512 → quarter < 4 →
      let q := 4 * core + quarter
      let here (wid : Nat) (w : Warp) (i : Nat) : Prop := (wid, w) ∈ s.warps ∧ wid / 16 = q ∧ i < 16
      let waiting (wid : Nat) (w : Warp) (i : Nat) : Prop := here wid w i ∧ s.readyPath w i = true
      let mid (wid : Nat) (w : Warp) (i : Nat) : Prop := here wid w i ∧ s.entered w i = true ∧ (w.path i).midPair s.cycle = true
      let pick := (s.schedOf q).pick
      let isPick : Prop := ∃ wid w i, waiting wid w i ∧ pick = some (wid, i)
      let chosen (wid : Nat) (w : Warp) (i : Nat) : Prop := waiting wid w i ∧ (isPick → pick = some (wid, i))
        ∧ (¬isPick → ∀ wid' w' i', waiting wid' w' i' → (w.path i).age s.cycle ≤ (w'.path i').age s.cycle
            ∧ ((w.path i).age s.cycle = (w'.path i').age s.cycle → s.priorityOf w' ≤ s.priorityOf w))
      ((∃ wid w i, mid wid w i) → ∃ wid w i, mid wid w i
          ∧ exec (.issueCycle core quarter) s = .next { s.setPath wid i fun p => { p with pairAt := none } with focus := some (.path wid i none) })
      ∧ ((¬∃ wid w i, mid wid w i) →
        (∀ y, (s.schedOf q).second = some y →
          let t := s.setSched q fun z => { z with second := none }
          (∀ w, s.warps.get? y.1 = some w → s.entered w y.2 = true → exec (.issueCycle core quarter) s = .next { t with focus := some (.path y.1 y.2 none) })
          ∧ ((∀ w, s.warps.get? y.1 = some w → s.entered w y.2 = false) → exec (.issueCycle core quarter) s = .next t))
        ∧ ((s.schedOf q).second = none → (q ∈ s.issued ∨ ¬∃ wid w i, waiting wid w i) → exec (.issueCycle core quarter) s = .next s)
        ∧ ((s.schedOf q).second = none → q ∉ s.issued → (∃ wid w i, waiting wid w i) → ∃ wid w i, chosen wid w i
          ∧ (let halves := halvesOf (s.shadowOf w) (w.path i).unit
             ((s.schedOf q).has halves s.cycle = false → exec (.issueCycle core quarter) s = .next (s.setSched q fun z => { z with pick := some (wid, i) }))
             ∧ ((s.schedOf q).has halves s.cycle = true → ∃ t, exec (.issueCycle core quarter) s = .next t
                ∧ t = { s with focus := some (.path wid i none), issued := q :: s.issued, slots := t.slots, sched := t.sched, warps := t.warps }
                ∧ (t.schedOf q).pick = none
                ∧ ∀ y, (t.schedOf q).second = some y → ∃ w', waiting y.1 w' y.2 ∧ y.1 ≠ wid ∧ s.dualUnit w i = true ∧ s.dualUnit w' y.2 = true)))))
    ∧ (∀ (s : State) (core quarter : Nat),
      let q := 4 * core + quarter
      let here (x : Nat × Warp) : Prop := x ∈ s.warps ∧ x.1 / 16 = q
      let free := s.freeGranules q
      let spare := (s.schedOf q).spare
      let grant : Instr := .granuleGrant core quarter
      let back : Instr := .evictedWarpReturn core quarter
      (free ≤ spare → exec back s = .next s ∧ exec grant s = .next (if free = spare then s else s.granulesOffered q))
      ∧ (spare < free →
        (∀ wid w k, here (wid, w) → w.evicted = some k → (∀ x j, here x → x.2.evicted = some j → x ≠ (wid, w) → k < j) → s.warps.Pairwise (fun a b => a.1 < b.1) →
          (granules w.n ≤ free → exec back s = .next (s.setWarp wid { w with evicted := none })
            ∧ ((∀ x, here x → x.2.evicted.isSome = true → x.1 = wid) → s.growers q = [] →
              exec grant s = .next ((s.setWarp wid { w with evicted := none }).granulesOffered q)))
          ∧ (free < granules w.n → exec back s = .next s ∧ exec grant s = .next (s.granulesOffered q)))
        ∧ ((∀ x, here x → x.2.evicted = none) →
          exec back s = .next s
          ∧ (s.growers q = [] → exec grant s = .next (s.granulesOffered q))
          ∧ (∀ g c n, s.growers q = [g] → s.requesting g.1 g.2.1 = some (c, .grow n) → s.mayIssue c.bid = true →
              let ask : Prop := 8 ≤ n ∧ n ≤ 256 ∧ c.w.n ≤ n
              (¬ask → exec grant s = .next ((s.answeredTrap c ⟨0x15, 0x04, BitVec.ofNat 64 n, c.p.mask⟩).granulesOffered q))
              ∧ (ask → granules n - granules c.w.n ≤ free → exec grant s = .next ((s.answered c (c.w.relocate n) .none).granulesOffered q))
              ∧ (ask → free < granules n - granules c.w.n → exec grant s = .next (s.granulesOffered q)))
          ∧ (∀ g ∈ s.growers q, g.2.2 + 4096 ≤ s.cycle → (∀ g' ∈ s.growers q, g' ≠ g → g.2.2 < g'.2.2) → s.serveGrow q g = none →
              exec grant s = .next (s.granulesOffered q))))
      ∧ (let served : Prop := (∀ x, here x → x.2.evicted = none) ∧ ∃ g ∈ s.growTurns q, (s.serveGrow q g).isSome = true
         let blocked : Prop := s.growers q = [] ∨ served ∨ (∃ x, here x ∧ x.2.parked = false ∧ x.2.evicted = none)
         let candidate (x : Nat × Warp) : Prop := here x ∧ x.2.evicted = none ∧ x.2.parked = true ∧ x.2.halted = false ∧ ∀ g ∈ s.growers q, g.1 ≠ x.1
         let placed (x : Nat × Warp) : Nat := (s.blocks.get? x.2.block).elim 0 (·.placed)
         (blocked ∨ (¬∃ x, candidate x) → exec (.warpEviction core quarter) s = .next s)
         ∧ (¬blocked → (∃ x, candidate x) → ∃ (wid : Nat) (w : Warp) (k : Nat), candidate (wid, w)
             ∧ exec (.warpEviction core quarter) s = .next (((s.setWarp wid { w with evicted := some k }).serveGrows q (s.growers q).length).granulesOffered q)
             ∧ (∀ x j, here x → x.2.evicted = some j → j < k)
             ∧ ∀ x, candidate x → s.priorityOf w ≤ s.priorityOf x.2 ∧ (s.priorityOf x.2 = s.priorityOf w → placed x ≤ placed (wid, w)))))

/-- A packet is accepted, becomes ready or completes without running; a translation ends; an entry of the replay ring is read. Accepting
takes the packet at the head of the next queue in turn that can be served: the head moves by one, and a packet that fails a check
completes at once with that status, recorded in the queue's error register; one that was aborted completes with 0x0108, one whose
arguments cannot be copied with 0x010B, another waits. A waiting packet with a failed need_ok dependence completes with 0x0105; once its
dependences have completed, its translation stands and its turn has come, a packet of type 0 completes with 0, and a launch becomes ready
with its start cycle and view. An Asder launch whose translation is not cached puts a translator launch on the system queue, which is
accepted first. When its block ends, an object or a translator that fails completes the launch with 0x0109; values that stand for the
object and pass the native checks become the launch's and enter the cache. A replay entry moves RPL_HEAD and is held for the launch its
tag is bound to. (spec/01 R34, spec/01 R37, spec/01 R50, spec/01 R51, spec/02 R61, spec/02 R62, spec/02 R63, spec/02 R64, spec/02 R65,
spec/02 R66, spec/27 R523, spec/27 R527) -/
def Obligations.CommandProcessorEvents : Prop :=
  (∀ (s : State) (part : Nat) (pt : Partition), s.parts.get? part = some pt → pt.ctx.state = 1 → pt.ck.closing = false → pt.ck.due = false → pt.lastServed < 64 →
      (pt.acceptedAt = some s.cycle → exec (.acceptPacket part) s = .next s)
      ∧ (∀ before j after, pt.acceptedAt ≠ some s.cycle → pt.sysQueue = before ++ j :: after → (∀ x ∈ before, x.accept.isSome = true) → j.accept = none →
          exec (.acceptPacket part) s = .next (s.setPart part fun p => { p with
            accepted := p.accepted + 1, acceptedAt := some s.cycle
            sysQueue := p.sysQueue.map fun x => if x.launch = j.launch then { x with accept := some pt.accepted } else x }))
      ∧ (pt.acceptedAt ≠ some s.cycle → (∀ j ∈ pt.sysQueue, j.accept.isSome = true) →
      let served (q : Nat) : Prop := q < 64 ∧ s.queueServes part q (pt.queue q) = true
      ((∀ q, ¬served q) → exec (.acceptPacket part) s = .next s)
      ∧ (∀ (q : Nat) (bs : List Byte), served q → (∀ k, served k → (q + 63 - pt.lastServed) % 64 ≤ (k + 63 - pt.lastServed) % 64) →
          let x := pt.queue q
          let seq := x.head
          let lid := part * 2 ^ 54 + q * 2 ^ 48 + seq
          s.readPlain ⟨part, 0⟩ (x.base + 256 * (seq % 2 ^ x.log2)) 256 = .ok bs → s.statuses.get? lid = none →
          let l := Launch.ofWords ((List.range 32).map fun k => BitVec.ofNat 64 (fieldAt bs (8 * k) 8)) part pt.accepted
          let status := s.checkPacket part q seq l
          let taken : State := (s.setPart part fun p => { p with accepted := p.accepted + 1, acceptedAt := some s.cycle, lastServed := q }).setQueue part q fun x =>
            { x with head := x.head + 1, aborts := x.aborts.filter (· != seq) }
          let arguments : State × Bool := if l.kind = 0 then (taken, true) else copyArguments part q (l.word 8).toNat (pt.argArea + 4096 * (64 * q + seq % 64)) (l.argSize / 16) taken
          ∃ t p, exec (.acceptPacket part) s = .next t ∧ t.parts.get? part = some p ∧ p.accepted = pt.accepted + 1 ∧ p.lastServed = q ∧ (p.queue q).head = seq + 1
            ∧ (status ≠ 0 → t.statuses.get? lid = some status ∧ t.launches.get? lid = none
                ∧ (x.errStatus = 0 → x.errSeq = 0 → (p.queue q).errStatus = status ∧ (p.queue q).errSeq = seq))
            ∧ (status = 0 → arguments.2 = false → t.statuses.get? lid = some 0x010B ∧ t.launches.get? lid = none)
            ∧ (status = 0 → arguments.2 = true → seq ∈ x.aborts → t.statuses.get? lid = some 0x0108 ∧ t.launches.get? lid = none)
            ∧ (status = 0 → arguments.2 = true → seq ∉ x.aborts → l.kind ≠ 2 →
                t = ({ arguments.1 with launches := arguments.1.launches.put lid l } : State).wake .monitor)
            ∧ (status = 0 → arguments.2 = true → seq ∉ x.aborts → l.kind = 2 → (∀ c ∈ pt.codes, c.key ≠ s.codeKey l) →
                t.launches.get? lid = some l ∧ p.sysQueue = pt.sysQueue ++ [⟨lid, none, none⟩]))))
    ∧ (∀ (s : State) (lid : Nat) (l : Launch) (pt : Partition),
      let part := lid / 2 ^ 54
      let q := lid / 2 ^ 48 % 64
      let n := lid % 2 ^ 48
      s.launches.get? lid = some l → l.state = .waiting → s.parts.get? part = some pt → pt.ctx.state = 1 → pt.ck.closing = false → pt.ck.due = false →
      let status (d : Word) : Option Nat := s.statuses.get? (part * 2 ^ 54 + (d.extractLsb' 48 6).toNat * 2 ^ 48 + (d.extractLsb' 0 48).toNat)
      let valid (d : Word) : Prop := d ∈ [l.word 12, l.word 13, l.word 14, l.word 15] ∧ d.getLsbD 63 = true
      let failed : Prop := ∃ d k, valid d ∧ d.getLsbD 54 = true ∧ status d = some k ∧ k ≠ 0
      let turn : Prop := (∀ x ∈ s.launches, x.1 / 2 ^ 54 = part → x.1 / 2 ^ 48 % 64 = q → x.1 % 2 ^ 48 < n → x.2.dispatched = true)
        ∧ ((pt.queue q).serial = true → n ≠ 0 → (s.statuses.get? (part * 2 ^ 54 + q * 2 ^ 48 + (n - 1))).isSome = true)
      let may : Prop := ¬failed ∧ (∀ d, valid d → (status d).isSome = true) ∧ (l.kind = 2 → l.translated = true) ∧ turn
      (failed → exec (.packetReady lid) s = .next (s.completePacket lid l 0x0105))
      ∧ (¬failed → ¬may → exec (.packetReady lid) s = .next s)
      ∧ (may → l.kind = 0 → exec (.packetReady lid) s = .next (s.completePacket lid l 0))
      ∧ (may → l.kind ≠ 0 → l.det ≠ 1 → pt.gbk.log2 < 4 → ∃ t : State, exec (.packetReady lid) s = .next t
          ∧ t = { s with launches := t.launches } ∧ t.launches.get? lid = some { l with state := .ready, start := s.cycle, openView := s.viewNo })
      ∧ (may → l.kind ≠ 0 → l.det ≠ 1 → 4 ≤ pt.gbk.log2 → pt.gbk.head + 2 ^ pt.gbk.log2 ≤ pt.gbk.tail → exec (.packetReady lid) s = .next s)
      ∧ (∀ u : State, may → l.kind ≠ 0 → l.det ≠ 1 → 4 ≤ pt.gbk.log2 → pt.gbk.tail < pt.gbk.head + 2 ^ pt.gbk.log2 →
          s.writePlain ⟨part, 0⟩ (pt.gbk.base + 128 * (pt.gbk.tail % 2 ^ pt.gbk.log2)) (openBytes s pt lid l) = .ok u →
          ∃ t p, exec (.packetReady lid) s = .next t ∧ t.mem = u.mem ∧ t.parts.get? part = some p ∧ p.gbk.tail = pt.gbk.tail + 1
            ∧ t.launches.get? lid = some { l with state := .ready, start := s.cycle, openView := s.viewNo, record := some pt.gbk.tail }))
    ∧ (∀ (s : State) (lid : Nat) (l : Launch) (pt : Partition) (v : Option Translated), s.launches.get? lid = some l → s.parts.get? (lid / 2 ^ 54) = some pt →
      l.kind = 2 → l.translated = false → pt.ctx.state = 1 → pt.ck.closing = false → pt.ck.due = false →
      let i : Instr := .asderTranslationDone lid v
      let key := s.codeKey l
      let fails : Prop := exec i s = .next (s.completePacket lid l 0x0109)
      let object := s.asderAt (lid / 2 ^ 54) l.entry.toNat l.hash
      ((∀ j ∈ pt.sysQueue, j.launch = lid → j.place = none) → exec i s = .next s)
      ∧ ((∃ j ∈ pt.sysQueue, j.launch = lid ∧ j.place.isSome = true) →
        (object = none → fails)
        ∧ (v = none → (∀ x ∈ s.natives, x.1 ≠ key) → fails)
        ∧ (∀ o t, object = some o → ((s.natives.find? (·.1 == key)) = some (key, t) ∨ ((∀ x ∈ s.natives, x.1 ≠ key) ∧ v = some t)) →
          let n := l.translate t
          let meets : Prop := n.resourcesBad = false ∧ 1 ≤ n.lanes ∧ n.lanes ≤ 1024
          (o.sound = false → fails)
          ∧ (o.sound = true → n.maps o l.lanes = false → exec i s = .next s)
          ∧ (o.sound = true → n.maps o l.lanes = true → pt.codes.length < 256 → meets → ∃ u p, exec i s = .next u ∧ u.mem = s.mem ∧ u.launches.get? lid = some n
              ∧ u.parts.get? (lid / 2 ^ 54) = some p ∧ p.codes = pt.codes ++ [⟨key, t, s.cycle⟩] ∧ (key, t) ∈ u.natives ∧ ∀ j ∈ p.sysQueue, j.launch ≠ lid)
          ∧ (o.sound = true → n.maps o l.lanes = true → pt.codes.length < 256 → ¬meets → ∃ u, exec i s = .next u ∧ u.launches.get? lid = none
              ∧ u.statuses.get? lid = some 0x0109))))
    ∧ (∀ (s : State) (part : Nat) (pt : Partition) (bs : List Byte), s.parts.get? part = some pt → pt.ctx.state = 1 → pt.ck.closing = false → pt.ck.due = false →
      let room : Prop := pt.rpl.head < pt.rpl.tail ∧ pt.replayHeld.length < 65536
      let w0 := fieldAt bs 0 8
      let w1 := fieldAt bs 8 8
      let kind := w0 / 2 ^ 60
      let tag := w0 / 2 ^ 48 % 4096
      let i : Instr := .replayRingRead part
      (¬room → exec i s = .next s)
      ∧ (room → s.readPlain ⟨part, 0⟩ (pt.rpl.base + 16 * (pt.rpl.head % 2 ^ pt.rpl.log2)) 16 = .ok bs →
          (kind = 1 → (∀ x ∈ s.launches, x.1 / 2 ^ 54 = part → x.2.det = 2 → x.2.reference ≠ w1) → exec i s = .next s)
          ∧ (∀ lid l, kind = 1 → (lid, l) ∈ s.launches → lid / 2 ^ 54 = part → l.det = 2 → l.reference = w1 →
              (∀ x ∈ s.launches, x.1 / 2 ^ 54 = part → x.2.det = 2 → x.2.reference = w1 → x.1 = lid) →
              ∃ t p, exec i s = .next t ∧ t.mem = s.mem ∧ t.parts.get? part = some p ∧ p.rpl.head = pt.rpl.head + 1 ∧ p.replayTags.get? tag = some lid)
          ∧ (kind = 2 → ∃ t p, exec i s = .next t ∧ t.mem = s.mem ∧ t.parts.get? part = some p ∧ p.rpl.head = pt.rpl.head + 1
              ∧ p.replaySites.get? tag = some (w0 % 2 ^ 47) ∧ p.replayHeld = pt.replayHeld)
          ∧ (3 ≤ kind → kind ≤ 11 → ∃ t p, exec i s = .next t ∧ t.mem = s.mem ∧ t.parts.get? part = some p ∧ p.rpl.head = pt.rpl.head + 1
              ∧ p.replayHeld = pt.replayHeld ++ (match pt.replayTags.get? tag with
                | none => []
                | some lid => [⟨pt.rpl.head, kind, lid, if kind ≤ 5 then pt.replaySites.get? tag else none, w0 / 2 ^ 40 % 32, w0 % 2 ^ 40, w1 / 2 ^ 40, w1 % 2 ^ 40⟩]))))

/-- The distributor serves the first claimant and places its blocks; clusters age; blocks retire and launches complete. The system queue's
waiting block is placed first. Of several launches that may dispatch, the one with an aged cluster comes first, else the highest
priority, then the lowest acceptance number; its offer is the next state. Where a cluster of one block is offered a partition of one
group, it starts to wait when no core fits it; else one block is placed on the core that takes its rank, its warps on the quarters the
core's rotation gives, registers zero, path 0 at the entry. A cluster that has waited 16,384 cycles becomes aged. A block retires once
its warps, stores, copies, stream and collectives are over, in curve order in canonical mode, and its counts and digest are the launch's;
a stream stopped by a fault that no warp has taken makes the status 0x010A. A launch whose blocks have all retired completes with its
status, and its stamp is written. (spec/02 R72, spec/02 R73, spec/02 R74, spec/02 R75, spec/02 R76, spec/02 R77, spec/05 R142, spec/10
R261, spec/27 R510, spec/27 R511, spec/27 R512, spec/01 R36) -/
def Obligations.PlacingAndRetirement : Prop :=
  (∀ (s : State) (part lid : Nat) (pt : Partition) (l : Launch) (t : State), s.parts.get? part = some pt → pt.ctx.state = 1 → pt.ck.closing = false → pt.ck.due = false →
      pt.returning = [] → s.launches.get? lid = some l → lid / 2 ^ 54 = part → l.dispatchable = true →
      let aged (x : Launch) : Prop := ∃ w, x.wait = some w ∧ w.aged = true
      let rival (x : Nat × Launch) : Prop := x ∈ s.launches ∧ x.1 / 2 ^ 54 = part ∧ x.2.dispatchable = true ∧ x ≠ (lid, l)
      let first : Prop := (aged l ∧ ∀ x, rival x → ¬aged x.2)
        ∨ ((∀ x ∈ s.launches, ¬aged x.2) ∧ ∀ x, rival x → x.2.priority < l.priority ∨ (x.2.priority = l.priority ∧ l.accept < x.2.accept))
      (first → s.placeSystem part pt = none → s.offer pt [] lid = some t → exec (.placeCluster part) s = .next t)
      ∧ (∀ u, s.placeSystem part pt = some u → exec (.placeCluster part) s = .next u))
    ∧ (∀ (s : State) (part lid turn group : Nat) (pt : Partition) (l : Launch), s.parts.get? part = some pt → pt.ctx.state = 1 → pt.ck.closing = false → pt.ck.due = false →
      pt.returning = [] → s.placeSystem part pt = none → s.launches.get? lid = some l → lid / 2 ^ 54 = part → l.dispatchable = true → l.wait = none → l.det ≠ 3 → l.ranks = 1 →
      l.nextTurn = some turn → pt.groupList = [group] → (∀ x ∈ s.launches, x.1 / 2 ^ 54 = part → x.2.dispatchable = true → x = (lid, l)) →
      (∀ x ∈ s.launches, ∀ w, x.2.wait = some w → w.aged = false) → s.launches.Pairwise (fun a b => a.1 < b.1) →
      (s.rankCore pt lid l turn group 0 = none → ∃ t : State, exec (.placeCluster part) s = .next t ∧ t = { s with launches := t.launches }
          ∧ t.launches.get? lid = some { l with wait := some ⟨s.cycle, group, [], false⟩ })
      ∧ (∀ core base rot, s.rankCore pt lid l turn group 0 = some ⟨core, base, rot⟩ → ∃ t b l', exec (.placeCluster part) s = .next t ∧ t.mem = s.mem
          ∧ t.nextBlock = s.nextBlock + 1 ∧ t.blocks.get? s.nextBlock = some b ∧ t.launches.get? lid = some l' ∧ l'.wait = none
          ∧ (l.again = [] → l'.next = l.next + 1) ∧ l'.state = (if l'.nextTurn.isSome = true then .dispatching else .draining)
          ∧ b.launch = lid ∧ b.linear = l.blockIndex turn 0 ∧ b.rank = 0 ∧ b.core = core ∧ b.home = pt.sliceOf core ∧ b.sramBase = base ∧ b.sramLen = l.sramLines
          ∧ b.placed = s.cycle ∧ b.live = b.slots ∧ b.slots.length = l.blockWarps
          ∧ (∀ j, j < l.blockWarps → b.slots.getD j 0 / 16 = 4 * core + (j + rot) % 4) ∧ rot = s.nextRot lid core l
          ∧ t.rot.getD core 0 = s.rot.getD core 0 + 1
          ∧ (l.blockWarps = 1 → ∃ w, t.warps.get? (b.slots.getD 0 0) = some w ∧ w.block = s.nextBlock ∧ w.index = 0 ∧ w.n = l.regs ∧ w.present = presentLanes l 0
              ∧ w.s = List.replicate 64 0 ∧ w.v = List.replicate l.regs (List.replicate 32 0) ∧ w.p.head? = some (BitVec.allOnes 32)
              ∧ (w.path 0).state = .live ∧ (w.path 0).pc = l.entry ∧ (w.path 0).mask = w.present ||| w.helper ∧ ∀ k, k ≠ 0 → (w.path k).state = .free)))
    ∧ (∀ (s : State) (lid : Nat) (l : Launch) (w : ClusterWait), s.launches.get? lid = some l → l.wait = some w →
      (s.cycle < w.since + 16384 → exec (.clusterAgeThreshold lid) s = .next s)
      ∧ (w.since + 16384 ≤ s.cycle → ∃ t : State, exec (.clusterAgeThreshold lid) s = .next t ∧ t = { s with launches := t.launches }
          ∧ t.launches.get? lid = some { l with wait := some { w with aged := true } } ∧ ∀ k, k ≠ lid → t.launches.get? k = s.launches.get? k))
    ∧ (∀ (s : State) (bid : Nat) (b : Block) (l : Launch), s.blocks.get? bid = some b → s.launches.get? b.launch = some l →
      let stands : Prop := ∃ p, s.parts.get? (b.launch / 2 ^ 54) = some p ∧ (p.ck.closing = true ∨ p.ck.due = true)
      let ended : Prop := b.live = [] ∧ (∀ x ∈ s.stores, x.block ≠ bid) ∧ (∀ x ∈ s.unacked, x.block = bid → x.launch ≠ b.launch) ∧ (∀ x ∈ b.copies, x.2.state = .ended)
        ∧ (b.mx.stream = none ∨ ∃ f, b.mx.stopped = some f ∧ f.delivered = false) ∧ b.collOpen = 0
      let last : Prop := ∀ x ∈ s.blocks, x.1 ≠ bid → ¬(x.2.launch = b.launch ∧ x.2.turn = b.turn)
      (¬ended ∨ stands ∨ (l.det = 3 ∧ l.retiredClusters < b.turn) → exec (.blockRetire bid) s = .next s)
      ∧ (ended → ¬stands → (l.det = 3 → b.turn ≤ l.retiredClusters) → ∃ t l', exec (.blockRetire bid) s = .next t ∧ t.mem = s.mem ∧ t.warps = s.warps
          ∧ t.blocks.get? bid = none ∧ (∀ k, k ≠ bid → t.blocks.get? k = s.blocks.get? k) ∧ t.launches.get? b.launch = some l'
          ∧ l'.accum = l.accum + b.accum ∧ l'.retired = l.retired + b.retired ∧ l'.retiredBlocks = l.retiredBlocks + 1
          ∧ (last → l'.retiredClusters = l.retiredClusters + 1) ∧ (¬last → l'.retiredClusters = l.retiredClusters)
          ∧ (b.mx.stopped = none → l'.status = l.status ∧ l'.aborted = l.aborted) ∧ (b.mx.stopped.isSome = true → l'.status = 0x010A ∧ l'.aborted = true)
          ∧ l'.words = l.words ∧ l'.state = l.state))
    ∧ (∀ (s : State) (lid : Nat) (l : Launch), s.launches.get? lid = some l →
      let part := lid / 2 ^ 54
      let stands : Prop := ∃ p, s.parts.get? part = some p ∧ (p.ck.closing = true ∨ p.ck.due = true)
      let ended : Prop := (∀ x ∈ s.blocks, x.2.launch ≠ lid) ∧ (∀ p, s.parts.get? part = some p → ∀ b ∈ p.returning, b.block.launch ≠ lid)
        ∧ l.state ≠ .waiting ∧ (l.aborted = true ∨ l.nextTurn = none)
      let status := if l.status ≠ 0 then l.status else if l.aborted = true then 0x0108 else 0
      (¬ended ∨ stands → exec (.launchComplete lid) s = .next s)
      ∧ (ended → ¬stands → exec (.launchComplete lid) s = .next (s.completeLaunch lid l status)
          ∧ (s.completeLaunch lid l status).statuses.get? lid = some status ∧ (s.completeLaunch lid l status).launches.get? lid = none)
      ∧ (ended → ¬stands → l.record = none → (l.stamp = 0 → (s.completeLaunch lid l status).mem = s.mem)
          ∧ (∀ ps, l.cls = 0 → l.stamp ≠ 0 → l.stamp % 8 = 0 → s.checkPlain ⟨part, 0⟩ l.stamp 8 false true = .ok ps → (∀ p ∈ ps, p.peer = none ∧ p.host = none) →
              (s.completeLaunch lid l status).mem = (s.writePieces (cutBytes ps (leBytes 8 (status * 2 ^ 48 + lid % 2 ^ 48)))).mem)))

/-- Writes of the queue registers, of QUEUE_ABORT, of the ring registers, and register writes of BAR0. QUEUE_TAIL on a device-fed queue is an
error 0x0111, on a disabled one 0x0112, outside tail to head plus the slots 0x0110; else it is the tail, and launches that wait for their
turn look again. QUEUE_CFG with a size outside 4 to 16, or changing it or the feed of an enabled queue, and QUEUE_BASE of an enabled
queue, are errors 0x0113. An error is kept with its number where none stands, and counted. QUEUE_ABORT at or past the tail, or of a
completed packet, is an error 0x0114; before acceptance it is noted, a waiting packet completes with 0x0108, a later launch is aborted. A
ring's HEAD takes values from the old head to cmt (the trace ring's to tail) and ignores others; BASE and CFG restart a ring and are
ignored while a context stands; RPL_TAIL and RPL_CTL.end. A write of BAR0 reaches the register at its offset. (spec/02 R57, spec/02 R58,
spec/02 R66, spec/27 R520, spec/27 R521, spec/28 R535, spec/23 R476, spec/28 R531, spec/29 R545, spec/29 R546) -/
def Obligations.QueueAndRingRegisters : Prop :=
  (∀ (s : State) (part q : Nat) (pt : Partition) (v : Word), s.parts.get? part = some pt → q < 64 →
      let x := pt.queue q
      let becomes (i : Instr) (y : Queue) : Prop := ∃ t : State, exec i s = .next t ∧ t = { s with parts := t.parts }
        ∧ t.parts.get? part = some { pt with queues := pt.queues.put q y } ∧ ∀ k, k ≠ part → t.parts.get? k = s.parts.get? k
      let error (i : Instr) (status seq : Nat) : Prop := becomes i { x with
        errStatus := if x.errStatus = 0 ∧ x.errSeq = 0 then status else x.errStatus
        errSeq := if x.errStatus = 0 ∧ x.errSeq = 0 then seq else x.errSeq
        errCount := min (x.errCount + 1) (2 ^ 32 - 1) }
      let tail := (v.extractLsb' 0 48).toNat
      let size := (v.extractLsb' 4 5).toNat
      let wrong : Prop := size < 4 ∨ 16 < size ∨ (x.enable = true ∧ (size ≠ x.log2 ∨ v.getLsbD 1 ≠ x.devFeed))
      x.errCount < 2 ^ 32 →
      (x.devFeed = true → error (.queueTail part q v) 0x0111 x.tail)
      ∧ (x.devFeed = false → x.enable = false → error (.queueTail part q v) 0x0112 x.tail)
      ∧ (x.devFeed = false → x.enable = true → (tail < x.tail ∨ x.head + 2 ^ x.log2 < tail) → error (.queueTail part q v) 0x0110 x.tail)
      ∧ (x.devFeed = false → x.enable = true → x.tail ≤ tail → tail ≤ x.head + 2 ^ x.log2 → ∃ t : State, exec (.queueTail part q v) s = .next (t.wake .monitor)
          ∧ t = { s with parts := t.parts } ∧ t.parts.get? part = some { pt with queues := pt.queues.put q { x with tail := tail } }
          ∧ ∀ k, k ≠ part → t.parts.get? k = s.parts.get? k)
      ∧ (wrong → error (.queueCfg part q v) 0x0113 x.tail)
      ∧ (¬wrong → becomes (.queueCfg part q v) { x with log2 := size, serial := v.getLsbD 2, devFeed := v.getLsbD 1, enable := v.getLsbD 0 })
      ∧ (x.enable = true → error (.queueBase part q v) 0x0113 x.tail)
      ∧ (x.enable = false → becomes (.queueBase part q v) { x with base := (v.extractLsb' 12 35).toNat * 4096 })
      ∧ (v.getLsbD 32 = true → becomes (.queueErrctlClear part q v) { x with errStatus := 0, errSeq := 0, errCount := 0 })
      ∧ (v.getLsbD 32 = false → exec (.queueErrctlClear part q v) s = .next s)
      ∧ (let lid := part * 2 ^ 54 + q * 2 ^ 48 + tail
         let abort : Instr := .queueAbort part q v
         (x.tail ≤ tail → error abort 0x0114 tail)
         ∧ (tail < x.tail → x.head ≤ tail → (tail ∈ x.aborts → exec abort s = .next s) ∧ (tail ∉ x.aborts → becomes abort { x with aborts := tail :: x.aborts }))
         ∧ (tail < x.tail → tail < x.head →
            (s.launches.get? lid = none → error abort 0x0114 tail)
            ∧ (∀ l, s.launches.get? lid = some l → l.state = .waiting → exec abort s = .next (s.completePacket lid l 0x0108))
            ∧ (∀ l, s.launches.get? lid = some l → l.state ≠ .waiting → ∃ t : State, exec abort s = .next t ∧ t = { s with launches := t.launches }
                ∧ t.launches.get? lid = some { l with aborted := true, wait := none } ∧ ∀ k, k ≠ lid → t.launches.get? k = s.launches.get? k))))
    ∧ (∀ (s : State) (part : Nat) (pt : Partition) (v : Word), s.parts.get? part = some pt →
      let n := v.toNat % 2 ^ 48
      let base := (v.extractLsb' 12 35).toNat * 4096
      let becomes (i : Instr) (y : Partition) : Prop := ∃ t : State, exec i s = .next t ∧ t.mem = s.mem ∧ t.parts.get? part = some y
        ∧ ∀ k, k ≠ part → t.parts.get? k = s.parts.get? k
      (pt.gbk.head ≤ n → n ≤ pt.gbk.cmt → becomes (.ringHeadWrite part .guestbook v) { pt with gbk := { pt.gbk with head := n } })
      ∧ (n < pt.gbk.head ∨ pt.gbk.cmt < n → exec (.ringHeadWrite part .guestbook v) s = .next s)
      ∧ (pt.log.head ≤ n → n ≤ pt.log.cmt → becomes (.ringHeadWrite part .logbook v) { pt with log := { pt.log with head := n } })
      ∧ (n < pt.log.head ∨ pt.log.cmt < n → exec (.ringHeadWrite part .logbook v) s = .next s)
      ∧ (pt.trc.head ≤ n → n ≤ pt.trc.tail → (pt.dropped = 0 ∨ pt.trcEn.getLsbD 7 = false) →
          becomes (.ringHeadWrite part .trace v) { pt with trc := { pt.trc with head := n } })
      ∧ (n < pt.trc.head ∨ pt.trc.tail < n → exec (.ringHeadWrite part .trace v) s = .next s)
      ∧ exec (.ringHeadWrite part .replay v) s = .next s
      ∧ (pt.ctx.state ≠ 0 → (∀ r cfg, (r ≠ .trace ∨ cfg = false) → exec (.ringBaseCfgWrite part r cfg v) s = .next s))
      ∧ becomes (.ringBaseCfgWrite part .trace true v) { pt with trcEn := v.extractLsb' 8 8, trc := { pt.trc with log2 := v.toNat % 32 } }
      ∧ (pt.ctx.state = 0 →
          becomes (.ringBaseCfgWrite part .trace false v) { pt with trc := ⟨base, pt.trc.log2, 0, 0, 0, pt.trc.fin⟩ }
          ∧ becomes (.ringBaseCfgWrite part .guestbook false v) { pt with gbk := ⟨base, pt.gbk.log2, 0, 0, 0, pt.gbk.fin⟩, closed := [] }
          ∧ becomes (.ringBaseCfgWrite part .guestbook true v) { pt with gbk := ⟨pt.gbk.base, v.toNat % 32, 0, 0, 0, pt.gbk.fin⟩, closed := [] }
          ∧ becomes (.ringBaseCfgWrite part .logbook false v) { pt with log := ⟨base, pt.log.log2, 0, 0, 0, pt.log.fin⟩ }
          ∧ becomes (.ringBaseCfgWrite part .logbook true v) { pt with log := ⟨pt.log.base, v.toNat % 32, 0, 0, 0, pt.log.fin⟩ }
          ∧ becomes (.ringBaseCfgWrite part .replay false v) { pt with rpl := ⟨base, pt.rpl.log2, 0, 0, 0, pt.rpl.fin⟩, replayHeld := [] }
          ∧ becomes (.ringBaseCfgWrite part .replay true v) { pt with rpl := ⟨pt.rpl.base, v.toNat % 32, 0, 0, 0, pt.rpl.fin⟩, replayHeld := [] })
      ∧ (pt.rpl.tail ≤ n → n ≤ pt.rpl.cmt + 2 ^ pt.rpl.log2 → becomes (.rplTail part v) { pt with rpl := { pt.rpl with tail := n, fin := false } })
      ∧ (n < pt.rpl.tail ∨ pt.rpl.cmt + 2 ^ pt.rpl.log2 < n → becomes (.rplTail part v) { pt with rpl := { pt.rpl with fin := false } })
      ∧ (v.getLsbD 48 = true → becomes (.rplCtlEnd part v) { pt with rpl := { pt.rpl with fin := true } })
      ∧ (v.getLsbD 48 = false → exec (.rplCtlEnd part v) s = .next s))
    ∧ (∀ (s : State) (port off : Nat) (v : Word), off % 8 ≠ 0 → exec (.registerWrite port off v) s = .next s)
    ∧ (∀ (s : State) (port part q : Nat) (pt : Partition) (v : Word), s.ctl.refused = 0 → s.parts.get? part = some pt → part < 32 → q < 64 →
      let block := 0x100000 + 0x10000 * part
      exec (.registerWrite port (block + 0x40 * q + 0x10) v) s = exec (.queueTail part q v) s
      ∧ exec (.registerWrite port (block + 0x6000) v) s = (match v.toNat % 8 with
          | 1 => exec (.ctxPark part v) s
          | 2 => exec (.ctxSave part v) s
          | 3 => exec (.ctxRestore part v) s
          | 4 => exec (.ctxSwitch part v) s
          | 5 => exec (.ctxTerminate part v) s
          | 6 => exec (.ctxCreate part v) s
          | _ => .next s)
      ∧ (let becomes (o : Nat) (y : Partition) : Prop := ∃ t : State, exec (.registerWrite port (block + o) v) s = .next t ∧ t = { s with parts := t.parts }
           ∧ t.parts.get? part = some y ∧ ∀ k, k ≠ part → t.parts.get? k = s.parts.get? k
         becomes 0x6010 { pt with ctx := { pt.ctx with area := (v.extractLsb' 16 31).toNat * 65536 } }
         ∧ becomes 0x7000 { pt with ck := { pt.ck with cfg := v &&& 0xFFFFFFFFFFFF0007 } }
         ∧ becomes 0x7008 { pt with ck := { pt.ck with area := v &&& 0xFFF07FFFFFE00000 } }
         ∧ (∀ (k : Nat) (y : Comparator), pt.comps[k]? = some y → k < 8 →
             becomes (0x9000 + 16 * k) { pt with comps := pt.comps.set k { y with addr := v } }
             ∧ becomes (0x9008 + 16 * k) { pt with comps := pt.comps.set k ⟨y.addr, if v.getLsbD 0 then 0 else y.hits, (v.extractLsb' 6 2).toNat,
                 (v.extractLsb' 4 2).toNat, (v.extractLsb' 2 2).toNat, v.getLsbD 0⟩ })))

/-- Held and released paths, slot counters, the freeze, the control semaphore, and reads by the host and by the debug port. DBG_CMD marks the
path it names to be held, or lets a held path go on from its unit, exempt from its comparators; it names none that is free or halted. A
read of counter 0 latches the quarter's 32 counters, of which 0 is the cycle and 22 what the other leaves leave of it. FRZ_N freezes the
package, CTL_FREEZE with its key from the port that holds CTL_HWSEM. A read of CTL_HWSEM takes a free semaphore for 10,000 µs and shows
who holds it; its owner releases it; a hold whose time has passed lapses. The host reads device memory unless a group holds its lines or
a barge owns one, and registers of BAR0; the debug port reads HBM itself (for a modified line of the memory-side cache what lies under
it), and the image of a frozen package. (spec/23 R486, spec/28 R531, spec/28 R534, spec/28 R538, spec/28 R539, spec/28 R540, spec/28
R541, spec/29 R543, spec/29 R544, spec/29 R545, spec/29 R546) -/
def Obligations.DebugFreezeAndReads : Prop :=
  (∀ (s : State) (part wid i : Nat) (v : Word) (w : Warp) (p : Path), s.namedPath part v = some (wid, i, p) → s.warps.get? wid = some w → w.path i = p → i < w.paths.length →
      let becomes (j : Instr) (q : Path) : Prop := ∃ t x, exec j s = .next t ∧ t.warps.get? wid = some x ∧ x.path i = q ∧ (∀ k, k ≠ i → x.path k = w.path k)
        ∧ x.s = w.s ∧ x.v = w.v ∧ ∀ k, k ≠ wid → t.warps.get? k = s.warps.get? k
      (p.state ≠ .parked .debugHold → becomes (.dbgHold part v) { p with holdAsked := true } ∧ becomes (.dbgRelease part v) { p with holdAsked := false })
      ∧ (p.state = .parked .debugHold → exec (.dbgHold part v) s = .next s
          ∧ becomes (.dbgRelease part v) { p with state := .live, since := s.cycle, exempt := 2, holdAsked := false }
          ∧ (s.heldPaths part = [(wid, i, p)] → becomes (.dbgReleaseAll part v) { p with state := .live, since := s.cycle, exempt := 2, holdAsked := false })))
    ∧ (∀ (s : State) (part : Nat) (v : Word),
      (s.namedPath part v = none → exec (.dbgHold part v) s = .next s ∧ exec (.dbgRelease part v) s = .next s)
      ∧ (s.heldPaths part = [] → exec (.dbgReleaseAll part v) s = .next s))
    ∧ (∀ (s : State) (core quarter : Nat), core < 512 → quarter < 4 →
      let q := 4 * core + quarter
      let leaf (k : Nat) : Nat := nth (s.slots.getD q (List.replicate 28 0)) k 0
      ∃ cs : List Nat, exec (.counterRead core quarter) s = .next { s with latched := s.latched.put q cs, hostData := leBytes 8 s.cycle }
        ∧ cs.length = 32 ∧ nth cs 0 0 = s.cycle ∧ (∀ k, 1 ≤ k → k < 28 → k ≠ 22 → nth cs k 0 = leaf k)
        ∧ nth cs 22 0 = s.cycle - (((List.range 28).filter fun k => k ≠ 0 ∧ k ≠ 22).map leaf).sum
        ∧ nth cs 29 0 = s.correctedCompute.getD q 0 ∧ nth cs 30 0 = s.correctedFetch.getD core 0 ∧ nth cs 31 0 = s.copyErrors.getD core 0)
    ∧ (∀ (s : State) (port : Nat) (v : Word),
      let key : Prop := s.ctl.owner = port + 1 ∧ v.extractLsb' 8 8 = 0xA5 ∧ v.getLsbD 0 = true
      exec .frzN s = .next { s with frozen := true, focus := none, trigger := some (0, 0) }
      ∧ (key → exec (.ctlFreeze port v) s = .next { s with frozen := true, focus := none, trigger := some (9, 0) })
      ∧ (¬key → exec (.ctlFreeze port v) s = .next s))
    ∧ (∀ (s : State) (port : Nat),
      let word := if s.ctl.owner = 0 then 0 else (s.ctl.until' - s.cycle + 1249) / 1250 * 2 ^ 16 + s.ctl.owner * 2 + 1
      (s.ctl.owner = 0 ∨ s.ctl.owner = port + 1 → exec (.hwsemRead port) s = .next { s with
          hostData := leBytes 8 word, ctl := { s.ctl with owner := port + 1, until' := s.cycle + 12500000 } })
      ∧ (s.ctl.owner ≠ 0 → s.ctl.owner ≠ port + 1 → exec (.hwsemRead port) s = .next { s with hostData := leBytes 8 word }
          ∧ exec (.hwsemRelease port) s = .next s)
      ∧ (s.ctl.owner = port + 1 → exec (.hwsemRelease port) s = .next { s with ctl := { s.ctl with owner := 0, until' := 0 } })
      ∧ (s.ctl.owner ≠ 0 → s.ctl.until' ≤ s.cycle → exec .hwsemLapse s = .next { s with
          ctl := { s.ctl with owner := 0, until' := 0, lapses := min (s.ctl.lapses + 1) 255 } })
      ∧ (s.ctl.owner = 0 ∨ s.cycle < s.ctl.until' → exec .hwsemLapse s = .next s))
    ∧ (∀ (s : State) (port addr len : Nat), addr + len ≤ 2 ^ 52 → 0 < len → s.held = [] →
      let held : Prop := s.heldFrom none (hbmPieces addr len) = true ∨ ∃ p ∈ hbmPieces addr len, s.lineOwned p = true
      (¬held → ∃ t : State, exec (.hostRead port addr len) s = .next t
          ∧ t = { s with hostData := s.mem.bytes addr len, outbox := .hostData port (s.mem.bytes addr len) :: s.outbox })
      ∧ (held → exec (.hostRead port addr len) s = .next { s with held := [.hostRead port addr len] }))
    ∧ (∀ (s : State) (port part q : Nat) (pt : Partition), s.parts.get? part = some pt → part < 32 → q < 64 → s.ctl.refused = 0 →
      let reads (off : Nat) (x : Nat) : Prop := exec (.hostRead port (2 ^ 62 + off) 8) s = .next { s with
        hostData := leBytes 8 x, outbox := .hostData port (leBytes 8 x) :: s.outbox }
      let block := 0x100000 + 0x10000 * part
      reads (block + 0x40 * q + 0x10) (pt.queue q).tail ∧ reads (block + 0x40 * q + 0x18) (pt.queue q).head ∧ reads (block + 0x40 * q + 0x20) (pt.queue q).done
      ∧ reads (block + 0x40 * q + 0x28) ((pt.queue q).errStatus * 2 ^ 48 + (pt.queue q).errSeq) ∧ reads (block + 0x1000) (part * 2 ^ 32 + pt.groups.toNat)
      ∧ reads (block + 0x7010) (pt.ck.committed * 2 ^ 32 + pt.ck.current) ∧ reads (block + 0x8010) pt.gbk.tail ∧ reads 0x304000 s.readView)
    ∧ (∀ (s : State) (addr len : Nat),
      (addr < 2 ^ 52 → ∃ bs : List Byte, exec (.debugPortRead addr len) s = .next { s with hostData := bs } ∧ bs.length = len ∧ ∀ i, i < len →
          (∀ old h, s.cache.get? ((addr + i) / 128) = some ⟨some old, h⟩ → nth bs i 0 = nth old ((addr + i) % 128) 0)
          ∧ ((s.cache.get? ((addr + i) / 128)).bind (·.under) = none →
              (∀ x ∈ s.hidden, addr + i < x.piece.key ∨ x.piece.key + x.old.length ≤ addr + i) → nth bs i 0 = s.mem.byte (addr + i)))
      ∧ (2 ^ 52 ≤ addr → s.frozen = false → exec (.debugPortRead addr len) s = .next s)
      ∧ (s.frozen = true → exec (.debugPortRead (2 ^ 52) 24) s = .next { s with
          hostData := leBytes 2 1 ++ leBytes 2 0 ++ leBytes 4 272 ++ zeros 8 ++ leBytes 8 s.cycle }))

/-- Commands of the security mailbox, cold reset and the arithmetic clock. A mailbox that is not ready answers every command with 8. NONCE
gives 48 fresh bytes, which stand as the nonce; IMAGE takes an accepted image for its stage, keeping the security image in flash, and
else gives the status of its first failing check; TRANSFER with the standing nonce and both signatures puts the new keys in the other
slot and uses the nonce up, and else gives 2, 1, 4 or 3; CONFIG keeps a record that passes and applies it: partitions get their core
groups, the member index, domain, first view and Canal apertures are set (where the record holds the apertures is the model's choice, log
entry 24); ATTEST writes a report to host memory; KEYS gives the hash of the owner's keys and the attestation keys. A cold reset keeps
flash, but for records that boot refuses since they no longer verify (that they are then not in force is the model's choice, log entry
203), and what lies outside the device. The clock takes one of three levels. (spec/29 R549, spec/29 R550, spec/29 R551, spec/29 R552,
spec/29 R553, spec/29 R554, spec/29 R555, spec/29 R556, spec/29 R557, spec/19 R400, spec/19 R401) -/
def Obligations.ManagementAndSecurity : Prop :=
  (∀ (s : State),
      let reply (u : State) (status : Nat) (r : List Byte) : State :=
        { u with ctl := { u.ctl with status := status, rlen := r.length % 4096, buf := (r ++ u.ctl.buf.drop r.length).take 2048 } }
      (∀ (stage : Nat) (bs : List Byte), s.ctl.ready = false → ∀ i ∈ [Instr.nonce, .image stage bs, .transfer bs, .config bs, .attest bs, .keys],
        exec i s = .next (reply s 8 []))
      ∧ (s.ctl.ready = true →
        (let n := leBytes 48 (Config.freshNonce s.ctl.nonces).toNat
         exec .nonce s = .next (reply { s with ctl := { s.ctl with nonce := some n, nonces := s.ctl.nonces + 1 } } 0 n))
        ∧ (∀ (stage : Nat) (bs : List Byte),
          (stage = 0 ∨ 4 < stage → exec (.image stage bs) s = .next (reply s 1 []))
          ∧ (1 ≤ stage → stage ≤ 4 → s.flash.imageStatus bs ≠ 0 → exec (.image stage bs) s = .next (reply s (s.flash.imageStatus bs) []))
          ∧ (bs.length < 256 → s.flash.imageStatus bs = 2)
          ∧ (256 ≤ bs.length → bs.length = 256 + imageNumber 2 bs → fieldAt bs 0 4 ≠ 0x4D495850 → s.flash.imageStatus bs = 1)
          ∧ (s.flash.imageStatus bs = 0 → fieldAt bs 0 4 = 0x4D495850 ∧ sha384 (bs.drop 256) = Config.imageField 3 (bs.take 256)
              ∧ s.flash.minVersion (imageNumber 0 bs) ≤ imageNumber 1 bs)
          ∧ (s.flash.imageStatus bs = 0 → ∃ t : State, exec (.image 4 bs) s = .next t ∧ t.mem = s.mem ∧ t.flash = s.flash ∧ t.ctl.running.get? 4 = some bs
              ∧ t.ctl.boot = 4 ∧ t.ctl.refused = 0 ∧ t.ctl.status = 0 ∧ t.ctl.rlen = 0)
          ∧ (s.flash.imageStatus bs = 0 → ∃ t : State, exec (.image 1 bs) s = .next t ∧ t.mem = s.mem ∧ t.flash.images.get? 1 = some bs
              ∧ t.ctl.running.get? 1 = some bs ∧ 1 ≤ t.ctl.boot ∧ t.ctl.status = 0))
        ∧ (∀ bs : List Byte,
          let nonce := (bs.drop 148).take 48
          let signed := s.flash.verifies (bs.take 196) ((bs.drop 196).take 96) (bs.drop 292)
          let ends (k : Nat) : Prop := exec (.transfer bs) s = .next (reply s k [])
          (bs.length < 292 → ends 2)
          ∧ (292 ≤ bs.length → fieldAt bs 0 4 ≠ 0x46525458 → ends 1)
          ∧ (292 ≤ bs.length → fieldAt bs 0 4 = 0x46525458 → s.ctl.nonce ≠ some nonce → ends 4)
          ∧ (292 ≤ bs.length → fieldAt bs 0 4 = 0x46525458 → s.ctl.nonce = some nonce → signed = false → ends 3)
          ∧ (292 ≤ bs.length → fieldAt bs 0 4 = 0x46525458 → s.ctl.nonce = some nonce → signed = true → exec (.transfer bs) s = .next (reply { s with
              flash := { s.flash with keys := some ((bs.drop 4).take 96, (bs.drop 100).take 48), slot := 1 - s.flash.slot }
              ctl := { s.ctl with nonce := none } } 0 [])))
        ∧ (∀ bs : List Byte,
          let kind := fieldAt bs 4 2
          let part := fieldAt bs 6 2
          let body := (bs.drop 0x40).take (fieldAt bs 0x10 4)
          (s.recordStatus bs ≠ 0 → exec (.config bs) s = .next (reply s (s.recordStatus bs) []))
          ∧ (bs.length < 0xA0 → s.recordStatus bs = 2)
          ∧ (s.recordStatus bs = 0 → ∃ t : State, exec (.config bs) s = .next t ∧ t.mem = s.mem ∧ t.ctl.status = 0
              ∧ t.flash.records.get? (kind * 65536 + part) = some ⟨fieldAt bs 8 8, bs, body⟩
              ∧ (kind = 1 → ∀ p, p < 32 → 8 * p + 8 ≤ body.length → ∀ m, m = fieldAt body (8 * p) 8 →
                  (m % 2 ^ 32 = 0 → t.parts.get? p = none) ∧ (m % 2 ^ 32 ≠ 0 → ∃ x, t.parts.get? p = some x ∧ x.groups = BitVec.ofNat 32 m))
              ∧ (kind = 5 → t.self = fieldAt body 0 8 % 1024 ∧ t.domain = BitVec.ofNat 1024 (leNat ((body.drop 8).take 128))
                  ∧ (t.domain.getLsbD t.self = true → t.viewNo = 1 ∧ t.manifest = t.domain))
              ∧ (kind = 5 → ∀ p, t.parts.get? p = (s.parts.get? p).map fun x =>
                  { x with aperture := (fieldAt body (136 + 16 * p) 8, fieldAt body (144 + 16 * p) 8) })
              ∧ (kind ≠ 1 → kind ≠ 3 → kind ≠ 5 → t.parts = s.parts) ∧ (kind ≠ 5 → t.viewNo = s.viewNo ∧ t.manifest = s.manifest ∧ t.self = s.self)))
        ∧ (∀ nonce : List Byte,
          let report := s.reportBody nonce ++ Config.attestationSignature (s.reportBody nonce) s.ctl.reports
          (nonce.length ≠ 48 ∨ s.ctl.hlen < report.length → exec (.attest nonce) s = .next (reply s 2 []))
          ∧ (nonce.length = 48 → report.length ≤ s.ctl.hlen → 2 ^ 52 < s.ctl.haddr + report.length → exec (.attest nonce) s = .next (reply s 7 []))
          ∧ (nonce.length = 48 → report.length ≤ s.ctl.hlen → s.ctl.haddr + report.length ≤ 2 ^ 52 → report.take 52 = leBytes 4 0x54544158 ++ nonce
              ∧ ∃ t : State, exec (.attest nonce) s = .next (reply { t with ctl := { s.ctl with reports := s.ctl.reports + 1 } } 0 (leBytes 4 report.length))
                ∧ t = s.writePiece ⟨2 ^ 52 + s.ctl.haddr, report.length, s.ctl.haddr, none, none⟩ report
                ∧ t.mem = s.mem.write (2 ^ 52 + s.ctl.haddr) report ∧ t.ctl = s.ctl ∧ t.parts = s.parts ∧ t.flash = s.flash))
        ∧ exec .keys s = .next (reply s 0 (sha384 (s.flash.ownerKeys.1 ++ s.flash.ownerKeys.2) ++ Config.attestationPublicKeys)))
      ∧ (∃ t : State, exec .coldReset s = .next t ∧ t.flash = { s.flash with records := t.flash.records } ∧ (∀ r ∈ t.flash.records, r ∈ s.flash.records)
          ∧ (2 ≤ t.ctl.boot → t.flash.records = s.flash.records.filter fun r => s.flash.holds r.2) ∧ t.agenda = s.agenda ∧ t.cycle = 0 ∧ t.focus = none ∧ t.frozen = false
          ∧ t.launches = [] ∧ t.blocks = [] ∧ t.warps = [] ∧ t.stores = [] ∧ t.statuses = [] ∧ t.ctl.owner = 0 ∧ t.ctl.ready = true
          ∧ ∀ k, t.mem.byte k = (if (2 ^ 52 ≤ k ∧ k < 2 ^ 60) ∨ 2 ^ 64 ≤ k then s.mem.byte k else 0))
      ∧ (∀ level, exec (.thermalThrottle level) s = .next { s with throttle := min level 2 }))

/-- Accesses of the host and of peers, requests that end without their data, and translations of the host. A posted write stores its bytes
unless a group holds their lines or a barge owns one, and then waits. A peer's request in its pair's order, free of such holds, is
executed once and answered with its data, a write's bytes stored, an atomic's old value returned and its result stored unless it is
poisoned; a semaphore wait stands at its lockkeeper where a take finds room, and waits for room otherwise; an early request waits, a
repeated atomic is answered with the kept result and poison. An acknowledgement lands the earliest write to its peer in memory there and
lets fences look again. A load behind a host port that fails raises 0x51 subcode 0x00 where marked poisoned, else 0x03; a copy's unit is
spoiled; another access meets the error when it is next made (the model's choice, log entry 195). A cross-domain write that times out is
dropped and logged. A translation stands in a peer's memory, HBM or host memory by its address and is cached as the largest of 2 GiB, 32
MiB and 512 KiB it covers and is aligned to (where the aperture and BAR2 stand and how subs 9 and 12 to 15 of a peer's atomic are
numbered are the model's choices, log entries 180 and 182). An invalidation removes what overlaps and completes once no access under it
and no fetched word is left. An uncorrectable error poisons its sector. (spec/12 R301, spec/12 R306, spec/12 R309, spec/12 R310, spec/15
R363, spec/20 R435, spec/20 R436, spec/20 R437, spec/20 R439, spec/20 R440, spec/20 R444, spec/23 R486) -/
def Obligations.HostAndPeerTraffic : Prop :=
  (∀ (s : State) (port addr : Nat) (bs : List Byte),
      (bs = [] ∨ 2 ^ 52 < addr + bs.length → exec (.hostPostedWrite port addr bs) s = .next s)
      ∧ (bs ≠ [] → addr + bs.length ≤ 2 ^ 52 → s.held = [] →
        let held : Prop := s.heldFrom none (hbmPieces addr bs.length) = true ∨ ∃ p ∈ hbmPieces addr bs.length, s.lineOwned p = true
        (held → exec (.hostPostedWrite port addr bs) s = .next { s with held := [.hostWrite port addr bs] })
        ∧ (¬held → ∃ t : State, exec (.hostPostedWrite port addr bs) s = .next t
            ∧ t = { s with mem := t.mem, poison := t.poison, hidden := t.hidden, cache := t.cache } ∧ (∀ i, i < bs.length → t.mem.byte (addr + i) = bs.getD i 0)
            ∧ ∀ k, k < addr ∨ addr + bs.length ≤ k → t.mem.byte k = s.mem.byte k)))
    ∧ (∀ (s : State) (m seq : Nat), s.held = [] → seq < 2 ^ 16 →
      let last (cls : Nat) : Nat := s.canalSeqs.getD (m * 4 + cls) 0
      let turn (cls : Nat) : Prop := last cls < 2 ^ 16 ∧ seq = (last cls + 1) % 2 ^ 16
      let early (cls : Nat) : Prop := last cls < 2 ^ 16 ∧ seq ≠ (last cls + 1) % 2 ^ 16 ∧ 2 ^ 15 ≤ (last cls + 2 ^ 16 - seq) % 2 ^ 16
      let answers (t : State) (cls : Nat) (bs : List Byte) (bad : Bool) : Prop :=
        t.outbox = .member m (.completion seq bs bad) :: s.outbox ∧ t.canalSeqs.getD (m * 4 + cls) 0 = seq ∧ t.held = []
      let free (ps : List Piece) : Prop := s.heldFrom none ps = false ∧ ∀ p ∈ ps, s.lineOwned p = false
      (∀ a len, a + len ≤ 2 ^ 52 → 0 < len → free (hbmPieces a len) →
        (turn 0 → ∃ t, exec (.canalRequest m seq (.read a len)) s = .next t ∧ t.mem = s.mem ∧ answers t 0 (s.mem.bytes a len) ((hbmPieces a len).any s.poisoned))
        ∧ (early 0 → exec (.canalRequest m seq (.read a len)) s = .next { s with held := [.peer m seq (.read a len)] }))
      ∧ (∀ a bs, a + bs.length ≤ 2 ^ 52 → bs ≠ [] → free (hbmPieces a bs.length) →
        (turn 1 → ∃ t, exec (.canalRequest m seq (.write a bs)) s = .next t ∧ answers t 1 [] false
            ∧ (∀ i, i < bs.length → t.mem.byte (a + i) = bs.getD i 0) ∧ ∀ k, k < a ∨ a + bs.length ≤ k → t.mem.byte k = s.mem.byte k))
      ∧ (∀ (a x sub : Nat) (f : Fmt),
        let n := elemBits f / 8
        let old := s.mem.bytes a n
        let v := leBytes n (atomValue (peerAtom sub) f (leNat old) (x % 2 ^ 64) (x / 2 ^ 64))
        let bad := (hbmPieces a n).any s.poisoned
        let op : CanalOp := .atomic sub f a x
        a + n ≤ 2 ^ 52 → 0 < n → free (hbmPieces a n) → turn 2 → s.lockTurn (homeOfKey a) ((512 + m) * 128) = true →
        (sub < 14 → ¬(sub = 9 ∧ f = .none) → ∃ t, exec (.canalRequest m seq op) s = .next t ∧ answers t 2 old bad
            ∧ (bad = true → t.mem = s.mem)
            ∧ (bad = false → (∀ i, i < n → t.mem.byte (a + i) = v.getD i 0) ∧ ∀ k, k < a ∨ a + n ≤ k → t.mem.byte k = s.mem.byte k)
            ∧ (t.pairOf (2 ^ 40 + (m * 4 + 2))).kept.get? seq = some (old, bad))
        ∧ (let h : Piece := ⟨a, 32, a, none, none⟩
           let cell : Piece := ⟨a + 32 + 16 * (x / 2 ^ 32), 16, a + 32 + 16 * (x / 2 ^ 32), none, none⟩
           let refused (y : Byte) (b : Bool) : Prop := ∃ t, exec (.canalRequest m seq op) s = .next t ∧ t.mem = s.mem ∧ answers t 2 [y] b
           sub = 9 → f = .none →
            (s.poisoned h = true ∨ s.poisoned cell = true → refused 0 true)
            ∧ (s.poisoned h = false → s.poisoned cell = false → s.regionHere h = none → refused 1 false)
            ∧ (∀ g, s.poisoned h = false → s.poisoned cell = false → s.regionHere h = some g → g.cells ≤ x / 2 ^ 32 → refused 1 false))
        ∧ (14 ≤ sub → (sub = 14 ∨ s.waitersAt (homeOfKey a) < 1024) → ∃ t, exec (.canalRequest m seq op) s = .next t ∧ t.mem = s.mem
            ∧ t.outbox = s.outbox ∧ t.peerWaits = s.peerWaits ++ [⟨m, seq, a, sub != 14, x % 2 ^ 64⟩]
            ∧ t.semQueues.getD a [] = s.semQueues.getD a [] ++ (if sub = 14 then [] else [(32768 + m, seq)]))
        ∧ (14 < sub → 1024 ≤ s.waitersAt (homeOfKey a) → exec (.canalRequest m seq op) s = .next { s with held := [.peer m seq op] }))
      ∧ (∀ (a x sub : Nat) (f : Fmt) (r : List Byte × Bool), a + elemBits f / 8 ≤ 2 ^ 52 → last 2 < 2 ^ 16 → seq = last 2 →
        (s.pairOf (2 ^ 40 + (m * 4 + 2))).kept.get? seq = some r →
        exec (.canalRequest m seq (.atomic sub f a x)) s = .next { s with outbox := .member m (.completion seq r.1 r.2) :: s.outbox }))
    ∧ (∀ (s : State) (n : Nat),
      let first (t : Store) : Prop := ∀ u ∈ s.unacked.take n, u.piece.peer ≠ t.piece.peer
      (s.unacked.length ≤ n → exec (.writeAcknowledgement n) s = .next s)
      ∧ (∀ t, s.unacked[n]? = some t → ¬first t → exec (.writeAcknowledgement n) s = .next s)
      ∧ (∀ t, s.unacked[n]? = some t → first t → ∃ u : State, exec (.writeAcknowledgement n) s = .next u ∧ u.unacked = s.unacked.eraseIdx n
          ∧ (∀ i, i < t.data.length → u.mem.byte (t.piece.key + i) = t.data.getD i 0)
          ∧ (∀ k, k < t.piece.key ∨ t.piece.key + t.data.length ≤ k → u.mem.byte k = s.mem.byte k)
          ∧ (t.poison = true → 2 ^ 64 ≤ t.piece.key → t.piece.key / 32 ∈ u.poison) ∧ u.stores = s.stores ∧ u.parts = s.parts ∧ u.blocks = s.blocks
          ∧ ∀ wid w i, s.warps.get? wid = some w → i < w.paths.length → (w.path i).state = .parked .fence → (w.path i).await = none → (w.path i).waits = none →
            w.stopped i = false → ∃ v, u.warps.get? wid = some v ∧ (v.path i).state = .live ∧ (v.path i).pc = (w.path i).pc))
    ∧ (∀ (s : State) (wid i : Nat) (c : Ctx) (r : LoadReq) (ys : List (Nat × Nat × List Piece)) (y : Nat × Nat × List Piece) (marked : Bool),
      s.awaiting wid i = some (c, .load r) → (r.lanes.filter fun x => x.2.2.any fun p => p.host.isSome) = y :: ys →
      let lanes := if r.shape = .lanes then maskOf fun l => (y :: ys).any fun x => x.1 == l else r.acting &&& c.w.present
      let trap (sub : Nat) : Trap := ⟨0x51, sub, BitVec.ofNat 64 y.2.1, lanes⟩
      exec (.hostCompletionError (.path wid i) marked) s = .next (s.answeredTrap c (trap (if marked = true then 0x00 else 0x03)))
      ∧ exec (.hostCompletionTimeout (.path wid i)) s = .next (s.answeredTrap c (trap 0x03)))
    ∧ (∀ (s : State) (bid seq : Nat) (x : CopyCtx) (ps : List (List Piece)) (marked : Bool), s.copyOf bid seq = some x → x.cmd.state = .active →
      (x.cmd.unitAt x.runs x.cmd.pos).reads.mapM (s.bargePieces x.env x.cmd.ex true false) = .ok ps → (∃ p ∈ ps.flatten, p.host.isSome = true) →
      ∀ i ∈ [Instr.hostCompletionError (.copy bid seq) marked, .hostCompletionTimeout (.copy bid seq)], exec i s = .next (s.setCopy bid { x.cmd with badRead := true }))
    ∧ (∀ (s : State) (a b c : Nat) (marked : Bool),
      (∀ who ∈ [Outstanding.fetch a b, .stream a, .operand a, .arguments a b, .stamp a, .fold a b, .collective a b c],
        exec (.hostCompletionError who marked) s = .next { s with portFaults := s.portFaults ++ [(who, if marked = true then 0 else 3)] }
        ∧ exec (.hostCompletionTimeout who) s = .next { s with portFaults := s.portFaults ++ [(who, 3)] })
      ∧ exec (.hostCompletionError (.write a) marked) s = .next s ∧ exec (.hostCompletionTimeout (.write a)) s = .next s)
    ∧ (∀ (s : State) (n : Nat) (t : Store), s.unacked[n]? = some t →
      ((∀ m, t.piece.peer = some m → m < 1024) → exec (.crossDomainTimeout (.write n)) s = .next s)
      ∧ (∀ m, t.piece.peer = some m → 1024 ≤ m → ∃ u : State, exec (.crossDomainTimeout (.write n)) s = .next u ∧ u.mem = s.mem
          ∧ u.unacked = s.unacked.eraseIdx n ∧ u.dropTotal = (s.dropTotal + 1) % 2 ^ 64
          ∧ u.drops.getD (s.dropTotal % 256) [] =
              leBytes 6 t.piece.va ++ leBytes 2 t.piece.len ++ leBytes 2 (m % 1024 + s.portTo m * 1024 + 32768) ++ leBytes 2 (t.warp / 64) ++ leBytes 4 s.dropTotal))
    ∧ (∀ (s : State) (pasid va size ta : Nat) (r w x : Bool),
      (s.parts.find? (fun p => p.2.pasid == pasid) = none → exec (.atsTranslationCompletion ⟨pasid, va, size, ta, r, w, x⟩) s = .next s)
      ∧ (∀ k pt, s.parts.find? (fun p => p.2.pasid == pasid) = some (k, pt) →
        let canal : Prop := pt.aperture.1 ≤ ta ∧ ta < pt.aperture.1 + pt.aperture.2
        let bar : Prop := s.bar2 ≤ ta ∧ ta < s.bar2 + 768 * 2 ^ 30
        let cachedAs (n : Nat) : Prop := n ≤ size ∧ va % n = 0
        let meets (q : Page) (n : Nat) : Prop := q.pasid = pasid ∧ q.va < va + n ∧ va < q.va + q.size
        ∃ (t : State) (whole : Page), exec (.atsTranslationCompletion ⟨pasid, va, size, ta, r, w, x⟩) s = .next t ∧ t = { s with iommu := t.iommu, atc := t.atc }
          ∧ whole = ⟨pasid, va, size, whole.space, whole.pa, r, w, x, s.viewNo⟩
          ∧ (canal → whole.space = .peer ((ta - pt.aperture.1) / 2 ^ 40) ∧ whole.pa = (ta - pt.aperture.1) % 2 ^ 40)
          ∧ (¬canal → bar → whole.space = .hbm ∧ whole.pa = ta - s.bar2)
          ∧ (¬canal → ¬bar → whole.space = .host pt.port ∧ whole.pa = ta)
          ∧ t.iommu.head? = some whole ∧ (∀ q, q ∈ t.iommu.tail ↔ q ∈ s.iommu ∧ ¬(q.pasid = pasid ∧ q.va = va))
          ∧ (let enters (n : Nat) : Prop := t.atc.head? = some { whole with size := n } ∧ ∀ q, q ∈ t.atc.tail ↔ q ∈ s.atc ∧ ¬meets q n
             (cachedAs (2 ^ 31) → enters (2 ^ 31))
             ∧ (¬cachedAs (2 ^ 31) → cachedAs (2 ^ 25) → enters (2 ^ 25))
             ∧ (¬cachedAs (2 ^ 31) → ¬cachedAs (2 ^ 25) → cachedAs (2 ^ 19) → enters (2 ^ 19))
             ∧ (¬cachedAs (2 ^ 31) → ¬cachedAs (2 ^ 25) → ¬cachedAs (2 ^ 19) → t.atc = s.atc))))
    ∧ (∀ (s : State) (pasid va size : Nat) (r w x : Bool),
      let meets (p : Page) : Prop := p.pasid = pasid ∧ p.va < va + size ∧ va < p.va + p.size
      (∃ t : State, exec (.atsInvalidation pasid va size r w x false) s = .next t ∧ t.mem = s.mem
          ∧ (∀ p, p ∈ t.atc ↔ p ∈ s.atc ∧ ¬meets p) ∧ (∀ p, p ∈ t.iommu ↔ p ∈ s.iommu ∧ ¬meets p)
          ∧ ∃ exec', t.invalidations = s.invalidations ++ [(pasid, va, size, exec')] ∧ (exec' = true ↔ ∃ p ∈ s.atc ++ s.iommu, meets p ∧ p.x = true))
      ∧ (∃ t : State, exec (.atsInvalidation pasid va size r w x true) s = .next t ∧ t.mem = s.mem ∧ (∀ p, p ∈ t.atc ↔ p ∈ s.atc ∧ ¬meets p)
          ∧ (∀ p ∈ t.iommu, meets p → p.r = r ∧ p.w = w ∧ p.x = x) ∧ t.iommu.length = s.iommu.length)
      ∧ (∀ exec', s.invalidations.find? (fun i => i.1 == pasid && i.2.1 == va && i.2.2.1 == size) = some (pasid, va, size, exec') →
        let done : Instr := .invalidationCompletion pasid va size
        (s.accessOpen pasid va size = true → exec done s = .next s)
        ∧ (s.accessOpen pasid va size = false → exec' = false → exec done s = .next { s with
            invalidations := s.invalidations.erase (pasid, va, size, false), outbox := .invalidated pasid va size :: s.outbox })
        ∧ (s.accessOpen pasid va size = false → exec' = true → s.fetchHeld pasid va size = false → ∃ t : State, exec done s = .next t
            ∧ t.invalidations = s.invalidations.erase (pasid, va, size, true) ∧ t.outbox = .invalidated pasid va size :: s.outbox)
        ∧ (∀ wid c i l, s.accessOpen pasid va size = false → exec' = true → s.warps.get? wid = some c → i < c.paths.length → s.hasPasid pasid (s.partOf c.block) = true →
            (c.path i).line = some l → l.addr < va + size → va < l.addr + 64 → (∃ t v, exec done s = .next t ∧ t.warps.get? wid = some v
              ∧ (s.readyPath c i = false → (v.path i).line = none) ∧ (s.readyPath c i = true → (v.path i).line = some l ∧ t.invalidations = s.invalidations)))
        ∧ (∀ bid b m l, s.accessOpen pasid va size = false → exec' = true → s.blocks.get? bid = some b → s.hasPasid pasid (partOfLaunch b.launch) = true →
            b.mx.stream = some m → m.line = some l → l.addr < va + size → va < l.addr + 64 → (∃ t v n, exec done s = .next t ∧ t.blocks.get? bid = some v
              ∧ v.mx.stream = some n ∧ (s.streamReady bid b.mx m = false → n.line = none)
              ∧ (s.streamReady bid b.mx m = true → n.line = some l ∧ t.invalidations = s.invalidations)))))
    ∧ (∀ (s : State) (key : Nat),
      (key < 2 ^ 52 ∨ isSram key = true ∨ 2 ^ 64 ≤ key → ∃ t : State, exec (.eccUncorrectableError key) s = .next t ∧ t = { s with poison := t.poison }
          ∧ ∀ k, k ∈ t.poison ↔ k ∈ s.poison ∨ k = key / 32)
      ∧ (2 ^ 52 ≤ key → key < 2 ^ 60 → exec (.eccUncorrectableError key) s = .next s))

/-- Heartbeats, the agreement's messages, adopting a view, exclusion, and requests to join. A heartbeat goes to each neighbour every 2 µs; a
member silent for 20 µs is suspected. A change tells every unsuspected member whom this one suspects; the lowest unsuspected member
leads: it proposes the manifest without the suspected and with the joiner, to the next view number, where that is a majority, or half
with the lowest member, and else is excluded; the others wait. A proposal is accepted with the committed list, or refused with the
suspects. When all have accepted, COMMIT goes to the old and new members and the view is adopted: every context has a view it has not
acknowledged, every remote translation goes, collectives follow the table. A silent or refusing member is left out. The leader holds a
rejoin request while collectives are open; others pass it on. (spec/19 R401, spec/19 R402, spec/19 R403, spec/19 R404, spec/19 R405,
spec/19 R406, spec/19 R407, spec/12 R312, spec/19 R423, spec/19 R424) -/
def Obligations.ViewAgreement : Prop :=
  (∀ (s : State),
      let members := (List.range 1024).filter s.manifest.getLsbD
      let old : State := s
      let told (t : State) (ms : List Nat) (x : MemberMsg) (before : List Msg) : Prop := t.outbox = ((ms.filter (· ≠ old.self)).map fun m => Msg.member m x).reverse ++ before
      let nextView := if s.viewNo = 0xFFFFFFFF then 1 else s.viewNo + 1
      let blank : Agreement := ⟨[], [], none, none, [], [], s.cycle⟩
      (∀ m, exec (.heartbeat m) s = .next { s with heard := s.heard.put m s.cycle })
      ∧ (s.neighbours ≠ [] → s.beatAt + 2500 ≤ s.cycle → exec .heartbeatSend s = .next { s with
          beatAt := s.cycle, outbox := (s.neighbours.map fun m => Msg.member m .heartbeat).reverse ++ s.outbox })
      ∧ (s.neighbours = [] ∨ s.cycle < s.beatAt + 2500 → exec .heartbeatSend s = .next s)
      ∧ (∀ m, let expired : Prop := m ≠ s.self ∧ s.manifest.getLsbD m = true ∧ s.heard.getD m 0 + 25000 ≤ s.cycle
          (expired → exec (.heartbeatTimeout m) s = .next (s.beginChange [m] none)) ∧ (¬expired → exec (.heartbeatTimeout m) s = .next s))
      ∧ (∀ m, s.viewNo ≠ 0 → s.agreement = none → m ≠ s.self → s.manifest.getLsbD m = true → ∃ u : State,
          s.beginChange [m] none = u.lead { blank with suspects := [m] } ∧ u = { s with outbox := u.outbox } ∧ told u (members.filter (· ≠ m)) (.suspect s.viewNo [m]) s.outbox)
      ∧ (∀ m, s.viewNo ≠ 0 → s.agreement = none → ∃ u : State,
          s.beginChange [] (some m) = u.lead { blank with adding := some m } ∧ u = { s with outbox := u.outbox } ∧ told u members (.suspect s.viewNo []) s.outbox)
      ∧ (∀ (a : Agreement),
          let stays := members.filter fun m => m ∉ a.suspects ∧ m ∉ a.named
          (∀ l, stays.head? = some l → l ≠ s.self → s.lead a = { s with agreement := some { a with proposed := none, accepted := [], lists := [], since := s.cycle } })
          ∧ (stays = [] → (s.lead a).viewNo = 0)
          ∧ (∀ p : BitVec 1024, stays.head? = some s.self → (∀ k, k < 1024 → (p.getLsbD k = true ↔ k ∈ stays ∨ a.adding = some k)) → (∀ k, a.adding = some k → k < 1024) →
              let kept := (members.filter p.getLsbD).length
              let legal : Prop := members.length < 2 * kept ∨ (2 * kept = members.length ∧ ∃ l, members.head? = some l ∧ p.getLsbD l = true)
              let led : Agreement := { a with proposed := some p, accepted := [s.self], lists := s.committedList, since := s.cycle }
              (p = s.manifest → s.lead a = { s with agreement := none, viewCtl := { s.viewCtl with toAdmit := false, toRemove := false } })
              ∧ (p ≠ s.manifest → ¬legal → (s.lead a).viewNo = 0)
              ∧ (p ≠ s.manifest → legal → (List.range 1024).filter p.getLsbD = [s.self] → s.lead a = s.commitView led p)
              ∧ (p ≠ s.manifest → legal → (List.range 1024).filter p.getLsbD ≠ [s.self] → ∃ t : State, s.lead a = t ∧ t = { s with agreement := some led, outbox := t.outbox }
                  ∧ told t ((List.range 1024).filter p.getLsbD) (.propose nextView p) s.outbox)))
      ∧ (∀ (sender view : Nat) (ks : List Nat),
          (s.viewNo = 0 ∨ view ≠ s.viewNo → exec (.suspect sender view ks) s = .next s)
          ∧ (s.viewNo ≠ 0 → view = s.viewNo → s.agreement = none → exec (.suspect sender view ks) s = .next (s.lead { blank with named := ks.eraseDups }))
          ∧ (∀ a, s.viewNo ≠ 0 → view = s.viewNo → s.agreement = some a → (∀ k ∈ ks, k ∈ a.named) → exec (.suspect sender view ks) s = .next s)
          ∧ (∀ a, s.viewNo ≠ 0 → view = s.viewNo → s.agreement = some a → (∃ k ∈ ks, k ∉ a.named) → exec (.suspect sender view ks) s =
              .next (s.lead { a with named := a.named ++ ks.eraseDups.filter fun k => k ∉ a.named })))
      ∧ (∀ (sender view : Nat) (p : BitVec 1024),
          let i : Instr := .propose sender view p
          let a := s.agreement.getD blank
          let leader : Prop := (members.filter fun m => m ∉ a.suspects ∧ m ∉ a.named).head? = some sender
          (p.getLsbD s.self = false → exec i s = .next s)
          ∧ (p.getLsbD s.self = true → s.viewNo = 0 → s.joining = true → exec i s = .next { s with
              outbox := .member sender (.accept (if view = 1 then 0xFFFFFFFF else view - 1) []) :: s.outbox })
          ∧ (p.getLsbD s.self = true → s.viewNo ≠ 0 → view ≠ nextView → exec i s = .next s)
          ∧ (p.getLsbD s.self = true → s.viewNo ≠ 0 → view = nextView → leader → (∀ m ∈ a.suspects, p.getLsbD m = false) → exec i s = .next { s with
              agreement := some { a with proposed := some p }, outbox := .member sender (.accept s.viewNo s.committedList) :: s.outbox })
          ∧ (p.getLsbD s.self = true → s.viewNo ≠ 0 → view = nextView → (¬leader ∨ ∃ m ∈ a.suspects, p.getLsbD m = true) → exec i s = .next { s with
              agreement := some a, outbox := .member sender (.refuse s.viewNo a.suspects) :: s.outbox }))
      ∧ (∀ (a : Agreement) (p : BitVec 1024), s.agreement = some a → a.proposed = some p → (members.filter fun m => m ∉ a.suspects ∧ m ∉ a.named).head? = some s.self →
          (∀ (sender view : Nat) (cs : List (Nat × Nat)),
            let a' := { a with accepted := sender :: a.accepted, lists := a.lists ++ cs.filter fun x => x ∉ a.lists }
            (view ≠ s.viewNo ∨ p.getLsbD sender = false ∨ sender ∈ a.accepted → exec (.accept sender view cs) s = .next s)
            ∧ (view = s.viewNo → p.getLsbD sender = true → sender ∉ a.accepted →
              ((∀ m, m < 1024 → p.getLsbD m = true → m ∈ a'.accepted) → exec (.accept sender view cs) s = .next (s.commitView a' p))
              ∧ ((∃ m, m < 1024 ∧ p.getLsbD m = true ∧ m ∉ a'.accepted) → exec (.accept sender view cs) s = .next { s with agreement := some a' }))
            ∧ (∀ ks, s.viewNo ≠ 0 → view = s.viewNo → p.getLsbD sender = true → a.adding ≠ some sender → exec (.refuse sender view ks) s = .next (s.lead { a with
                named := a.named ++ ks.filter (fun m => m ≠ s.self ∧ m ∉ a.named), suspects := a.suspects ++ [sender] })))
          ∧ (∀ m, p.getLsbD m = true → m ∉ a.accepted → a.since + 25000 ≤ s.cycle → a.adding ≠ some m →
              exec (.acceptTimeout m) s = .next (s.lead { a with suspects := a.suspects ++ [m] }))
          ∧ (∀ m, p.getLsbD m = false ∨ m ∈ a.accepted ∨ s.cycle < a.since + 25000 → exec (.acceptTimeout m) s = .next s))
      ∧ (∀ (a : Agreement) (l : Nat), s.agreement = some a → (members.filter fun m => m ∉ a.suspects ∧ m ∉ a.named).head? = some l →
          (l ≠ s.self → a.proposed = none → a.since + 25000 ≤ s.cycle → exec .proposeTimeout s = .next (s.beginChange [l] none))
          ∧ (l = s.self ∨ a.proposed.isSome = true ∨ s.cycle < a.since + 25000 → exec .proposeTimeout s = .next s))
      ∧ (∀ (a : Agreement) (p : BitVec 1024), ∃ u : State, s.commitView a p = u.adoptView nextView p a.lists ∧ u = { s with outbox := u.outbox }
          ∧ told u ((List.range 1024).filter (s.manifest ||| p).getLsbD) (.commit nextView p a.lists) s.outbox)
      ∧ (∀ (view : Nat) (p : BitVec 1024) (cs : List (Nat × Nat)),
          (s.viewNo = 0 → s.joining = true → p.getLsbD s.self = true → exec (.viewCommit view p cs) s = .next (s.adoptView view p cs))
          ∧ (s.viewNo = 0 → (s.joining = false ∨ p.getLsbD s.self = false) → exec (.viewCommit view p cs) s = .next s)
          ∧ (s.viewNo ≠ 0 → view ≠ nextView → exec (.viewCommit view p cs) s = .next s)
          ∧ (s.viewNo ≠ 0 → view = nextView → p.getLsbD s.self = true → s.joins = [] → exec (.viewCommit view p cs) s = .next (s.adoptView view p cs))
          ∧ (s.viewNo ≠ 0 → view = nextView → p.getLsbD s.self = false → ∃ t, exec (.viewCommit view p cs) s = .next t ∧ t.viewNo = 0 ∧ t.manifest = 0 ∧ t.agreement = none
              ∧ t.mem = s.mem ∧ ∀ key x, s.colls.get? key = some x → (x.state = .gathering ∨ x.state = .ready) → t.colls.get? key = some { x with state := .ending 0x0306, view := 0 })
          ∧ (s.anyJoin = false → ∃ t : State, s.adoptView view p cs = t ∧ t.viewNo = view ∧ t.manifest = p ∧ t.agreement = none ∧ t.joining = false ∧ t.mem = s.mem
              ∧ (∀ k x, s.parts.get? k = some x → ∃ y, t.parts.get? k = some y ∧ y.unack = true)
              ∧ (∀ k x, s.images.get? k = some x → ∃ y, t.images.get? k = some y ∧ y.part.unack = true)
              ∧ (∀ y ∈ t.atc, y ∈ s.atc ∧ ∀ m, y.space ≠ .peer m)
              ∧ ∀ key x h, s.colls.get? key = some x → x.here = some h → (x.state = .gathering ∨ x.state = .ready) →
                  let listed : Prop := (key / 2 ^ 48, key % 2 ^ 48) ∈ cs
                  let noRoot : Prop := h.desc.kind = .broadcast ∧ h.desc.mset ≠ 0 ∧ (h.parties &&& p).getLsbD h.desc.root = false
                  (listed → t.colls.get? key = some { x with state := .committed, view := s.viewNo })
                  ∧ (¬listed → h.desc.mode = 0 → t.colls.get? key = some { x with state := .ending 0x0301, view := nextView })
                  ∧ (¬listed → h.desc.mode ≠ 0 → noRoot → t.colls.get? key = some { x with state := .ending 0x0303, view := nextView })
                  ∧ (¬listed → h.desc.mode ≠ 0 → ¬noRoot → t.colls.get? key = some { x with
                      here := some { h with parties := h.parties &&& p }, state := .gathering, attempt := x.attempt + 1, parts := [], readys := [], again := true })))
      ∧ (∀ m, s.viewNo ≠ 0 → s.agreement = none → s.manifest.getLsbD m = false → s.joins = [] →
          let busy := (s.colls.filter fun x => x.2.here.isSome && x.2.open').map (·.1)
          (∀ l, members.head? = some l → l ≠ s.self → exec (.joinMessage m) s = .next { s with outbox := .member l (.join m) :: s.outbox })
          ∧ (members.head? = some s.self → s.colls.Pairwise (fun a b => a.1 < b.1) → busy ≠ [] → exec (.joinMessage m) s = .next { s with joins := [(m, busy)] })
          ∧ (members.head? = some s.self → busy = [] → exec (.joinMessage m) s = .next (State.beginChange { s with joins := [(m, [])] } [] (some m))))
      ∧ (∀ m, s.viewNo = 0 ∨ s.manifest.getLsbD m = true → exec (.joinMessage m) s = .next s)
      ∧ (∀ v : Word,
          let m := (v.extractLsb' 32 10).toNat
          let ignored : Prop := (v.getLsbD 44 = true ∧ v.getLsbD 43 = true) ∨ s.agreement.isSome = true
          (v.getLsbD 44 = true → ignored → exec (.viewAdmit v) s = .next s)
          ∧ (v.getLsbD 43 = true → ignored → exec (.viewRemove v) s = .next s)
          ∧ (v.getLsbD 44 = true → ¬ignored → (s.viewNo = 0 ∨ s.manifest.getLsbD m = true ∨ s.domain.getLsbD m = false) →
              exec (.viewAdmit v) s = .next { s with viewCtl := { s.viewCtl with member := m } })
          ∧ (v.getLsbD 44 = true → ¬ignored → s.viewNo ≠ 0 → s.manifest.getLsbD m = false → s.domain.getLsbD m = true →
              exec (.viewAdmit v) s = .next (State.takeJoin { s with viewCtl := ⟨m, true, s.viewCtl.toRemove⟩ } m))
          ∧ (v.getLsbD 43 = true → ¬ignored → (s.viewNo = 0 ∨ s.manifest.getLsbD m = false ∨ m = s.self) →
              exec (.viewRemove v) s = .next { s with viewCtl := { s.viewCtl with member := m } })
          ∧ (v.getLsbD 43 = true → ¬ignored → s.viewNo ≠ 0 → s.manifest.getLsbD m = true → m ≠ s.self →
              exec (.viewRemove v) s = .next (State.beginChange { s with viewCtl := ⟨m, s.viewCtl.toAdmit, true⟩ } [m] none))))

/-- Messages of an instance, and the steps of the engine from its parts to its stamp. A message of another view is discarded and counted on
its port. A partial sum of this attempt from members not heard yet is kept, READY notes its sender, COMMIT commits an instance that is
ready, ABORT ends one that is open with 0x0307. The engine reads the member set, as soon as it may, and ends the instance with 0x0308,
0x0304 or 0x0303 where it cannot be read, is bad, or leaves a broadcast without its root. It then sends this member's part to every
participant and keeps its own; with every part held and every digest the same it is ready and tells the lowest, and else ends with
0x0305; the lowest with READY from all commits and sends COMMIT; a committed instance writes its result and is to end with 0, with 0x0003
for poison or 0x0302 after a further view; an access that is refused ends it with 0x0308. An ended instance, once the peers it wrote to
have answered where its mask has bit 5, writes its stamp, leaves its block one less open and its status there, and marks its warp where
membership changed. (spec/19 R407, spec/19 R408, spec/19 R414, spec/19 R415, spec/19 R416, spec/19 R417, spec/19 R418, spec/19 R426,
spec/19 R427, spec/19 R428, spec/12 R301) -/
def Obligations.CollectiveEvents : Prop :=
  (∀ (s : State) (comm k view : Nat),
      let key := comm * 2 ^ 48 + k
      let discarded (m : Nat) : State := { s with ports := s.ports.adjust (s.portTo m) fun p => { p with discards := min (p.discards + 1) (2 ^ 32 - 1) } }
      (∀ sender attempt ks bs, view ≠ s.viewNo ∨ s.viewNo = 0 →
          exec (.partialSum comm k view attempt (sender :: ks) bs) s = .next (discarded sender) ∧ exec (.ready comm k sender view) s = .next (discarded sender))
      ∧ (view ≠ s.viewNo ∨ s.viewNo = 0 → ∀ i ∈ [Instr.collCommit comm k view, .abort comm k view], exec i s = .next (discarded (s.collSender comm k)))
      ∧ (∀ x, view = s.viewNo → s.viewNo ≠ 0 → s.collNamed comm k = some x →
          let isOpen : Prop := x.state = .gathering ∨ x.state = .ready
          (∀ (attempt : Nat) (ks : List Nat) (bs : List Byte),
            (¬isOpen ∨ attempt < x.attempt ∨ ks = [] ∨ (∃ m ∈ ks, s.manifest.getLsbD m = false) → exec (.partialSum comm k view attempt ks bs) s = .next s)
            ∧ (isOpen → attempt = x.attempt → ks ≠ [] → (∀ m ∈ ks, s.manifest.getLsbD m = true ∧ m ∉ x.heard) → (ks.length = 1 ∨ ∀ h, x.here = some h → h.desc.reduces = true) →
                ∃ t : State, exec (.partialSum comm k view attempt ks bs) s = .next t ∧ t = { s with colls := t.colls }
                  ∧ t.colls.get? key = some { x with parts := x.parts ++ [(ks, bs)] } ∧ ∀ j, j ≠ key → t.colls.get? j = s.colls.get? j))
          ∧ (∀ sender, (¬isOpen ∨ sender ∈ x.readys → exec (.ready comm k sender view) s = .next s)
            ∧ (isOpen → sender ∉ x.readys → ∃ t : State, exec (.ready comm k sender view) s = .next t ∧ t = { s with colls := t.colls }
                  ∧ t.colls.get? key = some { x with readys := sender :: x.readys } ∧ ∀ j, j ≠ key → t.colls.get? j = s.colls.get? j))
          ∧ (¬isOpen → exec (.abort comm k view) s = .next s)
          ∧ (isOpen → ∃ t : State, exec (.abort comm k view) s = .next t ∧ t = { s with colls := t.colls }
              ∧ t.colls.get? key = some { x with state := .ending 0x0307, view := view } ∧ ∀ j, j ≠ key → t.colls.get? j = s.colls.get? j))
      ∧ (∀ x h, view = s.viewNo → s.viewNo ≠ 0 → s.colls.get? key = some x → x.here = some h →
          (x.state ≠ .ready → exec (.collCommit comm k view) s = .next s)
          ∧ (x.state = .ready → ∃ t : State, exec (.collCommit comm k view) s = .next t ∧ t = { s with colls := t.colls, parts := t.parts }
              ∧ t.colls.get? key = some { x with state := .committed, view := s.viewNo } ∧ ∀ j, j ≠ key → t.colls.get? j = s.colls.get? j)))
    ∧ (∀ (s : State) (comm k : Nat) (x : Coll) (h : CollHere), s.colls.get? (comm * 2 ^ 48 + k) = some x → x.here = some h → s.joins = [] → k < 2 ^ 48 →
      let key := comm * 2 ^ 48 + k
      let i : Instr := .collStamp comm k
      let members := (List.range 1024).filter h.parties.getLsbD
      let others := members.filter (· ≠ s.self)
      let changes (t : State) (y : Coll) : Prop := exec i s = .next t ∧ t = { s with colls := t.colls, outbox := t.outbox } ∧ t.colls.get? key = some y
        ∧ ∀ j, j ≠ key → t.colls.get? j = s.colls.get? j
      (x.state = .gathering → h.desc.mset ≠ 0 → s.agreement = none → s.self ∉ x.heard → ∀ parts : List (Nat × List Byte), parts.map (·.1) = members → s.self ∈ members →
          (∀ j bs, (j, bs) ∈ parts → match h.desc.part s.self j with
            | none => bs = h.desc.digest
            | some r => ∃ es, s.engineElems key h r = .ok es ∧ bs = h.desc.digest ++ es.flatMap elemBytes) →
          ∃ t, changes t { x with parts := x.parts ++ [([s.self], ((parts.find? fun p => p.1 == s.self).map (·.2)).getD [])] }
            ∧ t.outbox = ((parts.filter fun p => p.1 ≠ s.self).map fun p => Msg.member p.1 (.partialSum comm k s.viewNo x.attempt [s.self] p.2)).reverse ++ s.outbox)
      ∧ (x.state = .gathering → h.desc.mset ≠ 0 → s.agreement = none → s.self ∈ x.heard → (∀ m ∈ members, m ∈ x.heard) → members ≠ [] →
          ((∃ p ∈ x.parts, p.2.take 16 ≠ h.desc.digest) → ∃ t, changes t { x with state := .ending 0x0305 } ∧ t.outbox = s.outbox)
          ∧ ((∀ p ∈ x.parts, p.2.take 16 = h.desc.digest) → ∃ t, changes t { x with
                state := .ready, readys := if members.head? = some s.self then s.self :: x.readys else x.readys }
              ∧ (∀ l, members.head? = some l → l ≠ s.self → t.outbox = .member l (.ready comm k s.viewNo) :: s.outbox)
              ∧ (members.head? = some s.self → t.outbox = s.outbox)))
      ∧ ((x.state = .gathering ∧ h.desc.mset ≠ 0 ∨ x.state = .ready) → s.agreement.isSome = true → exec i s = .next s)
      ∧ (x.state = .gathering → h.desc.mset ≠ 0 → s.self ∈ x.heard → (∃ m ∈ members, m ∉ x.heard) → exec i s = .next s)
      ∧ (x.state = .gathering → h.desc.mset = 0 →
          (s.readMset key h = .error .wait → ∃ t, changes t x ∧ t.outbox = s.outbox)
          ∧ (s.readMset key h = .error .refused → ∃ t, changes t { x with state := .ending 0x0308 }
              ∧ t.outbox = (others.map fun m => Msg.member m (.abort comm k s.viewNo)).reverse ++ s.outbox)
          ∧ (∀ m, s.readMset key h = .ok m →
              let h' : CollHere := { h with desc := { h.desc with mset := m }, parties := m &&& s.manifest }
              let noRoot : Prop := h.desc.kind = .broadcast ∧ h'.parties.getLsbD h.desc.root = false
              (h'.desc.membersBad s.domain s.self = true → ∃ t, changes t { x with here := some h', state := .ending 0x0304 } ∧ t.outbox = s.outbox)
              ∧ (h'.desc.membersBad s.domain s.self = false → noRoot → ∃ t, changes t { x with here := some h', state := .ending 0x0303 } ∧ t.outbox = s.outbox)
              ∧ (h'.desc.membersBad s.domain s.self = false → ¬noRoot → ∃ t, changes t { x with here := some h' } ∧ t.outbox = s.outbox)))
      ∧ (x.state = .ready → s.agreement = none → (members.head? ≠ some s.self ∨ ∃ m ∈ members, m ∉ x.readys) → members ≠ [] → exec i s = .next s)
      ∧ (x.state = .ready → s.agreement = none → members.head? = some s.self → (∀ m ∈ members, m ∈ x.readys) → ∃ t : State, exec i s = .next t
          ∧ t = { s with colls := t.colls, outbox := t.outbox, parts := t.parts } ∧ t.colls.get? key = some { x with state := .committed, view := s.viewNo }
          ∧ t.outbox = (others.map fun m => Msg.member m (.collCommit comm k s.viewNo)).reverse ++ s.outbox)
      ∧ (∀ (a : Nat) (es : List (Nat × Nat)) (ps : List Piece), x.state = .committed → x.result h = [(a, es)] → h.desc.record = 0 →
          s.enginePieces h false true (a, es.length * h.desc.unit) = .ok ps → s.running h = false → (∀ e ∈ es, e.2.testBit 3 = false) →
          ∃ t : State, exec i s = .next t ∧ t.colls.get? key = some { x with state := .ending (if x.again = true then 0x0302 else 0) }
            ∧ ((∀ p ∈ ps, p.peer = none) → t.unacked = s.unacked ∧ t.mem = (s.writePieces (cutBytes ps (es.flatMap fun e => leBytes h.desc.unit e.1))).mem)
            ∧ (∀ p, ps = [p] → p.peer.isSome = true → t.mem = s.mem ∧ ∃ u, t.unacked = s.unacked ++ [u] ∧ u.piece = p
                ∧ u.data = (es.flatMap fun e => leBytes h.desc.unit e.1).take p.len))
      ∧ (∀ (a : Nat) (es : List (Nat × Nat)), x.state = .committed → x.result h = [(a, es)] →
          s.enginePieces h false true (a, es.length * h.desc.unit) = .error .refused → ∃ t, changes t { x with state := .ending 0x0308 }
            ∧ t.outbox = (others.map fun m => Msg.member m (.abort comm k s.viewNo)).reverse ++ s.outbox)
      ∧ (∀ status : Nat, x.state = .ending status → s.collReleasable h = false → exec i s = .next s)
      ∧ (∀ (status : Nat) (ps : List Piece) (b : Block), x.state = .ending status → h.det = 0 → s.running h = false → s.collReleasable h = true → s.enginePieces h false true (h.desc.stamp, 8) = .ok ps →
          (∀ p ∈ ps, p.peer = none) →
          s.blocks.get? h.bid = some b → s.colls.Pairwise (fun a b => a.1 < b.1) →
          s.warps.Pairwise (fun a b => a.1 < b.1) → (∀ w ∈ s.warps, w.2.block = h.bid → ∀ p ∈ w.2.paths, p.await = none) →
          ∃ t b', exec i s = .next t ∧ t.mem = (s.writePieces (cutBytes ps (leBytes 8 (status * 2 ^ 48 + h.seq)))).mem ∧ t.colls.get? key = none
            ∧ t.blocks.get? h.bid = some b' ∧ b'.collOpen = b.collOpen - 1 ∧ b'.collStamps.get? h.seq = some (BitVec.ofNat 64 (status * 2 ^ 48 + h.seq))
            ∧ b'.collSeq = b.collSeq ∧ b'.bars = b.bars ∧ b'.copies = b.copies))

/-- CTX_CMD's operations, what a stop does with a block, its end, the exchange, landing lines and the save cost. Park, save, switch and
terminate stop a running context: state 2, each block's action chosen, loads under way given up in blocks that do not drain; force and
terminate save all. A block in a handler is saved; an idempotent one that wrote nothing outside and has not come far is flushed; one at
nine tenths drains. 512 cycles after the request what drains is saved. The stop over, a save leaves state 4, a termination state 0 with
no block, warp or launch of the context; a park or switch begins its exchange, which takes 1,024 cycles and leaves the context in the
cellar with state 3. Restore brings the cellar's context or an image, or state 6 where there is none. Create gives state 1, interval 1,
zero SRAM and each core's slice. A landing line writes its bytes. Every 65,536 cycles the cost is counted. (spec/02 R79, spec/16 R379,
spec/22 R463, spec/22 R464, spec/22 R465, spec/22 R466, spec/22 R467, spec/22 R468, spec/22 R469, spec/22 R470, spec/22 R471, spec/22
R473) -/
def Obligations.ContextOperations : Prop :=
  (∀ (s : State) (part : Nat) (pt : Partition) (v : Word), s.parts.get? part = some pt →
      let idle : Prop := pt.ctx.work = none ∧ pt.ck.closing = false ∧ pt.ck.due = false
      (¬idle → ∀ i ∈ [Instr.ctxPark part v, .ctxSave part v, .ctxSwitch part v, .ctxTerminate part v, .ctxRestore part v, .ctxCreate part v], exec i s = .next s)
      ∧ (pt.ctx.state ≠ 1 → ∀ i ∈ [Instr.ctxPark part v, .ctxSave part v, .ctxSwitch part v, .ctxTerminate part v], exec i s = .next s)
      ∧ (idle → pt.ctx.state = 1 → ∀ x ∈ [(Instr.ctxPark part v, CtxOp.park), (.ctxSave part v, .save), (.ctxSwitch part v, .switch), (.ctxTerminate part v, .terminate)],
          ∃ t p plan, exec x.1 s = .next t ∧ t.mem = s.mem ∧ t.blocks = s.blocks ∧ t.parts.get? part = some p
            ∧ p.ctx = { pt.ctx with state := 2, work := some ⟨x.2, s.cycle, pt.ctx.area, plan, none⟩ }
            ∧ plan.map (·.1) = (s.blocks.filter fun b => b.2.launch / 2 ^ 54 == part).map (·.1)
            ∧ ((v.getLsbD 3 = true ∨ x.2 = .terminate) → (∀ b ∈ s.blocks, (s.launches.get? b.2.launch).isSome = true) → ∀ a ∈ plan, a.2 = .save)
            ∧ (∀ wid w i r, s.warps.get? wid = some w → s.partOf w.block = part → plan.get? w.block ≠ some .drain → i < w.paths.length →
                (w.path i).await.map (·.what) = some (.load r) → ∃ u, t.warps.get? wid = some u ∧ u.path i = { w.path i with await := none }))
      ∧ (∀ (bid : Nat) (b : Block) (l : Launch), s.launches.get? b.launch = some l →
          let far := (s.expectedLength part l).filter (· != 0)
          let held : Prop := b.mx.stopped.isSome = true ∨ ∃ w ∈ s.warps, w.2.block = bid ∧ (w.2.inHandler = true ∨ w.2.halted = true)
          let early : Prop := ∀ n, far = some n → 2 * b.retired < n
          let flushes : Prop := l.idem = true ∧ b.wroteOut = false ∧ b.logged = false ∧ early ∧ (far = none → b.retired < 65536)
          s.blockAction part true bid b = .save
          ∧ (held → s.blockAction part false bid b = .save)
          ∧ (¬held → flushes → s.blockAction part false bid b = .flush)
          ∧ (∀ n, ¬held → ¬flushes → far = some n → 9 * n ≤ 10 * b.retired → s.blockAction part false bid b = .drain)
          ∧ (¬held → ¬flushes → (∀ n, far = some n → 10 * b.retired < 9 * n) → s.blockAction part false bid b = .save))
      ∧ (idle → pt.ctx.state ∈ [0, 3, 4, 6] →
          (pt.ctx.area = pt.cellarArea → (s.cellars.get? part).isSome = true → ∃ t p, exec (.ctxRestore part v) s = .next t ∧ t = { s with parts := t.parts }
            ∧ t.parts.get? part = some p ∧ p = { pt with ctx := { pt.ctx with state := 5, work := some ⟨.restore, s.cycle, pt.ctx.area, [], some s.cycle⟩ } })
          ∧ (¬(pt.ctx.area = pt.cellarArea ∧ (s.cellars.get? part).isSome = true) →
            (s.loadImage part pt.ctx.area = none → ∃ t p, exec (.ctxRestore part v) s = .next t ∧ t = { s with parts := t.parts } ∧ t.parts.get? part = some p
              ∧ p = { pt with ctx := { pt.ctx with state := 6, work := none } })
            ∧ (∀ img, s.loadImage part pt.ctx.area = some img → img.part.slices.length ≤ 2048 → pt.cores.length ≤ 2048 → ∃ t p, exec (.ctxRestore part v) s = .next t
              ∧ t.parts.get? part = some p ∧ p.ctx.state = 1 ∧ p.ctx.running = pt.ctx.area ∧ p.groups = pt.groups ∧ p.tframe = img.part.tframe ∧ p.queues = img.part.queues
              ∧ ∀ lid l, img.launches = [(lid, l)] → t.launches.get? (part * 2 ^ 54 + lid % 2 ^ 54) = some l)))
      ∧ (idle → pt.ctx.state ∈ [0, 4, 6] → ∀ v2 v3 : List Nat,
          (s.flash.values 2 part = none → ∃ t p, exec (.ctxCreate part v) s = .next t ∧ t = { s with parts := t.parts } ∧ t.parts.get? part = some p ∧ p.ctx.state = 6)
          ∧ (s.flash.values 2 part = some v2 → s.flash.values 3 part = some v3 → 4 ≤ v2.length → 15 ≤ v3.length → ∃ t p, exec (.ctxCreate part v) s = .next t
            ∧ t.parts.get? part = some p ∧ p.ctx = { pt.ctx with state := 1, running := pt.ctx.area, work := none } ∧ p.ck.current = 1 ∧ p.ck.committed = 0
            ∧ p.pasid = nth v2 0 0 % 2 ^ 20 ∧ p.tframe = nth v3 2 0 ∧ p.spillArea = nth v3 4 0 ∧ p.jstkArea = nth v3 6 0 ∧ p.rstkArea = nth v3 8 0 ∧ p.vtab = nth v3 14 0
            ∧ p.argArea = nth v3 0 0 ∧ p.codeArea = nth v3 10 0 ∧ p.codeSize = nth v3 11 0 ∧ p.mxArea = nth v3 12 0 ∧ p.sysQueue = []
            ∧ p.queues = pt.queues ∧ p.gbk.tail = 0 ∧ p.log.tail = 0 ∧ p.rpl.head = 0
            ∧ (∀ i core, pt.cores[i]? = some core → p.slices.get? i = some (.physical core))
            ∧ ∀ k, t.mem.byte k = (if isSram k = true ∧ (k - 2 ^ 60) / 2 ^ 21 ∈ pt.cores then 0 else s.mem.byte k))))
    ∧ (∀ (s : State) (part : Nat) (pt : Partition) (w : CtxWork), s.parts.get? part = some pt → pt.ctx.work = some w →
      (s.cycle < w.since + 512 ∨ (∀ a ∈ w.plan, a.2 ≠ .drain) → exec (.drainTimeout part) s = .next s)
      ∧ (w.since + 512 ≤ s.cycle → (∃ a ∈ w.plan, a.2 = .drain) → ∃ t p, exec (.drainTimeout part) s = .next t ∧ t.mem = s.mem ∧ t.parts.get? part = some p
          ∧ p.ctx = { pt.ctx with work := some { w with plan := w.plan.map fun a => if a.2 = .drain then (a.1, .save) else a } })
      ∧ (let stands : Prop := pt.ctx.state = 2 ∧ w.exchange = none ∧ (∀ a ∈ w.plan, a.2 = .drain → s.blocks.get? a.1 = none) ∧ s.quiet part = true
         let gone (t : State) : Prop := (∀ x ∈ t.blocks, x.2.launch / 2 ^ 54 ≠ part) ∧ ∀ x ∈ t.launches, x.1 / 2 ^ 54 ≠ part
         (¬stands → exec (.contextStopComplete part) s = .next s)
         ∧ (stands → ∃ t p, exec (.contextStopComplete part) s = .next t ∧ t.parts.get? part = some p ∧ p.ctx.stopcyc = s.cycle - w.since
            ∧ (w.op = .save → p.ctx.state = 4 ∧ p.ctx.work = none ∧ gone t)
            ∧ (w.op = .terminate → p.ctx.state = 0 ∧ p.ctx.work = none ∧ gone t)
            ∧ (w.op ≠ .save → w.op ≠ .terminate → p.ctx.state = 2 ∧ p.ctx.work = some { w with exchange := some s.cycle } ∧ t.mem = s.mem
                ∧ ∀ a ∈ w.plan, a.2 = .flush → w.plan.get? a.1 = some .flush → (∀ b, s.blocks.get? a.1 = some b → b.launch / 2 ^ 54 = part) → t.blocks.get? a.1 = none)))
      ∧ (w.exchange = none → exec (.exchangeComplete part) s = .next s)
      ∧ (∀ t0, w.exchange = some t0 →
          (s.cycle < t0 + 1024 → exec (.exchangeComplete part) s = .next s)
          ∧ (t0 + 1024 ≤ s.cycle → w.op = .park → ∃ t p, exec (.exchangeComplete part) s = .next t ∧ t.parts.get? part = some p ∧ p.ctx.state = 3 ∧ p.ctx.work = none
              ∧ p.cellarArea = pt.ctx.running ∧ (t.cellars.get? part).isSome = true ∧ (∀ x ∈ t.blocks, x.2.launch / 2 ^ 54 ≠ part) ∧ ∀ x ∈ t.launches, x.1 / 2 ^ 54 ≠ part)
          ∧ (t0 + 1024 ≤ s.cycle → w.op = .restore → s.cellars.get? part = none → ∃ t p, exec (.exchangeComplete part) s = .next t ∧ t = { s with parts := t.parts }
              ∧ t.parts.get? part = some p ∧ p.ctx.state = 6 ∧ p.ctx.work = none)
          ∧ (∀ img, t0 + 1024 ≤ s.cycle → w.op = .restore → s.cellars.get? part = some img → ∃ t p, exec (.exchangeComplete part) s = .next t ∧ t.parts.get? part = some p
              ∧ p.ctx.state = 1 ∧ p.ctx.running = w.target ∧ p.cellarArea = 0 ∧ t.cellars.get? part = none ∧ p.tframe = img.part.tframe)
          ∧ (t0 + 1024 ≤ s.cycle → w.op = .switch → s.cellars.get? part = none → exec (.exchangeComplete part) s =
              .next (((s.parkContext part).contextAt part 3).enterImage part w.target))))
    ∧ (∀ (s : State) (part slice line : Nat) (pt : Partition), s.parts.get? part = some pt →
      let n := 16384 * slice + line
      (pt.landing.get? n = none → exec (.sliceLineLand part slice line) s = .next s)
      ∧ (∀ bs, pt.landing.get? n = some bs →
          let key := s.physicalKey part (2 ^ 60 + 128 * n)
          ∃ t p, exec (.sliceLineLand part slice line) s = .next t ∧ t.mem = s.mem.write key bs ∧ t.parts.get? part = some p ∧ p = { pt with landing := pt.landing.del n }
            ∧ (isSram (128 * (key / 128)) = true → s.absent.getD (key / 128) 0 ≤ 1 → t.absent.get? (key / 128) = none)
            ∧ ∀ wid w i, s.warps.get? wid = some w → i < w.paths.length → (w.path i).state = .parked .presence → (w.path i).await = none → (w.path i).waits = none →
                w.stopped i = false → ∃ v, t.warps.get? wid = some v ∧ (v.path i).state = .live ∧ (v.path i).pc = (w.path i).pc))
    ∧ (∀ (s : State) (part : Nat) (pt : Partition), s.parts.get? part = some pt →
      let n := s.dirtyBytes part
      (pt.ctx.state ≠ 1 ∨ s.cycle < pt.ctx.costAt + 65536 → exec (.savecostUpdate part) s = .next s)
      ∧ (pt.ctx.state = 1 → pt.ctx.costAt + 65536 ≤ s.cycle → ∃ t p, exec (.savecostUpdate part) s = .next t ∧ t = { s with parts := t.parts } ∧ t.parts.get? part = some p
          ∧ p.ctx = { pt.ctx with dirty := min (n / 1024) (2 ^ 32 - 1), cycles := min (1624 + (n + 511) / 512) (2 ^ 32 - 1), costAt := s.cycle }))

/-- Closing an interval, committing it, parity, and rolling a context back. A close is asked for by the host or when the period has passed;
it stops the context, takes its image when it stands still, and then the next interval opens with no undo log, the configuration in use
being the one written; an interval with no parity to await commits at once. A parity block is joined bit by bit and acknowledged; an
acknowledged interval commits once those before it have. A rollback is due at the host's command; once the context stands still its
logged lines have their old values, its launches those of the image, and the rollback is counted. Messages of other members count towards
a close or make a rollback due. An interval's delta reaches the CXL tier in order. (spec/23 R475, spec/23 R476, spec/23 R478, spec/23
R479, spec/23 R480, spec/23 R481, spec/23 R482, spec/23 R483, spec/23 R484, spec/23 R485, spec/23 R486) -/
def Obligations.CheckpointEvents : Prop :=
  (∀ (s : State) (part : Nat) (pt : Partition), s.parts.get? part = some pt → s.parts.Pairwise (fun a b => a.1 < b.1) →
      let c := pt.ck
      let alone : Prop := c.group = 0
      let becomes (i : Instr) (f : Ckpt → Prop) : Prop := ∃ t p, exec i s = .next t ∧ t.mem = s.mem ∧ t.blocks = s.blocks ∧ t.parts.get? part = some p ∧ f p.ck
        ∧ ∀ k, k ≠ part → (t.parts.get? k).map (·.ck) = (s.parts.get? k).map (·.ck)
      (pt.ctx.state ≠ 1 → exec (.ckptCloseNow part) s = .next s ∧ exec (.intervalClose part) s = .next s ∧ exec (.ckptRollbackNow part) s = .next s
          ∧ exec (.ckptPeriodExpiry part) s = .next s)
      ∧ (pt.ctx.state = 1 → becomes (.ckptCloseNow part) fun d => ∃ w, d = { c with wanted := some w } ∧ (c.wanted = none → 1 < c.current → w = max s.cycle (c.closedAt + 12500000)))
      ∧ (pt.ctx.state = 1 → c.closing = false → c.period ≠ 0 → c.closedAt + c.period * 1250000 ≤ s.cycle → c.wanted = none →
          becomes (.ckptPeriodExpiry part) fun d => d = { c with wanted := some s.cycle })
      ∧ (c.closing = true ∨ c.period = 0 ∨ s.cycle < c.closedAt + c.period * 1250000 → exec (.ckptPeriodExpiry part) s = .next s)
      ∧ (pt.ctx.state = 1 → c.due = false → c.closing = false → (∀ w, c.wanted = some w → s.cycle < w) → exec (.intervalClose part) s = .next s)
      ∧ (∀ w, pt.ctx.state = 1 → c.due = false → c.closing = false → c.wanted = some w → w ≤ s.cycle → alone → pt.ctx.work = none →
          becomes (.intervalClose part) fun d => d = { c with closing := true, imaged := false, closedAt := s.cycle, wanted := none })
      ∧ (pt.ctx.state = 1 → c.due = false → c.closing = true → c.imaged = false →
          (s.quiet part = false → exec (.intervalClose part) s = .next s)
          ∧ (s.quiet part = true → alone → becomes (.intervalClose part) fun d => d = { c with imaged := true }))
      ∧ (pt.ctx.state = 1 → c.due = false → c.closing = true → c.imaged = true → alone → c.members = 0 → s.held = [] → ∃ t p, exec (.intervalClose part) s = .next t
          ∧ t.mem = s.mem ∧ t.parts.get? part = some p ∧ p.ck.current = (c.current + 1) % 2 ^ 32 ∧ p.ck.closing = false ∧ p.ck.undo = [] ∧ p.ck.entries = 0 ∧ p.ck.rolls = 0
          ∧ p.ck.deps = [] ∧ p.ck.cfgNow = c.cfg ∧ p.ck.areaNow = c.area ∧ (t.marks.get? (2 * c.owner + c.current % 2)).isSome = true
          ∧ (c.acked = [] → c.stripeFailed = false → c.current = c.committed + 1 → p.ck.committed = c.current ∧ p.log.cmt = pt.log.tail ∧ p.rpl.cmt = pt.replayLow))
      ∧ (∀ (k block : Nat) (bs : List Byte),
          let at' := k * 2 ^ 32 + block
          let old := c.parity.getD at' (List.replicate 4096 0)
          let pos := (c.cfgNow.extractLsb' 40 4).toNat
          (c.members = 0 ∨ pos ≠ k % (c.members + 1) → exec (.parityBlock part k block bs) s = .next s)
          ∧ (c.members ≠ 0 → pos = k % (c.members + 1) → ∃ t p new, exec (.parityBlock part k block bs) s = .next t ∧ t.mem = s.mem ∧ t.parts.get? part = some p
              ∧ p.ck = { c with parity := c.parity.put at' new } ∧ new.length = old.length ∧ (∀ i, i < old.length → nth new i 0 = nth old i 0 ^^^ nth bs i 0)
              ∧ t.outbox = (((List.range (c.members + 1)).filter (· ≠ pos)).map fun m => Msg.member m (.parityAck k)).reverse ++ s.outbox))
      ∧ (∀ k, (k ≤ c.committed ∨ c.current ≤ k ∨ k ∈ c.acked → exec (.parityAck part k) s = .next s)
          ∧ (c.committed < k → k < c.current → k ∉ c.acked → ∃ t p, exec (.parityAck part k) s = .next t ∧ t.parts.get? part = some p
              ∧ (k ≠ c.committed + 1 → c.committed + 1 ∉ c.acked → p.ck = { c with acked := c.acked ++ [k] })
              ∧ (k = c.committed + 1 → c.acked = [] → c.stripeFailed = false → p.ck.committed = k ∧ p.ck.acked = [])))
      ∧ (∀ k, let waits : Prop := k ≤ c.drained ∨ c.committed < k ∨ ∃ x ∈ c.deltas, c.drained < x.1 ∧ x.1 < k
          (waits → exec (.cxlDrainDone part k) s = .next s) ∧ (¬waits → becomes (.cxlDrainDone part k) fun d => d = { c with drained := k }))
      ∧ (pt.ctx.state ≠ 1 ∨ c.group = 0 → ∀ m, exec (.checkpointMessage part m) s = .next s)
      ∧ (pt.ctx.state = 1 → c.group ≠ 0 →
          (∀ k, k ≠ c.current → exec (.checkpointMessage part (.closeStart k)) s = .next s ∧ exec (.checkpointMessage part (.imageWritten k)) s = .next s)
          ∧ becomes (.checkpointMessage part (.closeStart c.current)) (fun d => d.started = c.started + 1 ∧ (c.closing = false → d.wanted.isSome = true)
              ∧ (c.closing = true → d.wanted = c.wanted))
          ∧ becomes (.checkpointMessage part (.imageWritten c.current)) (fun d => d = { c with written := c.written + 1 })
          ∧ (c.due = true → exec (.checkpointMessage part .rollback) s = .next s)
          ∧ (c.due = false → ∃ t p, exec (.checkpointMessage part .rollback) s = .next t ∧ t.mem = s.mem ∧ t.parts.get? part = some p ∧ p.ck.due = true ∧ p.ck.deps = []))
      ∧ (pt.ctx.state = 1 → pt.ctx.work = none → c.due = false → alone → becomes (.ckptRollbackNow part) fun d => d = { c with due := true, remoteDep := false, deps := [] })
      ∧ (pt.ctx.state = 1 → pt.ctx.work = none → c.due = true → alone → c.remoteDep = false → c.deps = [] → s.markDue part = s →
          (s.quiet part = false → exec (.ckptRollbackNow part) s = .next s)
          ∧ (∀ img, s.quiet part = true → s.marks.get? (2 * c.owner + (c.current - 1) % 2) = some img → ∃ t p, exec (.ckptRollbackNow part) s = .next t
              ∧ t.parts.get? part = some p ∧ p.ck.due = false ∧ p.ck.undo = [] ∧ p.ck.entries = 0 ∧ p.ck.current = c.current ∧ p.ck.committed = c.committed
              ∧ p.ck.rolls = c.rolls + 1 ∧ p.ck.rollbacks = min (c.rollbacks + 1) 65535
              ∧ ((∀ x ∈ s.launches, x.1 / 2 ^ 54 = part → x.2.cls ≠ 0) → img.part.gbk.tail = pt.gbk.tail → pt.closed = [] → pt.landing = [] →
                  c.undo.Pairwise (fun a b => a.1 < b.1) → (∀ u ∈ c.undo, u.2.old.length = 128) →
                  (∀ u ∈ c.undo, t.mem.bytes (128 * u.1) 128 = u.2.old)
                  ∧ (∀ k, (∀ u ∈ c.undo, k / 128 ≠ u.1) → t.mem.byte k = s.mem.byte k)
                  ∧ (img.launches.Pairwise (fun a b => a.1 < b.1) → ∀ lid l, img.launches.get? lid = some l → t.launches.get? lid = some l)))))

/-- Flits, replay and retraining of links, and isolation and restoring of Canal ports. A flit of the expected number is acknowledged and the
next is expected; another is discarded; one that fails its CRC is answered with a NAK that names the expected number, and a second
failure of it or the sixteenth within 2^20 cycles begins a retrain. An acknowledgement frees the flits up to it, a NAK counts those sent
again. A retrain ends at full width with spares where four or fewer lanes of each direction failed, else on a half that qualifies, else
down; a Canal port at the width of its healthy lanes, else isolated. D2D_CTL.clear zeroes the counters and retrains. A port that goes
down, times out or is told to is isolated, and its peer too where no other port reaches it. Restoring an isolated port retrains it, then
it carries View messages only. Writes to isolated peers are dropped and logged; loads in flight to them will find their bytes lost, and
the lanes of atomics there end without a result. (spec/20 R430, spec/20 R431, spec/20 R432, spec/20 R433, spec/20 R434, spec/20 R438,
spec/20 R439, spec/20 R440, spec/20 R441, spec/20 R442, spec/12 R312) -/
def Obligations.LinksAndPorts : Prop :=
  (∀ (s : State) (k : Nat) (x : Link) (fwd : Bool), s.link? k = some x →
      let d := if fwd = true then x.forward else x.back
      let dirOf (y : Link) : LinkDir := if fwd = true then y.forward else y.back
      let fails := ((s.cycle :: x.fails).filter fun c => s.cycle < c + 2 ^ 20)
      let becomes (i : Instr) (f : State → Link → Prop) : Prop := ∃ t y, exec i s = .next t ∧ t.mem = s.mem ∧ t.warps = s.warps ∧ t.link? k = some y ∧ f t y
        ∧ (∀ j, j ≠ k → t.link? j = s.link? j) ∧ (if fwd = true then y.back = x.back else y.forward = x.forward)
      (∀ (seq : Nat) (ok : Bool), x.state ≠ 0 → exec (.flitReceive k fwd seq ok) s = .next s)
      ∧ (∀ seq, x.state = 0 → seq < 1024 → seq = d.expected →
          becomes (.flitReceive k fwd seq true) fun t y => t.outbox = .flitAck k fwd seq :: s.outbox ∧ (dirOf y).expected = (seq + 1) % 1024 ∧ (dirOf y).acked = d.acked
            ∧ y.state = 0 ∧ y.crcfail = x.crcfail)
      ∧ (∀ seq, x.state = 0 → seq < 1024 → seq ≠ d.expected →
          becomes (.flitReceive k fwd seq true) fun t y => t.outbox = s.outbox ∧ (dirOf y).expected = d.expected ∧ (dirOf y).acked = d.acked ∧ y.state = 0)
      ∧ (∀ seq, x.state = 0 → becomes (.flitReceive k fwd seq false) fun t y => t.outbox = .flitNak k fwd d.expected :: s.outbox ∧ dirOf y = d
            ∧ y.crcfail = min (x.crcfail + 1) (2 ^ 32 - 1)
            ∧ (x.redo = some (fwd, d.expected) ∨ 16 ≤ fails.length → y.state = 1 ∧ y.retrains = min (x.retrains + 1) 255)
            ∧ (x.redo ≠ some (fwd, d.expected) → fails.length < 16 → y.state = 0 ∧ y.retrains = x.retrains ∧ y.redo = some (fwd, d.expected) ∧ y.fails = fails))
      ∧ (∀ seq, seq < 1024 →
          let held (b : Nat) : Nat := (b + 1024 - d.acked) % 1024
          (held seq < held d.next → becomes (.flitAck k fwd seq) fun t y => t.outbox = s.outbox ∧ dirOf y = { d with acked := (seq + 1) % 1024 } ∧ y.state = x.state)
          ∧ (held d.next ≤ held seq → exec (.flitAck k fwd seq) s = .next s)
          ∧ (held seq ≤ held d.next → becomes (.flitNak k fwd seq) fun t y => t.outbox = s.outbox ∧ dirOf y = { d with acked := seq }
                ∧ y.replays = min (x.replays + (d.next + 1024 - seq) % 1024) (2 ^ 32 - 1))
          ∧ (held d.next < held seq → exec (.flitNak k fwd seq) s = .next s)))
    ∧ (∀ (s : State) (k : Nat) (x : Link) (f b : BitVec 64), k < 20 → s.links.get? k = some x →
      let bad (m : BitVec 64) (lo n : Nat) : Nat := ((List.range n).filter fun i => m.getLsbD (lo + i)).length
      let fits (lo n : Nat) : Prop := bad f lo n ≤ 4 ∧ bad b lo n ≤ 4
      let becomes (i : Instr) (y : Link) : Prop := ∃ t : State, exec i s = .next t ∧ t = { s with links := t.links } ∧ t.links.get? k = some y
        ∧ ∀ j, j ≠ k → t.links.get? j = s.links.get? j
      let done : Instr := .retrainComplete k f b
      (x.state ≠ 1 → exec done s = .next s)
      ∧ (x.state = 1 → fits 0 64 → becomes done { x with state := 0, width := 0, spares := bad f 0 64 + bad b 0 64 })
      ∧ (x.state = 1 → ¬fits 0 64 → fits 0 32 → becomes done { x with state := 0, width := 1, spares := bad f 0 32 + bad b 0 32 })
      ∧ (x.state = 1 → ¬fits 0 64 → ¬fits 0 32 → fits 32 32 → becomes done { x with state := 0, width := 1, spares := bad f 32 32 + bad b 32 32 })
      ∧ (x.state = 1 → ¬fits 0 64 → ¬fits 0 32 → ¬fits 32 32 → s.links = (List.range 20).map (fun j => (j, if j = k then x else Link.reset 0)) →
          becomes done { x with state := 2, width := 2, spares := 0 })
      ∧ (∀ v : Word, (v.getLsbD 0 = true → becomes (.d2dClear k v) { x with
            crcfail := 0, replays := 0, state := 1, retrains := min (x.retrains + 1) 255, fails := [], redo := none })
          ∧ (v.getLsbD 0 = false → exec (.d2dClear k v) s = .next s)))
    ∧ (∀ (s : State) (p : Nat) (x : Port), s.ports.get? p = some x → s.ports.Pairwise (fun a b => a.1 < b.1) →
      let isolates (i : Instr) : Prop := ∃ t y, exec i s = .next t ∧ t.mem = s.mem ∧ t.ports.get? p = some y ∧ y.isolated = true ∧ y.isolate = false ∧ y.restore = false
        ∧ y.since = s.cycle ∧ y.peer = x.peer ∧ (x.link.state ≠ 3 → (∀ j z, j ≠ p → s.ports.get? j = some z → z.peer = x.peer → z.link.state ≠ 3 → z.isolated = true) → x.peer ∈ t.isolatedPeers)
      let healthy (f b : BitVec 64) : Nat := 4 - ((List.range 4).filter fun i => (f ||| b).getLsbD i).length
      (∀ v : Word, (v.getLsbD 0 = true → isolates (.canalIsolate p v)) ∧ (v.getLsbD 0 = false → exec (.canalIsolate p v) s = .next s))
      ∧ (x.link.state ≠ 3 → isolates (.canalPortDown p))
      ∧ (x.link.state = 3 → exec (.canalPortDown p) s = .next s)
      ∧ (x.link.state = 1 → x.since + 50000 ≤ s.cycle → isolates (.canalRetrainTimeout p))
      ∧ (x.link.state ≠ 1 ∨ s.cycle < x.since + 50000 → exec (.canalRetrainTimeout p) s = .next s)
      ∧ (∀ f b, x.link.state ≠ 1 → exec (.retrainComplete (20 + p) f b) s = .next s)
      ∧ (∀ f b, x.link.state = 1 → healthy f b = 0 → isolates (.retrainComplete (20 + p) f b))
      ∧ (∀ f b, x.link.state = 1 → healthy f b ≠ 0 → ∃ t y, exec (.retrainComplete (20 + p) f b) s = .next t ∧ t.mem = s.mem ∧ t.ports.get? p = some y
          ∧ y.link = { x.link with state := 0, width := if healthy f b = 4 then 0 else if healthy f b = 1 then 2 else 1 } ∧ y.restore = false
          ∧ (x.restore = true → y.isolated = false)
          ∧ (x.restore = true → x.peer ∈ s.isolatedPeers → (∀ j z, j ≠ p → s.ports.get? j = some z → z.isolated = false ∧ z.viewOnly = false) → y.viewOnly = true))
      ∧ (∀ v : Word,
          (v.getLsbD 1 = true → x.isolated = true → x.restore = false → x.link.state ≠ 3 → ∃ t : State, exec (.canalRestore p v) s = .next t ∧ t = { s with ports := t.ports }
            ∧ t.ports.get? p = some { x with restore := true, since := s.cycle, link := { x.link with state := 1, retrains := min (x.link.retrains + 1) 255, fails := [], redo := none } }
            ∧ ∀ j, j ≠ p → t.ports.get? j = s.ports.get? j)
          ∧ (v.getLsbD 1 = false ∨ x.isolated = false ∨ x.restore = true ∨ x.link.state = 3 → exec (.canalRestore p v) s = .next s))
      ∧ (∀ peer, (x.link.state ≠ 3 → exec (.canalLinkUp p peer) s = .next s)
          ∧ (x.link.state = 3 → ∃ t : State, exec (.canalLinkUp p peer) s = .next t ∧ t = { s with ports := t.ports }
            ∧ t.ports.get? p = some { x with peer := peer, since := s.cycle, link := { x.link with state := 1 } }
            ∧ ∀ j, j ≠ p → t.ports.get? j = s.ports.get? j))
      ∧ (let far (y : Piece) : Prop := ∃ m, y.peer = some m ∧ m ∈ s.isolatedPeers
         let ended : Instr := .isolationRequestEnd p
         (x.isolated = false → x.viewOnly = false → exec ended s = .next s)
         ∧ ((∀ t ∈ s.stores ++ s.unacked, ¬far t.piece) → (∀ w ∈ s.warps, ∀ q ∈ w.2.paths, q.await = none) → exec ended s = .next s)
         ∧ (x.isolated = true → (∃ t ∈ s.stores ++ s.unacked, far t.piece) → ∃ t : State, exec ended s = .next t ∧ t.mem = s.mem
            ∧ (∀ y, y ∈ t.stores ↔ y ∈ s.stores ∧ ¬far y.piece) ∧ (∀ y, y ∈ t.unacked ↔ y ∈ s.unacked ∧ ¬far y.piece)
            ∧ ((∀ w ∈ s.warps, ∀ q ∈ w.2.paths, ∀ a r, q.await = some a → a.what ≠ .atomic r) →
                t.dropTotal % 2 ^ 64 = (s.dropTotal + ((s.stores ++ s.unacked).filter (Store.goesTo s.isolatedPeers.contains)).length) % 2 ^ 64)
            ∧ ∀ wid w i a, s.warps.get? wid = some w → i < w.paths.length → (w.path i).await = some a →
                ∃ v b, t.warps.get? wid = some v ∧ (v.path i).await = some b ∧ (v.path i).pc = (w.path i).pc
                  ∧ (∀ r, a.what = .load r → ∃ q, b.what = .load q ∧ q.lanes = r.lanes ∧ ∀ z ∈ r.lanes, ∀ y ∈ z.2.2, ∀ m ∈ s.isolatedPeers, y.peer = some m → m ∈ q.lost)
                  ∧ (∀ r, a.what = .atomic r → r.op.isWait = false → ∃ q, b.what = .atomic q ∧ (∀ y, y ∈ q.todo ↔ y ∈ r.todo ∧ ¬far y.piece)
                      ∧ ∀ y ∈ r.todo, far y.piece → y.lane < 32 → q.gone.getLsbD y.lane = true))))

/-- Decoding the word of a well-formed instruction gives that instruction. For every instruction whose operands its table lists and whose
immediates and offsets fit one word, with every operand at every value the encoding admits, the decoder reads the encoder's word as
exactly that instruction. No bit of an encoding is dropped. (spec/03 R96, spec/03 R97, spec/03 R98, spec/03 R99, spec/03 R100, spec/03
R103, spec/03 R104, spec/03 R105, spec/03 R106, spec/04 R110, spec/04 R112) -/
def Obligations.DecodeEncode : Prop :=
  ∀ i : Instr, i.wellFormed = true → decode (encode i) = .ok i

/-- Words written out from the encoding tables decode to the instructions they stand for. A few words, written field by field from the least
significant bit up as R96 lays them out: br, sadd, iadd, ffma, ld, atadd, mma, ximm and an unassigned opcode. Fields of each, most
significant first: extension, source 2, source 1, source 0, destination class, write-back, destination index, predicate sense, predicate,
format, sub, opcode. (spec/03 R96, spec/03 R98, spec/03 R100, spec/03 R104, spec/03 R105, spec/03 R106, spec/04 R114, spec/04 R115,
spec/04 R116, spec/04 R120) -/
def Obligations.SampleWords : Prop :=
  decode (0xFFFFFFE#28 ++ 0#12 ++ 0#12 ++ 0#12 ++ 0b110#3 ++ 0b0#1 ++ 0x00#8 ++ 0b1#1 ++ 0b010#3 ++ 0xF#4 ++ 0x0#4 ++ 0x01#8) = .ok (.br ⟨2, true⟩ (-2))
  ∧ decode (0#28 ++ 0#12 ++ 0b11#2 ++ 0x3FF#10 ++ 0b00#2 ++ 7#10 ++ 0b001#3 ++ 0b1#1 ++ 0x05#8 ++ 0b0#1 ++ 0b000#3 ++ 0x1#4 ++ 0x0#4 ++ 0x10#8)
      = .ok (.sadd ⟨⟨0, false⟩, ⟨.scalar, 5, true⟩, .i64, false, .reg 7, .imm (-1), .reg 0⟩)
  ∧ decode (0#28 ++ 0#12 ++ 0b10#2 ++ 9#10 ++ 0b01#2 ++ 2#10 ++ 0b000#3 ++ 0b0#1 ++ 0x00#8 ++ 0b0#1 ++ 0b011#3 ++ 0x0#4 ++ 0x0#4 ++ 0x20#8)
      = .ok (.iadd ⟨⟨3, false⟩, ⟨.vector, 0, false⟩, .i32, false, .latch 3, .bcast 9, .reg 0⟩)
  ∧ decode (0#28 ++ 6#12 ++ 4#12 ++ 2#12 ++ 0b000#3 ++ 0b1#1 ++ 0x08#8 ++ 0b0#1 ++ 0b000#3 ++ 0x5#4 ++ 0x3#4 ++ 0x43#8)
      = .ok (.ffma .rd ⟨⟨0, false⟩, ⟨.vector, 8, true⟩, .f64, false, .reg 2, .reg 4, .reg 6⟩)
  ∧ decode (0b01#2 ++ 0b001#3 ++ 0b0000011#7 ++ 0xFFF8#16 ++ 0#12 ++ 12#12 ++ 3#12 ++ 0b000#3 ++ 0b1#1 ++ 0x0A#8 ++ 0b0#1 ++ 0b000#3 ++ 0x0#4 ++ 0x1#4 ++ 0x70#8)
      = .ok (.ld .offset ⟨⟨0, false⟩, ⟨.vector, 10, true⟩, .i32, false, 3, .reg 12, .reg 0, ⟨1, .acq, 3, -8⟩⟩)
  ∧ decode (0b00#2 ++ 0b000#3 ++ 0b0000000#7 ++ 0x0010#16 ++ 9#12 ++ 8#12 ++ 4#12 ++ 0b110#3 ++ 0b0#1 ++ 0x00#8 ++ 0b0#1 ++ 0b001#3 ++ 0x0#4 ++ 0x0#4 ++ 0x80#8)
      = .ok (.atadd ⟨⟨1, false⟩, Dst.noDest, .i32, false, 4, .reg 8, .reg 9, ⟨0, .rlx, 0, 16⟩⟩)
  ∧ decode (0x0000040#28 ++ 0b11#2 ++ 4#10 ++ 0b11#2 ++ 2#10 ++ 0b11#2 ++ 1#10 ++ 0b100#3 ++ 0b1#1 ++ 0x03#8 ++ 0b0#1 ++ 0b000#3 ++ 0xD#4 ++ 0x2#4 ++ 0xA0#8)
      = .ok (.mma 2 3 1 2 4 64)
  ∧ decode (0#32 ++ 0xDEADBEEF#32 ++ 0b110#3 ++ 0b0#1 ++ 0x00#8 ++ 0b0000#4 ++ 0xF#4 ++ 0x3#4 ++ 0xF0#8) = .ok (.ximm 3 0xDEADBEEF)
  ∧ decode 0x1F#96 = .ok (.unassignedOpcode 0x1F)
  ∧ decode (0#28 ++ 0#12 ++ 1#12 ++ 0#12 ++ 0b110#3 ++ 0b0#1 ++ 0x00#8 ++ 0b0000#4 ++ 0xF#4 ++ 0x0#4 ++ 0x00#8) = .error .unusedNotZero

/-- A step runs the instruction its word decodes to, or the event at the head of the agenda. A path whose turn it is, with a line fetched, no
hold asked for and no PC comparator matched, runs the instruction of the word its PC names, unless a register it reads holds an
uncorrectable error: then a rollback is due where rb[0] asks for it, and else trap 0x50 names the lanes read (R484; when such an error
stands is an input, log entry 9); after a prefix, the instruction of the governed word under it; a word that names none takes trap 0x01.
A path that enters its line does so first. A matrix stream runs the instruction of its word likewise. The word of slot k is the twelve
bytes of the line from 12k on. With nobody issuing, the event at the head of the agenda is run and leaves it; a frozen device passes over
every event but a debug-port read and a cold reset, and changes nothing else; an agenda that begins with a word of a program stops the
machine. (spec/00 R7, spec/03 R86, spec/03 R89, spec/03 R97, spec/03 R106, spec/03 R108, spec/03 R109, spec/23 R484, spec/28 R540) -/
def Obligations.StepRunsTheDecodedInstruction : Prop :=
  (∀ (addr : Nat) (bs : List Byte) (k : Nat), k < 5 → (Line.ofBytes addr bs).word k = wordOfBytes ((bs.drop (12 * k)).take 12))
  ∧ (∀ (s : State) (wid i : Nat) (c : Ctx) (l : Line), s.frozen = false → s.focus = some (.path wid i none) → s.ctx? wid i none = some c → c.p.holdAsked = false →
      (∀ x : Instr, c.p.line = some l → s.pcHits c = [] → decode (l.word (pcSlot c.p.pc)) = .ok x →
        let lanes := s.poolHit c (guardOf (l.word (pcSlot c.p.pc))) x
        (lanes = 0 → step s = exec x s) ∧ (lanes ≠ 0 → step s = .next (s.poolError c lanes)))
      ∧ (∀ r, c.p.line = some l → s.pcHits c = [] → decode (l.word (pcSlot c.p.pc)) = .error r → step s = .next (s.refusedWord c (l.word (pcSlot c.p.pc))))
      ∧ (∀ (t : State) (c' : Ctx) (x : Instr), c.p.line = none → s.enterLine c = (t, none) → t.ctx? wid i none = some c' → c'.p.line = some l → t.pcHits c' = [] →
          decode (l.word (pcSlot c'.p.pc)) = .ok x → t.poolHit c' (guardOf (l.word (pcSlot c'.p.pc))) x = 0 → step s = exec x t)
      ∧ (∀ t f, c.p.line = none → s.enterLine c = (t, some f) → step s = .next (t.entryTrap c f)))
  ∧ (∀ (s : State) (wid i sel : Nat) (payload : BitVec 32) (c : Ctx) (l : Line) (x : Instr), s.frozen = false → s.focus = some (.path wid i (some (sel, payload))) →
      s.ctx? wid i (some (sel, payload)) = some c → c.p.holdAsked = false → c.p.line = some l →
      decodeGoverned sel payload (l.word (pcSlot c.p.pc + 1)) = .instr x → s.poolHit c (guardOf (l.word (pcSlot c.p.pc + 1))) x = 0 → step s = exec x s)
  ∧ (∀ (s : State) (c : Ctx) (g : Guard) (x : Instr),
      ((∀ y ∈ s.poolUpset, y.1 ≠ c.wid) → s.poolHit c g x = 0)
      ∧ (∀ k, (c.wid, (c.w.wbase + k) % c.w.n) ∈ s.poolUpset → k < c.w.width → .v k ∈ x.reads → s.poolHit c g x = c.act g))
  ∧ (∀ (s : State) (c : Ctx) (lanes : LaneMask) (pt : Partition), s.parts.get? c.env.part = some pt →
      let t : State := { s with poolUpset := s.poolUpset.filter (·.1 != c.wid), focus := none }
      let rolls : Prop := s.classOf c.w.block ≠ 0 ∧ pt.ck.rolls < 3 ∧ pt.ck.cfgNow.getLsbD 0 = true
      (rolls → s.poolError c lanes = t.setCk c.env.part fun k => { k with due := true })
      ∧ (¬rolls → s.poolError c lanes = { ({ t with upset := (0, 0) }.takeTrap c.wid c.pidx ⟨0x50, 0, 0, lanes⟩ (unitOf c.p c.pre)) with upset := s.upset }))
  ∧ (∀ (s t : State) (b : Nat) (c c' : SCtx) (l : Line), s.frozen = false → c'.m.line = some l →
      (∀ x : Instr, s.focus = some (.stream b none) → s.stream? b none = some c → s.streamFetch c = (t, .ok c') →
        decode (l.word (pcSlot c'.m.place)) = .ok x → step s = exec x t)
      ∧ (∀ (sel : Nat) (payload : BitVec 32) (x : Instr), s.focus = some (.stream b (some (sel, payload))) → s.stream? b (some (sel, payload)) = some c →
          s.streamFetch c = (t, .ok c') → decodeGoverned sel payload (l.word (pcSlot c'.m.place + 1)) = .instr x → step s = exec x t))
  ∧ (∀ (s t : State) (b : Nat) (c : SCtx) (f : PcFault), s.frozen = false → s.focus = some (.stream b none) → s.stream? b none = some c →
      s.streamFetch c = (t, .error f) → step s = .next (t.stopPc c f))
  ∧ (∀ (s : State) (i : Instr) (r : List Instr), s.agenda = i :: r → s.frozen = true ∨ s.focus = none →
      let t := { s with agenda := r }
      (i.encodable = true → step s = .fault .notAnEvent)
      ∧ (i.encodable = false → s.frozen = true → (∀ a n, i ≠ .debugPortRead a n) → i ≠ .coldReset → step s = .next t)
      ∧ (i.encodable = false → (s.frozen = false ∨ (∃ a n, i = .debugPortRead a n) ∨ i = .coldReset) → step s = exec i t))
  ∧ (∀ s : State, s.agenda = [] → s.frozen = true → step s = .next s)

/-- After reset the registers of BAR0 read what their tables give as reset values. The control block, the die links, the Canal block,
VIEW_CTL, the security mailbox and the counters read their reset values; the block of a partition with just its core groups reads zero
everywhere but PART_CFG. Memory lists nothing and has its canonical form, no sector is poisoned, nothing runs, and the device is not
frozen. (That a byte no one has written reads as zero is the model's choice, log entry 1.) (spec/02 R57, spec/19 R404, spec/20 R433,
spec/20 R440, spec/20 R441, spec/22 R467, spec/23 R476, spec/27 R520, spec/28 R531, spec/28 R539, spec/29 R543, spec/29 R555) -/
def Obligations.ResetRegisters : Prop :=
  (∀ off, off < 0x1000 → State.reset.barWord off = (if off = 0 then 0xDA12 * 65536 + Config.stepping.toNat else if off = 0x20 then 0x1000 else 0))
  ∧ (∀ k, k < 20 → State.reset.barWord (linkBase + 0x20 * k) = 1 ∧ State.reset.barWord (linkBase + 0x20 * k + 8) = 0 ∧ State.reset.barWord (linkBase + 0x20 * k + 16) = 0)
  ∧ (∀ p, p < 18 → State.reset.barWord (canalBase + 0x40 * p) = 3 ∧ State.reset.barWord (canalBase + 0x40 * p + 8) = 0
      ∧ State.reset.barWord (canalBase + 0x40 * p + 16) = 0 ∧ State.reset.barWord (canalBase + 0x40 * p + 24) = 0)
  ∧ State.reset.barWord (canalBase + 0x800) = 0 ∧ State.reset.barWord viewBase = 0
  ∧ (∀ o, o < 4096 → State.reset.barWord (mailBase + o) = 0) ∧ (∀ o, o < 0x80000 → State.reset.barWord (counterBase + o) = 0)
  ∧ (∀ (part o : Nat) (groups : BitVec 32), o < 0x10000 →
      State.reset.readPartBlock part o (Partition.reset groups) = if o = 0x1000 then part * 2 ^ 32 + groups.toNat else 0)
  ∧ State.reset.mem = [] ∧ Memory.wf State.reset.mem ∧ State.reset.poison = [] ∧ State.reset.frozen = false
  ∧ State.reset.launches = [] ∧ State.reset.blocks = [] ∧ State.reset.warps = []

/-- Every step keeps memory in its one form. In any state whose memory lists its bytes by strictly rising key and lists no zero byte,
whatever the step does, the memory of the next state has that form again, so that equal memories stay equal data. (The form and that an
unlisted byte reads as zero are the model's, log entry 1.) (spec/00 R7, spec/12 R291, spec/13 R323) -/
def Obligations.MemoryStaysCanonical : Prop :=
  ∀ s t : State, Memory.wf s.mem → step s = .next t → Memory.wf t.mem

/-- Every instruction and event answers a next state in every state, and a step stops only on an agenda no device could have. Whatever the
instruction and its operands, whatever the state, running it gives a next state: it completes, waits, or takes the trap the rules name;
there is no instruction the model turns away. A step stops only where nobody issues and the agenda of outside events begins with a word
of a program, which is no event. (spec/00 R12, spec/03 R97, spec/22 R450, spec/28 R540) -/
def Obligations.NothingIsRefused : Prop :=
  (∀ (i : Instr) (s : State), ∃ t, exec i s = .next t)
  ∧ ∀ s : State, (∃ t, step s = .next t) ∨ ((s.frozen = true ∨ s.focus = none) ∧ (∃ i r, s.agenda = i :: r ∧ i.encodable = true) ∧ step s = .fault .notAnEvent)
end

