-- ==== Sys2Proof/Laws/Encoding.lean ====
section
/-! SUPPORT. Reading back the fields of an instruction (spec/03 R96 to R106): for every constructor, a legal instruction's fields build
that instruction again. -/
namespace Sys2Proof

/-! ### Codes read back -/

@[simp] theorem DClass.ofCode_code (c : DClass) : DClass.ofCode c.code = some c := by cases c <;> rfl
@[simp] theorem Fmt.ofCode_code (f : Fmt) : Fmt.ofCode f.code = f := by cases f <;> rfl
@[simp] theorem RMode.ofCode_code (f : RMode) : RMode.ofCode f.code = some f := by cases f <;> rfl
@[simp] theorem Order.ofCode_code (f : Order) : Order.ofCode f.code = some f := by cases f <;> rfl
@[simp] theorem Cond.ofCode_code (f : Cond) : Cond.ofCode f.code = some f := by cases f <;> rfl
@[simp] theorem FCond.ofCode_code (f : FCond) : FCond.ofCode f.code = some f := by cases f <;> rfl
@[simp] theorem WCond.ofCode_code (f : WCond) : WCond.ofCode f.code = some f := by cases f <;> rfl
@[simp] theorem ROp.ofCode_code (f : ROp) : ROp.ofCode f.code = some f := by cases f <;> rfl
@[simp] theorem LaneMode.ofCode_code (f : LaneMode) : LaneMode.ofCode f.code = some f := by cases f <;> rfl
@[simp] theorem ASel.ofCode_code (f : ASel) : ASel.ofCode f.code = some f := by cases f <;> rfl
@[simp] theorem AGetSel.ofCode_code (f : AGetSel) : AGetSel.ofCode f.code = some f := by cases f <;> rfl
@[simp] theorem QSwap.ofCode_code (f : QSwap) : QSwap.ofCode f.code = some f := by cases f <;> rfl
@[simp] theorem LXch.ofCode_code (f : LXch) : LXch.ofCode f.code = some f := by cases f <;> rfl
@[simp] theorem Poll.ofCode_code (f : Poll) : Poll.ofCode f.code = Option.some f := by cases f <;> rfl
@[simp] theorem LIdx.ofCode_code (f : LIdx) : LIdx.ofCode f.code = some f := by cases f <;> rfl
@[simp] theorem ICvtSat.ofCode_code (f : ICvtSat) : ICvtSat.ofCode f.code = some f := by cases f <;> rfl
@[simp] theorem CollKind.ofCode_code (f : CollKind) : CollKind.ofCode f.code = some f := by cases f <;> rfl

theorem RMode.code_lt (f : RMode) : f.code < 8 := by cases f <;> decide
theorem Cond.code_lt (f : Cond) : f.code < 8 := by cases f <;> decide
theorem FCond.code_lt (f : FCond) : f.code < 8 := by cases f <;> decide
theorem WCond.code_lt (f : WCond) : f.code < 8 := by cases f <;> decide
theorem ROp.code_lt (f : ROp) : f.code < 8 := by cases f <;> decide
theorem LaneMode.code_lt (f : LaneMode) : f.code < 4 := by cases f <;> decide
theorem ASel.code_lt (f : ASel) : f.code < 8 := by cases f <;> decide
theorem AGetSel.code_lt (f : AGetSel) : f.code < 8 := by cases f <;> decide
theorem QSwap.code_lt (f : QSwap) : f.code < 8 := by cases f <;> decide
theorem LXch.code_lt (f : LXch) : f.code < 8 := by cases f <;> decide
theorem Poll.code_lt (f : Poll) : f.code < 8 := by cases f <;> decide
theorem LIdx.code_lt (f : LIdx) : f.code < 8 := by cases f <;> decide
theorem ICvtSat.code_lt (f : ICvtSat) : f.code < 8 := by cases f <;> decide
theorem CollKind.code_lt (f : CollKind) : f.code < 8 := by cases f <;> decide
theorem Fmt.code_lt (f : Fmt) : f.code < 16 := by cases f <;> decide
theorem Order.code_lt (f : Order) : f.code < 8 := by cases f <;> decide
theorem DClass.code_lt (f : DClass) : f.code < 8 := by cases f <;> decide

/-! ### Parts of a word read back -/

/-- The high part of two. -/
theorem extract_high {n m : Nat} (a : BitVec n) (b : BitVec m) : (a ++ b).extractLsb' m n = a := by
  refine BitVec.eq_of_getLsbD_eq fun i hi => ?_
  simp [BitVec.getLsbD_append, hi]

/-- A field inside the low part of two. -/
theorem extract_low {n m : Nat} (a : BitVec n) (b : BitVec m) (at' len : Nat) (h : at' + len ≤ m) :
    (a ++ b).extractLsb' at' len = b.extractLsb' at' len := by
  refine BitVec.eq_of_getLsbD_eq fun i hi => ?_
  have : at' + i < m := by omega
  simp [BitVec.getLsbD_append, hi, this]

/-- A field inside the high part of two. -/
theorem extract_past {n m : Nat} (a : BitVec n) (b : BitVec m) (at' len : Nat) (h : m ≤ at') :
    (a ++ b).extractLsb' at' len = a.extractLsb' (at' - m) len := by
  refine BitVec.eq_of_getLsbD_eq fun i hi => ?_
  have h1 : ¬at' + i < m := by omega
  have h2 : at' + i - m = at' - m + i := by omega
  simp [BitVec.getLsbD_append, hi, h1, h2]

theorem extract_all {n : Nat} (a : BitVec n) : a.extractLsb' 0 n = a := by
  refine BitVec.eq_of_getLsbD_eq fun i hi => ?_
  simp [hi]

/-- An offset is its field's, or the wide one (R105, R107). -/
theorem wideOff_getD (n : Nat) (hn : 0 < n) (o : Int) : (wideOff n o).getD (BitVec.ofInt n o).toInt = o := by
  unfold wideOff
  split
  · rename_i h
    simp only [fitsSigned, decide_eq_true_eq] at h
    obtain ⟨k, rfl⟩ : ∃ k, n = k + 1 := ⟨n - 1, by omega⟩
    simp only [Nat.add_sub_cancel] at h
    simp only [Option.getD_none, BitVec.toInt_ofInt]
    have h2 : (2 : Int) ^ (k + 1) = 2 * 2 ^ k := by ring
    refine Int.bmod_eq_of_le ?_ ?_ <;> push_cast <;> rw [h2] <;> omega
  · rfl

/-- The extension of a memory instruction reads back (R104). -/
theorem mext_of {f : Fields} {e : MExt} (h1 : f.ext = e.ext) (h2 : f.wide = wideOff 16 e.off) (h : e.hint < 4) : f.mext = some e := by
  rcases e with ⟨hint, ord, mask, off⟩
  simp only at h h2
  have hb : f.ext.extractLsb' 23 3 = BitVec.ofNat 3 ord.code := by
    rw [h1, MExt.ext, extract_past _ _ _ _ (by omega), extract_past _ _ _ _ (by omega), extract_low _ _ _ _ (by omega)]
    exact extract_all _
  have hh : f.ext.extractLsb' 26 2 = BitVec.ofNat 2 hint := by
    rw [h1, MExt.ext, extract_past _ _ _ _ (by omega), extract_past _ _ _ _ (by omega), extract_past _ _ _ _ (by omega)]
    exact extract_all _
  have hm : f.ext.extractLsb' 16 7 = mask := by
    rw [h1, MExt.ext, extract_past _ _ _ _ (by omega), extract_low _ _ _ _ (by omega)]
    exact extract_all _
  have ho : f.ext.extractLsb' 0 16 = BitVec.ofInt 16 off := by
    rw [h1, MExt.ext, extract_low _ _ _ _ (by omega)]
    exact extract_all _
  have hc : (BitVec.ofNat 3 ord.code).toNat = ord.code := by simpa using Nat.mod_eq_of_lt ord.code_lt
  have hn : (BitVec.ofNat 2 hint).toNat = hint := by simpa using Nat.mod_eq_of_lt h
  rw [Fields.mext, hb, hc, hh, hn, hm, ho, h2, Order.ofCode_code, wideOff_getD 16 (by omega)]
  rfl

/-! ### Operands read back -/

theorem dst_of {f : Fields} {d : Dst} (h1 : f.dc = d.cls.code) (h2 : f.di = d.idx) (h3 : f.wb = d.wb) : f.dst? = some d := by
  simp [Fields.dst?, h1, h2, h3]

@[simp] theorem dst_mk' (op sub : Nat) (fmt : Fmt) (g : Guard) (d : Dst) (a b c : Src) (ext : BitVec 28) (wide : Option Int) :
    (Fields.mk' op sub fmt g d a b c ext wide).dst? = some d := dst_of rfl rfl rfl

@[simp] theorem guard_mk' (op sub : Nat) (fmt : Fmt) (g : Guard) (d : Dst) (a b c : Src) (ext : BitVec 28) (wide : Option Int) :
    (Fields.mk' op sub fmt g d a b c ext wide).guard = g := rfl

theorem subOf_mod8 (k : Nat) (u : Bool) (h : k < 8) : subOf k u % 8 = k := by cases u <;> simp [subOf] <;> omega
theorem subOf_mod4 (k : Nat) (u : Bool) (h : k < 4) : subOf k u % 4 = k := by cases u <;> simp [subOf] <;> omega
theorem subOf_mod2 (k : Nat) (u : Bool) (h : k < 2) : subOf k u % 2 = k := by cases u <;> simp [subOf] <;> omega

@[simp] theorem Alu.op_fields (o : Alu) (op k : Nat) (ext : BitVec 28) : (o.fields op k ext).op = op := rfl
@[simp] theorem Alu.ext_fields (o : Alu) (op k : Nat) (ext : BitVec 28) : (o.fields op k ext).ext = ext := rfl
@[simp] theorem Alu.sub_fields (o : Alu) (op k : Nat) (ext : BitVec 28) (h : k < 8) : (o.fields op k ext).sub % 8 = k := subOf_mod8 k _ h

@[simp] theorem Alu.alu_fields (o : Alu) (op k : Nat) (ext : BitVec 28) (h : k < 8) : (o.fields op k ext).alu = some o := by
  rcases o with ⟨g, d, fmt, uns, a, b, c⟩
  cases uns <;> simp [Fields.alu, Alu.fields, Fields.mk', Fields.dst?, Fields.guard, subOf, h]

@[simp] theorem AddrOp.op_fields (o : AddrOp) (op k : Nat) : (o.fields op k).op = op := rfl
@[simp] theorem AddrOp.sub_fields (o : AddrOp) (op k : Nat) (h : k < 8) : (o.fields op k).sub % 8 = k := Nat.mod_eq_of_lt h
@[simp] theorem AddrOp.addr_fields (o : AddrOp) (op k : Nat) : (o.fields op k).addr = some o := by
  simp [Fields.addr, AddrOp.fields]
  simp [Fields.mk', Src.regIdx]

@[simp] theorem Mem.op_fields (o : Mem) (op k : Nat) : (o.fields op k).op = op := rfl
theorem Mem.sub_fields (o : Mem) (op k : Nat) : (o.fields op k).sub = subOf k o.uns := rfl

theorem Mem.mem_fields (o : Mem) (op k : Nat) (h : k < 8) (hh : o.e.hint < 4) : (o.fields op k).mem = some o := by
  have he : (o.fields op k).mext = some o.e := mext_of rfl rfl hh
  simp only [Fields.mem, he]
  rcases o with ⟨g, d, fmt, uns, a, x, y, e⟩
  cases uns <;> simp [Mem.fields, Fields.mk', Fields.dst?, Fields.guard, Src.regIdx, subOf, h]

/-- With sub[3] part of the operation (R371). -/
theorem Mem.mem_fields_signed (o : Mem) (op k : Nat) (h : 8 ≤ k) (hu : o.uns = false) (hh : o.e.hint < 4) :
    (o.fields op k).mem = some { o with uns := true } := by
  have he : (o.fields op k).mext = some o.e := mext_of rfl rfl hh
  simp only [Fields.mem, he]
  simp [Mem.fields, Fields.mk', Fields.dst?, Fields.guard, Src.regIdx, subOf, hu, h]

@[simp] theorem Copy.op_fields (o : Copy) (op k : Nat) : (o.fields op k).op = op := rfl
@[simp] theorem Copy.sub_fields (o : Copy) (op k : Nat) : (o.fields op k).sub = k := rfl
theorem Copy.copy_fields (o : Copy) (op k : Nat) (hh : o.e.hint < 4) : (o.fields op k).copy = some o := by
  have he : (o.fields op k).mext = some o.e := mext_of rfl rfl hh
  simp only [Fields.copy, he]
  simp [Copy.fields, Fields.mk', Fields.dst?, Fields.guard, Src.regIdx]

theorem MExt.hint_of_ok {l : List Order} {e : MExt} (h : e.ok l = true) : e.hint < 4 := by
  simp only [MExt.ok, Bool.and_eq_true, decide_eq_true_eq] at h; exact h.1.1
theorem Mem.hint_of_ok {o : Mem} {d : Dst → Bool} {x y : Src → Bool} {l : List Order} (h : o.ok d x y l = true) : o.e.hint < 4 := by
  simp only [Mem.ok, Bool.and_eq_true] at h; exact MExt.hint_of_ok h.2
theorem Mem.hint_of_atomic {o : Mem} {fs : List Fmt} {d : Dst → Bool} {f : Fmt} (h : o.atomicOk fs d f = true) :
    o.e.hint < 4 ∧ o.uns = false ∧ fs.contains o.fmt = true := by
  simp only [Mem.atomicOk, Bool.and_eq_true, Bool.not_eq_true'] at h
  exact ⟨MExt.hint_of_ok h.2, h.1.1.1.1.1.1.2, h.1.1.1.1.1.2⟩
theorem Copy.hint_of_ok {o : Copy} {fs : List Fmt} {b : Nat} (h : o.ok fs b = true) : o.e.hint < 4 := by
  simp only [Copy.ok, Bool.and_eq_true] at h; exact MExt.hint_of_ok h.2
theorem hint_of_bar {g : Guard} {b : Int} {e : MExt} {l : List Order} (h : barOk g b e l = true) : e.hint < 4 := by
  simp only [barOk, Bool.and_eq_true] at h; exact MExt.hint_of_ok h.1.1.2

/-- The conversion fields read back (R239). -/
theorem cv_of {f : Fields} {v : Cv} (h : f.ext = v.ext) (h1 : v.jd < 8) (h2 : v.js < 8) : f.cv = v := by
  rcases v with ⟨sat, jd, js, sf⟩
  simp only at h1 h2
  have e1 : f.ext.extractLsb' 7 3 = BitVec.ofNat 3 jd := by
    rw [h, Cv.ext, extract_past _ _ _ _ (by omega), extract_past _ _ _ _ (by omega), extract_low _ _ _ _ (by omega)]
    exact extract_all _
  have e2 : f.ext.extractLsb' 4 3 = BitVec.ofNat 3 js := by
    rw [h, Cv.ext, extract_past _ _ _ _ (by omega), extract_low _ _ _ _ (by omega)]
    exact extract_all _
  have e3 : f.ext.extractLsb' 0 4 = BitVec.ofNat 4 sf.code := by
    rw [h, Cv.ext, extract_low _ _ _ _ (by omega)]
    exact extract_all _
  have e4 : f.ext.getLsbD 10 = sat := by
    rw [h, Cv.ext, BitVec.getLsbD_append, BitVec.getLsbD_append, BitVec.getLsbD_append, BitVec.getLsbD_append]
    simp
  simp only [Fields.cv, e4]
  simp [e1, e2, e3, Nat.mod_eq_of_lt h1, Nat.mod_eq_of_lt h2, Nat.mod_eq_of_lt sf.code_lt]

theorem Fmt.perLane_le (f : Fmt) : f.perLane ≤ 8 := by cases f <;> decide
theorem Cv.bounds {s : Bool} {f : Fmt} {v : Cv} (h : v.ok s f = true) : v.jd < 8 ∧ v.js < 8 := by
  simp only [Cv.ok, Bool.and_eq_true, decide_eq_true_eq] at h
  exact ⟨lt_of_lt_of_le h.1.2 f.perLane_le, lt_of_lt_of_le h.2 v.sf.perLane_le⟩

/-! ### A word's fields -/

/-- Whether a source fits its 12 bits (R100). -/
def Src.Fits : Src → Prop
  | .reg i => i < 1024
  | .latch k => 1 ≤ k ∧ k ≤ 1024
  | .bcast i => i < 1024
  | .imm v => -512 ≤ v ∧ v < 512

/-- A source field read back. -/
theorem Src.ofBits_bits {s : Src} (h : s.Fits) : Src.ofBits s.bits = s := by
  cases s with
  | reg i =>
    have e1 : (0b00#2 ++ BitVec.ofNat 10 i).extractLsb' 10 2 = 0b00#2 := extract_high _ _
    have e2 : (0b00#2 ++ BitVec.ofNat 10 i).extractLsb' 0 10 = BitVec.ofNat 10 i := (extract_low _ _ _ _ (by omega)).trans (extract_all _)
    simp only [Src.ofBits, Src.bits, e1, e2]
    simpa using Nat.mod_eq_of_lt h
  | latch k =>
    have e1 : (0b01#2 ++ BitVec.ofNat 10 (k - 1)).extractLsb' 10 2 = 0b01#2 := extract_high _ _
    have e2 : (0b01#2 ++ BitVec.ofNat 10 (k - 1)).extractLsb' 0 10 = BitVec.ofNat 10 (k - 1) :=
      (extract_low _ _ _ _ (by omega)).trans (extract_all _)
    simp only [Src.ofBits, Src.bits, e1, e2]
    have := h.1; have := h.2
    simp; omega
  | bcast i =>
    have e1 : (0b10#2 ++ BitVec.ofNat 10 i).extractLsb' 10 2 = 0b10#2 := extract_high _ _
    have e2 : (0b10#2 ++ BitVec.ofNat 10 i).extractLsb' 0 10 = BitVec.ofNat 10 i := (extract_low _ _ _ _ (by omega)).trans (extract_all _)
    simp only [Src.ofBits, Src.bits, e1, e2]
    simpa using Nat.mod_eq_of_lt h
  | imm v =>
    have e1 : (0b11#2 ++ BitVec.ofInt 10 v).extractLsb' 10 2 = 0b11#2 := extract_high _ _
    have e2 : (0b11#2 ++ BitVec.ofInt 10 v).extractLsb' 0 10 = BitVec.ofInt 10 v := (extract_low _ _ _ _ (by omega)).trans (extract_all _)
    simp only [Src.ofBits, Src.bits, e1, e2]
    have := h.1; have := h.2
    simp only [BitVec.toInt_ofInt]
    exact congrArg Src.imm (Int.bmod_eq_of_le (by norm_num; omega) (by norm_num; omega))

/-- Whether every field fits its bits. -/
structure Fields.Fits (f : Fields) : Prop where
  op : f.op < 256
  sub : f.sub < 16
  fmt : f.fmt < 16
  pred : f.pred < 8
  di : f.di < 256
  dc : f.dc < 8
  s0 : f.s0.Fits
  s1 : f.s1.Fits
  s2 : f.s2.Fits
  wide : f.wide = none

theorem Fields.word_op (f : Fields) : f.word.extractLsb' 0 8 = BitVec.ofNat 8 f.op := by
  rw [Fields.word, extract_low _ _ _ _ (by omega)]
  exact extract_all _

theorem Fields.word_sub (f : Fields) : f.word.extractLsb' 8 4 = BitVec.ofNat 4 f.sub := by
  rw [Fields.word, extract_past _ _ _ _ (by omega), extract_low _ _ _ _ (by omega)]
  exact extract_all _

theorem Fields.word_fmt (f : Fields) : f.word.extractLsb' 12 4 = BitVec.ofNat 4 f.fmt := by
  rw [Fields.word, extract_past _ _ _ _ (by omega), extract_past _ _ _ _ (by omega), extract_low _ _ _ _ (by omega)]
  exact extract_all _

theorem Fields.word_pred (f : Fields) : f.word.extractLsb' 16 3 = BitVec.ofNat 3 f.pred := by
  rw [Fields.word, extract_past _ _ _ _ (by omega), extract_past _ _ _ _ (by omega), extract_past _ _ _ _ (by omega), extract_low _ _ _ _ (by omega)]
  exact extract_all _

theorem Fields.word_neg (f : Fields) : f.word.extractLsb' 19 1 = BitVec.ofBool f.neg := by
  rw [Fields.word, extract_past _ _ _ _ (by omega), extract_past _ _ _ _ (by omega), extract_past _ _ _ _ (by omega), extract_past _ _ _ _ (by omega), extract_low _ _ _ _ (by omega)]
  exact extract_all _

theorem Fields.word_di (f : Fields) : f.word.extractLsb' 20 8 = BitVec.ofNat 8 f.di := by
  rw [Fields.word, extract_past _ _ _ _ (by omega), extract_past _ _ _ _ (by omega), extract_past _ _ _ _ (by omega), extract_past _ _ _ _ (by omega), extract_past _ _ _ _ (by omega), extract_low _ _ _ _ (by omega)]
  exact extract_all _

theorem Fields.word_wb (f : Fields) : f.word.extractLsb' 28 1 = BitVec.ofBool f.wb := by
  rw [Fields.word, extract_past _ _ _ _ (by omega), extract_past _ _ _ _ (by omega), extract_past _ _ _ _ (by omega), extract_past _ _ _ _ (by omega), extract_past _ _ _ _ (by omega), extract_past _ _ _ _ (by omega), extract_low _ _ _ _ (by omega)]
  exact extract_all _

theorem Fields.word_dc (f : Fields) : f.word.extractLsb' 29 3 = BitVec.ofNat 3 f.dc := by
  rw [Fields.word, extract_past _ _ _ _ (by omega), extract_past _ _ _ _ (by omega), extract_past _ _ _ _ (by omega), extract_past _ _ _ _ (by omega), extract_past _ _ _ _ (by omega), extract_past _ _ _ _ (by omega), extract_past _ _ _ _ (by omega), extract_low _ _ _ _ (by omega)]
  exact extract_all _

theorem Fields.word_s0 (f : Fields) : f.word.extractLsb' 32 12 = f.s0.bits := by
  rw [Fields.word, extract_past _ _ _ _ (by omega), extract_past _ _ _ _ (by omega), extract_past _ _ _ _ (by omega), extract_past _ _ _ _ (by omega), extract_past _ _ _ _ (by omega), extract_past _ _ _ _ (by omega), extract_past _ _ _ _ (by omega), extract_past _ _ _ _ (by omega), extract_low _ _ _ _ (by omega)]
  exact extract_all _

theorem Fields.word_s1 (f : Fields) : f.word.extractLsb' 44 12 = f.s1.bits := by
  rw [Fields.word, extract_past _ _ _ _ (by omega), extract_past _ _ _ _ (by omega), extract_past _ _ _ _ (by omega), extract_past _ _ _ _ (by omega), extract_past _ _ _ _ (by omega), extract_past _ _ _ _ (by omega), extract_past _ _ _ _ (by omega), extract_past _ _ _ _ (by omega), extract_past _ _ _ _ (by omega), extract_low _ _ _ _ (by omega)]
  exact extract_all _

theorem Fields.word_s2 (f : Fields) : f.word.extractLsb' 56 12 = f.s2.bits := by
  rw [Fields.word, extract_past _ _ _ _ (by omega), extract_past _ _ _ _ (by omega), extract_past _ _ _ _ (by omega), extract_past _ _ _ _ (by omega), extract_past _ _ _ _ (by omega), extract_past _ _ _ _ (by omega), extract_past _ _ _ _ (by omega), extract_past _ _ _ _ (by omega), extract_past _ _ _ _ (by omega), extract_past _ _ _ _ (by omega), extract_low _ _ _ _ (by omega)]
  exact extract_all _

theorem Fields.word_ext (f : Fields) : f.word.extractLsb' 68 28 = f.ext := by
  rw [Fields.word, extract_past _ _ _ _ (by omega), extract_past _ _ _ _ (by omega), extract_past _ _ _ _ (by omega), extract_past _ _ _ _ (by omega), extract_past _ _ _ _ (by omega), extract_past _ _ _ _ (by omega), extract_past _ _ _ _ (by omega), extract_past _ _ _ _ (by omega), extract_past _ _ _ _ (by omega), extract_past _ _ _ _ (by omega), extract_past _ _ _ _ (by omega)]
  exact extract_all _

/-- The fields of the word of fields that fit are those fields (R96). -/
theorem Fields.ofWord_word {f : Fields} (h : f.Fits) : Fields.ofWord f.word = f := by
  have bit {n : Nat} (b : BitVec n) (i : Nat) : b.getLsbD i = (b.extractLsb' i 1).getLsbD 0 := by simp
  have wb : f.word.getLsbD 28 = f.wb := by rw [bit, Fields.word_wb]; simp
  have neg : f.word.getLsbD 19 = f.neg := by rw [bit, Fields.word_neg]; simp
  simp only [Fields.ofWord, wb, neg, Fields.word_op, Fields.word_sub, Fields.word_fmt, Fields.word_pred, Fields.word_di, Fields.word_dc,
    Fields.word_s0, Fields.word_s1, Fields.word_s2, Fields.word_ext, Src.ofBits_bits h.s0, Src.ofBits_bits h.s1, Src.ofBits_bits h.s2]
  rcases f with ⟨op, sub, fmt, pred, neg, di, wb, dc, s0, s1, s2, ext, wide⟩
  have := h.wide; have := h.op; have := h.sub; have := h.fmt; have := h.pred; have := h.di; have := h.dc
  simp_all [Nat.mod_eq_of_lt]

end Sys2Proof
end

