-- ==== Sys2Proof/Laws/Issue.lean ====
section
/-! SUPPORT. What running an instruction's body for the issuing path answers: one lemma for each of its ends. -/
namespace Sys2Proof.Machine

variable {s t : State} {c : Ctx} {body : Ctx → Except Stop State}

/-- A body that succeeds gives its state. -/
theorem run_ok (h : Issues s c) (hb : body c = .ok t) : s.run body = .next t := by
  simp only [State.run, State.issue, h.1, h.2, hb]

/-- A body that parks parks the path. -/
theorem run_park {r : ParkReason} (h : Issues s c) (hb : body c = .error (.park r)) : s.run body = .next (s.park c r) := by
  simp only [State.run, State.issue, h.1, h.2, hb]

/-- A body that traps takes the trap at the path. -/
theorem run_trap {x : Trap} (h : Issues s c) (hb : body c = .error (.trap x)) :
    s.run body = .next (s.takeTrap c.wid c.pidx x (unitOf c.p c.pre)) := by
  simp only [State.run, State.issue, h.1, h.2, hb]

/-- A body that meets data comparators does what they ask. -/
theorem run_watch {hits : List Nat} {lanes : LaneMask} {a : Nat} (h : Issues s c) (hb : body c = .error (.watch hits lanes a)) :
    s.run body = .next (s.matched c hits 2 2 lanes fun k => k * 2 ^ 61 + a % 2 ^ 47) := by
  simp only [State.run, State.issue, h.1, h.2, hb]

/-- A body always answers a next state. -/
theorem run_next (h : Issues s c) : ∃ t, s.run body = .next t := by
  cases hb : body c with
  | ok t => exact ⟨t, run_ok h hb⟩
  | error e => cases e with
    | trap x => exact ⟨_, run_trap h hb⟩
    | park r => exact ⟨_, run_park h hb⟩
    | watch hits lanes a => exact ⟨_, run_watch h hb⟩

/-- Where a context comes from. -/
theorem ctxOf_eq_some {wid pidx : Nat} {pre : Option (Nat × BitVec 32)} (h : s.ctxOf wid pidx pre = some c) :
    c.wid = wid ∧ c.pidx = pidx ∧ c.pre = pre ∧ s.warps.get? wid = some c.w ∧ c.p = c.w.path pidx ∧ c.bid = c.w.block
      ∧ s.blocks.get? c.bid = some c.blk ∧ c.lid = c.blk.launch ∧ s.launches.get? c.lid = some c.la
      ∧ c.env = ⟨partOfLaunch c.lid, c.blk.home⟩ := by
  unfold State.ctxOf at h
  split at h
  · cases h
  · split at h
    · cases h
    · split at h
      · cases h
      · cases h
        simp_all

/-- What an issuing path is: live, awaiting nothing, not held by an open call, its warp neither stopped nor evicted. -/
theorem Issues.live (h : Issues s c) :
    s.ctxOf c.wid c.pidx c.pre = some c ∧ c.p.state = .live ∧ c.p.await = none ∧ c.w.stopped c.pidx = false ∧ c.w.evicted = none
      ∧ c.w.heldByCall c.p = false := by
  have h := h.2
  simp only [State.ctx?, Option.filter_eq_some_iff, Bool.and_eq_true, beq_iff_eq, Bool.not_eq_true', Option.isNone_iff_eq_none] at h
  exact ⟨h.1, h.2.1.1.1.1, h.2.1.1.1.2, h.2.1.1.2, h.2.1.2, h.2.2⟩

end Sys2Proof.Machine
end

