-- ==== Sys2Proof/Laws/Maps.lean ====
section
/-! SUPPORT. Maps: what stands at a key after a value is put, removed or changed, and that the keys keep rising. -/
namespace Sys2Proof.Machine

variable {α : Type} (m : NMap α) (k j : Nat) (v : α) (f : α → α)

@[simp] theorem NMap.get?_nil : NMap.get? ([] : NMap α) k = none := rfl

theorem NMap.get?_cons (e : Nat × α) : NMap.get? (e :: m) k = if e.1 = k then some e.2 else NMap.get? m k := by
  by_cases h : e.1 = k <;> simp [NMap.get?, h]

/-- A value put at a key stands there. -/
@[simp] theorem NMap.get?_put_same : (m.put k v).get? k = some v := by
  induction m with
  | nil => simp [NMap.put, NMap.get?_cons]
  | cons e r ih =>
    simp only [NMap.put]
    split
    · simp [NMap.get?_cons]
    · split
      · simp [NMap.get?_cons]
      · rename_i h; simp [NMap.get?_cons, Ne.symm h, ih]

/-- A value put at a key leaves every other key. -/
theorem NMap.get?_put_other (h : j ≠ k) : (m.put k v).get? j = m.get? j := by
  induction m with
  | nil => simp [NMap.put, NMap.get?_cons, Ne.symm h]
  | cons e r ih =>
    simp only [NMap.put]
    split
    · simp [NMap.get?_cons, Ne.symm h]
    · split
      · rename_i h'; subst h'; simp [NMap.get?_cons, Ne.symm h]
      · simp [NMap.get?_cons, ih]

/-- A removed key has no value. -/
@[simp] theorem NMap.get?_del_same : (m.del k).get? k = none := by
  simp [NMap.get?, NMap.del, List.find?_filter]

theorem NMap.get?_del_other (h : j ≠ k) : (m.del k).get? j = m.get? j := by
  induction m with
  | nil => rfl
  | cons e r ih =>
    by_cases he : e.1 = k
    · rw [show NMap.del (e :: r) k = NMap.del r k by simp [NMap.del, he], ih, NMap.get?_cons, if_neg (by omega)]
    · rw [show NMap.del (e :: r) k = e :: NMap.del r k by simp [NMap.del, he], NMap.get?_cons, NMap.get?_cons, ih]

/-- A change at a key changes the value that stands there, and no other. -/
theorem NMap.get?_adjust : (m.adjust k f).get? j = if j = k then (m.get? j).map f else m.get? j := by
  induction m with
  | nil => simp [NMap.adjust]
  | cons e r ih =>
    rw [show NMap.adjust (e :: r) k f = (if e.1 = k then (e.1, f e.2) else e) :: NMap.adjust r k f from rfl, NMap.get?_cons,
      NMap.get?_cons, ih]
    by_cases he : e.1 = k <;> by_cases hj : j = k <;> simp_all
    simp [Ne.symm hj]

/-- The keys of a map rise. -/
def NMap.rising (m : NMap α) : Prop := m.Pairwise fun a b => a.1 < b.1

theorem NMap.put_keys (e : Nat × α) (h : e ∈ m.put k v) : e ∈ m ∨ e.1 = k := by
  induction m with
  | nil => simp [NMap.put] at h; simp [h]
  | cons x r ih =>
    simp only [NMap.put] at h
    split at h
    · rcases List.mem_cons.1 h with rfl | h
      · exact .inr rfl
      · exact .inl h
    · split at h
      · rcases List.mem_cons.1 h with rfl | h
        · exact .inr rfl
        · exact .inl (List.mem_cons_of_mem _ h)
      · rcases List.mem_cons.1 h with rfl | h
        · exact .inl List.mem_cons_self
        · rcases ih h with h | h
          · exact .inl (List.mem_cons_of_mem _ h)
          · exact .inr h

theorem NMap.rising_put (h : m.rising) : (m.put k v).rising := by
  induction m with
  | nil => simp [NMap.put, NMap.rising]
  | cons x r ih =>
    have hx := List.pairwise_cons.1 h
    simp only [NMap.put]
    split
    · rename_i hk
      refine List.pairwise_cons.2 ⟨fun e he => ?_, h⟩
      rcases List.mem_cons.1 he with rfl | he
      · exact hk
      · exact lt_trans hk (hx.1 e he)
    · split
      · rename_i hk
        exact List.pairwise_cons.2 ⟨fun e he => by simpa [hk] using hx.1 e he, hx.2⟩
      · rename_i h1 h2
        refine List.pairwise_cons.2 ⟨fun e he => ?_, ih hx.2⟩
        rcases NMap.put_keys r k v e he with he | he
        · exact hx.1 e he
        · simp only [he]; omega

theorem NMap.rising_del (h : m.rising) : (m.del k).rising := List.Pairwise.filter _ h

theorem NMap.rising_adjust (h : m.rising) : (m.adjust k f).rising := by
  refine List.pairwise_map.2 (h.imp fun {a b} hab => ?_)
  split <;> split <;> exact hab

end Sys2Proof.Machine
end

