-- ==== Sys2Proof/Laws/Memory.lean ====
section
/-! SUPPORT. Memory: a write keeps its one form, gives the bytes written where it wrote and leaves every other byte. -/
namespace Sys2Proof.Machine

/-- Cells made from a run of bytes stand inside the run, are not zero, and rise. -/
theorem cellsFrom_mem (k : Nat) (bs : List Byte) (c : Host.Cell) (h : c ∈ cellsFrom k bs) :
    k ≤ c.1 ∧ c.1 < k + bs.length ∧ c.2 ≠ 0 := by
  induction bs generalizing k with
  | nil => simp [cellsFrom] at h
  | cons b r ih =>
    simp only [cellsFrom] at h
    split at h
    · have := ih (k + 1) h
      simp only [List.length_cons]
      exact ⟨by omega, by omega, this.2.2⟩
    · rename_i hb
      rcases List.mem_cons.1 h with rfl | h
      · exact ⟨le_rfl, by simp, hb⟩
      · have := ih (k + 1) h
        simp only [List.length_cons]
        exact ⟨by omega, by omega, this.2.2⟩

theorem cellsFrom_rising (k : Nat) (bs : List Byte) : (cellsFrom k bs).Pairwise (fun a b => a.1 < b.1) := by
  induction bs generalizing k with
  | nil => simp [cellsFrom]
  | cons b r ih =>
    simp only [cellsFrom]
    split
    · exact ih (k + 1)
    · refine List.pairwise_cons.2 ⟨fun c hc => ?_, ih (k + 1)⟩
      have := (cellsFrom_mem (k + 1) r c hc).1
      simp only; omega

/-- Any part of a memory has the form. -/
theorem Memory.wf_filter {m : Memory} (h : m.wf) (p : Host.Cell → Bool) : Memory.wf (m.filter p) :=
  ⟨h.1.filter p, fun c hc => h.2 c (List.mem_filter.1 hc).1⟩

/-- A write keeps the form. -/
theorem Memory.wf_write {m : Memory} (h : m.wf) (k : Nat) (bs : List Byte) : (m.write k bs).wf := by
  refine ⟨?_, fun c hc => ?_⟩
  · unfold Memory.write
    rw [List.pairwise_append, List.pairwise_append]
    refine ⟨h.1.filter _, ⟨cellsFrom_rising k bs, h.1.filter _, fun a ha b hb => ?_⟩, fun a ha b hb => ?_⟩
    · have h1 := cellsFrom_mem k bs a ha
      have h2 := (List.mem_filter.1 hb).2
      simp only [decide_eq_true_eq] at h2
      omega
    · have h1 := (List.mem_filter.1 ha).2
      simp only [decide_eq_true_eq] at h1
      rcases List.mem_append.1 hb with hb | hb
      · have h2 := cellsFrom_mem k bs b hb
        omega
      · have h2 := (List.mem_filter.1 hb).2
        simp only [decide_eq_true_eq] at h2
        omega
  · simp only [Memory.write, List.mem_append] at hc
    rcases hc with hc | hc | hc
    · exact h.2 c (List.mem_filter.1 hc).1
    · exact (cellsFrom_mem k bs c hc).2.2
    · exact h.2 c (List.mem_filter.1 hc).1

/-- Memory lists nothing, and so has the form. -/
theorem Memory.wf_nil : Memory.wf [] := ⟨List.Pairwise.nil, by simp⟩

theorem State.reset_mem_wf : Memory.wf State.reset.mem := Memory.wf_nil

/-! ### Reading after a write -/

/-- Where an element is found among those a condition keeps. -/
theorem Memory.byte_filter (m : Memory) (p : Nat → Bool) (a : Nat) :
    Memory.byte (m.filter fun c => p c.1) a = if p a then m.byte a else 0 := by
  induction m with
  | nil => simp [Memory.byte]
  | cons c r ih =>
    simp only [Memory.byte] at ih ⊢
    by_cases hc : c.1 = a <;> by_cases hp : p c.1 <;> simp_all

theorem Memory.byte_append (m n : Memory) (a : Nat) (h : ∀ c ∈ m, c.1 ≠ a) : Memory.byte (m ++ n) a = Memory.byte n a := by
  have hm : m.find? (fun c => c.1 == a) = none := List.find?_eq_none.2 fun c hc => by simpa using h c hc
  simp [Memory.byte, List.find?_append, hm]

theorem Memory.byte_append_left (m n : Memory) (a : Nat) (h : ∀ c ∈ n, c.1 ≠ a) : Memory.byte (m ++ n) a = Memory.byte m a := by
  have hn : n.find? (fun c => c.1 == a) = none := List.find?_eq_none.2 fun c hc => by simpa using h c hc
  simp [Memory.byte, List.find?_append, hn]

theorem cellsFrom_byte (k : Nat) (bs : List Byte) (i : Nat) (h : i < bs.length) : Memory.byte (cellsFrom k bs) (k + i) = bs[i] := by
  induction bs generalizing k i with
  | nil => simp at h
  | cons b r ih =>
    have later : ∀ c ∈ cellsFrom (k + 1) r, c.1 ≠ k := fun c hc => by
      have := (cellsFrom_mem (k + 1) r c hc).1; omega
    cases i with
    | zero =>
      simp only [cellsFrom]
      split
      · rename_i hb
        have hn : (cellsFrom (k + 1) r).find? (fun c => c.1 == k) = none :=
          List.find?_eq_none.2 fun c hc => by simpa using later c hc
        simp [Memory.byte, hn, hb]
      · simp [Memory.byte]
    | succ j =>
      have hj : j < r.length := by simpa using h
      have := ih (k + 1) j hj
      rw [show k + 1 + j = k + (j + 1) by omega] at this
      simp only [cellsFrom]
      split
      · simpa using this
      · rw [show (k, b) :: cellsFrom (k + 1) r = [(k, b)] ++ cellsFrom (k + 1) r from rfl,
          Memory.byte_append _ _ _ (by simp)]
        simpa using this

/-- A byte written reads as written. -/
theorem Memory.byte_write_same (m : Memory) (k : Nat) (bs : List Byte) (i : Nat) (h : i < bs.length) :
    (m.write k bs).byte (k + i) = bs[i] := by
  unfold Memory.write
  rw [Memory.byte_append, Memory.byte_append_left, cellsFrom_byte k bs i h]
  · intro c hc
    have := (List.mem_filter.1 hc).2
    simp only [decide_eq_true_eq] at this
    omega
  · intro c hc
    have := (List.mem_filter.1 hc).2
    simp only [decide_eq_true_eq] at this
    omega

/-- A byte outside the run written reads as before. -/
theorem Memory.byte_write_other (m : Memory) (k : Nat) (bs : List Byte) (a : Nat) (h : a < k ∨ k + bs.length ≤ a) :
    (m.write k bs).byte a = m.byte a := by
  have off : ∀ c ∈ cellsFrom k bs, c.1 ≠ a := fun c hc => by have := cellsFrom_mem k bs c hc; omega
  unfold Memory.write
  rcases h with h | h
  · rw [Memory.byte_append_left, Memory.byte_filter m (fun x => decide (x < k)) a]
    · simp [h]
    · intro c hc
      rcases List.mem_append.1 hc with hc | hc
      · exact off c hc
      · have := (List.mem_filter.1 hc).2
        simp only [decide_eq_true_eq] at this
        omega
  · rw [Memory.byte_append, Memory.byte_append _ _ _ off, Memory.byte_filter m (fun x => decide (k + bs.length ≤ x)) a]
    · simp [h]
    · intro c hc
      have := (List.mem_filter.1 hc).2
      simp only [decide_eq_true_eq] at this
      omega

/-- A run of bytes written reads as written. -/
theorem Memory.bytes_write_same (m : Memory) (k : Nat) (bs : List Byte) : (m.write k bs).bytes k bs.length = bs := by
  refine List.ext_getElem (by simp [Memory.bytes]) fun i h1 h2 => ?_
  simpa [Memory.bytes] using Memory.byte_write_same m k bs i h2

end Sys2Proof.Machine
end

