-- ==== Sys2Proof/Laws/State.lean ====
section
/-! SUPPORT. What each named update of the state leaves and what it sets: one lemma per field. -/
namespace Sys2Proof.Machine

variable (s : State)

/-! ### setWarp -/

section setWarp
variable (wid : Nat) (w : Warp)
@[simp] theorem State.setWarp_cycle : (s.setWarp wid w).cycle = s.cycle := rfl
@[simp] theorem State.setWarp_focus : (s.setWarp wid w).focus = s.focus := rfl
@[simp] theorem State.setWarp_issued : (s.setWarp wid w).issued = s.issued := rfl
@[simp] theorem State.setWarp_agenda : (s.setWarp wid w).agenda = s.agenda := rfl
@[simp] theorem State.setWarp_hostData : (s.setWarp wid w).hostData = s.hostData := rfl
@[simp] theorem State.setWarp_drawn : (s.setWarp wid w).drawn = s.drawn := rfl
@[simp] theorem State.setWarp_outbox : (s.setWarp wid w).outbox = s.outbox := rfl
@[simp] theorem State.setWarp_upset : (s.setWarp wid w).upset = s.upset := rfl
@[simp] theorem State.setWarp_poolUpset : (s.setWarp wid w).poolUpset = s.poolUpset := rfl
@[simp] theorem State.setWarp_fetchUpset : (s.setWarp wid w).fetchUpset = s.fetchUpset := rfl
@[simp] theorem State.setWarp_portFaults : (s.setWarp wid w).portFaults = s.portFaults := rfl
@[simp] theorem State.setWarp_natives : (s.setWarp wid w).natives = s.natives := rfl
@[simp] theorem State.setWarp_sched : (s.setWarp wid w).sched = s.sched := rfl
@[simp] theorem State.setWarp_correctedFetch : (s.setWarp wid w).correctedFetch = s.correctedFetch := rfl
@[simp] theorem State.setWarp_correctedCompute : (s.setWarp wid w).correctedCompute = s.correctedCompute := rfl
@[simp] theorem State.setWarp_mem : (s.setWarp wid w).mem = s.mem := rfl
@[simp] theorem State.setWarp_poison : (s.setWarp wid w).poison = s.poison := rfl
@[simp] theorem State.setWarp_absent : (s.setWarp wid w).absent = s.absent := rfl
@[simp] theorem State.setWarp_owned : (s.setWarp wid w).owned = s.owned := rfl
@[simp] theorem State.setWarp_lineWriters : (s.setWarp wid w).lineWriters = s.lineWriters := rfl
@[simp] theorem State.setWarp_pageRequests : (s.setWarp wid w).pageRequests = s.pageRequests := rfl
@[simp] theorem State.setWarp_copyErrors : (s.setWarp wid w).copyErrors = s.copyErrors := rfl
@[simp] theorem State.setWarp_iommu : (s.setWarp wid w).iommu = s.iommu := rfl
@[simp] theorem State.setWarp_atc : (s.setWarp wid w).atc = s.atc := rfl
@[simp] theorem State.setWarp_parts : (s.setWarp wid w).parts = s.parts := rfl
@[simp] theorem State.setWarp_launches : (s.setWarp wid w).launches = s.launches := rfl
@[simp] theorem State.setWarp_statuses : (s.setWarp wid w).statuses = s.statuses := rfl
@[simp] theorem State.setWarp_blocks : (s.setWarp wid w).blocks = s.blocks := rfl
@[simp] theorem State.setWarp_nextBlock : (s.setWarp wid w).nextBlock = s.nextBlock := rfl
@[simp] theorem State.setWarp_warps : (s.setWarp wid w).warps = s.warps.put wid w := rfl
@[simp] theorem State.setWarp_rot : (s.setWarp wid w).rot = s.rot := rfl
@[simp] theorem State.setWarp_stores : (s.setWarp wid w).stores = s.stores := rfl
@[simp] theorem State.setWarp_unacked : (s.setWarp wid w).unacked = s.unacked := rfl
@[simp] theorem State.setWarp_hidden : (s.setWarp wid w).hidden = s.hidden := rfl
@[simp] theorem State.setWarp_clocks : (s.setWarp wid w).clocks = s.clocks := rfl
@[simp] theorem State.setWarp_cache : (s.setWarp wid w).cache = s.cache := rfl
@[simp] theorem State.setWarp_lockPairs : (s.setWarp wid w).lockPairs = s.lockPairs := rfl
@[simp] theorem State.setWarp_lockLast : (s.setWarp wid w).lockLast = s.lockLast := rfl
@[simp] theorem State.setWarp_semQueues : (s.setWarp wid w).semQueues = s.semQueues := rfl
@[simp] theorem State.setWarp_peerWaits : (s.setWarp wid w).peerWaits = s.peerWaits := rfl
@[simp] theorem State.setWarp_engines : (s.setWarp wid w).engines = s.engines := rfl
@[simp] theorem State.setWarp_viewNo : (s.setWarp wid w).viewNo = s.viewNo := rfl
@[simp] theorem State.setWarp_manifest : (s.setWarp wid w).manifest = s.manifest := rfl
@[simp] theorem State.setWarp_self : (s.setWarp wid w).self = s.self := rfl
@[simp] theorem State.setWarp_isolatedPeers : (s.setWarp wid w).isolatedPeers = s.isolatedPeers := rfl
@[simp] theorem State.setWarp_domain : (s.setWarp wid w).domain = s.domain := rfl
@[simp] theorem State.setWarp_agreement : (s.setWarp wid w).agreement = s.agreement := rfl
@[simp] theorem State.setWarp_viewCtl : (s.setWarp wid w).viewCtl = s.viewCtl := rfl
@[simp] theorem State.setWarp_heard : (s.setWarp wid w).heard = s.heard := rfl
@[simp] theorem State.setWarp_beatAt : (s.setWarp wid w).beatAt = s.beatAt := rfl
@[simp] theorem State.setWarp_joins : (s.setWarp wid w).joins = s.joins := rfl
@[simp] theorem State.setWarp_joining : (s.setWarp wid w).joining = s.joining := rfl
@[simp] theorem State.setWarp_comms : (s.setWarp wid w).comms = s.comms := rfl
@[simp] theorem State.setWarp_colls : (s.setWarp wid w).colls = s.colls := rfl
@[simp] theorem State.setWarp_links : (s.setWarp wid w).links = s.links := rfl
@[simp] theorem State.setWarp_ports : (s.setWarp wid w).ports = s.ports := rfl
@[simp] theorem State.setWarp_dropTotal : (s.setWarp wid w).dropTotal = s.dropTotal := rfl
@[simp] theorem State.setWarp_drops : (s.setWarp wid w).drops = s.drops := rfl
@[simp] theorem State.setWarp_canalSeqs : (s.setWarp wid w).canalSeqs = s.canalSeqs := rfl
@[simp] theorem State.setWarp_held : (s.setWarp wid w).held = s.held := rfl
@[simp] theorem State.setWarp_invalidations : (s.setWarp wid w).invalidations = s.invalidations := rfl
@[simp] theorem State.setWarp_images : (s.setWarp wid w).images = s.images := rfl
@[simp] theorem State.setWarp_cellars : (s.setWarp wid w).cellars = s.cellars := rfl
@[simp] theorem State.setWarp_marks : (s.setWarp wid w).marks = s.marks := rfl
@[simp] theorem State.setWarp_contexts : (s.setWarp wid w).contexts = s.contexts := rfl
@[simp] theorem State.setWarp_slots : (s.setWarp wid w).slots = s.slots := rfl
@[simp] theorem State.setWarp_latched : (s.setWarp wid w).latched = s.latched := rfl
@[simp] theorem State.setWarp_ctl : (s.setWarp wid w).ctl = s.ctl := rfl
@[simp] theorem State.setWarp_flash : (s.setWarp wid w).flash = s.flash := rfl
@[simp] theorem State.setWarp_throttle : (s.setWarp wid w).throttle = s.throttle := rfl
@[simp] theorem State.setWarp_frozen : (s.setWarp wid w).frozen = s.frozen := rfl
@[simp] theorem State.setWarp_trigger : (s.setWarp wid w).trigger = s.trigger := rfl
end setWarp

/-! ### setBlock -/

section setBlock
variable (b : Nat) (f : Block → Block)
@[simp] theorem State.setBlock_cycle : (s.setBlock b f).cycle = s.cycle := rfl
@[simp] theorem State.setBlock_focus : (s.setBlock b f).focus = s.focus := rfl
@[simp] theorem State.setBlock_issued : (s.setBlock b f).issued = s.issued := rfl
@[simp] theorem State.setBlock_agenda : (s.setBlock b f).agenda = s.agenda := rfl
@[simp] theorem State.setBlock_hostData : (s.setBlock b f).hostData = s.hostData := rfl
@[simp] theorem State.setBlock_drawn : (s.setBlock b f).drawn = s.drawn := rfl
@[simp] theorem State.setBlock_outbox : (s.setBlock b f).outbox = s.outbox := rfl
@[simp] theorem State.setBlock_upset : (s.setBlock b f).upset = s.upset := rfl
@[simp] theorem State.setBlock_poolUpset : (s.setBlock b f).poolUpset = s.poolUpset := rfl
@[simp] theorem State.setBlock_fetchUpset : (s.setBlock b f).fetchUpset = s.fetchUpset := rfl
@[simp] theorem State.setBlock_portFaults : (s.setBlock b f).portFaults = s.portFaults := rfl
@[simp] theorem State.setBlock_natives : (s.setBlock b f).natives = s.natives := rfl
@[simp] theorem State.setBlock_sched : (s.setBlock b f).sched = s.sched := rfl
@[simp] theorem State.setBlock_correctedFetch : (s.setBlock b f).correctedFetch = s.correctedFetch := rfl
@[simp] theorem State.setBlock_correctedCompute : (s.setBlock b f).correctedCompute = s.correctedCompute := rfl
@[simp] theorem State.setBlock_mem : (s.setBlock b f).mem = s.mem := rfl
@[simp] theorem State.setBlock_poison : (s.setBlock b f).poison = s.poison := rfl
@[simp] theorem State.setBlock_absent : (s.setBlock b f).absent = s.absent := rfl
@[simp] theorem State.setBlock_owned : (s.setBlock b f).owned = s.owned := rfl
@[simp] theorem State.setBlock_lineWriters : (s.setBlock b f).lineWriters = s.lineWriters := rfl
@[simp] theorem State.setBlock_pageRequests : (s.setBlock b f).pageRequests = s.pageRequests := rfl
@[simp] theorem State.setBlock_copyErrors : (s.setBlock b f).copyErrors = s.copyErrors := rfl
@[simp] theorem State.setBlock_iommu : (s.setBlock b f).iommu = s.iommu := rfl
@[simp] theorem State.setBlock_atc : (s.setBlock b f).atc = s.atc := rfl
@[simp] theorem State.setBlock_parts : (s.setBlock b f).parts = s.parts := rfl
@[simp] theorem State.setBlock_launches : (s.setBlock b f).launches = s.launches := rfl
@[simp] theorem State.setBlock_statuses : (s.setBlock b f).statuses = s.statuses := rfl
@[simp] theorem State.setBlock_blocks : (s.setBlock b f).blocks = s.blocks.adjust b f := rfl
@[simp] theorem State.setBlock_nextBlock : (s.setBlock b f).nextBlock = s.nextBlock := rfl
@[simp] theorem State.setBlock_warps : (s.setBlock b f).warps = s.warps := rfl
@[simp] theorem State.setBlock_rot : (s.setBlock b f).rot = s.rot := rfl
@[simp] theorem State.setBlock_stores : (s.setBlock b f).stores = s.stores := rfl
@[simp] theorem State.setBlock_unacked : (s.setBlock b f).unacked = s.unacked := rfl
@[simp] theorem State.setBlock_hidden : (s.setBlock b f).hidden = s.hidden := rfl
@[simp] theorem State.setBlock_clocks : (s.setBlock b f).clocks = s.clocks := rfl
@[simp] theorem State.setBlock_cache : (s.setBlock b f).cache = s.cache := rfl
@[simp] theorem State.setBlock_lockPairs : (s.setBlock b f).lockPairs = s.lockPairs := rfl
@[simp] theorem State.setBlock_lockLast : (s.setBlock b f).lockLast = s.lockLast := rfl
@[simp] theorem State.setBlock_semQueues : (s.setBlock b f).semQueues = s.semQueues := rfl
@[simp] theorem State.setBlock_peerWaits : (s.setBlock b f).peerWaits = s.peerWaits := rfl
@[simp] theorem State.setBlock_engines : (s.setBlock b f).engines = s.engines := rfl
@[simp] theorem State.setBlock_viewNo : (s.setBlock b f).viewNo = s.viewNo := rfl
@[simp] theorem State.setBlock_manifest : (s.setBlock b f).manifest = s.manifest := rfl
@[simp] theorem State.setBlock_self : (s.setBlock b f).self = s.self := rfl
@[simp] theorem State.setBlock_isolatedPeers : (s.setBlock b f).isolatedPeers = s.isolatedPeers := rfl
@[simp] theorem State.setBlock_domain : (s.setBlock b f).domain = s.domain := rfl
@[simp] theorem State.setBlock_agreement : (s.setBlock b f).agreement = s.agreement := rfl
@[simp] theorem State.setBlock_viewCtl : (s.setBlock b f).viewCtl = s.viewCtl := rfl
@[simp] theorem State.setBlock_heard : (s.setBlock b f).heard = s.heard := rfl
@[simp] theorem State.setBlock_beatAt : (s.setBlock b f).beatAt = s.beatAt := rfl
@[simp] theorem State.setBlock_joins : (s.setBlock b f).joins = s.joins := rfl
@[simp] theorem State.setBlock_joining : (s.setBlock b f).joining = s.joining := rfl
@[simp] theorem State.setBlock_comms : (s.setBlock b f).comms = s.comms := rfl
@[simp] theorem State.setBlock_colls : (s.setBlock b f).colls = s.colls := rfl
@[simp] theorem State.setBlock_links : (s.setBlock b f).links = s.links := rfl
@[simp] theorem State.setBlock_ports : (s.setBlock b f).ports = s.ports := rfl
@[simp] theorem State.setBlock_dropTotal : (s.setBlock b f).dropTotal = s.dropTotal := rfl
@[simp] theorem State.setBlock_drops : (s.setBlock b f).drops = s.drops := rfl
@[simp] theorem State.setBlock_canalSeqs : (s.setBlock b f).canalSeqs = s.canalSeqs := rfl
@[simp] theorem State.setBlock_held : (s.setBlock b f).held = s.held := rfl
@[simp] theorem State.setBlock_invalidations : (s.setBlock b f).invalidations = s.invalidations := rfl
@[simp] theorem State.setBlock_images : (s.setBlock b f).images = s.images := rfl
@[simp] theorem State.setBlock_cellars : (s.setBlock b f).cellars = s.cellars := rfl
@[simp] theorem State.setBlock_marks : (s.setBlock b f).marks = s.marks := rfl
@[simp] theorem State.setBlock_contexts : (s.setBlock b f).contexts = s.contexts := rfl
@[simp] theorem State.setBlock_slots : (s.setBlock b f).slots = s.slots := rfl
@[simp] theorem State.setBlock_latched : (s.setBlock b f).latched = s.latched := rfl
@[simp] theorem State.setBlock_ctl : (s.setBlock b f).ctl = s.ctl := rfl
@[simp] theorem State.setBlock_flash : (s.setBlock b f).flash = s.flash := rfl
@[simp] theorem State.setBlock_throttle : (s.setBlock b f).throttle = s.throttle := rfl
@[simp] theorem State.setBlock_frozen : (s.setBlock b f).frozen = s.frozen := rfl
@[simp] theorem State.setBlock_trigger : (s.setBlock b f).trigger = s.trigger := rfl
end setBlock

/-! ### setPart -/

section setPart
variable (p : Nat) (f : Partition → Partition)
@[simp] theorem State.setPart_cycle : (s.setPart p f).cycle = s.cycle := rfl
@[simp] theorem State.setPart_focus : (s.setPart p f).focus = s.focus := rfl
@[simp] theorem State.setPart_issued : (s.setPart p f).issued = s.issued := rfl
@[simp] theorem State.setPart_agenda : (s.setPart p f).agenda = s.agenda := rfl
@[simp] theorem State.setPart_hostData : (s.setPart p f).hostData = s.hostData := rfl
@[simp] theorem State.setPart_drawn : (s.setPart p f).drawn = s.drawn := rfl
@[simp] theorem State.setPart_outbox : (s.setPart p f).outbox = s.outbox := rfl
@[simp] theorem State.setPart_upset : (s.setPart p f).upset = s.upset := rfl
@[simp] theorem State.setPart_poolUpset : (s.setPart p f).poolUpset = s.poolUpset := rfl
@[simp] theorem State.setPart_fetchUpset : (s.setPart p f).fetchUpset = s.fetchUpset := rfl
@[simp] theorem State.setPart_portFaults : (s.setPart p f).portFaults = s.portFaults := rfl
@[simp] theorem State.setPart_natives : (s.setPart p f).natives = s.natives := rfl
@[simp] theorem State.setPart_sched : (s.setPart p f).sched = s.sched := rfl
@[simp] theorem State.setPart_correctedFetch : (s.setPart p f).correctedFetch = s.correctedFetch := rfl
@[simp] theorem State.setPart_correctedCompute : (s.setPart p f).correctedCompute = s.correctedCompute := rfl
@[simp] theorem State.setPart_mem : (s.setPart p f).mem = s.mem := rfl
@[simp] theorem State.setPart_poison : (s.setPart p f).poison = s.poison := rfl
@[simp] theorem State.setPart_absent : (s.setPart p f).absent = s.absent := rfl
@[simp] theorem State.setPart_owned : (s.setPart p f).owned = s.owned := rfl
@[simp] theorem State.setPart_lineWriters : (s.setPart p f).lineWriters = s.lineWriters := rfl
@[simp] theorem State.setPart_pageRequests : (s.setPart p f).pageRequests = s.pageRequests := rfl
@[simp] theorem State.setPart_copyErrors : (s.setPart p f).copyErrors = s.copyErrors := rfl
@[simp] theorem State.setPart_iommu : (s.setPart p f).iommu = s.iommu := rfl
@[simp] theorem State.setPart_atc : (s.setPart p f).atc = s.atc := rfl
@[simp] theorem State.setPart_parts : (s.setPart p f).parts = s.parts.adjust p f := rfl
@[simp] theorem State.setPart_launches : (s.setPart p f).launches = s.launches := rfl
@[simp] theorem State.setPart_statuses : (s.setPart p f).statuses = s.statuses := rfl
@[simp] theorem State.setPart_blocks : (s.setPart p f).blocks = s.blocks := rfl
@[simp] theorem State.setPart_nextBlock : (s.setPart p f).nextBlock = s.nextBlock := rfl
@[simp] theorem State.setPart_warps : (s.setPart p f).warps = s.warps := rfl
@[simp] theorem State.setPart_rot : (s.setPart p f).rot = s.rot := rfl
@[simp] theorem State.setPart_stores : (s.setPart p f).stores = s.stores := rfl
@[simp] theorem State.setPart_unacked : (s.setPart p f).unacked = s.unacked := rfl
@[simp] theorem State.setPart_hidden : (s.setPart p f).hidden = s.hidden := rfl
@[simp] theorem State.setPart_clocks : (s.setPart p f).clocks = s.clocks := rfl
@[simp] theorem State.setPart_cache : (s.setPart p f).cache = s.cache := rfl
@[simp] theorem State.setPart_lockPairs : (s.setPart p f).lockPairs = s.lockPairs := rfl
@[simp] theorem State.setPart_lockLast : (s.setPart p f).lockLast = s.lockLast := rfl
@[simp] theorem State.setPart_semQueues : (s.setPart p f).semQueues = s.semQueues := rfl
@[simp] theorem State.setPart_peerWaits : (s.setPart p f).peerWaits = s.peerWaits := rfl
@[simp] theorem State.setPart_engines : (s.setPart p f).engines = s.engines := rfl
@[simp] theorem State.setPart_viewNo : (s.setPart p f).viewNo = s.viewNo := rfl
@[simp] theorem State.setPart_manifest : (s.setPart p f).manifest = s.manifest := rfl
@[simp] theorem State.setPart_self : (s.setPart p f).self = s.self := rfl
@[simp] theorem State.setPart_isolatedPeers : (s.setPart p f).isolatedPeers = s.isolatedPeers := rfl
@[simp] theorem State.setPart_domain : (s.setPart p f).domain = s.domain := rfl
@[simp] theorem State.setPart_agreement : (s.setPart p f).agreement = s.agreement := rfl
@[simp] theorem State.setPart_viewCtl : (s.setPart p f).viewCtl = s.viewCtl := rfl
@[simp] theorem State.setPart_heard : (s.setPart p f).heard = s.heard := rfl
@[simp] theorem State.setPart_beatAt : (s.setPart p f).beatAt = s.beatAt := rfl
@[simp] theorem State.setPart_joins : (s.setPart p f).joins = s.joins := rfl
@[simp] theorem State.setPart_joining : (s.setPart p f).joining = s.joining := rfl
@[simp] theorem State.setPart_comms : (s.setPart p f).comms = s.comms := rfl
@[simp] theorem State.setPart_colls : (s.setPart p f).colls = s.colls := rfl
@[simp] theorem State.setPart_links : (s.setPart p f).links = s.links := rfl
@[simp] theorem State.setPart_ports : (s.setPart p f).ports = s.ports := rfl
@[simp] theorem State.setPart_dropTotal : (s.setPart p f).dropTotal = s.dropTotal := rfl
@[simp] theorem State.setPart_drops : (s.setPart p f).drops = s.drops := rfl
@[simp] theorem State.setPart_canalSeqs : (s.setPart p f).canalSeqs = s.canalSeqs := rfl
@[simp] theorem State.setPart_held : (s.setPart p f).held = s.held := rfl
@[simp] theorem State.setPart_invalidations : (s.setPart p f).invalidations = s.invalidations := rfl
@[simp] theorem State.setPart_images : (s.setPart p f).images = s.images := rfl
@[simp] theorem State.setPart_cellars : (s.setPart p f).cellars = s.cellars := rfl
@[simp] theorem State.setPart_marks : (s.setPart p f).marks = s.marks := rfl
@[simp] theorem State.setPart_contexts : (s.setPart p f).contexts = s.contexts := rfl
@[simp] theorem State.setPart_slots : (s.setPart p f).slots = s.slots := rfl
@[simp] theorem State.setPart_latched : (s.setPart p f).latched = s.latched := rfl
@[simp] theorem State.setPart_ctl : (s.setPart p f).ctl = s.ctl := rfl
@[simp] theorem State.setPart_flash : (s.setPart p f).flash = s.flash := rfl
@[simp] theorem State.setPart_throttle : (s.setPart p f).throttle = s.throttle := rfl
@[simp] theorem State.setPart_frozen : (s.setPart p f).frozen = s.frozen := rfl
@[simp] theorem State.setPart_trigger : (s.setPart p f).trigger = s.trigger := rfl
end setPart

/-! ### setLaunch -/

section setLaunch
variable (l : Nat) (f : Launch → Launch)
@[simp] theorem State.setLaunch_cycle : (s.setLaunch l f).cycle = s.cycle := rfl
@[simp] theorem State.setLaunch_focus : (s.setLaunch l f).focus = s.focus := rfl
@[simp] theorem State.setLaunch_issued : (s.setLaunch l f).issued = s.issued := rfl
@[simp] theorem State.setLaunch_agenda : (s.setLaunch l f).agenda = s.agenda := rfl
@[simp] theorem State.setLaunch_hostData : (s.setLaunch l f).hostData = s.hostData := rfl
@[simp] theorem State.setLaunch_drawn : (s.setLaunch l f).drawn = s.drawn := rfl
@[simp] theorem State.setLaunch_outbox : (s.setLaunch l f).outbox = s.outbox := rfl
@[simp] theorem State.setLaunch_upset : (s.setLaunch l f).upset = s.upset := rfl
@[simp] theorem State.setLaunch_poolUpset : (s.setLaunch l f).poolUpset = s.poolUpset := rfl
@[simp] theorem State.setLaunch_fetchUpset : (s.setLaunch l f).fetchUpset = s.fetchUpset := rfl
@[simp] theorem State.setLaunch_portFaults : (s.setLaunch l f).portFaults = s.portFaults := rfl
@[simp] theorem State.setLaunch_natives : (s.setLaunch l f).natives = s.natives := rfl
@[simp] theorem State.setLaunch_sched : (s.setLaunch l f).sched = s.sched := rfl
@[simp] theorem State.setLaunch_correctedFetch : (s.setLaunch l f).correctedFetch = s.correctedFetch := rfl
@[simp] theorem State.setLaunch_correctedCompute : (s.setLaunch l f).correctedCompute = s.correctedCompute := rfl
@[simp] theorem State.setLaunch_mem : (s.setLaunch l f).mem = s.mem := rfl
@[simp] theorem State.setLaunch_poison : (s.setLaunch l f).poison = s.poison := rfl
@[simp] theorem State.setLaunch_absent : (s.setLaunch l f).absent = s.absent := rfl
@[simp] theorem State.setLaunch_owned : (s.setLaunch l f).owned = s.owned := rfl
@[simp] theorem State.setLaunch_lineWriters : (s.setLaunch l f).lineWriters = s.lineWriters := rfl
@[simp] theorem State.setLaunch_pageRequests : (s.setLaunch l f).pageRequests = s.pageRequests := rfl
@[simp] theorem State.setLaunch_copyErrors : (s.setLaunch l f).copyErrors = s.copyErrors := rfl
@[simp] theorem State.setLaunch_iommu : (s.setLaunch l f).iommu = s.iommu := rfl
@[simp] theorem State.setLaunch_atc : (s.setLaunch l f).atc = s.atc := rfl
@[simp] theorem State.setLaunch_parts : (s.setLaunch l f).parts = s.parts := rfl
@[simp] theorem State.setLaunch_launches : (s.setLaunch l f).launches = s.launches.adjust l f := rfl
@[simp] theorem State.setLaunch_statuses : (s.setLaunch l f).statuses = s.statuses := rfl
@[simp] theorem State.setLaunch_blocks : (s.setLaunch l f).blocks = s.blocks := rfl
@[simp] theorem State.setLaunch_nextBlock : (s.setLaunch l f).nextBlock = s.nextBlock := rfl
@[simp] theorem State.setLaunch_warps : (s.setLaunch l f).warps = s.warps := rfl
@[simp] theorem State.setLaunch_rot : (s.setLaunch l f).rot = s.rot := rfl
@[simp] theorem State.setLaunch_stores : (s.setLaunch l f).stores = s.stores := rfl
@[simp] theorem State.setLaunch_unacked : (s.setLaunch l f).unacked = s.unacked := rfl
@[simp] theorem State.setLaunch_hidden : (s.setLaunch l f).hidden = s.hidden := rfl
@[simp] theorem State.setLaunch_clocks : (s.setLaunch l f).clocks = s.clocks := rfl
@[simp] theorem State.setLaunch_cache : (s.setLaunch l f).cache = s.cache := rfl
@[simp] theorem State.setLaunch_lockPairs : (s.setLaunch l f).lockPairs = s.lockPairs := rfl
@[simp] theorem State.setLaunch_lockLast : (s.setLaunch l f).lockLast = s.lockLast := rfl
@[simp] theorem State.setLaunch_semQueues : (s.setLaunch l f).semQueues = s.semQueues := rfl
@[simp] theorem State.setLaunch_peerWaits : (s.setLaunch l f).peerWaits = s.peerWaits := rfl
@[simp] theorem State.setLaunch_engines : (s.setLaunch l f).engines = s.engines := rfl
@[simp] theorem State.setLaunch_viewNo : (s.setLaunch l f).viewNo = s.viewNo := rfl
@[simp] theorem State.setLaunch_manifest : (s.setLaunch l f).manifest = s.manifest := rfl
@[simp] theorem State.setLaunch_self : (s.setLaunch l f).self = s.self := rfl
@[simp] theorem State.setLaunch_isolatedPeers : (s.setLaunch l f).isolatedPeers = s.isolatedPeers := rfl
@[simp] theorem State.setLaunch_domain : (s.setLaunch l f).domain = s.domain := rfl
@[simp] theorem State.setLaunch_agreement : (s.setLaunch l f).agreement = s.agreement := rfl
@[simp] theorem State.setLaunch_viewCtl : (s.setLaunch l f).viewCtl = s.viewCtl := rfl
@[simp] theorem State.setLaunch_heard : (s.setLaunch l f).heard = s.heard := rfl
@[simp] theorem State.setLaunch_beatAt : (s.setLaunch l f).beatAt = s.beatAt := rfl
@[simp] theorem State.setLaunch_joins : (s.setLaunch l f).joins = s.joins := rfl
@[simp] theorem State.setLaunch_joining : (s.setLaunch l f).joining = s.joining := rfl
@[simp] theorem State.setLaunch_comms : (s.setLaunch l f).comms = s.comms := rfl
@[simp] theorem State.setLaunch_colls : (s.setLaunch l f).colls = s.colls := rfl
@[simp] theorem State.setLaunch_links : (s.setLaunch l f).links = s.links := rfl
@[simp] theorem State.setLaunch_ports : (s.setLaunch l f).ports = s.ports := rfl
@[simp] theorem State.setLaunch_dropTotal : (s.setLaunch l f).dropTotal = s.dropTotal := rfl
@[simp] theorem State.setLaunch_drops : (s.setLaunch l f).drops = s.drops := rfl
@[simp] theorem State.setLaunch_canalSeqs : (s.setLaunch l f).canalSeqs = s.canalSeqs := rfl
@[simp] theorem State.setLaunch_held : (s.setLaunch l f).held = s.held := rfl
@[simp] theorem State.setLaunch_invalidations : (s.setLaunch l f).invalidations = s.invalidations := rfl
@[simp] theorem State.setLaunch_images : (s.setLaunch l f).images = s.images := rfl
@[simp] theorem State.setLaunch_cellars : (s.setLaunch l f).cellars = s.cellars := rfl
@[simp] theorem State.setLaunch_marks : (s.setLaunch l f).marks = s.marks := rfl
@[simp] theorem State.setLaunch_contexts : (s.setLaunch l f).contexts = s.contexts := rfl
@[simp] theorem State.setLaunch_slots : (s.setLaunch l f).slots = s.slots := rfl
@[simp] theorem State.setLaunch_latched : (s.setLaunch l f).latched = s.latched := rfl
@[simp] theorem State.setLaunch_ctl : (s.setLaunch l f).ctl = s.ctl := rfl
@[simp] theorem State.setLaunch_flash : (s.setLaunch l f).flash = s.flash := rfl
@[simp] theorem State.setLaunch_throttle : (s.setLaunch l f).throttle = s.throttle := rfl
@[simp] theorem State.setLaunch_frozen : (s.setLaunch l f).frozen = s.frozen := rfl
@[simp] theorem State.setLaunch_trigger : (s.setLaunch l f).trigger = s.trigger := rfl
end setLaunch

/-! ### setPath -/

section setPath
variable (wid i : Nat) (f : Path → Path)
@[simp] theorem State.setPath_cycle : (s.setPath wid i f).cycle = s.cycle := rfl
@[simp] theorem State.setPath_focus : (s.setPath wid i f).focus = s.focus := rfl
@[simp] theorem State.setPath_issued : (s.setPath wid i f).issued = s.issued := rfl
@[simp] theorem State.setPath_agenda : (s.setPath wid i f).agenda = s.agenda := rfl
@[simp] theorem State.setPath_hostData : (s.setPath wid i f).hostData = s.hostData := rfl
@[simp] theorem State.setPath_drawn : (s.setPath wid i f).drawn = s.drawn := rfl
@[simp] theorem State.setPath_outbox : (s.setPath wid i f).outbox = s.outbox := rfl
@[simp] theorem State.setPath_upset : (s.setPath wid i f).upset = s.upset := rfl
@[simp] theorem State.setPath_poolUpset : (s.setPath wid i f).poolUpset = s.poolUpset := rfl
@[simp] theorem State.setPath_fetchUpset : (s.setPath wid i f).fetchUpset = s.fetchUpset := rfl
@[simp] theorem State.setPath_portFaults : (s.setPath wid i f).portFaults = s.portFaults := rfl
@[simp] theorem State.setPath_natives : (s.setPath wid i f).natives = s.natives := rfl
@[simp] theorem State.setPath_sched : (s.setPath wid i f).sched = s.sched := rfl
@[simp] theorem State.setPath_correctedFetch : (s.setPath wid i f).correctedFetch = s.correctedFetch := rfl
@[simp] theorem State.setPath_correctedCompute : (s.setPath wid i f).correctedCompute = s.correctedCompute := rfl
@[simp] theorem State.setPath_mem : (s.setPath wid i f).mem = s.mem := rfl
@[simp] theorem State.setPath_poison : (s.setPath wid i f).poison = s.poison := rfl
@[simp] theorem State.setPath_absent : (s.setPath wid i f).absent = s.absent := rfl
@[simp] theorem State.setPath_owned : (s.setPath wid i f).owned = s.owned := rfl
@[simp] theorem State.setPath_lineWriters : (s.setPath wid i f).lineWriters = s.lineWriters := rfl
@[simp] theorem State.setPath_pageRequests : (s.setPath wid i f).pageRequests = s.pageRequests := rfl
@[simp] theorem State.setPath_copyErrors : (s.setPath wid i f).copyErrors = s.copyErrors := rfl
@[simp] theorem State.setPath_iommu : (s.setPath wid i f).iommu = s.iommu := rfl
@[simp] theorem State.setPath_atc : (s.setPath wid i f).atc = s.atc := rfl
@[simp] theorem State.setPath_parts : (s.setPath wid i f).parts = s.parts := rfl
@[simp] theorem State.setPath_launches : (s.setPath wid i f).launches = s.launches := rfl
@[simp] theorem State.setPath_statuses : (s.setPath wid i f).statuses = s.statuses := rfl
@[simp] theorem State.setPath_blocks : (s.setPath wid i f).blocks = s.blocks := rfl
@[simp] theorem State.setPath_nextBlock : (s.setPath wid i f).nextBlock = s.nextBlock := rfl
@[simp] theorem State.setPath_warps : (s.setPath wid i f).warps = s.warps.adjust wid fun w => w.setPath i (f (w.path i)) := rfl
@[simp] theorem State.setPath_rot : (s.setPath wid i f).rot = s.rot := rfl
@[simp] theorem State.setPath_stores : (s.setPath wid i f).stores = s.stores := rfl
@[simp] theorem State.setPath_unacked : (s.setPath wid i f).unacked = s.unacked := rfl
@[simp] theorem State.setPath_hidden : (s.setPath wid i f).hidden = s.hidden := rfl
@[simp] theorem State.setPath_clocks : (s.setPath wid i f).clocks = s.clocks := rfl
@[simp] theorem State.setPath_cache : (s.setPath wid i f).cache = s.cache := rfl
@[simp] theorem State.setPath_lockPairs : (s.setPath wid i f).lockPairs = s.lockPairs := rfl
@[simp] theorem State.setPath_lockLast : (s.setPath wid i f).lockLast = s.lockLast := rfl
@[simp] theorem State.setPath_semQueues : (s.setPath wid i f).semQueues = s.semQueues := rfl
@[simp] theorem State.setPath_peerWaits : (s.setPath wid i f).peerWaits = s.peerWaits := rfl
@[simp] theorem State.setPath_engines : (s.setPath wid i f).engines = s.engines := rfl
@[simp] theorem State.setPath_viewNo : (s.setPath wid i f).viewNo = s.viewNo := rfl
@[simp] theorem State.setPath_manifest : (s.setPath wid i f).manifest = s.manifest := rfl
@[simp] theorem State.setPath_self : (s.setPath wid i f).self = s.self := rfl
@[simp] theorem State.setPath_isolatedPeers : (s.setPath wid i f).isolatedPeers = s.isolatedPeers := rfl
@[simp] theorem State.setPath_domain : (s.setPath wid i f).domain = s.domain := rfl
@[simp] theorem State.setPath_agreement : (s.setPath wid i f).agreement = s.agreement := rfl
@[simp] theorem State.setPath_viewCtl : (s.setPath wid i f).viewCtl = s.viewCtl := rfl
@[simp] theorem State.setPath_heard : (s.setPath wid i f).heard = s.heard := rfl
@[simp] theorem State.setPath_beatAt : (s.setPath wid i f).beatAt = s.beatAt := rfl
@[simp] theorem State.setPath_joins : (s.setPath wid i f).joins = s.joins := rfl
@[simp] theorem State.setPath_joining : (s.setPath wid i f).joining = s.joining := rfl
@[simp] theorem State.setPath_comms : (s.setPath wid i f).comms = s.comms := rfl
@[simp] theorem State.setPath_colls : (s.setPath wid i f).colls = s.colls := rfl
@[simp] theorem State.setPath_links : (s.setPath wid i f).links = s.links := rfl
@[simp] theorem State.setPath_ports : (s.setPath wid i f).ports = s.ports := rfl
@[simp] theorem State.setPath_dropTotal : (s.setPath wid i f).dropTotal = s.dropTotal := rfl
@[simp] theorem State.setPath_drops : (s.setPath wid i f).drops = s.drops := rfl
@[simp] theorem State.setPath_canalSeqs : (s.setPath wid i f).canalSeqs = s.canalSeqs := rfl
@[simp] theorem State.setPath_held : (s.setPath wid i f).held = s.held := rfl
@[simp] theorem State.setPath_invalidations : (s.setPath wid i f).invalidations = s.invalidations := rfl
@[simp] theorem State.setPath_images : (s.setPath wid i f).images = s.images := rfl
@[simp] theorem State.setPath_cellars : (s.setPath wid i f).cellars = s.cellars := rfl
@[simp] theorem State.setPath_marks : (s.setPath wid i f).marks = s.marks := rfl
@[simp] theorem State.setPath_contexts : (s.setPath wid i f).contexts = s.contexts := rfl
@[simp] theorem State.setPath_slots : (s.setPath wid i f).slots = s.slots := rfl
@[simp] theorem State.setPath_latched : (s.setPath wid i f).latched = s.latched := rfl
@[simp] theorem State.setPath_ctl : (s.setPath wid i f).ctl = s.ctl := rfl
@[simp] theorem State.setPath_flash : (s.setPath wid i f).flash = s.flash := rfl
@[simp] theorem State.setPath_throttle : (s.setPath wid i f).throttle = s.throttle := rfl
@[simp] theorem State.setPath_frozen : (s.setPath wid i f).frozen = s.frozen := rfl
@[simp] theorem State.setPath_trigger : (s.setPath wid i f).trigger = s.trigger := rfl
end setPath

/-! ### send -/

section send
variable (m : Msg)
@[simp] theorem State.send_cycle : (s.send m).cycle = s.cycle := rfl
@[simp] theorem State.send_focus : (s.send m).focus = s.focus := rfl
@[simp] theorem State.send_issued : (s.send m).issued = s.issued := rfl
@[simp] theorem State.send_agenda : (s.send m).agenda = s.agenda := rfl
@[simp] theorem State.send_hostData : (s.send m).hostData = s.hostData := rfl
@[simp] theorem State.send_drawn : (s.send m).drawn = s.drawn := rfl
@[simp] theorem State.send_outbox : (s.send m).outbox = m :: s.outbox := rfl
@[simp] theorem State.send_upset : (s.send m).upset = s.upset := rfl
@[simp] theorem State.send_poolUpset : (s.send m).poolUpset = s.poolUpset := rfl
@[simp] theorem State.send_fetchUpset : (s.send m).fetchUpset = s.fetchUpset := rfl
@[simp] theorem State.send_portFaults : (s.send m).portFaults = s.portFaults := rfl
@[simp] theorem State.send_natives : (s.send m).natives = s.natives := rfl
@[simp] theorem State.send_sched : (s.send m).sched = s.sched := rfl
@[simp] theorem State.send_correctedFetch : (s.send m).correctedFetch = s.correctedFetch := rfl
@[simp] theorem State.send_correctedCompute : (s.send m).correctedCompute = s.correctedCompute := rfl
@[simp] theorem State.send_mem : (s.send m).mem = s.mem := rfl
@[simp] theorem State.send_poison : (s.send m).poison = s.poison := rfl
@[simp] theorem State.send_absent : (s.send m).absent = s.absent := rfl
@[simp] theorem State.send_owned : (s.send m).owned = s.owned := rfl
@[simp] theorem State.send_lineWriters : (s.send m).lineWriters = s.lineWriters := rfl
@[simp] theorem State.send_pageRequests : (s.send m).pageRequests = s.pageRequests := rfl
@[simp] theorem State.send_copyErrors : (s.send m).copyErrors = s.copyErrors := rfl
@[simp] theorem State.send_iommu : (s.send m).iommu = s.iommu := rfl
@[simp] theorem State.send_atc : (s.send m).atc = s.atc := rfl
@[simp] theorem State.send_parts : (s.send m).parts = s.parts := rfl
@[simp] theorem State.send_launches : (s.send m).launches = s.launches := rfl
@[simp] theorem State.send_statuses : (s.send m).statuses = s.statuses := rfl
@[simp] theorem State.send_blocks : (s.send m).blocks = s.blocks := rfl
@[simp] theorem State.send_nextBlock : (s.send m).nextBlock = s.nextBlock := rfl
@[simp] theorem State.send_warps : (s.send m).warps = s.warps := rfl
@[simp] theorem State.send_rot : (s.send m).rot = s.rot := rfl
@[simp] theorem State.send_stores : (s.send m).stores = s.stores := rfl
@[simp] theorem State.send_unacked : (s.send m).unacked = s.unacked := rfl
@[simp] theorem State.send_hidden : (s.send m).hidden = s.hidden := rfl
@[simp] theorem State.send_clocks : (s.send m).clocks = s.clocks := rfl
@[simp] theorem State.send_cache : (s.send m).cache = s.cache := rfl
@[simp] theorem State.send_lockPairs : (s.send m).lockPairs = s.lockPairs := rfl
@[simp] theorem State.send_lockLast : (s.send m).lockLast = s.lockLast := rfl
@[simp] theorem State.send_semQueues : (s.send m).semQueues = s.semQueues := rfl
@[simp] theorem State.send_peerWaits : (s.send m).peerWaits = s.peerWaits := rfl
@[simp] theorem State.send_engines : (s.send m).engines = s.engines := rfl
@[simp] theorem State.send_viewNo : (s.send m).viewNo = s.viewNo := rfl
@[simp] theorem State.send_manifest : (s.send m).manifest = s.manifest := rfl
@[simp] theorem State.send_self : (s.send m).self = s.self := rfl
@[simp] theorem State.send_isolatedPeers : (s.send m).isolatedPeers = s.isolatedPeers := rfl
@[simp] theorem State.send_domain : (s.send m).domain = s.domain := rfl
@[simp] theorem State.send_agreement : (s.send m).agreement = s.agreement := rfl
@[simp] theorem State.send_viewCtl : (s.send m).viewCtl = s.viewCtl := rfl
@[simp] theorem State.send_heard : (s.send m).heard = s.heard := rfl
@[simp] theorem State.send_beatAt : (s.send m).beatAt = s.beatAt := rfl
@[simp] theorem State.send_joins : (s.send m).joins = s.joins := rfl
@[simp] theorem State.send_joining : (s.send m).joining = s.joining := rfl
@[simp] theorem State.send_comms : (s.send m).comms = s.comms := rfl
@[simp] theorem State.send_colls : (s.send m).colls = s.colls := rfl
@[simp] theorem State.send_links : (s.send m).links = s.links := rfl
@[simp] theorem State.send_ports : (s.send m).ports = s.ports := rfl
@[simp] theorem State.send_dropTotal : (s.send m).dropTotal = s.dropTotal := rfl
@[simp] theorem State.send_drops : (s.send m).drops = s.drops := rfl
@[simp] theorem State.send_canalSeqs : (s.send m).canalSeqs = s.canalSeqs := rfl
@[simp] theorem State.send_held : (s.send m).held = s.held := rfl
@[simp] theorem State.send_invalidations : (s.send m).invalidations = s.invalidations := rfl
@[simp] theorem State.send_images : (s.send m).images = s.images := rfl
@[simp] theorem State.send_cellars : (s.send m).cellars = s.cellars := rfl
@[simp] theorem State.send_marks : (s.send m).marks = s.marks := rfl
@[simp] theorem State.send_contexts : (s.send m).contexts = s.contexts := rfl
@[simp] theorem State.send_slots : (s.send m).slots = s.slots := rfl
@[simp] theorem State.send_latched : (s.send m).latched = s.latched := rfl
@[simp] theorem State.send_ctl : (s.send m).ctl = s.ctl := rfl
@[simp] theorem State.send_flash : (s.send m).flash = s.flash := rfl
@[simp] theorem State.send_throttle : (s.send m).throttle = s.throttle := rfl
@[simp] theorem State.send_frozen : (s.send m).frozen = s.frozen := rfl
@[simp] theorem State.send_trigger : (s.send m).trigger = s.trigger := rfl
end send

/-! ### setCtl -/

section setCtl
variable (f : Control → Control)
@[simp] theorem State.setCtl_cycle : (s.setCtl f).cycle = s.cycle := rfl
@[simp] theorem State.setCtl_focus : (s.setCtl f).focus = s.focus := rfl
@[simp] theorem State.setCtl_issued : (s.setCtl f).issued = s.issued := rfl
@[simp] theorem State.setCtl_agenda : (s.setCtl f).agenda = s.agenda := rfl
@[simp] theorem State.setCtl_hostData : (s.setCtl f).hostData = s.hostData := rfl
@[simp] theorem State.setCtl_drawn : (s.setCtl f).drawn = s.drawn := rfl
@[simp] theorem State.setCtl_outbox : (s.setCtl f).outbox = s.outbox := rfl
@[simp] theorem State.setCtl_upset : (s.setCtl f).upset = s.upset := rfl
@[simp] theorem State.setCtl_poolUpset : (s.setCtl f).poolUpset = s.poolUpset := rfl
@[simp] theorem State.setCtl_fetchUpset : (s.setCtl f).fetchUpset = s.fetchUpset := rfl
@[simp] theorem State.setCtl_portFaults : (s.setCtl f).portFaults = s.portFaults := rfl
@[simp] theorem State.setCtl_natives : (s.setCtl f).natives = s.natives := rfl
@[simp] theorem State.setCtl_sched : (s.setCtl f).sched = s.sched := rfl
@[simp] theorem State.setCtl_correctedFetch : (s.setCtl f).correctedFetch = s.correctedFetch := rfl
@[simp] theorem State.setCtl_correctedCompute : (s.setCtl f).correctedCompute = s.correctedCompute := rfl
@[simp] theorem State.setCtl_mem : (s.setCtl f).mem = s.mem := rfl
@[simp] theorem State.setCtl_poison : (s.setCtl f).poison = s.poison := rfl
@[simp] theorem State.setCtl_absent : (s.setCtl f).absent = s.absent := rfl
@[simp] theorem State.setCtl_owned : (s.setCtl f).owned = s.owned := rfl
@[simp] theorem State.setCtl_lineWriters : (s.setCtl f).lineWriters = s.lineWriters := rfl
@[simp] theorem State.setCtl_pageRequests : (s.setCtl f).pageRequests = s.pageRequests := rfl
@[simp] theorem State.setCtl_copyErrors : (s.setCtl f).copyErrors = s.copyErrors := rfl
@[simp] theorem State.setCtl_iommu : (s.setCtl f).iommu = s.iommu := rfl
@[simp] theorem State.setCtl_atc : (s.setCtl f).atc = s.atc := rfl
@[simp] theorem State.setCtl_parts : (s.setCtl f).parts = s.parts := rfl
@[simp] theorem State.setCtl_launches : (s.setCtl f).launches = s.launches := rfl
@[simp] theorem State.setCtl_statuses : (s.setCtl f).statuses = s.statuses := rfl
@[simp] theorem State.setCtl_blocks : (s.setCtl f).blocks = s.blocks := rfl
@[simp] theorem State.setCtl_nextBlock : (s.setCtl f).nextBlock = s.nextBlock := rfl
@[simp] theorem State.setCtl_warps : (s.setCtl f).warps = s.warps := rfl
@[simp] theorem State.setCtl_rot : (s.setCtl f).rot = s.rot := rfl
@[simp] theorem State.setCtl_stores : (s.setCtl f).stores = s.stores := rfl
@[simp] theorem State.setCtl_unacked : (s.setCtl f).unacked = s.unacked := rfl
@[simp] theorem State.setCtl_hidden : (s.setCtl f).hidden = s.hidden := rfl
@[simp] theorem State.setCtl_clocks : (s.setCtl f).clocks = s.clocks := rfl
@[simp] theorem State.setCtl_cache : (s.setCtl f).cache = s.cache := rfl
@[simp] theorem State.setCtl_lockPairs : (s.setCtl f).lockPairs = s.lockPairs := rfl
@[simp] theorem State.setCtl_lockLast : (s.setCtl f).lockLast = s.lockLast := rfl
@[simp] theorem State.setCtl_semQueues : (s.setCtl f).semQueues = s.semQueues := rfl
@[simp] theorem State.setCtl_peerWaits : (s.setCtl f).peerWaits = s.peerWaits := rfl
@[simp] theorem State.setCtl_engines : (s.setCtl f).engines = s.engines := rfl
@[simp] theorem State.setCtl_viewNo : (s.setCtl f).viewNo = s.viewNo := rfl
@[simp] theorem State.setCtl_manifest : (s.setCtl f).manifest = s.manifest := rfl
@[simp] theorem State.setCtl_self : (s.setCtl f).self = s.self := rfl
@[simp] theorem State.setCtl_isolatedPeers : (s.setCtl f).isolatedPeers = s.isolatedPeers := rfl
@[simp] theorem State.setCtl_domain : (s.setCtl f).domain = s.domain := rfl
@[simp] theorem State.setCtl_agreement : (s.setCtl f).agreement = s.agreement := rfl
@[simp] theorem State.setCtl_viewCtl : (s.setCtl f).viewCtl = s.viewCtl := rfl
@[simp] theorem State.setCtl_heard : (s.setCtl f).heard = s.heard := rfl
@[simp] theorem State.setCtl_beatAt : (s.setCtl f).beatAt = s.beatAt := rfl
@[simp] theorem State.setCtl_joins : (s.setCtl f).joins = s.joins := rfl
@[simp] theorem State.setCtl_joining : (s.setCtl f).joining = s.joining := rfl
@[simp] theorem State.setCtl_comms : (s.setCtl f).comms = s.comms := rfl
@[simp] theorem State.setCtl_colls : (s.setCtl f).colls = s.colls := rfl
@[simp] theorem State.setCtl_links : (s.setCtl f).links = s.links := rfl
@[simp] theorem State.setCtl_ports : (s.setCtl f).ports = s.ports := rfl
@[simp] theorem State.setCtl_dropTotal : (s.setCtl f).dropTotal = s.dropTotal := rfl
@[simp] theorem State.setCtl_drops : (s.setCtl f).drops = s.drops := rfl
@[simp] theorem State.setCtl_canalSeqs : (s.setCtl f).canalSeqs = s.canalSeqs := rfl
@[simp] theorem State.setCtl_held : (s.setCtl f).held = s.held := rfl
@[simp] theorem State.setCtl_invalidations : (s.setCtl f).invalidations = s.invalidations := rfl
@[simp] theorem State.setCtl_images : (s.setCtl f).images = s.images := rfl
@[simp] theorem State.setCtl_cellars : (s.setCtl f).cellars = s.cellars := rfl
@[simp] theorem State.setCtl_marks : (s.setCtl f).marks = s.marks := rfl
@[simp] theorem State.setCtl_contexts : (s.setCtl f).contexts = s.contexts := rfl
@[simp] theorem State.setCtl_slots : (s.setCtl f).slots = s.slots := rfl
@[simp] theorem State.setCtl_latched : (s.setCtl f).latched = s.latched := rfl
@[simp] theorem State.setCtl_ctl : (s.setCtl f).ctl = f s.ctl := rfl
@[simp] theorem State.setCtl_flash : (s.setCtl f).flash = s.flash := rfl
@[simp] theorem State.setCtl_throttle : (s.setCtl f).throttle = s.throttle := rfl
@[simp] theorem State.setCtl_frozen : (s.setCtl f).frozen = s.frozen := rfl
@[simp] theorem State.setCtl_trigger : (s.setCtl f).trigger = s.trigger := rfl
end setCtl

/-! ### setPort -/

section setPort
variable (p : Nat) (f : Port → Port)
@[simp] theorem State.setPort_cycle : (s.setPort p f).cycle = s.cycle := rfl
@[simp] theorem State.setPort_focus : (s.setPort p f).focus = s.focus := rfl
@[simp] theorem State.setPort_issued : (s.setPort p f).issued = s.issued := rfl
@[simp] theorem State.setPort_agenda : (s.setPort p f).agenda = s.agenda := rfl
@[simp] theorem State.setPort_hostData : (s.setPort p f).hostData = s.hostData := rfl
@[simp] theorem State.setPort_drawn : (s.setPort p f).drawn = s.drawn := rfl
@[simp] theorem State.setPort_outbox : (s.setPort p f).outbox = s.outbox := rfl
@[simp] theorem State.setPort_upset : (s.setPort p f).upset = s.upset := rfl
@[simp] theorem State.setPort_poolUpset : (s.setPort p f).poolUpset = s.poolUpset := rfl
@[simp] theorem State.setPort_fetchUpset : (s.setPort p f).fetchUpset = s.fetchUpset := rfl
@[simp] theorem State.setPort_portFaults : (s.setPort p f).portFaults = s.portFaults := rfl
@[simp] theorem State.setPort_natives : (s.setPort p f).natives = s.natives := rfl
@[simp] theorem State.setPort_sched : (s.setPort p f).sched = s.sched := rfl
@[simp] theorem State.setPort_correctedFetch : (s.setPort p f).correctedFetch = s.correctedFetch := rfl
@[simp] theorem State.setPort_correctedCompute : (s.setPort p f).correctedCompute = s.correctedCompute := rfl
@[simp] theorem State.setPort_mem : (s.setPort p f).mem = s.mem := rfl
@[simp] theorem State.setPort_poison : (s.setPort p f).poison = s.poison := rfl
@[simp] theorem State.setPort_absent : (s.setPort p f).absent = s.absent := rfl
@[simp] theorem State.setPort_owned : (s.setPort p f).owned = s.owned := rfl
@[simp] theorem State.setPort_lineWriters : (s.setPort p f).lineWriters = s.lineWriters := rfl
@[simp] theorem State.setPort_pageRequests : (s.setPort p f).pageRequests = s.pageRequests := rfl
@[simp] theorem State.setPort_copyErrors : (s.setPort p f).copyErrors = s.copyErrors := rfl
@[simp] theorem State.setPort_iommu : (s.setPort p f).iommu = s.iommu := rfl
@[simp] theorem State.setPort_atc : (s.setPort p f).atc = s.atc := rfl
@[simp] theorem State.setPort_parts : (s.setPort p f).parts = s.parts := rfl
@[simp] theorem State.setPort_launches : (s.setPort p f).launches = s.launches := rfl
@[simp] theorem State.setPort_statuses : (s.setPort p f).statuses = s.statuses := rfl
@[simp] theorem State.setPort_blocks : (s.setPort p f).blocks = s.blocks := rfl
@[simp] theorem State.setPort_nextBlock : (s.setPort p f).nextBlock = s.nextBlock := rfl
@[simp] theorem State.setPort_warps : (s.setPort p f).warps = s.warps := rfl
@[simp] theorem State.setPort_rot : (s.setPort p f).rot = s.rot := rfl
@[simp] theorem State.setPort_stores : (s.setPort p f).stores = s.stores := rfl
@[simp] theorem State.setPort_unacked : (s.setPort p f).unacked = s.unacked := rfl
@[simp] theorem State.setPort_hidden : (s.setPort p f).hidden = s.hidden := rfl
@[simp] theorem State.setPort_clocks : (s.setPort p f).clocks = s.clocks := rfl
@[simp] theorem State.setPort_cache : (s.setPort p f).cache = s.cache := rfl
@[simp] theorem State.setPort_lockPairs : (s.setPort p f).lockPairs = s.lockPairs := rfl
@[simp] theorem State.setPort_lockLast : (s.setPort p f).lockLast = s.lockLast := rfl
@[simp] theorem State.setPort_semQueues : (s.setPort p f).semQueues = s.semQueues := rfl
@[simp] theorem State.setPort_peerWaits : (s.setPort p f).peerWaits = s.peerWaits := rfl
@[simp] theorem State.setPort_engines : (s.setPort p f).engines = s.engines := rfl
@[simp] theorem State.setPort_viewNo : (s.setPort p f).viewNo = s.viewNo := rfl
@[simp] theorem State.setPort_manifest : (s.setPort p f).manifest = s.manifest := rfl
@[simp] theorem State.setPort_self : (s.setPort p f).self = s.self := rfl
@[simp] theorem State.setPort_isolatedPeers : (s.setPort p f).isolatedPeers = s.isolatedPeers := rfl
@[simp] theorem State.setPort_domain : (s.setPort p f).domain = s.domain := rfl
@[simp] theorem State.setPort_agreement : (s.setPort p f).agreement = s.agreement := rfl
@[simp] theorem State.setPort_viewCtl : (s.setPort p f).viewCtl = s.viewCtl := rfl
@[simp] theorem State.setPort_heard : (s.setPort p f).heard = s.heard := rfl
@[simp] theorem State.setPort_beatAt : (s.setPort p f).beatAt = s.beatAt := rfl
@[simp] theorem State.setPort_joins : (s.setPort p f).joins = s.joins := rfl
@[simp] theorem State.setPort_joining : (s.setPort p f).joining = s.joining := rfl
@[simp] theorem State.setPort_comms : (s.setPort p f).comms = s.comms := rfl
@[simp] theorem State.setPort_colls : (s.setPort p f).colls = s.colls := rfl
@[simp] theorem State.setPort_links : (s.setPort p f).links = s.links := rfl
@[simp] theorem State.setPort_ports : (s.setPort p f).ports = s.ports.adjust p f := rfl
@[simp] theorem State.setPort_dropTotal : (s.setPort p f).dropTotal = s.dropTotal := rfl
@[simp] theorem State.setPort_drops : (s.setPort p f).drops = s.drops := rfl
@[simp] theorem State.setPort_canalSeqs : (s.setPort p f).canalSeqs = s.canalSeqs := rfl
@[simp] theorem State.setPort_held : (s.setPort p f).held = s.held := rfl
@[simp] theorem State.setPort_invalidations : (s.setPort p f).invalidations = s.invalidations := rfl
@[simp] theorem State.setPort_images : (s.setPort p f).images = s.images := rfl
@[simp] theorem State.setPort_cellars : (s.setPort p f).cellars = s.cellars := rfl
@[simp] theorem State.setPort_marks : (s.setPort p f).marks = s.marks := rfl
@[simp] theorem State.setPort_contexts : (s.setPort p f).contexts = s.contexts := rfl
@[simp] theorem State.setPort_slots : (s.setPort p f).slots = s.slots := rfl
@[simp] theorem State.setPort_latched : (s.setPort p f).latched = s.latched := rfl
@[simp] theorem State.setPort_ctl : (s.setPort p f).ctl = s.ctl := rfl
@[simp] theorem State.setPort_flash : (s.setPort p f).flash = s.flash := rfl
@[simp] theorem State.setPort_throttle : (s.setPort p f).throttle = s.throttle := rfl
@[simp] theorem State.setPort_frozen : (s.setPort p f).frozen = s.frozen := rfl
@[simp] theorem State.setPort_trigger : (s.setPort p f).trigger = s.trigger := rfl
end setPort

/-! ### park -/

section park
variable (c : Ctx) (r : ParkReason)
@[simp] theorem State.park_cycle : (s.park c r).cycle = s.cycle := rfl
@[simp] theorem State.park_focus : (s.park c r).focus = none := rfl
@[simp] theorem State.park_issued : (s.park c r).issued = s.issued := rfl
@[simp] theorem State.park_agenda : (s.park c r).agenda = s.agenda := rfl
@[simp] theorem State.park_hostData : (s.park c r).hostData = s.hostData := rfl
@[simp] theorem State.park_drawn : (s.park c r).drawn = s.drawn := rfl
@[simp] theorem State.park_outbox : (s.park c r).outbox = s.outbox := rfl
@[simp] theorem State.park_upset : (s.park c r).upset = s.upset := rfl
@[simp] theorem State.park_poolUpset : (s.park c r).poolUpset = s.poolUpset := rfl
@[simp] theorem State.park_fetchUpset : (s.park c r).fetchUpset = s.fetchUpset := rfl
@[simp] theorem State.park_portFaults : (s.park c r).portFaults = s.portFaults := rfl
@[simp] theorem State.park_natives : (s.park c r).natives = s.natives := rfl
@[simp] theorem State.park_sched : (s.park c r).sched = s.sched := rfl
@[simp] theorem State.park_correctedFetch : (s.park c r).correctedFetch = s.correctedFetch := rfl
@[simp] theorem State.park_correctedCompute : (s.park c r).correctedCompute = s.correctedCompute := rfl
@[simp] theorem State.park_mem : (s.park c r).mem = s.mem := rfl
@[simp] theorem State.park_poison : (s.park c r).poison = s.poison := rfl
@[simp] theorem State.park_absent : (s.park c r).absent = s.absent := rfl
@[simp] theorem State.park_owned : (s.park c r).owned = s.owned := rfl
@[simp] theorem State.park_lineWriters : (s.park c r).lineWriters = s.lineWriters := rfl
@[simp] theorem State.park_pageRequests : (s.park c r).pageRequests = s.pageRequests := rfl
@[simp] theorem State.park_copyErrors : (s.park c r).copyErrors = s.copyErrors := rfl
@[simp] theorem State.park_iommu : (s.park c r).iommu = s.iommu := rfl
@[simp] theorem State.park_atc : (s.park c r).atc = s.atc := rfl
@[simp] theorem State.park_parts : (s.park c r).parts = s.parts := rfl
@[simp] theorem State.park_launches : (s.park c r).launches = s.launches := rfl
@[simp] theorem State.park_statuses : (s.park c r).statuses = s.statuses := rfl
@[simp] theorem State.park_blocks : (s.park c r).blocks = s.blocks := rfl
@[simp] theorem State.park_nextBlock : (s.park c r).nextBlock = s.nextBlock := rfl
@[simp] theorem State.park_rot : (s.park c r).rot = s.rot := rfl
@[simp] theorem State.park_stores : (s.park c r).stores = s.stores := rfl
@[simp] theorem State.park_unacked : (s.park c r).unacked = s.unacked := rfl
@[simp] theorem State.park_hidden : (s.park c r).hidden = s.hidden := rfl
@[simp] theorem State.park_clocks : (s.park c r).clocks = s.clocks := rfl
@[simp] theorem State.park_cache : (s.park c r).cache = s.cache := rfl
@[simp] theorem State.park_lockPairs : (s.park c r).lockPairs = s.lockPairs := rfl
@[simp] theorem State.park_lockLast : (s.park c r).lockLast = s.lockLast := rfl
@[simp] theorem State.park_semQueues : (s.park c r).semQueues = s.semQueues := rfl
@[simp] theorem State.park_peerWaits : (s.park c r).peerWaits = s.peerWaits := rfl
@[simp] theorem State.park_engines : (s.park c r).engines = s.engines := rfl
@[simp] theorem State.park_viewNo : (s.park c r).viewNo = s.viewNo := rfl
@[simp] theorem State.park_manifest : (s.park c r).manifest = s.manifest := rfl
@[simp] theorem State.park_self : (s.park c r).self = s.self := rfl
@[simp] theorem State.park_isolatedPeers : (s.park c r).isolatedPeers = s.isolatedPeers := rfl
@[simp] theorem State.park_domain : (s.park c r).domain = s.domain := rfl
@[simp] theorem State.park_agreement : (s.park c r).agreement = s.agreement := rfl
@[simp] theorem State.park_viewCtl : (s.park c r).viewCtl = s.viewCtl := rfl
@[simp] theorem State.park_heard : (s.park c r).heard = s.heard := rfl
@[simp] theorem State.park_beatAt : (s.park c r).beatAt = s.beatAt := rfl
@[simp] theorem State.park_joins : (s.park c r).joins = s.joins := rfl
@[simp] theorem State.park_joining : (s.park c r).joining = s.joining := rfl
@[simp] theorem State.park_comms : (s.park c r).comms = s.comms := rfl
@[simp] theorem State.park_colls : (s.park c r).colls = s.colls := rfl
@[simp] theorem State.park_links : (s.park c r).links = s.links := rfl
@[simp] theorem State.park_ports : (s.park c r).ports = s.ports := rfl
@[simp] theorem State.park_dropTotal : (s.park c r).dropTotal = s.dropTotal := rfl
@[simp] theorem State.park_drops : (s.park c r).drops = s.drops := rfl
@[simp] theorem State.park_canalSeqs : (s.park c r).canalSeqs = s.canalSeqs := rfl
@[simp] theorem State.park_held : (s.park c r).held = s.held := rfl
@[simp] theorem State.park_invalidations : (s.park c r).invalidations = s.invalidations := rfl
@[simp] theorem State.park_images : (s.park c r).images = s.images := rfl
@[simp] theorem State.park_cellars : (s.park c r).cellars = s.cellars := rfl
@[simp] theorem State.park_marks : (s.park c r).marks = s.marks := rfl
@[simp] theorem State.park_contexts : (s.park c r).contexts = s.contexts := rfl
@[simp] theorem State.park_slots : (s.park c r).slots = s.slots := rfl
@[simp] theorem State.park_latched : (s.park c r).latched = s.latched := rfl
@[simp] theorem State.park_ctl : (s.park c r).ctl = s.ctl := rfl
@[simp] theorem State.park_flash : (s.park c r).flash = s.flash := rfl
@[simp] theorem State.park_throttle : (s.park c r).throttle = s.throttle := rfl
@[simp] theorem State.park_frozen : (s.park c r).frozen = s.frozen := rfl
@[simp] theorem State.park_trigger : (s.park c r).trigger = s.trigger := rfl
end park

/-! ### finish -/

section finish
variable (c : Ctx) (w : Warp)
@[simp] theorem State.finish_cycle : (s.finish c w).cycle = s.cycle := rfl
@[simp] theorem State.finish_focus : (s.finish c w).focus = none := rfl
@[simp] theorem State.finish_issued : (s.finish c w).issued = s.issued := rfl
@[simp] theorem State.finish_agenda : (s.finish c w).agenda = s.agenda := rfl
@[simp] theorem State.finish_hostData : (s.finish c w).hostData = s.hostData := rfl
@[simp] theorem State.finish_drawn : (s.finish c w).drawn = s.drawn := rfl
@[simp] theorem State.finish_outbox : (s.finish c w).outbox = s.outbox := rfl
@[simp] theorem State.finish_upset : (s.finish c w).upset = s.upset := rfl
@[simp] theorem State.finish_poolUpset : (s.finish c w).poolUpset = s.poolUpset := rfl
@[simp] theorem State.finish_fetchUpset : (s.finish c w).fetchUpset = s.fetchUpset := rfl
@[simp] theorem State.finish_portFaults : (s.finish c w).portFaults = s.portFaults := rfl
@[simp] theorem State.finish_natives : (s.finish c w).natives = s.natives := rfl
@[simp] theorem State.finish_sched : (s.finish c w).sched = s.sched := rfl
@[simp] theorem State.finish_correctedFetch : (s.finish c w).correctedFetch = s.correctedFetch := rfl
@[simp] theorem State.finish_correctedCompute : (s.finish c w).correctedCompute = s.correctedCompute := rfl
@[simp] theorem State.finish_mem : (s.finish c w).mem = s.mem := rfl
@[simp] theorem State.finish_poison : (s.finish c w).poison = s.poison := rfl
@[simp] theorem State.finish_absent : (s.finish c w).absent = s.absent := rfl
@[simp] theorem State.finish_owned : (s.finish c w).owned = s.owned := rfl
@[simp] theorem State.finish_lineWriters : (s.finish c w).lineWriters = s.lineWriters := rfl
@[simp] theorem State.finish_pageRequests : (s.finish c w).pageRequests = s.pageRequests := rfl
@[simp] theorem State.finish_copyErrors : (s.finish c w).copyErrors = s.copyErrors := rfl
@[simp] theorem State.finish_iommu : (s.finish c w).iommu = s.iommu := rfl
@[simp] theorem State.finish_atc : (s.finish c w).atc = s.atc := rfl
@[simp] theorem State.finish_parts : (s.finish c w).parts = s.parts := rfl
@[simp] theorem State.finish_launches : (s.finish c w).launches = s.launches := rfl
@[simp] theorem State.finish_statuses : (s.finish c w).statuses = s.statuses := rfl
@[simp] theorem State.finish_blocks : (s.finish c w).blocks = s.blocks.adjust c.bid fun b => { b with retired := b.retired + 1 } := rfl
@[simp] theorem State.finish_nextBlock : (s.finish c w).nextBlock = s.nextBlock := rfl
@[simp] theorem State.finish_rot : (s.finish c w).rot = s.rot := rfl
@[simp] theorem State.finish_stores : (s.finish c w).stores = s.stores := rfl
@[simp] theorem State.finish_unacked : (s.finish c w).unacked = s.unacked := rfl
@[simp] theorem State.finish_hidden : (s.finish c w).hidden = s.hidden := rfl
@[simp] theorem State.finish_clocks : (s.finish c w).clocks = s.clocks := rfl
@[simp] theorem State.finish_cache : (s.finish c w).cache = s.cache := rfl
@[simp] theorem State.finish_lockPairs : (s.finish c w).lockPairs = s.lockPairs := rfl
@[simp] theorem State.finish_lockLast : (s.finish c w).lockLast = s.lockLast := rfl
@[simp] theorem State.finish_semQueues : (s.finish c w).semQueues = s.semQueues := rfl
@[simp] theorem State.finish_peerWaits : (s.finish c w).peerWaits = s.peerWaits := rfl
@[simp] theorem State.finish_engines : (s.finish c w).engines = s.engines := rfl
@[simp] theorem State.finish_viewNo : (s.finish c w).viewNo = s.viewNo := rfl
@[simp] theorem State.finish_manifest : (s.finish c w).manifest = s.manifest := rfl
@[simp] theorem State.finish_self : (s.finish c w).self = s.self := rfl
@[simp] theorem State.finish_isolatedPeers : (s.finish c w).isolatedPeers = s.isolatedPeers := rfl
@[simp] theorem State.finish_domain : (s.finish c w).domain = s.domain := rfl
@[simp] theorem State.finish_agreement : (s.finish c w).agreement = s.agreement := rfl
@[simp] theorem State.finish_viewCtl : (s.finish c w).viewCtl = s.viewCtl := rfl
@[simp] theorem State.finish_heard : (s.finish c w).heard = s.heard := rfl
@[simp] theorem State.finish_beatAt : (s.finish c w).beatAt = s.beatAt := rfl
@[simp] theorem State.finish_joins : (s.finish c w).joins = s.joins := rfl
@[simp] theorem State.finish_joining : (s.finish c w).joining = s.joining := rfl
@[simp] theorem State.finish_comms : (s.finish c w).comms = s.comms := rfl
@[simp] theorem State.finish_colls : (s.finish c w).colls = s.colls := rfl
@[simp] theorem State.finish_links : (s.finish c w).links = s.links := rfl
@[simp] theorem State.finish_ports : (s.finish c w).ports = s.ports := rfl
@[simp] theorem State.finish_dropTotal : (s.finish c w).dropTotal = s.dropTotal := rfl
@[simp] theorem State.finish_drops : (s.finish c w).drops = s.drops := rfl
@[simp] theorem State.finish_canalSeqs : (s.finish c w).canalSeqs = s.canalSeqs := rfl
@[simp] theorem State.finish_held : (s.finish c w).held = s.held := rfl
@[simp] theorem State.finish_invalidations : (s.finish c w).invalidations = s.invalidations := rfl
@[simp] theorem State.finish_images : (s.finish c w).images = s.images := rfl
@[simp] theorem State.finish_cellars : (s.finish c w).cellars = s.cellars := rfl
@[simp] theorem State.finish_marks : (s.finish c w).marks = s.marks := rfl
@[simp] theorem State.finish_contexts : (s.finish c w).contexts = s.contexts := rfl
@[simp] theorem State.finish_slots : (s.finish c w).slots = s.slots := rfl
@[simp] theorem State.finish_latched : (s.finish c w).latched = s.latched := rfl
@[simp] theorem State.finish_ctl : (s.finish c w).ctl = s.ctl := rfl
@[simp] theorem State.finish_flash : (s.finish c w).flash = s.flash := rfl
@[simp] theorem State.finish_throttle : (s.finish c w).throttle = s.throttle := rfl
@[simp] theorem State.finish_frozen : (s.finish c w).frozen = s.frozen := rfl
@[simp] theorem State.finish_trigger : (s.finish c w).trigger = s.trigger := rfl
end finish

/-! ### complete -/

section complete
variable (c : Ctx) (w : Warp) (pl : Place)
@[simp] theorem State.complete_cycle : (s.complete c w pl).cycle = s.cycle := rfl
@[simp] theorem State.complete_focus : (s.complete c w pl).focus = none := rfl
@[simp] theorem State.complete_issued : (s.complete c w pl).issued = s.issued := rfl
@[simp] theorem State.complete_agenda : (s.complete c w pl).agenda = s.agenda := rfl
@[simp] theorem State.complete_hostData : (s.complete c w pl).hostData = s.hostData := rfl
@[simp] theorem State.complete_drawn : (s.complete c w pl).drawn = s.drawn := rfl
@[simp] theorem State.complete_outbox : (s.complete c w pl).outbox = s.outbox := rfl
@[simp] theorem State.complete_upset : (s.complete c w pl).upset = s.upset := rfl
@[simp] theorem State.complete_poolUpset : (s.complete c w pl).poolUpset = s.poolUpset := rfl
@[simp] theorem State.complete_fetchUpset : (s.complete c w pl).fetchUpset = s.fetchUpset := rfl
@[simp] theorem State.complete_portFaults : (s.complete c w pl).portFaults = s.portFaults := rfl
@[simp] theorem State.complete_natives : (s.complete c w pl).natives = s.natives := rfl
@[simp] theorem State.complete_sched : (s.complete c w pl).sched = s.sched := rfl
@[simp] theorem State.complete_correctedFetch : (s.complete c w pl).correctedFetch = s.correctedFetch := rfl
@[simp] theorem State.complete_correctedCompute : (s.complete c w pl).correctedCompute = s.correctedCompute := rfl
@[simp] theorem State.complete_mem : (s.complete c w pl).mem = s.mem := rfl
@[simp] theorem State.complete_poison : (s.complete c w pl).poison = s.poison := rfl
@[simp] theorem State.complete_absent : (s.complete c w pl).absent = s.absent := rfl
@[simp] theorem State.complete_owned : (s.complete c w pl).owned = s.owned := rfl
@[simp] theorem State.complete_lineWriters : (s.complete c w pl).lineWriters = s.lineWriters := rfl
@[simp] theorem State.complete_pageRequests : (s.complete c w pl).pageRequests = s.pageRequests := rfl
@[simp] theorem State.complete_copyErrors : (s.complete c w pl).copyErrors = s.copyErrors := rfl
@[simp] theorem State.complete_iommu : (s.complete c w pl).iommu = s.iommu := rfl
@[simp] theorem State.complete_atc : (s.complete c w pl).atc = s.atc := rfl
@[simp] theorem State.complete_parts : (s.complete c w pl).parts = s.parts := rfl
@[simp] theorem State.complete_launches : (s.complete c w pl).launches = s.launches := rfl
@[simp] theorem State.complete_statuses : (s.complete c w pl).statuses = s.statuses := rfl
@[simp] theorem State.complete_blocks : (s.complete c w pl).blocks = s.blocks.adjust c.bid fun b => { b with retired := b.retired + 1 } := rfl
@[simp] theorem State.complete_nextBlock : (s.complete c w pl).nextBlock = s.nextBlock := rfl
@[simp] theorem State.complete_rot : (s.complete c w pl).rot = s.rot := rfl
@[simp] theorem State.complete_stores : (s.complete c w pl).stores = s.stores := rfl
@[simp] theorem State.complete_unacked : (s.complete c w pl).unacked = s.unacked := rfl
@[simp] theorem State.complete_hidden : (s.complete c w pl).hidden = s.hidden := rfl
@[simp] theorem State.complete_clocks : (s.complete c w pl).clocks = s.clocks := rfl
@[simp] theorem State.complete_cache : (s.complete c w pl).cache = s.cache := rfl
@[simp] theorem State.complete_lockPairs : (s.complete c w pl).lockPairs = s.lockPairs := rfl
@[simp] theorem State.complete_lockLast : (s.complete c w pl).lockLast = s.lockLast := rfl
@[simp] theorem State.complete_semQueues : (s.complete c w pl).semQueues = s.semQueues := rfl
@[simp] theorem State.complete_peerWaits : (s.complete c w pl).peerWaits = s.peerWaits := rfl
@[simp] theorem State.complete_engines : (s.complete c w pl).engines = s.engines := rfl
@[simp] theorem State.complete_viewNo : (s.complete c w pl).viewNo = s.viewNo := rfl
@[simp] theorem State.complete_manifest : (s.complete c w pl).manifest = s.manifest := rfl
@[simp] theorem State.complete_self : (s.complete c w pl).self = s.self := rfl
@[simp] theorem State.complete_isolatedPeers : (s.complete c w pl).isolatedPeers = s.isolatedPeers := rfl
@[simp] theorem State.complete_domain : (s.complete c w pl).domain = s.domain := rfl
@[simp] theorem State.complete_agreement : (s.complete c w pl).agreement = s.agreement := rfl
@[simp] theorem State.complete_viewCtl : (s.complete c w pl).viewCtl = s.viewCtl := rfl
@[simp] theorem State.complete_heard : (s.complete c w pl).heard = s.heard := rfl
@[simp] theorem State.complete_beatAt : (s.complete c w pl).beatAt = s.beatAt := rfl
@[simp] theorem State.complete_joins : (s.complete c w pl).joins = s.joins := rfl
@[simp] theorem State.complete_joining : (s.complete c w pl).joining = s.joining := rfl
@[simp] theorem State.complete_comms : (s.complete c w pl).comms = s.comms := rfl
@[simp] theorem State.complete_colls : (s.complete c w pl).colls = s.colls := rfl
@[simp] theorem State.complete_links : (s.complete c w pl).links = s.links := rfl
@[simp] theorem State.complete_ports : (s.complete c w pl).ports = s.ports := rfl
@[simp] theorem State.complete_dropTotal : (s.complete c w pl).dropTotal = s.dropTotal := rfl
@[simp] theorem State.complete_drops : (s.complete c w pl).drops = s.drops := rfl
@[simp] theorem State.complete_canalSeqs : (s.complete c w pl).canalSeqs = s.canalSeqs := rfl
@[simp] theorem State.complete_held : (s.complete c w pl).held = s.held := rfl
@[simp] theorem State.complete_invalidations : (s.complete c w pl).invalidations = s.invalidations := rfl
@[simp] theorem State.complete_images : (s.complete c w pl).images = s.images := rfl
@[simp] theorem State.complete_cellars : (s.complete c w pl).cellars = s.cellars := rfl
@[simp] theorem State.complete_marks : (s.complete c w pl).marks = s.marks := rfl
@[simp] theorem State.complete_contexts : (s.complete c w pl).contexts = s.contexts := rfl
@[simp] theorem State.complete_slots : (s.complete c w pl).slots = s.slots := rfl
@[simp] theorem State.complete_latched : (s.complete c w pl).latched = s.latched := rfl
@[simp] theorem State.complete_ctl : (s.complete c w pl).ctl = s.ctl := rfl
@[simp] theorem State.complete_flash : (s.complete c w pl).flash = s.flash := rfl
@[simp] theorem State.complete_throttle : (s.complete c w pl).throttle = s.throttle := rfl
@[simp] theorem State.complete_frozen : (s.complete c w pl).frozen = s.frozen := rfl
@[simp] theorem State.complete_trigger : (s.complete c w pl).trigger = s.trigger := rfl
end complete

/-! ### completeAt -/

section completeAt
variable (c : Ctx) (w : Warp) (pc : Word)
@[simp] theorem State.completeAt_cycle : (s.completeAt c w pc).cycle = s.cycle := rfl
@[simp] theorem State.completeAt_focus : (s.completeAt c w pc).focus = none := rfl
@[simp] theorem State.completeAt_issued : (s.completeAt c w pc).issued = s.issued := rfl
@[simp] theorem State.completeAt_agenda : (s.completeAt c w pc).agenda = s.agenda := rfl
@[simp] theorem State.completeAt_hostData : (s.completeAt c w pc).hostData = s.hostData := rfl
@[simp] theorem State.completeAt_drawn : (s.completeAt c w pc).drawn = s.drawn := rfl
@[simp] theorem State.completeAt_outbox : (s.completeAt c w pc).outbox = s.outbox := rfl
@[simp] theorem State.completeAt_upset : (s.completeAt c w pc).upset = s.upset := rfl
@[simp] theorem State.completeAt_poolUpset : (s.completeAt c w pc).poolUpset = s.poolUpset := rfl
@[simp] theorem State.completeAt_fetchUpset : (s.completeAt c w pc).fetchUpset = s.fetchUpset := rfl
@[simp] theorem State.completeAt_portFaults : (s.completeAt c w pc).portFaults = s.portFaults := rfl
@[simp] theorem State.completeAt_natives : (s.completeAt c w pc).natives = s.natives := rfl
@[simp] theorem State.completeAt_sched : (s.completeAt c w pc).sched = s.sched := rfl
@[simp] theorem State.completeAt_correctedFetch : (s.completeAt c w pc).correctedFetch = s.correctedFetch := rfl
@[simp] theorem State.completeAt_correctedCompute : (s.completeAt c w pc).correctedCompute = s.correctedCompute := rfl
@[simp] theorem State.completeAt_mem : (s.completeAt c w pc).mem = s.mem := rfl
@[simp] theorem State.completeAt_poison : (s.completeAt c w pc).poison = s.poison := rfl
@[simp] theorem State.completeAt_absent : (s.completeAt c w pc).absent = s.absent := rfl
@[simp] theorem State.completeAt_owned : (s.completeAt c w pc).owned = s.owned := rfl
@[simp] theorem State.completeAt_lineWriters : (s.completeAt c w pc).lineWriters = s.lineWriters := rfl
@[simp] theorem State.completeAt_pageRequests : (s.completeAt c w pc).pageRequests = s.pageRequests := rfl
@[simp] theorem State.completeAt_copyErrors : (s.completeAt c w pc).copyErrors = s.copyErrors := rfl
@[simp] theorem State.completeAt_iommu : (s.completeAt c w pc).iommu = s.iommu := rfl
@[simp] theorem State.completeAt_atc : (s.completeAt c w pc).atc = s.atc := rfl
@[simp] theorem State.completeAt_parts : (s.completeAt c w pc).parts = s.parts := rfl
@[simp] theorem State.completeAt_launches : (s.completeAt c w pc).launches = s.launches := rfl
@[simp] theorem State.completeAt_statuses : (s.completeAt c w pc).statuses = s.statuses := rfl
@[simp] theorem State.completeAt_blocks : (s.completeAt c w pc).blocks = s.blocks.adjust c.bid fun b => { b with retired := b.retired + 1 } := rfl
@[simp] theorem State.completeAt_nextBlock : (s.completeAt c w pc).nextBlock = s.nextBlock := rfl
@[simp] theorem State.completeAt_rot : (s.completeAt c w pc).rot = s.rot := rfl
@[simp] theorem State.completeAt_stores : (s.completeAt c w pc).stores = s.stores := rfl
@[simp] theorem State.completeAt_unacked : (s.completeAt c w pc).unacked = s.unacked := rfl
@[simp] theorem State.completeAt_hidden : (s.completeAt c w pc).hidden = s.hidden := rfl
@[simp] theorem State.completeAt_clocks : (s.completeAt c w pc).clocks = s.clocks := rfl
@[simp] theorem State.completeAt_cache : (s.completeAt c w pc).cache = s.cache := rfl
@[simp] theorem State.completeAt_lockPairs : (s.completeAt c w pc).lockPairs = s.lockPairs := rfl
@[simp] theorem State.completeAt_lockLast : (s.completeAt c w pc).lockLast = s.lockLast := rfl
@[simp] theorem State.completeAt_semQueues : (s.completeAt c w pc).semQueues = s.semQueues := rfl
@[simp] theorem State.completeAt_peerWaits : (s.completeAt c w pc).peerWaits = s.peerWaits := rfl
@[simp] theorem State.completeAt_engines : (s.completeAt c w pc).engines = s.engines := rfl
@[simp] theorem State.completeAt_viewNo : (s.completeAt c w pc).viewNo = s.viewNo := rfl
@[simp] theorem State.completeAt_manifest : (s.completeAt c w pc).manifest = s.manifest := rfl
@[simp] theorem State.completeAt_self : (s.completeAt c w pc).self = s.self := rfl
@[simp] theorem State.completeAt_isolatedPeers : (s.completeAt c w pc).isolatedPeers = s.isolatedPeers := rfl
@[simp] theorem State.completeAt_domain : (s.completeAt c w pc).domain = s.domain := rfl
@[simp] theorem State.completeAt_agreement : (s.completeAt c w pc).agreement = s.agreement := rfl
@[simp] theorem State.completeAt_viewCtl : (s.completeAt c w pc).viewCtl = s.viewCtl := rfl
@[simp] theorem State.completeAt_heard : (s.completeAt c w pc).heard = s.heard := rfl
@[simp] theorem State.completeAt_beatAt : (s.completeAt c w pc).beatAt = s.beatAt := rfl
@[simp] theorem State.completeAt_joins : (s.completeAt c w pc).joins = s.joins := rfl
@[simp] theorem State.completeAt_joining : (s.completeAt c w pc).joining = s.joining := rfl
@[simp] theorem State.completeAt_comms : (s.completeAt c w pc).comms = s.comms := rfl
@[simp] theorem State.completeAt_colls : (s.completeAt c w pc).colls = s.colls := rfl
@[simp] theorem State.completeAt_links : (s.completeAt c w pc).links = s.links := rfl
@[simp] theorem State.completeAt_ports : (s.completeAt c w pc).ports = s.ports := rfl
@[simp] theorem State.completeAt_dropTotal : (s.completeAt c w pc).dropTotal = s.dropTotal := rfl
@[simp] theorem State.completeAt_drops : (s.completeAt c w pc).drops = s.drops := rfl
@[simp] theorem State.completeAt_canalSeqs : (s.completeAt c w pc).canalSeqs = s.canalSeqs := rfl
@[simp] theorem State.completeAt_held : (s.completeAt c w pc).held = s.held := rfl
@[simp] theorem State.completeAt_invalidations : (s.completeAt c w pc).invalidations = s.invalidations := rfl
@[simp] theorem State.completeAt_images : (s.completeAt c w pc).images = s.images := rfl
@[simp] theorem State.completeAt_cellars : (s.completeAt c w pc).cellars = s.cellars := rfl
@[simp] theorem State.completeAt_marks : (s.completeAt c w pc).marks = s.marks := rfl
@[simp] theorem State.completeAt_contexts : (s.completeAt c w pc).contexts = s.contexts := rfl
@[simp] theorem State.completeAt_slots : (s.completeAt c w pc).slots = s.slots := rfl
@[simp] theorem State.completeAt_latched : (s.completeAt c w pc).latched = s.latched := rfl
@[simp] theorem State.completeAt_ctl : (s.completeAt c w pc).ctl = s.ctl := rfl
@[simp] theorem State.completeAt_flash : (s.completeAt c w pc).flash = s.flash := rfl
@[simp] theorem State.completeAt_throttle : (s.completeAt c w pc).throttle = s.throttle := rfl
@[simp] theorem State.completeAt_frozen : (s.completeAt c w pc).frozen = s.frozen := rfl
@[simp] theorem State.completeAt_trigger : (s.completeAt c w pc).trigger = s.trigger := rfl
end completeAt

end Sys2Proof.Machine
end

