-- ==== Sys2Proof/Laws/Ops.lean ====
section
/-! SUPPORT. What the shared operations on registers, paths and memory do, each said once. -/
namespace Sys2Proof.Machine

/-! ### Lists -/

theorem nth_set_same {α : Type} (l : List α) (i : Nat) (x d : α) (h : i < l.length) : nth (l.set i x) i d = x := by
  simp [nth, h]

theorem nth_set_other {α : Type} (l : List α) (i j : Nat) (x d : α) (h : j ≠ i) : nth (l.set i x) j d = nth l j d := by
  simp [nth, Ne.symm h]

/-! ### Registers of a warp -/

section registers
variable (w : Warp) (i j : Nat)

/-- A scalar register written reads as written. -/
theorem Warp.sreg_setSreg_same (x : Word) (h : i < w.s.length) : (w.setSreg i x).sreg i = x := nth_set_same _ _ _ _ h
/-- A write of a scalar register leaves the others. -/
theorem Warp.sreg_setSreg_other (x : Word) (h : j ≠ i) : (w.setSreg i x).sreg j = w.sreg j := nth_set_other _ _ _ _ _ h
theorem Warp.areg_setAreg_same (x : AReg) (h : i < w.a.length) : (w.setAreg i x).areg i = x := nth_set_same _ _ _ _ h
theorem Warp.areg_setAreg_other (x : AReg) (h : j ≠ i) : (w.setAreg i x).areg j = w.areg j := nth_set_other _ _ _ _ _ h

/-- p0 discards writes (R98). -/
@[simp] theorem Warp.setPreg_zero (x : LaneMask) : w.setPreg 0 x = w := rfl

theorem Warp.preg_setPreg_same (x : LaneMask) (h : i < w.p.length) (h0 : i ≠ 0) : (w.setPreg i x).preg i = x := by
  simp only [Warp.setPreg, if_neg h0]; exact nth_set_same _ _ _ _ h

theorem Warp.preg_setPreg_other (x : LaneMask) (h : j ≠ i) : (w.setPreg i x).preg j = w.preg j := by
  unfold Warp.setPreg
  split
  · rfl
  · exact nth_set_other _ _ _ _ _ h

theorem Warp.path_setPath_same (p : Path) (h : i < w.paths.length) : (w.setPath i p).path i = p := nth_set_same _ _ _ _ h
theorem Warp.path_setPath_other (p : Path) (h : j ≠ i) : (w.setPath i p).path j = w.path j := nth_set_other _ _ _ _ _ h

/-- Setting a path leaves every register. -/
theorem Warp.setPath_frame (p : Path) :
    (w.setPath i p).v = w.v ∧ (w.setPath i p).s = w.s ∧ (w.setPath i p).a = w.a ∧ (w.setPath i p).p = w.p
      ∧ (w.setPath i p).flags = w.flags := ⟨rfl, rfl, rfl, rfl, rfl⟩

/-- A scalar result changes no register but its destination, and that only with write-back. -/
theorem scalarResult_frame (d : Dst) (x : Option Word) :
    (scalarResult w d x).1.v = w.v ∧ (scalarResult w d x).1.a = w.a ∧ (scalarResult w d x).1.p = w.p
      ∧ (scalarResult w d x).1.flags = w.flags ∧ (scalarResult w d x).1.paths = w.paths
      ∧ (∀ j, j ≠ d.idx → (scalarResult w d x).1.sreg j = w.sreg j) ∧ (d.wb = false → (scalarResult w d x).1 = w) := by
  cases x with
  | none => simp [scalarResult]
  | some v =>
    cases hd : d.wb
    · simp [scalarResult, hd]
    · simp only [scalarResult, hd, if_true]
      exact ⟨rfl, rfl, rfl, rfl, rfl, fun j h => Warp.sreg_setSreg_other w _ _ _ h, by simp⟩

/-- An address result changes no register but its destination. -/
theorem addressResult_frame (d : Dst) (x : Option AReg) :
    (addressResult w d x).1.v = w.v ∧ (addressResult w d x).1.s = w.s ∧ (addressResult w d x).1.p = w.p
      ∧ (addressResult w d x).1.flags = w.flags ∧ (addressResult w d x).1.paths = w.paths
      ∧ (∀ j, j ≠ d.idx → (addressResult w d x).1.areg j = w.areg j) ∧ (d.wb = false → (addressResult w d x).1 = w) := by
  cases x with
  | none => simp [addressResult]
  | some v =>
    cases hd : d.wb
    · simp [addressResult, hd]
    · simp only [addressResult, hd, if_true]
      exact ⟨rfl, rfl, rfl, rfl, rfl, fun j h => Warp.areg_setAreg_other w _ _ _ h, by simp⟩

/-- A predicate result changes no register but its destination. -/
theorem predicateResult_frame (d : Dst) (m x : LaneMask) :
    (predicateResult w d m x).1.v = w.v ∧ (predicateResult w d m x).1.s = w.s ∧ (predicateResult w d m x).1.a = w.a
      ∧ (predicateResult w d m x).1.flags = w.flags ∧ (predicateResult w d m x).1.paths = w.paths
      ∧ (∀ j, j ≠ d.idx → (predicateResult w d m x).1.preg j = w.preg j) ∧ (d.wb = false → (predicateResult w d m x).1 = w) := by
  cases hd : d.wb
  · simp [predicateResult, hd]
  · simp only [predicateResult, hd, if_true, Warp.setPreg]
    split
    · simp
    · exact ⟨rfl, rfl, rfl, rfl, rfl, fun j h => nth_set_other _ _ _ _ _ h, by simp⟩

end registers

/-! ### Warps of the state -/

variable (s : State)

theorem State.warp_setWarp_same (wid : Nat) (w : Warp) : (s.setWarp wid w).warps.get? wid = some w := by simp

theorem State.warp_setWarp_other (wid j : Nat) (w : Warp) (h : j ≠ wid) : (s.setWarp wid w).warps.get? j = s.warps.get? j := by
  simp [NMap.get?_put_other _ _ _ _ h]

/-- The warp after a completed instruction. -/
theorem State.warp_finish (c : Ctx) (w : Warp) :
    (s.finish c w).warps.get? c.wid
      = some ({ w.setPath c.pidx ((w.path c.pidx).issuedAt s.cycle) with retired := w.retired + 1 }.rotate c.pidx s.cycle) := by
  simp [State.finish, State.count, Warp.setPath]

/-- A completed instruction leaves every other warp. -/
theorem State.warp_finish_other (c : Ctx) (w : Warp) (j : Nat) (h : j ≠ c.wid) :
    (s.finish c w).warps.get? j = s.warps.get? j := by
  simp [State.finish, State.count, NMap.get?_put_other _ _ _ _ h]

/-! ### Memory -/

/-- A piece put into memory changes memory there, and beside it only poison and what a memory-side cache knows of the line. -/
theorem State.putPiece_eq (p : Piece) (bs : List Byte) :
    s.putPiece p bs
      = { s with mem := s.mem.write p.key bs, poison := (s.putPiece p bs).poison, cache := (s.putPiece p bs).cache } := by
  simp only [State.putPiece, State.clearPoison]
  split <;> rfl

/-- A piece written for every agent changes also which older writes some core does not see. -/
theorem State.writePiece_eq (p : Piece) (bs : List Byte) :
    s.writePiece p bs
      = { s with mem := s.mem.write p.key bs, poison := (s.writePiece p bs).poison, cache := (s.writePiece p bs).cache
                 hidden := (s.writePiece p bs).hidden } := by
  simp only [State.writePiece]
  rw [State.putPiece_eq]

theorem State.writePiece_mem (p : Piece) (bs : List Byte) : (s.writePiece p bs).mem = s.mem.write p.key bs := by
  rw [State.writePiece_eq]

/-- Pieces written keep memory in its form. -/
theorem State.writePieces_wf (ws : List (Piece × List Byte)) (h : s.mem.wf) : Memory.wf (s.writePieces ws).mem := by
  unfold State.writePieces
  induction ws generalizing s with
  | nil => exact h
  | cons x r ih => exact ih _ (by rw [State.writePiece_mem]; exact Memory.wf_write h _ _)

/-- A byte outside every piece written reads as before. -/
theorem State.writePieces_other (ws : List (Piece × List Byte)) (a : Nat)
    (h : ∀ x ∈ ws, a < x.1.key ∨ x.1.key + x.2.length ≤ a) : (s.writePieces ws).mem.byte a = s.mem.byte a := by
  unfold State.writePieces
  induction ws generalizing s with
  | nil => rfl
  | cons x r ih =>
    have h1 := ih (s.writePiece x.1 x.2) fun y hy => h y (List.mem_cons_of_mem _ hy)
    rw [State.writePiece_mem] at h1
    exact h1.trans (Memory.byte_write_other _ _ _ _ (h x List.mem_cons_self))

end Sys2Proof.Machine
end

