-- ==== Sys2Proof/Laws/PerInstr.lean ====
section
/-! SUPPORT. For every constructor: the fields of a legal instruction build that instruction again, and no other (spec/03 R96, R97). -/
namespace Sys2Proof.Laws.RoundTrip

set_option Elab.async false
set_option linter.unusedSimpArgs false

/-- The fields of a legal instruction, when it is a word, build it again. -/
def Statement (i : Instr) : Prop := i.legal = true → ∀ f, i.fields = some f → f.build = some i

theorem of_none {i : Instr} (hf : i.fields = none) : Statement i := by
  intro _ f hg
  rw [hf] at hg; cases hg

theorem of_some {i : Instr} {f : Fields} (hf : i.fields = some f) (h : i.legal = true → f.build = some i) : Statement i := by
  intro hi g hg
  rw [hf] at hg; cases hg; exact h hi

theorem andL {a b : Bool} (h : (a && b) = true) : a = true := (Bool.and_eq_true_iff.mp h).1
theorem andR {a b : Bool} (h : (a && b) = true) : b = true := (Bool.and_eq_true_iff.mp h).2

theorem frame_of {f : Nat} (h : (f == 8 || f == 16 || f == 24 || f == 32) = true) : f = 8 ∨ f = 16 ∨ f = 24 ∨ f = 32 := by
  simp only [Bool.or_eq_true, beq_iff_eq] at h; omega

theorem convOk_bounds {ds ss : List Fmt} {x y : Bool} {n : Nat} {v : Cv} {o : Alu} (h : convOk ds ss x y n v o = true) :
    v.jd < 8 ∧ v.js < 8 := by
  simp only [convOk, Bool.and_eq_true] at h; exact Cv.bounds h.1.1.1.1.1.2

theorem fdot2_bounds {m : RMode} {v : Cv} {o : Alu} (h : Instr.legal (.fdot2 m v o) = true) : v.jd < 8 ∧ v.js < 8 := by
  have h0 := andL (andL (andL (andL h)))
  have h1 := andR h0
  have h2 := andR (andL h0)
  simp only [beq_iff_eq] at h1 h2
  omega

theorem intFmts_perLane {f : Fmt} (h : intFmts.contains f = true) : f.perLane ≤ 4 := by cases f <;> revert h <;> decide

theorem icvt_bounds {s : ICvtSat} {sf : Fmt} {js jd : Nat} {o : Alu} (h : Instr.legal (.icvt s sf js jd o) = true) : js < 4 ∧ jd < 4 := by
  have h0 := andL (andL (andL (andL h)))
  have h1 : jd < o.fmt.perLane := of_decide_eq_true (andR h0)
  have h2 : js < sf.perLane := of_decide_eq_true (andR (andL h0))
  have h3 := intFmts_perLane (andR (andL (andL h0)))
  have h4 := intFmts_perLane (andR (andL (andL (andL h0))))
  omega

theorem lxch_bounds {v : LXch} {seg : Nat} {o : Alu} (h : Instr.legal (.lxch v seg o) = true) : seg < 8 := by
  have h0 : seg ≤ 5 := of_decide_eq_true (andR (andL (andL (andL (andL (andL (andL (andL h))))))))
  omega

theorem float_ne_none {f : Fmt} (h : wideFloatFmts.contains f = true) : f ≠ .none := by cases f <;> revert h <;> decide
theorem none_only {f : Fmt} (h : [Fmt.none].contains f = true) : f = .none := by cases f <;> revert h <;> decide

theorem Mem.signed_back {o : Mem} (h : o.uns = false) : Sys2Proof.Mem.signed { o with uns := true } = o := by
  rcases o with ⟨g, d, fmt, uns, a, x, y, e⟩
  cases h; rfl

theorem branch_back (o : Int) : (wideOff 28 o).getD (o.bmod 268435456) = o := by
  have h := wideOff_getD 28 (by decide) o
  rwa [BitVec.toInt_ofInt] at h

/-- The low part of an extension. -/
theorem ext_low {n m : Nat} (a : BitVec n) (b : BitVec m) (e : BitVec 28) (hw : n + m = 28) (he : e = (a ++ b).cast hw) :
    e.extractLsb' 0 m = b := by
  subst he
  refine BitVec.eq_of_getLsbD_eq fun i hi => ?_
  simp [BitVec.getLsbD_append, hi]

theorem nop (g : Guard) : Statement (.nop g) := of_some rfl fun _ => by simp [Fields.build, Fields.buildControl, ctlFields, plainFields, extFields, Fields.mk', Fields.guard, Fields.branchOff, Src.regIdx, Src.immVal]
theorem br (g : Guard) (o : Int) : Statement (.br g o) := of_some rfl fun _ => by simp [Fields.build, Fields.buildControl, ctlFields, plainFields, extFields, Fields.mk', Fields.guard, Fields.branchOff, Src.regIdx, Src.immVal, branch_back]
theorem bre (sense : Bool) (flag : Nat) (a : Nat) (o : Int) : Statement (.bre sense flag a o) := of_some rfl fun h => by
  have hf : flag < 4 := of_decide_eq_true (andL (andL h))
  cases sense <;> simp [Fields.build, Fields.buildControl, ctlFields, plainFields, extFields, Fields.mk', Fields.guard, Fields.branchOff, Src.regIdx, Src.immVal, branch_back] <;> omega
theorem mark (o : Int) : Statement (.mark o) := of_some rfl fun _ => by simp [Fields.build, Fields.buildControl, ctlFields, plainFields, extFields, Fields.mk', Fields.guard, Fields.branchOff, Src.regIdx, Src.immVal, branch_back]
theorem join : Statement .join := of_some rfl fun _ => by simp [Fields.build, Fields.buildControl, ctlFields, plainFields, extFields, Fields.mk', Fields.guard, Fields.branchOff, Src.regIdx, Src.immVal]
theorem call (f : Nat) (o : Int) : Statement (.call f o) := of_some rfl fun h => by
  have hf : f = 8 ∨ f = 16 ∨ f = 24 ∨ f = 32 := frame_of h
  rcases hf with rfl | rfl | rfl | rfl <;> simp [Fields.build, Fields.buildControl, ctlFields, plainFields, extFields, Fields.mk', Fields.guard, Fields.branchOff, Src.regIdx, Src.immVal, branch_back]
theorem callx (g : Guard) (f : Nat) (v : Nat) : Statement (.callx g f v) := of_some rfl fun h => by
  have hf : f = 8 ∨ f = 16 ∨ f = 24 ∨ f = 32 := frame_of (andR (andL h))
  rcases hf with rfl | rfl | rfl | rfl <;> simp [Fields.build, Fields.buildControl, ctlFields, plainFields, extFields, Fields.mk', Fields.guard, Fields.branchOff, Src.regIdx, Src.immVal]
theorem ret : Statement .ret := of_some rfl fun _ => by simp [Fields.build, Fields.buildControl, ctlFields, plainFields, extFields, Fields.mk', Fields.guard, Fields.branchOff, Src.regIdx, Src.immVal]
theorem jmpx (r : Nat) : Statement (.jmpx r) := of_some rfl fun _ => by simp [Fields.build, Fields.buildControl, ctlFields, plainFields, extFields, Fields.mk', Fields.guard, Fields.branchOff, Src.regIdx, Src.immVal]
theorem grow (v : Src) : Statement (.grow v) := of_some rfl fun _ => by simp [Fields.build, Fields.buildControl, ctlFields, plainFields, extFields, Fields.mk', Fields.guard, Fields.branchOff, Src.regIdx, Src.immVal]
theorem shrink (v : Src) : Statement (.shrink v) := of_some rfl fun _ => by simp [Fields.build, Fields.buildControl, ctlFields, plainFields, extFields, Fields.mk', Fields.guard, Fields.branchOff, Src.regIdx, Src.immVal]
theorem yield (g : Guard) : Statement (.yield g) := of_some rfl fun _ => by simp [Fields.build, Fields.buildControl, ctlFields, plainFields, extFields, Fields.mk', Fields.guard, Fields.branchOff, Src.regIdx, Src.immVal]
theorem exit (g : Guard) : Statement (.exit g) := of_some rfl fun _ => by simp [Fields.build, Fields.buildControl, ctlFields, plainFields, extFields, Fields.mk', Fields.guard, Fields.branchOff, Src.regIdx, Src.immVal]
theorem trap (g : Guard) (n : Int) : Statement (.trap g n) := of_some rfl fun _ => by simp [Fields.build, Fields.buildControl, ctlFields, plainFields, extFields, Fields.mk', Fields.guard, Fields.branchOff, Src.regIdx, Src.immVal]
theorem eret : Statement .eret := of_some rfl fun _ => by simp [Fields.build, Fields.buildControl, ctlFields, plainFields, extFields, Fields.mk', Fields.guard, Fields.branchOff, Src.regIdx, Src.immVal]
theorem rdsys (g : Guard) (d : Dst) (n : Nat) : Statement (.rdsys g d n) := of_some rfl fun _ => by simp [Fields.build, Fields.buildControl, ctlFields, plainFields, extFields, Fields.mk', Fields.guard, Fields.branchOff, Src.regIdx, Src.immVal, Fields.dst?]
theorem wrsys (g : Guard) (d : Dst) (a : Src) : Statement (.wrsys g d a) := of_some rfl fun _ => by simp [Fields.build, Fields.buildControl, ctlFields, plainFields, extFields, Fields.mk', Fields.guard, Fields.branchOff, Src.regIdx, Src.immVal, Fields.dst?]
theorem sadd (o : Alu) : Statement (.sadd o) :=
  of_some rfl fun _ => by simp [Fields.build, Fields.buildScalar]
theorem ssub (o : Alu) : Statement (.ssub o) :=
  of_some rfl fun _ => by simp [Fields.build, Fields.buildScalar]
theorem smul (o : Alu) : Statement (.smul o) :=
  of_some rfl fun _ => by simp [Fields.build, Fields.buildScalar]
theorem smulh (o : Alu) : Statement (.smulh o) :=
  of_some rfl fun _ => by simp [Fields.build, Fields.buildScalar]
theorem smad (o : Alu) : Statement (.smad o) :=
  of_some rfl fun _ => by simp [Fields.build, Fields.buildScalar]
theorem sand (o : Alu) : Statement (.sand o) :=
  of_some rfl fun _ => by simp [Fields.build, Fields.buildScalar]
theorem sor (o : Alu) : Statement (.sor o) :=
  of_some rfl fun _ => by simp [Fields.build, Fields.buildScalar]
theorem sxor (o : Alu) : Statement (.sxor o) :=
  of_some rfl fun _ => by simp [Fields.build, Fields.buildScalar]
theorem sandn (o : Alu) : Statement (.sandn o) :=
  of_some rfl fun _ => by simp [Fields.build, Fields.buildScalar]
theorem sshl (o : Alu) : Statement (.sshl o) :=
  of_some rfl fun _ => by simp [Fields.build, Fields.buildScalar]
theorem sshr (o : Alu) : Statement (.sshr o) :=
  of_some rfl fun _ => by simp [Fields.build, Fields.buildScalar]
theorem ssar (o : Alu) : Statement (.ssar o) :=
  of_some rfl fun _ => by simp [Fields.build, Fields.buildScalar]
theorem srot (o : Alu) : Statement (.srot o) :=
  of_some rfl fun _ => by simp [Fields.build, Fields.buildScalar]
theorem scmp (c : Cond) (o : Alu) : Statement (.scmp c o) :=
  of_some rfl fun _ => by simp [Fields.build, Fields.buildScalar, c.code_lt]
theorem smov (o : Alu) : Statement (.smov o) :=
  of_some rfl fun _ => by simp [Fields.build, Fields.buildScalar]
theorem ssel (o : Alu) : Statement (.ssel o) :=
  of_some rfl fun _ => by simp [Fields.build, Fields.buildScalar]
theorem sdiv (o : Alu) : Statement (.sdiv o) :=
  of_some rfl fun _ => by simp [Fields.build, Fields.buildScalar]
theorem srem (o : Alu) : Statement (.srem o) :=
  of_some rfl fun _ => by simp [Fields.build, Fields.buildScalar]
theorem spopc (o : Alu) : Statement (.spopc o) :=
  of_some rfl fun _ => by simp [Fields.build, Fields.buildScalar]
theorem sclz (o : Alu) : Statement (.sclz o) :=
  of_some rfl fun _ => by simp [Fields.build, Fields.buildScalar]
theorem sctz (o : Alu) : Statement (.sctz o) :=
  of_some rfl fun _ => by simp [Fields.build, Fields.buildScalar]
theorem sbrev (o : Alu) : Statement (.sbrev o) :=
  of_some rfl fun _ => by simp [Fields.build, Fields.buildScalar]
theorem aset (f : ASel) (o : AddrOp) : Statement (.aset f o) :=
  of_some rfl fun _ => by simp [Fields.build, Fields.buildScalar, f.code_lt]
theorem aadv (o : AddrOp) : Statement (.aadv o) :=
  of_some rfl fun _ => by simp [Fields.build, Fields.buildScalar]
theorem abind (o : AddrOp) : Statement (.abind o) :=
  of_some rfl fun _ => by simp [Fields.build, Fields.buildScalar]
theorem aunbind (o : AddrOp) : Statement (.aunbind o) :=
  of_some rfl fun _ => by simp [Fields.build, Fields.buildScalar]
theorem aget (f : AGetSel) (o : AddrOp) : Statement (.aget f o) :=
  of_some rfl fun _ => by simp [Fields.build, Fields.buildScalar, f.code_lt]
theorem atrn (o : AddrOp) : Statement (.atrn o) :=
  of_some rfl fun _ => by simp [Fields.build, Fields.buildScalar]
theorem iadd (o : Alu) : Statement (.iadd o) :=
  of_some rfl fun _ => by simp [Fields.build, Fields.buildVector]
theorem isub (o : Alu) : Statement (.isub o) :=
  of_some rfl fun _ => by simp [Fields.build, Fields.buildVector]
theorem imul (o : Alu) : Statement (.imul o) :=
  of_some rfl fun _ => by simp [Fields.build, Fields.buildVector]
theorem imad (o : Alu) : Statement (.imad o) :=
  of_some rfl fun _ => by simp [Fields.build, Fields.buildVector]
theorem imulh (o : Alu) : Statement (.imulh o) :=
  of_some rfl fun _ => by simp [Fields.build, Fields.buildVector]
theorem iadds (o : Alu) : Statement (.iadds o) :=
  of_some rfl fun _ => by simp [Fields.build, Fields.buildVector]
theorem isubs (o : Alu) : Statement (.isubs o) :=
  of_some rfl fun _ => by simp [Fields.build, Fields.buildVector]
theorem imin (o : Alu) : Statement (.imin o) :=
  of_some rfl fun _ => by simp [Fields.build, Fields.buildVector]
theorem imax (o : Alu) : Statement (.imax o) :=
  of_some rfl fun _ => by simp [Fields.build, Fields.buildVector]
theorem iabs (o : Alu) : Statement (.iabs o) :=
  of_some rfl fun _ => by simp [Fields.build, Fields.buildVector]
theorem ineg (o : Alu) : Statement (.ineg o) :=
  of_some rfl fun _ => by simp [Fields.build, Fields.buildVector]
theorem icmp (c : Cond) (o : Alu) : Statement (.icmp c o) :=
  of_some rfl fun _ => by simp [Fields.build, Fields.buildVector, c.code_lt]
theorem isel (o : Alu) : Statement (.isel o) :=
  of_some rfl fun _ => by simp [Fields.build, Fields.buildVector]
theorem and (o : Alu) : Statement (.and o) :=
  of_some rfl fun _ => by simp [Fields.build, Fields.buildVector]
theorem or (o : Alu) : Statement (.or o) :=
  of_some rfl fun _ => by simp [Fields.build, Fields.buildVector]
theorem xor (o : Alu) : Statement (.xor o) :=
  of_some rfl fun _ => by simp [Fields.build, Fields.buildVector]
theorem andn (o : Alu) : Statement (.andn o) :=
  of_some rfl fun _ => by simp [Fields.build, Fields.buildVector]
theorem orn (o : Alu) : Statement (.orn o) :=
  of_some rfl fun _ => by simp [Fields.build, Fields.buildVector]
theorem xnor (o : Alu) : Statement (.xnor o) :=
  of_some rfl fun _ => by simp [Fields.build, Fields.buildVector]
theorem not (o : Alu) : Statement (.not o) :=
  of_some rfl fun _ => by simp [Fields.build, Fields.buildVector]
theorem lut3 (t : BitVec 8) (o : Alu) : Statement (.lut3 t o) := of_some rfl fun _ => by
  have e : (0#20 ++ t : BitVec 28).extractLsb' 0 8 = t := ext_low 0#20 t _ rfl rfl
  simp [Fields.build, Fields.buildVector, e]
theorem shl (o : Alu) : Statement (.shl o) :=
  of_some rfl fun _ => by simp [Fields.build, Fields.buildVector]
theorem shr (o : Alu) : Statement (.shr o) :=
  of_some rfl fun _ => by simp [Fields.build, Fields.buildVector]
theorem sar (o : Alu) : Statement (.sar o) :=
  of_some rfl fun _ => by simp [Fields.build, Fields.buildVector]
theorem irot (right : Bool) (o : Alu) : Statement (.irot right o) :=
  of_some rfl fun _ => by cases right <;> simp [Fields.build, Fields.buildVector]
theorem popc (o : Alu) : Statement (.popc o) :=
  of_some rfl fun _ => by simp [Fields.build, Fields.buildVector]
theorem clz (o : Alu) : Statement (.clz o) :=
  of_some rfl fun _ => by simp [Fields.build, Fields.buildVector]
theorem ctz (o : Alu) : Statement (.ctz o) :=
  of_some rfl fun _ => by simp [Fields.build, Fields.buildVector]
theorem brev (o : Alu) : Statement (.brev o) :=
  of_some rfl fun _ => by simp [Fields.build, Fields.buildVector]
theorem bfx (o : Alu) : Statement (.bfx o) :=
  of_some rfl fun _ => by simp [Fields.build, Fields.buildVector]
theorem bfi (o : Alu) : Statement (.bfi o) :=
  of_some rfl fun _ => by simp [Fields.build, Fields.buildVector]
theorem imov (o : Alu) : Statement (.imov o) :=
  of_some rfl fun _ => by simp [Fields.build, Fields.buildVector]
theorem vmovx (write : Bool) (o : Alu) : Statement (.vmovx write o) :=
  of_some rfl fun _ => by cases write <;> simp [Fields.build, Fields.buildVector]
theorem idot4 (o : Alu) : Statement (.idot4 o) :=
  of_some rfl fun _ => by simp [Fields.build, Fields.buildVector]
theorem icvt (sat : ICvtSat) (sf : Fmt) (js : Nat) (jd : Nat) (o : Alu) : Statement (.icvt sat sf js jd o) := of_some rfl fun h => by
  have hb := icvt_bounds h
  have e1 : (0#20 ++ BitVec.ofNat 2 jd ++ BitVec.ofNat 2 js ++ BitVec.ofNat 4 sf.code : BitVec 28).extractLsb' 0 4 = BitVec.ofNat 4 sf.code :=
    ext_low _ _ _ rfl rfl
  have e2 : (0#20 ++ BitVec.ofNat 2 jd ++ BitVec.ofNat 2 js ++ BitVec.ofNat 4 sf.code : BitVec 28).extractLsb' 4 2 = BitVec.ofNat 2 js :=
    (extract_past _ _ _ _ (by omega)).trans ((extract_low _ _ _ _ (by omega)).trans (extract_all _))
  have e3 : (0#20 ++ BitVec.ofNat 2 jd ++ BitVec.ofNat 2 js ++ BitVec.ofNat 4 sf.code : BitVec 28).extractLsb' 6 2 = BitVec.ofNat 2 jd :=
    (extract_past _ _ _ _ (by omega)).trans ((extract_past _ _ _ _ (by omega)).trans ((extract_low _ _ _ _ (by omega)).trans (extract_all _)))
  simp [Fields.build, Fields.buildVector, sat.code_lt, e1, e2, e3, Nat.mod_eq_of_lt sf.code_lt, Nat.mod_eq_of_lt hb.1, Nat.mod_eq_of_lt hb.2]
theorem iabsd (o : Alu) : Statement (.iabsd o) :=
  of_some rfl fun _ => by simp [Fields.build, Fields.buildVector]
theorem fadd (m : RMode) (o : Alu) : Statement (.fadd m o) :=
  of_some rfl fun _ => by simp [Fields.build, Fields.buildFloat, Fields.rounded, Fields.conv, m.code_lt]
theorem fsub (m : RMode) (o : Alu) : Statement (.fsub m o) :=
  of_some rfl fun _ => by simp [Fields.build, Fields.buildFloat, Fields.rounded, Fields.conv, m.code_lt]
theorem fmul (m : RMode) (o : Alu) : Statement (.fmul m o) :=
  of_some rfl fun _ => by simp [Fields.build, Fields.buildFloat, Fields.rounded, Fields.conv, m.code_lt]
theorem ffma (m : RMode) (o : Alu) : Statement (.ffma m o) :=
  of_some rfl fun _ => by simp [Fields.build, Fields.buildFloat, Fields.rounded, Fields.conv, m.code_lt]
theorem fmin (o : Alu) : Statement (.fmin o) :=
  of_some rfl fun _ => by simp [Fields.build, Fields.buildFloat, Fields.rounded, Fields.conv]
theorem fmax (o : Alu) : Statement (.fmax o) :=
  of_some rfl fun _ => by simp [Fields.build, Fields.buildFloat, Fields.rounded, Fields.conv]
theorem fabs (o : Alu) : Statement (.fabs o) :=
  of_some rfl fun _ => by simp [Fields.build, Fields.buildFloat, Fields.rounded, Fields.conv]
theorem fneg (o : Alu) : Statement (.fneg o) :=
  of_some rfl fun _ => by simp [Fields.build, Fields.buildFloat, Fields.rounded, Fields.conv]
theorem fcsgn (o : Alu) : Statement (.fcsgn o) :=
  of_some rfl fun _ => by simp [Fields.build, Fields.buildFloat, Fields.rounded, Fields.conv]
theorem fcmp (c : FCond) (o : Alu) : Statement (.fcmp c o) :=
  of_some rfl fun _ => by simp [Fields.build, Fields.buildFloat, Fields.rounded, Fields.conv, c.code_lt]
theorem fclass (o : Alu) : Statement (.fclass o) :=
  of_some rfl fun _ => by simp [Fields.build, Fields.buildFloat, Fields.rounded, Fields.conv]
theorem fclassFl (o : Alu) : Statement (.fclassFl o) :=
  of_some rfl fun _ => by simp [Fields.build, Fields.buildFloat, Fields.rounded, Fields.conv]
theorem frcp (o : Alu) : Statement (.frcp o) :=
  of_some rfl fun _ => by simp [Fields.build, Fields.buildFloat, Fields.rounded, Fields.conv]
theorem frsq (o : Alu) : Statement (.frsq o) :=
  of_some rfl fun _ => by simp [Fields.build, Fields.buildFloat, Fields.rounded, Fields.conv]
theorem fsqrt (m : RMode) (o : Alu) : Statement (.fsqrt m o) :=
  of_some rfl fun _ => by simp [Fields.build, Fields.buildFloat, Fields.rounded, Fields.conv, m.code_lt]
theorem fdiv (m : RMode) (o : Alu) : Statement (.fdiv m o) :=
  of_some rfl fun _ => by simp [Fields.build, Fields.buildFloat, Fields.rounded, Fields.conv, m.code_lt]
theorem fexp2 (m : RMode) (o : Alu) : Statement (.fexp2 m o) :=
  of_some rfl fun _ => by simp [Fields.build, Fields.buildFloat, Fields.rounded, Fields.conv, m.code_lt]
theorem flog2 (m : RMode) (o : Alu) : Statement (.flog2 m o) :=
  of_some rfl fun _ => by simp [Fields.build, Fields.buildFloat, Fields.rounded, Fields.conv, m.code_lt]
theorem fscale (m : RMode) (o : Alu) : Statement (.fscale m o) :=
  of_some rfl fun _ => by simp [Fields.build, Fields.buildFloat, Fields.rounded, Fields.conv, m.code_lt]
theorem cvt (m : RMode) (v : Cv) (o : Alu) : Statement (.cvt m v o) := of_some rfl fun h => by
  have hv : v.jd < 8 ∧ v.js < 8 := (convOk_bounds (andL h))
  simp [Fields.build, Fields.buildFloat, Fields.rounded, Fields.conv, m.code_lt, cv_of (Alu.ext_fields _ _ _ _) hv.1 hv.2]
theorem cvtf (m : RMode) (v : Cv) (o : Alu) : Statement (.cvtf m v o) := of_some rfl fun h => by
  have hv : v.jd < 8 ∧ v.js < 8 := (convOk_bounds h)
  simp [Fields.build, Fields.buildFloat, Fields.rounded, Fields.conv, m.code_lt, cv_of (Alu.ext_fields _ _ _ _) hv.1 hv.2]
theorem cvti (m : RMode) (v : Cv) (o : Alu) : Statement (.cvti m v o) := of_some rfl fun h => by
  have hv : v.jd < 8 ∧ v.js < 8 := (convOk_bounds h)
  simp [Fields.build, Fields.buildFloat, Fields.rounded, Fields.conv, m.code_lt, cv_of (Alu.ext_fields _ _ _ _) hv.1 hv.2]
theorem frint (m : RMode) (v : Cv) (o : Alu) : Statement (.frint m v o) := of_some rfl fun h => by
  have hv : v.jd < 8 ∧ v.js < 8 := (convOk_bounds (andL h))
  simp [Fields.build, Fields.buildFloat, Fields.rounded, Fields.conv, m.code_lt, cv_of (Alu.ext_fields _ _ _ _) hv.1 hv.2]
theorem cvtbs (m : RMode) (v : Cv) (o : Alu) : Statement (.cvtbs m v o) := of_some rfl fun h => by
  have hv : v.jd < 8 ∧ v.js < 8 := (convOk_bounds (andL h))
  simp [Fields.build, Fields.buildFloat, Fields.rounded, Fields.conv, m.code_lt, cv_of (Alu.ext_fields _ _ _ _) hv.1 hv.2]
theorem fdot2 (m : RMode) (v : Cv) (o : Alu) : Statement (.fdot2 m v o) := of_some rfl fun h => by
  have hv : v.jd < 8 ∧ v.js < 8 := (fdot2_bounds h)
  simp [Fields.build, Fields.buildFloat, Fields.rounded, Fields.conv, m.code_lt, cv_of (Alu.ext_fields _ _ _ _) hv.1 hv.2]
theorem qswap (v : QSwap) (o : Alu) : Statement (.qswap v o) :=
  of_some rfl fun _ => by simp [Fields.build, Fields.buildLane, v.code_lt]
theorem qbcast (k : Nat) (o : Alu) : Statement (.qbcast k o) := of_some rfl fun h => by
  have hk : k < 4 := of_decide_eq_true (andL h)
  simp [Fields.build, Fields.buildLane, hk, lt_trans hk (show 4 < 8 by decide)]
theorem lxch (v : LXch) (seg : Nat) (o : Alu) : Statement (.lxch v seg o) := of_some rfl fun h => by
  have hs : seg < 8 := lxch_bounds h
  have e : (0#25 ++ BitVec.ofNat 3 seg : BitVec 28).extractLsb' 0 3 = BitVec.ofNat 3 seg := ext_low _ _ _ rfl rfl
  simp [Fields.build, Fields.buildLane, v.code_lt, e, Nat.mod_eq_of_lt hs]
theorem lbcast (first : Bool) (o : Alu) : Statement (.lbcast first o) :=
  of_some rfl fun _ => by cases first <;> simp [Fields.build, Fields.buildLane]
theorem lred (op : ROp) (m : RMode) (o : Alu) : Statement (.lred op m o) := of_some rfl fun _ => by
  have e : (0#25 ++ BitVec.ofNat 3 m.code : BitVec 28).extractLsb' 0 3 = BitVec.ofNat 3 m.code := ext_low _ _ _ rfl rfl
  simp [Fields.build, Fields.buildLane, op.code_lt, e, Nat.mod_eq_of_lt m.code_lt]
theorem lscan (op : ROp) (m : RMode) (o : Alu) : Statement (.lscan op m o) := of_some rfl fun _ => by
  have e : (0#25 ++ BitVec.ofNat 3 m.code : BitVec 28).extractLsb' 0 3 = BitVec.ofNat 3 m.code := ext_low _ _ _ rfl rfl
  simp [Fields.build, Fields.buildLane, op.code_lt, e, Nat.mod_eq_of_lt m.code_lt]
theorem lpoll (v : Poll) (o : Alu) : Statement (.lpoll v o) :=
  of_some rfl fun _ => by simp [Fields.build, Fields.buildLane, v.code_lt]
theorem pand (o : Alu) : Statement (.pand o) :=
  of_some rfl fun _ => by simp [Fields.build, Fields.buildLane]
theorem por (o : Alu) : Statement (.por o) :=
  of_some rfl fun _ => by simp [Fields.build, Fields.buildLane]
theorem pxor (o : Alu) : Statement (.pxor o) :=
  of_some rfl fun _ => by simp [Fields.build, Fields.buildLane]
theorem pnot (o : Alu) : Statement (.pnot o) :=
  of_some rfl fun _ => by simp [Fields.build, Fields.buildLane]
theorem pmov (toScalar : Bool) (o : Alu) : Statement (.pmov toScalar o) :=
  of_some rfl fun _ => by cases toScalar <;> simp [Fields.build, Fields.buildLane]
theorem lidx (v : LIdx) (o : Alu) : Statement (.lidx v o) :=
  of_some rfl fun _ => by simp [Fields.build, Fields.buildLane, v.code_lt]
theorem ld (m : LaneMode) (o : Mem) : Statement (.ld m o) := of_some rfl fun h => by
  have hh := Mem.hint_of_ok (andR h)
  simp [Fields.build, Fields.buildMemory, Mem.sub_fields, subOf_mod4 _ _ m.code_lt, Mem.mem_fields o _ _ (lt_trans m.code_lt (by decide)) hh]
theorem st (m : LaneMode) (o : Mem) : Statement (.st m o) := of_some rfl fun h => by
  have hh := Mem.hint_of_ok (andR h)
  simp [Fields.build, Fields.buildMemory, Mem.sub_fields, subOf_mod4 _ _ m.code_lt, Mem.mem_fields o _ _ (lt_trans m.code_lt (by decide)) hh]
theorem lds (indexed : Bool) (o : Mem) : Statement (.lds indexed o) := of_some rfl fun h => by
  have hh := Mem.hint_of_ok (andR h)
  cases indexed <;> simp [Fields.build, Fields.buildMemory, Mem.sub_fields, subOf_mod2 _ _, Mem.mem_fields o _ _ _ hh]
theorem sts (indexed : Bool) (o : Mem) : Statement (.sts indexed o) := of_some rfl fun h => by
  have hh := Mem.hint_of_ok (andR h)
  cases indexed <;> simp [Fields.build, Fields.buildMemory, Mem.sub_fields, subOf_mod2 _ _, Mem.mem_fields o _ _ _ hh]
theorem sread (vec : Bool) (o : Mem) : Statement (.sread vec o) := of_some rfl fun h => by
  have hh := Mem.hint_of_ok (andR h)
  cases vec <;> simp [Fields.build, Fields.buildMemory, Mem.sub_fields, subOf_mod2 _ _, Mem.mem_fields o _ _ _ hh]
theorem lda (o : Mem) : Statement (.lda o) := of_some rfl fun h => by
  have hh := Mem.hint_of_ok (andR h)
  simp [Fields.build, Fields.buildMemory, Mem.sub_fields, Mem.mem_fields o _ _ _ hh]
theorem sta (o : Mem) : Statement (.sta o) := of_some rfl fun h => by
  have hh := Mem.hint_of_ok (andR h)
  simp [Fields.build, Fields.buildMemory, Mem.sub_fields, Mem.mem_fields o _ _ _ hh]
theorem pf (lane : Bool) (o : Mem) : Statement (.pf lane o) := of_some rfl fun h => by
  have hh := Mem.hint_of_ok (andR h)
  cases lane <;> simp [Fields.build, Fields.buildMemory, Mem.sub_fields, subOf_mod2 _ _, Mem.mem_fields o _ _ _ hh]
theorem wback (lane : Bool) (o : Mem) : Statement (.wback lane o) := of_some rfl fun h => by
  have hh := Mem.hint_of_ok (andR h)
  cases lane <;> simp [Fields.build, Fields.buildMemory, Mem.sub_fields, subOf_mod2 _ _, Mem.mem_fields o _ _ _ hh]
theorem inv (lane : Bool) (o : Mem) : Statement (.inv lane o) := of_some rfl fun h => by
  have hh := Mem.hint_of_ok (andR h)
  cases lane <;> simp [Fields.build, Fields.buildMemory, Mem.sub_fields, subOf_mod2 _ _, Mem.mem_fields o _ _ _ hh]
theorem atadd (o : Mem) : Statement (.atadd o) := of_some rfl fun h => by
  have hh := Mem.hint_of_atomic h
  simp [Fields.build, Fields.buildSync, Mem.sub_fields, subOf, hh.2.1, Mem.mem_fields o _ _ _ hh.1]
theorem atsub (o : Mem) : Statement (.atsub o) := of_some rfl fun h => by
  have hh := Mem.hint_of_atomic h
  simp [Fields.build, Fields.buildSync, Mem.sub_fields, subOf, hh.2.1, Mem.mem_fields o _ _ _ hh.1]
theorem atmin (o : Mem) : Statement (.atmin o) := of_some rfl fun h => by
  have hh := Mem.hint_of_atomic h
  simp [Fields.build, Fields.buildSync, Mem.sub_fields, subOf, hh.2.1, Mem.mem_fields o _ _ _ hh.1]
theorem atmax (o : Mem) : Statement (.atmax o) := of_some rfl fun h => by
  have hh := Mem.hint_of_atomic h
  simp [Fields.build, Fields.buildSync, Mem.sub_fields, subOf, hh.2.1, Mem.mem_fields o _ _ _ hh.1]
theorem atminN (o : Mem) : Statement (.atminN o) := of_some rfl fun h => by
  have hh := Mem.hint_of_atomic h
  simp [Fields.build, Fields.buildSync, Mem.sub_fields, subOf, hh.2.1, Mem.mem_fields_signed o _ _ _ hh.2.1 hh.1, Mem.signed_back hh.2.1]
theorem atmaxN (o : Mem) : Statement (.atmaxN o) := of_some rfl fun h => by
  have hh := Mem.hint_of_atomic h
  simp [Fields.build, Fields.buildSync, Mem.sub_fields, subOf, hh.2.1, Mem.mem_fields_signed o _ _ _ hh.2.1 hh.1, Mem.signed_back hh.2.1]
theorem atand (o : Mem) : Statement (.atand o) := of_some rfl fun h => by
  have hh := Mem.hint_of_atomic h
  simp [Fields.build, Fields.buildSync, Mem.sub_fields, subOf, hh.2.1, Mem.mem_fields o _ _ _ hh.1]
theorem ator (o : Mem) : Statement (.ator o) := of_some rfl fun h => by
  have hh := Mem.hint_of_atomic h
  simp [Fields.build, Fields.buildSync, Mem.sub_fields, subOf, hh.2.1, Mem.mem_fields o _ _ _ hh.1]
theorem atxor (o : Mem) : Statement (.atxor o) := of_some rfl fun h => by
  have hh := Mem.hint_of_atomic h
  simp [Fields.build, Fields.buildSync, Mem.sub_fields, subOf, hh.2.1, Mem.mem_fields o _ _ _ hh.1]
theorem atswp (o : Mem) : Statement (.atswp o) := of_some rfl fun h => by
  have hh := Mem.hint_of_atomic h
  simp [Fields.build, Fields.buildSync, Mem.sub_fields, subOf, hh.2.1, Mem.mem_fields o _ _ _ hh.1]
theorem atinc (o : Mem) : Statement (.atinc o) := of_some rfl fun h => by
  have hh := Mem.hint_of_atomic h
  simp [Fields.build, Fields.buildSync, Mem.sub_fields, subOf, hh.2.1, Mem.mem_fields_signed o _ _ _ hh.2.1 hh.1, Mem.signed_back hh.2.1]
theorem atfadd (o : Mem) : Statement (.atfadd o) := of_some rfl fun h => by
  have hh := Mem.hint_of_atomic h
  simp [Fields.build, Fields.buildSync, Mem.sub_fields, subOf, hh.2.1, Mem.mem_fields_signed o _ _ _ hh.2.1 hh.1, Mem.signed_back hh.2.1, float_ne_none hh.2.2]
theorem atfaddRgn (o : Mem) : Statement (.atfaddRgn o) := of_some rfl fun h => by
  have hh := Mem.hint_of_atomic h
  have hf := none_only hh.2.2
  have hs := Mem.signed_back hh.2.1
  rw [hf] at hs
  simp [Fields.build, Fields.buildSync, Mem.sub_fields, subOf, hh.2.1, Mem.mem_fields_signed o _ _ _ hh.2.1 hh.1, hf, hs]
theorem acas (o : Mem) : Statement (.acas o) := of_some rfl fun h => by
  have hh := Mem.hint_of_atomic (d := fun d => (d.vecOk o.fmt || d.scaOk) && d.wb) (fs := wideIntFmts) (f := o.fmt) h
  simp [Fields.build, Fields.buildSync, Mem.sub_fields, subOf, hh.2.1, Mem.mem_fields o _ _ _ hh.1]
theorem bara (g : Guard) (b : Int) (c : Src) (e : MExt) : Statement (.bara g b c e) := of_some rfl fun h => by
  have he : ∀ op, (extFields op g Dst.noDest (.imm b) c e).mext = some e := fun _ => mext_of rfl rfl (hint_of_bar (andL h))
  simp [Fields.build, Fields.buildSync, he]
  simp [ctlFields, plainFields, extFields, Fields.mk', Fields.guard, Fields.branchOff, Src.regIdx, Src.immVal]
theorem barw (g : Guard) (b : Int) (e : MExt) : Statement (.barw g b e) := of_some rfl fun h => by
  have he : ∀ op, (extFields op g Dst.noDest (.imm b) .zero e).mext = some e := fun _ => mext_of rfl rfl (hint_of_bar h)
  simp [Fields.build, Fields.buildSync, he]
  simp [ctlFields, plainFields, extFields, Fields.mk', Fields.guard, Fields.branchOff, Src.regIdx, Src.immVal]
theorem bars (g : Guard) (b : Int) (c : Src) (e : MExt) : Statement (.bars g b c e) := of_some rfl fun h => by
  have he : ∀ op, (extFields op g Dst.noDest (.imm b) c e).mext = some e := fun _ => mext_of rfl rfl (hint_of_bar (andL h))
  simp [Fields.build, Fields.buildSync, he]
  simp [ctlFields, plainFields, extFields, Fields.mk', Fields.guard, Fields.branchOff, Src.regIdx, Src.immVal]
theorem semwTk (o : Mem) : Statement (.semwTk o) := of_some rfl fun h => by
  have hh := Mem.hint_of_ok (andR h)
  have hu : o.uns = false := by simpa using andR (andL h)
  simp [Fields.build, Fields.buildSync, Mem.sub_fields, subOf, hu, Mem.mem_fields o _ _ _ hh]
theorem semwTake (o : Mem) : Statement (.semwTake o) := of_some rfl fun h => by
  have hh := Mem.hint_of_ok (andR h)
  have hu : o.uns = false := by simpa using andR (andL h)
  simp [Fields.build, Fields.buildSync, Mem.sub_fields, subOf, hu, Mem.mem_fields o _ _ _ hh]
theorem semp (o : Mem) : Statement (.semp o) := of_some rfl fun h => by
  have hh := Mem.hint_of_ok (andR h)
  have hu : o.uns = false := by simpa using andR (andL h)
  simp [Fields.build, Fields.buildSync, Mem.sub_fields, subOf, hu, Mem.mem_fields o _ _ _ hh]
theorem mwait (c : WCond) (o : Mem) : Statement (.mwait c o) := of_some rfl fun h => by
  have hh := Mem.hint_of_ok (andR h)
  have hu : o.uns = false := by simpa using andR (andL (andL h))
  simp [Fields.build, Fields.buildSync, Mem.sub_fields, subOf, hu, Mem.mem_fields o _ _ c.code_lt hh]
theorem fence (g : Guard) (e : MExt) : Statement (.fence g e) := of_some rfl fun h => by
  have he : ∀ op, (extFields op g Dst.noDest .zero .zero e).mext = some e := fun _ => mext_of rfl rfl (MExt.hint_of_ok (andR (andL (andL h))))
  simp [Fields.build, Fields.buildSync, he]
  simp [ctlFields, plainFields, extFields, Fields.mk', Fields.guard, Fields.branchOff, Src.regIdx, Src.immVal]
theorem cpy (o : Copy) : Statement (.cpy o) :=
  of_some rfl fun h => by simp [Fields.build, Fields.buildCopy, Copy.copy_fields o _ _ (Copy.hint_of_ok h)]
theorem cpys (scatter : Bool) (o : Copy) : Statement (.cpys scatter o) :=
  of_some rfl fun h => by cases scatter <;> simp [Fields.build, Fields.buildCopy, Copy.copy_fields o _ _ (Copy.hint_of_ok h)]
theorem cpyadd (o : Copy) : Statement (.cpyadd o) :=
  of_some rfl fun h => by simp [Fields.build, Fields.buildCopy, Copy.copy_fields o _ _ (Copy.hint_of_ok h)]
theorem cpybc (o : Copy) : Statement (.cpybc o) :=
  of_some rfl fun h => by simp [Fields.build, Fields.buildCopy, Copy.copy_fields o _ _ (Copy.hint_of_ok h)]
theorem plane (rz : Bool) (o : Copy) : Statement (.plane rz o) :=
  of_some rfl fun h => by cases rz <;> simp [Fields.build, Fields.buildCopy, Copy.copy_fields o _ _ (Copy.hint_of_ok h)]
theorem unplane (rz : Bool) (o : Copy) : Statement (.unplane rz o) :=
  of_some rfl fun h => by cases rz <;> simp [Fields.build, Fields.buildCopy, Copy.copy_fields o _ _ (Copy.hint_of_ok h)]
theorem cpyq (g : Guard) (d : Dst) (q : Src) : Statement (.cpyq g d q) := of_some rfl fun _ => by simp [Fields.build, Fields.buildCopy, ctlFields, plainFields, extFields, Fields.mk', Fields.guard, Fields.branchOff, Src.regIdx, Src.immVal, Fields.dst?]
theorem cpycan (g : Guard) (q : Src) : Statement (.cpycan g q) := of_some rfl fun _ => by simp [Fields.build, Fields.buildCopy, ctlFields, plainFields, extFields, Fields.mk', Fields.guard, Fields.branchOff, Src.regIdx, Src.immVal, Fields.dst?]
theorem cpyfill (o : Copy) : Statement (.cpyfill o) := of_some rfl fun h => by simp [Fields.build, Fields.buildCopy, Copy.copy_fields o _ _ (Copy.hint_of_ok (andL h))]
theorem mma (walk : Nat) (acc : Nat) (da : Int) (db : Int) (ks : Int) (nk : Nat) : Statement (.mma walk acc da db ks nk) := of_some rfl fun h => by
  have hn : nk < 16384 := of_decide_eq_true (andR h)
  have e : (0#14 ++ BitVec.ofNat 14 nk : BitVec 28).extractLsb' 0 14 = BitVec.ofNat 14 nk := ext_low _ _ _ rfl rfl
  simp [Fields.build, Fields.buildMatrix, ctlFields, plainFields, extFields, Fields.mk', Fields.guard, Fields.branchOff, Src.regIdx, Src.immVal, e, Nat.mod_eq_of_lt hn]
theorem mzero (acc : Nat) : Statement (.mzero acc) := of_some rfl fun _ => by simp [Fields.build, Fields.buildMatrix, ctlFields, plainFields, extFields, Fields.mk', Fields.guard, Fields.branchOff, Src.regIdx, Src.immVal, Fields.dst?]
theorem mstore (fmt : Fmt) (acc : Nat) (od : Int) : Statement (.mstore fmt acc od) := of_some rfl fun _ => by simp [Fields.build, Fields.buildMatrix, ctlFields, plainFields, extFields, Fields.mk', Fields.guard, Fields.branchOff, Src.regIdx, Src.immVal, Fields.dst?]
theorem msig (b : Int) : Statement (.msig b) := of_some rfl fun _ => by simp [Fields.build, Fields.buildMatrix, ctlFields, plainFields, extFields, Fields.mk', Fields.guard, Fields.branchOff, Src.regIdx, Src.immVal, Fields.dst?]
theorem mwaitb (b : Int) : Statement (.mwaitb b) := of_some rfl fun _ => by simp [Fields.build, Fields.buildMatrix, ctlFields, plainFields, extFields, Fields.mk', Fields.guard, Fields.branchOff, Src.regIdx, Src.immVal, Fields.dst?]
theorem mloop (c : Nat) (count : Int) (o : Int) : Statement (.mloop c count o) := of_some rfl fun _ => by simp [Fields.build, Fields.buildMatrix, ctlFields, plainFields, extFields, Fields.mk', Fields.guard, Fields.branchOff, Src.regIdx, Src.immVal, branch_back]
theorem mend : Statement .mend := of_some rfl fun _ => by simp [Fields.build, Fields.buildMatrix, ctlFields, plainFields, extFields, Fields.mk', Fields.guard, Fields.branchOff, Src.regIdx, Src.immVal, Fields.dst?]
theorem fork (g : Guard) : Statement (.fork g) := of_some rfl fun _ => by simp [Fields.build, Fields.buildMatrix, ctlFields, plainFields, extFields, Fields.mk', Fields.guard, Fields.branchOff, Src.regIdx, Src.immVal, Fields.dst?]
theorem mrd (g : Guard) (d : Dst) (n : Nat) : Statement (.mrd g d n) := of_some rfl fun _ => by simp [Fields.build, Fields.buildMatrix, ctlFields, plainFields, extFields, Fields.mk', Fields.guard, Fields.branchOff, Src.regIdx, Src.immVal, Fields.dst?]
theorem mwr (g : Guard) (n : Nat) (x : Src) : Statement (.mwr g n x) := of_some rfl fun _ => by simp [Fields.build, Fields.buildMatrix, ctlFields, plainFields, extFields, Fields.mk', Fields.guard, Fields.branchOff, Src.regIdx, Src.immVal, Fields.dst?]
theorem mtol (g : Guard) (fmt : Fmt) (x : Src) : Statement (.mtol g fmt x) := of_some rfl fun _ => by simp [Fields.build, Fields.buildMatrix, ctlFields, plainFields, extFields, Fields.mk', Fields.guard, Fields.branchOff, Src.regIdx, Src.immVal, Fields.dst?]
theorem mstat (g : Guard) (d : Dst) : Statement (.mstat g d) := of_some rfl fun _ => by simp [Fields.build, Fields.buildMatrix, ctlFields, plainFields, extFields, Fields.mk', Fields.guard, Fields.branchOff, Src.regIdx, Src.immVal, Fields.dst?]
theorem mstatClr (g : Guard) (d : Dst) : Statement (.mstatClr g d) := of_some rfl fun _ => by simp [Fields.build, Fields.buildMatrix, ctlFields, plainFields, extFields, Fields.mk', Fields.guard, Fields.branchOff, Src.regIdx, Src.immVal, Fields.dst?]
theorem mchk (g : Guard) (fmt : Fmt) (d : Dst) (acc : Nat) : Statement (.mchk g fmt d acc) := of_some rfl fun _ => by simp [Fields.build, Fields.buildMatrix, ctlFields, plainFields, extFields, Fields.mk', Fields.guard, Fields.branchOff, Src.regIdx, Src.immVal, Fields.dst?]
theorem mloc (g : Guard) (d : Dst) : Statement (.mloc g d) := of_some rfl fun _ => by simp [Fields.build, Fields.buildMatrix, ctlFields, plainFields, extFields, Fields.mk', Fields.guard, Fields.branchOff, Src.regIdx, Src.immVal, Fields.dst?]
theorem mfix (g : Guard) (x : Src) : Statement (.mfix g x) := of_some rfl fun _ => by simp [Fields.build, Fields.buildMatrix, ctlFields, plainFields, extFields, Fields.mk', Fields.guard, Fields.branchOff, Src.regIdx, Src.immVal, Fields.dst?]
theorem mretry (g : Guard) : Statement (.mretry g) := of_some rfl fun _ => by simp [Fields.build, Fields.buildMatrix, ctlFields, plainFields, extFields, Fields.mk', Fields.guard, Fields.branchOff, Src.regIdx, Src.immVal, Fields.dst?]
theorem mresume (g : Guard) : Statement (.mresume g) := of_some rfl fun _ => by simp [Fields.build, Fields.buildMatrix, ctlFields, plainFields, extFields, Fields.mk', Fields.guard, Fields.branchOff, Src.regIdx, Src.immVal, Fields.dst?]
theorem mresumeAbandon (g : Guard) : Statement (.mresumeAbandon g) := of_some rfl fun _ => by simp [Fields.build, Fields.buildMatrix, ctlFields, plainFields, extFields, Fields.mk', Fields.guard, Fields.branchOff, Src.regIdx, Src.immVal, Fields.dst?]
theorem coll (kind : CollKind) (uns : Bool) (g : Guard) (fmt : Fmt) (d : Dst) (a : Nat) (e : MExt) : Statement (.coll kind uns g fmt d a e) := of_some rfl fun h => by
  have he : ∀ s, (Fields.mk' 0xB0 s fmt g d (.reg a) .zero .zero e.ext (wideOff 16 e.off)).mext = some e :=
    fun _ => mext_of rfl rfl (MExt.hint_of_ok (andR (andL h)))
  cases uns <;> simp [Fields.build, Fields.buildSystem, he] <;> simp [Fields.mk', Fields.guard, Src.regIdx, subOf, kind.code_lt, Nat.mod_eq_of_lt]
theorem cwait (g : Guard) (d : Dst) (q : Src) (t : Src) (e : MExt) : Statement (.cwait g d q t e) := of_some rfl fun h => by
  have he : ∀ op, (extFields op g d q t e).mext = some e := fun _ => mext_of rfl rfl (MExt.hint_of_ok (andR (andL (andL h))))
  simp [Fields.build, Fields.buildSystem, he]
  simp [ctlFields, plainFields, extFields, Fields.mk', Fields.guard, Fields.branchOff, Src.regIdx, Src.immVal, Fields.dst?]
theorem viewq (g : Guard) (d : Dst) (k : Int) : Statement (.viewq g d k) := of_some rfl fun _ => by simp [Fields.build, Fields.buildSystem, ctlFields, plainFields, extFields, Fields.mk', Fields.guard, Fields.branchOff, Src.regIdx, Src.immVal, Fields.dst?]
theorem viewack (g : Guard) (d : Dst) (x : Src) : Statement (.viewack g d x) := of_some rfl fun _ => by simp [Fields.build, Fields.buildSystem, ctlFields, plainFields, extFields, Fields.mk', Fields.guard, Fields.branchOff, Src.regIdx, Src.immVal, Fields.dst?]
theorem viewjoin (g : Guard) (d : Dst) (t : Src) : Statement (.viewjoin g d t) := of_some rfl fun _ => by simp [Fields.build, Fields.buildSystem, ctlFields, plainFields, extFields, Fields.mk', Fields.guard, Fields.branchOff, Src.regIdx, Src.immVal, Fields.dst?]
theorem cabort (g : Guard) (q : Src) : Statement (.cabort g q) := of_some rfl fun _ => by simp [Fields.build, Fields.buildSystem, ctlFields, plainFields, extFields, Fields.mk', Fields.guard, Fields.branchOff, Src.regIdx, Src.immVal, Fields.dst?]
theorem ckpt (g : Guard) (d : Dst) : Statement (.ckpt g d) := of_some rfl fun _ => by simp [Fields.build, Fields.buildSystem, ctlFields, plainFields, extFields, Fields.mk', Fields.guard, Fields.branchOff, Src.regIdx, Src.immVal, Fields.dst?]
theorem ckptWait (g : Guard) (d : Dst) : Statement (.ckptWait g d) := of_some rfl fun _ => by simp [Fields.build, Fields.buildSystem, ctlFields, plainFields, extFields, Fields.mk', Fields.guard, Fields.branchOff, Src.regIdx, Src.immVal, Fields.dst?]
theorem ckq (g : Guard) (d : Dst) (k : Int) : Statement (.ckq g d k) := of_some rfl fun _ => by simp [Fields.build, Fields.buildSystem, ctlFields, plainFields, extFields, Fields.mk', Fields.guard, Fields.branchOff, Src.regIdx, Src.immVal, Fields.dst?]
theorem digest (g : Guard) (fmt : Fmt) (a : Src) (ch : Int) : Statement (.digest g fmt a ch) := of_some rfl fun _ => by simp [Fields.build, Fields.buildSystem, ctlFields, plainFields, extFields, Fields.mk', Fields.guard, Fields.branchOff, Src.regIdx, Src.immVal, Fields.dst?]
theorem detq (g : Guard) (d : Dst) : Statement (.detq g d) := of_some rfl fun _ => by simp [Fields.build, Fields.buildSystem, ctlFields, plainFields, extFields, Fields.mk', Fields.guard, Fields.branchOff, Src.regIdx, Src.immVal, Fields.dst?]
theorem brk (g : Guard) (n : Int) : Statement (.brk g n) := of_some rfl fun _ => by simp [Fields.build, Fields.buildSystem, ctlFields, plainFields, extFields, Fields.mk', Fields.guard, Fields.branchOff, Src.regIdx, Src.immVal, Fields.dst?]
theorem tmark (g : Guard) (x : Src) : Statement (.tmark g x) := of_some rfl fun _ => by simp [Fields.build, Fields.buildSystem, ctlFields, plainFields, extFields, Fields.mk', Fields.guard, Fields.branchOff, Src.regIdx, Src.immVal, Fields.dst?]
theorem rdclk (g : Guard) (d : Dst) : Statement (.rdclk g d) := of_some rfl fun _ => by simp [Fields.build, Fields.buildSystem, ctlFields, plainFields, extFields, Fields.mk', Fields.guard, Fields.branchOff, Src.regIdx, Src.immVal, Fields.dst?]
theorem launch (d : Dst) (a : Nat) (q : Src) (e : MExt) : Statement (.launch d a q e) := of_some rfl fun h => by
  have he : (Fields.mk' 0xC8 0 .none .always d (.reg a) q .zero e.ext (wideOff 16 e.off)).mext = some e :=
    mext_of rfl rfl (MExt.hint_of_ok (andR (andL h)))
  simp [Fields.build, Fields.buildSystem, he]
  simp [Fields.mk', Src.regIdx]
theorem ximm (sel : Nat) (payload : BitVec 32) : Statement (.ximm sel payload) := of_none rfl
theorem unassignedOpcode (w : IWord) : Statement (.unassignedOpcode w) := of_none rfl
theorem lineFetch (warp : Nat) (path : Nat) : Statement (.lineFetch warp path) := of_none rfl
theorem issueSetRotation (warp : Nat) : Statement (.issueSetRotation warp) := of_none rfl
theorem issueCycle (core : Nat) (quarter : Nat) : Statement (.issueCycle core quarter) := of_none rfl
theorem granuleGrant (core : Nat) (quarter : Nat) : Statement (.granuleGrant core quarter) := of_none rfl
theorem evictedWarpReturn (core : Nat) (quarter : Nat) : Statement (.evictedWarpReturn core quarter) := of_none rfl
theorem warpEviction (core : Nat) (quarter : Nat) : Statement (.warpEviction core quarter) := of_none rfl
theorem loadDataReturn (warp : Nat) (a : PathRead) : Statement (.loadDataReturn warp a) := of_none rfl
theorem storePerformed (a : StoreShow) : Statement (.storePerformed a) := of_none rfl
theorem atomicResultReturn (warp : Nat) (path : Nat) : Statement (.atomicResultReturn warp path) := of_none rfl
theorem lockkeeperRequest (warp : Nat) (path : Nat) : Statement (.lockkeeperRequest warp path) := of_none rfl
theorem semaphoreWatchEval (warp : Nat) (path : Nat) : Statement (.semaphoreWatchEval warp path) := of_none rfl
theorem mwaitReread (warp : Nat) (path : Nat) : Statement (.mwaitReread warp path) := of_none rfl
theorem mwaitTimeout (warp : Nat) (path : Nat) : Statement (.mwaitTimeout warp path) := of_none rfl
theorem cwaitTimeout (warp : Nat) (path : Nat) : Statement (.cwaitTimeout warp path) := of_none rfl
theorem viewjoinTimeout (warp : Nat) (path : Nat) : Statement (.viewjoinTimeout warp path) := of_none rfl
theorem acceptPacket (part : Nat) : Statement (.acceptPacket part) := of_none rfl
theorem packetReady (launch : Nat) : Statement (.packetReady launch) := of_none rfl
theorem placeCluster (part : Nat) : Statement (.placeCluster part) := of_none rfl
theorem clusterAgeThreshold (launch : Nat) : Statement (.clusterAgeThreshold launch) := of_none rfl
theorem blockRetire (block : Nat) : Statement (.blockRetire block) := of_none rfl
theorem launchComplete (launch : Nat) : Statement (.launchComplete launch) := of_none rfl
theorem replayRingRead (part : Nat) : Statement (.replayRingRead part) := of_none rfl
theorem arrayGrant (core : Nat) : Statement (.arrayGrant core) := of_none rfl
theorem mmaKstep (core : Nat) (upsets : List Upset) : Statement (.mmaKstep core upsets) := of_none rfl
theorem intervalRetryDone (core : Nat) : Statement (.intervalRetryDone core) := of_none rfl
theorem drainRetryDone (block : Nat) : Statement (.drainRetryDone block) := of_none rfl
theorem promotionHoldEnd (block : Nat) (tile : Nat) : Statement (.promotionHoldEnd block tile) := of_none rfl
theorem streamFaultDelivery (block : Nat) : Statement (.streamFaultDelivery block) := of_none rfl
theorem commandActive (block : Nat) (seq : Nat) : Statement (.commandActive block seq) := of_none rfl
theorem sectorMove (block : Nat) (a : MoveShow) : Statement (.sectorMove block a) := of_none rfl
theorem pageRequestRetry (block : Nat) (seq : Nat) : Statement (.pageRequestRetry block seq) := of_none rfl
theorem copyEnd (block : Nat) (seq : Nat) : Statement (.copyEnd block seq) := of_none rfl
theorem contextStopComplete (part : Nat) : Statement (.contextStopComplete part) := of_none rfl
theorem drainTimeout (part : Nat) : Statement (.drainTimeout part) := of_none rfl
theorem exchangeComplete (part : Nat) : Statement (.exchangeComplete part) := of_none rfl
theorem sliceLineLand (part : Nat) (slice : Nat) (line : Nat) : Statement (.sliceLineLand part slice line) := of_none rfl
theorem savecostUpdate (part : Nat) : Statement (.savecostUpdate part) := of_none rfl
theorem ckptPeriodExpiry (part : Nat) : Statement (.ckptPeriodExpiry part) := of_none rfl
theorem intervalClose (part : Nat) : Statement (.intervalClose part) := of_none rfl
theorem ckptRollbackNow (part : Nat) : Statement (.ckptRollbackNow part) := of_none rfl
theorem collStamp (comm : Nat) (k : Nat) : Statement (.collStamp comm k) := of_none rfl
theorem heartbeatSend : Statement .heartbeatSend := of_none rfl
theorem heartbeatTimeout (member : Nat) : Statement (.heartbeatTimeout member) := of_none rfl
theorem proposeTimeout : Statement .proposeTimeout := of_none rfl
theorem acceptTimeout (member : Nat) : Statement (.acceptTimeout member) := of_none rfl
theorem isolationRequestEnd (port : Nat) : Statement (.isolationRequestEnd port) := of_none rfl
theorem canalRetrainTimeout (port : Nat) : Statement (.canalRetrainTimeout port) := of_none rfl
theorem invalidationCompletion (pasid : Nat) (va : Nat) (size : Nat) : Statement (.invalidationCompletion pasid va size) := of_none rfl
theorem hwsemLapse : Statement .hwsemLapse := of_none rfl
theorem queueTail (part : Nat) (q : Nat) (v : Word) : Statement (.queueTail part q v) := of_none rfl
theorem queueCfg (part : Nat) (q : Nat) (v : Word) : Statement (.queueCfg part q v) := of_none rfl
theorem queueBase (part : Nat) (q : Nat) (v : Word) : Statement (.queueBase part q v) := of_none rfl
theorem queueErrctlClear (part : Nat) (q : Nat) (v : Word) : Statement (.queueErrctlClear part q v) := of_none rfl
theorem queueAbort (part : Nat) (q : Nat) (v : Word) : Statement (.queueAbort part q v) := of_none rfl
theorem registerWrite (port : Nat) (off : Nat) (v : Word) : Statement (.registerWrite port off v) := of_none rfl
theorem asderTranslationDone (launch : Nat) (r : Option Translated) : Statement (.asderTranslationDone launch r) := of_none rfl
theorem prgResponse (block : Nat) (seq : Nat) (code : PrgCode) : Statement (.prgResponse block seq code) := of_none rfl
theorem pageRequestEnable : Statement .pageRequestEnable := of_none rfl
theorem atsTranslationCompletion (a : AtsAnswer) : Statement (.atsTranslationCompletion a) := of_none rfl
theorem atsInvalidation (pasid : Nat) (va : Nat) (size : Nat) (r : Bool) (w : Bool) (x : Bool) (resident : Bool) : Statement (.atsInvalidation pasid va size r w x resident) := of_none rfl
theorem eccUncorrectableError (key : Nat) : Statement (.eccUncorrectableError key) := of_none rfl
theorem hostCompletionError (who : Outstanding) (marked : Bool) : Statement (.hostCompletionError who marked) := of_none rfl
theorem hostCompletionTimeout (who : Outstanding) : Statement (.hostCompletionTimeout who) := of_none rfl
theorem hostPostedWrite (port : Nat) (addr : Nat) (data : List Byte) : Statement (.hostPostedWrite port addr data) := of_none rfl
theorem hostRead (port : Nat) (addr : Nat) (len : Nat) : Statement (.hostRead port addr len) := of_none rfl
theorem canalRequest (member : Nat) (seq : Nat) (op : CanalOp) : Statement (.canalRequest member seq op) := of_none rfl
theorem writeAcknowledgement (n : Nat) : Statement (.writeAcknowledgement n) := of_none rfl
theorem crossDomainTimeout (who : Outstanding) : Statement (.crossDomainTimeout who) := of_none rfl
theorem heartbeat (member : Nat) : Statement (.heartbeat member) := of_none rfl
theorem suspect (sender : Nat) (view : Nat) (suspects : List Nat) : Statement (.suspect sender view suspects) := of_none rfl
theorem propose (sender : Nat) (view : Nat) (manifest : BitVec 1024) : Statement (.propose sender view manifest) := of_none rfl
theorem accept (sender : Nat) (view : Nat) (committed : List (Nat × Nat)) : Statement (.accept sender view committed) := of_none rfl
theorem refuse (sender : Nat) (view : Nat) (suspects : List Nat) : Statement (.refuse sender view suspects) := of_none rfl
theorem viewCommit (view : Nat) (manifest : BitVec 1024) (committed : List (Nat × Nat)) : Statement (.viewCommit view manifest committed) := of_none rfl
theorem joinMessage (member : Nat) : Statement (.joinMessage member) := of_none rfl
theorem viewAdmit (v : Word) : Statement (.viewAdmit v) := of_none rfl
theorem viewRemove (v : Word) : Statement (.viewRemove v) := of_none rfl
theorem partialSum (comm : Nat) (k : Nat) (view : Nat) (attempt : Nat) (contributors : List Nat) (data : List Byte) : Statement (.partialSum comm k view attempt contributors data) := of_none rfl
theorem ready (comm : Nat) (k : Nat) (sender : Nat) (view : Nat) : Statement (.ready comm k sender view) := of_none rfl
theorem collCommit (comm : Nat) (k : Nat) (view : Nat) : Statement (.collCommit comm k view) := of_none rfl
theorem abort (comm : Nat) (k : Nat) (view : Nat) : Statement (.abort comm k view) := of_none rfl
theorem flitReceive (link : Nat) (forward : Bool) (seq : Nat) (crcOk : Bool) : Statement (.flitReceive link forward seq crcOk) := of_none rfl
theorem flitAck (link : Nat) (forward : Bool) (seq : Nat) : Statement (.flitAck link forward seq) := of_none rfl
theorem flitNak (link : Nat) (forward : Bool) (seq : Nat) : Statement (.flitNak link forward seq) := of_none rfl
theorem retrainComplete (link : Nat) (failedForward : BitVec 64) (failedBack : BitVec 64) : Statement (.retrainComplete link failedForward failedBack) := of_none rfl
theorem d2dClear (link : Nat) (v : Word) : Statement (.d2dClear link v) := of_none rfl
theorem canalIsolate (port : Nat) (v : Word) : Statement (.canalIsolate port v) := of_none rfl
theorem canalRestore (port : Nat) (v : Word) : Statement (.canalRestore port v) := of_none rfl
theorem canalPortDown (port : Nat) : Statement (.canalPortDown port) := of_none rfl
theorem canalLinkUp (port : Nat) (peer : Nat) : Statement (.canalLinkUp port peer) := of_none rfl
theorem ctxPark (part : Nat) (v : Word) : Statement (.ctxPark part v) := of_none rfl
theorem ctxSave (part : Nat) (v : Word) : Statement (.ctxSave part v) := of_none rfl
theorem ctxRestore (part : Nat) (v : Word) : Statement (.ctxRestore part v) := of_none rfl
theorem ctxSwitch (part : Nat) (v : Word) : Statement (.ctxSwitch part v) := of_none rfl
theorem ctxTerminate (part : Nat) (v : Word) : Statement (.ctxTerminate part v) := of_none rfl
theorem ctxCreate (part : Nat) (v : Word) : Statement (.ctxCreate part v) := of_none rfl
theorem ckptCloseNow (part : Nat) : Statement (.ckptCloseNow part) := of_none rfl
theorem checkpointMessage (part : Nat) (m : CkptMsg) : Statement (.checkpointMessage part m) := of_none rfl
theorem parityBlock (part : Nat) (interval : Nat) (block : Nat) (data : List Byte) : Statement (.parityBlock part interval block data) := of_none rfl
theorem parityAck (part : Nat) (interval : Nat) : Statement (.parityAck part interval) := of_none rfl
theorem cxlDrainDone (part : Nat) (interval : Nat) : Statement (.cxlDrainDone part interval) := of_none rfl
theorem ringHeadWrite (part : Nat) (ring : Ring) (v : Word) : Statement (.ringHeadWrite part ring v) := of_none rfl
theorem ringBaseCfgWrite (part : Nat) (ring : Ring) (cfg : Bool) (v : Word) : Statement (.ringBaseCfgWrite part ring cfg v) := of_none rfl
theorem rplTail (part : Nat) (v : Word) : Statement (.rplTail part v) := of_none rfl
theorem rplCtlEnd (part : Nat) (v : Word) : Statement (.rplCtlEnd part v) := of_none rfl
theorem dbgHold (part : Nat) (v : Word) : Statement (.dbgHold part v) := of_none rfl
theorem dbgRelease (part : Nat) (v : Word) : Statement (.dbgRelease part v) := of_none rfl
theorem dbgReleaseAll (part : Nat) (v : Word) : Statement (.dbgReleaseAll part v) := of_none rfl
theorem counterRead (core : Nat) (quarter : Nat) : Statement (.counterRead core quarter) := of_none rfl
theorem frzN : Statement .frzN := of_none rfl
theorem ctlFreeze (port : Nat) (v : Word) : Statement (.ctlFreeze port v) := of_none rfl
theorem debugPortRead (addr : Nat) (len : Nat) : Statement (.debugPortRead addr len) := of_none rfl
theorem hwsemRead (port : Nat) : Statement (.hwsemRead port) := of_none rfl
theorem hwsemRelease (port : Nat) : Statement (.hwsemRelease port) := of_none rfl
theorem nonce : Statement .nonce := of_none rfl
theorem image (stage : Nat) (bytes : List Byte) : Statement (.image stage bytes) := of_none rfl
theorem transfer (bytes : List Byte) : Statement (.transfer bytes) := of_none rfl
theorem config (bytes : List Byte) : Statement (.config bytes) := of_none rfl
theorem attest (nonce : List Byte) : Statement (.attest nonce) := of_none rfl
theorem keys : Statement .keys := of_none rfl
theorem coldReset : Statement .coldReset := of_none rfl
theorem thermalThrottle (level : Nat) : Statement (.thermalThrottle level) := of_none rfl

end Sys2Proof.Laws.RoundTrip
end

