-- ==== Sys2Proof/Tests/Slice0.lean ====
section
/-! SUPPORT. Tests: words written out from the encoding tables, ill-formed terms, worked examples of the spec, and for every claim with
hypotheses a state and operands that meet them. Expected values come from the spec, not from the model. -/
namespace Sys2Proof.Tests

open Sys2Proof.Machine

set_option Elab.async false

/-! ### Helpers -/

/-- The machine about to run a word. -/
def at' (i : Instr) : State := State.reset.withFetchWord 96 (encode i).toNat

/-- Changes its warp. -/
def State.with0 (s : State) (f : Warp → Warp) : State := { s with warps := s.warps.adjust 0 f }
/-- Changes its block. -/
def State.block0 (s : State) (f : Block → Block) : State := { s with blocks := s.blocks.adjust 0 f }
/-- Changes its launch. -/
def State.launch0 (s : State) (f : Launch → Launch) : State := { s with launches := s.launches.adjust 0 f }
/-- Changes its partition. -/
def State.part0 (s : State) (f : Partition → Partition) : State := { s with parts := s.parts.adjust 0 f }
/-- Changes its path. -/
def State.path0 (s : State) (f : Path → Path) : State := State.with0 s fun w => w.setPath 0 (f (w.path 0))

/-- The state one step later, where the step answers one. -/
def after (s : State) : State := match step s with | .next t => t | _ => s
/-- The state an event leaves. -/
def does (i : Instr) (s : State) : State := match exec i s with | .next t => t | _ => s

/-- Its path's turn again. -/
def again (s : State) : State := { s with focus := some (.path 0 0 none) }

/-- What holds of warp 0. -/
def warpHas (s : State) (f : Warp → Bool) : Bool := (s.warps.get? 0).any f
/-- What holds of its path 0. -/
def pathHas (s : State) (f : Path → Bool) : Bool := warpHas s fun w => f (w.path 0)
/-- Lane l of vector register i. -/
def lane (s : State) (i l : Nat) : Option Nat := (s.warps.get? 0).map fun w => (laneOf (w.vreg i) l).toNat
/-- Scalar register i. -/
def sreg (s : State) (i : Nat) : Option Nat := (s.warps.get? 0).map fun w => (w.sreg i).toNat
/-- Predicate register i. -/
def preg (s : State) (i : Nat) : Option Nat := (s.warps.get? 0).map fun w => (w.preg i).toNat
/-- The lane flags of lane l. -/
def flagOf (s : State) (l : Nat) : Option Nat := (s.warps.get? 0).map fun w => (w.flag l).toNat
/-- Whether the warp takes this trap in the next step. It is put into a handler first, where a trap leaves its cause and subcode in the
frame's halt field and halts the warp (R455, R461), which costs less to evaluate than a whole frame. -/
def traps (s : State) (cause sub : Nat) : Bool :=
  let t := after (State.with0 s fun w => { w with inHandler := true })
  warpHas t (fun w => w.halted) && t.mem.bytes 0x4078 8 == leBytes 8 (0x10000 + 256 * sub + cause)
/-- Whether a warp in no handler has taken this trap, with its cause registers loaded; with no vector entry it is then halted (R461). -/
def trappedWith (s : State) (cause sub data : Nat) : Bool :=
  warpHas s fun w => w.halted && w.cause == BitVec.ofNat 64 (cause + 256 * sub) && w.cdata == BitVec.ofNat 64 data
/-- Whether its path is parked for a reason. -/
def parkedFor (s : State) (r : ParkReason) : Bool := pathHas s fun p => p.state == .parked r
/-- Whether its path stands at a PC, live and awaiting nothing. -/
def standsAt (s : State) (pc : Nat) : Bool := pathHas s fun p => p.state == .live && p.await.isNone && p.pc == BitVec.ofNat 64 pc

/-- Whether path 0 of warp 0 issues and its context has a property. -/
def ready (s : State) (f : Ctx → Bool) : Bool := s.focus == some (.path 0 0 none) && (s.ctx? 0 0 none).any f

theorem exists_ok {ε α : Type} {x : Except ε α} (h : x.isOk = true) : ∃ a, x = .ok a := by
  cases x with
  | ok a => exact ⟨a, rfl⟩
  | error e => cases h

/-- A state meets the hypotheses of a claim about the issuing path. -/
theorem issues_with {s : State} {f : Ctx → Bool} (h : ready s f = true) : ∃ c, Issues s c ∧ f c = true := by
  simp only [ready, Bool.and_eq_true, beq_iff_eq] at h
  obtain ⟨hf, ha⟩ := h
  cases hc : s.ctx? 0 0 none with
  | none => rw [hc] at ha; cases ha
  | some c =>
    rw [hc] at ha
    have h1 := hc
    simp only [State.ctx?, Option.filter_eq_some_iff] at h1
    obtain ⟨h2, h3, h4, -⟩ := ctxOf_eq_some h1.1
    exact ⟨c, ⟨by rw [h2, h3, h4]; exact hf, by rw [h2, h3, h4]; exact hc⟩, ha⟩

/-- The hypotheses of a claim about a lane instruction, and more. -/
theorem lane_ready {s : State} {g : Guard} {d : Dst} {df : Fmt} {srcs : List (Want × Src)} {f : Ctx → Bool}
    (h : ready s (fun c => (checkOperands c g d df srcs).isOk && (shadowCompare s c (c.act g)).isOk && f c) = true) :
    ∃ c t, LaneReady s c g d df srcs t ∧ f c = true := by
  obtain ⟨c, hi, hc⟩ := issues_with h
  simp only [Bool.and_eq_true] at hc
  obtain ⟨_, h1⟩ := exists_ok hc.1.1
  obtain ⟨t, h2⟩ := exists_ok hc.1.2
  exact ⟨c, t, ⟨hi, h1, h2⟩, hc.2⟩

/-- The same for an instruction that rounds. -/
theorem round_ready {s : State} {g : Guard} {d : Dst} {df : Fmt} {srcs : List (Want × Src)} {m : RMode} {f : Ctx → Bool}
    (h : ready s (fun c => (checkOperands c g d df srcs).isOk
      && (match srCount s c (c.act g) m with | .ok (u, _) => (shadowCompare u c (c.act g)).isOk | .error _ => false) && f c) = true) :
    ∃ c u n t, RoundReady s c g d df srcs m u n t ∧ f c = true := by
  obtain ⟨c, hi, hc⟩ := issues_with h
  simp only [Bool.and_eq_true] at hc
  obtain ⟨_, h1⟩ := exists_ok hc.1.1
  cases hr : srCount s c (c.act g) m with
  | error e => rw [hr] at hc; simp at hc
  | ok x =>
    rw [hr] at hc
    obtain ⟨t, h2⟩ := exists_ok hc.1.2
    exact ⟨c, x.1, x.2, t, ⟨hi, h1, hr, h2⟩, hc.2⟩

/-- The same for a scalar or address instruction. -/
theorem scalar_ready {s : State} {g : Guard} {d : Dst} {srcs : List (Want × Src)} {f : Ctx → Bool}
    (h : ready s (fun c => (checkOperands c g d .none srcs).isOk && f c) = true) : ∃ c, ScalarReady s c g d srcs ∧ f c = true := by
  obtain ⟨c, hi, hc⟩ := issues_with h
  simp only [Bool.and_eq_true] at hc
  obtain ⟨_, h1⟩ := exists_ok hc.1
  exact ⟨c, ⟨hi, h1⟩, hc.2⟩

def vd (i : Nat) : Dst := ⟨.vector, i, true⟩
def sd (i : Nat) : Dst := ⟨.scalar, i, true⟩
def pd (i : Nat) : Dst := ⟨.predicate, i, true⟩
def ad (i : Nat) : Dst := ⟨.address, i, true⟩
def p2 : Guard := ⟨2, false⟩
/-- Operands of a computing instruction under p0. -/
def op (d : Dst) (f : Fmt) (a b : Src) (c : Src := .zero) (uns : Bool := false) : Alu := ⟨.always, d, f, uns, a, b, c⟩
/-- Vector register i with the same 32 bits in every lane. -/
def Warp.fill (w : Warp) (i v : Nat) : Warp := w.setVreg i fun _ => some (BitVec.ofNat 32 v)
/-- An open address register. -/
def areg (pointer base limit : Nat) (perm : BitVec 4 := 3) : AReg :=
  ⟨BitVec.ofNat 64 pointer, BitVec.ofNat 64 base, BitVec.ofNat 64 limit, perm, none, none⟩
/-- 1, a quiet NaN and +∞ in f32. -/
def one32 : Nat := 0x3F800000
def nan32 : Nat := 0x7FC00000
def inf32 : Nat := 0x7F800000
/-- The placed launch with word k of its packet set. -/
def State.word0 (s : State) (k v : Nat) : State := State.launch0 s fun l => { l with words := l.words.set k (BitVec.ofNat 64 v) }
/-- The PC of the placed word and of the slots after it. -/
def pc0 : Nat := 0x100000

/-! ### Words written out from the encoding tables (R96 and each page's table) -/

theorem test_decode_nop : decodeTableWord 96 0xC000F000 = some (.nop .always) := by decide +kernel
-- R105, R166: extension -2, class none, predicate not p2, format 15, opcode 0x01.
theorem test_decode_br : decodeTableWord 96
    (0xFFFFFFE#28 ++ 0#12 ++ 0#12 ++ 0#12 ++ 0b110#3 ++ 0b0#1 ++ 0x00#8 ++ 0b1#1 ++ 0b010#3 ++ 0xF#4 ++ 0x0#4 ++ 0x01#8).toNat
    = some (.br ⟨2, true⟩ (-2)) := by decide +kernel
-- R167: sense in sub[2], flag in sub[1:0].
theorem test_decode_bre : decodeTableWord 96
    (0x0000005#28 ++ 0#12 ++ 0#12 ++ 9#12 ++ 0b110#3 ++ 0b0#1 ++ 0x00#8 ++ 0b0#1 ++ 0b000#3 ++ 0xF#4 ++ 0x7#4 ++ 0x02#8).toNat
    = some (.bre true 3 9 5) := by decide +kernel
theorem test_decode_sadd : decodeTableWord 96
    (0#28 ++ 0#12 ++ (0b11#2 ++ 0x3FF#10) ++ (0b00#2 ++ 7#10) ++ 0b001#3 ++ 0b1#1 ++ 0x05#8 ++ 0b0#1 ++ 0b000#3 ++ 0x1#4 ++ 0x0#4 ++ 0x10#8).toNat
    = some (.sadd (op (sd 5) .i64 (.reg 7) (.imm (-1)))) := by decide +kernel
-- R199: aset.lim, sub 2.
theorem test_decode_aset : decodeTableWord 96
    (0#28 ++ 0#12 ++ 20#12 ++ 3#12 ++ 0b010#3 ++ 0b1#1 ++ 0x04#8 ++ 0b0#1 ++ 0b001#3 ++ 0xF#4 ++ 0x2#4 ++ 0x1A#8).toNat
    = some (.aset .lim ⟨⟨1, false⟩, ad 4, 3, .reg 20, .zero⟩) := by decide +kernel
theorem test_decode_iadds_n8 : decodeTableWord 96
    (0#28 ++ 0#12 ++ (0b01#2 ++ 2#10) ++ (0b10#2 ++ 9#10) ++ 0b000#3 ++ 0b0#1 ++ 0x00#8 ++ 0b0#1 ++ 0b011#3 ++ 0x3#4 ++ 0x8#4 ++ 0x25#8).toNat
    = some (.iadds ⟨⟨3, false⟩, ⟨.vector, 0, false⟩, .i8, true, .bcast 9, .latch 3, .zero⟩) := by decide +kernel
theorem test_decode_lut3 : decodeTableWord 96
    (0x00000E8#28 ++ 3#12 ++ 2#12 ++ 1#12 ++ 0b000#3 ++ 0b1#1 ++ 0x04#8 ++ 0b0#1 ++ 0b000#3 ++ 0x0#4 ++ 0x0#4 ++ 0x2C#8).toNat
    = some (.lut3 0xE8 (op (vd 4) .i32 (.reg 1) (.reg 2) (.reg 3))) := by decide +kernel
-- R218: rounding mode rd, code 3, in sub.
theorem test_decode_ffma : decodeTableWord 96
    (0#28 ++ 6#12 ++ 4#12 ++ 2#12 ++ 0b000#3 ++ 0b1#1 ++ 0x08#8 ++ 0b0#1 ++ 0b000#3 ++ 0x5#4 ++ 0x3#4 ++ 0x43#8).toNat
    = some (.ffma .rd (op (vd 8) .f64 (.reg 2) (.reg 4) (.reg 6))) := by decide +kernel
-- R239: sat [10], jd [9:7], js [6:4], source format [3:0].
theorem test_decode_cvt : decodeTableWord 96
    ((0#17 ++ 0b1#1 ++ 0b001#3 ++ 0b000#3 ++ 0x4#4) ++ 0#12 ++ 0#12 ++ 2#12 ++ 0b000#3 ++ 0b1#1 ++ 0x03#8 ++ 0b0#1 ++ 0b000#3 ++ 0x7#4 ++ 0x0#4
      ++ 0x50#8).toNat
    = some (.cvt .rne ⟨true, 1, 0, .f32⟩ (op (vd 3) .f16 (.reg 2) .zero)) := by decide +kernel
theorem test_decode_lred : decodeTableWord 96
    (0x0000001#28 ++ 0#12 ++ 0#12 ++ 5#12 ++ 0b001#3 ++ 0b1#1 ++ 0x07#8 ++ 0b0#1 ++ 0b000#3 ++ 0x4#4 ++ 0x0#4 ++ 0x64#8).toNat
    = some (.lred .add .rz (op (sd 7) .f32 (.reg 5) .zero)) := by decide +kernel
-- R104: hint 1, order acq, mask 3, offset -8.
theorem test_decode_ld : decodeTableWord 96
    ((0b01#2 ++ 0b001#3 ++ 0b0000011#7 ++ 0xFFF8#16) ++ 0#12 ++ 12#12 ++ 3#12 ++ 0b000#3 ++ 0b1#1 ++ 0x0A#8 ++ 0b0#1 ++ 0b000#3 ++ 0x0#4 ++ 0x1#4
      ++ 0x70#8).toNat
    = some (.ld .offset ⟨.always, vd 10, .i32, false, 3, .reg 12, .zero, ⟨1, .acq, 3, -8⟩⟩) := by decide +kernel
theorem test_decode_atadd : decodeTableWord 96
    ((0b00#2 ++ 0b000#3 ++ 0b0000000#7 ++ 0x0010#16) ++ 9#12 ++ 8#12 ++ 4#12 ++ 0b110#3 ++ 0b0#1 ++ 0x00#8 ++ 0b0#1 ++ 0b001#3 ++ 0x0#4 ++ 0x0#4
      ++ 0x80#8).toNat
    = some (.atadd ⟨⟨1, false⟩, .noDest, .i32, false, 4, .reg 8, .reg 9, ⟨0, .rlx, 0, 16⟩⟩) := by decide +kernel
-- R371: sub 9 with format 15 is atfadd.rgn, with format 4 atfadd.f32.
theorem test_decode_atfadd_rgn : decodeTableWord 96
    (0#28 ++ 9#12 ++ 8#12 ++ 4#12 ++ 0b110#3 ++ 0b0#1 ++ 0x00#8 ++ 0b0#1 ++ 0b000#3 ++ 0xF#4 ++ 0x9#4 ++ 0x80#8).toNat
    = some (.atfaddRgn ⟨.always, .noDest, .none, false, 4, .reg 8, .reg 9, ⟨0, .rlx, 0, 0⟩⟩) := by decide +kernel
theorem test_decode_barw : decodeTableWord 96
    ((0b00#2 ++ 0b001#3 ++ 0b0000001#7 ++ 0#16) ++ 0#12 ++ 0#12 ++ (0b11#2 ++ 15#10) ++ 0b110#3 ++ 0b0#1 ++ 0x00#8 ++ 0b0#1 ++ 0b000#3 ++ 0xF#4
      ++ 0x0#4 ++ 0x83#8).toNat
    = some (.barw .always 15 ⟨0, .acq, 1, 0⟩) := by decide +kernel
theorem test_decode_cpy : decodeTableWord 96
    ((0b00#2 ++ 0b010#3 ++ 0b0000001#7 ++ 0#16) ++ 24#12 ++ 2#12 ++ 5#12 ++ 0b001#3 ++ 0b1#1 ++ 0x1E#8 ++ 0b0#1 ++ 0b000#3 ++ 0xF#4 ++ 0x0#4
      ++ 0x90#8).toNat
    = some (.cpy ⟨.always, sd 30, .none, 5, 2, 24, ⟨0, .rel, 1, 0⟩⟩) := by decide +kernel
-- The example word of R276, in full.
theorem test_decode_mma : decodeTableWord 96 0x0000008C00C05C049020D1A0 = some (.mma 1 2 4 5 0 8) := by decide +kernel
theorem test_decode_mrd : decodeTableWord 96
    (0#28 ++ 0#12 ++ 0#12 ++ 0x17#12 ++ 0b001#3 ++ 0b1#1 ++ 0x02#8 ++ 0b0#1 ++ 0b000#3 ++ 0xF#4 ++ 0x0#4 ++ 0xA8#8).toNat
    = some (.mrd .always (sd 2) 0x17) := by decide +kernel
theorem test_decode_coll : decodeTableWord 96
    ((0b00#2 ++ 0b010#3 ++ 0b0001000#7 ++ 0#16) ++ 0#12 ++ 0#12 ++ 6#12 ++ 0b001#3 ++ 0b1#1 ++ 0x03#8 ++ 0b0#1 ++ 0b000#3 ++ 0x4#4 ++ 0x1#4
      ++ 0xB0#8).toNat
    = some (.coll .reduceScatter false .always .f32 (sd 3) 6 ⟨0, .rel, 8, 0⟩) := by decide +kernel
theorem test_decode_digest : decodeTableWord 96
    (0#28 ++ 0#12 ++ (0b11#2 ++ 511#10) ++ 4#12 ++ 0b110#3 ++ 0b0#1 ++ 0x00#8 ++ 0b0#1 ++ 0b000#3 ++ 0xE#4 ++ 0x0#4 ++ 0xC2#8).toNat
    = some (.digest .always .b128 (.reg 4) 511) := by decide +kernel
theorem test_decode_ximm : decodeTableWord 96
    (0#32 ++ 0xDEADBEEF#32 ++ 0b110#3 ++ 0b0#1 ++ 0x00#8 ++ 0b0000#4 ++ 0xF#4 ++ 0x3#4 ++ 0xF0#8).toNat = some (.ximm 3 0xDEADBEEF) := by
  decide +kernel
theorem test_decode_unassigned : decodeTableWord 96 0xFF = some (.unassignedOpcode 0xFF) := by decide +kernel

/-- The refusal of a word. -/
def refusal (w : IWord) : Option Reject := match decode w with | .ok _ => none | .error r => some r

-- R97: an unused source that is not zero; a sub value no row has; R99 (d): write-back 0 with an index; R98: class 7.
theorem test_refuses_unused : refusal
    (0#28 ++ 0#12 ++ 1#12 ++ 0#12 ++ 0b110#3 ++ 0b0#1 ++ 0x00#8 ++ 0b0000#4 ++ 0xF#4 ++ 0x0#4 ++ 0x00#8) = some .unusedNotZero := by
  decide +kernel
theorem test_refuses_sub : refusal
    (0#28 ++ 0#12 ++ 2#12 ++ 1#12 ++ 0b001#3 ++ 0b1#1 ++ 0x05#8 ++ 0b0000#4 ++ 0x1#4 ++ 0x4#4 ++ 0x14#8) = some .noSuchVariant := by decide +kernel
theorem test_refuses_writeback : refusal
    (0#28 ++ 0#12 ++ 2#12 ++ 1#12 ++ 0b001#3 ++ 0b0#1 ++ 0x05#8 ++ 0b0000#4 ++ 0x1#4 ++ 0x0#4 ++ 0x10#8) = some .operandNotListed := by
  decide +kernel
theorem test_refuses_class : refusal
    (0#28 ++ 0#12 ++ 2#12 ++ 1#12 ++ 0b111#3 ++ 0b1#1 ++ 0x05#8 ++ 0b0000#4 ++ 0x1#4 ++ 0x0#4 ++ 0x10#8) = some .noSuchVariant := by decide +kernel
-- R107: selector 1 widens source 1 to 0x12345678 * 2^10 + 5; R108: a prefix over a register source is misused.
theorem test_governed : decodeGoverned 1 0x00048D15 (encode (.sadd (op (sd 5) .i64 (.reg 7) (.imm 0x278))))
    = .instr (.sadd (op (sd 5) .i64 (.reg 7) (.imm 0x12345678))) := by decide +kernel
theorem test_governed_misuse : decodeGoverned 0 1 (encode (.sadd (op (sd 5) .i64 (.reg 7) (.imm 1)))) = .misuse := by decide +kernel

/-! ### Each check of an operand refuses an ill-formed term (R97 to R104 and each page's table) -/

theorem test_wellFormed : (Instr.iadd (op (vd 3) .i32 (.reg 1) (.imm 511))).wellFormed = true := by decide +kernel
theorem test_illFormed_predicate : (Instr.nop ⟨8, false⟩).wellFormed = false := by decide +kernel
theorem test_illFormed_format : (Instr.iadd (op (vd 3) .f32 (.reg 1) (.reg 2))).wellFormed = false := by decide +kernel
theorem test_illFormed_signedness : (Instr.iadd (op (vd 3) .i32 (.reg 1) (.reg 2) .zero true)).wellFormed = false := by decide +kernel
theorem test_illFormed_class : (Instr.iadd (op (sd 3) .i32 (.reg 1) (.reg 2))).wellFormed = false := by decide +kernel
theorem test_illFormed_register : (Instr.iadd (op (vd 32) .i32 (.reg 1) (.reg 2))).wellFormed = false := by decide +kernel
theorem test_illFormed_odd_pair : (Instr.iadd (op (vd 2) .i64 (.reg 1) (.reg 4))).wellFormed = false := by decide +kernel
theorem test_illFormed_latch : (Instr.iadd (op (vd 3) .i32 (.latch 9) (.reg 2))).wellFormed = false := by decide +kernel
theorem test_illFormed_broadcast : (Instr.sadd (op (sd 3) .i64 (.bcast 1) (.reg 2))).wellFormed = false := by decide +kernel
theorem test_illFormed_immediate : (Instr.iadd (op (vd 3) .i32 (.reg 1) (.imm 512))).wellFormed = false := by decide +kernel
theorem test_illFormed_rest : (Instr.iadd (op (vd 3) .i32 (.reg 1) (.reg 2) (.reg 3))).wellFormed = false := by decide +kernel
theorem test_illFormed_writeback : (Instr.iadd (op ⟨.vector, 3, false⟩ .i32 (.reg 1) (.reg 2))).wellFormed = false := by decide +kernel
theorem test_illFormed_address : (Instr.aadv ⟨.always, ad 3, 16, .imm 4, .zero⟩).wellFormed = false := by decide +kernel
theorem test_illFormed_order : (Instr.ld .linear ⟨.always, vd 3, .i32, false, 2, .zero, .zero, ⟨0, .rel, 1, 0⟩⟩).wellFormed = false := by
  decide +kernel
theorem test_illFormed_mask : (Instr.ld .linear ⟨.always, vd 3, .i32, false, 2, .zero, .zero, ⟨0, .acq, 0, 0⟩⟩).wellFormed = false := by
  decide +kernel
theorem test_illFormed_offset : (Instr.ld .linear ⟨.always, vd 3, .i32, false, 2, .zero, .zero, ⟨0, .rlx, 0, 32768⟩⟩).wellFormed = false := by
  decide +kernel
theorem test_illFormed_quad : (Instr.ld .linear ⟨.always, vd 6, .b128, false, 2, .zero, .zero, ⟨0, .rlx, 0, 0⟩⟩).wellFormed = false := by
  decide +kernel
theorem test_illFormed_frame : (Instr.call 12 1).wellFormed = false := by decide +kernel
theorem test_illFormed_label : (Instr.mark 0).wellFormed = false := by decide +kernel
theorem test_illFormed_system : (Instr.rdsys .always (sd 1) 0x05).wellFormed = false := by decide +kernel
theorem test_illFormed_parameters : (Instr.cpyfill ⟨.always, sd 1, .none, 2, 0, 62, ⟨0, .rlx, 0, 0⟩⟩).wellFormed = false := by decide +kernel
theorem test_illFormed_tile : (Instr.mzero 8).wellFormed = false := by decide +kernel
theorem test_illFormed_conversion : (Instr.cvt .rne ⟨false, 2, 0, .f32⟩ (op (vd 3) .f16 (.reg 2) .zero)).wellFormed = false := by decide +kernel
theorem test_illFormed_segment : (Instr.lxch .pick 6 (op (vd 3) .i32 (.reg 2) (.reg 4))).wellFormed = false := by decide +kernel
theorem test_illFormed_event : (Instr.coldReset).wellFormed = false := by decide +kernel

/-! ### Completion, results, operand checks, shadow issue -/

/-- iadd.i32 v3, v1, 5. -/
def addOp : Alu := op (vd 3) .i32 (.reg 1) (.imm 5)

theorem witness_Completion : ∃ c, Issues (at' (.iadd addOp)) c ∧ (decide (c.pidx < c.w.paths.length) && decide (c.w.v.length = c.w.n)
    && decide (addOp.d.idx + spanOf .i32 ≤ c.w.n) && decide (5 < c.w.s.length) && decide (15 < c.w.a.length) && decide (7 < c.w.p.length)) = true :=
  issues_with (by decide +kernel)
-- R101: the result is the newest place; R95: the next slot.
theorem test_completion_place : pathHas (after (at' (.iadd addOp))) (fun p => p.pc == BitVec.ofNat 64 (pc0 + 1)
    && p.window == [some (.vector (List.replicate 32 5))]) = true := by decide +kernel
-- R99: write-back 0 makes a place and writes no register.
theorem test_window_only : let t := after (at' (.smov (op ⟨.scalar, 0, false⟩ .i64 (.imm (-3)) .zero)))
    sreg t 0 = some 0 ∧ pathHas t (fun p => p.window == [some (.scalar (BitVec.ofInt 64 (-3)))]) = true := by decide +kernel
-- R98: p0 discards writes.
theorem test_p0_discards : preg (after (at' (.pnot (op (pd 0) .none (.reg 0) .zero)))) 0 = some 0xFFFFFFFF := by decide +kernel

-- R102: latches without a place, and of another class, and a register above W.
theorem test_latch_empty : traps ((at' (.iadd (op (vd 3) .i32 (.latch 1) (.imm 5))))) 0x01 0x01 = true := by decide +kernel
theorem test_latch_none : traps ((State.path0 (at' (.iadd (op (vd 3) .i32 (.latch 1) (.imm 5)))) fun p =>
    { p with window := [some .none] })) 0x01 0x01 = true := by decide +kernel
theorem test_latch_class : traps ((State.path0 (at' (.iadd (op (vd 3) .i32 (.latch 1) (.imm 5)))) fun p =>
    { p with window := [some (.predicate 1)] })) 0x01 0x02 = true := by decide +kernel
theorem test_latch_scalar_in_vector : lane (after (State.path0 (at' (.iadd (op (vd 3) .i32 (.latch 1) (.imm 5)))) fun p =>
    { p with window := [some (.scalar 7)] })) 3 31 = some 12 := by decide +kernel
theorem test_register_outside : traps (State.with0 (at' (.iadd (op (vd 8) .i32 (.imm 1) (.imm 5)))) fun w => { w with n := 8 }) 0x15 0x00 = true := by decide +kernel
theorem test_register_inside : lane (after (State.with0 (at' (.iadd (op (vd 7) .i32 (.imm 1) (.imm 5)))) fun w => { w with n := 8 })) 7 0
    = some 6 := by decide +kernel
-- R103: no lane acts, so nothing is checked but the latches.
theorem test_no_lane_acts : standsAt (after (State.with0 (at' (.iadd { op (vd 8) .i32 (.imm 1) (.imm 5) with g := p2 })) fun w => { w with n := 8 }))
    (pc0 + 1) = true := by decide +kernel

/-- A state whose next compares find these lanes. -/
def upsetAt (i : Instr) (first second : LaneMask) : State :=
  { State.launch0 (at' i) fun l => { l with words := l.words.set 9 0x400004 } with upset := (first, second) }

theorem witness_ShadowIssue_off : (ready { at' (.iadd addOp) with upset := (1, 1) } fun c => !c.la.shadow) = true := by decide +kernel
theorem witness_ShadowIssue_corrected : ∃ c, Issues (upsetAt (.iadd addOp) 8 0) c ∧ (c.la.shadow
    && decide ((8 : LaneMask) &&& c.act addOp.g ≠ 0)) = true := issues_with (by decide +kernel)
theorem witness_ShadowIssue_trap : ∃ c, Issues (upsetAt (.iadd addOp) 9 8) c ∧ (c.la.shadow
    && decide ((9 : LaneMask) &&& c.act addOp.g ≠ 0) && decide ((8 : LaneMask) &&& c.act addOp.g ≠ 0)
    && (checkOperands c addOp.g addOp.d addOp.fmt (addOp.vecSrcs .i32 .i32 .i32)).isOk) = true := issues_with (by decide +kernel)
theorem test_shadow_corrects : let t := after (upsetAt (.iadd addOp) 8 0)
    lane t 3 3 = some 5 ∧ t.correctedCompute = [(0, 1)] ∧ t.upset = (0, 0) := by decide +kernel
theorem test_shadow_traps : traps ((upsetAt (.iadd addOp) 9 8)) 0x50 0x00 = true
 := by decide +kernel

/-! ### Taking a trap and returning -/

/-- A line of memory whose slot 0 is a `nop` that may be a target, at an address. -/
def State.line0 (s : State) (a : Nat) (w : IWord) : State := { s with mem := s.mem.write a (lineWith w) }
/-- A vector table entry. -/
def State.vector (s : State) (cause pc : Nat) : State := { s with mem := s.mem.write (0x2000 + 8 * (cause / 16)) (leBytes 8 pc) }
/-- The machine about to take trap 0x72 with a handler at line 0x180000. -/
def trapping : State :=
  State.line0 (State.vector (State.with0 (at' (.trap .always 9)) fun w => { w with s := w.s.set 5 0xABCD }) 0x72 0x180000) 0x180000
    (encode (.nop .always))

/-- The state before the trap, with its warp, block and partition. -/
theorem witness_TrapEntry : trapping.warps.get? 0 ≠ none ∧ trapping.blocks.get? 0 ≠ none ∧ trapping.parts.get? 0 ≠ none
    ∧ warpHas trapping (fun w => !w.inHandler && decide (0 < w.paths.length)) = true
    ∧ ({ trapping with focus := none }.rollsBack 0 (trapping.classOf 0) 0x72 9 []).isNone = true := by decide +kernel
/-- The frame, the vector entry and the handler's first line are usable. -/
theorem witness_TrapEntry_handler :
    (trapping.checkTarget ⟨0, 0⟩ 0x180000).isOk = true ∧ (trapping.readPlain ⟨0, 0⟩ 0x2038 8).toOption = some (leBytes 8 0x180000)
      ∧ (trapping.writeOwn 0 0 ⟨0, 0⟩ 0x4000 (zeros 8192)).isOk = true := by decide +kernel
-- R195, R458: the cause registers, the frame in a0, the handler's PC, the in-handler flag; R455: the frame's PC, and s5 at 0x1C0 + 8 * 5.
theorem test_trap_entry : (let t := after trapping
    warpHas t (fun w => w.cause == 0x972 && w.cdata == 0 && w.lmask == 0xFFFFFFFF && w.inHandler && !w.halted
      && (w.areg 0).pointer == 0x4000 && (w.areg 0).limit == 0x6000 && (w.path 0).pc == 0x180000 && (w.path 0).window == [])
    && t.mem.bytes 0x4000 8 == leBytes 8 pc0 && t.mem.bytes 0x41E8 8 == leBytes 8 0xABCD) = true := by decide +kernel
-- R461: without a usable entry, and inside a handler, the warp halts.
theorem test_trap_halts : traps ((at' (.trap .always 9))) 0x72 9 = true := by decide +kernel
theorem test_trap_in_handler : warpHas (after (State.with0 trapping fun w => { w with inHandler := true })) (fun w => w.halted) = true := by
  decide +kernel

/-- In its handler, about to return through a frame that holds a PC, the counts, an empty window and s5 (R455). -/
def returning : State :=
  let s := State.with0 (at' .eret) fun w => { w with inHandler := true }
  { s with mem := ((s.mem.write 0x4000 (leBytes 8 0x100042)).write 0x4040 ([32, 0, 0, 0] ++ List.replicate 8 0xFF)).write 0x41E8 (leBytes 8 0xABCD) }

theorem witness_TrapReturn : ∃ c, Issues returning c ∧ (c.w.inHandler && decide (c.w.frozen = []) && decide (c.pidx < c.w.paths.length)
    && (match returning.readPlain c.env 0x4000 8192 with
        | .ok bs => frameMatches c.w bs && frameAddressesOk bs && (checkPc (BitVec.ofNat 64 (fieldAt bs 0 8))).isOk | .error _ => false)) = true :=
  issues_with (by decide +kernel)
/-- The clauses of a frame that is refused: another count, and an address image whose pointer lies above its limit. -/
theorem witness_TrapReturn_refused :
    (ready { returning with mem := returning.mem.write 0x4040 [7, 0] } fun c =>
      match { returning with mem := returning.mem.write 0x4040 [7, 0] }.readPlain c.env 0x4000 8192 with
      | .ok bs => !frameMatches c.w bs | .error _ => false) = true
    ∧ (ready { returning with mem := returning.mem.write 0x43C0 (leBytes 8 1) } fun c =>
      match { returning with mem := returning.mem.write 0x43C0 (leBytes 8 1) }.readPlain c.env 0x4000 8192 with
      | .ok bs => frameMatches c.w bs && !frameAddressesOk bs | .error _ => false) = true := by decide +kernel
theorem test_eret : warpHas (after returning) (fun w => !w.inHandler && w.sreg 5 == 0xABCD && (w.path 0).pc == 0x100042) = true := by
  decide +kernel
theorem test_eret_outside : traps ((at' .eret)) 0x01 0x0B = true := by decide +kernel

/-- A warp whose frame comes back. -/
theorem witness_TrapFrameRoundTrip : warpHas trapping (fun w => decide (0 < w.paths.length) && decide (8 ≤ w.n) && decide (w.n ≤ 256)
    && decide (w.v.length = w.n) && decide (∀ x ∈ w.v, x.length = 32) && decide (w.s.length = 64) && decide (w.a.length = 16)
    && decide (w.p.length = 8) && decide (w.flags.length = 32) && decide (w.wbase < 2 ^ 32) && decide (w.sfloor < 2 ^ 32)
    && decide (w.cdepth < 2 ^ 16) && (List.range 16).all (fun i => (w.areg i).ordered && (w.areg i).stream.isNone)
    && (w.path 0).window.isEmpty) = true := by decide +kernel

/-! ### Control -/

theorem witness_NopHasNoEffect : ∃ c, Issues (at' (.nop .always)) c ∧ true = true := issues_with (by decide +kernel)
theorem test_nop : standsAt (after (at' (.nop ⟨2, true⟩))) (pc0 + 1) = true := by decide +kernel

-- The worked example of R95.
theorem test_branch_target : (branchTarget 0x12343 (-7)).toOption = some 0x12301 := by decide +kernel
theorem test_branch_below_zero : (match branchTarget 0x2 (-3) with | .error f => some f | .ok _ => none) = some (0x04, 1, BitVec.ofInt 64 (-1)) := by
  decide +kernel

/-- A second line whose first slot may be a target, five slots after the placed one. -/
def State.next5 (s : State) : State := State.line0 s 0x100040 (encode (.nop .always))
/-- An address register with flag e1. -/
def flagged : AReg := { areg 0 0 0 with stream := some ⟨0, 1, 0, [1, 0, 0, 0], [0, 0, 0, 0], [0, 0, 0, 0], 2, false⟩ }
def breAt (i : Instr) : State := State.next5 (State.with0 (at' i) fun w => w.setAreg 9 flagged)

theorem witness_BranchOnFlag : ∃ c, Issues (breAt (.bre false 1 9 5)) c ∧ ((branchTarget c.branchPc 5).toOption == some 0x100040
    && ((breAt (.bre false 1 9 5)).checkTarget c.env 0x100040).isOk) = true := issues_with (by decide +kernel)
theorem test_bre_taken : standsAt (after (breAt (.bre false 1 9 5))) 0x100040 = true := by decide +kernel
theorem test_bre_not_taken : standsAt (after (breAt (.bre true 1 9 5))) (pc0 + 1) = true := by decide +kernel
-- R167: without a stream all four flags are zero; slot 3 of the line is no target.
theorem test_bre_no_stream : standsAt (after (breAt (.bre true 0 8 5))) 0x100040 = true := by decide +kernel
theorem test_bre_bad_target : traps ((breAt (.bre false 1 9 3))) 0x03 0x00 = true := by decide +kernel

def jumpTo (v : Nat) : State := State.next5 (State.with0 (at' (.jmpx 14)) fun w => { w with s := w.s.set 14 (BitVec.ofNat 64 v) })
theorem witness_IndirectJump : ∃ c, Issues (jumpTo 0x100040) c ∧ (decide (c.pidx < c.w.paths.length) && (checkPc (c.w.sreg 14)).isOk
    && ((jumpTo 0x100040).checkTarget c.env (c.w.sreg 14)).isOk) = true := issues_with (by decide +kernel)
theorem test_jmpx : standsAt (after (jumpTo 0x100040)) 0x100040 = true := by decide +kernel
-- R94: slot 5 names no slot; R91: slot 4 is no target.
theorem test_jmpx_slot : traps ((jumpTo 0x100045)) 0x04 0x00 = true ∧ traps ((jumpTo 0x100044)) 0x03 0x00 = true := by decide +kernel

/-- Lanes 0 to 15 pass p2. -/
def branching (g : Guard) (o : Int) (m : LaneMask := 0xFFFF) : State := State.next5 (State.with0 (at' (.br g o)) fun w => w.setPreg 2 m)
/-- Paths 1 to 15 in a state. -/
def fillPaths (s : State) (st : PathState) : State :=
  State.with0 s fun w => { w with paths := w.paths.take 1 ++ List.replicate 15 { Path.free with state := st } }
theorem witness_BranchAndSplit : ∃ c, Issues (branching p2 5) c ∧ (decide (c.w.paths.length = 16) && decide (c.pidx < 16)
    && decide (c.act p2 ≠ 0) && decide (c.p.mask &&& ~~~c.act p2 ≠ 0) && (branchTarget c.branchPc 5).toOption == some 0x100040
    && ((branching p2 5).checkTarget c.env 0x100040).isOk && decide ((c.w.path 1).state = .free)
    && (getJoin c.env (c.act p2) c.p.entry (branching p2 5, c.w)).isOk) = true := issues_with (by decide +kernel)
/-- No lane passes; every lane passes; no entry is free. -/
theorem witness_BranchAndSplit_cases : (ready (branching p2 5 0) fun c => decide (c.act p2 = 0)) = true
    ∧ (ready (branching .always 5) fun c => decide (c.p.mask &&& ~~~c.act .always = 0)) = true
    ∧ (ready (fillPaths (branching p2 5) .waitingGroup) fun c => (List.range 15).all fun i => (c.w.path (i + 1)).state == .waitingGroup) = true
    ∧ (ready (fillPaths (branching p2 5) (.parked .fence)) fun c => (List.range 15).all fun i => (c.w.path (i + 1)).state != .free) = true := by
  decide +kernel
theorem test_br_splits : let t := after (branching p2 5)
    warpHas t (fun w => (w.path 0).mask == 0xFFFF0000 && (w.path 0).pc == BitVec.ofNat 64 (pc0 + 1) && (w.path 1).mask == 0xFFFF
      && (w.path 1).pc == 0x100040 && !(w.path 1).inSet && (w.joins.get? 0).any fun j => j.out == 2) = true := by decide +kernel
theorem test_br_whole : standsAt (after (branching .always 5)) 0x100040 = true ∧ standsAt (after (branching p2 5 0)) (pc0 + 1) = true := by
  decide +kernel
theorem test_br_no_entry : traps ((fillPaths (branching p2 5) .heldRemainder)) 0x71 0x04 = true
    ∧ parkedFor (after (fillPaths (branching p2 5) (.parked .fence))) .pathTable = true := by decide +kernel

/-- The path's entry is a mark with this rejoin PC and count. -/
def marked (i : Instr) (rejoin out : Nat) (group : Option Nat) : State :=
  State.with0 (at' i) fun w => { w with
    joins := [(0, ⟨.root, 0, 0, 1, none, none⟩), (1, ⟨.mark, BitVec.ofNat 64 rejoin, 0, out, group, none⟩)]
    paths := ({ w.path 0 with entry := 1, mask := 0xFF } :: { Path.free with state := .waitingGroup, mask := 0xFF00, entry := 1 } :: w.paths.drop 2) }
theorem witness_MarkAndJoin : ∃ c, Issues (at' (.mark 5)) c ∧ ((branchTarget c.branchPc 5).isOk && decide (c.w.joins.length < 32)
    && decide (c.w.jstk.toNat + 16 * (c.w.joins.length + c.w.jspilled.length + 1) ≤ c.w.jstklim.toNat)) = true := issues_with (by decide +kernel)
theorem witness_MarkAndJoin_join : ∃ c, Issues (marked .join pc0 1 (some 1)) c ∧ (decide (c.w.paths.length = 16)
    && (match c.w.joins.get? c.p.entry with
        | some j => j.kind == .mark && j.rejoin == c.p.pc && j.out == 1 && j.parent != c.p.entry && (c.w.joins.get? j.parent).isSome && j.group == some 1
        | none => false)) = true := issues_with (by decide +kernel)
theorem test_mark : warpHas (after (at' (.mark 5))) (fun w => (w.path 0).entry == 1
    && w.joins.get? 1 == some ⟨.mark, 0x100040, 0, 1, none, none⟩) = true := by decide +kernel
theorem test_join_last : warpHas (after (marked .join pc0 1 (some 1))) (fun w => (w.path 1).state == .live && (w.path 1).mask == 0xFFFF
    && (w.path 1).pc == BitVec.ofNat 64 (pc0 + 1) && (w.path 1).entry == 0 && (w.path 0).state == .free && (w.joins.get? 1).isNone) = true := by
  decide +kernel
theorem test_join_waits : warpHas (after (marked .join pc0 2 none)) (fun w => (w.path 0).state == .waitingGroup
    && (w.joins.get? 1).any fun j => j.group == some 0 && j.out == 1) = true := by decide +kernel
theorem test_join_joins_group : warpHas (after (marked .join pc0 2 (some 1))) (fun w => (w.path 0).state == .free && (w.path 1).mask == 0xFFFF) = true := by
  decide +kernel
theorem test_join_elsewhere : traps ((marked .join (pc0 + 1) 1 none)) 0x01 0x08 = true := by decide +kernel

def calling (i : Instr) (n : Nat) : State := State.next5 (State.with0 (at' i) fun w => { w with n := n, v := List.replicate n (List.replicate 32 0) })
theorem witness_CallAndReturn : ∃ c, Issues (calling (.call 16 5) 64) c ∧ (decide (16 ≤ min 32 c.w.n) && (branchTarget c.branchPc 5).toOption == some 0x100040
    && ((calling (.call 16 5) 64).checkTarget c.env 0x100040).isOk && decide (c.w.joins.length < 32) && decide (c.w.rets.length < 16)
    && decide (c.w.wbase + 16 + min 32 c.w.n - c.w.sfloor ≤ c.w.n)
    && decide (c.w.jstk.toNat + 16 * (c.w.joins.length + c.w.jspilled.length + 1) ≤ c.w.jstklim.toNat)) = true := issues_with (by decide +kernel)
theorem test_call : warpHas (after (calling (.call 16 5) 64)) (fun w => w.wbase == 16 && w.rets == [⟨BitVec.ofNat 64 (pc0 + 1), 16, 1⟩]
    && (w.path 0).pc == 0x100040 && w.calls == [1] && (w.joins.get? 1).any fun j => j.kind == .call) = true := by decide +kernel
theorem test_call_above_W : traps (calling (.call 16 5) 8) 0x15 0x02 = true := by decide +kernel
/-- One call deep. -/
def called (kind : JoinKind) : State := State.with0 (calling .ret 64) fun w => { w with
  wbase := 16, rets := [⟨0x100003, 16, 1⟩], calls := [1]
  joins := [(0, ⟨.root, 0, 0, 1, none, none⟩), (1, ⟨kind, 0x100003, 0, 1, none, none⟩)]
  paths := { w.path 0 with entry := 1 } :: w.paths.drop 1 }
theorem witness_CallAndReturn_ret : ∃ c, Issues (called .call) c ∧ (match c.w.rets, c.w.joins.get? c.p.entry with
    | r :: _, some j => j.kind == .call && j.out == 1 && j.group.isNone && j.held.isNone && decide (c.w.sfloor + r.f ≤ c.w.wbase)
        && j.parent != c.p.entry && (c.w.joins.get? j.parent).any fun p => p.kind != .callx
    | _, _ => false) = true := issues_with (by decide +kernel)
theorem test_ret : warpHas (after (called .call)) (fun w => w.wbase == 0 && w.rets == [] && (w.path 0).pc == 0x100003 && (w.path 0).entry == 0) = true := by
  decide +kernel
theorem test_ret_refused : traps ((called .mark)) 0x01 0x08 = true ∧ traps ((at' .ret)) 0x01 0x09 = true := by decide +kernel

/-- The worked example of R172, its two targets in v6:v7 and its lines at 0x40040 and 0x40080 (slot 3 a target). -/
def callxAt : State :=
  let s := State.with0 (at' (.callx p2 16 6)) fun w =>
    ({ w with n := 64, v := List.replicate 64 (List.replicate 32 0) }.setVreg 6 fun l => some (if l < 8 then 0x40083 else 0x40040)).setPreg 2 0xFFFF
  let s := State.line0 s 0x40040 (encode (.nop .always))
  -- slot 3 of the other line: a target bit in slot 3, so bit 3 of the line word and of its parity.
  { s with mem := s.mem.write 0x40080 (zeros 60 ++ leBytes 4 (0x0208 * 2 ^ 16 + 0x0208)) }
theorem witness_CallAndReturn_callx : ∃ c, Issues callxAt c ∧ (decide (c.act p2 &&& c.w.present ≠ 0) && decide (6 + 1 < min 32 c.w.n)
    && (callxAt.checkTarget c.env 0x40040).isOk && decide ((c.w.path 1).state = .free) && decide ((c.w.path 2).state = .free)
    && (c.w.joins.get? c.p.entry).any (fun j => j.kind == .root) && decide (c.w.joins.length + 1 < 32)
    && decide (c.w.wbase + 16 + min 32 c.w.n - c.w.sfloor ≤ c.w.n)) = true := issues_with (by decide +kernel)
-- Step 1 of the example: lanes 8 to 15 enter 0x40040, lanes 0 to 7 are held, lanes 16 to 31 wait.
theorem test_callx : warpHas (after callxAt) (fun w => w.wbase == 16 && (w.path 0).mask == 0xFF00 && (w.path 0).pc == 0x40040
    && w.paths.any (fun p => p.state == .heldRemainder && p.mask == 0xFF && p.pc == BitVec.ofNat 64 pc0)
    && w.paths.any (fun p => p.state == .waitingGroup && p.mask == 0xFFFF0000) && w.joins.any fun j => j.2.kind == .callx && j.2.out == 2) = true := by
  decide +kernel
theorem test_callx_nobody : standsAt (after (State.with0 callxAt fun w => w.setPreg 2 0)) (pc0 + 1) = true := by decide +kernel
theorem test_callx_outside : traps (State.with0 callxAt fun w => { w with n := 7 }) 0x15 0x00 = true := by decide +kernel

theorem witness_Allocation : ∃ c, Issues (at' (.grow (.imm 40))) c ∧ (decide (c.w.n = 32) && (at' (.grow (.imm 40))).growServed 0 1
    && decide (c.w.sfloor ≤ c.w.wbase) && decide (c.w.wbase + min 32 c.w.n - c.w.sfloor ≤ c.w.n)) = true := issues_with (by decide +kernel)
/-- A quarter whose granules are all in use. -/
def full : State :=
  let s := at' (.grow (.imm 40))
  { s with warps := s.warps ++ [(1, { (s.warps.get? 0).getD (Warp.fresh placedPart placedLaunch 0 0 0 0) with n := 992 })] }
theorem witness_Allocation_parks : (ready full fun c => !full.growServed (c.wid / 16) 1) = true := by decide +kernel
theorem test_grow : warpHas (after (at' (.grow (.imm 40)))) (fun w => w.n == 40 && w.v.length == 40) = true
    ∧ parkedFor (after full) .grow = true := by decide +kernel
theorem test_grow_range : traps (at' (.grow (.reg 3))) 0x15 0x04 = true ∧ traps (at' (.grow (.imm 31))) 0x15 0x04 = true
    ∧ standsAt (after (at' (.grow (.imm 32)))) (pc0 + 1) = true := by decide +kernel
theorem test_shrink : warpHas (after (State.with0 (at' (.shrink (.imm 8))) fun w => Warp.fill w 7 9)) (fun w => w.n == 8 && w.v.length == 8
    && laneOf (w.vreg 7) 3 == 9) = true ∧ traps (at' (.shrink (.imm 33))) 0x15 0x04 = true := by decide +kernel
/-- Path 1 stands outside the issue set. -/
def outsider (i : Instr) : State :=
  State.with0 (at' i) fun w => w.setPath 1 { Path.free with state := .live, mask := 0, pc := 0x100040 }
theorem witness_Yield : (ready (outsider (.yield .always)) fun c => c.once .always && (c.w.path 1).state == .live && !(c.w.path 1).inSet) = true
    ∧ (ready (outsider (.yield p2)) fun c => !c.once p2) = true := by decide +kernel
theorem test_yield : pathHas (after (outsider (.yield .always))) (fun p => !p.inSet) = true
    ∧ pathHas (after (outsider (.yield p2))) (fun p => p.inSet) = true := by decide +kernel
def exiting (m : LaneMask) : State := State.with0 (at' (.exit p2)) fun w => w.setPreg 2 m
theorem witness_Exit : (ready (exiting 0) fun c => c.act p2 == 0) = true ∧ (ready (exiting 0xFF) fun c => c.act p2 != 0) = true
    ∧ (ready (exiting 0xFFFFFFFF) fun c => (c.w.joins.get? c.p.entry).any (fun j => j.kind == .root && j.out == 1 && j.group.isNone && j.held.isNone)
        && ((exiting 0xFFFFFFFF).deserted c.bid c.wid c.w).isNone) = true := by decide +kernel
theorem test_exit : pathHas (after (exiting 0xFF)) (fun p => p.mask == 0xFFFFFF00) = true
    ∧ ((after (exiting 0xFFFFFFFF)).warps.get? 0).isNone = true := by decide +kernel

theorem witness_SoftwareTraps : (ready (at' (.trap .always 255)) fun c => c.once .always) = true ∧ (ready (at' (.trap p2 255)) fun c => !c.once p2) = true := by
  decide +kernel
theorem test_trap : traps ((at' (.trap .always 255))) 0x72 255 = true ∧ standsAt (after (at' (.trap p2 255))) (pc0 + 1) = true := by decide +kernel
-- R110, R111: the reserved ranges at their ends.
theorem test_unassigned : traps ((at' (.unassignedOpcode 0xD0))) 0x02 0x00 = true ∧ traps ((at' (.unassignedOpcode 0xEF))) 0x02 0x00 = true
    ∧ traps ((at' (.unassignedOpcode 0xFF))) 0x01 0x06 = true ∧ traps ((at' (.unassignedOpcode 0xFE))) 0x01 0x05 = true
    ∧ traps ((at' (.unassignedOpcode 0xCF))) 0x01 0x05 = true := by decide +kernel

/-! ### Vector and scalar integer instructions -/

/-- The placed machine with v2:v3, v4:v5 and v6:v7 holding three values in every lane. -/
def vecAt (a b c : Nat) : State := State.with0 (at' (.nop .always)) fun w =>
  [(2, a), (3, a / 2 ^ 32), (4, b), (5, b / 2 ^ 32), (6, c), (7, c / 2 ^ 32)].foldl (fun w x => Warp.fill w x.1 x.2) w
/-- What an instruction on them leaves in v8:v9, in lane 17. -/
def vec (k : Alu → Instr) (f : Fmt) (a b : Nat) (c : Nat := 0) (uns : Bool := false) : Option Nat :=
  let t := does (k (op (vd 8) f (.reg 2) (.reg 4) (.reg 6) uns)) (vecAt a b c)
  (lane t 8 17).bind fun lo => (lane t 9 17).map fun hi => lo + 2 ^ 32 * hi

theorem witness_VectorInteger : ∃ c t, LaneReady (vecAt 1 2 3) c .always (vd 8) .i32
    ((op (vd 8) .i32 (.reg 2) (.reg 4) (.reg 6)).vecSrcs .i32 .i32 .i32) t ∧ true = true := lane_ready (by decide +kernel)

-- R184, R185: sums wrap, products keep the low bits, imulh the high ones.
theorem test_iadd : vec .iadd .i32 0xFFFFFFFF 2 = some 1 ∧ vec .iadd .i8 0x7F8010F0 0x01FF7F20 = some 0x807F8F10 := by decide +kernel
theorem test_isub : vec .isub .i64 0 1 = some 0xFFFFFFFFFFFFFFFF ∧ vec .isub .i16 0x00010000 0x00020001 = some 0xFFFFFFFF := by decide +kernel
theorem test_imul : vec .imul .i32 0x10001 0x10001 = some 0x20001 ∧ vec .imul .i8 0xFF020304 0xFF030201 = some 0x01060604 := by decide +kernel
theorem test_imad : vec .imad .i32 0x10000 0x10000 7 = some 7 := by decide +kernel
theorem test_imulh : vec .imulh .i32 0xFFFFFFFF 2 = some 0xFFFFFFFF ∧ vec .imulh .i32 0xFFFFFFFF 2 0 true = some 1 := by decide +kernel
-- The worked example of R185.
theorem test_iadds : vec .iadds .i8 0x7F8010F0 0x01FF7F20 = some 0x7F807F10 ∧ vec .iadds .i8 0x7F8010F0 0x01FF7F20 0 true = some 0x80FF8FFF := by
  decide +kernel
theorem test_isubs : vec .isubs .i32 0x80000000 1 = some 0x80000000 ∧ vec .isubs .i32 0 1 0 true = some 0 := by decide +kernel
theorem test_imin : vec .imin .i32 0xFFFFFFFF 1 = some 0xFFFFFFFF ∧ vec .imin .i32 0xFFFFFFFF 1 0 true = some 1 := by decide +kernel
theorem test_imax : vec .imax .i32 0xFFFFFFFF 1 = some 1 ∧ vec .imax .i32 0xFFFFFFFF 1 0 true = some 0xFFFFFFFF := by decide +kernel
theorem test_iabs : vec .iabs .i32 0x80000000 0 = some 0x80000000 ∧ vec .iabs .i16 0xFFFF0001 0 = some 0x00010001 := by decide +kernel
theorem test_ineg : vec .ineg .i32 1 0 = some 0xFFFFFFFF := by decide +kernel
theorem test_iabsd : vec .iabsd .i32 0x80000000 0x7FFFFFFF = some 0xFFFFFFFF := by decide +kernel
-- R185: shift amounts are taken modulo the element width.
theorem test_shifts : vec .shl .i32 1 33 = some 2 ∧ vec .shr .i32 0x80000000 31 = some 1 ∧ vec .sar .i32 0x80000000 31 = some 0xFFFFFFFF := by
  decide +kernel
theorem test_irot : vec (.irot false) .i32 0x80000001 4 = some 0x18 ∧ vec (.irot true) .i32 0x80000001 4 = some 0x18000000 := by decide +kernel
theorem test_popc : vec .popc .i16 0xFFFF0101 0 = some 0x00100002 := by decide +kernel
theorem test_clz : vec .clz .i32 0 0 = some 32 ∧ vec .clz .i32 1 0 = some 31 := by decide +kernel
theorem test_ctz : vec .ctz .i32 0 0 = some 32 ∧ vec .ctz .i32 8 0 = some 3 := by decide +kernel
theorem test_brev : vec .brev .i32 0x00000003 0 = some 0xC0000000 := by decide +kernel
theorem test_logic : vec .and .i32 12 10 = some 8 ∧ vec .or .i32 12 10 = some 14 ∧ vec .xor .i32 12 10 = some 6 ∧ vec .andn .i32 12 10 = some 4
    ∧ vec .orn .i32 12 10 = some 0xFFFFFFFD ∧ vec .xnor .i32 12 10 = some 0xFFFFFFF9 ∧ vec .not .i32 0 0 = some 0xFFFFFFFF := by decide +kernel
theorem test_imov : vec .imov .i64 0x123456789ABCDEF0 0 = some 0x123456789ABCDEF0 := by decide +kernel
-- R187: 0xE8 is the majority.
theorem test_lut3 : vec (.lut3 0xE8) .i32 0b1100 0b1010 0b0110 = some 0b1110 := by decide +kernel
-- The worked example of R186; an empty field; an insertion cut at the element's end.
theorem test_bfx : vec .bfx .i32 0xC0000000 0x41C = some 0xFFFFFFFC ∧ vec .bfx .i32 0xC0000000 0x41C 0 true = some 0xC
    ∧ vec .bfx .i32 0xFFFFFFFF 0x420 = some 0 := by decide +kernel
theorem test_bfi : vec .bfi .i32 0 0xFF 0x81C = some 0xF0000000 ∧ vec .bfi .i32 7 0xFF 0 = some 7 := by decide +kernel
theorem test_idot4 : vec .idot4 .i32 0xFF020304 0x01010101 10 = some 18 ∧ vec .idot4 .i32 0xFF020304 0x01010101 10 true = some 274 := by
  decide +kernel
-- R188: 300 into element 2 of v8, wrapped and limited.
theorem test_icvt : vec (.icvt .wrap .i32 0 2) .i8 300 0 = some 0x002C0000 ∧ vec (.icvt .signed .i32 0 2) .i8 300 0 = some 0x007F0000
    ∧ vec (.icvt .unsigned .i32 0 0) .i8 0xFFFFFFFF 0 = some 0 := by decide +kernel
theorem witness_Icvt : ∃ c t, LaneReady (vecAt 1 2 3) c .always (vd 8) .i8 [(.vec .i32, .reg 2), (.vec .i32, .zero), (.vec .i32, .zero)] t
    ∧ decide (2 < elemCount .i8) = true := lane_ready (by decide +kernel)
theorem witness_Icmp : ∃ c t, LaneReady (vecAt 1 2 3) c p2 (pd 4) .i64 [(.vec .i64, .reg 2), (.vec .i64, .reg 4)] t ∧ true = true :=
  lane_ready (by decide +kernel)
theorem test_icmp : (let t := does (.icmp .lt (op (pd 4) .i64 (.reg 2) (.reg 4))) (vecAt 0xFFFFFFFFFFFFFFFF 0 0)
    preg t 4) = some 0xFFFFFFFF ∧ preg (does (.icmp .lt (op (pd 4) .i64 (.reg 2) (.reg 4) .zero true)) (vecAt 0xFFFFFFFFFFFFFFFF 0 0)) 4 = some 0 := by
  decide +kernel
theorem witness_Isel : ∃ c t, LaneReady (vecAt 1 2 3) c .always (vd 8) .i32 [(.vec .i32, .reg 2), (.vec .i32, .reg 4), (.pred, .reg 1)] t
    ∧ true = true := lane_ready (by decide +kernel)
theorem test_isel : let t := does (.isel (op (vd 8) .i32 (.reg 2) (.reg 4) (.reg 1))) (State.with0 (vecAt 1 2 3) fun w => w.setPreg 1 0x10)
    lane t 8 4 = some 1 ∧ lane t 8 5 = some 2 := by decide +kernel
-- R189: the base and the index add without wrapping; the last register of the window, and one past it.
theorem witness_RegisterMoves : ∃ c t, LaneReady (vecAt 21 10 0) c .always (vd 8) .i32 [(.vec .i32, .reg 10), (.vec .i32, .reg 2)] t
    ∧ (decide (10 + 21 + 1 ≤ c.w.width) && decide (c.w.v.length = c.w.n)) = true := lane_ready (by decide +kernel)
theorem witness_RegisterMoves_outside : ∃ c t, LaneReady (vecAt 22 10 0) c .always (vd 8) .i32 [(.vec .i32, .reg 10), (.vec .i32, .reg 2)] t
    ∧ (decide (c.w.width < 10 + 22 + 1) && decide (c.w.present ≠ 0)) = true := lane_ready (by decide +kernel)
theorem test_vmovx_read : vec (fun o => .vmovx false { o with b := .imm 2 }) .i32 5 77 = some 77 := by decide +kernel
theorem test_vmovx_write : vec (fun o => .vmovx true { o with b := .imm 1 }) .i32 5 0 = some (5 * 2 ^ 32)
    ∧ traps (at' (.vmovx true (op (vd 8) .i32 (.reg 2) (.imm 24)))) 0x15 0x01 = true := by decide +kernel

/-- What a scalar instruction leaves in s8, from s2, s4 and s6. -/
def sca (k : Alu → Instr) (f : Fmt) (a b : Nat) (c : Nat := 0) (uns : Bool := false) : Option Nat :=
  sreg (does (k (op (sd 8) f (.reg 2) (.reg 4) (.reg 6) uns)) (State.with0 (at' (.nop .always)) fun w =>
    { w with s := ((w.s.set 2 (BitVec.ofNat 64 a)).set 4 (BitVec.ofNat 64 b)).set 6 (BitVec.ofNat 64 c) })) 8

theorem witness_Scalar : ∃ c, ScalarReady (at' (.nop .always)) c .always (sd 8) (op (sd 8) .i64 (.reg 2) (.reg 4) (.reg 6)).scaSrcs ∧ true = true :=
  scalar_ready (by decide +kernel)
-- R190: a 32-bit result is sign extended, or zero extended for .n.
theorem test_sadd : sca .sadd .i32 0x7FFFFFFF 1 = some 0xFFFFFFFF80000000 ∧ sca .sadd .i32 0x7FFFFFFF 1 0 true = some 0x80000000 := by decide +kernel
theorem test_ssub : sca .ssub .i64 0 1 = some 0xFFFFFFFFFFFFFFFF := by decide +kernel
theorem test_smul : sca .smul .i64 0x100000001 0x100000001 = some 0x200000001 := by decide +kernel
theorem test_smulh : sca .smulh .i64 0xFFFFFFFFFFFFFFFF 2 = some 0xFFFFFFFFFFFFFFFF ∧ sca .smulh .i64 0xFFFFFFFFFFFFFFFF 2 0 true = some 1 := by
  decide +kernel
theorem test_smad : sca .smad .i32 3 4 5 = some 17 := by decide +kernel
theorem test_scalar_logic : sca .sand .i64 12 10 = some 8 ∧ sca .sor .i64 12 10 = some 14 ∧ sca .sxor .i64 12 10 = some 6
    ∧ sca .sandn .i64 12 10 = some 4 := by decide +kernel
theorem test_scalar_shifts : sca .sshl .i32 1 31 = some 0xFFFFFFFF80000000 ∧ sca .sshr .i64 (2 ^ 63) 64 = some (2 ^ 63)
    ∧ sca .ssar .i32 0x80000000 4 = some 0xFFFFFFFFF8000000 ∧ sca .srot .i32 0x80000001 1 0 true = some 3 := by decide +kernel
theorem test_smov : sca .smov .i32 0x80000000 0 = some 0xFFFFFFFF80000000 := by decide +kernel
theorem test_ssel : sca .ssel .i64 1 2 0 = some 2 ∧ sca .ssel .i64 1 2 9 = some 1 := by decide +kernel
theorem test_scalar_counts : sca .spopc .i64 0xFF 0 = some 8 ∧ sca .sclz .i32 0 0 = some 32 ∧ sca .sctz .i64 0 0 = some 64
    ∧ sca .sbrev .i64 1 0 = some (2 ^ 63) := by decide +kernel
-- R192: truncation, the remainder's sign, division by zero, the most negative number by -1.
theorem test_sdiv : sca .sdiv .i64 (2 ^ 64 - 7) 2 = some (2 ^ 64 - 3) ∧ sca .sdiv .i64 5 0 = some (2 ^ 64 - 1)
    ∧ sca .sdiv .i64 (2 ^ 63) (2 ^ 64 - 1) = some (2 ^ 63) ∧ sca .sdiv .i64 (2 ^ 64 - 7) 2 0 true = some (2 ^ 63 - 4) := by decide +kernel
theorem test_srem : sca .srem .i64 (2 ^ 64 - 7) 2 = some (2 ^ 64 - 1) ∧ sca .srem .i64 5 0 = some 5 ∧ sca .srem .i64 (2 ^ 63) (2 ^ 64 - 1) = some 0
    ∧ sca .srem .i64 7 4 0 true = some 3 := by decide +kernel
-- R193: the lanes that act get the result, the others keep their bits; p0 is not written.
theorem test_scmp : preg (does (.scmp .ge { op (pd 3) .i64 (.imm 1) (.imm 0) with g := p2 }) (State.with0 (at' (.nop .always)) fun w =>
    (w.setPreg 2 0xF0).setPreg 3 0x1)) 3 = some 0xF1 ∧ preg (does (.scmp .lt (op (pd 0) .i64 (.imm 1) (.imm 0))) (at' (.nop .always))) 0
    = some 0xFFFFFFFF := by decide +kernel

theorem witness_SystemRegisters : (ready (at' (.rdsys .always (sd 1) 0x24)) fun c => ((at' (.rdsys .always (sd 1) 0x24)).parts.get? c.env.part).isSome
    && decide (0 < c.blk.sramLen) && decide (0 < c.la.gx) && decide (0 < c.la.gy) && decide (c.blk.linear = 0)) = true := by decide +kernel
theorem witness_SystemRegisters_write : ∃ c, ScalarReady (at' (.wrsys .always ⟨.system, 0x18, true⟩ (.imm 64))) c .always ⟨.system, 0x18, true⟩
    [(.sca, .imm 64)] ∧ (c.once .always && !c.w.areaInUse 0x18) = true := scalar_ready (by decide +kernel)
/-- The other clauses: an area in use; no lane acts. -/
theorem witness_SystemRegisters_else : (ready (State.with0 (at' (.nop .always)) fun w => { w with sfloor := 1 }) fun c => c.w.areaInUse 0x18) = true
    ∧ (ready (at' (.nop .always)) fun c => !c.once p2) = true := by decide +kernel
def sysRead (n : Nat) : Option Nat := sreg (after (at' (.rdsys .always (sd 1) n))) 1
-- The placed launch: 32 registers, one block of one warp, 64 lines of SRAM from line 0 of core 0 (R195).
theorem test_rdsys : sysRead 0x20 = some (32 * 2 ^ 16 + 32) ∧ sysRead 0x10 = some (2 ^ 8) ∧ sysRead 0x14 = some 64 ∧ sysRead 0x12 = some 0x7E0000000000
    ∧ sysRead 0x13 = some 0x7F0000000000 ∧ sysRead 0x00 = some 0x4000 ∧ sysRead 0x0E = some 0x0001000100000001 := by decide +kernel
theorem test_wrsys : warpHas (after (at' (.wrsys .always ⟨.system, 0x18, true⟩ (.imm 64)))) (fun w => w.spill == 64) = true
    ∧ traps (at' (.wrsys .always ⟨.system, 0x18, true⟩ (.imm 8))) 0x10 0x0B = true
    ∧ traps (at' (.wrsys .always ⟨.system, 0x1E, true⟩ (.imm 64))) 0x11 0x09 = true
    ∧ traps (at' (.wrsys .always ⟨.system, 0x08, true⟩ (.imm 64))) 0x11 0x09 = true
    ∧ traps (State.with0 (at' (.wrsys .always ⟨.system, 0x19, true⟩ (.imm 64))) fun w => { w with sfloor := 1 }) 0x11 0x0A = true := by
  decide +kernel


/-! ### Address registers and streams -/

/-- The placed machine with address register 2 and scalars from 1 on. -/
def addrAt (a : AReg) (x : List Nat) : State := State.with0 (at' (.nop .always)) fun w =>
  { w with a := w.a.set 2 a, s := (List.range x.length).foldl (fun v i => v.set (i + 1) (BitVec.ofNat 64 (nth x i 0))) w.s }
/-- Address register 5 after an instruction on address register 2 and scalars 1 and 2. -/
def adr (k : AddrOp → Instr) (a : AReg) (x : List Nat) : Option AReg :=
  ((does (k ⟨.always, ad 5, 2, .reg 1, .reg 2⟩) (addrAt a x)).warps.get? 0).map fun w => w.areg 5
/-- Whether that instruction traps. -/
def adrTraps (k : AddrOp → Instr) (a : AReg) (x : List Nat) (cause sub : Nat) : Bool :=
  let t := does (k ⟨.always, ad 5, 2, .reg 1, .reg 2⟩) (State.with0 (addrAt a x) fun w => { w with inHandler := true })
  warpHas t (fun w => w.halted) && t.mem.bytes 0x4078 8 == leBytes 8 (0x10000 + 256 * sub + cause)
/-- The stream of the worked example of R206, at its start. -/
def stream0 : Stream := ⟨0x10000000, 2, 2, [3, 2, 0, 0], [4, 64, 0, 0], [0, 0, 0, 0], 0, false⟩
/-- The register it is bound to. -/
def bound0 : AReg := { areg 0x10000000 0x10000000 0x10000100 with stream := some stream0 }
/-- Its descriptor. -/
def descr0 : List Nat := [0x12, 0x0000000200000003, 0, 4, 64, 0, 0, 0]

theorem witness_AddressRegisterWrites : ∃ c, ScalarReady (addrAt (areg 64 0 128) [128, 2 ^ 64 - 129]) c .always (ad 5) [(.sca, .reg 1), (.sca, .reg 2)]
    ∧ (c.once .always && decide ((c.w.areg 2).stream = none) && decide ((c.sca (.reg 1)).toNat + (c.sca (.reg 2)).toNat = 2 ^ 64 - 1)) = true :=
  scalar_ready (by decide +kernel)
theorem witness_AddressRegisterWrites_above : ∃ c, ScalarReady (addrAt (areg 64 0 128) [128, 2 ^ 64 - 128]) c .always (ad 5)
    [(.sca, .reg 1), (.sca, .reg 2)] ∧ (c.once .always && decide ((c.sca (.reg 1)).toNat + (c.sca (.reg 2)).toNat = 2 ^ 64)) = true :=
  scalar_ready (by decide +kernel)
theorem witness_AddressRegisterWrites_stream : ∃ c, ScalarReady (addrAt bound0 [4]) c .always (ad 5) [(.sca, .reg 1), (.sca, .reg 2)]
    ∧ (c.once .always && (c.w.areg 2).stream.isSome) = true := scalar_ready (by decide +kernel)
-- R200: limit itself is in reach, one more is not; x + y of 2^64; perm alone changes a bound register.
theorem test_aset : adr (.aset .ptr) (areg 64 0 128) [128] = some (areg 128 0 128) ∧ adr (.aset .rgn) (areg 64 0 128) [256, 64] = some (areg 256 256 320)
    ∧ adr (.aset .perm) bound0 [0x1F] = some { bound0 with perm := 0xF } := by decide +kernel
theorem test_aset_traps : adrTraps (.aset .ptr) (areg 64 0 128) [129] 0x10 0x08 = true ∧ adrTraps (.aset .base) (areg 64 0 128) [65] 0x10 0x08 = true
    ∧ adrTraps (.aset .rgn) (areg 0 0 0) [2 ^ 63, 2 ^ 63] 0x10 0x08 = true ∧ adrTraps (.aset .lim) bound0 [2 ^ 40] 0x11 0x08 = true := by decide +kernel
-- R201: the displacement is signed and exact.
theorem test_aadv : adr .aadv (areg 64 0 128) [2 ^ 64 - 64] = some (areg 0 0 128) ∧ adr .aadv (areg 64 0 128) [64] = some (areg 128 0 128)
    ∧ adrTraps .aadv (areg 64 0 128) [65] 0x10 0x08 = true ∧ adrTraps .aadv bound0 [0] 0x11 0x08 = true := by decide +kernel
theorem test_aunbind : adr .aunbind bound0 [] = some { bound0 with stream := none } := by decide +kernel

/-- `abind` reads the descriptor from s1: an accepted one, a refused one, and a register without rd. -/
theorem witness_StreamBinding :
    (ready (addrAt (areg 0x10000000 0x10000000 0x10000100) descr0) fun c => c.once .always && (c.w.areg 2).perm.getLsbD 0) = true
    ∧ (ready (addrAt (areg 0x10000002 0x10000000 0x10000100) descr0) fun c => (c.w.areg 2).perm.getLsbD 0) = true
    ∧ (ready (addrAt (areg 0 0 0 2) descr0) fun c => !(c.w.areg 2).perm.getLsbD 0) = true := by decide +kernel
theorem test_abind : adr .abind (areg 0x10000000 0x10000000 0x10000100) descr0 = some bound0
    ∧ adrTraps .abind (areg 0x10000002 0x10000000 0x10000100) descr0 0x10 0x0A = true
    ∧ adrTraps .abind (areg 0x10000000 0 0x10000100) [0x12, 0x0000000200000003, 1, 4, 64, 0, 0, 0] 0x10 0x0A = true
    ∧ adrTraps .abind (areg 0x10000000 0 0x10000100 2) descr0 0x11 0x0B = true := by decide +kernel

/-- A bound register; one with a cached run; an `atrn` under which no lane acts. -/
theorem witness_AddressRegisterReads :
    (ready (addrAt { bound0 with run := some ⟨0x10000000, 0x10200000, .hbm, 0⟩ } []) fun c =>
      (c.w.areg 2).stream == some stream0 && (c.w.areg 2).run.isSome && c.once .always) = true
    ∧ (ready (addrAt (areg 0 0 0) []) fun c => (c.w.areg 2).stream.isNone && (c.w.areg 2).run.isNone && !c.once p2) = true := by decide +kernel
def aget (k : AGetSel) : Option Nat :=
  let a : AReg := { bound0 with stream := some { stream0 with e := 3, done := true }, run := some ⟨0x10000000, 0x10200000, .hbm, 0⟩ }
  sreg (does (.aget k ⟨.always, sd 9, 2, .zero, .zero⟩) (addrAt a [])) 9
-- R202: element size 4, two dimensions, done and two flags.
theorem test_aget : aget .ptr = some 0x10000000 ∧ aget .lim = some 0x10000100 ∧ aget .perm = some 0x13 ∧ aget .runhi = some 0x10200000
    ∧ aget .strm = some (2 * 128 + 32 + 16 + 3) ∧ aget .org = some 0x10000000 := by decide +kernel
-- R203: no page is resident, so the cached run goes; no trap.
theorem test_atrn : ((does (.atrn ⟨.always, .noDest, 2, .zero, .zero⟩) (addrAt { bound0 with run := some ⟨0, 64, .hbm, 0⟩ } [])).warps.get? 0).map
    (fun w => w.areg 2) = some bound0 := by decide +kernel

-- The walk of R206: pointer and flags after each of the six reads.
theorem test_stream_walk : ((List.range 6).map fun k => (fun a : AReg => (a.pointer.toNat, (a.stream.map fun t => (t.e.toNat, t.done)).getD (0, false)))
    (Nat.repeat AReg.advanced (k + 1) bound0)) = [(0x10000004, 0, false), (0x10000008, 0, false), (0x10000040, 1, false), (0x10000044, 0, false),
      (0x10000048, 0, false), (0x10000000, 15, true)] := by decide +kernel
theorem witness_StreamAdvance : bound0.stream = some stream0 ∧ stream0.dims ≤ 4 ∧ stream0.i.length = 4
    ∧ (∀ d, d < stream0.dims → nth stream0.i d 0 < nth stream0.n d 0) := by decide +kernel

/-! ### Floating point and conversion -/

/-- The flags `vec` leaves in lane 17. -/
def vecFlags (k : Alu → Instr) (f : Fmt) (a b : Nat) (c : Nat := 0) : Option Nat :=
  flagOf (does (k (op (vd 8) f (.reg 2) (.reg 4) (.reg 6))) (vecAt a b c)) 17

theorem witness_FloatResults : ∃ c u n t, RoundReady (vecAt one32 nan32 0) c .always (vd 8) .f32
    ((op (vd 8) .f32 (.reg 2) (.reg 4) (.reg 6)).vecSrcs .f32 .f32 .f32) .rs u n t ∧ (c.w.present != 0) = true := round_ready (by decide +kernel)
theorem witness_FloatResults_scale : ∃ c u n t, RoundReady (vecAt one32 3 0) c .always (vd 8) .f16
    ((op (vd 8) .f16 (.reg 2) (.reg 4) (.reg 6)).vecSrcs .f16 (scaleFmt .f16) .i32) .rne u n t ∧ true = true := round_ready (by decide +kernel)
theorem witness_FloatResults_dot : ∃ c u n t, RoundReady (vecAt one32 3 0) c .always (vd 8) .f32
    ((op (vd 8) .f32 (.reg 2) (.reg 4) (.reg 6)).vecSrcs .bf16 .bf16 .f32) .ru u n t ∧ true = true := round_ready (by decide +kernel)
/-- Operands of its exact clauses: finite ones, a divisor and a radicand that are not zero, scales at both ends, an infinity and a zero. -/
theorem witness_FloatResults_exact : ((fspec .f32).decode one32).isNan = false ∧ ((fspec .f32).decode one32).isInf = false
    ∧ ((fspec .f32).decode one32).isZero = false ∧ ((fspec .f32).decode one32).neg = false ∧ ((fspec .f32).decode 0x80000000).isZero = true
    ∧ (fspec .f32).decode inf32 = .inf false ∧ ((fspec .f32).decode inf32).isSnan = false ∧ (-5000 : Int) ≤ -5000 ∧ (5000 : Int) ≤ 5000 := by
  decide +kernel
-- 1 + 2 = 3; ∞ - ∞; the two elements of bf16; 1.5 · 2 and 2 · 3; sums of two zeros (R219, R233).
theorem test_fadd : vec (.fadd .rne) .f32 one32 0x40000000 = some 0x40400000 ∧ vec (.fadd .rne) .f32 0 0x80000000 = some 0
    ∧ vec (.fadd .rd) .f32 0 0x80000000 = some 0x80000000 ∧ vecFlags (.fadd .rne) .f32 inf32 0xFF800000 = some 16 := by decide +kernel
theorem test_fsub : vec (.fsub .rne) .f64 0x3FF0000000000000 0x4000000000000000 = some 0xBFF0000000000000
    ∧ vec (.fsub .rne) .f32 inf32 inf32 = some nan32 := by decide +kernel
theorem test_fmul : vec (.fmul .rne) .bf16 0x3FC04000 0x40004040 = some 0x404040C0 ∧ vec (.fmul .rz) .f32 0x7F000000 0x7F000000 = some 0x7F7FFFFF
    ∧ vecFlags (.fmul .rz) .f32 0x7F000000 0x7F000000 = some 5 := by decide +kernel
-- (1 + 2^-23)^2 - (1 + 2^-22) = 2^-46, which two roundings would lose.
theorem test_ffma : vec (.ffma .rne) .f32 0x3F800001 0x3F800001 0xBF800002 = some 0x28800000
    ∧ vecFlags (.ffma .rne) .f32 0 inf32 one32 = some 16 := by decide +kernel
theorem test_fsqrt : vec (.fsqrt .rne) .f32 0x40800000 0 = some 0x40000000 ∧ vec (.fsqrt .rne) .f32 0x80000000 0 = some 0x80000000
    ∧ vec (.fsqrt .ru) .f32 0x40000000 0 = some 0x3FB504F4 ∧ vecFlags (.fsqrt .rne) .f32 0xBF800000 0 = some 16 := by decide +kernel
theorem test_fdiv : vec (.fdiv .rne) .f32 one32 0x40400000 = some 0x3EAAAAAB ∧ vec (.fdiv .rne) .f32 one32 0x80000000 = some 0xFF800000
    ∧ vecFlags (.fdiv .rne) .f32 one32 0 = some 8 ∧ vecFlags (.fdiv .rne) .f32 0 0 = some 16 := by decide +kernel
theorem test_fexp2 : vec (.fexp2 .rne) .f32 0x40400000 0 = some 0x41000000 ∧ vec (.fexp2 .rne) .f32 0xFF800000 0 = some 0
    ∧ vec (.fexp2 .rne) .f32 0x3F000000 0 = some 0x3FB504F3 := by decide +kernel
theorem test_flog2 : vec (.flog2 .rne) .f32 0x41000000 0 = some 0x40400000 ∧ vec (.flog2 .rne) .f32 0x80000000 0 = some 0xFF800000
    ∧ vecFlags (.flog2 .rne) .f32 0 0 = some 8 := by decide +kernel
theorem test_fscale : vec (.fscale .rne) .f32 one32 0xFFFFFFFD = some 0x3E000000 ∧ vec (.fscale .rne) .f16 0x3C003C00 0x0001FFFF = some 0x40003800 := by
  decide +kernel
-- 1 · 2 + 3 · 1 + 1 = 6 in bf16 pairs.
theorem test_fdot2 : vec (.fdot2 .rne ⟨false, 0, 0, .bf16⟩) .f32 0x40403F80 0x3F804000 one32 = some 0x40C00000
    ∧ vecFlags (.fdot2 .rne ⟨false, 0, 0, .f16⟩) .f32 0x7C00 0 0 = some 16 := by decide +kernel
-- R222: with the flush bit (word 9 bit 7) a subnormal operand is zero, and so is a subnormal result, with uf and nx.
theorem test_flush : (let t := does (.fadd .rne (op (vd 8) .f32 (.reg 2) (.reg 4))) (State.word0 (vecAt 1 1 0) 9 0x80); (lane t 8 0, flagOf t 0)) = (some 0, some 0)
    ∧ (let t := does (.fmul .rne (op (vd 8) .f32 (.reg 2) (.reg 4))) (State.word0 (vecAt 0x00800000 0x3F000000 0) 9 0x80); (lane t 8 0, flagOf t 0))
      = (some 0, some 3) := by decide +kernel

theorem witness_FloatCompareSignAndEstimates : ∃ c u n t, RoundReady (vecAt nan32 one32 0) c .always (vd 8) .f32
    ((op (vd 8) .f32 (.reg 2) (.reg 4) (.reg 6)).vecSrcs .f32 .f32 .f32) .rne u n t ∧ true = true := round_ready (by decide +kernel)
theorem witness_FloatCompareSignAndEstimates_compare : ∃ c t, LaneReady (vecAt 0 0x80000000 0) c p2 (pd 4) .f32 [(.vec .f32, .reg 2), (.vec .f32, .reg 4)] t
    ∧ true = true := lane_ready (by decide +kernel)
theorem witness_FloatCompareSignAndEstimates_class : (∃ c u n t, RoundReady (vecAt 1 2 3) c .always (vd 7) (classFmt .f64)
    ((op (vd 7) .f64 (.reg 2) .zero).vecSrcs .f64 .i32 .i32) .rne u n t ∧ true = true)
    ∧ ∃ c t, LaneReady (vecAt 31 0 0) c .always (vd 8) .i32 [(.vec .i32, .reg 2)] t ∧ true = true :=
  ⟨round_ready (by decide +kernel), lane_ready (by decide +kernel)⟩
/-- Operands of its clauses on the order and on the tables. -/
theorem witness_FloatCompareSignAndEstimates_values : (FVal.inf true).isNan = false ∧ FVal.inf false ≠ .inf true ∧ (FVal.fin true 1 0).isNan = false
    ∧ (FVal.fin true 1 0).isInf = false ∧ 0 < 1 ∧ (fspec .f32).inf = some inf32 := by decide +kernel
theorem test_fmin : vec .fmin .f32 0 0x80000000 = some 0x80000000 ∧ vec .fmin .f32 nan32 one32 = some one32
    ∧ vecFlags .fmin .f32 0x7F800001 one32 = some 16 ∧ vecFlags .fmin .f32 nan32 one32 = some 0 := by decide +kernel
theorem test_fmax : vec .fmax .f32 0x80000000 0 = some 0 ∧ vec .fmax .f32 0xFFC00001 nan32 = some nan32 ∧ vec .fmax .f32 0xC0000000 one32 = some one32 := by
  decide +kernel
theorem test_fsigns : vec .fabs .f32 0xBF800000 0 = some one32 ∧ vec .fneg .f16 0x3C008000 0 = some 0xBC000000
    ∧ vec .fcsgn .f32 one32 0xFF800001 = some 0xBF800000 ∧ vecFlags .fcsgn .f32 one32 0xFF800001 = some 0 := by decide +kernel
def fcmpIs (k : FCond) (a b : Nat) : Option Nat × Option Nat :=
  let t := does (.fcmp k (op (pd 4) .f32 (.reg 2) (.reg 4))) (vecAt a b 0)
  (preg t 4, flagOf t 3)
theorem test_fcmp : fcmpIs .eq 0 0x80000000 = (some 0xFFFFFFFF, some 0) ∧ fcmpIs .ne nan32 0 = (some 0xFFFFFFFF, some 0)
    ∧ fcmpIs .lt nan32 0 = (some 0, some 16) ∧ fcmpIs .un nan32 0 = (some 0xFFFFFFFF, some 0) ∧ fcmpIs .ge one32 0xC0000000 = (some 0xFFFFFFFF, some 0) := by
  decide +kernel
theorem test_fclass : vec .fclass .f32 0x80000001 0 = some 4 ∧ vec .fclass .f32 0x7F800001 0 = some 256 ∧ vec .fclass .f16 0x7C003C00 0 = some 0x00800040
    ∧ vec .fclass .f64 0xFFF0000000000000 0 = some 1 := by decide +kernel
theorem test_fclassFl : let t := does (.fclassFl (op (vd 8) .none (.imm 0x11) .zero)) (State.with0 (vecAt 0 0 0) fun w => w.orFlags 0xF fun _ => 0b10101)
    lane t 8 3 = some 0b10101 ∧ flagOf t 3 = some 0b00100 ∧ lane t 8 4 = some 0 := by decide +kernel
-- The worked examples of R237 and R238.
theorem test_frcp : vec .frcp .f32 0x40400000 0 = some 0x3EAA3900 ∧ vec .frcp .f32 0x80000000 0 = some 0xFF800000
    ∧ vecFlags .frcp .f32 0x40400000 0 = some 0 ∧ vec .frcp .f32 1 0 = some inf32 := by decide +kernel
theorem test_frsq : vec .frsq .f32 0x40800000 0 = some 0x3EFF8080 ∧ vec .frsq .f32 0xBF800000 0 = some nan32 ∧ vec .frsq .f32 inf32 0 = some 0 := by
  decide +kernel

theorem witness_RoundingIsNearest : isFloat .e2m1 = true ∧ (fspec .f32).decode ((fspec .f32).round rneOf (.val false (.rat 1 10 0))).1 = .fin false 13421773 (-27) := by
  decide +kernel
theorem witness_Conversions : ∃ c u n t, RoundReady (vecAt one32 120 0) c .always (vd 8) .e4m3
    ((op (vd 8) .e4m3 (.reg 2) (.reg 4) (.reg 6)).vecSrcs .f32 .i32 .i32) .rs u n t
    ∧ ((List.range 32).all fun l => (c.vec .i32 (.reg 4) l).toNat % 256 != 255) = true := round_ready (by decide +kernel)
theorem witness_Conversions_nan : ∃ c u n t, RoundReady (vecAt 0x38 255 0) c .always (vd 8) .f32
    ((op (vd 8) .f32 (.reg 2) (.reg 4) (.reg 6)).vecSrcs .e4m3 .i32 .i32) .rne u n t
    ∧ ((List.range 32).all fun l => (c.vec .i32 (.reg 4) l).toNat % 256 == 255) = true := round_ready (by decide +kernel)
theorem witness_Conversions_integer : 0 < 8 ∧ roundInt ⟨.rne, 0, false, false⟩ false 5 (-1) = (2, false) ∧ roundInt ⟨.ru, 0, false, false⟩ false 1 7 = (128, true) := by
  decide +kernel
-- 0.3 into e4m3 (spec/08); 70,000 into f16 with and without sat (R240).
theorem test_cvt : vec (.cvt .rne ⟨false, 1, 0, .f32⟩) .e4m3 0x3E99999A 0 = some 0x2A00 ∧ vec (.cvt .rne ⟨true, 0, 0, .f32⟩) .f16 0x4788B800 0 = some 0x7BFF
    ∧ vecFlags (.cvt .rne ⟨true, 0, 0, .f32⟩) .f16 0x4788B800 0 = some 5 ∧ vec (.cvt .rne ⟨false, 0, 0, .f32⟩) .f16 0x4788B800 0 = some 0x7C00 := by
  decide +kernel
theorem test_cvt_widens : vec (.cvt .rne ⟨false, 0, 0, .f32⟩) .f64 0xC0400000 0 = some 0xC008000000000000
    ∧ vec (.cvt .rne ⟨false, 0, 0, .f32⟩) .e2m1 nan32 0 = some 0 ∧ vecFlags (.cvt .rne ⟨false, 0, 0, .f32⟩) .e2m1 nan32 0 = some 16 := by decide +kernel
theorem test_cvtf : vec (.cvtf .rne ⟨false, 0, 3, .i8⟩) .f32 0xFF000000 0 = some 0xBF800000
    ∧ vec (fun o => .cvtf .rne ⟨false, 0, 3, .i8⟩ { o with uns := true }) .f32 0xFF000000 0 = some 0x437F0000 := by decide +kernel
-- R223: 300 limited to 255, -1 to 0, NaN to 0.
theorem test_cvti : vec (.cvti .rz ⟨false, 0, 0, .f32⟩) .i16 0x43960000 0 = some 300 ∧ vec (.cvti .rne ⟨false, 0, 0, .f32⟩) .i8 0x43960000 0 = some 127
    ∧ vecFlags (.cvti .rne ⟨false, 0, 0, .f32⟩) .i8 0x43960000 0 = some 16 ∧ vec (.cvti .rne ⟨false, 0, 0, .f32⟩) .i32 nan32 0 = some 0 := by decide +kernel
theorem test_frint : vec (.frint .rne ⟨false, 0, 0, .f32⟩) .f32 0xBECCCCCD 0 = some 0x80000000
    ∧ vecFlags (.frint .rne ⟨false, 0, 0, .f32⟩) .f32 0xBECCCCCD 0 = some 1 ∧ vec (.frint .rne ⟨false, 0, 0, .f32⟩) .f32 inf32 0 = some inf32 := by
  decide +kernel
-- The worked example of R241, under scale 120.
theorem test_cvtbs : vec (.cvtbs .rne ⟨false, 0, 0, .f32⟩) .e4m3 0x40400000 120 = some 0x7C ∧ vec (.cvtbs .rne ⟨false, 0, 0, .f32⟩) .e4m3 0x3E99999A 120 = some 0x62
    ∧ vec (.cvtbs .rne ⟨false, 0, 0, .e4m3⟩) .f32 0x62 120 = some 0x3EA00000 ∧ vec (.cvtbs .rne ⟨false, 0, 0, .f32⟩) .e4m3 one32 255 = some 0x7F := by
  decide +kernel

/-! ### Quad, lane and predicate instructions -/

/-- The placed machine with register 2 holding f of the lane and register 4 a value. -/
def lanesAt (f : Nat → Nat) (b : Nat := 0) : State :=
  State.with0 (at' (.nop .always)) fun w => Warp.fill (w.setVreg 2 fun l => some (BitVec.ofNat 32 (f l))) 4 b
/-- Register 8 of some lanes after an instruction on them. -/
def crossed (k : Alu → Instr) (f : Fmt) (x : Nat → Nat) (b : Nat) (ls : List Nat) : List (Option Nat) :=
  let t := does (k (op (vd 8) f (.reg 2) (.reg 4))) (lanesAt x b)
  ls.map fun l => lane t 8 l

theorem witness_LaneMoves : ∃ c t, LaneReady (lanesAt id 1) c .always (vd 8) .i32 [(.vec .i32, .reg 2), (.vec .i32, .reg 4)] t
    ∧ decide (c.la.det ≠ 3) = true := lane_ready (by decide +kernel)
/-- In canonical mode, a quad neighbour outside the path, another path being unparked. -/
def canonicalAt : State := State.word0 (State.with0 (lanesAt id 1) fun w =>
  (w.setPath 0 { w.path 0 with mask := 1 }).setPath 1 { w.path 0 with mask := 2 }) 9 3
theorem witness_LaneMoves_refused : ∃ c t, LaneReady canonicalAt c .always (vd 8) .i32 [(.vec .i32, .reg 2), (.vec .i32, .reg 4)] t
    ∧ (decide (c.la.det = 3 ∧ 1 < c.w.unparked) && (c.act .always).getLsbD 0 && c.w.present.getLsbD (0 ^^^ 1) && !c.p.mask.getLsbD (0 ^^^ 1)) = true :=
  lane_ready (by decide +kernel)
theorem witness_LaneMoves_broadcast : ∃ c t, LaneReady (lanesAt id 1) c .always (vd 8) .i32 [(.vec .i32, .reg 2)] t
    ∧ ((c.act .always).getLsbD 0 && decide ((c.sca (.imm 33)).toNat % 32 = 1)) = true := lane_ready (by decide +kernel)
theorem test_qswap : crossed (.qswap .h) .i32 id 0 [4, 5] = [some 5, some 4] ∧ crossed (.qswap .v) .i32 id 0 [4] = [some 6]
    ∧ crossed (.qswap .d) .i32 id 0 [4] = [some 7] := by decide +kernel
theorem test_qswap_canonical : traps (State.with0 (State.word0 (at' (.qswap .h (op (vd 8) .i32 (.reg 2) .zero))) 9 3) fun w =>
    (w.setPath 0 { w.path 0 with mask := 1 }).setPath 1 { w.path 0 with mask := 2 }) 0x62 0 = true := by decide +kernel
theorem test_qbcast : crossed (.qbcast 2) .i32 id 0 [0, 7, 31] = [some 2, some 6, some 30] := by decide +kernel
-- The worked example of R247, and the other variants.
theorem test_lxch : crossed (.lxch .rot 5) .i32 id 4 [27, 28] = [some 31, some 0] ∧ crossed (.lxch .rot 3) .i32 id 4 [28] = [some 24]
    ∧ crossed (.lxch .refl 2) .i32 id 3 [4, 7] = [some 7, some 4] ∧ crossed (.lxch .flip 4) .i32 id 4 [3] = [some 7]
    ∧ crossed (.lxch .pick 3) .i32 id 9 [17] = [some 17] := by decide +kernel
theorem test_lbcast : crossed (fun o => .lbcast false { o with b := .imm 33 }) .i32 id 0 [0, 9] = [some 1, some 1]
    ∧ sreg (does (.lbcast true { op (sd 9) .i32 (.reg 2) .zero with g := p2 }) (State.with0 (lanesAt (fun l => 0x80000000 + l)) fun w => w.setPreg 2 0xF0)) 9
      = some 0xFFFFFFFF80000004 := by decide +kernel

theorem witness_LaneReductions : ∃ c u n t, RoundReady (lanesAt id 1) c p2 (vd 8) .f32 [(.vec .f32, .reg 2)] .rs u n t
    ∧ (c.act p2 == 0) = true := round_ready (by decide +kernel)
theorem witness_LaneReductions_acting : ∃ c u n t, RoundReady (lanesAt id 1) c .always (vd 8) .f32 [(.vec .f32, .reg 2)] .rne u n t
    ∧ (c.act .always != 0) = true := round_ready (by decide +kernel)
theorem witness_IntegerReductionIsSum : Fmt.i32 ≠ .i64 ∧ ∀ l, l < 32 → (BitVec.ofNat 64 (2 ^ 32 - 1 - l)).toNat < 2 ^ elemBits .i32 := by decide +kernel
-- R227: 2^24 in lane 0 meets the 1 of lane 8 only with that of lane 24 added to it; the serial chain of R228 loses both.
def big (l : Nat) : Nat := if l = 0 then 0x4B800000 else if l = 8 ∨ l = 24 then one32 else 0
theorem test_lred : crossed (.lred .add .rne) .f32 big 0 [0, 31] = [some 0x4B800001, some 0x4B800001]
    ∧ crossed (.lscan .add .rne) .f32 big 0 [0, 8, 24] = [some 0x4B800000, some 0x4B800000, some 0x4B800000] := by decide +kernel
theorem test_lred_int : crossed (.lred .add .rne) .i32 id 0 [0] = [some 496] ∧ crossed (.lred .min .rne) .i32 (fun l => 2 ^ 32 - l) 0 [5] = [some 0xFFFFFFE1]
    ∧ crossed (fun o => .lred .min .rne { o with g := p2, d := sd 9 }) .i32 id 0 [] = []
    ∧ sreg (does (.lred .xor .rne (op (sd 9) .i32 (.reg 2) .zero)) (lanesAt fun l => 2 ^ l)) 9 = some 0xFFFFFFFFFFFFFFFF := by decide +kernel
theorem test_lscan : crossed (.lscan .add .rne) .i32 (fun _ => 1) 0 [0, 31] = [some 1, some 32]
    ∧ crossed (.lscan .max .rne) .i32 (fun l => if l = 3 then 9 else l) 0 [2, 4, 12] = [some 2, some 9, some 12] := by decide +kernel

/-- The placed machine with p2 and p3, p1 guarding the instruction. -/
def predsAt (a b guard : Nat) : State := State.with0 (lanesAt id) fun w =>
  ((w.setPreg 2 (BitVec.ofNat 32 a)).setPreg 3 (BitVec.ofNat 32 b)).setPreg 1 (BitVec.ofNat 32 guard)
def p1 : Guard := ⟨1, false⟩
theorem witness_PredicatesAndPolls : (∃ c t, LaneReady (predsAt 1 2 3) c p1 (pd 4) .none [(.pred, .reg 2)] t ∧ true = true)
    ∧ (∃ c t, LaneReady (predsAt 1 2 3) c p1 (pd 4) .none [(.pred, .reg 2), (.pred, .reg 3)] t ∧ true = true)
    ∧ (∃ c t, LaneReady (predsAt 1 2 3) c p1 (sd 4) .none [(.pred, .reg 2)] t ∧ true = true)
    ∧ (∃ c t, LaneReady (predsAt 1 2 3) c p1 (pd 4) .none [(.sca, .reg 2)] t ∧ true = true)
    ∧ (∃ c t, LaneReady (predsAt 1 2 3) c p1 (vd 4) .i32 [] t ∧ true = true) :=
  ⟨lane_ready (by decide +kernel), lane_ready (by decide +kernel), lane_ready (by decide +kernel), lane_ready (by decide +kernel),
    lane_ready (by decide +kernel)⟩
def polled (v : Poll) (a guard : Nat) : Option Nat := sreg (does (.lpoll v { op (sd 9) .none (.reg 2) .zero with g := p1 }) (predsAt a 0 guard)) 9
theorem test_lpoll : polled .some 0xF 0xF0 = some 0 ∧ polled .every 0xF 0x10 = some 0 ∧ polled .every 0xF 3 = some 1 ∧ polled .same 0xF 0xF = some 1 ∧ polled .same 0xF 0x1F = some 0
    ∧ polled .mask 0xFF 0x3C = some 0x3C ∧ polled .count 0xFF 0x3C = some 4
    ∧ preg (does (.lpoll .some { op (pd 4) .none (.reg 2) .zero with g := p1 }) (predsAt 0x10 0 0xF0)) 4 = some 0xF0 := by decide +kernel
def preds (k : Alu → Instr) : Option Nat := preg (does (k { op (pd 4) .none (.reg 2) (.reg 3) with g := p1 }) (predsAt 0b1100 0b1010 0x1F)) 4
theorem test_predicates : preds .pand = some 8 ∧ preds .por = some 14 ∧ preds .pxor = some 6 ∧ preds .pnot = some 0x13 := by decide +kernel
theorem test_pmov : sreg (does (.pmov true (op (sd 9) .none (.reg 2) .zero)) (predsAt 0x80000001 0 0)) 9 = some 0x80000001
    ∧ preg (does (.pmov false { op (pd 4) .none (.imm 5) .zero with g := p1 }) (predsAt 0 0 6)) 4 = some 4 := by decide +kernel
theorem test_lidx : lane (does (.lidx .lane (op (vd 8) .i32 .zero .zero)) (lanesAt id)) 8 9 = some 9
    ∧ sreg (does (.lidx .acting { op (sd 9) .i32 .zero .zero with g := p1 }) (predsAt 0 0 0x50)) 9 = some 0x50
    ∧ sreg (does (.lidx .active { op (sd 9) .i32 .zero .zero with g := p1 }) (predsAt 0 0 0x50)) 9 = some 0xFFFFFFFF
    ∧ lane (does (.lidx .rank { op (vd 8) .i32 .zero .zero with g := p1 }) (predsAt 0 0 0x50)) 8 6 = some 1 := by decide +kernel

/-! ### Loads and stores -/

def Except.fails {ε α : Type} : Except ε α → Option ε
  | .error e => some e
  | .ok _ => none
/-- Operands of a memory instruction on address register 2. -/
def mo (d : Dst) (f : Fmt) (x y : Src := .zero) (off : Int := 0) (ord : Order := .rlx) : Mem := ⟨.always, d, f, false, 2, x, y, ⟨0, ord, 0, off⟩⟩
/-- The placed machine with address register 2, the lane's number times 4 in vector register 4, a value in vector register 6, and bytes at
0x200000. -/
def memAt (a : AReg) (bs : List Nat := []) (y : Nat → Nat := fun _ => 0) : State :=
  let s := at' (.nop .always)
  State.with0 { s with mem := s.mem.write 0x200000 (bs.map (BitVec.ofNat 8)) } fun w =>
    let w := { w with a := (w.a.set 2 a).set 3 (areg 1 0 2), s := (w.s.set 1 (BitVec.ofNat 64 (2 ^ 64 - 4))).set 2 0x1122334455667788 }
    (w.setVreg 4 fun l => some (BitVec.ofNat 32 (4 * l))).setVreg 6 fun l => some (BitVec.ofNat 32 (y l))
/-- All of 0x200000 to 0x201000; the block's SRAM. -/
def flat : AReg := areg 0x200000 0x200000 0x201000
def sramReg (perm : BitVec 4 := 0xB) : AReg := areg 0x7E0000000000 0x7E0000000000 0x7E0000002000 perm
/-- Partition 1 has logged the first line in an interval that has not committed. -/
def heldAt (s : State) : State := { s with parts := s.parts.put 1 { Partition.reset 2 with ck := { (Partition.reset 2).ck with logged := [(1, [0x4000])] } } }

/-- A store of lane 0 that has not been performed. -/
def queued : Store := ⟨0, 0, 0, 0, none, 1, 1, 0, ⟨0x200000, 1, 0x200000, none, none⟩, [0], .rlx, 0, 1, false, false, []⟩

/-- Each step of R314 refuses one of two accesses, by its lane; the last is in reach. -/
theorem witness_AccessChecks :
    Except.fails (checkRights (areg 0 0 64 2) true false none [(3, 8), (4, 12)]) = some (.trap ⟨0x11, 0, 8, 0x18⟩)
    ∧ Except.fails (checkRights (areg 0 0 64 1) false true (some 1) [(3, 8)]) = some (.trap ⟨0x11, 1, 8, 1⟩)
    ∧ Except.fails (checkRange (memAt flat) ⟨0, 0⟩ flat true false 4 none [(3, 0x200FFC), (4, 0x200FFD)]) = some (.trap ⟨0x10, 0, 0x200FFD, 0x10⟩)
    ∧ Except.fails (checkRange (memAt flat) ⟨0, 0⟩ (areg 0 0 (2 ^ 48)) true false 4 none [(0, 0x7E0000200000), (1, 0)])
      = some (.trap ⟨0x13, 1, 0x7E0000200000, 1⟩)
    ∧ Except.fails (checkRange (memAt flat) ⟨0, 0⟩ (areg 0 0 (2 ^ 48)) true false 4 none [(0, 0x7DFFFFFFFFFE)]) = some (.trap ⟨0x12, 0, 0x7DFFFFFFFFFE, 1⟩)
    ∧ Except.fails (checkRange (memAt flat) ⟨0, 0⟩ (sramReg 3) true false 4 none [(0, 0x7E0000000000)]) = some (.trap ⟨0x11, 2, 0x7E0000000000, 1⟩)
    ∧ Except.fails (checkRange (memAt flat) ⟨0, 0⟩ (areg 0 0 (2 ^ 48)) true false 4 none [(0, 2 ^ 25)]) = some (.trap ⟨0x13, 0, 0x2000000, 1⟩)
    ∧ (checkRange (memAt flat) ⟨0, 0⟩ (sramReg) true true 4 none [(0, 0x7E0000001FFC)]).isOk = true := by decide +kernel

/-- Every form of load has its accesses in reach and no line held; under .sc no write is outstanding. -/
theorem witness_LoadIssue : (ready (memAt flat) fun c =>
      (c.w.areg 2).perm.getLsbD 0 && c.act .always != 0 && c.once .always && (checkOperands c .always (vd 8) .i32 [(.vec .i32, .reg 4)]).isOk
      && (loadRange (memAt flat) c (mo (vd 8) .i32 (.reg 4)) none 4 [(0, 0x200000), (31, 0x200FFC)]).isOk
      && (memAt flat).drainedFor 0 (c.act .always) 0x7F
      && (checkOperands c .always (sd 8) .none [(.sca, .reg 1)]).isOk && (checkOperands c .always .noDest .none [(.sca, .zero)]).isOk
      && (loadRange (memAt flat) c (mo (sd 8) .i64 (.reg 1)) (some (c.real .always)) 8 [(0, 0x200FF8)]).isOk) = true
    ∧ (ready (memAt { bound0 with pointer := 0x200000, base := 0x200000, limit := 0x201000 }) fun c =>
      (checkOperands c .always (vd 8) .i32 []).isOk && (c.w.areg 2).stream == some stream0 && decide (c.la.det = 0) && decide (2 ^ stream0.log2 = accessBytes .i32)) = true := by
  decide +kernel
/-- Its other ways: no lane, a line whose presence bit is clear, a line a barge owns. -/
theorem witness_LoadIssue_else : (ready (State.path0 (memAt flat) fun p => { p with mask := 1 }) fun c => c.act p2 == 0 && !c.once p2) = true
    ∧ (let s := { memAt sramReg with absent := [((2 ^ 60) / 128, 1)] }
      ready s fun c => match loadRange s c (mo (vd 8) .i32) none 4 [(0, 0x7E0000000000)] with
        | .ok ys => ys.any fun y => y.2.2.any s.lineAbsent
        | .error _ => false) = true
    ∧ (let s := { memAt flat with owned := [(0x4000, 1)] }
      ready s fun c => match loadRange s c (mo (vd 8) .i32) none 4 [(0, 0x200000)] with
        | .ok ys => ys.any fun y => y.2.2.any s.lineOwned
        | .error _ => false) = true := by decide +kernel
/-- A load issued and its data returned. -/
def loaded (i : Instr) (s : State) : State := does (.loadDataReturn 0 ⟨0, 64⟩) (does i s)
def bytes0 : List Nat := [0x80, 0x01, 0x02, 0xFF, 0x11, 0x22, 0x33, 0x44]
theorem test_ld : lane (loaded (.ld .linear (mo (vd 8) .i32)) (memAt flat bytes0)) 8 1 = some 0x44332211
    ∧ lane (loaded (.ld .linear (mo (vd 8) .i8 (off := 3))) (memAt flat bytes0)) 8 0 = some 0xFFFFFFFF
    ∧ lane (loaded (.ld .offset (mo (vd 8) .i16 (.reg 4))) (memAt flat bytes0)) 8 1 = some 0x2211
    ∧ lane (loaded (.ld .index (mo (vd 8) .i16 (.imm 2))) (memAt flat bytes0)) 8 9 = some 0x2211 := by decide +kernel
theorem test_ld_b128 : let t := loaded (.ld .index (mo (vd 8) .b128 (.imm 0))) (memAt flat bytes0)
    lane t 8 4 = some 0xFF020180 ∧ lane t 9 4 = some 0x44332211 ∧ lane t 11 4 = some 0 := by decide +kernel
theorem test_ld_traps : traps (State.with0 (at' (.ld .linear (mo (vd 8) .i32))) fun w => { w with a := w.a.set 2 (areg 0 0 64) }) 0x10 0 = true
    ∧ parkedFor (does (.ld .linear (mo (vd 8) .i32)) { memAt sramReg with absent := [((2 ^ 60) / 128, 1)] }) .presence = true
    ∧ parkedFor (does (.ld .linear (mo (vd 8) .i32)) { memAt flat with owned := [(0x4000, 1)] }) .recall = true := by decide +kernel
theorem test_lds : sreg (loaded (.lds true (mo (sd 8) .i32 (.reg 1) (off := 4))) (memAt flat bytes0)) 8 = some 0xFFFFFFFFFF020180
    ∧ sreg (loaded (.lds false (mo (sd 8) .i64)) (memAt flat bytes0)) 8 = some 0x44332211FF020180 := by decide +kernel
-- A stream of 4-byte elements (R320): the element read, and the pointer after it.
def streamed : AReg := { bound0 with pointer := 0x200000, base := 0x200000, limit := 0x201000, stream := some { stream0 with origin := 0x200000 } }
theorem test_sread : let t := loaded (.sread false (mo (sd 8) .i32)) (memAt streamed bytes0)
    sreg t 8 = some 0xFFFFFFFFFF020180 ∧ warpHas t (fun w => (w.areg 2).pointer == 0x200004) = true
    ∧ lane (loaded (.sread true (mo (vd 8) .i32)) (memAt streamed bytes0)) 8 1 = some 0x44332211 := by decide +kernel
theorem test_sread_traps : traps (State.with0 (at' (.sread false { mo (sd 8) .i32 with a := 9 })) fun w => { w with a := w.a.set 9 flat }) 0x11 3 = true
    ∧ traps (State.with0 (at' (.sread false { mo (sd 8) .i32 with a := 9 })) fun w =>
      { w with a := w.a.set 9 { streamed with stream := streamed.stream.map ({ · with done := true }) } }) 0x10 9 = true := by decide +kernel
theorem test_lda : warpHas (loaded (.lda (mo (ad 5) .none)) (memAt flat ((List.range 24).map (fun i => if i % 8 = 0 then 4 else 0) ++ [3]))) (fun w =>
      { w.areg 5 with run := none } == areg 4 4 4) = true
    ∧ traps (State.with0 (at' (.lda (mo (ad 5) .none (off := 8)))) fun w => { w with a := w.a.set 2 flat }) 0x14 1 = true := by decide +kernel
theorem test_hints : standsAt (does (.pf false (mo .noDest .none)) (memAt flat)) (pc0 + 1) = true
    ∧ standsAt (does (.wback true (mo .noDest .none (.reg 4))) (memAt flat)) (pc0 + 1) = true
    ∧ (does (.inv false (mo .noDest .none)) (memAt flat)).mem = (memAt flat).mem := by decide +kernel

/-- What waits on the issuing path. -/
def awaitingLoad (s : State) (f : Ctx → LoadReq → Bool) : Bool := match s.awaiting 0 0 with | some (c, .load r) => f c r | _ => false
theorem witness_LoadDataReturns : awaitingLoad (does (.ld .linear (mo (vd 8) .i32)) (memAt flat bytes0)) (fun c r =>
      let s := does (.ld .linear (mo (vd 8) .i32)) (memAt flat bytes0)
      !s.heldFrom (some c.env.part) (r.lanes.flatMap (·.2.2)) && (r.left c.w.present).length == 32 && (r.left c.w.present).all (fun x => s.mayRead 0 x.1 [x.2])
        && (poisonTrap none (regroup r.lanes (s.readFor 0 r (r.left c.w.present)))).isNone && r.shape == .lanes && r.stream.isNone) = true
    ∧ awaitingLoad (does (.lds false (mo (sd 8) .i32)) (memAt flat bytes0)) (fun _ r => r.shape == .scalar && r.lanes.length == 1) = true
    ∧ awaitingLoad (does (.lda (mo (ad 5) .none)) (memAt flat [8, 0, 0, 0, 0, 0, 0, 0, 9])) (fun _ r => r.shape == .address && r.lanes.length == 1) = true
    ∧ awaitingLoad (does (.sread false (mo (vd 8) .i32)) (memAt streamed)) (fun c r =>
      r.shape == .uniform && r.stream == some 2 && decide (c.la.det = 0) && r.lanes.length == 1) = true := by decide +kernel
theorem witness_LoadDataReturns_else : (let s := heldAt (does (.ld .linear (mo (vd 8) .i32)) (memAt flat))
      awaitingLoad s fun c r => s.heldFrom (some c.env.part) (r.lanes.flatMap (·.2.2))) = true
    ∧ (let s := { does (.ld .linear (mo (vd 8) .i32)) (memAt flat) with poison := [0x10000] }
      awaitingLoad s fun c r => poisonTrap none (regroup r.lanes (s.readFor 0 r (r.left c.w.present))) == some (⟨0x51, 0, 0x200000, 0xFF⟩ : Trap)) = true
    ∧ (let s := does (.st .linear (mo .noDest .i32 .zero (.reg 6))) (memAt flat)
      s.mayRead 0 3 [⟨0x200000, 4, 0x200000, none, none⟩] || !s.mayRead 0 1 [⟨0x200000, 4, 0x200000, none, none⟩]) = false := by decide +kernel
theorem test_load_returns_else : (let s := heldAt (does (.ld .linear (mo (vd 8) .i32)) (memAt flat)); does (.loadDataReturn 0 ⟨0, 64⟩) s = s)
    ∧ warpHas (does (.loadDataReturn 0 ⟨0, 64⟩) (State.with0 (does (.lda (mo (ad 5) .none)) (memAt flat [8, 0, 0, 0, 0, 0, 0, 0, 9])) fun w =>
      { w with inHandler := true })) (fun w => w.halted) = true := by decide +kernel

theorem witness_StoreIssue : (ready (memAt flat) fun c => c.real .always != 0 && c.once .always && (c.w.areg 2).perm.getLsbD 1
      && (checkOperands c .always .noDest .none [(.vec .i32, .reg 4), (.vec .i32, .reg 6)]).isOk
      && (checkOperands c .always .noDest .none [(.sca, .reg 1), (.sca, .reg 2)]).isOk
      && (storeRange (memAt flat) c (mo .noDest .i32) none 4 [(0, 0x200000), (1, 0x200FFC)]).isOk
      && (storeRange (memAt flat) c (mo .noDest .i32) (some 1) 32 [(0, 0x200FE0)]).isOk
      && (memAt flat).drainedFor 0 (c.real .always) 0x7F) = true
    ∧ (let s := does (.st .linear (mo .noDest .i32 .zero (.reg 6))) (memAt flat)
      (s.ctx? 0 0 none).any fun c => c.real p2 == 0 && !s.drainedFor 0 (c.real .always) 0) = true := by decide +kernel
/-- Every store of the queue is performed. -/
def performed (s : State) : State := s.stores.foldl (fun s _ => does (.storePerformed ⟨0, everyCore⟩) s) s
/-- Bytes of memory after the stores of some lanes are performed. -/
def stored (i : Instr) (m : LaneMask) (s : State) (k n : Nat) : Nat :=
  leNat ((performed (does i (State.path0 s fun p => { p with mask := m }))).mem.bytes k n)
-- R318: of the lanes that store to one byte the highest is last. R317: nothing is written before the store is performed.
theorem test_st : stored (.st .linear (mo .noDest .i16 .zero (.reg 6))) 0xF (memAt flat [] fun l => 0x10000 + l) 0x200000 8 = 0x0003000200010000
    ∧ stored (.st .offset { mo .noDest .i8 (.imm 4) (.reg 6) with g := p2 }) 0xFFFF (State.with0 (memAt flat [] fun l => if l = 9 then 0x99 else 0x44) fun w =>
      w.setPreg 2 0x210) 0x200004 1 = 0x99
    ∧ (does (.st .linear (mo .noDest .i32 .zero (.reg 6))) (memAt flat [] id)).mem = (memAt flat).mem := by decide +kernel
theorem test_st_index : stored (.st .index (mo .noDest .i32 (.reg 6) (.reg 6))) 3 (memAt flat [] fun l => 31 - l) (0x200000 + 124) 4 = 31
    ∧ stored (.st .index (mo .noDest .b128 (.imm 1) (.reg 4))) 0x80000001 (memAt flat [] fun l => l) 0x200010 16 = 0x1F000000000000007C := by decide +kernel
theorem test_sts : stored (.sts true (mo .noDest .i64 (.reg 1) (.reg 2) (off := 8))) 1 (memAt flat) 0x200004 8 = 0x1122334455667788
    ∧ traps (State.with0 (at' (.sts false (mo .noDest .i32))) fun w => { w with a := w.a.set 2 (areg 0 0 64 1) }) 0x11 1 = true := by decide +kernel
theorem test_sta : stored (.sta (mo .noDest .none (.reg 3))) 1 (memAt flat) 0x200000 32 = 1 + 2 * 2 ^ 128 + 3 * 2 ^ 192
    ∧ stored (.sta (mo .noDest .none (.reg 2))) 1 (memAt streamed) 0x200018 8 = 3 := by decide +kernel
-- A sequentially consistent store waits for its lanes' earlier writes, and its lanes' next access for it (R358).
theorem test_st_sc : let sc := Instr.st .linear (mo .noDest .i32 .zero (.reg 6) (ord := .sc))
    let plain := Instr.st .linear (mo .noDest .i32 .zero (.reg 6))
    (does sc (memAt flat)).stores.length = 32
    ∧ parkedFor (does sc { memAt flat with stores := (does plain (memAt flat)).stores }) .fence = true
    ∧ parkedFor (does plain { memAt flat with stores := (does sc (memAt flat)).stores }) .fence = true := by decide +kernel

theorem witness_StorePerformed : (let s := does (.st .linear (mo .noDest .i32 .zero (.reg 6))) (memAt flat [] id)
      (s.stores[0]?).any fun x => s.storeReady 0 && !s.heldFrom (some x.part) [x.piece] && !s.logFull x.block [x.piece]
        && decide (s.classOf x.block = 0) && x.piece.peer.isNone && x.data.length == x.piece.len) = true
    ∧ (let s := heldAt (does (.st .linear (mo .noDest .i32 .zero (.reg 6))) (memAt flat [] id))
      (s.stores[0]?).any fun x => s.heldFrom (some x.part) [x.piece]) = true := by decide +kernel
/-- A store to a peer whose window is open. -/
theorem witness_StorePerformed_peer : (let s := does (.st .linear (mo .noDest .i32 .zero (.reg 6))) (memAt flat)
      let t : State := { s with stores := (s.stores.take 1).map fun x => { x with piece := { x.piece with peer := some 5 } } }
      (t.stores[0]?).any fun x => t.storeReady 0 && !t.heldFrom (some x.part) [x.piece] && decide (t.classOf x.block = 0)
        && (does (.storePerformed ⟨0, everyCore⟩) t).unacked.length == 1) = true := by decide +kernel

/-! ### Atomics -/

/-- The operations and their constructors. -/
def atoms (o : Mem) : List (AtomOp × Instr) :=
  [(AtomOp.add, Instr.atadd o), (.sub, .atsub o), (.min, .atmin o), (.max, .atmax o), (.minu, .atminN o), (.maxu, .atmaxN o), (.and, .atand o),
    (.or, .ator o), (.xor, .atxor o), (.swp, .atswp o), (.inc, .atinc o), (.fadd, .atfadd o), (.rgn, .atfaddRgn o), (.cas, .acas o)]
/-- An atomic issued, executed by its one lockkeeper, and answered. -/
def atomic (i : Instr) (s : State) : State := does (.atomicResultReturn 0 0) (does (.lockkeeperRequest 0 0) (does i s))
/-- Lane 0 alone acts. -/
def one0 (s : State) : State := State.path0 s fun p => { p with mask := 1 }

theorem witness_AtomicIssue : (ready (memAt flat) fun c => decide (c.pidx < c.w.paths.length) && c.real .always != 0
      && (checkOperands c .always (vd 8) .i32 [(.vec .i32, .reg 4), (.vec .i32, .reg 6)]).isOk
      && (checkRights (c.w.areg 2) true true none [(0, 0x200000), (31, 0x20007C)]).isOk
      && (checkAtomic (memAt flat) c (c.w.areg 2) true 4 none [(0, 0x200000), (31, 0x20007C)]).isOk
      && decide (c.la.det = 0)) = true
    ∧ (ready (memAt flat) fun c => c.real p2 == 0
      && (checkOperands c p2 (vd 8) .i32 [(.vec .i32, .reg 4), (.vec .i32, .reg 6)]).isOk
      && (checkOperands c p2 (sd 8) .i32 [(.sca, .reg 4), (.sca, .reg 6)]).isOk) = true
    ∧ (ready (State.word0 (memAt flat) 9 3) fun c => decide (c.la.det = 3)) = true ∧ (0x200002 : Int) % 4 ≠ 0
    ∧ (AtomOp.cas, Instr.acas (mo (sd 8) .i64)) ∈ atoms (mo (sd 8) .i64) := by decide +kernel
theorem test_atomic_issue : traps (State.word0 (State.with0 (at' (.atfadd (mo (vd 8) .f32 (.imm 0) (.imm 0)))) fun w => { w with a := w.a.set 2 flat }) 9 3)
      0x62 0 = true
    ∧ traps (State.with0 (at' (.atadd (mo (vd 8) .i64 (.imm 4) (.imm 0)))) fun w => { w with a := w.a.set 2 flat }) 0x14 0 = true
    ∧ traps (State.with0 (at' (.atadd (mo (vd 8) .i32 (.imm 4) (.imm 0)))) fun w => { w with a := w.a.set 2 (areg 0 0 64 1) }) 0x11 1 = true := by
  decide +kernel

/-- A request that waits for its lockkeeper. -/
def requestIs (s : State) (f : Ctx → AtomReq → Bool) : Bool := match s.requesting 0 0 with | some (c, .atomic r) => f c r | _ => false
def added : State := does (.atadd (mo (vd 8) .i32 (.reg 4) (.imm 5))) (memAt flat [7])
/-- A region with two cells and anchor -2 at 0x200000, and an element for a cell of it in each lane of a set. -/
def regionAt0 (i : Nat) (x : Nat → Nat) (m : Nat) : State := State.path0 (State.with0
  (memAt flat [0x58, 0x45, 0x52, 0x43, 0xFE, 0xFF, 0, 0, 2]) fun w => (Warp.fill w 4 i).setVreg 6 fun l => some (BitVec.ofNat 32 (x l)))
  fun p => { p with mask := BitVec.ofNat 32 m }
def toRegion (i : Nat) (m : Nat := 1) : State :=
  does (.atfaddRgn (mo .noDest .none (.reg 4) (.reg 6))) (regionAt0 i (fun l => nth [0x40200000, 0xBF400000, 0x3F900000] l 0) m)
theorem witness_AtomicExecution : requestIs added (fun c r => !r.todo.isEmpty && !r.seqs.isEmpty && r.op == .add && decide (c.la.det = 0)
      && match r.todo with
        | u :: _ => let ts := r.todo.filter fun x => homeOf x.piece == homeOf u.piece
          r.seqs.getD (homeOf u.piece) 0 == ((added.pairOf (pairKey (coreOf 0) (homeOf u.piece))).executed + 1) % 2 ^ 16
          && !added.heldFrom (some c.env.part) (ts.map (·.piece)) && !added.logFull c.bid (ts.map (·.piece)) && added.stores.isEmpty
          && ts.all (fun z => (added.lanePoison z).isNone && z.piece.len * 8 == 32) && decide (added.classOf c.bid = 0)
          && added.lockTurn (homeOf u.piece) (requestKey c.wid ts) && !r.stands && added.unacked.isEmpty
        | [] => false) = true
    ∧ requestIs (heldAt added) (fun c r => (heldAt added).contextRuns c.env.part
        && r.homes.all fun h => (requestStep (heldAt added) c r h).isNone) = true
    ∧ requestIs (heldAt added) (fun c r => (heldAt added).heldFrom (some c.env.part) (r.todo.map (·.piece))) = true := by decide +kernel
theorem witness_AtomicExecution_region : requestIs (toRegion 1) (fun c r => r.op == .rgn && r.todo.length == 1
      && match (toRegion 1).regionOf c.env r.header, r.todo with
        | .ok g, [u] => u.piece.len == 16 && u.y == 1 && g.cells == 2 && (fspec .f32).decode (u.x.toNat % 2 ^ 32) == .fin false 10485760 (-22)
          && g.header.all (fun p => p.len == 32 && p.key + p.len ≤ u.piece.key)
        | _, _ => false) = true
    ∧ requestIs (toRegion 2) (fun _ r => r.todo.all fun u => u.y == 2) = true := by decide +kernel
/-- An atomic whose answer is there, for each class of destination. -/
theorem witness_AtomicExecution_returns : [vd 8, sd 8, .noDest].all (fun d =>
      let s := does (.lockkeeperRequest 0 0) (does (.atadd (mo d .i32 (.imm 0) (.imm 5))) (memAt flat [7]))
      match s.awaiting 0 0 with
      | some (_, .atomic r) => r.todo.isEmpty && r.poison == 0 && r.gone == 0 && r.refused == 0 && r.d == d
      | _ => false) = true
    ∧ (match (does (.lockkeeperRequest 0 0) { added with poison := [0x10000] }).awaiting 0 0 with
      | some (_, .atomic r) => r.todo.isEmpty && r.poison == 0xFF
      | _ => false) = true
    ∧ (match (does (.lockkeeperRequest 0 0) (toRegion 2)).awaiting 0 0 with
      | some (_, .atomic r) => r.todo.isEmpty && r.refused == 1 && r.d.cls == .none
      | _ => false) = true := by decide +kernel

/-- What an atomic finds and leaves at 0x200000, lane 0 acting. -/
def swapped (k : Mem → Instr) (f : Fmt) (x : List Nat) (b : Nat) : Option Nat × Nat :=
  let t := atomic (k (mo (vd 8) f (.imm 0) (.reg 6))) (one0 (memAt flat x fun _ => b))
  (lane t 8 0, leNat (t.mem.bytes 0x200000 4))
-- R373: what is found, and what is left.
theorem test_atomic_sums : swapped .atadd .i32 [0xFF, 0xFF, 0xFF, 0xFF] 2 = (some 0xFFFFFFFF, 1) ∧ swapped .atsub .i32 [1] 2 = (some 1, 0xFFFFFFFF)
    ∧ swapped .atinc .i32 [5] 5 = (some 5, 0) ∧ swapped .atinc .i32 [4] 5 = (some 4, 5) := by decide +kernel
theorem test_atomic_limits : swapped .atmin .i32 [1] 0xFFFFFFFF = (some 1, 0xFFFFFFFF) ∧ swapped .atmax .i32 [1] 0xFFFFFFFF = (some 1, 1)
    ∧ swapped .atminN .i32 [1] 0xFFFFFFFF = (some 1, 1) ∧ swapped .atmaxN .i32 [1] 0xFFFFFFFF = (some 1, 0xFFFFFFFF) := by decide +kernel
theorem test_atomic_logic : swapped .atand .i32 [12] 10 = (some 12, 8) ∧ swapped .ator .i32 [12] 10 = (some 12, 14)
    ∧ swapped .atxor .i32 [12] 10 = (some 12, 6) ∧ swapped .atswp .i32 [12] 10 = (some 12, 10) := by decide +kernel
theorem test_atfadd : swapped .atfadd .f32 [0, 0, 0x80, 0x3F] 0x40000000 = (some one32, 0x40400000) := by decide +kernel
-- The lanes of one location are applied one after another; once for the path, the scalar takes the sum's old value.
theorem test_atomic_lanes : (let t := atomic (.atadd (mo (vd 8) .i32 (.imm 0) (.imm 3))) (memAt flat); (lane t 8 31, leNat (t.mem.bytes 0x200000 4)) = (some 93, 96))
    ∧ (let t := atomic (.atadd (mo (sd 8) .i32 (.imm 4) (.imm 3))) (memAt flat [0, 0, 0, 0, 9]); (sreg t 8, leNat (t.mem.bytes 0x200004 4)) = (some 9, 12)) := by
  decide +kernel
-- R374: the new value is the old destination; a failed compare stores nothing.
theorem test_acas : (let t := atomic (.acas (mo (vd 4) .i32 (.imm 0) (.imm 7))) (State.with0 (one0 (memAt flat [7])) fun w => Warp.fill w 4 50)
      (lane t 4 0, leNat (t.mem.bytes 0x200000 4)) = (some 7, 50))
    ∧ (let t := atomic (.acas (mo (vd 4) .i32 (.imm 0) (.imm 8))) (State.with0 (one0 (memAt flat [7])) fun w => Warp.fill w 4 50)
      (lane t 4 0, leNat (t.mem.bytes 0x200000 4)) = (some 7, 7)) := by decide +kernel
-- The worked example of R337: 2.5, -0.75 and 1.125 under anchor -2 make 11, and the header's flags 0b001; a cell outside the region.
theorem test_atfaddRgn : (let t := does (.lockkeeperRequest 0 0) (toRegion 1 7); (leNat (t.mem.bytes 0x200030 16), leNat (t.mem.bytes 0x200010 8)) = (11, 1))
    ∧ (let t := does (.lockkeeperRequest 0 0) (State.with0 (toRegion 2) fun w => { w with inHandler := true })
      warpHas (does (.atomicResultReturn 0 0) t) (fun w => w.halted) = true ∧ leNat (t.mem.bytes 0x200040 16) = 0) := by decide +kernel

/-! ### Barriers, semaphores, waits and fences -/

def e0 (ord : Order := .rlx) : MExt := ⟨0, ord, 0, 0⟩
/-- The placed machine at a word, barrier 3 holding a count, arrivals and warp 0's record. -/
def barAt (e n : Nat) (r : RecState) (i : Instr := .nop .always) : State :=
  State.block0 (at' i) fun b => { b with bars := b.bars.set 3 ⟨e, n, 9, [(0, ⟨r, some 8⟩)]⟩ }
/-- Barrier 3 after. -/
def bar3 (s : State) : Option (Nat × Nat × Nat × RecState) :=
  (s.blocks.get? 0).map fun b => ((b.barrier 3).e, (b.barrier 3).n, (b.barrier 3).ph.toNat, ((b.barrier 3).record 0).state)
/-- The stream of the block has stopped and named barrier 3. -/
def stoppedAt : State := State.block0 (barAt 2 0 .none) fun b =>
  { b with mx := { b.mx with stream := some { placedStream with named := [3] }, stopped := some ⟨0x50, 1, 7, false⟩ } }
/-- A path that holds lanes beside the issuing one. -/
def dividedAt (s : State) : State := State.with0 s fun w => (w.setPath 0 { w.path 0 with mask := 1 }).setPath 1 { w.path 0 with mask := 2 }

theorem witness_Barriers :
    (ready (barAt 0 0 .none) fun c => decide (3 < c.blk.bars.length ∧ c.pidx < c.w.paths.length) && (checkLatch c .always .sca (.imm 1024)).isOk
      && c.once .always && !c.w.divided 0 && ((barAt 0 0 .none).faultDue 0 0 3).isNone && c.p.arrived.isNone
      && (c.blk.barrier 3).admits 1024 && !(c.blk.barrier 3).admits 1025 && !(c.blk.barrier 3).admits 0 && (c.blk.barrier 3).admits 1) = true
    ∧ (ready (dividedAt (barAt 0 0 .none)) fun c => c.w.divided 0) = true
    ∧ (ready stoppedAt fun _ => (stoppedAt.faultDue 0 0 3) == some ⟨0x50, 1, 7, false⟩) = true
    ∧ (ready (State.path0 (barAt 2 1 .done) fun p => { p with arrived := some p.pc }) fun c =>
      c.p.arrived == some c.p.pc && ((c.blk.barrier 3).record c.w.index).state == .done) = true
    ∧ (ready { barAt 0 0 .none with stores := [queued] } fun c =>
      !({ barAt 0 0 .none with stores := [queued] }.releasable 0 (c.real .always) 0)) = true
    ∧ (ready (barAt 0 0 .none) fun c => !c.once p2) = true := by decide +kernel
-- R385: the first of two arrivals; the last one ends the phase; a count other than the phase's; a count below the arrivals.
theorem test_bara : bar3 (does (.bara .always 3 (.imm 2) (e0)) (barAt 0 0 .none)) = some (2, 1, 9, .pending)
    ∧ bar3 (does (.bara .always 3 (.imm 2) (e0)) (barAt 0 1 .none)) = some (2, 0, 10, .done)
    ∧ traps (barAt 3 1 .none (.bara .always 3 (.imm 2) (e0))) 0x71 2 = true
    ∧ traps (dividedAt (barAt 0 0 .none (.bara .always 3 (.imm 2) (e0)))) 0x71 1 = true := by decide +kernel
theorem test_barw : bar3 (does (.barw .always 3 (e0)) (barAt 2 1 .done)) = some (2, 1, 9, .none)
    ∧ parkedFor (does (.barw .always 3 (e0)) (barAt 2 1 .pending)) .barrier = true
    ∧ standsAt (does (.barw .always 3 (e0)) (barAt 2 1 .done)) (pc0 + 1) = true := by decide +kernel
theorem test_bars : (let t := does (.bars .always 3 (.imm 2) (e0)) (barAt 0 0 .none); parkedFor t .barrierAfterArrival = true ∧ bar3 t = some (2, 1, 9, .pending))
    ∧ (let t := does (.bars .always 3 (.imm 2) (e0)) (barAt 2 1 .none); standsAt t (pc0 + 1) = true ∧ bar3 t = some (2, 0, 10, .none)) := by
  decide +kernel

/-- The placed machine with a semaphore of value v at 0x200000. -/
def semAt (v : Nat) : State := memAt flat [v]
def semReq (take : Bool) (m v : Nat) : State := does ((if take then Instr.semwTake else Instr.semwTk) (mo .noDest .i64 (.imm m))) (semAt v)
def semWait (take : Bool) (m v : Nat) : State := does (.lockkeeperRequest 0 0) (semReq take m v)
def requests (s : State) (f : Ctx → AtomReq → Bool) : Bool := match s.awaiting 0 0 with | some (c, .atomic r) => f c r | _ => false
theorem witness_SemaphoresWaitsAndFences : (ready (semAt 1) fun c => (checkLatch c .always .sca (.imm 1)).isOk && decide (c.pidx < c.w.paths.length)
      && c.once .always && decide (c.la.det = 0) && (checkAtomic (semAt 1) c (c.w.areg 2) true 8 (some (c.real .always)) [(0, 0x200000)]).isOk) = true
    ∧ (ready (State.word0 (semAt 1) 9 3) fun c => decide (c.la.det = 3)) = true
    ∧ (requestIs (semReq true 2 5) fun c r => r.op == .semw true && !r.seqs.isEmpty && match r.todo with
        | [u] => (semReq true 2 5).requestReady c r (homeOf u.piece) [u] && decide ((semReq true 2 5).waitersAt (homeOf u.piece) < 1024)
        | _ => false) = true
    ∧ (let s := { semReq true 2 5 with semQueues := [(0x200000, List.replicate 1024 (1, 1))] }
      requestIs s fun _ r => match r.todo with
        | [u] => decide (1024 ≤ s.waitersAt (homeOf u.piece))
        | _ => false) = true := by decide +kernel
theorem witness_SemaphoresWaitsAndFences_watch : [(true, 5), (false, 5), (true, 1)].all (fun (x : Bool × Nat) => let s := semWait x.1 2 x.2
      requests s fun c r => r.op == .semw x.1 && r.seqs.isEmpty && r.stands && r.gone == 0 && decide (c.la.det = 0) && decide (s.classOf c.bid = 0) && match r.todo with
        | [u] => (match reAim s c r u with | .ok v => v.piece == u.piece | .error _ => false) && !s.heldFrom (some c.env.part) [u.piece]
            && !s.onItsWay [u.piece] && (s.lanePoison u).isNone && u.piece.len == 8 && u.x == 2 && leNat (s.readPiece u.piece) == x.2
            && decide (x.1 = true → (s.semQueues.getD u.piece.key []).head? = some (0, 0))
        | _ => false) = true
    ∧ (let s := { semWait true 2 5 with poison := [0x10000] }
      requests s fun _ r => r.todo.any fun u => (s.lanePoison u).isSome) = true := by decide +kernel
/-- `mwait`: the condition holds, does not with limit 0, and with one; poison; not acting. -/
theorem witness_SemaphoresWaitsAndFences_mwait : (ready (semAt 7) fun c =>
      match checkRange (semAt 7) c.env (c.w.areg 2) true false 4 (some (c.real .always)) [((lanesOf (c.real .always)).headD 0, 0x200000)] with
      | .ok ys => (watch (semAt 7) c true false (some (c.real .always)) ys).isOk && (waitLines (semAt 7) ys).isOk
          && leNat (((semAt 7).seenBy 0 (c.real .always) 0).readPieces (ys.flatMap (·.2.2))) == 7
          && (((semAt 7).seenBy 0 (c.real .always) 0).poisonOf (ys.flatMap (·.2.2))).isNone
          && !(semAt 7).heldFrom (some 0) (ys.flatMap fun y => y.2.2) && (semAt 7).mayRead 0 (c.real .always) (ys.flatMap fun y => y.2.2)
          && !(State.mayRead { semAt 7 with stores := [queued] } 0 (c.real .always) (ys.flatMap fun y => y.2.2))
          && !(State.releasable { semAt 7 with stores := [{ queued with ord := .sc }] } 0 (c.real .always) 0)
          && (State.poisonOf { semAt 7 with poison := [0x10000] } (ys.flatMap (·.2.2))) == some 0
      | .error _ => false) = true ∧ (ready (semAt 7) fun c => !c.once p2) = true := by decide +kernel
def waiting (limit : Nat) : State := does (.mwait .eq (mo (sd 8) .i32 (.imm 9) (.imm limit))) (semAt 7)
theorem witness_SemaphoresWaitsAndFences_reread : [5, 2 ^ 40].all (fun n => match (waiting n).awaiting 0 0 with
      | some (c, .monitor r) => r.entry.isNone && r.cond == .eq && r.fmt == .i32 && decide (c.la.det = 0)
          && r.deadline == (if n = 5 then some ((waiting n).cycle + 5) else none) && (match r.pieces (waiting n) c.env with
            | .ok ps => ((waiting n).poisonOf ps).isNone && !(waiting n).heldFrom (some 0) ps && (waiting n).mayRead 0 0xFFFFFFFF ps
              && ((State.poisonOf { waiting n with poison := [0x10000] } ps) == some 0)
            | .error _ => false)
          && (match r.pieces { waiting n with iommu := [], atc := [] } c.env with | .ok _ => false | .error _ => true)
      | _ => false) = true := by decide +kernel

-- R389, R391: a take leaves the value less the count; the fixed-count form leaves it; a value too small waits.
theorem test_semwTake : (let t := does (.semaphoreWatchEval 0 0) (semWait true 2 5); (leNat (t.mem.bytes 0x200000 8), standsAt t (pc0 + 1))) = (3, true)
    ∧ parkedFor (does (.semaphoreWatchEval 0 0) (semWait true 2 1)) .semaphore = true
    ∧ traps (State.word0 (State.with0 (at' (.semwTake (mo .noDest .i64 (.imm 2)))) fun w => { w with a := w.a.set 2 flat }) 9 3) 0x62 0 = true := by
  decide +kernel
theorem test_semwTk : (let t := does (.semaphoreWatchEval 0 0) (semWait false 2 5); (leNat (t.mem.bytes 0x200000 8), standsAt t (pc0 + 1))) = (5, true) := by
  decide +kernel
theorem test_semp : (let t := atomic (.semp (mo .noDest .i64 (.imm 3))) (semAt 5); (leNat (t.mem.bytes 0x200000 8), standsAt t (pc0 + 1))) = (8, true) := by
  decide +kernel
-- R395: a condition that holds gives 1, limit 0 gives 0; the seq condition looks at 48 bits.
theorem test_mwait : sreg (does (.mwait .ge (mo (sd 8) .i32 (.imm 7) (.imm 5))) (semAt 7)) 8 = some 1
    ∧ sreg (does (.mwait .lt (mo (sd 8) .i32 (.imm 7) (.imm 0))) (semAt 7)) 8 = some 0
    ∧ sreg (does (.mwait .seq (mo (sd 8) .i64 (.imm 7) (.imm 5))) (memAt flat [7, 0, 0, 0, 0, 0, 9])) 8 = some 1
    ∧ parkedFor (waiting 5) .monitor = true := by decide +kernel
theorem test_mwait_ends : sreg (does (.mwaitReread 0 0) { waiting 5 with mem := (waiting 5).mem.write 0x200000 [9] }) 8 = some 1
    ∧ sreg (does (.mwaitTimeout 0 0) { waiting 5 with cycle := (waiting 5).cycle + 5 }) 8 = some 0
    ∧ does (.mwaitTimeout 0 0) { waiting 5 with cycle := (waiting 5).cycle + 4 } = { waiting 5 with cycle := (waiting 5).cycle + 4 } := by decide +kernel
theorem test_fence : parkedFor (does (.fence .always (e0 .rel)) { at' (.nop .always) with stores := [queued] }) .fence = true
    ∧ standsAt (does (.fence .always (e0 .acq)) { at' (.nop .always) with stores := [queued] }) (pc0 + 1) = true := by decide +kernel

/-! ### Barges -/

/-- Operands of a command: destination register 2, source register 3, parameters from s40. -/
def co (f : Fmt := .none) (d : Dst := sd 9) : Copy := ⟨.always, d, f, 2, 3, 40, ⟨0, .rel, 1, 0⟩⟩
/-- The placed machine with destination and source registers, parameters, and bytes at 0x201000. -/
def copyAt (par : List Nat) (bs : List Nat := []) (dst : AReg := flat) (src : AReg := areg 0x201000 0x201000 0x202000) : State :=
  let s := memAt dst
  State.with0 { s with mem := s.mem.write 0x201000 (bs.map (BitVec.ofNat 8)) } fun w =>
    { w with a := w.a.set 3 src, s := (List.range par.length).foldl (fun v i => v.set (40 + i) (BitVec.ofNat 64 (nth par i 0))) w.s }
def copy1 (s : State) (f : CopyCmd → Bool) : Bool := (s.blocks.get? 0).any fun b => (b.copies.get? 1).any f
/-- A command accepted; made active; having moved n times; and a stop or end after that. -/
def accepted (i : Instr) (s : State) : State := does i s
def active (i : Instr) (s : State) : State := does (.commandActive 0 1) (accepted i s)
def moved (n : Nat) (i : Instr) (s : State) : State := Nat.repeat (does (.sectorMove 0 ⟨1, everyCore⟩)) n (active i s)
def ended (n : Nat) (i : Instr) (s : State) : State := does (.copyEnd 0 1) (moved n i s)

/-- A copy of 40 bytes with a stamp: checked, none open, its lanes' writes visible. -/
theorem witness_BargeCommandIssue : (let s := copyAt [40, 0x200800]
      ready s fun c => decide (c.pidx < c.w.paths.length) && c.once .always && c.la.prodValid && c.la.prodWarp == c.w.index
        && s.drainedFor 0 (c.real .always) 0x08 && !(c.once p2)
        && (let cmd : CopyCmd := ⟨.copy, 0, 0, 0x200000, 0x201000, [40, 0x200800], 0x200800, 1, false, .queued, 0, [], 0, 0, 0, false, false, false, none, none, none, []⟩
          badParam c.blk cmd == none && ((copyRanges cmd (c.w.areg 2) (c.w.areg 3) 0x200000 0x201000).forM (checkCopyRange s c (c.real .always))).isOk
            && (checkStamp (c.real .always) cmd.stamp).isOk)) = true
    ∧ (Instr.cpyfill (co), CopyOp.fill) ∈ [(Instr.cpybc co, CopyOp.bcast), (.cpyfill co, .fill)] := by decide +kernel
/-- Its other ways: no producer; 32 commands open; writes not yet visible; a destination out of reach. -/
theorem witness_BargeCommandIssue_else : (ready (State.word0 (copyAt []) 6 0x4220) fun c => c.la.prodValid && c.la.prodWarp != c.w.index) = true
    ∧ (ready (State.block0 (copyAt [40, 0]) fun b => { b with copies := (List.range 32).map fun k =>
        (k + 1, ⟨.fill, k + 1, 0, 0, 0, [], 0, 1, false, .queued, 0, [], 0, 0, 0, false, false, false, none, none, none, []⟩) })
      fun c => (c.blk.copies.filter fun x => x.2.state ≠ .ended).length == 32) = true
    ∧ (ready { copyAt [40, 0] with stores := [queued] } fun c =>
      !(State.drainedFor { copyAt [40, 0] with stores := [queued] } 0 (c.real .always) 0x08)) = true
    ∧ (ready (copyAt [4097, 0]) fun c => decide ((c.w.areg 2).limit.toNat < 0x200000 + (c.w.sreg 40).toNat)) = true := by decide +kernel
/-- A kept command, one whose number has passed, and a launch for each outcome of `cpycan`. -/
theorem witness_BargeCommandIssue_query : (let s := again (accepted (.cpy (co)) (copyAt [40, 0]))
      ready s fun c => (c.blk.copies.get? 1).isSome && decide (c.blk.copySeq < 1 + 64) && (c.blk.copies.get? 2).isNone && decide (c.la.det ≤ 1)
        && c.blk.copies.all (fun x => x.2.seq == x.1) && c.blk.copies.length == 1) = true
    ∧ (ready (State.word0 (copyAt []) 9 3) fun c => decide (c.la.det = 3)) = true := by decide +kernel
theorem test_cpy_accepted : (let t := accepted (.cpy (co)) (copyAt [40, 0x200800])
      sreg t 9 = some 1 ∧ t.owned.map (·.1) = [0x4000] ∧ standsAt t (pc0 + 1) = true ∧ copy1 t (fun c => c.state == .queued) = true)
    ∧ (accepted (.cpyfill (co)) (copyAt [129, 0, 0] (dst := sramReg))).absent.map (·.1) = [2 ^ 60 / 128, 2 ^ 60 / 128 + 1] := by decide +kernel
theorem test_command_traps : traps (State.word0 (at' (.cpy (co))) 6 0x4220) 0x20 0 = true
    ∧ traps (State.with0 (at' (.cpy (co))) fun w => { w with a := w.a.set 2 flat, s := w.s.set 40 (BitVec.ofNat 64 (2 ^ 32 + 1)) }) 0x10 0x0D = true
    ∧ traps (State.with0 (at' (.cpy (co))) fun w => { w with a := w.a.set 2 (areg 0 0 64 1), s := w.s.set 40 8 }) 0x11 0x01 = true := by decide +kernel
theorem test_cpyq : (let s := again (accepted (.cpy (co)) (copyAt [40, 0])); sreg (does (.cpyq .always (sd 8) (.reg 9)) s) 8) = some (2 ^ 60)
    ∧ sreg (does (.cpyq .always (sd 8) (.imm 1)) (again (ended 3 (.cpy (co)) (copyAt [40, 0])))) 8 = some (4 * 2 ^ 60 + 40)
    ∧ sreg (does (.cpyq .always (sd 8) (.imm 2)) (copyAt [])) 8 = some 0 := by decide +kernel
theorem test_cpycan : copy1 (does (.sectorMove 0 ⟨1, everyCore⟩) (does (.cpycan .always (.imm 0)) (again <| active (.cpy (co)) (copyAt [40, 0])))) (fun c => c.status == 1) = true
    ∧ traps (State.word0 (at' (.cpycan .always (.imm 0))) 9 3) 0x62 0 = true := by decide +kernel

/-- The command's context and a property of it. -/
def copyIs (s : State) (f : CopyCtx → Bool) : Bool := s.mayIssue 0 && (s.copyOf 0 1).any fun x => decide (x.la.det = 0) && x.cmd.seq == 1 && f x
theorem witness_BargeMoves : copyIs (accepted (.cpy (co)) (copyAt [40, 0])) (fun x => x.cmd.state == .queued && x.blk.copies.length == 1) = true
    ∧ (let s := active (.cpy (co)) (copyAt [40, 0]); copyIs s fun x => x.cmd.state == .active && x.cmd.endWith.isNone && !x.cmd.cancel && x.cmd.cancelAt.isNone
      && !x.cmd.badRead && (match s.bargePieces x.env false true false (x.cmd.src, 32), s.bargePieces x.env false false true (x.cmd.dst, 32) with
        | .ok [p], .ok [q] => p.len == 32 && q.len == 32 && x.cmd.lines.all (fun e => e.2 != p.key / 128)
        | _, _ => false)) = true
    ∧ (let s := active (.cpyfill (co)) (copyAt [40, 0, 0] (dst := areg (2 ^ 25) (2 ^ 25) (2 ^ 26))); copyIs s fun x => x.cmd.op == .fill && match s.bargePieces x.env false false true (x.cmd.dst, 32) with
        | .error (.fault _ wr) => wr
        | _ => false) = true
    ∧ copyIs (moved 2 (.cpy (co)) (copyAt [40, 0])) (fun x => x.cmd.state == .active && decide (x.cmd.total ≤ x.cmd.pos)) = true
    ∧ copyIs (moved 3 (.cpy (co)) (copyAt [40, 0])) (fun x => x.cmd.state == .ending && x.cmd.stamp == 0) = true
    ∧ (let s := moved 3 (.cpy (co)) (copyAt [40, 0x200800]); copyIs s fun x => x.cmd.state == .ending && match s.bargePieces x.env false false true (x.cmd.stamp, 8) with
        | .ok [q] => q.len == 8 && q.peer.isNone && s.peersDone (.barge 0) (x.cmd.mask ||| 0x08) && !s.notLanded 0 q && !s.heldFrom (some 0) [q]
            && !s.logFull 0 [q] && !x.cmd.mask.getLsbD 5 && decide (s.classOf 0 = 0)
        | _ => false) = true
    ∧ (let s := { moved 3 (.cpy (co)) (copyAt [40, 0x200800]) with parts := (heldAt (copyAt [])).parts.put 1 { Partition.reset 2 with ck := { (Partition.reset 2).ck with logged := [(1, [0x4010])] } } }
      copyIs s fun x => x.cmd.state == .ending && match s.bargePieces x.env false false true (x.cmd.stamp, 8) with
        | .ok qs => s.heldFrom (some 0) qs
        | _ => false) = true := by decide +kernel
/-- A page request at its ends: not sent, sent and answered in time or after seven tries, resident by now or not. -/
def faulted (on : Bool) : State := moved 1 (.cpyfill (co)) { copyAt [40, 0, 0] (dst := areg (2 ^ 25) (2 ^ 25) (2 ^ 26)) with pageRequests := on }
def paged (s : State) : State := { s with iommu := ⟨0, 2 ^ 25, 2 ^ 25, .hbm, 2 ^ 25, true, true, true, 0⟩ :: s.iommu }
theorem witness_BargeMoves_pages : copyIs (faulted false) (fun x => match x.cmd.state with
      | .waiting r => !r.sent && !r.stamp && decide (r.from' ≤ (faulted false).cycle)
      | _ => false) = true
    ∧ copyIs (faulted true) (fun x => match x.cmd.state with
      | .waiting r => r.sent && decide (x.cmd.retries < 7) && !nowResident (faulted true) x r && nowResident (paged (faulted true)) x r
      | _ => false) = true
    ∧ copyIs (State.block0 (faulted true) fun b => { b with copies := b.copies.map fun e => (e.1, { e.2 with retries := 7 }) }) (fun x => x.cmd.retries == 7) = true := by
  decide +kernel
/-- A `cpyadd` active with its region read. -/
def region1 : List Nat := [0x58, 0x45, 0x52, 0x43, 0xFE, 0xFF, 0, 0, 2]
def adding (n : Nat := 2) : State := let s := copyAt [n, 0, 0] [0, 0, 0x20, 0x40, 0, 0, 0x40, 0xBF, 0, 0, 0x90, 0x3F]
  moved 1 (.cpyadd (co .f32)) { s with mem := s.mem.write 0x200000 (region1.map (BitVec.ofNat 8)) }
theorem witness_BargeMoves_add : copyIs (adding) (fun x => x.cmd.op == .add .f32 && x.cmd.region == some (-2, 2)
    && match (adding).bargePieces x.env false true false (x.cmd.src, 4), (adding).bargePieces x.env false true true (x.cmd.dst + 32, 16), (adding).bargePieces x.env false true true (x.cmd.dst, 32) with
      | .ok [p], .ok [q], .ok [h] => q.len == 16 && decide (h.key + 32 ≤ q.key) && !(adding).poisoned p
          && (fspec .f32).decode (leNat ((adding).mem.bytes p.key p.len)) == .fin false 10485760 (-22)
      | _, _, _ => false) = true := by decide +kernel
/-- Each of its cells is one piece beside the header, and nothing holds the move back. -/
theorem witness_BargeMoves_add_placed : copyIs (adding) (fun x => let u := x.cmd.unitAt x.runs x.cmd.pos
    match placeUnit adding x u with
    | .ok y => y.header.length == 1 && y.writes.all (fun q => q.length == 1 && q.all fun p => p.len == 16 && p.host.isNone) && y.reads.all (!adding.carriesPoison ·)
        && !readWaits adding x y.reads.flatten && !writeWaits adding x u (y.writes.flatten ++ y.header) && !x.cmd.cancelled
    | .error _ => false) = true := by decide +kernel
/-- A command that is queued behind an active one of its barge; a move that another group's interval holds; one whose slice is unmapped;
one that is cancelled while it waits for a page. -/
theorem witness_BargeMoves_else : (let s := State.block0 (active (.cpy (co)) (copyAt [40, 0])) fun b =>
        { b with copies := b.copies ++ b.copies.map fun e => (3, { e.2 with seq := 3, state := .queued }) }
      does (.commandActive 0 3) s == s) = true
    ∧ (let s := heldAt (active (.cpy (co)) (copyAt [40, 0])); copyIs s fun x => let u := x.cmd.unitAt x.runs x.cmd.pos
      match placeUnit s x u with
      | .ok y => writeWaits s x u y.writes.flatten && x.cmd.state == .active && decide (x.cmd.pos < x.cmd.total)
      | .error _ => false) = true
    ∧ (let s := State.part0 (active (.cpyfill (co)) (copyAt [40, 0, 0] (dst := sramReg))) fun p => { p with slices := [] }
      copyIs s fun x => (match placeUnit s x (x.cmd.unitAt x.runs x.cmd.pos) with | .error .unmapped => true | _ => false) && (unitBefore s x).isNone) = true
    ∧ (let s := State.block0 (faulted true) fun b => { b with copies := b.copies.map fun e => (e.1, { e.2 with cancel := true }) }
      copyIs s fun x => x.cmd.cancelled && match x.cmd.state with | .waiting r => r.sent && !r.stamp | _ => false) = true
    ∧ copyIs (faulted true) (fun x => (unitBefore (faulted true) x).isNone && !(faulted true).abandons 0) = true := by decide +kernel
-- A copy of 40 bytes is two moves of one sector and an end; its stamp.
def fortyBytes : List Nat := (List.range 40).map (· + 1)
theorem test_cpy : (let t := ended 3 (.cpy (co)) (copyAt [40, 0x200800] fortyBytes)
    (t.mem.bytes 0x200000 41 = (fortyBytes ++ [0]).map (BitVec.ofNat 8)) ∧ leNat (t.mem.bytes 0x200800 8) = 1 ∧ t.owned = []) := by decide +kernel
theorem test_cpyfill : leNat ((moved 2 (.cpyfill (co)) (copyAt [12, 0x1122334455667788, 0])).mem.bytes 0x200000 13) = 0x556677881122334455667788 := by
  decide +kernel
-- Gather of 4-byte elements with stride 8, and the scatter that undoes it.
theorem test_cpys : leNat ((moved 2 (.cpys false (co)) (copyAt [2, 2, 0, 8, 0, 0, 0, 0] fortyBytes)).mem.bytes 0x200000 8) = 0x0C0B0A0904030201
    ∧ leNat ((moved 2 (.cpys true (co)) (copyAt [2, 2, 0, 8, 0, 0, 0, 0] fortyBytes)).mem.bytes 0x200000 12) = 0x080706050000000004030201 := by decide +kernel
-- The worked example of R337, over two cells here: 10 and -3, the third element outside the region.
theorem test_cpyadd : (let s := copyAt [2, 0, 0] [0, 0, 0x20, 0x40, 0, 0, 0x40, 0xBF]
    let t := moved 3 (.cpyadd (co .f32)) { s with mem := s.mem.write 0x200000 (region1.map (BitVec.ofNat 8)) }
    leNat (t.mem.bytes 0x200020 16) = 10 ∧ leNat (t.mem.bytes 0x200030 16) = 2 ^ 128 - 3)
    ∧ copy1 (adding 3) (fun c => c.status == 0x0205) = true := by decide +kernel
theorem test_cpybc : (let s := copyAt [8, 1, 0] (dst := { sramReg with pointer := 0x7E0000000100 }) (src := sramReg)
    leNat ((moved 1 (.cpybc (co)) { s with mem := s.mem.write (2 ^ 60) [1, 2, 3, 4, 5, 6, 7, 8] }).mem.bytes (2 ^ 60 + 256) 8)) = 0x0807060504030201 := by decide +kernel
-- The worked example of R338: p = 4, largest magnitude 3.0; and 3.9 clamped.
def f32s (xs : List Nat) : List FVal := xs.map (fspec .f32).decode
theorem test_plane_segment : planeSegment .rne 4 (f32s [0x40400000, 0x3E99999A, 0xC0300000]) = (126, [6, 1, -6])
    ∧ planeSegment .rne 4 (f32s [0x4079999A]) = (126, [7]) ∧ planeSegment .rne 4 (f32s [0, 0x80000000]) = (127, [0, 0]) := by decide +kernel
-- One row of 32 elements 1.0 in two planes: the integer is 1 under scale 126 + 1 = 127, one bit set in plane 0; and back to 1.0 in bf16.
def planeAt (ef : Nat) (dst src : AReg) : State := copyAt [2 + ef * 2 ^ 12, 64 + 2 ^ 32 * 32, 256, 0x7E0000001000, 0, 0, 0, 0]
  ((List.range 32).flatMap fun _ => [0, 0, 0x80, 0x3F]) dst src
theorem test_plane : (let t := moved 1 (.plane false (co .pb)) (planeAt 4 sramReg (areg 0x201000 0x201000 0x209000))
    leNat (t.mem.bytes (2 ^ 60) 4) = 2 ^ 32 - 1 ∧ leNat (t.mem.bytes (2 ^ 60 + 0x100) 4) = 0 ∧ leNat (t.mem.bytes (2 ^ 60 + 0x1000) 1) = 127) := by
  decide +kernel
theorem test_unplane : (let s := planeAt 6 (areg 0x200000 0x200000 0x208000) sramReg
    let t := moved 1 (.unplane false (co .bf16)) { s with mem := (s.mem.write (2 ^ 60) [0xFF, 0xFF, 0xFF, 0xFF]).write (2 ^ 60 + 0x1000) [128] }
    leNat (t.mem.bytes 0x200000 4) = 0x40004000 ∧ leNat (t.mem.bytes 0x20003C 8) = 0x40004000) := by decide +kernel
theorem test_prg_answers : copy1 (does (.prgResponse 0 1 .success) (paged (faulted true))) (fun c => c.state == .active) = true
    ∧ copy1 (does (.prgResponse 0 1 .invalid) (faulted true)) (fun c => c.status == 0x0202) = true
    ∧ (does (.prgResponse 0 1 .failure) (faulted true)).pageRequests = false
    ∧ (does (.pageRequestRetry 0 1) { faulted false with pageRequests := true }).outbox.length = 1 := by decide +kernel

/-! ### The matrix stream and its engine -/

/-- The placed stream at a word, with runs of bytes in the block's SRAM. -/
def streamAt (i : Instr) (xs : List (Nat × List Nat) := []) (f : Mx → Mx := id) : State :=
  let s := State.block0 (at' i) fun b => { b with mx := f { b.mx with stream := some placedStream } }
  { s with
    focus := some (.stream 0 none)
    mem := xs.foldl (fun m x => m.write (2 ^ 60 + x.1) (x.2.map (BitVec.ofNat 8))) s.mem }
def streamReady (s : State) (f : SCtx → Bool) : Bool := s.focus == some (.stream 0 none) && (s.stream? 0 none).any fun c => c.m.drain.isNone && f c
/-- The matrix context after, the stream after, and whether it stopped. -/
def mxOf (s : State) : Option Mx := (s.blocks.get? 0).map (·.mx)
def streamHas (s : State) (f : MStream → Bool) : Bool := (mxOf s).any fun x => x.stopped.isNone && x.stream.any f
def stopsWith (s : State) (cause sub : Nat) : Bool := (mxOf s).any fun x => x.stopped.any fun f => f.cause == cause && f.sub == sub
/-- An operand descriptor. -/
def descr (dbase sbase m row0 p lp k : Nat) : List Nat :=
  let n (w x : Nat) : List Nat := (leBytes w x).map (·.toNat)
  n 8 (0x7E0000000000 + dbase) ++ n 8 (0x7E0000000000 + sbase) ++ n 2 m ++ n 2 row0 ++ [p, lp, 0, 0] ++ n 4 k ++ [0, 0, 0, 0]
/-- Two operands of one k-step: A of one plane, -1 in row 0; B of two planes, 1 in column 0; scales 1. -/
def operands : List (Nat × List Nat) :=
  [(0, descr 0x400 0xC00 64 0 1 0 1), (32, descr 0x800 0xC80 64 0 2 0 1), (0x400, [1]), (0x800, [1]), (0xC00, List.replicate 64 127), (0xC80, List.replicate 64 127)]
def mma0 : Instr := .mma 0 0 0 1 0 1
def multiplying : State := does mma0 (streamAt mma0 operands)
def granted : State := does (.arrayGrant 0) multiplying

/-- A stream's word of each kind: its tile idle, its descriptors readable, its line present. -/
theorem witness_MatrixStreamWords : (let s := streamAt mma0 operands
      streamReady s fun c => decide (c.blk.mx.zaddr.length = 8 ∧ c.blk.mx.zloops.length = 8 ∧ 3 < c.blk.bars.length ∧ 2 < c.m.loops.length)
        && !c.blk.mx.holds.contains 0 && (match readOperand s c 0, readOperand s c 1 with
          | .ok a, .ok b => a.p == 1 && b.p == 2 && a.m == 64
          | _, _ => false) && decide (128 * c.blk.sramLen < 32 * 256 + 32)) = true
    ∧ (streamReady (streamAt mma0 [] fun x => { x with holds := [0] }) fun c => c.blk.mx.holds.contains 0) = true
    ∧ (streamReady (streamAt (.ximm 0 5)) fun c => c.pre.isNone && decide (pcSlot c.m.pc ≠ 4)) = true
    ∧ (ready (at' (.nop .always)) fun _ => true) = true ∧ (Instr.exit .always) ∈ [Instr.fork .always, .exit .always] := by decide +kernel
/-- An output descriptor that passes, one with a reserved byte, and rows that are in reach. -/
def outDescr (pitch rest : Nat) : List (Nat × List Nat) := [(64, ((leBytes 8 0x7E0000001000).map (·.toNat)) ++ ((leBytes 4 pitch).map (·.toNat)) ++ [rest])]
def storeIs (pitch rest : Nat) (f : SCtx → List Byte → State → Bool) : Bool :=
  let s := streamAt (.mstore .e4m3 0 2) (outDescr pitch rest) fun x => { x with tiles := [(0, List.replicate 4096 0)] }
  streamReady s fun c => match s.engineRead c.env (0x7E0000000000 + 128 * c.blk.sramBase + 64) 32 with
    | .ok bs => (c.blk.mx.tile 0).length == 4096 && f c bs s
    | _ => false
theorem witness_MatrixStreamWords_mstore : (storeIs 64 0 fun c bs s => (bs.drop 12).all (· == 0) && fieldAt bs 8 4 == 64
      && (List.range 64).all (fun i => (s.placeAll c.env (0x7E0000001000 + 64 * i) 64).isOk) && !c.m.checked) = true
    ∧ (storeIs 64 1 fun _ bs _ => bs.length == 32 && nth bs 12 0 != 0) = true ∧ (storeIs 48 0 fun _ bs _ => fieldAt bs 8 4 == 48) = true := by decide +kernel
/-- Its output descriptor read at an earlier try, before and after the check; a row's line absent. -/
def storing (checked : Bool) (absent : Bool) : State :=
  let s := streamAt (.mstore .e4m3 0 2) [] fun x =>
    { x with tiles := [(0, List.replicate 4096 0)], stream := x.stream.map fun m => { m with store := some (0x7E0000001000, 64, checked) } }
  if absent then { s with absent := [((2 ^ 60 + 0x1000) / 128, 1)] } else s
theorem witness_MatrixStreamWords_again : [(false, false), (true, false), (true, true)].all (fun x => streamReady (storing x.1 x.2) fun c =>
      c.m.store == some (0x7E0000001000, 64, x.1) && (match (storing x.1 x.2).placeAll c.env 0x7E0000001000 64 with
        | .ok ps => ps.any (fun p => (storing x.1 x.2).lineAbsent p.piece) == x.2
        | .error _ => false)) = true
    ∧ streamHas (does (.mstore .e4m3 0 2) (storing true true)) (fun m => m.pc == BitVec.ofNat 64 pc0 && m.store == some (0x7E0000001000, 64, true)) = true := by decide +kernel
/-- A row that fails: 1.0 in its first cell against a column of 0, under the tolerance of f32. -/
def badRow : Mx := { Mx.fresh with tiles := [(0, BitVec.ofNat 32 one32 :: List.replicate 4095 0)] }
theorem witness_MatrixStreamWords_rows : (badRow.tile 0).length = 4096 ∧ (badRow.column 0).length = 64
    ∧ (fspec .f32).decode (nth badRow.tols 0 0).toNat = .fin false (2 ^ 23) (-39) := by decide +kernel
-- R277: the tile is +0 and its place noted. R279: an arrival. R280: the counter, and its end.
theorem test_mzero : (let t := does (.mzero 3) (streamAt (.mzero 3) [] fun x => { x with tiles := [(3, [1])] })
    (mxOf t).any (fun x => x.tiles.isEmpty && nth x.zaddr 3 0 == BitVec.ofNat 64 pc0) && streamHas t (fun m => m.pc == BitVec.ofNat 64 (pc0 + 1))) = true := by decide +kernel
theorem test_mma : streamHas multiplying (fun m => m.pc == BitVec.ofNat 64 pc0 && m.work.any fun w => w.first == 0 && w.last == 1 && w.next == BitVec.ofNat 64 (pc0 + 1)) = true
    ∧ stopsWith (does mma0 (streamAt mma0 [(0, descr 0x410 0xC00 64 0 1 0 1), (32, descr 0x800 0xC80 64 0 2 0 1)])) 0x31 0x01 = true
    ∧ stopsWith (does mma0 (streamAt mma0 [(0, descr 0x400 0xC00 64 0 1 0 1), (32, descr 0x800 0xC80 64 0 2 1 2)])) 0x31 0x02 = true
    ∧ stopsWith (does mma0 (streamAt mma0 [(0, descr 0x400 0xC00 64 64 1 0 1), (32, descr 0x800 0xC80 64 0 2 0 1)])) 0x31 0x04 = true := by decide +kernel
theorem test_mma_ranges : stopsWith (does (.mma 0 0 0 1 0 2) (streamAt mma0 operands)) 0x31 0x03 = true
    ∧ stopsWith (does (.mma 0 0 0 255 0 1) (streamAt mma0 operands)) 0x31 0x01 = true
    ∧ stopsWith (does (.mma 0 0 0 256 0 1) (streamAt mma0 operands)) 0x31 0x05 = true
    ∧ does mma0 (streamAt mma0 operands fun x => { x with holds := [0] }) = { streamAt mma0 operands fun x => { x with holds := [0] } with focus := none } := by
  decide +kernel
theorem test_mstore_stops : stopsWith (does (.mstore .e4m3 0 2) (streamAt (.mstore .e4m3 0 2) (outDescr 64 1))) 0x31 0x05 = true
    ∧ stopsWith (does (.mstore .e4m3 0 2) (streamAt (.mstore .e4m3 0 2) (outDescr 48 0))) 0x31 0x02 = true := by decide +kernel
theorem test_mbarriers : bar3 (does (.msig 3) (streamAt (.msig 3))) = some (0, 1, 0, .none)
    ∧ stopsWith (does (.msig 3) (State.block0 (streamAt (.msig 3)) fun b => { b with bars := b.bars.set 3 ⟨0, 1024, 0, []⟩ })) 0x71 3 = true
    ∧ streamHas (does (.mwaitb 3) (streamAt (.mwaitb 3))) (fun m => m.waits == some 3 && m.named == [3]) = true
    ∧ streamHas (does (.mwaitb 3) (State.block0 (streamAt (.mwaitb 3)) fun b => { b with bars := b.bars.set 3 ⟨0, 0, 1, [(1000, ⟨.done, some 0⟩)]⟩ }))
      (fun m => m.waits.isNone && m.pc == BitVec.ofNat 64 (pc0 + 1)) = true := by decide +kernel
theorem test_mloop : streamHas (does (.mloop 1 2 0) (streamAt (.mloop 1 2 0))) (fun m => m.pc == BitVec.ofNat 64 pc0 && m.loops == [0, 1, 0] && m.line.isNone) = true
    ∧ streamHas (does (.mloop 1 1 2) (streamAt (.mloop 1 1 2))) (fun m => m.pc == BitVec.ofNat 64 (pc0 + 1) && m.loops == [0, 0, 0]) = true := by decide +kernel
theorem test_mend : (mxOf (does .mend (streamAt .mend))).any (fun x => x.stream.isNone) = true := by decide +kernel
theorem test_stream_refuses : stopsWith (does (.exit .always) (streamAt (.nop .always))) 0x01 0x04 = true
    ∧ stopsWith (does (.nop p2) (streamAt (.nop .always))) 0x01 0 = true
    ∧ (let s := State.with0 (at' (.nop .always)) fun w => { w with inHandler := true }
      warpHas (does mma0 s) (fun w => w.halted) = true) := by decide +kernel

/-- The array free with one stream ready; a k-step with its operands; the check of an interval. -/
theorem witness_MatrixEngineSteps : (multiplying.engineOf 0).holder = none ∧ multiplying.readyStreams 0 = [(0, 0)]
    ∧ (multiplying.streamOf 0 none).isSome = true ∧ (multiplying.engineOf 0).banks.length ≤ 1
    ∧ (multiplying.engineOf 0).area.get? 0 = none ∧ 0 ∈ (granted.engineOf 0).banks := by decide +kernel
def kstepIs (s : State) (f : SCtx → MWork → Bool) : Bool :=
  (s.engineOf 0).holder == some 0 && s.mayIssue 0 && (s.streamOf 0 none).any fun c => c.blk.core == 0 && c.m.doing.any fun w => f c w
theorem witness_MatrixEngineSteps_kstep : (kstepIs granted fun c w => decide (w.sums.length = 4096 ∧ w.col.length = 64 ∧ w.row.length = 64) && w.k + 1 == 2 ^ w.a.lp
      && !w.retry && (match granted.readStep c.env w.a 0, granted.readStep c.env w.b 0 with
        | .ok a, .ok b => a.length == 1 && b.length == 2
        | _, _ => false) && (granted.operandFault c [w.a, w.b] 0).isNone
      && ((granted.notedStep c.env [w.a, w.b] 0).readScales c.env w.a 0).isOk && (granted.readScales c.env w.b 0).isOk) = true
    ∧ (kstepIs (does (.arrayGrant 0) (does mma0 (streamAt mma0 [(0, descr 0x400 0xC00 64 0 1 1 2), (32, descr 0x800 0xC80 64 0 2 1 2)]))) fun _ _ => true) = false := by
  decide +kernel
theorem nth_replicate (n i : Nat) (x : Int) : nth (List.replicate n x) i x = x := by
  simp [nth, List.getElem?_replicate]
  split <;> rfl
theorem witness_MatrixEngineSteps_agrees : MWork.Agrees ⟨0, ⟨0, 0, 0, 0, 0, 0, 0⟩, ⟨0, 0, 0, 0, 0, 0, 0⟩, 0, 1, 0, 0, List.replicate 4096 0, List.replicate 64 0,
    List.replicate 64 0, 0, false, 0, 0⟩ := by
  refine ⟨List.length_replicate, ?_, ?_, ?_⟩
  · simp only [nth_replicate]; decide +kernel
  · simp only [nth_replicate]; decide +kernel
  · rw [List.sum_replicate, smul_zero]
def cellOf (s : State) (i : Nat) : Option Nat := (mxOf s).map fun x => (nth (x.tile 0) i 0).toNat
-- R255: the sums of a k-step that does not end its interval.
def twoSteps : State := does (.mmaKstep 0 []) (does (.arrayGrant 0) (does (.mma 0 0 0 1 0 2) (streamAt mma0
  [(0, descr 0x400 0xC00 64 0 1 1 2), (32, descr 0x800 0xC80 64 0 2 1 2), (0x400, [1]), (0x800, [1])])))
theorem test_mmaKstep : streamHas twoSteps (fun m => m.work.any fun w => w.k == 1 && w.sums.take 2 == [-1, 0]) = true := by decide +kernel
/-- The end of an interval whose one sum of -1 is off by d; the lists of its sums stop at their first cell, which costs less to evaluate. -/
def offBy (d : Int) (retry : Bool) (tries : Nat) (w : MWork) : MWork := { w with k := 1, sums := [d - 1], col := [-1], row := [-1], corner := -1, retry := retry, tries := tries }
def endedInterval (d : Int) (f : Mx → Mx := id) : State :=
  let s := State.block0 granted fun b => { b with mx := f b.mx }
  match s.streamOf 0 none with
  | some c => (c.m.doing.map fun w => endInterval s c (offBy d false 0 w)).getD s
  | none => s
theorem test_promotion : cellOf (endedInterval 0) 0 = some 0xBF800000 ∧ cellOf (endedInterval 0) 65 = some 0
    ∧ ((endedInterval 0).engineOf 0).holder = none ∧ (mxOf (endedInterval 0)).any (fun x => x.holds == [0]) = true
    ∧ streamHas (endedInterval 0) (fun m => m.pc == BitVec.ofNat 64 (pc0 + 1) && m.work.isNone) = true := by decide +kernel
-- R265, R268: one wrong cell is corrected, stops the stream, or is computed again, by the policy.
theorem test_single_error : cellOf (endedInterval 5) 0 = some 0xBF800000 ∧ (mxOf (endedInterval 5)).any (fun x => x.fixes == 1) = true
    ∧ (mxOf (endedInterval 5 fun x => { x with policy := 0 })).any (fun x =>
      x.stopped == some ⟨0x30, 0, BitVec.ofNat 64 pc0, false⟩ && x.fault == ⟨1, 0, 0, 0, 0, 0, 5⟩) = true
    ∧ streamHas (endedInterval 5 fun x => { x with policy := 2 }) (fun m => m.work.any fun w => w.retry && w.k == 0) = true := by decide +kernel
/-- A retry that has summed its interval, in agreement or not. -/
def retried (d : Int) (tries : Nat := 0) : State := State.block0 granted fun b =>
  { b with mx := { b.mx with stream := b.mx.stream.map fun m => { m with work := m.work.map (offBy d true tries) } } }
theorem witness_MatrixEngineSteps_retry : (kstepIs (retried 0) fun _ w => w.retry && w.k == 1 && w.check == .pass) = true
    ∧ (kstepIs (retried 5) fun _ w => w.check != .pass && w.tries == 0) = true := by decide +kernel
/-- A launch of class 1 whose context rolls back on 0x33. -/
def rollable (d : Int) : State := State.word0 (State.part0 (retried d 1) fun p => { p with ck := { p.ck with cfgNow := 4 } }) 9 0x10
theorem witness_MatrixEngineSteps_rollback : ((retried 5 1).rollsBack 0 ((retried 5 1).classOf 0) 0x33 0 []).isNone = true
    ∧ ((rollable 5).rollsBack 0 ((rollable 5).classOf 0) 0x33 0 []).isSome = true
    ∧ ((does (.intervalRetryDone 0) (rollable 5)).parts.get? 0).any (·.ck.due) = true := by decide +kernel
theorem test_intervalRetryDone : cellOf (does (.intervalRetryDone 0) (retried 0)) 0 = some 0xBF800000
    ∧ (mxOf (does (.intervalRetryDone 0) (retried 5))).any (fun x => x.retries == 1 && x.stopped.isNone) = true
    ∧ stopsWith (does (.intervalRetryDone 0) (retried 5 1)) 0x33 0 = true := by decide +kernel
/-- A drain retry's walk at its end; a tile held; a warp parked at a barrier the stopped stream named. -/
def walked : State := streamAt (.mstore .f32 0 2) [] fun x =>
  { x with stream := x.stream.map fun m => { m with drain := some ⟨0, m.pc, m.loops, 0, none, 1⟩ } }
theorem witness_MatrixEngineSteps_ends : ((walked.streamOf 0 none).any fun c => c.m.drain.any (fun w => w.pc == c.m.pc && w.loops == c.m.loops && w.ends == 0)
      && c.blk.mx.stopped.isNone && walked.mayIssue 0) = true
    ∧ (let s := State.path0 stoppedAt fun p => { p with state := .parked .barrier, waits := some 3 }
      (s.liveWarps 0).length = 1 ∧ s.mayIssue 0 = true ∧ (s.faultDue 0 0 3).isSome = true) := by decide +kernel
theorem test_drainRetryDone : streamHas (does (.drainRetryDone 0) walked) (fun m => m.drain.isNone && m.dtries == some 1) = true := by decide +kernel
theorem test_promotionHoldEnd : (mxOf (does (.promotionHoldEnd 0 2) (streamAt (.mzero 0) [] fun x => { x with holds := [2, 3] }))).map (·.holds) = some [3] := by
  decide +kernel
-- R278: the rows of a tile, rounded; +0 but for cell (0, 1), 1.0 in bf16, and cell (1, 0); its column agrees.
def storable : Mx → Mx := fun x => { x with tiles := [(0, [0, BitVec.ofNat 32 one32] ++ List.replicate 62 0 ++ [0x40000000] ++ List.replicate 4031 0)], sums := [(0, [BitVec.ofNat 32 one32, 0x40000000] ++ List.replicate 62 0)] }
theorem test_mstore_row : leNat ((Mx.rowBytes (storable Mx.fresh) 0 0 .bf16).take 4) = 0x3F800000 ∧ leNat ((Mx.rowBytes (storable Mx.fresh) 0 1 .bf16).take 4) = 0x4000
    ∧ rowFails .bf16 0x3C000000 (((storable Mx.fresh).tile 0).take 64) (nth ((storable Mx.fresh).column 0) 0 0) = false := by decide +kernel

/-! ### Matrix control -/

/-- The placed warp with the matrix context changed, and a stream entry in its packet. -/
def mxAt (f : Mx → Mx) (i : Instr := .nop .always) : State := State.word0 (State.block0 (at' i) fun b => { b with mx := f b.mx }) 7 pc0
/-- A stopped stream with a fault of some kind, at work where that kind has work. -/
def faultedMx (kind : Nat) (cause : Nat := 0x30) (w : Option MWork := none) (x : Mx) : Mx :=
  { x with stream := some { placedStream with work := w }, stopped := some ⟨cause, 0, 0, true⟩, fault := ⟨kind, 1, 2, 7, 0, 0, 5⟩, policy := 0 }
def someWork : MWork := ⟨1, ⟨0x7E0000000400, 0x7E0000000C00, 64, 0, 1, 0, 1⟩, ⟨0x7E0000000800, 0x7E0000000C80, 64, 0, 2, 0, 1⟩, 0, 1, 0, 1,
  List.replicate 135 0 ++ [7] ++ List.replicate 3960 0, List.replicate 64 0, List.replicate 64 0, 0, false, 0, BitVec.ofNat 64 (pc0 + 1)⟩

/-- A fork that starts, one under way, one without an entry, one whose path has writes under way. -/
theorem witness_MatrixControl_fork : (ready (mxAt id) fun c => c.once .always && decide (c.pidx < c.w.paths.length) && c.la.streamEntry != 0 && c.blk.mx.stream.isNone
      && (mxAt id).releasable 0 c.p.mask 0x11 && (checkLatch c .always .sca (.imm 3)).isOk
      && c.blk.mx.granted.isNone && !(mxAt id).forkAhead c && !c.once p2) = true
    ∧ (ready (mxAt fun x => { x with stream := some placedStream }) fun c => c.blk.mx.stream.isSome) = true
    ∧ (ready (State.word0 (mxAt id) 7 0) fun c => c.la.streamEntry == 0) = true
    ∧ (ready (mxAt fun x => { x with granted := some (0, 0, x.granted.elim 0 (·.2.2)) }) fun c =>
      c.blk.mx.granted.any fun w => w.1 == c.w.index && w.2.1 == c.pidx) = true
    ∧ (ready { mxAt id with stores := [queued] } fun c => !(State.releasable { mxAt id with stores := [queued] } 0 c.p.mask 0x11)) = true := by decide +kernel
/-- A tile idle and one held. -/
theorem witness_MatrixControl_tiles : (ready (mxAt fun x => { x with holds := [3] }) fun c => c.blk.mx.holds.contains 3 && !c.blk.mx.holds.contains 2 && c.blk.mx.stream.isNone) = true := by
  decide +kernel
/-- Stops of every kind: 0 with and without poison, 1, 2 and 3; none. -/
theorem witness_MatrixControl_stops : [0, 1, 2, 3].all (fun k => ready (mxAt (faultedMx k 0x30 (some someWork))) fun c =>
      c.blk.mx.fault.kind == k && c.blk.mx.stream.any (fun m => m.drain.isNone && m.doing.isSome) && c.blk.mx.stopped.isSome) = true
    ∧ (ready (mxAt (faultedMx 0 0x51 (some someWork))) fun c => c.blk.mx.stopped.any fun f => f.cause == 0x51) = true
    ∧ (ready (mxAt id) fun c => c.blk.mx.stopped.isNone) = true := by decide +kernel
def mfixAt : State := let s := mxAt (faultedMx 1 0x30 (some someWork))
  { s with mem := (s.mem.write (2 ^ 60 + 0xC00) (List.replicate 64 127)).write (2 ^ 60 + 0xC80) (List.replicate 64 127) }
def place1 : Nat := 2 ^ 15 + 1 * 2 ^ 12 + 2 * 2 ^ 6 + 7
theorem witness_MatrixControl_fix : (ready mfixAt fun c => c.blk.mx.location == c.sca (.imm place1) && someWork.sums.length == 4096
      && (mfixAt.readScales ⟨partOfLaunch c.lid, c.blk.home⟩ someWork.a 0).isOk && (mfixAt.readScales ⟨partOfLaunch c.lid, c.blk.home⟩ someWork.b 0).isOk) = true := by
  decide +kernel

theorem test_fork : (let t := does (.fork .always) (mxAt id)
      (mxOf t).any (fun x => x.stream.any fun m => m.pc == BitVec.ofNat 64 pc0 && m.loops == [0, 0, 0]) = true ∧ standsAt t (pc0 + 1) = true)
    ∧ traps (State.word0 (mxAt id (.fork .always)) 7 0) 0x31 0 = true
    ∧ parkedFor (does (.fork .always) (mxAt fun x => { x with stream := some placedStream })) .stream = true := by decide +kernel
def mrd (n : Nat) (f : Mx → Mx) : Option Nat := sreg (does (.mrd .always (sd 8) n) (mxAt f)) 8
-- R267: the values at block start, and the fields of status and fault.
theorem test_mrd : mrd 0 id = some 1 ∧ mrd 8 id = some 0x37800000 ∧ mrd 12 id = some 0x3E800000
    ∧ mrd 2 (faultedMx 1) = some (2 ^ 62 + 2 ^ 59 + 2 * 2 ^ 53 + 7 * 2 ^ 47) ∧ mrd 3 (faultedMx 1) = some 5
    ∧ mrd 1 (fun x => faultedMx 1 0x30 none { x with retries := 3, fixes := 4, flags := 5 }) = some (3 * 2 ^ 48 + 4 * 2 ^ 32 + 2 ^ 8 + 5) := by decide +kernel
theorem test_mwr : (mxOf (does (.mwr .always 0 (.imm 3)) (mxAt id))).any (fun x => x.policy == 3) = true
    ∧ (mxOf (does (.mwr .always 1 (.imm 5)) (mxAt fun x => { x with flags := 0xF }))).any (fun x => x.flags == 0xA) = true
    ∧ traps (mxAt id (.mwr .always 0 (.imm 4))) 0x11 0x0C = true ∧ traps (mxAt id (.mwr .always 2 (.imm 0))) 0x11 9 = true
    ∧ traps (mxAt id (.mwr .always 1 (.imm 16))) 0x11 0x0C = true := by decide +kernel
theorem test_mtol : (mxOf (does (.mtol .always .f16 (.reg 2)) (State.with0 (mxAt id) fun w => { w with s := w.s.set 2 0x3F800000 }))).any (fun x =>
      nth x.tols 2 0 == 0x3F800000 && nth x.tols 1 0 == 0x3C000000) = true := by decide +kernel
theorem test_mstat : sreg (does (.mstat .always (sd 8)) (mxAt (faultedMx 2))) 8 = some (2 ^ 63 + 2 ^ 62 + 2 * 2 ^ 60 + 2 ^ 57)
    ∧ (let t := does (.mstatClr .always (sd 8)) (mxAt fun x => { x with flags := 3 }); sreg t 8 = some 3 ∧ (mxOf t).any (fun x => x.flags == 0) = true) := by decide +kernel
theorem test_mchk : sreg (does (.mchk .always .f32 (sd 8) 0) (mxAt fun x => { x with tiles := [(0, [BitVec.ofNat 32 one32])] })) 8 = some 1
    ∧ parkedFor (does (.mchk .always .f32 (sd 8) 3) (mxAt fun x => { x with holds := [3] })) .stream = true := by decide +kernel
theorem test_mloc : sreg (does (.mloc .always (sd 8)) (mxAt (faultedMx 1))) 8 = some place1 ∧ sreg (does (.mloc .always (sd 8)) (mxAt (faultedMx 2))) 8 = some (2 ^ 64 - 1) := by
  decide +kernel
-- R288: the syndrome is taken from the cell, 7 - 5 = 2, and the interval promoted; a wrong place is refused.
theorem test_mfix : (let t := does (.mfix .always (.reg 2)) (State.with0 mfixAt fun w => { w with s := w.s.set 2 (BitVec.ofNat 64 place1) })
      (mxOf t).map fun x => ((nth (x.tile 1) 135 0).toNat, x.fixes, x.stopped.isNone)) = some (0x40000000, 1, true)
    ∧ traps (mxAt (faultedMx 1) (.mfix .always (.reg 3))) 0x31 8 = true := by decide +kernel
theorem test_mretry : (mxOf (does (.mretry .always) (mxAt (faultedMx 2 0x30 (some someWork))))).any (fun x => x.retries == 1 && x.stream.any fun m => m.work.any fun w => w.retry && w.k == 0)
      = true
    ∧ (mxOf (does (.mretry .always) (mxAt (faultedMx 3)))).any (fun x => x.stream.any fun m => m.drain.any fun w => w.tile == 1) = true
    ∧ traps (mxAt (faultedMx 0) (.mretry .always)) 0x31 8 = true := by decide +kernel
theorem test_mresume : (mxOf (does (.mresume .always) (mxAt (faultedMx 3)))).any (fun x => x.stopped.isNone && x.stream.any fun m => m.checked) = true
    ∧ (mxOf (does (.mresume .always) (mxAt (faultedMx 0)))).any (fun x => x.stopped.isNone && x.stream.isSome) = true
    ∧ traps (mxAt (faultedMx 1) (.mresume .always)) 0x31 8 = true
    ∧ (mxOf (does (.mresumeAbandon .always) (mxAt (faultedMx 1)))).any (fun x => x.stopped.isNone && x.stream.isNone) = true := by decide +kernel

/-! ### Collectives, views, checkpoints, digests and launches -/

/-- The placed machine in view 5 of members 0 and 1, at a word. -/
def inView (s : State) : State := { s with viewNo := 5, manifest := 3, domain := 3, comms := [(7, 3)] }
/-- A descriptor at 0x200000: count 2, src 0x200400, dst 0x200500, mset at 0x200100, stamp at 0x200600, communicator 7. -/
def collBytes (view : Nat := 0) (pad : Nat := 0) (stamp : Nat := 0x200600) : List Byte :=
  leBytes 4 0 ++ leBytes 2 7 ++ leBytes 2 0 ++ leBytes 8 2 ++ leBytes 8 0x200400 ++ leBytes 8 0x200500 ++ leBytes 8 0x200100 ++ leBytes 8 stamp
    ++ leBytes 4 view ++ leBytes 4 pad ++ leBytes 8 0
def collAt (bs : List Byte := collBytes) (a : AReg := flat) (v : Nat := 5) : State :=
  let s := inView (memAt a)
  { s with viewNo := v, mem := (s.mem.write 0x200000 bs).write 0x200100 [3] }
def coll0 (d : Dst := sd 30) : Instr := .coll .allReduce false .always .i32 d 2 ⟨0, .rel, 0x0C, 0⟩
/-- The descriptor is in reach of the issuing path and of its lines' owners. -/
def collReady (s : State) (f : Ctx → List Byte → Bool) : Bool := ready s fun c => c.once .always && (c.w.areg 2).perm.getLsbD 0
  && match checkRange s c.env (c.w.areg 2) true false 64 (some (c.real .always)) [((lanesOf (c.real .always)).headD 0, (c.w.areg 2).pointer.toNat)] with
    | .ok ys => (watch s c true false (some (c.real .always)) ys).isOk && (waitLines s ys).isOk
        && ((s.seenBy c.wid (c.real .always) 0x0C).poisonOf (ys.flatMap (·.2.2))).isNone
        && f c ((s.seenBy c.wid (c.real .always) 0x0C).readPieces (ys.flatMap (·.2.2)))
    | .error _ => false

theorem witness_CollectiveAndViewInstructions_coll : collReady collAt (fun c bs => (collAt.parts.get? 0).any (fun p => !p.unack) && fieldAt bs 0x30 4 == 0
      && c.w.memberTrap.isNone && c.w.collTrap.isNone && c.blk.collOpen < 32 && collAt.releasable 0 (c.real .always) 0x0C
      && collAt.mayRead 0 (c.real .always) [⟨0x200000, 64, 0x200000, none, none⟩]) = true
    ∧ (ready (collAt (a := areg 0x200020 0x200000 0x201000)) fun c => decide ((c.w.areg 2).pointer.toNat % 64 ≠ 0)) = true
    ∧ (ready collAt fun c => !c.once p2) = true
    ∧ collReady (collAt (v := 0)) (fun _ _ => true) = true
    ∧ collReady (collAt (collBytes 5)) (fun _ bs => fieldAt bs 0x30 4 == 5) = true
    ∧ collReady (collAt (collBytes 4)) (fun _ bs => fieldAt bs 0x30 4 == 4) = true
    ∧ collReady { collAt with stores := [queued] } (fun c _ => !(State.releasable { collAt with stores := [queued] } 0 (c.real .always) 0x0C)) = true
    ∧ collReady (State.block0 collAt fun b => { b with collOpen := 31 }) (fun c _ => c.blk.collOpen == 31) = true
    ∧ collReady (State.block0 collAt fun b => { b with collOpen := 32 }) (fun c _ => c.blk.collOpen == 32) = true := by decide +kernel
-- R413: each step's trap; 31 open are room for one more.
theorem test_coll_traps : [(collAt (a := areg 0x200020 0x200000 0x201000), 0x14, 3), (collAt (v := 0), 0x40, 2), (State.part0 collAt fun p => { p with unack := true }, 0x41, 1),
        (collAt (collBytes 4), 0x41, 0), (State.with0 collAt fun w => { w with memberTrap := some (2, 5) }, 0x40, 0)].all (fun x =>
      let t := does coll0 (State.with0 x.1 fun w => { w with inHandler := true })
      warpHas t (fun w => w.halted) && t.mem.bytes 0x4078 8 == leBytes 8 (0x10000 + 256 * x.2.2 + x.2.1)) = true
    ∧ parkedFor (does coll0 (State.block0 collAt fun b => { b with collOpen := 32 })) .collQueue = true
    ∧ standsAt (does coll0 (State.block0 collAt fun b => { b with collOpen := 31 })) (pc0 + 1) = true := by decide +kernel
-- R413 step 9: the block's first number, the communicator's next; a nonzero bit of a zero field ends the instance with 0x0304.
theorem test_coll : (let t := does coll0 collAt
      sreg t 30 = some 1 ∧ t.comms = [(7, 4)] ∧ (t.colls.get? (collKey 7 4)).map (fun x => (x.state, x.here.map (·.parties))) = some (.gathering, some 3))
    ∧ [collBytes 0 1, collBytes 0 0 0x200604].all (fun bs =>
      ((does coll0 (collAt bs)).colls.get? (collKey 7 4)).any fun x => x.state == .ending 0x0304) = true := by decide +kernel

def cwaitAt (n limit : Nat) (det : Nat := 0) : State := State.word0 (State.block0 (inView (memAt flat)) fun b =>
  { b with collSeq := 70, collStamps := [(7, 0x301)] }) 9 det |> fun s => State.with0 s fun w => { w with s := (w.s.set 1 (BitVec.ofNat 64 n)).set 2 (BitVec.ofNat 64 limit) }
def cwait0 : Instr := .cwait .always (sd 8) (.reg 1) (.reg 2) (e0)
theorem witness_CollectiveAndViewInstructions_cwait : [cwaitAt 0 5, cwaitAt 6 5, cwaitAt 71 5, cwaitAt 7 5, cwaitAt 8 0, cwaitAt 8 5, cwaitAt 8 (2 ^ 40) 3].all (fun s =>
      ready s fun c => c.once .always && (checkLatch c .always .sca (.reg 1)).isOk && (checkLatch c .always .sca (.reg 2)).isOk
        && c.w.memberTrap.isNone && c.w.collTrap.isNone && c.blk.collSeq == 70 && (c.la.det == 0 || decide (2 ^ 40 ≤ (c.sca (.reg 2)).toNat))) = true
    ∧ (match (does cwait0 (cwaitAt 8 5)).awaiting 0 0 with
      | some (c, .cwait r) => r.deadline == some (State.reset.cycle + 5) && r.entry.isNone && r.d.cls == .scalar && c.la.det == 0
      | _ => false) = true := by decide +kernel
-- R421: 6 is older than the 64 most recent of 70; 7 has ended; 8 has not.
theorem test_cwait : [(0, 2 ^ 64 - 1), (6, 2 ^ 64 - 1), (71, 2 ^ 64 - 1), (7, 0x301)].all (fun (x : Nat × Nat) => sreg (does cwait0 (cwaitAt x.1 5)) 8 == some x.2) = true
    ∧ sreg (does cwait0 (cwaitAt 8 0)) 8 = some 0 ∧ parkedFor (does cwait0 (cwaitAt 8 5)) .monitor = true
    ∧ parkedFor (does (.cwaitTimeout 0 0) { does cwait0 (cwaitAt 8 5) with cycle := 4 }) .monitor = true
    ∧ (let t := does (.cwaitTimeout 0 0) { does cwait0 (cwaitAt 8 5) with cycle := 5 }; standsAt t (pc0 + 1) = true ∧ sreg t 8 = some 0) := by
  decide +kernel

theorem witness_CollectiveAndViewInstructions_cabort : (ready (does coll0 collAt |> again) fun c =>
      c.once .always && decide (c.la.det ≠ 3) && (checkLatch c .always .sca (.imm 0)).isOk) = true
    ∧ (does coll0 collAt).colls.Pairwise (fun a b => a.1 < b.1)
    ∧ ((does coll0 collAt).colls.get? (collKey 7 4)).any (fun x => x.state == .gathering && x.here.any fun h => h.bid == 0 && h.seq == 1) = true
    ∧ (ready (State.word0 collAt 9 3) fun c => c.once .always && decide (c.la.det = 3)) = true := by decide +kernel
-- R425: 0 and its own number end it and tell the other member; another number does not.
theorem test_cabort : [0, 1].all (fun n => let t := does (.cabort .always (.imm n)) (again (does coll0 collAt))
      t.outbox.contains (.member 1 (.abort 7 4 5)) && (t.colls.get? (collKey 7 4)).any fun x => x.state == .ending 1) = true
    ∧ ((does (.cabort .always (.imm 2)) (again (does coll0 collAt))).colls.get? (collKey 7 4)).any (fun x => x.state == .gathering) = true := by
  decide +kernel

def viewAt (f : Partition → Partition) (x : Nat) (v : Nat := 5) : State :=
  State.part0 { inView (cwaitAt x 0) with viewNo := v } f
def joins : State := viewAt (fun p => { p with joinOk := true }) 9 0
theorem witness_CollectiveAndViewInstructions_view : (ready (viewAt id 5) fun c => c.once .always && !c.once p2 && c.w.memberTrap.isNone
      && (checkLatch c .always .sca (.reg 1)).isOk && decide ((c.sca (.reg 1)).toNat = (viewAt id 5).viewNo)) = true
    ∧ ((viewAt id 5).parts.get? 0).any (fun p => !p.joinOk) = true ∧ (joins.parts.get? 0).any (fun p => p.joinOk) = true
    ∧ (ready joins fun c => c.once .always && decide (joins.viewNo = 0)) = true
    ∧ (ready (State.with0 (viewAt id 5) fun w => { w with memberTrap := some (2, 5) }) fun c => c.w.memberTrap == some (2, 5)) = true
    ∧ (match (does (.viewjoin .always (sd 8) (.reg 1)) joins).awaiting 0 0 with | some (_, .viewjoin r) => r.deadline == some 9 | _ => false) = true := by
  decide +kernel
-- R422: k = 0 of member 0 in view 5 of two, context not acknowledged; k = 1.
theorem test_viewq : sreg (does (.viewq .always (sd 8) 0) (viewAt (fun p => { p with unack := true }) 5)) 8 = some 0x8000000200000005
    ∧ sreg (does (.viewq .always (sd 8) 1) (viewAt id 5)) 8 = some 3
    ∧ sreg (does (.viewq .always (sd 8) 0) (viewAt id 5 0)) 8 = some 0x2000000200000000 := by decide +kernel
theorem test_viewack : [(5, 1, false), (4, 0, true)].all (fun (x : Nat × Nat × Bool) =>
      let t := does (.viewack .always (sd 8) (.reg 1)) (viewAt (fun p => { p with unack := true }) x.1)
      sreg t 8 == some x.2.1 && (t.parts.get? 0).any (fun p => p.unack == x.2.2)) = true := by decide +kernel
theorem test_viewjoin : (let t := does (.viewjoin .always (sd 8) (.reg 1)) (State.with0 (viewAt id 9) fun w => { w with inHandler := true })
      t.mem.bytes 0x4078 8 = leBytes 8 0x11311)
    ∧ sreg (does (.viewjoin .always (sd 8) (.reg 1)) (viewAt (fun p => { p with joinOk := true }) 9)) 8 = some 5
    ∧ (let t := does (.viewjoin .always (sd 8) (.reg 1)) joins; parkedFor t .monitor = true ∧ t.joining = true
        ∧ sreg (does (.viewjoinTimeout 0 0) { t with cycle := 9 }) 8 = some 0
        ∧ parkedFor (does (.viewjoinTimeout 0 0) { t with cycle := 8 }) .monitor = true) := by decide +kernel

def ckAt (i : Instr := .nop .always) : State := State.part0 (at' i) fun p =>
  { p with ck := { p.ck with current := 9, committed := 6, cfg := 0x1234567800000007 }, ctx := { p.ctx with dirty := 3, cycles := 100 } }
theorem witness_CheckpointDigestDebugAndLaunch : (ready ckAt fun c => (ckAt.parts.get? c.env.part).isSome && c.once .always && !c.once p2
      && (checkLatch c .always .sca (.imm 20)).isOk && (checkOperands c .always .noDest .i32 [(.vec .i32, .reg 4)]).isOk) = true := by decide +kernel
theorem test_ckpt : (let t := does (.ckpt .always (sd 8)) ckAt; sreg t 8 = some 9 ∧ (t.parts.get? 0).any (fun p => p.ck.wanted.isSome) = true)
    ∧ parkedFor (does (.ckptWait .always .noDest) ckAt) .monitor = true := by decide +kernel
-- R489: k = 0 has committed at [63:32] and current below; k = 3 keeps [63:40].
theorem test_ckq : sreg (does (.ckq .always (sd 8) 0) ckAt) 8 = some 0x0000000600000009
    ∧ sreg (does (.ckq .always (sd 8) 1) ckAt) 8 = some 0x0000000300000064
    ∧ sreg (does (.ckq .always (sd 8) 3) ckAt) 8 = some 0x1234560000000000 := by decide +kernel
-- R513: block 3's warp 0, lanes 0 and 2 of v4 (both 8), channel 3; the sum was computed with another SHA-384.
theorem test_digest : ((does (.digest .always .i32 (.imm 8) 3) (State.path0 (State.block0 (memAt flat) fun b => { b with linear := 3 })
      fun p => { p with mask := 5 })).blocks.get? 0).map (·.accum) = some 0x25f081494e15de967dd7cb2952c91f2b612747ca623aa6558962defdb8fdcd06
    := by decide +kernel
theorem test_detq : sreg (does (.detq .always (sd 8)) (State.word0 (State.block0 ckAt fun b => { b with logCounts := [(0, 6)] }) 9 1)) 8 = some 0x600000001
    := by decide +kernel
theorem test_brk : traps (at' (.brk .always 5)) 0x70 0 = true ∧ standsAt (does (.brk p2 5) (at' (.nop .always))) (pc0 + 1) = true := by decide +kernel
theorem test_tmark : (let t := does (.tmark .always (.imm 20)) (State.part0 ckAt fun p => { p with trcEn := 2, trc := { p.trc with base := 0x300000, log2 := 12 } })
      t.mem.bytes 0x300018 8 = leBytes 8 20 ∧ (t.mem.bytes 0x300010 8).getD 7 0 = 0x10 ∧ standsAt t (pc0 + 1) = true) := by decide +kernel
theorem test_rdclk : sreg (does (.rdclk .always (sd 8)) { ckAt with cycle := 77 }) 8 = some 77 := by decide +kernel

def launch0 : Instr := .launch (sd 8) 2 (.imm 5) ⟨0, .rel, 0x0C, 0⟩
def launchAt (tail head : Nat) (on fed : Bool) (q : Nat := 5) : State :=
  State.part0 (memAt flat [0x21, 0x43]) fun p => { p with queues := [(q, { Queue.reset with base := 0x300000, log2 := 1, enable := on, devFeed := fed, tail := tail, head := head })] }
def launchReady (s : State) (f : Ctx → Queue → Bool) : Bool := ready s fun c => c.once .always && decide (c.la.det = 0) && (c.w.areg 2).perm.getLsbD 0
  && (match checkRange s c.env (c.w.areg 2) true false 256 (some (c.real .always)) [((lanesOf (c.real .always)).headD 0, 0x200000)] with
    | .ok [y] => (waitLines s [y]).isOk && s.mayRead 0 (c.real .always) y.2.2 && ((s.seenBy c.wid (c.real .always) 0x0C).poisonOf y.2.2).isNone
    | _ => false)
  && (s.parts.get? 0).any fun p => f c (p.queue 5)
theorem witness_CheckpointDigestDebugAndLaunch_launch :
    launchReady (launchAt 3 2 true true) (fun c x => (launchAt 3 2 true true).releasable 0 (c.real .always) 0x0C && x.tail - x.head == 1
        && (((launchAt 3 2 true true).publish (.lane 0) 0x0C).writeFor c.bid c.env (x.base + 256 * (x.tail % 2)) [0x21]).isOk) = true
    ∧ launchReady (launchAt 3 1 true true) (fun _ x => x.tail - x.head == 2) = true
    ∧ launchReady (launchAt 3 2 false true) (fun _ x => !x.enable) = true ∧ launchReady (launchAt 3 2 true false) (fun _ x => !x.devFeed) = true
    ∧ (ready { launchAt 3 2 true true with stores := [queued] } fun c =>
      !(State.releasable { launchAt 3 2 true true with stores := [queued] } 0 (c.real .always) 0x0C)) = true
    ∧ (ready (State.word0 (launchAt 3 2 true true) 9 3) fun c => decide (c.la.det = 3)) = true := by decide +kernel
-- R68: the id of partition 0, queue 5, number 3; slot 1; full; disabled; host-fed; canonical.
theorem test_launch : (let t := does launch0 (launchAt 3 2 true true)
      sreg t 8 = some 0x0005000000000003 ∧ t.mem.bytes 0x300100 3 = [0x21, 0x43, 0] ∧ (t.parts.get? 0).map (fun p => (p.queue 5).tail) = some 4)
    ∧ (let t := does launch0 (launchAt 3 1 true true); sreg t 8 = some (2 ^ 64 - 1) ∧ t.mem.bytes 0x300100 2 = [0, 0]) := by decide +kernel
theorem test_launch_traps : [(launchAt 3 2 false true, 0x11), (launchAt 3 2 true false, 0x11), (launchAt 3 2 true true 6, 0x11),
      (State.word0 (launchAt 3 2 true true) 9 3, 0x62)].all (fun x =>
    (does launch0 (State.with0 x.1 fun w => { w with inHandler := true })).mem.bytes 0x4078 8 == leBytes 8 (0x10000 + x.2)) = true := by decide +kernel

/-! ### Issue, fetch and the register pool -/

/-- The placed machine whose line's slots 0 and 1 hold two words. -/
def twoWords (i j : Instr) : State := State.path0 (at' (.nop .always)) fun p => { p with line := some ⟨0x100000, [encode i, encode j], 0⟩ }
def wide : State := twoWords (.ximm 0 0x48D15) (.iadd (op (vd 8) .i32 (.imm (-392)) .zero))
theorem witness_SchedulingFetchAndPool : (ready wide fun c => decide (pcSlot c.p.pc ≠ 4) && decide (decodeGoverned 0 0x48D15 c.governed ≠ .misuse)) = true
    ∧ (ready (State.path0 wide fun p => { p with pc := 0x100004 }) fun c => decide (pcSlot c.p.pc = 4)) = true
    ∧ (ready (twoWords (.ximm 0 1) (.ximm 0 1)) fun c => decide (decodeGoverned 0 1 c.governed = .misuse)) = true := by decide +kernel
-- R107's example: 0x12345678 is written with field 0x278 and payload 0x00048D15; R108's rows.
theorem test_ximm : lane (after (after wide)) 8 5 = some 0x12345678 ∧ standsAt (after (after wide)) (pc0 + 2) = true := by decide +kernel
theorem test_ximm_misuse : [(0, State.path0 wide fun p => { p with pc := 0x100004 }), (0, twoWords (.ximm 0 1) (.ximm 0 1)),
      (1, twoWords (.ximm 1 1) (.iadd (op (vd 8) .i32 (.imm 3) (.reg 1)))), (3, twoWords (.ximm 3 1) (.iadd (op (vd 8) .i32 (.imm 3) .zero)))].all (fun x =>
    (does (.ximm x.1 1) (State.with0 x.2 fun w => { w with inHandler := true })).mem.bytes 0x4078 8 == leBytes 8 0x10301) = true := by decide +kernel

/-- Its line is not fetched yet. -/
def unfetched (f : Path → Path) (i : Instr := .nop .always) : State := State.path0 (at' i) fun p => f { p with line := none }
def fetchable (s : State) (f : Ctx → Bool) : Bool := (s.ctx? 0 0 none).any fun c => c.p.line.isNone && s.mayIssue c.bid && decide (0 < c.w.paths.length) && f c
theorem witness_SchedulingFetchAndPool_fetch :
    fetchable (unfetched id) (fun c => (checkPc c.p.pc).isOk && ((unfetched id).readLine c.env (pcLineAddr c.p.pc)).isOk && !c.p.entering) = true
    ∧ fetchable (unfetched fun p => { p with entering := true }) (fun c => c.p.entering) = true
    ∧ fetchable (unfetched fun p => { p with entering := true, pc := p.pc + 1 }) (fun c => c.p.entering && pcSlot c.p.pc == 1) = true
    ∧ fetchable (unfetched fun p => { p with pc := p.pc + 5 }) (fun c => !(checkPc c.p.pc).isOk) = true
    ∧ fetchable (unfetched fun p => { p with pc := 0x180000 }) (fun c =>
      (checkPc c.p.pc).isOk && !((unfetched id).readLine c.env (pcLineAddr c.p.pc)).isOk) = true := by decide +kernel
/-- A line of host memory whose fetch a port has ended in error (R444). -/
def hostLine : State := let s := unfetched fun p => { p with pc := BitVec.ofNat 64 (2 ^ 25) }
  { s with iommu := ⟨0, 2 ^ 25, 2 ^ 25, .host 0, 0, true, true, true, 0⟩ :: s.iommu, portFaults := [(.fetch 0 0, 2)] }
theorem witness_SchedulingFetchAndPool_port : fetchable hostLine (fun c => (checkPc c.p.pc).isOk && hostLine.portFault (.fetch 0 0) == some 2
      && match hostLine.linePieces c.env (pcLineAddr c.p.pc) with
        | .ok ps => ps.any (·.host.isSome)
        | .error _ => false) = true
    ∧ (does (.lineFetch 0 0) (State.with0 hostLine fun w => { w with inHandler := true })).mem.bytes 0x4078 8 = leBytes 8 0x10251 := by decide +kernel
def fetched (f : Path → Path) : State := does (.lineFetch 0 0) (unfetched f)
def fetchTraps (f : Path → Path) (cause sub : Nat) : Bool :=
  (does (.lineFetch 0 0) (State.with0 (unfetched f) fun w => { w with inHandler := true })).mem.bytes 0x4078 8 == leBytes 8 (0x10000 + 256 * sub + cause)
-- R94's slot 5, its bits 63 to 47; R91's kernel entry, which is slot 0; a line that is no code (format 0 of its line word).
theorem test_lineFetch : pathHas (fetched id) (fun p => p.line.isSome) = true ∧ fetchTraps (fun p => { p with pc := p.pc + 5 }) 4 0 = true
    ∧ fetchTraps (fun p => { p with pc := BitVec.ofNat 64 (2 ^ 47) }) 4 1 = true ∧ fetchTraps (fun p => { p with entering := true, pc := p.pc + 1 }) 3 0 = true
    ∧ fetchTraps (fun p => { p with pc := 0x180000 }) 1 0x10 = true ∧ pathHas (fetched fun p => { p with entering := true }) (fun p => p.line.isSome) = true := by
  decide +kernel

/-- Paths in the issue set have issued some units; one or two stand outside. -/
def rotating (u0 u1 : Nat) : State := State.with0 { at' (.nop .always) with cycle := 40 } fun w =>
  let p := w.path 0
  (((w.setPath 0 { p with units := u0 }).setPath 1 { p with units := u1 }).setPath 2 { p with inSet := false, since := 30 }).setPath 3 { p with inSet := false, since := 20 }
def inSets (s : State) : List Nat := ((s.warps.get? 0).map fun w => (List.range 16).filter w.inIssue).getD []
theorem witness_SchedulingFetchAndPool_set : warpHas (rotating 64 3) (fun w => decide (w.paths.length = 16) && decide (((List.range 16).filter w.inIssue).length ≤ 2)
      && (w.path 1).units < 64 && w.inIssue 1) = true
    ∧ warpHas (State.with0 (rotating 3 3) fun w => w.setPath 1 Path.free) (fun w => decide (((List.range 16).filter w.inIssue).length < 2)) = true := by decide +kernel
-- R133 a, b: at 63 units none leaves; at 64 one does, for the path outside longest.
theorem test_issueSetRotation : inSets (does (.issueSetRotation 0) (rotating 63 3)) = [0, 1] ∧ inSets (does (.issueSetRotation 0) (rotating 64 3)) = [1, 3]
    ∧ inSets (does (.issueSetRotation 0) (State.with0 (rotating 3 3) fun w => w.setPath 1 Path.free)) = [0, 3] := by decide +kernel

/-- Two warps of quarter 0 of which nothing issues yet; a path's latest issue. -/
def twoWarps (a b : Nat) (f : Warp → Warp := id) : State :=
  let s := { twoWords (.nop .always) (.nop .always) with focus := none }
  let w := fun (n : Nat) => (((s.warps.get? 0).getD (Warp.fresh placedPart placedLaunch 0 0 0 0)).setPath 0 { ((s.warps.get? 0).getD (Warp.fresh placedPart placedLaunch 0 0 0 0)).path 0 with last := some n })
  { s with warps := [(0, w a), (1, f (w b))] }
theorem witness_SchedulingFetchAndPool_issue : (twoWarps 7 6).focus = none ∧ (twoWarps 7 6).issued = []
    ∧ ((twoWarps 7 6).quarterPaths 0 (twoWarps 7 6).readyPath).length = 2 ∧ (List.range 16).all (fun i => (twoWarps 7 6).warps.all fun x => !(x.2.path i).midPair 9) = true
    ∧ (State.path0 { twoWarps 9 8 with cycle := 9 } fun p => { p with pairAt := some 9 }).warps.any
      (fun x => (x.2.path 0).midPair 9) = true := by decide +kernel
/-- A held choice, a second choice whose path may go on, and one whose path is gone; vector units of two warps. -/
def schedAt (x : Sched) (s : State := twoWarps 7 6) : State := s.setSched 0 fun _ => x
def twoVectors : State := let v : Instr := .iadd (op (vd 8) .i32 (.reg 4) (.reg 5))
  { twoWarps 7 6 with warps := (twoWarps 7 6).warps.map fun x =>
      (x.1, x.2.setPath 0 { x.2.path 0 with line := some ⟨0x100000, [encode v, encode v], 0⟩, pc := BitVec.ofNat 64 0x100000 }) }
theorem witness_SchedulingFetchAndPool_choice : ((schedAt ⟨some (0, 0), none, 0, 0, 0⟩).schedOf 0).pick = some (0, 0)
    ∧ ((schedAt ⟨none, some (1, 0), 0, 0, 0⟩).warps.get? 1).any (fun w => (twoWarps 7 6).entered w 0) = true
    ∧ ((schedAt ⟨none, some (1, 3), 0, 0, 0⟩).warps.get? 1).all (fun w => !(twoWarps 7 6).entered w 3) = true
    ∧ (twoVectors.warps.all fun x => twoVectors.readyPath x.2 0 && twoVectors.dualUnit x.2 0 && halvesOf (twoVectors.shadowOf x.2) (x.2.path 0).unit == 1) = true
    ∧ ((schedAt ⟨none, none, 9, 9, 0⟩ twoVectors).schedOf 0).has 1 twoVectors.cycle = false := by decide +kernel
-- R135: a held choice keeps its turn, a path whose halves are taken becomes it; R136: the other warp's vector instruction goes second.
theorem test_issueCycle_choice : (does (.issueCycle 0 0) (schedAt ⟨some (0, 0), none, 0, 0, 0⟩)).focus = some (.path 0 0 none)
    ∧ (let t := does (.issueCycle 0 0) (schedAt ⟨none, none, 9, 9, 0⟩ twoVectors); t.focus = none ∧ (t.schedOf 0).pick = some (1, 0))
    ∧ (let t := does (.issueCycle 0 0) twoVectors; t.focus = some (.path 1 0 none) ∧ (t.schedOf 0).second = some (0, 0)
        ∧ (does (.issueCycle 0 0) { t with focus := none }).focus = some (.path 0 0 none)) := by decide +kernel

-- R134: the path that issued longest ago; a quarter that has issued waits; the second of a pair follows the first.
theorem test_issueCycle : (does (.issueCycle 0 0) (twoWarps 7 6)).focus = some (.path 1 0 none) ∧ (does (.issueCycle 0 0) (twoWarps 6 7)).focus = some (.path 0 0 none)
    ∧ (does (.issueCycle 0 0) { twoWarps 7 6 with issued := [0] }).focus = none
    ∧ (does (.issueCycle 0 0) { State.path0 (twoWarps 9 6) fun p => { p with pairAt := some 9 } with
        cycle := 9, issued := [0] }).focus = some (.path 0 0 none) := by decide +kernel

/-- Warp 0's `grow` to 40 waits since cycle 5; warps 1 and 2 of the quarter are parked and hold 800 and n registers, of 960 (R84). -/
def pool (n : Nat) (k : Option Nat) (grows : Bool := true) (placed2 : Nat := 0) : State :=
  let s := twoWords (.grow (.imm 40)) (.nop .always)
  let w0 := (s.warps.get? 0).getD (Warp.fresh placedPart placedLaunch 0 0 0 0)
  let park (r : ParkReason) (w : Warp) : Warp :=
    w.setPath 0 { w.path 0 with state := .parked r, since := 5, await := if r == .grow then some ⟨.grow 40, none, 0, 0⟩ else none }
  { s with
    blocks := s.blocks ++ [(1, { (s.blocks.get? 0).getD (Block.fresh 0 0 0 0 0 0 0 0 0 0 none []) with placed := placed2 })]
    warps := [(0, park (if grows then .grow else .barrier) w0), (1, park .barrier { w0 with n := 800 }), (2, park .barrier { w0 with n := n, evicted := k, block := 1 })] }
def evictedIn (s : State) : List (Option Nat) := s.warps.map (·.2.evicted)
theorem witness_SchedulingFetchAndPool_pool :
    (let s := pool 128 (some 0) false; s.growers 0 = [] ∧ granules 128 ≤ s.freeGranules 0 ∧ s.warps.Pairwise (fun a b => a.1 < b.1))
    ∧ (let s := pool 136 (some 0); s.freeGranules 0 < granules 136 ∧ s.growers 0 = [(0, 0, 5)])
    ∧ (let s := pool 120 none; s.growers 0 = [(0, 0, 5)] ∧ (s.requesting 0 0).any (fun x => x.2 == .grow 40 && s.mayIssue x.1.bid && granules 40 - granules x.1.w.n ≤ s.freeGranules 0) = true)
    ∧ (let s := pool 128 none; s.freeGranules 0 = 0 ∧ (s.serveGrow 0 (0, 0, 5)).isNone = true ∧ (s.warps.all fun x => x.2.parked) = true)
    ∧ (let s := { pool 128 none with cycle := 4101 }; 5 + 4096 ≤ s.cycle ∧ (s.serveGrow 0 (0, 0, 5)).isNone = true)
    ∧ (pool 128 none false).growers 0 = [] ∧ ((pool 120 none).schedOf 0).spare < (pool 120 none).freeGranules 0
    ∧ (pool 120 none).freeGranules 0 ≤ ((schedAt ⟨none, none, 0, 0, 4⟩ (pool 120 none)).schedOf 0).spare
    ∧ ((State.with0 (pool 120 none) fun w => { w with n := 64 }).requesting 0 0).any (fun x => x.2 == .grow 40 && decide (40 < x.1.w.n)) = true := by
  decide +kernel
-- R150, R153: 16 granules are free for 16; 17 do not fit, and the `grow`, which would, waits behind; one granule is enough for the `grow`.
theorem test_granuleGrant : evictedIn (does (.evictedWarpReturn 0 0) (pool 128 (some 0))) = [none, none, none]
    ∧ evictedIn (does (.evictedWarpReturn 0 0) (pool 136 (some 0))) = [none, none, some 0]
    ∧ parkedFor (does (.granuleGrant 0 0) (pool 136 (some 0))) .grow = true
    ∧ (let t := does (.granuleGrant 0 0) (pool 120 none); warpHas t (fun w => w.n == 40) = true ∧ standsAt t (pc0 + 1) = true)
    ∧ parkedFor (does (.granuleGrant 0 0) (pool 128 none)) .grow = true := by decide +kernel
-- R151, R152: of two parked warps of one priority the later placed goes; ties go to the higher slot; the `grow` is served.
theorem test_warpEviction : evictedIn (does (.warpEviction 0 0) (pool 128 none true 9)) = [none, none, some 0]
    ∧ evictedIn (does (.warpEviction 0 0) (pool 128 none true 0)) = [none, none, some 0]
    ∧ evictedIn (does (.warpEviction 0 0) (State.block0 (pool 128 none true 3) fun b => { b with placed := 9 })) = [none, some 0, none]
    ∧ warpHas (does (.warpEviction 0 0) (pool 128 none)) (fun w => w.n == 40) = true
    ∧ evictedIn (does (.warpEviction 0 0) (pool 120 none)) = [none, none, none] := by decide +kernel

/-! ### The command processor and the distributor -/

/-- The placed machine with a packet at the head of queue 5, and queue 6 empty; some words of the packet changed. -/
def packetAt (xs : List (Nat × Nat) := []) (f : Queue → Queue := id) : State :=
  let s := at' (.nop .always)
  let words := xs.foldl (fun (w : List Word) x => w.set x.1 (BitVec.ofNat 64 x.2)) placedLaunch.words
  State.part0 { s with mem := s.mem.write 0x300100 (words.flatMap fun w => leBytes 8 w.toNat) } fun p => { p with
    argArea := 0x400000
    queues := [(5, f { Queue.reset with base := 0x300000, log2 := 4, enable := true, tail := 2, head := 1 }), (6, { Queue.reset with enable := true })] }
def lid5 : Nat := 5 * 2 ^ 48 + 1
def status5 (s : State) : Option Nat := s.statuses.get? lid5
def accepts (s : State) (f : Launch → Nat → State → Bool) : Bool := (s.parts.get? 0).any fun pt =>
  pt.ctx.state == 1 && !pt.ck.closing && !pt.ck.due && pt.lastServed < 64 && ((List.range 64).filter fun q => s.queueServes 0 q (pt.queue q)) == [5]
    && (s.statuses.get? lid5).isNone && match s.readPlain ⟨0, 0⟩ 0x300100 256 with
      | .ok bs =>
        let l := Launch.ofWords ((List.range 32).map fun k => BitVec.ofNat 64 (fieldAt bs (8 * k) 8)) 0 pt.accepted
        f l (s.checkPacket 0 5 1 l) s
      | .error _ => false
theorem witness_CommandProcessorEvents :
    accepts (packetAt) (fun l st s => st == 0 && l.kind == 1 && (s.parts.get? 0).any fun p => decide (1 ∉ (p.queue 5).aborts)) = true
    ∧ accepts (packetAt [(1, 0x100001)]) (fun _ st _ => st != 0) = true ∧ accepts (packetAt [(0, 0x0100)]) (fun l _ _ => l.kind == 0) = true
    ∧ accepts (packetAt [] fun x => { x with aborts := [1] }) (fun _ st s => st == 0 && (s.parts.get? 0).any fun p => decide (1 ∈ (p.queue 5).aborts)) = true := by
  decide +kernel
theorem witness_CommandProcessorEvents_idle :
    (List.range 64).all (fun q => !(packetAt [] fun x => { x with enable := false }).queueServes 0 q
      ((((packetAt [] fun x => { x with enable := false }).parts.get? 0).getD (Partition.reset 0)).queue q)) = true := by decide +kernel
/-- A job on the system queue that is not accepted, one that waits for its place, and a partition that has accepted a packet in this cycle. -/
def jobAt (accept : Option Nat) : State := State.part0 packetAt fun p => { p with sysQueue := [⟨lid5 + 1, accept, none⟩] }
def acceptedNow : State := State.part0 packetAt fun p => { p with acceptedAt := some packetAt.cycle }
theorem witness_CommandProcessorEvents_system : ((jobAt none).parts.get? 0).any (fun p => p.acceptedAt != some (jobAt none).cycle && p.sysQueue.any (·.accept.isNone)) = true
    ∧ (acceptedNow.parts.get? 0).any (fun p => p.acceptedAt == some acceptedNow.cycle) = true
    ∧ ((jobAt (some 4)).parts.get? 0).any (fun p => ((jobAt (some 4)).placeSystem 0 p).isSome) = true := by decide +kernel
-- R61: the job is accepted before the packet; R62: one acceptance a cycle; R73 item 1: its block is placed first.
theorem test_systemQueue : (let t := does (.acceptPacket 0) (jobAt none)
      (t.parts.get? 0).map (fun p => (p.sysQueue.map (·.accept), (p.queue 5).head)) = some ([some 0], 1))
    ∧ ((does (.acceptPacket 0) acceptedNow).parts.get? 0).map (fun p => (p.queue 5).head) = some 1
    ∧ ((does (.placeCluster 0) (jobAt (some 4))).parts.get? 0).map (fun p => p.sysQueue.all (·.place.isSome)) = some true := by decide +kernel
/-- A packet whose argument area of 16 bytes lies outside memory. -/
def noArguments : State := packetAt [(8, 2 ^ 30), (6, 0x404020 + 16 * 2 ^ 32)]
-- R62, R58, R66: acceptance, an entry that is no PC (0x0101), an aborted packet.
theorem test_acceptPacket : (let t := does (.acceptPacket 0) packetAt
      (t.parts.get? 0).map (fun p => ((p.queue 5).head, p.lastServed)) = some (2, 5) ∧ (t.launches.get? lid5).map (·.state) = some .waiting)
    ∧ status5 (does (.acceptPacket 0) (packetAt [] fun x => { x with aborts := [1] })) = some 0x0108
    ∧ (let t := does (.acceptPacket 0) (packetAt [(0, 0x0102 + 2 ^ 63)]); status5 t = some 0x0101 ∧ (t.parts.get? 0).map (fun p => ((p.queue 5).errStatus, (p.queue 5).errSeq)) = some (0x0101, 1)) := by
  decide +kernel
theorem test_acceptPacket_arguments : status5 (does (.acceptPacket 0) noArguments) = some 0x010B
    ∧ (let t := does (.acceptPacket 0) { packetAt [(8, 0x600000), (6, 0x404020 + 32 * 2 ^ 32)] with mem := packetAt [(8, 0x600000), (6, 0x404020 + 32 * 2 ^ 32)] |>.mem.write 0x600010 [7] }
      t.mem.bytes (0x400000 + 4096 * (64 * 5 + 1) + 16) 1 = [7] ∧ status5 t = none) := by decide +kernel

/-- That packet accepted; the statuses of others. -/
def waitingAt (xs : List (Nat × Nat) := []) (st : NMap Nat := []) (f : Partition → Partition := id) : State :=
  State.part0 { does (.acceptPacket 0) (packetAt xs) with statuses := st } f
/-- A dependence on number 7 of queue 3, with need_ok or not. -/
def dep (need : Nat) : Nat := 2 ^ 63 + need * 2 ^ 54 + 3 * 2 ^ 48 + 7
def dep7 : Nat := 3 * 2 ^ 48 + 7
def waitsIn (s : State) (f : Launch → Partition → Bool) : Bool := (s.parts.get? 0).any fun pt =>
  pt.ctx.state == 1 && !pt.ck.closing && !pt.ck.due && (s.launches.get? lid5).any fun l => l.state == .waiting && f l pt
def booked (n : Nat) (p : Partition) : Partition := { p with gbk := { p.gbk with base := 0x500000, log2 := 4, tail := n } }
theorem witness_CommandProcessorEvents_ready : waitsIn waitingAt (fun l pt => l.deps.all (fun d => !d.getLsbD 63) && l.kind == 1 && l.det == 0 && pt.gbk.log2 == 0) = true
    ∧ waitsIn (waitingAt [(12, dep 1)] [(dep7, 0x0108)]) (fun l _ => l.deps.head?.any fun d => d.getLsbD 63 && d.getLsbD 54) = true
    ∧ waitsIn (waitingAt [(12, dep 0)]) (fun l _ => l.deps.head?.any fun d => d.getLsbD 63 && !d.getLsbD 54) = true
    ∧ waitsIn (waitingAt [(0, 0x0100)]) (fun l _ => l.kind == 0) = true
    ∧ waitsIn (waitingAt [] [] (booked 16)) (fun _ pt => pt.gbk.log2 == 4 && pt.gbk.head + 16 ≤ pt.gbk.tail) = true
    ∧ waitsIn (waitingAt [] [] (booked 15)) (fun l pt => decide (pt.gbk.tail < pt.gbk.head + 16)
        && (State.writePlain (waitingAt [] [] (booked 15)) ⟨0, 0⟩ (0x500000 + 128 * 15) (openBytes (waitingAt [] [] (booked 15)) pt lid5 l)).isOk) = true := by decide +kernel
def readied (s : State) : Option LaunchState := ((does (.packetReady lid5) s).launches.get? lid5).map (·.state)
-- R34: a dependence not completed, one that failed with need_ok and without, type 0x00.
theorem test_packetReady : readied waitingAt = some .ready ∧ readied (waitingAt [(12, dep 1)]) = some .waiting
    ∧ status5 (does (.packetReady lid5) (waitingAt [(12, dep 1)] [(dep7, 0x0108)])) = some 0x0105
    ∧ readied (waitingAt [(12, dep 0)] [(dep7, 0x0108)]) = some .ready ∧ status5 (does (.packetReady lid5) (waitingAt [(0, 0x0100)])) = some 0 := by decide +kernel
-- R519, R65: no record free; the last one free, its first word the launch id.
theorem test_packetReady_record : readied (waitingAt [] [] (booked 16)) = some .waiting
    ∧ (let t := does (.packetReady lid5) (waitingAt [] [] (booked 15))
      t.mem.bytes (0x500000 + 128 * 15) 8 = leBytes 8 0x0005000000000001 ∧ (t.parts.get? 0).map (·.gbk.tail) = some 16) := by decide +kernel

/-- An object of one operation that is a `nop`, of a kind; its header as the table of R45 lays it out. -/
def asderOp (kind : Nat) : List Byte := leBytes 12 (encode (.nop .always)).toNat ++ leBytes 4 (2 ^ 16 + kind * 2 ^ 14)
def asderHash (kind : Nat) : Nat := leNat ((sha384 (asderOp kind)).take 16)
def asderObject (kind : Nat) : List Byte := leBytes 4 0x52445341 ++ leBytes 4 1 ++ leBytes 8 64 ++ leBytes 8 1 ++ leBytes 16 (asderHash kind) ++ leBytes 8 0 ++ leBytes 16 0
  ++ asderOp kind
/-- An Asder packet accepted whose translator block runs, and what the translator may give. -/
def asderJob (kind : Nat := 0) (place : Option SysPlace := some .held) : State :=
  let s := packetAt [(0, 0x0102), (1, 0x680000), (2, asderHash kind % 2 ^ 64), (3, asderHash kind / 2 ^ 64), (6, 0), (7, 0)]
  State.part0 (does (.acceptPacket 0) { s with mem := s.mem.write 0x680000 (asderObject kind) }) fun p =>
    { p with sysQueue := p.sysQueue.map fun j => { j with accept := some 7, place := place } }
def asder : State := asderJob
def soundness (s : State) : Option Bool := (s.launches.get? lid5).bind fun l => (s.asderAt 0 l.entry.toNat l.hash).map (·.sound)
def code (regs : Nat) : Translated := ⟨0x100000, 5, 0x404000 + regs, 0x100010020⟩
theorem witness_CommandProcessorEvents_object : soundness asder = some true ∧ soundness (asderJob 2) = some false
    ∧ soundness { asder with mem := asder.mem.write 0x680000 [0] } = none
    ∧ waitsIn (asderJob 0 none) (fun _ pt => pt.sysQueue.map (fun j => (j.launch, j.place)) == [(lid5, none)]) = true := by decide +kernel
theorem witness_CommandProcessorEvents_translation : waitsIn asder (fun l pt => l.kind == 2 && !l.translated && decide (pt.codes.length < 256)
      && pt.translates lid5 && (asder.asderAt 0 l.entry.toNat l.hash).any (fun o => (l.translate (code 32)).maps o l.lanes && !(l.translate ⟨0, 0, 0x404020, 0x10020 - 1⟩).maps o l.lanes)
      && !(l.translate (code 32)).resourcesBad && (l.translate (code 32)).lanes == 32 && (l.translate (code 257)).resourcesBad) = true := by decide +kernel
-- R37: 256 registers are allowed, 257 are not; R47: kind 2 fails; R50: a translator block that does not run yet has not ended.
theorem test_asderTranslationDone : status5 (does (.asderTranslationDone lid5 none) asder) = some 0x0109
    ∧ status5 (does (.asderTranslationDone lid5 (some (code 257))) asder) = some 0x0109
    ∧ status5 (does (.asderTranslationDone lid5 (some (code 32))) (asderJob 2)) = some 0x0109
    ∧ status5 (does (.asderTranslationDone lid5 none) (asderJob 0 none)) = none
    ∧ (let t := does (.asderTranslationDone lid5 (some (code 256))) asder
      (t.launches.get? lid5).any (fun l => l.translated && l.regs == 256) = true ∧ (t.parts.get? 0).map (·.codes.length) = some 1) := by decide +kernel

/-- A replay ring of 256 entries whose entry 3 has two words; launch 0 replays launch 9. -/
def replayAt (w0 w1 tail : Nat) : State :=
  let s := State.word0 (State.word0 (at' (.nop .always)) 9 2) 17 9
  State.part0 { s with mem := s.mem.write 0x700030 (leBytes 8 w0 ++ leBytes 8 w1) } fun p =>
    { p with rpl := { p.rpl with base := 0x700000, log2 := 8, head := 3, tail := tail }, replayTags := [(6, 0)], replaySites := [(6, 0x1234)] }
def siteEntry : Nat := 2 * 2 ^ 60 + 6 * 2 ^ 48 + 0x5678
theorem witness_CommandProcessorEvents_replay : [(2 ^ 60 + 2 ^ 48, 9), (2 ^ 60 + 2 ^ 48, 8), (siteEntry, 0), (3 * 2 ^ 60 + 6 * 2 ^ 48, 0), (11 * 2 ^ 60 + 5 * 2 ^ 48, 0)].all (fun x =>
      ((replayAt x.1 x.2 4).parts.get? 0).any fun pt => pt.ctx.state == 1 && !pt.ck.closing && !pt.ck.due && pt.rpl.head < pt.rpl.tail && pt.replayHeld.isEmpty
        && ((replayAt x.1 x.2 4).readPlain ⟨0, 0⟩ (0x700000 + 16 * 3) 16).isOk
        && (replayAt x.1 x.2 4).launches.all fun l => l.1 == 0 && l.2.det == 2 && l.2.reference == 9) = true
    ∧ ((replayAt 0 0 3).parts.get? 0).any (fun pt => decide (¬pt.rpl.head < pt.rpl.tail)) = true := by decide +kernel
def replayed (w0 w1 tail : Nat) (f : Partition → Bool) : Bool := ((does (.replayRingRead 0) (replayAt w0 w1 tail)).parts.get? 0).any f
theorem test_replayRingRead : replayed (2 ^ 60 + 2 ^ 48) 9 4 (fun p => p.rpl.head == 4 && p.replayTags.get? 1 == some 0) = true
    ∧ replayed (2 ^ 60 + 2 ^ 48) 8 4 (fun p => p.rpl.head == 3) = true ∧ replayed siteEntry 0 4 (fun p => p.rpl.head == 4 && p.replaySites.get? 6 == some 0x5678) = true
    ∧ replayed (11 * 2 ^ 60 + 5 * 2 ^ 48) 0 4 (fun p => p.rpl.head == 4 && p.replayHeld.isEmpty) = true
    ∧ replayed (3 * 2 ^ 60 + 6 * 2 ^ 48 + 2 * 2 ^ 40 + 17) (5 * 2 ^ 40 + 99) 4 (fun p => p.replayHeld == [⟨3, 3, 0, some 0x1234, 2, 17, 5, 99⟩]) = true
    ∧ replayed siteEntry 0 3 (fun p => p.rpl.head == 3) = true := by decide +kernel

/-- That launch ready to dispatch beside launch 0, which has dispatched, or has not; changes of both. -/
def readyAt (f g : Launch → Launch := id) (xs : List (Nat × Nat) := []) : State :=
  let s := does (.packetReady lid5) (waitingAt xs)
  { s with launches := (s.launches.adjust lid5 f).adjust 0 g }
def undispatched (l : Launch) : Launch := { l with state := .ready, next := 0 }
/-- A cluster waits since cycle 0. -/
def waits (aged : Bool) (l : Launch) : Launch := { l with wait := some ⟨0, 0, [], aged⟩ }
/-- Launch 0 reserves all SRAM of every core of the group. -/
def hoards (l : Launch) : Launch := { l with
  words := l.words.set 6 (2 ^ 30 + 0x20), wait := some ⟨0, 0, (List.range 16).map fun k => ⟨k, 0, 0⟩, false⟩ }
def placing (s : State) (f : Partition → Launch → Bool) : Bool := (s.parts.get? 0).any fun pt => pt.ctx.state == 1 && !pt.ck.closing && !pt.ck.due
  && pt.returning.isEmpty && (s.launches.get? lid5).any fun l => l.dispatchable && f pt l
theorem witness_PlacingAndRetirement : (let s := readyAt id undispatched [(9, 2 ^ 8)]
      placing s fun pt l => (s.launches.get? 0).any (fun x => x.dispatchable && x.wait.isNone && decide (x.priority < l.priority)) && (s.offer pt [] lid5).isSome) = true
    ∧ (let s := readyAt (waits true) (fun l => waits false (undispatched l))
      placing s fun pt l => l.wait.any (·.aged) && (s.launches.get? 0).any (fun x => x.dispatchable && x.wait.any (!·.aged)) && (s.offer pt [] lid5).isSome) = true := by
  decide +kernel
theorem witness_PlacingAndRetirement_one : [readyAt, readyAt id hoards].all (fun s =>
      placing s fun pt l => l.wait.isNone && l.det == 0 && l.ranks == 1 && l.nextTurn == some 0 && pt.groupList == [0]
        && s.launches.all (fun x => (x.1 == lid5 || !x.2.dispatchable) && x.2.wait.all (!·.aged)) && decide (s.launches.Pairwise (fun a b => a.1 < b.1))) = true
    ∧ placing readyAt (fun pt l => (readyAt.rankCore pt lid5 l 0 0 0).isSome) = true
    ∧ placing (readyAt id hoards) (fun pt l => ((readyAt id hoards).rankCore pt lid5 l 0 0 0).isNone) = true := by decide +kernel
-- R73: the higher priority; the aged cluster. R74: a cluster that fits no core waits.
theorem test_placeCluster_first : ((does (.placeCluster 0) (readyAt id undispatched [(9, 2 ^ 8)])).launches.map fun l => l.2.next) = [0, 1]
    ∧ ((does (.placeCluster 0) (readyAt id undispatched)).launches.map fun l => l.2.next) = [1, 0]
    ∧ ((does (.placeCluster 0) (readyAt id hoards)).launches.get? lid5).map (·.wait) = some (some ⟨0, 0, [], false⟩) := by decide +kernel
theorem test_placeCluster : (let t := does (.placeCluster 0) readyAt
      (t.blocks.get? 1).map (fun b => (b.core, b.sramBase, b.sramLen, b.slots)) = some (1, 0, 64, [64])
      ∧ (t.warps.get? 64).map (fun w => (w.present, w.n, (w.path 0).pc, (w.path 0).mask)) = some (0xFFFFFFFF, 32, 0x100000, 0xFFFFFFFF)
      ∧ (t.launches.get? lid5).map (fun l => (l.state, l.next)) = some (.draining, 1)) := by decide +kernel
-- R80's example: a plane of 3 by 2 clusters on the curve of N = 4.
theorem test_cluster_walk : ((List.range 6).map fun k => ({ placedLaunch with words := (placedLaunch.words.set 4 0x0001000200000003).set 9 3 }).clusterAt k)
    = [(0, 0, 0), (1, 0, 0), (1, 1, 0), (0, 1, 0), (2, 1, 0), (2, 0, 0)] := by decide +kernel

theorem witness_PlacingAndRetirement_age : ((readyAt (waits false)).launches.get? lid5).any (fun l => l.wait == some ⟨0, 0, [], false⟩) = true := by decide +kernel
theorem test_clusterAgeThreshold : [(16383, false), (16384, true)].all (fun (x : Nat × Bool) =>
    ((does (.clusterAgeThreshold lid5) { readyAt (waits false) with cycle := x.1 }).launches.get? lid5).any fun l => l.wait.any (·.aged == x.2)) = true := by decide +kernel

/-- The placed block over, its warps gone. -/
def overAt (f : Block → Block := id) (det : Nat := 0) : State :=
  State.word0 (State.block0 { at' (.nop .always) with warps := [] } fun b => f { b with live := [], retired := 5, accum := 3 }) 9 det
def overReady (s : State) (f : Block → Launch → Bool) : Bool := (s.blocks.get? 0).any fun b => b.live.isEmpty && s.stores.isEmpty && b.copies.isEmpty
    && (b.mx.stream.isNone || b.mx.stopped.isSome) && b.collOpen == 0 && s.blocks.length == 1
    && ((s.parts.get? 0).any fun p => !p.ck.closing && !p.ck.due) && (s.launches.get? b.launch).any fun l => f b l
theorem witness_PlacingAndRetirement_retire : overReady overAt (fun b l => b.mx.stopped.isNone && l.det == 0) = true
    ∧ overReady (overAt fun b => { b with mx := { b.mx with stream := some placedStream, stopped := some ⟨0x50, 1, 7, false⟩ } }) (fun b _ => b.mx.stopped.isSome) = true
    ∧ overReady (overAt (fun b => { b with turn := 1 }) 3) (fun b l => l.det == 3 && decide (l.retiredClusters < b.turn)) = true
    ∧ overReady (overAt id 3) (fun b l => l.det == 3 && decide (b.turn ≤ l.retiredClusters)) = true := by decide +kernel
def retires (s : State) : Option (Nat × Nat × Nat × Nat) := ((does (.blockRetire 0) s).launches.get? 0).map fun l => (l.retired, l.accum.toNat, l.retiredBlocks, l.status)
theorem test_blockRetire : retires overAt = some (5, 3, 1, 0) ∧ retires (overAt fun b => { b with live := [0] }) = some (0, 0, 0, 0)
    ∧ retires (overAt (fun b => { b with turn := 1 }) 3) = some (0, 0, 0, 0) ∧ retires (overAt fun b => { b with collOpen := 1 }) = some (0, 0, 0, 0)
    ∧ retires (overAt fun b => { b with mx := { b.mx with stream := some placedStream, stopped := some ⟨0x50, 1, 7, false⟩ } }) = some (5, 3, 1, 0x010A) := by decide +kernel

/-- The block retired; the packet's stamp address and a status. -/
def drained (stamp status : Nat) (aborted : Bool := false) : State := State.launch0 (does (.blockRetire 0) overAt) fun l =>
  { l with words := (l.words.set 16 (BitVec.ofNat 64 stamp)).set 9 0x400000, status := status, aborted := aborted }
theorem witness_PlacingAndRetirement_complete : [drained 0 0, drained 0x800000 0x010A, drained 0 0 true].all (fun s => (s.launches.get? 0).any fun l =>
      s.blocks.isEmpty && l.state == .draining && (l.aborted || l.nextTurn.isNone) && l.record.isNone && l.cls == 0
        && (l.stamp == 0 || (s.checkPlain ⟨0, 0⟩ l.stamp 8 false true).isOk)) = true
    ∧ (overAt.launches.get? 0).isSome = true ∧ overAt.blocks.any (fun b => b.2.launch == 0) = true := by decide +kernel
theorem test_launchComplete : [drained 0 0, drained 0 0x010A true, drained 0 0 true].map (fun s => (does (.launchComplete 0) s).statuses.get? 0) = [some 0, some 0x010A, some 0x0108]
    ∧ (does (.launchComplete 0) (drained 0x800000 0x010A)).mem.bytes 0x800000 8 = leBytes 8 0x010A000000000000
    ∧ (does (.launchComplete 0) overAt).statuses.get? 0 = none := by decide +kernel

/-! ### Queue, ring and debug registers -/

/-- The placed machine with queue 5 as given. -/
def queueAt (x : Queue) (f : Partition → Partition := id) : State := State.part0 (at' (.nop .always)) fun p => f { p with queues := [(5, x)] }
def q0 : Queue := { Queue.reset with base := 0x300000, log2 := 4, enable := true, tail := 9, head := 4, done := 2 }
def queue5 (s : State) : Option Queue := (s.parts.get? 0).map (·.queue 5)
def errored (i : Instr) (x : Queue) : Option (Nat × Nat × Nat) := (queue5 (does i (queueAt x))).map fun y => (y.errStatus, y.errSeq, y.errCount)
theorem witness_QueueAndRingRegisters_queue : [q0, { q0 with devFeed := true }, { q0 with enable := false }, { q0 with errStatus := 0x0110, errCount := 2 ^ 32 - 1 }].all (fun x =>
      (queue5 (queueAt x)) == some x && decide (x.errCount < 2 ^ 32)) = true
    ∧ ((queueAt q0).launches.get? lid5).isNone = true
    ∧ ((waitingAt).launches.get? lid5).any (fun l => l.state == .waiting) = true ∧ (readyAt.launches.get? lid5).any (fun l => l.state == .ready) = true := by decide +kernel
-- R58: 20 is head plus 16 slots; errors by their kind, the first one kept.
theorem test_queueTail : (queue5 (does (.queueTail 0 5 20) (queueAt q0))).map (·.tail) = some 20 ∧ (queue5 (does (.queueTail 0 5 9) (queueAt q0))).map (·.tail) = some 9
    ∧ errored (.queueTail 0 5 21) q0 = some (0x0110, 9, 1) ∧ errored (.queueTail 0 5 8) q0 = some (0x0110, 9, 1)
    ∧ errored (.queueTail 0 5 10) { q0 with devFeed := true } = some (0x0111, 9, 1) ∧ errored (.queueTail 0 5 10) { q0 with enable := false } = some (0x0112, 9, 1)
    ∧ errored (.queueTail 0 5 8) { q0 with errStatus := 0x0114, errSeq := 3, errCount := 2 ^ 32 - 1 } = some (0x0114, 3, 2 ^ 32 - 1) := by decide +kernel
theorem test_queueCfg : errored (.queueCfg 0 5 0x31) { q0 with enable := false } = some (0x0113, 9, 1) ∧ errored (.queueCfg 0 5 0x111) { q0 with enable := false } = some (0x0113, 9, 1)
    ∧ errored (.queueCfg 0 5 0x51) q0 = some (0x0113, 9, 1) ∧ errored (.queueCfg 0 5 0x43) q0 = some (0x0113, 9, 1)
    ∧ (queue5 (does (.queueCfg 0 5 0x107) (queueAt { q0 with enable := false }))).map (fun x => (x.log2, x.serial, x.devFeed, x.enable)) = some (16, true, true, true)
    ∧ (queue5 (does (.queueCfg 0 5 0x44) (queueAt q0))).map (fun x => (x.log2, x.serial, x.devFeed, x.enable)) = some (4, true, false, false) := by decide +kernel
theorem test_queueBase : errored (.queueBase 0 5 0x5000) q0 = some (0x0113, 9, 1)
    ∧ (queue5 (does (.queueBase 0 5 0xFFFFFFFFFFFF5FFF) (queueAt { q0 with enable := false }))).map (·.base) = some 0x7FFFFFFF5000 := by decide +kernel
theorem test_queueErrctlClear : errored (.queueErrctlClear 0 5 0x100000000) { q0 with errStatus := 0x0114, errSeq := 3, errCount := 7 } = some (0, 0, 0)
    ∧ errored (.queueErrctlClear 0 5 0xFFFFFFFF) { q0 with errStatus := 0x0114, errSeq := 3, errCount := 7 } = some (0x0114, 3, 7) := by decide +kernel
-- R66's rows: not accepted, past the tail, completed, accepted, dispatching.
theorem test_queueAbort : (queue5 (does (.queueAbort 0 5 4) (queueAt q0))).map (·.aborts) = some [4] ∧ errored (.queueAbort 0 5 9) q0 = some (0x0114, 9, 1)
    ∧ errored (.queueAbort 0 5 3) q0 = some (0x0114, 3, 1) ∧ status5 (does (.queueAbort 0 5 1) waitingAt) = some 0x0108
    ∧ ((does (.queueAbort 0 5 1) readyAt).launches.get? lid5).map (·.aborted) = some true := by decide +kernel

/-- Its rings: head 3, cmt 5, tail 7, of 16 entries; a context state. -/
def ringsAt (st : Nat) : State := State.part0 (at' (.nop .always)) fun p =>
  let r : RingRegs := ⟨0x300000, 4, 7, 3, 5, true⟩
  { p with gbk := r, log := r, rpl := r, trc := r, ctx := { p.ctx with state := st } }
def ring (f : Partition → RingRegs) (i : Instr) (st : Nat := 0) : Option (Nat × Nat × Nat × Nat × Bool) :=
  ((does i (ringsAt st)).parts.get? 0).map fun p => let r := f p; (r.base, r.log2, r.head, r.tail, r.fin)
theorem witness_QueueAndRingRegisters_rings : [0, 1].all (fun st => ((ringsAt st).parts.get? 0).any fun p => p.ctx.state == st && p.dropped == 0 && !p.trcEn.getLsbD 7
      && p.gbk.head ≤ 3 && 5 ≤ p.gbk.cmt && p.gbk.cmt < 6 && p.rpl.tail == 7 && p.rpl.cmt + 2 ^ p.rpl.log2 == 21) = true := by decide +kernel
theorem test_ringHeadWrite : [(2, 3), (3, 3), (5, 5), (6, 3)].all (fun (x : Nat × Nat) => ring (·.gbk) (.ringHeadWrite 0 .guestbook (BitVec.ofNat 64 x.1)) == some (0x300000, 4, x.2, 7, true)
      && ring (·.log) (.ringHeadWrite 0 .logbook (BitVec.ofNat 64 x.1)) == some (0x300000, 4, x.2, 7, true)) = true
    ∧ [(7, 7), (8, 3)].all (fun (x : Nat × Nat) => ring (·.trc) (.ringHeadWrite 0 .trace (BitVec.ofNat 64 x.1)) == some (0x300000, 4, x.2, 7, true)) = true
    ∧ ring (·.rpl) (.ringHeadWrite 0 .replay 5) = some (0x300000, 4, 3, 7, true) := by decide +kernel
theorem test_ringBaseCfgWrite : (ring (·.gbk) (.ringBaseCfgWrite 0 .guestbook false 0x5FFF) == some (0x5000, 4, 0, 0, true)
    && ring (·.log) (.ringBaseCfgWrite 0 .logbook true 0x28) == some (0x300000, 8, 0, 0, true)
    && ring (·.log) (.ringBaseCfgWrite 0 .logbook true 8) 1 == some (0x300000, 4, 3, 7, true)
    && ((does (.ringBaseCfgWrite 0 .trace true 0x8205) (ringsAt 1)).parts.get? 0).any fun p => p.trcEn == 0x82 && p.trc.log2 == 5 && p.trc.tail == 7) = true := by decide +kernel
theorem test_rpl : [(6, 7), (7, 7), (21, 21), (22, 7)].all (fun (x : Nat × Nat) => ring (·.rpl) (.rplTail 0 (BitVec.ofNat 64 x.1)) == some (0x300000, 4, 3, x.2, false)) = true
    ∧ ring (·.rpl) (.rplCtlEnd 0 0x1000000000000) = some (0x300000, 4, 3, 7, true) := by decide +kernel
theorem witness_QueueAndRingRegisters_registers : (queueAt q0).ctl.refused = 0 ∧ ((queueAt q0).parts.get? 0).any (fun p => p.comps.length == 8) = true := by
  decide +kernel
theorem test_registerWrite : (queue5 (does (.registerWrite 0 0x100150 12) (queueAt q0))).map (·.tail) = some 12
    ∧ (queue5 (does (.registerWrite 0 0x100154 12) (queueAt q0))).map (·.tail) = some 9
    ∧ ((does (.registerWrite 1 0x109018 0x95) (State.part0 (queueAt q0) fun p => { p with comps := p.comps.set 1 ⟨7, 9, 0, 0, 0, false⟩ })).parts.get? 0).map (fun p => p.comps[1]?)
      = some (some ⟨7, 0, 2, 1, 1, true⟩)
    ∧ ((does (.registerWrite 0 0x107000 0xFFFFFFFFFFFFFFFF) (queueAt q0)).parts.get? 0).map (·.ck.cfg) = some 0xFFFFFFFFFFFF0007 := by decide +kernel

/-- DBG_CMD's word for path 0 of the warp in frame slot 0. -/
def heldState : State := State.path0 (at' (.nop .always)) fun p => { p with state := .parked .debugHold }
theorem witness_DebugFreezeAndReads : ((at' (.nop .always)).namedPath 0 0).any (fun x => x.1 == 0 && x.2.1 == 0 && x.2.2.state == .live) = true
    ∧ (heldState.namedPath 0 0).any (fun x => x.2.2.state == .parked .debugHold) = true ∧ (heldState.heldPaths 0).length = 1
    ∧ ((at' (.nop .always)).namedPath 0 0x100000).isNone = true ∧ (at' (.nop .always)).heldPaths 0 = [] := by decide +kernel
theorem test_dbg : pathHas (does (.dbgHold 0 0) (at' (.nop .always))) (fun p => p.holdAsked && p.state == .live) = true
    ∧ pathHas (does (.dbgHold 0 0x100000) (at' (.nop .always))) (fun p => !p.holdAsked) = true
    ∧ pathHas (does (.dbgRelease 0 0) heldState) (fun p => p.state == .live && p.exempt == 2) = true
    ∧ pathHas (does (.dbgReleaseAll 0 0) heldState) (fun p => p.state == .live) = true := by decide +kernel
-- R539: quarter 2 of core 7, 40 cycles, leaves of 15 and 5; the other 20 are idle.
theorem test_counterRead : (let t := does (.counterRead 7 2) { State.reset with cycle := 40, slots := [(30, ((List.replicate 28 0).set 10 15).set 7 5)] }
      t.hostData = leBytes 8 40 ∧ (t.latched.get? 30).map (fun l => (nth l 0 0, nth l 10 0, nth l 7 0, nth l 22 0)) = some (40, 15, 5, 20)) := by decide +kernel
/-- Port 0 has held CTL_HWSEM from cycle 0. -/
def semHeld (us : Nat) : State := { State.reset with cycle := us * 1250, ctl := { State.reset.ctl with owner := 1, until' := 12500000 } }
theorem witness_DebugFreezeAndReads_semaphore : (semHeld 4).ctl.owner = 0 + 1 ∧ State.reset.ctl.owner = 0 ∧ (semHeld 10000).ctl.until' ≤ (semHeld 10000).cycle
    ∧ (semHeld 9999).cycle < (semHeld 9999).ctl.until' ∧ (0xA501 : Word).extractLsb' 8 8 = 0xA5 ∧ (0xA501 : Word).getLsbD 0 = true := by decide +kernel
-- R545's example: at 4 µs port 1 reads 0x270C0003; the hold lapses at 10,000 µs.
theorem test_hwsem : (let t := does (.hwsemRead 0) State.reset; t.ctl.owner = 1 ∧ t.ctl.until' = 12500000) ∧ (does (.hwsemRead 1) (semHeld 4)).hostData = leBytes 8 0x270C0003 ∧ (does (.hwsemRelease 1) (semHeld 4)).ctl.owner = 1
    ∧ (does (.hwsemRelease 0) (semHeld 4)).ctl.owner = 0 ∧ (let t := does .hwsemLapse (semHeld 10000); t.ctl.owner = 0 ∧ t.ctl.lapses = 1) ∧ (does .hwsemLapse (semHeld 9999)).ctl.owner = 1 := by decide +kernel
theorem test_freeze : (does (.ctlFreeze 0 0xA501) (semHeld 4)).frozen = true ∧ (does (.ctlFreeze 1 0xA501) (semHeld 4)).frozen = false
    ∧ (does (.ctlFreeze 0 0xA401) (semHeld 4)).frozen = false ∧ (does .frzN State.reset).frozen = true := by decide +kernel
theorem witness_DebugFreezeAndReads_reads : (memAt flat).held = [] ∧ (memAt flat).heldFrom none (hbmPieces 0x200000 4) = false
    ∧ (heldAt (memAt flat)).heldFrom none (hbmPieces 0x200000 4) = true ∧ (queueAt q0).ctl.refused = 0 ∧ (does .frzN State.reset).frozen = true := by decide +kernel
theorem test_hostRead : (does (.hostRead 1 0x200000 4) (memAt flat [1, 2, 3])).hostData = [1, 2, 3, 0]
    ∧ (does (.hostRead 1 0x200000 4) (heldAt (memAt flat [1, 2, 3]))).held = [.hostRead 1 0x200000 4]
    ∧ (does (.hostRead 0 (2 ^ 62 + 0x100158) 8) (queueAt q0)).hostData = leBytes 8 4 ∧ (does (.hostRead 0 (2 ^ 62 + 0x100168) 8) (queueAt { q0 with errStatus := 0x0114, errSeq := 3 })).hostData
      = leBytes 8 0x0114000000000003 := by decide +kernel
theorem test_debugPortRead : (does (.debugPortRead 0x200000 4) (memAt flat [1, 2, 3])).hostData = [1, 2, 3, 0]
    ∧ ((does (.debugPortRead (2 ^ 52) 24) { does .frzN State.reset with cycle := 9 }).hostData.drop 16) = leBytes 8 9 := by decide +kernel

/-! ### The security mailbox

What a signature verifies, and an image's header fields, are free (log entry 44 and R549): the witnesses that need them are stated for a
machine whose checks accept. -/

def booted : State := { State.reset with ctl := { Control.reset with ready := true, hlen := 4096 } }
/-- What a command leaves in MBX_STAT.status. -/
def mailed (i : Instr) (s : State := booted) : Nat := (does i s).ctl.status
/-- A header with its magic, and one byte of code. -/
def image1 : List Byte := leBytes 4 0x4D495850 ++ zeros 252 ++ [1]
theorem witness_ManagementAndSecurity_image (h2 : imageNumber 2 image1 = 1) (h3 : Config.imageField 3 (image1.take 256) = sha384 (image1.drop 256))
    (h4 : booted.flash.verifies (image1.take 96) (Config.imageField 4 (image1.take 256)) (Config.imageField 5 (image1.take 256)) = true) :
    booted.ctl.ready = true ∧ booted.flash.imageStatus image1 = 0 := by
  refine ⟨by decide +kernel, ?_⟩
  have hl : image1.length = 257 := by decide +kernel
  have hf : fieldAt image1 0 4 = 0x4D495850 := by decide +kernel
  have hm : booted.flash.minVersion (imageNumber 0 image1) = 0 := rfl
  simp [Flash.imageStatus, hl, hf, h2, h3, h4, hm]
theorem witness_ManagementAndSecurity_magic (h : imageNumber 2 (zeros 257) = 1) :
    256 ≤ (zeros 257).length ∧ (zeros 257).length = 256 + imageNumber 2 (zeros 257) ∧ fieldAt (zeros 257) 0 4 ≠ 0x4D495850 := by
  rw [h]; decide +kernel
/-- A transfer record: keys of 1s and 2s, a nonce of 3s. -/
def transfer1 : List Byte := leBytes 4 0x46525458 ++ List.replicate 96 1 ++ List.replicate 48 2 ++ List.replicate 48 3 ++ zeros 100
def nonced (n : Byte) : State := { booted with ctl := { booted.ctl with nonce := some (List.replicate 48 n) } }
theorem witness_ManagementAndSecurity_transfer (h : (nonced 3).flash.verifies (transfer1.take 196) ((transfer1.drop 196).take 96) (transfer1.drop 292) = true) :
    (nonced 3).ctl.ready = true ∧ 292 ≤ transfer1.length ∧ fieldAt transfer1 0 4 = 0x46525458 ∧ (nonced 3).ctl.nonce = some ((transfer1.drop 148).take 48)
    ∧ (nonced 3).flash.verifies (transfer1.take 196) ((transfer1.drop 196).take 96) (transfer1.drop 292) = true := ⟨by decide +kernel, by decide +kernel, by decide +kernel, by decide +kernel, h⟩
/-- The same where the signatures do not verify. -/
theorem witness_ManagementAndSecurity_unsigned (h : (nonced 3).flash.verifies (transfer1.take 196) ((transfer1.drop 196).take 96) (transfer1.drop 292) = false) :
    (nonced 3).ctl.nonce = some ((transfer1.drop 148).take 48)
    ∧ (nonced 3).flash.verifies (transfer1.take 196) ((transfer1.drop 196).take 96) (transfer1.drop 292) = false := ⟨by decide +kernel, h⟩
theorem test_transfer : mailed (.transfer (transfer1.take 291)) (nonced 3) = 2 ∧ mailed (.transfer (zeros 292)) (nonced 3) = 1 ∧ mailed (.transfer transfer1) (nonced 4) = 4 := by
  decide +kernel

/-- A configuration record: its magic, kind, partition, generation, body length, signature length, body, signatures. -/
def confBytes (kind part gen : Nat) (body : List Nat) (lms : Nat := 0) : List Byte :=
  leBytes 4 0x47464358 ++ leBytes 2 kind ++ leBytes 2 part ++ leBytes 8 gen ++ leBytes 4 (8 * body.length) ++ leBytes 4 lms ++ zeros 40
    ++ body.flatMap (leBytes 8) ++ zeros (96 + lms)
theorem witness_ManagementAndSecurity_config (bs : List Byte) (h : bs = confBytes 1 0xFFFF 1 [3, 12] ∨ bs = confBytes 5 0xFFFF 1 [1, 3] ∨ bs = confBytes 4 0xFFFF 1 [])
    (hv : ∀ m e l, booted.flash.verifies m e l = true) : booted.ctl.ready = true ∧ booted.recordStatus bs = 0 := by
  refine ⟨by decide +kernel, ?_⟩
  rcases h with rfl | rfl | rfl <;> (unfold State.recordStatus; simp only [hv]; decide +kernel)
-- R552, R553: a short record, another magic, a partition named where none is meant, overlapping partitions.
theorem test_config : mailed (.config (zeros 0x9F)) = 2 ∧ mailed (.config (zeros 0xA0)) = 1 ∧ mailed (.config (confBytes 1 0 1 [3])) = 1
    ∧ mailed (.config (confBytes 1 0xFFFF 1 [3, 2])) = 1 ∧ mailed (.config (confBytes 8 0xFFFF 1 [])) = 1 := by decide +kernel
theorem witness_ManagementAndSecurity : State.reset.ctl.ready = false ∧ booted.ctl.ready = true
    ∧ (List.replicate 48 (5 : Byte)).length = 48 ∧ booted.ctl.haddr = 0 := by decide +kernel
theorem witness_ManagementAndSecurity_report (sig : (booted.reportBody (zeros 48) ++ Config.attestationSignature (booted.reportBody (zeros 48)) 0).length ≤ 4096) :
    (zeros 48).length = 48 ∧ (booted.reportBody (zeros 48) ++ Config.attestationSignature (booted.reportBody (zeros 48)) booted.ctl.reports).length ≤ booted.ctl.hlen
    ∧ booted.ctl.haddr + (booted.reportBody (zeros 48) ++ Config.attestationSignature (booted.reportBody (zeros 48)) booted.ctl.reports).length ≤ 2 ^ 52 := by
  have h0 : booted.ctl.haddr = 0 := rfl
  have h1 : booted.ctl.hlen = 4096 := rfl
  have h2 : booted.ctl.reports = 0 := rfl
  rw [h0, h1, h2]
  refine ⟨by decide +kernel, sig, ?_⟩
  omega
theorem test_mailbox : mailed .nonce State.reset = 8 ∧ mailed .keys State.reset = 8 ∧ mailed (.attest (zeros 47)) = 2 ∧ mailed (.image 0 []) = 1 ∧ mailed (.image 5 []) = 1
    ∧ mailed (.image 1 (zeros 255)) = 2 ∧ mailed .nonce = 0 ∧ ((does .nonce booted).ctl.nonces, (does .nonce booted).ctl.rlen) = (1, 48) := by decide +kernel
theorem test_thermalThrottle : (does (.thermalThrottle 1) State.reset).throttle = 1 ∧ (does (.thermalThrottle 0) { State.reset with throttle := 2 }).throttle = 0 := by
  decide +kernel

/-! ### The host and peers -/

/-- Number n of a class has been executed for member 1. -/
def pairAt (cls n : Nat) (bs : List Nat := []) : State := { memAt flat bs with canalSeqs := [(4 + cls, n)] }
theorem witness_HostAndPeerTraffic : (memAt flat).held = [] ∧ (memAt flat).heldFrom none (hbmPieces 0x200000 4) = false
    ∧ (heldAt (memAt flat)).heldFrom none (hbmPieces 0x200000 4) = true
    ∧ (let s := pairAt 0 (2 ^ 16 - 1); s.canalSeqs.getD 4 0 < 2 ^ 16 ∧ 0 = (s.canalSeqs.getD 4 0 + 1) % 2 ^ 16 ∧ 2 ^ 15 ≤ (s.canalSeqs.getD 4 0 + 2 ^ 16 - 1) % 2 ^ 16)
    ∧ (let s := { pairAt 2 4 with poison := [0x10000] }; (hbmPieces 0x200000 4).any s.poisoned = true)
    ∧ (let s := { pairAt 2 5 with lockPairs := [(2 ^ 40 + 6, ⟨0, 0, [(5, ([7, 0, 0, 0], false))]⟩)] }; (s.pairOf (2 ^ 40 + 6)).kept.get? 5 = some ([7, 0, 0, 0], false) ∧ s.canalSeqs.getD 6 0 = 5)
    ∧ (let s := pairAt 2 4; s.lockTurn (homeOfKey 0x200000) ((512 + 1) * 128) = true ∧ s.waitersAt (homeOfKey 0x200000) < 1024)
    ∧ (let s := { pairAt 2 4 with semQueues := [(0x200000, List.replicate 1024 (32768 + 2, 0))] }; 1024 ≤ s.waitersAt (homeOfKey 0x200000))
    ∧ (memAt flat).regionHere ⟨0x200000, 32, 0x200000, none, none⟩ = none ∧ ((memAt flat region1).regionHere ⟨0x200000, 32, 0x200000, none, none⟩).any (fun g => g.cells ≤ 5) = true
    ∧ isSram (2 ^ 60) = true ∧ isSram (2 ^ 52) = false := by decide +kernel
theorem test_hostPostedWrite : (does (.hostPostedWrite 0 0x200001 [5, 6]) (memAt flat [1, 2, 3, 4])).mem.bytes 0x200000 4 = [1, 5, 6, 4]
    ∧ (let t := does (.hostPostedWrite 0 0x200001 [5, 6]) (heldAt (memAt flat [1, 2, 3, 4]))
      t.mem.bytes 0x200000 4 = [1, 2, 3, 4] ∧ t.held = [.hostWrite 0 0x200001 [5, 6]]) := by decide +kernel
-- R436: the next number, wrapped; one that is early; a repeated atomic gets its kept result.
theorem test_canalRequest : (let t := does (.canalRequest 1 0 (.read 0x200000 2)) (pairAt 0 (2 ^ 16 - 1) [7, 8])
      t.outbox = [.member 1 (.completion 0 [7, 8] false)] ∧ t.canalSeqs = [(4, 0)])
    ∧ (does (.canalRequest 1 6 (.write 0x200000 [9])) (pairAt 1 4 [7])).held = [.peer 1 6 (.write 0x200000 [9])]
    ∧ (does (.canalRequest 1 5 (.write 0x200000 [9])) (pairAt 1 4 [7])).mem.bytes 0x200000 1 = [9]
    ∧ (let t := does (.canalRequest 1 5 (.atomic 0 .i32 0x200000 3)) (pairAt 2 4 [7])
      t.mem.bytes 0x200000 1 = [10] ∧ t.outbox = [.member 1 (.completion 5 [7, 0, 0, 0] false)] ∧ (t.pairOf (2 ^ 40 + 6)).kept.get? 5 = some ([7, 0, 0, 0], false)) := by decide +kernel
theorem test_canalRequest_again : (let t := does (.canalRequest 1 5 (.atomic 0 .i32 0x200000 3)) (does (.canalRequest 1 5 (.atomic 0 .i32 0x200000 3)) (pairAt 2 4 [7]))
      t.mem.bytes 0x200000 1 = [10] ∧ t.outbox.head? = some (.member 1 (.completion 5 [7, 0, 0, 0] false)))
    ∧ (let t := does (.canalRequest 1 5 (.atomic 0 .i32 0x200000 3)) { pairAt 2 4 [7] with poison := [0x10000] }
      t.mem.bytes 0x200000 1 = [7] ∧ t.outbox.head? = some (.member 1 (.completion 5 [7, 0, 0, 0] true))) := by decide +kernel

/-- One write to a member awaits its acknowledgement; the issuing path waits on it. -/
def unackedAt (m : Nat) : State := { State.path0 (at' (.nop .always)) fun p => { p with state := .parked .fence } with
  unacked := [{ queued with piece := ⟨2 ^ 70, 4, 0x200000, some m, none⟩, data := [1, 2, 3, 4] }], dropTotal := 257 }
theorem witness_HostAndPeerTraffic_ack : 0 < (unackedAt 1).unacked.length ∧ (unackedAt 1).unacked.length ≤ 1
    ∧ pathHas (unackedAt 1) (fun p => p.state == .parked .fence && p.await.isNone && p.waits.isNone) = true ∧ warpHas (unackedAt 1) (fun w => !w.stopped 0) = true
    ∧ (unackedAt 1).unacked.any (fun t => t.piece.peer.any (· < 1024)) = true
    ∧ (unackedAt 1025).unacked.any (fun t => t.piece.peer.any (1024 ≤ ·)) = true := by decide +kernel
theorem test_writeAcknowledgement : (let t := does (.writeAcknowledgement 0) (unackedAt 1); t.unacked = [] ∧ standsAt t pc0 = true)
    ∧ (does (.writeAcknowledgement 1) (unackedAt 1)).unacked.length = 1 := by decide +kernel
-- R440's entry: address, length, member 1 of another domain, core 0, drop 257 in place 1.
theorem test_crossDomainTimeout : (let t := does (.crossDomainTimeout (.write 0)) (unackedAt 1025)
      t.unacked = [] ∧ t.dropTotal = 258 ∧ t.drops.get? 1 = some [0, 0, 0x20, 0, 0, 0, 4, 0, 1, 0x80, 0, 0, 1, 1, 0, 0])
    ∧ (does (.crossDomainTimeout (.write 0)) (unackedAt 1)).dropTotal = 257 := by decide +kernel

/-- 0x2000000 on is memory behind host port 1. -/
def hosted (s : State) : State := { s with iommu := ⟨0, 2 ^ 25, 2 ^ 25, .host 1, 0, true, true, true, 0⟩ :: s.iommu }
def farLoad : State := does (.ld .linear (mo (vd 8) .i32)) (hosted (memAt (areg 0x2000000 0x2000000 0x3000000)))
def farCopy : State := does (.commandActive 0 1) (does (.cpy (co)) (hosted (copyAt [40, 0] (src := areg 0x2000000 0x2000000 0x3000000))))
theorem witness_HostAndPeerTraffic_reads : (match farLoad.awaiting 0 0 with
      | some (_, .load r) => r.shape == .lanes && (r.lanes.filter fun x => x.2.2.any fun p => p.host.isSome).length == 32
      | _ => false) = true
    ∧ (farCopy.copyOf 0 1).any (fun x => x.cmd.state == .active && match (x.cmd.unitAt x.runs x.cmd.pos).reads.mapM (farCopy.bargePieces x.env x.cmd.ex true false) with
      | .ok ps => ps.flatten.any fun p => p.host.isSome
      | .error _ => false) = true := by decide +kernel
theorem test_hostCompletion : [(true, 0x51), (false, 0x351)].all (fun (x : Bool × Nat) =>
      (does (.hostCompletionError (.path 0 0) x.1) (State.with0 farLoad fun w => { w with inHandler := true })).mem.bytes 0x4078 8 == leBytes 8 (0x10000 + x.2)) = true
    ∧ (does (.hostCompletionTimeout (.path 0 0)) (State.with0 farLoad fun w => { w with inHandler := true })).mem.bytes 0x4078 8 = leBytes 8 0x10351
    ∧ copy1 (does (.hostCompletionTimeout (.copy 0 1)) farCopy) (fun x => x.badRead) = true ∧ copy1 farCopy (fun x => x.badRead) = false := by decide +kernel

def page (va size : Nat) (x : Bool := false) : Page := ⟨3, va, size, .hbm, 0, true, true, x, 0⟩
/-- A partition under PASID 3 whose Canal aperture stands at 2^45, two members long, and whose host port is 2. -/
def ats : State := State.part0 (at' (.nop .always)) fun p => { p with pasid := 3, port := 2, aperture := (2 ^ 45, 2 ^ 41) }
noncomputable def atsOf (va size ta : Nat) : Option (Space × Nat × Nat) := (does (.atsTranslationCompletion ⟨3, va, size, ta, true, true, false⟩) ats).atc.head?.bind fun q =>
  if q.pasid == 3 then some (q.space, q.pa, q.size) else none
theorem witness_HostAndPeerTraffic_translation : (ats.parts.find? (fun p => p.2.pasid == 3)).any (fun p => p.1 == 0 && p.2.aperture == (2 ^ 45, 2 ^ 41)) = true
    ∧ ats.parts.find? (fun p => p.2.pasid == 4) = none ∧ ats.bar2 = 2 ^ 51 := by decide +kernel
-- R306: page sizes; the second member's memory, the device's own, memory behind the port.
theorem test_atsTranslationCompletion : [(0, 2 ^ 31, some (2 ^ 31)), (2 ^ 25, 2 ^ 31, some (2 ^ 25)), (2 ^ 19, 2 ^ 25, some (2 ^ 19)), (4096, 2 ^ 31, none)].all (fun (x : Nat × Nat × Option Nat) =>
      (atsOf x.1 x.2.1 7).map (·.2.2) == x.2.2) = true
    ∧ [(2 ^ 45 + 2 ^ 40 + 5, (Space.peer 1, 5)), (2 ^ 51 + 9, (.hbm, 9)), (2 ^ 45 - 1, (.host 2, 2 ^ 45 - 1)), (2 ^ 45 + 2 ^ 41, (.host 2, 2 ^ 45 + 2 ^ 41))].all (fun (x : Nat × Space × Nat) =>
      (atsOf 0 (2 ^ 31) x.1).map (fun y => (y.1, y.2.1)) == some x.2) = true := by decide +kernel
/-- An invalidation of the placed code's page has removed it; the path stands at its line. -/
def invalidated (f : Path → Path := id) (stores : List Store := []) : State :=
  { State.path0 { at' (.nop .always) with focus := none, stores := stores } fun p => f { p with line := some ⟨0x100000, [], 0⟩ } with invalidations := [(0, 0x100000, 0x80000, true), (0, 0, 4096, false)] }
theorem witness_HostAndPeerTraffic_invalidation :
    (let s := invalidated; s.accessOpen 0 0x100000 0x80000 = false ∧ s.fetchHeld 0 0x100000 0x80000 = true ∧ s.fetchHeld 0 0x100040 0x80000 = false
      ∧ warpHas s (fun w => s.readyPath w 0 && s.hasPasid 0 (s.partOf w.block)) = true)
    ∧ warpHas (invalidated fun p => { p with state := .parked .barrier }) (fun w => !(invalidated fun p => { p with state := .parked .barrier }).readyPath w 0) = true
    ∧ (invalidated id [{ queued with part := 0, piece := ⟨0x100000, 4, 0x100000, none, none⟩ }]).accessOpen 0 0x100000 0x80000 = true
    ∧ invalidated.invalidations.find? (fun i => i.1 == 0 && i.2.1 == 0x100000 && i.2.2.1 == 0x80000) = some (0, 0x100000, 0x80000, true) := by decide +kernel
/-- The same with a stream at that line, whose fetch makes it ready, or which has stopped. -/
def invalidatedStream (stopped : Bool) : State := { mxAt fun x => { x with
    stream := some { placedStream with line := some ⟨0x100000, [], 0⟩ }, stopped := if stopped then some ⟨0x30, 0, 0, true⟩ else none } with
  focus := none, invalidations := [(0, 0x100000, 0x80000, true)] }
theorem witness_HostAndPeerTraffic_streamLine : [(false, true), (true, false)].all (fun (x : Bool × Bool) => (invalidatedStream x.1).blocks.any fun b =>
      (invalidatedStream x.1).hasPasid 0 (partOfLaunch b.2.launch) && b.2.mx.stream.any fun m => m.line.isSome && (invalidatedStream x.1).streamReady 0 b.2.mx m == x.2) = true
    ∧ (does (.invalidationCompletion 0 0x100000 0x80000) (invalidatedStream false)).invalidations.length = 1
    ∧ (mxOf (does (.invalidationCompletion 0 0x100000 0x80000) (invalidatedStream true))).any (fun x => x.stream.any (·.line.isNone)) = true := by decide +kernel
-- R310: path A is ready at its line and holds the completion; path B is parked and loses its words; an access under way holds it.
theorem test_invalidation : (does (.invalidationCompletion 0 0x100000 0x80000) invalidated).invalidations.length = 2
    ∧ (let t := does (.invalidationCompletion 0 0x100000 0x80000) (invalidated fun p => { p with state := .parked .barrier })
      t.invalidations.length = 1 ∧ t.outbox = [.invalidated 0 0x100000 0x80000] ∧ pathHas t (fun p => p.line.isNone) = true)
    ∧ (let t := does (.atsInvalidation 3 0x80000 0x1000 true true false false) { State.reset with atc := [page 0 0x80000, page 0x80000 0x80000 true] }
      t.atc = [page 0 0x80000] ∧ t.invalidations = [(3, 0x80000, 0x1000, true)])
    ∧ (does (.atsInvalidation 3 0 0x1000 true false false true) { State.reset with iommu := [page 0 0x80000] }).iommu.map (·.w) = [false] := by decide +kernel
theorem test_eccUncorrectableError : (does (.eccUncorrectableError 0x43) State.reset).poison = [2] ∧ (does (.eccUncorrectableError (2 ^ 52)) State.reset).poison = [] := by
  decide +kernel

/-! ### Views and collectives -/

/-- View 5 of members 0 to n - 1, seen from one of them, in a domain of 8. -/
def members (n : Nat) (self : Nat := 0) (a : Option Agreement := none) : State :=
  { State.reset with viewNo := 5, manifest := BitVec.ofNat 1024 (2 ^ n - 1), domain := 0xFF, self := self, agreement := a, cycle := 100000 }
/-- An agreement with suspects, names, a joiner, a proposal and who accepted it. -/
def agree (s n : List Nat) (add : Option Nat := none) (p : Option (BitVec 1024) := none) (acc : List Nat := []) (since : Nat := 75000) : Agreement :=
  ⟨s, n, add, p, acc, [], since⟩
/-- A port to a member. -/
def portTo (m : Nat) : Port := { Port.reset with peer := m, link := { Port.reset.link with state := 0 } }
def lists (m : BitVec 1024) : List Nat := (List.range 1024).filter m.getLsbD
theorem witness_ViewAgreement :
    (let s := { members 4 with ports := [(0, portTo 1)] }; s.neighbours = [1] ∧ s.beatAt + 2500 ≤ s.cycle) ∧ (members 4).neighbours = []
    ∧ (let s := members 4; 1 ≠ s.self ∧ s.manifest.getLsbD 1 = true ∧ s.heard.getD 1 0 + 25000 ≤ s.cycle ∧ s.viewNo ≠ 0 ∧ s.agreement = none)
    ∧ ({ members 4 with heard := [(1, 75001)] } : State).cycle < ({ members 4 with heard := [(1, 75001)] } : State).heard.getD 1 0 + 25000 := by decide +kernel
-- R403: 2 µs and 20 µs.
theorem test_heartbeat : (does .heartbeatSend { members 4 with ports := [(0, portTo 1)], beatAt := 97500 }).outbox = [.member 1 .heartbeat]
    ∧ (does .heartbeatSend { members 4 with ports := [(0, portTo 1)], beatAt := 97501 }).outbox = []
    ∧ (does (.heartbeat 3) (members 4)).heard = [(3, 100000)]
    ∧ (does (.heartbeatTimeout 3) { members 4 with heard := [(3, 75001)] }).agreement = none
    ∧ (does (.heartbeatTimeout 3) { members 4 with heard := [(3, 75000)] }).agreement.map (·.suspects) = some [3] := by decide +kernel
/-- Member 0 suspects member 3 and leads; member 1 waits for it; all suspected; half with the lowest; half without it; no majority; nothing to change; alone. -/
def leadings : List (State × Agreement × List Nat) :=
  [(members 4, agree [3] [], [0, 1, 2]), (members 4 1, agree [3] [], [0, 1, 2]), (members 2 0, agree [1] [0], []), (members 4, agree [2, 3] [], [0, 1]), (members 4 2, agree [0, 1] [], [2, 3]),
    (members 4, agree [1, 2, 3] [], [0]), (members 4, agree [] [], [0, 1, 2, 3]), (members 2, agree [1] [], [0]), (members 4, agree [] [] (some 6), [0, 1, 2, 3])]
theorem witness_ViewAgreement_lead : leadings.all (fun x => ((List.range 1024).filter x.1.manifest.getLsbD).filter (fun m => !x.2.1.suspects.contains m && !x.2.1.named.contains m) == x.2.2) = true := by
  decide +kernel
theorem test_lead : (leadings.map fun x => let t := x.1.lead x.2.1; (t.viewNo, (t.agreement.bind (·.proposed)).map lists))
    = [(5, some [0, 1, 2]), (5, none), (0, none), (5, some [0, 1]), (0, none), (0, none), (5, none), (6, none), (5, some [0, 1, 2, 3, 6])] := by decide +kernel
theorem test_lead_proposes : ((members 4).lead (agree [3] [])).outbox.map (fun x => match x with | .member m (.propose v p) => (m, v, lists p) | _ => (0, 0, []))
    = [(2, 6, [0, 1, 2]), (1, 6, [0, 1, 2])] := by decide +kernel
theorem witness_ViewAgreement_suspect : (members 4 1).viewNo ≠ 0 ∧ (members 4 1 (some (agree [] [3]))).agreement.any (fun a => a.named.contains 3 && !a.named.contains 2) = true := by decide +kernel
-- R405 step 2: the names of a SUSPECT of another view do not count.
theorem test_suspect : (does (.suspect 2 5 [3]) (members 4 1)).agreement.map (·.named) = some [3] ∧ (does (.suspect 2 4 [3]) (members 4 1)).agreement = none
    ∧ (does (.suspect 2 5 [3, 2]) (members 4 1 (some (agree [] [3])))).agreement.map (·.named) = some [3, 2] := by decide +kernel
theorem witness_ViewAgreement_propose : [(members 4 1 (some (agree [3] [])), 0, 7), (members 4 1 (some (agree [3] [])), 0, 15), (members 4 1 (some (agree [0] [])), 0, 7)].all (fun x =>
      (BitVec.ofNat 1024 x.2.2).getLsbD x.1.self && x.1.viewNo == 5 && x.1.agreement.isSome) = true
    ∧ ({ members 4 6 with viewNo := 0, manifest := 0, joining := true } : State).joining = true := by decide +kernel
def answer (t : State) : Option MemberMsg :=
  match t.outbox with
  | .member _ m :: _ => some m
  | _ => none
-- R405 step 3: accepted; it suspects a proposed member; the sender is not its leader; another number; a joiner.
theorem test_propose : answer (does (.propose 0 6 7) (members 4 1 (some (agree [3] [])))) = some (.accept 5 []) ∧ answer (does (.propose 0 6 15) (members 4 1 (some (agree [3] [])))) = some (.refuse 5 [3])
    ∧ answer (does (.propose 2 6 7) (members 4 1)) = some (.refuse 5 []) ∧ answer (does (.propose 0 7 7) (members 4 1)) = none ∧ answer (does (.propose 0 6 7) (members 4 3)) = none
    ∧ answer (does (.propose 0 6 0x4F) { members 4 6 with viewNo := 0, manifest := 0, joining := true }) = some (.accept 5 []) := by decide +kernel
/-- Member 0 has proposed members 0 to 2, or with member 6. -/
def proposing (acc : List Nat) (add : Option Nat := none) : State := members 4 0 (some (agree [3] [] add (some (if add = none then 7 else 0x47)) acc))
theorem witness_ViewAgreement_accept : (proposing [0]).leading.any (fun x => x.2.getLsbD 1 && !x.1.accepted.contains 1 && decide (x.1.since + 25000 ≤ 100000) && x.1.adding.isNone) = true
    ∧ (proposing [1, 0]).leading.isSome = true ∧ (members 4 1 (some (agree [3] []))).agreement.any (fun a => a.proposed.isNone && a.since + 25000 ≤ 100000) = true := by decide +kernel
-- R405 step 4.
theorem test_accept : (does (.accept 1 5 []) (proposing [0])).agreement.map (·.accepted) = some [1, 0] ∧ (does (.accept 2 5 []) (proposing [1, 0])).viewNo = 6
    ∧ (does (.accept 3 5 []) (proposing [1, 0])).viewNo = 5 ∧ (does (.accept 2 4 []) (proposing [1, 0])).viewNo = 5 := by decide +kernel
theorem test_refuse : (((does (.refuse 2 5 [1]) (proposing [0])).agreement.map fun a => (a.suspects, a.named))) = none
    ∧ (does (.refuse 2 5 []) (proposing [0])).agreement.map (fun a => (a.suspects, a.proposed.map lists)) = some ([3, 2], some [0, 1])
    ∧ (does (.acceptTimeout 2) (proposing [0])).agreement.map (·.suspects) = some [3, 2]
    ∧ (does (.acceptTimeout 2) { proposing [0] with cycle := 99999 }).agreement.map (·.suspects) = some [3] := by decide +kernel
theorem test_proposeTimeout : (does .proposeTimeout (members 4 1 (some (agree [] [])))).agreement.map (fun a => (a.suspects, a.proposed.map lists)) = some ([0], some [1, 2, 3])
    ∧ (does .proposeTimeout (members 4 1 (some (agree [3] [])))).viewNo = 0
    ∧ (does .proposeTimeout { members 4 1 (some (agree [3] [])) with cycle := 99999 }).agreement.map (·.suspects) = some [3] := by decide +kernel

/-- An open instance of communicator 7 in view 5: number 4 of members 0 to 2, of a block that is not here. -/
def here0 (mode : Nat) (kind : CollKind := .allReduce) (op : Nat := 0) (root : Nat := 0) : CollHere :=
  { desc := ⟨kind, .i32, false, op, mode, 0, 7, root, 2, 0x200400, 0x200500, 0, 7, 0x200600, 0⟩, lid := 0, bid := 0, linear := 0, warp := 0, key := 0, seq := 9, mask := 0x0C
    part := 0, home := 0, pasid := 0, owner := 1, cls := 0, det := 0, parties := 7 }
def inst (h : CollHere) (st : CollState := .gathering) (parts : List (List Nat × List Byte) := []) (readys : List Nat := []) (again : Bool := false) : Coll :=
  ⟨some h, st, 1, parts, readys, again, 5⟩
def open3 (x : Coll) (s : State := members 4) : State := { s with colls := [(collKey 7 4, x)], comms := [(7, 4)] }
def coll4 (s : State) : Option Coll := s.colls.get? (collKey 7 4)
theorem witness_ViewAgreement_commit : (let s := open3 (inst (here0 0)); s.viewNo ≠ 0 ∧ s.joins = [] ∧ s.anyJoin = false ∧ (15 : BitVec 1024).getLsbD s.self = true ∧ (14 : BitVec 1024).getLsbD s.self = false)
    ∧ (coll4 (open3 (inst (here0 1 .broadcast 0 2)))).any (fun x => x.here.any fun h => h.desc.kind == .broadcast && !(h.parties &&& 3).getLsbD h.desc.root && h.desc.mode == 1) = true := by decide +kernel
-- R415's table: committed elsewhere; mode 0; mode 1; a broadcast whose root has gone; exclusion. R402, R405.
theorem test_viewCommit : (coll4 (does (.viewCommit 6 3 [(7, 4)]) (open3 (inst (here0 0))))).map (·.state) = some .committed ∧ (coll4 (does (.viewCommit 6 3 []) (open3 (inst (here0 0))))).map (·.state) = some (.ending 0x0301)
    ∧ (coll4 (does (.viewCommit 6 3 []) (open3 (inst (here0 1) .ready)))).map (fun x => (x.state, x.attempt, x.here.map (·.parties), x.again)) = some (.gathering, 2, some 3, true)
    ∧ (coll4 (does (.viewCommit 6 3 []) (open3 (inst (here0 1 .broadcast 0 2))))).map (·.state) = some (.ending 0x0303) ∧ (coll4 (does (.viewCommit 6 6 []) (open3 (inst (here0 0))))).map (·.state) = some (.ending 0x0306) := by decide +kernel
theorem test_viewCommit_view : ((does (.viewCommit 6 3 []) (members 4)).viewNo, (does (.viewCommit 7 3 []) (members 4)).viewNo, (does (.viewCommit 6 6 []) (members 4)).viewNo) = (6, 5, 0)
    ∧ (does (.viewCommit 9 0x4F []) { members 4 6 with viewNo := 0, manifest := 0, joining := true }).viewNo = 9
    ∧ ((does (.viewCommit 6 3 []) (inView (at' (.nop .always)))).parts.get? 0).any (·.unack) = true := by decide +kernel
theorem witness_ViewAgreement_join : ((open3 (inst (here0 0))).colls.filter fun x => x.2.here.isSome && x.2.open').length = 1 ∧ (members 4).manifest.getLsbD 6 = false
    ∧ (members 4).domain.getLsbD 6 = true ∧ (members 4).domain.getLsbD 9 = false
    ∧ ((0x100600000000 : Word).getLsbD 44 && !(0x100600000000 : Word).getLsbD 43 && (0x100600000000 : Word).extractLsb' 32 10 == 6) = true
    ∧ ((0x080300000000 : Word).getLsbD 43 && !(0x080300000000 : Word).getLsbD 44 && (0x080300000000 : Word).extractLsb' 32 10 == 3) = true := by decide +kernel
-- R424: the leader holds a request while a collective is open; another member passes it on. R404.
theorem test_joinMessage : (does (.joinMessage 6) (open3 (inst (here0 0)))).joins = [(6, [collKey 7 4])]
    ∧ (does (.joinMessage 6) (members 4)).agreement.map (fun a => (a.adding, a.proposed.map lists)) = some (some 6, some [0, 1, 2, 3, 6])
    ∧ (does (.joinMessage 6) (members 4 1)).outbox = [.member 0 (.join 6)] ∧ (does (.joinMessage 2) (members 4)).agreement = none := by decide +kernel
theorem test_viewCtl : (does (.viewAdmit 0x100600000000) (members 4)).viewCtl = ⟨6, true, false⟩ ∧ (does (.viewAdmit 0x100900000000) (members 4)).viewCtl = ⟨9, false, false⟩
    ∧ (does (.viewRemove 0x080300000000) (members 4)).agreement.map (·.suspects) = some [3] ∧ (does (.viewRemove 0x080000000000) (members 4)).agreement = none
    ∧ (does (.viewRemove 0x180300000000) (members 4)).viewCtl = State.reset.viewCtl := by decide +kernel

/-- The engine of member `self` at that instance, bytes 5 and -1 as two integers at its source. -/
def engine (x : Coll) (self : Nat := 0) : State :=
  let s := memAt flat
  open3 x { inView { s with mem := s.mem.write 0x200400 [5, 0, 0, 0, 255, 255, 255, 255] } with manifest := 7, domain := 7, self := self }
/-- A part: the digest and elements. -/
def part (h : CollHere) (vs : List Int) (fl : Nat := 0) : List Byte := h.desc.digest ++ vs.flatMap fun v => elemBytes ⟨v, fl⟩
def h0 : CollHere := here0 0
def allParts (f : Nat → List Byte := fun _ => part h0 [5, -1]) : List (List Nat × List Byte) := [([0], f 0), ([1], f 1), ([2], f 2)]
theorem witness_CollectiveEvents : (let s := engine (inst h0 .ready); s.viewNo = 5 ∧ s.viewNo ≠ 0 ∧ (s.collNamed 7 4).any (fun x => x.state == .ready && x.attempt == 1 && !x.readys.contains 1) = true
      ∧ s.manifest.getLsbD 1 = true ∧ s.manifest.getLsbD 3 = false ∧ (s.collNamed 7 5).isSome = true) := by decide +kernel
def keptParts (s : State) : Option (List (List Nat)) := (coll4 s).map fun x => x.parts.map (·.1)
-- R407, R416: another view's message is counted; a part of members heard, of an earlier attempt, of a device outside the view is not kept.
theorem test_partialSum : keptParts (does (.partialSum 7 4 5 1 [1] [9]) (engine (inst h0))) = some [[1]] ∧ keptParts (does (.partialSum 7 4 5 0 [1] [9]) (engine (inst h0))) = some []
    ∧ keptParts (does (.partialSum 7 4 5 1 [3] [9]) (engine (inst h0))) = some [] ∧ keptParts (does (.partialSum 7 4 5 1 [1, 2] [9]) (engine (inst h0 .gathering [([1], [9])]))) = some [[1]]
    ∧ (let t := does (.partialSum 7 4 4 1 [1] [9]) { engine (inst h0) with ports := [(2, portTo 1)] }; keptParts t = some [] ∧ t.ports.map (fun p => p.2.discards) = [1]) := by decide +kernel
theorem test_messages : (coll4 (does (.ready 7 4 1 5) (engine (inst h0 .ready [] [0])))).map (·.readys) = some [1, 0]
    ∧ (coll4 (does (.abort 7 4 5) (engine (inst h0)))).map (·.state) = some (.ending 0x0307) ∧ (coll4 (does (.abort 7 4 5) (engine (inst h0 .committed)))).map (·.state) = some .committed
    ∧ (coll4 (does (.collCommit 7 4 5) (engine (inst h0 .ready)))).map (·.state) = some .committed
    ∧ (coll4 (does (.collCommit 7 4 5) (engine (inst h0)))).map (·.state) = some .gathering := by decide +kernel

theorem witness_CollectiveEvents_engine : (let s := engine (inst h0)
      s.joins = [] ∧ s.agreement = none ∧ 4 < 2 ^ 48 ∧ (match s.engineElems (collKey 7 4) h0 (0x200400, 8) with | .ok es => es == [⟨5, 0⟩, ⟨-1, 0⟩] | .error _ => false) = true
        ∧ (h0.desc.part 0 1 == some (0x200400, 8) && (List.range 1024).filter h0.parties.getLsbD == [0, 1, 2]) = true)
    ∧ ({ h0 with desc := { h0.desc with kind := .broadcast, root := 1 } }).desc.part 0 1 = none
    ∧ (allParts.all fun p => p.2.take 16 == h0.desc.digest) = true ∧ ((allParts fun m => if m = 2 then part (here0 1) [5, -1] else part h0 [5, -1]).any fun p => p.2.take 16 != h0.desc.digest) = true
    ∧ (match (engine (inst h0)).enginePieces h0 false true (0x200500, 8) with | .ok _ => true | .error _ => false) = true
    ∧ (match (engine (inst h0)).enginePieces { h0 with desc := { h0.desc with dst := 2 ^ 30 } } false true (2 ^ 30, 8) with | .error .refused => true | _ => false) = true
    ∧ (engine (inst h0)).running h0 = false ∧ (engine (inst h0)).colls.Pairwise (fun a b => a.1 < b.1) := by decide +kernel
/-- The same parts with the digest left out, which no later step looks at. -/
def sums (vs : Nat → List Int := fun _ => [5, -1]) (fl : Nat := 0) : List (List Nat × List Byte) :=
  allParts fun m => zeros 16 ++ (vs m).flatMap fun v => elemBytes ⟨v, fl⟩
def stepped (x : Coll) (self : Nat := 0) : State := does (.collStamp 7 4) (engine x self)
/-- The instance before its engine has read the member set, which stands at an address; the first byte of memory there is given. -/
def unread (at' m : Nat) (kind : CollKind := .allReduce) (root : Nat := 0) : State × CollHere :=
  let h := here0 0 kind 0 root
  let h := { h with desc := { h.desc with mset := 0, msetAt := at' } }
  let s := engine (inst h)
  ({ s with mem := s.mem.write 0x200700 [BitVec.ofNat 8 m] }, h)
def setOf (x : State × CollHere) : Option Nat := match x.1.readMset (collKey 7 4) x.2 with
  | .ok m => some m.toNat
  | .error .wait => some 2000
  | .error .refused => none
theorem witness_CollectiveEvents_mset : (setOf (unread 0x200700 7), setOf (unread 0x200700 0), setOf (unread 0x7F0000000000 7), setOf (unread (2 ^ 40) 7)) = (some 7, some 0, some 2000, none)
    ∧ ({ (unread 0x200700 7).2.desc with mset := 7 }.membersBad (engine (inst h0)).domain (engine (inst h0)).self,
      { (unread 0x200700 7).2.desc with mset := 0 }.membersBad (engine (inst h0)).domain (engine (inst h0)).self) = (false, true) := by decide +kernel
-- R410, R413, R415: read; bad; a broadcast without its root; not readable now; not readable.
theorem test_collStamp_mset : ([unread 0x200700 7, unread 0x200700 0, unread 0x200700 7 .broadcast 5, unread 0x7F0000000000 7, unread (2 ^ 40) 7].map fun x =>
      (coll4 (does (.collStamp 7 4) x.1)).map fun y => (y.state, y.here.map fun h => h.desc.mset.toNat))
    = [some (.gathering, some 7), some (.ending 0x0304, some 0), some (.ending 0x0303, some 7), some (.gathering, some 0), some (.ending 0x0308, some 0)] := by decide +kernel
-- R415: its own part; all parts held; READY to the lowest; READY from all; the digests differ (R414).
theorem test_collStamp_gathering : (let t := stepped (inst h0); keptParts t = some [[0]] ∧ t.outbox = [.member 2 (.partialSum 7 4 5 1 [0] (part h0 [5, -1])), .member 1 (.partialSum 7 4 5 1 [0] (part h0 [5, -1]))])
    ∧ (let t := stepped (inst h0 .gathering allParts) 1; (coll4 t).map (·.state) = some .ready ∧ t.outbox = [.member 0 (.ready 7 4 5)])
    ∧ (coll4 (stepped (inst h0 .gathering (allParts fun m => if m = 2 then part (here0 1) [5, -1] else part h0 [5, -1])))).map (·.state) = some (.ending 0x0305)
    ∧ (coll4 (stepped (inst h0 .gathering [([0], part h0 [5, -1])]))).map (·.state) = some .gathering := by decide +kernel
theorem test_collStamp_ready : (coll4 (stepped (inst h0 .ready sums [0, 1]))).map (·.state) = some .ready
    ∧ (let t := stepped (inst h0 .ready sums [2, 0, 1]); (coll4 t).map (·.state) = some .committed ∧ t.outbox = [.member 2 (.collCommit 7 4 5), .member 1 (.collCommit 7 4 5)])
    ∧ (coll4 (stepped (inst h0 .ready sums [2, 0, 1]) 1)).map (·.state) = some .ready := by decide +kernel
-- R411: add of 5 and of -1 over three members modulo 2^32; avg floors (-1 - 1 - 2) / 3 to -2; R415's 0x0308.
theorem test_collStamp_committed : (let t := stepped (inst h0 .committed sums); t.mem.bytes 0x200500 8 = [15, 0, 0, 0, 253, 255, 255, 255] ∧ (coll4 t).map (·.state) = some (.ending 0))
    ∧ (stepped (inst (here0 0 .allReduce 1) .committed (sums fun m => [5, if m = 2 then -2 else -1]))).mem.bytes 0x200500 8 = [5, 0, 0, 0, 254, 255, 255, 255]
    ∧ (coll4 (stepped (inst { h0 with desc := { h0.desc with dst := 2 ^ 30 } } .committed sums))).map (·.state) = some (.ending 0x0308)
    ∧ (coll4 (stepped (inst h0 .committed sums [] true))).map (·.state) = some (.ending 0x0302)
    ∧ (coll4 (stepped (inst h0 .committed (sums (fl := 8))))).map (·.state) = some (.ending 3) := by decide +kernel
-- R417, R418: the stamp; one collective less; the membership trap of 0x0301.
theorem test_collStamp : (let t := does (.collStamp 7 4) (State.block0 (engine (inst h0 (.ending 0x0301))) fun b => { b with collSeq := 9, collOpen := 2 })
      t.mem.bytes 0x200600 8 = leBytes 8 0x0301000000000009 ∧ coll4 t = none ∧ warpHas t (fun w => w.memberTrap == some (1, 5)) = true
      ∧ (t.blocks.get? 0).map (fun b => (b.collOpen, b.collStamps.map fun x => (x.1, x.2.toNat))) = some (1, [(9, 0x0301000000000009)])) := by decide +kernel
theorem witness_CollectiveEvents_stamp : (let s := engine (inst h0 (.ending 3)); (s.blocks.get? h0.bid).isSome = true ∧ s.warps.Pairwise (fun a b => a.1 < b.1) ∧ h0.det = 0
      ∧ (s.warps.all fun w => w.2.block == h0.bid && w.2.paths.all fun p => p.await.isNone) = true
      ∧ (match s.enginePieces h0 false true (h0.desc.stamp, 8) with | .ok _ => true | .error _ => false) = true)
    ∧ ((engine (inst h0 .committed sums)).colls.all fun x => (x.2.result h0).length == 1 && (x.2.result h0).all fun r => r.2.all fun e => !e.2.testBit 3) = true := by
  decide +kernel

/-! ### Contexts and checkpoints -/

/-- The placed context, its warp parked at a barrier, at a cycle; the modes word and changes of its block and partition. -/
def ctxAt (modes : Nat := 0) (f : Block → Block := id) (g : Partition → Partition := id) (cycle : Nat := 5000) : State :=
  let s := State.part0 (State.block0 (State.word0 (State.path0 (at' (.nop .always)) fun p => { p with state := .parked .barrier }) 9 modes) f) g
  { s with cycle := cycle, focus := none }
def ctx0 (s : State) (f : CtxRegs → Bool) : Bool := (s.parts.get? 0).any fun p => f p.ctx
/-- A guestbook whose one closed record of this code and shape has L = n. -/
def recorded (n : Nat) (s : State) : State := State.part0 { s with mem := (s.mem.write 0x500000 (zeros 0x30 ++ leBytes 8 0x100010020 ++ zeros 8 ++ leBytes 8 0x8000 ++ zeros 4 ++ leBytes 4 n)) }
  fun p => { p with gbk := { p.gbk with base := 0x500000, log2 := 4, tail := 1 } }
theorem witness_ContextOperations : ctx0 ctxAt (fun c => c.state == 1 && c.work.isNone) = true ∧ (ctxAt.parts.get? 0).any (fun p => !p.ck.closing && !p.ck.due) = true
    ∧ ctx0 (ctxAt 0 id fun p => { p with ctx := { p.ctx with state := 4, work := none } }) (fun c => c.state == 4) = true
    ∧ (ctxAt.blocks.all fun b => (ctxAt.launches.get? b.2.launch).isSome) = true
    ∧ ((does (.ld .linear (mo (vd 8) .i32)) (memAt flat)).warps.get? 0).any (fun w => match (w.path 0).await with | some ⟨.load _, _, _, _⟩ => true | _ => false) = true := by decide +kernel
def actionOf (s : State) (whole : Bool := false) : Option StopAction := (s.blocks.get? 0).map fun b => s.blockAction 0 whole 0 b
theorem witness_ContextOperations_action : (recorded 100 ctxAt).expectedLength 0 placedLaunch = some 100 ∧ ctxAt.expectedLength 0 placedLaunch = none := by decide +kernel
-- R465's rows: force; a handler; idem, nothing written, f below a half or unknown; f of nine tenths; any other.
theorem test_blockAction : actionOf (ctxAt 8) true = some .save ∧ actionOf (State.with0 (ctxAt 8) fun w => { w with inHandler := true }) = some .save
    ∧ actionOf (ctxAt 8) = some .flush ∧ actionOf (ctxAt 8 fun b => { b with retired := 65536 }) = some .save ∧ actionOf (ctxAt 8 fun b => { b with wroteOut := true }) = some .save
    ∧ actionOf (recorded 100 (ctxAt 8 fun b => { b with retired := 49 })) = some .flush ∧ actionOf (recorded 100 (ctxAt 8 fun b => { b with retired := 50 })) = some .save := by
  decide +kernel
theorem test_blockAction_drain : actionOf (recorded 100 (ctxAt 0 fun b => { b with retired := 90 })) = some .drain
    ∧ actionOf (recorded 100 (ctxAt 0 fun b => { b with retired := 89 })) = some .save ∧ actionOf (ctxAt 0) = some .save := by decide +kernel

/-- A stop requested at cycle 5000. -/
def stopping (i : Instr) (s : State := ctxAt) : State := does i s
/-- It has stopped, and a number of cycles have passed. -/
def stopped (i : Instr) (cycles : Nat) (s : State := ctxAt) : State := { does (.contextStopComplete 0) { stopping i s with cycle := 5900 } with cycle := 5900 + cycles }
theorem test_ctxStop : ctx0 (stopping (.ctxSwitch 0 0)) (fun c => c.state == 2 && c.work == some ⟨.switch, 5000, 0, [(0, .save)], none⟩) = true
    ∧ ctx0 (stopping (.ctxPark 0 8) (ctxAt 8)) (fun c => c.work.any fun w => w.plan == [(0, .save)]) = true ∧ ctx0 (stopping (.ctxPark 0 0) (ctxAt 8)) (fun c => c.work.any fun w => w.plan == [(0, .flush)]) = true
    ∧ (let t := does (.ctxTerminate 0 0) { does (.ld .linear (mo (vd 8) .i32)) (memAt flat) with focus := none }; pathHas t (fun p => p.await.isNone && p.pc == BitVec.ofNat 64 pc0) = true) := by
  decide +kernel
/-- A block that drains. -/
noncomputable def draining (cycle : Nat) : State := { stopping (.ctxPark 0 0) (recorded 100 (ctxAt 0 fun b => { b with retired := 90 })) with cycle := cycle }
theorem witness_ContextOperations_drain : ctx0 (draining 5512) (fun c => c.work.any fun w => w.since + 512 ≤ 5512 && w.plan.any fun a => a.2 == .drain) = true
    ∧ ctx0 (draining 5511) (fun c => c.work.any fun w => 5511 < w.since + 512) = true := by decide +kernel
theorem test_drainTimeout : ctx0 (does (.drainTimeout 0) (draining 5511)) (fun c => c.work.any fun w => w.plan == [(0, .drain)]) = true
    ∧ ctx0 (does (.drainTimeout 0) (draining 5512)) (fun c => c.work.any fun w => w.plan == [(0, .save)]) = true := by decide +kernel
theorem witness_ContextOperations_stop : (let s := { stopping (.ctxPark 0 0) with cycle := 5900 }; s.quiet 0 = true ∧ ctx0 s (fun c => c.state == 2 && c.work.any fun w => w.exchange.isNone && w.plan.all fun a => a.2 != .drain) = true)
    ∧ (draining 5100).blocks.length = 1 ∧ ctx0 (stopped (.ctxPark 0 0) 1024) (fun c => c.work.any fun w => w.exchange == some 5900 && w.op == .park) = true
    ∧ ctx0 (stopped (.ctxPark 0 0) 1023) (fun c => c.work.any fun w => w.exchange == some 5900) = true
    ∧ ctx0 (stopped (.ctxSwitch 0 0) 1024) (fun c => c.work.any fun w => w.op == .switch) = true ∧ ((stopped (.ctxSwitch 0 0) 1024).cellars.get? 0).isNone = true := by decide +kernel
-- R473's trace: complete at cycle 900, so stopcyc 900; the exchange ends 1,024 cycles later. R463, R466.
theorem test_contextStop : ctx0 (does (.contextStopComplete 0) (draining 5100)) (fun c => c.work.any fun w => w.exchange.isNone) = true
    ∧ (let t := stopped (.ctxTerminate 0 0) 0; ctx0 t (fun c => c.state == 0 && c.stopcyc == 900) = true ∧ t.blocks = [] ∧ t.warps = [] ∧ t.launches = [])
    ∧ ((stopped (.ctxPark 0 0) 0 (ctxAt 8)).blocks = []) := by decide +kernel
theorem test_exchange : ctx0 (does (.exchangeComplete 0) (stopped (.ctxPark 0 0) 1023)) (fun c => c.state == 2) = true
    ∧ (let t := does (.exchangeComplete 0) (stopped (.ctxPark 0 0) 1024); ctx0 t (fun c => c.state == 3 && c.work.isNone) = true ∧ (t.cellars.get? 0).isSome = true ∧ t.blocks = []) := by
  decide +kernel
/-- Parked, and the restore of what is in the cellar. -/
noncomputable def parked : State := does (.exchangeComplete 0) (stopped (.ctxPark 0 0) 1024)
theorem witness_ContextOperations_restore : ((parked.parts.get? 0).any fun p => p.ctx.area == p.cellarArea && p.ctx.state == 3) = true ∧ (parked.cellars.get? 0).isSome = true
    ∧ (let s := { does (.ctxRestore 0 0) parked with cycle := 9000 }; ctx0 s (fun c => c.work.any fun w => w.op == .restore && w.exchange.any fun t => t + 1024 ≤ 9000) = true)
    ∧ (let s := ctxAt 0 id fun p => { p with ctx := { p.ctx with state := 4, area := 0x1000000 } }; (s.loadImage 0 0x1000000).isNone = true) := by decide +kernel
theorem test_ctxRestore : (let t := does (.exchangeComplete 0) { does (.ctxRestore 0 0) parked with cycle := 9000 }; ctx0 t (fun c => c.state == 1) = true ∧ (t.cellars.get? 0).isNone = true ∧ (t.launches.get? 0).isSome = true)
    ∧ ctx0 (does (.ctxRestore 0 0) (ctxAt 0 id fun p => { p with ctx := { p.ctx with state := 4, area := 0x1000000 } })) (fun c => c.state == 6) = true := by decide +kernel
/-- A save to 0x1000000 with its image. -/
noncomputable def savedFree : State := stopped (.ctxSave 0 0) 0 { (ctxAt 0 id fun p => { p with ctx := { p.ctx with area := 0x1000000, running := 0x1000000 } }) with iommu := [⟨0, 0, 2 ^ 27, .hbm, 0, true, true, true, 0⟩] }
/-- The same with zeros for the free bytes of its header, and one byte of the slice section (frame 40) another than it was. -/
noncomputable def saved : State := { savedFree with mem := (Memory.write [] 0x1000000 (leBytes 4 0x58435458 ++ leBytes 4 1)).write (40 * 2 ^ 21 + 3) [9] }
theorem witness_ContextOperations_image : ctx0 saved (fun c => c.state == 4) = true ∧ (saved.loadImage 0 0x1000000).any (fun i => i.part.slices.length == 1 && i.launches.length == 1 && i.lines == [(2 ^ 60 + 3, 9)]) = true
    ∧ savedFree.drawn = 511
    ∧ saved.blocks = [] := by decide +kernel
theorem test_ctxSave : (let t := does (.ctxRestore 0 0) saved; ctx0 t (fun c => c.state == 1 && c.running == 0x1000000) = true ∧ (t.launches.get? 0).isSome = true) := by decide +kernel
/-- Flash records of kinds 2 and 3 of partition 0 whose n-th value is n. -/
def creatable : State :=
  let s := ctxAt 0 id fun p => { p with ctx := { p.ctx with state := 0, area := 0x1000000 }, groups := 1 }
  let r (n : Nat) : ConfRecord := ⟨0, [], (List.range n).flatMap (leBytes 8)⟩
  { s with flash := { s.flash with records := [(2 * 65536, r 4), (3 * 65536, r 15)] } }
theorem witness_ContextOperations_create : ctx0 creatable (fun c => c.state == 0 && c.work.isNone) = true ∧ (creatable.flash.values 2 0).any (fun v => v.length == 4) = true
    ∧ (creatable.flash.values 3 0).any (fun v => v.length == 15) = true ∧ (ctxAt.flash.values 2 0).isNone = true := by decide +kernel
theorem test_ctxCreate : (let t := does (.ctxCreate 0 0) creatable; (t.parts.get? 0).any (fun p => p.ctx.state == 1 && p.tframe == 2 && p.vtab == 14 && p.ck.current == 1
        && p.slices.get? 15 == some (.physical 15)) = true) := by decide +kernel
/-- A slice line that has not landed, which a path waits for. -/
def landing : State :=
  let s := State.part0 (State.path0 (ctxAt) fun p => { p with state := .parked .presence }) fun p => { p with landing := [(5, [7, 8])] }
  { s with absent := [((2 ^ 60) / 128 + 5, 1)] }
theorem witness_ContextOperations_land : (landing.parts.get? 0).any (fun p => (p.landing.get? 5).isSome && (p.landing.get? 6).isNone) = true
    ∧ landing.absent.getD (landing.physicalKey 0 (2 ^ 60 + 128 * 5) / 128) 0 = 1 ∧ isSram (128 * (landing.physicalKey 0 (2 ^ 60 + 128 * 5) / 128)) = true := by decide +kernel
theorem test_sliceLineLand : (let t := does (.sliceLineLand 0 0 5) landing; t.mem.bytes (2 ^ 60 + 640) 2 = [7, 8] ∧ t.absent = [] ∧ standsAt t pc0 = true)
    ∧ (does (.sliceLineLand 0 0 6) landing).absent.length = 1 := by decide +kernel
-- R473: 32 registers of 128 bytes and one line of SRAM: 4,224 bytes are 4 KiB and 1,624 + 9 cycles.
theorem test_savecostUpdate : (let f : Partition → Partition := fun p => { p with ck := { p.ck with undo := [(2 ^ 53, ⟨0, [], [], false⟩)] } }
      ctx0 (does (.savecostUpdate 0) (ctxAt 0 id f 65536)) (fun c => c.dirty == 4 && c.cycles == 1633) = true ∧ ctx0 (does (.savecostUpdate 0) (ctxAt 0 id f 65535)) (fun c => c.cycles == 0) = true) := by
  decide +kernel

/-- Its checkpoint registers changed: interval 8 open, 7 committed, closed last at cycle 0. -/
def ckptAt (f : Ckpt → Ckpt := id) (cycle : Nat := 20000000) : State := ctxAt 0 id (fun p => { p with ck := f { p.ck with current := 8, committed := 7 } }) cycle
def ck0 (s : State) (f : Ckpt → Bool) : Bool := (s.parts.get? 0).any fun p => f p.ck
/-- d = 2 at position 1; group 9; a period of 10 ms. -/
def cfgStripe : Word := 0x210000000000
def cfgGroup : Word := 0x9000000000000
def cfgPeriod : Word := 0xA0000
theorem witness_CheckpointEvents : ck0 ckptAt (fun c => c.group == 0 && c.members == 0 && c.wanted.isNone && !c.due && !c.closing && c.period == 0) = true
    ∧ ctx0 ckptAt (fun c => c.state == 1 && c.work.isNone) = true ∧ ckptAt.parts.Pairwise (fun a b => a.1 < b.1) ∧ ckptAt.held = []
    ∧ ck0 (ckptAt fun c => { c with cfgNow := cfgPeriod }) (fun c => c.period == 10 && c.closedAt + 10 * 1250000 ≤ 20000000) = true
    ∧ ck0 (ckptAt fun c => { c with wanted := some 20000000 }) (fun c => c.wanted == some 20000000) = true
    ∧ ckptAt.quiet 0 = true
    ∧ (let s := { ckptAt with stores := [queued] }; s.quiet 0 = false)
    ∧ ck0 (ckptAt fun c => { c with cfgNow := cfgStripe }) (fun c => c.members == 2 && (c.cfgNow.extractLsb' 40 4).toNat == 4 % (c.members + 1)) = true
    ∧ ck0 (ckptAt fun c => { c with cfgNow := cfgGroup }) (fun c => c.group == 9) = true := by decide +kernel
def closed (f : Ckpt → Ckpt) (cycle : Nat := 20000000) : State := does (.intervalClose 0) (ckptAt f cycle)
-- R480: 10 ms after the last; a period of 10 ms is 12,500,000 cycles; requests coalesce.
theorem test_ckpt_request : ck0 (does (.ckptCloseNow 0) (ckptAt id 5000)) (fun c => c.wanted == some 12500000) = true ∧ ck0 (does (.ckptCloseNow 0) ckptAt) (fun c => c.wanted == some 20000000) = true
    ∧ ck0 (does (.ckptPeriodExpiry 0) (ckptAt (fun c => { c with cfgNow := cfgPeriod }) 12499999)) (fun c => c.wanted.isNone) = true
    ∧ ck0 (does (.ckptPeriodExpiry 0) (ckptAt (fun c => { c with cfgNow := cfgPeriod }) 12500000)) (fun c => c.wanted.isSome) = true := by decide +kernel
theorem test_intervalClose : ck0 (closed fun c => { c with wanted := some 20000001 }) (fun c => !c.closing) = true ∧ ck0 (closed fun c => { c with wanted := some 20000000 }) (fun c => c.closing && c.closedAt == 20000000) = true
    ∧ ck0 (closed fun c => { c with closing := true }) (fun c => c.imaged) = true
    ∧ (let t := closed fun c => { c with closing := true, imaged := true, cfg := cfgPeriod, owner := 3, undo := [(5, ⟨640, [], [], false⟩)] }
      ck0 t (fun c => c.current == 9 && c.committed == 8 && !c.closing && c.undo.isEmpty && c.cfgNow == cfgPeriod) = true ∧ (t.marks.get? 6).isSome = true) := by decide +kernel
-- R481: position 1 of 3 holds parity for interval 4; the block is joined by exclusive or.
theorem test_parityBlock : (let t := does (.parityBlock 0 4 0 [3, 5]) (ckptAt fun c => { c with cfgNow := cfgStripe, parity := [(2 ^ 34, [1, 1, 1])] })
      ck0 t (fun c => c.parity == [(2 ^ 34, [2, 4, 1])]) = true ∧ t.outbox = [.member 2 (.parityAck 4), .member 0 (.parityAck 4)])
    ∧ ck0 (does (.parityBlock 0 5 0 [3]) (ckptAt fun c => { c with cfgNow := cfgStripe })) (fun c => c.parity.isEmpty) = true := by decide +kernel
/-- Intervals 6 and 7 have not committed. -/
def uncommitted (acked : List Nat) : State := ckptAt fun c => { c with committed := 5, acked := acked }
theorem witness_CheckpointEvents_ack : ck0 (uncommitted []) (fun c => c.committed < 6 && 7 < c.current && c.acked.isEmpty && !c.stripeFailed) = true
    ∧ ck0 (uncommitted [7]) (fun c => c.acked.contains 7 && !c.acked.contains 6) = true ∧ ck0 (uncommitted []) (fun c => c.drained == 0 && c.deltas.isEmpty) = true := by decide +kernel
theorem test_parityAck : ck0 (does (.parityAck 0 7) (uncommitted [])) (fun c => c.committed == 5 && c.acked == [7]) = true ∧ ck0 (does (.parityAck 0 6) (uncommitted [])) (fun c => c.committed == 6) = true
    ∧ ck0 (does (.parityAck 0 6) (uncommitted [7])) (fun c => c.committed == 7 && c.acked.isEmpty) = true ∧ ck0 (does (.parityAck 0 8) (uncommitted [])) (fun c => c.acked.isEmpty) = true := by decide +kernel
theorem test_cxlDrainDone : ck0 (does (.cxlDrainDone 0 7) ckptAt) (fun c => c.drained == 7) = true ∧ ck0 (does (.cxlDrainDone 0 8) ckptAt) (fun c => c.drained == 0) = true
    ∧ ck0 (does (.cxlDrainDone 0 7) (ckptAt fun c => { c with deltas := [(6, [])] })) (fun c => c.drained == 0) = true := by decide +kernel
theorem test_checkpointMessage : ck0 (does (.checkpointMessage 0 (.closeStart 8)) (ckptAt fun c => { c with cfgNow := cfgGroup })) (fun c => c.started == 1 && c.wanted.isSome) = true
    ∧ ck0 (does (.checkpointMessage 0 (.closeStart 7)) (ckptAt fun c => { c with cfgNow := cfgGroup })) (fun c => c.started == 0) = true
    ∧ ck0 (does (.checkpointMessage 0 (.imageWritten 8)) (ckptAt fun c => { c with cfgNow := cfgGroup })) (fun c => c.written == 1) = true
    ∧ ck0 (does (.checkpointMessage 0 .rollback) (ckptAt fun c => { c with cfgNow := cfgGroup })) (fun c => c.due) = true := by decide +kernel
/-- An image of interval 7's close stands, and a line has been logged since; a rollback is due. -/
def rolling : State :=
  let t := closed fun c => { c with closing := true, imaged := true, cfg := cfgPeriod, owner := 3 }
  State.part0 { t with mem := t.mem.write 0x200000 [9, 9] } fun p => { p with ck := { p.ck with undo := [(0x4000, ⟨0x200000, [1, 2] ++ zeros 126, [], false⟩)], due := true } }
theorem witness_CheckpointEvents_rollback : ck0 rolling (fun c => c.due && c.group == 0 && !c.remoteDep && c.deps.isEmpty && (rolling.marks.get? (2 * c.owner + (c.current - 1) % 2)).any fun i =>
        i.launches.length == 1 && c.undo.all fun u => u.2.old.length == 128) = true
    ∧ rolling.quiet 0 = true ∧ (rolling.parts.get? 0).map (·.landing) = some [] ∧ (rolling.parts.get? 0).map (·.closed) = some [] := by decide +kernel
-- R483: step 3's old values; the count.
theorem test_rollback : ck0 (does (.ckptRollbackNow 0) ckptAt) (fun c => c.due) = true
    ∧ (let t := does (.ckptRollbackNow 0) rolling; t.mem.bytes 0x200000 3 = [1, 2, 0] ∧ ck0 t (fun c => !c.due && c.undo.isEmpty && c.rollbacks == 1 && c.current == 9) = true) := by decide +kernel
theorem witness_CheckpointEvents_lines : rolling.markDue 0 = rolling
    ∧ (let s := State.word0 rolling 9 16; (s.launches.all fun l => l.2.cls == 1) = true
      ∧ ck0 s (fun c => (s.marks.get? (2 * c.owner + (c.current - 1) % 2)).any fun i => i.part.gbk.tail == 0 && decide (i.launches.Pairwise fun a b => a.1 < b.1)) = true
      ∧ (s.parts.get? 0).map (·.gbk.tail) = some 0) := by decide +kernel

/-! ### Links and ports -/

/-- Die link 3 as given, and Canal ports. -/
def linked (f : Link → Link := id) (ps : NMap Port := []) : State :=
  { State.reset with cycle := 2000000, links := (List.range 20).map (fun j => (j, if j = 3 then f (Link.reset 0) else Link.reset 0)), ports := ps }
def link3 (s : State) : Option Link := s.links.get? 3
theorem witness_LinksAndPorts : [(linked id), linked fun l => { l with forward := ⟨1023, 1020, 2⟩ }, linked fun l => { l with redo := some (true, 0) }, linked fun l => { l with state := 1 }].all (fun s =>
      (s.link? 3).isSome) = true
    ∧ ((List.replicate 15 1999000).filter fun c => 2000000 < c + 2 ^ 20).length = 15 ∧ (2 + 1024 - 1020) % 1024 = 6 := by decide +kernel
def flit (i : Instr) (f : Link → Link := id) : Option (Nat × Nat × Nat) := (link3 (does i (linked f))).map fun l => (l.state, l.forward.expected, l.crcfail)
-- R432: the expected number, wrapped; another; a CRC failure, a second of it, the sixteenth in 2^20 cycles.
theorem test_flitReceive : flit (.flitReceive 3 true 1023 true) (fun l => { l with forward := ⟨1023, 0, 0⟩ }) = some (0, 0, 0) ∧ flit (.flitReceive 3 true 5 true) = some (0, 0, 0)
    ∧ flit (.flitReceive 3 true 0 false) = some (0, 0, 1) ∧ flit (.flitReceive 3 true 0 false) (fun l => { l with redo := some (true, 0) }) = some (1, 0, 1)
    ∧ flit (.flitReceive 3 true 0 false) (fun l => { l with fails := List.replicate 15 1999000 }) = some (1, 0, 1)
    ∧ flit (.flitReceive 3 true 0 false) (fun l => { l with fails := List.replicate 14 1999000 ++ [2000000 - 2 ^ 20] }) = some (0, 0, 1) := by decide +kernel
theorem test_flitReceive_out : (does (.flitReceive 3 true 0 true) linked).outbox = [.flitAck 3 true 0] ∧ (does (.flitReceive 3 true 7 true) linked).outbox = []
    ∧ (does (.flitReceive 3 true 7 false) linked).outbox = [.flitNak 3 true 0] := by decide +kernel
def sending : Link → Link := fun l => { l with forward := ⟨0, 1020, 2⟩ }
theorem test_flitAck : [(1021, 1022), (1, 2), (2, 1020), (1019, 1020)].all (fun (x : Nat × Nat) => ((link3 (does (.flitAck 3 true x.1) (linked sending))).map (·.forward.acked)) == some x.2) = true
    ∧ [(1022, 1022, 4), (2, 2, 0), (3, 1020, 0)].all (fun (x : Nat × Nat × Nat) => ((link3 (does (.flitNak 3 true x.1) (linked sending))).map fun l => (l.forward.acked, l.replays)) == some x.2) = true := by decide +kernel

/-- The retrain of link 3 with failed lanes forward and back: state, width, spares. -/
def retrain (f b : BitVec 64) : Option (Nat × Nat × Nat) := (link3 (match execRetrainComplete 3 f b (linked fun l => { l with state := 1 }) with | .next t => t | _ => State.reset)).map fun l => (l.state, l.width, l.spares)
theorem witness_LinksAndPorts_retrain : (linked fun l => { l with state := 1 }).links.get? 3 = some { Link.reset 0 with state := 1 } ∧ 3 < 20
    ∧ (linked fun l => { l with state := 1 }).links = (List.range 20).map (fun j => (j, if j = 3 then { Link.reset 0 with state := 1 } else Link.reset 0)) := by decide +kernel
-- R433: four spares of each direction; a half; the other half; none.
theorem test_retrainComplete : retrain 0xF 0xF0 = some (0, 0, 8) ∧ retrain 0x1F00000000 0 = some (0, 1, 0) ∧ retrain 0x1F 0 = some (0, 1, 0)
    ∧ retrain 0x1F 0x1F00000000 = some (2, 2, 0) := by decide +kernel
theorem test_d2dClear : (link3 (does (.d2dClear 3 1) (linked fun l => { l with crcfail := 5, replays := 6, retrains := 255 }))).map (fun l => (l.crcfail, l.replays, l.retrains, l.state)) = some (0, 0, 255, 1)
    ∧ (link3 (does (.d2dClear 3 2) (linked fun l => { l with crcfail := 5 }))).map (·.crcfail) = some 5 := by decide +kernel

/-- Port 2 to member 1 with its link in a state; a second port to it. -/
def ported (f : Port → Port := id) (other : Bool := false) : State :=
  { linked id ([(2, f (portTo 1))] ++ if other then [(4, portTo 1)] else []) with unacked := [{ queued with piece := ⟨2 ^ 70, 4, 0x200000, some 1, none⟩ }], isolatedPeers := [] }
def port2 (s : State) : Option Port := s.ports.get? 2
def down (st : Nat) (p : Port) : Port := { p with link := { p.link with state := st } }
theorem witness_LinksAndPorts_ports : ((ported).ports.get? 2).any (fun p => p.link.state == 0 && !p.isolated) = true ∧ (ported id true).ports.Pairwise (fun a b => a.1 < b.1)
    ∧ (port2 (ported (down 3))).any (fun p => p.link.state == 3) = true ∧ (port2 (ported fun p => { down 1 p with since := 1950000 })).any (fun p => p.link.state == 1 && p.since + 50000 ≤ 2000000) = true
    ∧ (port2 (ported fun p => { p with isolated := true })).any (fun p => p.isolated && !p.restore) = true
    ∧ (let s := { ported (fun p => { down 1 p with isolated := true, restore := true }) with isolatedPeers := [1] }; (port2 s).any (fun p => p.restore && p.peer == 1) = true)
    ∧ (let s := { ported (fun p => { p with isolated := true }) with isolatedPeers := [1] }; (s.unacked.any fun t => t.piece.peer == some 1) = true) := by decide +kernel
def isolatedNow (t : State) : Bool × List Nat := ((port2 t).any (·.isolated), t.isolatedPeers)
-- R438: told to; down; 40 µs without an end of training; another port still reaches the peer.
theorem test_isolation : isolatedNow (does (.canalIsolate 2 1) ported) = (true, [1]) ∧ isolatedNow (does (.canalIsolate 2 2) ported) = (false, [])
    ∧ isolatedNow (does (.canalPortDown 2) ported) = (true, [1]) ∧ isolatedNow (does (.canalPortDown 2) (ported id true)) = (true, []) ∧ isolatedNow (does (.canalPortDown 2) (ported (down 3))) = (false, []) := by
  decide +kernel
theorem test_isolation_train : isolatedNow (does (.canalRetrainTimeout 2) (ported fun p => { down 1 p with since := 1950000 })) = (true, [1])
    ∧ isolatedNow (does (.canalRetrainTimeout 2) (ported fun p => { down 1 p with since := 1950001 })) = (false, [])
    ∧ isolatedNow (does (.retrainComplete 22 0xF 0) (ported (down 1))) = (true, [1])
    ∧ (port2 (does (.retrainComplete 22 1 2) (ported (down 1)))).map (fun p => (p.link.state, p.link.width, p.isolated)) = some (0, 1, false) := by decide +kernel
-- R442: a restored port carries View messages only.
theorem test_restore : (port2 (does (.canalRestore 2 2) (ported fun p => { p with isolated := true }))).map (fun p => (p.restore, p.link.state, p.link.retrains)) = some (true, 1, 1)
    ∧ (port2 (does (.canalRestore 2 2) ported)).map (·.restore) = some false
    ∧ (port2 (does (.retrainComplete 22 0 0) { ported (fun p => { down 1 p with isolated := true, restore := true }) with isolatedPeers := [1] })).map (fun p => (p.isolated, p.viewOnly, p.link.width)) = some (false, true, 0)
    ∧ (port2 (does (.canalLinkUp 2 5) (ported (down 3)))).map (fun p => (p.peer, p.link.state)) = some (5, 1) := by decide +kernel
theorem test_isolationRequestEnd : (let t := does (.isolationRequestEnd 2) { ported (fun p => { p with isolated := true }) with isolatedPeers := [1] }; t.unacked = [] ∧ t.dropTotal = 1)
    ∧ (does (.isolationRequestEnd 2) ported).unacked.length = 1 := by decide +kernel
/-- A load of a member's memory is under way when the member's port is isolated. -/
def lostLoad : State := let s := inView (memAt (areg 0x2000000 0x2000000 0x3000000))
  let t := does (.ld .linear (mo (vd 8) .i32)) { s with ports := [(2, portTo 1)], iommu := ⟨0, 2 ^ 25, 2 ^ 25, .peer 1, 0, true, true, true, 5⟩ :: s.iommu }
  { t with ports := [(2, { portTo 1 with isolated := true })], isolatedPeers := [1], unacked := [{ queued with piece := ⟨2 ^ 70, 4, 0x200000, some 1, none⟩ }] }
def lostOf (s : State) (f : LoadReq → Bool) : Bool := (s.awaiting 0 0).any fun x => match x.2 with | .load r => f r | _ => false
theorem witness_LinksAndPorts_load : lostOf lostLoad (fun r => r.lanes.any fun z => z.2.2.any fun y => y.peer == some 1) = true := by decide +kernel
-- R312 b, R439: the read in flight ends lost.
theorem test_isolationRequestEnd_load : lostOf (does (.isolationRequestEnd 2) lostLoad) (fun r => r.lost.contains 1) = true := by decide +kernel

/-! ### Steps and encodings of the whole machine -/

-- Words the spec gives in full: R412, R487, R513, R516, R530.
theorem test_spec_words : [(0x10C000000000000531E040B0, Instr.coll .allReduce false .always .f32 (sd 30) 5 ⟨0, .rel, 0x0C, 0⟩), (0x000000000000000030A0F0C0, .ckpt .always (sd 10)),
      (0x0000000000000C0030B0F0C1, .ckq .always (sd 11) 0), (0x0000000000C03009C00000C2, .digest .always .i32 (.reg 9) 3),
      (0x00000000000000003070F0C3, .detq .always (sd 7)), (0x0000000000000C05C000F0C4, .brk .always 5), (0x0000000000000014C000F0C5, .tmark .always (.reg 20)),
      (0x00000000000000003070F0C6, .rdclk .always (sd 7))].all (fun x => decodeTableWord 96 x.1 == some x.2) = true := by decide +kernel

/-- Well-formed instructions of several families, operands at the ends of their ranges. -/
theorem witness_DecodeEncode : [Instr.br ⟨2, true⟩ (-2 ^ 27), .sadd ⟨⟨6, true⟩, ⟨.scalar, 63, true⟩, .i64, false, .reg 63, .imm 511, .zero⟩, .iadds ⟨.always, vd 31, .i8, true, .bcast 63, .latch 5, .zero⟩,
      .ffma .rz ⟨.always, vd 30, .f64, false, .reg 28, .reg 4, .reg 6⟩, .ld .index ⟨.always, vd 31, .i32, false, 15, .imm (-512), .zero, ⟨3, .sc, 127, -32768⟩⟩,
      .atadd ⟨.always, .noDest, .i32, false, 15, .reg 8, .reg 9, ⟨0, .acqrel, 0x7F, 32767⟩⟩, .mma 2 3 1 2 4 64, .ximm 3 0xFFFFFFFF,
      .coll .allReduce false .always .f32 (sd 30) 5 ⟨0, .rel, 0x0C, 0⟩].map (fun i => i.wellFormed) = [true, true, true, true, true, true, true, true, true] := by decide +kernel

/-- A path at its line's slot 0, and at a prefix in slot 0; a path whose line is not fetched. -/
def atLine (i j : Instr) (pre : Option (Nat × BitVec 32) := none) : State := { twoWords i j with focus := some (.path 0 0 pre) }
theorem witness_StepRunsTheDecodedInstruction : (let s := atLine (.iadd (op (vd 8) .i32 (.reg 1) (.reg 2))) (.nop .always)
      s.frozen = false ∧ s.focus = some (.path 0 0 none) ∧ (s.ctx? 0 0 none).any (fun c => !c.p.holdAsked && s.pcHits c == [] && c.p.line.any fun l =>
        (match decode (l.word (pcSlot c.p.pc)) with | .ok x => x == .iadd (op (vd 8) .i32 (.reg 1) (.reg 2)) | .error _ => false)) = true)
    ∧ (let s := State.path0 (atLine (.nop .always) (.nop .always)) fun p => { p with line := some ⟨0x100000, [0x100000000F000], 0⟩ }
      (s.ctx? 0 0 none).any (fun c => c.p.line.any fun l => (match decode (l.word (pcSlot c.p.pc)) with | .ok _ => false | .error _ => true)) = true)
    ∧ (let s := at' (.nop .always)
      (s.ctx? 0 0 none).any (fun c => c.p.line.isNone && match s.enterLine c with | (t, none) => (t.ctx? 0 0 none).any fun c' => c'.p.line.isSome && t.pcHits c' == [] | _ => false) = true)
    ∧ (let s := State.path0 (at' (.nop .always)) fun p => { p with pc := 0x180000 }
      (s.ctx? 0 0 none).any (fun c => (s.enterLine c).2.isSome) = true) := by decide +kernel
theorem witness_StepRunsTheDecodedInstruction_prefix : (let s := atLine (.ximm 0 5) (.iadd (op (vd 8) .i32 (.imm 3) .zero)) (some (0, 5))
      (s.ctx? 0 0 (some (0, 5))).any (fun c => !c.p.holdAsked && c.p.line.any fun l => (match decodeGoverned 0 5 (l.word (pcSlot c.p.pc + 1)) with | .instr _ => true | _ => false)) = true)
    ∧ (let s := streamAt mma0 operands
      s.focus = some (.stream 0 none) ∧ (s.stream? 0 none).any (fun c => match s.streamFetch c with
        | (_, .ok c') => c'.m.line.any fun l => (match decode (l.word (pcSlot c'.m.place)) with | .ok x => x == mma0 | .error _ => false)
        | _ => false) = true)
    ∧ (let s := streamAt mma0 operands
      let t := State.block0 s fun b => { b with mx := { b.mx with stream := b.mx.stream.map fun m => { m with pc := 0x180000, line := none } } }
      (t.stream? 0 none).any (fun c => match (t.streamFetch c).2 with | .ok _ => false | .error _ => true) = true) := by decide +kernel
/-- `iadd v8, v1, v2` where a register of the allocation of warp 0 holds an uncorrectable error; the launch's class and rb. -/
def poolBad (reg : Nat) (cls : Nat := 0) : State :=
  let s := { atLine (.iadd (op (vd 8) .i32 (.reg 1) (.reg 2))) (.nop .always) with poolUpset := [(0, reg), (5, 1)] }
  State.word0 (State.part0 s fun p => { p with ck := { p.ck with cfgNow := 1 } }) 9 (16 * cls)
theorem witness_StepRunsTheDecodedInstruction_pool : ((poolBad 1).ctx? 0 0 none).any (fun c => c.w.width == 32 && c.w.wbase == 0 && c.w.n == 32
      && (Instr.iadd (op (vd 8) .i32 (.reg 1) (.reg 2))).reads.contains (.v 1) && (poolBad 1).poolHit c .always (.iadd (op (vd 8) .i32 (.reg 1) (.reg 2))) == BitVec.allOnes 32
      && (poolBad 1).classOf c.w.block == 0 && (poolBad 1 1).classOf c.w.block == 1) = true
    ∧ ((poolBad 1).parts.get? 0).any (fun p => p.ck.rolls == 0 && p.ck.cfgNow.getLsbD 0) = true := by decide +kernel
-- R484: the error of a register that is read raises 0x50 or makes a rollback due; one that is not read stays.
theorem test_step_pool : (let t := after (poolBad 1); warpHas t (fun w => w.cause == 0x50 && w.lmask == 0xFFFFFFFF) ∧ t.poolUpset = [(5, 1)])
    ∧ (let t := after (poolBad 1 1); warpHas t (fun w => w.cause == 0) ∧ (t.parts.get? 0).any (·.ck.due) = true ∧ t.poolUpset = [(5, 1)])
    ∧ (let t := after (poolBad 3); warpHas t (fun w => w.cause == 0) ∧ t.poolUpset = [(0, 3), (5, 1)]) := by decide +kernel
/-- Nobody issues and an event, or a word of a program, is next. -/
def pending (i : Instr) (frozen : Bool := false) : State := { State.reset with agenda := [i], frozen := frozen, focus := none }
theorem witness_StepRunsTheDecodedInstruction_agenda : (pending (.heartbeat 3)).agenda = [.heartbeat 3] ∧ (Instr.heartbeat 3).encodable = false ∧ (Instr.nop .always).encodable = true
    ∧ (pending (.debugPortRead 0 4) true).frozen = true ∧ (Instr.debugPortRead 0 4).encodable = false ∧ State.reset.agenda = [] ∧ (pending (.nop .always) true).frozen = true := by decide +kernel
-- R540: a frozen device passes over what is not a read-out or a cold reset.
theorem test_step_agenda : (after (pending (.heartbeat 3))).heard = [(3, 0)] ∧ (after (pending (.heartbeat 3) true)).heard = [] ∧ (after (pending (.heartbeat 3) true)).agenda = []
    ∧ (match step (pending (.nop .always)) with | .fault .notAnEvent => true | _ => false) = true := by decide +kernel

theorem witness_ResetRegisters : (0x28 : Nat) < 0x1000 ∧ 19 < 20 ∧ 17 < 18 ∧ 0x1000 < 0x10000 ∧ 0x7FFFF < 0x80000 := by decide
theorem witness_MemoryStaysCanonical : Memory.wf (at' (.nop .always)).mem ∧ (match step (at' (.nop .always)) with | .next _ => true | _ => false) = true := by decide +kernel
theorem witness_NothingIsRefused : (match step (pending (.nop .always)) with | .fault .notAnEvent => true | _ => false) = true
    ∧ (pending (.nop .always)).focus = none := by decide +kernel
end Sys2Proof.Tests
end

section
/-! Memory's frame: every operation that writes no memory leaves it as it was. One lemma for each named operation of the model, in the
model's order; `_mem` of an operation that may fail speaks of the state it gives. -/
namespace Sys2Proof.Machine

section frame
variable (s : State)

/-- A fold of steps that each leave memory leaves it. -/
theorem State.foldl_mem {α : Type} {f : State → α → State} {l : List α} {s : State}
    (h : ∀ s a, (f s a).mem = s.mem) :
 (l.foldl f s).mem = s.mem :=
  List.foldlRecOn (motive := fun t => t.mem = s.mem) l f rfl fun t ht a _ => (h t a).trans ht

@[simp] theorem State.cachePage_mem (p : Page) (a : Nat) : (s.cachePage p a).mem = s.mem := by
  unfold State.cachePage
  split <;> simp

@[simp] theorem State.translated_mem (e : Env) (addrs : List Nat) : (s.translated e addrs).mem = s.mem := by
  unfold State.translated
  refine State.foldl_mem (fun s x => ?_)
  dsimp only
  (repeat' split) <;> simp

@[simp] theorem State.setPoison_mem (k : Nat) : (s.setPoison k).mem = s.mem := by
  unfold State.setPoison
  split <;> simp

@[simp] theorem State.clearPoison_mem (p : Piece) : (s.clearPoison p).mem = s.mem := by
  unfold State.clearPoison
  split <;> simp

@[simp] theorem State.faultMet_mem (who : Outstanding) : (s.faultMet who).mem = s.mem := rfl

@[simp] theorem State.corrected_mem (core : Nat) : (s.corrected core).mem = s.mem := by
  unfold State.corrected
  split <;> simp

@[simp] theorem State.fetchLine_mem (e : Env) (core : Nat) (who : Outstanding) (addr : Nat) :
    (s.fetchLine e core who addr).1.mem = s.mem := by
  unfold State.fetchLine
  (repeat' split) <;> simp

@[simp] theorem State.setCk_mem (p : Nat) (f : Ckpt → Ckpt) : (s.setCk p f).mem = s.mem := rfl
@[simp] theorem State.setCtx_mem (p : Nat) (f : CtxRegs → CtxRegs) : (s.setCtx p f).mem = s.mem := rfl
@[simp] theorem State.countSlot_mem (q leaf : Nat) : (s.countSlot q leaf).mem = s.mem := rfl
@[simp] theorem State.reissueSlot_mem (q : Nat) : (s.reissueSlot q).mem = s.mem := rfl
@[simp] theorem State.shown_mem (cores : CoreMask) (c : List Nat) : (s.shown cores c).mem = s.mem := rfl

@[simp] theorem State.nextClock_mem (a : Agent) : (s.nextClock a).mem = s.mem := by
  unfold State.nextClock
  split <;> simp

@[simp] theorem State.sawAt_mem (core : Nat) (mask : BitVec 7) (ps : List Piece) : (s.sawAt core mask ps).mem = s.mem := rfl

@[simp] theorem State.spread_mem (n : Nat) (cores : CoreMask) : (s.spread n cores).mem = s.mem := by
  unfold State.spread
  split <;> simp

@[simp] theorem State.publish_mem (a : Agent) (mask : BitVec 7) (origin : Agent) : (s.publish a mask origin).mem = s.mem := rfl
@[simp] theorem State.acquireAt_mem (core : Nat) (mask : BitVec 7) : (s.acquireAt core mask).mem = s.mem := rfl

@[simp] theorem State.fenceAt_mem (core : Nat) (o : Order) (mask : BitVec 7) : (s.fenceAt core o mask).mem = s.mem := by
  unfold State.fenceAt
  (repeat' split) <;> simp

@[simp] theorem State.ageWrites_mem : s.ageWrites.mem = s.mem := by
  unfold State.ageWrites
  split
  · rfl
  · exact State.foldl_mem (fun _ _ => rfl)

@[simp] theorem State.showAll_mem : s.showAll.mem = s.mem := State.foldl_mem (fun _ _ => rfl)

@[simp] theorem State.noteReads_mem (who : Nat) (ps : List Piece) : (s.noteReads who ps).mem = s.mem := by
  unfold State.noteReads
  dsimp only
  (repeat' split) <;> simp

theorem State.rollsWith_mem {s t : State} {part cls bit : Nat} (h : s.rollsWith part cls bit = some t) : t.mem = s.mem := by
  unfold State.rollsWith at h
  split at h
  · cases h
  · split at h <;> cases h
    rfl

@[simp] theorem State.clearSector_mem (p : Piece) : (s.clearSector p).mem = s.mem := rfl
@[simp] theorem State.sendToPeer_mem (a : Agent) (t : Store) : (s.sendToPeer a t).mem = s.mem := by simp [State.sendToPeer]

@[simp] theorem State.sendFar_mem (a : Agent) (core block : Nat) (launch part seq : Nat) (mask : BitVec 7) (p : Piece) (bs : List Byte) :
    (s.sendFar a core block launch part seq mask p bs).mem = s.mem := by simp [State.sendFar]

@[simp] theorem State.poisonPiece_mem (p : Piece) : (s.poisonPiece p).mem = s.mem := by
  unfold State.poisonPiece
  split <;> simp

@[simp] theorem State.wroteOut_mem (bid : Nat) : (s.wroteOut bid).mem = s.mem := rfl
@[simp] theorem State.noteWrite_mem (bid : Nat) (ps : List Piece) : (s.noteWrite bid ps).mem = s.mem := rfl
@[simp] theorem State.count_mem (bid : Nat) : (s.count bid).mem = s.mem := rfl
@[simp] theorem State.skip_mem (c : Ctx) : (s.skip c).mem = s.mem := rfl

@[simp] theorem State.awaits_mem (c : Ctx) (w : Warp) (st : PathState) (a : Await) (reserve : Nat) :
    (s.awaits c w st a reserve).mem = s.mem := by
  unfold State.awaits
  (repeat' split) <;> simp

@[simp] theorem State.unreserve_mem (c : Ctx) : (s.unreserve c).mem = s.mem := by
  unfold State.unreserve
  (repeat' split) <;> simp

@[simp] theorem State.answered_mem (c : Ctx) (w : Warp) (pl : Place) : (s.answered c w pl).mem = s.mem := by simp [State.answered]
@[simp] theorem State.wake_mem (r : ParkReason) : (s.wake r).mem = s.mem := rfl
@[simp] theorem State.freeze_mem (trigger part : Nat) : (s.freeze trigger part).mem = s.mem := rfl
@[simp] theorem State.setBarrier_mem (bid k : Nat) (x : Barrier) : (s.setBarrier bid k x).mem = s.mem := rfl
@[simp] theorem State.completeBarrier_mem (bid k : Nat) (b : Barrier) : (s.completeBarrier bid k b).mem = s.mem := rfl

@[simp] theorem State.arriveAt_mem (bid who k : Nat) (count : Option Nat) : (s.arriveAt bid who k count).mem = s.mem := by
  unfold State.arriveAt
  dsimp only
  (repeat' split) <;> simp

@[simp] theorem State.faultTaken_mem (bid wid k : Nat) : (s.faultTaken bid wid k).mem = s.mem := by
  unfold State.faultTaken
  (repeat' split) <;> simp

@[simp] theorem State.engineNoted_mem (e : Env) (a len : Nat) : (s.engineNoted e a len).mem = s.mem := by
  unfold State.engineNoted
  split <;> simp

@[simp] theorem State.setMx_mem (bid : Nat) (f : Mx → Mx) : (s.setMx bid f).mem = s.mem := rfl
@[simp] theorem State.setStream_mem (bid : Nat) (f : MStream → MStream) : (s.setStream bid f).mem = s.mem := rfl
@[simp] theorem State.setEngine_mem (core : Nat) (f : Engine → Engine) : (s.setEngine core f).mem = s.mem := rfl
@[simp] theorem State.streamOn_mem (c : SCtx) : (s.streamOn c).mem = s.mem := rfl

@[simp] theorem State.freeArray_mem (bid core : Nat) : (s.freeArray bid core).mem = s.mem := by
  unfold State.freeArray
  split <;> simp

@[simp] theorem State.grantFork_mem (bid : Nat) (b : Block) : (s.grantFork bid b).mem = s.mem := by
  unfold State.grantFork
  dsimp only
  (repeat' split) <;> simp

@[simp] theorem State.grantForks_mem : s.grantForks.mem = s.mem := State.foldl_mem (fun s b => s.grantFork_mem b.1 b.2)

@[simp] theorem State.wakeTiles_mem (bid : Nat) : (s.wakeTiles bid).mem = s.mem :=
  State.foldl_mem (fun s x => State.foldl_mem (fun s i => by split <;> rfl))

@[simp] theorem State.endStream_mem (bid : Nat) : (s.endStream bid).mem = s.mem := by
  unfold State.endStream
  split <;> simp

@[simp] theorem State.streamFetch_mem (c : SCtx) : (s.streamFetch c).1.mem = s.mem := by
  unfold State.streamFetch
  have hf := s.fetchLine_mem c.env c.blk.core (.stream c.bid) (pcLineAddr c.m.place)
  (repeat' split) <;> simp_all

@[simp] theorem State.endWarp_mem (wid : Nat) (w : Warp) : (s.endWarp wid w).mem = s.mem := rfl
@[simp] theorem finishMet_mem (c : Ctx) (m : Met) : (finishMet c m).mem = m.s.mem := by
  unfold finishMet
  dsimp only
  split <;> rfl
@[simp] theorem State.consume_mem (part bid : Nat) (e : ReplayEntry) : (s.consume part bid e).mem = s.mem := rfl
@[simp] theorem State.spend_mem (part wid : Nat) (pidx n : Nat) : (s.spend part wid pidx n).mem = s.mem := rfl

@[simp] theorem State.scFence_mem (c : Ctx) (e : MExt) : (s.scFence c e).mem = s.mem := by
  unfold State.scFence
  split <;> simp

@[simp] theorem State.enqueue_mem (c : Ctx) (lanes : LaneMask) (xs : List (LaneMask × Piece × List Byte)) (e : MExt) :
    (s.enqueue c lanes xs e).mem = s.mem := rfl

@[simp] theorem State.allocate_mem (hint line : Nat) : (s.allocate hint line).mem = s.mem := by
  unfold State.allocate
  split <;> simp

@[simp] theorem State.giveNumber_mem (core home : Nat) : (s.giveNumber core home).1.mem = s.mem := rfl

@[simp] theorem State.giveNumbers_mem (core : Nat) (homes : List Nat) : (s.giveNumbers core homes).1.mem = s.mem :=
  List.foldlRecOn (motive := fun x : State × NMap Nat => x.1.mem = s.mem) homes _ rfl fun x hx h _ => by
    dsimp only
    split
    · exact hx
    · exact hx

@[simp] theorem sendRequests_mem (c : Ctx) (op : AtomOp) (d : Dst) (f : Fmt) (e : MExt) (acting : LaneMask) (header : Int)
    (todo : List AtomLane) (aims : NMap Nat) (st : PathState) (w : Warp) (reserve : Nat) :
    (sendRequests s c op d f e acting header todo aims st w reserve).mem = s.mem :=
  (State.awaits_mem ..).trans (State.giveNumbers_mem ..)

@[simp] theorem State.setAtomic_mem (c : Ctx) (r : AtomReq) : (s.setAtomic c r).mem = s.mem := rfl

@[simp] theorem State.numberDone_mem (key n : Nat) (result : List Byte) (poisoned : Bool) :
    (s.numberDone key n result poisoned).mem = s.mem := rfl

@[simp] theorem State.requestDone_mem (c : Ctx) (r : AtomReq) (home : Nat) (ts : List AtomLane) :
    (s.requestDone c r home ts).mem = s.mem := rfl

@[simp] theorem sendLate_mem (c : Ctx) (r : AtomReq) (home : Nat) : (sendLate s c r home).mem = s.mem := by
  unfold sendLate
  split
  · rfl
  · exact (State.setAtomic_mem ..).trans (State.giveNumber_mem ..)

@[simp] theorem withdrawRequest_mem (c : Ctx) (r : AtomReq) (home : Nat) : (withdrawRequest s c r home).mem = s.mem := rfl
@[simp] theorem State.setCopy_mem (bid : Nat) (c : CopyCmd) : (s.setCopy bid c).mem = s.mem := rfl

@[simp] theorem State.holdLine_mem (key : Nat) : (s.holdLine key).mem = s.mem := by
  unfold State.holdLine
  split <;> simp

@[simp] theorem State.holdLines_mem (e : Env) (c : CopyCmd) (lines : List Nat) : (s.holdLines e c lines).1.mem = s.mem :=
  List.foldlRecOn (motive := fun x : State × CopyCmd => x.1.mem = s.mem) lines _ rfl fun x hx l _ => by
    dsimp only
    split
    · exact hx
    · split
      · exact (State.holdLine_mem ..).trans hx
      · exact hx

@[simp] theorem acceptCopy_mem (c : Ctx) (cmd : CopyCmd) : (acceptCopy s c cmd).mem = s.mem :=
  State.holdLines_mem ..

@[simp] theorem State.dropLine_mem (key : Nat) : (s.dropLine key).mem = s.mem := by
  unfold State.dropLine
  split <;> simp

@[simp] theorem State.showLine_mem (key : Nat) : (s.showLine key).mem = s.mem := rfl
@[simp] theorem State.wakeLines_mem : s.wakeLines.mem = s.mem := rfl

@[simp] theorem sendRequest_mem (x : CopyCtx) (r : PageReq) : (sendRequest s x r).mem = s.mem := by
  unfold sendRequest
  split <;> simp

@[simp] theorem State.poisonPieces_mem (ps : List Piece) : (s.poisonPieces ps).mem = s.mem :=
  State.foldl_mem (fun s p => s.setPoison_mem p.key)
@[simp] theorem endedCopy_mem (x : CopyCtx) : (endedCopy s x).mem = s.mem := rfl
@[simp] theorem lostStamp_mem (x : CopyCtx) : (lostStamp s x).mem = s.mem := rfl
@[simp] theorem State.setSched_mem (q : Nat) (f : Sched → Sched) : (s.setSched q f).mem = s.mem := rfl
@[simp] theorem State.startUnit_mem (q : Nat) (x : Nat × Warp × Nat) : (s.startUnit q x).mem = s.mem := rfl

@[simp] theorem State.issueFirst_mem (q : Nat) (x : Nat × Warp × Nat) : (s.issueFirst q x).mem = s.mem := by
  unfold State.issueFirst
  dsimp only
  (repeat' split) <;> simp

@[simp] theorem State.tick_mem : s.tick.mem = s.mem := by
  unfold State.tick
  extract_lets t
  have ht : t.mem = s.mem := State.foldl_mem (fun s q => s.countSlot_mem q _)
  exact (State.grantForks_mem _).trans ((State.ageWrites_mem _).trans ht)

@[simp] theorem State.enterLine_mem (c : Ctx) : (s.enterLine c).1.mem = s.mem := by
  unfold State.enterLine
  have hf := s.fetchLine_mem c.env (coreOf c.wid) (.fetch c.wid c.pidx) (pcLineAddr c.p.pc)
  (repeat' split) <;> simp_all

theorem State.returnEvicted_mem {s t : State} {q : Nat} (h : s.returnEvicted q = some t) : t.mem = s.mem := by
  unfold State.returnEvicted at h
  split at h
  · split at h <;> cases h
    rfl
  · cases h

@[simp] theorem State.returnAll_mem (q n : Nat) : (s.returnAll q n).mem = s.mem := by
  induction n generalizing s with
  | zero => rfl
  | succ n ih =>
    unfold State.returnAll
    split
    · exact (ih _).trans (State.returnEvicted_mem ‹_›)
    · rfl

@[simp] theorem State.granulesOffered_mem (q : Nat) : (s.granulesOffered q).mem = s.mem := rfl
@[simp] theorem State.reserve_mem (lid : Nat) (r : Spot) : (s.reserve lid r).mem = s.mem := rfl

@[simp] theorem reserveRanks_mem (pt : Partition) (lid : Nat) (l : Launch) (turn group n : Nat) (s : State) :
    (reserveRanks pt lid l turn group n s).mem = s.mem := by
  induction n generalizing s with
  | zero => rfl
  | succ n ih =>
    unfold reserveRanks
    dsimp only
    split
    · rfl
    · split
      · rfl
      · exact ih _

@[simp] theorem State.beginWait_mem (pt : Partition) (lid : Nat) (l : Launch) (turn group : Nat) (closed : List Nat) :
    (s.beginWait pt lid l turn group closed).mem = s.mem := by
  unfold State.beginWait
  split <;> simp

theorem State.chooseGroup_mem {s t : State} {pt : Partition} {lid : Nat} {l : Launch} {turn : Nat} {closed : List Nat}
    (h : s.chooseGroup pt lid l turn closed = some t) : t.mem = s.mem := by
  unfold State.chooseGroup at h
  split at h
  · cases h
    simp
  · refine List.foldlRecOn (motive := fun b => ∀ t, b = some t → t.mem = s.mem) _ _ (by simp) (fun b hb g _ => ?_) t h
    dsimp only
    split
    · split
      · simp
      · exact hb
    · simp

@[simp] theorem placeWarps_mem (pt : Partition) (part : Nat) (l : Launch) (bid core rot : Nat) (js : List Nat) (s : State) :
    (placeWarps pt part l bid core rot js s).1.mem = s.mem := by
  induction js generalizing s with
  | nil => rfl
  | cons j r ih => exact ih _

@[simp] theorem State.countPlaced_mem (lid core : Nat) (l : Launch) : (s.countPlaced lid core l).mem = s.mem := rfl

@[simp] theorem State.placeBlock_mem (pt : Partition) (lid : Nat) (l : Launch) (turn j : Nat) (spot : Spot) :
    (s.placeBlock pt lid l turn j spot).mem = s.mem :=
  placeWarps_mem ..

@[simp] theorem State.placeReserved_mem (pt : Partition) (lid : Nat) (l : Launch) (turn : Nat) (spots : List Spot) :
    (s.placeReserved pt lid l turn spots).mem = s.mem :=
  (State.setLaunch_mem ..).trans (State.foldl_mem (fun s x => s.placeBlock_mem pt lid l turn x.2 x.1))

theorem State.offer_mem {s t : State} {pt : Partition} {closed : List Nat} {lid : Nat} (h : s.offer pt closed lid = some t) :
    t.mem = s.mem := by
  unfold State.offer at h
  split at h
  · cases h
  · split at h
    · cases h
    · obtain ⟨u, hu, rfl⟩ := Option.map_eq_some_iff.1 h
      have placed : u.mem = s.mem := by
        split at hu
        · exact State.chooseGroup_mem hu
        · dsimp only at hu
          split at hu
          · cases hu
          · split at hu <;> cases hu
            simp
      split
      · split
        · exact (State.placeReserved_mem ..).trans placed
        · exact placed
      · exact placed

@[simp] theorem State.renumber_mem (wid i : Nat) : (s.renumber wid i).mem = s.mem := rfl

@[simp] theorem replaceWarps_mem (core rot : Nat) (ws : NMap Warp) (s : State) : (replaceWarps core rot ws s).1.mem = s.mem := by
  induction ws generalizing s with
  | nil => rfl
  | cons x r ih =>
    unfold replaceWarps
    exact (ih _).trans (State.foldl_mem (fun s i => State.renumber_mem s _ i))

@[simp] theorem State.replaceBlock_mem (lid : Nat) (l : Launch) (sb : SavedBlock) (core : Nat) :
    (s.replaceBlock lid l sb core).mem = s.mem :=
  replaceWarps_mem ..

theorem returnCluster_mem {pt : Partition} {group : Nat} {sbs : List SavedBlock} {s t : State}
    (h : returnCluster pt group sbs s = some t) : t.mem = s.mem := by
  induction sbs generalizing s with
  | nil => cases h; rfl
  | cons sb r ih =>
    unfold returnCluster at h
    split at h
    · cases h
    · split at h
      · cases h
      · exact (ih h).trans (State.replaceBlock_mem ..)

theorem State.placeReturning_mem {s t : State} {part : Nat} {pt : Partition} (h : s.placeReturning part pt = some t) :
    t.mem = s.mem := by
  unfold State.placeReturning at h
  split at h
  · cases h
  · obtain ⟨g, hg⟩ := List.exists_of_findSome?_eq_some h
    exact (returnCluster_mem hg.2).trans (State.setPart_mem ..)

theorem State.placeSystem_mem {s t : State} {part : Nat} {pt : Partition} (h : s.placeSystem part pt = some t) : t.mem = s.mem := by
  unfold State.placeSystem at h
  split at h
  · cases h
  · obtain ⟨x, -, rfl⟩ := Option.map_eq_some_iff.1 h
    rfl

@[simp] theorem State.setQueue_mem (part q : Nat) (f : Queue → Queue) : (s.setQueue part q f).mem = s.mem := rfl
@[simp] theorem State.queueError_mem (part q : Nat) (status seq : Nat) : (s.queueError part q status seq).mem = s.mem := rfl

@[simp] theorem advanceDone_mem (part q n : Nat) (s : State) : (advanceDone part q n s).mem = s.mem := by
  induction n generalizing s with
  | zero => rfl
  | succ n ih =>
    unfold advanceDone
    dsimp only
    split
    · rfl
    · split
      · exact ih _
      · rfl

@[simp] theorem State.dropJob_mem (lid : Nat) : (s.dropJob lid).mem = s.mem := rfl
@[simp] theorem State.dropBanks_mem (bid core : Nat) : (s.dropBanks bid core).mem = s.mem := rfl

@[simp] theorem State.parkAtBarrier_mem (c : Ctx) (k : Nat) (r : ParkReason) (arrived : Option Word) :
    (s.parkAtBarrier c k r arrived).mem = s.mem := rfl

@[simp] theorem waitHalf_mem (c : Ctx) (k : Nat) (e : MExt) (r : ParkReason) (arrived : Option Word) :
    (waitHalf s c k e r arrived).mem = s.mem := by
  unfold waitHalf
  dsimp only
  split
  · split
    · refine (State.complete_mem ..).trans ((State.setBarrier_mem ..).trans ?_)
      split <;> rfl
    · rfl
  · split
    · refine (State.complete_mem ..).trans ((State.setBarrier_mem ..).trans ?_)
      split <;> rfl
    · rfl

@[simp] theorem State.joinQueue_mem (key : Nat) (who : Nat × Nat) : (s.joinQueue key who).mem = s.mem := rfl

@[simp] theorem registerWait_mem (c : Ctx) (r : AtomReq) (home : Nat) (t : AtomLane) :
    (registerWait s c r home t).mem = s.mem := by
  unfold registerWait
  (repeat' split) <;> simp

@[simp] theorem State.leaveQueue_mem (key wid pidx : Nat) : (s.leaveQueue key wid pidx).mem = s.mem := rfl

@[simp] theorem endWait_mem (c : Ctx) (r : AtomReq) : (endWait s c r).mem = s.mem := by
  unfold endWait
  split <;> simp

@[simp] theorem State.answerPeer_mem (p : PeerWait) (v : Nat) (poisoned : Bool) : (s.answerPeer p v poisoned).mem = s.mem := rfl

@[simp] theorem State.queueWriteError_mem (part q status : Nat) : (s.queueWriteError part q status).mem = s.mem := by
  unfold State.queueWriteError
  split <;> simp

@[simp] theorem State.acceptJob_mem (part : Nat) (pt : Partition) (j : SysJob) : (s.acceptJob part pt j).mem = s.mem := rfl

theorem State.cacheCode_mem {s t : State} {part : Nat} {pt : Partition} {key : CodeKey} {x : Translated}
    (h : s.cacheCode part pt key x = some t) : t.mem = s.mem := by
  obtain ⟨cs, -, rfl⟩ := Option.map_eq_some_iff.1 h
  rfl

@[simp] theorem skipped_mem (c : SCtx) (x2 : Walk) : (skipped s c x2).mem = s.mem := rfl
@[simp] theorem State.waitHere_mem : s.waitHere.mem = s.mem := rfl

@[simp] theorem State.notedDescriptors_mem (c : SCtx) (ds : List Int) : (s.notedDescriptors c ds).mem = s.mem := by
  unfold State.notedDescriptors
  refine State.foldl_mem (fun s x => ?_)
  (repeat' split) <;> simp

@[simp] theorem startDrain_mem (bid : Nat) (tile : Nat) (tries : Nat) : (startDrain s bid tile tries).mem = s.mem := rfl
@[simp] theorem retryInterval_mem (c : SCtx) (w : MWork) (tries : Nat) : (retryInterval s c w tries).mem = s.mem := rfl
@[simp] theorem State.strangeBank_mem (bid : Nat) : (s.strangeBank bid).mem = s.mem := rfl

theorem State.fillBank_mem {s t : State} {part bid first : Nat} {b : Block} (h : s.fillBank part bid first b = some t) :
    t.mem = s.mem := by
  obtain ⟨ps, -, rfl⟩ := Option.map_eq_some_iff.1 h
  split <;> rfl

@[simp] theorem State.notedStep_mem (e : Env) (os : List Operand) (k : Nat) : (s.notedStep e os k).mem = s.mem :=
  State.foldl_mem fun _ _ => State.foldl_mem fun s _ => s.engineNoted_mem e _ 256

@[simp] theorem State.leaveWaits_mem (part : Nat) (f : Await → Bool) (chosen : Nat → Bool) :
    (s.leaveWaits part f chosen).mem = s.mem := rfl

@[simp] theorem State.discardWaits_mem (part : Nat) (chosen : Nat → Bool) : (s.discardWaits part chosen).mem = s.mem := rfl
@[simp] theorem State.settlePairs_mem (part : Nat) : (s.settlePairs part).mem = s.mem := rfl

@[simp] theorem State.standStill_mem (part : Nat) : (s.standStill part).mem = s.mem := by
  unfold State.standStill
  exact State.foldl_mem (fun s w => State.foldl_mem (fun s i => s.renumber_mem w i))

@[simp] theorem State.resumePaths_mem (part : Nat) : (s.resumePaths part).mem = s.mem := rfl

@[simp] theorem State.removeBlock_mem (bid : Nat) (b : Block) : (s.removeBlock bid b).mem = s.mem := by
  unfold State.removeBlock
  exact State.foldl_mem (fun s l => s.dropLine_mem l.2)

@[simp] theorem State.flushBlock_mem (bid : Nat) (b : Block) : (s.flushBlock bid b).mem = s.mem :=
  (State.setLaunch_mem ..).trans (s.removeBlock_mem bid b)

@[simp] theorem State.evacuate_mem (part : Nat) : (s.evacuate part).mem = s.mem :=
  State.foldl_mem (fun s b => s.removeBlock_mem b.1 b.2)

@[simp] theorem State.holdAgain_mem (part : Nat) (sb : SavedBlock) : (s.holdAgain part sb).1.mem = s.mem :=
  List.foldlRecOn (motive := fun x : State × NMap CopyCmd => x.1.mem = s.mem) sb.block.copies _ rfl
    fun _ hx _ _ => (State.holdLines_mem ..).trans hx

@[simp] theorem State.bringBlocks_mem (part : Nat) (bs : List SavedBlock) : (s.bringBlocks part bs).mem = s.mem :=
  State.foldl_mem fun s _ => (State.setPart_mem ..).trans (State.holdAgain_mem s part _)

@[simp] theorem State.beginStop_mem (part : Nat) (p : Partition) (op : CtxOp) (force : Bool) :
    (s.beginStop part p op force).mem = s.mem := rfl

@[simp] theorem State.contextAt_mem (part state : Nat) : (s.contextAt part state).mem = s.mem := rfl
@[simp] theorem State.logDrop_mem (core : Nat) (p : Piece) (m : Nat) : (s.logDrop core p m).mem = s.mem := rfl
@[simp] theorem State.wakeStores_mem : s.wakeStores.mem = s.mem := rfl
@[simp] theorem State.dropWrite_mem (t : Store) : (s.dropWrite t).mem = s.mem := rfl

@[simp] theorem State.spoilCopy_mem (block seq : Nat) (f : Piece → Bool) : (s.spoilCopy block seq f).mem = s.mem := by
  unfold State.spoilCopy
  (repeat' split) <;> simp

@[simp] theorem State.loseReads_mem (gone : Nat → Bool) : (s.loseReads gone).mem = s.mem := by
  unfold State.loseReads
  exact State.foldl_mem (fun s x => s.logDrop_mem x.1 x.2 _)

@[simp] theorem State.dropTo_mem (gone : Nat → Bool) : (s.dropTo gone).mem = s.mem := by
  unfold State.dropTo
  extract_lets t stay
  have ht : t.mem = s.mem := State.foldl_mem (fun s w => s.dropWrite_mem w)
  exact (State.wakeStores_mem _).trans ((State.loseReads_mem ..).trans ht)

@[simp] theorem State.spoilCopies_mem (gone : Nat → Bool) : (s.spoilCopies gone).mem = s.mem :=
  State.foldl_mem fun _ b => State.foldl_mem fun s c => s.spoilCopy_mem b.1 c.1 _

@[simp] theorem State.clearRuns_mem (f : Nat → Run → Bool) : (s.clearRuns f).mem = s.mem := rfl
@[simp] theorem State.forgetPeers_mem (gone : Nat → Bool) : (s.forgetPeers gone).mem = s.mem := rfl

@[simp] theorem State.standPeer_mem (p : PeerWait) : (s.standPeer p).mem = s.mem := by
  unfold State.standPeer
  split <;> simp

@[simp] theorem State.discardFetched_mem (pasid va size : Nat) : (s.discardFetched pasid va size).mem = s.mem := rfl

@[simp] theorem State.sendTo_mem (ms : List Nat) (x : MemberMsg) : (s.sendTo ms x).mem = s.mem := by
  unfold State.sendTo
  refine State.foldl_mem fun s x => ?_
  simp

@[simp] theorem State.setColl_mem (key : Nat) (x : Coll) : (s.setColl key x).mem = s.mem := rfl

@[simp] theorem State.endColl_mem (key : Nat) (x : Coll) (status : Nat) (tell : Bool) : (s.endColl key x status tell).mem = s.mem := by
  unfold State.endColl
  (repeat' split) <;> simp

@[simp] theorem State.stopColl_mem (key : Nat) (x : Coll) (e : EngineStop) : (s.stopColl key x e).mem = s.mem := by
  unfold State.stopColl
  split <;> simp

@[simp] theorem State.editBlock_mem (bid : Nat) (f : Block → Block) : (s.editBlock bid f).mem = s.mem := rfl
@[simp] theorem State.editWarp_mem (bid index : Nat) (f : Warp → Warp) : (s.editWarp bid index f).mem = s.mem := rfl

@[simp] theorem State.collRound_mem (key : Nat) (x : Coll) (h : CollHere) : (s.collRound key x h).mem = s.mem := by
  unfold State.collRound
  dsimp only
  split
  · exact State.stopColl_mem ..
  · exact (State.setColl_mem ..).trans (State.foldl_mem (fun s p => State.sendTo_mem s _ _))

@[simp] theorem State.collFull_mem (key : Nat) (x : Coll) (h : CollHere) : (s.collFull key x h).mem = s.mem := by
  unfold State.collFull
  split <;> simp

@[simp] theorem State.dependAll_mem (part : Nat) : (s.dependAll part).mem = s.mem := rfl

@[simp] theorem State.commitColl_mem (key : Nat) (x : Coll) (h : CollHere) : (s.commitColl key x h).mem = s.mem := by
  unfold State.commitColl
  split <;> simp

@[simp] theorem State.collReady_mem (key : Nat) (x : Coll) (h : CollHere) : (s.collReady key x h).mem = s.mem := by
  unfold State.collReady
  split <;> simp

@[simp] theorem State.takeUp_mem (key : Nat) (x : Coll) (h : CollHere) : (s.takeUp key x h).mem = s.mem := by
  unfold State.takeUp
  dsimp only
  (repeat' split) <;> simp

@[simp] theorem State.discardMessage_mem (sender : Nat) : (s.discardMessage sender).mem = s.mem := rfl

@[simp] theorem State.beginColl_mem (h : CollHere) (bs : List Byte) (k : Nat) : (s.beginColl h bs k).mem = s.mem := by
  unfold State.beginColl
  split <;> simp

@[simp] theorem State.markUnack_mem : s.markUnack.mem = s.mem := rfl

@[simp] theorem State.endJoins_mem (v : Word) (acknowledged : Bool) : (s.endJoins v acknowledged).mem = s.mem := by
  refine State.foldl_mem (fun s w => State.foldl_mem (fun s i => ?_))
  split
  · refine (State.answered_mem ..).trans ?_
    split <;> rfl
  · rfl

@[simp] theorem State.exclude_mem : s.exclude.mem = s.mem := by simp [State.exclude]
@[simp] theorem State.countIsolated_mem : s.countIsolated.mem = s.mem := rfl

@[simp] theorem State.adoptView_mem (view : Nat) (manifest : BitVec 1024) (committed : List (Nat × Nat)) :
    (s.adoptView view manifest committed).mem = s.mem := by
  unfold State.adoptView
  extract_lets gone departed old fresh cycle s1 far s2 s3 s4
  have h1 : s1.mem = s.mem := State.spoilCopies_mem ..
  have h2 : s2.mem = s1.mem := rfl
  have h3 : s3.mem = s2.mem := State.foldl_mem (fun s h => by split <;> rfl)
  have h4 : s4.mem = s3.mem := (State.dropTo_mem ..).trans ((State.forgetPeers_mem ..).trans (State.markUnack_mem _))
  exact (State.endJoins_mem ..).trans (h4.trans (h3.trans (h2.trans h1)))

@[simp] theorem State.endAgreement_mem : s.endAgreement.mem = s.mem := rfl

@[simp] theorem State.commitView_mem (a : Agreement) (m : BitVec 1024) : (s.commitView a m).mem = s.mem :=
  (State.adoptView_mem ..).trans (State.sendTo_mem ..)

@[simp] theorem State.lead_mem (a : Agreement) : (s.lead a).mem = s.mem := by
  unfold State.lead
  dsimp only
  split
  · split
    · exact State.endAgreement_mem ..
    · split
      · exact State.exclude_mem ..
      · split
        · exact State.commitView_mem ..
        · exact State.sendTo_mem ..
  · split
    · exact State.exclude_mem ..
    · rfl

@[simp] theorem State.beginChange_mem (suspects : List Nat) (adding : Option Nat) : (s.beginChange suspects adding).mem = s.mem := by
  unfold State.beginChange
  dsimp only
  (repeat' split) <;> simp

@[simp] theorem State.startJoin_mem : s.startJoin.mem = s.mem := by
  unfold State.startJoin
  (repeat' split) <;> simp

@[simp] theorem State.without_mem (a : Agreement) (member : Nat) (named : List Nat) : (s.without a member named).mem = s.mem := by
  unfold State.without
  dsimp only
  (repeat' split) <;> simp

@[simp] theorem State.takeJoin_mem (member : Nat) : (s.takeJoin member).mem = s.mem := by
  unfold State.takeJoin
  (repeat' split) <;> simp

@[simp] theorem State.askJoin_mem : s.askJoin.mem = s.mem := by
  unfold State.askJoin
  (repeat' split) <;> simp

@[simp] theorem State.reconsider_mem : s.reconsider.mem = s.mem := by
  unfold State.reconsider
  dsimp only
  (repeat' split) <;> simp

@[simp] theorem State.isolatePort_mem (p : Nat) : (s.isolatePort p).mem = s.mem := by simp [State.isolatePort]

@[simp] theorem State.setLink_mem (k : Nat) (f : Link → Link) : (s.setLink k f).mem = s.mem := by
  unfold State.setLink
  split <;> simp

@[simp] theorem State.retrain_mem (k : Nat) : (s.retrain k).mem = s.mem := by
  unfold State.retrain
  split <;> simp

@[simp] theorem State.flitFails_mem (k : Nat) (forward : Bool) (x : Link) : (s.flitFails k forward x).mem = s.mem := by
  unfold State.flitFails
  dsimp only
  (repeat' split) <;> simp

@[simp] theorem State.tellGroup_mem (p : Partition) (m : CkptMsg) : (s.tellGroup p m).mem = s.mem := by
  unfold State.tellGroup
  split <;> simp

@[simp] theorem State.endCkptWaits_mem (part upTo : Nat) : (s.endCkptWaits part upTo).mem = s.mem := by
  refine State.foldl_mem (fun s w => State.foldl_mem (fun s i => ?_))
  split
  · split
    · exact State.answered_mem ..
    · rfl
  · rfl

@[simp] theorem State.commitInterval_mem (part k : Nat) (p : Partition) :
    (s.commitInterval part k p).mem = s.mem := by simp [State.commitInterval]

@[simp] theorem commitReady_mem (part n : Nat) (s : State) : (commitReady part n s).mem = s.mem := by
  induction n generalizing s with
  | zero => rfl
  | succ n ih =>
    unfold commitReady
    split
    · rfl
    · split
      · exact (ih _).trans (State.commitInterval_mem ..)
      · rfl

@[simp] theorem State.beginClose_mem (part : Nat) (p : Partition) : (s.beginClose part p).mem = s.mem := by
  unfold State.beginClose
  exact (State.tellGroup_mem ..).trans (State.foldl_mem (fun _ _ => rfl))

@[simp] theorem State.closeOne_mem (part : Nat) : (s.closeOne part).mem = s.mem := by
  unfold State.closeOne
  dsimp only
  split
  · refine (State.resumePaths_mem ..).trans ?_
    split
    · exact State.standStill_mem ..
    · exact (State.foldl_mem (fun s _ => State.send_mem s _)).trans (State.standStill_mem ..)
  · exact State.standStill_mem ..

@[simp] theorem State.requestClose_mem (part : Nat) : (s.requestClose part).mem = s.mem := rfl
@[simp] theorem State.setPresence_mem (p : Partition) : (s.setPresence p).mem = s.mem := rfl

@[simp] theorem State.rollColls_mem (owner : Nat) (img : CtxImage) : (s.rollColls owner img).mem = s.mem := by
  refine (State.foldl_mem (fun s x => State.setColl_mem s _ _)).trans (State.foldl_mem (fun s x => ?_))
  split
  · split <;> split <;> simp
  · rfl

@[simp] theorem State.markDue_mem (part : Nat) : (s.markDue part).mem = s.mem := rfl

@[simp] theorem State.rollGroup_mem (part : Nat) (p : Partition) (tell : Bool) : (s.rollGroup part p tell).mem = s.mem := by
  have marked : ∀ l : List Nat, (l.foldl (fun (s : State) m =>
      (s.markDue m).setCk m fun c => { c with remoteDep := false, deps := [] }) s).mem = s.mem :=
    fun l => State.foldl_mem (fun s m => (State.setCk_mem ..).trans (s.markDue_mem m))
  unfold State.rollGroup
  dsimp only
  split
  · exact (State.tellGroup_mem ..).trans (marked _)
  · exact marked _

theorem State.sortEntry_mem {s t : State} {part : Nat} {p : Partition} {w0 w1 : Nat} (h : s.sortEntry part p w0 w1 = some t) :
    t.mem = s.mem := by
  unfold State.sortEntry at h
  dsimp only at h
  split at h
  · obtain ⟨lid, -, rfl⟩ := Option.map_eq_some_iff.1 h
    rfl
  · split at h
    · cases h; rfl
    · split at h
      · split at h <;> cases h <;> rfl
      · cases h; rfl

@[simp] theorem State.applyPartitions_mem (vs : List Nat) : (s.applyPartitions vs).mem = s.mem := rfl
@[simp] theorem State.applyQueues_mem (part : Nat) (vs : List Nat) : (s.applyQueues part vs).mem = s.mem := rfl

@[simp] theorem State.applyDomain_mem (body : List Byte) : (s.applyDomain body).mem = s.mem := by
  unfold State.applyDomain
  dsimp only
  (repeat' split) <;> simp

@[simp] theorem State.applyRecord_mem (kind part : Nat) (body : List Byte) : (s.applyRecord kind part body).mem = s.mem := by
  unfold State.applyRecord
  split <;> simp

@[simp] theorem State.takeRecord_mem (bs : List Byte) : (s.takeRecord bs).mem = s.mem := by simp [State.takeRecord]

@[simp] theorem State.runStage_mem (stage : Nat) : (s.runStage stage).mem = s.mem := by
  unfold State.runStage
  dsimp only
  split
  · exact State.foldl_mem fun s r => s.applyRecord_mem _ _ _
  · rfl

@[simp] theorem bootFrom_mem (n stage : Nat) (s : State) : (bootFrom n stage s).mem = s.mem := by
  induction n generalizing stage s with
  | zero => rfl
  | succ n ih =>
    unfold bootFrom
    split
    · rfl
    · split
      · exact (ih ..).trans (State.runStage_mem ..)
      · rfl

@[simp] theorem State.startBoot_mem : s.startBoot.mem = s.mem := by simp [State.startBoot]
@[simp] theorem State.mailDone_mem (status : Nat) (response : List Byte) : (s.mailDone status response).mem = s.mem := rfl
@[simp] theorem State.writeComparator_mem (part o : Nat) (v : Word) : (s.writeComparator part o v).mem = s.mem := rfl

@[simp] theorem State.idle_mem : s.idle.mem = s.mem := by
  unfold State.idle
  split <;> simp

end frame

end Sys2Proof.Machine
end

section
namespace Sys2Proof.Machine

/-! ### The one form -/

/-- Memory in its one form: `Memory.wf` under a name that simplification does not take apart. -/
def Memory.Canonical (m : Memory) : Prop := m.wf

theorem Memory.Canonical.write {m : Memory} (h : m.Canonical) (k : Nat) (bs : List Byte) : (m.write k bs).Canonical :=
  Memory.wf_write h k bs

theorem Memory.Canonical.filter {m : Memory} (h : m.Canonical) (p : Host.Cell → Bool) : Memory.Canonical (m.filter p) :=
  Memory.wf_filter h p

/-- A fold of steps that each keep memory's form keeps it. -/
theorem State.foldl_canonical {α : Type} {f : State → α → State} {l : List α} {s : State} (hs : s.mem.Canonical)
    (h : ∀ s a, s.mem.Canonical → (f s a).mem.Canonical) : (l.foldl f s).mem.Canonical :=
  List.foldlRecOn (motive := fun t => t.mem.Canonical) l f hs fun t ht a _ => h t a ht

theorem State.ite_mem {c : Prop} [Decidable c] {a b : State} {m : Memory} (ha : a.mem = m) (hb : b.mem = m) :
    (if c then a else b).mem = m := by
  split <;> assumption

theorem State.ite_canonical {c : Prop} [Decidable c] {a b : State} (ha : a.mem.Canonical) (hb : b.mem.Canonical) :
    (if c then a else b).mem.Canonical := by
  split <;> assumption

theorem State.getD_canonical {s : State} {o : Option State} (h : s.mem.Canonical) (ho : ∀ t, o = some t → t.mem.Canonical) :
    (o.getD s).mem.Canonical := by
  cases o with
  | none => exact h
  | some t => exact ho t rfl

/-! ### What an operation that may stop gives

The rules below that have a hypothesis on a state's memory are often met after a frame rule of memory, which holds by `rfl`;
`simp -implicitDefEqProofs` writes those rules into the proof, so that the hypothesis is found for the state as the goal names it. -/

/-- What an operation gives, where it does not stop, satisfies `P`. -/
structure Gives {ε α : Type} (P : α → Prop) (x : Except ε α) : Prop where
  of_ok : ∀ a, x = .ok a → P a

section gives
variable {ε α β : Type} {P Q : α → Prop} {R : β → Prop}

theorem gives_of_forall {x : Except ε α} (h : ∀ a, P a) : Gives P x := ⟨fun a _ => h a⟩

theorem Gives.mono {x : Except ε α} (hx : Gives Q x) (h : ∀ a, Q a → P a) : Gives P x := ⟨fun a ha => h a (hx.of_ok a ha)⟩

@[simp] theorem gives_ok (a : α) : Gives P (.ok a : Except ε α) ↔ P a :=
  ⟨fun h => h.of_ok a rfl, fun h => ⟨fun b hb => by cases hb; exact h⟩⟩

@[simp] theorem gives_pure (a : α) : Gives P (pure a : Except ε α) ↔ P a := gives_ok a

@[simp] theorem gives_error (e : ε) : Gives P (.error e : Except ε α) := ⟨fun _ h => nomatch h⟩

@[simp] theorem gives_raise (cause sub : Nat) (lanes : LaneMask) (data : Word) : Gives P (raise cause sub lanes data : Except Stop α) :=
  gives_error _

@[simp] theorem gives_true (x : Except ε α) : Gives (fun _ => True) x := gives_of_forall fun _ => trivial

@[simp] theorem gives_bind (x : Except ε β) (f : β → Except ε α) : Gives P (x >>= f) ↔ Gives (fun b => Gives P (f b)) x := by
  cases x with
  | ok b => exact (gives_ok (P := fun b => Gives P (f b)) b).symm
  | error e => exact iff_of_true (gives_error e) (gives_error e)

@[simp] theorem gives_map (x : Except ε β) (f : β → α) : Gives P (f <$> x) ↔ Gives (fun b => P (f b)) x := by
  cases x with
  | ok b => exact (gives_ok (f b)).trans (gives_ok (P := fun b => P (f b)) b).symm
  | error e => exact iff_of_true (gives_error e) (gives_error e)

@[simp] theorem gives_ite (c : Prop) [Decidable c] (x y : Except ε α) :
    Gives P (if c then x else y) ↔ (c → Gives P x) ∧ (¬c → Gives P y) := by
  split <;> simp [*]

theorem Gives.bind {x : Except ε β} {f : β → Except ε α} (hx : Gives R x) (h : ∀ b, R b → Gives P (f b)) : Gives P (x >>= f) :=
  (gives_bind x f).2 (hx.mono h)

/-- A body whose first part gives no state. -/
theorem gives_bind_of_forall {x : Except ε β} {f : β → Except ε α} (h : ∀ b, Gives P (f b)) : Gives P (x >>= f) :=
  (gives_bind x f).2 (gives_of_forall h)

/-- A body that goes on after a check that may stop it. -/
theorem gives_after_check {c : Prop} [Decidable c] {x : Except ε PUnit} {f : PUnit → Except ε α} (h : Gives P (f ())) :
    Gives P (if c then x >>= f else f ()) := by
  split
  · exact gives_bind_of_forall fun _ => h
  · exact h

/-- Two ways to the same rest of a body. -/
theorem Gives.bindIf {c : Prop} [Decidable c] {x y : Except ε β} {f : β → Except ε α} (hx : Gives R x) (hy : Gives R y)
    (h : ∀ b, R b → Gives P (f b)) : Gives P (if c then x >>= f else y >>= f) := by
  split
  · exact hx.bind h
  · exact hy.bind h

end gives

/-! ### Performed writes, the undo log and trace records -/

section writers
variable {s : State} (h : s.mem.Canonical)
include h

omit h in
theorem State.putPiece_mem (p : Piece) (bs : List Byte) : (s.putPiece p bs).mem = s.mem.write p.key bs := by
  rw [State.putPiece_eq]

@[simp] theorem State.putPiece_canonical (p : Piece) (bs : List Byte) : (s.putPiece p bs).mem.Canonical := by
  rw [State.putPiece_mem]
  exact h.write _ _

@[simp] theorem State.writePiece_canonical (p : Piece) (bs : List Byte) : (s.writePiece p bs).mem.Canonical := by
  rw [State.writePiece_mem]
  exact h.write _ _

@[simp] theorem State.writePieces_canonical (ws : List (Piece × List Byte)) : (s.writePieces ws).mem.Canonical :=
  State.writePieces_wf s ws h

omit h in
@[simp] theorem State.performAt_mem (a : Agent) (cores : CoreMask) (p : Piece) (bs : List Byte) (t : Option Store) :
    (s.performAt a cores p bs t).mem = s.mem.write p.key bs := by
  unfold State.performAt
  extract_lets reached s1 clock s2
  have h2 : s2.mem = s.mem := (State.shown_mem ..).trans (State.nextClock_mem ..)
  refine State.ite_mem ?_ ?_
  · rw [State.writePiece_mem, h2]
  · rw [← h2]
    exact s2.putPiece_mem p bs

@[simp] theorem State.performAt_canonical (a : Agent) (cores : CoreMask) (p : Piece) (bs : List Byte) (t : Option Store) :
    (s.performAt a cores p bs t).mem.Canonical := by
  rw [State.performAt_mem]
  exact h.write _ _

@[simp] theorem State.writePlain_canonical (e : Env) (a : Nat) (bs : List Byte) :
    Gives (fun t => t.mem.Canonical) (s.writePlain e a bs) := by
  simp [State.writePlain, h]

@[simp] theorem State.logLine_canonical (part cls : Nat) (p : Piece) : (s.logLine part cls p).mem.Canonical := by
  unfold State.logLine
  extract_lets line old u
  refine State.ite_canonical h ?_
  split
  · exact h
  · split
    · exact State.ite_canonical h h
    · extract_lets at' entry s1 cycle
      have written : s1.mem.Canonical := by
        unfold s1
        split
        · refine State.ite_canonical ?_ h
          split
          · exact (State.writePlain_canonical h ..).of_ok _ ‹_›
          · exact h
        · exact h
      exact written

@[simp] theorem State.track_canonical (bid : Nat) (ps : List Piece) : (s.track bid ps).mem.Canonical := by
  unfold State.track
  dsimp only
  split
  · exact h
  · exact State.foldl_canonical h fun s p hs => State.logLine_canonical hs _ _ p

@[simp] theorem State.writeFor_canonical (bid : Nat) (e : Env) (a : Nat) (bs : List Byte) :
    Gives (fun t => t.mem.Canonical) (s.writeFor bid e a bs) := by
  simp [State.writeFor, h]

theorem State.repair_canonical {t : State} {part sector : Nat} (ht : s.repair part sector = some t) : t.mem.Canonical := by
  unfold State.repair at ht
  split at ht
  · cases ht
  · split at ht
    · cases ht; exact h
    · split at ht <;> cases ht
      exact State.writePiece_canonical h _ _

omit h in
theorem State.repairs_canonical (part : Nat) (sectors : List Nat) {s t : State} (h : s.mem.Canonical)
    (ht : sectors.foldlM (fun (s : State) k => s.repair part k) s = some t) : t.mem.Canonical := by
  induction sectors generalizing s with
  | nil => cases ht; exact h
  | cons k r ih =>
    obtain ⟨u, hu, ht⟩ := Option.bind_eq_some_iff.1 ht
    exact ih (State.repair_canonical h hu) ht

theorem State.rollsBack_canonical {t : State} {part cls cause sub : Nat} {sectors : List Nat}
    (ht : s.rollsBack part cls cause sub sectors = some t) : t.mem.Canonical := by
  have rolled : ∀ {bit u}, s.rollsWith part cls bit = some u → u.mem.Canonical := fun hu => State.rollsWith_mem hu ▸ h
  unfold State.rollsBack at ht
  split at ht
  · obtain ⟨u, hu, ht⟩ := Option.bind_eq_some_iff.1 ht
    exact State.repairs_canonical part sectors (rolled hu) ht
  · split at ht
    · exact rolled ht
    · split at ht
      · exact rolled ht
      · cases ht

@[simp] theorem State.putTrace_canonical (part : Nat) (bs : List Byte) : (s.putTrace part bs).mem.Canonical := by
  unfold State.putTrace
  split
  · exact h
  · dsimp only
    rw [State.setPart_mem]
    split
    · exact (State.writePlain_canonical h ..).of_ok _ ‹_›
    · exact h

@[simp] theorem State.trace_canonical (part kind wid pidx payload : Nat) : (s.trace part kind wid pidx payload).mem.Canonical := by
  unfold State.trace
  (repeat' split) <;> simp [h]

/-! ### The store queue -/

@[simp] theorem State.writeOrSend_canonical (a : Agent) (core block launch part seq : Nat) (mask : BitVec 7)
    (ws : List (Piece × List Byte)) : (s.writeOrSend a core block launch part seq mask ws).mem.Canonical :=
  State.foldl_canonical h fun s w hs =>
    State.ite_canonical (by simpa using hs) (State.performAt_canonical hs ..)

@[simp] theorem State.performStore_canonical (t : Store) (cores : CoreMask) : (s.performStore t cores).mem.Canonical := by
  have landed : ((s.track t.block [t.piece])).mem.Canonical := State.track_canonical h ..
  unfold State.performStore
  extract_lets core s1 s2 s3 s4
  have h2 : s2.mem.Canonical := by unfold s2; split <;> exact landed
  split
  · simpa using h2
  · have h3 : s3.mem.Canonical := State.performAt_canonical h2 ..
    have h4 : s4.mem.Canonical := by unfold s4; split <;> exact h3
    split <;> exact h4

@[simp] theorem State.landOwn_canonical (wid bid : Nat) (ps : List Piece) : (s.landOwn wid bid ps).mem.Canonical :=
  State.foldl_canonical h fun s t hs => by
    split
    · refine State.performStore_canonical ?_ t _
      exact hs
    · exact hs

@[simp] theorem State.writeOwn_canonical (wid bid : Nat) (e : Env) (a : Nat) (bs : List Byte) :
    Gives (fun t => t.mem.Canonical) (s.writeOwn wid bid e a bs) := by
  simp only [State.writeOwn, gives_bind, gives_pure]
  exact gives_of_forall fun ps =>
    State.writePieces_canonical (State.track_canonical (State.landOwn_canonical h ..) ..) _

/-! ### Taking a trap -/

@[simp] theorem State.markHalted_canonical (wid pidx part : Nat) (t : Trap) : (s.markHalted wid pidx part t).mem.Canonical := by
  simp -implicitDefEqProofs [State.markHalted, h]

@[simp] theorem State.haltInHandler_canonical (wid pidx : Nat) (e : Env) (w : Warp) (t : Trap) :
    (s.haltInHandler wid pidx e w t).mem.Canonical := by
  unfold State.haltInHandler
  refine State.markHalted_canonical ?_ ..
  split
  · exact (State.writeOwn_canonical h ..).of_ok _ ‹_›
  · exact h

@[simp] theorem State.takeTrap_canonical (wid pidx : Nat) (t : Trap) (u : Unit') : (s.takeTrap wid pidx t u).mem.Canonical := by
  unfold State.takeTrap
  extract_lets reissued s'
  have hs : s'.mem.Canonical := by unfold s'; split <;> exact h
  split
  · exact hs
  · next w _ =>
    extract_lets b e t' traced pt fa w1
    have traced_canonical : traced.mem.Canonical := State.trace_canonical hs ..
    split
    · exact State.rollsBack_canonical hs ‹_›
    · split
      · exact State.haltInHandler_canonical traced_canonical ..
      · split
        · exact State.haltInHandler_canonical traced_canonical ..
        · next s1 hw =>
          have written : s1.mem.Canonical := (State.writeOwn_canonical traced_canonical ..).of_ok _ hw
          extract_lets noted
          split
          · refine State.haltInHandler_canonical ?_ ..
            exact written
          · exact written

@[simp] theorem State.answeredTrap_canonical (c : Ctx) (t : Trap) : (s.answeredTrap c t).mem.Canonical := by
  simp -implicitDefEqProofs [State.answeredTrap, h]

@[simp] theorem State.hold_canonical (wid pidx part payload : Nat) : (s.hold wid pidx part payload).mem.Canonical := by
  simp -implicitDefEqProofs [State.hold, h]

@[simp] theorem State.countHit_canonical (part wid pidx payload k : Nat) : (s.countHit part wid pidx payload k).mem.Canonical := by
  simp -implicitDefEqProofs [State.countHit, h]

@[simp] theorem State.matched_canonical (c : Ctx) (hits : List Nat) (sub level : Nat) (lanes : LaneMask) (data : Nat → Nat) :
    (s.matched c hits sub level lanes data).mem.Canonical := by
  unfold State.matched
  extract_lets s' comps action
  have hs : s'.mem.Canonical := State.foldl_canonical h fun s k hs => State.countHit_canonical hs ..
  (repeat' split) <;> simp -implicitDefEqProofs [hs]

end writers

end Sys2Proof.Machine
end

section
namespace Sys2Proof.Machine

/-! ### Stopping a stream -/

section streams
variable {s : State} (h : s.mem.Canonical)
include h

@[simp] theorem State.stopStream_canonical (bid cause sub : Nat) (data : Word) (f : MFault) (sectors : List Nat) :
    (s.stopStream bid cause sub data f sectors).mem.Canonical := by
  unfold State.stopStream
  split
  · exact h
  · extract_lets freed
    have hf : freed.mem.Canonical := by simpa [freed] using h
    split
    · exact State.rollsBack_canonical hf ‹_›
    · exact hf

@[simp] theorem State.stopHere_canonical (c : SCtx) (cause sub : Nat) (sectors : List Nat) :
    (s.stopHere c cause sub sectors).mem.Canonical := State.stopStream_canonical h ..

@[simp] theorem State.stopPc_canonical (c : SCtx) (f : PcFault) : (s.stopPc c f).mem.Canonical := State.stopHere_canonical h ..

@[simp] theorem State.streamRefuses_canonical (bid : Nat) : (s.streamRefuses bid).mem.Canonical := by
  unfold State.streamRefuses
  split
  · exact State.stopHere_canonical h ..
  · exact h

@[simp] theorem State.streamNext_canonical (bid : Nat) (pre : Option (Nat × BitVec 32)) (g : Guard) :
    (s.streamNext bid pre g).mem.Canonical := by
  unfold State.streamNext
  split
  · exact State.ite_canonical (by simpa using h) (State.stopHere_canonical h ..)
  · exact h

@[simp] theorem State.streamPrefix_canonical (bid sel : Nat) (payload : BitVec 32) : (s.streamPrefix bid sel payload).mem.Canonical := by
  unfold State.streamPrefix
  split
  · refine State.ite_canonical (State.stopHere_canonical h ..) ?_
    split
    · exact State.stopHere_canonical h ..
    · exact h
  · exact h

end streams

/-! ### What running an instruction answers -/

/-- An answer is a next state, whose memory has its form where the state's had it. -/
def Answers (s : State) (a : Answer) : Prop := ∃ t, a = .next t ∧ (s.mem.Canonical → t.mem.Canonical)

section answers
variable {s : State}

theorem answers_next {t : State} (h : s.mem.Canonical → t.mem.Canonical) : Answers s (.next t) := ⟨t, rfl, h⟩

@[simp] theorem answers_self : Answers s (.next s) := answers_next id

theorem answers_ite {c : Prop} [Decidable c] {a b : Answer} (ha : Answers s a) (hb : Answers s b) : Answers s (if c then a else b) := by
  split <;> assumption

/-- An instruction of the issuing path answers, when what its body gives has memory's form. -/
theorem run_answers {body : Ctx → Except Stop State} (hb : s.mem.Canonical → ∀ c, Gives (fun t => t.mem.Canonical) (body c)) :
    Answers s (s.run body) := by
  unfold State.run State.issue
  split
  · split
    · exact answers_self
    · split
      · exact answers_next fun h => (hb h _).of_ok _ ‹_›
      · exact answers_next fun h => h
      · exact answers_next fun h => State.takeTrap_canonical h ..
      · exact answers_next fun h => State.matched_canonical h ..
  · exact answers_next fun h => State.streamRefuses_canonical h _
  · exact answers_self

end answers

/-! ### The stacks of a warp -/

section spills
variable {s : State}

@[simp] theorem State.writeStack_canonical (h : s.mem.Canonical) (wid bid : Nat) (e : Env) (lanes : LaneMask) (a : Nat)
    (bs : List Byte) : Gives (fun t => t.mem.Canonical) (s.writeStack wid bid e lanes a bs) := by
  unfold State.writeStack
  split
  · exact (gives_ok _).2 ((State.writeOwn_canonical h ..).of_ok _ ‹_›)
  · simp

variable {x : Held} (hx : x.1.mem.Canonical) (e : Env) (lanes : LaneMask)
include hx

@[simp] theorem spillOldest_canonical : Gives (fun y : Held => y.1.mem.Canonical) (spillOldest e lanes x) := by
  simp -implicitDefEqProofs [spillOldest, exhausted, hx]

@[simp] theorem spillUntil_canonical (width n fuel : Nat) :
    Gives (fun y : Held => y.1.mem.Canonical) (spillUntil e lanes width n fuel x) := by
  induction fuel generalizing x with
  | zero => simpa [spillUntil] using hx
  | succ fuel ih =>
    unfold spillUntil
    split
    · simpa using hx
    · exact (spillOldest_canonical hx e lanes).bind fun y hy => ih hy

@[simp] theorem fillNewest_canonical (f : Nat) : Gives (fun y : Held => y.1.mem.Canonical) (fillNewest e lanes f x) := by
  simp -implicitDefEqProofs [fillNewest, hx]

@[simp] theorem pushRet_canonical (r : RetEntry) : Gives (fun y : Held => y.1.mem.Canonical) (pushRet e lanes r x) := by
  simp -implicitDefEqProofs [pushRet, exhausted, hx]

@[simp] theorem popRet_canonical (id : Nat) (rejoin : Word) : Gives (fun y => y.2.1.mem.Canonical) (popRet e lanes id rejoin x) := by
  unfold popRet
  dsimp only
  split
  · simp [hx]
  · simp -implicitDefEqProofs [hx]

@[simp] theorem makeJoinRoom_canonical : Gives (fun y : Held => y.1.mem.Canonical) (makeJoinRoom e lanes x) := by
  unfold makeJoinRoom
  dsimp only
  split
  · simpa using hx
  · split
    · simpa using hx
    · simp -implicitDefEqProofs [hx]

@[simp] theorem openJoin_canonical (j : JoinEntry) : Gives (fun y => y.2.1.mem.Canonical) (openJoin e lanes j x) := by
  simp -implicitDefEqProofs [openJoin, exhausted, hx]

@[simp] theorem getJoin_canonical (id : Nat) : Gives (fun y => y.2.1.mem.Canonical) (getJoin e lanes id x) := by
  unfold getJoin
  dsimp only
  split
  · simpa using hx
  · refine gives_bind_of_forall fun bs => ?_
    split
    · simp
    · simp -implicitDefEqProofs [hx]

@[simp] theorem popCall_canonical (id : Nat) (rejoin : Word) : Gives (fun y : Held => y.1.mem.Canonical) (popCall e lanes id rejoin x) := by
  refine (popRet_canonical hx e lanes id rejoin).bind fun y hy => ?_
  simp -implicitDefEqProofs [hy]

@[simp] theorem settle_canonical (fuel id : Nat) : Gives (fun m => m.s.mem.Canonical) (settle e lanes fuel id x) := by
  induction fuel generalizing id x with
  | zero => simpa [settle] using hx
  | succ fuel ih =>
    refine (getJoin_canonical hx e lanes id).bind fun y hy => ?_
    obtain ⟨j, u, w⟩ := y
    have popped : Gives (fun z : Held => z.1.mem.Canonical) (popCall e lanes id j.rejoin (u, w)) :=
      popCall_canonical (by exact hy) e lanes id _
    dsimp -zeta only
    split
    · simpa using hy
    · extract_lets pc goOn
      refine popped.bindIf (by simpa using hy) fun z hz => ?_
      refine gives_bind_of_forall fun _ => (getJoin_canonical (by exact hz) e lanes _).bind fun v hv => ?_
      split
      · exact ih (by exact hv) _
      · simpa using hv
    · split
      · simpa using hy
      · extract_lets goOn
        exact popped.bindIf (by simpa using hy) fun z hz =>
          (getJoin_canonical (by exact hz) e lanes _).bind fun v hv => ih (by exact hv) _
    · simpa using hy

@[simp] theorem arrive_canonical (pidx id : Nat) : Gives (fun m => m.s.mem.Canonical) (arrive e lanes pidx id x) :=
  (getJoin_canonical hx e lanes id).bind fun _ hy => settle_canonical (by exact hy) e lanes _ id

@[simp] theorem leave_canonical (pidx : Nat) : Gives (fun m => m.s.mem.Canonical) (leave e lanes pidx x) :=
  (getJoin_canonical (by exact hx) e lanes _).bind fun _ hy => settle_canonical (by exact hy) e lanes _ _

end spills
end Sys2Proof.Machine
end

section
/-! Memory's one form and next states, operation by operation, in the model's order: `_canonical` says that a named operation keeps the
form, `_answers` that an instruction or event gives a next state and keeps it. The cases a lemma splits are the branches of the definition
it speaks of. -/
namespace Sys2Proof.Machine

/-! ### Control instructions -/

@[simp] theorem State.returnFromTrap_canonical {s : State} (h : s.mem.Canonical) (c : Ctx) :
    Gives (fun t => t.mem.Canonical) (s.returnFromTrap c) := by
  unfold State.returnFromTrap
  extract_lets lanes live fa goOn
  refine gives_after_check ?_
  dsimp only [goOn]
  split
  · simp
  · simp [h]

theorem execNop_answers (g : Guard) (s : State) : Answers s (execNop g s) := by
  unfold execNop
  split
  · exact answers_next fun h => State.streamNext_canonical h ..
  · exact run_answers fun h c => by simpa using h

@[simp] theorem splitPath_canonical {s : State} (h : s.mem.Canonical) (c : Ctx) (t : LaneMask) (target : Word) :
    Gives (fun t => t.mem.Canonical) (splitPath s c t target) := by
  unfold splitPath
  split
  · simp [noEntry]
  · exact (getJoin_canonical (by exact h) ..).bind fun y hy => by simpa using hy

theorem execBr_answers (g : Guard) (o : Int) (s : State) : Answers s (execBr g o s) := run_answers fun h c => by simp [h]

theorem execBre_answers (sense : Bool) (flag a : Nat) (o : Int) (s : State) : Answers s (execBre sense flag a o s) :=
  run_answers fun h c => by simp [h]

theorem execMark_answers (o : Int) (s : State) : Answers s (execMark o s) := run_answers fun h c => by simp [h]

theorem execJoin_answers (s : State) : Answers s (execJoin s) :=
  run_answers fun h c => (getJoin_canonical (by exact h) ..).bind fun y hy => by
    simp only [gives_bind, gives_ite, gives_pure, gives_raise, implies_true, true_and]
    exact fun _ => (arrive_canonical (by exact hy) ..).mono fun m hm => by simpa using hm

theorem enterCall_canonical {x : Held} (hx : x.1.mem.Canonical) (c : Ctx) (lanes : LaneMask) (f : Nat) (target ret : Word) :
    Gives (fun y : Held => y.1.mem.Canonical) (enterCall c lanes f target ret x) :=
  (openJoin_canonical hx ..).bind fun y hy => (pushRet_canonical (by exact hy) ..).bind fun z hz =>
    (spillUntil_canonical (by exact hz) ..).bind fun u hu => by simpa using hu

theorem execCall_answers (f : Nat) (o : Int) (s : State) : Answers s (execCall f o s) :=
  run_answers fun h c => by
    have entered (target : Word) : Gives (fun y : Held => y.1.mem.Canonical) (enterCall c c.p.mask f target c.nextPc (s, c.w)) :=
      enterCall_canonical (by exact h) ..
    simp [entered]

@[simp] theorem openCallx_canonical {x : Held} (hx : x.1.mem.Canonical) (c : Ctx) (t : LaneMask) (i : Option Nat) :
    Gives (fun y => y.2.1.mem.Canonical) (openCallx c t i x) :=
  (openJoin_canonical hx ..).bind fun y hy => by simpa using hy

theorem callGroup_canonical {x : Held} (hx : x.1.mem.Canonical) (s : State) (c : Ctx) (id f : Nat) (target : Word)
    (grp rest : LaneMask) (i : Option Nat) :
    Gives (fun y : Held => y.1.mem.Canonical) (callGroup s c id f target grp rest i x) := by
  have entered (w : Warp) : Gives (fun y : Held => y.1.mem.Canonical) (enterCall c grp f target c.nextPc (x.1, w)) :=
    enterCall_canonical (by exact hx) ..
  simp [callGroup, entered]

theorem execCallx_answers (g : Guard) (f v : Nat) (s : State) : Answers s (execCallx g f v s) :=
  run_answers fun h c => (getJoin_canonical (by exact h) ..).bind fun y hy => by
    obtain ⟨j, s1, w1⟩ := y
    dsimp -zeta only
    extract_lets remainder t values target u grp rest free goOn
    refine (gives_ite ..).2 ⟨fun _ => by simpa using h, fun _ => gives_after_check ?_⟩
    refine gives_bind_of_forall fun i => gives_bind_of_forall fun k => ?_
    extract_lets call
    refine Gives.bindIf (R := fun x => x.2.1.mem.Canonical) (by simpa using hy) (openCallx_canonical (by exact hy) ..) fun x hx => ?_
    dsimp only [call]
    split
    · next s2 w2 hg =>
      have called : s2.mem.Canonical := (callGroup_canonical (by exact hx) ..).of_ok _ hg
      simpa using called
    · exact (gives_pure _).2 (State.takeTrap_canonical (by exact hx) ..)
    · exact gives_error _

theorem execRet_answers (s : State) : Answers s (execRet s) :=
  run_answers fun h c => by
    refine (gives_ite ..).2 ⟨fun _ => by simp, fun _ => (getJoin_canonical (by exact h) ..).bind fun y hy => ?_⟩
    simp only [gives_bind, gives_ite, gives_pure, gives_raise, implies_true, true_and]
    exact fun _ => (arrive_canonical (by exact hy) ..).mono fun m hm => by simpa using hm

theorem execJmpx_answers (r : Nat) (s : State) : Answers s (execJmpx r s) := run_answers fun h c => by simp [h]
theorem execGrow_answers (v : Src) (s : State) : Answers s (execGrow v s) := run_answers fun h c => by simp [h]
theorem execShrink_answers (v : Src) (s : State) : Answers s (execShrink v s) := run_answers fun h c => by simp [h]
theorem execYield_answers (g : Guard) (s : State) : Answers s (execYield g s) := run_answers fun h c => by simp [h]

theorem execExit_answers (g : Guard) (s : State) : Answers s (execExit g s) :=
  run_answers fun h c => by
    refine (gives_ite ..).2 ⟨fun _ => by simpa using h, fun _ => ?_⟩
    refine (gives_ite ..).2 ⟨fun _ => by simpa using h, fun _ => (leave_canonical (by exact h) ..).bind fun m hm => ?_⟩
    split
    · simp
    · simpa using hm

theorem execTrap_answers (g : Guard) (n : Int) (s : State) : Answers s (execTrap g n s) := run_answers fun h c => by simp [h]

theorem execEret_answers (s : State) : Answers s (execEret s) :=
  run_answers fun h c => State.returnFromTrap_canonical h c

theorem execXimm_answers (sel : Nat) (payload : BitVec 32) (s : State) : Answers s (execXimm sel payload s) := by
  unfold execXimm
  split
  · exact answers_next fun h => State.streamPrefix_canonical h ..
  · refine run_answers fun h c => ?_
    split
    · simp
    · split
      · simp
      · exact (gives_ok _).2 h

theorem execUnassignedOpcode_answers (w : IWord) (s : State) : Answers s (execUnassignedOpcode w s) := by
  unfold execUnassignedOpcode
  split
  · exact answers_next fun h => State.streamRefuses_canonical h _
  · exact run_answers fun h c => gives_raise ..

/-! ### Choices recorded and replayed -/

@[simp] theorem State.putEntry_canonical {s : State} (h : s.mem.Canonical) (part w0 w1 : Nat) : (s.putEntry part w0 w1).mem.Canonical := by
  unfold State.putEntry
  split
  · exact h
  · extract_lets a t
    have ht : t.mem.Canonical := by
      unfold t
      split
      · exact (State.writePlain_canonical h ..).of_ok _ ‹_›
      · exact h
    exact ht

@[simp] theorem State.logChoice_canonical {s : State} (h : s.mem.Canonical) (part lid bid : Nat) (counted : Bool) (kind : Nat)
    (site : Option Nat) (warp linear : Nat) (key value : Nat) :
    (s.logChoice part lid bid counted kind site warp linear key value).mem.Canonical := by
  unfold State.logChoice
  split <;> simp [h]

@[simp] theorem chooseValue_canonical {s : State} (h : s.mem.Canonical) (c : Ctx) (lanes : LaneMask) (kind value : Nat) :
    Gives (fun y => y.1.mem.Canonical) (chooseValue s c lanes kind value) := by
  unfold chooseValue
  extract_lets key
  split
  · simpa using h
  · simp -implicitDefEqProofs [h]
  · split
    · simp [replayEmpty]
    · simp [h]
  · simp

/-! ### Operands and shadow issue -/

@[simp] theorem srCount_canonical {s : State} (h : s.mem.Canonical) (c : Ctx) (lanes : LaneMask) (mode : RMode) :
    Gives (fun y => y.1.mem.Canonical) (srCount s c lanes mode) := by
  simp [srCount, h]

@[simp] theorem shadowCompare_canonical {s : State} (h : s.mem.Canonical) (c : Ctx) (lanes : LaneMask) :
    Gives (fun t => t.mem.Canonical) (shadowCompare s c lanes) := by
  simp [shadowCompare, h]

/-! ### Vector and scalar integers -/

theorem laneWise_answers (s : State) (o : Alu) (df fa fb fc : Fmt) (mode : RMode)
    (f : Ctx → Nat → Nat → Word → Word → Word → Word × BitVec 5) : Answers s (laneWise s o df fa fb fc mode f) :=
  run_answers fun h c => gives_bind_of_forall fun _ => (srCount_canonical h ..).bind fun y hy =>
    (shadowCompare_canonical hy ..).bind fun t ht => by simpa using ht

theorem laneValues_answers (s : State) (o : Alu) (df fa : Fmt) (fb fc : Fmt) (f : Word → Word → Word → Word) :
    Answers s (laneValues s o df fa fb fc f) :=
  run_answers fun h c => by simp [h]

theorem intVec_answers (s : State) (o : Alu) (reduce : Nat → Int → Nat) (op : Nat → Int → Int → Int → Int) :
    Answers s (intVec s o reduce op) :=
  run_answers fun h c => by simp [h]

theorem bitVec_answers (s : State) (o : Alu) (op : Nat → Nat → Nat → Nat → Nat) : Answers s (bitVec s o op) :=
  run_answers fun h c => by simp [h]

theorem execIadd_answers (o : Alu) (s : State) : Answers s (execIadd o s) := intVec_answers ..
theorem execIsub_answers (o : Alu) (s : State) : Answers s (execIsub o s) := intVec_answers ..
theorem execImul_answers (o : Alu) (s : State) : Answers s (execImul o s) := intVec_answers ..
theorem execImad_answers (o : Alu) (s : State) : Answers s (execImad o s) := intVec_answers ..
theorem execImulh_answers (o : Alu) (s : State) : Answers s (execImulh o s) := intVec_answers ..
theorem execIadds_answers (o : Alu) (s : State) : Answers s (execIadds o s) := intVec_answers ..
theorem execIsubs_answers (o : Alu) (s : State) : Answers s (execIsubs o s) := intVec_answers ..
theorem execImin_answers (o : Alu) (s : State) : Answers s (execImin o s) := intVec_answers ..
theorem execImax_answers (o : Alu) (s : State) : Answers s (execImax o s) := intVec_answers ..
theorem execIabs_answers (o : Alu) (s : State) : Answers s (execIabs o s) := intVec_answers ..
theorem execIneg_answers (o : Alu) (s : State) : Answers s (execIneg o s) := intVec_answers ..
theorem execIabsd_answers (o : Alu) (s : State) : Answers s (execIabsd o s) := intVec_answers ..
theorem execIcmp_answers (cond : Cond) (o : Alu) (s : State) : Answers s (execIcmp cond o s) := run_answers fun h c => by simp [h]
theorem execIsel_answers (o : Alu) (s : State) : Answers s (execIsel o s) := run_answers fun h c => by simp [h]

theorem logicVec_answers (s : State) (o : Alu) (f : Word → Word → Word → Word) : Answers s (logicVec s o f) :=
  run_answers fun h c => by simp [h]

theorem execAnd_answers (o : Alu) (s : State) : Answers s (execAnd o s) := logicVec_answers ..
theorem execOr_answers (o : Alu) (s : State) : Answers s (execOr o s) := logicVec_answers ..
theorem execXor_answers (o : Alu) (s : State) : Answers s (execXor o s) := logicVec_answers ..
theorem execAndn_answers (o : Alu) (s : State) : Answers s (execAndn o s) := logicVec_answers ..
theorem execOrn_answers (o : Alu) (s : State) : Answers s (execOrn o s) := logicVec_answers ..
theorem execXnor_answers (o : Alu) (s : State) : Answers s (execXnor o s) := logicVec_answers ..
theorem execNot_answers (o : Alu) (s : State) : Answers s (execNot o s) := logicVec_answers ..
theorem execImov_answers (o : Alu) (s : State) : Answers s (execImov o s) := logicVec_answers ..
theorem execLut3_answers (t : BitVec 8) (o : Alu) (s : State) : Answers s (execLut3 t o s) := logicVec_answers ..
theorem execShl_answers (o : Alu) (s : State) : Answers s (execShl o s) := bitVec_answers ..
theorem execShr_answers (o : Alu) (s : State) : Answers s (execShr o s) := bitVec_answers ..
theorem execSar_answers (o : Alu) (s : State) : Answers s (execSar o s) := bitVec_answers ..
theorem execIrot_answers (right : Bool) (o : Alu) (s : State) : Answers s (execIrot right o s) := bitVec_answers ..
theorem execPopc_answers (o : Alu) (s : State) : Answers s (execPopc o s) := bitVec_answers ..
theorem execClz_answers (o : Alu) (s : State) : Answers s (execClz o s) := bitVec_answers ..
theorem execCtz_answers (o : Alu) (s : State) : Answers s (execCtz o s) := bitVec_answers ..
theorem execBrev_answers (o : Alu) (s : State) : Answers s (execBrev o s) := bitVec_answers ..
theorem execBfx_answers (o : Alu) (s : State) : Answers s (execBfx o s) := bitVec_answers ..
theorem execBfi_answers (o : Alu) (s : State) : Answers s (execBfi o s) := bitVec_answers ..
theorem execIdot4_answers (o : Alu) (s : State) : Answers s (execIdot4 o s) := laneValues_answers ..

theorem execIcvt_answers (sat : ICvtSat) (sf : Fmt) (js jd : Nat) (o : Alu) (s : State) : Answers s (execIcvt sat sf js jd o s) :=
  run_answers fun h c => by simp [h]

theorem vmovxRead_answers (o : Alu) (base : Nat) (s : State) : Answers s (vmovxRead o base s) := run_answers fun h c => by simp [h]
theorem vmovxWrite_answers (o : Alu) (s : State) : Answers s (vmovxWrite o s) := run_answers fun h c => by simp [h]

theorem execVmovx_answers (write : Bool) (o : Alu) (s : State) : Answers s (execVmovx write o s) :=
  answers_ite (vmovxWrite_answers ..) (vmovxRead_answers ..)

theorem scalarOp_answers (s : State) (o : Alu) (f : Word → Word → Word → Word) : Answers s (scalarOp s o f) :=
  run_answers fun h c => by simp [h]

theorem scalarInt_answers (s : State) (o : Alu) (op : Int → Int → Int → Int) : Answers s (scalarInt s o op) :=
  run_answers fun h c => by simp [h]

theorem scalarBits_answers (s : State) (o : Alu) (op : Nat → Nat → Nat → Nat → Nat) : Answers s (scalarBits s o op) :=
  run_answers fun h c => by simp [h]

theorem execSadd_answers (o : Alu) (s : State) : Answers s (execSadd o s) := scalarInt_answers ..
theorem execSsub_answers (o : Alu) (s : State) : Answers s (execSsub o s) := scalarInt_answers ..
theorem execSmul_answers (o : Alu) (s : State) : Answers s (execSmul o s) := scalarInt_answers ..
theorem execSmulh_answers (o : Alu) (s : State) : Answers s (execSmulh o s) := scalarInt_answers ..
theorem execSmad_answers (o : Alu) (s : State) : Answers s (execSmad o s) := scalarInt_answers ..
theorem execSand_answers (o : Alu) (s : State) : Answers s (execSand o s) := scalarBits_answers ..
theorem execSor_answers (o : Alu) (s : State) : Answers s (execSor o s) := scalarBits_answers ..
theorem execSxor_answers (o : Alu) (s : State) : Answers s (execSxor o s) := scalarBits_answers ..
theorem execSandn_answers (o : Alu) (s : State) : Answers s (execSandn o s) := scalarBits_answers ..
theorem execSshl_answers (o : Alu) (s : State) : Answers s (execSshl o s) := scalarBits_answers ..
theorem execSshr_answers (o : Alu) (s : State) : Answers s (execSshr o s) := scalarBits_answers ..
theorem execSsar_answers (o : Alu) (s : State) : Answers s (execSsar o s) := scalarBits_answers ..
theorem execSrot_answers (o : Alu) (s : State) : Answers s (execSrot o s) := scalarBits_answers ..
theorem execSmov_answers (o : Alu) (s : State) : Answers s (execSmov o s) := scalarBits_answers ..
theorem execSsel_answers (o : Alu) (s : State) : Answers s (execSsel o s) := scalarBits_answers ..
theorem execSpopc_answers (o : Alu) (s : State) : Answers s (execSpopc o s) := scalarBits_answers ..
theorem execSclz_answers (o : Alu) (s : State) : Answers s (execSclz o s) := scalarBits_answers ..
theorem execSctz_answers (o : Alu) (s : State) : Answers s (execSctz o s) := scalarBits_answers ..
theorem execSbrev_answers (o : Alu) (s : State) : Answers s (execSbrev o s) := scalarBits_answers ..
theorem execSdiv_answers (o : Alu) (s : State) : Answers s (execSdiv o s) := scalarInt_answers ..
theorem execSrem_answers (o : Alu) (s : State) : Answers s (execSrem o s) := scalarInt_answers ..
theorem execScmp_answers (cond : Cond) (o : Alu) (s : State) : Answers s (execScmp cond o s) := run_answers fun h c => by simp [h]

theorem execRdsys_answers (g : Guard) (d : Dst) (n : Nat) (s : State) : Answers s (execRdsys g d n s) :=
  run_answers fun h c => by simpa using h

theorem execWrsys_answers (g : Guard) (d : Dst) (a : Src) (s : State) : Answers s (execWrsys g d a s) :=
  run_answers fun h c => by simp [h]

/-! ### Address registers and streams -/

theorem addressOp_answers (s : State) (o : AddrOp) (f : Ctx → LaneMask → AReg → Word → Word → Except Stop AReg) :
    Answers s (addressOp s o f) :=
  run_answers fun h c => by simp [h]

theorem execAset_answers (sel : ASel) (o : AddrOp) (s : State) : Answers s (execAset sel o s) := addressOp_answers ..
theorem execAadv_answers (o : AddrOp) (s : State) : Answers s (execAadv o s) := addressOp_answers ..
theorem execAbind_answers (o : AddrOp) (s : State) : Answers s (execAbind o s) := addressOp_answers ..
theorem execAunbind_answers (o : AddrOp) (s : State) : Answers s (execAunbind o s) := addressOp_answers ..

theorem execAget_answers (sel : AGetSel) (o : AddrOp) (s : State) : Answers s (execAget sel o s) :=
  run_answers fun h c => by simpa using h

theorem execAtrn_answers (o : AddrOp) (s : State) : Answers s (execAtrn o s) := run_answers fun h c => by simp [h]

/-! ### Loads, stores and hints -/

@[simp] theorem issueLoad_canonical {s : State} (h : s.mem.Canonical) (c : Ctx) (o : Mem) (shape : LoadShape) (act : LaneMask)
    (xs : List (Nat × Nat × List Piece)) (stream : Option Nat) (reserve : Nat) :
    Gives (fun t => t.mem.Canonical) (issueLoad s c o shape act xs stream reserve) := by
  simp [issueLoad, h]

theorem execLd_answers (m : LaneMode) (o : Mem) (s : State) : Answers s (execLd m o s) := run_answers fun h c => by simp [h]
theorem execLds_answers (indexed : Bool) (o : Mem) (s : State) : Answers s (execLds indexed o s) := run_answers fun h c => by simp [h]

@[simp] theorem streamStuck_canonical {s : State} (h : s.mem.Canonical) (c : Ctx) (e : ReplayEntry) :
    Gives (fun t => t.mem.Canonical) (streamStuck s c e) := by
  simp -implicitDefEqProofs [streamStuck, h]

theorem choosePosition_canonical {s : State} (h : s.mem.Canonical) (c : Ctx) (lanes : LaneMask) (t : Stream) :
    Gives (fun r => ∀ u, r = .inr u → u.mem.Canonical) (choosePosition s c lanes t) := by
  unfold choosePosition
  split
  · simp
  · simp
  · split
    · simp [replayEmpty]
    · simp [h]
  · simp

theorem execSread_answers (vec : Bool) (o : Mem) (s : State) : Answers s (execSread vec o s) :=
  run_answers fun h c => gives_bind_of_forall fun _ => by
    extract_lets act a lanes whole xs goOn
    refine (gives_ite ..).2 ⟨fun _ => by simpa using h, fun _ => gives_after_check (gives_bind_of_forall fun _ => ?_)⟩
    split
    · simp
    · extract_lets checkWidth
      refine gives_after_check (gives_after_check (gives_bind_of_forall fun ys => gives_bind_of_forall fun _ => ?_))
      refine (choosePosition_canonical h ..).bind fun r hr => ?_
      split
      · exact (gives_pure _).2 (hr _ rfl)
      · exact issueLoad_canonical h ..

theorem execLda_answers (o : Mem) (s : State) : Answers s (execLda o s) := run_answers fun h c => by simp [h]

@[simp] theorem consumePosition_canonical {s : State} (h : s.mem.Canonical) (c : Ctx) (k : Nat) :
    (consumePosition s c k).1.mem.Canonical := by
  unfold consumePosition
  (repeat' split) <;> simp [h]

@[simp] theorem completeLoad_canonical {s : State} (h : s.mem.Canonical) (c : Ctx) (r : LoadReq) :
    (completeLoad s c r).mem.Canonical := by
  unfold completeLoad
  dsimp only
  (repeat' split) <;> simp -implicitDefEqProofs [h]

theorem execLoadDataReturn_answers (warp : Nat) (a : PathRead) (s : State) : Answers s (execLoadDataReturn warp a s) := by
  unfold execLoadDataReturn
  dsimp only
  (repeat' split) <;> exact answers_next fun h => by simp [h]

@[simp] theorem issueStore_canonical {s : State} (h : s.mem.Canonical) (c : Ctx) (o : Mem) (lanes : LaneMask) (whole : Bool) (xs : List
    (Nat × Nat × List Piece)) (data : Nat → List Byte) :
    Gives (fun t => t.mem.Canonical) (issueStore s c o lanes whole xs data) := by
  simp [issueStore, h]

theorem execSt_answers (m : LaneMode) (o : Mem) (s : State) : Answers s (execSt m o s) := run_answers fun h c => by simp [h]
theorem execSts_answers (indexed : Bool) (o : Mem) (s : State) : Answers s (execSts indexed o s) := run_answers fun h c => by simp [h]
theorem execSta_answers (o : Mem) (s : State) : Answers s (execSta o s) := run_answers fun h c => by simp [h]

theorem execStorePerformed_answers (a : StoreShow) (s : State) : Answers s (execStorePerformed a s) := by
  unfold execStorePerformed
  (repeat' split) <;> exact answers_next fun h => by simp [h]

theorem hint_answers (lane wr : Bool) (act : State → Nat → State) (o : Mem) (s : State) (ha : ∀ s l, (act s l).mem = s.mem) :
    Answers s (hint lane wr act o s) :=
  run_answers fun h c => gives_bind_of_forall fun _ => by
    simpa [State.foldl_mem ha] using h

theorem execPf_answers (lane : Bool) (o : Mem) (s : State) : Answers s (execPf lane o s) :=
  hint_answers _ _ _ _ _ fun s l => s.allocate_mem o.e.hint l

theorem execWback_answers (lane : Bool) (o : Mem) (s : State) : Answers s (execWback lane o s) :=
  hint_answers _ _ _ _ _ fun _ _ => rfl

theorem execInv_answers (lane : Bool) (o : Mem) (s : State) : Answers s (execInv lane o s) :=
  hint_answers _ _ _ _ _ fun _ _ => rfl

/-! ### Regions, atomics and the lockkeepers -/

@[simp] theorem State.orRegionFlags_canonical {s : State} (h : s.mem.Canonical) (bid : Nat) (r : Region) (fl : Nat) :
    (s.orRegionFlags bid r fl).mem.Canonical := by
  unfold State.orRegionFlags
  (repeat' split) <;> simp [h]

@[simp] theorem State.addCell_canonical {s : State} (h : s.mem.Canonical) (bid : Nat) (r : Region) (cell : Piece) (x : FVal) :
    (s.addCell bid r cell x).mem.Canonical := by
  refine State.orRegionFlags_canonical ?_ ..
  split
  · exact h
  · exact State.writePiece_canonical (State.track_canonical h ..) ..

theorem atomic_answers (op : AtomOp) (o : Mem) (s : State) : Answers s (atomic op o s) := run_answers fun h c => by simp [h]
theorem execAtadd_answers (o : Mem) (s : State) : Answers s (execAtadd o s) := atomic_answers ..
theorem execAtsub_answers (o : Mem) (s : State) : Answers s (execAtsub o s) := atomic_answers ..
theorem execAtmin_answers (o : Mem) (s : State) : Answers s (execAtmin o s) := atomic_answers ..
theorem execAtmax_answers (o : Mem) (s : State) : Answers s (execAtmax o s) := atomic_answers ..
theorem execAtminN_answers (o : Mem) (s : State) : Answers s (execAtminN o s) := atomic_answers ..
theorem execAtmaxN_answers (o : Mem) (s : State) : Answers s (execAtmaxN o s) := atomic_answers ..
theorem execAtand_answers (o : Mem) (s : State) : Answers s (execAtand o s) := atomic_answers ..
theorem execAtor_answers (o : Mem) (s : State) : Answers s (execAtor o s) := atomic_answers ..
theorem execAtxor_answers (o : Mem) (s : State) : Answers s (execAtxor o s) := atomic_answers ..
theorem execAtswp_answers (o : Mem) (s : State) : Answers s (execAtswp o s) := atomic_answers ..
theorem execAtinc_answers (o : Mem) (s : State) : Answers s (execAtinc o s) := atomic_answers ..
theorem execAtfadd_answers (o : Mem) (s : State) : Answers s (execAtfadd o s) := atomic_answers ..
theorem execAtfaddRgn_answers (o : Mem) (s : State) : Answers s (execAtfaddRgn o s) := atomic_answers ..
theorem execAcas_answers (o : Mem) (s : State) : Answers s (execAcas o s) := atomic_answers ..

@[simp] theorem applyLane_canonical {s : State} (h : s.mem.Canonical) (who : Agent) (bid : Nat) (e : Env) (r : AtomReq) (t : AtomLane) :
    (applyLane who bid e r s t).1.mem.Canonical := by
  unfold applyLane
  extract_lets bit old
  split
  · exact h
  · exact h
  · split
    · split
      · split
        · exact State.addCell_canonical h ..
        · exact h
      · exact h
      · exact h
    · exact State.performAt_canonical (State.track_canonical h ..) ..

@[simp] theorem applyLanes_canonical {s : State} (h : s.mem.Canonical) (who : Agent) (bid : Nat) (e : Env) (r : AtomReq)
    (ts : List AtomLane) : (applyLanes who bid e s r ts).1.mem.Canonical :=
  List.foldlRecOn (motive := fun x : State × AtomReq => x.1.mem.Canonical) ts _ h fun x hx t _ => applyLane_canonical hx who bid e x.2 t

@[simp] theorem logLanes_canonical {s : State} (h : s.mem.Canonical) (c : Ctx) (ts : List AtomLane) : (logLanes s c ts).mem.Canonical :=
  State.foldl_canonical h fun s x hs => by simp [hs]

@[simp] theorem executeRequest_canonical {s : State} (h : s.mem.Canonical) (c : Ctx) (r : AtomReq) (home : Nat) (ts : List AtomLane) :
    (executeRequest s c r home ts).mem.Canonical := by
  unfold executeRequest
  extract_lets turn who
  clear_value turn
  cases turn with
  | hold => exact h
  | diverge i l => simpa using h
  | go used =>
    dsimp -zeta only
    extract_lets consumed released logged
    have consumed_canonical : consumed.mem.Canonical := State.foldl_canonical h fun s e hs => by simpa using hs
    have released_canonical : released.mem.Canonical := State.ite_canonical (by simpa using consumed_canonical) consumed_canonical
    have applied := applyLanes_canonical (s := released.noteReads c.env.part (ts.map (·.piece))) (by simpa using released_canonical)
      who c.bid c.env r ts
    rw [State.requestDone_mem]
    exact State.ite_canonical (logLanes_canonical applied ..) applied

@[simp] theorem answerAtomic_canonical {s : State} (h : s.mem.Canonical) (c : Ctx) (r : AtomReq) :
    (answerAtomic s c r).mem.Canonical := by
  unfold answerAtomic
  dsimp only
  (repeat' split) <;> simp -implicitDefEqProofs [h]

theorem execAtomicResultReturn_answers (warp path : Nat) (s : State) : Answers s (execAtomicResultReturn warp path s) := by
  unfold execAtomicResultReturn
  (repeat' split) <;> exact answers_next fun h => by simp [h]

/-! ### The barges -/

theorem copyCommand_answers (op : CopyOp) (o : Copy) (s : State) : Answers s (copyCommand op o s) := run_answers fun h c => by
  dsimp only
  (repeat' split) <;> simp [h]

theorem execCpy_answers (o : Copy) (s : State) : Answers s (execCpy o s) := copyCommand_answers ..
theorem execCpys_answers (scatter : Bool) (o : Copy) (s : State) : Answers s (execCpys scatter o s) := copyCommand_answers ..
theorem execCpyadd_answers (o : Copy) (s : State) : Answers s (execCpyadd o s) := copyCommand_answers ..
theorem execCpybc_answers (o : Copy) (s : State) : Answers s (execCpybc o s) := copyCommand_answers ..
theorem execPlane_answers (rz : Bool) (o : Copy) (s : State) : Answers s (execPlane rz o s) := copyCommand_answers ..
theorem execUnplane_answers (rz : Bool) (o : Copy) (s : State) : Answers s (execUnplane rz o s) := copyCommand_answers ..
theorem execCpyfill_answers (o : Copy) (s : State) : Answers s (execCpyfill o s) := copyCommand_answers ..
theorem execCpyq_answers (g : Guard) (d : Dst) (q : Src) (s : State) : Answers s (execCpyq g d q s) := run_answers fun h c => by simp [h]

@[simp] theorem cancelOne_canonical {s : State} (h : s.mem.Canonical) (c : Ctx) (lanes : LaneMask) (x : CopyCmd) :
    Gives (fun t => t.mem.Canonical) (cancelOne s c lanes x) := by
  unfold cancelOne
  split
  · split
    · split
      · simp [replayEmpty]
      · simpa using h
    · simpa using fun _ => h
  · split <;> simpa using h

theorem cancelAll_canonical (c : Ctx) (lanes : LaneMask) (xs : List CopyCmd) {s : State} (h : s.mem.Canonical) :
    Gives (fun t => t.mem.Canonical) (xs.foldlM (fun s x => cancelOne s c lanes x) s) := by
  induction xs generalizing s with
  | nil => simpa using h
  | cons x r ih => exact (cancelOne_canonical h c lanes x).bind fun t ht => ih ht

theorem execCpycan_answers (g : Guard) (q : Src) (s : State) : Answers s (execCpycan g q s) :=
  run_answers fun h c => by
    have cancelled := fun xs => cancelAll_canonical c (c.real g) xs h
    simp [h, cancelled]

@[simp] theorem giveUp_canonical {s : State} (h : s.mem.Canonical) (x : CopyCtx) (lines : List (Nat × Nat)) :
    (giveUp s x lines).1.mem.Canonical := by
  refine List.foldlRecOn (motive := fun y : State × CopyCmd => y.1.mem.Canonical) lines _ h fun y hy l _ => ?_
  obtain ⟨t, c⟩ := y
  dsimp -zeta only
  extract_lets wrote chosen written
  have chosen_canonical : chosen.mem.Canonical := by
    refine State.ite_canonical ?_ hy
    split
    · exact State.logChoice_canonical hy ..
    · split
      · simpa using hy
      · exact hy
    · exact hy
  have written_canonical : written.mem.Canonical := State.ite_canonical chosen_canonical chosen_canonical
  simpa using written_canonical

@[simp] theorem endCopy_canonical {s : State} (h : s.mem.Canonical) (x : CopyCtx) (status : Nat) :
    (endCopy s x status).mem.Canonical := by
  unfold endCopy
  dsimp only
  (repeat' split) <;> simp [h]

@[simp] theorem writeRun_canonical {s : State} (h : s.mem.Canonical) (x : CopyCtx) (cores : CoreMask) (ps : List Piece) (bs : List Byte)
    (poison : Bool) : (writeRun s x cores ps bs poison).mem.Canonical := by
  refine State.foldl_canonical (State.track_canonical h ..) fun s w hs => ?_
  extract_lets a t
  have ht : t.mem.Canonical := State.ite_canonical (by simpa using hs) (State.performAt_canonical hs ..)
  exact State.ite_canonical (by simpa using ht) ht

@[simp] theorem addElements_canonical {s : State} (h : s.mem.Canonical) (x : CopyCtx) (f : Fmt) (r : Region) (es : List
    (List Piece × List Piece × Bool)) :
    (addElements s x f r es).mem.Canonical := State.foldl_canonical h fun s x hs => by
  (repeat' split) <;> simp [hs]

@[simp] theorem movedOn_canonical {s : State} (h : s.mem.Canonical) (x : CopyCtx) (u : CopyUnit) (keys : List Nat) (poison : Bool) :
    (movedOn s x u keys poison).mem.Canonical := by
  simp [movedOn, h]

@[simp] theorem moveUnit_canonical {s : State} (h : s.mem.Canonical) (x : CopyCtx) (cores : CoreMask) (y : Placing) :
    (moveUnit s x cores y).mem.Canonical := by
  unfold moveUnit
  extract_lets u ps keys
  split
  next t c hc =>
  have ht : t.mem.Canonical := by
    have held : (s.holdLines x.env x.cmd (u.writes.flatMap linesOf)).1.mem.Canonical := by simpa using h
    rwa [hc] at held
  extract_lets x' free turns verdicts bad poison translated noted data marks
  refine State.ite_canonical (by simpa using ht) (State.ite_canonical (by simpa using ht) ?_)
  have noted_canonical : noted.mem.Canonical := by simpa [noted, translated] using ht
  clear_value noted bad poison keys data
  split
  · exact ht
  · refine State.ite_canonical (by simpa using ht) ?_
    split
    · exact movedOn_canonical (addElements_canonical noted_canonical ..) ..
    · exact movedOn_canonical (State.foldl_canonical noted_canonical fun s w hs => writeRun_canonical hs ..) ..

@[simp] theorem endBefore_canonical {s : State} (h : s.mem.Canonical) (x : CopyCtx) (cores : CoreMask) (status : Nat) :
    (endBefore s x cores status).mem.Canonical := by
  unfold endBefore
  dsimp only
  (repeat' split) <;> simp [h]

@[simp] theorem stopCopy_canonical {s : State} (h : s.mem.Canonical) (x : CopyCtx) (cores : CoreMask) (w : CopyStop) :
    (stopCopy s x cores w).mem.Canonical := by
  unfold stopCopy
  split <;> simp [h]

@[simp] theorem readHeader_canonical {s : State} (h : s.mem.Canonical) (x : CopyCtx) (cores : CoreMask) :
    (readHeader s x cores).mem.Canonical := by
  unfold readHeader
  dsimp only
  (repeat' split) <;> simp [h]

@[simp] theorem stepCopy_canonical {s : State} (h : s.mem.Canonical) (x : CopyCtx) (cores : CoreMask) :
    (stepCopy s x cores).mem.Canonical := by
  unfold stepCopy
  dsimp only
  (repeat' split) <;> simp [h]

theorem execSectorMove_answers (block : Nat) (a : MoveShow) (s : State) : Answers s (execSectorMove block a s) := by
  unfold execSectorMove
  (repeat' split) <;> exact answers_next fun h => by simp [h]

theorem execCommandActive_answers (block seq : Nat) (s : State) : Answers s (execCommandActive block seq s) := by
  unfold execCommandActive
  split
  · exact answers_self
  · exact answers_ite answers_self (answers_next fun h => by simpa using h)

@[simp] theorem writeStamp_canonical {s : State} (h : s.mem.Canonical) (x : CopyCtx) : (writeStamp s x).mem.Canonical := by
  unfold writeStamp
  extract_lets a mask own
  split
  · refine State.ite_canonical h ?_
    extract_lets t
    have ht : t.mem.Canonical := by simpa [t] using h
    rw [endedCopy_mem]
    exact State.foldl_canonical ht fun s p hs => writeRun_canonical hs ..
  · simpa using h
  · simpa using h

theorem execCopyEnd_answers (block seq : Nat) (s : State) : Answers s (execCopyEnd block seq s) := by
  unfold execCopyEnd
  (repeat' split) <;> exact answers_next fun h => by simp [h]

@[simp] theorem refusedRequest_canonical {s : State} (h : s.mem.Canonical) (x : CopyCtx) (r : PageReq) (status : Nat) :
    (refusedRequest s x r status).mem.Canonical := by
  unfold refusedRequest
  split <;> simp [h]

theorem execPrgResponse_answers (block seq : Nat) (code : PrgCode) (s : State) : Answers s (execPrgResponse block seq code s) := by
  unfold execPrgResponse
  (repeat' split) <;> exact answers_next fun h => by simp [h]

theorem execPageRequestRetry_answers (block seq : Nat) (s : State) : Answers s (execPageRequestRetry block seq s) := by
  unfold execPageRequestRetry
  (repeat' split) <;> exact answers_next fun h => by simpa using h

theorem execPageRequestEnable_answers (s : State) : Answers s (execPageRequestEnable s) := answers_next id

/-! ### The scheduler, line fetch and the register pool -/

theorem execIssueSetRotation_answers (warp : Nat) (s : State) : Answers s (execIssueSetRotation warp s) := by
  unfold execIssueSetRotation
  split
  · exact answers_self
  · exact answers_next fun h => by simpa using h

theorem execIssueCycle_answers (core quarter : Nat) (s : State) : Answers s (execIssueCycle core quarter s) := by
  unfold execIssueCycle
  dsimp only
  (repeat' split) <;> exact answers_next fun h => by simpa using h

@[simp] theorem State.entryTrap_canonical {s : State} (h : s.mem.Canonical) (c : Ctx) (f : PcFault) :
    (s.entryTrap c f).mem.Canonical := by
  simp [State.entryTrap, h]

theorem execLineFetch_answers (warp path : Nat) (s : State) : Answers s (execLineFetch warp path s) := by
  unfold execLineFetch
  split
  · exact answers_self
  · next c _ =>
    refine answers_ite answers_self ?_
    have entered (h : s.mem.Canonical) : (s.enterLine c).1.mem.Canonical := by simpa using h
    split
    · next t he => exact answers_next fun h => by simpa [he] using entered h
    · next t f he => exact answers_next fun h => State.entryTrap_canonical (by simpa [he] using entered h) c f

theorem State.serveGrow_canonical {s t : State} (h : s.mem.Canonical) {q : Nat} {g : Nat × Nat × Nat} (ht : s.serveGrow q g = some t) :
    t.mem.Canonical := by
  unfold State.serveGrow at ht
  split at ht
  · split at ht
    · cases ht
    · split at ht
      · cases ht; exact State.answeredTrap_canonical h ..
      · split at ht <;> cases ht
        simpa using h
  · cases ht

@[simp] theorem State.serveGrows_canonical {s : State} (h : s.mem.Canonical) (q n : Nat) : (s.serveGrows q n).mem.Canonical := by
  induction n generalizing s with
  | zero => exact h
  | succ n ih =>
    unfold State.serveGrows
    split
    · next t ht =>
      obtain ⟨g, -, hg⟩ := List.exists_of_findSome?_eq_some ht
      exact ih (State.serveGrow_canonical h hg)
    · exact h

theorem execGranuleGrant_answers (core quarter : Nat) (s : State) : Answers s (execGranuleGrant core quarter s) := by
  unfold execGranuleGrant
  dsimp only
  (repeat' split) <;> exact answers_next fun h => by simp [h]

theorem execEvictedWarpReturn_answers (core quarter : Nat) (s : State) : Answers s (execEvictedWarpReturn core quarter s) :=
  answers_next fun h => by
    refine State.ite_canonical ?_ h
    cases hr : s.returnEvicted (4 * core + quarter) with
    | none => exact h
    | some t => exact State.returnEvicted_mem hr ▸ h

theorem execWarpEviction_answers (core quarter : Nat) (s : State) : Answers s (execWarpEviction core quarter s) := by
  unfold execWarpEviction
  dsimp only
  (repeat' split) <;> exact answers_next fun h => by simp -implicitDefEqProofs [h]

end Sys2Proof.Machine
end

section
namespace Sys2Proof.Machine

/-! ### The distributor -/

theorem execPlaceCluster_answers (part : Nat) (s : State) : Answers s (execPlaceCluster part s) := by
  unfold execPlaceCluster
  split
  · exact answers_self
  · next pt _ =>
    refine answers_ite answers_self ?_
    split
    · next t ht => exact answers_next fun h => State.placeReturning_mem ht ▸ h
    · refine answers_ite answers_self ?_
      split
      · next t ht => exact answers_next fun h => State.placeSystem_mem ht ▸ h
      · refine answers_next fun h => State.getD_canonical h fun t ht => ?_
        obtain ⟨x, -, hx⟩ := List.exists_of_findSome?_eq_some ht
        exact State.offer_mem hx ▸ h

theorem execClusterAgeThreshold_answers (launch : Nat) (s : State) : Answers s (execClusterAgeThreshold launch s) := by
  unfold execClusterAgeThreshold
  split
  · exact answers_ite answers_self (answers_next fun h => by simpa using h)
  · exact answers_self

/-! ### Blocks and launches end -/

@[simp] theorem State.completionStamp_canonical {s : State} (h : s.mem.Canonical) (lid : Nat) (l : Launch) (status : Nat) :
    (s.completionStamp lid l status).mem.Canonical := by
  unfold State.completionStamp
  extract_lets part
  refine State.ite_canonical h ?_
  split
  · next ps _ =>
    refine State.ite_canonical (by simpa using h) (State.writeOrSend_canonical ?_ ..)
    exact State.foldl_canonical (by simpa using h) fun s p hs => State.logLine_canonical hs ..
  · simpa using h

@[simp] theorem State.completePacket_canonical {s : State} (h : s.mem.Canonical) (lid : Nat) (l : Launch) (status : Nat) :
    (s.completePacket lid l status).mem.Canonical := by
  unfold State.completePacket
  split <;> simp [h]

theorem State.openRecord_canonical {s t : State} (h : s.mem.Canonical) {lid : Nat} {l : Launch} (ht : s.openRecord lid l = some t) :
    t.mem.Canonical := by
  unfold State.openRecord at ht
  extract_lets part started at ht
  split at ht
  · cases ht
  · split at ht
    · cases ht; exact h
    · split at ht
      · cases ht
      · split at ht
        · cases ht
        · next hw =>
          cases ht
          exact ((State.writePlain_canonical h ..).of_ok _ hw :)

@[simp] theorem State.closeRecord_canonical {s : State} (h : s.mem.Canonical) (lid : Nat) (l : Launch) (status : Nat)
    (digest : List Byte) (rerr rpois : Bool) : (s.closeRecord lid l status digest rerr rpois).mem.Canonical := by
  unfold State.closeRecord
  extract_lets part put
  split
  · extract_lets a
    have put_canonical (t : State) (a : Nat) (bs : List Byte) (ht : t.mem.Canonical) : (put t a bs).mem.Canonical := by
      unfold put
      split
      · exact (State.writePlain_canonical ht ..).of_ok _ ‹_›
      · exact ht
    exact put_canonical _ _ _ (put_canonical _ _ _ (put_canonical _ _ _ h))
  · exact h

theorem execBlockRetire_answers (block : Nat) (s : State) : Answers s (execBlockRetire block s) := by
  unfold execBlockRetire
  (repeat' split) <;> exact answers_next fun h => by simpa using h

@[simp] theorem State.completeLaunch_canonical {s : State} (h : s.mem.Canonical) (lid : Nat) (l : Launch) (status : Nat) :
    (s.completeLaunch lid l status).mem.Canonical := by
  simp [State.completeLaunch, h]

theorem execLaunchComplete_answers (launch : Nat) (s : State) : Answers s (execLaunchComplete launch s) := by
  unfold execLaunchComplete
  split
  · exact answers_self
  · exact answers_ite answers_self (answers_next fun h => by simp [h])

/-! ### Barriers, semaphores and waits -/

@[simp] theorem State.barrierTrap_canonical {s : State} (h : s.mem.Canonical) (c : Ctx) (k : Nat) (t : Trap) :
    (s.barrierTrap c k t).mem.Canonical := by
  unfold State.barrierTrap
  (repeat' split) <;> simp [h]

theorem State.runBarrier_answers {s : State} {k : Nat} {body : Ctx → Except Stop State}
    (hb : s.mem.Canonical → ∀ c, Gives (fun t => t.mem.Canonical) (body c)) : Answers s (s.runBarrier k body) :=
  run_answers fun h c => by
    split
    · exact (gives_ok _).2 (State.barrierTrap_canonical h ..)
    · exact hb h c

@[simp] theorem arriveHalf_canonical {s : State} (h : s.mem.Canonical) (c : Ctx) (g : Guard) (k count : Nat) (e : MExt) :
    Gives (fun t => t.mem.Canonical) (arriveHalf s c g k count e) := by
  unfold arriveHalf
  split <;> simp [h]

theorem execBara_answers (g : Guard) (b : Int) (n : Src) (e : MExt) (s : State) : Answers s (execBara g b n e s) :=
  State.runBarrier_answers fun h c => by simp [h]

theorem execBarw_answers (g : Guard) (b : Int) (e : MExt) (s : State) : Answers s (execBarw g b e s) :=
  State.runBarrier_answers fun h c => by simp [h]

theorem execBars_answers (g : Guard) (b : Int) (n : Src) (e : MExt) (s : State) : Answers s (execBars g b n e s) :=
  State.runBarrier_answers fun h c => by
    dsimp only
    split
    · split <;> simp [h]
    · simp [h]

theorem execFence_answers (g : Guard) (e : MExt) (s : State) : Answers s (execFence g e s) := run_answers fun h c => by simp [h]
theorem semaphore_answers (op : AtomOp) (o : Mem) (s : State) : Answers s (semaphore op o s) := run_answers fun h c => by simp [h]
theorem execSemwTk_answers (o : Mem) (s : State) : Answers s (execSemwTk o s) := semaphore_answers ..
theorem execSemwTake_answers (o : Mem) (s : State) : Answers s (execSemwTake o s) := semaphore_answers ..
theorem execSemp_answers (o : Mem) (s : State) : Answers s (execSemp o s) := semaphore_answers ..

theorem requestStep_canonical {s t : State} (h : s.mem.Canonical) {c : Ctx} {r : AtomReq} {home : Nat}
    (ht : requestStep s c r home = some t) : t.mem.Canonical := by
  unfold requestStep at ht
  extract_lets ts runs held at ht
  clear_value held
  split at ht
  · split at ht <;> cases ht
    simpa using h
  · split at ht
    · cases ht
    · split at ht
      · split at ht <;> cases ht
        simpa using h
      · split at ht
        · cases ht
        · split at ht <;> cases ht
          · simpa using h
          · exact executeRequest_canonical h ..

theorem execLockkeeperRequest_answers (warp path : Nat) (s : State) : Answers s (execLockkeeperRequest warp path s) := by
  unfold execLockkeeperRequest
  split
  · refine answers_ite answers_self (answers_next fun h => State.getD_canonical h fun t ht => ?_)
    obtain ⟨home, -, hx⟩ := List.exists_of_findSome?_eq_some ht
    exact requestStep_canonical h hx
  · exact answers_self

@[simp] theorem grantTake_canonical {s : State} (h : s.mem.Canonical) (c : Ctx) (r : AtomReq) (t : AtomLane) (v : Nat)
    (used : List ReplayEntry) : (grantTake s c r t v used).mem.Canonical := by
  unfold grantTake
  extract_lets who consumed released performed noted logged
  have consumed_canonical : consumed.mem.Canonical := State.foldl_canonical h fun s e hs => by simpa using hs
  have released_canonical : released.mem.Canonical := State.ite_canonical (by simpa using consumed_canonical) consumed_canonical
  have noted_canonical : noted.mem.Canonical := by
    have : performed.mem.Canonical := State.performAt_canonical (State.track_canonical released_canonical ..) ..
    simpa only [noted, State.leaveQueue_mem, State.noteWrite_mem] using this
  rw [endWait_mem]
  exact State.ite_canonical (State.logChoice_canonical noted_canonical ..) noted_canonical

@[simp] theorem evalWait_canonical {s : State} (h : s.mem.Canonical) (c : Ctx) (r : AtomReq) (take : Bool) (t : AtomLane) :
    (evalWait s c r take t).mem.Canonical := by
  unfold evalWait
  dsimp only
  (repeat' split) <;> simp -implicitDefEqProofs [h]

@[simp] theorem State.evalPeerWait_canonical {s : State} (h : s.mem.Canonical) (p : PeerWait) : (s.evalPeerWait p).mem.Canonical := by
  unfold State.evalPeerWait
  extract_lets at' v
  refine State.ite_canonical h (State.ite_canonical (by simpa using h) (State.ite_canonical h (State.ite_canonical ?_ (by simpa using h))))
  rw [State.answerPeer_mem]
  exact State.performAt_canonical h ..

theorem execSemaphoreWatchEval_answers (warp path : Nat) (s : State) : Answers s (execSemaphoreWatchEval warp path s) := by
  unfold execSemaphoreWatchEval
  (repeat' split) <;> exact answers_next fun h => by simp [h]

@[simp] theorem recordWait_canonical {s : State} (h : s.mem.Canonical) (c : Ctx) (limited : Bool) (entry : Option ReplayEntry)
    (met : Bool) :
    (recordWait s c limited entry met).mem.Canonical := by
  unfold recordWait
  (repeat' split) <;> simp [h]

@[simp] theorem monitorResult_canonical {s : State} (h : s.mem.Canonical) (c : Ctx) (r : MonitorReq) (met : Bool) :
    (monitorResult s c r met).1.mem.Canonical := by
  unfold monitorResult
  split <;> simp [h]

@[simp] theorem evalWord_canonical {s : State} (h : s.mem.Canonical) (c : Ctx) (r : MonitorReq) (ps : List Piece) :
    (evalWord s c r ps).1.mem.Canonical := by
  unfold evalWord
  dsimp only
  split <;> simpa using h

theorem execMwait_answers (k : WCond) (o : Mem) (s : State) : Answers s (execMwait k o s) :=
  run_answers fun h c => by
    refine gives_bind_of_forall fun _ => gives_bind_of_forall fun _ => ?_
    refine (gives_ite ..).2 ⟨fun _ => by simpa using h, fun _ => ?_⟩
    extract_lets lanes size a xs deadline
    iterate 6 refine gives_bind_of_forall fun _ => ?_
    extract_lets aim c' fenced ps
    refine gives_bind_of_forall fun _ => ?_
    dsimp -zeta only
    extract_lets r
    have fenced_canonical : fenced.mem.Canonical := by simpa [fenced] using h
    have seen := evalWord_canonical fenced_canonical c' r ps
    refine (gives_ite ..).2 ⟨fun _ => by simpa using fenced_canonical, fun _ => ?_⟩
    split
    · simp
    · next t met he =>
      have seen_canonical : t.mem.Canonical := by simpa [he] using seen
      refine (gives_ite ..).2 ⟨fun _ => ?_, fun _ => by simpa using seen_canonical⟩
      extract_lets out goOn
      exact gives_after_check (by simpa [goOn, out] using monitorResult_canonical seen_canonical ..)

@[simp] theorem endMonitor_canonical {s : State} (h : s.mem.Canonical) (c : Ctx) (r : MonitorReq) (met : Bool) :
    (endMonitor s c r met).mem.Canonical := by
  simp [endMonitor, h]

theorem execMwaitReread_answers (warp path : Nat) (s : State) : Answers s (execMwaitReread warp path s) := by
  unfold execMwaitReread
  split
  · next c r _ =>
    extract_lets out
    have out_canonical (t : State) (ht : t.mem.Canonical) (cause sub : Nat) : (out t cause sub).mem.Canonical :=
      State.answeredTrap_canonical ht ..
    split
    · exact answers_next fun h => out_canonical _ h ..
    · next ps _ =>
      have seen (h : s.mem.Canonical) := evalWord_canonical h c r ps
      refine answers_ite answers_self ?_
      split
      · next he => exact answers_next fun h => out_canonical _ (by simpa [he] using seen h) ..
      · next t met he =>
        exact answers_ite (answers_next fun h => endMonitor_canonical (by simpa [he] using seen h) ..)
          (answers_next fun h => by simpa [he] using seen h)
  · exact answers_self

theorem execMwaitTimeout_answers (warp path : Nat) (s : State) : Answers s (execMwaitTimeout warp path s) := by
  unfold execMwaitTimeout
  dsimp only
  (repeat' split) <;> exact answers_next fun h => by simp [h]

/-! ### Queues and launches -/

theorem State.onQueue_answers {s : State} (part q : Nat) {f : Partition → Queue → State}
    (hf : s.mem.Canonical → ∀ pt x, (f pt x).mem.Canonical) : Answers s (s.onQueue part q f) := by
  unfold State.onQueue
  split
  · exact answers_ite (answers_next fun h => hf h ..) answers_self
  · exact answers_self

theorem execQueueTail_answers (part q : Nat) (v : Word) (s : State) : Answers s (execQueueTail part q v s) :=
  State.onQueue_answers part q fun h pt x =>
    State.ite_canonical (by simpa using h) (State.ite_canonical (by simpa using h)
      (State.ite_canonical (by simpa using h) (by simpa using h)))

theorem execQueueCfg_answers (part q : Nat) (v : Word) (s : State) : Answers s (execQueueCfg part q v s) :=
  State.onQueue_answers part q fun h _ _ => State.ite_canonical (by simpa using h) (by simpa using h)

theorem execQueueBase_answers (part q : Nat) (v : Word) (s : State) : Answers s (execQueueBase part q v s) :=
  State.onQueue_answers part q fun h _ _ => State.ite_canonical (by simpa using h) (by simpa using h)

theorem execQueueErrctlClear_answers (part q : Nat) (v : Word) (s : State) : Answers s (execQueueErrctlClear part q v s) :=
  State.onQueue_answers part q fun h _ _ => State.ite_canonical (by simpa using h) h

theorem execQueueAbort_answers (part q : Nat) (v : Word) (s : State) : Answers s (execQueueAbort part q v s) :=
  State.onQueue_answers part q fun h pt x => by
    extract_lets n lid
    refine State.ite_canonical (by simpa using h) (State.ite_canonical (State.ite_canonical h (by simpa using h)) ?_)
    split
    · simpa using h
    · split
      · exact State.completePacket_canonical h ..
      · simpa using h

theorem State.readArguments_canonical {s t : State} (h : s.mem.Canonical) {part q a : Nat} (ht : s.readArguments part q a = .error t) :
    t.mem.Canonical := by
  unfold State.readArguments at ht
  split at ht
  · cases ht; exact h
  · split at ht
    · cases ht; exact h
    · split at ht <;> cases ht
      simpa using h

theorem copyArguments_canonical (part q n : Nat) {from' to' : Nat} {s : State} (h : s.mem.Canonical) :
    (copyArguments part q from' to' n s).1.mem.Canonical := by
  induction n generalizing from' to' s with
  | zero => exact h
  | succ n ih =>
    unfold copyArguments
    split
    · exact State.readArguments_canonical h ‹_›
    · split
      · exact h
      · exact ih ((State.writePlain_canonical h ..).of_ok _ ‹_›)

@[simp] theorem State.rejectPacket_canonical {s : State} (h : s.mem.Canonical) (part q seq : Nat) (l : Launch) (status : Nat) :
    (s.rejectPacket part q seq l status).mem.Canonical := by
  simp -implicitDefEqProofs [State.rejectPacket, h]

@[simp] theorem State.useTranslation_canonical {s : State} (h : s.mem.Canonical) (lid : Nat) (l : Launch) (t : Translated) :
    (s.useTranslation lid l t).mem.Canonical := by
  unfold State.useTranslation
  dsimp only
  split <;> simp [h]

@[simp] theorem State.holdPacket_canonical {s : State} (h : s.mem.Canonical) (part lid : Nat) (l : Launch) :
    (s.holdPacket part lid l).mem.Canonical := by
  unfold State.holdPacket
  dsimp only
  (repeat' split) <;> simp -implicitDefEqProofs [h]

@[simp] theorem State.acceptHead_canonical {s : State} (h : s.mem.Canonical) (part : Nat) (pt : Partition) (q : Nat) :
    (s.acceptHead part pt q).mem.Canonical := by
  unfold State.acceptHead
  extract_lets x seq lid bytes words l status asked accepted
  have accepted_canonical : accepted.mem.Canonical := by simpa [accepted] using h
  refine State.ite_canonical (by simpa using accepted_canonical) ?_
  refine State.ite_canonical (State.rejectPacket_canonical accepted_canonical ..) ?_
  have copied : (if l.kind = 0 then (accepted, true)
      else copyArguments part q (l.word 8).toNat (argPlace pt.argArea lid) (l.argSize / 16) accepted).1.mem.Canonical := by
    split
    · exact accepted_canonical
    · exact copyArguments_canonical part q _ accepted_canonical
  split
  next u ok hu =>
  rw [hu] at copied
  exact State.ite_canonical (State.rejectPacket_canonical copied ..)
    (State.ite_canonical (State.completePacket_canonical copied ..) (State.holdPacket_canonical copied ..))

theorem execAcceptPacket_answers (part : Nat) (s : State) : Answers s (execAcceptPacket part s) := by
  unfold execAcceptPacket
  (repeat' split) <;> exact answers_next fun h => by simp [h]

theorem execAsderTranslationDone_answers (launch : Nat) (r : Option Translated) (s : State) :
    Answers s (execAsderTranslationDone launch r s) := by
  unfold execAsderTranslationDone
  extract_lets part
  split
  · extract_lets key fails
    have failed : Answers s (.next fails) := answers_next fun h => State.completePacket_canonical h ..
    refine answers_ite answers_self ?_
    split
    · refine answers_ite failed (answers_ite answers_self ?_)
      split
      · exact failed
      · next u hu => exact answers_next fun h => State.useTranslation_canonical (by simpa [State.cacheCode_mem hu] using h) ..
    · exact failed
  · exact answers_self

@[simp] theorem State.openLaunch_canonical {s : State} (h : s.mem.Canonical) (lid : Nat) (l : Launch) :
    (s.openLaunch lid l).mem.Canonical := by
  unfold State.openLaunch
  extract_lets part ready
  refine State.ite_canonical ?_ ?_
  · split
    · exact h
    · refine State.ite_canonical h ?_
      split
      · exact h
      · next u hu => exact (State.putEntry_canonical (State.openRecord_canonical h hu) .. :)
  · split
    · exact h
    · next u hu => exact (State.openRecord_canonical h hu :)

theorem execPacketReady_answers (launch : Nat) (s : State) : Answers s (execPacketReady launch s) := by
  unfold execPacketReady
  dsimp only
  (repeat' split) <;> exact answers_next fun h => by simp [h]

theorem execLaunch_answers (d : Dst) (a : Nat) (q : Src) (e : MExt) (s : State) : Answers s (execLaunch d a q e s) :=
  run_answers fun h c => by
    extract_lets g lanes ar xs qn part x published full view result goOn
    have published_canonical : published.mem.Canonical := by simpa [published] using h
    refine gives_after_check ?_
    unfold goOn
    refine gives_bind_of_forall fun _ => gives_bind_of_forall fun _ => ?_
    extract_lets ea pieces noted w r issue room park
    have noted_canonical : noted.mem.Canonical := by simpa [noted] using published_canonical
    refine gives_after_check ?_
    unfold park
    refine gives_bind_of_forall fun _ => gives_after_check ?_
    unfold room
    refine gives_after_check ?_
    unfold issue
    refine gives_bind_of_forall fun used => ?_
    extract_lets write finish
    refine gives_after_check ?_
    unfold finish
    split
    · simp
    · have write_canonical (t : State) (ht : t.mem.Canonical) : Gives (fun t => t.mem.Canonical) (write t) := by
        unfold write
        extract_lets consumed logged
        have consumed_canonical : consumed.mem.Canonical := by
          unfold consumed
          split
          · simpa using ht
          · exact ht
        have logged_canonical : logged.mem.Canonical :=
          State.ite_canonical (State.logChoice_canonical consumed_canonical ..) consumed_canonical
        simpa using logged_canonical
      refine (gives_ite ..).2 ⟨fun _ => write_canonical _ noted_canonical, fun _ => ?_⟩
      split
      · simp
      · next t ht =>
        have written : t.mem.Canonical := (State.writeFor_canonical noted_canonical ..).of_ok _ ht
        exact write_canonical _ (by simpa using written)

/-! ### Matrix streams and the engine -/

theorem State.runStream_answers {s : State} {live : SCtx → State} {walk : SCtx → Walk → State}
    (hl : s.mem.Canonical → ∀ c, (live c).mem.Canonical) (hw : s.mem.Canonical → ∀ c w, (walk c w).mem.Canonical) :
    Answers s (s.runStream live walk) := by
  unfold State.runStream
  split
  · split
    · exact answers_next id
    · split
      · exact answers_next fun h => hw h ..
      · exact answers_next fun h => hl h _
  · exact run_answers fun _ _ => gives_raise ..

@[simp] theorem State.heldAt_canonical {s : State} (h : s.mem.Canonical) (c : SCtx) (x2 : Held') : (s.heldAt c x2).mem.Canonical := by
  unfold State.heldAt
  split <;> simp [h]

@[simp] theorem startMma_canonical {s : State} (h : s.mem.Canonical) (c : SCtx) (ds : List Int) (x : Except Held' MWork) :
    (startMma s c ds x).mem.Canonical := by
  unfold startMma
  split <;> simp [h]

theorem execMma_answers (walk acc : Nat) (da db ks : Int) (nk : Nat) (s : State) : Answers s (execMma walk acc da db ks nk s) :=
  State.runStream_answers
    (fun h c => State.ite_canonical (by simpa using h) (startMma_canonical h ..))
    (fun h c w => State.ite_canonical (by simpa using h)
      (State.ite_canonical (by simpa using h) (startMma_canonical h ..)))

theorem execMzero_answers (acc : Nat) (s : State) : Answers s (execMzero acc s) :=
  State.runStream_answers
    (fun h c => State.ite_canonical (by simpa using h) (by simpa using h))
    (fun h c w => State.ite_canonical (by simpa using h)
      (State.ite_canonical (by simpa using h) (by simpa using h)))

@[simp] theorem drainFails_canonical {s : State} (h : s.mem.Canonical) (c : SCtx) (acc row : Nat) :
    (drainFails s c acc row).mem.Canonical := by
  unfold drainFails
  (repeat' split) <;> simp [h]

@[simp] theorem storeTile_canonical {s : State} (h : s.mem.Canonical) (c : SCtx) (f : Fmt) (acc obase pitch : Nat) :
    (storeTile s c f acc obase pitch).mem.Canonical := by
  unfold storeTile
  split
  · exact State.heldAt_canonical h ..
  · extract_lets ps stored
    refine State.ite_canonical (by simpa using h) ?_
    have stored_canonical : stored.mem.Canonical :=
      State.foldl_canonical (State.track_canonical (by simpa using h) ..) fun s w hs => State.performAt_canonical hs ..
    simpa using stored_canonical

theorem execMstore_answers (f : Fmt) (acc : Nat) (od : Int) (s : State) : Answers s (execMstore f acc od s) :=
  State.runStream_answers
    (fun h c => by
      extract_lets check
      have check_canonical (t : State) (ht : t.mem.Canonical) (o : Nat × Nat) : (check t o).mem.Canonical := by
        unfold check
        split
        · exact drainFails_canonical (by simpa using ht) ..
        · exact storeTile_canonical ht ..
      refine State.ite_canonical (by simpa using h) ?_
      split
      · exact storeTile_canonical h ..
      · exact check_canonical _ h _
      · split
        · exact State.heldAt_canonical h ..
        · exact check_canonical _ (by simpa using h) _)
    (fun h c w => by simpa using h)

theorem execMsig_answers (b : Int) (s : State) : Answers s (execMsig b s) :=
  State.runStream_answers
    (fun h c => State.ite_canonical (State.stopStream_canonical (by simpa using h) ..) (by simpa using h))
    (fun h c w => by simpa using h)

theorem execMwaitb_answers (b : Int) (s : State) : Answers s (execMwaitb b s) :=
  State.runStream_answers
    (fun h c => State.ite_canonical (by simpa using h) (by simpa using h))
    (fun h c w => by simpa using h)

@[simp] theorem streamLoop_canonical {s : State} (h : s.mem.Canonical) (k : Nat) (count o : Int) (c : SCtx) :
    (streamLoop s k count o c).mem.Canonical := by
  unfold streamLoop
  dsimp only
  (repeat' split) <;> simp [h]

theorem execMloop_answers (k : Nat) (count o : Int) (s : State) : Answers s (execMloop k count o s) :=
  State.runStream_answers (fun h _ => streamLoop_canonical h ..) (fun h _ _ => streamLoop_canonical h ..)

theorem execMend_answers (s : State) : Answers s (execMend s) :=
  State.runStream_answers (fun h c => by simpa using h) (fun h c w => by simpa using h)

theorem execFork_answers (g : Guard) (s : State) : Answers s (execFork g s) := run_answers fun h c => by simp [h]

theorem execMrd_answers (g : Guard) (d : Dst) (n : Nat) (s : State) : Answers s (execMrd g d n s) :=
  run_answers fun h c => by simpa using h

@[simp] theorem writeMatrix_canonical {s : State} (h : s.mem.Canonical) (c : Ctx) (g : Guard) (n : Nat) (v : Word) :
    Gives (fun t => t.mem.Canonical) (writeMatrix s c g n v) := by
  unfold writeMatrix
  split <;> simp [h]

theorem execMwr_answers (g : Guard) (n : Nat) (x : Src) (s : State) : Answers s (execMwr g n x s) := run_answers fun h c => by simp [h]
theorem execMtol_answers (g : Guard) (f : Fmt) (x : Src) (s : State) : Answers s (execMtol g f x s) := run_answers fun h c => by simp [h]
theorem execMstat_answers (g : Guard) (d : Dst) (s : State) : Answers s (execMstat g d s) := run_answers fun h c => by simpa using h

theorem execMstatClr_answers (g : Guard) (d : Dst) (s : State) : Answers s (execMstatClr g d s) := run_answers fun h c => by
  split <;> simpa using h

theorem execMchk_answers (g : Guard) (f : Fmt) (d : Dst) (acc : Nat) (s : State) : Answers s (execMchk g f d acc s) :=
  run_answers fun h c => by simp [h]

theorem execMloc_answers (g : Guard) (d : Dst) (s : State) : Answers s (execMloc g d s) := run_answers fun h c => by simpa using h

@[simp] theorem promoteInterval_canonical {s : State} (h : s.mem.Canonical) (c : SCtx) (w : MWork) :
    (promoteInterval s c w).mem.Canonical := by
  unfold promoteInterval
  (repeat' split) <;> simp [h]

@[simp] theorem stopInterval_canonical {s : State} (h : s.mem.Canonical) (c : SCtx) (w : MWork) (x : Checked) (cause sub tries : Nat) :
    (stopInterval s c w x cause sub tries).mem.Canonical := by
  simp -implicitDefEqProofs [stopInterval, h]

@[simp] theorem correctInterval_canonical {s : State} (h : s.mem.Canonical) (c : SCtx) (w : MWork) (i j : Nat) (d : Int) :
    (correctInterval s c w i j d).mem.Canonical := by
  simp -implicitDefEqProofs [correctInterval, h]

@[simp] theorem endInterval_canonical {s : State} (h : s.mem.Canonical) (c : SCtx) (w : MWork) : (endInterval s c w).mem.Canonical := by
  unfold endInterval
  dsimp only
  (repeat' split) <;> simp [h]

theorem onFault_answers (g : Guard) (x : Src) {s : State} {body : Ctx → SCtx → Option State}
    (hb : s.mem.Canonical → ∀ c sc t, body c sc = some t → t.mem.Canonical) : Answers s (onFault g x s body) :=
  run_answers fun h c => gives_bind_of_forall fun _ => by
    refine (gives_ite ..).2 ⟨fun _ => by simpa using h, fun _ => ?_⟩
    split
    · simp
    · refine gives_after_check ?_
      split
      · next t ht => simpa using hb h _ _ t ht
      · simp

theorem execMfix_answers (g : Guard) (x : Src) (s : State) : Answers s (execMfix g x s) :=
  onFault_answers g x fun h c sc t ht => by
    split at ht
    · extract_lets f at ht
      split at ht <;> cases ht
      exact correctInterval_canonical (by simpa using h) ..
    · cases ht

theorem execMretry_answers (g : Guard) (s : State) : Answers s (execMretry g s) :=
  onFault_answers g .zero fun h c sc t ht => by
    extract_lets f u drained at ht
    split at ht
    · obtain ⟨w, -, rfl⟩ := Option.map_eq_some_iff.1 ht
      simpa [u] using h
    · split at ht <;> cases ht
      simpa [drained, u] using h

theorem execMresume_answers (g : Guard) (s : State) : Answers s (execMresume g s) :=
  onFault_answers g .zero fun h c sc t ht => by
    extract_lets f u at ht
    split at ht
    · cases ht; exact h
    · split at ht <;> cases ht
      exact h

theorem execMresumeAbandon_answers (g : Guard) (s : State) : Answers s (execMresumeAbandon g s) :=
  onFault_answers g .zero fun h c sc t ht => by
    cases ht
    simpa using h

@[simp] theorem State.storeBank_canonical {s : State} (h : s.mem.Canonical) (ps : List Piece) : (s.storeBank ps).1.mem.Canonical :=
  State.foldl_canonical h fun s x hs => by simp [hs]

theorem State.takeBank_canonical {s t : State} (h : s.mem.Canonical) {core part bid : Nat} {b : Block}
    (ht : s.takeBank core part bid b = some t) : t.mem.Canonical := by
  unfold State.takeBank at ht
  extract_lets e into take goOn at ht
  split at ht
  · cases ht; simpa using h
  · have goOn_canonical (u : State) (hu : u.mem.Canonical) (ht : goOn u = some t) : t.mem.Canonical := by
      unfold goOn at ht
      split at ht
      · obtain ⟨v, hv, ht⟩ := Option.bind_eq_some_iff.1 ht
        cases ht
        simpa [State.fillBank_mem hv] using hu
      · cases ht
        simpa using hu
    split at ht
    · split at ht
      · exact goOn_canonical _ (by simpa using h) ht
      · split at ht
        · exact goOn_canonical _ (by simpa using h) ht
        · obtain ⟨v, hv, ht⟩ := Option.bind_eq_some_iff.1 ht
          obtain ⟨ps, -, rfl⟩ := Option.map_eq_some_iff.1 hv
          exact goOn_canonical _ (by simpa using State.storeBank_canonical h ps) ht
    · exact goOn_canonical _ h ht

theorem execArrayGrant_answers (core : Nat) (s : State) : Answers s (execArrayGrant core s) := by
  unfold execArrayGrant
  refine answers_ite answers_self ?_
  split
  · exact answers_self
  · split
    · exact answers_self
    · split
      · next t ht => exact answers_next fun h => (State.takeBank_canonical h ht :)
      · exact answers_next fun h => State.stopHere_canonical h ..

theorem execMmaKstep_answers (core : Nat) (upsets : List Upset) (s : State) : Answers s (execMmaKstep core upsets s) := by
  unfold execMmaKstep
  dsimp only
  (repeat' split) <;> exact answers_next fun h => by simp -implicitDefEqProofs [h]

theorem execIntervalRetryDone_answers (core : Nat) (s : State) : Answers s (execIntervalRetryDone core s) := by
  unfold execIntervalRetryDone
  (repeat' split) <;> exact answers_next fun h => by simp [h]

theorem execDrainRetryDone_answers (block : Nat) (s : State) : Answers s (execDrainRetryDone block s) := by
  unfold execDrainRetryDone
  (repeat' split) <;> exact answers_next fun h => by simpa using h

theorem execPromotionHoldEnd_answers (block tile : Nat) (s : State) : Answers s (execPromotionHoldEnd block tile s) :=
  answers_next fun h => by simpa using h

theorem execStreamFaultDelivery_answers (block : Nat) (s : State) : Answers s (execStreamFaultDelivery block s) := by
  unfold execStreamFaultDelivery
  dsimp only
  (repeat' split) <;> exact answers_next fun h => by simp [h]

/-! ### Contexts -/

@[simp] theorem State.landBytes_canonical {s : State} (h : s.mem.Canonical) (key : Nat) (bs : List Byte) :
    (s.landBytes key bs).mem.Canonical := by
  simp [State.landBytes, h]

@[simp] theorem State.landAll_canonical {s : State} (h : s.mem.Canonical) (part : Nat) : (s.landAll part).mem.Canonical := by
  unfold State.landAll
  split
  · exact h
  · extract_lets landed keys
    have landed_canonical : landed.mem.Canonical := State.foldl_canonical h fun s l hs => State.landBytes_canonical hs ..
    exact State.foldl_canonical landed_canonical fun s k hs => by simpa using hs

theorem Memory.writes_canonical {m : Memory} (h : m.Canonical) (cs : List (Nat × Byte)) :
    (cs.foldl (fun m c => Memory.write m c.1 [c.2]) m).Canonical :=
  List.foldlRecOn (motive := Memory.Canonical) cs _ h fun _ hm _ _ => hm.write ..

@[simp] theorem State.storeSlices_canonical {s : State} (h : s.mem.Canonical) (part area : Nat) (img : CtxImage) :
    (s.storeSlices part area img).mem.Canonical := by
  unfold State.storeSlices
  extract_lets runs back inside t
  have ht : t.mem.Canonical := Memory.writes_canonical (h.filter _) _
  exact State.foldl_canonical ht fun s k hs => by simpa using hs

@[simp] theorem State.storeImage_canonical {s : State} (h : s.mem.Canonical) (part area : Nat) (img : CtxImage) :
    (s.storeImage part area img).mem.Canonical := by
  unfold State.storeImage
  extract_lets d
  split
  · next t key hw hk => 
    have drawn : d.2.mem.Canonical := h
    exact (State.storeSlices_canonical ((State.writePlain_canonical drawn ..).of_ok _ hw) .. :)
  · exact h

@[simp] theorem State.clearSlices_canonical {s : State} (h : s.mem.Canonical) (cores : List Nat) :
    (s.clearSlices cores).mem.Canonical := h.filter _

@[simp] theorem State.bringLine_canonical {s : State} (h : s.mem.Canonical) (part : Nat) (img : CtxImage) (moving : Bool) (line : Nat) :
    (s.bringLine part img moving line).mem.Canonical := by
  unfold State.bringLine
  extract_lets bs key
  exact State.ite_canonical (by simpa using h) (h.write ..)

@[simp] theorem State.bringSlices_canonical {s : State} (h : s.mem.Canonical) (part : Nat) (img : CtxImage) (moving : Bool) :
    (s.bringSlices part img moving).mem.Canonical := by
  refine State.foldl_canonical (State.foldl_canonical (State.foldl_canonical h ?_) ?_) fun _ _ hs => hs
  · exact fun s l hs => State.bringLine_canonical hs ..
  · exact fun s k hs => by simpa using hs

@[simp] theorem State.restoreImage_canonical {s : State} (h : s.mem.Canonical) (part : Nat) (img : CtxImage) (area : Nat)
    (moving : Bool) :
    (s.restoreImage part img area moving).mem.Canonical := by
  unfold State.restoreImage
  split <;> simp -implicitDefEqProofs [h]

theorem State.onContext_answers {s : State} (part : Nat) (states : List Nat) {f : Partition → State}
    (hf : s.mem.Canonical → ∀ p, (f p).mem.Canonical) : Answers s (s.onContext part states f) := by
  unfold State.onContext
  split
  · exact answers_self
  · exact answers_ite answers_self (answers_next fun h => hf h _)

theorem execCtxPark_answers (part : Nat) (v : Word) (s : State) : Answers s (execCtxPark part v s) :=
  State.onContext_answers part [1] fun h _ => by simpa using h

theorem execCtxSave_answers (part : Nat) (v : Word) (s : State) : Answers s (execCtxSave part v s) :=
  State.onContext_answers part [1] fun h _ => by simpa using h

theorem execCtxSwitch_answers (part : Nat) (v : Word) (s : State) : Answers s (execCtxSwitch part v s) :=
  State.onContext_answers part [1] fun h _ => by simpa using h

theorem execCtxTerminate_answers (part : Nat) (v : Word) (s : State) : Answers s (execCtxTerminate part v s) :=
  State.onContext_answers part [1] fun h _ => by simpa using h

@[simp] theorem State.enterImage_canonical {s : State} (h : s.mem.Canonical) (part area : Nat) :
    (s.enterImage part area).mem.Canonical := by
  unfold State.enterImage
  dsimp only
  (repeat' split) <;> simp [h]

theorem execCtxRestore_answers (part : Nat) (v : Word) (s : State) : Answers s (execCtxRestore part v s) :=
  State.onContext_answers part [0, 3, 4, 6] fun h _ =>
    State.ite_canonical (by simpa using h) (State.enterImage_canonical h ..)

@[simp] theorem State.emptyCellar_canonical {s : State} (h : s.mem.Canonical) (part : Nat) : (s.emptyCellar part).mem.Canonical := by
  unfold State.emptyCellar
  split <;> simp [h]

@[simp] theorem State.parkContext_canonical {s : State} (h : s.mem.Canonical) (part : Nat) : (s.parkContext part).mem.Canonical := by
  unfold State.parkContext
  extract_lets landed
  have landed_canonical : landed.mem.Canonical := State.landAll_canonical (State.emptyCellar_canonical h _) _
  split
  · exact landed_canonical
  · exact (by simpa using State.storeSlices_canonical landed_canonical ..)

@[simp] theorem State.unparkContext_canonical {s : State} (h : s.mem.Canonical) (part area : Nat) (img : CtxImage) :
    (s.unparkContext part area img).mem.Canonical := by
  simp [State.unparkContext, h]

@[simp] theorem State.endLaunches_canonical {s : State} (h : s.mem.Canonical) (part : Nat) :
    (s.endLaunches part).mem.Canonical := State.foldl_canonical h fun s x hs => by
  (repeat' split) <;> simp [hs]

@[simp] theorem State.afterStop_canonical {s : State} (h : s.mem.Canonical) (part : Nat) (w : CtxWork) :
    (s.afterStop part w).mem.Canonical := by
  unfold State.afterStop
  extract_lets shown flushed timed landed area saved
  have flushed_canonical : flushed.mem.Canonical :=
    State.foldl_canonical (by simpa [shown] using h) fun s b hs => State.ite_canonical (by simpa using hs) hs
  have timed_canonical : timed.mem.Canonical := by simpa [timed] using flushed_canonical
  have landed_canonical : landed.mem.Canonical := State.landAll_canonical timed_canonical _
  split
  · have saved_canonical : saved.mem.Canonical := by
      unfold saved
      split
      · exact State.storeImage_canonical landed_canonical ..
      · exact landed_canonical
    simpa using saved_canonical
  · simpa using State.endLaunches_canonical timed_canonical part
  · simpa using timed_canonical

theorem execContextStopComplete_answers (part : Nat) (s : State) : Answers s (execContextStopComplete part s) := by
  unfold execContextStopComplete
  (repeat' split) <;> exact answers_next fun h => by simp [h]

theorem execDrainTimeout_answers (part : Nat) (s : State) : Answers s (execDrainTimeout part s) := by
  unfold execDrainTimeout
  split
  · exact answers_self
  · exact answers_ite answers_self (answers_next fun h => by simpa using h)

theorem execExchangeComplete_answers (part : Nat) (s : State) : Answers s (execExchangeComplete part s) := by
  unfold execExchangeComplete
  (repeat' split) <;> exact answers_next fun h => by simp -implicitDefEqProofs [h]

theorem execSliceLineLand_answers (part slice line : Nat) (s : State) : Answers s (execSliceLineLand part slice line s) := by
  unfold execSliceLineLand
  dsimp only
  (repeat' split) <;> exact answers_next fun h => by simp [h]

@[simp] theorem State.createContext_canonical {s : State} (h : s.mem.Canonical) (part : Nat) (p : Partition) (v2 v3 : List Nat) :
    (s.createContext part p v2 v3).mem.Canonical := by
  unfold State.createContext
  dsimp only
  split <;> simp [h]

theorem execCtxCreate_answers (part : Nat) (v : Word) (s : State) : Answers s (execCtxCreate part v s) :=
  State.onContext_answers part [0, 4, 6] fun h p => by
    split
    · exact State.ite_canonical (by simpa using h) (State.createContext_canonical h ..)
    · simpa using h

theorem execSavecostUpdate_answers (part : Nat) (s : State) : Answers s (execSavecostUpdate part s) := by
  unfold execSavecostUpdate
  split
  · exact answers_self
  · exact answers_ite answers_self (answers_next fun h => by simpa using h)

end Sys2Proof.Machine
end

section
namespace Sys2Proof.Machine

/-! ### Accesses from outside and removed translations -/

@[simp] theorem State.peerRegion_canonical {s : State} (h : s.mem.Canonical) (a x : Nat) : (s.peerRegion a x).1.mem.Canonical := by
  unfold State.peerRegion
  extract_lets header i cell
  split
  · exact h
  · split
    · split
      · exact State.addCell_canonical h ..
      · exact h
    · exact h

@[simp] theorem State.servePeer_canonical {s : State} (h : s.mem.Canonical) (m : Nat) (op : CanalOp) (ps : List Piece) :
    (s.servePeer m op ps).1.mem.Canonical := by
  unfold State.servePeer
  extract_lets old bad put
  have put_canonical (bs : List Byte) : (put bs).mem.Canonical :=
    State.foldl_canonical h fun s w hs => State.performAt_canonical hs ..
  split
  · exact h
  · exact put_canonical _
  · split
    · exact State.peerRegion_canonical h ..
    · split
      · exact h
      · exact put_canonical _

@[simp] theorem State.perform_canonical {s : State} (h : s.mem.Canonical) (y : HeldAccess) : (s.perform y).mem.Canonical := by
  unfold State.perform
  (repeat' split) <;> simp [h]

@[simp] theorem releaseSome_canonical {s : State} (h : s.mem.Canonical) (keep xs : List HeldAccess) :
    (releaseSome keep xs s).1.mem.Canonical := by
  induction xs generalizing keep s with
  | nil => exact h
  | cons x r ih =>
    unfold releaseSome
    split
    · exact ih (State.perform_canonical h _) _
    · exact ih h _

theorem State.releaseHeld_go_canonical (fuel : Nat) {s : State} (h : s.mem.Canonical) : (State.releaseHeld.go fuel s).mem.Canonical := by
  induction fuel generalizing s with
  | zero => exact h
  | succ fuel ih =>
    have released := releaseSome_canonical h [] s.held
    exact State.ite_canonical released (ih released)

@[simp] theorem State.releaseHeld_canonical {s : State} (h : s.mem.Canonical) : s.releaseHeld.mem.Canonical :=
  State.releaseHeld_go_canonical _ h

@[simp] theorem State.arrives_canonical {s : State} (h : s.mem.Canonical) (x : HeldAccess) : (s.arrives x).mem.Canonical := by
  refine State.releaseHeld_canonical ?_
  exact h

theorem execHostPostedWrite_answers (port addr : Nat) (data : List Byte) (s : State) : Answers s (execHostPostedWrite port addr data s) :=
  answers_ite answers_self (answers_next fun h => by simp [h])

theorem execCanalRequest_answers (member seq : Nat) (op : CanalOp) (s : State) : Answers s (execCanalRequest member seq op s) := by
  unfold execCanalRequest
  dsimp only
  (repeat' split) <;> exact answers_next fun h => by simp [h]

theorem execWriteAcknowledgement_answers (n : Nat) (s : State) : Answers s (execWriteAcknowledgement n s) := by
  unfold execWriteAcknowledgement
  split
  · exact answers_self
  · extract_lets written cleared poisoned acquired
    refine answers_ite answers_self (answers_next fun h => ?_)
    have written_canonical : written.mem.Canonical := State.writePiece_canonical (by exact h) ..
    have cleared_canonical : cleared.mem.Canonical := State.ite_canonical (by simpa using written_canonical) written_canonical
    have poisoned_canonical : poisoned.mem.Canonical := State.ite_canonical (by simpa using cleared_canonical) cleared_canonical
    have acquired_canonical : acquired.mem.Canonical := State.ite_canonical (by simpa using poisoned_canonical) poisoned_canonical
    simpa using acquired_canonical

@[simp] theorem State.endRead_canonical {s : State} (h : s.mem.Canonical) (warp path : Nat) (f : Piece → Bool) (sub : Nat) :
    (s.endRead warp path f sub).mem.Canonical := by
  unfold State.endRead
  (repeat' split) <;> simp [h]

@[simp] theorem State.endRequest_canonical {s : State} (h : s.mem.Canonical) (who : Outstanding) (f : Piece → Bool) (sub : Nat) :
    (s.endRequest who f sub).mem.Canonical := by
  unfold State.endRequest
  split <;> simp [h]

@[simp] theorem State.endHostRequest_canonical {s : State} (h : s.mem.Canonical) (who : Outstanding) (sub : Nat) :
    (s.endHostRequest who sub).mem.Canonical := by
  unfold State.endHostRequest
  split <;> simp [h]

theorem execHostCompletionError_answers (who : Outstanding) (marked : Bool) (s : State) :
    Answers s (execHostCompletionError who marked s) :=
  answers_next fun h => by simp [h]

theorem execHostCompletionTimeout_answers (who : Outstanding) (s : State) : Answers s (execHostCompletionTimeout who s) :=
  answers_next fun h => by simp [h]

theorem execCrossDomainTimeout_answers (who : Outstanding) (s : State) : Answers s (execCrossDomainTimeout who s) := by
  unfold execCrossDomainTimeout
  (repeat' split) <;> exact answers_next fun h => by simp [h]

theorem execAtsTranslationCompletion_answers (a : AtsAnswer) (s : State) : Answers s (execAtsTranslationCompletion a s) := by
  unfold execAtsTranslationCompletion
  split
  · exact answers_self
  · exact answers_next fun h => by simpa using h

theorem execAtsInvalidation_answers (pasid va size : Nat) (r w : Bool) (x resident : Bool) (s : State) :
    Answers s (execAtsInvalidation pasid va size r w x resident s) :=
  answers_next id

theorem execInvalidationCompletion_answers (pasid va size : Nat) (s : State) :
    Answers s (execInvalidationCompletion pasid va size s) := by
  unfold execInvalidationCompletion
  dsimp only
  (repeat' split) <;> exact answers_next fun h => by simpa using h

theorem execEccUncorrectableError_answers (key : Nat) (s : State) : Answers s (execEccUncorrectableError key s) :=
  answers_next fun h => by simpa using h

/-! ### Floating point -/

theorem floatVec_answers (s : State) (o : Alu) (mode : RMode) (op : FVal → FVal → FVal → Real' × BitVec 5) :
    Answers s (floatVec s o mode op) := laneWise_answers ..

theorem execFadd_answers (m : RMode) (o : Alu) (s : State) : Answers s (execFadd m o s) := floatVec_answers ..
theorem execFsub_answers (m : RMode) (o : Alu) (s : State) : Answers s (execFsub m o s) := floatVec_answers ..
theorem execFmul_answers (m : RMode) (o : Alu) (s : State) : Answers s (execFmul m o s) := floatVec_answers ..
theorem execFfma_answers (m : RMode) (o : Alu) (s : State) : Answers s (execFfma m o s) := floatVec_answers ..
theorem execFsqrt_answers (m : RMode) (o : Alu) (s : State) : Answers s (execFsqrt m o s) := floatVec_answers ..
theorem execFdiv_answers (m : RMode) (o : Alu) (s : State) : Answers s (execFdiv m o s) := floatVec_answers ..
theorem execFexp2_answers (m : RMode) (o : Alu) (s : State) : Answers s (execFexp2 m o s) := floatVec_answers ..
theorem execFlog2_answers (m : RMode) (o : Alu) (s : State) : Answers s (execFlog2 m o s) := floatVec_answers ..
theorem execFscale_answers (m : RMode) (o : Alu) (s : State) : Answers s (execFscale m o s) := laneWise_answers ..
theorem pickVec_answers (larger : Bool) (o : Alu) (s : State) : Answers s (pickVec larger o s) := laneWise_answers ..
theorem execFmin_answers (o : Alu) (s : State) : Answers s (execFmin o s) := pickVec_answers ..
theorem execFmax_answers (o : Alu) (s : State) : Answers s (execFmax o s) := pickVec_answers ..
theorem execFcmp_answers (cond : FCond) (o : Alu) (s : State) : Answers s (execFcmp cond o s) := run_answers fun h c => by simp [h]
theorem signVec_answers (o : Alu) (s : State) (sign : Bool → Bool → Bool) : Answers s (signVec o s sign) := laneWise_answers ..
theorem execFabs_answers (o : Alu) (s : State) : Answers s (execFabs o s) := signVec_answers ..
theorem execFneg_answers (o : Alu) (s : State) : Answers s (execFneg o s) := signVec_answers ..
theorem execFcsgn_answers (o : Alu) (s : State) : Answers s (execFcsgn o s) := signVec_answers ..
theorem execFclass_answers (o : Alu) (s : State) : Answers s (execFclass o s) := laneWise_answers ..
theorem execFclassFl_answers (o : Alu) (s : State) : Answers s (execFclassFl o s) := run_answers fun h c => by simp [h]
theorem execFrcp_answers (o : Alu) (s : State) : Answers s (execFrcp o s) := laneWise_answers ..
theorem execFrsq_answers (o : Alu) (s : State) : Answers s (execFrsq o s) := laneWise_answers ..

theorem convert_answers (s : State) (o : Alu) (v : Cv) (m : RMode) (f : Nat → Word → Nat → Nat × BitVec 5) :
    Answers s (convert s o v m f) := laneWise_answers ..

theorem execCvt_answers (m : RMode) (v : Cv) (o : Alu) (s : State) : Answers s (execCvt m v o s) := convert_answers ..
theorem execCvtf_answers (m : RMode) (v : Cv) (o : Alu) (s : State) : Answers s (execCvtf m v o s) := convert_answers ..
theorem execCvti_answers (m : RMode) (v : Cv) (o : Alu) (s : State) : Answers s (execCvti m v o s) := convert_answers ..
theorem execFrint_answers (m : RMode) (v : Cv) (o : Alu) (s : State) : Answers s (execFrint m v o s) := convert_answers ..
theorem execCvtbs_answers (m : RMode) (v : Cv) (o : Alu) (s : State) : Answers s (execCvtbs m v o s) := convert_answers ..
theorem execFdot2_answers (m : RMode) (v : Cv) (o : Alu) (s : State) : Answers s (execFdot2 m v o s) := laneWise_answers ..

/-! ### Collectives -/

@[simp] theorem State.engineWrite_canonical {s : State} (h : s.mem.Canonical) (x : CollHere) (ps : List Piece) (bs : List Byte) :
    (s.engineWrite x ps bs).mem.Canonical :=
  State.writeOrSend_canonical
    (State.ite_canonical (State.foldl_canonical h fun _ _ hs => State.logLine_canonical hs ..) h) ..

@[simp] theorem State.tellColl_canonical {s : State} (h : s.mem.Canonical) (c : Ctx) (t : Trap) : (s.tellColl c t).mem.Canonical := by
  simp -implicitDefEqProofs [State.tellColl, h]

@[simp] theorem cwaitResult_canonical {s : State} (h : s.mem.Canonical) (c : Ctx) (r : CollWait) (met : Bool) (v : Word) :
    (cwaitResult s c r met v).1.mem.Canonical := by
  unfold cwaitResult
  split <;> simp [h]

theorem execCwait_answers (g : Guard) (d : Dst) (q t : Src) (e : MExt) (s : State) :
    Answers s (execCwait g d q t e s) := run_answers fun h c => by
  dsimp only
  (repeat' split) <;> simp [h]

@[simp] theorem endCwait_canonical {s : State} (h : s.mem.Canonical) (c : Ctx) (r : CollWait) (met : Bool) (v : Word) :
    (endCwait s c r met v).mem.Canonical := by
  simp [endCwait, h]

theorem execCwaitTimeout_answers (warp path : Nat) (s : State) : Answers s (execCwaitTimeout warp path s) := by
  unfold execCwaitTimeout
  (repeat' split) <;> exact answers_next fun h => by simp [h]

@[simp] theorem State.checkCwait_canonical {s : State} (h : s.mem.Canonical) (wid pidx : Nat) :
    (s.checkCwait wid pidx).mem.Canonical := by
  unfold State.checkCwait
  (repeat' split) <;> simp -implicitDefEqProofs [h]

@[simp] theorem State.checkCwaits_canonical {s : State} (h : s.mem.Canonical) (bid : Nat) : (s.checkCwaits bid).mem.Canonical :=
  State.foldl_canonical h fun _ _ hs => State.foldl_canonical hs fun _ _ ht => State.checkCwait_canonical ht ..

@[simp] theorem State.collWrite_canonical {s : State} (h : s.mem.Canonical) (key : Nat) (x : Coll) (y : CollHere) :
    (s.collWrite key x y).mem.Canonical := by
  unfold State.collWrite
  extract_lets d out fl plan
  clear_value plan
  split
  · simpa using h
  · extract_lets written recorded
    have written_canonical : written.mem.Canonical :=
      State.foldl_canonical h fun s r hs =>
        State.foldl_canonical (State.engineWrite_canonical hs ..) fun s k hk => by simpa using hk
    have recorded_canonical : recorded.mem.Canonical :=
      State.ite_canonical written_canonical (State.engineWrite_canonical written_canonical ..)
    simpa using recorded_canonical

@[simp] theorem State.collStamped_canonical {s : State} (h : s.mem.Canonical) (key : Nat) (y : CollHere) (status : Nat) :
    (s.collStamped key y status).mem.Canonical := by
  unfold State.collStamped
  extract_lets stamp origin published written closed edited view trapped
  have published_canonical : published.mem.Canonical := by simpa [published] using h
  have written_canonical : written.mem.Canonical := by
    unfold written
    split
    · exact State.engineWrite_canonical published_canonical ..
    · exact published_canonical
  have edited_canonical : edited.mem.Canonical := by simpa [edited, closed] using written_canonical
  have trapped_canonical : trapped.mem.Canonical := State.ite_canonical (by simpa using edited_canonical) edited_canonical
  simpa using State.checkCwaits_canonical trapped_canonical y.bid

theorem State.collLogged_canonical {s t : State} (h : s.mem.Canonical) {key : Nat} {x : Coll} {y : CollHere} {status : Nat}
    (ht : s.collLogged key x y status = some t) : t.mem.Canonical := by
  unfold State.collLogged at ht
  extract_lets value diverge at ht
  split at ht
  · split at ht <;> cases ht
    exact State.logChoice_canonical h ..
  · split at ht
    · cases ht
    · split at ht
      · next en _ =>
        extract_lets consumed at ht
        cases ht
        have consumed_canonical : consumed.mem.Canonical := by simpa [consumed] using h
        exact State.ite_canonical consumed_canonical (by simpa [diverge] using consumed_canonical)
      · split at ht <;> cases ht
        simpa [diverge] using h
  · cases ht
    simpa using h

@[simp] theorem State.stepColl_canonical {s : State} (h : s.mem.Canonical) (key : Nat) (x : Coll) : (s.stepColl key x).mem.Canonical := by
  unfold State.stepColl
  split
  · exact h
  · split
    · exact State.ite_canonical (by simpa using h) (State.ite_canonical h (State.ite_canonical (by simpa using h)
        (State.ite_canonical (by simpa using h) h)))
    · exact State.ite_canonical h (by simpa using h)
    · exact State.collWrite_canonical h ..
    · refine State.ite_canonical h ?_
      split
      · exact h
      · exact h
      · next ht _ => exact State.collStamped_canonical (State.collLogged_canonical h ht) ..

theorem execPartialSum_answers (comm k : Nat) (view attempt : Nat) (contributors : List Nat) (data : List Byte) (s : State) :
    Answers s (execPartialSum comm k view attempt contributors data s) := by
  unfold execPartialSum
  dsimp only
  (repeat' split) <;> exact answers_next fun h => by simpa using h

theorem execReady_answers (comm k : Nat) (sender view : Nat) (s : State) : Answers s (execReady comm k sender view s) := by
  unfold execReady
  (repeat' split) <;> exact answers_next fun h => by simpa using h

theorem execCollCommit_answers (comm k view : Nat) (s : State) : Answers s (execCollCommit comm k view s) := by
  unfold execCollCommit
  (repeat' split) <;> exact answers_next fun h => by simpa using h

theorem execAbort_answers (comm k view : Nat) (s : State) : Answers s (execAbort comm k view s) := by
  unfold execAbort
  (repeat' split) <;> exact answers_next fun h => by simpa using h

theorem execColl_answers (kind : CollKind) (uns : Bool) (g : Guard) (f : Fmt) (d : Dst) (a : Nat) (e : MExt) (s : State) :
    Answers s (execColl kind uns g f d a e s) :=
  run_answers fun h c => by
    refine (gives_ite ..).2 ⟨fun _ => by simpa using h, fun _ => ?_⟩
    extract_lets lanes ar xs view pt published seq
    have published_canonical : published.mem.Canonical := by simpa [published] using h
    iterate 5 refine gives_bind_of_forall fun _ => ?_
    extract_lets pieces bs desc k here noted begun w r finish room viewed acked member sound read
    have begun_canonical : begun.mem.Canonical := by simpa [begun, noted] using published_canonical
    refine gives_after_check ?_
    have sound_canonical : Gives (fun t => t.mem.Canonical) (sound ()) := by
      refine gives_after_check (gives_after_check (gives_after_check ?_))
      unfold viewed
      split
      · exact (gives_pure _).2 (State.tellColl_canonical h ..)
      · exact gives_after_check (gives_after_check (by simpa [finish] using begun_canonical))
    unfold read
    split
    · exact gives_bind_of_forall fun _ => sound_canonical
    · exact sound_canonical

theorem execCabort_answers (g : Guard) (q : Src) (s : State) : Answers s (execCabort g q s) :=
  run_answers fun h c => gives_bind_of_forall fun _ => by
    refine (gives_ite ..).2 ⟨fun _ => by simpa using h, fun _ => ?_⟩
    refine gives_after_check ?_
    extract_lets n mine ended
    have ended_canonical : ended.mem.Canonical := State.foldl_canonical h fun s x hs => by simpa using hs
    simpa using ended_canonical

/-! ### Views -/

theorem execSuspect_answers (_sender view : Nat) (suspects : List Nat) (s : State) : Answers s (execSuspect _sender view suspects s) := by
  unfold execSuspect
  dsimp only
  (repeat' split) <;> exact answers_next fun h => by simpa using h

theorem execPropose_answers (sender view : Nat) (manifest : BitVec 1024) (s : State) :
    Answers s (execPropose sender view manifest s) := by
  unfold execPropose
  dsimp only
  (repeat' split) <;> exact answers_next fun h => by simpa using h

theorem execAccept_answers (sender view : Nat) (committed : List (Nat × Nat)) (s : State) :
    Answers s (execAccept sender view committed s) := by
  unfold execAccept
  split
  · exact answers_self
  · exact answers_ite answers_self (answers_ite (answers_next fun h => by simpa using h) (answers_next id))

theorem execRefuse_answers (sender view : Nat) (suspects : List Nat) (s : State) : Answers s (execRefuse sender view suspects s) := by
  unfold execRefuse
  (repeat' split) <;> exact answers_next fun h => by simpa using h

theorem execViewCommit_answers (view : Nat) (manifest : BitVec 1024) (committed : List (Nat × Nat)) (s : State) :
    Answers s (execViewCommit view manifest committed s) :=
  answers_ite (answers_ite (answers_next fun h => by simpa using h) answers_self)
    (answers_ite answers_self (answers_ite (answers_next fun h => by simpa using h) (answers_next fun h => by simpa using h)))

theorem execProposeTimeout_answers (s : State) : Answers s (execProposeTimeout s) := by
  unfold execProposeTimeout
  split
  · exact answers_self
  · split
    · exact answers_self
    · exact answers_ite answers_self (answers_next fun h => by simpa using h)

theorem execAcceptTimeout_answers (member : Nat) (s : State) : Answers s (execAcceptTimeout member s) := by
  unfold execAcceptTimeout
  split
  · exact answers_self
  · exact answers_ite answers_self (answers_next fun h => by simpa using h)

theorem execHeartbeatSend_answers (s : State) : Answers s (execHeartbeatSend s) :=
  answers_ite answers_self (answers_next fun h => State.foldl_canonical h fun _ _ hs => hs)

theorem execHeartbeat_answers (member : Nat) (s : State) : Answers s (execHeartbeat member s) := answers_next id

theorem execHeartbeatTimeout_answers (member : Nat) (s : State) : Answers s (execHeartbeatTimeout member s) :=
  answers_ite answers_self (answers_next fun h => by simpa using h)

theorem execJoinMessage_answers (member : Nat) (s : State) : Answers s (execJoinMessage member s) :=
  answers_next fun h => by simpa using h

theorem execViewAdmit_answers (v : Word) (s : State) : Answers s (execViewAdmit v s) :=
  answers_ite answers_self (answers_ite answers_self (answers_next fun h => by simpa using h))

theorem execViewRemove_answers (v : Word) (s : State) : Answers s (execViewRemove v s) :=
  answers_ite answers_self (answers_ite answers_self (answers_next fun h => by simpa using h))

theorem execCollStamp_answers (comm k : Nat) (s : State) : Answers s (execCollStamp comm k s) := by
  unfold execCollStamp
  split
  · exact answers_self
  · exact answers_next fun h => by simp [h]

theorem execViewq_answers (g : Guard) (d : Dst) (k : Int) (s : State) : Answers s (execViewq g d k s) :=
  run_answers fun h c => by simpa using h

theorem execViewack_answers (g : Guard) (d : Dst) (x : Src) (s : State) : Answers s (execViewack g d x s) := run_answers fun h c => by
  dsimp only
  (repeat' split) <;> simp [h]

theorem execViewjoin_answers (g : Guard) (d : Dst) (t : Src) (s : State) : Answers s (execViewjoin g d t s) :=
  run_answers fun h c => by simp [h]

theorem execViewjoinTimeout_answers (warp path : Nat) (s : State) : Answers s (execViewjoinTimeout warp path s) := by
  unfold execViewjoinTimeout
  dsimp only
  (repeat' split) <;> exact answers_next fun h => by simpa using h

/-! ### Links -/

theorem execIsolationRequestEnd_answers (port : Nat) (s : State) : Answers s (execIsolationRequestEnd port s) := by
  unfold execIsolationRequestEnd
  (repeat' split) <;> exact answers_next fun h => by simpa using h

theorem execFlitReceive_answers (link : Nat) (forward : Bool) (seq : Nat) (crcOk : Bool) (s : State) :
    Answers s (execFlitReceive link forward seq crcOk s) := by
  unfold execFlitReceive
  dsimp only
  (repeat' split) <;> exact answers_next fun h => by simpa using h

theorem execFlitAck_answers (link : Nat) (forward : Bool) (seq : Nat) (s : State) : Answers s (execFlitAck link forward seq s) := by
  unfold execFlitAck
  dsimp only
  (repeat' split) <;> exact answers_next fun h => by simpa using h

theorem execFlitNak_answers (link : Nat) (forward : Bool) (seq : Nat) (s : State) : Answers s (execFlitNak link forward seq s) := by
  unfold execFlitNak
  split
  · exact answers_self
  · exact answers_ite answers_self (answers_next fun h => by simpa using h)

@[simp] theorem State.endContext_canonical {s : State} (h : s.mem.Canonical) (part : Nat) : (s.endContext part).mem.Canonical := by
  simp [State.endContext, h]

@[simp] theorem State.endContexts_canonical {s : State} (h : s.mem.Canonical) (part : Nat) (p : Partition) :
    (s.endContexts part p).mem.Canonical := by
  unfold State.endContexts
  extract_lets ended
  have ended_canonical : ended.mem.Canonical := State.ite_canonical h (State.endContext_canonical h _)
  split
  · exact State.endContext_canonical (State.unparkContext_canonical ended_canonical ..) _
  · exact ended_canonical

@[simp] theorem State.fatalLink_canonical {s : State} (h : s.mem.Canonical) : s.fatalLink.mem.Canonical :=
  State.foldl_canonical h fun s x hs => by simp [hs]

theorem execRetrainComplete_answers (link : Nat) (failedForward failedBack : BitVec 64) (s : State) :
    Answers s (execRetrainComplete link failedForward failedBack s) := by
  unfold execRetrainComplete
  dsimp only
  (repeat' split) <;> exact answers_next fun h => by simp [h]

theorem execD2dClear_answers (link : Nat) (v : Word) (s : State) : Answers s (execD2dClear link v s) :=
  answers_ite answers_self (answers_next fun h => by simpa using h)

theorem execCanalIsolate_answers (port : Nat) (v : Word) (s : State) : Answers s (execCanalIsolate port v s) := by
  unfold execCanalIsolate
  split
  · exact answers_self
  · extract_lets marked
    refine answers_ite answers_self (answers_next fun h => ?_)
    have marked_canonical : marked.mem.Canonical := State.ite_canonical (by simpa using h) h
    simpa using marked_canonical

theorem execCanalRestore_answers (port : Nat) (v : Word) (s : State) : Answers s (execCanalRestore port v s) := by
  unfold execCanalRestore
  split
  · exact answers_self
  · exact answers_ite answers_self (answers_next fun h => by simpa using h)

theorem execCanalPortDown_answers (port : Nat) (s : State) : Answers s (execCanalPortDown port s) := by
  unfold execCanalPortDown
  split
  · exact answers_self
  · exact answers_ite answers_self (answers_next fun h => by simpa using h)

theorem execCanalRetrainTimeout_answers (port : Nat) (s : State) : Answers s (execCanalRetrainTimeout port s) := by
  unfold execCanalRetrainTimeout
  split
  · exact answers_self
  · exact answers_ite answers_self (answers_next fun h => by simpa using h)

theorem execCanalLinkUp_answers (port peer : Nat) (s : State) : Answers s (execCanalLinkUp port peer s) := by
  unfold execCanalLinkUp
  split
  · exact answers_self
  · exact answers_ite answers_self (answers_next fun h => by simpa using h)

/-! ### Checkpoints -/

@[simp] theorem State.commitAll_canonical {s : State} (h : s.mem.Canonical) (part : Nat) : (s.commitAll part).mem.Canonical := by
  simp [State.commitAll, h]

theorem execIntervalClose_answers (part : Nat) (s : State) : Answers s (execIntervalClose part s) := by
  unfold execIntervalClose
  split
  · exact answers_self
  · refine answers_ite answers_self (answers_ite (answers_ite (answers_next fun h => by simpa using h) answers_self)
      (answers_ite (answers_ite (answers_next fun h => by simpa using h) answers_self) ?_))
    refine answers_ite (answers_next fun h => State.foldl_canonical ?_ fun s m hs => State.commitAll_canonical hs _) answers_self
    exact State.foldl_canonical h fun s m hs => by simpa using hs

theorem execCkptCloseNow_answers (part : Nat) (s : State) : Answers s (execCkptCloseNow part s) := by
  unfold execCkptCloseNow
  split
  · exact answers_self
  · exact answers_ite answers_self (answers_next fun h => by simpa using h)

theorem execCkptPeriodExpiry_answers (part : Nat) (s : State) : Answers s (execCkptPeriodExpiry part s) := by
  unfold execCkptPeriodExpiry
  split
  · exact answers_self
  · exact answers_ite answers_self (answers_next fun h => by simpa using h)

theorem execParityBlock_answers (part interval block : Nat) (data : List Byte) (s : State) :
    Answers s (execParityBlock part interval block data s) := by
  unfold execParityBlock
  split
  · exact answers_self
  · exact answers_ite answers_self (answers_next fun h => State.foldl_canonical (by simpa using h) fun s m hs => by simpa using hs)

theorem execParityAck_answers (part interval : Nat) (s : State) : Answers s (execParityAck part interval s) := by
  unfold execParityAck
  split
  · exact answers_self
  · exact answers_ite answers_self (answers_next fun h => by simp -implicitDefEqProofs [h])

theorem execCxlDrainDone_answers (part interval : Nat) (s : State) : Answers s (execCxlDrainDone part interval s) := by
  unfold execCxlDrainDone
  split
  · exact answers_self
  · exact answers_ite answers_self (answers_next fun h => by simpa using h)

@[simp] theorem State.writeBack_canonical {s : State} (h : s.mem.Canonical) (undo : NMap UndoLine) : (s.writeBack undo).mem.Canonical :=
  State.foldl_canonical h fun s x hs => by simp [hs]

@[simp] theorem State.rewindBook_canonical {s : State} (h : s.mem.Canonical) (part : Nat) (now img : Partition) :
    (s.rewindBook part now img).mem.Canonical := by
  unfold State.rewindBook
  extract_lets e put rewound
  have put_canonical (t : State) (a : Nat) (bs : List Byte) (ht : t.mem.Canonical) : (put t a bs).mem.Canonical := by
    unfold put
    split
    · exact (State.writePlain_canonical ht ..).of_ok _ ‹_›
    · exact ht
  refine State.foldl_canonical (State.foldl_canonical h fun s i hs => put_canonical _ _ _ hs) fun s x hs => ?_
  extract_lets a
  split
  · exact put_canonical _ _ _ (put_canonical _ _ _ (put_canonical _ _ _ hs))
  · exact hs

@[simp] theorem State.rollOne_canonical {s : State} (h : s.mem.Canonical) (part : Nat) : (s.rollOne part).mem.Canonical := by
  unfold State.rollOne
  split
  · exact h
  · split
    · simpa using h
    · extract_lets cores zero isZero written late filtered replaced setp presence rewound ended
      have written_canonical : written.mem.Canonical := by
        simpa [written] using State.writeBack_canonical (State.landAll_canonical (by simpa using h) part) _
      have presence_canonical : presence.mem.Canonical := by simpa [presence, setp, replaced, filtered] using written_canonical
      have rewound_canonical : rewound.mem.Canonical := State.rewindBook_canonical presence_canonical ..
      have ended_canonical : ended.mem.Canonical :=
        State.foldl_canonical rewound_canonical fun s l hs => State.completeLaunch_canonical hs ..
      simpa using ended_canonical

theorem execCkptRollbackNow_answers (part : Nat) (s : State) : Answers s (execCkptRollbackNow part s) := by
  unfold execCkptRollbackNow
  split
  · exact answers_self
  · refine answers_ite answers_self (answers_ite (answers_next fun h => by simpa using h) ?_)
    refine answers_ite (answers_next fun h => by simpa using h) ?_
    refine answers_ite (answers_next fun h => by simpa using h) (answers_ite (answers_next fun h => ?_) answers_self)
    exact State.foldl_canonical h fun s m hs => State.rollOne_canonical hs m

theorem execCheckpointMessage_answers (part : Nat) (m : CkptMsg) (s : State) : Answers s (execCheckpointMessage part m s) := by
  unfold execCheckpointMessage
  (repeat' split) <;> exact answers_next fun h => by simpa using h

theorem execCkpt_answers (g : Guard) (d : Dst) (s : State) : Answers s (execCkpt g d s) := run_answers fun h c => by
  dsimp only
  split <;> simpa using h

theorem execCkptWait_answers (g : Guard) (d : Dst) (s : State) : Answers s (execCkptWait g d s) := run_answers fun h c => by simp [h]

theorem execCkq_answers (g : Guard) (d : Dst) (k : Int) (s : State) : Answers s (execCkq g d k s) :=
  run_answers fun h c => by simpa using h

/-! ### Digests, rings and debug -/

theorem execDigest_answers (g : Guard) (f : Fmt) (a : Src) (ch : Int) (s : State) : Answers s (execDigest g f a ch s) :=
  run_answers fun h c => by simp [h]

theorem execDetq_answers (g : Guard) (d : Dst) (s : State) : Answers s (execDetq g d s) := run_answers fun h c => by simpa using h
theorem execBrk_answers (g : Guard) (n : Int) (s : State) : Answers s (execBrk g n s) := run_answers fun h c => by simp [h]
theorem execTmark_answers (g : Guard) (x : Src) (s : State) : Answers s (execTmark g x s) := run_answers fun h c => by simp [h]
theorem execRdclk_answers (g : Guard) (d : Dst) (s : State) : Answers s (execRdclk g d s) := run_answers fun h c => by simpa using h

@[simp] theorem State.tellLost_canonical {s : State} (h : s.mem.Canonical) (part : Nat) : (s.tellLost part).mem.Canonical := by
  unfold State.tellLost
  (repeat' split) <;> simp [h]

theorem execRingHeadWrite_answers (part : Nat) (ring : Ring) (v : Word) (s : State) : Answers s (execRingHeadWrite part ring v s) := by
  unfold execRingHeadWrite
  dsimp only
  (repeat' split) <;> exact answers_next fun h => by simp -implicitDefEqProofs [h]

theorem execRingBaseCfgWrite_answers (part : Nat) (ring : Ring) (cfg : Bool) (v : Word) (s : State) :
    Answers s (execRingBaseCfgWrite part ring cfg v s) := by
  unfold execRingBaseCfgWrite
  (repeat' split) <;> exact answers_next fun h => by simpa using h

theorem execRplTail_answers (part : Nat) (v : Word) (s : State) : Answers s (execRplTail part v s) := by
  unfold execRplTail
  split
  · exact answers_self
  · exact answers_ite answers_self (answers_next fun h => by simpa using h)

theorem execRplCtlEnd_answers (part : Nat) (v : Word) (s : State) : Answers s (execRplCtlEnd part v s) :=
  answers_ite answers_self (answers_next id)

theorem execReplayRingRead_answers (part : Nat) (s : State) : Answers s (execReplayRingRead part s) := by
  unfold execReplayRingRead
  split
  · exact answers_self
  · refine answers_ite answers_self ?_
    split
    split
    · next t ht => exact answers_next fun h => by simpa [State.sortEntry_mem ht] using h
    · exact answers_self

theorem execDbgHold_answers (part : Nat) (v : Word) (s : State) : Answers s (execDbgHold part v s) := by
  unfold execDbgHold
  split
  · exact answers_self
  · exact answers_ite answers_self (answers_next fun h => by simpa using h)

@[simp] theorem State.release_canonical {s : State} (h : s.mem.Canonical) (part wid i : Nat) (p : Path) :
    (s.release part wid i p).mem.Canonical := by
  unfold State.release
  split <;> simp [h]

theorem execDbgRelease_answers (part : Nat) (v : Word) (s : State) : Answers s (execDbgRelease part v s) := by
  unfold execDbgRelease
  split
  · exact answers_self
  · exact answers_next fun h => by simp [h]

theorem execDbgReleaseAll_answers (part : Nat) (v : Word) (s : State) : Answers s (execDbgReleaseAll part v s) :=
  answers_next fun h => State.foldl_canonical h fun _ _ hs => State.release_canonical hs ..

theorem execCounterRead_answers (core quarter : Nat) (s : State) : Answers s (execCounterRead core quarter s) :=
  answers_ite answers_self (answers_next id)

theorem execFrzN_answers (s : State) : Answers s (execFrzN s) := answers_next id

theorem execCtlFreeze_answers (port : Nat) (v : Word) (s : State) : Answers s (execCtlFreeze port v s) :=
  answers_ite answers_self (answers_next id)

theorem execDebugPortRead_answers (addr len : Nat) (s : State) : Answers s (execDebugPortRead addr len s) :=
  answers_ite answers_self (answers_ite answers_self (answers_next fun h => by simpa using h))

/-! ### Boot and the control processor -/

theorem execHwsemRead_answers (port : Nat) (s : State) : Answers s (execHwsemRead port s) := answers_ite answers_self (answers_next id)

theorem execHwsemRelease_answers (port : Nat) (s : State) : Answers s (execHwsemRelease port s) :=
  answers_ite answers_self (answers_next id)

theorem execHwsemLapse_answers (s : State) : Answers s (execHwsemLapse s) := answers_ite answers_self (answers_next id)

theorem State.mail_answers {s t : State} (h : s.mem.Canonical → t.mem.Canonical) : Answers s (s.mail t) :=
  answers_ite (answers_next h) (answers_next fun h => by simpa using h)

theorem execNonce_answers (s : State) : Answers s (execNonce s) := State.mail_answers fun h => by simpa using h

theorem execImage_answers (stage : Nat) (bytes : List Byte) (s : State) : Answers s (execImage stage bytes s) := by
  unfold execImage
  extract_lets status ran flash stored
  refine answers_ite (State.mail_answers fun h => by simpa using h) (State.mail_answers fun h => ?_)
  have ran_canonical : ran.mem.Canonical := by simpa [ran] using h
  have stored_canonical : stored.mem.Canonical := State.ite_canonical ran_canonical ran_canonical
  simpa using stored_canonical

theorem execTransfer_answers (bytes : List Byte) (s : State) : Answers s (execTransfer bytes s) := by
  unfold execTransfer
  split
  exact answers_ite (State.mail_answers fun h => by simpa using h) (State.mail_answers fun h => by simpa using h)

theorem execConfig_answers (bytes : List Byte) (s : State) : Answers s (execConfig bytes s) :=
  answers_ite (State.mail_answers fun h => by simpa using h) (State.mail_answers fun h => by simpa using h)

theorem execAttest_answers (nonce : List Byte) (s : State) : Answers s (execAttest nonce s) :=
  answers_ite (State.mail_answers fun h => by simpa using h) (answers_ite (State.mail_answers fun h => by simpa using h)
    (State.mail_answers fun h => by simpa using State.writePiece_canonical h ..))

theorem execKeys_answers (s : State) : Answers s (execKeys s) := State.mail_answers fun h => by simpa using h

theorem execColdReset_answers (s : State) : Answers s (execColdReset s) :=
  answers_next fun h => by simpa using h.filter fun c => outsideKey c.1

theorem execThermalThrottle_answers (level : Nat) (s : State) : Answers s (execThermalThrottle level s) := answers_next id

/-! ### The register map -/

theorem writeQueue_answers (part o : Nat) (v : Word) (s : State) : Answers s (writeQueue part o v s) := by
  unfold writeQueue
  extract_lets q
  split
  · exact execQueueBase_answers ..
  · exact execQueueCfg_answers ..
  · exact execQueueTail_answers ..
  · exact execQueueErrctlClear_answers ..
  · exact execQueueAbort_answers ..
  · exact answers_self

theorem writeCtxCmd_answers (part : Nat) (v : Word) (s : State) : Answers s (writeCtxCmd part v s) := by
  unfold writeCtxCmd
  split
  · exact execCtxPark_answers ..
  · exact execCtxSave_answers ..
  · exact execCtxRestore_answers ..
  · exact execCtxSwitch_answers ..
  · exact execCtxTerminate_answers ..
  · exact execCtxCreate_answers ..
  · exact answers_self

theorem writeCkptCmd_answers (part : Nat) (v : Word) (s : State) : Answers s (writeCkptCmd part v s) := by
  unfold writeCkptCmd
  split
  · exact execCkptCloseNow_answers ..
  · exact execCkptRollbackNow_answers ..
  · exact answers_self

theorem writeDbgCmd_answers (part : Nat) (v : Word) (s : State) : Answers s (writeDbgCmd part v s) := by
  unfold writeDbgCmd
  split
  · exact execDbgHold_answers ..
  · exact execDbgRelease_answers ..
  · exact execDbgReleaseAll_answers ..
  · exact answers_self

theorem writePart_answers (part o : Nat) (v : Word) (s : State) : Answers s (writePart part o v s) := by
  unfold writePart
  refine answers_ite answers_self (answers_ite (writeQueue_answers ..) (answers_ite (answers_next fun h => by simpa using h) ?_))
  split
  · exact writeCtxCmd_answers ..
  · exact answers_next fun h => by simpa using h
  · exact answers_next fun h => by simpa using h
  · exact answers_next fun h => by simpa using h
  · exact writeCkptCmd_answers ..
  · exact execRingBaseCfgWrite_answers ..
  · exact execRingBaseCfgWrite_answers ..
  · exact execRingHeadWrite_answers ..
  · exact execRingBaseCfgWrite_answers ..
  · exact execRingBaseCfgWrite_answers ..
  · exact execRingHeadWrite_answers ..
  · exact execRingBaseCfgWrite_answers ..
  · exact execRingBaseCfgWrite_answers ..
  · exact execRplTail_answers ..
  · exact execRplCtlEnd_answers ..
  · exact writeDbgCmd_answers ..
  · exact execRingBaseCfgWrite_answers ..
  · exact execRingBaseCfgWrite_answers ..
  · exact execRingHeadWrite_answers ..
  · exact answers_self

theorem State.withMail_answers {s : State} {f : List Byte → Answer} (hf : ∀ bs, Answers s (f bs)) : Answers s (s.withMail f) := by
  unfold State.withMail
  split
  · exact hf _
  · exact State.mail_answers fun h => by simpa using h

theorem runMail_answers (s : State) : Answers s (runMail s) := by
  unfold runMail
  refine answers_ite (State.mail_answers fun h => by simpa using h) ?_
  split
  · exact execNonce_answers s
  · exact State.withMail_answers fun bs => execImage_answers ..
  · exact State.withMail_answers fun bs => execTransfer_answers ..
  · exact State.withMail_answers fun bs => execConfig_answers ..
  · exact execAttest_answers ..
  · exact execKeys_answers s
  · exact State.mail_answers fun h => by simpa using h

theorem writeMail_answers (port o : Nat) (v : Word) (s : State) : Answers s (writeMail port o v s) := by
  unfold writeMail
  refine answers_ite answers_self (answers_ite (answers_next fun h => by simpa using h) ?_)
  split
  · exact answers_ite (runMail_answers _) (answers_next fun h => by simpa using h)
  · exact answers_next fun h => by simpa using h
  · exact answers_next fun h => by simpa using h
  · exact answers_self

theorem writeCanal_answers (o : Nat) (v : Word) (s : State) : Answers s (writeCanal o v s) :=
  answers_ite answers_self (answers_ite (execCanalIsolate_answers ..) (execCanalRestore_answers ..))

theorem writeView_answers (v : Word) (s : State) : Answers s (writeView v s) :=
  answers_ite (execViewAdmit_answers ..) (answers_ite (execViewRemove_answers ..) (answers_next id))

theorem execRegisterWrite_answers (port off : Nat) (v : Word) (s : State) : Answers s (execRegisterWrite port off v s) := by
  unfold execRegisterWrite
  refine answers_ite answers_self (answers_ite (execHwsemRelease_answers ..) (answers_ite (execCtlFreeze_answers ..) ?_))
  refine answers_ite (writePart_answers ..) (answers_ite (answers_ite (execD2dClear_answers ..) answers_self) ?_)
  exact answers_ite (writeCanal_answers ..) (answers_ite (writeView_answers ..) (answers_ite (writeMail_answers ..) answers_self))

theorem State.barRead_answers (s : State) (port off : Nat) : Answers s (s.barRead port off) :=
  answers_ite (execHwsemRead_answers ..) (answers_ite (execCounterRead_answers ..) (answers_next id))

theorem execHostRead_answers (port addr len : Nat) (s : State) : Answers s (execHostRead port addr len s) := by
  unfold execHostRead
  refine answers_ite answers_self (answers_ite ?_ (answers_ite answers_self (answers_next fun h => State.arrives_canonical h _)))
  obtain ⟨t, ht, canonical⟩ := s.barRead_answers port ((addr - barAddress) / 8 * 8)
  rw [ht]
  exact answers_next canonical

/-! ### Lanes and predicates -/

theorem crossMove_answers (s : State) (o : Alu) (from' : Nat → Nat → Nat) : Answers s (crossMove s o from') :=
  run_answers fun h c => by simp [h]

theorem execQswap_answers (q : QSwap) (o : Alu) (s : State) : Answers s (execQswap q o s) := crossMove_answers ..
theorem execQbcast_answers (k : Nat) (o : Alu) (s : State) : Answers s (execQbcast k o s) := crossMove_answers ..
theorem execLxch_answers (v : LXch) (seg : Nat) (o : Alu) (s : State) : Answers s (execLxch v seg o s) := crossMove_answers ..
theorem execLbcast_answers (first : Bool) (o : Alu) (s : State) : Answers s (execLbcast first o s) := run_answers fun h c => by simp [h]

theorem execLred_answers (op : ROp) (m : RMode) (o : Alu) (s : State) : Answers s (execLred op m o s) :=
  run_answers fun h c => gives_bind_of_forall fun _ => (srCount_canonical h ..).bind fun y hy =>
    (shadowCompare_canonical hy ..).bind fun t ht => by simpa using ht

theorem execLscan_answers (op : ROp) (m : RMode) (o : Alu) (s : State) : Answers s (execLscan op m o s) :=
  run_answers fun h c => gives_bind_of_forall fun _ => (srCount_canonical h ..).bind fun y hy =>
    (shadowCompare_canonical hy ..).bind fun t ht => by simpa using ht

theorem execLpoll_answers (v : Poll) (o : Alu) (s : State) : Answers s (execLpoll v o s) := run_answers fun h c => by simp [h]

theorem predVec_answers (s : State) (o : Alu) (f : LaneMask → LaneMask → LaneMask) : Answers s (predVec s o f) :=
  run_answers fun h c => by simp [h]

theorem execPand_answers (o : Alu) (s : State) : Answers s (execPand o s) := predVec_answers ..
theorem execPor_answers (o : Alu) (s : State) : Answers s (execPor o s) := predVec_answers ..
theorem execPxor_answers (o : Alu) (s : State) : Answers s (execPxor o s) := predVec_answers ..
theorem execPnot_answers (o : Alu) (s : State) : Answers s (execPnot o s) := predVec_answers ..
theorem execPmov_answers (toScalar : Bool) (o : Alu) (s : State) : Answers s (execPmov toScalar o s) := run_answers fun h c => by simp [h]
theorem execLidx_answers (v : LIdx) (o : Alu) (s : State) : Answers s (execLidx v o s) := run_answers fun h c => by simp [h]

end Sys2Proof.Machine
end

section
namespace Sys2Proof.Machine

/-! ### Every row of the opcode table answers -/

/-- Every instruction and event, in every state, gives a next state, and one in the one form from one in the one form. -/
theorem exec_answers (i : Instr) (s : State) : Answers s (exec i s) :=
  match i with
  | .nop .. => execNop_answers ..
  | .br .. => execBr_answers ..
  | .bre .. => execBre_answers ..
  | .mark .. => execMark_answers ..
  | .join => execJoin_answers ..
  | .call .. => execCall_answers ..
  | .callx .. => execCallx_answers ..
  | .ret => execRet_answers ..
  | .jmpx .. => execJmpx_answers ..
  | .grow .. => execGrow_answers ..
  | .shrink .. => execShrink_answers ..
  | .yield .. => execYield_answers ..
  | .exit .. => execExit_answers ..
  | .trap .. => execTrap_answers ..
  | .eret => execEret_answers ..
  | .rdsys .. => execRdsys_answers ..
  | .wrsys .. => execWrsys_answers ..
  | .sadd .. => execSadd_answers ..
  | .ssub .. => execSsub_answers ..
  | .smul .. => execSmul_answers ..
  | .smulh .. => execSmulh_answers ..
  | .smad .. => execSmad_answers ..
  | .sand .. => execSand_answers ..
  | .sor .. => execSor_answers ..
  | .sxor .. => execSxor_answers ..
  | .sandn .. => execSandn_answers ..
  | .sshl .. => execSshl_answers ..
  | .sshr .. => execSshr_answers ..
  | .ssar .. => execSsar_answers ..
  | .srot .. => execSrot_answers ..
  | .scmp .. => execScmp_answers ..
  | .smov .. => execSmov_answers ..
  | .ssel .. => execSsel_answers ..
  | .sdiv .. => execSdiv_answers ..
  | .srem .. => execSrem_answers ..
  | .spopc .. => execSpopc_answers ..
  | .sclz .. => execSclz_answers ..
  | .sctz .. => execSctz_answers ..
  | .sbrev .. => execSbrev_answers ..
  | .aset .. => execAset_answers ..
  | .aadv .. => execAadv_answers ..
  | .abind .. => execAbind_answers ..
  | .aunbind .. => execAunbind_answers ..
  | .aget .. => execAget_answers ..
  | .atrn .. => execAtrn_answers ..
  | .iadd .. => execIadd_answers ..
  | .isub .. => execIsub_answers ..
  | .imul .. => execImul_answers ..
  | .imad .. => execImad_answers ..
  | .imulh .. => execImulh_answers ..
  | .iadds .. => execIadds_answers ..
  | .isubs .. => execIsubs_answers ..
  | .imin .. => execImin_answers ..
  | .imax .. => execImax_answers ..
  | .iabs .. => execIabs_answers ..
  | .ineg .. => execIneg_answers ..
  | .icmp .. => execIcmp_answers ..
  | .isel .. => execIsel_answers ..
  | .and .. => execAnd_answers ..
  | .or .. => execOr_answers ..
  | .xor .. => execXor_answers ..
  | .andn .. => execAndn_answers ..
  | .orn .. => execOrn_answers ..
  | .xnor .. => execXnor_answers ..
  | .not .. => execNot_answers ..
  | .lut3 .. => execLut3_answers ..
  | .shl .. => execShl_answers ..
  | .shr .. => execShr_answers ..
  | .sar .. => execSar_answers ..
  | .irot .. => execIrot_answers ..
  | .popc .. => execPopc_answers ..
  | .clz .. => execClz_answers ..
  | .ctz .. => execCtz_answers ..
  | .brev .. => execBrev_answers ..
  | .bfx .. => execBfx_answers ..
  | .bfi .. => execBfi_answers ..
  | .imov .. => execImov_answers ..
  | .vmovx .. => execVmovx_answers ..
  | .idot4 .. => execIdot4_answers ..
  | .icvt .. => execIcvt_answers ..
  | .iabsd .. => execIabsd_answers ..
  | .fadd .. => execFadd_answers ..
  | .fsub .. => execFsub_answers ..
  | .fmul .. => execFmul_answers ..
  | .ffma .. => execFfma_answers ..
  | .fmin .. => execFmin_answers ..
  | .fmax .. => execFmax_answers ..
  | .fabs .. => execFabs_answers ..
  | .fneg .. => execFneg_answers ..
  | .fcsgn .. => execFcsgn_answers ..
  | .fcmp .. => execFcmp_answers ..
  | .fclass .. => execFclass_answers ..
  | .fclassFl .. => execFclassFl_answers ..
  | .frcp .. => execFrcp_answers ..
  | .frsq .. => execFrsq_answers ..
  | .fsqrt .. => execFsqrt_answers ..
  | .fdiv .. => execFdiv_answers ..
  | .fexp2 .. => execFexp2_answers ..
  | .flog2 .. => execFlog2_answers ..
  | .fscale .. => execFscale_answers ..
  | .cvt .. => execCvt_answers ..
  | .cvtf .. => execCvtf_answers ..
  | .cvti .. => execCvti_answers ..
  | .frint .. => execFrint_answers ..
  | .cvtbs .. => execCvtbs_answers ..
  | .fdot2 .. => execFdot2_answers ..
  | .qswap .. => execQswap_answers ..
  | .qbcast .. => execQbcast_answers ..
  | .lxch .. => execLxch_answers ..
  | .lbcast .. => execLbcast_answers ..
  | .lred .. => execLred_answers ..
  | .lscan .. => execLscan_answers ..
  | .lpoll .. => execLpoll_answers ..
  | .pand .. => execPand_answers ..
  | .por .. => execPor_answers ..
  | .pxor .. => execPxor_answers ..
  | .pnot .. => execPnot_answers ..
  | .pmov .. => execPmov_answers ..
  | .lidx .. => execLidx_answers ..
  | .ld .. => execLd_answers ..
  | .st .. => execSt_answers ..
  | .lds .. => execLds_answers ..
  | .sts .. => execSts_answers ..
  | .sread .. => execSread_answers ..
  | .lda .. => execLda_answers ..
  | .sta .. => execSta_answers ..
  | .pf .. => execPf_answers ..
  | .wback .. => execWback_answers ..
  | .inv .. => execInv_answers ..
  | .atadd .. => execAtadd_answers ..
  | .atsub .. => execAtsub_answers ..
  | .atmin .. => execAtmin_answers ..
  | .atmax .. => execAtmax_answers ..
  | .atminN .. => execAtminN_answers ..
  | .atmaxN .. => execAtmaxN_answers ..
  | .atand .. => execAtand_answers ..
  | .ator .. => execAtor_answers ..
  | .atxor .. => execAtxor_answers ..
  | .atswp .. => execAtswp_answers ..
  | .atinc .. => execAtinc_answers ..
  | .atfadd .. => execAtfadd_answers ..
  | .atfaddRgn .. => execAtfaddRgn_answers ..
  | .acas .. => execAcas_answers ..
  | .bara .. => execBara_answers ..
  | .barw .. => execBarw_answers ..
  | .bars .. => execBars_answers ..
  | .semwTk .. => execSemwTk_answers ..
  | .semwTake .. => execSemwTake_answers ..
  | .semp .. => execSemp_answers ..
  | .mwait .. => execMwait_answers ..
  | .fence .. => execFence_answers ..
  | .cpy .. => execCpy_answers ..
  | .cpys .. => execCpys_answers ..
  | .cpyadd .. => execCpyadd_answers ..
  | .cpybc .. => execCpybc_answers ..
  | .plane .. => execPlane_answers ..
  | .unplane .. => execUnplane_answers ..
  | .cpyq .. => execCpyq_answers ..
  | .cpycan .. => execCpycan_answers ..
  | .cpyfill .. => execCpyfill_answers ..
  | .mma .. => execMma_answers ..
  | .mzero .. => execMzero_answers ..
  | .mstore .. => execMstore_answers ..
  | .msig .. => execMsig_answers ..
  | .mwaitb .. => execMwaitb_answers ..
  | .mloop .. => execMloop_answers ..
  | .mend => execMend_answers ..
  | .fork .. => execFork_answers ..
  | .mrd .. => execMrd_answers ..
  | .mwr .. => execMwr_answers ..
  | .mtol .. => execMtol_answers ..
  | .mstat .. => execMstat_answers ..
  | .mstatClr .. => execMstatClr_answers ..
  | .mchk .. => execMchk_answers ..
  | .mloc .. => execMloc_answers ..
  | .mfix .. => execMfix_answers ..
  | .mretry .. => execMretry_answers ..
  | .mresume .. => execMresume_answers ..
  | .mresumeAbandon .. => execMresumeAbandon_answers ..
  | .coll .. => execColl_answers ..
  | .cwait .. => execCwait_answers ..
  | .viewq .. => execViewq_answers ..
  | .viewack .. => execViewack_answers ..
  | .viewjoin .. => execViewjoin_answers ..
  | .cabort .. => execCabort_answers ..
  | .ckpt .. => execCkpt_answers ..
  | .ckptWait .. => execCkptWait_answers ..
  | .ckq .. => execCkq_answers ..
  | .digest .. => execDigest_answers ..
  | .detq .. => execDetq_answers ..
  | .brk .. => execBrk_answers ..
  | .tmark .. => execTmark_answers ..
  | .rdclk .. => execRdclk_answers ..
  | .launch .. => execLaunch_answers ..
  | .ximm .. => execXimm_answers ..
  | .unassignedOpcode .. => execUnassignedOpcode_answers ..
  | .lineFetch .. => execLineFetch_answers ..
  | .issueSetRotation .. => execIssueSetRotation_answers ..
  | .issueCycle .. => execIssueCycle_answers ..
  | .granuleGrant .. => execGranuleGrant_answers ..
  | .evictedWarpReturn .. => execEvictedWarpReturn_answers ..
  | .warpEviction .. => execWarpEviction_answers ..
  | .loadDataReturn .. => execLoadDataReturn_answers ..
  | .storePerformed .. => execStorePerformed_answers ..
  | .atomicResultReturn .. => execAtomicResultReturn_answers ..
  | .lockkeeperRequest .. => execLockkeeperRequest_answers ..
  | .semaphoreWatchEval .. => execSemaphoreWatchEval_answers ..
  | .mwaitReread .. => execMwaitReread_answers ..
  | .mwaitTimeout .. => execMwaitTimeout_answers ..
  | .cwaitTimeout .. => execCwaitTimeout_answers ..
  | .viewjoinTimeout .. => execViewjoinTimeout_answers ..
  | .acceptPacket .. => execAcceptPacket_answers ..
  | .packetReady .. => execPacketReady_answers ..
  | .placeCluster .. => execPlaceCluster_answers ..
  | .clusterAgeThreshold .. => execClusterAgeThreshold_answers ..
  | .blockRetire .. => execBlockRetire_answers ..
  | .launchComplete .. => execLaunchComplete_answers ..
  | .replayRingRead .. => execReplayRingRead_answers ..
  | .arrayGrant .. => execArrayGrant_answers ..
  | .mmaKstep .. => execMmaKstep_answers ..
  | .intervalRetryDone .. => execIntervalRetryDone_answers ..
  | .drainRetryDone .. => execDrainRetryDone_answers ..
  | .promotionHoldEnd .. => execPromotionHoldEnd_answers ..
  | .streamFaultDelivery .. => execStreamFaultDelivery_answers ..
  | .commandActive .. => execCommandActive_answers ..
  | .sectorMove .. => execSectorMove_answers ..
  | .pageRequestRetry .. => execPageRequestRetry_answers ..
  | .copyEnd .. => execCopyEnd_answers ..
  | .contextStopComplete .. => execContextStopComplete_answers ..
  | .drainTimeout .. => execDrainTimeout_answers ..
  | .exchangeComplete .. => execExchangeComplete_answers ..
  | .sliceLineLand .. => execSliceLineLand_answers ..
  | .savecostUpdate .. => execSavecostUpdate_answers ..
  | .ckptPeriodExpiry .. => execCkptPeriodExpiry_answers ..
  | .intervalClose .. => execIntervalClose_answers ..
  | .ckptRollbackNow .. => execCkptRollbackNow_answers ..
  | .collStamp .. => execCollStamp_answers ..
  | .heartbeatSend => execHeartbeatSend_answers ..
  | .heartbeatTimeout .. => execHeartbeatTimeout_answers ..
  | .proposeTimeout => execProposeTimeout_answers ..
  | .acceptTimeout .. => execAcceptTimeout_answers ..
  | .isolationRequestEnd .. => execIsolationRequestEnd_answers ..
  | .canalRetrainTimeout .. => execCanalRetrainTimeout_answers ..
  | .invalidationCompletion .. => execInvalidationCompletion_answers ..
  | .hwsemLapse => execHwsemLapse_answers ..
  | .queueTail .. => execQueueTail_answers ..
  | .queueCfg .. => execQueueCfg_answers ..
  | .queueBase .. => execQueueBase_answers ..
  | .queueErrctlClear .. => execQueueErrctlClear_answers ..
  | .queueAbort .. => execQueueAbort_answers ..
  | .registerWrite .. => execRegisterWrite_answers ..
  | .asderTranslationDone .. => execAsderTranslationDone_answers ..
  | .prgResponse .. => execPrgResponse_answers ..
  | .pageRequestEnable => execPageRequestEnable_answers ..
  | .atsTranslationCompletion .. => execAtsTranslationCompletion_answers ..
  | .atsInvalidation .. => execAtsInvalidation_answers ..
  | .eccUncorrectableError .. => execEccUncorrectableError_answers ..
  | .hostCompletionError .. => execHostCompletionError_answers ..
  | .hostCompletionTimeout .. => execHostCompletionTimeout_answers ..
  | .hostPostedWrite .. => execHostPostedWrite_answers ..
  | .hostRead .. => execHostRead_answers ..
  | .canalRequest .. => execCanalRequest_answers ..
  | .writeAcknowledgement .. => execWriteAcknowledgement_answers ..
  | .crossDomainTimeout .. => execCrossDomainTimeout_answers ..
  | .heartbeat .. => execHeartbeat_answers ..
  | .suspect sender view suspects => execSuspect_answers sender view suspects s
  | .propose .. => execPropose_answers ..
  | .accept .. => execAccept_answers ..
  | .refuse .. => execRefuse_answers ..
  | .viewCommit .. => execViewCommit_answers ..
  | .joinMessage .. => execJoinMessage_answers ..
  | .viewAdmit .. => execViewAdmit_answers ..
  | .viewRemove .. => execViewRemove_answers ..
  | .partialSum .. => execPartialSum_answers ..
  | .ready .. => execReady_answers ..
  | .collCommit .. => execCollCommit_answers ..
  | .abort .. => execAbort_answers ..
  | .flitReceive .. => execFlitReceive_answers ..
  | .flitAck .. => execFlitAck_answers ..
  | .flitNak .. => execFlitNak_answers ..
  | .retrainComplete .. => execRetrainComplete_answers ..
  | .d2dClear .. => execD2dClear_answers ..
  | .canalIsolate .. => execCanalIsolate_answers ..
  | .canalRestore .. => execCanalRestore_answers ..
  | .canalPortDown .. => execCanalPortDown_answers ..
  | .canalLinkUp .. => execCanalLinkUp_answers ..
  | .ctxPark .. => execCtxPark_answers ..
  | .ctxSave .. => execCtxSave_answers ..
  | .ctxRestore part val => execCtxRestore_answers part val s
  | .ctxSwitch .. => execCtxSwitch_answers ..
  | .ctxTerminate .. => execCtxTerminate_answers ..
  | .ctxCreate part val => execCtxCreate_answers part val s
  | .ckptCloseNow .. => execCkptCloseNow_answers ..
  | .checkpointMessage .. => execCheckpointMessage_answers ..
  | .parityBlock .. => execParityBlock_answers ..
  | .parityAck .. => execParityAck_answers ..
  | .cxlDrainDone .. => execCxlDrainDone_answers ..
  | .ringHeadWrite .. => execRingHeadWrite_answers ..
  | .ringBaseCfgWrite .. => execRingBaseCfgWrite_answers ..
  | .rplTail .. => execRplTail_answers ..
  | .rplCtlEnd .. => execRplCtlEnd_answers ..
  | .dbgHold .. => execDbgHold_answers ..
  | .dbgRelease .. => execDbgRelease_answers ..
  | .dbgReleaseAll part val => execDbgReleaseAll_answers part val s
  | .counterRead .. => execCounterRead_answers ..
  | .frzN => execFrzN_answers ..
  | .ctlFreeze .. => execCtlFreeze_answers ..
  | .debugPortRead .. => execDebugPortRead_answers ..
  | .hwsemRead .. => execHwsemRead_answers ..
  | .hwsemRelease .. => execHwsemRelease_answers ..
  | .nonce => execNonce_answers ..
  | .image .. => execImage_answers ..
  | .transfer .. => execTransfer_answers ..
  | .config .. => execConfig_answers ..
  | .attest .. => execAttest_answers ..
  | .keys => execKeys_answers ..
  | .coldReset => execColdReset_answers ..
  | .thermalThrottle .. => execThermalThrottle_answers ..

end Sys2Proof.Machine
end

section
namespace Sys2Proof.Machine

/-! ### What a step does -/

/-- An action that goes on, and goes on from states in memory's one form where `s` has it. -/
def Action.GoesOn (s : State) : Action → Prop
  | .exec _ t => s.mem.Canonical → t.mem.Canonical
  | .stay t => s.mem.Canonical → t.mem.Canonical
  | .events _ t idle => s.mem.Canonical → t.mem.Canonical ∧ idle.mem.Canonical
  | .notAnEvent => False

section turns
variable {s t : State}

theorem goesOn_exec {i : Instr} (h : s.mem.Canonical → t.mem.Canonical) : (Action.exec i t).GoesOn s := h

theorem goesOn_stay (h : s.mem.Canonical → t.mem.Canonical) : (Action.stay t).GoesOn s := h

theorem goesOn_ite {c : Prop} [Decidable c] {a b : Action} (ha : a.GoesOn s) (hb : b.GoesOn s) : (if c then a else b).GoesOn s := by
  split <;> assumption

/-- What goes on from one state goes on from every state whose memory's form it keeps. -/
theorem Action.GoesOn.trans {a : Action} (ha : a.GoesOn t) (h : s.mem.Canonical → t.mem.Canonical) : a.GoesOn s :=
  match a, ha with
  | .exec _ _, ha => fun hs => ha (h hs)
  | .stay _, ha => fun hs => ha (h hs)
  | .events _ _ _, ha => fun hs => ha (h hs)

@[simp] theorem State.poolError_canonical (h : s.mem.Canonical) (c : Ctx) (lanes : LaneMask) : (s.poolError c lanes).mem.Canonical := by
  unfold State.poolError
  extract_lets cleared
  split
  · next u hu => exact State.rollsWith_mem hu ▸ h
  · exact State.takeTrap_canonical (s := { cleared with upset := (0, 0) }) h ..

@[simp] theorem State.refusedWord_canonical (h : s.mem.Canonical) (c : Ctx) (w : IWord) : (s.refusedWord c w).mem.Canonical :=
  State.takeTrap_canonical h ..

@[simp] theorem State.refusedStreamWord_canonical (h : s.mem.Canonical) (c : SCtx) (w : IWord) :
    (s.refusedStreamWord c w).mem.Canonical := State.stopHere_canonical h ..

theorem State.runUnit_goesOn (s : State) (c : Ctx) (w : IWord) (i : Instr) : (s.runUnit c w i).GoesOn s :=
  goesOn_ite (goesOn_exec id) (goesOn_stay fun h => State.poolError_canonical h ..)

theorem State.unitTurn_goesOn (s : State) (c : Ctx) (l : Line) : (s.unitTurn c l).GoesOn s := by
  unfold State.unitTurn
  extract_lets hits w w'
  refine goesOn_ite (goesOn_stay fun h => State.matched_canonical h ..) ?_
  split
  · split
    · exact s.runUnit_goesOn ..
    · exact goesOn_stay fun h => State.refusedWord_canonical h ..
  · split
    · exact s.runUnit_goesOn ..
    · exact goesOn_stay fun h => State.refusedWord_canonical h ..

theorem State.pathTurn_goesOn (s : State) (wid pidx : Nat) (pre : Option (Nat × BitVec 32)) : (s.pathTurn wid pidx pre).GoesOn s := by
  unfold State.pathTurn
  split
  · exact goesOn_stay id
  · next c _ =>
    refine goesOn_ite (goesOn_stay fun h => State.hold_canonical h ..) ?_
    split
    · exact s.unitTurn_goesOn ..
    · have entered : (s.enterLine c).1.mem = s.mem := s.enterLine_mem c
      split
      · next t f he =>
        rw [he] at entered
        exact goesOn_stay fun h => State.entryTrap_canonical (entered ▸ h) ..
      · next t he =>
        rw [he] at entered
        split
        · split
          · exact (t.unitTurn_goesOn ..).trans fun h => entered ▸ h
          · exact goesOn_stay fun h => entered ▸ h
        · exact goesOn_stay fun h => entered ▸ h

theorem State.streamTurn_goesOn (s : State) (bid : Nat) (pre : Option (Nat × BitVec 32)) : (s.streamTurn bid pre).GoesOn s := by
  unfold State.streamTurn
  split
  · exact goesOn_stay id
  · next c _ =>
    have fetched : (s.streamFetch c).1.mem = s.mem := s.streamFetch_mem c
    split
    · next t f he =>
      rw [he] at fetched
      exact goesOn_stay fun h => State.stopPc_canonical (fetched ▸ h) ..
    · next t c' he =>
      rw [he] at fetched
      have kept (h : s.mem.Canonical) : t.mem.Canonical := fetched ▸ h
      extract_lets k w
      split
      · split
        · exact goesOn_exec kept
        · exact goesOn_stay fun h => State.refusedStreamWord_canonical (kept h) ..
      · split
        · exact goesOn_exec kept
        · exact goesOn_stay fun h => State.refusedStreamWord_canonical (kept h) ..

/-- The head of the agenda goes on, unless it is a word of a program. -/
theorem State.outside_cases (s : State) (i : Instr) (r : List Instr) :
    (s.outside i r).GoesOn s ∨ i.encodable = true ∧ s.outside i r = .notAnEvent := by
  by_cases hw : i.encodable = true
  · exact .inr ⟨hw, if_pos hw⟩
  · refine .inl ?_
    rw [State.outside, isWord, if_neg hw]
    exact goesOn_ite (goesOn_stay id) (goesOn_exec id)

theorem State.idle_canonical (h : s.mem.Canonical) : s.idle.mem.Canonical := by
  unfold State.idle
  split
  · exact h
  · simpa using h

/-- A step goes on, unless nobody issues and the agenda begins with a word of a program. -/
theorem State.turn_cases (s : State) :
    s.turn.GoesOn s
      ∨ s.turn = .notAnEvent ∧ (s.frozen = true ∨ s.focus = none) ∧ ∃ i r, s.agenda = i :: r ∧ i.encodable = true := by
  have agenda_head {i r} (ha : s.agenda = i :: r) (hf : s.frozen = true ∨ s.focus = none) :
      (s.outside i r).GoesOn s ∨
        s.outside i r = .notAnEvent ∧ (s.frozen = true ∨ s.focus = none) ∧ ∃ i r, s.agenda = i :: r ∧ i.encodable = true :=
    (s.outside_cases i r).imp id fun ⟨hw, ho⟩ => ⟨ho, hf, i, r, ha, hw⟩
  unfold State.turn
  split
  · next hf ha => exact agenda_head ha (.inl hf)
  · exact .inl (goesOn_stay id)
  · exact .inl (s.pathTurn_goesOn ..)
  · exact .inl (s.streamTurn_goesOn ..)
  · next _ hf ha => exact agenda_head ha (.inr hf)
  · refine .inl (goesOn_ite (fun h => ⟨h, State.idle_canonical h⟩) (goesOn_stay fun h => ?_))
    rw [State.startBoot_mem]
    exact h

theorem firstEffect_canonical (h : s.mem.Canonical) {is : List Instr} (ht : firstEffect s is = some t) : t.mem.Canonical := by
  induction is with
  | nil => cases ht
  | cons i r ih =>
    obtain ⟨u, hu, canonical⟩ := exec_answers i s
    rw [firstEffect, hu] at ht
    dsimp only at ht
    split at ht
    · exact ih ht
    · cases ht
      exact canonical h

theorem step_answers (h : s.turn.GoesOn s) : Answers s (step s) := by
  unfold step
  generalize s.turn = a at h ⊢
  cases a with
  | exec i t =>
    obtain ⟨u, hu, canonical⟩ := exec_answers i t
    exact ⟨u, hu, fun hs => canonical (h hs)⟩
  | stay t => exact answers_next h
  | events is t idle =>
    exact answers_next fun hs => State.getD_canonical (h hs).2 fun u hu => firstEffect_canonical (h hs).1 hu
  | notAnEvent => exact h.elim

theorem step_of_notAnEvent (h : s.turn = .notAnEvent) : step s = .fault .notAnEvent := by
  simp only [step, h]

end turns

/-- Settles O59: every operation of the model keeps memory's one form, so every instruction and event does, and so does a step. -/
theorem memoryStaysCanonical : Obligations.MemoryStaysCanonical := by
  intro s t h hstep
  obtain hgo | ⟨hstop, -⟩ := s.turn_cases
  · obtain ⟨u, hu, canonical⟩ := step_answers hgo
    cases hu.symm.trans hstep
    exact canonical h
  · cases (step_of_notAnEvent hstop).symm.trans hstep

/-- Settles O60: every arm of `exec` answers a next state, and a turn that has nothing to run is one whose agenda begins with a word. -/
theorem nothingIsRefused : Obligations.NothingIsRefused := by
  refine ⟨fun i s => ?_, fun s => ?_⟩
  · obtain ⟨t, ht, -⟩ := exec_answers i s
    exact ⟨t, ht⟩
  · obtain hgo | ⟨hstop, hidle, hword⟩ := s.turn_cases
    · obtain ⟨t, ht, -⟩ := step_answers hgo
      exact .inl ⟨t, ht⟩
    · exact .inr ⟨hidle, hword, step_of_notAnEvent hstop⟩

end Sys2Proof.Machine
end

section
namespace Sys2Proof.Machine

/-! ### The turn of a step -/

section step
variable {s t : State}

theorem step_of_exec {i : Instr} (h : s.turn = .exec i t) : step s = exec i t := by simp only [step, h]

theorem step_of_stay (h : s.turn = .stay t) : step s = .next t := by simp only [step, h]

theorem State.turn_of_path (hz : s.frozen = false) {wid i : Nat} {pre : Option (Nat × BitVec 32)} (hf : s.focus = some (.path wid i pre)) :
    s.turn = s.pathTurn wid i pre := by
  rw [State.turn, hz, hf]

theorem State.turn_of_stream (hz : s.frozen = false) {b : Nat} {pre : Option (Nat × BitVec 32)} (hf : s.focus = some (.stream b pre)) :
    s.turn = s.streamTurn b pre := by
  rw [State.turn, hz, hf]

theorem State.turn_of_agenda {i : Instr} {r : List Instr} (ha : s.agenda = i :: r) (hn : s.frozen = true ∨ s.focus = none) :
    s.turn = s.outside i r := by
  rw [State.turn, ha]
  cases hz : s.frozen with
  | true => rfl
  | false =>
    obtain hf : s.focus = none := by simpa [hz] using hn
    rw [hf]

theorem State.turn_of_frozen (ha : s.agenda = []) (hz : s.frozen = true) : s.turn = .stay s := by
  rw [State.turn, ha, hz]

/-! ### The unit of a path -/

theorem State.ctx?_pre {wid i : Nat} {pre : Option (Nat × BitVec 32)} {c : Ctx} (h : s.ctx? wid i pre = some c) : c.pre = pre := by
  obtain ⟨-, -, hpre, -⟩ := ctxOf_eq_some (Option.filter_eq_some_iff.1 h).1
  exact hpre

section unit
variable {c : Ctx} {l : Line} {x : Instr}

theorem State.unitTurn_of_decode (hp : c.pre = none) (hh : s.pcHits c = []) (hd : decode (l.word (pcSlot c.p.pc)) = .ok x) :
    s.unitTurn c l = s.runUnit c (l.word (pcSlot c.p.pc)) x := by
  simp [State.unitTurn, hp, hh, hd]

theorem State.unitTurn_of_refusal (hp : c.pre = none) (hh : s.pcHits c = []) {r : Reject}
    (hd : decode (l.word (pcSlot c.p.pc)) = .error r) : s.unitTurn c l = .stay (s.refusedWord c (l.word (pcSlot c.p.pc))) := by
  simp [State.unitTurn, hp, hh, hd]

theorem State.unitTurn_of_governed {sel : Nat} {payload : BitVec 32} (hp : c.pre = some (sel, payload))
    (hd : decodeGoverned sel payload (l.word (pcSlot c.p.pc + 1)) = .instr x) :
    s.unitTurn c l = s.runUnit c (l.word (pcSlot c.p.pc + 1)) x := by
  simp [State.unitTurn, hp, hd]

theorem State.runUnit_of_clean {w : IWord} (h : s.poolHit c (guardOf w) x = 0) : s.runUnit c w x = .exec x s := if_pos h

theorem State.runUnit_of_upset {w : IWord} (h : s.poolHit c (guardOf w) x ≠ 0) :
    s.runUnit c w x = .stay (s.poolError c (s.poolHit c (guardOf w) x)) := if_neg h

variable {wid i : Nat} {pre : Option (Nat × BitVec 32)}

theorem State.pathTurn_of_line (hc : s.ctx? wid i pre = some c) (hh : c.p.holdAsked = false) (hl : c.p.line = some l) :
    s.pathTurn wid i pre = s.unitTurn c l := by
  simp [State.pathTurn, hc, hh, hl]

theorem State.pathTurn_of_entry (hc : s.ctx? wid i pre = some c) (hh : c.p.holdAsked = false) (hl : c.p.line = none)
    (he : s.enterLine c = (t, none)) {c' : Ctx} (hc' : t.ctx? wid i pre = some c') (hl' : c'.p.line = some l) :
    s.pathTurn wid i pre = t.unitTurn c' l := by
  simp [State.pathTurn, hc, hh, hl, he, hc', hl']

theorem State.pathTurn_of_refused_line (hc : s.ctx? wid i pre = some c) (hh : c.p.holdAsked = false) (hl : c.p.line = none) {f : PcFault}
    (he : s.enterLine c = (t, some f)) : s.pathTurn wid i pre = .stay (t.entryTrap c f) := by
  simp [State.pathTurn, hc, hh, hl, he]

/-! ### Registers with an uncorrectable error (R484) -/

theorem State.poolHit_of_clean {g : Guard} (h : ∀ y ∈ s.poolUpset, y.1 ≠ c.wid) : s.poolHit c g x = 0 := by
  refine if_neg fun hany => ?_
  obtain ⟨y, hy, hw⟩ := List.any_eq_true.1 hany
  simp [h y hy] at hw

theorem Ctx.mem_poolReads {k : Nat} (h : .v k ∈ x.reads) : k ∈ c.poolReads x := by
  have named : k ∈ x.reads.filterMap fun r => match r with | .v k => some k | _ => none := List.mem_filterMap.2 ⟨_, h, rfl⟩
  unfold Ctx.poolReads
  split
  · exact List.mem_append_left _ named
  · exact named

theorem State.poolHit_of_upset {g : Guard} {k : Nat} (hu : (c.wid, (c.w.wbase + k) % c.w.n) ∈ s.poolUpset) (hk : k < c.w.width)
    (hr : .v k ∈ x.reads) : s.poolHit c g x = c.act g := by
  refine if_pos (List.any_eq_true.2 ⟨_, hu, ?_⟩)
  simpa using ⟨k, Ctx.mem_poolReads hr, hk, rfl⟩

end unit

theorem State.rollsWith_of_asked {part cls bit : Nat} {pt : Partition} (hp : s.parts.get? part = some pt)
    (h : cls ≠ 0 ∧ pt.ck.rolls < 3 ∧ pt.ck.cfgNow.getLsbD bit = true) :
    s.rollsWith part cls bit = some (s.setCk part fun k => { k with due := true }) := by
  obtain ⟨hcls, hrolls, hbit⟩ := h
  simp [State.rollsWith, hp, hcls, hrolls, hbit]

theorem State.rollsWith_of_not_asked {part cls bit : Nat} {pt : Partition} (hp : s.parts.get? part = some pt)
    (h : ¬(cls ≠ 0 ∧ pt.ck.rolls < 3 ∧ pt.ck.cfgNow.getLsbD bit = true)) : s.rollsWith part cls bit = none := by
  have refused : cls = 0 ∨ 3 ≤ pt.ck.rolls ∨ (!pt.ck.cfgNow.getLsbD bit) = true := by
    by_contra hn
    refine h ?_
    simpa using hn
  simp only [State.rollsWith, hp]
  exact if_pos refused

/-- The state from which an uncorrectable register error of a warp is answered: nobody issues, and the warp's error stands no more. -/
def State.poolCleared (s : State) (c : Ctx) : State := { s with poolUpset := s.poolUpset.filter (·.1 != c.wid), focus := none }

theorem State.poolError_of_rolls {c : Ctx} {lanes : LaneMask} {u : State}
    (h : (s.poolCleared c).rollsWith c.env.part (s.classOf c.w.block) 0 = some u) : s.poolError c lanes = u := by
  unfold State.poolError
  extract_lets cleared
  split
  · next v hv => exact Option.some.inj (hv.symm.trans h)
  · next hv => cases hv.symm.trans h

theorem State.poolError_of_trap {c : Ctx} {lanes : LaneMask}
    (h : (s.poolCleared c).rollsWith c.env.part (s.classOf c.w.block) 0 = none) :
    s.poolError c lanes = { ({ s.poolCleared c with upset := (0, 0) }.takeTrap c.wid c.pidx ⟨0x50, 0, 0, lanes⟩ (unitOf c.p c.pre)) with
      upset := s.upset } := by
  unfold State.poolError
  extract_lets cleared
  split
  · next v hv => cases hv.symm.trans h
  · rfl

/-! ### The unit of a stream -/

section stream
variable {b : Nat} {c c' : SCtx} {l : Line} {x : Instr}

theorem State.streamTurn_of_decode (hc : s.stream? b none = some c) (hf : s.streamFetch c = (t, .ok c')) (hl : c'.m.line = some l)
    (hd : decode (l.word (pcSlot c'.m.place)) = .ok x) : s.streamTurn b none = .exec x t := by
  simp [State.streamTurn, hc, hf, hl, hd]

theorem State.streamTurn_of_governed {sel : Nat} {payload : BitVec 32} (hc : s.stream? b (some (sel, payload)) = some c)
    (hf : s.streamFetch c = (t, .ok c')) (hl : c'.m.line = some l)
    (hd : decodeGoverned sel payload (l.word (pcSlot c'.m.place + 1)) = .instr x) :
    s.streamTurn b (some (sel, payload)) = .exec x t := by
  simp [State.streamTurn, hc, hf, hl, hd]

theorem State.streamTurn_of_refused_line (hc : s.stream? b none = some c) {f : PcFault} (hf : s.streamFetch c = (t, .error f)) :
    s.streamTurn b none = .stay (t.stopPc c f) := by
  simp [State.streamTurn, hc, hf]

end stream

/-! ### The head of the agenda -/

section agenda
variable {i : Instr} {r : List Instr}

theorem State.outside_of_word (h : i.encodable = true) : s.outside i r = .notAnEvent := if_pos h

theorem State.outside_of_frozen (h : i.encodable = false) (hz : s.frozen = true) (hi : whileFrozen i = false) :
    s.outside i r = .stay { s with agenda := r } := by
  simp [State.outside, isWord, h, hz, hi]

theorem State.outside_of_event (h : i.encodable = false) (hz : s.frozen = false ∨ whileFrozen i = true) :
    s.outside i r = .exec i { s with agenda := r } := by
  obtain hz | hz := hz <;> simp [State.outside, isWord, h, hz]

theorem whileFrozen_iff : whileFrozen i = true ↔ (∃ a n, i = .debugPortRead a n) ∨ i = .coldReset := by
  constructor
  · intro h
    unfold whileFrozen at h
    split at h
    · exact .inl ⟨_, _, rfl⟩
    · exact .inr rfl
    · cases h
  · rintro (⟨a, n, rfl⟩ | rfl) <;> rfl

end agenda
end step

theorem Line.word_ofBytes (addr : Nat) (bs : List Byte) {k : Nat} (hk : k < 5) :
    (Line.ofBytes addr bs).word k = wordOfBytes ((bs.drop (12 * k)).take 12) := by
  interval_cases k <;> rfl

/-- Settles O57: each kind of turn by its own lemma, from the turn's choice down to the word or event that runs. -/
theorem stepRunsTheDecodedInstruction : Obligations.StepRunsTheDecodedInstruction := by
  refine ⟨fun addr bs k hk => Line.word_ofBytes addr bs hk, ?_, ?_, ?_, ?_, ?_, ?_, ?_, ?_⟩
  · intro s wid i c l hz hf hc hh
    have turn := State.turn_of_path hz hf
    have pre := State.ctx?_pre hc
    refine ⟨fun x hl hp hd => ?_, fun r hl hp hd => ?_, fun t c' x hl he hc' hl' hp hd hx => ?_, fun t f hl he => ?_⟩
    · rw [State.pathTurn_of_line hc hh hl, State.unitTurn_of_decode pre hp hd] at turn
      exact ⟨fun hx => step_of_exec (turn.trans (State.runUnit_of_clean hx)),
        fun hx => step_of_stay (turn.trans (State.runUnit_of_upset hx))⟩
    · rw [State.pathTurn_of_line hc hh hl, State.unitTurn_of_refusal pre hp hd] at turn
      exact step_of_stay turn
    · rw [State.pathTurn_of_entry hc hh hl he hc' hl', State.unitTurn_of_decode (State.ctx?_pre hc') hp hd,
        State.runUnit_of_clean hx] at turn
      exact step_of_exec turn
    · rw [State.pathTurn_of_refused_line hc hh hl he] at turn
      exact step_of_stay turn
  · intro s wid i sel payload c l x hz hf hc hh hl hd hx
    refine step_of_exec ?_
    rw [State.turn_of_path hz hf, State.pathTurn_of_line hc hh hl, State.unitTurn_of_governed (State.ctx?_pre hc) hd,
      State.runUnit_of_clean hx]
  · exact fun s c g x => ⟨State.poolHit_of_clean, fun k => State.poolHit_of_upset⟩
  · intro s c lanes pt hp t rolls
    exact ⟨fun h => State.poolError_of_rolls (State.rollsWith_of_asked hp h),
      fun h => State.poolError_of_trap (State.rollsWith_of_not_asked hp h)⟩
  · intro s t b c c' l hz hl
    exact ⟨fun x hf hc he hd => step_of_exec ((State.turn_of_stream hz hf).trans (State.streamTurn_of_decode hc he hl hd)),
      fun sel payload x hf hc he hd => step_of_exec ((State.turn_of_stream hz hf).trans (State.streamTurn_of_governed hc he hl hd))⟩
  · exact fun s t b c f hz hf hc he => step_of_stay ((State.turn_of_stream hz hf).trans (State.streamTurn_of_refused_line hc he))
  · intro s i r ha hn
    have turn := State.turn_of_agenda ha hn
    refine ⟨fun hw => step_of_notAnEvent (turn.trans (State.outside_of_word hw)), fun hw hz hread hreset => ?_, fun hw hz => ?_⟩
    · have passed : whileFrozen i = false := by
        rw [Bool.eq_false_iff]
        intro h
        obtain ⟨a, n, h⟩ | h := whileFrozen_iff.1 h
        · exact hread a n h
        · exact hreset h
      exact step_of_stay (turn.trans (State.outside_of_frozen hw hz passed))
    · exact step_of_exec (turn.trans (State.outside_of_event hw (hz.imp id whileFrozen_iff.2)))
  · exact fun s ha hz => step_of_stay (State.turn_of_frozen ha hz)

end Sys2Proof.Machine
end

section
/-! The command processor: a packet whose number needs more than the 48 bits of a queue's counters (R56), which the model holds as
numbers without a bound. A launch id holds queue and number side by side (R33), so the id of number 2^48 of queue 5 is that of number 0
of queue 6, and the model copies the packet's arguments to the place of queue 6 (R35). -/
namespace Sys2Proof.Machine

/-- A queue whose head and tail have passed 48 bits. -/
def lateQueue : Queue := { Queue.reset with base := 0x300000, log2 := 4, enable := true, tail := 2 ^ 48 + 1, head := 2 ^ 48 }

/-- The placed partition with that queue as its queue 5. -/
def latePart : Partition := { placedPart with argArea := 0x400000, queues := [(5, lateQueue)] }

/-- A native packet with an argument block of 16 bytes at 0x600000. -/
def latePacket : List Byte :=
  ((placedLaunch.words.set 6 0x1000404020).set 8 0x600000).flatMap fun w => leBytes 8 w.toNat

/-- The machine with that packet at the head of the queue, and 7 as the first byte of its arguments. -/
def lateState : State :=
  let s := State.reset.withFetchWord 96 (encode (.nop .always)).toNat
  { s with mem := (s.mem.write 0x300000 latePacket).write 0x600000 [7], parts := [(0, latePart)] }

/-- The packet as it is accepted. -/
def lateLaunch : Launch :=
  Launch.ofWords ((List.range 32).map fun k => BitVec.ofNat 64 (fieldAt latePacket (8 * k) 8)) 0 latePart.accepted

/-- The state once the packet has been taken from its queue. -/
def lateTaken : State :=
  (lateState.setPart 0 fun p => { p with accepted := p.accepted + 1, acceptedAt := some lateState.cycle, lastServed := 5 }).setQueue 0 5
    fun x => { x with head := x.head + 1, aborts := x.aborts.filter (· != 2 ^ 48) }

/-- The arguments copied to the place of number 2^48 of queue 5. -/
def lateArguments : State × Bool :=
  copyArguments 0 5 (lateLaunch.word 8).toNat (latePart.argArea + 4096 * (64 * 5 + 2 ^ 48 % 64)) (lateLaunch.argSize / 16) lateTaken

theorem lateState_serves_5 : lateState.queueServes 0 5 (latePart.queue 5) = true := by decide +kernel

theorem latePart_queue_other {q : Nat} (h : q ≠ 5) : latePart.queue q = Queue.reset := by
  simp [Partition.queue, NMap.getD, latePart, NMap.get?_cons, h.symm]

/-- Queue 5 is the only one that can be served. -/
theorem lateState_serves_only_5 {q : Nat} (h : lateState.queueServes 0 q (latePart.queue q) = true) : q = 5 := by
  by_contra hq
  rw [latePart_queue_other hq] at h
  cases h

theorem lateState_readPlain : lateState.readPlain ⟨0, 0⟩ 0x300000 256 = .ok latePacket := by decide +kernel

theorem lateState_checkPacket : lateState.checkPacket 0 5 (2 ^ 48) lateLaunch = 0 := by decide +kernel

/-- The copy that the statement names succeeds, and leaves the place of queue 6 as it was. -/
theorem lateArguments_queue6 : lateArguments.2 = true ∧ lateArguments.1.mem.byte 0x580000 = 0 := by decide +kernel

/-- The model's copy goes to the place of queue 6. -/
theorem lateState_accept_queue6 {t : State} (h : exec (.acceptPacket 0) lateState = .next t) : t.mem.byte 0x580000 = 7 := by
  have copied : (match exec (.acceptPacket 0) lateState with | .next t => t.mem.byte 0x580000 | _ => 0) = 7 := by decide +kernel
  rw [h] at copied
  exact copied

/-- Refutes O44: the statement puts no bound on a queue's head. From 2^48 on the place of an argument block that it computes from queue
and number is not the place of the packet's launch id, where the model copies the arguments. -/
theorem not_commandProcessorEvents : ¬ Obligations.CommandProcessorEvents := by
  intro h
  obtain ⟨accepting, -⟩ := h
  have turn := (accepting lateState 0 latePart rfl rfl rfl rfl (by decide)).2.2 (by decide) (by decide)
  have first : ∀ k, (k < 64 ∧ lateState.queueServes 0 k (latePart.queue k) = true) → (5 + 63 - latePart.lastServed) % 64
      ≤ (k + 63 - latePart.lastServed) % 64 := by
    rintro k ⟨-, hk⟩
    rw [lateState_serves_only_5 hk]
  obtain ⟨t, p, run, -, -, -, -, -, -, -, held, -⟩ :=
    turn.2 5 latePacket ⟨by decide, lateState_serves_5⟩ first lateState_readPlain rfl
  have stands : t = State.wake { lateArguments.1 with launches := _ } .monitor :=
    held lateState_checkPacket lateArguments_queue6.1 (by decide) (by decide)
  have theirs : t.mem.byte 0x580000 = 0 := by
    rw [stands]
    exact lateArguments_queue6.2
  have ours := lateState_accept_queue6 run
  rw [theirs] at ours
  cases ours

end Sys2Proof.Machine
end

section
/-! Host writes of the queue registers, of the ring registers and of BAR0 (spec/02 R57, R58, R66, spec/27 R520, R521, spec/28 R535, spec/29
R546): what each event does, case by case, and the obligation assembled from these. -/
namespace Sys2Proof.Machine

/-! ### A change of one partition or of one launch -/

section changes
variable {s : State} {part q lid : Nat} {pt : Partition} {l : Launch}

theorem State.setPart_get?_same (h : s.parts.get? part = some pt) (f : Partition → Partition) :
    (s.setPart part f).parts.get? part = some (f pt) := by
  simp [NMap.get?_adjust, h]

theorem State.setPart_get?_other {k : Nat} (hk : k ≠ part) (f : Partition → Partition) :
    (s.setPart part f).parts.get? k = s.parts.get? k := by
  simp [NMap.get?_adjust, hk]

/-- The state `t` is `s` with one partition changed, to `y`. -/
def State.PartBecomes (s t : State) (part : Nat) (y : Partition) : Prop :=
  t = { s with parts := t.parts } ∧ t.parts.get? part = some y ∧ ∀ k, k ≠ part → t.parts.get? k = s.parts.get? k

theorem State.setPart_becomes (h : s.parts.get? part = some pt) (f : Partition → Partition) :
    s.PartBecomes (s.setPart part f) part (f pt) :=
  ⟨rfl, s.setPart_get?_same h f, fun _ hk => s.setPart_get?_other hk f⟩

theorem State.setQueue_becomes (h : s.parts.get? part = some pt) (f : Queue → Queue) :
    s.PartBecomes (s.setQueue part q f) part { pt with queues := pt.queues.put q (f (pt.queue q)) } :=
  s.setPart_becomes h _

/-- An error of a queue is kept where none stands, and counted (R58). -/
def Queue.failed (x : Queue) (status seq : Nat) : Queue :=
  { x with
    errStatus := if x.errStatus = 0 ∧ x.errSeq = 0 then status else x.errStatus
    errSeq := if x.errStatus = 0 ∧ x.errSeq = 0 then seq else x.errSeq
    errCount := min (x.errCount + 1) (2 ^ 32 - 1) }

theorem State.queueError_becomes (h : s.parts.get? part = some pt) (status seq : Nat) :
    s.PartBecomes (s.queueError part q status seq) part
      { pt with queues := pt.queues.put q ((pt.queue q).failed status seq) } :=
  s.setQueue_becomes h _

theorem State.setLaunch_get?_same (h : s.launches.get? lid = some l) (f : Launch → Launch) :
    (s.setLaunch lid f).launches.get? lid = some (f l) := by
  simp [NMap.get?_adjust, h]

theorem State.setLaunch_get?_other {k : Nat} (hk : k ≠ lid) (f : Launch → Launch) :
    (s.setLaunch lid f).launches.get? k = s.launches.get? k := by
  simp [NMap.get?_adjust, hk]

end changes

/-! ### The branches of an event's next state -/

theorem exec_of_pos {i : Instr} {s a b : State} {c : Prop} [Decidable c] (h : exec i s = .next (if c then a else b)) (hc : c) :
    exec i s = .next a := by
  rw [h, if_pos hc]

theorem exec_of_neg {i : Instr} {s a b : State} {c : Prop} [Decidable c] (h : exec i s = .next (if c then a else b)) (hc : ¬c) :
    exec i s = .next b := by
  rw [h, if_neg hc]

/-! ### Queue registers (R57, R58, R66) -/

section queues
variable {s : State} {part q : Nat} {pt : Partition} (h : s.parts.get? part = some pt)
include h

/-- A refused write of a register of queue q. -/
theorem State.queueWriteError_becomes (status : Nat) :
    s.PartBecomes (s.queueWriteError part q status) part
      { pt with queues := pt.queues.put q ((pt.queue q).failed status (pt.queue q).tail) } := by
  have h' : s.queueWriteError part q status = s.queueError part q status (pt.queue q).tail := by simp [State.queueWriteError, h]
  rw [h']
  exact s.queueError_becomes h status _

variable (hq : q < 64) (v : Word)
include hq

theorem State.onQueue_eq (f : Partition → Queue → State) : s.onQueue part q f = .next (f pt (pt.queue q)) := by
  simp [State.onQueue, h, hq]

theorem exec_queueTail : exec (.queueTail part q v) s = .next (
    let x := pt.queue q
    let n := (v.extractLsb' 0 48).toNat
    if x.devFeed = true then s.queueWriteError part q 0x0111
    else if x.enable = false then s.queueWriteError part q 0x0112
    else if n < x.tail ∨ x.head + 2 ^ x.log2 < n then s.queueWriteError part q 0x0110
    else (s.setQueue part q fun x => { x with tail := n }).wake .monitor) := by
  change execQueueTail part q v s = _
  simp [execQueueTail, State.onQueue_eq h hq]

theorem exec_queueCfg : exec (.queueCfg part q v) s = .next (
    let x := pt.queue q
    let m := (v.extractLsb' 4 5).toNat
    if m < 4 ∨ 16 < m ∨ (x.enable = true ∧ (m ≠ x.log2 ∨ v.getLsbD 1 ≠ x.devFeed)) then s.queueWriteError part q 0x0113
    else s.setQueue part q fun x => { x with log2 := m, serial := v.getLsbD 2, devFeed := v.getLsbD 1, enable := v.getLsbD 0 }) := by
  change execQueueCfg part q v s = _
  exact State.onQueue_eq h hq _

theorem exec_queueBase : exec (.queueBase part q v) s = .next (
    if (pt.queue q).enable = true then s.queueWriteError part q 0x0113
    else s.setQueue part q fun x => { x with base := (v.extractLsb' 12 35).toNat * 4096 }) := by
  change execQueueBase part q v s = _
  exact State.onQueue_eq h hq _

theorem exec_queueErrctlClear : exec (.queueErrctlClear part q v) s = .next (
    if v.getLsbD 32 = true then s.setQueue part q fun x => { x with errStatus := 0, errSeq := 0, errCount := 0 } else s) := by
  change execQueueErrctlClear part q v s = _
  exact State.onQueue_eq h hq _

theorem exec_queueAbort_beyond (ht : (pt.queue q).tail ≤ (v.extractLsb' 0 48).toNat) :
    exec (.queueAbort part q v) s = .next (s.queueError part q 0x0114 (v.extractLsb' 0 48).toNat) := by
  change execQueueAbort part q v s = _
  simp only [execQueueAbort, State.onQueue_eq h hq, if_pos ht]

variable (ht : (v.extractLsb' 0 48).toNat < (pt.queue q).tail)
include ht

/-- Before acceptance an abort is noted once. -/
theorem exec_queueAbort_unaccepted (hn : (pt.queue q).head ≤ (v.extractLsb' 0 48).toNat) : exec (.queueAbort part q v) s = .next (
    if (v.extractLsb' 0 48).toNat ∈ (pt.queue q).aborts then s
    else s.setQueue part q fun x => { x with aborts := (v.extractLsb' 0 48).toNat :: x.aborts }) := by
  change execQueueAbort part q v s = _
  simp only [execQueueAbort, State.onQueue_eq h hq, if_neg (Nat.not_le.2 ht), if_pos hn, List.contains_eq_mem, decide_eq_true_eq]

variable (hn : (v.extractLsb' 0 48).toNat < (pt.queue q).head)
include hn

theorem exec_queueAbort_completed (hl : s.launches.get? (launchId part q (v.extractLsb' 0 48).toNat) = none) :
    exec (.queueAbort part q v) s = .next (s.queueError part q 0x0114 (v.extractLsb' 0 48).toNat) := by
  change execQueueAbort part q v s = _
  simp only [execQueueAbort, State.onQueue_eq h hq, if_neg (Nat.not_le.2 ht), if_neg (Nat.not_le.2 hn), hl]

theorem exec_queueAbort_accepted {l : Launch} (hl : s.launches.get? (launchId part q (v.extractLsb' 0 48).toNat) = some l) :
    exec (.queueAbort part q v) s = .next (
      if l.state = .waiting then s.completePacket (launchId part q (v.extractLsb' 0 48).toNat) l 0x0108
      else s.setLaunch (launchId part q (v.extractLsb' 0 48).toNat) fun l => { l with aborted := true, wait := none }) := by
  change execQueueAbort part q v s = _
  simp only [execQueueAbort, State.onQueue_eq h hq, if_neg (Nat.not_le.2 ht), if_neg (Nat.not_le.2 hn), hl]
  split <;> simp_all

end queues

/-! ### Ring registers (R520, R521, R535) -/

section rings
variable {s : State} {part : Nat} {pt : Partition}

/-- The state `t` has the memory of `s` and its partitions but one, which is `y`. -/
def State.RingBecomes (s t : State) (part : Nat) (y : Partition) : Prop :=
  t.mem = s.mem ∧ t.parts.get? part = some y ∧ ∀ k, k ≠ part → t.parts.get? k = s.parts.get? k

theorem State.setPart_ringBecomes (h : s.parts.get? part = some pt) (f : Partition → Partition) :
    s.RingBecomes (s.setPart part f) part (f pt) :=
  ⟨rfl, s.setPart_get?_same h f, fun _ hk => s.setPart_get?_other hk f⟩

theorem State.setPart_wake_ringBecomes (h : s.parts.get? part = some pt) (f : Partition → Partition) (r : ParkReason) :
    s.RingBecomes ((s.setPart part f).wake r) part (f pt) :=
  s.setPart_ringBecomes h f

/-- With no record dropped, or none of their kind enabled, there is nothing to tell (R537). -/
theorem State.tellLost_eq (h : s.parts.get? part = some pt) (hd : pt.dropped = 0 ∨ pt.trcEn.getLsbD 7 = false) :
    s.tellLost part = s := by
  have silent : (decide (pt.dropped = 0) || !pt.trcEn.getLsbD 7) = true := by rcases hd with hd | hd <;> simp only [hd] <;> simp
  simp only [State.tellLost, h, silent, Bool.true_or, if_true]

/-- A value outside the bounds a counter's write must keep. -/
theorem notWithin {low n top : Nat} (hn : n < low ∨ top < n) : (decide (low ≤ n) && decide (n ≤ top)) = false := by
  rcases hn with hn | hn <;> simp [hn]

variable (h : s.parts.get? part = some pt) (v : Word)
include h

theorem exec_ringHeadWrite_guestbook (hn : pt.gbk.head ≤ v.toNat % 2 ^ 48) (hc : v.toNat % 2 ^ 48 ≤ pt.gbk.cmt) :
    exec (.ringHeadWrite part .guestbook v) s = .next (
      s.setPart part fun p => { p with gbk := { p.gbk with head := v.toNat % 2 ^ 48 } }) := by
  change execRingHeadWrite part .guestbook v s = _
  simp only [execRingHeadWrite, h, low48, hn, hc, decide_true, Bool.and_self, if_true]

theorem exec_ringHeadWrite_logbook (hn : pt.log.head ≤ v.toNat % 2 ^ 48) (hc : v.toNat % 2 ^ 48 ≤ pt.log.cmt) :
    exec (.ringHeadWrite part .logbook v) s = .next (
      (s.setPart part fun p => { p with log := { p.log with head := v.toNat % 2 ^ 48 } }).wake .monitor) := by
  change execRingHeadWrite part .logbook v s = _
  simp only [execRingHeadWrite, h, low48, hn, hc, decide_true, Bool.and_self, if_true]

/-- A write of the trace ring's HEAD where no record tells of lost ones (R537). -/
theorem exec_ringHeadWrite_trace (hn : pt.trc.head ≤ v.toNat % 2 ^ 48) (hc : v.toNat % 2 ^ 48 ≤ pt.trc.tail)
    (hd : pt.dropped = 0 ∨ pt.trcEn.getLsbD 7 = false) :
    exec (.ringHeadWrite part .trace v) s = .next (
      s.setPart part fun p => { p with trc := { p.trc with head := v.toNat % 2 ^ 48 } }) := by
  change execRingHeadWrite part .trace v s = _
  simp only [execRingHeadWrite, h, low48, hn, hc, decide_true, Bool.and_self, if_true]
  rw [State.tellLost_eq (s.setPart_get?_same h _) hd]

/-- The values a ring's HEAD takes, from its head to its limit; none where it is read only. -/
def Partition.headRange (p : Partition) : Ring → Option (Nat × Nat)
  | .guestbook => some (p.gbk.head, p.gbk.cmt)
  | .logbook => some (p.log.head, p.log.cmt)
  | .trace => some (p.trc.head, p.trc.tail)
  | .replay => none

theorem exec_ringHeadWrite_ignored (r : Ring)
    (hn : ∀ x, pt.headRange r = some x → v.toNat % 2 ^ 48 < x.1 ∨ x.2 < v.toNat % 2 ^ 48) :
    exec (.ringHeadWrite part r v) s = .next s := by
  change execRingHeadWrite part r v s = _
  cases r with
  | replay => simp only [execRingHeadWrite, h]
  | guestbook =>
    have outside := notWithin (n := low48 v) (low := pt.gbk.head) (top := pt.gbk.cmt) (hn _ rfl)
    simp only [execRingHeadWrite, h, outside, Bool.false_eq_true, if_false]
  | logbook =>
    have outside := notWithin (n := low48 v) (low := pt.log.head) (top := pt.log.cmt) (hn _ rfl)
    simp only [execRingHeadWrite, h, outside, Bool.false_eq_true, if_false]
  | trace =>
    have outside := notWithin (n := low48 v) (low := pt.trc.head) (top := pt.trc.tail) (hn _ rfl)
    simp only [execRingHeadWrite, h, outside, Bool.false_eq_true, if_false]

theorem exec_ringBaseCfgWrite_traceCfg : exec (.ringBaseCfgWrite part .trace true v) s = .next (
    s.setPart part fun p => { p with trcEn := v.extractLsb' 8 8, trc := { p.trc with log2 := v.toNat % 32 } }) := by
  change execRingBaseCfgWrite part .trace true v s = _
  simp only [execRingBaseCfgWrite, h, decide_true, Bool.and_self, if_true]

/-- While a context stands, BASE and CFG are ignored. -/
theorem exec_ringBaseCfgWrite_busy {r : Ring} {cfg : Bool} (hr : r ≠ .trace ∨ cfg = false) (hc : pt.ctx.state ≠ 0) :
    exec (.ringBaseCfgWrite part r cfg v) s = .next s := by
  change execRingBaseCfgWrite part r cfg v s = _
  have plain : (decide (r = .trace) && cfg) = false := by rcases hr with hr | hr <;> simp [hr]
  simp only [execRingBaseCfgWrite, h, plain, hc, ne_eq, not_false_eq_true, if_true, Bool.false_eq_true, if_false]

/-- With no context, BASE and CFG restart a ring. -/
def Partition.restartRing (p : Partition) (r : Ring) (cfg : Bool) (v : Word) : Partition :=
  match r with
  | .guestbook => { p with gbk := p.gbk.configured cfg v, closed := [] }
  | .logbook => { p with log := p.log.configured cfg v }
  | .replay => { p with rpl := p.rpl.configured cfg v, replayHeld := [] }
  | .trace => { p with trc := p.trc.configured cfg v }

theorem exec_ringBaseCfgWrite_idle (r : Ring) {cfg : Bool} (hr : r ≠ .trace ∨ cfg = false) (hc : pt.ctx.state = 0) :
    exec (.ringBaseCfgWrite part r cfg v) s = .next (s.setPart part fun p => p.restartRing r cfg v) := by
  change execRingBaseCfgWrite part r cfg v s = _
  have plain : (decide (r = .trace) && cfg) = false := by rcases hr with hr | hr <;> simp [hr]
  simp only [execRingBaseCfgWrite, h, plain, hc, ne_eq, not_true_eq_false, Bool.false_eq_true, if_false]
  cases r <;> rfl

theorem exec_rplTail_accepted (hn : pt.rpl.tail ≤ v.toNat % 2 ^ 48) (hc : v.toNat % 2 ^ 48 ≤ pt.rpl.cmt + 2 ^ pt.rpl.log2) :
    exec (.rplTail part v) s = .next (
      s.setPart part fun p => { p with rpl := { p.rpl with tail := v.toNat % 2 ^ 48, fin := false } }) := by
  change execRplTail part v s = _
  simp only [execRplTail, h, low48, hn, hc, decide_true, Bool.and_self, if_true]

theorem exec_rplTail_ignored (hn : v.toNat % 2 ^ 48 < pt.rpl.tail ∨ pt.rpl.cmt + 2 ^ pt.rpl.log2 < v.toNat % 2 ^ 48) :
    exec (.rplTail part v) s = .next (s.setPart part fun p => { p with rpl := { p.rpl with fin := false } }) := by
  change execRplTail part v s = _
  have outside := notWithin (n := low48 v) hn
  simp only [execRplTail, h, outside, Bool.false_eq_true, if_false]

omit h in
theorem exec_rplCtlEnd_end (hv : v.getLsbD 48 = true) : exec (.rplCtlEnd part v) s = .next (
    (s.setPart part fun p => { p with rpl := { p.rpl with fin := true } }).wake .monitor) :=
  if_pos hv

omit h in
theorem exec_rplCtlEnd_other (hv : v.getLsbD 48 = false) : exec (.rplCtlEnd part v) s = .next s :=
  if_neg (Bool.eq_false_iff.1 hv)

end rings

/-! ### Register writes of BAR0 (R545, R546) -/

section registers
variable {s : State} {part : Nat} {pt : Partition}

theorem exec_registerWrite_misaligned (port off : Nat) (v : Word) (ho : off % 8 ≠ 0) : exec (.registerWrite port off v) s = .next s := by
  change execRegisterWrite port off v s = _
  simp [execRegisterWrite, ho]

/-- A write of an aligned register of a partition's block reaches it. -/
theorem exec_registerWrite_part (port : Nat) {o : Nat} (v : Word) (hr : s.ctl.refused = 0) (hp : part < 32) (ho : o < 0x10000)
    (ha : o % 8 = 0) : exec (.registerWrite port (0x100000 + 0x10000 * part + o) v) s = writePart part o v s := by
  change execRegisterWrite port _ v s = _
  have aligned : (0x100000 + 0x10000 * part + o) % 8 = 0 := by omega
  have inside : inBlock partBase 0x200000 (0x100000 + 0x10000 * part + o) = true := by
    simp only [inBlock, Bool.and_eq_true, decide_eq_true_eq]
    unfold partBase
    omega
  have block : (0x100000 + 0x10000 * part + o - partBase) / 0x10000 = part := by unfold partBase; omega
  have offset : (0x100000 + 0x10000 * part + o - partBase) % 0x10000 = o := by unfold partBase; omega
  have served : s.served (0x100000 + 0x10000 * part + o) = true := by simp [State.served, hr]
  have past (k : Nat) (hk : k < 0x100000) : 0x100000 + 0x10000 * part + o ≠ k := by omega
  simp only [execRegisterWrite, aligned, served, past 0x008 (by decide), past 0x010 (by decide), inside, block, offset, ne_eq,
    not_true_eq_false, decide_false, Bool.not_true, Bool.or_self, Bool.false_eq_true, if_false, if_true]

theorem writePart_queueTail (h : s.parts.get? part = some pt) {q : Nat} (hq : q < 64) (v : Word) :
    writePart part (0x40 * q + 0x10) v s = execQueueTail part q v s := by
  have inside : 0x40 * q + 0x10 < 0x1000 := by omega
  have queue : (0x40 * q + 0x10) / 0x40 = q := by omega
  have register : (0x40 * q + 0x10) % 0x40 = 0x10 := by omega
  simp only [writePart, h, inside, writeQueue, queue, register, Option.isNone_some, Bool.false_eq_true, if_false, if_true]

/-- A comparator's registers: its address at offset 0, its control at offset 8 (R531). -/
theorem writePart_comparator (h : s.parts.get? part = some pt) {k o : Nat} (hk : k < 8) (ho : o = 0 ∨ o = 8) (v : Word) :
    writePart part (0x9000 + 16 * k + o) v s = .next (s.setPart part fun p =>
      { p with comps := modifyAt p.comps k fun x => if o = 0 then { x with addr := v } else x.control v }) := by
  have outside : ¬ 0x9000 + 16 * k + o < 0x1000 := by omega
  have inside : inBlock 0x9000 0x80 (0x9000 + 16 * k + o) = true := by simp [inBlock]; omega
  have index : (0x9000 + 16 * k + o - 0x9000) / 16 = k := by omega
  have register : (0x9000 + 16 * k + o - 0x9000) % 16 = o := by omega
  simp only [writePart, h, outside, inside, Option.isNone_some, Bool.false_eq_true, if_false, if_true, State.writeComparator, index,
    register]
  rcases ho with rfl | rfl <;> rfl

/-- The registers of a partition's block beside those of its queues and of its comparators. -/
theorem writePart_other (h : s.parts.get? part = some pt) (v : Word) :
    writePart part 0x6000 v s = writeCtxCmd part v s
      ∧ writePart part 0x6010 v s = .next (s.setCtx part fun c => { c with area := (v.extractLsb' 16 31).toNat * 65536 })
      ∧ writePart part 0x7000 v s = .next (s.setCk part fun c => { c with cfg := v &&& ckptCfgMask })
      ∧ writePart part 0x7008 v s = .next (s.setCk part fun c => { c with area := v &&& ckptAreaMask }) := by
  simp [writePart, h, inBlock]

theorem modifyAt_eq_set {α : Type} {l : List α} {k : Nat} {x : α} (hx : l[k]? = some x) (f : α → α) :
    modifyAt l k f = l.set k (f x) := by
  simp [modifyAt, List.modify_eq_set_getElem?, hx]

end registers

/-- Settles O46: each write is one of the cases above. -/
theorem queueAndRingRegisters : Obligations.QueueAndRingRegisters := by
  unfold Obligations.QueueAndRingRegisters
  refine ⟨?queues, ?rings, fun s port off v ho => exec_registerWrite_misaligned port off v ho, ?registers⟩
  case queues =>
    intro s part q pt v h hq x becomes error tail size wrong _
    have refused {i : Instr} {status : Nat} (hi : exec i s = .next (s.queueWriteError part q status)) : error i status x.tail :=
      ⟨_, hi, s.queueWriteError_becomes h status⟩
    have changed {i : Instr} {f : Queue → Queue} (hi : exec i s = .next (s.setQueue part q f)) : becomes i (f x) :=
      ⟨_, hi, s.setQueue_becomes h f⟩
    have notFed (hd : x.devFeed = false) := exec_of_neg (exec_queueTail h hq v) (Bool.eq_false_iff.1 hd)
    have atTail (hd : x.devFeed = false) (he : x.enable = true) := exec_of_neg (notFed hd) (ne_of_eq_of_ne he (by decide))
    have abortNote (ht : tail < x.tail) (hn : x.head ≤ tail) := exec_queueAbort_unaccepted h hq v ht hn
    refine ⟨fun hd => refused (exec_of_pos (exec_queueTail h hq v) hd),
      fun hd he => refused (exec_of_pos (notFed hd) he),
      fun hd he hn => refused (exec_of_pos (atTail hd he) hn),
      fun hd he hlow htop => ⟨s.setQueue part q fun x => { x with tail := tail },
        exec_of_neg (atTail hd he) (not_or.2 ⟨Nat.not_lt.2 hlow, Nat.not_lt.2 htop⟩), s.setQueue_becomes h _⟩,
      fun hw => refused (exec_of_pos (exec_queueCfg h hq v) hw),
      fun hw => changed (exec_of_neg (exec_queueCfg h hq v) hw),
      fun he => refused (exec_of_pos (exec_queueBase h hq v) he),
      fun he => changed (exec_of_neg (exec_queueBase h hq v) (Bool.eq_false_iff.1 he)),
      fun hv => changed (exec_of_pos (exec_queueErrctlClear h hq v) hv),
      fun hv => exec_of_neg (exec_queueErrctlClear h hq v) (Bool.eq_false_iff.1 hv),
      fun ht => ⟨_, exec_queueAbort_beyond h hq v ht, s.queueError_becomes h _ _⟩,
      fun ht hn => ⟨exec_of_pos (abortNote ht hn), fun ha => changed (exec_of_neg (abortNote ht hn) ha)⟩,
      fun ht hn => ⟨?completed, ?waiting, ?running⟩⟩
    case completed => exact fun hl => ⟨_, exec_queueAbort_completed h hq v ht hn hl, s.queueError_becomes h _ _⟩
    case waiting => exact fun l hl => exec_of_pos (exec_queueAbort_accepted h hq v ht hn hl)
    case running =>
      exact fun l hl hs => ⟨_, exec_of_neg (exec_queueAbort_accepted h hq v ht hn hl) hs, rfl, s.setLaunch_get?_same hl _,
        fun k hk => s.setLaunch_get?_other hk _⟩
  case rings =>
    intro s part pt v h n base becomes
    have changed {i : Instr} {f : Partition → Partition} (hi : exec i s = .next (s.setPart part f)) : becomes i (f pt) :=
      ⟨_, hi, s.setPart_ringBecomes h f⟩
    have woken {i : Instr} {f : Partition → Partition} (hi : exec i s = .next ((s.setPart part f).wake .monitor)) : becomes i (f pt) :=
      ⟨_, hi, s.setPart_wake_ringBecomes h f .monitor⟩
    have ignored (r : Ring) (hn : ∀ x, pt.headRange r = some x → n < x.1 ∨ x.2 < n) := exec_ringHeadWrite_ignored h v r hn
    have restarted (r : Ring) {cfg : Bool} (hr : r ≠ .trace ∨ cfg = false) (hc : pt.ctx.state = 0) :
        becomes (.ringBaseCfgWrite part r cfg v) (pt.restartRing r cfg v) := changed (exec_ringBaseCfgWrite_idle h v r hr hc)
    refine ⟨fun hn hc => changed (exec_ringHeadWrite_guestbook h v hn hc),
      fun hn => ignored .guestbook fun _ hx => Option.some.inj hx ▸ hn,
      fun hn hc => woken (exec_ringHeadWrite_logbook h v hn hc),
      fun hn => ignored .logbook fun _ hx => Option.some.inj hx ▸ hn,
      fun hn hc hd => changed (exec_ringHeadWrite_trace h v hn hc hd),
      fun hn => ignored .trace fun _ hx => Option.some.inj hx ▸ hn,
      ignored .replay fun _ hx => (nomatch hx),
      fun hc r cfg hr => exec_ringBaseCfgWrite_busy h v hr hc,
      changed (exec_ringBaseCfgWrite_traceCfg h v),
      fun hc => ⟨restarted .trace (.inr rfl) hc, restarted .guestbook (.inr rfl) hc, restarted .guestbook (.inl (by decide)) hc,
        restarted .logbook (.inr rfl) hc, restarted .logbook (.inl (by decide)) hc, restarted .replay (.inr rfl) hc,
        restarted .replay (.inl (by decide)) hc⟩,
      fun hn hc => changed (exec_rplTail_accepted h v hn hc),
      fun hn => changed (exec_rplTail_ignored h v hn),
      fun hv => woken (exec_rplCtlEnd_end v hv),
      fun hv => exec_rplCtlEnd_other v hv⟩
  case registers =>
    intro s port part q pt v hr h hp hq block
    have at' {o : Nat} (ho : o < 0x10000) (ha : o % 8 = 0) : exec (.registerWrite port (block + o) v) s = writePart part o v s :=
      exec_registerWrite_part port v hr hp ho ha
    obtain ⟨command, area, cfg, ckptArea⟩ := writePart_other h v
    refine ⟨?_, ?_, ?_⟩
    · rw [Nat.add_assoc, at' (by omega) (by omega)]
      exact writePart_queueTail h hq v
    · exact (at' (by decide) (by decide)).trans command
    · intro becomes
      have changed {o : Nat} {f : Partition → Partition} (ho : o < 0x10000) (ha : o % 8 = 0)
          (hi : writePart part o v s = .next (s.setPart part f)) : becomes o (f pt) := ⟨_, (at' ho ha).trans hi, s.setPart_becomes h f⟩
      have compared {k o : Nat} {y : Comparator} (hy : pt.comps[k]? = some y) (hk : k < 8) (ho : o = 0 ∨ o = 8) :
          becomes (0x9000 + 16 * k + o) { pt with comps := pt.comps.set k (if o = 0 then { y with addr := v } else y.control v) } := by
        rw [← modifyAt_eq_set hy fun x => if o = 0 then { x with addr := v } else x.control v]
        exact changed (by omega) (by omega) (writePart_comparator h hk ho v)
      refine ⟨changed (by decide) (by decide) area, changed (by decide) (by decide) cfg, changed (by decide) (by decide) ckptArea,
        fun k y hy hk => ⟨compared hy hk (.inl rfl), ?_⟩⟩
      rw [show 0x9008 + 16 * k = 0x9000 + 16 * k + 8 by omega]
      exact compared hy hk (.inr rfl)

end Sys2Proof.Machine
end


section
/-! What the registers of BAR0 read after reset (spec/29 R543, R546 and the register tables it names): block by block. -/
namespace Sys2Proof.Machine

/-! ### Registers whose reset value is zero -/

@[simp] theorem Queue.read_reset (o : Nat) : Queue.reset.read o = 0 := by
  unfold Queue.read
  split <;> rfl

@[simp] theorem Comparator.word_reset : Comparator.reset.word = 0 := rfl

@[simp] theorem Partition.queue_reset (groups : BitVec 32) (q : Nat) : (Partition.reset groups).queue q = Queue.reset := rfl

theorem Partition.comps_reset (groups : BitVec 32) (k : Nat) : nth (Partition.reset groups).comps k Comparator.reset = Comparator.reset := by
  change ((List.replicate 8 Comparator.reset)[k]?).getD Comparator.reset = _
  rw [List.getElem?_replicate]
  split <;> rfl

theorem leNat_zeros (n : Nat) : leNat (List.replicate n (0 : Byte)) = 0 := by
  induction n with
  | zero => rfl
  | succ n ih => simp_all [leNat, List.replicate_succ]

theorem fieldAt_zeros (len off n : Nat) : fieldAt (List.replicate len 0) off n = 0 := by
  rw [fieldAt, List.drop_replicate, List.take_replicate, leNat_zeros]

/-! ### The blocks -/

@[simp] theorem State.served_reset (off : Nat) : State.reset.served off = true := rfl

theorem State.readControl_reset (off : Nat) : State.reset.readControl off =
    if off = 0 then 0xDA12 * 65536 + Config.stepping.toNat else if off = 0x20 then 0x1000 else 0 := by
  unfold State.readControl
  split
  iterate 4 · rfl
  next h0 _ _ h20 => rw [if_neg h0, if_neg h20]

theorem State.readMail_reset (o : Nat) : State.reset.readMail o = 0 := by
  unfold State.readMail
  split
  · exact fieldAt_zeros 2048 _ 8
  · split <;> rfl

section block
variable (part : Nat) (groups : BitVec 32)

theorem State.ctxStat_reset : State.reset.ctxStat part (Partition.reset groups) = 0 := by
  simp [State.ctxStat, Partition.reset, CtxRegs.reset, State.reset]

theorem State.ckptStat2_reset : State.reset.ckptStat2 part (Partition.reset groups) = 0 := by
  simp [State.ckptStat2, Partition.reset, Ckpt.reset, State.heldCount, Ckpt.phase, State.reset]

theorem Partition.reset_fields : (Partition.reset groups).groups = groups ∧ (Partition.reset groups).ctx = CtxRegs.reset
    ∧ (Partition.reset groups).ck = Ckpt.reset ∧ (Partition.reset groups).gbk = RingRegs.reset
    ∧ (Partition.reset groups).log = RingRegs.reset ∧ (Partition.reset groups).rpl = RingRegs.reset
    ∧ (Partition.reset groups).trc = RingRegs.reset ∧ (Partition.reset groups).trcEn = 0 :=
  ⟨rfl, rfl, rfl, rfl, rfl, rfl, rfl, rfl⟩

theorem State.heldPaths_reset : State.reset.heldPaths part = [] := rfl

theorem Partition.replayLow_reset : (Partition.reset groups).replayLow = 0 := rfl

end block

/-- The block of a partition with just its core groups. -/
theorem State.readPartBlock_reset (part o : Nat) (groups : BitVec 32) :
    State.reset.readPartBlock part o (Partition.reset groups) = if o = 0x1000 then part * 2 ^ 32 + groups.toNat else 0 := by
  have elsewhere {base size : Nat} (hb : inBlock base size o = true) (h : inBlock base size 0x1000 = false) : o ≠ 0x1000 := by
    rintro rfl
    rw [h] at hb
    cases hb
  unfold State.readPartBlock
  split
  case isTrue ho => rw [if_neg (by omega), Partition.queue_reset, Queue.read_reset]
  case isFalse =>
    split
    case isTrue ho =>
      rw [if_neg (elsewhere ho (by decide))]
      rfl
    case isFalse =>
      split
      case isTrue ho =>
        rw [if_neg (elsewhere ho (by decide))]
        dsimp only
        rw [Partition.comps_reset]
        split <;> rfl
      case isFalse =>
        have noCellar : State.reset.cellars.get? part = none := rfl
        obtain ⟨hgroups, hctx, hck, hgbk, hlog, hrpl, htrc, hen⟩ := Partition.reset_fields groups
        split <;> simp [State.ctxStat_reset, State.ckptStat2_reset, State.heldPaths_reset, Partition.replayLow_reset, Ckpt.stat,
          CtxRegs.saveCost, RingRegs.reset, CtxRegs.reset, Ckpt.reset, *]
        exact fun h => absurd h ‹¬o = 0x1000›

/-! ### Where the blocks stand (R546) -/

theorem inBlock_add {base size o : Nat} (ho : o < size) : inBlock base size (base + o) = true := by
  simpa [inBlock] using ho

theorem inBlock_false {base size off : Nat} (h : off < base ∨ base + size ≤ off) : inBlock base size off = false := by
  rcases h with h | h <;> simp [inBlock, Nat.not_le.2, Nat.not_lt.2, h]

section blocks
variable {s : State} (hs : ∀ off, s.served off = true)
include hs

/-- Past the blocks of the partitions the register map is that of the blocks of the I/O dies. -/
theorem State.barWord_beyond {off : Nat} (ho : 0x300000 ≤ off) : s.barWord off =
    if inBlock linkBase 0x280 off then (s.links.get? ((off - linkBase) / 0x20)).elim 0 fun x => x.read ((off - linkBase) % 0x20)
    else if inBlock canalBase 0x2000 off then s.readCanal (off - canalBase)
    else if off = viewBase then s.readView
    else if inBlock mailBase 4096 off then s.readMail (off - mailBase)
    else if inBlock counterBase 0x80000 off then s.readCounter (off - counterBase)
    else 0 := by
  have parts : inBlock partBase 0x200000 off = false := inBlock_false (.inr ho)
  simp only [State.barWord, hs, Bool.not_true, Bool.false_eq_true, if_false, parts, Nat.not_lt.2 (show 0x1000 ≤ off by omega),
    Nat.not_lt.2 (show 0x2000 ≤ off by omega)]

theorem State.barWord_link {o : Nat} (ho : o < 0x280) :
    s.barWord (linkBase + o) = (s.links.get? (o / 0x20)).elim 0 fun x => x.read (o % 0x20) := by
  rw [State.barWord_beyond hs (by unfold linkBase; omega), if_pos (inBlock_add ho), Nat.add_sub_cancel_left]

theorem State.barWord_canal {o : Nat} (ho : o < 0x2000) : s.barWord (canalBase + o) = s.readCanal o := by
  rw [State.barWord_beyond hs (by unfold canalBase; omega), inBlock_false (.inr (by unfold canalBase linkBase; omega)),
    if_neg Bool.false_ne_true, if_pos (inBlock_add ho), Nat.add_sub_cancel_left]

theorem State.barWord_mail {o : Nat} (ho : o < 4096) : s.barWord (mailBase + o) = s.readMail o := by
  rw [State.barWord_beyond hs (by unfold mailBase; omega), inBlock_false (.inr (by unfold mailBase linkBase; omega)),
    if_neg Bool.false_ne_true, inBlock_false (.inr (by unfold mailBase canalBase; omega)), if_neg Bool.false_ne_true,
    if_neg (by unfold mailBase viewBase; omega), if_pos (inBlock_add ho), Nat.add_sub_cancel_left]

theorem State.barWord_counter {o : Nat} (ho : o < 0x80000) : s.barWord (counterBase + o) = s.readCounter o := by
  rw [State.barWord_beyond hs (by unfold counterBase; omega), inBlock_false (.inr (by unfold counterBase linkBase; omega)),
    if_neg Bool.false_ne_true, inBlock_false (.inr (by unfold counterBase canalBase; omega)), if_neg Bool.false_ne_true,
    if_neg (by unfold counterBase viewBase; omega), inBlock_false (.inr (by unfold counterBase mailBase; omega)),
    if_neg Bool.false_ne_true, if_pos (inBlock_add ho), Nat.add_sub_cancel_left]

end blocks

/-! ### The die links and the Canal block -/

theorem State.links_reset {k : Nat} (hk : k < 20) : State.reset.links.get? k = some (Link.reset 1) := by
  interval_cases k <;> rfl

theorem State.ports_reset {p : Nat} (hp : p < 18) : State.reset.ports.get? p = some Port.reset := by
  interval_cases p <;> rfl

theorem State.readLink_reset {k o : Nat} (hk : k < 20) (ho : o < 0x20) :
    State.reset.barWord (linkBase + 0x20 * k + o) = (Link.reset 1).read o := by
  rw [Nat.add_assoc, State.barWord_link State.served_reset (by omega), show (0x20 * k + o) / 0x20 = k by omega,
    show (0x20 * k + o) % 0x20 = o by omega, State.links_reset hk]
  rfl

theorem State.readPort_reset {p o : Nat} (hp : p < 18) (ho : o < 0x40) :
    State.reset.barWord (canalBase + 0x40 * p + o) = Port.reset.read o := by
  rw [Nat.add_assoc, State.barWord_canal State.served_reset (by omega), State.readCanal, if_pos (by omega),
    show (0x40 * p + o) / 0x40 = p by omega, show (0x40 * p + o) % 0x40 = o by omega, State.ports_reset hp]
  rfl

/-- Settles O58: each block's registers after reset, as the rules of the block give them. -/
theorem resetRegisters : Obligations.ResetRegisters := by
  unfold Obligations.ResetRegisters
  refine ⟨fun off ho => ?control, fun k hk => ⟨?state, ?crc, ?third⟩, fun p hp => ⟨?port, ?errors, ?discards, ?control'⟩, rfl, rfl,
    fun o ho => ?mail, fun o ho => ?counters, fun part o groups _ => State.readPartBlock_reset part o groups, rfl, Memory.wf_nil, rfl,
    rfl, rfl, rfl, rfl⟩
  case control =>
    simp only [State.barWord, State.served_reset, Bool.not_true, Bool.false_eq_true, if_false, if_pos ho, State.readControl_reset]
  case state => exact State.readLink_reset (o := 0) hk (by decide)
  case crc => exact State.readLink_reset hk (by decide)
  case third => exact State.readLink_reset hk (by decide)
  case port => exact State.readPort_reset (o := 0) hp (by decide)
  case errors => exact State.readPort_reset hp (by decide)
  case discards => exact State.readPort_reset hp (by decide)
  case control' => exact State.readPort_reset hp (by decide)
  case mail => rw [State.barWord_mail State.served_reset ho, State.readMail_reset]
  case counters => rw [State.barWord_counter State.served_reset ho]; rfl

end Sys2Proof.Machine
end

section
/-! What operations leave of the work that stands (partitions, launches, blocks, warps, images in the cellars) and of each partition; what a
woken or completed instruction leaves of a warp. -/
namespace Sys2Proof.Machine

/-! ### Maps and lists changed value by value -/

theorem NMap.get?_map {α β : Type} (m : NMap α) (f : Nat → α → β) (k : Nat) :
    NMap.get? (m.map fun e => (e.1, f e.1 e.2)) k = (m.get? k).map (f k) := by
  induction m with
  | nil => rfl
  | cons e r ih =>
    rw [List.map_cons, NMap.get?_cons, NMap.get?_cons, ih]
    by_cases he : e.1 = k <;> simp [he]

theorem NMap.get?_map_if {α : Type} (m : NMap α) (c : Nat × α → Bool) (f : Nat × α → α) (k : Nat) :
    NMap.get? (m.map fun e => if c e then (e.1, f e) else e) k = (m.get? k).map fun v => if c (k, v) then f (k, v) else v := by
  rw [← NMap.get?_map m fun k v => if c (k, v) then f (k, v) else v]
  refine congrArg (NMap.get? · k) (List.map_congr_left fun e _ => ?_)
  split <;> rfl

theorem nth_zipIdx_map {α β : Type} (l : List α) (f : α × Nat → β) (i : Nat) (d : β) :
    nth (l.zipIdx.map f) i d = (l[i]?).elim d fun x => f (x, i) := by
  cases h : l[i]? <;> simp [nth, h]

/-! ### The work that stands -/

/-- The cycle, the partitions, launches, blocks, warps, completed packets and cellars of `t` are those of `s`. -/
structure State.SameWork (s t : State) : Prop where
  cycle    : t.cycle = s.cycle
  parts    : t.parts = s.parts
  launches : t.launches = s.launches
  statuses : t.statuses = s.statuses
  blocks   : t.blocks = s.blocks
  warps    : t.warps = s.warps
  cellars  : t.cellars = s.cellars

section same
variable {s t u : State}

theorem State.SameWork.refl (s : State) : s.SameWork s := ⟨rfl, rfl, rfl, rfl, rfl, rfl, rfl⟩

theorem State.SameWork.trans (h : s.SameWork t) (h' : t.SameWork u) : s.SameWork u :=
  ⟨h'.cycle.trans h.cycle, h'.parts.trans h.parts, h'.launches.trans h.launches, h'.statuses.trans h.statuses,
    h'.blocks.trans h.blocks, h'.warps.trans h.warps, h'.cellars.trans h.cellars⟩

theorem State.sameWork_foldl {α : Type} (s : State) (l : List α) {f : State → α → State} (h : ∀ s a, State.SameWork s (f s a)) :
    s.SameWork (l.foldl f s) :=
  List.foldlRecOn (motive := fun t => s.SameWork t) l f (.refl s) fun t ht a _ => ht.trans (h t a)

theorem State.sameWork_ite {c : Prop} [Decidable c] (ht : s.SameWork t) (hu : s.SameWork u) : s.SameWork (if c then t else u) := by
  split <;> assumption

end same

section memory
variable (s : State)

theorem State.setPoison_sameWork (k : Nat) : s.SameWork (s.setPoison k) :=
  State.sameWork_ite ⟨rfl, rfl, rfl, rfl, rfl, rfl, rfl⟩ (.refl s)

theorem State.putPiece_sameWork (p : Piece) (bs : List Byte) : s.SameWork (s.putPiece p bs) := by
  rw [State.putPiece_eq]
  exact ⟨rfl, rfl, rfl, rfl, rfl, rfl, rfl⟩

theorem State.writePiece_sameWork (p : Piece) (bs : List Byte) : s.SameWork (s.writePiece p bs) := by
  rw [State.writePiece_eq]
  exact ⟨rfl, rfl, rfl, rfl, rfl, rfl, rfl⟩

theorem State.writePieces_sameWork (ws : List (Piece × List Byte)) : s.SameWork (s.writePieces ws) :=
  s.sameWork_foldl ws fun s w => s.writePiece_sameWork w.1 w.2

theorem State.writePlain_sameWork {t : State} {e : Env} {a : Nat} {bs : List Byte} (h : s.writePlain e a bs = .ok t) : s.SameWork t := by
  unfold State.writePlain at h
  cases hc : s.checkPlain e a bs.length false true with
  | error r => rw [hc] at h; cases h
  | ok ps =>
    rw [hc] at h
    cases h
    exact s.writePieces_sameWork _

theorem State.cachePage_sameWork (p : Page) (a : Nat) : s.SameWork (s.cachePage p a) := by
  unfold State.cachePage
  split
  · exact ⟨rfl, rfl, rfl, rfl, rfl, rfl, rfl⟩
  · exact .refl s

theorem State.translated_sameWork (e : Env) (addrs : List Nat) : s.SameWork (s.translated e addrs) := by
  refine s.sameWork_foldl addrs fun s a => ?_
  dsimp only
  split
  · exact .refl s
  · refine State.sameWork_ite (.refl s) ?_
    split
    · exact .refl s
    · next p _ => exact (s.cachePage_sameWork p _).trans ⟨rfl, rfl, rfl, rfl, rfl, rfl, rfl⟩

theorem State.nextClock_sameWork (a : Agent) : s.SameWork (s.nextClock a) := by
  unfold State.nextClock
  split
  · exact ⟨rfl, rfl, rfl, rfl, rfl, rfl, rfl⟩
  · exact .refl s

theorem State.performAt_sameWork (a : Agent) (cores : CoreMask) (p : Piece) (bs : List Byte) (x : Option Store) :
    s.SameWork (s.performAt a cores p bs x) := by
  unfold State.performAt
  extract_lets reached s1 clock s2
  have h2 : s.SameWork s2 := (s.nextClock_sameWork a).trans ⟨rfl, rfl, rfl, rfl, rfl, rfl, rfl⟩
  refine State.sameWork_ite (h2.trans (s2.writePiece_sameWork p bs)) (h2.trans ((s2.putPiece_sameWork p bs).trans ?_))
  exact ⟨rfl, rfl, rfl, rfl, rfl, rfl, rfl⟩

theorem State.publish_sameWork (a : Agent) (mask : BitVec 7) (origin : Agent) : s.SameWork (s.publish a mask origin) :=
  ⟨rfl, rfl, rfl, rfl, rfl, rfl, rfl⟩

theorem State.sendFar_sameWork (a : Agent) (core block launch part seq : Nat) (mask : BitVec 7) (p : Piece) (bs : List Byte) :
    s.SameWork (s.sendFar a core block launch part seq mask p bs) :=
  (s.nextClock_sameWork a).trans ⟨rfl, rfl, rfl, rfl, rfl, rfl, rfl⟩

theorem State.writeOrSend_sameWork (a : Agent) (core block launch part seq : Nat) (mask : BitVec 7) (ws : List (Piece × List Byte)) :
    s.SameWork (s.writeOrSend a core block launch part seq mask ws) :=
  s.sameWork_foldl ws fun s _ => State.sameWork_ite (s.sendFar_sameWork ..) (s.performAt_sameWork ..)

end memory

/-! ### What of each partition stays -/

/-- Every partition stands in `t` as in `s`, as far as `π` looks at it. -/
def State.Keeps {α : Type} (π : Partition → α) (s t : State) : Prop := ∀ k, (t.parts.get? k).map π = (s.parts.get? k).map π

section keeps
variable {α : Type} {π : Partition → α} {s t u : State}

theorem State.Keeps.refl (s : State) : State.Keeps π s s := fun _ => rfl

theorem State.Keeps.trans (h : State.Keeps π s t) (h' : State.Keeps π t u) : State.Keeps π s u := fun k => (h' k).trans (h k)

theorem State.SameWork.keeps (h : s.SameWork t) : State.Keeps π s t := fun _ => by rw [h.parts]

theorem State.keeps_setPart {part : Nat} {f : Partition → Partition} (hf : ∀ p, π (f p) = π p) :
    State.Keeps π s (s.setPart part f) := fun k => by
  rw [State.setPart_parts, NMap.get?_adjust]
  split
  · cases s.parts.get? k <;> simp [hf]
  · rfl

theorem State.keeps_foldl {β : Type} (s : State) (l : List β) {f : State → β → State} (h : ∀ s a, State.Keeps π s (f s a)) :
    State.Keeps π s (l.foldl f s) :=
  List.foldlRecOn (motive := fun t => State.Keeps π s t) l f (.refl s) fun t ht a _ => ht.trans (h t a)

/-- What an operation leaves of a partition that stands. -/
theorem State.Keeps.exists {part : Nat} {pt : Partition} (h : State.Keeps π s t) (hp : s.parts.get? part = some pt) :
    ∃ p, t.parts.get? part = some p ∧ π p = π pt := by
  have := h part
  rw [hp] at this
  exact Option.map_eq_some_iff.1 this

section checkpoints
variable (hck : ∀ (p : Partition) (k : Ckpt), π { p with ck := k } = π p)
include hck

/-- Logging a line touches a partition's checkpoint registers only. -/
theorem State.logLine_keeps (s : State) (part cls : Nat) (p : Piece) : State.Keeps π s (s.logLine part cls p) := by
  unfold State.logLine
  extract_lets line old u
  split
  · exact .refl s
  · split
    · exact .refl s
    · split
      · split
        · exact State.keeps_setPart fun _ => hck _ _
        · exact .refl s
      · extract_lets at' entry s1 cycle
        have logged : s.SameWork s1 := by
          unfold s1
          split
          · refine State.sameWork_ite ?_ (.refl s)
            split
            · exact s.writePlain_sameWork ‹_›
            · exact .refl s
          · exact .refl s
        exact logged.keeps.trans (State.keeps_setPart fun _ => hck _ _)

theorem State.track_keeps (s : State) (bid : Nat) (ps : List Piece) : State.Keeps π s (s.track bid ps) := by
  unfold State.track
  extract_lets cls
  split
  · exact .refl s
  · exact s.keeps_foldl ps fun s p => s.logLine_keeps hck _ _ p

theorem State.writeFor_keeps {bid : Nat} {e : Env} {a : Nat} {bs : List Byte} (h : s.writeFor bid e a bs = .ok t) : State.Keeps π s t := by
  unfold State.writeFor at h
  cases hc : s.checkPlain e a bs.length false true with
  | error r => rw [hc] at h; cases h
  | ok ps =>
    rw [hc] at h
    cases h
    exact (s.track_keeps hck bid ps).trans (State.writePieces_sameWork _ _).keeps

theorem State.noteReads_keeps (s : State) (who : Nat) (ps : List Piece) : State.Keeps π s (s.noteReads who ps) := by
  unfold State.noteReads
  extract_lets reads
  split
  · intro k
    dsimp only
    rw [NMap.get?_map_if]
    cases s.parts.get? k with
    | none => rfl
    | some p =>
      simp only [Option.map_some]
      split <;> simp [hck]
  · exact .refl s

end checkpoints
end keeps

/-! ### A warp that wakes, and one whose instruction is complete -/

/-- A warp each of whose paths parked for a reason goes back to its instruction (R16). -/
def Warp.wokenFor (w : Warp) (r : ParkReason) (cycle : Nat) : Warp :=
  { w with paths := w.paths.zipIdx.map fun q => if w.stopped q.2 then q.1 else q.1.woken r cycle }

section warps
variable (s : State) (w : Warp) (r : ParkReason) (cycle i j : Nat)

theorem State.wake_get? (wid : Nat) : (s.wake r).warps.get? wid = (s.warps.get? wid).map (·.wokenFor r s.cycle) :=
  NMap.get?_map s.warps (fun _ w => w.wokenFor r s.cycle) wid

theorem Path.woken_pc (p : Path) : (p.woken r cycle).pc = p.pc := by
  unfold Path.woken
  split <;> rfl

theorem Warp.wokenFor_path : (w.wokenFor r cycle).path i =
    if i < w.paths.length ∧ w.stopped i = false then (w.path i).woken r cycle else w.path i := by
  simp only [Warp.path, Warp.wokenFor, nth_zipIdx_map]
  by_cases hi : i < w.paths.length
  · cases w.stopped i <;> simp [hi, nth]
  · simp [hi, nth]

theorem Warp.wokenFor_pc : ((w.wokenFor r cycle).path i).pc = (w.path i).pc := by
  rw [Warp.wokenFor_path]
  split
  · exact Path.woken_pc ..
  · rfl

theorem Warp.rotate_s : (w.rotate i cycle).s = w.s := by
  unfold Warp.rotate
  split <;> rfl

theorem Warp.rotate_pc : ((w.rotate i cycle).path j).pc = (w.path j).pc := by
  unfold Warp.rotate
  split
  · by_cases hj : j = i
    · subst hj
      by_cases hl : j < w.paths.length
      · rw [Warp.path_setPath_same _ _ _ hl]; rfl
      · simp [Warp.path, Warp.setPath, nth, hl]
    · rw [Warp.path_setPath_other _ _ _ _ hj]
  · rfl

/-- The scalar registers and the PC that a completed instruction leaves in its warp. -/
theorem State.warp_complete (c : Ctx) (pl : Place) (hi : c.pidx < w.paths.length) :
    ∃ v, (s.complete c w pl).warps.get? c.wid = some v ∧ v.s = w.s ∧ (v.path c.pidx).pc = c.nextPc := by
  refine ⟨_, State.warp_finish .., ?_, ?_⟩
  · rw [Warp.rotate_s]
    rfl
  · have stands : c.pidx < (w.setPath c.pidx (((w.path c.pidx).took pl).goto c.nextPc false)).paths.length := by
      simpa [Warp.setPath] using hi
    rw [Warp.rotate_pc]
    change ((Warp.setPath _ c.pidx _).path c.pidx).pc = _
    rw [Warp.path_setPath_same _ _ _ stands, Warp.path_setPath_same _ _ _ hi]
    rfl

end warps
end Sys2Proof.Machine
end

section
/-! `ckpt`, `ckpt.wait`, `ckq`, `digest`, `detq`, `brk`, `tmark` and `rdclk` (spec/23 R487 to R489, spec/27 R513, R516, spec/28 R530): what
each does for the issuing path. -/
namespace Sys2Proof.Machine

section instructions
variable {s : State} {c : Ctx} (h : Issues s c) (g : Guard)
include h

/-! ### The checkpoint registers and the cycle -/

section scalar
variable {d : Dst} {pt : Partition}

omit h in
theorem State.intervalOf_eq {part : Nat} (hp : s.parts.get? part = some pt) : s.intervalOf part = pt.ck.current := by
  simp [State.intervalOf, hp]

omit h in
theorem State.ckptWord_eq {part : Nat} (hp : s.parts.get? part = some pt) (k : Nat) : s.ckptWord part k =
    if k = 0 then BitVec.ofNat 64 (pt.ck.committed * 2 ^ 32 + pt.ck.current)
    else if k = 1 then BitVec.ofNat 64 (pt.ctx.dirty * 2 ^ 32 + pt.ctx.cycles) else if k = 2 then BitVec.ofNat 64 (s.ckptStat2 part pt)
    else pt.ck.cfg &&& 0xFFFFFF0000000000 := by
  match k with
  | 0 | 1 | 2 => simp [State.ckptWord, hp, Ckpt.stat, CtxRegs.saveCost]
  | k + 3 => simp [State.ckptWord, hp]

omit h in
/-- A close asked for stands. -/
theorem State.requestClose_wanted {part : Nat} (hp : s.parts.get? part = some pt) :
    ∃ p, (s.requestClose part).parts.get? part = some p ∧ p.ck.wanted.isSome = true := by
  exact ⟨_, s.setPart_get?_same hp _, rfl⟩

theorem exec_ckpt (hd : d.cls = .scalar) (ho : c.once g = true) :
    exec (.ckpt g d) s = .next ((s.requestClose c.env.part).scalarDone c g d (BitVec.ofNat 64 (s.intervalOf c.env.part))) := by
  change execCkpt g d s = _
  refine run_ok h ?_
  simp only [scalarOrNone, hd, ho, if_true, State.scalarDone]

theorem exec_ckpt_idle (hd : d.cls = .scalar) (ho : c.once g = false) : exec (.ckpt g d) s = .next (s.scalarDone c g d 0) := by
  change execCkpt g d s = _
  refine run_ok h ?_
  simp only [scalarOrNone, hd, ho, Bool.false_eq_true, if_true, if_false, State.scalarDone]

theorem exec_ckptWait (ho : c.once g = true) : exec (.ckptWait g d) s =
    .next ((s.requestClose c.env.part).awaits c c.w (.parked .monitor) (.ckpt d (s.intervalOf c.env.part)) 0) := by
  change execCkptWait g d s = _
  refine run_ok h ?_
  simp only [ho, if_true]

theorem exec_ckptWait_idle (hd : d.cls = .scalar) (ho : c.once g = false) :
    exec (.ckptWait g d) s = .next (s.scalarDone c g d 0) := by
  change execCkptWait g d s = _
  refine run_ok h ?_
  simp only [scalarOrNone, hd, ho, Bool.false_eq_true, if_true, if_false, State.scalarDone]

theorem exec_ckq (k : Int) : exec (.ckq g d k) s = .next (s.scalarDone c g d (s.ckptWord c.env.part k.toNat)) := by
  change execCkq g d k s = _
  exact run_ok h rfl

theorem exec_detq : exec (.detq g d) s =
    .next (s.scalarDone c g d (BitVec.ofNat 64 (c.la.det + c.blk.logCounts.getD c.w.index 0 * 2 ^ 32))) := by
  change execDetq g d s = _
  exact run_ok h rfl

theorem exec_rdclk : exec (.rdclk g d) s = .next (s.scalarDone c g d (BitVec.ofNat 64 s.cycle)) := by
  change execRdclk g d s = _
  exact run_ok h rfl

end scalar

/-! ### Debug -/

theorem exec_brk (n : Int) (ho : c.once g = true) :
    exec (.brk g n) s = .next (s.takeTrap c.wid c.pidx ⟨0x70, 0x00, BitVec.ofInt 64 n, c.real g⟩ (unitOf c.p c.pre)) := by
  change execBrk g n s = _
  refine run_trap h ?_
  simp only [ho, Bool.not_true, Bool.false_eq_true, if_false]
  rfl

theorem exec_brk_idle (n : Int) (ho : c.once g = false) : exec (.brk g n) s = .next (s.skip c) := by
  change execBrk g n s = _
  refine run_ok h ?_
  simp only [ho, Bool.not_false, if_true]
  rfl

theorem exec_tmark {x : Src} (hl : checkLatch c g .sca x = .ok ()) : exec (.tmark g x) s = .next (
    if c.once g = true then (s.trace c.env.part 1 c.wid c.pidx (c.sca x).toNat).skip c else s.skip c) := by
  change execTmark g x s = _
  refine run_ok h ?_
  cases c.once g <;> simp only [hl] <;> rfl

/-! ### The digest -/

theorem exec_digest {f : Fmt} {x : Src} {ch : Nat} (hf : f ≠ .b128) (hl : checkOperands c g .noDest f [(.vec f, x)] = .ok ()) :
    exec (.digest g f x ch) s = .next ((s.setBlock c.bid fun b => { b with accum := b.accum
      + ((lanesOf (c.real g)).map fun l => BitVec.ofNat 256 (leNat ((sha384
          (digestMessage c f ch l (leBytes (accessBytes f) (c.vec f x l).toNat))).take 32))).sum }).skip c) := by
  change execDigest g f x ch s = _
  refine run_ok h ?_
  simp only [if_neg hf, hl, List.sum_eq_foldl, List.foldl_map]
  rfl

end instructions

/-! ### `launch` (spec/02 R67 to R69) -/

section launch
variable {s : State} {c : Ctx} (h : Issues s c) (d : Dst) (a : Nat) (q : Src) (e : MExt)
include h

theorem exec_launch_canonical (hdet : c.la.det = 3) : exec (.launch d a q e) s =
    .next (s.takeTrap c.wid c.pidx ⟨0x62, 0x00, 0, c.real Guard.always⟩ (unitOf c.p c.pre)) := by
  change execLaunch d a q e s = _
  refine run_trap h ?_
  simp only [hdet, if_true]
  rfl

/-- What `launch` finds of its operands: it acts, in an ordinary launch, and may read the 256 bytes of the packet, `y`. -/
structure LaunchReady (s : State) (c : Ctx) (a : Nat) (e : MExt) (y : Nat × Nat × List Piece) : Prop where
  det   : c.la.det = 0
  rights : checkRights (c.w.areg a) true false (some (c.real Guard.always)) (onceAim c Guard.always (c.w.areg a) e.off) = .ok ()
  range : checkRange s c.env (c.w.areg a) true false 256 (some (c.real Guard.always)) (onceAim c Guard.always (c.w.areg a) e.off) = .ok [y]

/-- The queue that `launch` names. -/
def State.launchQueue (s : State) (c : Ctx) (q : Src) : Queue := ((s.parts.get? c.env.part).map (·.queue (c.sca q).toNat)).getD Queue.reset

omit h in
theorem launchTurn_of_det (hdet : c.la.det = 0) (s : State) (lanes : LaneMask) (n : Nat) (x : Queue) :
    launchTurn s c lanes n x = .ok none := by
  simp [launchTurn, hdet]

omit h in
/-- A queue that `launch` finds in use is one of a partition that stands. -/
theorem State.launchQueue_eq (hx : (s.launchQueue c q).enable = true) :
    ∃ pt, s.parts.get? c.env.part = some pt ∧ pt.queue (c.sca q).toNat = s.launchQueue c q := by
  unfold State.launchQueue at hx ⊢
  cases hp : s.parts.get? c.env.part with
  | none => rw [hp] at hx; exact absurd hx Bool.false_ne_true
  | some pt => exact ⟨pt, rfl, rfl⟩

/-- `launch` ends in `t` with its result `r`, its packet's address cached (R198), and the waits for a queue's tail over. -/
def State.launched (t : State) (c : Ctx) (d : Dst) (a : Nat) (y : Nat × Nat × List Piece) (u : State) (r : Word) : State :=
  let w := c.w.setAreg a (u.cachedRun c.env.part (c.w.areg a) [y])
  let x := if d.cls = .scalar then scalarResult w d (some r) else (w, .none)
  (t.complete c x.1 x.2).wake .monitor

variable {y : Nat × Nat × List Piece} (hy : LaunchReady s c a e y)
include hy

omit h hy in
/-- The model looks a queue up so. -/
theorem State.launchQueue_def (s : State) (c : Ctx) (q : Src) :
    ((s.parts.get? c.env.part).map (·.queue (readSca c.w c.p q).toNat)).getD Queue.reset = s.launchQueue c q := rfl

theorem exec_launch_refused (hq : 63 < (c.sca q).toNat ∨ (s.launchQueue c q).enable = false ∨ (s.launchQueue c q).devFeed = false) :
    exec (.launch d a q e) s =
      .next (s.takeTrap c.wid c.pidx ⟨0x11, 0x00, BitVec.ofNat 64 y.2.1, c.real Guard.always⟩ (unitOf c.p c.pre)) := by
  change execLaunch d a q e s = _
  refine run_trap h ?_
  have refused : (decide (63 < (readSca c.w c.p q).toNat) || !(s.launchQueue c q).takesLaunch) = true := by
    rcases hq with hq | hq | hq
    · rw [decide_eq_true (show 63 < (readSca c.w c.p q).toNat from hq)]; rfl
    · simp [Queue.takesLaunch, hq]
    · simp [Queue.takesLaunch, hq]
  simp only [hy.det, hy.rights, hy.range, bind, Except.bind, pure, Except.pure, State.launchQueue_def]
  rw [if_neg (by decide), if_pos refused]
  rfl

variable (hn : (c.sca q).toNat ≤ 63) (hen : (s.launchQueue c q).enable = true) (hdev : (s.launchQueue c q).devFeed = true)
  (hwait : waitLines s [y] = .ok ())

omit h hy in
include hn hen hdev in
theorem takes_launch : ¬(decide (63 < (readSca c.w c.p q).toNat) || !(s.launchQueue c q).takesLaunch) = true := by
  rw [decide_eq_false (show ¬63 < (readSca c.w c.p q).toNat from Nat.not_lt.2 hn)]
  simp [Queue.takesLaunch, hen, hdev]

include hn hen hdev hwait

theorem exec_launch_fence (hr : s.releasable c.wid (c.real Guard.always) (e.mask ||| 0x0C) = false) :
    exec (.launch d a q e) s = .next (s.park c .fence) := by
  change execLaunch d a q e s = _
  refine run_park h ?_
  simp only [hy.det, hy.rights, hy.range, bind, Except.bind, pure, Except.pure, State.launchQueue_def]
  rw [if_neg (by decide), if_neg (takes_launch q hn hen hdev)]
  simp only [hwait, hr]
  rfl

variable (hr : s.releasable c.wid (c.real Guard.always) (e.mask ||| 0x0C) = true)
include hr

theorem exec_launch_full (hfull : (s.launchQueue c q).tail - (s.launchQueue c q).head = 2 ^ (s.launchQueue c q).log2) :
    let u := (s.publish (.lane (coreOf c.wid)) (e.mask ||| 0x0C)).translated c.env [y.2.1]
    exec (.launch d a q e) s = .next (u.launched c d a y u (BitVec.allOnes 64)) := by
  change execLaunch d a q e s = _
  refine run_ok h ?_
  simp only [hy.det, hy.rights, hy.range, bind, Except.bind, pure, Except.pure, launchTurn_of_det hy.det, State.launchQueue_def]
  rw [if_neg (by decide), if_neg (takes_launch q hn hen hdev)]
  simp only [hwait, hr, hfull, beq_self_eq_true]
  rfl

theorem exec_launch_appends {u : State} (hroom : (s.launchQueue c q).tail - (s.launchQueue c q).head ≠ 2 ^ (s.launchQueue c q).log2)
    (hread : (s.publish (.lane (coreOf c.wid)) (e.mask ||| 0x0C)).mayRead c.wid (c.real Guard.always) y.2.2 = true)
    (hpoison : ((s.publish (.lane (coreOf c.wid)) (e.mask ||| 0x0C)).seenBy c.wid (c.real Guard.always) e.mask).poisonOf y.2.2 = none)
    (hwrite : ((s.publish (.lane (coreOf c.wid)) (e.mask ||| 0x0C)).translated c.env [y.2.1]).writeFor c.bid c.env
        ((s.launchQueue c q).slot (s.launchQueue c q).tail)
        (((s.publish (.lane (coreOf c.wid)) (e.mask ||| 0x0C)).seenBy c.wid (c.real Guard.always) e.mask).readPieces y.2.2) = .ok u) :
    exec (.launch d a q e) s = .next (State.launched
      (((u.noteReads c.env.part y.2.2).wroteOut c.bid).setQueue c.env.part (c.sca q).toNat fun x => { x with tail := x.tail + 1 })
      c d a y ((s.publish (.lane (coreOf c.wid)) (e.mask ||| 0x0C)).translated c.env [y.2.1])
      (BitVec.ofNat 64 (launchId c.env.part (c.sca q).toNat (s.launchQueue c q).tail))) := by
  change execLaunch d a q e s = _
  refine run_ok h ?_
  simp only [hy.det, hy.rights, hy.range, bind, Except.bind, pure, Except.pure, launchTurn_of_det hy.det, State.launchQueue_def]
  rw [if_neg (by decide), if_neg (takes_launch q hn hen hdev)]
  simp only [hwait, hr, List.flatMap_singleton, hread, hpoison, beq_eq_false_iff_ne.2 hroom, List.map_singleton]
  simp only [hwrite]
  rfl

end launch

section launched
variable {s t u : State} {c : Ctx} {d : Dst} {a : Nat} {y : Nat × Nat × List Piece} {r : Word}

theorem State.launched_mem : (t.launched c d a y u r).mem = t.mem := by
  simp [State.launched]

theorem State.launched_parts : (t.launched c d a y u r).parts = t.parts := rfl

/-- The result is in its register and the path goes on (R69). -/
theorem State.launched_warp (hd : d.cls = .scalar ∨ d.cls = .none) (hi : c.pidx < c.w.paths.length) :
    ∃ v, (t.launched c d a y u r).warps.get? c.wid = some v
      ∧ v.s = (if d.cls = .scalar ∧ d.wb = true then c.w.s.set d.idx r else c.w.s) ∧ (v.path c.pidx).pc = c.nextPc := by
  unfold State.launched
  extract_lets w x
  have hx : c.pidx < x.1.paths.length ∧ x.1.s = (if d.cls = .scalar ∧ d.wb = true then c.w.s.set d.idx r else c.w.s) := by
    rcases hd with hd | hd
    · cases hw : d.wb <;> simp [x, scalarResult, hd, hw] <;> exact ⟨hi, rfl⟩
    · simp only [x, hd]
      exact ⟨hi, rfl⟩
  obtain ⟨v, hv, hs, hpc⟩ := t.warp_complete x.1 c x.2 hx.1
  refine ⟨v.wokenFor .monitor (t.complete c x.1 x.2).cycle, ?_, hs.trans hx.2, (Warp.wokenFor_pc ..).trans hpc⟩
  rw [State.wake_get?, hv]
  rfl

end launched

theorem Partition.queue_put (p : Partition) (q : Nat) (x : Queue) : ({ p with queues := p.queues.put q x } : Partition).queue q = x := by
  simp [Partition.queue, NMap.getD]

/-- One access of a register that may be read passes step 1 of R314. -/
theorem checkRights_read {ar : AReg} (hp : ar.perm.getLsbD 0 = true) (whole : Option LaneMask) (x : Aim) :
    checkRights ar true false whole [x] = .ok () := by
  have passes : (true && !ar.perm.getLsbD 0) = false := by rw [hp]; rfl
  unfold checkRights
  simp only [passes, Bool.false_and]
  rfl

/-- The packet's one access stands for the path's lanes. -/
theorem onceAim_of_acts {c : Ctx} {g : Guard} (ho : c.once g = true) (ar : AReg) (off : Int) :
    onceAim c g ar off = [((lanesOf (c.real g)).headD 0, (ar.pointer.toNat : Int) + off)] := by
  simp [onceAim, ho]

/-- Settles O42, from what each instruction does for the issuing path. -/
theorem checkpointDigestDebugAndLaunch : Obligations.CheckpointDigestDebugAndLaunch := by
  refine ⟨?_, ?_, ?_, ?_⟩
  · intro s c g d pt h hp hd
    have number := State.intervalOf_eq hp
    refine ⟨fun ho => ⟨s.requestClose c.env.part, number ▸ exec_ckpt h g hd ho, rfl, rfl, State.requestClose_wanted hp⟩,
      fun ho => ⟨exec_ckpt_idle h g hd ho, exec_ckptWait_idle h g hd ho⟩,
      fun ho => ⟨s.requestClose c.env.part, number ▸ exec_ckptWait h g ho, rfl, rfl, State.requestClose_wanted hp⟩,
      fun k => ?_, exec_detq h g, exec_rdclk h g⟩
    rw [exec_ckq h g, Int.toNat_natCast, State.ckptWord_eq hp]
  · intro s c g x n h
    refine ⟨exec_brk_idle h g n, fun ho hl => ?_, exec_brk h g n, fun ho hl => ?_⟩
    · rw [exec_tmark h g hl, if_neg (by simp [ho])]
    · rw [exec_tmark h g hl, if_pos ho]
  · intro s c g f x ch h hf hl
    exact exec_digest h g hf hl
  · intro s c d a q e h hd ho hi
    refine ⟨exec_launch_canonical h d a q e, fun y hdet hperm hrange => ?_⟩
    have hy : LaunchReady s c a e y := by
      have aim := onceAim_of_acts ho (c.w.areg a) e.off
      exact ⟨hdet, aim ▸ checkRights_read hperm _ _, aim ▸ hrange⟩
    refine ⟨exec_launch_refused h d a q e hy, fun hn hen hdev hwait =>
      ⟨exec_launch_fence h d a q e hy hn hen hdev hwait, fun hr => ⟨?_, ?_⟩⟩⟩
    · intro hfull
      obtain ⟨v, hv, registers⟩ := State.launched_warp hd hi
      refine ⟨_, v, exec_launch_full h d a q e hy hn hen hdev hwait hr hfull, ?_, ?_, hv, registers⟩
      · simp [State.launched_mem]
      · exact (State.translated_sameWork ..).parts
    · intro u hroom hread hpoison hwrite
      obtain ⟨v, hv, registers⟩ := State.launched_warp hd hi
      obtain ⟨pt, hp, hx⟩ := State.launchQueue_eq q hen
      have kept := ((State.translated_sameWork _ c.env [y.2.1]).keeps.trans (State.writeFor_keeps (fun _ _ => rfl) hwrite)).trans
        (u.noteReads_keeps (π := (·.queues)) (fun _ _ => rfl) c.env.part y.2.2)
      obtain ⟨p, hp', queues⟩ := kept.exists hp
      have same : p.queue (c.sca q).toNat = s.launchQueue c q := by rw [← hx]; exact congrArg (NMap.getD · _ Queue.reset) queues
      obtain ⟨-, hnew, -⟩ := State.setQueue_becomes (s := (u.noteReads c.env.part y.2.2).wroteOut c.bid) hp'
        (q := (c.sca q).toNat) fun x => { x with tail := x.tail + 1 }
      refine ⟨_, v, _, exec_launch_appends h d a q e hy hn hen hdev hwait hr hroom hread hpoison hwrite,
        ?_, hv, registers, hnew, ?_, ?_⟩
      · simp [State.launched_mem]
      · rw [Partition.queue_put]
        exact congrArg (·.tail + 1) same
      · rw [Partition.queue_put]
        change (p.queue (c.sca q).toNat).head = _
        rw [same]
        rfl
end Sys2Proof.Machine
end

section
/-! The distributor's order and its first claimant, a cluster of one block placed, the age threshold, and the end of blocks and launches
(spec/02 R72 to R77, spec/27 R510 to R512, spec/01 R36). -/
namespace Sys2Proof.Machine

/-! ### The order of claimants (R73) -/

/-- A launch some cluster of which waits and is aged. -/
def Launch.Aged (l : Launch) : Prop := ∃ w, l.wait = some w ∧ w.aged = true

section order
variable {x y : Launch}

/-- When an aged cluster began to wait. -/
def Launch.agedSince (l : Launch) : Option Nat := l.wait.bind fun w => if w.aged then some w.since else none

theorem Launch.agedSince_of_aged (hx : x.Aged) : ∃ a, x.agedSince = some a := by
  obtain ⟨w, hw, ha⟩ := hx
  exact ⟨w.since, by simp [Launch.agedSince, hw, ha]⟩

theorem Launch.agedSince_of_young (hx : ¬x.Aged) : x.agedSince = none := by
  cases hw : x.wait with
  | none => simp [Launch.agedSince, hw]
  | some w => simp [Launch.agedSince, hw, show w.aged = false from Bool.eq_false_iff.2 fun ha => hx ⟨w, hw, ha⟩]

/-- An aged cluster claims before the others; among those with none, priority and acceptance decide. -/
theorem Launch.before_eq (x y : Launch) : x.before y = (x.agedSince.elim
    (y.agedSince.isNone && (decide (y.priority < x.priority) || (x.priority == y.priority && decide (x.accept < y.accept))))
    fun a => y.agedSince.elim true fun b => decide (a < b) || (a == b && decide (x.accept < y.accept))) := by
  unfold Launch.before
  extract_lets age
  have since (z : Launch) : age z = z.agedSince := by
    simp only [age, Launch.agedSince]
    cases z.wait <;> rfl
  rw [since, since]
  cases x.agedSince <;> cases y.agedSince <;> simp

theorem Launch.before_irrefl (x : Launch) : x.before x = false := by
  rw [Launch.before_eq]
  cases x.agedSince <;> simp

theorem Launch.before_of_aged (hx : x.Aged) (hy : ¬y.Aged) : x.before y = true ∧ y.before x = false := by
  obtain ⟨a, ha⟩ := Launch.agedSince_of_aged hx
  simp [Launch.before_eq, ha, Launch.agedSince_of_young hy]

theorem Launch.before_of_young (hx : ¬x.Aged) (hy : ¬y.Aged) :
    x.before y = (decide (y.priority < x.priority) || (x.priority == y.priority && decide (x.accept < y.accept))) := by
  simp [Launch.before_eq, Launch.agedSince_of_young hx, Launch.agedSince_of_young hy]

end order

theorem NMap.mem_of_get? {α : Type} {m : NMap α} {k : Nat} {v : α} (h : m.get? k = some v) : (k, v) ∈ m := by
  induction m with
  | nil => cases h
  | cons e r ih =>
    rw [NMap.get?_cons] at h
    split at h
    · next he => cases h; subst he; exact List.mem_cons_self
    · exact List.mem_cons_of_mem e (ih h)

theorem NMap.get?_of_mem {α : Type} {m : NMap α} (h : m.Pairwise fun a b => a.1 < b.1) {e : Nat × α} (he : e ∈ m) : m.get? e.1 = some e.2 := by
  induction m with
  | nil => cases he
  | cons f r ih =>
    obtain ⟨below, h⟩ := List.pairwise_cons.1 h
    rw [NMap.get?_cons]
    rcases List.mem_cons.1 he with rfl | he
    · exact if_pos rfl
    · rw [if_neg (below e he).ne, ih h he]

section claim
variable {x : Nat × Launch} {ls : List (Nat × Launch)}

/-- A claimant that none precedes stays at the head. -/
theorem foldl_insertClaimant_head (hb : ∀ y ∈ ls, y.2.before x.2 = false) (r : List (Nat × Launch)) :
    ∃ r', ls.foldl (fun r y => insertClaimant y r) (x :: r) = x :: r' :=
  List.foldlRecOn (motive := fun acc => ∃ r', acc = x :: r') ls _ ⟨r, rfl⟩ fun acc ⟨r', hr⟩ y hy => by
    subst hr
    exact ⟨insertClaimant y r', by simp [insertClaimant, hb y hy]⟩

theorem insertClaimant_head? (y : Nat × Launch) (r : List (Nat × Launch)) :
    (insertClaimant y r).head? = some y ∨ (insertClaimant y r).head? = r.head? := by
  cases r with
  | nil => exact .inl rfl
  | cons z r =>
    unfold insertClaimant
    split
    · exact .inl rfl
    · exact .inr rfl

/-- The claimant that comes before every other is served first. -/
theorem foldl_insertClaimant_first (hx : x ∈ ls) (ha : ∀ y ∈ ls, y ≠ x → x.2.before y.2 = true) (hb : ∀ y ∈ ls, y.2.before x.2 = false)
    {acc : List (Nat × Launch)} (hacc : ∀ y, acc.head? = some y → y = x ∨ x.2.before y.2 = true) :
    ∃ r, ls.foldl (fun r y => insertClaimant y r) acc = x :: r := by
  induction ls generalizing acc with
  | nil => cases hx
  | cons y ls ih =>
    have hb' : ∀ z ∈ ls, z.2.before x.2 = false := fun z hz => hb z (List.mem_cons_of_mem y hz)
    by_cases hy : y = x
    · subst hy
      obtain ⟨r, hr⟩ : ∃ r, insertClaimant y acc = y :: r := by
        cases acc with
        | nil => exact ⟨[], rfl⟩
        | cons z acc =>
          unfold insertClaimant
          split
          · exact ⟨z :: acc, rfl⟩
          · next h => exact ⟨_, congrArg (· :: _) ((hacc z rfl).resolve_right h)⟩
      rw [List.foldl_cons, hr]
      exact foldl_insertClaimant_head hb' r
    · refine ih ((List.mem_cons.1 hx).resolve_left (Ne.symm hy)) (fun z hz => ha z (List.mem_cons_of_mem y hz)) hb' fun z hz => ?_
      rcases insertClaimant_head? y acc with h | h
      · rw [h] at hz
        cases hz
        exact .inr (ha y List.mem_cons_self hy)
      · exact hacc z (h ▸ hz)

variable {s : State} {part lid : Nat} {l : Launch}

/-- The launch whose claim comes before every other's heads the partition's claimants. -/
theorem State.claimants_first (hl : s.launches.get? lid = some l) (hpart : lid / 2 ^ 54 = part) (hd : l.dispatchable = true)
    (h : ∀ x ∈ s.launches, x.1 / 2 ^ 54 = part → x.2.dispatchable = true → x ≠ (lid, l) → l.before x.2 = true ∧ x.2.before l = false) :
    ∃ r, s.claimants part = (lid, l) :: r := by
  have rival {x : Nat × Launch} (hx : x ∈ s.launches.filter fun x => partOfLaunch x.1 == part && x.2.dispatchable) (hne : x ≠ (lid, l)) :
      l.before x.2 = true ∧ x.2.before l = false := by
    obtain ⟨mem, here⟩ := List.mem_filter.1 hx
    obtain ⟨at', disp⟩ := Bool.and_eq_true_iff.1 here
    exact h x mem (beq_iff_eq.1 at') disp hne
  refine foldl_insertClaimant_first ?_ (fun x hx hne => (rival hx hne).1) (fun x hx => ?_) (fun y hy => nomatch hy)
  · have here : (partOfLaunch lid == part) = true := beq_iff_eq.2 hpart
    exact List.mem_filter.2 ⟨NMap.mem_of_get? hl, Bool.and_eq_true_iff.2 ⟨here, hd⟩⟩
  · by_cases hne : x = (lid, l)
    · rw [hne]; exact l.before_irrefl
    · exact (rival hx hne).2

end claim

/-! ### The distributor's step (R73) -/

/-- The groups closed to a launch's clusters: those of aged clusters, where it has none itself (R75). -/
def State.closedTo (s : State) (part : Nat) (l : Launch) : List Nat :=
  l.wait.elim (s.agedGroups part) fun w => if w.aged then [] else s.agedGroups part

theorem State.agedGroups_of_young {s : State} (h : ∀ x ∈ s.launches, ¬x.2.Aged) (part : Nat) : s.agedGroups part = [] := by
  refine List.filterMap_eq_nil_iff.2 fun x hx => ?_
  cases hw : x.2.wait with
  | none => rfl
  | some w => simp [show w.aged = false from Bool.eq_false_iff.2 fun ha => h x hx ⟨w, hw, ha⟩]

theorem State.closedTo_of_aged (s : State) (part : Nat) {l : Launch} (h : l.Aged) : s.closedTo part l = [] := by
  obtain ⟨w, hw, ha⟩ := h
  simp [State.closedTo, hw, ha]

theorem State.closedTo_of_young {s : State} (h : ∀ x ∈ s.launches, ¬x.2.Aged) (part : Nat) (l : Launch) : s.closedTo part l = [] := by
  unfold State.closedTo
  rw [s.agedGroups_of_young h]
  cases l.wait <;> simp

/-- A running context that neither closes an interval nor waits for restored blocks: its partition places clusters. -/
structure Partition.Places (pt : Partition) : Prop where
  running   : pt.ctx.state = 1
  unclosed  : pt.ck.closing = false
  notDue    : pt.ck.due = false
  returning : pt.returning = []

section step
variable {s : State} {part : Nat} {pt : Partition} (hp : s.parts.get? part = some pt) (hr : pt.Places)
include hp hr

theorem exec_placeCluster_system {u : State} (hu : s.placeSystem part pt = some u) : exec (.placeCluster part) s = .next u := by
  change execPlaceCluster part s = _
  simp [execPlaceCluster, State.placeReturning, hp, hr.running, hr.unclosed, hr.notDue, hr.returning, hu]

theorem exec_placeCluster_claims (hs : s.placeSystem part pt = none) : exec (.placeCluster part) s =
    .next (((s.claimants part).findSome? fun x => s.offer pt (s.closedTo part x.2) x.1).getD s) := by
  change execPlaceCluster part s = _
  simp only [execPlaceCluster, State.placeReturning, hp, hr.running, hr.unclosed, hr.notDue, hr.returning, hs]
  refine congrArg (fun f => Host.Outcome.next ((List.findSome? f (s.claimants part)).getD s)) (funext fun x => ?_)
  unfold State.closedTo
  cases x.2.wait <;> rfl

variable {lid : Nat} {l : Launch} {t : State}

theorem exec_placeCluster_first (hs : s.placeSystem part pt = none) (hc : ∃ r, s.claimants part = (lid, l) :: r) (hcl : s.closedTo part l = [])
    (ht : s.offer pt [] lid = some t) : exec (.placeCluster part) s = .next t := by
  obtain ⟨r, hc⟩ := hc
  rw [exec_placeCluster_claims hp hr hs, hc, List.findSome?_cons, hcl, ht]
  rfl

end step

/-! ### A cluster begins to wait (R74, R75) -/

section wait
variable {s : State} {ls : NMap Launch}

section room
variable (hr : ∀ core, State.reservedOn { s with launches := ls } core = s.reservedOn core)
include hr

theorem State.freeGranules_congr (q : Nat) : State.freeGranules { s with launches := ls } q = s.freeGranules q := by
  unfold State.freeGranules State.reservedGranules
  rw [hr]
  rfl

theorem State.usedSlots_congr (q : Nat) : State.usedSlots { s with launches := ls } q = s.usedSlots q := by
  unfold State.usedSlots
  rw [hr]
  rfl

theorem State.nextRot_congr (lid core : Nat) (l : Launch) : State.nextRot { s with launches := ls } lid core l = s.nextRot lid core l := by
  unfold State.nextRot
  rw [hr]

theorem State.offered_congr (q : Nat) : State.offered { s with launches := ls } q = s.offered q := by
  unfold State.offered
  rw [State.freeGranules_congr hr]

theorem State.warpsFit_congr (core rot : Nat) (ns : List Nat) : State.warpsFit { s with launches := ls } core rot ns = s.warpsFit core rot ns := by
  unfold State.warpsFit
  simp only [State.usedSlots_congr hr, State.offered_congr hr]
  rfl

variable (hu : ∀ core, State.usedRuns { s with launches := ls } core = s.usedRuns core)
include hu

theorem State.fits_congr (lid core : Nat) (l : Launch) : State.fits { s with launches := ls } lid core l = s.fits lid core l := by
  unfold State.fits State.freeRun
  simp only [State.nextRot_congr hr, State.warpsFit_congr hr, hu]

/-- The place that takes a rank turns on the launches by what their clusters have reserved only. -/
theorem State.rankCore_congr (pt : Partition) (lid : Nat) (l : Launch) (turn group j : Nat) :
    State.rankCore { s with launches := ls } pt lid l turn group j = s.rankCore pt lid l turn group j := by
  unfold State.rankCore State.coreGranules
  simp only [State.fits_congr hr hu, State.freeGranules_congr hr]

end room

/-! Beginning to wait reserves nothing. -/

variable {lid : Nat} (h : ∀ x ∈ s.launches, x.1 = lid → x.2.wait = none) (w : ClusterWait) (hw : w.reserved = [])
include h hw

theorem State.reservedOn_wait (core : Nat) : (s.setLaunch lid fun l => { l with wait := some w }).reservedOn core = s.reservedOn core := by
  unfold State.reservedOn
  rw [State.setLaunch_launches, NMap.adjust, List.flatMap_map]
  refine List.flatMap_congr fun x hx => ?_
  by_cases hx' : x.1 = lid
  · rw [if_pos hx', h x hx hx']
    simp [hw]
  · rw [if_neg hx']

theorem State.usedRuns_wait (core : Nat) : (s.setLaunch lid fun l => { l with wait := some w }).usedRuns core = s.usedRuns core := by
  unfold State.usedRuns
  rw [State.setLaunch_launches, NMap.adjust, List.flatMap_map]
  refine congrArg (fun z => _ ++ z ++ _ ++ _) (List.flatMap_congr fun x hx => ?_)
  by_cases hx' : x.1 = lid
  · rw [if_pos hx', h x hx hx']
    simp [hw]
  · rw [if_neg hx']

/-- A cluster that has begun to wait has the same places before it. -/
theorem State.rankCore_wait (pt : Partition) (l : Launch) (turn group j : Nat) :
    (s.setLaunch lid fun l => { l with wait := some w }).rankCore pt lid l turn group j = s.rankCore pt lid l turn group j :=
  State.rankCore_congr (State.reservedOn_wait h w hw) (State.usedRuns_wait h w hw) pt lid l turn group j

omit h hw in
/-- The place that takes a rank has its core's next rotation (R76). -/
theorem State.rankCore_rot {pt : Partition} {l : Launch} {turn group j : Nat} (hdet : l.det ≠ 3) {x : Spot}
    (hx : s.rankCore pt lid l turn group j = some x) : x.rot = s.nextRot lid x.core l := by
  have fits {core : Nat} {y : Spot} (hy : s.fits lid core l = some y) : y.rot = s.nextRot lid y.core l := by
    unfold State.fits at hy
    dsimp only at hy
    split at hy
    · obtain ⟨b, -, rfl⟩ := Option.map_eq_some_iff.1 hy
      rfl
    · cases hy
  unfold State.rankCore at hx
  rw [if_neg hdet] at hx
  refine List.foldlRecOn (motive := fun best : Option Spot => ∀ x, best = some x → x.rot = s.nextRot lid x.core l)
    _ _ (fun x hx => by cases hx) (fun best hbest core _ x hx => ?_) x hx
  split at hx
  · next hy =>
    split at hx
    · exact fits (hy.trans hx)
    · exact hbest x hx
  · next hy =>
    exact fits (hy.trans hx)
  · exact hbest x hx

end wait

/-! ### The offer to a cluster of one block in a partition of one group -/

/-- A launch's cluster has begun to wait on a group, with nothing reserved. -/
def State.waits (s : State) (lid group : Nat) : State := s.setLaunch lid fun l => { l with wait := some ⟨s.cycle, group, [], false⟩ }

section single
variable {s : State} {pt : Partition} {lid turn group : Nat} {l : Launch}

theorem State.waits_get? (hl : s.launches.get? lid = some l) :
    (s.waits lid group).launches.get? lid = some { l with wait := some ⟨s.cycle, group, [], false⟩ } :=
  State.setLaunch_get?_same hl _

/-- The one rank of a cluster is reserved where some core takes it. -/
theorem State.chooseGroup_single (hl : s.launches.get? lid = some l) (hdet : l.det ≠ 3) (hranks : l.ranks = 1) (hgroup : pt.groupList = [group])
    (hnew : ∀ x ∈ s.launches, x.1 = lid → x.2.wait = none) : s.chooseGroup pt lid l turn [] =
      some ((s.rankCore pt lid l turn group 0).elim (s.waits lid group) ((s.waits lid group).reserve lid)) := by
  have begun : s.beginWait pt lid l turn group [] = reserveRanks pt lid l turn group 1 (s.waits lid group) := by
    rw [← hranks]
    rfl
  have noneReserved : (((s.waits lid group).launches.get? lid).bind (·.wait)).elim 0 (·.reserved.length) = 0 := by
    rw [State.waits_get? hl]
    rfl
  have place : (s.waits lid group).rankCore pt lid l turn group 0 = s.rankCore pt lid l turn group 0 := State.rankCore_wait hnew _ rfl ..
  unfold State.chooseGroup
  rw [if_neg hdet, hgroup]
  simp only [List.foldl_cons, List.foldl_nil, begun]
  unfold reserveRanks
  dsimp only
  rw [noneReserved, hranks, if_neg (by decide), place]
  cases s.rankCore pt lid l turn group 0 <;> rfl

theorem State.offer_waits (hl : s.launches.get? lid = some l) (hwait : l.wait = none) (hturn : l.nextTurn = some turn) (hdet : l.det ≠ 3)
    (hranks : l.ranks = 1) (hgroup : pt.groupList = [group]) (hnew : ∀ x ∈ s.launches, x.1 = lid → x.2.wait = none)
    (hnone : s.rankCore pt lid l turn group 0 = none) : s.offer pt [] lid = some (s.waits lid group) := by
  have chosen := State.chooseGroup_single (turn := turn) hl hdet hranks hgroup hnew
  rw [hnone] at chosen
  simp only [State.offer, hl, hturn, hwait, chosen, Option.elim_none, Option.map_some, State.waits_get? hl, Option.bind_some, hranks,
    List.length_nil]
  rfl

theorem State.offer_places (hl : s.launches.get? lid = some l) (hwait : l.wait = none) (hturn : l.nextTurn = some turn) (hdet : l.det ≠ 3)
    (hranks : l.ranks = 1) (hgroup : pt.groupList = [group]) (hnew : ∀ x ∈ s.launches, x.1 = lid → x.2.wait = none) {r : Spot}
    (hr : s.rankCore pt lid l turn group 0 = some r) :
    s.offer pt [] lid = some (((s.waits lid group).reserve lid r).placeReserved pt lid l turn [r]) := by
  have chosen := State.chooseGroup_single (turn := turn) hl hdet hranks hgroup hnew
  rw [hr] at chosen
  have reserved : ((s.waits lid group).reserve lid r).launches.get? lid = some { l with wait := some ⟨s.cycle, group, [r], false⟩ } :=
    State.setLaunch_get?_same (State.waits_get? hl) _
  simp only [State.offer, hl, hturn, hwait, chosen, Option.elim_some, Option.map_some, reserved, Option.bind_some, hranks, List.length_singleton,
    if_true]

end single

/-! ### A block placed (R76, R142) -/

theorem State.freeSlot_quarter (s : State) (q : Nat) : s.freeSlot q / 16 = q := by
  unfold State.freeSlot
  dsimp only
  cases h : ((List.range 16).map (16 * q + ·)).find? fun w => (s.warps.get? w).isNone && !(s.sysBlocks.map (·.1)).contains w with
  | none => exact Nat.mul_div_cancel_left q (by decide)
  | some w =>
    obtain ⟨k, hk, rfl⟩ := List.mem_map.1 (List.mem_of_find?_eq_some h)
    have := List.mem_range.1 hk
    change (16 * q + k) / 16 = q
    omega

section warps
variable (pt : Partition) (part : Nat) (l : Launch) (bid core rot : Nat)

/-- Placing warps changes the warps only. -/
theorem placeWarps_state (js : List Nat) (s : State) :
    (placeWarps pt part l bid core rot js s).1 = { s with warps := (placeWarps pt part l bid core rot js s).1.warps } := by
  induction js generalizing s with
  | nil => rfl
  | cons j js ih =>
    unfold placeWarps
    dsimp only
    rw [ih]
    rfl

theorem placeWarps_length (js : List Nat) (s : State) : (placeWarps pt part l bid core rot js s).2.length = js.length := by
  induction js generalizing s with
  | nil => rfl
  | cons j js ih => exact congrArg (· + 1) (ih _)

/-- Warp j of a block is on the quarter that the core's rotation gives (R76). -/
theorem placeWarps_quarter (js : List Nat) (s : State) {i : Nat} (hi : i < js.length) :
    (placeWarps pt part l bid core rot js s).2.getD i 0 / 16 = 4 * core + (js.getD i 0 + rot) % 4 := by
  induction js generalizing s i with
  | nil => cases hi
  | cons j js ih =>
    cases i with
    | zero => exact State.freeSlot_quarter s _
    | succ i => exact ih _ (Nat.lt_of_succ_lt_succ hi)

end warps

section block
variable (s : State) (pt : Partition) (lid : Nat) (l : Launch) (turn j : Nat) (r : Spot)

/-- The warp slots a block takes. -/
def State.slotsOf : List Nat := (placeWarps pt (partOfLaunch lid) l s.nextBlock r.core r.rot (List.range l.blockWarps) s).2

theorem State.slotsOf_length : (s.slotsOf pt lid l r).length = l.blockWarps := by
  simp [State.slotsOf, placeWarps_length]

theorem State.slotsOf_quarter {i : Nat} (hi : i < l.blockWarps) : (s.slotsOf pt lid l r).getD i 0 / 16 = 4 * r.core + (i + r.rot) % 4 := by
  refine (placeWarps_quarter _ _ _ _ _ _ _ s (by simpa using hi)).trans ?_
  simp [List.getD, hi]

theorem State.placeBlock_eq : s.placeBlock pt lid l turn j r = State.countPlaced
    { (placeWarps pt (partOfLaunch lid) l s.nextBlock r.core r.rot (List.range l.blockWarps) s).1 with
      blocks := s.blocks.put s.nextBlock (Block.fresh lid (l.blockIndex turn j) (l.clusterIndex turn) j turn r.core (pt.sliceOf r.core)
        r.base l.sramLines s.cycle (s.freeBlockSlot r.core l) (s.slotsOf pt lid l r))
      nextBlock := s.nextBlock + 1 } lid r.core l := by
  unfold State.placeBlock
  dsimp only
  rw [placeWarps_state]
  rfl

theorem State.placeBlock_nextBlock : (s.placeBlock pt lid l turn j r).nextBlock = s.nextBlock + 1 := by
  rw [State.placeBlock_eq]
  rfl

theorem State.placeBlock_block : (s.placeBlock pt lid l turn j r).blocks.get? s.nextBlock =
    some (Block.fresh lid (l.blockIndex turn j) (l.clusterIndex turn) j turn r.core (pt.sliceOf r.core)
      r.base l.sramLines s.cycle (s.freeBlockSlot r.core l) (s.slotsOf pt lid l r)) := by
  rw [State.placeBlock_eq]
  exact NMap.get?_put_same _ _ _

theorem State.placeBlock_launches : (s.placeBlock pt lid l turn j r).launches = s.launches := by
  rw [State.placeBlock_eq, placeWarps_state]
  rfl

theorem State.placeBlock_rot (hdet : l.det ≠ 3) : (s.placeBlock pt lid l turn j r).rot.getD r.core 0 = s.rot.getD r.core 0 + 1 := by
  rw [State.placeBlock_eq, placeWarps_state]
  simp [State.countPlaced, hdet, NMap.getD]

/-- The warp of a block of one. -/
theorem State.placeBlock_warp (hone : l.blockWarps = 1) : (s.placeBlock pt lid l turn j r).warps.get? ((s.slotsOf pt lid l r).getD 0 0) =
    some (Warp.fresh pt l s.nextBlock 0 (s.freeFrame (partOfLaunch lid)) s.cycle) := by
  rw [State.placeBlock_eq]
  unfold State.slotsOf
  rw [hone]
  exact NMap.get?_put_same _ _ _

end block

/-- The wait of a cluster of one is over as its one rank is reserved: the state in which its block is placed. -/
def State.grants (s : State) (lid group : Nat) (r : Spot) : State :=
  ((s.waits lid group).reserve lid r).setLaunch lid fun l => { l with wait := none }

/-- The other paths of a new warp are free (R142). -/
theorem Warp.fresh_path (pt : Partition) (l : Launch) (bid j fs cycle : Nat) {k : Nat} (hk : k ≠ 0) :
    ((Warp.fresh pt l bid j fs cycle).path k).state = .free := by
  obtain ⟨k, rfl⟩ := Nat.exists_eq_succ_of_ne_zero hk
  change (nth (List.replicate 15 Path.free) k Path.free).state = .free
  by_cases h : k < 15
  · simp only [nth, List.getElem?_replicate, if_pos h]
    rfl
  · simp only [nth, List.getElem?_replicate, if_neg h]
    rfl

section placed
variable (l : Launch)

theorem Launch.placedOne_wait : l.placedOne.wait = none := by
  unfold Launch.placedOne
  cases l.again <;> rfl

theorem Launch.placedOne_next (h : l.again = []) : l.placedOne.next = l.next + 1 := by
  simp [Launch.placedOne, h]

theorem Launch.placedOne_state : l.placedOne.state = if l.placedOne.nextTurn.isSome = true then .dispatching else .draining := by
  unfold Launch.placedOne
  cases l.again <;> rfl

end placed

/-! ### Ages, retirement and completion (R75, R510 to R512) -/

theorem exec_clusterAgeThreshold {s : State} {lid : Nat} {l : Launch} {w : ClusterWait} (hl : s.launches.get? lid = some l) (hw : l.wait = some w) :
    exec (.clusterAgeThreshold lid) s = .next (if w.since + 16384 ≤ s.cycle then
      s.setLaunch lid fun l => { l with wait := l.wait.map fun w => { w with aged := true } } else s) := by
  change execClusterAgeThreshold lid s = _
  simp only [execClusterAgeThreshold, hl, Option.bind_some, hw]
  split <;> rfl

section retire
variable {s : State} {bid : Nat} {b : Block} {l : Launch}

theorem State.standing_iff (s : State) (part : Nat) :
    s.standing part = true ↔ ∃ p, s.parts.get? part = some p ∧ (p.ck.closing = true ∨ p.ck.due = true) := by
  cases h : s.parts.get? part <;> simp [State.standing, h]

/-- A block's work is over once nothing of it is under way; a stream that a fault stopped is over with its last warp (R510, R261). -/
theorem State.blockOver_iff : s.blockOver bid b = true ↔
    (b.live = [] ∧ (∀ x ∈ s.stores, x.block ≠ bid) ∧ (∀ x ∈ s.unacked, x.block = bid → x.launch ≠ b.launch)
      ∧ (∀ x ∈ b.copies, x.2.state = .ended)
      ∧ (b.mx.stream = none ∨ ∃ f, b.mx.stopped = some f ∧ f.delivered = false) ∧ b.collOpen = 0) := by
  unfold State.blockOver
  cases b.mx.stopped <;> simp [and_assoc]

/-- What the retirement of a block adds to its launch (R511); a stream a fault stopped ends it (R261). -/
def Launch.tookBlock (l : Launch) (b : Block) (last : Bool) : Launch :=
  { l with
    accum := l.accum + b.accum, retired := l.retired + b.retired, retiredBlocks := l.retiredBlocks + 1
    retiredClusters := l.retiredClusters + last.toNat
    aborted := l.aborted || b.mx.stopped.isSome
    status := if b.mx.stopped.isSome then 0x010A else l.status }

/-- Whether another block of a block's cluster stands. -/
theorem State.others_of_cluster (s : State) (bid : Nat) (b : Block) :
    ((s.blocks.del bid).any fun x => x.2.launch == b.launch && x.2.turn == b.turn) = false ↔
      ∀ x ∈ s.blocks, x.1 ≠ bid → ¬(x.2.launch = b.launch ∧ x.2.turn = b.turn) := by
  simp [NMap.del, List.any_eq_false]

variable (hb : s.blocks.get? bid = some b) (hl : s.launches.get? b.launch = some l)
include hb hl

theorem exec_blockRetire : exec (.blockRetire bid) s = .next (
    if (!s.blockOver bid b || s.standing (partOfLaunch b.launch) || (l.det == 3 && l.retiredClusters < b.turn)) = true then s
    else ({ s.dropBanks bid b.core with blocks := s.blocks.del bid } : State).setLaunch b.launch fun l =>
      l.tookBlock b !((s.blocks.del bid).any fun x => x.2.launch == b.launch && x.2.turn == b.turn)) := by
  change execBlockRetire bid s = _
  simp only [execBlockRetire, hb, hl]
  split <;> rfl

end retire

section complete
variable {s : State} {lid : Nat} {l : Launch}

theorem State.launchOver_iff : s.launchOver lid l = true ↔
    ((∀ x ∈ s.blocks, x.2.launch ≠ lid) ∧ (∀ p, s.parts.get? (lid / 2 ^ 54) = some p → ∀ b ∈ p.returning, b.block.launch ≠ lid)
      ∧ l.state ≠ .waiting ∧ (l.aborted = true ∨ l.nextTurn = none)) := by
  unfold State.launchOver partOfLaunch
  cases s.parts.get? (lid / 2 ^ 54) <;> cases l.state <;> simp [and_assoc]

theorem exec_launchComplete (hl : s.launches.get? lid = some l) : exec (.launchComplete lid) s = .next (
    if (!s.launchOver lid l || s.standing (partOfLaunch lid)) = true then s
    else s.completeLaunch lid l (if l.status ≠ 0 then l.status else if l.aborted then 0x0108 else 0)) := by
  change execLaunchComplete lid s = _
  simp only [execLaunchComplete, hl]
  split <;> rfl

/-! A completed packet keeps its status and frees its place (R36, R37). -/

theorem advanceDone_eq (part q n : Nat) (s : State) : advanceDone part q n s = { s with parts := (advanceDone part q n s).parts } := by
  induction n generalizing s with
  | zero => rfl
  | succ n ih =>
    unfold advanceDone
    split
    · rfl
    · dsimp only
      split
      · rw [ih]
        rfl
      · rfl

theorem State.completePacket_status (s : State) (lid : Nat) (l : Launch) (status : Nat) :
    (s.completePacket lid l status).statuses.get? lid = some status := by
  unfold State.completePacket
  dsimp only
  rw [advanceDone_eq]
  split <;> exact NMap.get?_put_same _ _ _

theorem State.completePacket_launch (s : State) (lid : Nat) (l : Launch) (status : Nat) :
    (s.completePacket lid l status).launches.get? lid = none := by
  unfold State.completePacket
  dsimp only
  rw [advanceDone_eq]
  split <;> exact NMap.get?_del_same _ _

theorem State.completePacket_mem (s : State) (lid : Nat) (l : Launch) (status : Nat) :
    (s.completePacket lid l status).mem = (s.completionStamp lid l status).mem := by
  unfold State.completePacket
  dsimp only
  rw [advanceDone_mem]
  split <;> rfl

/-- A launch that opened no record completes as a packet does. -/
theorem State.completeLaunch_of_no_record (hr : l.record = none) (status : Nat) :
    s.completeLaunch lid l status = s.completePacket lid l status := by
  have closed (d : List Byte) (rerr rpois : Bool) : s.closeRecord lid l status d rerr rpois = s := by
    unfold State.closeRecord
    dsimp only
    rw [hr]
    cases s.parts.get? (partOfLaunch lid) <;> rfl
  unfold State.completeLaunch
  dsimp only
  rw [closed]

theorem State.writePieces_mem_congr {s t : State} (h : t.mem = s.mem) (ws : List (Piece × List Byte)) :
    (t.writePieces ws).mem = (s.writePieces ws).mem := by
  unfold State.writePieces
  induction ws generalizing s t with
  | nil => exact h
  | cons w ws ih => exact ih (by rw [State.writePiece_mem, State.writePiece_mem, h])

/-- Pieces of the device's own memory are written at once. -/
theorem State.writeOrSend_mem {ws : List (Piece × List Byte)} (hws : ∀ w ∈ ws, w.1.peer = none) (s : State) (a : Agent)
    (core block launch part seq : Nat) (mask : BitVec 7) :
    (s.writeOrSend a core block launch part seq mask ws).mem = (s.writePieces ws).mem := by
  unfold State.writeOrSend
  induction ws generalizing s with
  | nil => rfl
  | cons w ws ih =>
    obtain ⟨hw, hws⟩ := List.forall_mem_cons.1 hws
    rw [List.foldl_cons, if_neg (by simp [hw]), ih hws]
    exact State.writePieces_mem_congr (by rw [State.performAt_mem, State.writePiece_mem]) ws

theorem cutBytes_pieces {ps : List Piece} {bs : List Byte} {w : Piece × List Byte} (hw : w ∈ cutBytes ps bs) : w.1 ∈ ps := by
  induction ps generalizing bs with
  | nil => cases hw
  | cons p ps ih =>
    rcases List.mem_cons.1 hw with rfl | hw
    · exact List.mem_cons_self
    · exact List.mem_cons_of_mem p (ih hw)

theorem State.completionStamp_of_none (hstamp : l.stamp = 0) (status : Nat) : s.completionStamp lid l status = s := by
  simp [State.completionStamp, hstamp]

/-- The stamp of a launch of class 0 in the device's own memory (R36). -/
theorem State.completionStamp_mem {ps : List Piece} (hcls : l.cls = 0) (hstamp : l.stamp ≠ 0) (halign : l.stamp % 8 = 0)
    (hps : s.checkPlain ⟨lid / 2 ^ 54, 0⟩ l.stamp 8 false true = .ok ps) (own : ∀ p ∈ ps, p.peer = none ∧ p.host = none) (status : Nat) :
    (s.completionStamp lid l status).mem = (s.writePieces (cutBytes ps (leBytes 8 (status * 2 ^ 48 + lid % 2 ^ 48)))).mem := by
  have noHost : (ps.any (·.host.isSome) && (s.portFault (.stamp lid)).isSome) = false := by
    rw [List.any_eq_false.2 fun p hp => by simp [(own p hp).2], Bool.false_and]
  have unlogged (t : State) : ps.foldl (fun s p => s.logLine (partOfLaunch lid) l.cls p) t = t := by
    have same (t : State) (p : Piece) : t.logLine (partOfLaunch lid) l.cls p = t := by simp [State.logLine, hcls]
    simp only [same, List.foldl_fixed]
  have hps' : s.checkPlain ⟨partOfLaunch lid, 0⟩ l.stamp 8 false true = .ok ps := hps
  simp only [State.completionStamp, hstamp, halign, hps', noHost, unlogged]
  exact (State.writeOrSend_mem (fun w hw => (own w.1 (cutBytes_pieces hw)).1) ..).trans (State.writePieces_mem_congr (State.publish_mem ..) _)

end complete

/-- Settles O45, from the order of claimants, the offer to a cluster of one block, and what ends a block and a launch. -/
theorem placingAndRetirement : Obligations.PlacingAndRetirement := by
  refine ⟨?first, ?single, ?age, ?retire, ?complete⟩
  case first =>
    intro s part lid pt l t hp hstate hclosing hdue hreturning hl hpart hd
    have hr : pt.Places := ⟨hstate, hclosing, hdue, hreturning⟩
    refine ⟨fun first hs ht => ?_, fun u hu => exec_placeCluster_system hp hr hu⟩
    rcases first with ⟨aged, young⟩ | ⟨young, less⟩
    · refine exec_placeCluster_first hp hr hs (State.claimants_first hl hpart hd fun x hx hx' hxd hne => ?_) (s.closedTo_of_aged part aged) ht
      exact Launch.before_of_aged aged (young x ⟨hx, hx', hxd, hne⟩)
    · refine exec_placeCluster_first hp hr hs (State.claimants_first hl hpart hd fun x hx hx' hxd hne => ?_)
        (State.closedTo_of_young young part l) ht
      have self : ¬l.Aged := young (lid, l) (NMap.mem_of_get? hl)
      rw [Launch.before_of_young self (young x hx), Launch.before_of_young (young x hx) self]
      rcases less x ⟨hx, hx', hxd, hne⟩ with h | ⟨h, h'⟩
      · simp [h, Nat.lt_asymm h]
        omega
      · simp [h, h']
        omega
  case single =>
    intro s part lid turn group pt l hp hstate hclosing hdue hreturning hs hl hpart hd hwait hdet hranks hturn hgroup sole young hrising
    have hr : pt.Places := ⟨hstate, hclosing, hdue, hreturning⟩
    have hnew : ∀ x ∈ s.launches, x.1 = lid → x.2.wait = none := by
      intro x hx hx'
      have found := NMap.get?_of_mem hrising hx
      rw [hx', hl, Option.some_inj] at found
      rw [← found, hwait]
    have hc : ∃ r, s.claimants part = (lid, l) :: r :=
      State.claimants_first hl hpart hd fun x hx hx' hxd hne => absurd (sole x hx hx' hxd) hne
    have hcl : s.closedTo part l = [] :=
      State.closedTo_of_young (fun x hx ⟨w, hw, ha⟩ => by simp [young x hx w hw] at ha) part l
    refine ⟨fun hnone => ?_, fun core base rot hspot => ?_⟩
    · exact ⟨_, exec_placeCluster_first hp hr hs hc hcl
        (State.offer_waits hl hwait hturn hdet hranks hgroup hnew hnone), rfl, State.waits_get? hl⟩
    · have placed := exec_placeCluster_first hp hr hs hc hcl (State.offer_places hl hwait hturn hdet hranks hgroup hnew hspot)
      have ended : ((s.grants lid group ⟨core, base, rot⟩).placeBlock pt lid l turn 0 ⟨core, base, rot⟩).launches.get? lid
          = some { l with wait := none } := by
        rw [State.placeBlock_launches]
        exact State.setLaunch_get?_same (State.setLaunch_get?_same (State.waits_get? hl) _) _
      refine ⟨_, _, _, placed, ?_, State.placeBlock_nextBlock (s.grants lid group ⟨core, base, rot⟩) pt lid l turn 0 ⟨core, base, rot⟩,
        State.placeBlock_block (s.grants lid group ⟨core, base, rot⟩) pt lid l turn 0 ⟨core, base, rot⟩, State.setLaunch_get?_same ended _,
        Launch.placedOne_wait _, Launch.placedOne_next { l with wait := none }, Launch.placedOne_state _,
        rfl, rfl, rfl, rfl, rfl, rfl, rfl, rfl, rfl, State.slotsOf_length .., fun j hj => State.slotsOf_quarter _ pt lid l ⟨core, base, rot⟩ hj,
        State.rankCore_rot hdet hspot, State.placeBlock_rot (s.grants lid group ⟨core, base, rot⟩) pt lid l turn 0 ⟨core, base, rot⟩ hdet,
        fun hone => ?_⟩
      · simp [State.waits, State.reserve]
      · refine ⟨_, State.placeBlock_warp (s.grants lid group ⟨core, base, rot⟩) pt lid l turn 0 ⟨core, base, rot⟩ hone,
          rfl, rfl, rfl, rfl, rfl, rfl, rfl, rfl, rfl, rfl, fun k hk => Warp.fresh_path _ _ _ _ _ _ hk⟩
  case age =>
    intro s lid l w hl hw
    refine ⟨fun h => ?_, fun h => ?_⟩
    · rw [exec_clusterAgeThreshold hl hw, if_neg (Nat.not_le.2 h)]
    · refine ⟨_, (exec_clusterAgeThreshold hl hw).trans (congrArg _ (if_pos h)), rfl, ?_, fun k hk => State.setLaunch_get?_other hk _⟩
      rw [State.setLaunch_get?_same hl, hw]
      rfl
  case retire =>
    intro s bid b l hb hl
    dsimp only
    rw [← State.standing_iff, ← State.blockOver_iff]
    have stays : (!s.blockOver bid b || s.standing (partOfLaunch b.launch) || (l.det == 3 && decide (l.retiredClusters < b.turn))) = true ↔
        ¬s.blockOver bid b = true ∨ s.standing (b.launch / 2 ^ 54) = true ∨ (l.det = 3 ∧ l.retiredClusters < b.turn) := by
      simp [partOfLaunch, or_assoc]
    have others := State.others_of_cluster s bid b
    refine ⟨fun h => ?_, fun hended hstands hturn => ?_⟩
    · rw [exec_blockRetire hb hl, if_pos (stays.2 h)]
    · have go : ¬(!s.blockOver bid b || s.standing (partOfLaunch b.launch) || (l.det == 3 && decide (l.retiredClusters < b.turn))) = true :=
        fun h => by
          rcases stays.1 h with h | h | ⟨h, h'⟩
          · exact h hended
          · exact hstands h
          · exact absurd (hturn h) (Nat.not_le.2 h')
      refine ⟨_, _, (exec_blockRetire hb hl).trans (congrArg _ (if_neg go)), rfl, rfl, NMap.get?_del_same _ _,
        fun k hk => NMap.get?_del_other _ _ _ hk, State.setLaunch_get?_same hl _, rfl, rfl, rfl,
        fun hlast => ?_, fun hlast => ?_, fun hm => ?_, fun hm => ?_, rfl, rfl⟩
      · simp [Launch.tookBlock, others.2 hlast]
      · simp [Launch.tookBlock, Bool.eq_true_of_not_eq_false fun h => hlast (others.1 h)]
      · simp [Launch.tookBlock, hm]
      · simp [Launch.tookBlock, hm]
  case complete =>
    intro s lid l hl
    dsimp only
    rw [← State.standing_iff, ← State.launchOver_iff]
    have exec_eq := exec_launchComplete hl
    have stays : (!s.launchOver lid l || s.standing (partOfLaunch lid)) = true ↔
        ¬s.launchOver lid l = true ∨ s.standing (lid / 2 ^ 54) = true := by
      simp [partOfLaunch]
    refine ⟨fun h => ?_, fun hended hstands => ?_, fun hended hstands hrecord => ?_⟩
    · rw [exec_eq, if_pos (stays.2 h)]
    · refine ⟨exec_eq.trans (congrArg _ (if_neg fun h => ?_)), State.completePacket_status .., State.completePacket_launch ..⟩
      exact (stays.1 h).elim (fun h => h hended) hstands
    · rw [State.completeLaunch_of_no_record hrecord, State.completePacket_mem]
      exact ⟨fun h => congrArg State.mem (State.completionStamp_of_none h _),
        fun ps hcls h0 h8 hps own => State.completionStamp_mem hcls h0 h8 hps own _⟩
end Sys2Proof.Machine
end

section
/-! What the operations on a context leave alone: the work that stands, and of each partition all that an operation does not speak of
(spec/22 R463 to R472). -/
namespace Sys2Proof.Machine

/-! ### Operations that leave the work as it stands -/

section same
variable (s : State)

theorem State.shown_sameWork (cores : CoreMask) (c : List Nat) : s.SameWork (s.shown cores c) := ⟨rfl, rfl, rfl, rfl, rfl, rfl, rfl⟩

theorem State.showAll_sameWork : s.SameWork s.showAll :=
  (s.sameWork_foldl s.hidden fun s h => s.shown_sameWork everyCore h.clock).trans ⟨rfl, rfl, rfl, rfl, rfl, rfl, rfl⟩

theorem State.settlePairs_sameWork (part : Nat) : s.SameWork (s.settlePairs part) := ⟨rfl, rfl, rfl, rfl, rfl, rfl, rfl⟩

theorem State.clearSlices_sameWork (cores : List Nat) : s.SameWork (s.clearSlices cores) := ⟨rfl, rfl, rfl, rfl, rfl, rfl, rfl⟩

theorem State.holdLine_sameWork (key : Nat) : s.SameWork (s.holdLine key) :=
  State.sameWork_ite ⟨rfl, rfl, rfl, rfl, rfl, rfl, rfl⟩ ⟨rfl, rfl, rfl, rfl, rfl, rfl, rfl⟩

theorem State.dropLine_sameWork (key : Nat) : s.SameWork (s.dropLine key) :=
  State.sameWork_ite ⟨rfl, rfl, rfl, rfl, rfl, rfl, rfl⟩ ⟨rfl, rfl, rfl, rfl, rfl, rfl, rfl⟩

theorem State.dropBanks_sameWork (bid core : Nat) : s.SameWork (s.dropBanks bid core) := ⟨rfl, rfl, rfl, rfl, rfl, rfl, rfl⟩

theorem State.landBytes_sameWork (key : Nat) (bs : List Byte) : s.SameWork (s.landBytes key bs) := s.writePiece_sameWork _ bs

theorem State.holdLines_sameWork (e : Env) (c : CopyCmd) (lines : List Nat) : s.SameWork (s.holdLines e c lines).1 := by
  refine List.foldlRecOn (motive := fun x : State × CopyCmd => s.SameWork x.1) lines _ (.refl s) fun x hx l _ => ?_
  dsimp only
  split
  · exact hx
  · split
    · exact hx.trans (x.1.holdLine_sameWork _)
    · exact hx

theorem State.holdAgain_sameWork (part : Nat) (sb : SavedBlock) : s.SameWork (s.holdAgain part sb).1 :=
  List.foldlRecOn (motive := fun x : State × NMap CopyCmd => s.SameWork x.1) sb.block.copies _ (.refl s) fun x hx _ _ =>
    hx.trans (x.1.holdLines_sameWork ..)

theorem State.storeSlices_sameWork (part area : Nat) (img : CtxImage) : s.SameWork (s.storeSlices part area img) := by
  unfold State.storeSlices
  extract_lets runs back inside s1
  have written : s.SameWork s1 := ⟨rfl, rfl, rfl, rfl, rfl, rfl, rfl⟩
  exact written.trans (s1.sameWork_foldl _ fun s k => s.setPoison_sameWork _)

theorem State.storeImage_sameWork (part area : Nat) (img : CtxImage) : s.SameWork (s.storeImage part area img) := by
  unfold State.storeImage
  extract_lets d
  split
  · next h _ =>
    have drawn : s.SameWork d.2 := ⟨rfl, rfl, rfl, rfl, rfl, rfl, rfl⟩
    exact ((drawn.trans (d.2.writePlain_sameWork h)).trans (State.storeSlices_sameWork ..)).trans ⟨rfl, rfl, rfl, rfl, rfl, rfl, rfl⟩
  · exact .refl s

end same

/-! ### A context's partition -/

section keeps
variable {α : Type} {π : Partition → α} (s : State)

theorem State.setCk_keeps (hck : ∀ (p : Partition) (k : Ckpt), π { p with ck := k } = π p) (part : Nat) (f : Ckpt → Ckpt) :
    State.Keeps π s (s.setCk part f) :=
  State.keeps_setPart fun _ => hck _ _

section landing
variable (hland : ∀ (p : Partition) (l : NMap (List Byte)), π { p with landing := l } = π p)
include hland

theorem State.landAll_keeps (part : Nat) : State.Keeps π s (s.landAll part) := by
  unfold State.landAll
  split
  · exact .refl s
  · next p _ =>
    extract_lets s1 keys
    have landed : s.SameWork s1 := s.sameWork_foldl p.landing fun s l => s.landBytes_sameWork _ _
    exact (landed.keeps.trans (s1.sameWork_foldl keys fun s k => s.dropLine_sameWork k).keeps).trans
      (State.keeps_setPart fun _ => hland _ _)

theorem State.bringLine_keeps (part : Nat) (img : CtxImage) (moving : Bool) (line : Nat) : State.Keeps π s (s.bringLine part img moving line) := by
  unfold State.bringLine
  dsimp only
  split
  · exact (s.holdLine_sameWork _).keeps.trans (State.keeps_setPart fun _ => hland _ _)
  · exact State.SameWork.keeps ⟨rfl, rfl, rfl, rfl, rfl, rfl, rfl⟩

theorem State.bringSlices_keeps (part : Nat) (img : CtxImage) (moving : Bool) : State.Keeps π s (s.bringSlices part img moving) := by
  unfold State.bringSlices
  extract_lets s1 s2
  have lines : State.Keeps π s s1 := s.keeps_foldl _ fun s l => s.bringLine_keeps hland part img moving l
  have poison : State.Keeps π s1 s2 := (s1.sameWork_foldl _ fun s k => s.setPoison_sameWork _).keeps
  refine (lines.trans poison).trans (State.SameWork.keeps ?_)
  exact s2.sameWork_foldl img.writers fun s w => ⟨rfl, rfl, rfl, rfl, rfl, rfl, rfl⟩

end landing

theorem State.bringBlocks_keeps (hret : ∀ (p : Partition) (r : List SavedBlock), π { p with returning := r } = π p) (part : Nat)
    (bs : List SavedBlock) : State.Keeps π s (s.bringBlocks part bs) :=
  s.keeps_foldl bs fun s _ => (s.holdAgain_sameWork _ _).keeps.trans (State.keeps_setPart fun _ => hret _ _)

end keeps

theorem NMap.not_mem_of_get?_none {α : Type} {m : NMap α} {k : Nat} (h : m.get? k = none) (v : α) : (k, v) ∉ m := by
  induction m with
  | nil => exact List.not_mem_nil
  | cons e r ih =>
    rw [NMap.get?_cons] at h
    split at h
    · cases h
    · next he => exact fun hm => (List.mem_cons.1 hm).elim (fun heq => he (heq ▸ rfl)) (ih h)

/-! ### Blocks that leave -/

/-- Blocks have left: the cycle, the partitions and the cellars are the same, and no block of these names stands any more. -/
structure State.Sheds (ks : List Nat) (s t : State) : Prop where
  cycle   : t.cycle = s.cycle
  parts   : t.parts = s.parts
  cellars : t.cellars = s.cellars
  blocks  : ∀ x ∈ t.blocks, x ∈ s.blocks ∧ x.1 ∉ ks

section sheds
variable {s t u : State} {ks ls : List Nat}

theorem State.Sheds.refl (s : State) : State.Sheds [] s s := ⟨rfl, rfl, rfl, fun _ hx => ⟨hx, List.not_mem_nil⟩⟩

theorem State.Sheds.trans (h : State.Sheds ks s t) (h' : State.Sheds ls t u) : State.Sheds (ks ++ ls) s u where
  cycle := h'.cycle.trans h.cycle
  parts := h'.parts.trans h.parts
  cellars := h'.cellars.trans h.cellars
  blocks x hx := by
    obtain ⟨hx, hl⟩ := h'.blocks x hx
    obtain ⟨hx, hk⟩ := h.blocks x hx
    exact ⟨hx, fun h => (List.mem_append.1 h).elim hk hl⟩

theorem State.sheds_foldl {α : Type} {f : State → α → State} {g : α → List Nat} (h : ∀ s a, State.Sheds (g a) s (f s a))
    (l : List α) (s : State) :
    State.Sheds (l.flatMap g) s (l.foldl f s) := by
  induction l generalizing s with
  | nil => exact .refl s
  | cons a l ih => exact (h s a).trans (ih (f s a))

theorem State.Sheds.gone (h : State.Sheds ks s t) {k : Nat} (hk : k ∈ ks) : t.blocks.get? k = none := by
  cases hb : t.blocks.get? k with
  | none => rfl
  | some b => exact absurd hk (h.blocks (k, b) (NMap.mem_of_get? hb)).2

theorem State.Sheds.absent (h : State.Sheds ks s t) {k : Nat} (hk : s.blocks.get? k = none) : t.blocks.get? k = none := by
  cases hb : t.blocks.get? k with
  | none => rfl
  | some b =>
    obtain ⟨mem, -⟩ := h.blocks (k, b) (NMap.mem_of_get? hb)
    exact absurd mem (NMap.not_mem_of_get?_none hk b)

theorem State.removeBlock_sheds (s : State) (bid : Nat) (b : Block) : State.Sheds [bid] s (s.removeBlock bid b) := by
  have dropped : s.SameWork ((b.copies.flatMap fun c => c.2.lines).foldl (fun s l => s.dropLine l.2) (s.dropBanks bid b.core)) :=
    (s.dropBanks_sameWork bid b.core).trans (State.sameWork_foldl _ _ fun s l => s.dropLine_sameWork _)
  refine ⟨dropped.cycle, dropped.parts, dropped.cellars, fun x hx => ?_⟩
  obtain ⟨mem, key⟩ := List.mem_filter.1 hx
  rw [dropped.blocks] at mem
  exact ⟨mem, fun h => by simp [List.mem_singleton.1 h] at key⟩

theorem State.flushBlock_sheds (s : State) (bid : Nat) (b : Block) : State.Sheds [bid] s (s.flushBlock bid b) :=
  let h := s.removeBlock_sheds bid b
  ⟨h.cycle, h.parts, h.cellars, h.blocks⟩

/-- Every block of the context leaves. -/
theorem State.removeBlocks_sheds (s : State) (part : Nat) :
    State.Sheds ((s.partBlocks part).map (·.1)) s ((s.partBlocks part).foldl (fun s b => s.removeBlock b.1 b.2) s) := by
  rw [← List.flatMap_singleton' ((s.partBlocks part).map (·.1)), List.flatMap_map]
  exact State.sheds_foldl (fun s b => s.removeBlock_sheds b.1 b.2) _ s

/-- An evacuated context has no block and no launch (R468). -/
theorem State.evacuate_gone (s : State) (part : Nat) :
    (∀ x ∈ (s.evacuate part).blocks, x.2.launch / 2 ^ 54 ≠ part) ∧ ∀ x ∈ (s.evacuate part).launches, x.1 / 2 ^ 54 ≠ part := by
  constructor
  · intro x hx hpart
    obtain ⟨mem, key⟩ := (s.removeBlocks_sheds part).blocks x hx
    have here : (partOfLaunch x.2.launch == part) = true := beq_iff_eq.2 hpart
    exact key (List.mem_map_of_mem (List.mem_filter.2 ⟨mem, here⟩))
  · intro x hx
    obtain ⟨-, here⟩ := List.mem_filter.1 hx
    exact bne_iff_ne.1 here

theorem State.evacuate_cellars (s : State) (part : Nat) : (s.evacuate part).cellars = s.cellars := (s.removeBlocks_sheds part).cellars

theorem State.evacuate_keeps {α : Type} {π : Partition → α}
    (h : ∀ (p : Partition), π { p with returning := [], landing := [], logReserved := 0, sysQueue := [] } = π p) (s : State) (part : Nat) :
    State.Keeps π s (s.evacuate part) :=
  State.Keeps.trans (fun k => by rw [(s.removeBlocks_sheds part).parts]) (State.keeps_setPart h)

end sheds

/-! ### The launches of a terminated context -/

section terminate
variable (s : State) (lid : Nat) (l : Launch) (status : Nat)

theorem State.setQueue_keepsCtx (part q : Nat) (f : Queue → Queue) : State.Keeps (·.ctx) s (s.setQueue part q f) :=
  State.keeps_setPart fun _ => rfl

theorem advanceDone_keepsCtx (part q n : Nat) (s : State) : State.Keeps (·.ctx) s (advanceDone part q n s) := by
  induction n generalizing s with
  | zero => exact .refl s
  | succ n ih =>
    unfold advanceDone
    split
    · exact .refl s
    · dsimp only
      split
      · exact (s.setQueue_keepsCtx part q _).trans (ih _)
      · exact .refl s

theorem State.completionStamp_keepsCtx : State.Keeps (·.ctx) s (s.completionStamp lid l status) := by
  unfold State.completionStamp
  extract_lets part
  split
  · exact .refl s
  · split
    · split
      · exact State.Keeps.trans (t := s.faultMet (.stamp lid)) (fun _ => rfl) (State.setQueue_keepsCtx _ _ _ _)
      · extract_lets s1
        have logged : State.Keeps (·.ctx) s s1 :=
          State.Keeps.trans (t := s.publish .command l.stampMask) (fun _ => rfl)
            (State.keeps_foldl _ _ fun s p => s.logLine_keeps (fun _ _ => rfl) part l.cls p)
        exact logged.trans (s1.writeOrSend_sameWork ..).keeps
    · exact s.setQueue_keepsCtx _ _ _

theorem State.completePacket_keepsCtx : State.Keeps (·.ctx) s (s.completePacket lid l status) := by
  unfold State.completePacket
  extract_lets s1 s2 s3 head
  have dropped : State.Keeps (·.ctx) s s1 := (s.completionStamp_keepsCtx lid l status).trans (State.keeps_setPart fun _ => rfl)
  have finished : State.Keeps (·.ctx) s2 s3 := by
    unfold s3
    split
    · exact State.setCk_keeps (π := (·.ctx)) s2 (fun _ _ => rfl) _ _
    · exact .refl s2
  exact (dropped.trans (State.Keeps.trans (t := s2) (fun _ => rfl) finished)).trans (advanceDone_keepsCtx _ _ _ _)

theorem State.closeRecord_keepsCtx (d : List Byte) (rerr rpois : Bool) : State.Keeps (·.ctx) s (s.closeRecord lid l status d rerr rpois) := by
  unfold State.closeRecord
  extract_lets part put
  split
  · extract_lets a s1 s2 s3
    have written (s : State) (a : Nat) (bs : List Byte) : s.SameWork (put s a bs) := by
      unfold put
      split
      · exact s.writePlain_sameWork ‹_›
      · exact .refl s
    exact (((written ..).trans (written ..)).trans (written ..)).keeps.trans (State.keeps_setPart fun _ => rfl)
  · exact .refl s

theorem State.completeLaunch_keepsCtx : State.Keeps (·.ctx) s (s.completeLaunch lid l status) :=
  (s.closeRecord_keepsCtx lid l status _ _ _).trans (State.completePacket_keepsCtx _ lid l status)

theorem State.endLaunches_keepsCtx (part : Nat) : State.Keeps (·.ctx) s (s.endLaunches part) :=
  s.keeps_foldl _ fun s l => by
    split
    · exact s.completePacket_keepsCtx _ _ _
    · exact s.completeLaunch_keepsCtx _ _ _

end terminate

/-! ### What a write of CTX_CMD reaches (R463) -/

/-- No operation stands on a partition, no close, no rollback. -/
def Partition.Idle (pt : Partition) : Prop := pt.ctx.work = none ∧ pt.ck.closing = false ∧ pt.ck.due = false

section command
variable {s : State} {part : Nat} {pt : Partition} (hp : s.parts.get? part = some pt) {states : List Nat} {f : Partition → State}
include hp

theorem State.onContext_refused (h : ¬pt.Idle ∨ pt.ctx.state ∉ states) : s.onContext part states f = .next s := by
  have refused : (pt.ctx.work.isSome || pt.ck.closing || pt.ck.due || !states.contains pt.ctx.state) = true := by
    rcases h with h | h
    · cases hw : pt.ctx.work <;> cases hc : pt.ck.closing <;> cases hd : pt.ck.due <;> simp_all [Partition.Idle]
    · simp [h]
  unfold State.onContext
  rw [hp]
  exact if_pos refused

theorem State.onContext_accepted (h : pt.Idle) (hs : pt.ctx.state ∈ states) : s.onContext part states f = .next (f pt) := by
  obtain ⟨hw, hc, hd⟩ := h
  simp [State.onContext, hp, hw, hc, hd, hs]

theorem exec_ctx_busy (v : Word) (h : ¬pt.Idle) :
    ∀ i ∈ [Instr.ctxPark part v, .ctxSave part v, .ctxSwitch part v, .ctxTerminate part v, .ctxRestore part v, .ctxCreate part v],
      exec i s = .next s := by
  simp only [List.forall_mem_cons, List.not_mem_nil]
  exact ⟨State.onContext_refused hp (.inl h), State.onContext_refused hp (.inl h), State.onContext_refused hp (.inl h),
    State.onContext_refused hp (.inl h), State.onContext_refused hp (.inl h), State.onContext_refused hp (.inl h), fun _ h => h.elim⟩

theorem exec_stop_refused (v : Word) (h : pt.ctx.state ≠ 1) :
    ∀ i ∈ [Instr.ctxPark part v, .ctxSave part v, .ctxSwitch part v, .ctxTerminate part v], exec i s = .next s := by
  have other : pt.ctx.state ∉ [1] := by simpa using h
  simp only [List.forall_mem_cons, List.not_mem_nil]
  exact ⟨State.onContext_refused hp (.inr other), State.onContext_refused hp (.inr other), State.onContext_refused hp (.inr other),
    State.onContext_refused hp (.inr other), fun _ h => h.elim⟩

/-- Each of the four stops begins the same way. -/
theorem exec_stop (v : Word) (h : pt.Idle) (hs : pt.ctx.state = 1) :
    ∀ x ∈ [(Instr.ctxPark part v, CtxOp.park), (.ctxSave part v, .save), (.ctxSwitch part v, .switch), (.ctxTerminate part v, .terminate)],
      exec x.1 s = .next (s.beginStop part pt x.2 (forceBit v)) := by
  have running : pt.ctx.state ∈ [1] := by simp [hs]
  simp only [List.forall_mem_cons, List.not_mem_nil]
  exact ⟨State.onContext_accepted hp h running, State.onContext_accepted hp h running, State.onContext_accepted hp h running,
    State.onContext_accepted hp h running, fun _ h => h.elim⟩

end command

/-! ### How a stop begins (R463 to R466) -/

section waits
variable (s : State) (part : Nat) (f : Await → Bool) (chosen : Nat → Bool)

/-- A warp whose paths have given up the waits of a kind. -/
def Warp.leaves (w : Warp) (f : Await → Bool) : Warp := { w with paths := w.paths.map (·.leave f) }

theorem State.leaveWaits_get? (wid : Nat) : (s.leaveWaits part f chosen).warps.get? wid =
    (s.warps.get? wid).map fun w => if (s.partOf w.block == part && chosen w.block) = true then w.leaves f else w :=
  NMap.get?_map s.warps (fun _ w => if (s.partOf w.block == part && chosen w.block) = true then w.leaves f else w) wid

theorem State.leaveWaits_keeps {α : Type} {π : Partition → α} (h : ∀ (p : Partition) (n : Nat), π { p with logReserved := n } = π p) :
    State.Keeps π s (s.leaveWaits part f chosen) :=
  fun k => State.keeps_setPart (s := { s with warps := (s.leaveWaits part f chosen).warps }) (fun _ => h _ _) k

theorem Warp.leaves_path {w : Warp} {i : Nat} (hi : i < w.paths.length) {x : Await} (hx : (w.path i).await.map (·.what) = some x)
    (hf : f x = true) : (w.leaves f).path i = { w.path i with await := none } := by
  obtain ⟨a, ha, rfl⟩ := Option.map_eq_some_iff.1 hx
  have at' : (w.leaves f).path i = (w.path i).leave f := by simp [Warp.leaves, Warp.path, nth, hi]
  rw [at']
  exact if_pos (by rw [ha]; exact hf)

end waits

section stop
variable (s : State) (part : Nat)

/-- The plan names each block of the context. -/
theorem State.stopPlan_keys (whole : Bool) :
    (s.stopPlan part whole).map (·.1) = (s.blocks.filter fun b => b.2.launch / 2 ^ 54 == part).map (·.1) := by
  unfold State.stopPlan
  rw [List.map_map]
  rfl

theorem State.blockAction_whole (bid : Nat) (b : Block) : s.blockAction part true bid b = .save := by
  unfold State.blockAction
  cases s.launches.get? b.launch <;> rfl

/-- A stop that may not wait saves every block (R465). -/
theorem State.stopPlan_save : ∀ a ∈ s.stopPlan part true, a.2 = .save := by
  intro a ha
  obtain ⟨b, hb, rfl⟩ := List.mem_map.1 ha
  have own : b.2.sameCluster b.2 = true := by simp [Block.sameCluster]
  have saved : ((((s.partBlocks part).map fun b => (b, s.blockAction part true b.1 b.2)).filter fun a => a.1.2.sameCluster b.2).map
      (·.2)).contains .save = true :=
    List.contains_iff_mem.2 (List.mem_map.2 ⟨(b, .save), List.mem_filter.2
      ⟨List.mem_map.2 ⟨b, hb, by rw [s.blockAction_whole]⟩, own⟩, rfl⟩)
  exact if_pos saved

variable {s part} {pt : Partition} (hp : s.parts.get? part = some pt) (op : CtxOp) (force : Bool)

include hp in
theorem State.beginStop_ctx : ∃ p, (s.beginStop part pt op force).parts.get? part = some p
    ∧ p.ctx = { pt.ctx with state := 2, work := some ⟨op, s.cycle, pt.ctx.area, s.stopPlan part (force || op == .terminate), none⟩ } :=
  (State.leaveWaits_keeps (π := (·.ctx)) _ _ _ _ fun _ _ => rfl).exists (s.setPart_get?_same hp _)

/-- A load under way is given up in a block that does not drain (R464). -/
theorem State.beginStop_load {wid i : Nat} {w : Warp} {r : LoadReq} (hw : s.warps.get? wid = some w) (hpart : s.partOf w.block = part)
    (hplan : (s.stopPlan part (force || op == .terminate)).get? w.block ≠ some .drain) (hi : i < w.paths.length)
    (hr : (w.path i).await.map (·.what) = some (.load r)) :
    ∃ u, (s.beginStop part pt op force).warps.get? wid = some u ∧ u.path i = { w.path i with await := none } := by
  have given := State.leaveWaits_get? (s.setCtx part fun c =>
      { c with state := 2, work := some ⟨op, s.cycle, pt.ctx.area, s.stopPlan part (force || op == .terminate), none⟩ }) part Await.discarded
    (fun bid => (s.stopPlan part (force || op == .terminate)).get? bid != some .drain) wid
  refine ⟨w.leaves Await.discarded, given.trans ?_, Warp.leaves_path Await.discarded hi hr rfl⟩
  have chosen : (s.partOf w.block == part && (s.stopPlan part (force || op == .terminate)).get? w.block != some .drain) = true :=
    Bool.and_eq_true_iff.2 ⟨beq_iff_eq.2 hpart, bne_iff_ne.2 hplan⟩
  exact (congrArg (Option.map _) hw).trans (congrArg some (if_pos chosen))

end stop

/-! ### What a stop does with a block (R465) -/

section action
variable {s : State} {part bid : Nat} {b : Block} {l : Launch} {far : Option Nat}

/-- Whether a stop finds a block in a handler, halted, or with its stream stopped. -/
def State.heldBlock (s : State) (bid : Nat) (b : Block) : Bool :=
  b.mx.stopped.isSome || (s.liveWarps bid).any fun w => w.2.inHandler || w.2.halted

theorem State.heldBlock_iff : s.heldBlock bid b = true ↔
    (b.mx.stopped.isSome = true ∨ ∃ w ∈ s.warps, w.2.block = bid ∧ (w.2.inHandler = true ∨ w.2.halted = true)) := by
  simp [State.heldBlock, State.liveWarps, List.any_filter, List.any_eq_true]

/-- Whether a block may be run again from its start and has not come far. -/
def Launch.flushes (l : Launch) (far : Option Nat) (b : Block) : Bool :=
  l.idem && !b.wroteOut && !b.logged && far.elim (decide (b.retired < 65536)) fun n => decide (2 * b.retired < n)

theorem Launch.flushes_iff : l.flushes far b = true ↔ (l.idem = true ∧ b.wroteOut = false ∧ b.logged = false
    ∧ (∀ n, far = some n → 2 * b.retired < n) ∧ (far = none → b.retired < 65536)) := by
  cases far <;> simp [Launch.flushes, and_assoc]

/-- The rows of the table in their order. -/
theorem State.blockAction_eq (hl : s.launches.get? b.launch = some l) (hfar : (s.expectedLength part l).filter (· != 0) = far) :
    s.blockAction part false bid b = if s.heldBlock bid b then .save else if l.flushes far b then .flush
      else far.elim .save fun n => if 9 * n ≤ 10 * b.retired then .drain else .save := by
  unfold State.blockAction
  simp only [hl, hfar, Bool.false_or]
  cases far <;> rfl

end action

/-! ### Restoring a context (R468, R470 to R472) -/

section restore
variable {s : State} {part : Nat} {pt : Partition}

/-- No context runs: only its registers change. -/
theorem State.contextAt_get? (hp : s.parts.get? part = some pt) (state : Nat) :
    (s.contextAt part state).parts.get? part = some { pt with ctx := { pt.ctx with state := state, work := none } } :=
  s.setPart_get?_same hp _

theorem State.bringBlocks_same (s : State) (part : Nat) (bs : List SavedBlock) :
    (s.bringBlocks part bs).launches = s.launches ∧ (s.bringBlocks part bs).cellars = s.cellars :=
  List.foldlRecOn (motive := fun t : State => t.launches = s.launches ∧ t.cellars = s.cellars) bs _ ⟨rfl, rfl⟩ fun t ⟨hl, hc⟩ _ _ =>
    ⟨(t.holdAgain_sameWork ..).launches.trans hl, (t.holdAgain_sameWork ..).cellars.trans hc⟩

theorem State.bringLine_same (s : State) (part : Nat) (img : CtxImage) (moving : Bool) (line : Nat) :
    (s.bringLine part img moving line).launches = s.launches ∧ (s.bringLine part img moving line).cellars = s.cellars := by
  unfold State.bringLine
  extract_lets bs key
  split
  · exact ⟨(s.holdLine_sameWork (key / 128)).launches, (s.holdLine_sameWork (key / 128)).cellars⟩
  · exact ⟨rfl, rfl⟩

theorem State.bringSlices_same (s : State) (part : Nat) (img : CtxImage) (moving : Bool) :
    (s.bringSlices part img moving).launches = s.launches ∧ (s.bringSlices part img moving).cellars = s.cellars := by
  unfold State.bringSlices
  extract_lets s1 s2
  have lines : s1.launches = s.launches ∧ s1.cellars = s.cellars :=
    List.foldlRecOn (motive := fun t : State => t.launches = s.launches ∧ t.cellars = s.cellars) img.lineNumbers _ ⟨rfl, rfl⟩
      fun t ⟨hl, hc⟩ line _ => ⟨(t.bringLine_same part img moving line).1.trans hl, (t.bringLine_same part img moving line).2.trans hc⟩
  have poison : s1.SameWork s2 := s1.sameWork_foldl _ fun s k => s.setPoison_sameWork _
  have writers : s2.SameWork (img.writers.foldl
      (fun s w => { s with lineWriters := s.lineWriters.put (s.physicalKey part (128 * w.1) / 128) w.2 }) s2) :=
    s2.sameWork_foldl img.writers fun s w => ⟨rfl, rfl, rfl, rfl, rfl, rfl, rfl⟩
  exact ⟨writers.launches.trans (poison.launches.trans lines.1), writers.cellars.trans (poison.cellars.trans lines.2)⟩

/-- What a restored context's lines and blocks leave of its partition's registers. -/
def Partition.registers (p : Partition) : CtxRegs × BitVec 32 × Nat × NMap Queue := (p.ctx, p.groups, p.tframe, p.queues)

theorem State.restoreImage_keeps (hp : s.parts.get? part = some pt) (img : CtxImage) (area : Nat) (moving : Bool) :
    State.Keeps Partition.registers ((s.showAll.clearSlices pt.cores).setPart part fun p => restoredPart p img area)
      (s.restoreImage part img area moving) := by
  unfold State.restoreImage
  split
  · next hnone => cases hp.symm.trans hnone
  · next now hnow =>
    cases hp.symm.trans hnow
    extract_lets cores s1 s2 s3 s4 s5
    exact ((s2.setCk_keeps (fun _ _ => rfl) part _).trans (s3.bringSlices_keeps (fun _ _ => rfl) part img moving)).trans
      (State.Keeps.trans (t := s5) (fun _ => rfl) (s5.bringBlocks_keeps (fun _ _ => rfl) part img.blocks))

/-- What a context brings to its partition's registers, and which of the partition's stay (R472). -/
theorem State.restoreImage_part (hp : s.parts.get? part = some pt) (img : CtxImage) (area : Nat) (moving : Bool) :
    ∃ p, (s.restoreImage part img area moving).parts.get? part = some p ∧ p.ctx = { pt.ctx with state := 1, running := area, work := none }
      ∧ p.groups = pt.groups ∧ p.tframe = img.part.tframe ∧ p.queues = img.part.queues := by
  have cleared : (s.showAll.clearSlices pt.cores).parts.get? part = some pt := by
    rw [(s.showAll_sameWork.trans (s.showAll.clearSlices_sameWork pt.cores)).parts, hp]
  obtain ⟨p, hp', same⟩ := (State.restoreImage_keeps hp img area moving).exists (State.setPart_get?_same cleared _)
  simp only [Partition.registers, Prod.mk.injEq] at same
  exact ⟨p, hp', same⟩

theorem State.restoreImage_cellars (s : State) (part : Nat) (img : CtxImage) (area : Nat) (moving : Bool) :
    (s.restoreImage part img area moving).cellars = s.cellars := by
  unfold State.restoreImage
  split
  · rfl
  · extract_lets cores s1 s2 s3 s4 s5
    have cleared : s1.cellars = s.cellars := (s.showAll_sameWork.trans (s.showAll.clearSlices_sameWork cores)).cellars
    exact (s5.bringBlocks_same part img.blocks).2.trans ((s3.bringSlices_same part img moving).2.trans cleared)

/-- A launch of a context keeps its queue and its number in another partition. -/
theorem moveLaunch_eq (part lid : Nat) : moveLaunch part lid = part * 2 ^ 54 + lid % 2 ^ 54 := by
  unfold moveLaunch launchId queueOfLaunch seqOfLaunch
  omega

theorem State.restoreImage_launch (hp : s.parts.get? part = some pt) {img : CtxImage} {lid : Nat} {l : Launch} (himg : img.launches = [(lid, l)])
    (area : Nat) (moving : Bool) : (s.restoreImage part img area moving).launches.get? (part * 2 ^ 54 + lid % 2 ^ 54) = some l := by
  unfold State.restoreImage
  rw [hp]
  dsimp only
  rw [(State.bringBlocks_same _ part img.blocks).1, ← moveLaunch_eq, himg]
  exact NMap.get?_put_same _ _ _

section instruction
variable (hp : s.parts.get? part = some pt) (v : Word) (h : pt.Idle) (hs : pt.ctx.state ∈ [0, 3, 4, 6])
include hp h hs

theorem exec_ctxRestore : exec (.ctxRestore part v) s = .next (
    if pt.ctx.area = pt.cellarArea ∧ (s.cellars.get? part).isSome = true then
      s.setCtx part fun c => { c with state := 5, work := some ⟨.restore, s.cycle, pt.ctx.area, [], some s.cycle⟩ }
    else s.enterImage part pt.ctx.area) :=
  State.onContext_accepted hp h hs

end instruction

theorem State.enterImage_none {area : Nat} (himg : s.loadImage part area = none) : s.enterImage part area = s.contextAt part 6 := by
  simp [State.enterImage, himg]

theorem State.enterImage_some (hp : s.parts.get? part = some pt) {area : Nat} {img : CtxImage} (himg : s.loadImage part area = some img)
    (hlen : img.part.slices.length ≤ 2048) (hcores : pt.cores.length ≤ 2048) : s.enterImage part area = s.restoreImage part img area true := by
  have few : ¬2048 < max img.part.slices.length pt.cores.length := by omega
  simp only [State.enterImage, himg, hp, Option.elim_some, if_neg few]

end restore

/-! ### Creating a context (R79, R469) -/

section create
variable {s : State} {part : Nat} {pt : Partition} (hp : s.parts.get? part = some pt)

theorem NMap.get?_zipIdx {α β : Type} (f : α → β) (l : List α) (n i : Nat) :
    NMap.get? ((l.zipIdx n).map fun c => (c.2, f c.1)) (n + i) = l[i]?.map f := by
  induction l generalizing n i with
  | nil => rfl
  | cons a l ih =>
    rw [List.zipIdx_cons, List.map_cons, NMap.get?_cons]
    cases i with
    | zero => simp
    | succ i =>
      rw [if_neg (by omega), show n + (i + 1) = n + 1 + i by omega, ih]
      rfl

theorem createdSlices_get? {cores : List Nat} {i core : Nat} (h : cores[i]? = some core) :
    NMap.get? (createdSlices cores) i = some (.physical core) := by
  have at' := NMap.get?_zipIdx Slice.physical cores 0 i
  rwa [h, Nat.zero_add] at at'

section instruction
variable (v : Word) (h : pt.Idle) (hs : pt.ctx.state ∈ [0, 4, 6])
include hp h hs

theorem exec_ctxCreate_none (h2 : s.flash.values 2 part = none) : exec (.ctxCreate part v) s = .next (s.contextAt part 6) := by
  refine (State.onContext_accepted hp h hs).trans ?_
  rw [h2]

theorem exec_ctxCreate {v2 v3 : List Nat} (h2 : s.flash.values 2 part = some v2) (h3 : s.flash.values 3 part = some v3)
    (hl2 : 4 ≤ v2.length) (hl3 : 15 ≤ v3.length) : exec (.ctxCreate part v) s = .next (s.createContext part pt v2 v3) := by
  refine (State.onContext_accepted hp h hs).trans ?_
  rw [h2, h3]
  exact congrArg _ (if_neg (by simp [hl2, hl3]))

end instruction

/-- The checkpoint image taken at once changes nothing else of a new context (R469). -/
theorem State.createContext_same (s : State) (part : Nat) (pt : Partition) (v2 v3 : List Nat) :
    (s.createContext part pt v2 v3).mem = (s.showAll.clearSlices pt.cores).mem ∧ (s.createContext part pt v2 v3).parts =
      (((s.showAll.clearSlices pt.cores).setPart part fun p => createdPart p (s.contexts + 1) v2 v3).setCk part fun c =>
        { c with closedAt := (s.showAll.clearSlices pt.cores).cycle }).parts := by
  unfold State.createContext
  extract_lets owner s1 s2 s3 s4
  split <;> exact ⟨rfl, rfl⟩

/-- The partition of a new context. -/
theorem State.createContext_part (hp : s.parts.get? part = some pt) (v2 v3 : List Nat) :
    (s.createContext part pt v2 v3).parts.get? part = some { createdPart pt (s.contexts + 1) v2 v3 with
      ck := { (createdPart pt (s.contexts + 1) v2 v3).ck with closedAt := s.cycle } } := by
  have cleared := s.showAll_sameWork.trans (s.showAll.clearSlices_sameWork pt.cores)
  rw [(s.createContext_same part pt v2 v3).2, cleared.cycle]
  exact State.setPart_get?_same (State.setPart_get?_same (by rw [cleared.parts, hp]) _) _

/-- The SRAM of the partition's cores is zero (R79). -/
theorem State.createContext_byte (s : State) (part : Nat) (pt : Partition) (v2 v3 : List Nat) (k : Nat) :
    (s.createContext part pt v2 v3).mem.byte k =
      if isSram k = true ∧ (k - 2 ^ 60) / 2 ^ 21 ∈ pt.cores then 0 else s.mem.byte k := by
  have cleared : (s.showAll.clearSlices pt.cores).mem.byte k =
      if (!(isSram k && pt.cores.contains ((k - 2 ^ 60) / 2 ^ 21))) = true then s.showAll.mem.byte k else 0 :=
    Memory.byte_filter s.showAll.mem (fun k => !(isSram k && pt.cores.contains ((k - 2 ^ 60) / 2 ^ 21))) k
  rw [(s.createContext_same part pt v2 v3).1, cleared, State.showAll_mem]
  by_cases hk : isSram k = true ∧ (k - 2 ^ 60) / 2 ^ 21 ∈ pt.cores
  · have on : (isSram k && pt.cores.contains ((k - 2 ^ 60) / 2 ^ 21)) = true :=
      Bool.and_eq_true_iff.2 ⟨hk.1, List.contains_iff_mem.2 hk.2⟩
    rw [if_pos hk, on]
    rfl
  · have off : (isSram k && pt.cores.contains ((k - 2 ^ 60) / 2 ^ 21)) = false := by
      refine Bool.eq_false_iff.2 fun h => hk ?_
      obtain ⟨sram, core⟩ := Bool.and_eq_true_iff.1 h
      exact ⟨sram, List.contains_iff_mem.1 core⟩
    rw [if_neg hk, off]
    rfl

end create

/-! ### The end of a stop (R463 to R468) -/

section after
variable {s : State} {part : Nat} {pt : Partition} {w : CtxWork}

section drain
variable (hp : s.parts.get? part = some pt) (hw : pt.ctx.work = some w)
include hp hw

theorem exec_drainTimeout_early (h : s.cycle < w.since + 512 ∨ ∀ a ∈ w.plan, a.2 ≠ .drain) : exec (.drainTimeout part) s = .next s := by
  have early : (decide (s.cycle < w.since + 512) || !(w.plan.any fun a => a.2 == .drain)) = true := by
    rcases h with h | h
    · rw [decide_eq_true h, Bool.true_or]
    · rw [List.any_eq_false.2 fun a ha => by simpa using h a ha, Bool.not_false, Bool.or_true]
  change execDrainTimeout part s = _
  simp only [execDrainTimeout, hp, Option.bind_some, hw]
  exact if_pos early

theorem exec_drainTimeout (h : w.since + 512 ≤ s.cycle) (hd : ∃ a ∈ w.plan, a.2 = .drain) : exec (.drainTimeout part) s = .next
    (State.discardWaits (s.setCtx part fun c =>
        { c with work := some { w with plan := w.plan.map fun a => if a.2 = .drain then (a.1, .save) else a } })
      part fun bid => (NMap.get? (w.plan.filter fun a => a.2 == .drain) bid).isSome) := by
  have late : ¬(decide (s.cycle < w.since + 512) || !(w.plan.any fun a => a.2 == .drain)) = true := by
    obtain ⟨a, ha, hd⟩ := hd
    have drains : (w.plan.any fun a => a.2 == .drain) = true := List.any_eq_true.2 ⟨a, ha, by simp [hd]⟩
    rw [decide_eq_false (Nat.not_lt.2 h), drains]
    exact Bool.false_ne_true
  change execDrainTimeout part s = _
  simp only [execDrainTimeout, hp, Option.bind_some, hw]
  exact if_neg late

theorem exec_contextStopComplete : exec (.contextStopComplete part) s = .next (
    if (decide (pt.ctx.state ≠ 2) || w.exchange.isSome || (w.plan.any fun a => a.2 == .drain && (s.blocks.get? a.1).isSome)
      || !s.quiet part) = true then s else s.afterStop part w) := by
  change execContextStopComplete part s = _
  simp only [execContextStopComplete, hp, hw]
  split <;> rfl

end drain

theorem stop_stays_iff : (decide (pt.ctx.state ≠ 2) || w.exchange.isSome || (w.plan.any fun a => a.2 == .drain && (s.blocks.get? a.1).isSome)
      || !s.quiet part) = true ↔
    ¬(pt.ctx.state = 2 ∧ w.exchange = none ∧ (∀ a ∈ w.plan, a.2 = .drain → s.blocks.get? a.1 = none) ∧ s.quiet part = true) := by
  rw [← Bool.not_eq_false, not_iff_not]
  simp [and_assoc]

/-- The blocks that a stop flushes. -/
def CtxWork.flushKeys (w : CtxWork) (b : Nat × Block) : List Nat := if w.plan.get? b.1 = some .flush then [b.1] else []

/-- The context stands still: every write is visible, the flushed blocks are gone, and the stop's time is known. -/
def State.halted (s : State) (part : Nat) (w : CtxWork) : State :=
  let s := s.showAll.settlePairs part
  let s := (s.partBlocks part).foldl (fun s b => if w.plan.get? b.1 = some .flush then s.flushBlock b.1 b.2 else s) s
  s.setCtx part fun c => { c with stopcyc := s.cycle - w.since }

theorem State.flushes_sheds (s : State) (part : Nat) (w : CtxWork) :
    State.Sheds ((s.partBlocks part).flatMap w.flushKeys) s
      ((s.partBlocks part).foldl (fun s b => if w.plan.get? b.1 = some .flush then s.flushBlock b.1 b.2 else s) s) :=
  State.sheds_foldl (fun s b => by
    unfold CtxWork.flushKeys
    split
    · exact s.flushBlock_sheds b.1 b.2
    · exact .refl s) _ s

section halted
variable (s part w)

theorem State.settled_sameWork : s.SameWork (s.showAll.settlePairs part) := s.showAll_sameWork.trans (s.showAll.settlePairs_sameWork part)

theorem State.halted_sheds : State.Sheds ((s.partBlocks part).flatMap w.flushKeys) (s.showAll.settlePairs part)
    ((((s.showAll.settlePairs part).partBlocks part).foldl
      (fun s b => if w.plan.get? b.1 = some .flush then s.flushBlock b.1 b.2 else s) (s.showAll.settlePairs part))) := by
  have same : (s.showAll.settlePairs part).partBlocks part = s.partBlocks part := by
    unfold State.partBlocks
    rw [(s.settled_sameWork part).blocks]
  rw [← same]
  exact State.flushes_sheds _ part w

theorem State.halted_cycle : (s.halted part w).cycle = s.cycle := (s.halted_sheds part w).cycle.trans (s.settled_sameWork part).cycle

theorem State.halted_mem : (s.halted part w).mem = s.mem := by
  unfold State.halted
  extract_lets s1 s2
  have flushed : s2.mem = s1.mem := State.foldl_mem fun t b => by
    split
    · exact t.flushBlock_mem b.1 b.2
    · rfl
  exact flushed.trans ((State.settlePairs_mem ..).trans (State.showAll_mem ..))

variable {s part} in
theorem State.halted_part (hp : s.parts.get? part = some pt) :
    (s.halted part w).parts.get? part = some { pt with ctx := { pt.ctx with stopcyc := s.cycle - w.since } } := by
  have stands := (s.halted_sheds part w).parts.trans (s.settled_sameWork part).parts
  rw [← s.halted_cycle part w]
  exact State.setPart_get?_same (by rw [stands, hp]) _

variable {s part w} in
/-- A block whose action is to flush is gone. -/
theorem State.halted_flushed {bid : Nat} (hflush : w.plan.get? bid = some .flush)
    (hb : ∀ b, s.blocks.get? bid = some b → b.launch / 2 ^ 54 = part) : (s.halted part w).blocks.get? bid = none := by
  cases h : s.blocks.get? bid with
  | none => exact (s.halted_sheds part w).absent (by rw [(s.settled_sameWork part).blocks, h])
  | some b =>
    have here : (partOfLaunch b.launch == part) = true := beq_iff_eq.2 (hb b h)
    exact (s.halted_sheds part w).gone (List.mem_flatMap.2 ⟨(bid, b), List.mem_filter.2 ⟨NMap.mem_of_get? h, here⟩, by
      simp [CtxWork.flushKeys, hflush]⟩)

end halted
/-! What follows a stop (R468, R470). -/

/-- The context's image is in its area (R468, R471). -/
def State.imaged (s : State) (part : Nat) : State :=
  (s.capture part).elim s fun img => s.storeImage part ((s.parts.get? part).elim 0 (·.ctx.running)) img

theorem State.imaged_sameWork (s : State) (part : Nat) : s.SameWork (s.imaged part) := by
  unfold State.imaged
  cases s.capture part with
  | none => exact .refl s
  | some img => exact s.storeImage_sameWork ..

theorem State.afterStop_save (hop : w.op = .save) :
    s.afterStop part w = ((((s.halted part w).landAll part).imaged part).evacuate part).contextAt part 4 := by
  unfold State.afterStop
  rw [hop]
  dsimp only
  unfold State.imaged State.halted
  split <;> simp only [*] <;> rfl

theorem State.afterStop_terminate (hop : w.op = .terminate) :
    s.afterStop part w = (((s.halted part w).endLaunches part).evacuate part).contextAt part 0 := by
  unfold State.afterStop
  rw [hop]
  rfl

theorem State.afterStop_exchange (hsave : w.op ≠ .save) (hend : w.op ≠ .terminate) :
    s.afterStop part w = (s.halted part w).setCtx part fun c => { c with work := some { w with exchange := some (s.halted part w).cycle } } := by
  unfold State.afterStop
  cases hop : w.op with
  | save => exact absurd hop hsave
  | terminate => exact absurd hop hend
  | _ => rfl

/-- A context that leaves has no block and no launch, whatever its registers then say. -/
theorem State.contextAt_gone (s : State) (part state : Nat) :
    (∀ x ∈ ((s.evacuate part).contextAt part state).blocks, x.2.launch / 2 ^ 54 ≠ part)
      ∧ ∀ x ∈ ((s.evacuate part).contextAt part state).launches, x.1 / 2 ^ 54 ≠ part :=
  s.evacuate_gone part

variable (hp : s.parts.get? part = some pt)
include hp

/-- The registers of a partition whose context is written to its area. -/
theorem State.afterStop_save_ctx (hop : w.op = .save) : ∃ p, (s.afterStop part w).parts.get? part = some p
    ∧ p.ctx = { pt.ctx with stopcyc := s.cycle - w.since, state := 4, work := none } := by
  have kept := (((s.halted part w).landAll_keeps (π := (·.ctx)) (fun _ _ => rfl) part).trans
    (State.imaged_sameWork _ part).keeps).trans (State.evacuate_keeps (fun _ => rfl) _ part)
  obtain ⟨p, hp', ctx⟩ := kept.exists (State.halted_part w hp)
  rw [State.afterStop_save hop]
  exact ⟨_, State.contextAt_get? hp' 4, by rw [show p.ctx = _ from ctx]⟩

theorem State.afterStop_terminate_ctx (hop : w.op = .terminate) : ∃ p, (s.afterStop part w).parts.get? part = some p
    ∧ p.ctx = { pt.ctx with stopcyc := s.cycle - w.since, state := 0, work := none } := by
  have kept := ((s.halted part w).endLaunches_keepsCtx part).trans (State.evacuate_keeps (fun _ => rfl) _ part)
  obtain ⟨p, hp', ctx⟩ := kept.exists (State.halted_part w hp)
  rw [State.afterStop_terminate hop]
  exact ⟨_, State.contextAt_get? hp' 0, by rw [show p.ctx = _ from ctx]⟩

end after

/-! ### The exchange (R470) -/

section exchange
variable {s : State} {part : Nat} {pt : Partition} {w : CtxWork}

theorem State.emptyCellar_parts (s : State) (part : Nat) : (s.emptyCellar part).parts = s.parts := by
  unfold State.emptyCellar
  split
  · exact (s.storeImage_sameWork ..).parts
  · rfl

theorem State.capture_some (hp : s.parts.get? part = some pt) : ∃ img, s.capture part = some img := by
  unfold State.capture
  rw [hp]
  exact ⟨_, rfl⟩

/-- The image of a context is in the cellar, its lines in the slice section of its area (R470). -/
def State.cellared (s : State) (part : Nat) (img : CtxImage) : State :=
  { s.storeSlices part ((s.parts.get? part).elim 0 (·.ctx.running)) img with cellars := s.cellars.put part img }

theorem State.cellared_parts (s : State) (part : Nat) (img : CtxImage) : (s.cellared part img).parts = s.parts := (s.storeSlices_sameWork ..).parts

theorem State.parkContext_eq {img : CtxImage} (himg : ((s.emptyCellar part).landAll part).capture part = some img) : s.parkContext part =
    ((((s.emptyCellar part).landAll part).cellared part img).evacuate part).setPart part fun p => { p with cellarArea := p.ctx.running } := by
  unfold State.parkContext
  dsimp only
  rw [himg]
  rfl

/-- The context is parked: it stands in the cellar, and none runs. -/
theorem State.parkContext_spec (hp : s.parts.get? part = some pt) : ∃ p, (s.parkContext part).parts.get? part = some p ∧ p.ctx = pt.ctx
    ∧ p.cellarArea = pt.ctx.running ∧ ((s.parkContext part).cellars.get? part).isSome = true
    ∧ (∀ x ∈ (s.parkContext part).blocks, x.2.launch / 2 ^ 54 ≠ part) ∧ ∀ x ∈ (s.parkContext part).launches, x.1 / 2 ^ 54 ≠ part := by
  have landed : State.Keeps (·.ctx) s ((s.emptyCellar part).landAll part) :=
    State.Keeps.trans (fun k => by rw [s.emptyCellar_parts]) ((s.emptyCellar part).landAll_keeps (fun _ _ => rfl) part)
  generalize hu : (s.emptyCellar part).landAll part = u at landed
  obtain ⟨p, hp1, ctx⟩ := landed.exists hp
  obtain ⟨img, himg⟩ := State.capture_some hp1
  obtain ⟨q, hq, ctx'⟩ := (State.evacuate_keeps (π := (·.ctx)) (fun _ => rfl) (u.cellared part img) part).exists
    ((u.cellared_parts part img).symm ▸ hp1)
  have cellar : (((u.cellared part img).evacuate part).cellars.get? part).isSome = true := by
    rw [State.evacuate_cellars]
    exact congrArg Option.isSome (NMap.get?_put_same _ _ _)
  rw [State.parkContext_eq (hu ▸ himg), hu]
  exact ⟨_, State.setPart_get?_same hq _, ctx'.trans ctx, congrArg CtxRegs.running (ctx'.trans ctx), cellar, State.evacuate_gone _ part⟩

variable (hp : s.parts.get? part = some pt) (hw : pt.ctx.work = some w)
include hp hw

theorem exec_exchangeComplete_none (h : w.exchange = none) : exec (.exchangeComplete part) s = .next s := by
  change execExchangeComplete part s = _
  simp only [execExchangeComplete, hp, hw, h]

section started
variable {t0 : Nat} (ht : w.exchange = some t0)
include ht

theorem exec_exchangeComplete_early (h : s.cycle < t0 + 1024) : exec (.exchangeComplete part) s = .next s := by
  change execExchangeComplete part s = _
  simp only [execExchangeComplete, hp, hw, ht, if_pos h]

variable (h : t0 + 1024 ≤ s.cycle)
include h

theorem exec_exchangeComplete_park (hop : w.op = .park) : exec (.exchangeComplete part) s = .next ((s.parkContext part).contextAt part 3) := by
  change execExchangeComplete part s = _
  simp only [execExchangeComplete, hp, hw, ht, if_neg (Nat.not_lt.2 h), hop]

theorem exec_exchangeComplete_restore_none (hop : w.op = .restore) (hc : s.cellars.get? part = none) :
    exec (.exchangeComplete part) s = .next (s.contextAt part 6) := by
  change execExchangeComplete part s = _
  simp only [execExchangeComplete, hp, hw, ht, if_neg (Nat.not_lt.2 h), hop, hc]

theorem exec_exchangeComplete_restore {img : CtxImage} (hop : w.op = .restore) (hc : s.cellars.get? part = some img) :
    exec (.exchangeComplete part) s = .next (s.unparkContext part w.target img) := by
  change execExchangeComplete part s = _
  simp only [execExchangeComplete, hp, hw, ht, if_neg (Nat.not_lt.2 h), hop, hc]

theorem exec_exchangeComplete_switch (hop : w.op = .switch) (hc : s.cellars.get? part = none) :
    exec (.exchangeComplete part) s = .next (((s.parkContext part).contextAt part 3).enterImage part w.target) := by
  change execExchangeComplete part s = _
  simp only [execExchangeComplete, hp, hw, ht, if_neg (Nat.not_lt.2 h), hop, hc]

end started
end exchange

/-! ### A line of a restored slice lands (R470) -/

section land
variable {s : State} {part slice line : Nat} {pt : Partition} (hp : s.parts.get? part = some pt)
include hp

theorem exec_sliceLineLand_none (h : pt.landing.get? (16384 * slice + line) = none) : exec (.sliceLineLand part slice line) s = .next s := by
  change execSliceLineLand part slice line s = _
  simp only [execSliceLineLand, hp, Option.bind_some, h]

omit hp in
/-- The bytes of a line are in memory, and the line has one holder less. -/
def State.landedLine (s : State) (key : Nat) (bs : List Byte) : State := (s.landBytes key bs).dropLine (key / 128)

omit hp in
/-- A line lands: nothing waits for it any more. -/
def State.landed (s : State) (part n key : Nat) (bs : List Byte) : State :=
  ((s.landedLine key bs).setPart part fun p => { p with landing := p.landing.del n }).wakeLines

theorem exec_sliceLineLand {bs : List Byte} (h : pt.landing.get? (16384 * slice + line) = some bs) : exec (.sliceLineLand part slice line) s =
    .next (s.landed part (16384 * slice + line) (s.physicalKey part (2 ^ 60 + 128 * (16384 * slice + line))) bs) := by
  change execSliceLineLand part slice line s = _
  have key : sramKey 0 (128 * (16384 * slice + line)) = 2 ^ 60 + 128 * (16384 * slice + line) := by simp [sramKey]
  simp only [execSliceLineLand, hp, Option.bind_some, h, key]
  rfl

end land

section landed
variable (s : State) (part n key : Nat) (bs : List Byte)

theorem State.landedLine_sameWork : s.SameWork (s.landedLine key bs) := (s.landBytes_sameWork key bs).trans (State.dropLine_sameWork _ _)

theorem State.landedLine_mem : (s.landedLine key bs).mem = s.mem.write key bs := (State.dropLine_mem _ _).trans (s.writePiece_mem _ bs)

/-- The last holder's line is present again (R333). -/
theorem State.landedLine_present (hsram : isSram (128 * (key / 128)) = true) (hlast : s.absent.getD (key / 128) 0 ≤ 1) :
    (s.landedLine key bs).absent.get? (key / 128) = none := by
  have absent : (s.landBytes key bs).absent = s.absent := by
    unfold State.landBytes
    rw [State.writePiece_eq]
  unfold State.landedLine State.dropLine
  dsimp only
  rw [if_pos hsram, absent, if_pos hlast]
  exact NMap.get?_del_same _ _

theorem State.wakeLines_absent (s : State) : s.wakeLines.absent = s.absent := rfl
theorem State.wakeLines_parts (s : State) : s.wakeLines.parts = s.parts := rfl

theorem State.landed_mem : (s.landed part n key bs).mem = s.mem.write key bs := by
  unfold State.landed
  rw [State.wakeLines_mem, State.setPart_mem, State.landedLine_mem]

theorem State.landed_part {pt : Partition} (hp : s.parts.get? part = some pt) :
    (s.landed part n key bs).parts.get? part = some { pt with landing := pt.landing.del n } := by
  have stands : (s.landedLine key bs).parts.get? part = some pt := by rw [(s.landedLine_sameWork key bs).parts, hp]
  unfold State.landed
  rw [State.wakeLines_parts]
  exact State.setPart_get?_same stands _

theorem State.landed_present (hsram : isSram (128 * (key / 128)) = true) (hlast : s.absent.getD (key / 128) 0 ≤ 1) :
    (s.landed part n key bs).absent.get? (key / 128) = none := by
  unfold State.landed
  rw [State.wakeLines_absent]
  exact s.landedLine_present key bs hsram hlast

/-- A path that a reason alone parks goes back to its instruction. -/
theorem Path.woken_live {p : Path} {r : ParkReason} (hs : p.state = .parked r) (ha : p.await = none) (hw : p.waits = none) (cycle : Nat) :
    (p.woken r cycle).state = .live := by
  simp [Path.woken, hs, ha, hw]

/-- A live path is not woken. -/
theorem Path.woken_of_live {p : Path} (hs : p.state = .live) (r : ParkReason) (cycle : Nat) : p.woken r cycle = p := by
  simp [Path.woken, hs]

/-- A path that waits for a line goes back to its instruction (R16). -/
theorem State.landed_wakes {wid i : Nat} {w : Warp} (hw : s.warps.get? wid = some w) (hi : i < w.paths.length)
    (hpark : (w.path i).state = .parked .presence) (hawait : (w.path i).await = none) (hwaits : (w.path i).waits = none)
    (hstop : w.stopped i = false) :
    ∃ v, (s.landed part n key bs).warps.get? wid = some v ∧ (v.path i).state = .live ∧ (v.path i).pc = (w.path i).pc := by
  have stands : ((s.landedLine key bs).setPart part fun p => { p with landing := p.landing.del n }).warps.get? wid = some w := by
    rw [State.setPart_warps, (s.landedLine_sameWork key bs).warps, hw]
  unfold State.landed State.wakeLines
  generalize (s.landedLine key bs).setPart part (fun p => { p with landing := p.landing.del n }) = u at stands
  refine ⟨(w.wokenFor .presence u.cycle).wokenFor .recall (u.wake .presence).cycle, ?_, ?_, ?_⟩
  · rw [State.wake_get?, State.wake_get?, stands]
    rfl
  · have live : ((w.wokenFor .presence u.cycle).path i).state = .live := by
      rw [Warp.wokenFor_path, if_pos ⟨hi, hstop⟩]
      exact Path.woken_live hpark hawait hwaits _
    rw [Warp.wokenFor_path]
    split
    · rw [Path.woken_of_live live, live]
    · exact live
  · rw [Warp.wokenFor_pc, Warp.wokenFor_pc]

end landed

/-! ### The save cost (R473) -/

theorem exec_savecostUpdate {s : State} {part : Nat} {pt : Partition} (hp : s.parts.get? part = some pt) : exec (.savecostUpdate part) s = .next (
    if (decide (pt.ctx.state ≠ 1) || decide (s.cycle < pt.ctx.costAt + 65536)) = true then s else s.setCtx part fun c =>
      { c with dirty := min (s.dirtyBytes part / 1024) (2 ^ 32 - 1)
               cycles := min (1624 + ceilDiv (s.dirtyBytes part) 512) (2 ^ 32 - 1)
               costAt := s.cycle }) := by
  change execSavecostUpdate part s = _
  simp only [execSavecostUpdate, hp]
  split <;> rfl

/-- Settles O52, from what each operation does to its partition, and what it leaves alone. -/
theorem contextOperations : Obligations.ContextOperations := by
  refine ⟨?command, ?work, ?land, ?cost⟩
  case command =>
    intro s part pt v hp
    refine ⟨exec_ctx_busy hp v, exec_stop_refused hp v, fun hidle hs x hx => ?stop, fun bid b l hl => ?action, fun hidle hs => ?restore,
      fun hidle hs v2 v3 => ?create⟩
    case stop =>
      obtain ⟨p, hp', ctx⟩ := State.beginStop_ctx hp x.2 (forceBit v)
      refine ⟨_, p, s.stopPlan part (forceBit v || x.2 == .terminate), exec_stop hp v hidle hs x hx, ?_, rfl, hp', ctx, s.stopPlan_keys part _,
        fun hall _ => ?_, fun wid w i r hw hpart hplan hi hr => State.beginStop_load x.2 (forceBit v) hw hpart hplan hi hr⟩
      · simp [State.beginStop, State.discardWaits]
      · have whole : (forceBit v || x.2 == .terminate) = true := by
          rcases hall with h | h
          · rw [show forceBit v = true from h, Bool.true_or]
          · rw [beq_iff_eq.2 h, Bool.or_true]
        rw [whole]
        exact s.stopPlan_save part
    case action =>
      dsimp only
      rw [← State.heldBlock_iff, ← Launch.flushes_iff]
      refine ⟨s.blockAction_whole part bid b, fun held => ?_, fun held flushes => ?_,
        fun n held flushes hn hfar => ?_, fun held flushes hfar => ?_⟩
      · rw [State.blockAction_eq hl rfl, if_pos held]
      · rw [State.blockAction_eq hl rfl, if_neg held, if_pos flushes]
      · rw [State.blockAction_eq hl hn, if_neg held, if_neg (hn ▸ flushes), Option.elim_some, if_pos hfar]
      · rw [State.blockAction_eq hl rfl, if_neg held, if_neg flushes]
        cases hn : (s.expectedLength part l).filter (· != 0) with
        | none => rfl
        | some n => exact if_neg (Nat.not_le.2 (hfar n hn))
    case restore =>
      refine ⟨fun harea hcellar => ⟨_, _, (exec_ctxRestore hp v hidle hs).trans (congrArg _ (if_pos ⟨harea, hcellar⟩)), rfl,
        State.setPart_get?_same hp _, rfl⟩, fun hno => ?_⟩
      have enters := (exec_ctxRestore hp v hidle hs).trans (congrArg _ (if_neg hno))
      refine ⟨fun himg => ⟨_, _, enters.trans (congrArg _ (State.enterImage_none himg)), rfl, State.contextAt_get? hp 6, rfl⟩,
        fun img himg hlen hcores => ?_⟩
      obtain ⟨p, hp', ctx, groups, tframe, queues⟩ := State.restoreImage_part hp img pt.ctx.area true
      exact ⟨_, p, enters.trans (congrArg _ (State.enterImage_some hp himg hlen hcores)), hp', by rw [ctx], by rw [ctx], groups, tframe, queues,
        fun lid l hl => State.restoreImage_launch hp hl _ _⟩
    case create =>
      refine ⟨fun h2 => ⟨_, _, exec_ctxCreate_none hp v hidle hs h2, rfl, State.contextAt_get? hp 6, rfl⟩, fun h2 h3 hl2 hl3 => ?_⟩
      exact ⟨_, _, exec_ctxCreate hp v hidle hs h2 h3 hl2 hl3, State.createContext_part hp v2 v3, rfl, rfl, rfl, rfl, rfl, rfl, rfl, rfl, rfl, rfl,
        rfl, rfl, rfl, rfl, rfl, rfl, rfl, rfl, fun i core hi => createdSlices_get? hi, s.createContext_byte part pt v2 v3⟩
  case work =>
    intro s part pt w hp hw
    refine ⟨exec_drainTimeout_early hp hw, fun h hd => ?drain, ⟨fun h => ?_, fun h => ?stop⟩, exec_exchangeComplete_none hp hw, fun t0 ht =>
      ⟨exec_exchangeComplete_early hp hw ht, fun h hop => ?park, fun h hop hc => ?empty, fun img h hop hc => ?unpark,
        exec_exchangeComplete_switch hp hw ht⟩⟩
    case drain =>
      obtain ⟨p, hp', ctx⟩ := (State.leaveWaits_keeps (π := (·.ctx)) _ part _ _ fun _ _ => rfl).exists (State.setPart_get?_same hp _)
      refine ⟨_, p, exec_drainTimeout hp hw h hd, ?_, hp', ctx⟩
      simp [State.discardWaits]
    · rw [exec_contextStopComplete hp hw, if_pos (stop_stays_iff.2 h)]
    case stop =>
      have ended := (exec_contextStopComplete hp hw).trans (congrArg _ (if_neg fun hstays => stop_stays_iff.1 hstays h))
      by_cases hsave : w.op = .save
      · obtain ⟨p, hp', ctx⟩ := State.afterStop_save_ctx (s := s) (w := w) hp hsave
        refine ⟨_, p, ended, hp', by rw [ctx], fun _ => ⟨by rw [ctx], by rw [ctx], ?_⟩, fun hend => ?_, fun hno => absurd hsave hno⟩
        · rw [State.afterStop_save hsave]
          exact State.contextAt_gone _ part 4
        · rw [hsave] at hend
          cases hend
      by_cases hend : w.op = .terminate
      · obtain ⟨p, hp', ctx⟩ := State.afterStop_terminate_ctx (s := s) (w := w) hp hend
        refine ⟨_, p, ended, hp', by rw [ctx], fun h => absurd h hsave, fun _ => ⟨by rw [ctx], by rw [ctx], ?_⟩, fun _ hno => absurd hend hno⟩
        rw [State.afterStop_terminate hend]
        exact State.contextAt_gone _ part 0
      · rw [State.afterStop_exchange hsave hend] at ended
        refine ⟨_, _, ended, State.setPart_get?_same (State.halted_part w hp) _, rfl, fun h => absurd h hsave, fun h => absurd h hend,
          fun _ _ => ⟨h.1, ?_, ?_, fun a _ _ hflush hb => State.halted_flushed hflush hb⟩⟩
        · rw [State.halted_cycle]
        · exact s.halted_mem part w
    case park =>
      obtain ⟨p, hp', ctx, cellarArea, cellar, blocks, launches⟩ := State.parkContext_spec hp
      exact ⟨_, _, exec_exchangeComplete_park hp hw ht h hop, State.contextAt_get? hp' 3, rfl, rfl, cellarArea, cellar, blocks, launches⟩
    case empty => exact ⟨_, _, exec_exchangeComplete_restore_none hp hw ht h hop hc, rfl, State.contextAt_get? hp 6, rfl, rfl⟩
    case unpark =>
      obtain ⟨p, hp', ctx, -, tframe, -⟩ := State.restoreImage_part (s := { s with cellars := s.cellars.del part }) hp img w.target true
      refine ⟨_, _, exec_exchangeComplete_restore hp hw ht h hop hc, State.setPart_get?_same hp' _, by rw [ctx], by rw [ctx], rfl, ?_, tframe⟩
      exact (congrArg (NMap.get? · part) (State.restoreImage_cellars { s with cellars := s.cellars.del part } part img w.target true)).trans
        (NMap.get?_del_same _ _)
  case land =>
    intro s part slice line pt hp
    refine ⟨exec_sliceLineLand_none hp, fun bs h => ⟨_, _, exec_sliceLineLand hp h, State.landed_mem .., State.landed_part _ _ _ _ _ hp, rfl,
      fun hsram hlast => State.landed_present _ _ _ _ _ hsram hlast,
      fun wid w i hw hi hpark hawait hwaits hstop => State.landed_wakes _ _ _ _ _ hw hi hpark hawait hwaits hstop⟩⟩
  case cost =>
    intro s part pt hp
    refine ⟨fun h => ?_, fun hs hc => ⟨_, _, (exec_savecostUpdate hp).trans (congrArg _ (if_neg ?_)), rfl, State.setPart_get?_same hp _, rfl⟩⟩
    · rw [exec_savecostUpdate hp, if_pos (by simpa using h)]
    · simpa using ⟨hs, hc⟩
end Sys2Proof.Machine
end

section
/-! Decoding the word of a well-formed instruction (spec/03 R96 to R106, spec/04 R110 to R112): legality bounds every field but an immediate,
being encodable bounds the immediates, so the word holds the fields as they are, and these build the instruction again. -/
namespace Sys2Proof
open Laws

/-! ### Sources and destinations the encoding tables list -/

/-- Whether a source other than an immediate fits its 12 bits (R100). -/
def Src.InRange : Src → Prop
  | .reg i => i < 1024
  | .latch k => 1 ≤ k ∧ k ≤ 1024
  | .bcast i => i < 1024
  | .imm _ => True

theorem Src.fits_of_narrow {s : Src} (h : s.InRange) (hn : s.narrow = true) : s.Fits := by
  cases s with
  | imm v => simpa [Src.narrow, fitsSigned, Src.Fits] using hn
  | _ => exact h

section sources
variable {s : Src}

theorem Src.inRange_of_vecOk {f : Fmt} (h : s.vecOk f = true) : s.InRange := by
  cases s <;> simp_all [Src.vecOk, Src.InRange, vecIdxOk] <;> omega

theorem Src.inRange_of_scaOk (h : s.scaOk = true) : s.InRange := by
  cases s <;> simp_all [Src.scaOk, Src.InRange] <;> omega

theorem Src.inRange_of_predOk (h : s.predOk = true) : s.InRange := by
  cases s <;> simp_all [Src.predOk, Src.InRange] <;> omega

theorem Src.inRange_of_isZero (h : s.isZero = true) : s.InRange := by
  cases s <;> simp_all [Src.isZero, Src.InRange]

end sources

section destinations
variable {d : Dst}

theorem Dst.idx_lt_of_vecOk {f : Fmt} (h : d.vecOk f = true) : d.idx < 256 := by
  simp only [Dst.vecOk, vecIdxOk, Bool.and_eq_true, decide_eq_true_eq] at h
  omega

theorem Dst.idx_lt_of_scaOk (h : d.scaOk = true) : d.idx < 256 := by
  simp only [Dst.scaOk, Bool.and_eq_true, decide_eq_true_eq] at h
  omega

theorem Dst.idx_lt_of_addrOk (h : d.addrOk = true) : d.idx < 256 := by
  simp only [Dst.addrOk, Bool.and_eq_true, decide_eq_true_eq] at h
  omega

theorem Dst.idx_lt_of_predOk (h : d.predOk = true) : d.idx < 256 := by
  simp only [Dst.predOk, Bool.and_eq_true, decide_eq_true_eq] at h
  omega

theorem Dst.idx_lt_of_noneOk (h : d.noneOk = true) : d.idx < 256 := by
  simp only [Dst.noneOk, beq_iff_eq] at h
  simp [h, Dst.noDest]

end destinations

/-! ### Operands and fields that fit their bits -/

/-- Whether the predicate, the destination index and the sources fit their fields, immediates aside. -/
structure Alu.InRange (o : Alu) : Prop where
  guard : o.g.ok = true
  dst   : o.d.idx < 256
  a     : o.a.InRange
  b     : o.b.InRange
  c     : o.c.InRange

/-- Whether the opcode is assigned and every field but an immediate and a wide offset fits its bits. -/
structure Fields.InRange (f : Fields) : Prop where
  op   : opcodeAssigned f.op = true
  sub  : f.sub < 16
  fmt  : f.fmt < 16
  pred : f.pred < 8
  di   : f.di < 256
  dc   : f.dc < 8
  s0   : f.s0.InRange
  s1   : f.s1.InRange
  s2   : f.s2.InRange

theorem opcodeAssigned_lt {op : Nat} (h : opcodeAssigned op = true) : op < 0xF0 := by
  simp only [opcodeAssigned, Bool.or_eq_true, Bool.and_eq_true, decide_eq_true_eq, beq_iff_eq] at h
  omega

theorem Fields.InRange.fits {f : Fields} (h : f.InRange) (h0 : f.s0.narrow = true) (h1 : f.s1.narrow = true) (h2 : f.s2.narrow = true)
    (hw : f.wide = none) : f.Fits where
  op := lt_trans (opcodeAssigned_lt h.op) (by decide)
  sub := h.sub
  fmt := h.fmt
  pred := h.pred
  di := h.di
  dc := h.dc
  s0 := Src.fits_of_narrow h.s0 h0
  s1 := Src.fits_of_narrow h.s1 h1
  s2 := Src.fits_of_narrow h.s2 h2
  wide := hw

section fields
variable {op k sub : Nat} {fmt : Fmt} {g : Guard} {d : Dst} {a b c : Src} {ext : BitVec 28} {wide : Option Int}

theorem Fields.inRange_mk' (hop : opcodeAssigned op = true) (hsub : sub < 16) (hg : g.ok = true) (hd : d.idx < 256) (ha : a.InRange)
    (hb : b.InRange) (hc : c.InRange) : (Fields.mk' op sub fmt g d a b c ext wide).InRange :=
  ⟨hop, hsub, fmt.code_lt, of_decide_eq_true hg, hd, lt_of_lt_of_le d.cls.code_lt (by decide), ha, hb, hc⟩

theorem subOf_lt (hk : k < 8) (uns : Bool) : subOf k uns < 16 := by
  cases uns <;> simp [subOf] <;> omega

theorem Alu.InRange.fields {o : Alu} (h : o.InRange) (hop : opcodeAssigned op = true) (hk : k < 8) : (o.fields op k ext).InRange :=
  Fields.inRange_mk' hop (subOf_lt hk _) h.guard h.dst h.a h.b h.c

end fields

section shapes
variable {op k n : Nat} {fs sfs : List Fmt} {u sat : Bool} {dst : Dst → Bool} {x y : Src → Bool} {l : List Order}

/-! ### What each shape of the encoding tables bounds -/

theorem Alu.inRange_of_scalarOk {o : Alu} (h : o.scalarOk n u dst = true) (hdst : dst o.d = true → o.d.idx < 256) : o.InRange := by
  simp only [Alu.scalarOk, Bool.and_eq_true] at h
  obtain ⟨⟨⟨⟨⟨⟨hg, -⟩, hd⟩, ha⟩, hb⟩, hc⟩, -⟩ := h
  exact ⟨hg, hdst hd, Src.inRange_of_scaOk ha, Src.inRange_of_scaOk hb, Src.inRange_of_scaOk hc⟩

theorem Alu.inRange_of_vectorOk {o : Alu} (h : o.vectorOk n fs u = true) : o.InRange := by
  simp only [Alu.vectorOk, Bool.and_eq_true] at h
  obtain ⟨⟨⟨⟨⟨⟨⟨hg, -⟩, -⟩, hd⟩, ha⟩, hb⟩, hc⟩, -⟩ := h
  exact ⟨hg, Dst.idx_lt_of_vecOk hd, Src.inRange_of_vecOk ha, Src.inRange_of_vecOk hb, Src.inRange_of_vecOk hc⟩

theorem Alu.inRange_of_convOk {o : Alu} {v : Cv} (h : convOk fs sfs sat u n v o = true) (hn : n < 3) : o.InRange := by
  simp only [convOk, Alu.restZero, Bool.and_eq_true, Bool.or_eq_true, decide_eq_true_eq] at h
  obtain ⟨⟨⟨⟨⟨⟨⟨⟨hg, -⟩, -⟩, -⟩, -⟩, hd⟩, ha⟩, hb⟩, -, hc⟩ := h
  exact ⟨hg, Dst.idx_lt_of_vecOk hd, Src.inRange_of_vecOk ha, Src.inRange_of_vecOk hb, Src.inRange_of_isZero (hc.resolve_left (by omega))⟩

theorem Alu.inRange_of_laneReduceOk {o : Alu} {r : ROp} {m : RMode} (h : Instr.legal.laneReduceOk r m o dst = true)
    (hdst : dst o.d = true → o.d.idx < 256) : o.InRange := by
  simp only [Instr.legal.laneReduceOk, Bool.and_eq_true] at h
  obtain ⟨⟨⟨⟨⟨⟨⟨hg, -⟩, -⟩, -⟩, hd⟩, ha⟩, hb⟩, hc⟩ := h
  exact ⟨hg, hdst hd, Src.inRange_of_vecOk ha, Src.inRange_of_isZero hb, Src.inRange_of_isZero hc⟩

theorem AddrOp.fields_inRange {o : AddrOp} (h : o.ok dst x y = true) (hop : opcodeAssigned op = true) (hk : k < 16)
    (hdst : dst o.d = true → o.d.idx < 256) (hx : x o.x = true → o.x.InRange) (hy : y o.y = true → o.y.InRange) :
    (o.fields op k).InRange := by
  simp only [AddrOp.ok, Bool.and_eq_true, decide_eq_true_eq] at h
  obtain ⟨⟨⟨⟨hg, hd⟩, ha⟩, hx'⟩, hy'⟩ := h
  exact Fields.inRange_mk' hop hk hg (hdst hd) (lt_trans ha (by decide)) (hx hx') (hy hy')

theorem Mem.fields_inRange {o : Mem} (h : o.ok dst x y l = true) (hop : opcodeAssigned op = true) (hk : k < 8)
    (hdst : dst o.d = true → o.d.idx < 256) (hx : x o.x = true → o.x.InRange) (hy : y o.y = true → o.y.InRange) :
    (o.fields op k).InRange := by
  simp only [Mem.ok, Bool.and_eq_true, decide_eq_true_eq] at h
  obtain ⟨⟨⟨⟨⟨hg, hd⟩, ha⟩, hx'⟩, hy'⟩, -⟩ := h
  exact Fields.inRange_mk' hop (subOf_lt hk _) hg (hdst hd) (lt_trans ha (by decide)) (hx hx') (hy hy')

theorem Mem.fields_inRange_of_atomicOk {o : Mem} {f : Fmt} (h : o.atomicOk fs dst f = true) (hop : opcodeAssigned op = true) (hk : k < 16)
    (hdst : dst o.d = true → o.d.idx < 256) : (o.fields op k).InRange := by
  simp only [Mem.atomicOk, Bool.and_eq_true, decide_eq_true_eq, Bool.not_eq_true'] at h
  obtain ⟨⟨⟨⟨⟨⟨⟨hg, hu⟩, -⟩, hd⟩, ha⟩, hx⟩, hy⟩, -⟩ := h
  refine Fields.inRange_mk' hop (by simpa [hu, subOf] using hk) hg (hdst hd) (lt_trans ha (by decide)) ?_ ?_
  · split at hx
    · exact Src.inRange_of_scaOk hx
    · exact Src.inRange_of_vecOk hx
  · split at hy
    · exact Src.inRange_of_scaOk hy
    · exact Src.inRange_of_vecOk hy

theorem Copy.fields_inRange {o : Copy} (h : o.ok fs n = true) (hop : opcodeAssigned op = true) (hk : k < 16) : (o.fields op k).InRange := by
  simp only [Copy.ok, Bool.and_eq_true, Bool.or_eq_true, decide_eq_true_eq] at h
  obtain ⟨⟨⟨⟨⟨⟨hg, -⟩, hd⟩, hdst⟩, hsrc⟩, hb⟩, -⟩ := h
  exact Fields.inRange_mk' hop hk hg (hd.elim Dst.idx_lt_of_scaOk Dst.idx_lt_of_noneOk) (lt_trans hdst (by decide)) (lt_trans hsrc (by decide))
    (show o.k < 1024 by omega)

theorem Dst.idx_lt_of_atomicDst {f : Fmt} {d : Dst} (h : atomicDst f d = true) : d.idx < 256 := by
  simp only [atomicDst, Bool.or_eq_true] at h
  exact h.elim (·.elim Dst.idx_lt_of_vecOk Dst.idx_lt_of_scaOk) Dst.idx_lt_of_noneOk

theorem Src.inRange_of_laneSrcOk {m : LaneMode} {s : Src} (h : laneSrcOk m s = true) : s.InRange := by
  cases m with
  | linear => exact Src.inRange_of_isZero h
  | _ => exact Src.inRange_of_vecOk h

end shapes

theorem Guard.always_ok : Guard.always.ok = true := rfl
theorem Src.zero_inRange : Src.zero.InRange := show 0 < 1024 by decide

theorem Dst.noDest_idx_lt : Dst.noDest.idx < 256 := by decide

section words
variable {op sub : Nat} {fmt : Fmt} {g : Guard} {d : Dst} {a b : Src} {o : Int} {e : MExt}

theorem ctlFields_inRange (hop : opcodeAssigned op = true) (hsub : sub < 16) (hg : g.ok = true) (ha : a.InRange) :
    (ctlFields op sub g a o).InRange :=
  Fields.inRange_mk' hop hsub hg Dst.noDest_idx_lt ha Src.zero_inRange Src.zero_inRange

theorem plainFields_inRange (hop : opcodeAssigned op = true) (hsub : sub < 16) (hg : g.ok = true) (hd : d.idx < 256) (ha : a.InRange)
    (hb : b.InRange) : (plainFields op sub fmt g d a b).InRange :=
  Fields.inRange_mk' hop hsub hg hd ha hb Src.zero_inRange

theorem extFields_inRange (hop : opcodeAssigned op = true) (hg : g.ok = true) (hd : d.idx < 256) (ha : a.InRange) (hb : b.InRange) :
    (extFields op g d a b e).InRange :=
  Fields.inRange_mk' hop (by decide) hg hd ha hb Src.zero_inRange

end words

theorem sysAssigned_lt {n : Nat} (h : sysAssigned n = true) : n < 256 := by
  simp only [sysAssigned, Bool.or_eq_true, Bool.and_eq_true, decide_eq_true_eq, beq_iff_eq] at h
  omega

theorem mxAssigned_lt {n : Nat} (h : mxAssigned n = true) : n < 1024 := by
  simp only [mxAssigned, Bool.or_eq_true, Bool.and_eq_true, decide_eq_true_eq] at h
  omega

theorem guard_of_bar {g : Guard} {b : Int} {e : MExt} {l : List Order} (h : barOk g b e l = true) : g.ok = true := by
  simp only [barOk, Bool.and_eq_true] at h
  exact h.1.1.1.1

/-- A scalar destination or none. -/
theorem Dst.idx_lt_of_scaOrNone {d : Dst} (h : (d.scaOk || d.noneOk) = true) : d.idx < 256 :=
  (Bool.or_eq_true_iff.mp h).elim Dst.idx_lt_of_scaOk Dst.idx_lt_of_noneOk

/-! ### The fields of every instruction -/

/-- Every field of a legal instruction fits its bits, immediates and a wide offset aside: its encoding table bounds it. -/
theorem Instr.fields_inRange {i : Instr} (h : i.legal = true) : ∀ f ∈ i.fields, f.InRange := by
  cases i with
  | sadd o | ssub o | smul o | smulh o | smad o | sand o | sor o | sxor o | sandn o | sshl o | sshr o | ssar o | srot o | smov o | ssel o
  | sdiv o | srem o | spopc o | sclz o | sctz o | sbrev o =>
    rintro _ ⟨⟩
    exact (Alu.inRange_of_scalarOk h Dst.idx_lt_of_scaOk).fields rfl (by decide)
  | scmp c o =>
    rintro _ ⟨⟩
    exact (Alu.inRange_of_scalarOk h Dst.idx_lt_of_predOk).fields rfl c.code_lt
  | iadd o | isub o | imul o | imad o | imulh o | iadds o | isubs o | imin o | imax o | iabs o | ineg o | iabsd o | and o | or o | xor o
  | andn o | orn o | xnor o | not o | lut3 _ o | shl o | shr o | sar o | popc o | clz o | ctz o | brev o | bfi o | imov o | idot4 o
  | fmin o | fmax o | fabs o | fneg o | fcsgn o | frcp o | frsq o =>
    rintro _ ⟨⟩
    exact (Alu.inRange_of_vectorOk h).fields rfl (by decide)
  | irot right o =>
    rintro _ ⟨⟩
    exact (Alu.inRange_of_vectorOk h).fields rfl (by cases right <;> decide)
  | fadd m o | fsub m o | fmul m o | ffma m o | fsqrt m o | fdiv m o | fexp2 m o | flog2 m o =>
    rintro _ ⟨⟩
    exact (Alu.inRange_of_vectorOk h).fields rfl m.code_lt
  | qswap m o =>
    rintro _ ⟨⟩
    exact (Alu.inRange_of_vectorOk h).fields rfl m.code_lt
  | qbcast k o =>
    rintro _ ⟨⟩
    obtain ⟨hk, h⟩ := Bool.and_eq_true_iff.mp h
    exact (Alu.inRange_of_vectorOk h).fields rfl (lt_trans (of_decide_eq_true hk) (by decide))
  | cvt m v o | frint m v o | cvtbs m v o =>
    rintro _ ⟨⟩
    exact (Alu.inRange_of_convOk (Bool.and_eq_true_iff.mp h).1 (by decide)).fields rfl m.code_lt
  | cvtf m v o | cvti m v o =>
    rintro _ ⟨⟩
    exact (Alu.inRange_of_convOk h (by decide)).fields rfl m.code_lt
  | lred r m o =>
    rintro _ ⟨⟩
    refine (Alu.inRange_of_laneReduceOk (dst := fun d => d.vecOk o.fmt || d.scaOk) h fun hd => ?_).fields rfl r.code_lt
    exact (Bool.or_eq_true_iff.mp hd).elim Dst.idx_lt_of_vecOk Dst.idx_lt_of_scaOk
  | lscan r m o =>
    rintro _ ⟨⟩
    exact (Alu.inRange_of_laneReduceOk h Dst.idx_lt_of_vecOk).fields rfl r.code_lt
  | isel o | bfx o | fclass o | fclassFl o | pand o | por o | pxor o | pnot o =>
    rintro _ ⟨⟩
    unfold Instr.legal at h
    refine Alu.InRange.fields ?_ rfl (by decide)
    grind [Alu.InRange, Src.inRange_of_vecOk, Src.inRange_of_predOk, Src.inRange_of_isZero, Dst.idx_lt_of_vecOk, Dst.idx_lt_of_predOk]
  | icmp c o | fcmp c o | fscale c o | lxch c _ o | lpoll c o | lidx c o | fdot2 c _ o | icvt c _ _ _ o =>
    rintro _ ⟨⟩
    unfold Instr.legal at h
    refine Alu.InRange.fields ?_ rfl c.code_lt
    grind [Alu.InRange, Src.inRange_of_vecOk, Src.inRange_of_predOk, Src.inRange_of_isZero, Dst.idx_lt_of_vecOk, Dst.idx_lt_of_predOk,
      Dst.idx_lt_of_scaOk]
  | vmovx c o | lbcast c o | pmov c o =>
    rintro _ ⟨⟩
    unfold Instr.legal at h
    refine Alu.InRange.fields ?_ rfl (by cases c <;> decide)
    cases c <;> grind [Alu.InRange, Src.InRange, vecIdxOk, Src.inRange_of_vecOk, Src.inRange_of_predOk, Src.inRange_of_isZero,
      Src.inRange_of_scaOk, Dst.idx_lt_of_vecOk, Dst.idx_lt_of_predOk, Dst.idx_lt_of_scaOk]
  | aset v o =>
    rintro _ ⟨⟩
    refine AddrOp.fields_inRange (dst := fun d => d.addrOk && d.wb) h rfl (lt_trans v.code_lt (by decide))
      (fun hd => Dst.idx_lt_of_addrOk (Bool.and_eq_true_iff.mp hd).1) Src.inRange_of_scaOk fun hy => ?_
    split at hy
    · exact Src.inRange_of_scaOk hy
    · exact Src.inRange_of_isZero hy
  | aadv o =>
    rintro _ ⟨⟩
    exact AddrOp.fields_inRange (dst := fun d => d.addrOk && d.wb) h rfl (by decide)
      (fun hd => Dst.idx_lt_of_addrOk (Bool.and_eq_true_iff.mp hd).1) Src.inRange_of_scaOk Src.inRange_of_isZero
  | abind o =>
    rintro _ ⟨⟩
    unfold Instr.legal at h
    refine AddrOp.fields_inRange h rfl (by decide)
      (fun hd => Dst.idx_lt_of_addrOk (Bool.and_eq_true_iff.mp (Bool.and_eq_true_iff.mp hd).1).1) (fun hx => ?_) Src.inRange_of_isZero
    grind [Src.InRange]
  | aunbind o =>
    rintro _ ⟨⟩
    exact AddrOp.fields_inRange (dst := fun d => d.addrOk && d.wb && 8 ≤ d.idx) h rfl (by decide)
      (fun hd => Dst.idx_lt_of_addrOk (Bool.and_eq_true_iff.mp (Bool.and_eq_true_iff.mp hd).1).1) Src.inRange_of_isZero Src.inRange_of_isZero
  | aget v o =>
    rintro _ ⟨⟩
    exact AddrOp.fields_inRange h rfl (lt_trans v.code_lt (by decide)) Dst.idx_lt_of_scaOk Src.inRange_of_isZero Src.inRange_of_isZero
  | atrn o =>
    rintro _ ⟨⟩
    exact AddrOp.fields_inRange h rfl (by decide) Dst.idx_lt_of_noneOk Src.inRange_of_isZero Src.inRange_of_isZero
  | ld m o =>
    rintro _ ⟨⟩
    exact Mem.fields_inRange (Bool.and_eq_true_iff.mp h).2 rfl (lt_trans m.code_lt (by decide)) Dst.idx_lt_of_vecOk Src.inRange_of_laneSrcOk
      Src.inRange_of_isZero
  | st m o =>
    rintro _ ⟨⟩
    exact Mem.fields_inRange (Bool.and_eq_true_iff.mp h).2 rfl (lt_trans m.code_lt (by decide)) Dst.idx_lt_of_noneOk Src.inRange_of_laneSrcOk
      Src.inRange_of_vecOk
  | lds ix o =>
    rintro _ ⟨⟩
    exact Mem.fields_inRange (Bool.and_eq_true_iff.mp h).2 rfl (by cases ix <;> decide) Dst.idx_lt_of_scaOk
      (fun hx => by cases ix; exacts [Src.inRange_of_isZero hx, Src.inRange_of_scaOk hx]) Src.inRange_of_isZero
  | sts ix o =>
    rintro _ ⟨⟩
    exact Mem.fields_inRange (Bool.and_eq_true_iff.mp h).2 rfl (by cases ix <;> decide) Dst.idx_lt_of_noneOk
      (fun hx => by cases ix; exacts [Src.inRange_of_isZero hx, Src.inRange_of_scaOk hx]) Src.inRange_of_scaOk
  | sread v o =>
    rintro _ ⟨⟩
    refine Mem.fields_inRange (dst := fun d => d.vecOk o.fmt || (!v && intFmts.contains o.fmt && d.scaOk)) (Bool.and_eq_true_iff.mp h).2 rfl
      (by cases v <;> decide) (fun hd => ?_) Src.inRange_of_isZero Src.inRange_of_isZero
    exact (Bool.or_eq_true_iff.mp hd).elim Dst.idx_lt_of_vecOk fun hd => Dst.idx_lt_of_scaOk (Bool.and_eq_true_iff.mp hd).2
  | lda o =>
    rintro _ ⟨⟩
    exact Mem.fields_inRange (Bool.and_eq_true_iff.mp h).2 rfl (by decide) Dst.idx_lt_of_addrOk Src.inRange_of_isZero Src.inRange_of_isZero
  | sta o =>
    rintro _ ⟨⟩
    unfold Instr.legal at h
    refine Mem.fields_inRange (Bool.and_eq_true_iff.mp h).2 rfl (by decide) Dst.idx_lt_of_noneOk (fun hx => ?_) Src.inRange_of_isZero
    grind [Src.InRange]
  | pf v o | wback v o | inv v o =>
    rintro _ ⟨⟩
    exact Mem.fields_inRange (Bool.and_eq_true_iff.mp h).2 rfl (by cases v <;> decide) Dst.idx_lt_of_noneOk
      (fun hx => by cases v; exacts [Src.inRange_of_scaOk hx, Src.inRange_of_vecOk hx]) Src.inRange_of_isZero
  | atadd o | atsub o | atmin o | atmax o | atand o | ator o | atxor o | atswp o | atinc o | atfadd o | atminN o | atmaxN o =>
    rintro _ ⟨⟩
    exact Mem.fields_inRange_of_atomicOk h rfl (by decide) Dst.idx_lt_of_atomicDst
  | atfaddRgn o =>
    rintro _ ⟨⟩
    exact Mem.fields_inRange_of_atomicOk h rfl (by decide) Dst.idx_lt_of_noneOk
  | acas o =>
    rintro _ ⟨⟩
    refine Mem.fields_inRange_of_atomicOk (dst := fun d => (d.vecOk o.fmt || d.scaOk) && d.wb) h rfl (by decide) fun hd => ?_
    exact (Bool.or_eq_true_iff.mp (Bool.and_eq_true_iff.mp hd).1).elim Dst.idx_lt_of_vecOk Dst.idx_lt_of_scaOk
  | semwTk o | semwTake o | semp o =>
    rintro _ ⟨⟩
    exact Mem.fields_inRange (Bool.and_eq_true_iff.mp h).2 rfl (by decide) Dst.idx_lt_of_noneOk Src.inRange_of_scaOk Src.inRange_of_isZero
  | mwait v o =>
    rintro _ ⟨⟩
    refine Mem.fields_inRange (dst := fun d => d.predOk || d.scaOk || d.noneOk) (Bool.and_eq_true_iff.mp h).2 rfl v.code_lt (fun hd => ?_)
      Src.inRange_of_scaOk Src.inRange_of_scaOk
    simp only [Bool.or_eq_true] at hd
    exact hd.elim (·.elim Dst.idx_lt_of_predOk Dst.idx_lt_of_scaOk) Dst.idx_lt_of_noneOk
  | cpy o | cpyadd o | cpybc o =>
    rintro _ ⟨⟩
    exact Copy.fields_inRange h rfl (by decide)
  | cpys v o | plane v o | unplane v o =>
    rintro _ ⟨⟩
    exact Copy.fields_inRange h rfl (by cases v <;> decide)
  | cpyfill o =>
    rintro _ ⟨⟩
    exact Copy.fields_inRange (Bool.and_eq_true_iff.mp h).1 rfl (by decide)
  | nop g | br g o | yield g | exit g =>
    rintro _ ⟨⟩
    exact ctlFields_inRange rfl (by decide) h Src.zero_inRange
  | mark o | join | ret | eret =>
    rintro _ ⟨⟩
    exact ctlFields_inRange rfl (by decide) Guard.always_ok Src.zero_inRange
  | bre sense flag a o =>
    rintro _ ⟨⟩
    unfold Instr.legal at h
    simp only [Bool.and_eq_true, decide_eq_true_eq] at h
    exact ctlFields_inRange rfl (by split <;> omega) Guard.always_ok (show a < 1024 by omega)
  | call f o =>
    rintro _ ⟨⟩
    have hf := RoundTrip.frame_of h
    exact ctlFields_inRange rfl (by omega) Guard.always_ok Src.zero_inRange
  | callx g f v =>
    rintro _ ⟨⟩
    unfold Instr.legal at h
    simp only [Bool.and_eq_true, vecIdxOk, decide_eq_true_eq] at h
    obtain ⟨⟨hg, hf⟩, ⟨hv, -⟩, -⟩ := h
    have hf := RoundTrip.frame_of hf
    exact plainFields_inRange rfl (by omega) hg Dst.noDest_idx_lt (show v < 1024 by omega) Src.zero_inRange
  | jmpx r =>
    rintro _ ⟨⟩
    exact ctlFields_inRange rfl (by decide) Guard.always_ok (lt_trans (of_decide_eq_true h) (by decide))
  | grow v | shrink v =>
    rintro _ ⟨⟩
    unfold Instr.legal at h
    exact ctlFields_inRange rfl (by decide) Guard.always_ok (by grind [Src.InRange])
  | trap g n =>
    rintro _ ⟨⟩
    exact ctlFields_inRange rfl (by decide) (Bool.and_eq_true_iff.mp h).1 trivial
  | rdsys g d n =>
    rintro _ ⟨⟩
    unfold Instr.legal at h
    simp only [Bool.and_eq_true] at h
    obtain ⟨⟨hg, hd⟩, hn⟩ := h
    exact plainFields_inRange rfl (by decide) hg (Dst.idx_lt_of_scaOk hd) (lt_trans (sysAssigned_lt hn) (by decide)) Src.zero_inRange
  | wrsys g d a =>
    rintro _ ⟨⟩
    unfold Instr.legal at h
    simp only [Bool.and_eq_true] at h
    obtain ⟨⟨⟨⟨hg, -⟩, -⟩, hd⟩, ha⟩ := h
    exact plainFields_inRange rfl (by decide) hg (sysAssigned_lt hd) (Src.inRange_of_scaOk ha) Src.zero_inRange
  | bara g b c e | bars g b c e =>
    rintro _ ⟨⟩
    obtain ⟨h, hc⟩ := Bool.and_eq_true_iff.mp h
    exact extFields_inRange rfl (guard_of_bar h) Dst.noDest_idx_lt trivial (Src.inRange_of_scaOk hc)
  | barw g b e =>
    rintro _ ⟨⟩
    exact extFields_inRange rfl (guard_of_bar h) Dst.noDest_idx_lt trivial Src.zero_inRange
  | fence g e =>
    rintro _ ⟨⟩
    unfold Instr.legal at h
    simp only [Bool.and_eq_true] at h
    exact extFields_inRange rfl h.1.1.1 Dst.noDest_idx_lt Src.zero_inRange Src.zero_inRange
  | cpyq g d q | viewjoin g d q =>
    rintro _ ⟨⟩
    unfold Instr.legal at h
    simp only [Bool.and_eq_true] at h
    obtain ⟨⟨hg, hd⟩, hq⟩ := h
    exact plainFields_inRange rfl (by decide) hg (Dst.idx_lt_of_scaOk hd) (Src.inRange_of_scaOk hq) Src.zero_inRange
  | cpycan g q | cabort g q | tmark g q =>
    rintro _ ⟨⟩
    obtain ⟨hg, hq⟩ := Bool.and_eq_true_iff.mp h
    exact plainFields_inRange rfl (by decide) hg Dst.noDest_idx_lt (Src.inRange_of_scaOk hq) Src.zero_inRange
  | mma walk acc da db ks nk =>
    rintro _ ⟨⟩
    unfold Instr.legal at h
    simp only [Bool.and_eq_true, decide_eq_true_eq] at h
    exact Fields.inRange_mk' rfl (by omega) Guard.always_ok (show acc < 256 by omega) trivial trivial trivial
  | mzero acc =>
    rintro _ ⟨⟩
    exact plainFields_inRange rfl (by decide) Guard.always_ok (lt_trans (of_decide_eq_true h) (by decide)) Src.zero_inRange Src.zero_inRange
  | mstore fmt acc od =>
    rintro _ ⟨⟩
    unfold Instr.legal at h
    simp only [Bool.and_eq_true, decide_eq_true_eq] at h
    exact plainFields_inRange rfl (by decide) Guard.always_ok Dst.noDest_idx_lt (show acc < 1024 by omega) trivial
  | msig b | mwaitb b =>
    rintro _ ⟨⟩
    exact plainFields_inRange rfl (by decide) Guard.always_ok Dst.noDest_idx_lt trivial Src.zero_inRange
  | mloop c n o =>
    rintro _ ⟨⟩
    have hc : c < 3 := of_decide_eq_true (Bool.and_eq_true_iff.mp h).1
    exact ctlFields_inRange rfl (by omega) Guard.always_ok trivial
  | mend =>
    rintro _ ⟨⟩
    exact plainFields_inRange rfl (by decide) Guard.always_ok Dst.noDest_idx_lt Src.zero_inRange Src.zero_inRange
  | fork g | mretry g | mresume g | mresumeAbandon g =>
    rintro _ ⟨⟩
    exact plainFields_inRange rfl (by decide) h Dst.noDest_idx_lt Src.zero_inRange Src.zero_inRange
  | mrd g d n =>
    rintro _ ⟨⟩
    unfold Instr.legal at h
    simp only [Bool.and_eq_true] at h
    obtain ⟨⟨hg, hd⟩, hn⟩ := h
    exact plainFields_inRange rfl (by decide) hg (Dst.idx_lt_of_scaOk hd) (mxAssigned_lt hn) Src.zero_inRange
  | mwr g n x =>
    rintro _ ⟨⟩
    unfold Instr.legal at h
    simp only [Bool.and_eq_true] at h
    obtain ⟨⟨hg, hn⟩, hx⟩ := h
    exact plainFields_inRange rfl (by decide) hg Dst.noDest_idx_lt (mxAssigned_lt hn) (Src.inRange_of_scaOk hx)
  | mtol g fmt x =>
    rintro _ ⟨⟩
    unfold Instr.legal at h
    simp only [Bool.and_eq_true] at h
    obtain ⟨⟨hg, -⟩, hx⟩ := h
    exact plainFields_inRange rfl (by decide) hg Dst.noDest_idx_lt (Src.inRange_of_scaOk hx) Src.zero_inRange
  | mstat g d | mstatClr g d | mloc g d | detq g d | rdclk g d =>
    rintro _ ⟨⟩
    obtain ⟨hg, hd⟩ := Bool.and_eq_true_iff.mp h
    exact plainFields_inRange rfl (by decide) hg (Dst.idx_lt_of_scaOk hd) Src.zero_inRange Src.zero_inRange
  | mchk g fmt d acc =>
    rintro _ ⟨⟩
    unfold Instr.legal at h
    simp only [Bool.and_eq_true, decide_eq_true_eq] at h
    obtain ⟨⟨⟨hg, -⟩, hd⟩, hacc⟩ := h
    exact plainFields_inRange rfl (by decide) hg (Dst.idx_lt_of_scaOk hd) (lt_trans hacc (by decide)) Src.zero_inRange
  | mfix g x =>
    rintro _ ⟨⟩
    unfold Instr.legal at h
    obtain ⟨hg, hx⟩ := Bool.and_eq_true_iff.mp h
    exact plainFields_inRange rfl (by decide) hg Dst.noDest_idx_lt (by grind [Src.InRange]) Src.zero_inRange
  | coll kind uns g fmt d a e =>
    rintro _ ⟨⟩
    unfold Instr.legal at h
    simp only [Bool.and_eq_true, decide_eq_true_eq] at h
    obtain ⟨⟨⟨⟨⟨⟨hg, -⟩, -⟩, hd⟩, ha⟩, -⟩, -⟩ := h
    exact Fields.inRange_mk' rfl (subOf_lt kind.code_lt _) hg (Dst.idx_lt_of_scaOrNone hd) (lt_trans ha (by decide)) Src.zero_inRange
      Src.zero_inRange
  | cwait g d q t e =>
    rintro _ ⟨⟩
    unfold Instr.legal at h
    simp only [Bool.and_eq_true] at h
    obtain ⟨⟨⟨⟨⟨⟨hg, hd⟩, hq⟩, ht⟩, -⟩, -⟩, -⟩ := h
    exact extFields_inRange rfl hg (Dst.idx_lt_of_scaOrNone hd) (Src.inRange_of_scaOk hq) (Src.inRange_of_scaOk ht)
  | viewq g d k | ckq g d k =>
    rintro _ ⟨⟩
    unfold Instr.legal at h
    simp only [Bool.and_eq_true] at h
    obtain ⟨⟨hg, hd⟩, -⟩ := h
    exact plainFields_inRange rfl (by decide) hg (Dst.idx_lt_of_scaOk hd) trivial Src.zero_inRange
  | viewack g d x =>
    rintro _ ⟨⟩
    unfold Instr.legal at h
    simp only [Bool.and_eq_true] at h
    obtain ⟨⟨hg, hd⟩, hx⟩ := h
    exact plainFields_inRange rfl (by decide) hg (Dst.idx_lt_of_scaOrNone hd) (Src.inRange_of_scaOk hx) Src.zero_inRange
  | ckpt g d | ckptWait g d =>
    rintro _ ⟨⟩
    obtain ⟨hg, hd⟩ := Bool.and_eq_true_iff.mp h
    exact plainFields_inRange rfl (by decide) hg (Dst.idx_lt_of_scaOrNone hd) Src.zero_inRange Src.zero_inRange
  | digest g fmt a ch =>
    rintro _ ⟨⟩
    unfold Instr.legal at h
    simp only [Bool.and_eq_true] at h
    obtain ⟨⟨hg, ha⟩, -⟩ := h
    exact plainFields_inRange rfl (by decide) hg Dst.noDest_idx_lt (by grind [Src.InRange, Src.inRange_of_vecOk, vecIdxOk]) trivial
  | brk g n =>
    rintro _ ⟨⟩
    exact plainFields_inRange rfl (by decide) (Bool.and_eq_true_iff.mp h).1 Dst.noDest_idx_lt trivial Src.zero_inRange
  | launch d a q e =>
    rintro _ ⟨⟩
    unfold Instr.legal at h
    simp only [Bool.and_eq_true, decide_eq_true_eq] at h
    obtain ⟨⟨⟨⟨hd, ha⟩, hq⟩, -⟩, -⟩ := h
    exact Fields.inRange_mk' rfl (by decide) Guard.always_ok (Dst.idx_lt_of_scaOrNone hd) (lt_trans ha (by decide)) (by grind [Src.InRange])
      Src.zero_inRange
  | _ => rintro _ ⟨⟩

/-- The fields of a legal instruction build it again. -/
theorem Instr.build_fields (i : Instr) : RoundTrip.Statement i := by
  cases i with
  | nop g => exact RoundTrip.nop g | br g o => exact RoundTrip.br g o | bre sense flag a o => exact RoundTrip.bre sense flag a o
  | mark o => exact RoundTrip.mark o | join => exact RoundTrip.join | call f o => exact RoundTrip.call f o
  | callx g f v => exact RoundTrip.callx g f v | ret => exact RoundTrip.ret | jmpx r => exact RoundTrip.jmpx r
  | grow v => exact RoundTrip.grow v | shrink v => exact RoundTrip.shrink v | yield g => exact RoundTrip.yield g
  | exit g => exact RoundTrip.exit g | trap g n => exact RoundTrip.trap g n | eret => exact RoundTrip.eret
  | rdsys g d n => exact RoundTrip.rdsys g d n | wrsys g d a => exact RoundTrip.wrsys g d a | sadd o => exact RoundTrip.sadd o
  | ssub o => exact RoundTrip.ssub o | smul o => exact RoundTrip.smul o | smulh o => exact RoundTrip.smulh o
  | smad o => exact RoundTrip.smad o | sand o => exact RoundTrip.sand o | sor o => exact RoundTrip.sor o | sxor o => exact RoundTrip.sxor o
  | sandn o => exact RoundTrip.sandn o | sshl o => exact RoundTrip.sshl o | sshr o => exact RoundTrip.sshr o
  | ssar o => exact RoundTrip.ssar o | srot o => exact RoundTrip.srot o | scmp c o => exact RoundTrip.scmp c o
  | smov o => exact RoundTrip.smov o | ssel o => exact RoundTrip.ssel o | sdiv o => exact RoundTrip.sdiv o
  | srem o => exact RoundTrip.srem o | spopc o => exact RoundTrip.spopc o | sclz o => exact RoundTrip.sclz o
  | sctz o => exact RoundTrip.sctz o | sbrev o => exact RoundTrip.sbrev o | aset f o => exact RoundTrip.aset f o
  | aadv o => exact RoundTrip.aadv o | abind o => exact RoundTrip.abind o | aunbind o => exact RoundTrip.aunbind o
  | aget f o => exact RoundTrip.aget f o | atrn o => exact RoundTrip.atrn o | iadd o => exact RoundTrip.iadd o
  | isub o => exact RoundTrip.isub o | imul o => exact RoundTrip.imul o | imad o => exact RoundTrip.imad o
  | imulh o => exact RoundTrip.imulh o | iadds o => exact RoundTrip.iadds o | isubs o => exact RoundTrip.isubs o
  | imin o => exact RoundTrip.imin o | imax o => exact RoundTrip.imax o | iabs o => exact RoundTrip.iabs o
  | ineg o => exact RoundTrip.ineg o | icmp c o => exact RoundTrip.icmp c o | isel o => exact RoundTrip.isel o
  | and o => exact RoundTrip.and o | or o => exact RoundTrip.or o | xor o => exact RoundTrip.xor o | andn o => exact RoundTrip.andn o
  | orn o => exact RoundTrip.orn o | xnor o => exact RoundTrip.xnor o | not o => exact RoundTrip.not o
  | lut3 t o => exact RoundTrip.lut3 t o | shl o => exact RoundTrip.shl o | shr o => exact RoundTrip.shr o | sar o => exact RoundTrip.sar o
  | irot right o => exact RoundTrip.irot right o | popc o => exact RoundTrip.popc o | clz o => exact RoundTrip.clz o
  | ctz o => exact RoundTrip.ctz o | brev o => exact RoundTrip.brev o | bfx o => exact RoundTrip.bfx o | bfi o => exact RoundTrip.bfi o
  | imov o => exact RoundTrip.imov o | vmovx write o => exact RoundTrip.vmovx write o | idot4 o => exact RoundTrip.idot4 o
  | icvt sat sf js jd o => exact RoundTrip.icvt sat sf js jd o | iabsd o => exact RoundTrip.iabsd o | fadd m o => exact RoundTrip.fadd m o
  | fsub m o => exact RoundTrip.fsub m o | fmul m o => exact RoundTrip.fmul m o | ffma m o => exact RoundTrip.ffma m o
  | fmin o => exact RoundTrip.fmin o | fmax o => exact RoundTrip.fmax o | fabs o => exact RoundTrip.fabs o
  | fneg o => exact RoundTrip.fneg o | fcsgn o => exact RoundTrip.fcsgn o | fcmp c o => exact RoundTrip.fcmp c o
  | fclass o => exact RoundTrip.fclass o | fclassFl o => exact RoundTrip.fclassFl o | frcp o => exact RoundTrip.frcp o
  | frsq o => exact RoundTrip.frsq o | fsqrt m o => exact RoundTrip.fsqrt m o | fdiv m o => exact RoundTrip.fdiv m o
  | fexp2 m o => exact RoundTrip.fexp2 m o | flog2 m o => exact RoundTrip.flog2 m o | fscale m o => exact RoundTrip.fscale m o
  | cvt m v o => exact RoundTrip.cvt m v o | cvtf m v o => exact RoundTrip.cvtf m v o | cvti m v o => exact RoundTrip.cvti m v o
  | frint m v o => exact RoundTrip.frint m v o | cvtbs m v o => exact RoundTrip.cvtbs m v o | fdot2 m v o => exact RoundTrip.fdot2 m v o
  | qswap m o => exact RoundTrip.qswap m o | qbcast k o => exact RoundTrip.qbcast k o | lxch v seg o => exact RoundTrip.lxch v seg o
  | lbcast first o => exact RoundTrip.lbcast first o | lred op m o => exact RoundTrip.lred op m o
  | lscan op m o => exact RoundTrip.lscan op m o | lpoll v o => exact RoundTrip.lpoll v o | pand o => exact RoundTrip.pand o
  | por o => exact RoundTrip.por o | pxor o => exact RoundTrip.pxor o | pnot o => exact RoundTrip.pnot o
  | pmov toScalar o => exact RoundTrip.pmov toScalar o | lidx v o => exact RoundTrip.lidx v o | ld m o => exact RoundTrip.ld m o
  | st m o => exact RoundTrip.st m o | lds indexed o => exact RoundTrip.lds indexed o | sts indexed o => exact RoundTrip.sts indexed o
  | sread vec o => exact RoundTrip.sread vec o | lda o => exact RoundTrip.lda o | sta o => exact RoundTrip.sta o
  | pf lane o => exact RoundTrip.pf lane o | wback lane o => exact RoundTrip.wback lane o | inv lane o => exact RoundTrip.inv lane o
  | atadd o => exact RoundTrip.atadd o | atsub o => exact RoundTrip.atsub o | atmin o => exact RoundTrip.atmin o
  | atmax o => exact RoundTrip.atmax o | atminN o => exact RoundTrip.atminN o | atmaxN o => exact RoundTrip.atmaxN o
  | atand o => exact RoundTrip.atand o | ator o => exact RoundTrip.ator o | atxor o => exact RoundTrip.atxor o
  | atswp o => exact RoundTrip.atswp o | atinc o => exact RoundTrip.atinc o | atfadd o => exact RoundTrip.atfadd o
  | atfaddRgn o => exact RoundTrip.atfaddRgn o | acas o => exact RoundTrip.acas o | bara g b c e => exact RoundTrip.bara g b c e
  | barw g b e => exact RoundTrip.barw g b e | bars g b c e => exact RoundTrip.bars g b c e | semwTk o => exact RoundTrip.semwTk o
  | semwTake o => exact RoundTrip.semwTake o | semp o => exact RoundTrip.semp o | mwait c o => exact RoundTrip.mwait c o
  | fence g e => exact RoundTrip.fence g e | cpy o => exact RoundTrip.cpy o | cpys scatter o => exact RoundTrip.cpys scatter o
  | cpyadd o => exact RoundTrip.cpyadd o | cpybc o => exact RoundTrip.cpybc o | plane rz o => exact RoundTrip.plane rz o
  | unplane rz o => exact RoundTrip.unplane rz o | cpyq g d q => exact RoundTrip.cpyq g d q | cpycan g q => exact RoundTrip.cpycan g q
  | cpyfill o => exact RoundTrip.cpyfill o | mma walk acc da db ks nk => exact RoundTrip.mma walk acc da db ks nk
  | mzero acc => exact RoundTrip.mzero acc | mstore fmt acc od => exact RoundTrip.mstore fmt acc od | msig b => exact RoundTrip.msig b
  | mwaitb b => exact RoundTrip.mwaitb b | mloop c count o => exact RoundTrip.mloop c count o | mend => exact RoundTrip.mend
  | fork g => exact RoundTrip.fork g | mrd g d n => exact RoundTrip.mrd g d n | mwr g n x => exact RoundTrip.mwr g n x
  | mtol g fmt x => exact RoundTrip.mtol g fmt x | mstat g d => exact RoundTrip.mstat g d | mstatClr g d => exact RoundTrip.mstatClr g d
  | mchk g fmt d acc => exact RoundTrip.mchk g fmt d acc | mloc g d => exact RoundTrip.mloc g d | mfix g x => exact RoundTrip.mfix g x
  | mretry g => exact RoundTrip.mretry g | mresume g => exact RoundTrip.mresume g | mresumeAbandon g => exact RoundTrip.mresumeAbandon g
  | coll kind uns g fmt d a e => exact RoundTrip.coll kind uns g fmt d a e | cwait g d q t e => exact RoundTrip.cwait g d q t e
  | viewq g d k => exact RoundTrip.viewq g d k | viewack g d x => exact RoundTrip.viewack g d x
  | viewjoin g d t => exact RoundTrip.viewjoin g d t | cabort g q => exact RoundTrip.cabort g q | ckpt g d => exact RoundTrip.ckpt g d
  | ckptWait g d => exact RoundTrip.ckptWait g d | ckq g d k => exact RoundTrip.ckq g d k
  | digest g fmt a ch => exact RoundTrip.digest g fmt a ch | detq g d => exact RoundTrip.detq g d | brk g n => exact RoundTrip.brk g n
  | tmark g x => exact RoundTrip.tmark g x | rdclk g d => exact RoundTrip.rdclk g d | launch d a q e => exact RoundTrip.launch d a q e
  | _ => exact RoundTrip.of_none rfl

/-! ### From fields to the word and back -/

section word
variable {i : Instr} {f : Fields}

theorem Instr.encodable_of_fields (hf : i.fields = some f) :
    i.encodable = (f.s0.narrow && f.s1.narrow && f.s2.narrow && f.wide.isNone) := by
  unfold Instr.encodable
  split
  · cases hf
  · cases hf
  · rw [hf]

theorem encode_of_fields (hf : i.fields = some f) : encode i = f.word := by
  unfold encode
  split
  · cases hf
  · cases hf
  · rw [hf]

/-- The fields of a well-formed instruction fit their bits. -/
theorem Fields.fits_of_wellFormed (h : i.wellFormed = true) (hf : i.fields = some f) : f.Fits := by
  obtain ⟨hl, he⟩ := Bool.and_eq_true_iff.mp h
  rw [Instr.encodable_of_fields hf] at he
  simp only [Bool.and_eq_true, Option.isNone_iff_eq_none] at he
  obtain ⟨⟨⟨h0, h1⟩, h2⟩, hw⟩ := he
  exact (Instr.fields_inRange hl f hf).fits h0 h1 h2 hw

/-- The fields of a legal instruction decode to it. -/
theorem decodeFields_of_fields (h : i.legal = true) (hf : i.fields = some f) : decodeFields f = .ok i := by
  simp [decodeFields, i.build_fields h f hf, hf, h]

/-- The word of fields that fit, under an assigned opcode, decodes as those fields (R97, R110). -/
theorem decode_word (hop : opcodeAssigned f.op = true) (h : f.Fits) : decode f.word = decodeFields f := by
  have ho : (f.word.extractLsb' 0 8).toNat = f.op := by
    rw [Fields.word_op, BitVec.toNat_ofNat, Nat.mod_eq_of_lt h.op]
  have hx : f.op ≠ 0xF0 := (opcodeAssigned_lt hop).ne
  simp only [decode, ho, hx, hop, if_false, if_true, Fields.ofWord_word h]

theorem decode_ximmWord {sel : Nat} (h : sel < 4) (payload : BitVec 32) : decode (ximmWord sel payload) = .ok (.ximm sel payload) := by
  have op : (ximmWord sel payload).extractLsb' 0 8 = 0xF0#8 := (extract_low _ _ _ _ (by omega)).trans (extract_all _)
  have high : (ximmWord sel payload).extractLsb' 64 32 = 0#32 :=
    (extract_past _ _ _ _ (by omega)).trans ((extract_past _ _ _ _ (by omega)).trans ((extract_past _ _ _ _ (by omega)).trans
      (extract_high _ _)))
  have fixed : (ximmWord sel payload).extractLsb' 10 22 = 0b1100000000000000111100#22 :=
    (extract_past _ _ _ _ (by omega)).trans ((extract_past _ _ _ _ (by omega)).trans ((extract_low _ _ _ _ (by omega)).trans (extract_all _)))
  have hsel : (ximmWord sel payload).extractLsb' 8 2 = BitVec.ofNat 2 sel :=
    (extract_past _ _ _ _ (by omega)).trans ((extract_low _ _ _ _ (by omega)).trans (extract_all _))
  have hpay : (ximmWord sel payload).extractLsb' 32 32 = payload :=
    (extract_past _ _ _ _ (by omega)).trans ((extract_past _ _ _ _ (by omega)).trans ((extract_past _ _ _ _ (by omega)).trans
      ((extract_low _ _ _ _ (by omega)).trans (extract_all _))))
  simp [decode, decodeXimm, op, high, fixed, hsel, hpay, Nat.mod_eq_of_lt h]

theorem decode_unassigned {w : IWord} (h : Instr.legal (.unassignedOpcode w) = true) : decode w = .ok (.unassignedOpcode w) := by
  obtain ⟨ha, hx⟩ := Bool.and_eq_true_iff.mp h
  simp only [Bool.not_eq_true', bne_iff_ne] at ha hx
  simp only [decode, ha, hx, if_false, Bool.false_eq_true]

end word

/-- Settles O55: what the encoder writes, the decoder reads back field by field, and the fields of a legal instruction build it again. -/
theorem decodeEncode : Obligations.DecodeEncode := by
  unfold Obligations.DecodeEncode
  intro i h
  obtain ⟨hl, he⟩ := Bool.and_eq_true_iff.mp h
  cases hf : i.fields with
  | some f =>
    rw [encode_of_fields hf, decode_word (Instr.fields_inRange hl f hf).op (Fields.fits_of_wellFormed h hf), decodeFields_of_fields hl hf]
  | none =>
    unfold Instr.encodable at he
    split at he
    · exact decode_ximmWord (of_decide_eq_true hl) _
    · exact decode_unassigned hl
    · rw [hf] at he; cases he

/-- Settles O56: the decoder, run on each word. -/
theorem sampleWords : Obligations.SampleWords := by
  unfold Obligations.SampleWords
  decide

end Sys2Proof
end

section
/-! The end of an instruction that completes (spec/03 R89, R101, spec/05 R133, spec/27 R510): where its path stands then, and what its
result writes (spec/03 R98, R99, spec/05 R140). -/
namespace Sys2Proof.Machine

/-! ### Where the path stands -/

/-- The path `q` is `p` but for its place in the issue set (R133). -/
def Path.SameOutsideSet (p q : Path) : Prop := q = { p with inSet := q.inSet, units := q.units, since := q.since }

theorem Path.SameOutsideSet.refl (p : Path) : p.SameOutsideSet p := rfl

theorem Path.SameOutsideSet.trans {p q r : Path} (h : p.SameOutsideSet q) (h' : q.SameOutsideSet r) : p.SameOutsideSet r := by
  unfold Path.SameOutsideSet at *
  rw [h', h]

theorem Path.SameOutsideSet.keeps {α : Type} {p q : Path} (h : p.SameOutsideSet q) (π : Path → α)
    (hπ : ∀ (p : Path) b u n, π { p with inSet := b, units := u, since := n } = π p := by intros; rfl) : π q = π p :=
  (congrArg π h).trans (hπ ..)

theorem Warp.rotate_path (w : Warp) (i j cycle : Nat) : (w.path j).SameOutsideSet ((w.rotate i cycle).path j) := by
  unfold Warp.rotate
  split
  · by_cases hj : j = i
    · subst hj
      by_cases hl : j < w.paths.length
      · rw [Warp.path_setPath_same _ _ _ hl]
        rfl
      · simp [Warp.path, Warp.setPath, nth, hl, Path.SameOutsideSet]
    · rw [Warp.path_setPath_other _ _ _ _ hj]
      exact .refl _
  · exact .refl _

theorem Warp.rotate_path_other (w : Warp) (i cycle : Nat) {j : Nat} (hj : j ≠ i) : (w.rotate i cycle).path j = w.path j := by
  unfold Warp.rotate
  split
  · exact Warp.path_setPath_other _ _ _ _ hj
  · rfl

theorem Warp.rotate_eq (w : Warp) (i cycle : Nat) : w.rotate i cycle = { w with paths := (w.rotate i cycle).paths } := by
  unfold Warp.rotate
  split <;> rfl

section complete
variable (s : State) (c : Ctx) (w : Warp) (pl : Place)

/-- The completing path before it may leave the issue set. -/
def Path.completed (p : Path) (c : Ctx) (pl : Place) (cycle : Nat) : Path := ((p.took pl).goto c.nextPc false).issuedAt cycle

/-- The warp of a completed instruction. -/
def Warp.completed (cycle : Nat) : Warp :=
  { w.setPath c.pidx ((w.path c.pidx).completed c pl cycle) with retired := w.retired + 1 }.rotate c.pidx cycle

theorem State.complete_eq (hi : c.pidx < w.paths.length) : s.complete c w pl =
    { s with focus := none, warps := s.warps.put c.wid (w.completed c pl s.cycle)
             blocks := s.blocks.adjust c.bid fun b => { b with retired := b.retired + 1 } } := by
  unfold State.complete State.finish Warp.completed Path.completed
  rw [Warp.path_setPath_same _ _ _ hi]
  simp only [Warp.setPath, List.set_set]
  rfl

theorem Warp.completed_eq (cycle : Nat) : w.completed c pl cycle =
    { w with retired := w.retired + 1, paths := (w.completed c pl cycle).paths } := by
  rw [Warp.completed, Warp.rotate_eq]
  rfl

theorem Warp.completed_path (hi : c.pidx < w.paths.length) (cycle : Nat) :
    ((w.path c.pidx).completed c pl cycle).SameOutsideSet ((w.completed c pl cycle).path c.pidx) := by
  have h := Warp.path_setPath_same w c.pidx ((w.path c.pidx).completed c pl cycle) hi
  exact h ▸ Warp.rotate_path { w.setPath c.pidx ((w.path c.pidx).completed c pl cycle) with retired := w.retired + 1 } c.pidx c.pidx cycle

theorem Warp.completed_path_other (cycle : Nat) {i : Nat} (hi : i ≠ c.pidx) : (w.completed c pl cycle).path i = w.path i :=
  (Warp.rotate_path_other _ _ _ hi).trans (Warp.path_setPath_other w _ _ _ hi)

theorem Path.completed_line (p : Path) (cycle : Nat) :
    (p.completed c pl cycle).line = if pcLine c.nextPc = pcLine p.pc then p.line else none := by
  by_cases h : pcLine c.nextPc = pcLine p.pc <;> simp [Path.completed, Path.goto, Path.took, Path.issuedAt, h]

end complete

/-! ### What a result writes -/

theorem nth_laneIndices_map {α : Type} (f : Nat → α) (d : α) {l : Nat} (hl : l < 32) : nth (laneIndices.map f) l d = f l := by
  simp [nth, laneIndices, hl]

section vector
variable (w : Warp) {i k l : Nat}

/-- A window register's place in the allocation is its own (R144). -/
theorem Warp.vreg_place_inj (hi : i < w.n) (hk : k < w.n) : (w.wbase + i) % w.n = (w.wbase + k) % w.n ↔ i = k := by
  refine ⟨fun h => ?_, fun h => h ▸ rfl⟩
  have h' : i % w.n = k % w.n := Nat.ModEq.add_left_cancel' w.wbase h
  rwa [Nat.mod_eq_of_lt hi, Nat.mod_eq_of_lt hk] at h'

/-- A lane of a register after lanes of one are set. -/
theorem Warp.vreg_setVreg (hv : w.v.length = w.n) (f : Nat → Option Lane) (hi : i < w.n) (hk : k < w.n) (hl : l < 32) :
    laneOf ((w.setVreg i f).vreg k) l = if k = i then (f l).getD (laneOf (w.vreg k) l) else laneOf (w.vreg k) l := by
  have hlen : (w.wbase + i) % w.n < w.v.length := hv ▸ Nat.mod_lt _ (by omega)
  by_cases h : k = i
  · subst h
    simp [Warp.vreg, Warp.setVreg, modifyAt, laneOf, nth, hlen, laneIndices, hl]
  · have hp : (w.wbase + i) % w.n ≠ (w.wbase + k) % w.n := fun hp => h ((w.vreg_place_inj hi hk).1 hp).symm
    simp [Warp.vreg, Warp.setVreg, modifyAt, nth, h, hp]

/-- A lane of a register after a vector result is written (R99, R140). -/
theorem Warp.vreg_putVec (hv : w.v.length = w.n) (f : Fmt) (m : LaneMask) (x : Nat → Word) (hi : i + (if f.is64 then 1 else 0) < w.n)
    (hk : k < w.n) (hl : l < 32) : laneOf ((w.putVec f i m x).vreg k) l =
      if m.getLsbD l = true ∧ k = i then (x l).extractLsb' 0 32
      else if m.getLsbD l = true ∧ f.is64 = true ∧ k = i + 1 then (x l).extractLsb' 32 32
      else laneOf (w.vreg k) l := by
  have hw : (w.setVreg i fun l => if m.getLsbD l then some ((x l).extractLsb' 0 32) else none).v.length = w.n := by
    simpa [Warp.setVreg, modifyAt] using hv
  unfold Warp.putVec
  cases h64 : f.is64
  · rw [if_neg (by simp), Warp.vreg_setVreg w hv _ (by omega) hk hl]
    by_cases hki : k = i <;> cases hm : m.getLsbD l <;> simp [hki]
  · simp only [h64, if_true] at hi
    rw [if_pos rfl, Warp.vreg_setVreg _ hw _ hi hk hl, Warp.vreg_setVreg w hv _ (show i < w.n by omega) hk hl]
    by_cases hki : k = i <;> by_cases hki' : k = i + 1 <;> cases hm : m.getLsbD l <;> simp [hki, hki']

theorem Warp.putVec_eq (f : Fmt) (m : LaneMask) (x : Nat → Word) : w.putVec f i m x = { w with v := (w.putVec f i m x).v } := by
  unfold Warp.putVec
  split <;> rfl

theorem spanOf_of_ne_b128 {f : Fmt} (hf : f ≠ .b128) : spanOf f = 1 + if f.is64 then 1 else 0 := by
  cases f <;> first | rfl | exact absurd rfl hf


/-- A vector result (R99, R101, R140). -/
theorem vectorResult_spec (d : Dst) (f : Fmt) (m : LaneMask) (x : Nat → Word) (hv : w.v.length = w.n) (hd : d.idx + spanOf f ≤ w.n)
    (hf : f ≠ .b128) : ∃ v pl, vectorResult w d f m x = ({ w with v := v }, .vector pl)
      ∧ (d.wb = false → v = w.v)
      ∧ (d.wb = true → ∀ i l, i < w.n → l < 32 → laneOf (({ w with v := v } : Warp).vreg i) l =
          if m.getLsbD l = true ∧ i = d.idx then (x l).extractLsb' 0 32
          else if m.getLsbD l = true ∧ f.is64 = true ∧ i = d.idx + 1 then (x l).extractLsb' 32 32
          else laneOf (w.vreg i) l)
      ∧ ∀ l, l < 32 → atLane pl l = if m.getLsbD l then (if f.is64 then x l else ((x l).extractLsb' 0 32).zeroExtend 64)
          else if d.wb then atLane (({ w with v := v } : Warp).vecValue f d.idx) l else 0 := by
  rw [spanOf_of_ne_b128 hf] at hd
  cases hwb : d.wb with
  | false =>
    refine ⟨w.v, _, by simp only [vectorResult, hwb]; rfl, fun _ => rfl, nofun, fun l hl => ?_⟩
    simp only [atLane, nth_laneIndices_map _ _ hl, Bool.false_eq_true, if_false]
  | true =>
    refine ⟨(w.putVec f d.idx m x).v, _, by simp only [vectorResult, hwb, if_true]; rw [← Warp.putVec_eq], nofun, fun _ i l hi hl => ?_,
      fun l hl => ?_⟩
    · rw [← Warp.putVec_eq]
      exact w.vreg_putVec hv f m x (by omega) hi hl
    · rw [← Warp.putVec_eq]
      simp only [atLane, nth_laneIndices_map _ _ hl, if_true]

end vector

section scalars
variable (w : Warp) (d : Dst)

theorem scalarResult_spec (x : Word) (hd : d.idx < w.s.length) : ∃ v, scalarResult w d (some x) = ({ w with s := v }, .scalar x)
    ∧ ∀ i, nth v i 0 = if d.wb = true ∧ i = d.idx then x else w.sreg i := by
  cases hwb : d.wb with
  | false => exact ⟨w.s, by simp [scalarResult, hwb], fun i => by simp [Warp.sreg]⟩
  | true =>
    refine ⟨w.s.set d.idx x, by simp [scalarResult, hwb, Warp.setSreg], fun i => ?_⟩
    by_cases hi : i = d.idx
    · rw [hi, nth_set_same _ _ _ _ hd, if_pos ⟨rfl, rfl⟩]
    · rw [nth_set_other _ _ _ _ _ hi, if_neg fun h => hi h.2, Warp.sreg]

theorem addressResult_spec (x : AReg) (hd : d.idx < w.a.length) :
    ∃ v, addressResult w d (some x) = ({ w with a := v }, .address x.pointer x.base x.limit x.perm)
      ∧ ∀ i, nth v i AReg.zero = if d.wb = true ∧ i = d.idx then x else w.areg i := by
  cases hwb : d.wb with
  | false => exact ⟨w.a, by simp [addressResult, hwb, AReg.place], fun i => by simp [Warp.areg]⟩
  | true =>
    refine ⟨w.a.set d.idx x, by simp [addressResult, hwb, Warp.setAreg, AReg.place], fun i => ?_⟩
    by_cases hi : i = d.idx
    · rw [hi, nth_set_same _ _ _ _ hd, if_pos ⟨rfl, rfl⟩]
    · rw [nth_set_other _ _ _ _ _ hi, if_neg fun h => hi h.2, Warp.areg]

/-- Lane l of a mask blended from two. -/
theorem getLsbD_blend (m x y : LaneMask) (l : Nat) :
    ((x &&& m) ||| (y &&& ~~~m)).getLsbD l = if m.getLsbD l then x.getLsbD l else y.getLsbD l := by
  by_cases hl : l < 32
  · simp only [BitVec.getLsbD_or, BitVec.getLsbD_and, BitVec.getLsbD_not, hl]
    cases m.getLsbD l <;> simp
  · simp [BitVec.getLsbD_of_ge _ l (Nat.le_of_not_lt hl)]

theorem predicateResult_spec (m x : LaneMask) (hd : d.idx < w.p.length) : ∃ v pl, predicateResult w d m x = ({ w with p := v }, .predicate pl)
    ∧ (∀ i, i ≠ d.idx ∨ d.idx = 0 ∨ d.wb = false → nth v i 0 = w.preg i)
    ∧ (d.idx ≠ 0 → d.wb = true → ∀ l, (nth v d.idx 0).getLsbD l = if m.getLsbD l then x.getLsbD l else (w.preg d.idx).getLsbD l)
    ∧ ∀ l, pl.getLsbD l = if m.getLsbD l then x.getLsbD l else d.wb && (nth v d.idx 0).getLsbD l := by
  cases hwb : d.wb with
  | false =>
    refine ⟨w.p, _, by simp only [predicateResult, hwb]; rfl, fun _ _ => rfl, nofun, fun l => ?_⟩
    rw [getLsbD_blend]
    simp
  | true =>
    by_cases h0 : d.idx = 0
    · refine ⟨w.p, _, by simp only [predicateResult, hwb, h0]; rfl, fun _ _ => rfl, fun h => absurd h0 h, fun l => ?_⟩
      rw [getLsbD_blend]
      simp [h0, Warp.preg]
    · refine ⟨w.p.set d.idx ((w.preg d.idx &&& ~~~m) ||| (x &&& m)), _, by simp only [predicateResult, hwb, h0, Warp.setPreg]; rfl,
        fun i hi => nth_set_other _ _ _ _ _ (hi.resolve_right (by simp [h0])), fun _ _ l => ?_, fun l => ?_⟩
      · rw [nth_set_same _ _ _ _ hd, BitVec.or_comm, getLsbD_blend]
      · rw [nth_set_same _ _ _ _ hd, getLsbD_blend]
        simp

end scalars

/-- Settles O1, from the warp of a completed instruction and what each kind of result writes. -/
theorem completion : Obligations.Completion := by
  unfold Obligations.Completion
  refine ⟨fun s c w pl hi => ?_, fun w d f m x hv hd hf => vectorResult_spec w d f m x hv hd hf, scalarResult_spec, fun _ _ => rfl,
    addressResult_spec, fun _ _ => rfl, predicateResult_spec⟩
  have hp := Warp.completed_path c w pl hi s.cycle
  refine ⟨w.completed c pl s.cycle, s.complete_eq c w pl hi, w.completed_eq c pl s.cycle, ?_⟩
  exact ⟨hp.keeps Path.pc, hp.keeps Path.window, hp.keeps Path.last, (hp.keeps Path.line).trans (Path.completed_line c pl _ _),
    hp.keeps Path.mask, hp.keeps Path.entry, hp.keeps Path.state, hp.keeps Path.await, hp.keeps Path.arrived,
    fun i h => w.completed_path_other c pl s.cycle h⟩

end Sys2Proof.Machine
end

section
/-! The checks of operands before an instruction acts (spec/03 R102, R103, spec/05 R143), and the compare under shadow issue (spec/05 R138,
R139, spec/28 R538). -/
namespace Sys2Proof.Machine

/-! ### Checks in a row -/

section row
variable {α ε : Type} {f : α → Except ε Unit}

/-- Checks in a row pass together, or end as one of them does. -/
theorem forM_except_cases (f : α → Except ε Unit) (l : List α) :
    (l.forM f = .ok () ∧ ∀ x ∈ l, f x = .ok ()) ∨ ∃ x ∈ l, ∃ e, f x = .error e ∧ l.forM f = .error e := by
  induction l with
  | nil => exact .inl ⟨rfl, nofun⟩
  | cons x r ih =>
    cases hx : f x with
    | error e => exact .inr ⟨x, List.mem_cons_self, e, hx, by simp [List.forM_cons, hx]; rfl⟩
    | ok u =>
      have hr : (x :: r).forM f = r.forM f := by simp [List.forM_cons, hx]; rfl
      rw [hr]
      refine ih.imp (fun ⟨h, hall⟩ => ⟨h, ?_⟩) fun ⟨y, hy, e, he⟩ => ⟨y, List.mem_cons_of_mem _ hy, e, he⟩
      exact fun y hy => (List.mem_cons.1 hy).elim (fun h => h ▸ hx) (hall y)

theorem forM_except_iff (l : List α) : l.forM f = .ok () ↔ ∀ x ∈ l, f x = .ok () := by
  rcases forM_except_cases f l with ⟨h, hall⟩ | ⟨x, hx, e, he, h⟩
  · exact ⟨fun _ => hall, fun _ => h⟩
  · rw [h]
    exact ⟨nofun, fun hall => he.symm.trans (hall x hx)⟩

/-- Checks in a row end at the first that fails. -/
theorem forM_except_first {before after : List α} {x : α} {e : ε} (hb : ∀ y ∈ before, f y = .ok ()) (hx : f x = .error e) :
    (before ++ x :: after).forM f = .error e := by
  induction before with
  | nil => simp [List.forM_cons, hx]; rfl
  | cons y r ih =>
    have hy : f y = .ok () := hb y List.mem_cons_self
    have step : (y :: r ++ x :: after).forM f = (r ++ x :: after).forM f := by simp [List.forM_cons, hy]; rfl
    exact step.trans (ih fun z hz => hb z (List.mem_cons_of_mem _ hz))

end row

/-! ### Latch reads (R102) -/

/-- Which places serve an operand: of its class, a scalar place also a vector operand. -/
def Want.Fits (x : Want) (pl : Place) : Prop := match x, pl with
  | .vec _, .vector _ => True | .vec _, .scalar _ => True | .sca, .scalar _ => True | .pred, .predicate _ => True | _, _ => False

/-- The place a latch source names, none where the window has no such place. -/
def Path.latchPlace (p : Path) (k : Nat) : Place := (nth p.window (k - 1) none).getD .none

/-- A latch source names a place that serves. -/
def Path.Serves (p : Path) (x : Want × Src) : Prop := ∀ k, x.2 = .latch k → x.1.Fits (p.latchPlace k)

section latch
variable {p : Path} {lanes : LaneMask} {x : Want × Src}

theorem latchOk_of_serves (h : p.Serves x) : latchOk p lanes x.1 x.2 = .ok () := by
  obtain ⟨want, src⟩ := x
  cases src with
  | latch k =>
    have hk := h k rfl
    simp only [latchOk, Path.place, Path.latchPlace] at hk ⊢
    cases hpl : nth p.window (k - 1) none with
    | none => simp [hpl, Want.Fits] at hk
    | some pl => cases pl <;> cases want <;> simp_all [Want.Fits]
  | _ => rfl

theorem latchOk_of_not_fits {k : Nat} (hx : x.2 = .latch k) (h : ¬x.1.Fits (p.latchPlace k)) : latchOk p lanes x.1 x.2 =
    .error (.trap ⟨0x01, if p.latchPlace k = .none then 0x01 else 0x02, 0, lanes⟩) := by
  obtain ⟨want, src⟩ := x
  subst hx
  obtain ⟨place, hpl⟩ : ∃ place, nth p.window (k - 1) none = place := ⟨_, rfl⟩
  simp only [latchOk, Path.place, Path.latchPlace, hpl] at h ⊢
  cases place with
  | none => simp [raise]
  | some pl => cases pl <;> cases want <;> simp_all [Want.Fits, raise]

theorem latchOk_iff : latchOk p lanes x.1 x.2 = .ok () ↔ p.Serves x := by
  refine ⟨fun h k hk => ?_, latchOk_of_serves⟩
  by_contra hf
  rw [latchOk_of_not_fits hk hf] at h
  cases h

end latch

/-! ### Register bounds (R143) -/

/-- A vector operand's registers stand below W. -/
def Warp.Holds (w : Warp) (f : Fmt) (i : Nat) : Prop := i + spanOf f ≤ w.width

/-- The registers a vector destination and the register-kind vector sources name stand below W. -/
def Warp.HoldsOperands (w : Warp) (d : Dst) (df : Fmt) (srcs : List (Want × Src)) : Prop :=
  (d.cls = .vector → d.wb = true → w.Holds df d.idx) ∧ ∀ f i, (Want.vec f, Src.reg i) ∈ srcs → w.Holds f i

section bounds
variable {w : Warp} {lanes : LaneMask} {d : Dst} {df : Fmt} {srcs : List (Want × Src)}

theorem checkBound_of_holds {f : Fmt} {i : Nat} (h : w.Holds f i) : checkBound w lanes f i = .ok () := if_pos h

theorem checkBound_of_not_holds {f : Fmt} {i : Nat} (h : ¬w.Holds f i) :
    checkBound w lanes f i = .error (.trap ⟨0x15, 0x00, BitVec.ofNat 64 i, lanes⟩) := if_neg h

/-- The bound of a source fails only where a register-kind vector source stands outside. -/
theorem checkSrcBound_cases (x : Want × Src) : checkSrcBound w lanes x = .ok () ∧ (∀ f i, x = (Want.vec f, Src.reg i) → w.Holds f i) ∨
    ∃ f i, x = (Want.vec f, Src.reg i) ∧ ¬w.Holds f i
      ∧ checkSrcBound w lanes x = .error (.trap ⟨0x15, 0x00, BitVec.ofNat 64 i, lanes⟩) := by
  match x with
  | (.vec f, .reg i) =>
    by_cases h : w.Holds f i
    · exact .inl ⟨checkBound_of_holds h, by rintro _ _ ⟨⟩; exact h⟩
    · exact .inr ⟨f, i, rfl, h, checkBound_of_not_holds h⟩
  | (.vec _, .latch _) | (.vec _, .bcast _) | (.vec _, .imm _) | (.sca, _) | (.pred, _) => exact .inl ⟨rfl, nofun⟩

/-- The bounds of an instruction's operands. -/
theorem checkBounds_cases : ((do checkDstBound w lanes df d; srcs.forM (checkSrcBound w lanes)) = .ok () ∧ w.HoldsOperands d df srcs) ∨
    ∃ i : Nat, ¬w.HoldsOperands d df srcs ∧
      (do checkDstBound w lanes df d; srcs.forM (checkSrcBound w lanes)) = .error (.trap ⟨0x15, 0x00, BitVec.ofNat 64 i, lanes⟩) := by
  by_cases hd : d.cls = .vector ∧ d.wb = true ∧ ¬w.Holds df d.idx
  · obtain ⟨hc, hw, hn⟩ := hd
    refine .inr ⟨d.idx, fun h => hn (h.1 hc hw), ?_⟩
    rw [checkDstBound, if_pos ⟨hc, hw⟩, checkBound_of_not_holds hn]
    rfl
  · have hok : checkDstBound w lanes df d = .ok () := by
      unfold checkDstBound
      split
      · exact checkBound_of_holds (by tauto)
      · rfl
    have hrun : (do checkDstBound w lanes df d; srcs.forM (checkSrcBound w lanes)) = srcs.forM (checkSrcBound w lanes) := by
      rw [hok]
      rfl
    rw [hrun]
    rcases forM_except_cases (checkSrcBound w lanes) srcs with ⟨h, hall⟩ | ⟨x, hx, e, he, h⟩
    · refine .inl ⟨h, fun hc hw => by tauto, fun f i hm => ?_⟩
      rcases checkSrcBound_cases (lanes := lanes) (Want.vec f, Src.reg i) with ⟨-, hi⟩ | ⟨_, _, _, -, hi⟩
      · exact hi f i rfl
      · exact nomatch hi.symm.trans (hall _ hm)
    · rcases checkSrcBound_cases (w := w) (lanes := lanes) x with ⟨hi, -⟩ | ⟨f, i, rfl, hn, hi⟩
      · exact nomatch hi.symm.trans he
      · exact .inr ⟨i, fun hb => hn (hb.2 f i hx), h.trans (he.symm.trans hi)⟩

end bounds

/-! ### The checks of an instruction (R103, R111) -/

section operands
variable {c : Ctx} {g : Guard} {d : Dst} {df : Fmt} {srcs : List (Want × Src)}

theorem checkLatch_ok_iff (x : Want × Src) : checkLatch c g x.1 x.2 = .ok () ↔ (g.never = false → c.p.Serves x) := by
  cases hg : g.never <;> simp [checkLatch, hg, latchOk_iff]

theorem checkOperands_eq : checkOperands c g d df srcs = (do
    srcs.forM fun x => checkLatch c g x.1 x.2
    if c.act g ≠ 0 then do checkDstBound c.w (c.act g) df d; srcs.forM (checkSrcBound c.w (c.act g)) else pure ()) := rfl

theorem checkOperands_of_latches (h : srcs.forM (fun x => checkLatch c g x.1 x.2) = .ok ()) : checkOperands c g d df srcs =
    if c.act g ≠ 0 then do checkDstBound c.w (c.act g) df d; srcs.forM (checkSrcBound c.w (c.act g)) else pure () := by
  rw [checkOperands_eq, h]
  rfl

/-- Which operands pass. -/
theorem checkOperands_ok_iff : checkOperands c g d df srcs = .ok () ↔
    (g.never = false → ∀ x ∈ srcs, c.p.Serves x) ∧ (c.act g ≠ 0 → c.w.HoldsOperands d df srcs) := by
  rcases forM_except_cases (fun x => checkLatch c g x.1 x.2) srcs with ⟨h, hall⟩ | ⟨x, hx, e, he, h⟩
  · have hl : g.never = false → ∀ x ∈ srcs, c.p.Serves x := fun hg x hx => (checkLatch_ok_iff x).1 (hall x hx) hg
    rw [checkOperands_of_latches h]
    by_cases ha : c.act g ≠ 0
    · rw [if_pos ha]
      rcases checkBounds_cases (w := c.w) (lanes := c.act g) (d := d) (df := df) (srcs := srcs) with ⟨hb, hh⟩ | ⟨i, hn, hb⟩
      · exact ⟨fun _ => ⟨hl, fun _ => hh⟩, fun _ => hb⟩
      · rw [hb]
        exact ⟨nofun, fun hh => absurd (hh.2 ha) hn⟩
    · rw [if_neg ha]
      exact ⟨fun _ => ⟨hl, fun h => absurd h ha⟩, fun _ => rfl⟩
  · rw [checkOperands_eq, h]
    refine ⟨nofun, fun hh => ?_⟩
    exact nomatch he.symm.trans ((checkLatch_ok_iff x).2 fun hg => hh.1 hg x hx)

theorem checkOperands_of_latch {before after : List (Want × Src)} {x : Want × Src} {k : Nat} (hg : g.never = false)
    (hb : ∀ y ∈ before, c.p.Serves y) (hx : x.2 = .latch k) (hn : ¬x.1.Fits (c.p.latchPlace k)) :
    checkOperands c g d df (before ++ x :: after) =
      .error (.trap ⟨0x01, if c.p.latchPlace k = .none then 0x01 else 0x02, 0, c.act g⟩) := by
  have hlatch : checkLatch c g x.1 x.2 = .error (.trap ⟨0x01, if c.p.latchPlace k = .none then 0x01 else 0x02, 0, c.act g⟩) := by
    rw [checkLatch, hg]
    exact latchOk_of_not_fits hx hn
  have hrow := forM_except_first (f := fun x : Want × Src => checkLatch c g x.1 x.2) (after := after)
    (fun y hy => (checkLatch_ok_iff y).2 fun _ => hb y hy) hlatch
  rw [checkOperands_eq, hrow]
  rfl

theorem checkOperands_of_bound (hl : ∀ x ∈ srcs, c.p.Serves x) (ha : c.act g ≠ 0) (hn : ¬c.w.HoldsOperands d df srcs) :
    ∃ i : Nat, checkOperands c g d df srcs = .error (.trap ⟨0x15, 0x00, BitVec.ofNat 64 i, c.act g⟩) := by
  have hrow : srcs.forM (fun x => checkLatch c g x.1 x.2) = .ok () :=
    (forM_except_iff srcs).2 fun x hx => (checkLatch_ok_iff x).2 fun _ => hl x hx
  rw [checkOperands_of_latches hrow, if_pos ha]
  rcases checkBounds_cases (w := c.w) (lanes := c.act g) (d := d) (df := df) (srcs := srcs) with ⟨-, hh⟩ | ⟨i, -, hb⟩
  · exact absurd hh hn
  · exact ⟨i, hb⟩

end operands

/-! ### The compare under shadow issue -/

section shadow
variable {s : State} {c : Ctx} {lanes : LaneMask}

theorem shadowCompare_agrees (h : c.la.shadow = false ∨ s.upset.1 &&& lanes = 0) : shadowCompare s c lanes = .ok s :=
  if_pos (by simpa using h)

theorem shadowCompare_corrects (hs : c.la.shadow = true) (h1 : s.upset.1 &&& lanes ≠ 0) (h2 : s.upset.2 &&& lanes = 0) :
    shadowCompare s c lanes = .ok { s.reissueSlot (quarterOf c.wid) with
      upset := (0, 0)
      correctedCompute := s.correctedCompute.put (quarterOf c.wid) (s.correctedCompute.getD (quarterOf c.wid) 0 + 1) } := by
  rw [shadowCompare, if_neg (by simpa [hs] using h1), if_pos h2]

theorem shadowCompare_traps (hs : c.la.shadow = true) (h1 : s.upset.1 &&& lanes ≠ 0) (h2 : s.upset.2 &&& lanes ≠ 0) :
    shadowCompare s c lanes = .error (.trap ⟨0x50, 0x00, 0, s.upset.2 &&& lanes⟩) := by
  rw [shadowCompare, if_neg (by simpa [hs] using h1), if_neg h2]
  rfl

/-- A vector instruction whose operands pass ends in the trap its compare raises. -/
theorem laneWise_of_compare {o : Alu} {df fa fb fc : Fmt} {t : Trap} (h : Issues s c)
    (hc : checkOperands c o.g o.d df (o.vecSrcs fa fb fc) = .ok ()) (ht : shadowCompare s c (c.act o.g) = .error (.trap t))
    (f : Ctx → Nat → Nat → Word → Word → Word → Word × BitVec 5) :
    laneWise s o df fa fb fc .rne f = .next (s.takeTrap c.wid c.pidx t (unitOf c.p c.pre)) := by
  refine run_trap h ?_
  have hcount : srCount s c (c.act o.g) .rne = .ok (s, c.w.srcnt.toNat) := if_neg (by simp)
  rw [Alu.vecSrcs] at hc
  simp only [bind, Except.bind, hc, hcount, ht]

theorem laneValues_of_compare {o : Alu} {df fa fb fc : Fmt} {t : Trap} (h : Issues s c)
    (hc : checkOperands c o.g o.d df (o.vecSrcs fa fb fc) = .ok ()) (ht : shadowCompare s c (c.act o.g) = .error (.trap t))
    (f : Word → Word → Word → Word) :
    laneValues s o df fa fb fc f = .next (s.takeTrap c.wid c.pidx t (unitOf c.p c.pre)) := by
  refine run_trap h ?_
  rw [Alu.vecSrcs] at hc
  simp only [bind, Except.bind, hc, ht]

end shadow

/-- The bound of the statement, written by formats, is the model's span. -/
theorem Warp.holds_iff (w : Warp) (f : Fmt) (i : Nat) :
    w.Holds f i ↔ i + (if f = .b128 then 4 else if f = .i64 ∨ f = .f64 then 2 else 1) ≤ min 32 w.n := by
  cases f <;> rfl

/-- Settles O2: the checks pass or end at the first that fails, and the compare has three outcomes. -/
theorem operandAndShadowChecks : Obligations.OperandAndShadowChecks := by
  unfold Obligations.OperandAndShadowChecks
  refine ⟨fun c g d df srcs => ?_, fun s c lanes => ⟨shadowCompare_agrees, fun hs h1 h2 => ?_, shadowCompare_traps⟩, ?_⟩
  · simp only [← Warp.holds_iff]
    exact ⟨checkOperands_ok_iff, fun before x after k hg hsrcs hb hx hn => hsrcs ▸ checkOperands_of_latch hg hb hx hn,
      checkOperands_of_bound⟩
  · exact ⟨_, shadowCompare_corrects hs h1 h2, rfl, rfl, rfl, rfl⟩
  · intro s c o h hc hs h1 h2 i hi
    have ht := shadowCompare_traps hs h1 h2
    simp only [List.mem_cons, List.not_mem_nil, or_false] at hi
    rcases hi with rfl | rfl | rfl | rfl | rfl
    · change execIadd o s = _
      unfold execIadd intVec
      exact laneValues_of_compare h hc ht _
    · change execImul o s = _
      unfold execImul intVec
      exact laneValues_of_compare h hc ht _
    · change execAnd o s = _
      unfold execAnd logicVec
      exact laneValues_of_compare h hc ht _
    · change execShl o s = _
      unfold execShl bitVec
      exact laneValues_of_compare h hc ht _
    · change execFabs o s = _
      unfold execFabs signVec
      exact laneWise_of_compare h hc ht _

end Sys2Proof.Machine
end

section
/-! What governs a unit and how a line comes to a path (spec/03 R89 to R91, R106, R108): `ximm`, and the fetch of a line. -/
namespace Sys2Proof.Machine

/-! ### The word before a governed one (R106, R108) -/

section ximm
variable {s : State} {c : Ctx} {sel : Nat} {payload : BitVec 32}

theorem execXimm_of_path (h : Issues s c) : execXimm sel payload s = s.run fun c =>
    if pcSlot c.p.pc = 4 then raise 0x01 0x03 c.p.mask
    else match decodeGoverned sel payload c.governed with
      | .misuse => raise 0x01 0x03 c.p.mask
      | _ => .ok { s with focus := some (.path c.wid c.pidx (some (sel, payload))) } := by
  unfold execXimm
  rw [h.1] <;> rfl

theorem exec_ximm_misused (h : Issues s c) (hm : pcSlot c.p.pc = 4 ∨ decodeGoverned sel payload c.governed = .misuse) :
    exec (.ximm sel payload) s = .next (s.takeTrap c.wid c.pidx ⟨0x01, 0x03, 0, c.p.mask⟩ (unitOf c.p c.pre)) := by
  change execXimm sel payload s = _
  rw [execXimm_of_path h]
  refine run_trap h ?_
  by_cases h4 : pcSlot c.p.pc = 4
  · rw [if_pos h4]
    rfl
  · rw [if_neg h4, hm.resolve_left h4]
    rfl

theorem exec_ximm_governs (h : Issues s c) (h4 : pcSlot c.p.pc ≠ 4) (hm : decodeGoverned sel payload c.governed ≠ .misuse) :
    exec (.ximm sel payload) s = .next { s with focus := some (.path c.wid c.pidx (some (sel, payload))) } := by
  change execXimm sel payload s = _
  rw [execXimm_of_path h]
  refine run_ok h ?_
  rw [if_neg h4]
  split
  · next hd => exact absurd hd hm
  · rfl

end ximm

/-! ### A line fetched (R90) -/

section fetch
variable {s : State} {e : Env} {core addr : Nat} {who : Outstanding}

/-- A translation leaves the marks of a refetch. -/
theorem State.translated_fetch (s : State) (e : Env) (addrs : List Nat) :
    (s.translated e addrs).fetchUpset = s.fetchUpset ∧ (s.translated e addrs).correctedFetch = s.correctedFetch := by
  refine List.foldlRecOn (motive := fun t : State => t.fetchUpset = s.fetchUpset ∧ t.correctedFetch = s.correctedFetch) addrs _ ⟨rfl, rfl⟩
    fun t ht a _ => ?_
  dsimp only
  split
  · exact ht
  · split
    · exact ht
    · split
      · exact ht
      · unfold State.cachePage
        split <;> exact ht

/-- The state in which a line has come in: it counts the refetch that its first read may have needed. -/
def State.fetched (s : State) (e : Env) (core addr : Nat) : State := (s.corrected core).translated e [addr]

theorem State.corrected_sameWork (s : State) (core : Nat) : s.SameWork (s.corrected core) :=
  State.sameWork_ite ⟨rfl, rfl, rfl, rfl, rfl, rfl, rfl⟩ (.refl s)

theorem State.fetched_sameWork (s : State) (e : Env) (core addr : Nat) : s.SameWork (s.fetched e core addr) :=
  (s.corrected_sameWork core).trans (State.translated_sameWork _ _ _)

theorem State.fetched_mem (s : State) (e : Env) (core addr : Nat) : (s.fetched e core addr).mem = s.mem := by simp [State.fetched]

theorem State.fetched_fetchUpset (s : State) (e : Env) (core addr : Nat) : (s.fetched e core addr).fetchUpset = false := by
  refine (State.translated_fetch _ _ _).1.trans ?_
  unfold State.corrected
  split
  · rfl
  · next h => exact eq_false_of_ne_true h

theorem State.fetched_count (s : State) (e : Env) (core addr : Nat) :
    (s.fetched e core addr).correctedFetch.getD core 0 = s.correctedFetch.getD core 0 + s.fetchUpset.toNat := by
  rw [State.fetched, (State.translated_fetch _ _ _).2, State.corrected]
  cases h : s.fetchUpset <;> simp [NMap.getD]

theorem State.fetchLine_of_fault {ps : List Piece} {sub : Nat} (hp : s.linePieces e addr = .ok ps) (hh : ∃ p ∈ ps, p.host.isSome = true)
    (hf : s.portFault who = some sub) :
    s.fetchLine e core who addr = (s.faultMet who, .error (0x51, if sub = 0 then 1 else sub, BitVec.ofNat 64 addr)) := by
  have hany : ps.any (·.host.isSome) = true := List.any_eq_true.2 hh
  simp only [State.fetchLine, hp, hany, if_true, hf]

/-- A fetch with no error behind a host port ends as reading the line does. -/
theorem State.fetchLine_of_read (hf : s.portFault who = none) :
    s.fetchLine e core who addr = (s, s.readLine e addr) ∨ s.fetchLine e core who addr = (s.fetched e core addr, s.readLine e addr) := by
  unfold State.fetchLine State.readLine
  cases hp : s.linePieces e addr with
  | error f => exact .inl rfl
  | ok ps =>
    have hnone : (if ps.any (·.host.isSome) then s.portFault who else none) = none := by simp [hf]
    simp only [hnone]
    cases hl : s.lineIn addr ps with
    | error f => exact .inl (by simp only [bind, Except.bind, hl])
    | ok l => exact .inr (by simp only [bind, Except.bind, hl]; rfl)

theorem State.fetchLine_of_line {l : Line} (hf : s.portFault who = none) (hr : s.readLine e addr = .ok l) :
    s.fetchLine e core who addr = (s.fetched e core addr, .ok l) := by
  unfold State.readLine at hr
  cases hp : s.linePieces e addr with
  | error f => simp [hp, bind, Except.bind] at hr
  | ok ps =>
    cases hl : s.lineIn addr ps with
    | error f => simp [hp, hl, bind, Except.bind] at hr
    | ok l' =>
      have hnone : (if ps.any (·.host.isSome) then s.portFault who else none) = none := by simp [hf]
      simp only [hp, hl, bind, Except.bind] at hr
      simp only [State.fetchLine, hp, hnone, hl, hr]
      rfl

end fetch

/-! ### A path enters its line (R89, R91, R94) -/

section line
variable {s : State} {wid i : Nat} {c : Ctx}

/-- A path that may fetch: it issues, has no line, and its block runs. -/
structure MayFetch (s : State) (wid i : Nat) (c : Ctx) : Prop where
  ctx   : s.ctx? wid i none = some c
  line  : c.p.line = none
  issue : s.mayIssue c.bid = true

/-- The trap of a fetch, from a state `t` whose memory, warps and partitions are those of `s`. -/
def FetchRefused (s : State) (wid i : Nat) (c : Ctx) (f : PcFault) : Prop :=
  ∃ t : State, t.mem = s.mem ∧ t.warps = s.warps ∧ t.parts = s.parts
    ∧ exec (.lineFetch wid i) s = .next { t.takeTrap wid i ⟨f.1, f.2.1, f.2.2, c.p.mask⟩ (unitOf c.p none) with focus := s.focus }

theorem MayFetch.names (h : MayFetch s wid i c) : c.wid = wid ∧ c.pidx = i ∧ s.warps.get? wid = some c.w ∧ c.p = c.w.path i := by
  obtain ⟨hw, hp, -, hget, hpath, -⟩ := ctxOf_eq_some (Option.filter_eq_some_iff.1 h.ctx).1
  exact ⟨hw, hp, hget, hpath⟩

theorem exec_lineFetch (h : MayFetch s wid i c) : exec (.lineFetch wid i) s = match s.enterLine c with
    | (t, none) => .next t
    | (t, some f) => .next { t.entryTrap c f with focus := s.focus } := by
  change execLineFetch wid i s = _
  simp only [execLineFetch, h.ctx, h.line, h.issue, Option.isSome_none, Bool.not_true, Bool.or_self, Bool.false_eq_true, if_false]
    <;> rfl

theorem MayFetch.refused (h : MayFetch s wid i c) {t : State} {f : PcFault} (he : s.enterLine c = (t, some f)) (hm : t.mem = s.mem)
    (hw : t.warps = s.warps) (hp : t.parts = s.parts) : FetchRefused s wid i c f := by
  obtain ⟨rfl, rfl, -, -⟩ := h.names
  refine ⟨t, hm, hw, hp, ?_⟩
  rw [exec_lineFetch h, he]
  rfl

theorem State.enterLine_of_badPc {f : PcFault} (hc : checkPc c.p.pc = .error f) : s.enterLine c = (s, some f) := by
  simp only [State.enterLine, hc]

theorem State.enterLine_of_fetch {t : State} {f : PcFault} (hc : checkPc c.p.pc = .ok ())
    (hf : s.fetchLine c.env (coreOf c.wid) (.fetch c.wid c.pidx) (pcLineAddr c.p.pc) = (t, .error f)) : s.enterLine c = (t, some f) := by
  simp only [State.enterLine, hc, hf]

theorem State.enterLine_of_line {t : State} {l : Line} (hc : checkPc c.p.pc = .ok ())
    (hf : s.fetchLine c.env (coreOf c.wid) (.fetch c.wid c.pidx) (pcLineAddr c.p.pc) = (t, .ok l)) : s.enterLine c =
      if c.p.entering = true ∧ ¬(pcSlot c.p.pc = 0 ∧ l.target 0 = true) then (t, some (0x03, 0, c.p.pc))
      else (t.setPath c.wid c.pidx fun p => { p with line := some l }, none) := by
  simp only [State.enterLine, hc, hf]
  refine if_congr ?_ rfl rfl
  simp only [Bool.and_eq_true, Bool.not_eq_true', Bool.and_eq_false_iff, beq_eq_false_iff_ne, not_and_or, ne_eq, Bool.not_eq_true]

theorem MayFetch.of_badPc (h : MayFetch s wid i c) {f : PcFault} (hc : checkPc c.p.pc = .error f) : FetchRefused s wid i c f :=
  h.refused (State.enterLine_of_badPc hc) rfl rfl rfl

theorem MayFetch.of_fault (h : MayFetch s wid i c) {ps : List Piece} {sub : Nat} (hc : checkPc c.p.pc = .ok ())
    (hp : s.linePieces c.env (pcLineAddr c.p.pc) = .ok ps) (hh : ∃ p ∈ ps, p.host.isSome = true)
    (hf : s.portFault (.fetch wid i) = some sub) :
    FetchRefused s wid i c (0x51, if sub = 0 then 1 else sub, BitVec.ofNat 64 (pcLineAddr c.p.pc)) := by
  obtain ⟨rfl, rfl, -, -⟩ := h.names
  exact h.refused (State.enterLine_of_fetch hc (State.fetchLine_of_fault hp hh hf)) rfl rfl rfl

theorem MayFetch.of_badLine (h : MayFetch s wid i c) {f : PcFault} (hc : checkPc c.p.pc = .ok ()) (hf : s.portFault (.fetch wid i) = none)
    (hr : s.readLine c.env (pcLineAddr c.p.pc) = .error f) : FetchRefused s wid i c f := by
  obtain ⟨rfl, rfl, -, -⟩ := h.names
  rcases State.fetchLine_of_read (core := coreOf c.wid) (e := c.env) (addr := pcLineAddr c.p.pc) hf with hl | hl
  · exact h.refused (State.enterLine_of_fetch hc (hl.trans (by rw [hr]))) rfl rfl rfl
  · have ht := s.fetched_sameWork c.env (coreOf c.wid) (pcLineAddr c.p.pc)
    exact h.refused (State.enterLine_of_fetch hc (hl.trans (by rw [hr]))) (s.fetched_mem ..) ht.warps ht.parts

theorem MayFetch.of_noTarget (h : MayFetch s wid i c) {l : Line} (hc : checkPc c.p.pc = .ok ()) (hf : s.portFault (.fetch wid i) = none)
    (hr : s.readLine c.env (pcLineAddr c.p.pc) = .ok l) (he : c.p.entering = true) (ht : ¬(pcSlot c.p.pc = 0 ∧ l.target 0 = true)) :
    FetchRefused s wid i c (0x03, 0, c.p.pc) := by
  obtain ⟨rfl, rfl, -, -⟩ := h.names
  have hs := s.fetched_sameWork c.env (coreOf c.wid) (pcLineAddr c.p.pc)
  exact h.refused ((State.enterLine_of_line hc (State.fetchLine_of_line hf hr)).trans (if_pos ⟨he, ht⟩)) (s.fetched_mem ..) hs.warps hs.parts

/-- A line that passes stands in the path, and nothing else of its warp changes. -/
theorem MayFetch.of_line (h : MayFetch s wid i c) {l : Line} (hi : i < c.w.paths.length) (hc : checkPc c.p.pc = .ok ())
    (hf : s.portFault (.fetch wid i) = none) (hr : s.readLine c.env (pcLineAddr c.p.pc) = .ok l)
    (ht : c.p.entering = false ∨ (pcSlot c.p.pc = 0 ∧ l.target 0 = true)) :
    ∃ t v, exec (.lineFetch wid i) s = .next t ∧ t.mem = s.mem ∧ t.fetchUpset = false ∧ t.warps.get? wid = some v
      ∧ v.path i = { c.w.path i with line := some l } ∧ (∀ j, j ≠ i → v.path j = c.w.path j) ∧ v.s = c.w.s ∧ v.v = c.w.v
      ∧ v.p = c.w.p ∧ t.correctedFetch.getD (wid / 64) 0 = s.correctedFetch.getD (wid / 64) 0 + s.fetchUpset.toNat := by
  obtain ⟨rfl, rfl, hw, -⟩ := h.names
  have hs := s.fetched_sameWork c.env (coreOf c.wid) (pcLineAddr c.p.pc)
  have he := (State.enterLine_of_line hc (State.fetchLine_of_line hf hr)).trans (if_neg fun hn => ht.elim (by simp [hn.1]) hn.2)
  refine ⟨(s.fetched c.env (coreOf c.wid) (pcLineAddr c.p.pc)).setPath c.wid c.pidx fun p => { p with line := some l },
    c.w.setPath c.pidx { c.w.path c.pidx with line := some l }, by rw [exec_lineFetch h, he], s.fetched_mem .., s.fetched_fetchUpset ..,
    ?_, Warp.path_setPath_same _ _ _ hi, fun j hj => Warp.path_setPath_other _ _ _ _ hj, rfl, rfl, rfl, s.fetched_count ..⟩
  rw [State.setPath_warps, NMap.get?_adjust, if_pos rfl, hs.warps, hw]
  rfl

end line
end Sys2Proof.Machine
end

section
/-! The issue set of a warp (spec/05 R133): paths that have issued 64 units leave it, and the path that has stood outside longest takes a
free place. The selections of the scheduler and of the register pool are walks that keep a best element, and share one rule. -/
namespace Sys2Proof.Machine

/-! ### The best element of a list -/

section picks
variable {α : Type} {f : Option α → α → Option α} {le : α → α → Prop}

/-- The step of a walk that keeps the better of its best element and the next one. -/
structure Picks (f : Option α → α → Option α) (le : α → α → Prop) : Prop where
  start : ∀ x, f none x = some x
  step  : ∀ b x, (f (some b) x = some b ∧ le b x) ∨ (f (some b) x = some x ∧ le x b)
  trans : ∀ {a b c}, le a b → le b c → le a c

theorem Picks.refl (h : Picks f le) (x : α) : le x x := (h.step x x).elim (·.2) (·.2)

theorem Picks.foldl_some (h : Picks f le) (l : List α) (b : α) :
    ∃ r ∈ b :: l, l.foldl f (some b) = some r ∧ ∀ y ∈ b :: l, le r y := by
  induction l generalizing b with
  | nil => exact ⟨b, List.mem_singleton_self b, rfl, by simpa using h.refl b⟩
  | cons x l ih =>
    obtain ⟨hf, hle⟩ | ⟨hf, hle⟩ := h.step b x
    · obtain ⟨r, hr, hfold, hbest⟩ := ih b
      have hrb := hbest b (List.mem_cons_self ..)
      refine ⟨r, by grind, by rw [List.foldl_cons, hf, hfold], fun y hy => ?_⟩
      rcases List.mem_cons.1 hy with rfl | hy
      · exact hrb
      · rcases List.mem_cons.1 hy with rfl | hy
        · exact h.trans hrb hle
        · exact hbest y (List.mem_cons_of_mem _ hy)
    · obtain ⟨r, hr, hfold, hbest⟩ := ih x
      refine ⟨r, List.mem_cons_of_mem _ hr, by rw [List.foldl_cons, hf, hfold], fun y hy => ?_⟩
      rcases List.mem_cons.1 hy with rfl | hy
      · exact h.trans (hbest x (List.mem_cons_self ..)) hle
      · exact hbest y hy

theorem Picks.of_some (h : Picks f le) {l : List α} {r : α} (hr : l.foldl f none = some r) : r ∈ l ∧ ∀ y ∈ l, le r y := by
  cases l with
  | nil => cases hr
  | cons x l =>
    obtain ⟨r', hmem, hfold, hbest⟩ := h.foldl_some l x
    rw [List.foldl_cons, h.start, hfold] at hr
    obtain rfl := Option.some.inj hr
    exact ⟨hmem, hbest⟩

theorem Picks.eq_none (h : Picks f le) {l : List α} : l.foldl f none = none ↔ l = [] := by
  cases l with
  | nil => exact ⟨fun _ => rfl, fun _ => rfl⟩
  | cons x l =>
    obtain ⟨r, -, hfold, -⟩ := h.foldl_some l x
    simp [h.start, hfold]

theorem Picks.exists_some (h : Picks f le) {l : List α} (hl : l ≠ []) : ∃ r, l.foldl f none = some r :=
  Option.ne_none_iff_exists'.1 fun hn => hl (h.eq_none.1 hn)

end picks

/-! ### What a change of the issue set leaves -/

/-- The warp `v` is `w` but for the places of its paths in the issue set. -/
structure Warp.SetOnly (w v : Warp) : Prop where
  rest : v = { w with paths := v.paths }
  size : v.paths.length = w.paths.length
  path : ∀ i, (w.path i).SameOutsideSet (v.path i)

/-- How many paths stand unparked in the issue set. -/
def Warp.issuing (w : Warp) : Nat := ((List.range 16).filter w.inIssue).length

/-- Whether a path stands unparked outside the issue set. -/
def Warp.Outside (w : Warp) (i : Nat) : Prop := i < 16 ∧ w.runs i = true ∧ (w.path i).inSet = false

section issueSet
variable {w v : Warp} {i j n cycle : Nat}

theorem Warp.SetOnly.refl (w : Warp) : w.SetOnly w := ⟨rfl, rfl, fun _ => .refl _⟩

theorem Warp.SetOnly.trans {u : Warp} (h : w.SetOnly v) (h' : v.SetOnly u) : w.SetOnly u where
  rest := by rw [h'.rest, h.rest]
  size := h'.size.trans h.size
  path i := (h.path i).trans (h'.path i)

theorem Warp.SetOnly.under (h : w.SetOnly v) (target n id : Nat) : v.under target n id = w.under target n id := by
  have hparent (k : Nat) : v.joinParent k = w.joinParent k := by rw [h.rest]; rfl
  induction n generalizing id with
  | zero => rfl
  | succ n ih => rw [Warp.under, Warp.under, hparent, ih]

theorem Warp.SetOnly.heldByCall (h : w.SetOnly v) (p : Path) : v.heldByCall p = w.heldByCall p := by
  have hcalls : v.calls = w.calls := by rw [h.rest]
  have hfuel : v.joins.length + v.jspilled.length = w.joins.length + w.jspilled.length := by rw [h.rest]
  simp only [Warp.heldByCall, hcalls, hfuel, h.under]

theorem Warp.SetOnly.runs (h : w.SetOnly v) (i : Nat) : v.runs i = w.runs i := by
  have hstate : (v.path i).state = (w.path i).state := (h.path i).keeps _
  have hentry : (v.path i).entry = (w.path i).entry := (h.path i).keeps _
  have hstop : v.stopped i = w.stopped i := by rw [h.rest]; rfl
  rw [Warp.runs, Warp.runs, hstate, hstop, h.heldByCall]
  simp only [Warp.heldByCall, hentry]

theorem Warp.SetOnly.rotate (w : Warp) (i cycle : Nat) : w.SetOnly (w.rotate i cycle) where
  rest := w.rotate_eq i cycle
  size := by
    unfold Warp.rotate
    split <;> simp [Warp.setPath]
  path j := w.rotate_path i j cycle

theorem Warp.not_inSet (h : w.runs i = true) : w.inIssue i = false ↔ (w.path i).inSet = false := by simp [Warp.inIssue, h]

theorem Warp.Outside.not_inIssue (h : w.Outside i) : w.inIssue i = false := (Warp.not_inSet h.2.1).2 h.2.2

/-! ### Paths that leave -/

theorem Warp.rotate_of_units (h : (w.path i).units < 64) : w.rotate i cycle = w := by simp [Warp.rotate, Nat.not_le.2 h]

theorem Warp.rotate_path_of_units (h : (w.path j).units < 64) : (w.rotate i cycle).path j = w.path j := by
  by_cases hj : j = i
  · rw [Warp.rotate_of_units (hj ▸ h)]
  · exact w.rotate_path_other i cycle hj

theorem Warp.rotate_inSet (h : ((w.rotate i cycle).path j).inSet = true) : (w.path j).inSet = true := by
  by_cases hj : j = i
  · subst hj
    unfold Warp.rotate at h
    split at h
    · by_cases hl : j < w.paths.length
      · rw [Warp.path_setPath_same _ _ _ hl] at h
        cases h
      · simpa [Warp.path, Warp.setPath, nth, hl] using h
    · exact h
  · rwa [w.rotate_path_other i cycle hj] at h

/-- The warp after the paths that have issued 64 units have left for those outside. -/
def Warp.rotated (w : Warp) (cycle : Nat) : Warp :=
  (List.range 16).foldl (fun (w : Warp) i => if w.inIssue i then w.rotate i cycle else w) w

theorem Warp.rotated_setOnly (w : Warp) (cycle : Nat) : w.SetOnly (w.rotated cycle) := by
  refine List.foldlRecOn (motive := w.SetOnly) _ _ (.refl w) fun v hv i _ => ?_
  split
  · exact hv.trans (.rotate v i cycle)
  · exact hv

theorem Warp.rotated_inSet : ((w.rotated cycle).path j).inSet = true → (w.path j).inSet = true := by
  refine List.foldlRecOn (motive := fun v : Warp => (v.path j).inSet = true → (w.path j).inSet = true) _ _ id fun v hv i _ h => ?_
  split at h
  · exact hv (Warp.rotate_inSet h)
  · exact hv h

theorem Warp.rotated_path (h : (w.path j).units < 64) : (w.rotated cycle).path j = w.path j := by
  refine List.foldlRecOn (motive := fun v : Warp => v.path j = w.path j) _ _ rfl fun v hv i _ => ?_
  split
  · rw [Warp.rotate_path_of_units (hv ▸ h), hv]
  · exact hv

theorem Warp.rotated_of_units (h : ∀ j, j < 16 → w.inIssue j = true → (w.path j).units < 64) : w.rotated cycle = w := by
  refine List.foldlRecOn (motive := fun v : Warp => v = w) _ _ rfl fun v hv i hi => ?_
  subst hv
  split
  · next hset => exact Warp.rotate_of_units (h i (List.mem_range.1 hi) hset)
  · rfl

theorem Warp.rotated_inIssue (h : (w.rotated cycle).inIssue j = true) : w.inIssue j = true := by
  obtain ⟨hruns, hset⟩ := Bool.and_eq_true_iff.1 h
  exact Bool.and_eq_true_iff.2 ⟨((w.rotated_setOnly cycle).runs j).symm.trans hruns, Warp.rotated_inSet hset⟩

theorem Warp.rotated_stays (h : w.inIssue j = true) (hu : (w.path j).units < 64) : (w.rotated cycle).inIssue j = true := by
  rw [Warp.inIssue, (w.rotated_setOnly cycle).runs, Warp.rotated_path hu]
  exact h

theorem Warp.rotated_issuing : (w.rotated cycle).issuing ≤ w.issuing := by
  simp only [Warp.issuing, ← List.countP_eq_length_filter]
  exact List.countP_mono_left fun j _ => Warp.rotated_inIssue

/-! ### Paths that enter -/

/-- The warp after a path has entered the issue set. -/
def Warp.admitted (w : Warp) (i : Nat) : Warp := w.setPath i { w.path i with inSet := true, units := 0 }

theorem Warp.admitted_setOnly (w : Warp) (i : Nat) : w.SetOnly (w.admitted i) where
  rest := rfl
  size := by simp [Warp.admitted, Warp.setPath]
  path j := by
    unfold Warp.admitted
    by_cases hj : j = i
    · subst hj
      by_cases hl : j < w.paths.length
      · rw [Warp.path_setPath_same _ _ _ hl]
        rfl
      · simp [Warp.path, Warp.setPath, nth, hl, Path.SameOutsideSet]
    · rw [Warp.path_setPath_other _ _ _ _ hj]
      exact .refl _

theorem Warp.admitted_inIssue_same (hi : i < w.paths.length) (hr : w.runs i = true) : (w.admitted i).inIssue i = true := by
  rw [Warp.inIssue, (w.admitted_setOnly i).runs, hr, Warp.admitted, Warp.path_setPath_same _ _ _ hi]
  rfl

theorem Warp.admitted_inIssue_other (hj : j ≠ i) : (w.admitted i).inIssue j = w.inIssue j := by
  rw [Warp.inIssue, (w.admitted_setOnly i).runs, Warp.admitted, Warp.path_setPath_other _ _ _ _ hj, Warp.inIssue]

/-- One more element passes a test that differs at that element alone. -/
theorem countP_eq_succ {α : Type} [BEq α] [LawfulBEq α] {l : List α} {a : α} {p q : α → Bool} (hl : l.Nodup) (ha : a ∈ l)
    (hp : p a = false) (hq : q a = true) (h : ∀ b, b ≠ a → q b = p b) : l.countP q = l.countP p + 1 := by
  have hrest : (l.erase a).countP q = (l.erase a).countP p := List.countP_congr fun b hb => by
    rw [h b fun hba => hl.not_mem_erase (hba ▸ hb)]
  rw [(List.perm_cons_erase ha).countP_eq q, (List.perm_cons_erase ha).countP_eq p, List.countP_cons_of_pos hq,
    List.countP_cons_of_neg (by simp [hp]), hrest]

theorem Warp.admitted_issuing (hl : w.paths.length = 16) (h : w.Outside i) : (w.admitted i).issuing = w.issuing + 1 := by
  simp only [Warp.issuing, ← List.countP_eq_length_filter]
  exact countP_eq_succ List.nodup_range (List.mem_range.2 h.1) h.not_inIssue (Warp.admitted_inIssue_same (hl ▸ h.1) h.2.1)
    fun _ => Warp.admitted_inIssue_other

theorem Warp.longestOutside_picks (w : Warp) : Picks (fun (best : Option Nat) i => match best with
    | some b => if (w.path i).since < (w.path b).since then some i else best
    | none => some i) fun i j => (w.path i).since ≤ (w.path j).since where
  start _ := rfl
  step b x := by
    by_cases h : (w.path x).since < (w.path b).since
    · exact .inr ⟨if_pos h, h.le⟩
    · exact .inl ⟨if_neg h, Nat.le_of_not_lt h⟩
  trans := Nat.le_trans

theorem Warp.mem_outside : i ∈ (List.range 16).filter (fun i => w.runs i && !(w.path i).inSet) ↔ w.Outside i := by
  simp [Warp.Outside]

theorem Warp.longestOutside_some (h : w.longestOutside = some i) :
    w.Outside i ∧ ∀ j, w.Outside j → (w.path i).since ≤ (w.path j).since := by
  obtain ⟨hi, hbest⟩ := w.longestOutside_picks.of_some h
  exact ⟨Warp.mem_outside.1 hi, fun j hj => hbest j (Warp.mem_outside.2 hj)⟩

theorem Warp.longestOutside_none (h : w.longestOutside = none) (i : Nat) : ¬w.Outside i := fun hi =>
  List.not_mem_nil (w.longestOutside_picks.eq_none.1 h ▸ Warp.mem_outside.2 hi)

/-- What the filling of free places gives: the shape of `Warp.fillSet`, by its three ends. -/
theorem Warp.fillSet_succ (w : Warp) (n : Nat) :
    (2 ≤ w.issuing ∧ w.fillSet (n + 1) = w)
      ∨ (w.issuing < 2 ∧ (∀ i, ¬w.Outside i) ∧ w.fillSet (n + 1) = w)
      ∨ (w.issuing < 2 ∧ ∃ i, w.longestOutside = some i ∧ w.fillSet (n + 1) = (w.admitted i).fillSet n) := by
  by_cases h2 : 2 ≤ w.issuing
  · exact .inl ⟨h2, if_pos h2⟩
  · have hfill : w.fillSet (n + 1) = match w.longestOutside with
        | some i => (w.admitted i).fillSet n
        | none => w := if_neg h2
    cases hl : w.longestOutside with
    | none => exact .inr (.inl ⟨Nat.lt_of_not_le h2, Warp.longestOutside_none hl, by rw [hfill, hl]⟩)
    | some i => exact .inr (.inr ⟨Nat.lt_of_not_le h2, i, rfl, by rw [hfill, hl]⟩)

theorem Warp.fillSet_setOnly (w : Warp) (n : Nat) : w.SetOnly (w.fillSet n) := by
  induction n generalizing w with
  | zero => exact .refl w
  | succ n ih =>
    obtain ⟨-, h⟩ | ⟨-, -, h⟩ | ⟨-, i, -, h⟩ := w.fillSet_succ n
    · exact h.symm ▸ .refl w
    · exact h.symm ▸ .refl w
    · exact h.symm ▸ (w.admitted_setOnly i).trans (ih _)

theorem Warp.fillSet_stays (n : Nat) (h : w.inIssue j = true) : (w.fillSet n).inIssue j = true := by
  induction n generalizing w with
  | zero => exact h
  | succ n ih =>
    obtain ⟨-, he⟩ | ⟨-, -, he⟩ | ⟨-, i, hi, he⟩ := w.fillSet_succ n
    · rwa [he]
    · rwa [he]
    · refine he ▸ ih ?_
      have hj : j ≠ i := fun hj => by simp [hj ▸ (Warp.longestOutside_some hi).1.not_inIssue] at h
      rwa [Warp.admitted_inIssue_other hj]

theorem Warp.fillSet_issuing (n : Nat) (hl : w.paths.length = 16) (h : w.issuing ≤ 2) : (w.fillSet n).issuing ≤ 2 := by
  induction n generalizing w with
  | zero => exact h
  | succ n ih =>
    obtain ⟨-, he⟩ | ⟨-, -, he⟩ | ⟨hlt, i, hi, he⟩ := w.fillSet_succ n
    · rwa [he]
    · rwa [he]
    · have hout := (Warp.longestOutside_some hi).1
      exact he ▸ ih ((w.admitted_setOnly i).size.trans hl) (by rw [Warp.admitted_issuing hl hout]; exact hlt)

/-- With a step for every free place, no unparked path stays outside a set that is not full. -/
theorem Warp.fillSet_full (n : Nat) (hl : w.paths.length = 16) (hn : 2 ≤ w.issuing + n) (h : (w.fillSet n).issuing < 2) (hj : j < 16)
    (hr : w.runs j = true) : (w.fillSet n).inIssue j = true := by
  induction n generalizing w with
  | zero => exact absurd h (Nat.not_lt.2 hn)
  | succ n ih =>
    obtain ⟨h2, he⟩ | ⟨-, hnone, he⟩ | ⟨hlt, i, hi, he⟩ := w.fillSet_succ n
    · rw [he] at h
      exact absurd h (Nat.not_lt.2 h2)
    · rw [he]
      by_contra hin
      exact hnone j ⟨hj, hr, (Warp.not_inSet hr).1 (eq_false_of_ne_true hin)⟩
    · have hset := w.admitted_setOnly i
      rw [he] at h ⊢
      refine ih (hset.size.trans hl) ?_ h ((hset.runs j).trans hr)
      rw [Warp.admitted_issuing hl (Warp.longestOutside_some hi).1]
      omega

theorem Warp.fillSet_longest (n : Nat) (hl : w.paths.length = 16) (hlt : w.issuing < 2) (h : w.Outside i)
    (hlong : ∀ j, w.Outside j → j ≠ i → (w.path i).since < (w.path j).since) : (w.fillSet (n + 1)).inIssue i = true := by
  obtain ⟨h2, -⟩ | ⟨-, hnone, -⟩ | ⟨-, j, hj, he⟩ := w.fillSet_succ n
  · omega
  · exact absurd h (hnone i)
  · obtain ⟨hout, hbest⟩ := Warp.longestOutside_some hj
    obtain rfl : j = i := by
      by_contra hne
      exact absurd (hlong j hout hne) (Nat.not_lt.2 (hbest i h))
    exact he ▸ Warp.fillSet_stays n (Warp.admitted_inIssue_same (hl ▸ h.1) h.2.1)

theorem exec_issueSetRotation {s : State} {wid : Nat} (hw : s.warps.get? wid = some w) :
    exec (.issueSetRotation wid) s = .next (s.setWarp wid ((w.rotated s.cycle).fillSet 2)) := by
  change execIssueSetRotation wid s = _
  simp only [execIssueSetRotation, hw]
  rfl

end issueSet
end Sys2Proof.Machine
end

section
/-! The choice of a quarter's scheduler (spec/05 R134 to R136, spec/03 R93). -/
namespace Sys2Proof.Machine

section cycle
variable {s : State} {q core quarter : Nat} {x y : Nat × Warp × Nat}

/-! ### The paths of a quarter -/

theorem State.mem_quarterPaths {f : Warp → Nat → Bool} :
    x ∈ s.quarterPaths q f ↔ ((x.1, x.2.1) ∈ s.warps ∧ x.1 / 16 = q ∧ x.2.2 < 16) ∧ f x.2.1 x.2.2 = true := by
  obtain ⟨wid, w, i⟩ := x
  simp only [State.quarterPaths, State.quarterWarps, List.mem_flatMap, List.mem_filter, List.mem_filterMap, List.mem_range, quarterOf,
    beq_iff_eq]
  constructor
  · rintro ⟨e, ⟨he, hq⟩, k, hk, hf⟩
    split at hf
    · next hfk =>
      simp only [Option.some.injEq, Prod.mk.injEq] at hf
      obtain ⟨rfl, rfl, rfl⟩ := hf
      exact ⟨⟨he, hq, hk⟩, hfk⟩
    · cases hf
  · rintro ⟨⟨he, hq, hk⟩, hf⟩
    exact ⟨(wid, w), ⟨he, hq⟩, i, hk, if_pos hf⟩

/-- A path goes before another: it has waited longer, or as long with no lower a priority. -/
def State.Before (s : State) (x y : Nat × Warp × Nat) : Prop :=
  (x.2.1.path x.2.2).age s.cycle < (y.2.1.path y.2.2).age s.cycle
    ∨ (x.2.1.path x.2.2).age s.cycle = (y.2.1.path y.2.2).age s.cycle ∧ s.priorityOf y.2.1 ≤ s.priorityOf x.2.1

theorem State.Before.le (h : s.Before x y) : (x.2.1.path x.2.2).age s.cycle ≤ (y.2.1.path y.2.2).age s.cycle
    ∧ ((x.2.1.path x.2.2).age s.cycle = (y.2.1.path y.2.2).age s.cycle → s.priorityOf y.2.1 ≤ s.priorityOf x.2.1) := by
  unfold State.Before at h
  omega

theorem State.oldestPath_picks (s : State) : Picks (fun (best : Option (Nat × Warp × Nat)) x => match best with
    | some b =>
      let a := (x.2.1.path x.2.2).age s.cycle
      let b' := (b.2.1.path b.2.2).age s.cycle
      if a < b' || (a == b' && decide (s.priorityOf b.2.1 < s.priorityOf x.2.1)) then some x else best
    | none => some x) s.Before where
  start _ := rfl
  step b x := by
    dsimp only
    split
    · next h =>
      simp only [Bool.or_eq_true, decide_eq_true_eq, Bool.and_eq_true, beq_iff_eq] at h
      exact .inr ⟨rfl, h.imp_right (And.imp_right Nat.le_of_lt)⟩
    · next h =>
      simp only [Bool.or_eq_true, decide_eq_true_eq, Bool.and_eq_true, beq_iff_eq] at h
      refine .inl ⟨rfl, ?_⟩
      unfold State.Before
      omega
  trans := by
    unfold State.Before
    omega

theorem State.oldestPath_some {xs : List (Nat × Warp × Nat)} (h : s.oldestPath xs = some x) : x ∈ xs ∧ ∀ y ∈ xs, s.Before x y :=
  s.oldestPath_picks.of_some h

/-! ### The first choice (R135) -/

theorem State.firstChoice_none : s.firstChoice q = none ↔ s.quarterPaths q s.readyPath = [] := by
  unfold State.firstChoice
  cases hf : (s.quarterPaths q s.readyPath).find? fun (x : Nat × Warp × Nat) => (s.schedOf q).pick == some (x.1, x.2.2) with
  | some x => simp [hf, List.ne_nil_of_mem (List.mem_of_find?_eq_some hf)]
  | none =>
    simp only [hf]
    exact s.oldestPath_picks.eq_none

/-- The first choice is a ready path: the one held, where one is, and else one that goes before every other. -/
theorem State.firstChoice_some (h : s.firstChoice q = some x) : x ∈ s.quarterPaths q s.readyPath
    ∧ ((s.schedOf q).pick = some (x.1, x.2.2)
      ∨ (∀ y ∈ s.quarterPaths q s.readyPath, (s.schedOf q).pick ≠ some (y.1, y.2.2) ∧ s.Before x y)) := by
  unfold State.firstChoice at h
  dsimp only at h
  split at h
  · next z hz =>
    obtain rfl := Option.some.inj h
    exact ⟨List.mem_of_find?_eq_some hz, .inl (by simpa using List.find?_some hz)⟩
  · next hz =>
    obtain ⟨hx, hbest⟩ := State.oldestPath_some h
    exact ⟨hx, .inr fun y hy => ⟨by simpa using List.find?_eq_none.1 hz y hy, hbest y hy⟩⟩

/-! ### The second choice (R136) -/

theorem State.startUnit_readyPath (s : State) (q : Nat) (x : Nat × Warp × Nat) : (s.startUnit q x).readyPath = s.readyPath := rfl
theorem State.startUnit_dualUnit (s : State) (q : Nat) (x : Nat × Warp × Nat) : (s.startUnit q x).dualUnit = s.dualUnit := rfl

/-- The second choice is a ready path of another warp; both units are single-cycle vector instructions. -/
theorem State.secondChoice_some (h : (s.startUnit q x).secondChoice q x = some y) :
    y ∈ s.quarterPaths q s.readyPath ∧ y.1 ≠ x.1 ∧ s.dualUnit x.2.1 x.2.2 = true ∧ s.dualUnit y.2.1 y.2.2 = true := by
  unfold State.secondChoice at h
  split at h
  · next hd =>
    obtain ⟨hy, hne⟩ := List.mem_filter.1 (State.oldestPath_some h).1
    obtain ⟨⟨hmem, hq, hi⟩, hready⟩ := State.mem_quarterPaths.1 hy
    have hne : y.1 ≠ x.1 := bne_iff_ne.1 hne
    rw [State.startUnit_readyPath, State.startUnit_dualUnit, Bool.and_eq_true] at hready
    have hhere : (y.1, y.2.1) ∈ s.warps := (NMap.put_keys _ _ _ _ hmem).resolve_right hne
    exact ⟨State.mem_quarterPaths.2 ⟨⟨hhere, hq, hi⟩, hready.1⟩, hne, (Bool.and_eq_true_iff.1 hd).1, hready.2⟩
  · cases h

/-! ### The slot -/

theorem State.setSched_schedOf (s : State) (q : Nat) (f : Sched → Sched) : (s.setSched q f).schedOf q = f (s.schedOf q) := by
  simp [State.setSched, State.schedOf, NMap.getD]

/-- The slot of a quarter goes to a path, with a second choice after it, and counts for a leaf. -/
def State.slotGiven (s : State) (q leaf : Nat) (x : Nat × Nat) (y : Option (Nat × Nat)) : State :=
  { (s.setSched q fun z => { z with pick := none, second := y }).countSlot q leaf with
    focus := some (.path x.1 x.2 none), issued := q :: s.issued }

theorem State.issueFirst_eq (s : State) (q : Nat) (x : Nat × Warp × Nat) : s.issueFirst q x =
    match (s.startUnit q x).secondChoice q x with
    | some y => ((s.startUnit q x).startUnit q y).slotGiven q 3 (x.1, x.2.2) (some (y.1, y.2.2))
    | none => (s.startUnit q x).slotGiven q (if (x.2.1.path x.2.2).atPair then 2 else 1) (x.1, x.2.2) none := rfl

theorem State.slotGiven_sched (s : State) (q leaf : Nat) (x : Nat × Nat) (y : Option (Nat × Nat)) :
    (s.slotGiven q leaf x y).schedOf q = { s.schedOf q with pick := none, second := y } :=
  s.setSched_schedOf q fun z => { z with pick := none, second := y }

theorem State.startUnit_eq (s : State) (q : Nat) (x : Nat × Warp × Nat) :
    ∃ sched warps, s.startUnit q x = { s with sched := sched, warps := warps } := ⟨_, _, rfl⟩

theorem State.slotGiven_eq (s : State) (q leaf : Nat) (x : Nat × Nat) (y : Option (Nat × Nat)) : ∃ slots sched, s.slotGiven q leaf x y =
    { s with focus := some (.path x.1 x.2 none), issued := q :: s.issued, slots := slots, sched := sched } := ⟨_, _, rfl⟩

/-- A slot that is given changes the scheduler, the counts and the warps alone. -/
theorem State.issueFirst_rest (s : State) (q : Nat) (x : Nat × Warp × Nat) : ∃ slots sched warps, s.issueFirst q x =
    { s with focus := some (.path x.1 x.2.2 none), issued := q :: s.issued, slots := slots, sched := sched, warps := warps } := by
  obtain ⟨sched, warps, hx⟩ := s.startUnit_eq q x
  rw [State.issueFirst_eq]
  split
  · next y _ =>
    obtain ⟨sched', warps', hy⟩ := (s.startUnit q x).startUnit_eq q y
    obtain ⟨slots, sched'', ht⟩ := ((s.startUnit q x).startUnit q y).slotGiven_eq q 3 (x.1, x.2.2) (some (y.1, y.2.2))
    exact ⟨slots, sched'', warps', by rw [ht, hy, hx]⟩
  · obtain ⟨slots, sched', ht⟩ := (s.startUnit q x).slotGiven_eq q (if (x.2.1.path x.2.2).atPair then 2 else 1) (x.1, x.2.2) none
    exact ⟨slots, sched', warps, by rw [ht, hx]⟩

/-- What the slot leaves to the scheduler: no path is held, and the second choice stands. -/
theorem State.issueFirst_sched (s : State) (q : Nat) (x : Nat × Warp × Nat) : ((s.issueFirst q x).schedOf q).pick = none
    ∧ ((s.issueFirst q x).schedOf q).second = ((s.startUnit q x).secondChoice q x).map fun y => (y.1, y.2.2) := by
  rw [State.issueFirst_eq]
  cases hy : (s.startUnit q x).secondChoice q x <;> exact ⟨by rw [State.slotGiven_sched], by rw [State.slotGiven_sched]; rfl⟩

/-! ### A cycle of the scheduler -/

/-- A quarter whose scheduler has its turn. -/
structure IssueTurn (s : State) (core quarter : Nat) : Prop where
  free    : s.focus = none
  core    : core < 512
  quarter : quarter < 4

/-- The paths of a quarter whose pair's first member has issued in this cycle. -/
def State.midPairs (s : State) (q : Nat) : List (Nat × Warp × Nat) :=
  s.quarterPaths q fun w i => s.entered w i && (w.path i).midPair s.cycle

theorem IssueTurn.exec_eq (h : IssueTurn s core quarter) (hq : q = 4 * core + quarter) : exec (.issueCycle core quarter) s =
    match (s.midPairs q).head? with
    | some x => .next { s.setPath x.1 x.2.2 fun p => { p with pairAt := none } with focus := some (.path x.1 x.2.2 none) }
    | none =>
      match (s.schedOf q).second with
      | some y =>
        let t := s.setSched q fun z => { z with second := none }
        .next (if (s.warps.get? y.1).any fun w => s.entered w y.2 then { t with focus := some (.path y.1 y.2 none) } else t)
      | none =>
        if s.issued.contains q then .next s else
        match s.firstChoice q with
        | none => .next s
        | some x =>
          if (s.schedOf q).has (halvesOf (s.shadowOf x.2.1) (x.2.1.path x.2.2).unit) s.cycle then .next (s.issueFirst q x)
          else .next (s.setSched q fun z => { z with pick := some (x.1, x.2.2) }) := by
  subst hq
  change execIssueCycle core quarter s = _
  have hturn : ¬(s.focus.isSome || 512 ≤ core || 4 ≤ quarter) = true := by
    have := h.core
    have := h.quarter
    simp [h.free]
    omega
  exact if_neg hturn

theorem IssueTurn.midPair (h : IssueTurn s core quarter) (hq : q = 4 * core + quarter) (hx : (s.midPairs q).head? = some x) :
    exec (.issueCycle core quarter) s =
      .next { s.setPath x.1 x.2.2 fun p => { p with pairAt := none } with focus := some (.path x.1 x.2.2 none) } := by
  rw [h.exec_eq hq, hx]

section second
variable {z : Nat × Nat}

theorem IssueTurn.second_goes (h : IssueTurn s core quarter) (hq : q = 4 * core + quarter) (hm : s.midPairs q = [])
    (hz : (s.schedOf q).second = some z) {w : Warp} (hw : s.warps.get? z.1 = some w) (he : s.entered w z.2 = true) :
    exec (.issueCycle core quarter) s =
      .next { s.setSched q fun z => { z with second := none } with focus := some (.path z.1 z.2 none) } := by
  rw [h.exec_eq hq, hm, List.head?_nil, hz]
  simp only [hw, Option.any_some, he, if_true]

theorem IssueTurn.second_lapses (h : IssueTurn s core quarter) (hq : q = 4 * core + quarter) (hm : s.midPairs q = [])
    (hz : (s.schedOf q).second = some z) (he : ∀ w, s.warps.get? z.1 = some w → s.entered w z.2 = false) :
    exec (.issueCycle core quarter) s = .next (s.setSched q fun z => { z with second := none }) := by
  rw [h.exec_eq hq, hm, List.head?_nil, hz]
  cases hw : s.warps.get? z.1 with
  | none => simp [hw]
  | some w => simp [he w hw, hw]

end second

theorem IssueTurn.idle (h : IssueTurn s core quarter) (hq : q = 4 * core + quarter) (hm : s.midPairs q = []) (hz : (s.schedOf q).second = none)
    (hi : q ∈ s.issued ∨ s.quarterPaths q s.readyPath = []) : exec (.issueCycle core quarter) s = .next s := by
  rw [h.exec_eq hq, hm, List.head?_nil, hz]
  by_cases hin : q ∈ s.issued
  · simp [hin]
  · simp [hin, State.firstChoice_none.2 (hi.resolve_left hin)]

theorem IssueTurn.slot (h : IssueTurn s core quarter) (hq : q = 4 * core + quarter) (hm : s.midPairs q = []) (hz : (s.schedOf q).second = none)
    (hi : q ∉ s.issued) (hx : s.firstChoice q = some x) : exec (.issueCycle core quarter) s = .next
      (if (s.schedOf q).has (halvesOf (s.shadowOf x.2.1) (x.2.1.path x.2.2).unit) s.cycle then s.issueFirst q x
      else s.setSched q fun z => { z with pick := some (x.1, x.2.2) }) := by
  rw [h.exec_eq hq, hm, List.head?_nil, hz]
  simp only [List.contains_iff_mem, hi, if_false, hx]
  split <;> rfl

end cycle
end Sys2Proof.Machine
end

section
/-! The register pool (spec/05 R150 to R153): evicted warps return, waiting requests are served, and a warp is evicted for them. -/
namespace Sys2Proof.Machine

/-! ### The least of a list that is put in order -/

section order
variable {α : Type} {le : α → α → Bool} {l : List α} {x y : α}

theorem mem_of_mem_insertBy (h : y ∈ insertBy le x l) : y = x ∨ y ∈ l := by
  induction l with
  | nil => simpa [insertBy] using h
  | cons z l ih =>
    unfold insertBy at h
    split at h
    · simpa using h
    · rcases List.mem_cons.1 h with rfl | h
      · exact .inr (List.mem_cons_self ..)
      · exact (ih h).imp_right (List.mem_cons_of_mem _)

theorem mem_of_mem_sortBy (h : y ∈ sortBy le l) : y ∈ l := by
  induction l with
  | nil => exact h
  | cons x l ih =>
    rcases mem_of_mem_insertBy h with rfl | h
    · exact List.mem_cons_self ..
    · exact List.mem_cons_of_mem _ (ih h)

/-- An element with a key below every other stands first. -/
theorem sortBy_of_least (key : α → Nat) (hx : x ∈ l) (hlt : ∀ y ∈ l, y ≠ x → key x < key y) :
    ∃ r, sortBy (fun x y => decide (key x ≤ key y)) l = x :: r := by
  induction l with
  | nil => cases hx
  | cons z l ih =>
    change ∃ r, insertBy _ z (sortBy _ l) = x :: r
    by_cases hz : z = x
    · subst hz
      cases hs : sortBy (fun x y => decide (key x ≤ key y)) l with
      | nil => exact ⟨[], rfl⟩
      | cons y r =>
        have hy : y ∈ l := mem_of_mem_sortBy (hs ▸ List.mem_cons_self ..)
        have hle : key z ≤ key y := by
          by_cases hyz : y = z
          · rw [hyz]
          · exact (hlt y (List.mem_cons_of_mem _ hy) hyz).le
        exact ⟨y :: r, if_pos (decide_eq_true hle)⟩
    · obtain ⟨r, hr⟩ := ih (List.mem_of_ne_of_mem (Ne.symm hz) hx) fun y hy => hlt y (List.mem_cons_of_mem _ hy)
      have hgt := hlt z (List.mem_cons_self ..) hz
      refine ⟨insertBy (fun x y => decide (key x ≤ key y)) z r, ?_⟩
      rw [hr]
      exact if_neg (by simpa using hgt)

theorem le_foldl_max (l : List Nat) (a : Nat) : a ≤ l.foldl max a ∧ ∀ n ∈ l, n ≤ l.foldl max a := by
  induction l generalizing a with
  | nil => simp
  | cons b l ih =>
    obtain ⟨hab, hl⟩ := ih (max a b)
    exact ⟨(Nat.le_max_left a b).trans hab, List.forall_mem_cons.2 ⟨(Nat.le_max_right a b).trans hab, hl⟩⟩

end order

section pool
variable {s : State} {q core quarter wid k : Nat} {w : Warp} {x : Nat × Warp} {g : Nat × Nat × Nat}

/-- A warp of a quarter, with its number. -/
def State.Here (s : State) (q : Nat) (x : Nat × Warp) : Prop := x ∈ s.warps ∧ x.1 / 16 = q

theorem State.mem_quarterWarps : x ∈ s.quarterWarps q ↔ s.Here q x := by
  simp [State.quarterWarps, State.Here, quarterOf]

theorem State.mem_setWarp {v : Warp} (hr : s.warps.Pairwise fun a b => a.1 < b.1) (h : x ∈ (s.setWarp wid v).warps) :
    x = (wid, v) ∨ (x ∈ s.warps ∧ x.1 ≠ wid) := by
  by_cases hx : x.1 = wid
  · have hget := NMap.get?_of_mem (NMap.rising_put s.warps wid v hr) h
    rw [hx, NMap.get?_put_same] at hget
    exact .inl (Prod.ext hx (Option.some.inj hget).symm)
  · exact .inr ⟨(NMap.put_keys _ _ _ _ h).resolve_right hx, hx⟩

/-! ### Evicted warps return (R153) -/

theorem State.firstEvicted_picks : Picks (fun (best : Option (Nat × Warp)) x => match best with
    | some b => if x.2.evicted.getD 0 < b.2.evicted.getD 0 then some x else best
    | none => some x) fun x y => x.2.evicted.getD 0 ≤ y.2.evicted.getD 0 where
  start _ := rfl
  step b x := by
    by_cases h : x.2.evicted.getD 0 < b.2.evicted.getD 0
    · exact .inr ⟨if_pos h, h.le⟩
    · exact .inl ⟨if_neg h, Nat.le_of_not_lt h⟩
  trans := Nat.le_trans

theorem State.firstEvicted_none : s.firstEvicted q = none ↔ ∀ x, s.Here q x → x.2.evicted = none := by
  refine State.firstEvicted_picks.eq_none.trans ?_
  simp only [List.filter_eq_nil_iff, State.mem_quarterWarps, Option.isSome_iff_ne_none, not_not, Prod.forall]

/-- The warp evicted before every other of its quarter returns first. -/
theorem State.firstEvicted_some (hx : s.Here q (wid, w)) (hw : w.evicted = some k)
    (hfirst : ∀ x j, s.Here q x → x.2.evicted = some j → x ≠ (wid, w) → k < j) : s.firstEvicted q = some (wid, w) := by
  have hmem : (wid, w) ∈ (s.quarterWarps q).filter fun x => x.2.evicted.isSome :=
    List.mem_filter.2 ⟨State.mem_quarterWarps.2 hx, by simp [hw]⟩
  obtain ⟨r, hr⟩ := State.firstEvicted_picks.exists_some (List.ne_nil_of_mem hmem)
  obtain ⟨hrmem, hbest⟩ := State.firstEvicted_picks.of_some hr
  obtain ⟨hrhere, hrev⟩ := List.mem_filter.1 hrmem
  obtain ⟨j, hj⟩ := Option.isSome_iff_exists.1 hrev
  refine hr.trans (congrArg some ?_)
  by_contra hne
  have hlt := hfirst r j (State.mem_quarterWarps.1 hrhere) hj hne
  have hle := hbest _ hmem
  simp only [hj, hw, Option.getD_some] at hle
  omega

theorem State.returnEvicted_fits (h : s.firstEvicted q = some (wid, w)) (hfit : granules w.n ≤ s.freeGranules q) :
    s.returnEvicted q = some (s.setWarp wid { w with evicted := none }) := by simp only [State.returnEvicted, h, if_pos hfit]

theorem State.returnEvicted_waits (h : s.firstEvicted q = some (wid, w)) (hfit : s.freeGranules q < granules w.n) :
    s.returnEvicted q = none := by simp only [State.returnEvicted, h, if_neg (Nat.not_le.2 hfit)]

theorem State.returnEvicted_none (h : s.firstEvicted q = none) : s.returnEvicted q = none := by simp only [State.returnEvicted, h]

theorem State.returnAll_none (h : s.returnEvicted q = none) (n : Nat) : s.returnAll q n = s := by
  cases n with
  | zero => rfl
  | succ n => simp only [State.returnAll, h]

/-- Where one warp alone is evicted and fits, it returns and no evicted warp is left. -/
theorem State.returnAll_one {v : Warp} (n : Nat) (h : s.returnEvicted q = some (s.setWarp wid v))
    (hone : (s.setWarp wid v).firstEvicted q = none) : s.returnAll q (n + 1) = s.setWarp wid v := by
  rw [State.returnAll, h]
  exact State.returnAll_none (State.returnEvicted_none hone) n

theorem State.firstEvicted_returned (hr : s.warps.Pairwise fun a b => a.1 < b.1)
    (hone : ∀ x, s.Here q x → x.2.evicted.isSome = true → x.1 = wid) :
    (s.setWarp wid { w with evicted := none }).firstEvicted q = none := by
  refine State.firstEvicted_none.2 fun x hx => ?_
  rcases State.mem_setWarp hr hx.1 with rfl | ⟨hmem, hne⟩
  · rfl
  · by_contra hev
    exact hne (hone x ⟨hmem, hx.2⟩ (Option.isSome_iff_ne_none.2 hev))

/-! ### Waiting requests are served (R150, R174) -/

theorem State.mem_growers : g ∈ s.growers q ↔ ∃ x, s.Here q x ∧ ∃ p ∈ x.2.paths.zipIdx,
    (if p.1.state == .parked .grow && !x.2.stopped p.2 then some (x.1, p.2, p.1.since) else none) = some g := by
  simp only [State.growers, List.mem_flatMap, List.mem_filterMap]
  exact exists_congr fun x => and_congr_left' State.mem_quarterWarps

/-- A warp that returns from its eviction leaves the waiting requests. -/
theorem State.growers_returned (hr : s.warps.Pairwise fun a b => a.1 < b.1) (hx : s.Here q (wid, w)) (h : s.growers q = []) :
    (s.setWarp wid { w with evicted := none }).growers q = [] := by
  refine List.eq_nil_iff_forall_not_mem.2 fun g hg => ?_
  obtain ⟨x, ⟨hmem, hq⟩, hp⟩ := State.mem_growers.1 hg
  refine List.not_mem_nil (h ▸ State.mem_growers.2 ?_ : g ∈ [])
  rcases State.mem_setWarp hr hmem with rfl | ⟨hold, -⟩
  · exact ⟨(wid, w), hx, hp⟩
  · exact ⟨x, ⟨hold, hq⟩, hp⟩

theorem State.serveGrows_nil (h : s.growers q = []) (n : Nat) : s.serveGrows q n = s := by
  cases n with
  | zero => rfl
  | succ n => simp [State.serveGrows, State.growTurns, h, sortBy]

theorem State.growTurns_single (h : s.growers q = [g]) : s.growTurns q = [g] := by simp [State.growTurns, h, sortBy, insertBy]

/-- A request that has waited 4,096 cycles, older than every other, has the turn alone. -/
theorem State.growTurns_waited (hg : g ∈ s.growers q) (hw : g.2.2 + 4096 ≤ s.cycle)
    (hlt : ∀ g' ∈ s.growers q, g' ≠ g → g.2.2 < g'.2.2) :
    s.growTurns q = [g] := by
  obtain ⟨r, hr⟩ := sortBy_of_least (fun g : Nat × Nat × Nat => g.2.2) hg hlt
  simp only [State.growTurns, hr, if_pos hw]

theorem State.serveGrows_refused (ht : s.growTurns q = [g]) (h : s.serveGrow q g = none) (n : Nat) : s.serveGrows q n = s := by
  cases n with
  | zero => rfl
  | succ n => simp [State.serveGrows, ht, h]

theorem State.serveGrows_single {t : State} (h : s.growers q = [g]) (hs : s.serveGrow q g = some t) :
    s.serveGrows q (s.growers q).length = t := by
  simp [h, State.serveGrows, State.growTurns_single h, hs]

section request
variable {c : Ctx} {n : Nat} (hreq : s.requesting g.1 g.2.1 = some (c, .grow n)) (hb : s.mayIssue c.bid = true)
include hreq hb

theorem State.serveGrow_eq : s.serveGrow q g =
    if growable c.w n = false then some (s.answeredTrap c ⟨0x15, 0x04, BitVec.ofNat 64 n, c.p.mask⟩)
    else if granules n - granules c.w.n ≤ s.freeGranules q then some (s.answered c (c.w.relocate n) .none)
    else none := by
  simp only [State.serveGrow, hreq, hb, Bool.not_true, Bool.false_eq_true, if_false]

theorem State.serveGrow_bad (h : ¬(8 ≤ n ∧ n ≤ 256 ∧ c.w.n ≤ n)) :
    s.serveGrow q g = some (s.answeredTrap c ⟨0x15, 0x04, BitVec.ofNat 64 n, c.p.mask⟩) := by
  rw [State.serveGrow_eq hreq hb, if_pos (by simpa [growable] using h)]

theorem State.serveGrow_fits (h : 8 ≤ n ∧ n ≤ 256 ∧ c.w.n ≤ n) (hfit : granules n - granules c.w.n ≤ s.freeGranules q) :
    s.serveGrow q g = some (s.answered c (c.w.relocate n) .none) := by
  rw [State.serveGrow_eq hreq hb, if_neg (by simpa [growable] using h), if_pos hfit]

theorem State.serveGrow_waits (h : 8 ≤ n ∧ n ≤ 256 ∧ c.w.n ≤ n) (hfit : s.freeGranules q < granules n - granules c.w.n) :
    s.serveGrow q g = none := by
  rw [State.serveGrow_eq hreq hb, if_neg (by simpa [growable] using h), if_neg (Nat.not_le.2 hfit)]

end request

/-! ### The offers of the pool (R150, R153) -/

section offers
variable (hq : q = 4 * core + quarter)
include hq

theorem exec_evictedWarpReturn_none (h : s.freeGranules q ≤ (s.schedOf q).spare ∨ s.returnEvicted q = none) :
    exec (.evictedWarpReturn core quarter) s = .next s := by
  subst hq
  change Host.Outcome.next (if _ < _ then _ else _) = _
  split
  · next hlt => rw [h.resolve_left (Nat.not_le.2 hlt)]; rfl
  · rfl

theorem exec_evictedWarpReturn_some (hfree : (s.schedOf q).spare < s.freeGranules q) {t : State} (h : s.returnEvicted q = some t) :
    exec (.evictedWarpReturn core quarter) s = .next t := by
  subst hq
  change Host.Outcome.next (if _ < _ then _ else _) = _
  rw [if_pos hfree, h]
  rfl

theorem exec_granuleGrant_none (h : s.freeGranules q ≤ (s.schedOf q).spare) : exec (.granuleGrant core quarter) s =
    .next (if s.freeGranules q = (s.schedOf q).spare then s else s.granulesOffered q) := by
  subst hq
  exact if_pos h

/-- The grant while an evicted warp still waits, and where none does. -/
theorem exec_granuleGrant (h : (s.schedOf q).spare < s.freeGranules q) {t : State} (ht : s.returnAll q 16 = t) :
    exec (.granuleGrant core quarter) s =
      .next ((if (t.firstEvicted q).isSome then t else t.serveGrows q (t.growers q).length).granulesOffered q) := by
  subst hq ht
  exact if_neg (Nat.not_le.2 h)

theorem exec_granuleGrant_waits (h : (s.schedOf q).spare < s.freeGranules q) (hf : (s.firstEvicted q).isSome = true)
    (hr : s.returnEvicted q = none) : exec (.granuleGrant core quarter) s = .next (s.granulesOffered q) := by
  rw [exec_granuleGrant hq h (State.returnAll_none hr 16), if_pos hf]

theorem exec_granuleGrant_serves (h : (s.schedOf q).spare < s.freeGranules q) (hf : s.firstEvicted q = none) :
    exec (.granuleGrant core quarter) s = .next ((s.serveGrows q (s.growers q).length).granulesOffered q) := by
  rw [exec_granuleGrant hq h (State.returnAll_none (State.returnEvicted_none hf) 16), hf]
  rfl

theorem exec_granuleGrant_returns (h : (s.schedOf q).spare < s.freeGranules q) {v : Warp} (hr : s.returnEvicted q = some (s.setWarp wid v))
    (hone : (s.setWarp wid v).firstEvicted q = none) (hg : (s.setWarp wid v).growers q = []) :
    exec (.granuleGrant core quarter) s = .next ((s.setWarp wid v).granulesOffered q) := by
  rw [exec_granuleGrant hq h (State.returnAll_one 15 hr hone), hone, State.serveGrows_nil hg]
  rfl

end offers

/-! ### The eviction (R151, R152) -/

/-- A warp that may be evicted for a waiting request. -/
def State.Candidate (s : State) (q : Nat) (x : Nat × Warp) : Prop :=
  s.Here q x ∧ x.2.evicted = none ∧ x.2.parked = true ∧ x.2.halted = false ∧ ∀ g ∈ s.growers q, g.1 ≠ x.1

/-- When a warp's block was placed. -/
def State.placedOf (s : State) (x : Nat × Warp) : Nat := (s.blocks.get? x.2.block).elim 0 (·.placed)

/-- A warp is evicted before another: its priority is lower, or the same and its block was placed no earlier. -/
def State.Yields (s : State) (x y : Nat × Warp) : Prop :=
  s.priorityOf x.2 < s.priorityOf y.2 ∨ s.priorityOf x.2 = s.priorityOf y.2 ∧ s.placedOf y ≤ s.placedOf x

theorem State.Yields.le {x y : Nat × Warp} (h : s.Yields x y) : s.priorityOf x.2 ≤ s.priorityOf y.2
    ∧ (s.priorityOf y.2 = s.priorityOf x.2 → s.placedOf y ≤ s.placedOf x) := by
  unfold State.Yields at h
  omega

theorem State.victim_picks (s : State) : Picks (fun (best : Option (Nat × Warp)) x => match best with
    | some b => if s.priorityOf b.2 < s.priorityOf x.2 || (s.priorityOf b.2 == s.priorityOf x.2 && s.placedOf x < s.placedOf b) then best
      else some x
    | none => some x) s.Yields where
  start _ := rfl
  step b x := by
    dsimp only
    split
    · next h =>
      simp only [Bool.or_eq_true, decide_eq_true_eq, Bool.and_eq_true, beq_iff_eq] at h
      exact .inl ⟨rfl, h.imp_right (And.imp_right Nat.le_of_lt)⟩
    · next h =>
      simp only [Bool.or_eq_true, decide_eq_true_eq, Bool.and_eq_true, beq_iff_eq] at h
      refine .inr ⟨rfl, ?_⟩
      unfold State.Yields
      omega
  trans := by
    unfold State.Yields
    omega

/-- The warps among which a quarter finds its victim. -/
def State.evictable (s : State) (q : Nat) : List (Nat × Warp) :=
  (s.quarterWarps q).filter fun x => x.2.evicted.isNone && x.2.parked && !x.2.halted && !((s.growers q).any fun g => g.1 == x.1)

theorem State.mem_evictable : x ∈ s.evictable q ↔ s.Candidate q x := by
  simp only [State.evictable, List.mem_filter, State.mem_quarterWarps, State.Candidate, Bool.and_eq_true, Option.isNone_iff_eq_none,
    Bool.not_eq_true', List.any_eq_false, beq_iff_eq, and_assoc, ne_eq]

theorem State.victim_none (h : ¬∃ x, s.Candidate q x) : s.victim q = none :=
  s.victim_picks.eq_none.2 (List.eq_nil_iff_forall_not_mem.2 fun x hx => h ⟨x, State.mem_evictable.1 hx⟩)

theorem State.victim_some (h : ∃ x, s.Candidate q x) :
    ∃ x, s.victim q = some x ∧ s.Candidate q x ∧ ∀ y, s.Candidate q y → s.Yields x y := by
  obtain ⟨y, hy⟩ := h
  obtain ⟨x, hx⟩ := s.victim_picks.exists_some (List.ne_nil_of_mem (State.mem_evictable.2 hy))
  obtain ⟨hmem, hbest⟩ := s.victim_picks.of_some hx
  exact ⟨x, hx, State.mem_evictable.1 hmem, fun z hz => hbest z (State.mem_evictable.2 hz)⟩

theorem State.lt_nextEviction (hx : s.Here q x) (hk : x.2.evicted = some k) : k < s.nextEviction q := by
  have hmem : k + 1 ∈ (s.quarterWarps q).map fun x => x.2.evicted.elim 0 (· + 1) :=
    List.mem_map.2 ⟨x, State.mem_quarterWarps.2 hx, by rw [hk]; rfl⟩
  exact (le_foldl_max _ 0).2 _ hmem

/-- No warp is evicted: none asks, a request can be served, or a warp of the quarter may issue. -/
def State.EvictionBlocked (s : State) (q : Nat) : Prop :=
  s.growers q = [] ∨ ((∀ x, s.Here q x → x.2.evicted = none) ∧ ∃ g ∈ s.growTurns q, (s.serveGrow q g).isSome = true)
    ∨ ∃ x, s.Here q x ∧ x.2.parked = false ∧ x.2.evicted = none

theorem State.evictionBlocked_iff : s.EvictionBlocked q ↔ ((s.growers q).isEmpty
    || ((s.firstEvicted q).isNone && (s.growTurns q).any fun g => (s.serveGrow q g).isSome)
    || !((s.quarterWarps q).all fun x => x.2.parked || x.2.evicted.isSome)) = true := by
  simp only [State.EvictionBlocked, Bool.or_eq_true, Bool.and_eq_true, List.isEmpty_iff, Option.isNone_iff_eq_none, State.firstEvicted_none,
    List.any_eq_true, Bool.not_eq_true', List.all_eq_false, State.mem_quarterWarps, or_assoc, not_or, Bool.not_eq_true,
    Option.isSome_eq_false_iff]

theorem exec_warpEviction (hq : q = 4 * core + quarter) : exec (.warpEviction core quarter) s =
    if (s.growers q).isEmpty || ((s.firstEvicted q).isNone && (s.growTurns q).any fun g => (s.serveGrow q g).isSome)
      || !((s.quarterWarps q).all fun x => x.2.parked || x.2.evicted.isSome)
    then .next s
    else match s.victim q with
      | none => .next s
      | some (wid, w) =>
        .next (((s.setWarp wid { w with evicted := some (s.nextEviction q) }).serveGrows q (s.growers q).length).granulesOffered q) := by
  subst hq
  rfl

theorem exec_warpEviction_none (hq : q = 4 * core + quarter) (h : s.EvictionBlocked q ∨ ¬∃ x, s.Candidate q x) :
    exec (.warpEviction core quarter) s = .next s := by
  rw [exec_warpEviction hq]
  split
  · rfl
  · next hb => rw [State.victim_none (h.resolve_left fun hblocked => hb (State.evictionBlocked_iff.1 hblocked))]

theorem exec_warpEviction_some (hq : q = 4 * core + quarter) (h : ¬s.EvictionBlocked q) (hv : s.victim q = some (wid, w)) :
    exec (.warpEviction core quarter) s = .next
      (((s.setWarp wid { w with evicted := some (s.nextEviction q) }).serveGrows q (s.growers q).length).granulesOffered q) := by
  rw [exec_warpEviction hq, if_neg fun hb => h (State.evictionBlocked_iff.2 hb), hv]

end pool
end Sys2Proof.Machine
end

section
/-! The obligation about fetch, the issue set, the scheduler and the register pool. -/
namespace Sys2Proof.Machine

section spec
variable {s : State} {core quarter : Nat}

/-- A path of a quarter that is ready. -/
def State.Waiting (s : State) (q wid : Nat) (w : Warp) (i : Nat) : Prop :=
  ((wid, w) ∈ s.warps ∧ wid / 16 = q ∧ i < 16) ∧ s.readyPath w i = true

theorem State.mem_ready {q : Nat} {x : Nat × Warp × Nat} : x ∈ s.quarterPaths q s.readyPath ↔ s.Waiting q x.1 x.2.1 x.2.2 :=
  State.mem_quarterPaths

theorem State.ready_eq_nil {q : Nat} (h : ¬∃ wid w i, s.Waiting q wid w i) : s.quarterPaths q s.readyPath = [] :=
  List.eq_nil_iff_forall_not_mem.2 fun x hx => h ⟨x.1, x.2.1, x.2.2, State.mem_ready.1 hx⟩

/-- The path chosen: the held one where it is ready, else one of those that have waited longest, of the highest priority. -/
def State.Chosen (s : State) (q wid : Nat) (w : Warp) (i : Nat) : Prop :=
  s.Waiting q wid w i
    ∧ ((∃ wid w i, s.Waiting q wid w i ∧ (s.schedOf q).pick = some (wid, i)) → (s.schedOf q).pick = some (wid, i))
    ∧ ((¬∃ wid w i, s.Waiting q wid w i ∧ (s.schedOf q).pick = some (wid, i)) → ∀ wid' w' i', s.Waiting q wid' w' i' →
      (w.path i).age s.cycle ≤ (w'.path i').age s.cycle
        ∧ ((w.path i).age s.cycle = (w'.path i').age s.cycle → s.priorityOf w' ≤ s.priorityOf w))

theorem State.firstChoice_chosen {q : Nat} {x : Nat × Warp × Nat} (h : s.firstChoice q = some x) : s.Chosen q x.1 x.2.1 x.2.2 := by
  obtain ⟨hx, hheld | hbest⟩ := State.firstChoice_some h
  · have hwait := State.mem_ready.1 hx
    exact ⟨hwait, fun _ => hheld, fun hn => absurd ⟨_, _, _, hwait, hheld⟩ hn⟩
  · refine ⟨State.mem_ready.1 hx, ?_, ?_⟩
    · rintro ⟨wid, w, i, hwait, hpick⟩
      exact absurd hpick (hbest (wid, w, i) (State.mem_ready.2 hwait)).1
    · exact fun _ wid w i hwait => (hbest (wid, w, i) (State.mem_ready.2 hwait)).2.le

/-- A slot that is given goes to the path chosen; a second choice is of another warp, and both units may issue together. -/
theorem State.issueFirst_spec (q : Nat) (x : Nat × Warp × Nat) : ∃ t, s.issueFirst q x = t
    ∧ t = { s with focus := some (.path x.1 x.2.2 none), issued := q :: s.issued, slots := t.slots, sched := t.sched, warps := t.warps }
    ∧ (t.schedOf q).pick = none
    ∧ ∀ y, (t.schedOf q).second = some y → ∃ w', s.Waiting q y.1 w' y.2 ∧ y.1 ≠ x.1 ∧ s.dualUnit x.2.1 x.2.2 = true
        ∧ s.dualUnit w' y.2 = true := by
  obtain ⟨hpick, hsecond⟩ := s.issueFirst_sched q x
  obtain ⟨slots, sched, warps, ht⟩ := s.issueFirst_rest q x
  rw [ht] at hpick hsecond
  refine ⟨_, ht, rfl, hpick, fun y hy => ?_⟩
  obtain ⟨z, hz, rfl⟩ := Option.map_eq_some_iff.1 (hsecond.symm.trans hy)
  obtain ⟨hmem, hne, hdual⟩ := State.secondChoice_some hz
  exact ⟨z.2.1, State.mem_ready.1 hmem, hne, hdual⟩

end spec

/-- Settles O43: the issue set by the rotation and the filling of its places, each selection of the scheduler and of the pool as the best
element of a walk, and the pool's offers by what stands first in its orders. -/
theorem schedulingFetchAndPool : Obligations.SchedulingFetchAndPool := by
  unfold Obligations.SchedulingFetchAndPool
  refine ⟨fun s c sel payload h => ⟨exec_ximm_misused h, exec_ximm_governs h⟩, fun s wid i c hctx hline hissue hi => ?_,
    fun s wid w hw hlen h2 => ?_, fun s core quarter hfree hcore hquarter => ?_, fun s core quarter => ?_⟩
  · have h : MayFetch s wid i c := ⟨hctx, hline, hissue⟩
    exact ⟨fun f => h.of_badPc, fun ps sub => h.of_fault, fun hc hf => ⟨fun f => h.of_badLine hc hf, fun l hr =>
      ⟨h.of_noTarget hc hf hr, h.of_line hi hc hf hr⟩⟩⟩
  · have hrot := w.rotated_setOnly s.cycle
    have hlen' := hrot.size.trans hlen
    have hset := hrot.trans (Warp.fillSet_setOnly _ 2)
    have hissuing : ((w.rotated s.cycle).fillSet 2).issuing ≤ 2 := Warp.fillSet_issuing 2 hlen' (Warp.rotated_issuing.trans h2)
    refine ⟨_, exec_issueSetRotation hw, hset.rest, hset.path, hissuing,
      fun hlt i hi hr => Warp.fillSet_full 2 hlen' (Nat.le_add_left ..) hlt hi ((hrot.runs i).trans hr),
      fun i _ hin hu => Warp.fillSet_stays 2 (Warp.rotated_stays hin hu), fun i hout hlong hlt hunits => ?_⟩
    rw [Warp.rotated_of_units hunits]
    exact Warp.fillSet_longest 1 hlen hlt hout hlong
  · have h : IssueTurn s core quarter := ⟨hfree, hcore, hquarter⟩
    constructor
    · rintro ⟨wid, w, i, hhere, hent, hmid⟩
      have hmem : (wid, w, i) ∈ s.midPairs (4 * core + quarter) :=
        State.mem_quarterPaths.2 ⟨hhere, Bool.and_eq_true_iff.2 ⟨hent, hmid⟩⟩
      cases hl : s.midPairs (4 * core + quarter) with
      | nil => simp [hl] at hmem
      | cons x r =>
        obtain ⟨hx, hmid⟩ := State.mem_quarterPaths.1 (hl ▸ List.mem_cons_self .. : x ∈ s.midPairs (4 * core + quarter))
        exact ⟨x.1, x.2.1, x.2.2, ⟨hx, Bool.and_eq_true_iff.1 hmid⟩, h.midPair rfl (by rw [hl]; rfl)⟩
    · intro hno
      have hm : s.midPairs (4 * core + quarter) = [] := List.eq_nil_iff_forall_not_mem.2 fun x hx =>
        have hx := State.mem_quarterPaths.1 hx
        hno ⟨x.1, x.2.1, x.2.2, hx.1, Bool.and_eq_true_iff.1 hx.2⟩
      refine ⟨fun y hy => ⟨fun w hw he => h.second_goes rfl hm hy hw he, fun he => h.second_lapses rfl hm hy he⟩,
        fun hz hi => h.idle rfl hm hz (hi.imp_right State.ready_eq_nil), fun hz hi ⟨wid, w, i, hwait⟩ => ?_⟩
      obtain ⟨x, hx⟩ := Option.ne_none_iff_exists'.1 fun hn =>
        List.ne_nil_of_mem (State.mem_quarterPaths (x := (wid, w, i)) |>.2 hwait) (State.firstChoice_none.1 hn)
      refine ⟨x.1, x.2.1, x.2.2, State.firstChoice_chosen hx, fun hhas => ?_, fun hhas => ?_⟩
      · rw [h.slot rfl hm hz hi hx, hhas]
        rfl
      · obtain ⟨t, ht, hspec⟩ := s.issueFirst_spec (4 * core + quarter) x
        exact ⟨t, by rw [h.slot rfl hm hz hi hx, if_pos hhas, ht], hspec⟩
  · refine ⟨fun hle => ⟨exec_evictedWarpReturn_none rfl (.inl hle), exec_granuleGrant_none rfl hle⟩, fun hlt => ⟨?_, ?_⟩, ?_, ?_⟩
    · intro wid w k hx hk hfirst hr
      have hf := State.firstEvicted_some hx hk hfirst
      constructor
      · intro hfit
        have hret := State.returnEvicted_fits hf hfit
        exact ⟨exec_evictedWarpReturn_some rfl hlt hret, fun hone hg =>
          exec_granuleGrant_returns rfl hlt hret (State.firstEvicted_returned hr hone) (State.growers_returned hr hx hg)⟩
      · intro hfit
        have hret := State.returnEvicted_waits hf hfit
        exact ⟨exec_evictedWarpReturn_none rfl (.inr hret), exec_granuleGrant_waits rfl hlt (by rw [hf]; rfl) hret⟩
    · intro hnone
      have hf := State.firstEvicted_none.2 hnone
      have hgrant := exec_granuleGrant_serves rfl hlt hf
      refine ⟨exec_evictedWarpReturn_none rfl (.inr (State.returnEvicted_none hf)), fun hg => ?_,
        fun g c n hg hreq hb => ⟨?_, ?_, ?_⟩, ?_⟩
      · rw [hgrant, State.serveGrows_nil hg]
      · intro hbad
        rw [hgrant, State.serveGrows_single hg (State.serveGrow_bad hreq hb hbad)]
      · intro hask hfit
        rw [hgrant, State.serveGrows_single hg (State.serveGrow_fits hreq hb hask hfit)]
      · intro hask hfit
        rw [hgrant, State.serveGrows_refused (State.growTurns_single hg) (State.serveGrow_waits hreq hb hask hfit)]
      · intro g hg hwaited hold hserve
        rw [hgrant, State.serveGrows_refused (State.growTurns_waited hg hwaited hold) hserve]
    · exact exec_warpEviction_none rfl
    · intro hblocked hcand
      obtain ⟨⟨wid, w⟩, hv, hx, hbest⟩ := State.victim_some hcand
      refine ⟨wid, w, s.nextEviction (4 * core + quarter), hx, exec_warpEviction_some rfl hblocked hv, fun x j => State.lt_nextEviction,
        fun x hc => (hbest x hc).le⟩

end Sys2Proof.Machine
end

section
/-! What the control instructions share (spec/06): the checks of their bodies, and the warp whose instruction has finished. -/
namespace Sys2Proof.Machine

/-! ### Bodies -/

section bodies
variable {ε α β : Type}

@[simp] theorem except_ok_bind (a : α) (f : α → Except ε β) : (Except.ok a >>= f) = f a := rfl
@[simp] theorem except_error_bind (e : ε) (f : α → Except ε β) : (Except.error e >>= f) = .error e := rfl
@[simp] theorem except_pure (a : α) : (pure a : Except ε α) = .ok a := rfl

@[simp] theorem raise_eq (cause sub : Nat) (lanes : LaneMask) (data : Word) :
    (raise cause sub lanes data : Except Stop α) = .error (.trap ⟨cause, sub, data, lanes⟩) := rfl

@[simp] theorem ofPc_ok (lanes : LaneMask) (a : α) : ofPc lanes (.ok a) = .ok a := rfl
@[simp] theorem ofPc_error (lanes : LaneMask) (f : PcFault) :
    ofPc lanes (.error f : Except PcFault α) = .error (.trap ⟨f.1, f.2.1, f.2.2, lanes⟩) := rfl

end bodies

section issuing
variable {s : State} {c : Ctx} (h : Issues s c)
include h

/-- Bodies that agree for the issuing path answer alike. -/
theorem run_congr {b b' : Ctx → Except Stop State} (hb : b c = b' c) : s.run b = s.run b' := by
  simp only [State.run, State.issue, h.1, h.2, hb]

theorem Issues.block : c.bid = c.w.block := (ctxOf_eq_some h.live.1).2.2.2.2.2.1
theorem Issues.path : c.p = c.w.path c.pidx := (ctxOf_eq_some h.live.1).2.2.2.2.1

theorem Issues.not_halted : c.w.halted = false := by
  obtain ⟨-, -, -, hstop, -⟩ := h.live
  exact (Bool.or_eq_false_iff.1 hstop).1

end issuing

/-! ### The warp whose instruction has finished -/

section finished
variable (s : State) (c : Ctx) (w : Warp)

/-- The warp of a finished instruction. -/
def Warp.finished (cycle : Nat) : Warp :=
  { w.setPath c.pidx ((w.path c.pidx).issuedAt cycle) with retired := w.retired + 1 }.rotate c.pidx cycle

theorem State.finish_warp : (s.finish c w).warps.get? c.wid = some (w.finished c s.cycle) := State.warp_finish ..

theorem Warp.finished_eq (cycle : Nat) :
    w.finished c cycle = { w with retired := w.retired + 1, paths := (w.finished c cycle).paths } := by
  rw [Warp.finished, Warp.rotate_eq]
  rfl

@[simp] theorem Warp.setPath_length (i : Nat) (p : Path) : (w.setPath i p).paths.length = w.paths.length := List.length_set

theorem Warp.finished_length (cycle : Nat) : (w.finished c cycle).paths.length = w.paths.length := by
  unfold Warp.finished Warp.rotate
  split <;> simp [Warp.setPath]

theorem Warp.finished_path (hi : c.pidx < w.paths.length) (cycle : Nat) :
    ((w.path c.pidx).issuedAt cycle).SameOutsideSet ((w.finished c cycle).path c.pidx) := by
  have h := Warp.path_setPath_same w c.pidx ((w.path c.pidx).issuedAt cycle) hi
  exact h ▸ Warp.rotate_path { w.setPath c.pidx ((w.path c.pidx).issuedAt cycle) with retired := w.retired + 1 } c.pidx c.pidx cycle

/-- A taken transfer keeps of its warp all but the path table, and its path stands at the target. -/
theorem State.completeAt_warp (target : Word) : ∃ v, (s.completeAt c w target).warps.get? c.wid = some v
    ∧ v = { w with retired := w.retired + 1, paths := v.paths }
    ∧ (c.pidx < w.paths.length → (((w.path c.pidx).took .none).goto target true |>.issuedAt s.cycle).SameOutsideSet (v.path c.pidx)) := by
  refine ⟨_, State.finish_warp .., Warp.finished_eq .., fun hi => ?_⟩
  have h := Warp.finished_path c (w.setPath c.pidx (((w.path c.pidx).took .none).goto target true)) (by simpa using hi) s.cycle
  rwa [Warp.path_setPath_same _ _ _ hi] at h

end finished
end Sys2Proof.Machine
end

section
/-! `nop`, the branch on a stream flag and the indirect jump (spec/06 R165, R167, R173). -/
namespace Sys2Proof.Machine

variable {s : State} {c : Ctx}

theorem exec_nop (h : Issues s c) (g : Guard) : exec (.nop g) s = .next (s.complete c c.w .none) := by
  change (match s.focus with | some (.stream b pre) => _ | _ => s.run fun c => .ok (s.skip c)) = _
  rw [h.1]
  exact run_ok h rfl

/-- Settles O6: `nop` completes without reading its predicate. -/
theorem nopHasNoEffect : Obligations.NopHasNoEffect :=
  ⟨fun _ _ g h => exec_nop h g, by decide +kernel⟩

/-- Where the flag is the sense the branch is not taken; where it is not, its target is checked under R94 and then R91. -/
theorem exec_bre (h : Issues s c) (sense : Bool) (e a : Nat) (o : Int) :
    ((c.w.areg a).flag e = sense → exec (.bre sense e a o) s = .next (s.skip c))
    ∧ ((c.w.areg a).flag e ≠ sense →
      (∀ f, branchTarget c.branchPc o = .error f →
        exec (.bre sense e a o) s = .next (s.takeTrap c.wid c.pidx ⟨f.1, f.2.1, f.2.2, c.p.mask⟩ (unitOf c.p c.pre)))
      ∧ ∀ target, branchTarget c.branchPc o = .ok target →
        (∀ f, s.checkTarget c.env target = .error f →
          exec (.bre sense e a o) s = .next (s.takeTrap c.wid c.pidx ⟨f.1, f.2.1, f.2.2, c.p.mask⟩ (unitOf c.p c.pre)))
        ∧ (s.checkTarget c.env target = .ok () → exec (.bre sense e a o) s = .next (s.completeAt c c.w target))) := by
  refine ⟨fun hf => run_ok h ?_, fun hf => ⟨fun f hb => run_trap h ?_, fun target hb =>
    ⟨fun f hc => run_trap h ?_, fun hc => run_ok h ?_⟩⟩⟩
  · simp [hf]
  · simp [hf, hb]
  · simp [hf, hb, hc]
  · simp [hf, hb, hc]

/-- Settles O7: the branch not taken, the checks of the one taken in their order, and a warp that keeps its registers. -/
theorem branchOnFlag : Obligations.BranchOnFlag := by
  unfold Obligations.BranchOnFlag
  intro s c sense e a o h _
  obtain ⟨hstay, htaken⟩ := exec_bre h sense e a o
  refine ⟨hstay, fun hf => ?_, fun target => ?_⟩
  · obtain ⟨hlabel, hchecked⟩ := htaken hf
    refine ⟨fun target hb hc => (hchecked target hb).2 hc, ?_⟩
    rintro cause sub d (hb | ⟨target, hb, hc⟩)
    · exact hlabel (cause, sub, d) hb
    · exact (hchecked target hb).1 (cause, sub, d) hc
  · obtain ⟨v, hv, hrest, -⟩ := s.completeAt_warp c c.w target
    exact ⟨v, hv, by rw [hrest]⟩

theorem exec_jmpx_refused (h : Issues s c) {r : Nat} {f : PcFault}
    (hf : checkPc (c.w.sreg r) = .error f ∨ (checkPc (c.w.sreg r) = .ok () ∧ s.checkTarget c.env (c.w.sreg r) = .error f)) :
    exec (.jmpx r) s = .next (s.takeTrap c.wid c.pidx ⟨f.1, f.2.1, f.2.2, c.p.mask⟩ (unitOf c.p c.pre)) := by
  refine run_trap h ?_
  rcases hf with hp | ⟨hp, ht⟩
  · simp [hp]
  · simp [hp, ht]

theorem exec_jmpx_taken (h : Issues s c) {r : Nat} (hp : checkPc (c.w.sreg r) = .ok ()) (ht : s.checkTarget c.env (c.w.sreg r) = .ok ()) :
    exec (.jmpx r) s = .next (s.completeAt c c.w (c.w.sreg r)) :=
  run_ok h (by simp [hp, ht])

/-- Settles O8: the checks of the register's value in their order, and a warp that keeps all but its path table. -/
theorem indirectJump : Obligations.IndirectJump := by
  unfold Obligations.IndirectJump
  intro s c r h hi
  refine ⟨fun f hf => exec_jmpx_refused h hf, fun hp ht => ⟨exec_jmpx_taken h hp ht, ?_⟩⟩
  obtain ⟨v, hv, hrest, hpath⟩ := s.completeAt_warp c c.w (c.w.sreg r)
  have hpath := hpath hi
  rw [← h.path] at hpath
  refine ⟨v, hv, hpath.keeps Path.pc, hpath.keeps Path.mask, hpath.keeps Path.entry, ?_⟩
  rw [hrest]
  exact ⟨rfl, rfl, rfl, rfl, rfl⟩

end Sys2Proof.Machine
end

section
/-! Returning from a trap (spec/06 R178, spec/22 R460). -/
namespace Sys2Proof.Machine

/-! ### The restored warp -/

section restored
variable (w : Warp) (pidx : Nat) (bs : List Byte)

theorem Warp.foldl_setVreg_eq (f : Nat → Nat → Option Lane) (l : List Nat) :
    l.foldl (fun w i => w.setVreg i (f i)) w = { w with v := (l.foldl (fun w i => w.setVreg i (f i)) w).v } := by
  induction l generalizing w with
  | nil => rfl
  | cons i l ih => exact ih (w.setVreg i (f i))

/-- The path that trapped stands in the restored warp where the frame says. -/
theorem Warp.restoreFrame_path (hi : pidx < w.paths.length) : (w.restoreFrame pidx bs).path pidx =
    { w.path pidx with
      pc := BitVec.ofNat 64 (fieldAt bs 0 8), line := none, arrived := w.trapArrived.filter (· == BitVec.ofNat 64 (fieldAt bs 0 8))
      window := (List.range 8).map fun k => placeOfFrame bs (fieldAt bs (0x44 + k) 1) (0x800 + 256 * k) } := by
  unfold Warp.restoreFrame
  rw [Warp.foldl_setVreg_eq]
  exact Warp.path_setPath_same _ _ _ (by simpa using hi)

theorem Warp.restoreFrame_length : (w.restoreFrame pidx bs).paths.length = w.paths.length := by
  unfold Warp.restoreFrame
  rw [Warp.foldl_setVreg_eq]
  simp [Warp.setPath]

theorem Warp.restoreFrame_sreg {i : Nat} (hi : i < 64) :
    (w.restoreFrame pidx bs).sreg i = BitVec.ofNat 64 (fieldAt bs (0x1C0 + 8 * i) 8) := by
  simp [Warp.restoreFrame, Warp.setPath, Warp.sreg, nth, hi]

theorem Warp.restoreFrame_preg {i : Nat} (h0 : i ≠ 0) (hi : i < 8) :
    (w.restoreFrame pidx bs).preg i = BitVec.ofNat 32 (fieldAt bs (0x1A0 + 4 * i) 4) := by
  simp [Warp.restoreFrame, Warp.setPath, Warp.preg, nth, h0, hi]

theorem Warp.restoreFrame_flag {l : Nat} (hl : l < 32) :
    (w.restoreFrame pidx bs).flag l = BitVec.ofNat 5 (fieldAt bs (0x50 + l) 1) := by
  simp [Warp.restoreFrame, Warp.setPath, Warp.flag, nth_laneIndices_map, hl]

end restored

/-! ### The checks of `eret` -/

/-- The paths of a warp that run in its handler. -/
def Warp.handling (w : Warp) : List Nat := (List.range 16).filter fun i => (w.path i).state != .free && !w.frozen.contains i

/-- Where every other path is free or frozen, one path runs in the handler. -/
theorem Warp.handling_alone {w : Warp} {pidx : Nat} (hi : pidx < 16) (hp : (w.path pidx).state ≠ .free)
    (hf : w.frozen.contains pidx = false) (alone : ∀ i, i < 16 → i ≠ pidx → (w.path i).state ≠ .free → w.frozen.contains i = true) :
    w.handling.length = 1 := by
  have only : w.handling = (List.range 16).filter (· == pidx) := by
    refine List.filter_congr fun i hi => ?_
    rcases eq_or_ne i pidx with rfl | hne
    · rw [hf, bne_iff_ne.2 hp]
      simp
    · by_cases hfree : (w.path i).state = .free
      · simp [hfree, hne]
      · rw [alone i (List.mem_range.1 hi) hne hfree]
        simp [hne]
  rw [only, ← List.count_eq_length_filter]
  exact List.count_eq_one_of_mem List.nodup_range (List.mem_range.2 hi)

/-- What `eret` does with the frame it has read (R460). -/
def State.returnBy (s : State) (c : Ctx) (bs : List Byte) : Except Stop State :=
  if frameMatches c.w bs = false then raise 0x01 0x0B c.p.mask
  else if frameAddressesOk bs = false then raise 0x10 0x08 c.p.mask
  else do
    ofPc c.p.mask (checkPc (BitVec.ofNat 64 (fieldAt bs 0 8)))
    return (s.finish c (c.w.restoreFrame c.pidx bs)).setPath c.wid c.pidx fun p => { p with exempt := 2 }

theorem State.returnFromTrap_outside {s : State} {c : Ctx} (h : c.w.inHandler = false) :
    s.returnFromTrap c = .error (.trap ⟨0x01, 0x0B, 0, c.p.mask⟩) := by
  simp [State.returnFromTrap, h]

theorem State.returnFromTrap_inside {s : State} {c : Ctx} {bs : List Byte} (hin : c.w.inHandler = true) (hone : c.w.handling.length = 1)
    (hread : s.readOwn c.wid c.env (((s.parts.get? c.env.part).elim 0 (·.tframe)) + c.w.frameSlot * 8192) 8192 = .ok bs) :
    s.returnFromTrap c = s.returnBy c bs := by
  have hgo : ¬(!c.w.inHandler || c.w.handling.length != 1) = true := by simp [hin, hone]
  unfold State.returnFromTrap frameAddr
  dsimp only
  refine (if_neg hgo).trans ?_
  rw [hread]
  cases hm : frameMatches c.w bs <;> cases ha : frameAddressesOk bs <;> simp [State.returnBy, hm, ha]

/-! ### The warp out of its handler -/

/-- The restored warp when its instruction has finished. -/
def Ctx.returned (c : Ctx) (bs : List Byte) (cycle : Nat) : Warp :=
  let w := (c.w.restoreFrame c.pidx bs).finished c cycle
  w.setPath c.pidx { w.path c.pidx with exempt := 2 }

theorem Ctx.returned_eq (c : Ctx) (bs : List Byte) (cycle : Nat) : c.returned bs cycle =
    { c.w.restoreFrame c.pidx bs with
      retired := (c.w.restoreFrame c.pidx bs).retired + 1, paths := (c.returned bs cycle).paths } := by
  unfold Ctx.returned
  dsimp only
  rw [Warp.finished_eq]
  rfl

theorem Ctx.returned_path (c : Ctx) (hi : c.pidx < c.w.paths.length) (bs : List Byte) (cycle : Nat) :
    ∃ q, (((c.w.restoreFrame c.pidx bs).path c.pidx).issuedAt cycle).SameOutsideSet q
      ∧ (c.returned bs cycle).path c.pidx = { q with exempt := 2 } := by
  have hr : c.pidx < (c.w.restoreFrame c.pidx bs).paths.length := by rwa [Warp.restoreFrame_length]
  exact ⟨_, Warp.finished_path c _ hr cycle, Warp.path_setPath_same _ _ _ (by rwa [Warp.finished_length])⟩

theorem State.returned_warp (s : State) (c : Ctx) (bs : List Byte) :
    ((s.finish c (c.w.restoreFrame c.pidx bs)).setPath c.wid c.pidx fun p => { p with exempt := 2 }).warps.get? c.wid
      = some (c.returned bs s.cycle) := by
  rw [State.setPath_warps, NMap.get?_adjust, if_pos rfl, State.finish_warp]
  rfl

/-- Settles O5: the checks of `eret` in their order, and the warp it restores. -/
theorem trapReturn : Obligations.TrapReturn := by
  unfold Obligations.TrapReturn
  intro s c h
  refine ⟨fun hout => run_trap h (State.returnFromTrap_outside hout), fun bs hin alone hf hi hlen hread => ?_⟩
  have hlive : (c.w.path c.pidx).state ≠ .free := by
    rw [← h.path, h.live.2.1]
    decide
  have hbody := State.returnFromTrap_inside hin (Warp.handling_alone hi hlive hf alone) hread
  refine ⟨fun hm => run_trap h ?_, fun hm ha => run_trap h ?_, fun hm ha hpc => ?_⟩
  · simp [hbody, State.returnBy, hm]
  · simp [hbody, State.returnBy, hm, ha]
  · have hrun : exec .eret s =
        .next ((s.finish c (c.w.restoreFrame c.pidx bs)).setPath c.wid c.pidx fun p => { p with exempt := 2 }) :=
      run_ok h (by simp [hbody, State.returnBy, hm, ha, hpc])
    obtain ⟨q, hq, hpath⟩ := c.returned_path hlen bs s.cycle
    rw [Warp.restoreFrame_path _ _ _ hlen, ← h.path] at hq
    refine ⟨_, c.returned bs s.cycle, hrun, s.returned_warp c bs, rfl, ?_⟩
    rw [hpath, Ctx.returned_eq]
    exact ⟨rfl, rfl, rfl, rfl, fun _ hi => c.w.restoreFrame_sreg c.pidx bs hi, fun _ hl => c.w.restoreFrame_flag c.pidx bs hl,
      fun i h1 hi => c.w.restoreFrame_preg c.pidx bs (by omega) hi, hq.keeps Path.pc, hq.keeps Path.mask, hq.keeps Path.entry, hq.keeps Path.window⟩

end Sys2Proof.Machine
end

section
/-! Lane masks made lane by lane (spec/01 R19, spec/03 R103). -/
namespace Sys2Proof.Machine

theorem testBit_foldr_bits (f : Nat → Bool) (l : List Nat) (i : Nat) :
    (l.foldr (fun k n => n * 2 + (f k).toNat) 0).testBit i = (l[i]?).elim false f := by
  induction l generalizing i with
  | nil => simp
  | cons k l ih =>
    cases i with
    | zero => cases h : f k <;> simp [Nat.testBit_zero, h]
    | succ i =>
      have hdiv : (List.foldr (fun k n => n * 2 + (f k).toNat) 0 l * 2 + (f k).toNat) / 2 = List.foldr (fun k n => n * 2 + (f k).toNat) 0 l := by
        cases f k <;> simp; omega
      rw [List.foldr_cons, Nat.testBit_succ, hdiv, ih]
      simp

theorem getLsbD_maskOf (f : Nat → Bool) {l : Nat} (hl : l < 32) : (maskOf f).getLsbD l = f l := by
  rw [maskOf, BitVec.getLsbD_ofNat, testBit_foldr_bits]
  simp [hl, laneIndices]

theorem mem_lanesOf {m : LaneMask} {l : Nat} : l ∈ lanesOf m ↔ l < 32 ∧ m.getLsbD l = true := by
  simp [lanesOf, laneIndices]

/-- A mask is empty where no lane stands in it. -/
theorem laneMask_ne_zero_iff (m : LaneMask) : m ≠ 0 ↔ ∃ l, l < 32 ∧ m.getLsbD l = true := by
  refine ⟨fun h => ?_, fun ⟨l, _, hm⟩ h => by simp [h] at hm⟩
  by_contra hno
  refine h (BitVec.eq_of_getLsbD_eq fun l hl => ?_)
  simpa using fun hm => hno ⟨l, hl, hm⟩

/-- The leader of a lane's quad is there where a present lane of the quad is. -/
theorem leader_isSome_iff (present mask : LaneMask) (l : Nat) :
    (leader present mask l).isSome = true ↔ ∃ k, k / 4 = l / 4 ∧ mask.getLsbD k = true ∧ present.getLsbD k = true := by
  unfold leader
  rw [List.findSome?_isSome_iff]
  constructor
  · rintro ⟨j, hj, hk⟩
    simp only [List.mem_cons, List.not_mem_nil, or_false] at hj
    refine ⟨l / 4 * 4 + j, by omega, ?_⟩
    simpa using hk
  · rintro ⟨k, hq, hm, hp⟩
    refine ⟨k % 4, by simp only [List.mem_cons, List.not_mem_nil, or_false]; omega, ?_⟩
    have hk : l / 4 * 4 + k % 4 = k := by omega
    simp [hk, hm, hp]

end Sys2Proof.Machine
end

section
/-! A register allocation changed (spec/06 R174): where each register stands after it. -/
namespace Sys2Proof.Machine

section sets
variable {α : Type} (pos : Nat → Nat) (x : Nat → α) (v : List α) (d : α)

/-- A list with an element set at the position of each index, in turn. -/
def setAll (m : Nat) : List α := (List.range m).foldl (fun v i => v.set (pos i) (x i)) v

theorem setAll_succ (m : Nat) : setAll pos x v (m + 1) = (setAll pos x v m).set (pos m) (x m) := by
  simp [setAll, List.range_succ]

theorem setAll_length (m : Nat) : (setAll pos x v m).length = v.length := by
  induction m with
  | zero => rfl
  | succ m ih => rw [setAll_succ, List.length_set, ih]

theorem nth_setAll_other {m j : Nat} (h : ∀ i, i < m → pos i ≠ j) : nth (setAll pos x v m) j d = nth v j d := by
  induction m with
  | zero => rfl
  | succ m ih =>
    rw [setAll_succ, nth_set_other _ _ _ _ _ (h m (Nat.lt_succ_self m)).symm, ih fun i hi => h i (Nat.lt_succ_of_lt hi)]

theorem nth_setAll_same {m k : Nat} (hk : k < m) (hpos : pos k < v.length) (inj : ∀ i, i < m → pos i = pos k → i = k) :
    nth (setAll pos x v m) (pos k) d = x k := by
  induction m with
  | zero => omega
  | succ m ih =>
    rw [setAll_succ]
    rcases eq_or_ne k m with rfl | hne
    · exact nth_set_same _ _ _ _ (by rwa [setAll_length])
    · rw [nth_set_other _ _ _ _ _ fun h => hne (inj m (Nat.lt_succ_self m) h.symm).symm]
      exact ih (by omega) fun i hi => inj i (Nat.lt_succ_of_lt hi)

end sets

section relocate
variable (w : Warp) (n : Nat)

/-- How many registers are resident below the top of both windows. -/
def Warp.resident (n : Nat) : Nat := w.wbase + min w.width (min 32 n) - w.sfloor

theorem Warp.relocate_v : (w.relocate n).v = setAll (fun i => (w.sfloor + i) % n) (fun i => w.logical (w.sfloor + i))
    (List.replicate n (List.replicate 32 0)) (w.resident n) := rfl

theorem Warp.relocate_eq : w.relocate n = { w with n := n, v := (w.relocate n).v } := rfl

theorem Warp.relocate_length : (w.relocate n).v.length = n := by
  rw [Warp.relocate_v, setAll_length, List.length_replicate]

variable {w n}

/-- Resident registers less than n apart stand in different places of an allocation of n (R144). -/
theorem Warp.resident_place_inj {i k : Nat} (hi : i < n) (hk : k < n) (h : (w.sfloor + i) % n = (w.sfloor + k) % n) : i = k :=
  (Warp.vreg_place_inj { w with wbase := w.sfloor, n := n } hi hk).1 h

/-- A register below both windows keeps its value. -/
theorem Warp.relocate_vreg (hs : w.sfloor ≤ w.wbase) (hfit : w.resident n ≤ n) {i : Nat} (hi : i < min w.width (min 32 n)) :
    (w.relocate n).vreg i = w.vreg i := by
  have hk : w.wbase - w.sfloor + i < w.resident n := by unfold Warp.resident; omega
  have hat : w.sfloor + (w.wbase - w.sfloor + i) = w.wbase + i := by omega
  have hset := nth_setAll_same (fun i => (w.sfloor + i) % n) (fun i => w.logical (w.sfloor + i)) (List.replicate n (List.replicate 32 0))
    (List.replicate 32 0) hk (by rw [List.length_replicate]; exact Nat.mod_lt _ (by omega)) fun j hj => Warp.resident_place_inj (by omega) (by omega)
  rw [← Warp.relocate_v, hat] at hset
  exact hset

/-- A register that becomes addressable reads zero. -/
theorem Warp.relocate_vreg_new (hs : w.sfloor ≤ w.wbase) {i : Nat} (hi : min w.width (min 32 n) ≤ i) (htop : w.wbase - w.sfloor + i < n) :
    (w.relocate n).vreg i = List.replicate 32 0 := by
  have hat : w.wbase + i = w.sfloor + (w.wbase - w.sfloor + i) := by omega
  have hnew : ∀ k, k < w.resident n → (w.sfloor + k) % n ≠ (w.wbase + i) % n := by
    intro k hk h
    unfold Warp.resident at hk
    rw [hat] at h
    have := Warp.resident_place_inj (by omega) htop h
    omega
  have hset := nth_setAll_other (fun i => (w.sfloor + i) % n) (fun i => w.logical (w.sfloor + i)) (List.replicate n (List.replicate 32 0))
    (List.replicate 32 0) hnew
  rw [← Warp.relocate_v] at hset
  refine hset.trans ?_
  simp [nth, Nat.mod_lt _ (show 0 < n by omega)]

end relocate
end Sys2Proof.Machine
end

section
/-! The join stack and its meeting points (spec/06 R157, R158, R161): one rule per operation of a warp whose entries stand in hardware. -/
namespace Sys2Proof.Machine

/-! ### The cycle of a stack access -/

section cycle
variable (s : State)

theorem State.logLine_cycle (part cls : Nat) (p : Piece) : (s.logLine part cls p).cycle = s.cycle := by
  unfold State.logLine
  extract_lets line old u
  split
  · rfl
  · split
    · rfl
    · split
      · split <;> rfl
      · extract_lets at' entry s1 cycle
        change s1.cycle = s.cycle
        unfold s1
        split
        · split
          · split
            · exact (s.writePlain_sameWork ‹_›).cycle
            · rfl
          · rfl
        · rfl

theorem State.foldl_cycle {α : Type} {f : State → α → State} (h : ∀ s a, (f s a).cycle = s.cycle) (l : List α) :
    (l.foldl f s).cycle = s.cycle :=
  List.foldlRecOn (motive := fun t => t.cycle = s.cycle) l f rfl fun t ht a _ => (h t a).trans ht

theorem State.track_cycle (bid : Nat) (ps : List Piece) : (s.track bid ps).cycle = s.cycle := by
  unfold State.track
  extract_lets cls
  split
  · rfl
  · exact s.foldl_cycle (fun s p => s.logLine_cycle _ _ p) ps

theorem State.performStore_cycle (t : Store) (cores : CoreMask) : (s.performStore t cores).cycle = s.cycle := by
  unfold State.performStore
  extract_lets core s1 s2 s3 s4
  have h2 : s2.cycle = s.cycle := by
    unfold s2
    split <;> exact s.track_cycle _ _
  have h3 : s3.cycle = s.cycle := (s2.performAt_sameWork ..).cycle.trans h2
  have h4 : s4.cycle = s.cycle := by
    unfold s4
    split <;> exact h3
  split
  · exact (s2.nextClock_sameWork _).cycle.trans h2
  · split <;> exact h4

theorem State.landOwn_cycle (wid bid : Nat) (ps : List Piece) : (s.landOwn wid bid ps).cycle = s.cycle := by
  unfold State.landOwn
  extract_lets mine later
  refine s.foldl_cycle (fun s t => ?_) _
  split
  · exact State.performStore_cycle ..
  · rfl

theorem State.writeStack_cycle (wid bid : Nat) (e : Env) (lanes : LaneMask) (a : Nat) (bs : List Byte) :
    Gives (fun t => t.cycle = s.cycle) (s.writeStack wid bid e lanes a bs) := by
  refine ⟨fun t ht => ?_⟩
  unfold State.writeStack State.writeOwn at ht
  cases hc : s.checkPlain e a bs.length false true with
  | error r => rw [hc] at ht; cases ht
  | ok ps =>
    rw [hc] at ht
    cases ht
    exact (State.writePieces_sameWork _ _).cycle.trans ((State.track_cycle _ _ _).trans (s.landOwn_cycle _ _ _))

end cycle

/-! ### Entries -/

section entries
variable {s : State} {w : Warp} {id : Nat} {j : JoinEntry} (e : Env) (lanes : LaneMask)

/-- What a change of the join stack keeps: the cycle, and the paths of the warp. -/
def KeepsPaths (x y : Held) : Prop := y.1.cycle = x.1.cycle ∧ y.2.paths = x.2.paths

theorem makeJoinRoom_keepsPaths (x : Held) : Gives (KeepsPaths x) (makeJoinRoom e lanes x) := by
  unfold makeJoinRoom
  dsimp only
  split
  · exact (gives_pure _).2 ⟨rfl, rfl⟩
  · split
    · exact (gives_pure _).2 ⟨rfl, rfl⟩
    · exact (State.writeStack_cycle ..).bind fun t ht => (gives_pure _).2 ⟨ht, rfl⟩

/-- An entry had from the join stack leaves the cycle and the paths. -/
theorem getJoin_keepsPaths (id : Nat) (x : Held) : Gives (fun y => KeepsPaths x y.2) (getJoin e lanes id x) := by
  unfold getJoin
  dsimp only
  split
  · exact (gives_pure _).2 ⟨rfl, rfl⟩
  · refine gives_bind_of_forall fun bs => ?_
    split
    · exact gives_raise ..
    · refine gives_after_check ?_
      exact (makeJoinRoom_keepsPaths e lanes x).bind fun y hy => (gives_pure _).2 hy

/-- An entry held in hardware is had without effect. -/
theorem getJoin_held (h : w.joins.get? id = some j) : getJoin e lanes id (s, w) = .ok (j, s, w) := by
  simp [getJoin, h]

theorem NMap.key_mem_of_isSome {α : Type} {m : NMap α} {k : Nat} (h : (m.get? k).isSome = true) : k ∈ m.map (·.1) := by
  obtain ⟨v, hv⟩ := Option.isSome_iff_exists.1 h
  exact List.mem_map.2 ⟨_, NMap.mem_of_get? hv, rfl⟩

/-- Of the ids below one more than there are entries, one is free. -/
theorem Warp.freeJoin_spec (w : Warp) : w.freeJoin ≤ w.joins.length + w.jspilled.length
    ∧ w.joins.get? w.freeJoin = none ∧ w.jspilled.get? w.freeJoin = none := by
  unfold Warp.freeJoin
  dsimp only
  cases hf : (List.range (w.joins.length + w.jspilled.length + 1)).find? fun i => (w.joins.get? i).isNone && (w.jspilled.get? i).isNone with
  | some i =>
    have hi := List.mem_range.1 (List.mem_of_find?_eq_some hf)
    have hfree := List.find?_some hf
    rw [Bool.and_eq_true, Option.isNone_iff_eq_none, Option.isNone_iff_eq_none] at hfree
    exact ⟨Nat.le_of_lt_succ hi, hfree⟩
  | none =>
    have taken : List.range (w.joins.length + w.jspilled.length + 1) ⊆ w.joins.map (·.1) ++ w.jspilled.map (·.1) := by
      intro i hi
      have hi := List.find?_eq_none.1 hf i hi
      rw [Bool.and_eq_true, not_and_or, Bool.not_eq_true, Bool.not_eq_true, Option.isNone_eq_false_iff, Option.isNone_eq_false_iff] at hi
      exact List.mem_append.2 (hi.imp NMap.key_mem_of_isSome NMap.key_mem_of_isSome)
    have hlen := (List.subperm_of_subset List.nodup_range taken).length_le
    simp at hlen

/-- The warp whose join stack holds one more entry, the lowest free one. -/
def Warp.opened (w : Warp) (j : JoinEntry) : Warp :=
  { w with joins := w.joins.put w.freeJoin j
           calls := if j.kind == .call || j.kind == .callx then w.freeJoin :: w.calls else w.calls }

/-- Where hardware and the area have room, an entry opens. -/
theorem openJoin_room (j : JoinEntry) (hroom : w.joins.length < 32)
    (harea : w.jstk.toNat + 16 * (w.joins.length + w.jspilled.length + 1) ≤ w.jstklim.toNat) :
    openJoin e lanes j (s, w) = .ok (w.freeJoin, s, w.opened j) := by
  obtain ⟨hle, -⟩ := w.freeJoin_spec
  have hin : ¬w.jstklim.toNat < w.jstk.toNat + 16 * (w.freeJoin + 1) := by omega
  simp [openJoin, makeJoinRoom, hin, hroom, Warp.opened]

end entries

/-! ### Settling (R158) -/

/-- The PC at which the group of a mark or call entry goes on. -/
def JoinEntry.onward (j : JoinEntry) : Word := if j.kind = .mark then pcNext j.rejoin else j.rejoin

/-- What the settling of an entry pops from the return-address stack: a call entry its own entry, another nothing. -/
def JoinEntry.pop (j : JoinEntry) (e : Env) (lanes : LaneMask) (id : Nat) (x : Held) : Except Stop Held :=
  if j.kind = .call then popCall e lanes id j.rejoin x else .ok x

/-- The warp in which a scope's group goes on and its entry is free. -/
def Warp.released (w : Warp) (g id : Nat) (j : JoinEntry) (cycle : Nat) : Warp :=
  (w.setPath g ((w.path g).release j.onward j.parent cycle)).freeJoinEntry id cycle

theorem Warp.freeJoinEntry_eq (w : Warp) (id cycle : Nat) : w.freeJoinEntry id cycle =
    { w with joins := w.joins.del id, jspilled := w.jspilled.del id, calls := w.calls.filter (· != id)
             paths := (w.freeJoinEntry id cycle).paths } := by
  unfold Warp.freeJoinEntry
  dsimp only
  split <;> rfl

/-- Freeing an entry changes of a path at most its place in the issue set. -/
theorem Warp.freeJoinEntry_path (w : Warp) (id cycle i : Nat) : (w.path i).SameOutsideSet ((w.freeJoinEntry id cycle).path i) := by
  unfold Warp.freeJoinEntry
  dsimp only
  split
  · simp only [Warp.path, nth, List.getElem?_map]
    cases w.paths[i]? with
    | none => exact .refl _
    | some p =>
      simp only [Option.map_some, Option.getD_some]
      split
      · rfl
      · exact .refl _
  · exact .refl _

section released
variable (w : Warp) (g id : Nat) (j : JoinEntry) (cycle : Nat)

theorem Warp.released_joins : (w.released g id j cycle).joins = w.joins.del id := by
  rw [Warp.released, Warp.freeJoinEntry_eq]
  rfl

theorem Warp.released_eq : w.released g id j cycle =
    { w with joins := w.joins.del id, jspilled := w.jspilled.del id, calls := w.calls.filter (· != id)
             paths := (w.released g id j cycle).paths } := by
  rw [Warp.released, Warp.freeJoinEntry_eq]
  rfl

theorem Warp.released_path_same (hg : g < w.paths.length) :
    ((w.path g).release j.onward j.parent cycle).SameOutsideSet ((w.released g id j cycle).path g) := by
  have h := Warp.freeJoinEntry_path (w.setPath g ((w.path g).release j.onward j.parent cycle)) id cycle g
  rwa [Warp.path_setPath_same _ _ _ hg] at h

theorem Warp.released_path_other {i : Nat} (hi : i ≠ g) : (w.path i).SameOutsideSet ((w.released g id j cycle).path i) := by
  have h := Warp.freeJoinEntry_path (w.setPath g ((w.path g).release j.onward j.parent cycle)) id cycle i
  rwa [Warp.path_setPath_other _ _ _ _ hi] at h

end released

section settle
variable {s : State} {w : Warp} {id g : Nat} {j pj : JoinEntry} (e : Env) (lanes : LaneMask) (fuel : Nat)
  (hj : w.joins.get? id = some j) (hk : j.kind ≠ .callx)
include hj hk

theorem settle_waits (ho : 0 < j.out) : settle e lanes (fuel + 1) id (s, w) = .ok ⟨s, w, false⟩ := by
  obtain ⟨kind, rejoin, parent, out, group, held⟩ := j
  obtain ⟨n, rfl⟩ := Nat.exists_eq_succ_of_ne_zero (Nat.ne_of_gt ho)
  cases kind <;> simp_all [settle, getJoin_held]

theorem settle_last (ho : j.out = 0) (hg : j.group = some g) : settle e lanes (fuel + 1) id (s, w) = (do
    let (s, w) ← j.pop e lanes id (s, w)
    ofPc lanes (checkPc j.onward)
    let w := w.released g id j s.cycle
    let (pj, s, w) ← getJoin e lanes j.parent (s, w)
    if pj.kind = .callx ∧ j.onward = pj.rejoin then settle e lanes fuel j.parent (s, w.arriveAt g j.parent pj)
    else return ⟨s, w, false⟩) := by
  obtain ⟨kind, rejoin, parent, out, group, held⟩ := j
  cases kind <;> simp_all [settle, getJoin_held, JoinEntry.onward, Warp.released, JoinEntry.pop]

/-- The last to come lets the group go on, under an entry that is no callx. -/
theorem settle_releases {v : Warp} (ho : j.out = 0) (hg : j.group = some g)
    (hpop : j.pop e lanes id (s, w) = .ok (s, v)) (hpc : checkPc j.onward = .ok ())
    (hp : v.joins.get? j.parent = some pj) (hne : j.parent ≠ id) (hpk : pj.kind ≠ .callx) :
    settle e lanes (fuel + 1) id (s, w) = .ok ⟨s, v.released g id j s.cycle, false⟩ := by
  have hparent : (v.released g id j s.cycle).joins.get? j.parent = some pj := by
    rw [Warp.released_joins, NMap.get?_del_other _ _ _ hne, hp]
  rw [settle_last e lanes fuel hj hk ho hg, hpop]
  simp [hpc, getJoin_held _ _ hparent, hpk]

/-- A PC at which a group cannot go on is refused. -/
theorem settle_badPc {v : Warp} {f : PcFault} (ho : j.out = 0) (hg : j.group = some g)
    (hpop : j.pop e lanes id (s, w) = .ok (s, v)) (hpc : checkPc j.onward = .error f) :
    settle e lanes (fuel + 1) id (s, w) = .error (.trap ⟨f.1, f.2.1, f.2.2, lanes⟩) := by
  rw [settle_last e lanes fuel hj hk ho hg, hpop]
  simp [hpc]

end settle

/-- The warp's last path has left. -/
theorem settle_root {s : State} {w : Warp} {id : Nat} {j : JoinEntry} (e : Env) (lanes : LaneMask) (fuel : Nat)
    (hj : w.joins.get? id = some j) (hk : j.kind = .root) (ho : j.out = 0) (hg : j.group = none) :
    settle e lanes (fuel + 1) id (s, w) = .ok ⟨s, w, true⟩ := by
  obtain ⟨kind, rejoin, parent, out, group, held⟩ := j
  simp_all [settle, getJoin_held]

/-! ### Arriving (R158) -/

/-- An entry at which one more path has come. -/
def JoinEntry.arrived (j : JoinEntry) (pidx : Nat) : JoinEntry := { j with group := some (j.group.getD pidx), out := j.out - 1 }

section arrive
variable (w : Warp) (pidx id : Nat) (j : JoinEntry)

theorem Warp.arriveAt_joins : (w.arriveAt pidx id j).joins = w.joins.put id (j.arrived pidx) := by
  unfold Warp.arriveAt JoinEntry.arrived
  split <;> next hg => simp [hg, Warp.setJoin, Warp.setPath]

theorem Warp.arriveAt_eq : w.arriveAt pidx id j =
    { w with joins := w.joins.put id (j.arrived pidx), paths := (w.arriveAt pidx id j).paths } := by
  rw [← Warp.arriveAt_joins]
  unfold Warp.arriveAt
  split <;> rfl

theorem Warp.arriveAt_length : (w.arriveAt pidx id j).paths.length = w.paths.length := by
  unfold Warp.arriveAt
  split <;> simp [Warp.setJoin, Warp.setPath]

/-- The first to come waits as the scope's group. -/
theorem Warp.arriveAt_first (hi : pidx < w.paths.length) (hg : j.group = none) :
    (w.arriveAt pidx id j).path pidx = { w.path pidx with state := .waitingGroup, inSet := false } := by
  unfold Warp.arriveAt
  rw [hg]
  exact Warp.path_setPath_same _ _ _ hi

/-- A later one joins its lanes to the group, and its entry is free. -/
theorem Warp.arriveAt_later {g : Nat} (hi : pidx < w.paths.length) (hl : g < w.paths.length) (hne : g ≠ pidx) (hg : j.group = some g) :
    (w.arriveAt pidx id j).path pidx = Path.free
      ∧ (w.arriveAt pidx id j).path g = { w.path g with mask := (w.path g).mask ||| (w.path pidx).mask } := by
  unfold Warp.arriveAt
  rw [hg]
  refine ⟨Warp.path_setPath_same _ _ _ (by simpa [Warp.setPath] using hi), ?_⟩
  exact (Warp.path_setPath_other _ _ _ _ hne).trans (Warp.path_setPath_same _ _ _ hl)

/-- The lanes that the scope's group holds when a path has come. -/
def Warp.groupMask (w : Warp) (pidx g : Nat) : LaneMask := if g = pidx then (w.path pidx).mask else (w.path g).mask ||| (w.path pidx).mask

theorem Warp.arriveAt_groupMask {g : Nat} (hi : pidx < w.paths.length) (hin : ∀ k, j.group = some k → k < w.paths.length ∧ k ≠ pidx)
    (hg : j.group.getD pidx = g) : ((w.arriveAt pidx id j).path g).mask = w.groupMask pidx g := by
  cases hj : j.group with
  | none =>
    obtain rfl : pidx = g := by simpa [hj] using hg
    rw [Warp.arriveAt_first w pidx id j hi hj, Warp.groupMask, if_pos rfl]
  | some k =>
    obtain rfl : k = g := by simpa [hj] using hg
    obtain ⟨hl, hne⟩ := hin k hj
    rw [(Warp.arriveAt_later w pidx id j hi hl hne hj).2, Warp.groupMask, if_neg hne]

end arrive

theorem arrive_eq {s : State} {w : Warp} {id : Nat} {j : JoinEntry} (e : Env) (lanes : LaneMask) (pidx : Nat)
    (hj : w.joins.get? id = some j) : arrive e lanes pidx id (s, w) =
      settle e lanes (w.joins.length + w.jspilled.length + 2) id (s, w.arriveAt pidx id j) := by
  simp [arrive, getJoin_held _ _ hj, Warp.joinFuel]

/-! ### The end of a meeting -/

section meeting
variable (w : Warp) (cycle i : Nat)

/-- The warp after a meeting: one more instruction retired, and paths parked for a table entry awake where one is free. -/
def Warp.met : Warp := { w with retired := w.retired + 1 }.entryFreed cycle

theorem Warp.met_eq : w.met cycle = { w with retired := w.retired + 1, paths := (w.met cycle).paths } := by
  unfold Warp.met Warp.entryFreed
  split <;> rfl

theorem Warp.met_path : (w.met cycle).path i = w.path i ∨ (w.met cycle).path i = (w.path i).woken .pathTable cycle := by
  unfold Warp.met Warp.entryFreed
  split
  · exact .inl rfl
  · have h := Warp.wokenFor_path { w with retired := w.retired + 1 } .pathTable cycle i
    split at h
    · exact .inr h
    · exact .inl h

theorem Warp.met_path_of_state (h : (w.path i).state ≠ .parked .pathTable) : (w.met cycle).path i = w.path i := by
  have stays : (w.path i).woken .pathTable cycle = w.path i := if_neg (by simp [h])
  exact (w.met_path cycle i).elim id (·.trans stays)

theorem Warp.met_mask : ((w.met cycle).path i).mask = (w.path i).mask := by
  rcases w.met_path cycle i with h | h <;> rw [h]
  unfold Path.woken
  split <;> rfl

end meeting

end Sys2Proof.Machine
end

section
/-! The branch that splits its path, and the path table (spec/06 R155, R156, R160, R166). -/
namespace Sys2Proof.Machine

/-! ### The path table -/

theorem Warp.freePath_eq_some {w : Warp} {i : Nat} (hi : i < 16) (hfree : (w.path i).state = .free)
    (hfirst : ∀ k, k < i → (w.path k).state ≠ .free) : w.freePath = some i := by
  unfold Warp.freePath
  rw [List.find?_range_eq_some]
  exact ⟨by simp [hfree], List.mem_range.2 hi, fun k hk => by simpa using hfirst k hk⟩

theorem Warp.freePath_eq_none {w : Warp} (h : ∀ i, i < 16 → (w.path i).state ≠ .free) : w.freePath = none :=
  List.find?_eq_none.2 fun i hi => by simpa using h i (List.mem_range.1 hi)

section noEntry
variable {α : Type} {w : Warp} {c : Ctx} (lanes : LaneMask)

/-- With every other entry a waiting group or a held remainder none can free (R160). -/
theorem noEntry_stuck (h : ∀ i, i < 16 → i ≠ c.pidx → (w.path i).state = .waitingGroup ∨ (w.path i).state = .heldRemainder) :
    (noEntry w c lanes : Except Stop α) = .error (.trap ⟨0x71, 0x04, 0, lanes⟩) := by
  refine if_pos (List.all_eq_true.2 fun i hi => ?_)
  by_cases hne : i = c.pidx
  · simp [hne]
  · rcases h i (List.mem_range.1 hi) hne with hs | hs <;> simp [hs]

theorem noEntry_parks (h : ∃ i, i < 16 ∧ i ≠ c.pidx ∧ (w.path i).state ≠ .waitingGroup ∧ (w.path i).state ≠ .heldRemainder) :
    (noEntry w c lanes : Except Stop α) = .error (.park .pathTable) := by
  obtain ⟨i, hi, hne, hg, hr⟩ := h
  refine if_neg fun hall => ?_
  have hi := List.all_eq_true.1 hall i (List.mem_range.2 hi)
  cases hs : (w.path i).state <;> simp_all

end noEntry

/-! ### The two children of a split (R156) -/

section split
variable (c : Ctx) (t : LaneMask) (target : Word) (cycle : Nat)

/-- The lanes that transfer, in an entry of their own outside the issue set. -/
def Ctx.leaving : Path :=
  { (c.p.took .none).goto target true with
    mask := t, last := none, readyAt := none, pairAt := none, inSet := false, units := 0, since := cycle, entering := false }

/-- The lanes that go on at the next slot. -/
def Ctx.staying : Path := { (c.p.took .none).goto c.nextPc false with mask := c.p.mask &&& ~~~t }

/-- The warp with both children, `i` the entry of the new one, and one more path under the innermost join entry. -/
def Ctx.split (w : Warp) (i : Nat) (j : JoinEntry) : Warp :=
  ((w.setPath i (c.leaving t target cycle)).setPath c.pidx (c.staying t)).setJoin c.p.entry { j with out := j.out + 1 }

variable {s : State} {i : Nat} {j : JoinEntry} {s1 : State} {w1 : Warp}

theorem splitPath_free (hfree : c.w.freePath = some i) (hj : getJoin c.env t c.p.entry (s, c.w) = .ok (j, s1, w1)) :
    splitPath s c t target = .ok (s1.finish c (c.split t target s1.cycle w1 i j)) := by
  simp only [splitPath, hfree, hj]
  rfl

theorem splitPath_full (hfull : c.w.freePath = none) : splitPath s c t target = noEntry c.w c (t &&& c.w.present) := by
  simp only [splitPath, hfull]

theorem Ctx.split_path {w : Warp} (hi : i < w.paths.length) (hp : c.pidx < w.paths.length) (hne : i ≠ c.pidx) :
    (c.split t target cycle w i j).path i = c.leaving t target cycle ∧ (c.split t target cycle w i j).path c.pidx = c.staying t
      ∧ ∀ k, k ≠ i → k ≠ c.pidx → (c.split t target cycle w i j).path k = w.path k := by
  refine ⟨(Warp.path_setPath_other _ _ _ _ hne).trans (Warp.path_setPath_same _ _ _ hi), ?_, fun k hk hkp => ?_⟩
  · exact Warp.path_setPath_same _ _ _ (by simpa using hp)
  · exact (Warp.path_setPath_other _ _ _ _ hkp).trans (Warp.path_setPath_other _ _ _ _ hk)

end split

/-! ### `br` -/

section br
variable {s : State} {c : Ctx} {g : Guard} {o : Int} {target : Word} {f : PcFault} (h : Issues s c)
include h

theorem exec_br_untaken (ht : c.act g = 0) : exec (.br g o) s = .next (s.skip c) := run_ok h (by simp [ht])

theorem exec_br_badLabel (ht : c.act g ≠ 0) (hb : branchTarget c.branchPc o = .error f) :
    exec (.br g o) s = .next (s.takeTrap c.wid c.pidx ⟨f.1, f.2.1, f.2.2, c.act g &&& c.w.present⟩ (unitOf c.p c.pre)) :=
  run_trap h ((if_neg ht).trans (by simp [hb]))

theorem exec_br_badTarget (ht : c.act g ≠ 0) (hb : branchTarget c.branchPc o = .ok target) (hc : s.checkTarget c.env target = .error f) :
    exec (.br g o) s = .next (s.takeTrap c.wid c.pidx ⟨f.1, f.2.1, f.2.2, c.act g &&& c.w.present⟩ (unitOf c.p c.pre)) :=
  run_trap h ((if_neg ht).trans (by simp [hb, hc]))

theorem exec_br_whole (ht : c.act g ≠ 0) (hb : branchTarget c.branchPc o = .ok target) (hc : s.checkTarget c.env target = .ok ())
    (hr : c.p.mask &&& ~~~c.act g = 0) : exec (.br g o) s = .next (s.completeAt c c.w target) :=
  run_ok h ((if_neg ht).trans (by simp [hb, hc, hr]))

/-- Where some lanes stay, the path splits. -/
theorem exec_br_splits (ht : c.act g ≠ 0) (hb : branchTarget c.branchPc o = .ok target) (hc : s.checkTarget c.env target = .ok ())
    (hr : c.p.mask &&& ~~~c.act g ≠ 0) : exec (.br g o) s = s.run fun c => splitPath s c (c.act g) target := by
  refine run_congr h ((if_neg ht).trans ?_)
  simp only [hb, hc, ofPc_ok, except_ok_bind]
  exact if_neg hr

end br

/-- Settles O9: the branch ends at the first check that fails, moves the whole path, or splits it where the table has room. -/
theorem branchAndSplit : Obligations.BranchAndSplit := by
  unfold Obligations.BranchAndSplit
  intro s c g o h hlen hp
  refine ⟨exec_br_untaken h, fun ht => ⟨fun f => exec_br_badLabel h ht, fun target f => exec_br_badTarget h ht, fun target hb hc =>
    ⟨exec_br_whole h ht hb hc, fun hr hfull => ?_, ?_⟩⟩⟩
  · have hbr := exec_br_splits h ht hb hc hr
    have hbody := splitPath_full c (c.act g) target (s := s) (Warp.freePath_eq_none hfull)
    exact ⟨fun hstuck => hbr.trans (run_trap h (hbody.trans (noEntry_stuck _ hstuck))),
      fun hwaits => hbr.trans (run_park h (hbody.trans (noEntry_parks _ hwaits)))⟩
  · intro i j s1 w1 hr hi hfree hfirst hj
    obtain ⟨hcycle, hpaths⟩ := (getJoin_keepsPaths c.env (c.act g) c.p.entry (s, c.w)).of_ok _ hj
    dsimp only at hcycle hpaths
    have hlen1 : w1.paths.length = 16 := by rw [hpaths, hlen]
    have hne : i ≠ c.pidx := by
      rintro rfl
      rw [← h.path, h.live.2.1] at hfree
      cases hfree
    have hbody := splitPath_free c (c.act g) target (Warp.freePath_eq_some hi hfree hfirst) hj
    obtain ⟨hleaves, hstays, hothers⟩ := c.split_path (c.act g) target s1.cycle (w := w1) (i := i) (j := j) (by omega) (by omega) hne
    rw [hcycle] at hbody hleaves hstays hothers
    exact ⟨_, (exec_br_splits h ht hb hc hr).trans (run_ok h hbody), rfl, hleaves, hstays, hothers⟩

end Sys2Proof.Machine
end

section
/-! Scopes: `mark` opens one and `join` meets at its end (spec/06 R158, R168, R169). -/
namespace Sys2Proof.Machine

variable {s : State} {c : Ctx}

/-! ### Opening -/

theorem exec_mark_refused (h : Issues s c) {o : Int} {f : PcFault} (hb : branchTarget c.branchPc o = .error f) :
    exec (.mark o) s = .next (s.takeTrap c.wid c.pidx ⟨f.1, f.2.1, f.2.2, c.p.mask⟩ (unitOf c.p c.pre)) :=
  run_trap h (by simp [hb])

/-- The warp whose issuing path stands under an entry it has opened. -/
def Ctx.opening (c : Ctx) (j : JoinEntry) : Warp := (c.w.opened j).setPath c.pidx { c.w.path c.pidx with entry := c.w.freeJoin }

theorem exec_mark_opens (h : Issues s c) {o : Int} {rejoin : Word} (hb : branchTarget c.branchPc o = .ok rejoin) (hroom : c.w.joins.length < 32)
    (harea : c.w.jstk.toNat + 16 * (c.w.joins.length + c.w.jspilled.length + 1) ≤ c.w.jstklim.toNat) :
    exec (.mark o) s = .next (s.complete c (c.opening ⟨.mark, rejoin, c.p.entry, 1, none, none⟩) .none) := by
  refine run_ok h ?_
  simp only [hb, ofPc_ok, except_ok_bind, openJoin_room c.env c.p.mask _ hroom harea]
  rfl

/-! ### Meeting -/

/-- The warp whose issuing path comes to a meeting point: it has issued and taken its place. -/
def Ctx.meeting (c : Ctx) (cycle : Nat) : Warp := c.w.setPath c.pidx ((c.p.took .none).issuedAt cycle)

/-- The same once it has come (R158). -/
def Ctx.arrived (c : Ctx) (j : JoinEntry) (cycle : Nat) : Warp := (c.meeting cycle).arriveAt c.pidx c.p.entry j

section meeting
variable {j pj : JoinEntry} {lanes : LaneMask} {cycle : Nat}

theorem Ctx.meeting_path (hi : c.pidx < c.w.paths.length) : (c.meeting cycle).path c.pidx = (c.p.took .none).issuedAt cycle :=
  Warp.path_setPath_same _ _ _ hi

theorem Ctx.meeting_path_other {i : Nat} (hi : i ≠ c.pidx) : (c.meeting cycle).path i = c.w.path i :=
  Warp.path_setPath_other _ _ _ _ hi

theorem Ctx.meeting_length : (c.meeting cycle).paths.length = c.w.paths.length := Warp.setPath_length ..

theorem Ctx.arrived_length : (c.arrived j cycle).paths.length = c.w.paths.length := by
  rw [Ctx.arrived, Warp.arriveAt_length, Ctx.meeting_length]

theorem Ctx.arrived_eq : c.arrived j cycle = { c.w with
    joins := c.w.joins.put c.p.entry (j.arrived c.pidx), paths := (c.arrived j cycle).paths } := by
  rw [Ctx.arrived, Warp.arriveAt_eq]
  rfl

theorem Ctx.arrived_joins_same : (c.arrived j cycle).joins.get? c.p.entry = some (j.arrived c.pidx) := by
  rw [Ctx.arrived_eq, NMap.get?_put_same]

theorem Ctx.arrived_joins_other {id : Nat} (hne : id ≠ c.p.entry) : (c.arrived j cycle).joins.get? id = c.w.joins.get? id := by
  rw [Ctx.arrived_eq, NMap.get?_put_other _ _ _ _ hne]

/-- The lanes of the scope's group once the path has come. -/
theorem Ctx.arrived_mask {g : Nat} (hi : c.pidx < c.w.paths.length)
    (hin : ∀ k, j.group = some k → k < c.w.paths.length ∧ k ≠ c.pidx) (hg : j.group.getD c.pidx = g) :
    ((c.arrived j cycle).path g).mask = if g = c.pidx then c.p.mask else (c.w.path g).mask ||| c.p.mask := by
  rw [Ctx.arrived, Warp.arriveAt_groupMask _ _ _ _ (by rwa [Ctx.meeting_length]) (by rwa [Ctx.meeting_length]) hg, Warp.groupMask,
    Ctx.meeting_path hi]
  by_cases hgp : g = c.pidx
  · rw [if_pos hgp, if_pos hgp]
    rfl
  · rw [if_neg hgp, if_neg hgp, Ctx.meeting_path_other hgp]
    rfl

variable (hj : c.w.joins.get? c.p.entry = some j) (hk : j.kind ≠ .callx)
include hj

theorem arrive_meeting : arrive c.env lanes c.pidx c.p.entry (s, c.meeting cycle) =
    settle c.env lanes (c.w.joins.length + c.w.jspilled.length + 2) c.p.entry (s, c.arrived j cycle) :=
  arrive_eq c.env lanes c.pidx (show (c.meeting cycle).joins.get? c.p.entry = some j from hj)

include hk

/-- With others out, the path waits or joins its group. -/
theorem arrive_waits (ho : 2 ≤ j.out) :
    arrive c.env lanes c.pidx c.p.entry (s, c.meeting cycle) = .ok ⟨s, c.arrived j cycle, false⟩ := by
  rw [arrive_meeting hj]
  exact settle_waits _ _ _ Ctx.arrived_joins_same hk (by dsimp only [JoinEntry.arrived]; omega)

variable (ho : j.out = 1)
include ho

/-- The last to come lets the group go on. -/
theorem arrive_releases {w : Warp} (hpop : j.pop c.env lanes c.p.entry (s, c.arrived j s.cycle) = .ok (s, w)) (hpc : checkPc j.onward = .ok ())
    (hp : w.joins.get? j.parent = some pj) (hne : j.parent ≠ c.p.entry) (hpk : pj.kind ≠ .callx) :
    arrive c.env lanes c.pidx c.p.entry (s, c.meeting s.cycle)
      = .ok ⟨s, w.released (j.group.getD c.pidx) c.p.entry j s.cycle, false⟩ := by
  rw [arrive_meeting hj]
  exact settle_releases _ _ _ Ctx.arrived_joins_same hk (by simp [JoinEntry.arrived, ho]) rfl hpop hpc hp hne hpk

theorem arrive_badPc {w : Warp} {f : PcFault} (hpop : j.pop c.env lanes c.p.entry (s, c.arrived j s.cycle) = .ok (s, w))
    (hpc : checkPc j.onward = .error f) :
    arrive c.env lanes c.pidx c.p.entry (s, c.meeting s.cycle) = .error (.trap ⟨f.1, f.2.1, f.2.2, lanes⟩) := by
  rw [arrive_meeting hj]
  exact settle_badPc _ _ _ Ctx.arrived_joins_same hk (by simp [JoinEntry.arrived, ho]) rfl hpop hpc

end meeting

/-! ### The warp after a meeting -/

section after
variable (w : Warp) (g id : Nat) (j : JoinEntry) (cycle : Nat)

/-- A group that goes on stands at its PC under the parent entry with an empty window and its lanes. -/
theorem Warp.met_released_path (hg : g < w.paths.length) : let p := ((w.released g id j cycle).met cycle).path g
    p.state = .live ∧ p.pc = j.onward ∧ p.entry = j.parent ∧ p.window = [] ∧ p.mask = (w.path g).mask := by
  have h := w.released_path_same g id j cycle hg
  have hlive : ((w.released g id j cycle).path g).state = .live := h.keeps Path.state
  rw [Warp.met_path_of_state _ _ _ (by rw [hlive]; decide)]
  exact ⟨hlive, h.keeps Path.pc, h.keeps Path.entry, h.keeps Path.window, h.keeps Path.mask⟩

theorem Warp.met_released_joins : ((w.released g id j cycle).met cycle).joins = w.joins.del id := by
  rw [Warp.met_eq, Warp.released_joins]

/-- A table entry that is free stays free. -/
theorem Warp.met_released_free {i : Nat} (hi : i ≠ g) (hf : (w.path i).state = .free) :
    (((w.released g id j cycle).met cycle).path i).state = .free := by
  have h := w.released_path_other g id j cycle hi
  have hfree : ((w.released g id j cycle).path i).state = .free := (h.keeps Path.state).trans hf
  rw [Warp.met_path_of_state _ _ _ (by rw [hfree]; decide), hfree]

end after

/-! ### The warp after an arrival that waits -/

section waiting
variable {j : JoinEntry} {cycle : Nat} (hi : c.pidx < c.w.paths.length)

theorem Ctx.met_arrived_joins :
    ((c.arrived j cycle).met cycle).joins.get? c.p.entry = some { j with group := some (j.group.getD c.pidx), out := j.out - 1 } := by
  rw [Warp.met_eq]
  exact Ctx.arrived_joins_same

/-- Coming to or going on from a meeting point leaves every register. -/
theorem Ctx.met_arrived_registers : let v := (c.arrived j cycle).met cycle
    v.s = c.w.s ∧ v.v = c.w.v ∧ v.a = c.w.a ∧ v.p = c.w.p := by
  rw [Warp.met_eq, Ctx.arrived_eq]
  exact ⟨rfl, rfl, rfl, rfl⟩

theorem Ctx.met_released_registers {g : Nat} : let v := ((c.arrived j cycle).released g c.p.entry j cycle).met cycle
    v.s = c.w.s ∧ v.v = c.w.v ∧ v.a = c.w.a ∧ v.p = c.w.p := by
  rw [Warp.met_eq, Warp.released_eq, Ctx.arrived_eq]
  exact ⟨rfl, rfl, rfl, rfl⟩

include hi

/-- The first to come waits as the group, with its lanes. -/
theorem Ctx.met_arrived_first (hg : j.group = none) : (((c.arrived j cycle).met cycle).path c.pidx).state = .waitingGroup
    ∧ (((c.arrived j cycle).met cycle).path c.pidx).mask = c.p.mask := by
  have hat := Warp.arriveAt_first (c.meeting cycle) c.pidx c.p.entry j (by rwa [Ctx.meeting_length]) hg
  rw [Ctx.meeting_path hi, ← Ctx.arrived] at hat
  have hstate : ((c.arrived j cycle).path c.pidx).state = .waitingGroup := by rw [hat]
  rw [Warp.met_path_of_state _ _ _ (by rw [hstate]; decide)]
  exact ⟨hstate, by rw [hat]; rfl⟩

/-- A later one frees its entry. -/
theorem Ctx.arrived_later {g : Nat} (hl : g < c.w.paths.length) (hne : g ≠ c.pidx) (hg : j.group = some g) :
    ((c.arrived j cycle).path c.pidx).state = .free := by
  rw [Ctx.arrived, (Warp.arriveAt_later (c.meeting cycle) c.pidx c.p.entry j (by rwa [Ctx.meeting_length]) (by rwa [Ctx.meeting_length]) hne hg).1]
  rfl

variable (hin : ∀ k, j.group = some k → k < c.w.paths.length ∧ k ≠ c.pidx)
include hin

/-- The group that goes on, where the warp `w` has the paths of the arrival: at its PC, with all its lanes; the last to come has left
its entry to it. -/
theorem Ctx.met_released_group {w : Warp} (hw : w.paths = (c.arrived j cycle).paths) :
    let g := j.group.getD c.pidx
    let v := (w.released g c.p.entry j cycle).met cycle
    (v.path g).state = .live ∧ (v.path g).pc = j.onward ∧ (v.path g).entry = j.parent ∧ (v.path g).window = []
      ∧ (v.path g).mask = (if g = c.pidx then c.p.mask else (c.w.path g).mask ||| c.p.mask)
      ∧ (g ≠ c.pidx → (v.path c.pidx).state = .free) := by
  have hpath (i : Nat) : w.path i = (c.arrived j cycle).path i := by rw [Warp.path, hw, Warp.path]
  have hgl : j.group.getD c.pidx < w.paths.length := by
    rw [hw, Ctx.arrived_length]
    cases hg : j.group with
    | none => exact hi
    | some k => exact (hin k hg).1
  obtain ⟨hlive, hpc, hentry, hwin, hmask⟩ := Warp.met_released_path w _ c.p.entry j cycle hgl
  rw [hpath, Ctx.arrived_mask hi hin rfl] at hmask
  refine ⟨hlive, hpc, hentry, hwin, hmask, fun hne => Warp.met_released_free _ _ _ _ _ hne.symm ?_⟩
  rw [hpath]
  cases hg : j.group with
  | none => exact absurd (by rw [hg, Option.getD_none]) hne
  | some k => exact Ctx.arrived_later hi (hin k hg).1 (hin k hg).2 hg

end waiting

/-! ### `join` -/

section join
variable {j : JoinEntry} (h : Issues s c) (hj : c.w.joins.get? c.p.entry = some j)
include h hj

theorem exec_join_refused (hbad : j.kind ≠ .mark ∨ j.rejoin ≠ c.p.pc) :
    exec .join s = .next (s.takeTrap c.wid c.pidx ⟨0x01, 0x08, 0, c.p.mask⟩ (unitOf c.p c.pre)) := by
  refine run_trap h ?_
  simp only [getJoin_held _ _ hj, except_ok_bind]
  exact if_pos hbad

theorem exec_join_arrives (hk : j.kind = .mark) (hr : j.rejoin = c.p.pc) : exec .join s = s.run fun c => do
    return finishMet c (← arrive c.env c.p.mask c.pidx c.p.entry (s, c.meeting s.cycle)) := by
  refine run_congr h ?_
  simp only [getJoin_held _ _ hj, except_ok_bind]
  exact if_neg (by simp [hk, hr])

theorem exec_join_meets (hk : j.kind = .mark) (hr : j.rejoin = c.p.pc) {m : Met}
    (ha : arrive c.env c.p.mask c.pidx c.p.entry (s, c.meeting s.cycle) = .ok m) : exec .join s = .next (finishMet c m) :=
  (exec_join_arrives h hj hk hr).trans (run_ok h (by simp [ha]))

theorem exec_join_badPc (hk : j.kind = .mark) (hr : j.rejoin = c.p.pc) (ho : j.out = 1) {f : PcFault} (hpc : checkPc (pcNext c.p.pc) = .error f) :
    exec .join s = .next (s.takeTrap c.wid c.pidx ⟨f.1, f.2.1, f.2.2, c.p.mask⟩ (unitOf c.p c.pre)) := by
  have hon : j.onward = pcNext c.p.pc := by rw [JoinEntry.onward, if_pos hk, hr]
  have hpop : j.pop c.env c.p.mask c.p.entry (s, c.arrived j s.cycle) = .ok (s, c.arrived j s.cycle) := if_neg (by simp [hk])
  have ha := arrive_badPc hj (by simp [hk]) ho hpop (hon ▸ hpc)
  exact (exec_join_arrives h hj hk hr).trans (run_trap h (by simp [ha]))

end join

/-- Settles O10: `mark` puts the new entry, and `join` comes to it before the others, with them, or last. -/
theorem markAndJoin : Obligations.MarkAndJoin := by
  unfold Obligations.MarkAndJoin
  refine ⟨fun s c o h => ⟨fun f hb => exec_mark_refused h hb, fun rejoin hb hroom hi harea => ?_⟩, fun s c j pj h hlen hi hj hp hne hin =>
    ⟨exec_join_refused h hj, fun f hk hr ho => exec_join_badPc h hj hk hr ho, fun hk hr ho hpc hpk => ?_⟩⟩
  · obtain ⟨-, hfree, hspilled⟩ := c.w.freeJoin_spec
    refine ⟨c.w.freeJoin, _, exec_mark_opens h hb hroom harea, hfree, hspilled, rfl, ?_, fun i hne => Warp.path_setPath_other _ _ _ _ hne⟩
    rw [h.path]
    exact Warp.path_setPath_same _ _ _ hi
  · have hcallx : j.kind ≠ .callx := by simp [hk]
    rw [← hlen] at hi hin
    by_cases htwo : 2 ≤ j.out
    · obtain ⟨hs, hv, ha, hpr⟩ := Ctx.met_arrived_registers (c := c) (j := j) (cycle := s.cycle)
      refine ⟨_, (c.arrived j s.cycle).met s.cycle, exec_join_meets h hj hk hr (arrive_waits hj hcallx htwo), rfl, hs, hv, ha, hpr,
        fun _ hg => ?_, fun g _ hg => ?_, fun g hone => by omega⟩
      · obtain ⟨hstate, hm⟩ := Ctx.met_arrived_first (cycle := s.cycle) hi hg
        exact ⟨hstate, hm, by rw [Ctx.met_arrived_joins, hg, Option.getD_none]⟩
      · obtain ⟨hl, hgne⟩ := hin g hg
        have hfree := Ctx.arrived_later (cycle := s.cycle) hi hl hgne hg
        refine ⟨?_, ?_, by rw [Ctx.met_arrived_joins, hg, Option.getD_some]⟩
        · rw [Warp.met_path_of_state _ _ _ (by rw [hfree]; decide), hfree]
        · rw [Warp.met_mask, Ctx.arrived_mask hi hin (by rw [hg, Option.getD_some]), if_neg hgne]
    · have hone : j.out = 1 := by omega
      have hon : j.onward = pcNext c.p.pc := by rw [JoinEntry.onward, if_pos hk, hr]
      have hpop : j.pop c.env c.p.mask c.p.entry (s, c.arrived j s.cycle) = .ok (s, c.arrived j s.cycle) := if_neg (by simp [hk])
      have hparent : (c.arrived j s.cycle).joins.get? j.parent = some pj := (Ctx.arrived_joins_other hne).trans hp
      have hrun := exec_join_meets h hj hk hr (arrive_releases hj hcallx hone hpop (hon ▸ hpc hone) hparent hne hpk)
      obtain ⟨hs, hv, ha, hpr⟩ := Ctx.met_released_registers (c := c) (j := j) (cycle := s.cycle) (g := j.group.getD c.pidx)
      obtain ⟨hlive, hgo, hentry, hwin, hmask, hleft⟩ := Ctx.met_released_group (cycle := s.cycle) hi hin rfl
      refine ⟨_, ((c.arrived j s.cycle).released (j.group.getD c.pidx) c.p.entry j s.cycle).met s.cycle, hrun, rfl, hs, hv, ha, hpr,
        fun htwo' => absurd htwo' htwo, fun _ htwo' => absurd htwo' htwo, ?_⟩
      rintro g - rfl
      exact ⟨hlive, hgo.trans hon, hentry, hwin, hmask, hleft, by rw [Warp.met_released_joins, NMap.get?_del_same]⟩

end Sys2Proof.Machine
end

section
/-! Calls and returns (spec/06 R162, R170 to R172): the register window moves with the return stack. -/
namespace Sys2Proof.Machine

variable {s : State} {c : Ctx}

/-! ### The stacks of a warp with room -/

section roomy
variable {w : Warp} (e : Env) (lanes : LaneMask)

theorem pushRet_room (r : RetEntry) (hroom : w.rets.length < 16) : pushRet e lanes r (s, w) = .ok (s, { w with rets := r :: w.rets }) := by
  simp [pushRet, hroom]

/-- Where the window's span fits the allocation, nothing spills. -/
theorem spillUntil_fits {width n : Nat} {x : Held} (h : x.2.wbase + width - x.2.sfloor ≤ n) (fuel : Nat) :
    spillUntil e lanes width n fuel x = .ok x := by
  cases fuel with
  | zero => rfl
  | succ fuel => exact if_pos h

/-- The warp that has popped its newest return entry. -/
def Warp.popped (w : Warp) (r : RetEntry) (rest : List RetEntry) : Warp := { w with rets := rest, wbase := w.wbase - r.f }

theorem popCall_held {r : RetEntry} {rest : List RetEntry} (hr : w.rets = r :: rest) (hf : w.sfloor + r.f ≤ w.wbase) (id : Nat)
    (rejoin : Word) : popCall e lanes id rejoin (s, w) = .ok (s, w.popped r rest) := by
  have hstay : ¬w.wbase - r.f < w.sfloor := by omega
  simp [popCall, popRet, hr, hstay, Warp.popped]

end roomy

/-! ### Entering a call (R170) -/

/-- The warp in which the issuing path has entered a call: under its new entry, at the target, its window moved and broken. -/
def Ctx.called (c : Ctx) (w : Warp) (f : Nat) (target ret : Word) : Warp :=
  { w.opened ⟨.call, ret, (w.path c.pidx).entry, 1, none, none⟩ with rets := ⟨ret, f, w.freeJoin⟩ :: w.rets, wbase := w.wbase + f }.setPath
    c.pidx { (w.path c.pidx).goto target true with entry := w.freeJoin, window := [] }

/-- What a call needs: room in both stacks, in the join stack's area and in the allocation. -/
structure Warp.CallRoom (w : Warp) (f : Nat) : Prop where
  joins : w.joins.length < 32
  rets  : w.rets.length < 16
  area  : w.jstk.toNat + 16 * (w.joins.length + w.jspilled.length + 1) ≤ w.jstklim.toNat
  fits  : w.wbase + f + w.width - w.sfloor ≤ w.n

theorem enterCall_room {w : Warp} {f : Nat} (h : w.CallRoom f) (c : Ctx) (lanes : LaneMask) (target ret : Word) :
    enterCall c lanes f target ret (s, w) = .ok (s, c.called w f target ret) := by
  simp only [enterCall, openJoin_room c.env lanes _ h.joins h.area, except_ok_bind]
  rw [pushRet_room c.env lanes _ (show (w.opened _).rets.length < 16 from h.rets)]
  simp only [except_ok_bind]
  rw [spillUntil_fits c.env lanes (by exact h.fits)]
  rfl

theorem Ctx.called_path {w : Warp} (hi : c.pidx < w.paths.length) (f : Nat) (target ret : Word) : (c.called w f target ret).path c.pidx =
    { (w.path c.pidx).goto target true with entry := w.freeJoin, window := [] } := Warp.path_setPath_same _ _ _ hi

theorem Ctx.called_path_other {w : Warp} {i : Nat} (hi : i ≠ c.pidx) (f : Nat) (target ret : Word) :
    (c.called w f target ret).path i = w.path i := Warp.path_setPath_other _ _ _ _ hi

/-! ### `call` -/

section call
variable {f : Nat} {o : Int} {target : Word} (h : Issues s c)
include h

theorem exec_call_wide (hf : c.w.width < f) :
    exec (.call f o) s = .next (s.takeTrap c.wid c.pidx ⟨0x15, 0x02, BitVec.ofNat 64 f, c.p.mask⟩ (unitOf c.p c.pre)) :=
  run_trap h (if_pos hf)

theorem exec_call_enters (hf : f ≤ c.w.width) (hb : branchTarget c.branchPc o = .ok target) (hc : s.checkTarget c.env target = .ok ())
    {s1 : State} {w1 : Warp} (he : enterCall c c.p.mask f target c.nextPc (s, c.w) = .ok (s1, w1)) :
    exec (.call f o) s = .next (s1.finish c w1) := by
  refine run_ok h ((if_neg (Nat.not_lt.2 hf)).trans ?_)
  simp [hb, hc, he]

end call

/-! ### `ret` -/

section ret
variable {j : JoinEntry} (h : Issues s c)
include h

theorem exec_ret_empty (hr : c.w.rets = []) (hs : c.w.rspilled = 0) :
    exec .ret s = .next (s.takeTrap c.wid c.pidx ⟨0x01, 0x09, 0, c.p.mask⟩ (unitOf c.p c.pre)) :=
  run_trap h (if_pos (by simp [Warp.cdepth, hr, hs]))

variable (hd : c.w.cdepth ≠ 0) (hj : c.w.joins.get? c.p.entry = some j)
include hd hj

theorem exec_ret_refused (hk : j.kind ≠ .call) :
    exec .ret s = .next (s.takeTrap c.wid c.pidx ⟨0x01, 0x08, 0, c.p.mask⟩ (unitOf c.p c.pre)) := by
  refine run_trap h ((if_neg hd).trans ?_)
  simp only [getJoin_held _ _ hj, except_ok_bind]
  exact if_pos hk

theorem exec_ret_meets (hk : j.kind = .call) {m : Met}
    (ha : arrive c.env c.p.mask c.pidx c.p.entry (s, c.meeting s.cycle) = .ok m) : exec .ret s = .next (finishMet c m) := by
  refine run_ok h ((if_neg hd).trans ?_)
  simp only [getJoin_held _ _ hj, except_ok_bind]
  refine (if_neg (by simp [hk])).trans ?_
  change (arrive c.env c.p.mask c.pidx c.p.entry (s, c.meeting s.cycle) >>= fun m => pure (finishMet c m)) = _
  rw [ha]
  rfl

end ret

/-- The window and the return stack of the warp that has returned, and what it keeps. -/
theorem Ctx.met_popped_rest {j : JoinEntry} {r : RetEntry} {rest : List RetEntry} {cycle : Nat} :
    let v := (((c.arrived j cycle).popped r rest).released c.pidx c.p.entry j cycle).met cycle
    v.wbase = c.w.wbase - r.f ∧ v.rets = rest ∧ v.sfloor = c.w.sfloor ∧ v.v = c.w.v ∧ v.s = c.w.s
      ∧ v.joins.get? c.p.entry = none := by
  rw [Warp.met_eq, Warp.released_eq, Warp.popped, Ctx.arrived_eq]
  exact ⟨rfl, rfl, rfl, rfl, rfl, NMap.get?_del_same ..⟩

/-- The last path of a call goes on at its rejoin PC with the window of the caller. -/
theorem exec_ret_pops {j pj : JoinEntry} {r : RetEntry} {rest : List RetEntry} (h : Issues s c) (hr : c.w.rets = r :: rest)
    (hj : c.w.joins.get? c.p.entry = some j) (hk : j.kind = .call) (ho : j.out = 1) (hg : j.group = none)
    (hf : c.w.sfloor + r.f ≤ c.w.wbase) (hne : j.parent ≠ c.p.entry) (hp : c.w.joins.get? j.parent = some pj) (hpk : pj.kind ≠ .callx)
    (hpc : checkPc j.rejoin = .ok ()) : exec .ret s =
      .next (finishMet c ⟨s, ((c.arrived j s.cycle).popped r rest).released c.pidx c.p.entry j s.cycle, false⟩) := by
  have hcallx : j.kind ≠ .callx := by simp [hk]
  have hon : j.onward = j.rejoin := if_neg (by simp [hk])
  have hrets : (c.arrived j s.cycle).rets = r :: rest := by
    rw [Ctx.arrived_eq]
    exact hr
  have hfloor : (c.arrived j s.cycle).sfloor + r.f ≤ (c.arrived j s.cycle).wbase := by
    rw [Ctx.arrived_eq]
    exact hf
  have hpop : j.pop c.env c.p.mask c.p.entry (s, c.arrived j s.cycle) = .ok (s, (c.arrived j s.cycle).popped r rest) :=
    (if_pos hk).trans (popCall_held _ _ hrets hfloor _ _)
  have hparent : ((c.arrived j s.cycle).popped r rest).joins.get? j.parent = some pj := (Ctx.arrived_joins_other hne).trans hp
  have hmeet := exec_ret_meets h (by simp [Warp.cdepth, hr]) hj hk (arrive_releases hj hcallx ho hpop (hon ▸ hpc) hparent hne hpk)
  rwa [hg, Option.getD_none] at hmeet

/-! ### `callx`: its groups (R172) -/

theorem foldl_min_eq {α : Type} (f : α → Nat) {l : List α} {b u : Nat} (hb : u ≤ b) (hl : ∀ x ∈ l, u ≤ f x)
    (h : u = b ∨ ∃ x ∈ l, f x = u) : l.foldl (fun m x => min m (f x)) b = u := by
  induction l generalizing b with
  | nil => simpa [eq_comm] using h
  | cons x r ih =>
    have hx := hl x List.mem_cons_self
    refine ih (le_min hb hx) (fun y hy => hl y (List.mem_cons_of_mem _ hy)) ?_
    rcases h with rfl | ⟨y, hy, hu⟩
    · exact .inl (min_eq_left hx).symm
    · rcases List.mem_cons.1 hy with rfl | hy
      · exact .inl (by simp [hu, hb])
      · exact .inr ⟨y, hy, hu⟩

/-- The target a lane names; a helper lane takes that of its quad's leader. -/
def Ctx.callTarget (c : Ctx) (t : LaneMask) (v l : Nat) : Word :=
  nth (c.w.vecValue .i64 v) ((if c.w.present.getLsbD l then some l else leader c.w.present t l).getD l) 0

/-- The lowest target of the lanes that act. -/
def Ctx.lowestTarget (c : Ctx) (t : LaneMask) (v : Nat) : Nat :=
  (lanesOf (t &&& c.w.present)).foldl (fun m l => min m (c.callTarget t v l).toNat) (2 ^ 64)

/-- The lanes that name the lowest target, and those that act after them. -/
def Ctx.callers (c : Ctx) (t : LaneMask) (v : Nat) : LaneMask :=
  maskOf fun l => t.getLsbD l && (c.callTarget t v l).toNat == c.lowestTarget t v
def Ctx.laterCallers (c : Ctx) (t : LaneMask) (v : Nat) : LaneMask := t &&& ~~~c.callers t v

section groups
variable {t : LaneMask} {v u : Nat} (hin : ∀ l, t.getLsbD l = true → c.w.present.getLsbD l = true)

theorem Ctx.callTarget_present {l : Nat} (hl : c.w.present.getLsbD l = true) : c.callTarget t v l = atLane (c.w.vecValue .i64 v) l := by
  rw [Ctx.callTarget, if_pos hl]
  rfl

theorem Ctx.lowestTarget_eq
    (hu : ∃ l, l < 32 ∧ (t &&& c.w.present).getLsbD l = true ∧ (atLane (c.w.vecValue .i64 v) l).toNat = u)
    (hlow : ∀ l, l < 32 → (t &&& c.w.present).getLsbD l = true → u ≤ (atLane (c.w.vecValue .i64 v) l).toNat) : c.lowestTarget t v = u := by
  have hvalue (l : Nat) (hl : (t &&& c.w.present).getLsbD l = true) : c.callTarget t v l = atLane (c.w.vecValue .i64 v) l := by
    rw [BitVec.getLsbD_and, Bool.and_eq_true] at hl
    exact Ctx.callTarget_present hl.2
  obtain ⟨k, hk, hkt, hku⟩ := hu
  have hreached : ∃ l ∈ lanesOf (t &&& c.w.present), (c.callTarget t v l).toNat = u :=
    ⟨k, mem_lanesOf.2 ⟨hk, hkt⟩, by rw [hvalue k hkt, hku]⟩
  refine foldl_min_eq _ (by rw [← hku]; exact (BitVec.isLt _).le) (fun l hl => ?_) (.inr hreached)
  obtain ⟨hl, hlt⟩ := mem_lanesOf.1 hl
  rw [hvalue l hlt]
  exact hlow l hl hlt

variable (hu : c.lowestTarget t v = u)
include hin hu

theorem Ctx.getLsbD_callers {l : Nat} (hl : l < 32) :
    (c.callers t v).getLsbD l = true ↔ t.getLsbD l = true ∧ (atLane (c.w.vecValue .i64 v) l).toNat = u := by
  rw [Ctx.callers, getLsbD_maskOf _ hl, hu, Bool.and_eq_true, beq_iff_eq]
  exact and_congr_right fun ht => by rw [Ctx.callTarget_present (hin l ht)]

theorem Ctx.getLsbD_laterCallers {l : Nat} (hl : l < 32) :
    (c.laterCallers t v).getLsbD l = true ↔ t.getLsbD l = true ∧ (atLane (c.w.vecValue .i64 v) l).toNat ≠ u := by
  have h := Ctx.getLsbD_callers hin hu hl
  rw [Ctx.laterCallers, BitVec.getLsbD_and, BitVec.getLsbD_not, Bool.and_eq_true]
  by_cases ht : t.getLsbD l = true
  · simp only [ht, true_and] at h ⊢
    rw [Ne, ← h]
    simp [hl]
  · simp [ht]

end groups

/-! ### `callx`: the table entries it needs (R160) -/

/-- Where a table entry is free, lanes that need one have it. -/
theorem entryFor_free {w : Warp} (hfree : ∃ i, i < 16 ∧ (w.path i).state = .free) (c : Ctx) (lanes : LaneMask) :
    ∃ i, entryFor w c lanes = .ok i ∧ (lanes ≠ 0 → ∃ k, i = some k)
      ∧ ∀ k, i = some k → k < 16 ∧ (w.path k).state = .free := by
  by_cases hl : lanes = 0
  · exact ⟨none, if_pos hl, fun h => absurd hl h, nofun⟩
  · cases hp : w.freePath with
    | none =>
      obtain ⟨i, hi, hs⟩ := hfree
      exact absurd (List.find?_eq_none.1 hp i (List.mem_range.2 hi)) (by simp [hs])
    | some k =>
      refine ⟨some k, ?_, fun _ => ⟨k, rfl⟩, ?_⟩
      · rw [entryFor, if_neg hl, hp]
      · rintro _ ⟨⟩
        exact ⟨List.mem_range.1 (List.mem_of_find?_eq_some hp), by simpa using List.find?_some hp⟩

/-- The warp in which the entry of a callx's waiting group is taken. -/
def Warp.groupTaken (w : Warp) (i : Option Nat) : Warp :=
  match i with
  | some i => w.setPath i { Path.free with state := .waitingGroup }
  | none => w

/-- With two entries free, one stays free after the group has taken its own. -/
theorem Warp.groupTaken_free {w : Warp} {a b : Nat} (hab : a < b) (hb : b < 16) (ha : (w.path a).state = .free)
    (hb' : (w.path b).state = .free) (i : Option Nat) : ∃ k, k < 16 ∧ ((w.groupTaken i).path k).state = .free := by
  cases i with
  | none => exact ⟨a, by omega, ha⟩
  | some i =>
    by_cases hi : a = i
    · exact ⟨b, hb, by rw [Warp.groupTaken, Warp.path_setPath_other _ _ _ _ (by omega), hb']⟩
    · exact ⟨a, by omega, by rw [Warp.groupTaken, Warp.path_setPath_other _ _ _ _ hi, ha]⟩

/-- An entry that is free then is another one, and was free before. -/
theorem Warp.groupTaken_path {w : Warp} {i : Option Nat} (hi : ∀ x, i = some x → x < w.paths.length) {k : Nat}
    (hk : ((w.groupTaken i).path k).state = .free) : (∀ x, i = some x → x ≠ k) ∧ (w.path k).state = .free := by
  cases i with
  | none => exact ⟨nofun, hk⟩
  | some x =>
    have hne : x ≠ k := by
      rintro rfl
      rw [Warp.groupTaken, Warp.path_setPath_same _ _ _ (hi x rfl)] at hk
      cases hk
    rw [Warp.groupTaken, Warp.path_setPath_other _ _ _ _ hne.symm] at hk
    exact ⟨fun y hy => by cases hy; exact hne, hk⟩

/-! ### `callx`: the warp it leaves (R172) -/

theorem NMap.put_put {α : Type} (m : NMap α) (k : Nat) (x y : α) : (m.put k x).put k y = m.put k y := by
  induction m with
  | nil => simp [NMap.put]
  | cons e r ih =>
    simp only [NMap.put]
    split
    · simp [NMap.put]
    · split <;> simp_all [NMap.put]

theorem NMap.put_length_le {α : Type} (m : NMap α) (k : Nat) (x : α) : (m.put k x).length ≤ m.length + 1 := by
  induction m with
  | nil => simp [NMap.put]
  | cons e r ih =>
    simp only [NMap.put]
    split
    · simp
    · split <;> simp
      exact ih

/-- The entry of a callx: its group and its held remainder in the table entries `i` and `k`. -/
def Ctx.callxEntry (c : Ctx) (i k : Option Nat) : JoinEntry := ⟨.callx, c.nextPc, c.p.entry, if k.isSome then 2 else 1, i, k⟩

/-- A path of a callx entry that does not run: its waiting group or its held remainder. -/
def Ctx.parted (c : Ctx) (st : PathState) (lanes : LaneMask) (since : Nat) (window : List (Option Place)) : Path :=
  { Path.free with state := st, pc := c.p.pc, mask := lanes, entry := c.w.freeJoin, since := since, window := window }

/-- The warp in which a callx has opened its entry, its issuing path under it with the lanes `t`, the others its group in entry `i`. -/
def Ctx.callxOpened (c : Ctx) (t : LaneMask) (i : Option Nat) : Warp :=
  let w := { c.w with joins := c.w.joins.put c.w.freeJoin (c.callxEntry i none), calls := c.w.freeJoin :: c.w.calls }.setPath c.pidx
    { c.p with entry := c.w.freeJoin, mask := t }
  match i with
  | some i => w.setPath i (c.parted .waitingGroup (c.p.mask &&& ~~~t) c.p.since [])
  | none => w

/-- The warp as the callers find it when they enter their call: those after them are held in entry `k`. -/
def Ctx.scattered (c : Ctx) (t callers rest : LaneMask) (cycle : Nat) (i k : Option Nat) : Warp :=
  let w := (c.callxOpened t i).setJoin c.w.freeJoin (c.callxEntry i k)
  let w := match k with
    | some k => w.setPath k (c.parted .heldRemainder rest cycle c.p.window)
    | none => w
  w.setPath c.pidx { c.p with entry := c.w.freeJoin, mask := callers }

section scattered
variable {t callers rest : LaneMask} {cycle : Nat} {i k : Option Nat}

theorem Ctx.callxOpened_eq : c.callxOpened t i = { c.w with
    joins := c.w.joins.put c.w.freeJoin (c.callxEntry i none), calls := c.w.freeJoin :: c.w.calls, paths := (c.callxOpened t i).paths } := by
  cases i <;> rfl

theorem Ctx.callxOpened_length : (c.callxOpened t i).paths.length = c.w.paths.length := by
  cases i <;> simp [Ctx.callxOpened, Warp.setPath]

theorem Ctx.callxOpened_path (hp : c.pidx < c.w.paths.length) (hi : ∀ x, i = some x → x ≠ c.pidx) :
    (c.callxOpened t i).path c.pidx = { c.p with entry := c.w.freeJoin, mask := t } := by
  cases i with
  | none => exact Warp.path_setPath_same _ _ _ hp
  | some x => exact (Warp.path_setPath_other _ _ _ _ (hi x rfl).symm).trans (Warp.path_setPath_same _ _ _ hp)

theorem Ctx.callxOpened_group {x : Nat} (hx : x < c.w.paths.length) :
    (c.callxOpened t (some x)).path x = c.parted .waitingGroup (c.p.mask &&& ~~~t) c.p.since [] :=
  Warp.path_setPath_same _ _ _ (by simpa using hx)

theorem callxGroup_of_joins {w : Warp} {m : NMap JoinEntry} {id : Nat} {j : JoinEntry} (hw : w.joins = m.put id j) (x : Nat)
    (lanes : LaneMask) : callxGroup c id x lanes w =
      { w.setPath x { Path.free with state := .waitingGroup, pc := c.p.pc, mask := lanes, entry := id, since := c.p.since } with
        joins := m.put id { j with group := some x } } := by
  simp [callxGroup, Warp.setPath, Warp.setJoin, hw, NMap.put_put]

/-- Where there is room, the callx entry opens. -/
theorem openCallx_room (h : Issues s c) (hroom : c.w.joins.length < 32)
    (harea : c.w.jstk.toNat + 16 * (c.w.joins.length + c.w.jspilled.length + 1) ≤ c.w.jstklim.toNat) :
    openCallx c t i (s, c.w) = .ok (c.w.freeJoin, s, c.callxOpened t i) := by
  have hopen : openJoin c.env t ⟨.callx, c.nextPc, c.p.entry, 1, none, none⟩ (s, c.w) =
      .ok (c.w.freeJoin, s, c.w.opened (c.callxEntry none none)) := openJoin_room c.env t _ hroom harea
  have hpath : (c.w.opened (c.callxEntry none none)).path c.pidx = c.p := h.path.symm
  simp only [openCallx, hopen, except_ok_bind, hpath]
  cases i with
  | none => rfl
  | some x =>
    dsimp only
    rw [callxGroup_of_joins (m := c.w.joins) (j := c.callxEntry none none) (by rfl)]
    rfl

theorem holdRemainder_none (id : Nat) (w : Warp) : holdRemainder c id rest cycle none w = w := rfl

theorem holdRemainder_some {w : Warp} {id : Nat} {j : JoinEntry} (hj : w.joins.get? id = some j) (x : Nat) :
    holdRemainder c id rest cycle (some x) w = (w.setPath x { Path.free with
      state := .heldRemainder, pc := c.p.pc, mask := rest, entry := id, since := cycle, window := c.p.window }).setJoin id
        { j with held := some x, out := j.out + 1 } := by
  simp [holdRemainder, hj]

/-- The held remainder and the callers part. -/
theorem Ctx.scattered_eq (hp : c.pidx < c.w.paths.length) (hi : ∀ x, i = some x → x ≠ c.pidx) (hk : ∀ x, k = some x → x ≠ c.pidx) :
    (holdRemainder c c.w.freeJoin rest cycle k (c.callxOpened t i)).setPath c.pidx
      { (holdRemainder c c.w.freeJoin rest cycle k (c.callxOpened t i)).path c.pidx with mask := callers }
      = c.scattered t callers rest cycle i k := by
  have hjoins : (c.callxOpened t i).joins = c.w.joins.put c.w.freeJoin (c.callxEntry i none) := by rw [Ctx.callxOpened_eq]
  have hsame : (c.callxOpened t i).setJoin c.w.freeJoin (c.callxEntry i none) = c.callxOpened t i := by
    rw [Warp.setJoin, hjoins, NMap.put_put, ← hjoins]
  have hpath := Ctx.callxOpened_path (t := t) hp hi
  cases k with
  | none =>
    rw [holdRemainder_none, hpath, Ctx.scattered, hsame]
  | some x =>
    have hx := hk x rfl
    have hold : holdRemainder c c.w.freeJoin rest cycle (some x) (c.callxOpened t i) =
        ((c.callxOpened t i).setJoin c.w.freeJoin (c.callxEntry i (some x))).setPath x (c.parted .heldRemainder rest cycle c.p.window) := by
      rw [holdRemainder_some (by rw [hjoins, NMap.get?_put_same])]
      rfl
    rw [hold, Warp.path_setPath_other _ _ _ _ hx.symm]
    change Warp.setPath _ _ { (c.callxOpened t i).path c.pidx with mask := callers } = _
    rw [hpath]
    rfl

theorem Ctx.scattered_rest : c.scattered t callers rest cycle i k = { c.w with
    joins := c.w.joins.put c.w.freeJoin (c.callxEntry i k), calls := c.w.freeJoin :: c.w.calls
    paths := (c.scattered t callers rest cycle i k).paths } := by
  cases k <;> rw [Ctx.scattered, Ctx.callxOpened_eq, Warp.setJoin, NMap.put_put] <;> rfl

theorem Ctx.scattered_path (hp : c.pidx < c.w.paths.length) :
    (c.scattered t callers rest cycle i k).path c.pidx = { c.p with entry := c.w.freeJoin, mask := callers } := by
  refine Warp.path_setPath_same _ _ _ ?_
  cases k <;> simpa [Warp.setJoin, Ctx.callxOpened_length] using hp

theorem Ctx.scattered_length : (c.scattered t callers rest cycle i k).paths.length = c.w.paths.length := by
  cases k <;> simp [Ctx.scattered, Warp.setJoin, Ctx.callxOpened_length]

theorem Ctx.scattered_held {x : Nat} (hx : x < c.w.paths.length) (hne : x ≠ c.pidx) :
    (c.scattered t callers rest cycle i (some x)).path x = c.parted .heldRemainder rest cycle c.p.window :=
  (Warp.path_setPath_other _ _ _ _ hne).trans (Warp.path_setPath_same _ _ _ (by simpa [Warp.setJoin, Ctx.callxOpened_length] using hx))

theorem Ctx.scattered_group {x : Nat} (hx : x < c.w.paths.length) (hne : x ≠ c.pidx) (hk : ∀ y, k = some y → x ≠ y) :
    (c.scattered t callers rest cycle (some x) k).path x = c.parted .waitingGroup (c.p.mask &&& ~~~t) c.p.since [] := by
  refine (Warp.path_setPath_other _ _ _ _ hne).trans ?_
  cases k with
  | none => exact c.callxOpened_group hx
  | some y => exact (Warp.path_setPath_other _ _ _ _ (hk y rfl)).trans (c.callxOpened_group hx)

/-- The callers enter their call under the entry of the callx. -/
theorem callGroup_room {f : Nat} {target : Word} (hp : c.pidx < c.w.paths.length) (hi : ∀ x, i = some x → x ≠ c.pidx)
    (hk : ∀ x, k = some x → x ≠ c.pidx) (hpc : checkPc target = .ok ()) (hc : s.checkTarget c.env target = .ok ()) (hf : f ≤ c.w.width)
    (hroom : (c.scattered t callers rest s.cycle i k).CallRoom f) :
    callGroup s c c.w.freeJoin f target callers rest k (s, c.callxOpened t i)
      = .ok (s, c.called (c.scattered t callers rest s.cycle i k) f target c.nextPc) := by
  simp only [callGroup, hpc, hc, ofPc_ok, except_ok_bind]
  refine (if_neg (Nat.not_lt.2 hf)).trans ?_
  rw [Ctx.scattered_eq hp hi hk]
  exact enterCall_room hroom c callers target c.nextPc

/-- What a callx needs: what its call needs once its own entry is open. -/
theorem Ctx.scattered_room {f : Nat} (hjoins : c.w.joins.length + 1 < 32) (hrets : c.w.rets.length < 16)
    (hfits : c.w.wbase + f + c.w.width - c.w.sfloor ≤ c.w.n)
    (harea : c.w.jstk.toNat + 16 * (c.w.joins.length + c.w.jspilled.length + 2) ≤ c.w.jstklim.toNat) :
    (c.scattered t callers rest cycle i k).CallRoom f := by
  have hlen := c.w.joins.put_length_le c.w.freeJoin (c.callxEntry i k)
  rw [Ctx.scattered_rest]
  exact ⟨by dsimp only; omega, hrets, by dsimp only; omega, hfits⟩

end scattered

/-! ### `callx` -/

section callx
variable {j : JoinEntry} {g : Guard} {f v : Nat} (h : Issues s c) (hj : c.w.joins.get? c.p.entry = some j)
  (hrem : ¬(j.kind = .callx ∧ j.rejoin = c.nextPc))
include h hj hrem

theorem exec_callx_untaken (ht : c.act g &&& c.w.present = 0) : exec (.callx g f v) s = .next (s.skip c) := by
  refine run_ok h ?_
  simp only [getJoin_held _ _ hj, except_ok_bind, if_neg hrem]
  exact if_pos ht

theorem exec_callx_bound (ht : c.act g &&& c.w.present ≠ 0) (hv : c.w.width ≤ v + 1) : exec (.callx g f v) s =
    .next (s.takeTrap c.wid c.pidx ⟨0x15, 0x00, BitVec.ofNat 64 v, c.act g⟩ (unitOf c.p c.pre)) := by
  refine run_trap h ?_
  simp only [getJoin_held _ _ hj, except_ok_bind, if_neg hrem]
  exact (if_neg ht).trans (if_pos hv)

/-- Once the entries it needs are had, a callx opens its entry and its first group enters its target. -/
theorem exec_callx_enters (ht : c.act g &&& c.w.present ≠ 0) (hv : ¬c.w.width ≤ v + 1) {i k : Option Nat} {w1 w2 : Warp} {id : Nat}
    (hi : entryFor c.w c (c.p.mask &&& ~~~c.act g) = .ok i)
    (hk : entryFor (c.w.groupTaken i) c (c.laterCallers (c.act g) v) = .ok k) (hopen : openCallx c (c.act g) i (s, c.w) = .ok (id, s, w1))
    (hcall : callGroup s c id f (BitVec.ofNat 64 (c.lowestTarget (c.act g) v)) (c.callers (c.act g) v) (c.laterCallers (c.act g) v) k (s, w1)
      = .ok (s, w2)) : exec (.callx g f v) s = .next (s.finish c w2) := by
  refine run_ok h ?_
  simp only [getJoin_held _ _ hj, except_ok_bind, if_neg hrem]
  refine (if_neg ht).trans ((if_neg hv).trans ?_)
  rw [hi]
  change (entryFor (c.w.groupTaken i) c (c.laterCallers (c.act g) v) >>= _) = _
  rw [hk]
  simp only [except_ok_bind]
  rw [hopen]
  change (match callGroup s c id f (BitVec.ofNat 64 (c.lowestTarget (c.act g) v)) (c.callers (c.act g) v) (c.laterCallers (c.act g) v) k (s, w1)
    with | .ok (s2, w2) => _ | .error (.trap x) => _ | .error x => _) = _
  rw [hcall]
  rfl

/-- With two table entries free and room in the stacks, a callx parts its lanes and calls its first group: `i` is the entry of its waiting
group and `k` that of its held remainder, where it has any. -/
theorem exec_callx_calls (ht : c.act g &&& c.w.present ≠ 0) (hv : ¬c.w.width ≤ v + 1) (hf : f ≤ c.w.width)
    (hpc : checkPc (BitVec.ofNat 64 (c.lowestTarget (c.act g) v)) = .ok ())
    (hc : s.checkTarget c.env (BitVec.ofNat 64 (c.lowestTarget (c.act g) v)) = .ok ()) (hlen : c.w.paths.length = 16) (hp : c.pidx < 16)
    (hfree : ∃ a b, a < b ∧ b < 16 ∧ (c.w.path a).state = .free ∧ (c.w.path b).state = .free) (hjoins : c.w.joins.length + 1 < 32)
    (hroom : ∀ {i k}, (c.scattered (c.act g) (c.callers (c.act g) v) (c.laterCallers (c.act g) v) s.cycle i k).CallRoom f)
    (harea : c.w.jstk.toNat + 16 * (c.w.joins.length + c.w.jspilled.length + 1) ≤ c.w.jstklim.toNat) :
    ∃ i k, exec (.callx g f v) s =
        .next (s.finish c (c.called (c.scattered (c.act g) (c.callers (c.act g) v) (c.laterCallers (c.act g) v) s.cycle i k) f
          (BitVec.ofNat 64 (c.lowestTarget (c.act g) v)) c.nextPc))
      ∧ (c.p.mask &&& ~~~c.act g ≠ 0 → ∃ x, i = some x) ∧ (c.laterCallers (c.act g) v ≠ 0 → ∃ y, k = some y)
      ∧ (∀ x, i = some x → x < 16 ∧ x ≠ c.pidx) ∧ ∀ y, k = some y → y < 16 ∧ y ≠ c.pidx ∧ ∀ x, i = some x → x ≠ y := by
  obtain ⟨a, b, hab, hb, ha, hb'⟩ := hfree
  have hlive : (c.w.path c.pidx).state ≠ .free := by
    rw [← h.path, h.live.2.1]
    decide
  obtain ⟨i, hi, hisome, hifree⟩ := entryFor_free ⟨a, by omega, ha⟩ c (c.p.mask &&& ~~~c.act g)
  obtain ⟨k, hk, hksome, hkfree⟩ := entryFor_free (Warp.groupTaken_free hab hb ha hb' i) c (c.laterCallers (c.act g) v)
  have hiplace : ∀ x, i = some x → x < 16 ∧ x ≠ c.pidx := fun x hx => ⟨(hifree x hx).1, fun he => hlive (he ▸ (hifree x hx).2)⟩
  have hkplace : ∀ y, k = some y → y < 16 ∧ y ≠ c.pidx ∧ ∀ x, i = some x → x ≠ y := fun y hy =>
    have hfree := Warp.groupTaken_path (fun x hx => hlen ▸ (hiplace x hx).1) (hkfree y hy).2
    ⟨(hkfree y hy).1, fun he => hlive (he ▸ hfree.2), hfree.1⟩
  refine ⟨i, k, exec_callx_enters h hj hrem ht hv hi hk (openCallx_room h (by omega) harea) ?_, hisome, hksome, hiplace, hkplace⟩
  exact callGroup_room (hlen ▸ hp) (fun x hx => (hiplace x hx).2) (fun y hy => (hkplace y hy).2.1) hpc hc hf hroom

end callx

/-- Settles O11: a call and a return between stacks with room, and the groups of a callx. -/
theorem callAndReturn : Obligations.CallAndReturn := by
  unfold Obligations.CallAndReturn
  refine ⟨?call, ?ret, ?callx⟩
  case call =>
    intro s c f o h
    refine ⟨exec_call_wide h, fun target hf hb hc => ⟨fun s1 w1 => exec_call_enters h hf hb hc, fun hi hj hr hfit harea => ?_⟩⟩
    obtain ⟨-, hfree, -⟩ := c.w.freeJoin_spec
    have hpath := c.called_path hi f target c.nextPc
    rw [← h.path] at hpath
    have hrun := exec_call_enters h hf hb hc (enterCall_room ⟨hj, hr, harea, hfit⟩ c c.p.mask target c.nextPc)
    refine ⟨c.w.freeJoin, c.called c.w f target c.nextPc, hrun, hfree, ?_, ?_⟩
    · rw [h.path]
      rfl
    · rw [hpath]
      exact ⟨rfl, rfl, rfl, rfl, fun i hne => c.called_path_other hne ..⟩
  case ret =>
    intro s c h
    refine ⟨exec_ret_empty h, fun j pj r rest hr hj => ⟨exec_ret_refused h (by simp [Warp.cdepth, hr]) hj,
      fun hk ho hg hheld hf hi hne hp hpk hpc => ?_⟩⟩
    have hgroup : j.group.getD c.pidx = c.pidx := by rw [hg, Option.getD_none]
    have hon : j.onward = j.rejoin := if_neg (by simp [hk])
    obtain ⟨hlive, hgo, hentry, hwin, -, -⟩ := Ctx.met_released_group (c := c) (j := j) (cycle := s.cycle)
      (w := (c.arrived j s.cycle).popped r rest) hi (by simp [hg]) rfl
    rw [hgroup] at hlive hgo hentry hwin
    obtain ⟨hbase, hrets, hfloor, hv, hs, hjoins⟩ := Ctx.met_popped_rest (c := c) (j := j) (r := r) (rest := rest) (cycle := s.cycle)
    exact ⟨_, (((c.arrived j s.cycle).popped r rest).released c.pidx c.p.entry j s.cycle).met s.cycle,
      exec_ret_pops h hr hj hk ho hg hf hne hp hpk hpc, rfl, hbase, hrets, hfloor, hv, hs, hlive, hgo.trans hon, hentry, hwin, hjoins⟩
  case callx =>
    intro s c g f v j h hj hrem
    refine ⟨exec_callx_untaken h hj hrem, exec_callx_bound h hj hrem, ?_⟩
    rintro u ht hv hf hu hlow hin hpc hc hlen hp ⟨a, b, hab, hb, ha, hb'⟩ hjoins hrets hfits harea
    have hlowest := Ctx.lowestTarget_eq hu hlow
    rw [← hlowest] at hpc hc
    obtain ⟨i, k, hrun, hisome, hksome, hi, hk⟩ := exec_callx_calls h hj hrem ht (Nat.not_le.2 hv) hf hpc hc hlen hp
      ⟨a, b, hab, hb, ha, hb'⟩ hjoins (Ctx.scattered_room hjoins hrets hfits harea) (by omega)
    rw [hlowest] at hrun
    rw [← hlen] at hp hi hk
    obtain ⟨S, hS⟩ : ∃ S, c.scattered (c.act g) (c.callers (c.act g) v) (c.laterCallers (c.act g) v) s.cycle i k = S := ⟨_, rfl⟩
    have hbase : S.wbase = c.w.wbase ∧ S.rets = c.w.rets := by
      rw [← hS, Ctx.scattered_rest]
      exact ⟨rfl, rfl⟩
    have hpath := c.called_path (w := S) (by rw [← hS, Ctx.scattered_length]; exact hp) f (BitVec.ofNat 64 u) c.nextPc
    have hcallers : (S.path c.pidx).mask = c.callers (c.act g) v := by rw [← hS, Ctx.scattered_path hp]
    rw [hS] at hrun
    refine ⟨_, S.freeJoin, hrun, congrArg (· + f) hbase.1, congrArg (_ :: ·) hbase.2, ?_⟩
    rw [hpath]
    refine ⟨rfl, rfl, rfl, fun l hl => ?_, fun ⟨l, hl, hlt, hlu⟩ => ?_, fun hothers => ?_⟩
    · exact hcallers ▸ Ctx.getLsbD_callers hin hlowest hl
    · obtain ⟨y, rfl⟩ := hksome ((laneMask_ne_zero_iff _).2 ⟨l, hl, (Ctx.getLsbD_laterCallers hin hlowest hl).2 ⟨hlt, hlu⟩⟩)
      obtain ⟨hy, hne, -⟩ := hk y rfl
      refine ⟨y, hlen ▸ hy, ?_⟩
      rw [c.called_path_other hne, ← hS, Ctx.scattered_held hy hne]
      exact ⟨rfl, rfl, fun l hl => Ctx.getLsbD_laterCallers hin hlowest hl⟩
    · obtain ⟨x, rfl⟩ := hisome hothers
      obtain ⟨hx, hne⟩ := hi x rfl
      refine ⟨x, hlen ▸ hx, ?_⟩
      rw [c.called_path_other hne, ← hS, Ctx.scattered_group hx hne fun y hy => (hk y hy).2.2 x rfl]
      exact ⟨rfl, rfl⟩

end Sys2Proof.Machine
end

section
/-! The allocation, the end of lanes and software traps (spec/06 R174 to R177, spec/04 R110, R111). -/
namespace Sys2Proof.Machine

variable {s : State} {c : Ctx}

/-! ### `grow` and `shrink` -/

theorem allocValue_eq {w : Warp} {x : Src} {n : Nat} (h : x = .imm n ∨ ∃ r, x = .reg r ∧ (w.sreg r).toNat = n) : allocValue w x = n := by
  rcases h with rfl | ⟨r, rfl, hr⟩
  · rfl
  · exact hr

/-- Whether an earlier `grow` of the issuing warp is parked. -/
theorem growers_any_iff : (s.growers (quarterOf c.wid)).any (·.1 == c.wid) = true ↔ ∃ g ∈ s.growers (c.wid / 16), g.1 = c.wid := by
  simp [quarterOf]

section alloc
variable {x : Src} {n : Nat} (h : Issues s c) (hx : allocValue c.w x = n)
include h hx

theorem exec_grow_refused (hbad : ¬(8 ≤ n ∧ n ≤ 256 ∧ c.w.n ≤ n)) :
    exec (.grow x) s = .next (s.takeTrap c.wid c.pidx ⟨0x15, 0x04, BitVec.ofNat 64 n, c.p.mask⟩ (unitOf c.p c.pre)) := by
  subst hx
  exact run_trap h (if_pos (decide_eq_false hbad))

theorem exec_grow_same (hok : 8 ≤ n ∧ n ≤ 256) (hn : n = c.w.n) : exec (.grow x) s = .next (s.skip c) := by
  subst hx
  have hg : growable c.w (allocValue c.w x) = true := by simp [growable, hok.1, hok.2, hn.ge]
  refine run_ok h ((if_neg (by simp [hg])).trans ((if_neg (by simp [hn])).trans ?_))
  simp only [hn, if_true]
  rfl

theorem exec_grow_parks (hok : 8 ≤ n ∧ n ≤ 256 ∧ c.w.n < n) (hpark : (s.growers (quarterOf c.wid)).any (·.1 == c.wid) = true ∨
    (granules n - granules c.w.n ≠ 0 ∧ s.growServed (quarterOf c.wid) (granules n - granules c.w.n) = false)) :
    exec (.grow x) s = .next (s.awaits c c.w (.parked .grow) (.grow n) 0) := by
  subst hx
  refine run_ok h ((if_neg ?_).trans (if_pos ⟨by omega, hpark⟩))
  simp [growable, hok, hok.2.2.le]

theorem exec_grow_served (hok : 8 ≤ n ∧ n ≤ 256 ∧ c.w.n < n) (hserve : ¬((s.growers (quarterOf c.wid)).any (·.1 == c.wid) = true ∨
    (granules n - granules c.w.n ≠ 0 ∧ s.growServed (quarterOf c.wid) (granules n - granules c.w.n) = false))) :
    exec (.grow x) s = .next (s.complete c (c.w.relocate n) .none) := by
  subst hx
  have hne : allocValue c.w x ≠ c.w.n := by omega
  refine run_ok h ((if_neg ?_).trans ((if_neg fun hp => hserve hp.2).trans ?_))
  · simp [growable, hok, hok.2.2.le]
  · simp [hne]

theorem exec_shrink_refused (hbad : n < 8 ∨ 256 < n ∨ c.w.n < n) :
    exec (.shrink x) s = .next (s.takeTrap c.wid c.pidx ⟨0x15, 0x04, BitVec.ofNat 64 n, c.p.mask⟩ (unitOf c.p c.pre)) := by
  subst hx
  exact run_trap h (if_pos hbad)

theorem exec_shrink_same (hok : 8 ≤ n ∧ n ≤ 256) (hn : n = c.w.n) : exec (.shrink x) s = .next (s.skip c) := by
  subst hx
  exact run_ok h ((if_neg (by omega)).trans (if_pos hn))

theorem exec_shrink_fits (hok : 8 ≤ n ∧ n ≤ 256 ∧ n < c.w.n) (hfit : c.w.wbase + min 32 n - c.w.sfloor ≤ n) :
    exec (.shrink x) s = .next (s.complete c (c.w.relocate n) .none) := by
  subst hx
  refine run_ok h ((if_neg (by omega)).trans ((if_neg (by omega)).trans ?_))
  rw [spillUntil_fits _ _ (by exact hfit)]
  rfl

end alloc

/-! ### `yield` -/

/-- Whether another path stands outside the issue set, as the issuing warp counts it. -/
theorem Issues.outsider_iff (h : Issues s c) : c.w.outsider c.pidx = true ↔
    ∃ i, i < 16 ∧ i ≠ c.pidx ∧ (c.w.path i).state = .live ∧ (c.w.path i).inSet = false ∧ (c.w.inHandler && c.w.frozen.contains i) = false
      ∧ c.w.heldByCall (c.w.path i) = false := by
  simp only [Warp.outsider, Warp.runs, Warp.stopped, h.not_halted, Bool.false_or, List.any_eq_true, List.mem_range, Bool.and_eq_true,
    bne_iff_ne, beq_iff_eq, Bool.not_eq_true']
  exact exists_congr fun i => by tauto

theorem exec_yield_stays (h : Issues s c) {g : Guard} (hs : c.once g = false ∨ ¬c.w.outsider c.pidx = true) :
    exec (.yield g) s = .next (s.skip c) :=
  run_ok h (if_neg (by simpa using fun ho => hs.resolve_left (by simp [ho])))

theorem exec_yield_leaves (h : Issues s c) {g : Guard} (ho : c.once g = true) (hout : c.w.outsider c.pidx = true) :
    exec (.yield g) s = .next ((s.skip c).setPath c.wid c.pidx (·.leaveSet s.cycle)) :=
  run_ok h (if_pos (by simp [ho, hout]))

/-! ### `trap`, and words that name nothing -/

theorem exec_trap_acts (h : Issues s c) {g : Guard} (n : Int) (ho : c.once g = true) :
    exec (.trap g n) s = .next (s.takeTrap c.wid c.pidx ⟨0x72, n.toNat, 0, c.act g &&& c.w.present⟩ (unitOf c.p c.pre)) :=
  run_trap h (if_pos ho)

theorem exec_trap_idle (h : Issues s c) {g : Guard} (n : Int) (ho : c.once g = false) : exec (.trap g n) s = .next (s.skip c) :=
  run_ok h (if_neg (by simp [ho]))

theorem exec_unassignedOpcode (h : Issues s c) (w : IWord) : exec (.unassignedOpcode w) s =
    .next (s.takeTrap c.wid c.pidx ⟨(opcodeTrap w).1, (opcodeTrap w).2, 0, c.p.mask⟩ (unitOf c.p c.pre)) := by
  change execUnassignedOpcode w s = _
  unfold execUnassignedOpcode
  rw [h.1]
  exact run_trap h rfl

theorem opcodeTrap_eq (w : IWord) : opcodeTrap w =
    if 0xD0 ≤ wordOp w ∧ wordOp w ≤ 0xEF then (0x02, 0) else if wordOp w = 0xFF then (0x01, 0x06) else (0x01, 0x05) := by
  simp [opcodeTrap]

/-! ### `exit` -/

/-- A path keeps the lanes that do not end, but helpers only with a present lane of their quad (R176). -/
theorem getLsbD_keptLanes {present mask t : LaneMask} {l : Nat} (hl : l < 32) : (keptLanes present (mask &&& ~~~t)).getLsbD l = true ↔
    mask.getLsbD l = true ∧ t.getLsbD l = false ∧ (present.getLsbD l = true ∨
      ∃ k, k / 4 = l / 4 ∧ mask.getLsbD k = true ∧ t.getLsbD k = false ∧ present.getLsbD k = true) := by
  have hleft (k : Nat) (hk : k < 32) : (mask &&& ~~~t).getLsbD k = true ↔ mask.getLsbD k = true ∧ t.getLsbD k = false := by
    simp [hk]
  rw [keptLanes, getLsbD_maskOf _ hl, Bool.and_eq_true, Bool.or_eq_true, leader_isSome_iff, hleft l hl, and_assoc]
  refine and_congr_right fun _ => and_congr_right fun _ => or_congr_right (exists_congr fun k => and_congr_right fun hk => ?_)
  rw [hleft k (by omega), and_assoc]

/-- The lanes an `exit` leaves to its path. -/
def Ctx.lanesLeft (c : Ctx) (g : Guard) : LaneMask := keptLanes c.w.present (c.p.mask &&& ~~~(c.act g &&& c.w.present))

/-- The warp whose issuing path has left its scope. -/
def Ctx.departed (c : Ctx) (j : JoinEntry) : Warp := (c.w.setPath c.pidx Path.free).setJoin c.p.entry { j with out := j.out - 1 }

section exit
variable {g : Guard} (h : Issues s c)
include h

theorem exec_exit_idle (ht : c.act g = 0) : exec (.exit g) s = .next (s.skip c) := run_ok h (if_pos ht)

theorem exec_exit_some (ht : c.act g ≠ 0) (hl : c.lanesLeft g ≠ 0) :
    exec (.exit g) s = .next (s.complete c (c.w.setPath c.pidx { c.p with mask := c.lanesLeft g }) .none) :=
  run_ok h ((if_neg ht).trans (if_pos hl))

theorem leave_root {j : JoinEntry} {lanes : LaneMask} (hj : c.w.joins.get? c.p.entry = some j) (hk : j.kind = .root) (ho : j.out = 1)
    (hg : j.group = none) : leave c.env lanes c.pidx (s, c.w) = .ok ⟨s, c.departed j, true⟩ := by
  have hat : (c.departed j).joins.get? c.p.entry = some { j with out := j.out - 1 } := NMap.get?_put_same ..
  have hsettle := settle_root (s := s) c.env lanes (c.w.joins.length + c.w.jspilled.length + 1) hat hk (by simp [ho]) hg
  unfold leave
  dsimp only
  rw [← h.path, getJoin_held _ _ (show (c.w.setPath c.pidx Path.free).joins.get? c.p.entry = some j from hj)]
  exact hsettle

theorem exec_exit_last {j : JoinEntry} (ht : c.act g ≠ 0) (hl : c.lanesLeft g = 0) (hj : c.w.joins.get? c.p.entry = some j) (hk : j.kind = .root)
    (ho : j.out = 1) (hg : j.group = none) (hd : s.deserted c.bid c.wid c.w = none) :
    exec (.exit g) s = .next (finishMet c ⟨s, c.departed j, true⟩) := by
  refine run_ok h ((if_neg ht).trans ((if_neg (by simpa [Ctx.lanesLeft] using hl)).trans ?_))
  simp only [leave_root h hj hk ho hg, except_ok_bind, if_true, hd]
  rfl

end exit

/-- A warp that has ended leaves its slot, and its block counts the instruction. -/
theorem finishMet_ended {w : Warp} (hw : w.block = c.bid) : finishMet c ⟨s, w, true⟩ =
    { s with focus := none, warps := s.warps.del c.wid
             blocks := (s.blocks.adjust c.bid fun b => { b with retired := b.retired + 1 }).adjust c.bid fun b =>
               { b with live := b.live.filter (· != c.wid) } } := by
  have hblock : (w.met s.cycle).block = c.bid := by rw [Warp.met_eq, hw]
  change ({ s.count c.bid with focus := none } : State).endWarp c.wid (w.met s.cycle) = _
  rw [State.endWarp, hblock]
  rfl

/-- Settles O12: each instruction's ends, and where `grow` and `shrink` put the registers. -/
theorem allocationLaneEndsAndSoftwareTraps : Obligations.AllocationLaneEndsAndSoftwareTraps := by
  unfold Obligations.AllocationLaneEndsAndSoftwareTraps
  refine ⟨⟨?alloc, ?yield, ?exit⟩, ?trap, ?unassigned⟩
  case alloc =>
    intro s c x n h hx
    have hx := allocValue_eq hx
    dsimp only
    rw [← growers_any_iff]
    refine ⟨fun hbad => exec_grow_refused h hx (by omega), exec_shrink_refused h hx,
      fun h8 h256 hn => ⟨exec_grow_same h hx ⟨h8, h256⟩ hn, exec_shrink_same h hx ⟨h8, h256⟩ hn⟩,
      fun h8 h256 hn hpark => exec_grow_parks h hx ⟨h8, h256, hn⟩ hpark, fun h8 h256 hn hfirst hserve hpos hs hfit => ?_,
      fun h8 h256 hn hs hfit => ?_⟩
    · refine ⟨_, exec_grow_served h hx ⟨h8, h256, hn⟩ ?_, c.w.relocate_eq n, c.w.relocate_length n, fun i hi => ?_, fun i hi hin => ?_⟩
      · rintro (hb | ⟨hne, hno⟩)
        · exact hfirst hb
        · rcases hserve with h0 | hyes
          · exact hne h0
          · exact Bool.false_ne_true (hno.symm.trans hyes)
      · refine Warp.relocate_vreg hs ?_ ?_
        · unfold Warp.resident Warp.width; omega
        · unfold Warp.width; omega
      · refine Warp.relocate_vreg_new hs ?_ ?_
        · unfold Warp.width; omega
        · omega
    · refine ⟨_, exec_shrink_fits h hx ⟨h8, h256, hn⟩ hfit, c.w.relocate_eq n, c.w.relocate_length n, fun i hi => ?_⟩
      refine Warp.relocate_vreg hs ?_ ?_
      · unfold Warp.resident Warp.width; omega
      · unfold Warp.width; omega
  case yield =>
    intro s c g h
    dsimp only
    rw [← h.outsider_iff]
    exact ⟨exec_yield_stays h, exec_yield_leaves h⟩
  case exit =>
    intro s c g h
    have hkept (l : Nat) (hl : l < 32) : (c.lanesLeft g).getLsbD l = true ↔ _ := getLsbD_keptLanes hl
    have hsome := laneMask_ne_zero_iff (c.lanesLeft g)
    refine ⟨exec_exit_idle h, fun ht ⟨l, hl, hk⟩ => ⟨c.lanesLeft g, hkept, exec_exit_some h ht (hsome.2 ⟨l, hl, (hkept l hl).2 hk⟩)⟩,
      fun j ht hnone hj hk ho hg _ hd hp => ?_⟩
    have hleft : c.lanesLeft g = 0 := by
      by_contra hne
      obtain ⟨l, hl, hm⟩ := hsome.1 hne
      exact hnone l hl ((hkept l hl).1 hm)
    refine ⟨_, (exec_exit_last h ht hleft hj hk ho hg hd).trans (congrArg _ (finishMet_ended h.block.symm)), rfl, fun b hb => ?_⟩
    simp [NMap.get?_adjust, hb]
  case trap => exact fun s c g n h => ⟨exec_trap_acts h n, exec_trap_idle h n⟩
  case unassigned =>
    intro s c w h
    have hrun := exec_unassignedOpcode h w
    rw [opcodeTrap_eq] at hrun
    refine ⟨fun (h1 : 0xD0 ≤ wordOp w) h2 => ?_, fun (h1 : wordOp w = 0xFF) => ?_,
      fun (h1 : wordOp w < 0xD0 ∨ (0xEF < wordOp w ∧ wordOp w < 0xFF)) => ?_⟩
    · rwa [if_pos ⟨h1, h2⟩] at hrun
    · rwa [if_neg (by omega), if_pos h1] at hrun
    · rwa [if_neg (by omega), if_neg (by omega)] at hrun

end Sys2Proof.Machine
end

section
/-! Numbers of e bits (spec/07 R184, R185, R190): an exact result's low bits, and the shifts, counts and fields of a bit pattern. -/
namespace Sys2Proof.Machine

/-! ### Exact results (R184) -/

section results
variable {e : Nat} (uns : Bool) (x y z : BitVec e)

/-- A bit pattern as a number, signed or not. -/
def bitsInt : Int := if uns then (x.toNat : Int) else x.toInt

theorem ofInt_bitsInt : BitVec.ofInt e (bitsInt uns x) = x := by
  cases uns
  · exact BitVec.ofInt_toInt
  · exact (BitVec.ofInt_natCast ..).trans (by simp)

theorem wrapTo_eq (v : Int) : wrapTo e v = (BitVec.ofInt e v).toNat := by
  rw [wrapTo, BitVec.toNat_ofInt]
  norm_cast

theorem wrapTo_lt (v : Int) : wrapTo e v < 2 ^ e := wrapTo_eq v ▸ BitVec.isLt _

theorem wrapTo_bitsInt : wrapTo e (bitsInt uns x) = x.toNat := by rw [wrapTo_eq, ofInt_bitsInt]

theorem wrapTo_add : wrapTo e (bitsInt uns x + bitsInt uns y) = (x + y).toNat := by
  rw [wrapTo_eq, BitVec.ofInt_add, ofInt_bitsInt, ofInt_bitsInt]

theorem wrapTo_mul : wrapTo e (bitsInt uns x * bitsInt uns y) = (x * y).toNat := by
  rw [wrapTo_eq, BitVec.ofInt_mul, ofInt_bitsInt, ofInt_bitsInt]

theorem wrapTo_mulAdd : wrapTo e (bitsInt uns x * bitsInt uns y + bitsInt uns z) = (x * y + z).toNat := by
  rw [wrapTo_eq, BitVec.ofInt_add, BitVec.ofInt_mul, ofInt_bitsInt, ofInt_bitsInt, ofInt_bitsInt]

theorem wrapTo_neg : wrapTo e (-bitsInt uns x) = (-x).toNat := by rw [wrapTo_eq, BitVec.ofInt_neg, ofInt_bitsInt]

theorem wrapTo_sub : wrapTo e (bitsInt uns x - bitsInt uns y) = (x - y).toNat := by
  rw [wrapTo_eq, Int.sub_eq_add_neg, BitVec.ofInt_add, BitVec.ofInt_neg, ofInt_bitsInt, ofInt_bitsInt, BitVec.sub_eq_add_neg]

/-- The half above the low e bits. -/
theorem wrapTo_high (v : Int) : wrapTo e (v / 2 ^ e) = (v.fdiv (2 ^ e) % 2 ^ e).toNat := by
  rw [wrapTo, Int.fdiv_eq_ediv_of_nonneg _ (by positivity)]

theorem wrapTo_min : wrapTo e (min (bitsInt uns x) (bitsInt uns y)) = if bitsInt uns x ≤ bitsInt uns y then x.toNat else y.toNat := by
  rw [min_def]
  split <;> exact wrapTo_bitsInt ..

theorem wrapTo_max : wrapTo e (max (bitsInt uns x) (bitsInt uns y)) = if bitsInt uns x ≤ bitsInt uns y then y.toNat else x.toNat := by
  rw [max_def]
  split <;> exact wrapTo_bitsInt ..

theorem wrapTo_abs (v : Int) : wrapTo e (if v < 0 then -v else v) = v.natAbs % 2 ^ e := by
  have habs : (if v < 0 then -v else v) = v.natAbs := by split <;> omega
  rw [habs, wrapTo]
  norm_cast

theorem wrapTo_absSub (v w : Int) : wrapTo e (if v < w then w - v else v - w) = (v - w).natAbs % 2 ^ e := by
  rw [← wrapTo_abs]
  congr 1
  split <;> split <;> omega

/-- The least and the greatest number of e bits. -/
def leastInt (e : Nat) (uns : Bool) : Int := if uns then 0 else -2 ^ (e - 1)
def greatestInt (e : Nat) (uns : Bool) : Int := if uns then 2 ^ e - 1 else 2 ^ (e - 1) - 1

theorem leastInt_le_greatestInt (e : Nat) : leastInt e uns ≤ greatestInt e uns := by
  have h (n : Nat) : (1 : Int) ≤ 2 ^ n := by exact_mod_cast Nat.one_le_two_pow
  have h0 := h e
  have h1 := h (e - 1)
  cases uns <;> simp only [leastInt, greatestInt, Bool.false_eq_true, if_true, if_false] <;> omega

/-- A number limited to those of e bits. -/
theorem clampTo_eq (v : Int) : clampTo e uns v =
    wrapTo e (if v < leastInt e uns then leastInt e uns else if greatestInt e uns < v then greatestInt e uns else v) := by
  have hclamp : clampTo e uns v = wrapTo e (max (leastInt e uns) (min v (greatestInt e uns))) := by
    cases uns <;> rfl
  have := leastInt_le_greatestInt uns e
  rw [hclamp]
  congr 1
  split
  · omega
  · split <;> omega

end results

/-! ### Shifts and rotations (R185, R191) -/

section shifts
variable {e : Nat} (x : BitVec e) (n : Nat)

theorem shlBits_eq : shlBits e x.toNat n = (x <<< (n % e)).toNat := by
  rw [shlBits, BitVec.toNat_shiftLeft, Nat.shiftLeft_eq]

theorem shrBits_eq : shrBits e x.toNat n = (x >>> (n % e)).toNat := by
  rw [shrBits, BitVec.toNat_ushiftRight, Nat.shiftRight_eq_div_pow]

theorem sarBits_eq : sarBits e x.toNat n = (x.sshiftRight (n % e)).toNat := by
  rw [sarBits, wrapTo_eq, BitVec.ofNat_toNat, BitVec.setWidth_eq, BitVec.sshiftRight, Int.shiftRight_eq_div_pow]
  norm_cast

/-- The bits a rotation carries round stand below those it moves up. -/
theorem rotlBits_eq (he : 0 < e) : rotlBits e x.toNat n = (x.rotateLeft (n % e)).toNat := by
  have hk : n % e < e := Nat.mod_lt _ he
  have hlow : x.toNat / 2 ^ (e - n % e) < 2 ^ (n % e) := by
    rw [Nat.div_lt_iff_lt_mul (by positivity), ← pow_add, Nat.add_sub_cancel' hk.le]
    exact x.isLt
  have hhigh : x.toNat * 2 ^ (n % e) % 2 ^ e = 2 ^ (n % e) * (x.toNat % 2 ^ (e - n % e)) := by
    rw [← Nat.mul_mod_mul_left, ← pow_add, Nat.add_sub_cancel' hk.le, Nat.mul_comm]
  rw [rotlBits, BitVec.toNat_rotateLeft, Nat.mod_mod, Nat.shiftLeft_eq, Nat.shiftRight_eq_div_pow, hhigh,
    Nat.two_pow_add_eq_or_of_lt hlow]

theorem rotateLeft_sub (he : 0 < e) : x.rotateLeft ((e - n % e) % e) = x.rotateRight (n % e) := by
  rw [BitVec.rotateLeft_def, BitVec.rotateRight_def, Nat.mod_mod, Nat.mod_mod, BitVec.or_comm]
  have hk : n % e < e := Nat.mod_lt _ he
  rcases Nat.eq_zero_or_pos (n % e) with h0 | hpos
  · simp [h0, BitVec.ushiftRight_eq_zero]
  · rw [Nat.mod_eq_of_lt (by omega : e - n % e < e), Nat.sub_sub_self hk.le]

theorem rotrBits_eq (he : 0 < e) : rotrBits e x.toNat n = (x.rotateRight (n % e)).toNat := by
  rw [rotrBits, rotlBits_eq x _ he, rotateLeft_sub x n he]

end shifts

/-! ### Counts (R185, R191) -/

section counts
variable {e : Nat} (x : BitVec e)

theorem popcBits_eq : popcBits e x.toNat = (List.range e).countP fun b => x.getLsbD b := List.countP_eq_length_filter.symm

/-- The zeros above the highest bit that is one. -/
theorem clzBits_spec : clzBits e x.toNat ≤ e ∧ (∀ b, e - clzBits e x.toNat ≤ b → b < e → x.getLsbD b = false)
    ∧ (clzBits e x.toNat < e → x.getLsbD (e - 1 - clzBits e x.toNat) = true) := by
  unfold clzBits
  by_cases h0 : x.toNat = 0
  · rw [if_pos h0]
    exact ⟨le_rfl, fun b _ _ => by simp [BitVec.getLsbD, h0], fun h => absurd h (lt_irrefl e)⟩
  · have hlog : x.toNat.log2 < e := (Nat.log2_lt h0).2 x.isLt
    have htop : e - 1 - (e - 1 - x.toNat.log2) = x.toNat.log2 := by omega
    rw [if_neg h0, htop]
    refine ⟨by omega, fun b hb _ => ?_, fun _ => Nat.testBit_log2 h0⟩
    exact Nat.testBit_lt_two_pow (Nat.lt_log2_self.trans_le (Nat.pow_le_pow_right (by norm_num) (by omega)))

/-- The zeros below the lowest bit that is one. -/
theorem ctzBits_spec : ctzBits e x.toNat ≤ e ∧ (∀ b, b < ctzBits e x.toNat → x.getLsbD b = false)
    ∧ (ctzBits e x.toNat < e → x.getLsbD (ctzBits e x.toNat) = true) := by
  unfold ctzBits
  cases hf : (List.range e).find? x.toNat.testBit with
  | none =>
    rw [List.find?_range_eq_none] at hf
    exact ⟨le_rfl, fun b hb => Bool.not_eq_true' _ ▸ hf b hb, fun h => absurd h (lt_irrefl e)⟩
  | some i =>
    obtain ⟨hi, hmem, hlow⟩ := List.find?_range_eq_some.1 hf
    exact ⟨(List.mem_range.1 hmem).le, fun b hb => Bool.not_eq_true' _ ▸ hlow b hb, fun _ => hi⟩

theorem brevBits_succ (e a : Nat) : brevBits (e + 1) a = 2 * brevBits e a + (a.testBit e).toNat := by
  simp [brevBits, List.range_succ]

/-- The bits in opposite order. -/
theorem brevBits_spec (e a : Nat) : brevBits e a < 2 ^ e ∧ ∀ b, b < e → (brevBits e a).testBit b = a.testBit (e - 1 - b) := by
  induction e with
  | zero => exact ⟨by simp [brevBits], nofun⟩
  | succ e ih =>
    obtain ⟨hlt, hbits⟩ := ih
    have hbit := Bool.toNat_le (a.testBit e)
    rw [brevBits_succ, pow_succ]
    refine ⟨by omega, fun b hb => ?_⟩
    cases b with
    | zero => cases h : a.testBit e <;> simp [Nat.testBit_zero, h]
    | succ b =>
      rw [Nat.testBit_succ, show (2 * brevBits e a + (a.testBit e).toNat) / 2 = brevBits e a by omega, hbits b (by omega)]
      congr 1
      omega

end counts

/-! ### Bit fields (R186) -/

section fields
variable (e a b ctl k i : Nat)

theorem fieldOf_eq : fieldOf e ctl = (ctl % 256, min (ctl / 256 % 256) (e - ctl % 256)) := by
  unfold fieldOf
  dsimp only
  split
  · rw [Nat.sub_eq_zero_of_le ‹_›, Nat.min_zero]
  · rfl

/-- The bits of a field taken out of a number. -/
theorem testBit_field (p : Nat) : (a / 2 ^ p % 2 ^ k).testBit i = (decide (i < k) && a.testBit (p + i)) := by
  rw [Nat.testBit_mod_two_pow, Nat.testBit_div_two_pow, Nat.add_comm]

theorem testBit_bfxBits (uns : Bool) {i : Nat} (hi : i < e) : (bfxBits uns e a ctl).testBit i =
    if i < min (ctl / 256 % 256) (e - ctl % 256) then a.testBit (ctl % 256 + i)
    else !uns && decide (0 < min (ctl / 256 % 256) (e - ctl % 256))
      && a.testBit (ctl % 256 + min (ctl / 256 % 256) (e - ctl % 256) - 1) := by
  rw [bfxBits, fieldOf_eq]
  generalize ctl % 256 = p, min (ctl / 256 % 256) (e - ctl % 256) = k
  dsimp only
  rcases Nat.eq_zero_or_pos k with rfl | hk
  · simp
  rw [if_neg hk.ne']
  cases uns with
  | true =>
    rw [if_pos rfl, testBit_field]
    by_cases h : i < k <;> simp [h]
  | false =>
    have hext : wrapTo e (BitVec.ofNat k (a / 2 ^ p % 2 ^ k)).toInt = ((BitVec.ofNat k (a / 2 ^ p % 2 ^ k)).signExtend e).toNat := wrapTo_eq _
    rw [if_neg Bool.false_ne_true, hext, BitVec.testBit_toNat, BitVec.getLsbD_signExtend, BitVec.msb_eq_getLsbD_last, BitVec.getLsbD_ofNat,
      BitVec.getLsbD_ofNat, testBit_field, testBit_field]
    by_cases h : i < k <;> simp [h, hi, hk, Nat.add_sub_assoc hk]

/-- A number with the low bits of another put in a field. -/
theorem testBit_insert (p : Nat) : (a - a / 2 ^ p % 2 ^ k * 2 ^ p + b % 2 ^ k * 2 ^ p).testBit i =
    if p ≤ i ∧ i < p + k then b.testBit (i - p) else a.testBit i := by
  have hsplit : a = 2 ^ p * (2 ^ k * (a / 2 ^ p / 2 ^ k) + a / 2 ^ p % 2 ^ k) + a % 2 ^ p := by
    rw [Nat.div_add_mod, Nat.div_add_mod]
  have hnew : a - a / 2 ^ p % 2 ^ k * 2 ^ p + b % 2 ^ k * 2 ^ p = 2 ^ p * (2 ^ k * (a / 2 ^ p / 2 ^ k) + b % 2 ^ k) + a % 2 ^ p := by
    have hle : a / 2 ^ p % 2 ^ k * 2 ^ p ≤ a := (Nat.mul_le_mul_right _ (Nat.mod_le ..)).trans (Nat.div_mul_le_self ..)
    zify [hle]
    have := congrArg (Nat.cast : Nat → Int) hsplit
    push_cast at this
    linear_combination this
  rw [hnew, Nat.testBit_two_pow_mul_add _ (Nat.mod_lt _ (by positivity)), Nat.testBit_two_pow_mul_add _ (Nat.mod_lt _ (by positivity)),
    Nat.testBit_mod_two_pow, Nat.testBit_mod_two_pow, Nat.testBit_div_two_pow, Nat.testBit_div_two_pow]
  by_cases hp : i < p
  · simp [hp, Nat.not_le.2 hp]
  · by_cases hk : i - p < k
    · simp [hp, hk, show p ≤ i ∧ i < p + k by omega]
    · simp [hp, hk, show ¬(p ≤ i ∧ i < p + k) by omega, show i - p - k + k + p = i by omega]

theorem testBit_bfiBits : (bfiBits e a b ctl).testBit i =
    if ctl % 256 ≤ i ∧ i < ctl % 256 + min (ctl / 256 % 256) (e - ctl % 256) then b.testBit (i - ctl % 256) else a.testBit i := by
  rw [bfiBits, fieldOf_eq]
  generalize ctl % 256 = p, min (ctl / 256 % 256) (e - ctl % 256) = k
  dsimp only
  split
  · next h =>
    rw [if_neg]
    omega
  · exact testBit_insert ..

end fields

/-! ### Truth tables (R187) -/

theorem getLsbD_lut3Word (t : BitVec 8) (a b z : Word) {i : Nat} (hi : i < 64) : (lut3Word t a b z).getLsbD i =
    t.getLsbD (4 * (a.getLsbD i).toNat + 2 * (b.getLsbD i).toNat + (z.getLsbD i).toNat) := by
  have hstep (acc x : Word) (p : Bool) : (if p then acc ||| x else acc).getLsbD i = (acc.getLsbD i || (p && x.getLsbD i)) := by
    cases p <;> simp
  simp only [lut3Word, List.range, List.range.loop, List.foldl, hstep]
  cases ha : a[i] <;> cases hb : b[i] <;> cases hz : z[i] <;> simp [ha, hb, hz, hi]

end Sys2Proof.Machine
end

section
/-! Elements of a lane (spec/07 R184, spec/08 R210), and the vector instructions on integers and bits (spec/07 R185 to R188). -/
namespace Sys2Proof.Machine

/-! ### Elements -/

section elements
variable (f : Fmt) (x : Word) (j : Nat)

theorem elemBits_pos : 0 < elemBits f := by cases f <;> decide

theorem elemBits_mul_elemCount_le : elemBits f * elemCount f ≤ 64 := by cases f <;> decide

theorem element_lt : element f x j < 2 ^ elemBits f := by
  have hraw : rawElement f x j < 2 ^ elemBits f := Nat.mod_lt _ (by positivity)
  unfold element
  dsimp only
  split
  · exact (Nat.mod_le ..).trans_lt hraw
  · exact hraw

theorem element_eq : element f x j = (BitVec.ofNat (elemBits f) (element f x j)).toNat := by
  rw [BitVec.toNat_ofNat, Nat.mod_eq_of_lt (element_lt f x j)]

theorem elemInt_eq (uns : Bool) : elemInt f uns x j = bitsInt uns (BitVec.ofNat (elemBits f) (element f x j)) := by
  unfold elemInt bitsInt
  rw [← element_eq]

theorem element_of_no_spare_bits (h : f ≠ .e3m2 ∧ f ≠ .e2m3) : element f x j = rawElement f x j := by
  simp [element, h]

/-- The digits of a number put together from them. -/
theorem foldr_digits (e : Nat) (g : Nat → Nat) (l : List Nat) (j : Nat) :
    l.foldr (fun k n => n * 2 ^ e + g k % 2 ^ e) 0 / 2 ^ (e * j) % 2 ^ e = (l[j]?).elim 0 fun k => g k % 2 ^ e := by
  induction l generalizing j with
  | nil => simp
  | cons k l ih =>
    rw [List.foldr_cons]
    cases j with
    | zero => simp
    | succ j =>
      have hk : g k % 2 ^ e < 2 ^ e := Nat.mod_lt _ (by positivity)
      rw [show e * (j + 1) = e + e * j by ring, pow_add, ← Nat.div_div_eq_div_mul, Nat.mul_comm _ (2 ^ e), Nat.mul_add_div (by positivity),
        Nat.div_eq_of_lt hk, Nat.add_zero, ih]
      simp

/-- An element of a value put together from its elements. -/
theorem rawElement_ofElements (g : Nat → Nat) {j : Nat} (hj : j < elemCount f) : rawElement f (ofElements f g) j = g j % 2 ^ elemBits f := by
  have hfit : elemBits f * j + elemBits f ≤ 64 := by
    rw [← Nat.mul_succ]
    exact (Nat.mul_le_mul_left _ hj).trans (elemBits_mul_elemCount_le f)
  have hlow (v : Nat) : v % 2 ^ 64 / 2 ^ (elemBits f * j) % 2 ^ elemBits f = v / 2 ^ (elemBits f * j) % 2 ^ elemBits f := by
    refine Nat.eq_of_testBit_eq fun i => ?_
    simp only [Nat.testBit_mod_two_pow, Nat.testBit_div_two_pow]
    by_cases hi : i < elemBits f
    · simp [hi, show i + elemBits f * j < 64 by omega]
    · simp [hi]
  rw [rawElement, ofElements, BitVec.toNat_ofNat, hlow, foldr_digits]
  simp [hj]

end elements

theorem getLsbD_xnor (x y : Word) {i : Nat} (hi : i < 64) : (~~~(x ^^^ y)).getLsbD i = (x.getLsbD i == y.getLsbD i) := by
  simp only [BitVec.getLsbD_not, BitVec.getLsbD_xor, hi]
  cases x.getLsbD i <;> cases y.getLsbD i <;> rfl

/-! ### A vector instruction whose operands pass -/

/-- Element j of lane l of a vector source. -/
def Ctx.elem (c : Ctx) (f : Fmt) (v : Src) (l j : Nat) : BitVec (elemBits f) := BitVec.ofNat (elemBits f) (element f (c.vec f v l) j)

section ready
variable {s t : State} {c : Ctx} {o : Alu}

theorem LaneReady.laneValues_eq {df fa fb fc : Fmt} (h : LaneReady s c o.g o.d df (o.vecSrcs fa fb fc) t) (f : Word → Word → Word → Word) :
    laneValues s o df fa fb fc f =
      .next (t.vectorDone c o.g o.d df fun l => f (c.vec fa o.a l) (c.vec fb o.b l) (c.vec fc o.c l)) := by
  have hc := h.checks
  rw [Alu.vecSrcs] at hc
  refine run_ok h.issues ?_
  simp only [bind, Except.bind, hc, h.compare]
  rfl

variable (h : LaneReady s c o.g o.d o.fmt (o.vecSrcs o.fmt o.fmt o.fmt) t) {r : Nat → Nat → Nat}
include h

theorem LaneReady.intVec_eq {reduce : Nat → Int → Nat} {op : Nat → Int → Int → Int → Int}
    (hr : ∀ l j, reduce (elemBits o.fmt) (op (elemBits o.fmt) (bitsInt o.uns (c.elem o.fmt o.a l j)) (bitsInt o.uns (c.elem o.fmt o.b l j))
      (bitsInt o.uns (c.elem o.fmt o.c l j))) = r l j) :
    intVec s o reduce op = .next (t.vectorDone c o.g o.d o.fmt fun l => ofElements o.fmt fun j => r l j) := by
  unfold intVec
  simp only [h.laneValues_eq, elemInt_eq]
  simp only [← hr]
  rfl

theorem LaneReady.bitVec_eq {op : Nat → Nat → Nat → Nat → Nat}
    (hr : ∀ l j, op (elemBits o.fmt) (c.elem o.fmt o.a l j).toNat (c.elem o.fmt o.b l j).toNat (c.elem o.fmt o.c l j).toNat = r l j) :
    bitVec s o op = .next (t.vectorDone c o.g o.d o.fmt fun l => ofElements o.fmt fun j => r l j) := by
  unfold bitVec
  rw [h.laneValues_eq]
  simp only [← hr, Ctx.elem, ← element_eq]

end ready

/-- Settles O13: each operation on exact integers reduced to the element, and each on words bit by bit. -/
theorem vectorIntegerAndLogicResults : Obligations.VectorIntegerAndLogicResults := by
  unfold Obligations.VectorIntegerAndLogicResults
  refine ⟨fun s t c o h => ?_, fun s t c o h => ?_⟩
  · intro e x i done low high limited
    change execIadd o s = _ ∧ execIsub o s = _ ∧ execImul o s = _ ∧ execImad o s = _ ∧ execImulh o s = _ ∧ execIadds o s = _
      ∧ execIsubs o s = _ ∧ execImin o s = _ ∧ execImax o s = _ ∧ execIabs o s = _ ∧ execIneg o s = _ ∧ execIabsd o s = _
    refine ⟨h.intVec_eq fun _ _ => wrapTo_add .., h.intVec_eq fun _ _ => wrapTo_sub .., h.intVec_eq fun _ _ => wrapTo_mul ..,
      h.intVec_eq fun _ _ => wrapTo_mulAdd .., h.intVec_eq fun _ _ => wrapTo_high .., h.intVec_eq fun _ _ => clampTo_eq ..,
      h.intVec_eq fun _ _ => clampTo_eq .., h.intVec_eq fun _ _ => wrapTo_min .., h.intVec_eq fun _ _ => wrapTo_max ..,
      h.intVec_eq fun _ _ => wrapTo_abs .., h.intVec_eq fun _ _ => wrapTo_neg .., h.intVec_eq fun _ _ => wrapTo_absSub ..⟩
  · intro done bits
    refine ⟨⟨_, h.laneValues_eq fun x y _ => x &&& y, fun _ b hb => ?_⟩, ⟨_, h.laneValues_eq fun x y _ => x ||| y, fun _ b hb => ?_⟩,
      ⟨_, h.laneValues_eq fun x y _ => x ^^^ y, fun _ b hb => ?_⟩, ⟨_, h.laneValues_eq fun x y _ => x &&& ~~~y, fun _ b hb => ?_⟩,
      ⟨_, h.laneValues_eq fun x y _ => x ||| ~~~y, fun _ b hb => ?_⟩,
      ⟨_, h.laneValues_eq fun x y _ => ~~~(x ^^^ y), fun _ b hb => getLsbD_xnor _ _ hb⟩,
      ⟨_, h.laneValues_eq fun x _ _ => ~~~x, fun _ b hb => ?_⟩, ⟨_, h.laneValues_eq fun x _ _ => x, fun _ _ _ => rfl⟩,
      fun table => ⟨_, h.laneValues_eq (lut3Word table), fun _ b hb => getLsbD_lut3Word _ _ _ _ hb⟩⟩
    all_goals simp [hb]

/-- Settles O14: each operation on the bits of an element. -/
theorem vectorShiftsCountsAndFields : Obligations.VectorShiftsCountsAndFields := by
  unfold Obligations.VectorShiftsCountsAndFields
  refine ⟨fun s t c o h => ?_, fun s t c o h => ?_⟩
  · intro e x k done
    have he : 0 < e := elemBits_pos o.fmt
    change execShl o s = _ ∧ execShr o s = _ ∧ execSar o s = _ ∧ execIrot false o s = _ ∧ execIrot true o s = _ ∧ execPopc o s = _
      ∧ (∃ r, execClz o s = _ ∧ _) ∧ (∃ r, execCtz o s = _ ∧ _) ∧ ∃ r, execBrev o s = _ ∧ _
    refine ⟨h.bitVec_eq fun _ _ => shlBits_eq .., h.bitVec_eq fun _ _ => shrBits_eq .., h.bitVec_eq fun _ _ => sarBits_eq ..,
      h.bitVec_eq fun _ _ => rotlBits_eq _ _ he, h.bitVec_eq fun _ _ => rotrBits_eq _ _ he, h.bitVec_eq fun _ _ => popcBits_eq _,
      ⟨_, h.bitVec_eq fun _ _ => rfl, fun l j => clzBits_spec (x o.a l j)⟩,
      ⟨_, h.bitVec_eq fun _ _ => rfl, fun l j => ctzBits_spec (x o.a l j)⟩,
      ⟨_, h.bitVec_eq fun _ _ => rfl, fun l j => brevBits_spec e (x o.a l j).toNat⟩⟩
  · intro e x p k done
    change (∃ r, execBfx o s = _ ∧ _) ∧ ∃ r, execBfi o s = _ ∧ _
    refine ⟨⟨_, h.bitVec_eq fun _ _ => rfl, fun l j b hb => ?_⟩, ⟨_, h.bitVec_eq fun _ _ => rfl, fun l j b hb => ?_⟩⟩
    · rw [testBit_bfxBits _ _ _ _ hb]
      simp only [Ctx.elem, ← element_eq]
      rfl
    · rw [testBit_bfiBits]
      simp only [Ctx.elem, ← element_eq]
      rfl

/-! ### Compare, select, dot product, conversion -/

theorem condHolds_eq (k : Cond) (x y : Int) : condHolds k x y = match k with
    | .eq => decide (x = y) | .ne => decide (x ≠ y) | .lt => decide (x < y)
    | .le => decide (x ≤ y) | .gt => decide (x > y) | .ge => decide (x ≥ y) := by
  cases k
  case ne => exact (decide_not ..).symm
  all_goals rfl

/-- What the `sat` field makes of an exact value (R188). -/
theorem clampTo_signed (e : Nat) (v : Int) : clampTo e false v =
    wrapTo e (if v < -2 ^ (e - 1) then -2 ^ (e - 1) else if 2 ^ (e - 1) - 1 < v then 2 ^ (e - 1) - 1 else v) := clampTo_eq false v

theorem clampTo_unsigned (e : Nat) (v : Int) : clampTo e true v =
    wrapTo e (if v < 0 then 0 else if 2 ^ e - 1 < v then 2 ^ e - 1 else v) := clampTo_eq true v

/-- An element of a result that fills its lane or replaces element jd. -/
theorem element_placeElement (w : Warp) (d : Dst) (f : Fmt) {j jd : Nat} (l : Nat) {v : Nat} (hv : v < 2 ^ elemBits f) (hj : j < elemCount f)
    (hjd : jd < elemCount f) (hf : f ≠ .e3m2 ∧ f ≠ .e2m3) : element f (placeElement w d f jd l v) j =
      if j = jd then v else rawElement f (bif d.wb then atLane (w.vecValue f d.idx) l else 0) j := by
  rw [element_of_no_spare_bits _ _ _ hf, placeElement]
  split
  · next h1 =>
    have hbits : 2 ^ elemBits f ≤ 2 ^ 64 := Nat.pow_le_pow_right (by norm_num) (by simpa [h1] using elemBits_mul_elemCount_le f)
    obtain rfl : j = 0 := by omega
    obtain rfl : jd = 0 := by omega
    rw [rawElement, BitVec.toNat_ofNat, Nat.mod_eq_of_lt (hv.trans_le hbits)]
    simp [Nat.mod_eq_of_lt hv]
  · rw [setElement, rawElement_ofElements _ _ hj]
    split
    · exact Nat.mod_eq_of_lt hv
    · rw [keptValue, Bool.cond_eq_ite]
      exact Nat.mod_eq_of_lt (Nat.mod_lt _ (by positivity))

/-- Settles O15, instruction by instruction. -/
theorem compareSelectConvert : Obligations.CompareSelectConvert := by
  unfold Obligations.CompareSelectConvert
  refine ⟨fun s t c o k h => ?_, fun s t c o h => ?_, fun s t c o h => ?_, fun s t c o sat sf js jd h hjd => ?_⟩
  · intro i
    refine run_ok h.issues ?_
    simp only [bind, Except.bind, h.checks, h.compare, condHolds_eq]
    rfl
  · refine run_ok h.issues ?_
    simp only [bind, Except.bind, h.checks, h.compare, Bool.cond_eq_ite]
    rfl
  · intro b
    change execIdot4 o s = _
    refine (h.laneValues_eq _).trans ?_
    simp only [wrapTo_eq, BitVec.ofNat_toNat, List.map_cons, List.map_nil, List.sum_cons, List.sum_nil, add_zero, ← add_assoc]
    rfl
  · intro e limit x y old
    refine ⟨fun l => placeElement c.w o.d o.fmt jd l (wrapTo e (y l)), ?_, fun l j hj _ hf => ?_⟩
    · refine run_ok h.issues ?_
      cases sat <;> simp only [bind, Except.bind, h.checks, h.compare, clampTo_signed, clampTo_unsigned] <;> rfl
    · exact element_placeElement _ _ _ _ (wrapTo_lt ..) hj hjd hf

end Sys2Proof.Machine
end

section
/-! `vmovx` (spec/07 R189): the register that each lane's index names, read or written in that lane alone. -/
namespace Sys2Proof.Machine

/-! ### Lanes written one by one -/

section lanes
variable (w : Warp) (f : Fmt) (place : Nat → Nat) (x : Nat → Word) (lanes : List Nat) {k l : Nat}

/-- One lane of a register written. -/
def Warp.putLane (i l : Nat) (x : Word) : Warp := w.putVec f i (maskOf (· == l)) fun _ => x

/-- Each lane of a list written to a register of its own. -/
def Warp.putLanes : Warp := lanes.foldl (fun w l => w.putLane f (place l) l (x l)) w

theorem Warp.putLanes_cons (a : Nat) : w.putLanes f place x (a :: lanes) = (w.putLane f (place a) a (x a)).putLanes f place x lanes := rfl

theorem Warp.putLane_eq (i l : Nat) (x : Word) : ∃ v, w.putLane f i l x = { w with v := v } ∧ v.length = w.v.length := by
  refine ⟨_, w.putVec_eq f _ _, ?_⟩
  unfold Warp.putVec Warp.setVreg modifyAt
  split <;> simp

theorem Warp.putLanes_eq : ∃ v, w.putLanes f place x lanes = { w with v := v } := by
  induction lanes generalizing w with
  | nil => exact ⟨w.v, rfl⟩
  | cons a r ih =>
    obtain ⟨v, hv⟩ := ih (w.putLane f (place a) a (x a))
    obtain ⟨u, hu, -⟩ := w.putLane_eq f (place a) a (x a)
    exact ⟨v, by rw [Warp.putLanes_cons, hv, hu]⟩

theorem Warp.vreg_putLane (hv : w.v.length = w.n) {i a : Nat} (x : Word) (hi : i + (if f.is64 then 1 else 0) < w.n) (hk : k < w.n)
    (hl : l < 32) :
    laneOf ((w.putLane f i a x).vreg k) l = if l = a ∧ k = i then x.extractLsb' 0 32
      else if l = a ∧ f.is64 = true ∧ k = i + 1 then x.extractLsb' 32 32 else laneOf (w.vreg k) l := by
  simp only [Warp.putLane, w.vreg_putVec hv f _ _ hi hk hl, getLsbD_maskOf _ hl, beq_iff_eq]

/-- A lane of a register is the lane's own value where it is the lane's own register, and else as before. -/
theorem Warp.vreg_putLanes (hv : w.v.length = w.n) (hin : ∀ a ∈ lanes, place a + (if f.is64 then 1 else 0) < w.n) (hk : k < w.n)
    (hl : l < 32) : laneOf ((w.putLanes f place x lanes).vreg k) l =
      if l ∈ lanes ∧ k = place l then (x l).extractLsb' 0 32
      else if l ∈ lanes ∧ f.is64 = true ∧ k = place l + 1 then (x l).extractLsb' 32 32
      else laneOf (w.vreg k) l := by
  induction lanes generalizing w with
  | nil => simp [Warp.putLanes]
  | cons a r ih =>
    obtain ⟨ha, hr⟩ := List.forall_mem_cons.1 hin
    obtain ⟨u, hu, hlen⟩ := w.putLane_eq f (place a) a (x a)
    have hrest := ih { w with v := u } (hlen.trans hv) hr hk
    rw [← hu, w.vreg_putLane f hv _ ha hk hl] at hrest
    rw [Warp.putLanes_cons, hrest]
    by_cases hla : l = a
    · subst hla
      by_cases hlr : l ∈ r
      · simp only [hlr, List.mem_cons_self, true_and]
        split_ifs <;> rfl
      · simp [hlr]
    · simp [hla]

section own
variable {w f place lanes} (hv : w.v.length = w.n) (hf : f ≠ .b128) (hroom : ∀ a ∈ lanes, place a + spanOf f ≤ w.n) (hl : l < 32)
include hv hf hroom hl

/-- A lane written holds its value. -/
theorem Warp.putLanes_own (hmem : l ∈ lanes) {i : Nat} (hi : i < spanOf f) :
    laneOf ((w.putLanes f place x lanes).vreg (place l + i)) l = (x l).extractLsb' (32 * i) 32 := by
  have hspan := spanOf_of_ne_b128 hf
  have hl' := hroom l hmem
  refine (w.vreg_putLanes f place x lanes hv (fun a ha => by have := hroom a ha; omega) (by omega) hl).trans ?_
  match i with
  | 0 => simp [hmem]
  | 1 =>
    have h64 : f.is64 = true := by
      by_contra h64
      rw [if_neg h64] at hspan
      omega
    simp [hmem, h64]
  | i + 2 => split at hspan <;> omega

/-- A lane keeps what it holds in every register that is not its own. -/
theorem Warp.putLanes_other (hk : k < w.n) (hout : l ∈ lanes → k < place l ∨ place l + spanOf f ≤ k) :
    laneOf ((w.putLanes f place x lanes).vreg k) l = laneOf (w.vreg k) l := by
  have hspan := spanOf_of_ne_b128 hf
  refine (w.vreg_putLanes f place x lanes hv (fun a ha => by have := hroom a ha; omega) hk hl).trans ?_
  rw [if_neg, if_neg]
  · rintro ⟨hmem, h64, hk1⟩
    have := hout hmem
    rw [if_pos h64] at hspan
    omega
  · rintro ⟨hmem, hk1⟩
    have := hout hmem
    omega

end own

end lanes

/-! ### Lanes whose index stands in the window -/

theorem vmovxBad_eq_zero {w : Warp} {f : Fmt} {base : Nat} {idx : List Word} {lanes : LaneMask}
    (h : ∀ l, l < 32 → lanes.getLsbD l = true → base + spanOf f * (atLane idx l).toNat + spanOf f ≤ w.width) :
    vmovxBad w f base idx lanes = 0 := by
  by_contra hne
  obtain ⟨l, hl, hbad⟩ := (laneMask_ne_zero_iff _).1 hne
  rw [vmovxBad, getLsbD_maskOf _ hl, Bool.and_eq_true, decide_eq_true_iff] at hbad
  exact absurd (h l hl hbad.1) (Nat.not_le.2 hbad.2)

theorem laneMask_zero_and (m : LaneMask) : 0 &&& m = 0 := BitVec.zero_and

theorem laneMask_and_not_zero (m : LaneMask) : m &&& ~~~0 = m := BitVec.and_allOnes

theorem execVmovx_read {o : Alu} {base : Nat} {s : State} (ha : o.a = .reg base) : execVmovx false o s = vmovxRead o base s := by
  simp [execVmovx, ha]

section runs
variable {s t : State} {c : Ctx} {o : Alu} {base : Nat} (h : LaneReady s c o.g o.d o.fmt [(.vec o.fmt, o.a), (.vec .i32, o.b)] t)
include h

theorem LaneReady.vmovxRead_inside (hin : vmovxBad c.w o.fmt base (readVec c.w c.p .i32 o.b) (c.act o.g) = 0) :
    vmovxRead o base s = .next (t.vectorDone c o.g o.d o.fmt fun l =>
      atLane (c.w.vecValue o.fmt (base + spanOf o.fmt * (c.vec .i32 o.b l).toNat)) l) := by
  refine run_ok h.issues ?_
  simp only [bind, Except.bind, h.checks, h.compare, hin, laneMask_zero_and, laneMask_and_not_zero, ne_eq, not_true_eq_false, if_false]
  rfl

theorem LaneReady.vmovxWrite_inside (hin : vmovxBad c.w o.fmt o.d.idx (readVec c.w c.p .i32 o.b) (c.act o.g) = 0) :
    ∃ pl, vmovxWrite o s = .next (t.complete c (c.w.putLanes o.fmt (fun l => o.d.idx + spanOf o.fmt * (c.vec .i32 o.b l).toNat)
      (c.vec o.fmt o.a) (lanesOf (c.act o.g))) pl) := by
  refine ⟨.vector (laneIndices.map fun l => if (c.act o.g).getLsbD l then c.vec o.fmt o.a l else
    atLane ((c.w.putLanes o.fmt (fun l => o.d.idx + spanOf o.fmt * (c.vec .i32 o.b l).toNat) (c.vec o.fmt o.a)
      (lanesOf (c.act o.g))).vecValue o.fmt o.d.idx) l), run_ok h.issues ?_⟩
  simp only [bind, Except.bind, h.checks, h.compare, hin, laneMask_zero_and, laneMask_and_not_zero, ne_eq, not_true_eq_false, if_false]
  rfl

theorem LaneReady.vmovx_refused (write : Bool) (hbase : if write then base = o.d.idx else o.a = .reg base)
    (hbad : vmovxBad c.w o.fmt base (readVec c.w c.p .i32 o.b) (c.act o.g) &&& c.w.present ≠ 0) :
    ∃ data, execVmovx write o s = .next (s.takeTrap c.wid c.pidx
      ⟨0x15, 0x01, data, vmovxBad c.w o.fmt base (readVec c.w c.p .i32 o.b) (c.act o.g)⟩ (unitOf c.p c.pre)) := by
  refine ⟨vmovxIndex o.fmt base (readVec c.w c.p .i32 o.b)
    (vmovxBad c.w o.fmt base (readVec c.w c.p .i32 o.b) (c.act o.g) &&& c.w.present), ?_⟩
  cases write with
  | true =>
    obtain rfl : base = o.d.idx := hbase
    refine run_trap h.issues ?_
    simp only [bind, Except.bind, h.checks, if_pos hbad, raise]
  | false =>
    rw [execVmovx_read hbase]
    refine run_trap h.issues ?_
    simp only [bind, Except.bind, h.checks, if_pos hbad, raise]

end runs

/-- Settles O16: the read takes each lane's register as it stands, the write is one of single lanes. -/
theorem registerMoves : Obligations.RegisterMoves := by
  unfold Obligations.RegisterMoves
  intro s t c o h step idx inside bad
  refine ⟨fun base ha hin => ?_, fun hin hf hv => ?_, fun base write hbase hbad => h.vmovx_refused write hbase hbad⟩
  · exact (execVmovx_read ha).trans (h.vmovxRead_inside (vmovxBad_eq_zero hin))
  · obtain ⟨pl, hrun⟩ := h.vmovxWrite_inside (vmovxBad_eq_zero hin)
    obtain ⟨v, hw⟩ := c.w.putLanes_eq o.fmt (fun l => o.d.idx + step * idx l) (c.vec o.fmt o.a) (lanesOf (c.act o.g))
    have hroom (l : Nat) (hl : l ∈ lanesOf (c.act o.g)) : o.d.idx + step * idx l + step ≤ c.w.n := by
      obtain ⟨hl, ha⟩ := mem_lanesOf.1 hl
      exact (hin l hl ha).trans (min_le_right ..)
    refine ⟨_, pl, hrun, ?_, fun l hl ha i hi => ?_, fun k l hk hl hout => ?_⟩
    · rw [hw]
    · exact Warp.putLanes_own _ hv hf hroom hl (mem_lanesOf.2 ⟨hl, ha⟩) hi
    · exact Warp.putLanes_other _ hv hf hroom hl hk fun hmem => hout (mem_lanesOf.1 hmem).2

end Sys2Proof.Machine
end

section
/-! Scalar integers (spec/07 R190 to R193): the low e bits of the sources, computed once where a lane acts. -/
namespace Sys2Proof.Machine

/-! ### The low bits of a scalar (R190) -/

section values
variable (f : Fmt) (uns : Bool)

theorem scaBits_pos : 0 < scaBits f := by unfold scaBits; split <;> decide

/-- The low bits of a scalar. -/
def scaLow (x : Word) : BitVec (scaBits f) := BitVec.ofNat (scaBits f) x.toNat

theorem scaLow_toNat (x : Word) : x.toNat % 2 ^ scaBits f = (scaLow f x).toNat := rfl

theorem scaInt_eq (x : Word) : scaInt f uns x = bitsInt uns (scaLow f x) := by
  unfold scaInt bitsInt
  rw [scaLow_toNat]
  simp

/-- A result as the register holds it. -/
def scaExtend {e : Nat} (uns : Bool) (r : BitVec e) : Word := if uns then r.zeroExtend 64 else r.signExtend 64

theorem scaExtend_64 (r : BitVec 64) : scaExtend uns r = r := by
  simp [scaExtend]

theorem scaResult_eq (r : Nat) : scaResult f uns r = scaExtend uns (BitVec.ofNat (scaBits f) r) := by
  by_cases hf : f = .i64
  · subst hf
    exact (scaExtend_64 uns (BitVec.ofNat 64 r)).symm
  · rw [show scaBits f = 32 from if_neg hf, scaResult, if_neg hf]
    rfl

theorem ofNat_wrapTo {e : Nat} (v : Int) : BitVec.ofNat e (wrapTo e v) = BitVec.ofInt e v := by
  rw [wrapTo_eq, BitVec.ofNat_toNat, BitVec.setWidth_eq]

end values

/-! ### A scalar instruction whose operands pass -/

section ready
variable {s : State} {c : Ctx} {o : Alu} (h : ScalarReady s c o.g o.d o.scaSrcs)
include h

theorem ScalarReady.scalarOp_eq (f : Word → Word → Word → Word) :
    scalarOp s o f = .next (s.scalarDone c o.g o.d (f (c.sca o.a) (c.sca o.b) (c.sca o.c))) := by
  have hc := h.checks
  rw [Alu.scaSrcs] at hc
  refine run_ok h.issues ?_
  simp only [bind, Except.bind, hc]
  rfl

theorem ScalarReady.scalarInt_eq (op : Int → Int → Int → Int) : scalarInt s o op = .next (s.scalarDone c o.g o.d (scaExtend o.uns
    (BitVec.ofInt (scaBits o.fmt) (op (bitsInt o.uns (scaLow o.fmt (c.sca o.a))) (bitsInt o.uns (scaLow o.fmt (c.sca o.b)))
      (bitsInt o.uns (scaLow o.fmt (c.sca o.c))))))) := by
  unfold scalarInt
  simp only [h.scalarOp_eq, scaInt_eq, scaResult_eq, ofNat_wrapTo]

theorem ScalarReady.scalarBits_eq (op : Nat → Nat → Nat → Nat → Nat) : scalarBits s o op = .next (s.scalarDone c o.g o.d (scaExtend o.uns
    (BitVec.ofNat (scaBits o.fmt) (op (scaBits o.fmt) (scaLow o.fmt (c.sca o.a)).toNat (scaLow o.fmt (c.sca o.b)).toNat
      (scaLow o.fmt (c.sca o.c)).toNat)))) := by
  unfold scalarBits
  simp only [h.scalarOp_eq, scaLow_toNat, scaResult_eq]

theorem ScalarReady.scalarBits_of_toNat {op : Nat → Nat → Nat → Nat → Nat} {r : BitVec (scaBits o.fmt)}
    (hr : op (scaBits o.fmt) (scaLow o.fmt (c.sca o.a)).toNat (scaLow o.fmt (c.sca o.b)).toNat (scaLow o.fmt (c.sca o.c)).toNat = r.toNat) :
    scalarBits s o op = .next (s.scalarDone c o.g o.d (scaExtend o.uns r)) := by
  rw [h.scalarBits_eq, hr, BitVec.ofNat_toNat, BitVec.setWidth_eq]

end ready

/-! ### The compare -/

/-- What a compare leaves: the result in the lanes that act, the other lanes and p0 as they were (R98, R193). -/
theorem predicateResult_compare (w : Warp) (d : Dst) (m : LaneMask) (v : Bool) :
    let r := predicateResult w d m (if v then BitVec.allOnes 32 else 0)
    r.1 = { w with p := r.1.p } ∧ r.1.preg 0 = w.preg 0
      ∧ (d.wb = true → 0 < d.idx → d.idx < w.p.length → ∀ l, l < 32 →
          (r.1.preg d.idx).getLsbD l = if m.getLsbD l then v else (w.preg d.idx).getLsbD l)
      ∧ (∀ i, i ≠ d.idx → r.1.preg i = w.preg i) ∧ (d.wb = false → r.1 = w)
      ∧ ∃ pl : LaneMask, r.2 = .predicate pl ∧ ∀ l, l < 32 → m.getLsbD l = true → pl.getLsbD l = v := by
  intro r
  obtain ⟨-, -, -, -, -, hother, hno⟩ := predicateResult_frame w d m (if v then BitVec.allOnes 32 else 0)
  have hall {l : Nat} (hl : l < 32) : (if v then BitVec.allOnes 32 else 0 : LaneMask).getLsbD l = v := by
    cases v
    · exact BitVec.getLsbD_zero
    · rw [if_pos rfl, BitVec.getLsbD_allOnes, decide_eq_true hl]
  have hdst (hwb : d.wb = true) : r.1 = w.setPreg d.idx ((w.preg d.idx &&& ~~~m) ||| ((if v then BitVec.allOnes 32 else 0) &&& m)) := by
    simp only [r, predicateResult, hwb, if_true]
  refine ⟨?_, ?_, fun hwb h0 hlen l hl => ?_, hother, hno, _, rfl, fun l hl hm => ?_⟩
  · cases hwb : d.wb with
    | false => rw [hno hwb]
    | true =>
      rw [hdst hwb, Warp.setPreg]
      split <;> rfl
  · by_cases h0 : d.idx = 0
    · cases hwb : d.wb with
      | false => rw [hno hwb]
      | true => rw [hdst hwb, h0, Warp.setPreg_zero]
    · exact hother 0 (Ne.symm h0)
  · rw [hdst hwb, Warp.preg_setPreg_same _ _ _ hlen h0.ne', BitVec.or_comm, getLsbD_blend, hall hl]
  · rw [getLsbD_blend, if_pos hm, hall hl]

theorem ScalarReady.exec_scmp {s : State} {c : Ctx} {o : Alu} (h : ScalarReady s c o.g o.d [(.sca, o.a), (.sca, o.b)]) (k : Cond) :
    exec (.scmp k o) s = .next (s.predicateDone c o.g o.d
      (if condHolds k (scaInt o.fmt o.uns (c.sca o.a)) (scaInt o.fmt o.uns (c.sca o.b)) then BitVec.allOnes 32 else 0)) := by
  change execScmp k o s = _
  refine run_ok h.issues ?_
  simp only [bind, Except.bind, h.checks]
  rfl

/-- Settles O17: exact results and bit patterns of the sources' low bits, and the compare. -/
theorem scalarResults : Obligations.ScalarResults := by
  unfold Obligations.ScalarResults
  refine ⟨fun s c o h => ?_, fun s c o h => ?_, fun s c o k h => ?_⟩
  · intro e i done
    have hpow : (0 : Int) ≤ 2 ^ e := by positivity
    change execSadd o s = _ ∧ execSsub o s = _ ∧ execSmul o s = _ ∧ execSmulh o s = _ ∧ execSmad o s = _
    refine ⟨h.scalarInt_eq _, h.scalarInt_eq _, h.scalarInt_eq _, ?_, h.scalarInt_eq _⟩
    rw [Int.fdiv_eq_ediv_of_nonneg _ hpow]
    exact h.scalarInt_eq _
  · intro e x k done
    have he : 0 < e := scaBits_pos o.fmt
    change execSand o s = _ ∧ execSor o s = _ ∧ execSxor o s = _ ∧ execSandn o s = _ ∧ execSshl o s = _ ∧ execSshr o s = _
      ∧ execSsar o s = _ ∧ execSrot o s = _ ∧ execSmov o s = _ ∧ execSsel o s = _ ∧ execSpopc o s = _
      ∧ (∃ n, execSclz o s = _ ∧ _) ∧ (∃ n, execSctz o s = _ ∧ _) ∧ ∃ r, execSbrev o s = _ ∧ _
    refine ⟨h.scalarBits_of_toNat (BitVec.toNat_and ..).symm, h.scalarBits_of_toNat (BitVec.toNat_or ..).symm,
      h.scalarBits_of_toNat (BitVec.toNat_xor ..).symm, h.scalarBits_of_toNat ?_, h.scalarBits_of_toNat (shlBits_eq ..),
      h.scalarBits_of_toNat (shrBits_eq ..), h.scalarBits_of_toNat (sarBits_eq ..), h.scalarBits_of_toNat (rotlBits_eq _ _ he),
      h.scalarBits_of_toNat rfl, h.scalarBits_of_toNat ?_, ?_,
      ⟨_, h.scalarBits_eq _, clzBits_spec (x o.a)⟩, ⟨_, h.scalarBits_eq _, ctzBits_spec (x o.a)⟩,
      ⟨_, h.scalarBits_eq _, fun b hb => ?_⟩⟩
    · rw [BitVec.toNat_and, BitVec.toNat_not]
      rfl
    · have hz : (scaLow o.fmt (c.sca o.c)).toNat ≠ 0 ↔ ¬x o.c = 0 := not_congr (by rw [BitVec.toNat_eq]; simp; rfl)
      by_cases h0 : x o.c = 0
      · rw [if_pos h0, if_neg (mt hz.1 (not_not.2 h0))]
        rfl
      · rw [if_neg h0, if_pos (hz.2 h0)]
        rfl
    · rw [← popcBits_eq]
      exact h.scalarBits_eq _
    · rw [BitVec.getLsbD_ofNat, decide_eq_true hb, Bool.true_and]
      exact (brevBits_spec e _).2 b hb
  · intro i v
    have hv : condHolds k (scaInt o.fmt o.uns (c.sca o.a)) (scaInt o.fmt o.uns (c.sca o.b)) = v := condHolds_eq ..
    have hrun := h.exec_scmp k
    rw [hv] at hrun
    exact ⟨_, _, hrun, predicateResult_compare c.w o.d (c.act o.g) v⟩

/-! ### Division (R192) -/

section division
variable {e : Nat} (uns : Bool) (x y : BitVec e)

/-- The low bits of a quotient and of a remainder. -/
def quotientBits : BitVec e := BitVec.ofInt e (quotient (bitsInt uns x) (bitsInt uns y))
def remainderBits : BitVec e := BitVec.ofInt e (remainder (bitsInt uns x) (bitsInt uns y))

theorem bitsInt_eq_zero : bitsInt uns y = 0 ↔ y = 0 := by
  refine ⟨fun h => ?_, fun h => by cases uns <;> simp [bitsInt, h]⟩
  rw [← ofInt_bitsInt uns y, h]
  rfl

theorem divided_by_zero : quotientBits uns x 0 = BitVec.allOnes e ∧ remainderBits uns x 0 = x := by
  have h0 : bitsInt uns (0 : BitVec e) = 0 := (bitsInt_eq_zero uns 0).2 rfl
  refine ⟨?_, ?_⟩
  · rw [quotientBits, h0, quotient, if_pos rfl, BitVec.ofInt_neg, ← BitVec.neg_one_eq_allOnes]
    rfl
  · rw [remainderBits, h0, remainder, if_pos rfl, ofInt_bitsInt]

theorem divided_unsigned (hy : y ≠ 0) : quotientBits true x y = x / y ∧ remainderBits true x y = x % y := by
  have h0 : bitsInt true y ≠ 0 := mt (bitsInt_eq_zero true y).1 hy
  refine ⟨BitVec.eq_of_toNat_eq ?_, BitVec.eq_of_toNat_eq ?_⟩
  · have hq : quotient (bitsInt true x) (bitsInt true y) = (x.toNat / y.toNat : Nat) := (if_neg h0).trans (Int.ofNat_tdiv ..).symm
    rw [quotientBits, hq, BitVec.ofInt_natCast, BitVec.toNat_ofNat, BitVec.toNat_udiv]
    exact Nat.mod_eq_of_lt ((Nat.div_le_self ..).trans_lt x.isLt)
  · have hr : remainder (bitsInt true x) (bitsInt true y) = (x.toNat % y.toNat : Nat) := (if_neg h0).trans (Int.ofNat_tmod ..).symm
    rw [remainderBits, hr, BitVec.ofInt_natCast, BitVec.toNat_ofNat, BitVec.toNat_umod]
    exact Nat.mod_eq_of_lt ((Nat.mod_le ..).trans_lt x.isLt)

theorem divided_signed (hy : y ≠ 0) (hy1 : y ≠ BitVec.allOnes e) :
    quotientBits false x y = x.sdiv y ∧ remainderBits false x y = x.srem y := by
  have h0 : bitsInt false y ≠ 0 := mt (bitsInt_eq_zero false y).1 hy
  refine ⟨?_, ?_⟩
  · rw [quotientBits, quotient, if_neg h0]
    exact (BitVec.toInt_sdiv_of_ne_or_ne x y (.inr (BitVec.neg_one_eq_allOnes ▸ hy1))) ▸ BitVec.ofInt_toInt
  · rw [remainderBits, remainder, if_neg h0]
    exact (BitVec.toInt_srem x y) ▸ BitVec.ofInt_toInt

/-- Division by -1, the most negative number's included. -/
theorem divided_by_minus_one (he : 0 < e) : quotientBits false x (BitVec.allOnes e) = -x ∧ remainderBits false x (BitVec.allOnes e) = 0 := by
  have h1 : bitsInt false (BitVec.allOnes e) = -1 := by simp [bitsInt, BitVec.toInt_allOnes, he]
  refine ⟨?_, ?_⟩
  · rw [quotientBits, h1, quotient, if_neg (by decide), Int.tdiv_neg, Int.tdiv_one, BitVec.ofInt_neg, ofInt_bitsInt]
  · rw [remainderBits, h1, remainder, if_neg (by decide), Int.tmod_neg, Int.tmod_one]
    rfl

end division

/-- Settles O18: the divisor zero, unsigned, signed, and minus one. -/
theorem scalarDivision : Obligations.ScalarDivision := by
  unfold Obligations.ScalarDivision
  intro s c o h e x done
  have hsdiv : execSdiv o s = done (quotientBits o.uns (x o.a) (x o.b)) := h.scalarInt_eq _
  have hsrem : execSrem o s = done (remainderBits o.uns (x o.a) (x o.b)) := h.scalarInt_eq _
  refine ⟨_, _, hsdiv, hsrem, fun h0 => ?_, fun h0 hu => ?_, fun h0 hu h1 => ?_, fun hu h1 => ?_⟩
  · rw [h0]
    exact divided_by_zero ..
  · obtain ⟨hq, hr⟩ := divided_unsigned (x o.a) (x o.b) h0
    rw [hu, hq, hr]
    exact ⟨BitVec.toNat_udiv .., BitVec.toNat_umod ..⟩
  · obtain ⟨hq, hr⟩ := divided_signed (x o.a) (x o.b) h0 h1
    have hdiv := BitVec.toInt_sdiv_of_ne_or_ne (x o.a) (x o.b) (.inr (BitVec.neg_one_eq_allOnes ▸ h1))
    rw [hu, hq, hr, hdiv]
    exact ⟨rfl, (BitVec.toInt_srem ..).trans ((Int.tmod_def ..).trans (by rw [Int.mul_comm]))⟩
  · rw [hu, h1]
    exact divided_by_minus_one _ (scaBits_pos o.fmt)

end Sys2Proof.Machine
end

section
/-! System registers (spec/07 R194 to R196). -/
namespace Sys2Proof.Machine

/-! ### `rdsys` -/

theorem exec_rdsys {s : State} {c : Ctx} (h : Issues s c) (g : Guard) (d : Dst) (n : Nat) :
    exec (.rdsys g d n) s = .next (s.scalarDone c g d (sysValue s c n)) := by
  change execRdsys g d n s = _
  exact run_ok h rfl

/-- A launch id is the partition's number above the queue and the number in it (R33). -/
theorem launchId_eq (part lid : Nat) : launchId part (queueOfLaunch lid) (seqOfLaunch lid) = part * 2 ^ 54 + lid % 2 ^ 54 := by
  unfold launchId queueOfLaunch seqOfLaunch
  omega

theorem argPlace_eq (area lid : Nat) : argPlace area lid = area + 4096 * (64 * queueOfLaunch lid + lid % 64) := by
  unfold argPlace seqOfLaunch
  omega

/-- The coordinates of a block from its number (R20). -/
theorem block_coordinates {la : Launch} {x y z i : Nat} (hx : x < la.gx) (hy : y < la.gy) (hi : i = x + la.gx * (y + la.gy * z)) :
    blockX la i = x ∧ blockY la i = y ∧ blockZ la i = z := by
  have hrow : i / la.gx = y + la.gy * z := by
    rw [hi, Nat.add_mul_div_left _ _ (by omega), Nat.div_eq_of_lt hx, Nat.zero_add]
  refine ⟨?_, ?_, ?_⟩
  · rw [blockX, hi, Nat.add_mul_mod_self_left, Nat.mod_eq_of_lt hx]
  · rw [blockY, hrow, Nat.add_mul_mod_self_left, Nat.mod_eq_of_lt hy]
  · rw [blockZ, hrow, Nat.add_mul_div_left _ _ (by omega), Nat.div_eq_of_lt hy, Nat.zero_add]

/-! ### `wrsys` -/

theorem Warp.setSys_eq (w : Warp) {n : Nat} (x : Word) (hn : 0x18 ≤ n ∧ n ≤ 0x1D) : w.setSys n x =
    { w with spill := if n = 0x18 then x else w.spill, spilllim := if n = 0x19 then x else w.spilllim
             jstk := if n = 0x1A then x else w.jstk, jstklim := if n = 0x1B then x else w.jstklim
             rstk := if n = 0x1C then x else w.rstk, rstklim := if n = 0x1D then x else w.rstklim } := by
  obtain ⟨hlo, hhi⟩ := hn
  interval_cases n <;> rfl

section wrsys
variable {s : State} {c : Ctx} {g : Guard} {d : Dst} {a : Src} (h : ScalarReady s c g d [(.sca, a)])
include h

theorem ScalarReady.exec_wrsys_idle (ho : c.once g = false) : exec (.wrsys g d a) s = .next (s.complete c c.w .system) := by
  change execWrsys g d a s = _
  refine run_ok h.issues ?_
  simp only [bind, Except.bind, h.checks, ho, Bool.not_false, if_true]
  rfl

/-- The refusals of R196 in the model's order (log 173), then the write. -/
theorem ScalarReady.exec_wrsys (ho : c.once g = true) : exec (.wrsys g d a) s =
    let trap (cause sub : Nat) (data : Word) : Answer := .next (s.takeTrap c.wid c.pidx ⟨cause, sub, data, c.real g⟩ (unitOf c.p c.pre))
    if d.wb = false ∨ d.idx < 0x18 ∨ 0x1D < d.idx then trap 0x11 0x09 0
    else if (c.sca a).toNat % 16 ≠ 0 ∨ 2 ^ 47 < (c.sca a).toNat then trap 0x10 0x0B (c.sca a)
    else if c.w.areaInUse d.idx = true then trap 0x11 0x0A 0
    else .next (s.complete c (c.w.setSys d.idx (c.sca a)) .system) := by
  have hdst : (!d.wb || decide (d.idx < 0x18) || decide (0x1D < d.idx)) = true ↔ d.wb = false ∨ d.idx < 0x18 ∨ 0x1D < d.idx := by
    simp [or_assoc]
  have hx : readSca c.w c.p a = c.sca a := rfl
  change execWrsys g d a s = _
  dsimp only
  split_ifs with hd hv hu
  · refine run_trap h.issues ?_
    simp only [bind, Except.bind, h.checks, ho, if_pos (hdst.2 hd)]
    rfl
  · refine run_trap h.issues ?_
    simp only [bind, Except.bind, h.checks, ho, if_neg (mt hdst.1 hd), hx, if_pos hv]
    rfl
  · refine run_trap h.issues ?_
    simp only [bind, Except.bind, h.checks, ho, if_neg (mt hdst.1 hd), hx, if_neg hv, if_pos hu]
    rfl
  · refine run_ok h.issues ?_
    simp only [bind, Except.bind, h.checks, ho, if_neg (mt hdst.1 hd), hx, if_neg hv, if_neg hu]
    rfl

end wrsys

/-- Settles O19: the value of each register, and the outcomes of a write. -/
theorem systemRegisters : Obligations.SystemRegisters := by
  unfold Obligations.SystemRegisters
  refine ⟨fun s c g d h => ?_, fun s c g d a h ho => ?_, fun s c g d a h ho => h.exec_wrsys_idle ho⟩
  · intro read
    have reads {n : Nat} {v : Word} (hv : sysValue s c n = v) : read n v := hv ▸ exec_rdsys h g d n
    refine ⟨fun pt hpt => ⟨reads ?_, reads ?_, reads ?_⟩, reads rfl, reads rfl, reads rfl, reads rfl, reads ?_, reads rfl, reads rfl,
      reads rfl, reads rfl, reads rfl, reads rfl, reads rfl, fun x y z hx hy hi => reads ?_, fun h0 => ⟨reads ?_, reads ?_⟩,
      fun h0 => ⟨reads ?_, reads ?_⟩, reads rfl, reads rfl, reads rfl, reads rfl, reads rfl,
      reads rfl, reads rfl, reads rfl, reads rfl, reads rfl, reads rfl⟩
    · simp only [sysValue, hpt, Option.elim]
    · simp only [sysValue, hpt, Option.elim]
    · simp only [sysValue, hpt, Option.elim, argPlace_eq]
    · simp only [sysValue, launchId_eq]
    · obtain ⟨hX, hY, hZ⟩ := block_coordinates hx hy hi
      simp only [sysValue, hX, hY, hZ]
    · simp only [sysValue, h0, if_true]
    · simp only [sysValue, h0, if_true]
    · simp only [sysValue, h0.ne', if_false]
    · simp only [sysValue, h0.ne', if_false]
  · intro x trap
    rw [h.exec_wrsys ho]
    split
    · rfl
    split
    · rfl
    split
    · rfl
    have hw := c.w.setSys_eq (n := d.idx) x (by omega)
    refine ⟨c.w.setSys d.idx x, rfl, ?_⟩
    rw [hw]
    exact ⟨rfl, rfl, rfl, rfl, rfl, rfl, rfl⟩

end Sys2Proof.Machine
end

section
/-! Address registers and streams (spec/07 R199 to R206). -/
namespace Sys2Proof.Machine

/-! ### An address instruction that acts -/

section acts
variable {s : State} {c : Ctx} {o : AddrOp} {f : Ctx → LaneMask → AReg → Word → Word → Except Stop AReg}
  (h : ScalarReady s c o.g o.d [(.sca, o.x), (.sca, o.y)]) (ho : c.once o.g = true)
include h ho

theorem ScalarReady.addressOp_done {r : AReg} (hf : f c (c.real o.g) (c.w.areg o.a) (c.sca o.x) (c.sca o.y) = .ok r) :
    addressOp s o f = .next (s.addressDone c o.d (some r)) := by
  refine run_ok h.issues ?_
  unfold Ctx.sca at hf
  simp only [bind, Except.bind, h.checks, ho, if_true, hf]
  rfl

theorem ScalarReady.addressOp_trap {t : Trap} (hf : f c (c.real o.g) (c.w.areg o.a) (c.sca o.x) (c.sca o.y) = .error (.trap t)) :
    addressOp s o f = .next (s.takeTrap c.wid c.pidx t (unitOf c.p c.pre)) := by
  refine run_trap h.issues ?_
  unfold Ctx.sca at hf
  simp only [bind, Except.bind, h.checks, ho, if_true, hf]

/-- A register written where its order stands (R200). -/
theorem ScalarReady.addressOp_keepOrder {r : AReg} {v : Word}
    (hf : f c (c.real o.g) (c.w.areg o.a) (c.sca o.x) (c.sca o.y) = keepOrder (c.real o.g) r v) :
    if r.base ≤ r.pointer ∧ r.pointer ≤ r.limit then addressOp s o f = .next (s.addressDone c o.d (some r))
    else addressOp s o f = .next (s.takeTrap c.wid c.pidx ⟨0x10, 0x08, v, c.real o.g⟩ (unitOf c.p c.pre)) := by
  have hord : r.ordered = true ↔ r.base ≤ r.pointer ∧ r.pointer ≤ r.limit := by simp [AReg.ordered]
  split
  · next hr => exact h.addressOp_done ho (hf.trans (if_pos (hord.2 hr)))
  · next hr => exact h.addressOp_trap ho (hf.trans (if_neg (mt hord.1 hr)))

end acts

/-! ### `aset`, `aadv`, `aunbind` -/

/-- An address register with the field that `aset` names replaced, where it names one. -/
def AReg.withField (a : AReg) (x : Word) : ASel → AReg
  | .ptr => { a with pointer := x }
  | .base => { a with base := x }
  | .lim => { a with limit := x }
  | .perm | .rgn => a

section writes
variable {s : State} {c : Ctx} {o : AddrOp} (h : ScalarReady s c o.g o.d [(.sca, o.x), (.sca, o.y)]) (ho : c.once o.g = true)
include h ho

theorem ScalarReady.execAset_bound {sel : ASel} (hs : (c.w.areg o.a).stream ≠ none) (hsel : sel ≠ .perm) :
    execAset sel o s = .next (s.takeTrap c.wid c.pidx ⟨0x11, 0x08, 0, c.real o.g⟩ (unitOf c.p c.pre)) := by
  refine h.addressOp_trap ho ?_
  dsimp only
  rw [if_pos ⟨hsel, Option.isSome_iff_ne_none.2 hs⟩]
  rfl

theorem ScalarReady.execAadv_bound (hs : (c.w.areg o.a).stream ≠ none) :
    execAadv o s = .next (s.takeTrap c.wid c.pidx ⟨0x11, 0x08, 0, c.real o.g⟩ (unitOf c.p c.pre)) := by
  refine h.addressOp_trap ho ?_
  dsimp only
  rw [if_pos (Option.isSome_iff_ne_none.2 hs)]
  rfl

variable (hs : (c.w.areg o.a).stream = none)
include hs

theorem ScalarReady.execAadv_free {p : Int} (hp : p = (c.w.areg o.a).pointer.toNat + (c.sca o.x).toInt) :
    if ((c.w.areg o.a).base.toNat : Int) ≤ p ∧ p ≤ (c.w.areg o.a).limit.toNat then
      execAadv o s = .next (s.addressDone c o.d (some { c.w.areg o.a with pointer := (c.w.areg o.a).pointer + c.sca o.x }))
    else execAadv o s = .next (s.takeTrap c.wid c.pidx ⟨0x10, 0x08, BitVec.ofInt 64 p, c.real o.g⟩ (unitOf c.p c.pre)) := by
  have hlimit := (c.w.areg o.a).limit.isLt
  have hsum : BitVec.ofInt 64 p = (c.w.areg o.a).pointer + c.sca o.x := by
    rw [hp, BitVec.ofInt_add, BitVec.ofInt_natCast, BitVec.ofInt_toInt, BitVec.ofNat_toNat, BitVec.setWidth_eq]
  split
  · next hr =>
    refine h.addressOp_done ho ?_
    dsimp only
    rw [← hp, if_neg (by simp [hs]), if_neg (by omega), hsum]
    rfl
  · next hr =>
    refine h.addressOp_trap ho ?_
    dsimp only
    rw [← hp, if_neg (by simp [hs]), if_pos (by omega)]
    rfl

theorem ScalarReady.execAset_field {sel : ASel} (hsel : sel = .ptr ∨ sel = .base ∨ sel = .lim) :
    let r := (c.w.areg o.a).withField (c.sca o.x) sel
    if r.base ≤ r.pointer ∧ r.pointer ≤ r.limit then execAset sel o s = .next (s.addressDone c o.d (some r))
    else execAset sel o s = .next (s.takeTrap c.wid c.pidx ⟨0x10, 0x08, c.sca o.x, c.real o.g⟩ (unitOf c.p c.pre)) := by
  refine h.addressOp_keepOrder ho ?_
  dsimp only
  rw [if_neg (by simp [hs])]
  rcases hsel with rfl | rfl | rfl <;> rfl

theorem ScalarReady.execAset_rgn :
    ((c.sca o.x).toNat + (c.sca o.y).toNat < 2 ^ 64 → execAset .rgn o s = .next (s.addressDone c o.d (some { c.w.areg o.a with
      pointer := c.sca o.x, base := c.sca o.x, limit := c.sca o.x + c.sca o.y })))
    ∧ (2 ^ 64 ≤ (c.sca o.x).toNat + (c.sca o.y).toNat →
      execAset .rgn o s = .next (s.takeTrap c.wid c.pidx ⟨0x10, 0x08, c.sca o.x, c.real o.g⟩ (unitOf c.p c.pre))) := by
  refine ⟨fun hlt => h.addressOp_done ho ?_, fun hge => h.addressOp_trap ho ?_⟩
  · dsimp only
    rw [if_neg (by simp [hs]), if_neg (Nat.not_le.2 hlt)]
    rfl
  · dsimp only
    rw [if_neg (by simp [hs]), if_pos hge]
    rfl

end writes

/-! ### `aget`, `atrn` -/

theorem exec_aget {s : State} {c : Ctx} (h : Issues s c) (sel : AGetSel) (o : AddrOp) :
    exec (.aget sel o) s = .next (s.scalarDone c o.g o.d ((c.w.areg o.a).field sel)) := by
  change execAget sel o s = _
  exact run_ok h rfl

theorem AReg.field_perm (a : AReg) : a.field .perm = (a.perm.zeroExtend 64 ||| if a.stream = none then 0 else 16) := by
  have hor : 16 + a.perm.toNat = 16 ||| a.perm.toNat := Nat.two_pow_add_eq_or_of_lt (i := 4) a.perm.isLt 1
  cases hs : a.stream with
  | none => simp [AReg.field, hs, BitVec.ofNat_toNat]
  | some t =>
    refine BitVec.eq_of_toNat_eq ?_
    rw [if_neg (by simp), BitVec.toNat_or, BitVec.toNat_setWidth, Nat.mod_eq_of_lt (by omega), Nat.or_comm]
    simp only [AReg.field, hs, Option.isSome_some, if_true, BitVec.toNat_ofNat, Nat.add_comm _ 16]
    rw [Nat.mod_eq_of_lt (by omega)]
    exact hor

theorem AReg.field_strm {a : AReg} {t : Stream} (ht : a.stream = some t) :
    a.field .strm = BitVec.ofNat 64 (t.log2 * 2 ^ 7 + (t.dims - 1) * 2 ^ 5 + t.done.toNat * 2 ^ 4 + t.e.toNat) := by
  cases hd : t.done <;> simp [AReg.field, ht, hd]

/-- Settles O20: the outcomes of each write of an address register, and the fields read from one. -/
theorem addressRegisters : Obligations.AddressRegisters := by
  unfold Obligations.AddressRegisters
  refine ⟨fun s c o h ho => ?_, fun s c o h => ?_⟩
  · intro a x y done trap kept
    refine ⟨?_, ?_, fun hs f hf => ?_, fun hs => ?_, fun hs => ⟨?_, ?_, ?_, ?_, ?_, fun p hp => ?_⟩⟩
    · change execAset .perm o s = _
      exact h.addressOp_done ho rfl
    · change execAunbind o s = _
      exact h.addressOp_done ho rfl
    · exact h.execAset_bound ho hs hf
    · exact h.execAadv_bound ho hs
    · exact h.execAset_field ho hs (.inl rfl)
    · exact h.execAset_field ho hs (.inr (.inl rfl))
    · exact h.execAset_field ho hs (.inr (.inr rfl))
    · exact (h.execAset_rgn ho hs).1
    · exact (h.execAset_rgn ho hs).2
    · exact h.execAadv_free ho hs hp
  · intro a read
    have reads {sel : AGetSel} {v : Word} (hv : a.field sel = v) : read sel v := hv ▸ exec_aget h sel o
    refine ⟨⟨reads rfl, reads rfl, reads rfl, reads a.field_perm, fun hr => ⟨reads ?_, reads ?_⟩, fun r hr => ⟨reads ?_, reads ?_⟩,
      fun hs => ⟨reads ?_, reads ?_⟩, fun t ht _ _ _ => ⟨reads ?_, reads (AReg.field_strm ht)⟩⟩, fun ho => ?_, fun ho => ?_⟩
    · simp only [AReg.field, hr]
    · simp only [AReg.field, hr]
    · simp only [AReg.field, hr]
    · simp only [AReg.field, hr]
    · simp only [AReg.field, hs]
    · simp only [AReg.field, hs]
    · simp only [AReg.field, ht]
    · change execAtrn o s = _
      refine run_ok h ?_
      simp only [ho, Bool.not_true, Bool.false_eq_true, if_false]
      rfl
    · change execAtrn o s = _
      refine run_ok h ?_
      simp only [ho, Bool.not_false, if_true]

end Sys2Proof.Machine
end

section
/-! `abind` with a destination of class vector outside the window. No word of the table names such a destination, but the statement asks
nothing of it, and the checks of operands (spec/05 R143) come before the permission of the source register (spec/07 R204). -/
namespace Sys2Proof.Machine

/-- The placed machine. -/
def placedState : State := State.reset.withFetchWord 96 (encode (.nop .always)).toNat

/-- An `abind` of address register 2, which has no permission, with the vector register 200 as its destination. -/
def outsideBind : AddrOp := ⟨.always, ⟨.vector, 200, true⟩, 2, .reg 0, .zero⟩

/-- The cause that warp 0 of an answer's state records (R195). -/
def recordedCause : Answer → Option Word
  | .next t => (t.warps.get? 0).map (·.cause)
  | _ => none

/-- What the statement says of it where register 2 cannot be read: 0x11 subcode 0x0B. -/
def statedBind (c : Ctx) : Answer :=
  .next (placedState.takeTrap c.wid c.pidx ⟨0x11, 0x0B, 0, c.real outsideBind.g⟩ (unitOf c.p c.pre))

/-- The path of the placed machine issues; it acts under p0, and register 2 cannot be read. -/
theorem placedState_issues : ∃ c, Issues placedState c ∧ c.once outsideBind.g = true ∧ (c.w.areg outsideBind.a).perm.getLsbD 0 = false
    ∧ recordedCause (statedBind c) = some 0x0B11 := by
  have hholds : (placedState.ctx? 0 0 none).any (fun c => c.wid == 0 && c.pidx == 0 && c.pre == none && c.once outsideBind.g
      && !(c.w.areg outsideBind.a).perm.getLsbD 0 && recordedCause (statedBind c) == some 0x0B11) = true := by
    decide +kernel
  obtain ⟨c, hc, hp⟩ := (Option.any_eq_true _ _).1 hholds
  simp only [Bool.and_eq_true, beq_iff_eq, Bool.not_eq_true'] at hp
  obtain ⟨⟨⟨⟨⟨hwid, hpath⟩, hpre⟩, ho⟩, hperm⟩, hcause⟩ := hp
  refine ⟨c, ⟨?_, ?_⟩, ho, hperm, hcause⟩
  · rw [hwid, hpath, hpre]
    rfl
  · rw [hwid, hpath, hpre, hc]

/-- The model refuses the destination. -/
theorem outsideBind_cause : recordedCause (exec (.abind outsideBind) placedState) = some 0x15 := by decide +kernel

/-- Refutes O21: an `abind` whose destination is a vector register outside the window raises 0x15 subcode 0x00, whatever the permission of
its source register. -/
theorem not_streamRegisters : ¬ Obligations.StreamRegisters := by
  intro h
  obtain ⟨binds, -⟩ := h
  obtain ⟨c, hi, ho, hperm, hcause⟩ := placedState_issues
  have htrap : exec (.abind outsideBind) placedState = statedBind c := (binds placedState c outsideBind 0 hi ho rfl).1 hperm
  rw [← htrap, outsideBind_cause] at hcause
  cases hcause

end Sys2Proof.Machine
end

section
/-! The grid of a floating-point format (spec/08 R211, R213): its codes stand in the order of their values, one grid step apart. -/
namespace Sys2Proof.Machine

section grid
variable (f : FSpec)

/-- The exponent of the grid step from a magnitude code to the next. -/
def FSpec.stepExp (c : Nat) : Int := (max (c / 2 ^ f.mbits) 1 : Nat) - f.bias - f.mbits

/-- The grid steps in the value of a magnitude code. -/
def FSpec.steps (c : Nat) : Nat := if c / 2 ^ f.mbits = 0 then c % 2 ^ f.mbits else 2 ^ f.mbits + c % 2 ^ f.mbits

/-- The value of a magnitude code, were every code finite. -/
def FSpec.magnitude (c : Nat) : ℚ := f.steps c * (2 : ℚ) ^ f.stepExp c

/-- An encoding of a finite value is a code no larger than the largest finite one, with its value. -/
theorem FSpec.decode_fin {bits m : Nat} {neg : Bool} {q : Int} (h : f.decode bits = .fin neg m q) :
    bits % 2 ^ f.magBits ≤ f.top ∧ m * (2 : ℚ) ^ q = f.magnitude (bits % 2 ^ f.magBits) := by
  unfold FSpec.decode at h
  dsimp only at h
  split at h
  · cases h
  · split at h
    · cases h
    · next htop =>
      refine ⟨Nat.not_lt.1 htop, ?_⟩
      split at h <;> cases h
      · next hE => simp [FSpec.magnitude, FSpec.steps, FSpec.stepExp, FSpec.qmin, hE]
      · next hE =>
        rw [FSpec.magnitude, FSpec.steps, FSpec.stepExp, if_neg hE, Nat.max_eq_left (Nat.pos_of_ne_zero hE)]

/-- n grid steps of 2^q have a code: q is the smallest exponent, or the steps fill the fraction. -/
structure FSpec.OnGrid (n : Nat) (q : Int) : Prop where
  least : f.qmin ≤ q
  small : n < 2 ^ f.mbits → q = f.qmin

variable {f} {n : Nat} {q : Int}

theorem FSpec.codeOf_succ (h : f.OnGrid n q) : f.codeOf (n + 1) q = f.codeOf n q + 1 := by
  have hq : q + f.bias + f.mbits = 1 ∨ 2 ^ f.mbits ≤ n := by
    have := h.small
    unfold FSpec.qmin at this
    omega
  unfold FSpec.codeOf
  split_ifs with h1 h2 h2
  · rfl
  · omega
  · have hn : n + 1 = 2 ^ f.mbits := by omega
    simp [hq.resolve_right (by omega), hn]
  · omega

theorem FSpec.magnitude_codeOf (h : f.OnGrid n q) (hn : n ≤ 2 ^ (f.mbits + 1)) : f.magnitude (f.codeOf n q) = n * (2 : ℚ) ^ q := by
  have hpos : 0 < 2 ^ f.mbits := by positivity
  rw [pow_succ] at hn
  by_cases hsmall : n < 2 ^ f.mbits
  · simp [FSpec.codeOf, hsmall, FSpec.magnitude, FSpec.steps, FSpec.stepExp, Nat.div_eq_of_lt hsmall, Nat.mod_eq_of_lt hsmall, h.small hsmall,
      FSpec.qmin]
  · obtain ⟨k, hk⟩ : ∃ k : Nat, q + f.bias + f.mbits = (k + 1 : Nat) :=
      ⟨(q + f.bias + f.mbits - 1).toNat, by have := h.least; unfold FSpec.qmin at this; omega⟩
    have hcode : f.codeOf n q = 2 ^ f.mbits * (k + 1) + (n - 2 ^ f.mbits) := by
      rw [FSpec.codeOf, if_neg hsmall, hk, Int.toNat_natCast, Nat.mul_comm]
    rcases hn.lt_or_eq with hlt | rfl
    · have hdiv : f.codeOf n q / 2 ^ f.mbits = k + 1 := by
        rw [hcode, Nat.mul_add_div hpos, Nat.div_eq_of_lt (by omega), Nat.add_zero]
      have hmod : f.codeOf n q % 2 ^ f.mbits = n - 2 ^ f.mbits := by rw [hcode, Nat.mul_add_mod, Nat.mod_eq_of_lt (by omega)]
      have hexp : ((max (k + 1) 1 : Nat) : Int) - f.bias - f.mbits = q := by omega
      rw [FSpec.magnitude, FSpec.steps, FSpec.stepExp, hdiv, hmod, if_neg (by omega), hexp, Nat.add_sub_cancel' (by omega)]
    · have hnext : f.codeOf (2 ^ f.mbits * 2) q = 2 ^ f.mbits * (k + 2) := by
        rw [hcode]
        lia
      have hexp : ((max (k + 2) 1 : Nat) : Int) - f.bias - f.mbits = q + 1 := by omega
      rw [FSpec.magnitude, FSpec.steps, FSpec.stepExp, hnext, Nat.mul_div_cancel_left _ hpos, Nat.mul_mod_right, if_neg (by omega), hexp,
        zpow_add₀ two_ne_zero]
      push_cast
      ring

theorem FSpec.onGrid_steps (c : Nat) : f.OnGrid (f.steps c) (f.stepExp c) := by
  refine ⟨by unfold FSpec.qmin FSpec.stepExp; omega, fun h => ?_⟩
  have hE : c / 2 ^ f.mbits = 0 := by
    unfold FSpec.steps at h
    split at h <;> omega
  simp [FSpec.qmin, FSpec.stepExp, hE]

theorem FSpec.codeOf_steps (c : Nat) : f.codeOf (f.steps c) (f.stepExp c) = c := by
  have hmod : c % 2 ^ f.mbits < 2 ^ f.mbits := Nat.mod_lt _ (by positivity)
  have hdiv := Nat.div_add_mod' c (2 ^ f.mbits)
  unfold FSpec.codeOf FSpec.steps FSpec.stepExp
  by_cases hE : c / 2 ^ f.mbits = 0
  · simp only [hE, if_true, if_pos hmod]
    simpa [hE] using hdiv
  · have hexp (E : Nat) : ((E : Int) - f.bias - f.mbits + f.bias + f.mbits).toNat = E := by omega
    rw [if_neg hE, if_neg (by omega), Nat.max_eq_left (Nat.pos_of_ne_zero hE), hexp, Nat.add_sub_cancel_left]
    exact hdiv

/-- Codes stand in the order of their values. -/
theorem FSpec.magnitude_strictMono : StrictMono f.magnitude := by
  refine strictMono_nat_of_lt_succ fun c => ?_
  have hg := f.onGrid_steps c
  have hbound : f.steps c + 1 ≤ 2 ^ (f.mbits + 1) := by
    have hmod : c % 2 ^ f.mbits < 2 ^ f.mbits := Nat.mod_lt _ (by positivity)
    rw [pow_succ, FSpec.steps]
    split <;> omega
  have hnext : f.OnGrid (f.steps c + 1) (f.stepExp c) := ⟨hg.least, fun h => hg.small (by omega)⟩
  have hsucc := magnitude_codeOf hnext hbound
  rw [codeOf_succ hg, codeOf_steps] at hsucc
  rw [hsucc, FSpec.magnitude]
  gcongr
  exact Nat.lt_succ_self _

end grid

end Sys2Proof.Machine
end

section
/-! Rounding a rational magnitude to nearest (spec/08 R219 to R221): it lies between two codes that follow each other, and the one the model
takes is nearest of all. -/
namespace Sys2Proof.Machine

/-! ### A rational magnitude in grid steps (R219) -/

section rational
variable {n d : Nat} (e : Int)

/-- The value of a rational magnitude. -/
def ratValue (n d : Nat) (e : Int) : ℚ := n / d * (2 : ℚ) ^ e

theorem ratValue_pos (hn : 0 < n) (hd : 0 < d) : 0 < ratValue n d e := by
  unfold ratValue
  positivity

/-- A quotient of naturals: its floor, and when it is a whole number. -/
theorem div_floor_and_exact (a : Nat) {b : Nat} (hb : 0 < b) :
    (a / b, a % b == 0) = (⌊(a / b : ℚ)⌋₊, decide ((⌊(a / b : ℚ)⌋₊ : ℚ) = a / b)) := by
  have hexact : a % b = 0 ↔ ((a / b : Nat) : ℚ) = a / b := by
    rw [eq_div_iff (by positivity), ← Nat.cast_mul, Nat.cast_inj, ← Nat.dvd_iff_div_mul_eq, Nat.dvd_iff_mod_eq_zero]
  rw [Nat.floor_div_eq_div, Prod.mk.injEq, Bool.eq_iff_iff]
  exact ⟨rfl, by simpa using hexact⟩

theorem scaleRat_eq (hd : 0 < d) (k : Int) :
    scaleRat n d k = (⌊ratValue n d k⌋₊, decide ((⌊ratValue n d k⌋₊ : ℚ) = ratValue n d k)) := by
  unfold scaleRat
  split
  · next hk =>
    obtain ⟨k, rfl⟩ := Int.eq_ofNat_of_zero_le hk
    have hv : ratValue n d k = ((n * 2 ^ k : Nat) : ℚ) / d := by
      simp [ratValue]
      ring
    rw [hv]
    exact div_floor_and_exact _ hd
  · next hk =>
    obtain ⟨j, rfl⟩ : ∃ j : Nat, k = -j := ⟨(-k).toNat, by omega⟩
    have hv : ratValue n d (-j) = (n : ℚ) / (d * 2 ^ j : Nat) := by
      simp [ratValue]
      field_simp
    rw [hv]
    simpa using div_floor_and_exact n (by positivity : 0 < d * 2 ^ j)

/-- The floor of a rational magnitude times 2^s, and whether it is exact. -/
theorem Mag.floorAt_rat (hd : 0 < d) (s : Int) : (Mag.rat n d e).floorAt s
    = (⌊ratValue n d e * (2 : ℚ) ^ s⌋₊, decide ((⌊ratValue n d e * (2 : ℚ) ^ s⌋₊ : ℚ) = ratValue n d e * (2 : ℚ) ^ s)) := by
  have hv : ratValue n d (e + s) = ratValue n d e * (2 : ℚ) ^ s := by
    rw [ratValue, zpow_add₀ two_ne_zero, ← mul_assoc, ratValue]
  rw [← hv]
  exact scaleRat_eq hd _

/-- A quotient of naturals lies within a factor of two of the quotient of the powers of two below them. -/
theorem div_log2_bounds (hn : 0 < n) (hd : 0 < d) :
    (2 : ℚ) ^ ((Nat.log2 n : Int) - Nat.log2 d - 1) < n / d ∧ (n / d : ℚ) < (2 : ℚ) ^ ((Nat.log2 n : Int) - Nat.log2 d + 1) := by
  have hn1 : (2 : ℚ) ^ Nat.log2 n ≤ n := mod_cast Nat.log2_self_le hn.ne'
  have hn2 : (n : ℚ) < 2 ^ (Nat.log2 n + 1) := mod_cast Nat.lt_log2_self
  have hd1 : (2 : ℚ) ^ Nat.log2 d ≤ d := mod_cast Nat.log2_self_le hd.ne'
  have hd2 : (d : ℚ) < 2 ^ (Nat.log2 d + 1) := mod_cast Nat.lt_log2_self
  have hd0 : (0 : ℚ) < d := mod_cast hd
  constructor
  · rw [lt_div_iff₀ hd0, sub_sub, zpow_sub₀ two_ne_zero, div_mul_eq_mul_div, div_lt_iff₀ (by positivity)]
    exact mul_lt_mul' hn1 (mod_cast hd2) hd0.le (lt_of_lt_of_le (by positivity) hn1)
  · rw [div_lt_iff₀ hd0, sub_add_eq_add_sub, zpow_sub₀ two_ne_zero, div_mul_eq_mul_div, lt_div_iff₀ (by positivity)]
    exact mul_lt_mul (mod_cast hn2) hd1 (by positivity) (by positivity)

/-- The comparison that settles the exponent of a quotient. -/
theorem ratio_lt_two_zpow_iff (hd : 0 < d) (k : Int) :
    (if 0 ≤ k then n < d * 2 ^ k.toNat else n * 2 ^ (-k).toNat < d) ↔ (n / d : ℚ) < (2 : ℚ) ^ k := by
  have hd0 : (0 : ℚ) < d := mod_cast hd
  rw [div_lt_iff₀ hd0]
  split
  · next hk =>
    obtain ⟨k, rfl⟩ := Int.eq_ofNat_of_zero_le hk
    rw [Int.toNat_natCast, zpow_natCast, mul_comm]
    norm_cast
  · next hk =>
    obtain ⟨j, rfl⟩ : ∃ j : Nat, k = -j := ⟨(-k).toNat, by omega⟩
    rw [neg_neg, Int.toNat_natCast, zpow_neg, zpow_natCast, inv_mul_eq_div, lt_div_iff₀ (by positivity)]
    norm_cast

/-- The exponent of a rational magnitude is that of its leading one. -/
theorem Mag.exponent_rat (hn : 0 < n) (hd : 0 < d) : (2 : ℚ) ^ (Mag.rat n d e).exponent ≤ ratValue n d e
    ∧ ratValue n d e < (2 : ℚ) ^ ((Mag.rat n d e).exponent + 1) := by
  obtain ⟨hlo, hhi⟩ := div_log2_bounds hn hd
  have hpow : (0 : ℚ) < 2 ^ e := by positivity
  have hscale (k : Int) : (2 : ℚ) ^ k ≤ n / d → (n / d : ℚ) < 2 ^ (k + 1) →
      (2 : ℚ) ^ (k + e) ≤ ratValue n d e ∧ ratValue n d e < (2 : ℚ) ^ (k + e + 1) := by
    intro h1 h2
    rw [add_right_comm, zpow_add₀ two_ne_zero, zpow_add₀ two_ne_zero, ratValue]
    exact ⟨mul_le_mul_of_nonneg_right h1 hpow.le, mul_lt_mul_of_pos_right h2 hpow⟩
  unfold Mag.exponent
  dsimp only
  by_cases hb : (n / d : ℚ) < (2 : ℚ) ^ ((Nat.log2 n : Int) - Nat.log2 d)
  · rw [if_pos ((ratio_lt_two_zpow_iff hd _).2 hb)]
    exact hscale _ hlo.le (by rwa [sub_add_cancel])
  · rw [if_neg fun h => hb ((ratio_lt_two_zpow_iff hd _).1 h)]
    exact hscale _ (not_lt.1 hb) hhi

end rational

/-! ### The nearer of two codes that follow each other (R219) -/

section nearest
variable {f : FSpec} {x : ℚ}

/-- No magnitude code has a value nearer x than that of c. -/
def FSpec.Nearest (f : FSpec) (x : ℚ) (c : Nat) : Prop := ∀ k, |x - f.magnitude c| ≤ |x - f.magnitude k|

theorem FSpec.nearest_of_adjacent {c : Nat} (hlo : f.magnitude c ≤ x) (hhi : x ≤ f.magnitude (c + 1)) :
    (x - f.magnitude c ≤ f.magnitude (c + 1) - x → f.Nearest x c)
    ∧ (f.magnitude (c + 1) - x ≤ x - f.magnitude c → f.Nearest x (c + 1)) := by
  have hside (k : Nat) : x - f.magnitude c ≤ |x - f.magnitude k| ∨ f.magnitude (c + 1) - x ≤ |x - f.magnitude k| := by
    rcases Nat.lt_or_ge c k with hk | hk
    · have hm := f.magnitude_strictMono.monotone hk
      exact .inr (by rw [abs_sub_comm]; exact (sub_le_sub_right hm x).trans (le_abs_self _))
    · have hm := f.magnitude_strictMono.monotone hk
      exact .inl ((sub_le_sub_left hm x).trans (le_abs_self _))
  refine ⟨fun h k => ?_, fun h k => ?_⟩
  · rw [abs_of_nonneg (sub_nonneg.2 hlo)]
    exact (hside k).elim id h.trans
  · rw [abs_sub_comm, abs_of_nonneg (sub_nonneg.2 hhi)]
    exact (hside k).elim h.trans id

/-- A value whose nearest code is above another lies above that other's value. -/
theorem FSpec.Nearest.lt_of_lt {c k : Nat} (h : f.Nearest x c) (hk : k < c) : f.magnitude k < x := by
  have hm := f.magnitude_strictMono hk
  by_contra hx
  have hn := h k
  rw [abs_of_neg (by linarith), abs_of_nonpos (by linarith)] at hn
  linarith

/-- Which way a value of N and a fraction goes, by its double (R219 rne). -/
theorem roundsUp_rne (neg : Bool) {y : ℚ} (hy : 0 ≤ y) (fr rb : Nat) (fx : Bool) :
    if roundsUp .rne neg ⌊y⌋₊ ⌊y * 2⌋₊ (decide ((⌊y * 2⌋₊ : ℚ) = y * 2)) fr fx rb = true then 2 * (⌊y⌋₊ : ℚ) + 1 ≤ 2 * y
    else 2 * y ≤ 2 * (⌊y⌋₊ : ℚ) + 1 := by
  have hlo := Nat.floor_le hy
  have hhi := Nat.lt_floor_add_one y
  have hlo2 := Nat.floor_le (a := y * 2) (by positivity)
  have hhi2 := Nat.lt_floor_add_one (y * 2)
  have hge : 2 * ⌊y⌋₊ ≤ ⌊y * 2⌋₊ := Nat.le_floor (by push_cast; linarith)
  have hle : ⌊y * 2⌋₊ < 2 * ⌊y⌋₊ + 2 := (Nat.floor_lt (by positivity)).2 (by push_cast; linarith)
  have hhalf : (⌊y * 2⌋₊ : ℚ) = 2 * ⌊y⌋₊ + (⌊y * 2⌋₊ % 2 : Nat) := by
    norm_cast
    omega
  rcases Nat.mod_two_eq_zero_or_one ⌊y * 2⌋₊ with hmod | hmod <;> rw [hmod] at hhalf <;> push_cast at hhalf
  · rw [if_neg (by simp [roundsUp, hmod])]
    linarith
  · split
    · linarith
    · next hdown =>
      have htie : (⌊y * 2⌋₊ : ℚ) = y * 2 := by
        by_contra hne
        simp [roundsUp, hmod, hne] at hdown
      linarith

end nearest

/-! ### Rounding a rational magnitude (R219, R220) -/

section round
variable {f : FSpec} {n d : Nat} {e : Int}

/-- The codes of a format fit under its sign, infinity past the largest finite one. -/
def FSpec.Fits (f : FSpec) : Prop := f.top < 2 ^ f.magBits ∧ ∀ i ∈ f.inf, f.top < i ∧ i < 2 ^ f.magBits

theorem fspec_fits (fmt : Fmt) : (fspec fmt).Fits := by
  cases fmt <;> simp [fspec, FSpec.Fits, FSpec.magBits]

theorem FSpec.signed_div (neg : Bool) {c : Nat} (hc : c < 2 ^ f.magBits) : f.signed neg c / 2 ^ f.magBits = neg.toNat := by
  cases neg
  · exact Nat.div_eq_of_lt hc
  · rw [FSpec.signed, if_pos rfl, Nat.add_div_right _ (by positivity), Nat.div_eq_of_lt hc]
    rfl

theorem FSpec.signed_mod (neg : Bool) {c : Nat} (hc : c < 2 ^ f.magBits) : f.signed neg c % 2 ^ f.magBits = c := by
  cases neg
  · exact Nat.mod_eq_of_lt hc
  · rw [FSpec.signed, if_pos rfl, Nat.add_mod_right, Nat.mod_eq_of_lt hc]

/-- The exponent of the grid step at a rational magnitude. -/
def FSpec.gridExp (f : FSpec) (n d : Nat) (e : Int) : Int := max ((Mag.rat n d e).exponent - f.mbits) f.qmin

/-- A rational magnitude in grid steps. -/
def FSpec.gridSteps (f : FSpec) (n d : Nat) (e : Int) : ℚ := ratValue n d e * (2 : ℚ) ^ (-f.gridExp n d e)

theorem FSpec.gridSteps_mul : f.gridSteps n d e * (2 : ℚ) ^ f.gridExp n d e = ratValue n d e := by
  rw [FSpec.gridSteps, mul_assoc, ← zpow_add₀ two_ne_zero, neg_add_cancel, zpow_zero, mul_one]

theorem FSpec.gridSteps_pos (hn : 0 < n) (hd : 0 < d) : 0 < f.gridSteps n d e :=
  mul_pos (ratValue_pos e hn hd) (by positivity)

/-- Its whole steps fit a code, and so does one more. -/
theorem FSpec.onGrid_floor (hn : 0 < n) (hd : 0 < d) :
    f.OnGrid ⌊f.gridSteps n d e⌋₊ (f.gridExp n d e) ∧ ⌊f.gridSteps n d e⌋₊ < 2 ^ (f.mbits + 1) := by
  obtain ⟨hlo, hhi⟩ := Mag.exponent_rat e hn hd
  have hpos := (f.gridSteps_pos hn hd (e := e)).le
  refine ⟨⟨le_max_right .., fun h => ?_⟩, (Nat.floor_lt hpos).2 ?_⟩
  · by_contra hq
    have hexp : f.gridExp n d e = (Mag.rat n d e).exponent - f.mbits := by
      unfold FSpec.gridExp at hq ⊢
      omega
    have hfull : (2 : ℚ) ^ f.mbits ≤ f.gridSteps n d e := by
      rw [FSpec.gridSteps, hexp, zpow_neg, ← div_eq_mul_inv, le_div_iff₀ (by positivity), ← zpow_natCast, ← zpow_add₀ two_ne_zero,
        add_sub_cancel]
      exact hlo
    exact absurd h (Nat.not_lt.2 (Nat.le_floor (mod_cast hfull)))
  · have hle : (Mag.rat n d e).exponent + 1 ≤ (f.mbits + 1 : Nat) + f.gridExp n d e := by
      unfold FSpec.gridExp
      push_cast
      omega
    rw [FSpec.gridSteps, zpow_neg, ← div_eq_mul_inv, div_lt_iff₀ (by positivity), Nat.cast_pow, Nat.cast_ofNat, ← zpow_natCast,
      ← zpow_add₀ two_ne_zero]
    exact hhi.trans_le (zpow_le_zpow_right₀ one_le_two hle)

/-- Its whole steps, with whether they are all of it. -/
def FSpec.wholeSteps (f : FSpec) (n d : Nat) (e : Int) : Nat × Bool := (Mag.rat n d e).floorAt (-f.gridExp n d e)

/-- The steps it is rounded to. -/
def FSpec.rneSteps (f : FSpec) (neg : Bool) (n d : Nat) (e : Int) : Nat :=
  let whole := f.wholeSteps n d e
  let half := (Mag.rat n d e).floorAt (1 - f.gridExp n d e)
  let fr := (Mag.rat n d e).floorAt (32 - f.gridExp n d e)
  if !whole.2 && roundsUp .rne neg whole.1 half.1 half.2 (fr.1 - whole.1 * 2 ^ 32) fr.2 0 then whole.1 + 1 else whole.1

theorem FSpec.rneSteps_of_exact (neg : Bool) (hx : (f.wholeSteps n d e).2 = true) : f.rneSteps neg n d e = (f.wholeSteps n d e).1 := by
  simp [FSpec.rneSteps, hx]

/-- The code it is rounded to, were every code finite. -/
def FSpec.rneCode (f : FSpec) (neg : Bool) (n d : Nat) (e : Int) : Nat := f.codeOf (f.rneSteps neg n d e) (f.gridExp n d e)

theorem FSpec.round_rneOf_cases (neg : Bool) : f.round rneOf (.val neg (.rat n d e)) =
    if (f.wholeSteps n d e).2 && f.codeOf (f.wholeSteps n d e).1 (f.gridExp n d e) ≤ f.top then
      (f.signed neg (f.codeOf (f.wholeSteps n d e).1 (f.gridExp n d e)), 0)
    else if f.top < f.rneCode neg n d e then (f.overflow rneOf neg, fOf ||| fNx)
    else if f.rneSteps neg n d e = 0 then (f.signed neg 0, fNx)
    else if f.rneCode neg n d e < 2 ^ f.mbits then (f.signed neg (f.rneCode neg n d e), fUf ||| fNx)
    else (f.signed neg (f.rneCode neg n d e), fNx) := rfl

/-- What rounding to nearest gives: the overflow value past the largest finite code, else the code; exact where no step was cut. -/
theorem FSpec.round_rneOf (neg : Bool) : ∃ fl : BitVec 5,
    f.round rneOf (.val neg (.rat n d e)) =
      (if f.top < f.rneCode neg n d e then f.overflow rneOf neg else f.signed neg (f.rneCode neg n d e), fl)
    ∧ (fl.getLsbD 0 = false ↔ (f.wholeSteps n d e).2 = true ∧ f.rneCode neg n d e ≤ f.top) := by
  have hexact (hx : (f.wholeSteps n d e).2 = true) : f.codeOf (f.wholeSteps n d e).1 (f.gridExp n d e) = f.rneCode neg n d e := by
    rw [FSpec.rneCode, rneSteps_of_exact neg hx]
  have hzero (h0 : f.rneSteps neg n d e = 0) : f.rneCode neg n d e = 0 := by
    rw [FSpec.rneCode, h0]
    exact if_pos (by positivity)
  rw [FSpec.round_rneOf_cases]
  by_cases hfit : f.top < f.rneCode neg n d e
  · refine ⟨fOf ||| fNx, ?_, by simp [fOf, fNx, hfit]⟩
    rw [if_neg, if_pos hfit, if_pos hfit]
    simp only [Bool.and_eq_true, decide_eq_true_eq, not_and, Nat.not_le]
    exact fun hx => hexact hx ▸ hfit
  · rw [if_neg hfit, if_neg hfit]
    cases hx : (f.wholeSteps n d e).2
    · simp only [Bool.false_and, Bool.false_eq_true, if_false, false_and, iff_false]
      split
      · next h0 => exact ⟨fNx, by rw [hzero h0], by decide⟩
      · split
        · exact ⟨fUf ||| fNx, rfl, by decide⟩
        · exact ⟨fNx, rfl, by decide⟩
    · exact ⟨0, by rw [hexact hx, if_pos (by simpa using hfit)], by simpa using hfit⟩

theorem FSpec.wholeSteps_eq (hd : 0 < d) :
    f.wholeSteps n d e = (⌊f.gridSteps n d e⌋₊, decide ((⌊f.gridSteps n d e⌋₊ : ℚ) = f.gridSteps n d e)) := Mag.floorAt_rat e hd _

/-- Rounding keeps the whole steps of up to a half more, and takes one more from a half on. -/
theorem FSpec.rneSteps_cases (neg : Bool) (hn : 0 < n) (hd : 0 < d) :
    (f.rneSteps neg n d e = ⌊f.gridSteps n d e⌋₊ ∧ 2 * f.gridSteps n d e ≤ 2 * (⌊f.gridSteps n d e⌋₊ : ℚ) + 1)
    ∨ (f.rneSteps neg n d e = ⌊f.gridSteps n d e⌋₊ + 1 ∧ 2 * (⌊f.gridSteps n d e⌋₊ : ℚ) + 1 ≤ 2 * f.gridSteps n d e) := by
  have hdouble : ratValue n d e * (2 : ℚ) ^ (1 - f.gridExp n d e) = f.gridSteps n d e * 2 := by
    rw [FSpec.gridSteps, sub_eq_neg_add, zpow_add₀ two_ne_zero, zpow_one, mul_assoc]
  have hhalf : (Mag.rat n d e).floorAt (1 - f.gridExp n d e)
      = (⌊f.gridSteps n d e * 2⌋₊, decide ((⌊f.gridSteps n d e * 2⌋₊ : ℚ) = f.gridSteps n d e * 2)) := by
    rw [Mag.floorAt_rat e hd, hdouble]
  by_cases hx : (⌊f.gridSteps n d e⌋₊ : ℚ) = f.gridSteps n d e
  · exact .inl ⟨by rw [rneSteps_of_exact, wholeSteps_eq hd]; simp [wholeSteps_eq hd, hx], by linarith⟩
  · have hup := roundsUp_rne neg (f.gridSteps_pos hn hd (e := e)).le
      (((Mag.rat n d e).floorAt (32 - f.gridExp n d e)).1 - ⌊f.gridSteps n d e⌋₊ * 2 ^ 32) 0 ((Mag.rat n d e).floorAt (32 - f.gridExp n d e)).2
    simp only [FSpec.rneSteps, wholeSteps_eq hd, hhalf, hx, decide_false, Bool.not_false, Bool.true_and]
    split at hup
    · next hgo => exact .inr ⟨if_pos hgo, hup⟩
    · next hstay => exact .inl ⟨if_neg hstay, hup⟩

/-- The code rounded to is nearest of all, and has the very value where no step was cut. -/
theorem FSpec.rneCode_nearest (neg : Bool) (hn : 0 < n) (hd : 0 < d) : f.Nearest (ratValue n d e) (f.rneCode neg n d e)
    ∧ ((f.wholeSteps n d e).2 = true ↔ f.magnitude (f.rneCode neg n d e) = ratValue n d e) := by
  obtain ⟨hgrid, hbound⟩ := f.onGrid_floor hn hd (e := e)
  have hfloor := Nat.floor_le (f.gridSteps_pos hn hd (e := e)).le
  have hceil := Nat.lt_floor_add_one (f.gridSteps n d e)
  have hpow : (0 : ℚ) < 2 ^ f.gridExp n d e := by positivity
  have hlo := magnitude_codeOf hgrid hbound.le
  have hhi := magnitude_codeOf (n := ⌊f.gridSteps n d e⌋₊ + 1) ⟨hgrid.least, fun h => hgrid.small (by omega)⟩ hbound
  rw [codeOf_succ hgrid] at hhi
  push_cast at hhi
  have hadj := nearest_of_adjacent (f := f) (x := ratValue n d e) (c := f.codeOf ⌊f.gridSteps n d e⌋₊ (f.gridExp n d e))
    (by rw [hlo, ← gridSteps_mul]; gcongr) (by rw [hhi, ← gridSteps_mul]; gcongr)
  rw [hlo, hhi, ← gridSteps_mul, ← sub_mul, ← sub_mul, mul_le_mul_iff_left₀ hpow, mul_le_mul_iff_left₀ hpow] at hadj
  rw [wholeSteps_eq hd, decide_eq_true_eq, FSpec.rneCode, ← gridSteps_mul]
  obtain ⟨hsteps, hhalf⟩ | ⟨hsteps, hhalf⟩ := f.rneSteps_cases neg hn hd (e := e) <;> rw [hsteps]
  · refine ⟨hadj.1 (by linarith), ?_⟩
    rw [hlo, mul_left_inj' hpow.ne']
  · rw [codeOf_succ hgrid]
    refine ⟨hadj.2 (by linarith), ?_⟩
    rw [hhi, mul_left_inj' hpow.ne']
    exact iff_of_false (by intro h; linarith) hceil.ne'

/-- Rounding a rational magnitude to nearest: a code under its sign that, where it is finite, is nearest of the finite ones, with the inexact
flag clear exactly where it has the very value. -/
theorem FSpec.round_rneOf_nearest (hf : f.Fits) (neg : Bool) (hn : 0 < n) (hd : 0 < d) : ∃ (c : Nat) (fl : BitVec 5),
    f.round rneOf (.val neg (.rat n d e)) = (f.signed neg c, fl) ∧ c < 2 ^ f.magBits
    ∧ (c ≤ f.top → (∀ k ≤ f.top, |ratValue n d e - f.magnitude c| ≤ |ratValue n d e - f.magnitude k|)
        ∧ (fl.getLsbD 0 = false ↔ f.magnitude c = ratValue n d e)) := by
  obtain ⟨htop, hinf⟩ := hf
  obtain ⟨fl, hround, hflag⟩ := f.round_rneOf neg (n := n) (d := d) (e := e)
  obtain ⟨hnear, hexact⟩ := f.rneCode_nearest neg hn hd (e := e)
  by_cases hover : f.top < f.rneCode neg n d e
  · rw [if_pos hover] at hround
    have habove : f.magnitude f.top < ratValue n d e := hnear.lt_of_lt hover
    cases hi : f.inf with
    | none =>
      rw [FSpec.overflow, hi] at hround
      refine ⟨f.top, fl, hround, htop, fun _ => ⟨fun k hk => ?_, ?_⟩⟩
      · have hle := f.magnitude_strictMono.monotone hk
        rw [abs_of_pos (sub_pos.2 habove)]
        exact (sub_le_sub_left hle _).trans (le_abs_self _)
      · rw [hflag]
        exact iff_of_false (fun h => absurd h.2 (Nat.not_le.2 hover)) habove.ne
    | some i =>
      obtain ⟨hpast, hfits⟩ := hinf i hi
      rw [FSpec.overflow, hi] at hround
      exact ⟨i, fl, hround, hfits, fun h => absurd h (Nat.not_le.2 hpast)⟩
  · rw [if_neg hover] at hround
    refine ⟨_, fl, hround, (Nat.not_lt.1 hover).trans_lt htop, fun hle => ⟨fun k _ => hnear k, ?_⟩⟩
    rw [hflag, ← hexact]
    exact and_iff_left hle

end round

/-- Settles O23: the code rounded to is nearest among the finite codes, and a finite encoding is such a code with its value. -/
theorem roundingIsNearest : Obligations.RoundingIsNearest := by
  intro fmt neg n d e _ hn hd
  obtain ⟨c, fl, hround, hfits, hspec⟩ := FSpec.round_rneOf_nearest (fspec_fits fmt) neg hn hd (e := e)
  dsimp only
  rw [hround]
  refine ⟨FSpec.signed_div neg hfits, fun m q hdec => ?_⟩
  obtain ⟨htop, hval⟩ := FSpec.decode_fin _ hdec
  rw [FSpec.signed_mod neg hfits] at htop hval
  obtain ⟨hnear, hexact⟩ := hspec htop
  rw [hdec]
  refine ⟨fun code m' q' hcode => ?_, ?_⟩
  · obtain ⟨hk, hval'⟩ := FSpec.decode_fin _ hcode
    change |ratValue n d e - m * (2 : ℚ) ^ q| ≤ |ratValue n d e - m' * (2 : ℚ) ^ q'|
    rw [hval, hval']
    exact hnear _ hk
  · change fl.getLsbD 0 = false ↔ m * (2 : ℚ) ^ q = ratValue n d e
    rwa [hval]

end Sys2Proof.Machine
end

section
/-! The tree of `lred` and the chain of `lscan` (spec/08 R227, R228), as functions of the lane. -/
namespace Sys2Proof.Machine

/-! ### The tree (R227) -/

section tree

/-- One ⊕ of two operands, either of which may be missing. -/
def mergeLanes (plus : Word → Word → Word × BitVec 5) (x y : Option Word) : Option Word :=
  match x, y with
  | some x, some y => some (plus x y).1
  | some x, none => some x
  | none, y => y

/-- The flags it sets: none where an operand is missing. -/
def mergeFlags (plus : Word → Word → Word × BitVec 5) (x y : Option Word) : BitVec 5 :=
  match x, y with
  | some x, some y => (plus x y).2
  | _, _ => 0

/-- One distance of the tree: the places and the flags so far. -/
def treeStep (plus : Nat → Nat → Word → Word → Word × BitVec 5) (t : (Nat → Option Word) × BitVec 5) (d : Nat) :
    (Nat → Option Word) × BitVec 5 :=
  (fun l => if l < d then mergeLanes (plus d l) (t.1 l) (t.1 (l + d)) else t.1 l,
   (List.range d).foldl (fun fl l => fl ||| mergeFlags (plus d l) (t.1 l) (t.1 (l + d))) t.2)

/-- The tree over the places of 32 lanes. -/
def laneTree (plus : Nat → Nat → Word → Word → Word × BitVec 5) (start : Nat → Option Word) : (Nat → Option Word) × BitVec 5 :=
  [16, 8, 4, 2, 1].foldl (treeStep plus) (start, 0)

theorem treeLevel_eq (plus : Nat → Word → Word → Word × BitVec 5) (d : Nat) (t : List (Option Word)) : treeLevel plus d t =
    ((List.range d).map fun l => mergeLanes (plus l) (nth t l none) (nth t (l + d) none),
     (List.range d).foldl (fun fl l => fl ||| mergeFlags (plus l) (nth t l none) (nth t (l + d) none)) 0) := by
  unfold treeLevel
  dsimp only
  rw [List.map_map, List.foldl_map]
  congr 2 <;> funext
  · next l =>
    dsimp only [Function.comp_apply]
    cases nth t l none <;> cases nth t (l + d) none <;> rfl
  · next fl l => cases nth t l none <;> cases nth t (l + d) none <;> rfl

/-- Flags collected over a list, and those set before it. -/
theorem or_foldl_flags {α : Type} (a : BitVec 5) (g : α → BitVec 5) (ls : List α) :
    a ||| ls.foldl (fun fl l => fl ||| g l) 0 = ls.foldl (fun fl l => fl ||| g l) a := by
  have hor : Std.Associative fun x y : BitVec 5 => x ||| y := ⟨BitVec.or_assoc⟩
  simpa [List.foldl_map] using (List.foldl_assoc (op := fun x y : BitVec 5 => x ||| y) (l := ls.map g) (a₁ := a) (a₂ := 0)).symm

variable (plus : Nat → Nat → Word → Word → Word × BitVec 5)

/-- The first n places of a list of the model, and the flags, are those of a tree. -/
def ShowsTree (n : Nat) (r : List (Option Word) × BitVec 5) (t : (Nat → Option Word) × BitVec 5) : Prop :=
  (∀ l, l < n → nth r.1 l none = t.1 l) ∧ r.2 = t.2

theorem ShowsTree.level {d : Nat} {r : List (Option Word) × BitVec 5} {t : (Nat → Option Word) × BitVec 5} (h : ShowsTree (2 * d) r t) :
    ShowsTree d ((treeLevel (plus d) d r.1).1, r.2 ||| (treeLevel (plus d) d r.1).2) (treeStep plus t d) := by
  obtain ⟨hplaces, hflags⟩ := h
  have hpair (l : Nat) (hl : l < d) : nth r.1 l none = t.1 l ∧ nth r.1 (l + d) none = t.1 (l + d) :=
    ⟨hplaces _ (by omega), hplaces _ (by omega)⟩
  rw [treeLevel_eq]
  refine ⟨fun l hl => ?_, ?_⟩
  · simp [nth, treeStep, hl, ← hpair l hl]
  · rw [or_foldl_flags, hflags]
    exact List.foldl_ext _ _ _ fun fl l hl => by rw [(hpair l (List.mem_range.1 hl)).1, (hpair l (List.mem_range.1 hl)).2]

/-- The model's tree is the tree over the places of the lanes. -/
theorem treeReduce_eq {ts : List (Option Word)} {start : Nat → Option Word} (h : ∀ l, l < 32 → nth ts l none = start l) :
    treeReduce plus ts = ((laneTree plus start).1 0, (laneTree plus start).2) := by
  have h32 : ShowsTree (2 * 16) (ts, 0) (start, 0) := ⟨h, rfl⟩
  obtain ⟨hplace, hflags⟩ := ((((h32.level plus (d := 2 * 8)).level plus (d := 2 * 4)).level plus (d := 2 * 2)).level plus
    (d := 2 * 1)).level plus (d := 1)
  exact Prod.ext (hplace 0 Nat.one_pos) hflags

end tree

/-! ### An integer sum (R185, R229) -/

section sums

/-- A place of the tree as a number: zero where it is missing. -/
def placeValue (x : Option Word) : Nat := (x.getD 0).toNat

/-- The first d places stand for a total modulo M, each within M, and no flag is set. -/
structure SumsTo (M total d : Nat) (t : (Nat → Option Word) × BitVec 5) : Prop where
  fits  : ∀ l, placeValue (t.1 l) < M
  sum   : (∑ l ∈ Finset.range d, placeValue (t.1 l)) % M = total % M
  flags : t.2 = 0

variable {M : Nat} {plus : Nat → Nat → Word → Word → Word × BitVec 5}

theorem placeValue_mergeLanes {plus : Word → Word → Word × BitVec 5} (hplus : ∀ x y, (plus x y).1.toNat = (x.toNat + y.toNat) % M)
    {x y : Option Word} (hx : placeValue x < M) (hy : placeValue y < M) :
    placeValue (mergeLanes plus x y) = (placeValue x + placeValue y) % M := by
  cases x <;> cases y
  · simp [mergeLanes, placeValue]
  · simpa [mergeLanes, placeValue] using (Nat.mod_eq_of_lt hy).symm
  · simpa [mergeLanes, placeValue] using (Nat.mod_eq_of_lt hx).symm
  · exact hplus _ _

variable (hplus : ∀ d l x y, (plus d l x y).1.toNat = (x.toNat + y.toNat) % M) (hflags : ∀ d l x y, (plus d l x y).2 = 0)
include hplus hflags

theorem SumsTo.step {total d : Nat} {t : (Nat → Option Word) × BitVec 5} (h : SumsTo M total (d + d) t) :
    SumsTo M total d (treeStep plus t d) := by
  obtain ⟨hfits, hsum, hclear⟩ := h
  have hmerge (l : Nat) := placeValue_mergeLanes (hplus d l) (hfits l) (hfits (l + d))
  refine ⟨fun l => ?_, ?_, ?_⟩
  · dsimp only [treeStep]
    split
    · rw [hmerge]
      exact Nat.mod_lt _ (Nat.zero_lt_of_lt (hfits l))
    · exact hfits l
  · rw [← hsum, Finset.sum_range_add, ← Finset.sum_add_distrib, Finset.sum_nat_mod _ _ fun l => _ + _]
    refine congrArg (· % M) (Finset.sum_congr rfl fun l hl => ?_)
    have hmerged : (treeStep plus t d).1 l = mergeLanes (plus d l) (t.1 l) (t.1 (l + d)) := if_pos (Finset.mem_range.1 hl)
    rw [hmerged, hmerge, Nat.add_comm l d]
  · have hnone (l : Nat) : mergeFlags (plus d l) (t.1 l) (t.1 (l + d)) = 0 := by
      unfold mergeFlags
      split
      · exact hflags ..
      · rfl
    simp [treeStep, hnone, hclear]

/-- A tree of exact sums modulo M gives the sum of its places. -/
theorem laneTree_sum {start : Nat → Option Word} (hfits : ∀ l, placeValue (start l) < M) :
    placeValue ((laneTree plus start).1 0) = (∑ l ∈ Finset.range 32, placeValue (start l)) % M ∧ (laneTree plus start).2 = 0 := by
  have h32 : SumsTo M _ (16 + 16) (start, 0) := ⟨hfits, rfl, rfl⟩
  obtain ⟨hlast, hsum, hclear⟩ := ((((h32.step hplus hflags (d := 8 + 8)).step hplus hflags (d := 4 + 4)).step hplus hflags
    (d := 2 + 2)).step hplus hflags (d := 1 + 1)).step hplus hflags (d := 1)
  rw [Finset.sum_range_one, Nat.mod_eq_of_lt (hlast 0)] at hsum
  exact ⟨hsum, hclear⟩

end sums

/-- An integer ⊕ of `.add` is the sum modulo 2^e, and sets no flag. -/
theorem combine_add_integer {f : Fmt} (hf : f = .i32 ∨ f = .i64) (uns : Bool) (r : Rounding) (x y : Word) :
    (combine f uns .add r x y).1.toNat = (x.toNat + y.toNat) % 2 ^ elemBits f ∧ (combine f uns .add r x y).2 = 0 := by
  have hint : isFloat f = false := by rcases hf with rfl | rfl <;> decide
  have hwide : 2 ^ elemBits f ≤ 2 ^ 64 := by rcases hf with rfl | rfl <;> decide
  have hplain : f ≠ .e3m2 ∧ f ≠ .e2m3 := by rcases hf with rfl | rfl <;> decide
  have hsum : wrapTo (elemBits f) (elemInt f uns x 0 + elemInt f uns y 0) = (x.toNat + y.toNat) % 2 ^ elemBits f := by
    rw [elemInt_eq, elemInt_eq, wrapTo_add, BitVec.toNat_add, ← element_eq, ← element_eq, element_of_no_spare_bits _ _ _ hplain,
      element_of_no_spare_bits _ _ _ hplain]
    simp [rawElement]
  unfold combine
  simp only [hint]
  rw [BitVec.toNat_ofNat, hsum, Nat.mod_eq_of_lt ((Nat.mod_lt _ (by positivity)).trans_le hwide)]
  exact ⟨rfl, trivial⟩

/-! ### The chain (R228) -/

section chain
variable (plus : Nat → Word → Word → Word × BitVec 5) (on : Nat → Bool) (x : Nat → Word)

/-- The chain over the lanes below l. -/
def scanChain : Nat → Option Word
  | 0 => none
  | l + 1 => if on l then some ((scanChain l).elim (x l) fun y => (plus l y (x l)).1) else scanChain l

/-- The flags of a lane's own step. -/
def scanFlags (l : Nat) : BitVec 5 := if on l then (scanChain plus on x l).elim 0 fun y => (plus l y (x l)).2 else 0

theorem scanChain_succ_of_off {l : Nat} (h : on l = false) : scanChain plus on x (l + 1) = scanChain plus on x l := if_neg (by simp [h])

theorem scanChain_succ_of_on {l : Nat} (h : on l = true) :
    scanChain plus on x (l + 1) = some ((scanChain plus on x l).elim (x l) fun y => (plus l y (x l)).1)
    ∧ scanFlags plus on x l = (scanChain plus on x l).elim 0 fun y => (plus l y (x l)).2 := ⟨if_pos h, if_pos h⟩

/-- The first lane that counts begins the chain. -/
theorem scanChain_first {l : Nat} (h : on l = true) (hy : scanChain plus on x l = none) :
    scanChain plus on x (l + 1) = some (x l) ∧ scanFlags plus on x l = 0 := by
  simpa [hy] using scanChain_succ_of_on plus on x h

/-- A later one combines its value with the chain so far. -/
theorem scanChain_next {l : Nat} {y : Word} (h : on l = true) (hy : scanChain plus on x l = some y) :
    scanChain plus on x (l + 1) = some (plus l y (x l)).1 ∧ scanFlags plus on x l = (plus l y (x l)).2 := by
  simpa [hy] using scanChain_succ_of_on plus on x h

theorem serialScan_cons (counted : LaneMask) (start : Word) (l : Nat) (ls : List Nat) (y : Option Word) :
    serialScan plus counted x start (l :: ls) y =
      if counted.getLsbD l then
        (l, y.elim (x l) (fun y => (plus l y (x l)).1), y.elim 0 fun y => (plus l y (x l)).2)
          :: serialScan plus counted x start ls (some (y.elim (x l) fun y => (plus l y (x l)).1))
      else (l, y.getD start, 0) :: serialScan plus counted x start ls y := by
  cases y <;> rfl

/-- What the model's chain gives its first lane, and where it stands after it. -/
theorem serialScan_scanChain {counted act : LaneMask} (start : Word) (hon : ∀ l, on l = (act.getLsbD l && counted.getLsbD l)) {a : Nat}
    (ha : act.getLsbD a = true) (ls : List Nat) : serialScan plus counted x start (a :: ls) (scanChain plus on x a) =
      (a, (scanChain plus on x (a + 1)).getD start, scanFlags plus on x a)
        :: serialScan plus counted x start ls (scanChain plus on x (a + 1)) := by
  rw [serialScan_cons]
  cases hc : counted.getLsbD a
  · have hoff : on a = false := by simp [hon, hc]
    rw [if_neg (by simp), scanChain_succ_of_off plus on x hoff, scanFlags, hoff]
    rfl
  · have hgoes : on a = true := by simp [hon, ha, hc]
    obtain ⟨hchain, hflags⟩ := scanChain_succ_of_on plus on x hgoes
    rw [if_pos rfl, hchain, hflags, Option.getD_some]

/-- What the model's chain over the lanes of a mask from lane a on gives each of them. -/
theorem serialScan_get {counted act : LaneMask} (start : Word) (hon : ∀ l, on l = (act.getLsbD l && counted.getLsbD l)) {l : Nat}
    (hl : act.getLsbD l = true) (n a : Nat) (hal : a ≤ l) (hla : l < a + n) :
    NMap.getD (serialScan plus counted x start ((List.range' a n).filter act.getLsbD) (scanChain plus on x a)) l (0, 0)
      = ((scanChain plus on x (l + 1)).getD start, scanFlags plus on x l) := by
  induction n generalizing a with
  | zero => omega
  | succ n ih =>
    rw [List.range'_succ, List.filter_cons]
    cases ha : act.getLsbD a
    · have hne : a ≠ l := fun h => by rw [h, hl] at ha; cases ha
      rw [if_neg (by simp), ← scanChain_succ_of_off plus on x (by simp [hon, ha])]
      exact ih (a + 1) (by omega) (by omega)
    · rw [if_pos rfl, serialScan_scanChain plus on x start hon ha, NMap.getD, NMap.get?_cons]
      split
      · next h => rw [← h, Option.getD_some]
      · next h => exact ih (a + 1) (by omega) (by omega)

end chain

/-! ### What a result reads of its lanes (R99, R221) -/

section lanes
variable (w : Warp) (m : LaneMask)

theorem Warp.putVec_congr (f : Fmt) (i : Nat) {x y : Nat → Word} (h : ∀ l, m.getLsbD l = true → x l = y l) :
    w.putVec f i m x = w.putVec f i m y := by
  have hlanes (k : Nat) : (fun l => if m.getLsbD l = true then some ((x l).extractLsb' k 32) else none)
      = fun l => if m.getLsbD l = true then some ((y l).extractLsb' k 32) else none :=
    funext fun l => ite_congr rfl (fun hl => by rw [h l hl]) fun _ => rfl
  simp only [Warp.putVec, hlanes]

/-- A vector result reads the lanes of its mask only. -/
theorem vectorResult_congr (d : Dst) (f : Fmt) {x y : Nat → Word} (h : ∀ l, m.getLsbD l = true → x l = y l) :
    vectorResult w d f m x = vectorResult w d f m y := by
  have hplace (keep : Word → Word) (z : Nat → Word) :
      Place.vector (laneIndices.map fun l => if m.getLsbD l = true then keep (x l) else z l)
        = .vector (laneIndices.map fun l => if m.getLsbD l = true then keep (y l) else z l) :=
    congrArg (fun v => Place.vector (laneIndices.map v)) (funext fun l => ite_congr rfl (fun hl => by rw [h l hl]) fun _ => rfl)
  simp only [vectorResult, w.putVec_congr m f d.idx h]
  cases d.wb <;> exact congrArg (Prod.mk _) (hplace (fun v => if f.is64 then v else (v.extractLsb' 0 32).zeroExtend 64) _)

/-- Flags are set in lanes of the mask only. -/
theorem Warp.orFlags_congr {x y : Nat → BitVec 5} (h : ∀ l, m.getLsbD l = true → x l = y l) : w.orFlags m x = w.orFlags m y := by
  have hlanes : (fun l => if (m &&& w.present).getLsbD l = true then w.flag l ||| x l else w.flag l)
      = fun l => if (m &&& w.present).getLsbD l = true then w.flag l ||| y l else w.flag l :=
    funext fun l => ite_congr rfl (fun hl => by rw [h l (by simp_all)]) fun _ => rfl
  simp only [Warp.orFlags, hlanes]

end lanes

end Sys2Proof.Machine
end

section
/-! `lred` and `lscan` of the issuing path (spec/09 R249, R250). -/
namespace Sys2Proof.Machine

/-- Whether a lane acts and is no helper. -/
def Ctx.counts (c : Ctx) (g : Guard) (l : Nat) : Bool := (c.act g).getLsbD l && c.w.present.getLsbD l

/-- ⊕ at distance d of the tree. -/
def Ctx.treePlus (c : Ctx) (o : Alu) (op : ROp) (m : RMode) (n d l : Nat) : Word → Word → Word × BitVec 5 :=
  combine o.fmt o.uns op (c.laneRounding m n l (1 + Nat.log2 d))

/-- ⊕ of the chain. -/
def Ctx.chainPlus (c : Ctx) (o : Alu) (op : ROp) (m : RMode) (n l : Nat) : Word → Word → Word × BitVec 5 :=
  combine o.fmt o.uns op (c.laneRounding m n l 0)

/-- The chain over the lanes below l of those that act and are no helpers. -/
def Ctx.scanned (c : Ctx) (o : Alu) (op : ROp) (m : RMode) (n l : Nat) : Option Word :=
  scanChain (c.chainPlus o op m n) (c.counts o.g) (c.vec o.fmt o.a) l

/-- The flags of a lane's own step of it. -/
def Ctx.scannedFlags (c : Ctx) (o : Alu) (op : ROp) (m : RMode) (n l : Nat) : BitVec 5 :=
  scanFlags (c.chainPlus o op m n) (c.counts o.g) (c.vec o.fmt o.a) l

section ready
variable {s u t : State} {c : Ctx} {o : Alu} {m : RMode} {n : Nat} (h : RoundReady s c o.g o.d o.fmt [(.vec o.fmt, o.a)] m u n t)
include h

/-- Where the operands pass, `lred` completes with the tree over the lanes that act and are no helpers. -/
theorem RoundReady.execLred_eq (op : ROp) {start : Nat → Option Word}
    (hstart : ∀ l, l < 32 → start l = if c.counts o.g l then some (c.vec o.fmt o.a l) else none) :
    let tree := laneTree (c.treePlus o op m n) start
    let r := broadcastResult c o (c.act o.g) ((tree.1 0).getD (emptyResult o.fmt o.uns op))
    execLred op m o s = .next (t.complete c ((r.1.orFlags (c.act o.g) fun _ => tree.2).bumpCount m (c.act o.g)) r.2) := by
  have htree := treeReduce_eq (c.treePlus o op m n)
    (ts := laneIndices.map fun l => if (c.act o.g &&& c.w.present).getLsbD l then some (atLane (readVec c.w c.p o.fmt o.a) l) else none)
    (start := start) fun l hl => by rw [nth_laneIndices_map _ _ hl, hstart l hl, BitVec.getLsbD_and, Ctx.vec, Ctx.counts]
  unfold Ctx.treePlus at htree
  refine run_ok h.issues ?_
  simp only [bind, Except.bind, h.checks, h.count, h.compare, htree]
  rfl

/-- Where the operands pass, `lscan` completes with the chain over the acting lanes, helpers passing it on. -/
theorem RoundReady.execLscan_eq (op : ROp) : execLscan op m o s = .next (t.floatDone c o.g o.d o.fmt m
    (fun l => (c.scanned o op m n (l + 1)).getD (emptyResult o.fmt o.uns op)) (c.scannedFlags o op m n)) := by
  have hget (l : Nat) (hl : (c.act o.g).getLsbD l = true) :
      NMap.getD (serialScan (c.chainPlus o op m n) c.w.present (c.vec o.fmt o.a) (emptyResult o.fmt o.uns op) (lanesOf (c.act o.g)) none) l
        (0, 0) = ((c.scanned o op m n (l + 1)).getD (emptyResult o.fmt o.uns op), c.scannedFlags o op m n l) := by
    have h32 : l < 0 + 32 := by simpa using BitVec.lt_of_getLsbD hl
    rw [lanesOf, laneIndices, List.range_eq_range']
    exact serialScan_get _ (c.counts o.g) _ _ (fun _ => rfl) hl 32 0 (Nat.zero_le l) h32
  have hvalues := vectorResult_congr c.w (c.act o.g) o.d o.fmt fun l hl => congrArg Prod.fst (hget l hl)
  have hflags (w : Warp) := w.orFlags_congr (c.act o.g) fun l hl => congrArg Prod.snd (hget l hl)
  refine run_ok h.issues ?_
  simp only [bind, Except.bind, h.checks, h.count, h.compare]
  rw [State.floatDone, ← hflags, ← hvalues]
  rfl

end ready

/-- A sum over the lanes that count. -/
theorem sum_placeValue (counted : Nat → Bool) (x : Nat → Word) (n : Nat) :
    ∑ l ∈ Finset.range n, placeValue (if counted l then some (x l) else none)
      = (((List.range n).filter counted).map fun l => (x l).toNat).sum := by
  induction n with
  | zero => rfl
  | succ n ih =>
    rw [Finset.sum_range_succ, ih, List.range_succ, List.filter_append, List.map_append, List.sum_append]
    cases hn : counted n <;> simp [placeValue, hn]

/-- The integer tree of `.add` gives the sum of the lanes that count modulo 2^e, and sets no flag (R185, R229). -/
theorem treeReduce_add_integer {f : Fmt} (hf : f = .i32 ∨ f = .i64) (uns : Bool) (rounding : Nat → Nat → Rounding) (x : Nat → Word)
    (counted : Nat → Bool) (hx : ∀ l, (x l).toNat < 2 ^ elemBits f) :
    let r := treeReduce (fun d l => combine f uns .add (rounding d l)) ((List.range 32).map fun l => if counted l then some (x l) else none)
    (r.1.getD (emptyResult f uns .add)).toNat = (((List.range 32).filter counted).map fun l => (x l).toNat).sum % 2 ^ elemBits f ∧ r.2 = 0 := by
  have hfits (l : Nat) : placeValue (if counted l then some (x l) else none) < 2 ^ elemBits f := by
    split
    · exact hx l
    · exact Nat.two_pow_pos _
  have htree := treeReduce_eq (fun d l => combine f uns .add (rounding d l)) fun l hl =>
    nth_laneIndices_map (fun l => if counted l then some (x l) else none) none hl
  have hempty : emptyResult f uns .add = 0 := by rcases hf with rfl | rfl <;> rfl
  obtain ⟨hsum, hflags⟩ := laneTree_sum (plus := fun d l => combine f uns .add (rounding d l))
    (fun _ _ x y => (combine_add_integer hf uns _ x y).1) (fun _ _ x y => (combine_add_integer hf uns _ x y).2) hfits
  rw [sum_placeValue] at hsum
  rw [laneIndices] at htree
  rw [htree, hempty]
  exact ⟨hsum, hflags⟩

/-- Settles O27: the tree and the chain are those of the rules, and a tree of integer sums keeps the sum of its places. -/
theorem laneReductionsAndScans : Obligations.LaneReductionsAndScans := by
  refine ⟨⟨fun s u t c o op m n h => ?lred, fun s u t c o op m n h => ?lscan⟩,
    fun f uns m random x counted hf hx => treeReduce_add_integer hf uns (fun d l => ⟨m, random d l, false, false⟩) x counted hx⟩
  case lred => exact h.execLred_eq op fun l hl => by simp [hl, Ctx.counts]
  case lscan =>
    refine ⟨c.scanned o op m n, c.scannedFlags o op m n, rfl, fun l _ ha hp => ?_,
      fun l _ hoff => scanChain_succ_of_off _ _ _ (Bool.and_eq_false_iff.2 hoff), h.execLscan_eq op⟩
    have hon : c.counts o.g l = true := Bool.and_eq_true_iff.2 ⟨ha, hp⟩
    split
    · next hy => exact scanChain_first _ _ _ hon hy
    · next hy => exact scanChain_next _ _ _ hon hy

end Sys2Proof.Machine
end

section
/-! Polls, predicates and lane masks (spec/09 R251 to R253). -/
namespace Sys2Proof.Machine

/-! ### Polled lanes (R251) -/

section polls
variable (polled x : LaneMask)

theorem and_eq_right_iff_lanes : x &&& polled = polled ↔ ∀ l, l < 32 → polled.getLsbD l = true → x.getLsbD l = true := by
  refine ⟨fun h l _ hp => ?_, fun h => BitVec.eq_of_getLsbD_eq fun l hl => ?_⟩
  · rw [← h, BitVec.getLsbD_and, Bool.and_eq_true] at hp
    exact hp.1
  · rw [BitVec.getLsbD_and, Bool.and_eq_right_iff_imp]
    exact h l hl

theorem and_eq_zero_iff_lanes : x &&& polled = 0 ↔ ∀ l, l < 32 → polled.getLsbD l = true → x.getLsbD l = false := by
  have h := laneMask_ne_zero_iff (x &&& polled)
  rw [ne_eq, not_iff_comm] at h
  simp only [← h, BitVec.getLsbD_and, Bool.and_eq_true, not_exists, not_and, Bool.not_eq_true]
  exact ⟨fun h l hl hp => by simpa [hp] using h l hl, fun h l hl hx => by simpa [hx] using mt (h l hl)⟩

/-- Some polled bit is one. -/
theorem poll_some_iff : (x &&& polled != 0) = true ↔ ∃ l, l < 32 ∧ polled.getLsbD l = true ∧ x.getLsbD l = true := by
  rw [bne_iff_ne, laneMask_ne_zero_iff]
  simp [and_comm]

/-- Every polled bit is one. -/
theorem poll_every_iff : (x &&& polled == polled) = true ↔ ∀ l, l < 32 → polled.getLsbD l = true → x.getLsbD l = true := by
  rw [beq_iff_eq, and_eq_right_iff_lanes]

/-- All polled bits are equal: every one is one, or every one is zero. -/
theorem poll_same_iff : (x &&& polled == polled || x &&& polled == 0) = true ↔
    ∀ l k, l < 32 → k < 32 → polled.getLsbD l = true → polled.getLsbD k = true → x.getLsbD l = x.getLsbD k := by
  rw [Bool.or_eq_true, beq_iff_eq, beq_iff_eq, and_eq_right_iff_lanes, and_eq_zero_iff_lanes]
  constructor
  · rintro (h | h) l k hl hk hpl hpk <;> rw [h l hl hpl, h k hk hpk]
  · intro h
    by_cases hone : ∃ l, l < 32 ∧ polled.getLsbD l = true ∧ x.getLsbD l = true
    · obtain ⟨l, hl, hpl, hxl⟩ := hone
      exact .inl fun k hk hpk => (h k l hk hl hpk hpl).trans hxl
    · exact .inr fun k hk hpk => Bool.not_eq_true _ ▸ fun hx => hone ⟨k, hk, hpk, hx⟩

end polls

theorem lanesOf_length (m : LaneMask) : (lanesOf m).length = (List.range 32).countP m.getLsbD := List.countP_eq_length_filter.symm

/-- The lanes of a mask below lane l. -/
theorem lanesOf_below_length (m : LaneMask) (l : Nat) :
    ((lanesOf m).filter (· < l)).length = (List.range 32).countP fun k => decide (k < l) && m.getLsbD k := by
  rw [lanesOf, List.filter_filter, ← List.countP_eq_length_filter, laneIndices]

/-! ### The instructions -/

section ready
variable {s t : State} {c : Ctx} {o : Alu}

section lpoll
variable (h : LaneReady s c o.g o.d .none [(.pred, o.a)] t) {v : Poll}
include h

theorem LaneReady.exec_lpoll_scalar (hd : o.d.cls = .scalar) : exec (.lpoll v o) s =
    .next (t.scalarDone c o.g o.d (BitVec.ofNat 64 (pollResult v (c.real o.g) (readPred c.w c.p o.a)))) := by
  refine run_ok h.issues ?_
  simp only [bind, Except.bind, h.checks, h.compare, if_pos hd]
  rfl

theorem LaneReady.exec_lpoll_predicate (hd : o.d.cls ≠ .scalar) : exec (.lpoll v o) s =
    .next (t.predicateDone c o.g o.d (if pollResult v (c.real o.g) (readPred c.w c.p o.a) = 1 then BitVec.allOnes 32 else 0)) := by
  refine run_ok h.issues ?_
  simp only [bind, Except.bind, h.checks, h.compare, if_neg hd]
  rfl

/-- A poll that asks whether something holds of the polled bits answers 1 or 0, or sets every bit or none. -/
theorem LaneReady.exec_lpoll_asks {b : Bool} {holds : Prop} (hv : pollResult v (c.real o.g) (readPred c.w c.p o.a) = b.toNat)
    (hb : b = true ↔ holds) :
    (o.d.cls = .scalar → ∃ r : Word, exec (.lpoll v o) s = .next (t.scalarDone c o.g o.d r) ∧ (holds → r = 1) ∧ (¬holds → r = 0))
    ∧ (o.d.cls ≠ .scalar → ∃ r : LaneMask, exec (.lpoll v o) s = .next (t.predicateDone c o.g o.d r)
        ∧ (holds → r = BitVec.allOnes 32) ∧ (¬holds → r = 0)) := by
  refine ⟨fun hd => ⟨_, h.exec_lpoll_scalar hd, ?_⟩, fun hd => ⟨_, h.exec_lpoll_predicate hd, ?_⟩⟩ <;>
    rw [hv, ← hb] <;> cases b <;> simp

end lpoll

theorem LaneReady.predVec_eq (h : LaneReady s c o.g o.d .none [(.pred, o.a), (.pred, o.b)] t) (f : LaneMask → LaneMask → LaneMask) :
    predVec s o f = .next (t.predicateDone c o.g o.d (f (readPred c.w c.p o.a) (readPred c.w c.p o.b))) := by
  refine run_ok h.issues ?_
  simp only [bind, Except.bind, h.checks, h.compare]
  rfl

theorem LaneReady.exec_pmov_toScalar (h : LaneReady s c o.g o.d .none [(.pred, o.a)] t) :
    exec (.pmov true o) s = .next (t.scalarDone c o.g o.d ((readPred c.w c.p o.a).zeroExtend 64)) := by
  refine run_ok h.issues ?_
  simp only [bind, Except.bind, h.checks, h.compare, if_true]
  rfl

theorem LaneReady.exec_pmov_toPredicate (h : LaneReady s c o.g o.d .none [(.sca, o.a)] t) :
    exec (.pmov false o) s = .next (t.predicateDone c o.g o.d ((c.sca o.a).extractLsb' 0 32)) := by
  refine run_ok h.issues ?_
  simp only [bind, Except.bind, h.checks, h.compare, Bool.false_eq_true, if_false]
  rfl

theorem LaneReady.exec_lidx (h : LaneReady s c o.g o.d .i32 [] t) (v : LIdx) : exec (.lidx v o) s = .next (match v with
    | .lane => t.vectorDone c o.g o.d .i32 fun l => BitVec.ofNat 64 l
    | .active => t.scalarDone c o.g o.d (c.p.mask.zeroExtend 64)
    | .acting => t.scalarDone c o.g o.d ((c.act o.g).zeroExtend 64)
    | .rank => t.vectorDone c o.g o.d .i32 fun l => BitVec.ofNat 64 ((List.range 32).countP fun k => decide (k < l) && (c.act o.g).getLsbD k)) := by
  refine run_ok h.issues ?_
  cases v <;> simp only [bind, Except.bind, h.checks, h.compare, lanesOf_below_length] <;> rfl

end ready

/-- Settles O28: the poll's three questions, its mask and count, and each other instruction by its own lemma. -/
theorem predicatesAndPolls : Obligations.PredicatesAndPolls := by
  unfold Obligations.PredicatesAndPolls
  refine ⟨fun s t c o h => ?lpoll, fun s t c o h => ?predicates, fun s t c o h => h.exec_pmov_toScalar, fun s t c o h => h.exec_pmov_toPredicate,
    fun s t c o h => ?lidx⟩
  case lpoll =>
    intro polled x one
    have hpolled (l : Nat) : (c.real o.g).getLsbD l = polled l := BitVec.getLsbD_and ..
    refine ⟨h.exec_lpoll_asks rfl ?_, h.exec_lpoll_asks rfl ?_, h.exec_lpoll_asks rfl ?_,
      fun hd => ⟨⟨_, h.exec_lpoll_scalar hd, fun l hl => ?_⟩, ?_⟩⟩
    · rw [poll_some_iff]
      simp only [hpolled, x]
    · rw [poll_every_iff]
      simp only [hpolled, x]
    · rw [poll_same_iff]
      simp only [hpolled, x]
    · have hmask : pollResult .mask (c.real o.g) (readPred c.w c.p o.a) = (readPred c.w c.p o.a &&& c.real o.g).toNat := rfl
      rw [hmask, BitVec.getLsbD_ofNat, BitVec.testBit_toNat, BitVec.getLsbD_and, hpolled]
      by_cases h32 : l < 32
      · simp [hl, h32, x, Bool.and_comm]
      · simp [h32, BitVec.getLsbD_of_ge _ l (Nat.le_of_not_lt h32), x]
    · have hcount : pollResult .count (c.real o.g) (readPred c.w c.p o.a) = (List.range 32).countP fun l => polled l && x l := by
        refine (lanesOf_length _).trans (List.countP_congr fun l _ => ?_)
        rw [BitVec.getLsbD_and, hpolled, Bool.and_comm]
      rw [h.exec_lpoll_scalar hd, hcount]
  case predicates =>
    intro a b
    change execPand o s = _ ∧ execPor o s = _ ∧ execPxor o s = _ ∧ execPnot o s = _
    exact ⟨h.predVec_eq _, h.predVec_eq _, h.predVec_eq _, h.predVec_eq _⟩
  case lidx => exact ⟨h.exec_lidx .lane, h.exec_lidx .active, h.exec_lidx .acting, h.exec_lidx .rank⟩

end Sys2Proof.Machine
end

section
/-! Moves between lanes (spec/09 R244 to R248): what a lane reads of another, and when canonical mode refuses it. -/
namespace Sys2Proof.Machine

/-! ### Reading other lanes (R244, R245) -/

/-- A source that holds a value of its own in every lane. -/
def Ctx.Owns (c : Ctx) (x : Src) : Prop := (∃ i, x = .reg i) ∨ ∃ k v, x = .latch k ∧ c.p.place k = some (.vector v)

/-- A lane that has a value: present, or a helper. -/
def Ctx.Holds (c : Ctx) (k : Nat) : Prop := c.w.present.getLsbD k = true ∨ c.w.helper.getLsbD k = true

section reads
variable {c : Ctx} {x : Src}

theorem laneOwned_iff : laneOwned c.p x = true ↔ c.Owns x := by
  unfold laneOwned Ctx.Owns
  cases x with
  | latch k =>
    cases hp : c.p.place k with
    | none => simp [hp]
    | some pl => cases pl <;> simp [hp]
  | _ => simp

theorem holding_iff {k : Nat} : c.w.holding.getLsbD k = true ↔ c.Holds k := by
  rw [Warp.holding, BitVec.getLsbD_or, Bool.or_eq_true, Ctx.Holds]

/-- A value of its own in a lane without one reads zero. -/
theorem crossLane_absent {f : Fmt} {k : Nat} (ho : c.Owns x) (hh : ¬c.Holds k) : crossLane c f x k = 0 := by
  rw [← holding_iff, Bool.not_eq_true] at hh
  simp [crossLane, laneOwned_iff.2 ho, hh]

/-- Any other read is of the lane's value. -/
theorem crossLane_held {f : Fmt} {k : Nat} (h : ¬c.Owns x ∨ c.Holds k) : crossLane c f x k = c.vec f x k := by
  rw [← laneOwned_iff, ← holding_iff] at h
  refine if_neg ?_
  rw [Bool.and_eq_true, Bool.not_eq_true']
  rintro ⟨ho, hh⟩
  simp [ho, hh] at h

theorem getLsbD_readLanes (act : LaneMask) (src : Nat → Nat) {k : Nat} (hk : k < 32) :
    (readLanes act src).getLsbD k = true ↔ ∃ l ∈ lanesOf act, src l = k := by
  have hfold (ls : List Nat) (m : LaneMask) : (ls.foldl (fun m l => m ||| maskOf (· == src l)) m).getLsbD k = true ↔
      m.getLsbD k = true ∨ ∃ l ∈ ls, src l = k := by
    induction ls generalizing m with
    | nil => simp
    | cons l ls ih =>
      rw [List.foldl_cons, ih, BitVec.getLsbD_or, getLsbD_maskOf _ hk, Bool.or_eq_true, beq_iff_eq, or_assoc, eq_comm (a := k),
        List.exists_mem_cons_iff]
  simpa [readLanes] using hfold (lanesOf act) 0

/-- Some lane that is read stands outside a path. -/
theorem outside_ne_zero_iff (reads mask : LaneMask) :
    reads &&& ~~~mask ≠ 0 ↔ ∃ k, k < 32 ∧ reads.getLsbD k = true ∧ mask.getLsbD k = false := by
  rw [laneMask_ne_zero_iff]
  refine exists_congr fun k => and_congr_right fun hk => ?_
  simp [hk]

theorem readLanes_outside_iff (act mask : LaneMask) {src : Nat → Nat} (hsrc : ∀ l, l < 32 → src l < 32) :
    readLanes act src &&& ~~~mask ≠ 0 ↔ ∃ l, l < 32 ∧ act.getLsbD l = true ∧ mask.getLsbD (src l) = false := by
  rw [outside_ne_zero_iff]
  constructor
  · rintro ⟨k, hk, hread, hout⟩
    obtain ⟨l, hl, rfl⟩ := (getLsbD_readLanes act src hk).1 hread
    obtain ⟨hl, hact⟩ := mem_lanesOf.1 hl
    exact ⟨l, hl, hact, hout⟩
  · rintro ⟨l, hl, hact, hout⟩
    exact ⟨src l, hsrc l hl, (getLsbD_readLanes act src (hsrc l hl)).2 ⟨l, mem_lanesOf.2 ⟨hl, hact⟩, rfl⟩, hout⟩

end reads

/-! ### The lanes they name (R246, R247) -/

theorem alignDown_eq (l n : Nat) : alignDown l n = l - l % n := Nat.div_mul_self_eq_mod_sub_self

theorem qswapLane_lt (q : QSwap) {l : Nat} (hl : l < 32) : qswapLane q l < 32 := by
  refine Nat.xor_lt_two_pow (n := 5) hl ?_
  cases q <;> decide

/-- A lane of a segment is one of the 32. -/
theorem segment_lt {l x r : Nat} (hl : l < 32) (hx : x ≤ 5) (hr : r < 2 ^ x) : l - l % 2 ^ x + r < 32 := by
  interval_cases x <;> omega

theorem lxchLane_lt (v : LXch) {x b l : Nat} (hl : l < 32) (hx : x ≤ 5) : lxchLane v x b l < 32 := by
  have hpos : 0 < 2 ^ x := by positivity
  unfold lxchLane
  dsimp only
  rw [alignDown_eq]
  refine segment_lt hl hx ?_
  cases v with
  | pick => exact Nat.mod_lt _ hpos
  | rot => exact Nat.mod_lt _ hpos
  | refl =>
    have hz : (0 : Int) < 2 ^ x := by positivity
    have h1 := Int.emod_nonneg ((b : Int) - (l % 2 ^ x : Nat)) hz.ne'
    have h2 := Int.emod_lt_of_pos ((b : Int) - (l % 2 ^ x : Nat)) hz
    push_cast at h1 h2 ⊢
    zify
    rw [Int.toNat_of_nonneg h1]
    exact h2
  | flip => exact Nat.xor_lt_two_pow (Nat.mod_lt _ hpos) (Nat.mod_lt _ hpos)

/-! ### The instructions -/

theorem Ctx.getLsbD_real (c : Ctx) (g : Guard) (l : Nat) : (c.real g).getLsbD l = true ↔
    (c.act g).getLsbD l = true ∧ c.w.present.getLsbD l = true := by
  rw [Ctx.real, BitVec.getLsbD_and, Bool.and_eq_true]

section crossMove
variable {s t : State} {c : Ctx} {o : Alu}

/-- In canonical mode, with more than one unparked path, a present acting lane reads a lane outside the path (R245). -/
def Ctx.ReadsOutside (c : Ctx) (o : Alu) (src : Nat → Nat) : Prop :=
  c.la.det = 3 ∧ 1 < c.w.unparked ∧ c.Owns o.a
    ∧ ∃ l, l < 32 ∧ (c.act o.g).getLsbD l = true ∧ c.w.present.getLsbD l = true ∧ c.p.mask.getLsbD (src l) = false

/-- A move of the issuing path answers with the trap of canonical mode, or completes with each lane's value of the lane it names. -/
def MovesLanes (s t : State) (c : Ctx) (o : Alu) (answer : Answer) (src : Nat → Nat) : Prop :=
  (c.ReadsOutside o src → answer = .next (s.takeTrap c.wid c.pidx ⟨0x62, 0, 0, c.act o.g⟩ (unitOf c.p c.pre)))
  ∧ (¬c.ReadsOutside o src → ∃ r, answer = .next (t.vectorDone c o.g o.d o.fmt r)
      ∧ ∀ l, l < 32 → (c.Owns o.a → ¬c.Holds (src l) → r l = 0) ∧ (¬c.Owns o.a ∨ c.Holds (src l) → r l = c.vec o.fmt o.a (src l)))

theorem LaneReady.crossMove_movesLanes {from' : Nat → Nat → Nat} {src : Nat → Nat}
    (h : LaneReady s c o.g o.d o.fmt [(.vec o.fmt, o.a), (.vec .i32, o.b)] t)
    (hfrom : ∀ l, from' (c.vec .i32 o.b l).toNat l = src l) (hsrc : ∀ l, l < 32 → src l < 32) :
    MovesLanes s t c o (crossMove s o from') src := by
  have hlanes : (fun l => from' (atLane (readVec c.w c.p .i32 o.b) l).toNat l) = src := funext hfrom
  have hrefused : c.la.det = 3 ∧ 1 < c.w.unparked ∧ laneOwned c.p o.a = true ∧ readLanes (c.real o.g) src &&& ~~~c.p.mask ≠ 0
      ↔ c.ReadsOutside o src := by
    simp only [Ctx.ReadsOutside, laneOwned_iff, readLanes_outside_iff _ _ hsrc, Ctx.getLsbD_real, and_assoc]
  refine ⟨fun hbad => run_trap h.issues ?_, fun hok => ⟨fun l => crossLane c o.fmt o.a (src l), run_ok h.issues ?_,
    fun l _ => ⟨crossLane_absent, crossLane_held⟩⟩⟩
  · simp only [bind, Except.bind, h.checks, hlanes, checkOrder, if_pos (hrefused.2 hbad), raise]
  · simp only [bind, Except.bind, h.checks, hlanes, checkOrder, if_neg (mt hrefused.1 hok), h.compare]
    rw [← hlanes]
    rfl

theorem LaneReady.execQswap_movesLanes (h : LaneReady s c o.g o.d o.fmt [(.vec o.fmt, o.a), (.vec .i32, o.b)] t) (q : QSwap) :
    MovesLanes s t c o (execQswap q o s) (qswapLane q) := h.crossMove_movesLanes (fun _ => rfl) fun _ => qswapLane_lt q

theorem LaneReady.execLxch_movesLanes (h : LaneReady s c o.g o.d o.fmt [(.vec o.fmt, o.a), (.vec .i32, o.b)] t) (v : LXch) {x : Nat}
    (hx : x ≤ 5) : MovesLanes s t c o (execLxch v x o s) fun l => lxchLane v x (c.vec .i32 o.b l).toNat l :=
  h.crossMove_movesLanes (fun _ => rfl) fun _ hl => lxchLane_lt v hl hx

end crossMove

/-- The lowest lane of a mask. -/
theorem lanesOf_headD {m : LaneMask} {k : Nat} (hk : m.getLsbD k = true) (hlow : ∀ j, j < k → m.getLsbD j = false) :
    (lanesOf m).headD 0 = k := by
  have hfind : (List.range 32).find? m.getLsbD = some k :=
    List.find?_range_eq_some.2 ⟨hk, List.mem_range.2 (BitVec.lt_of_getLsbD hk), fun j hj => by simp [hlow j hj]⟩
  rw [List.headD_eq_head?_getD, lanesOf, List.head?_filter, laneIndices, hfind, Option.getD_some]

section lbcast
variable {s t : State} {c : Ctx} {o : Alu} {first : Bool} {k : Nat} (h : LaneReady s c o.g o.d o.fmt [(.vec o.fmt, o.a)] t)
include h

theorem LaneReady.exec_lbcast (hk : (if first then (lanesOf (c.act o.g)).headD 0 else (readSca c.w c.p o.b).toNat % 32) = k) (h32 : k < 32) :
    let refused : Prop := c.la.det = 3 ∧ 1 < c.w.unparked ∧ c.Owns o.a ∧ c.act o.g &&& c.w.present ≠ 0 ∧ c.p.mask.getLsbD k = false
    let r := broadcastResult c o (c.act o.g) (crossLane c o.fmt o.a k)
    (refused → exec (.lbcast first o) s = .next (s.takeTrap c.wid c.pidx ⟨0x62, 0, 0, c.act o.g⟩ (unitOf c.p c.pre)))
    ∧ (¬refused → exec (.lbcast first o) s = .next (t.complete c r.1 r.2)) := by
  intro refused r
  have hreads : (if c.real o.g = 0 then 0 else maskOf (· == k)) &&& ~~~c.p.mask ≠ 0 ↔
      c.act o.g &&& c.w.present ≠ 0 ∧ c.p.mask.getLsbD k = false := by
    change _ ↔ c.real o.g ≠ 0 ∧ _
    by_cases hr : c.real o.g = 0
    · simp [hr]
    · rw [if_neg hr, outside_ne_zero_iff]
      refine ⟨?_, fun ⟨_, hout⟩ => ⟨k, h32, by simp [getLsbD_maskOf _ h32], hout⟩⟩
      rintro ⟨j, hj, hread, hout⟩
      rw [getLsbD_maskOf _ hj, beq_iff_eq] at hread
      exact ⟨hr, hread ▸ hout⟩
  have hrefused : c.la.det = 3 ∧ 1 < c.w.unparked ∧ laneOwned c.p o.a = true
      ∧ (if c.real o.g = 0 then 0 else maskOf (· == k)) &&& ~~~c.p.mask ≠ 0 ↔ refused := by
    rw [laneOwned_iff, hreads]
  refine ⟨fun hbad => run_trap h.issues ?_, fun hok => run_ok h.issues ?_⟩
  · simp only [bind, Except.bind, h.checks, hk, checkOrder, if_pos (hrefused.2 hbad), raise]
  · simp only [bind, Except.bind, h.checks, hk, checkOrder, if_neg (mt hrefused.1 hok), h.compare]
    rfl

end lbcast

/-- Settles O26: the lane each move names is one of the 32, and what it holds is read across. -/
theorem laneMoves : Obligations.LaneMoves := by
  unfold Obligations.LaneMoves
  refine ⟨fun s t c o h => ?moves, fun s t c o first k h hk => ?lbcast⟩
  case moves =>
    intro own held b moves
    change MovesLanes s t c o (execQswap .h o s) _ ∧ MovesLanes s t c o (execQswap .v o s) _ ∧ MovesLanes s t c o (execQswap .d o s) _
      ∧ (∀ k, k < 4 → MovesLanes s t c o (execQbcast k o s) _)
      ∧ ∀ x, 1 ≤ x → x ≤ 5 → MovesLanes s t c o (execLxch .pick x o s) _ ∧ MovesLanes s t c o (execLxch .rot x o s) _
        ∧ MovesLanes s t c o (execLxch .refl x o s) _ ∧ MovesLanes s t c o (execLxch .flip x o s) _
    refine ⟨h.execQswap_movesLanes .h, h.execQswap_movesLanes .v, h.execQswap_movesLanes .d,
      fun k hk => h.crossMove_movesLanes (fun l => by rw [alignDown, Nat.mul_comm]) (by omega), fun x _ hx => ?_⟩
    have hlxch (v : LXch) := h.execLxch_movesLanes v hx
    simp only [lxchLane, alignDown_eq] at hlxch
    exact ⟨hlxch .pick, hlxch .rot, hlxch .refl, hlxch .flip⟩
  case lbcast =>
    intro own held refused
    have hlane : (if first then (lanesOf (c.act o.g)).headD 0 else (readSca c.w c.p o.b).toNat % 32) = k ∧ k < 32 := by
      cases first with
      | true => exact ⟨lanesOf_headD hk.1 hk.2, BitVec.lt_of_getLsbD hk.1⟩
      | false => exact ⟨hk.symm, hk ▸ Nat.mod_lt _ (by decide)⟩
    obtain ⟨hbad, hok⟩ := h.exec_lbcast hlane.1 hlane.2
    refine ⟨hbad, fun hno => ⟨crossLane c o.fmt o.a k, crossLane_absent, crossLane_held, fun hd => ?_, fun hd => ?_⟩⟩
    · rw [hok hno, broadcastResult, if_neg hd]
      rfl
    · rw [hok hno, broadcastResult, if_pos hd, laneScalar]
      simp only [Bool.or_eq_true]
      rfl

end Sys2Proof.Machine
end

section
/-! Vector instructions that round and set flags (spec/09 R231): what one whose operands pass completes with. -/
namespace Sys2Proof.Machine

section ready
variable {s u t : State} {c : Ctx} {o : Alu} {m : RMode} {n : Nat}

/-- Completion reads the values and flags of the lanes only. -/
theorem State.floatDone_congr (t : State) (c : Ctx) (g : Guard) (d : Dst) (f : Fmt) (m : RMode) {x y : Nat → Word} {fl fl' : Nat → BitVec 5}
    (hx : ∀ l, l < 32 → x l = y l) (hfl : ∀ l, l < 32 → fl l = fl' l) : t.floatDone c g d f m x fl = t.floatDone c g d f m y fl' := by
  have hflags (w : Warp) := w.orFlags_congr (c.act g) fun l hl => hfl l (BitVec.lt_of_getLsbD hl)
  rw [State.floatDone, State.floatDone, vectorResult_congr c.w (c.act g) d f fun l hl => hx l (BitVec.lt_of_getLsbD hl), hflags]

theorem RoundReady.laneWise_eq {df fa fb fc : Fmt} (h : RoundReady s c o.g o.d df (o.vecSrcs fa fb fc) m u n t)
    (f : Ctx → Nat → Nat → Word → Word → Word → Word × BitVec 5) : laneWise s o df fa fb fc m f =
      .next (t.floatDone c o.g o.d df m (fun l => (f c n l (c.vec fa o.a l) (c.vec fb o.b l) (c.vec fc o.c l)).1)
        fun l => (f c n l (c.vec fa o.a l) (c.vec fb o.b l) (c.vec fc o.c l)).2) := by
  have hc := h.checks
  rw [Alu.vecSrcs] at hc
  refine run_ok h.issues ?_
  simp only [bind, Except.bind, hc, h.count, h.compare]
  have hlane (l : Nat) (hl : l < 32) := nth_laneIndices_map
    (fun l => f c n l (c.vec fa o.a l) (c.vec fb o.b l) (c.vec fc o.c l)) (0, 0) hl
  rw [← t.floatDone_congr c o.g o.d df m (fun l hl => congrArg Prod.fst (hlane l hl)) fun l hl => congrArg Prod.snd (hlane l hl)]
  rfl

/-- One that rounds, element by element, the result of an operation on the values of its sources. -/
theorem RoundReady.floatVec_eq (h : RoundReady s c o.g o.d o.fmt (o.vecSrcs o.fmt o.fmt o.fmt) m u n t)
    (op : FVal → FVal → FVal → Real' × BitVec 5) :
    let v (x : Src) (l j : Nat) : FVal := (fspec o.fmt).input c.la.flush (element o.fmt (c.vec o.fmt x l) j)
    let r (l j : Nat) : Nat × BitVec 5 := (fspec o.fmt).roundWith (c.rounding m n l j) (op (v o.a l j) (v o.b l j) (v o.c l j))
    floatVec s o m op = .next (t.floatDone c o.g o.d o.fmt m (fun l => ofElements o.fmt fun j => (r l j).1)
      fun l => (List.range (elemCount o.fmt)).foldl (fun fl j => fl ||| (r l j).2) 0) := h.laneWise_eq _

end ready

end Sys2Proof.Machine
end

section
/-! The exact results of the operations on finite operands (spec/09 R232, R242): rational numbers, and no flag. -/
namespace Sys2Proof.Machine

/-! ### Values -/

/-- A magnitude with its sign. -/
def signedValue (neg : Bool) (x : ℚ) : ℚ := if neg then -x else x

theorem signedValue_eq_sign_mul (neg : Bool) (x : ℚ) : signedValue neg x = (if neg then -1 else 1) * x := by
  cases neg <;> simp [signedValue]

/-- The value of a finite operand. -/
def FVal.value : FVal → ℚ
  | .fin neg m e => signedValue neg (m * (2 : ℚ) ^ e)
  | _ => 0

/-- The value of an exact result, where it is a rational number. -/
def Real'.value : Real' → Option ℚ
  | .zero _ => some 0
  | .val neg (.rat n d e) => some (signedValue neg (n / d * (2 : ℚ) ^ e))
  | _ => none

section kinds
variable (neg : Bool) (m : Nat) (e : Int)

@[simp] theorem FVal.isNan_inf : (FVal.inf neg).isNan = false := rfl
@[simp] theorem FVal.isNan_fin : (FVal.fin neg m e).isNan = false := rfl
@[simp] theorem FVal.isSnan_inf : (FVal.inf neg).isSnan = false := rfl
@[simp] theorem FVal.isSnan_fin : (FVal.fin neg m e).isSnan = false := rfl
@[simp] theorem FVal.isInf_inf : (FVal.inf neg).isInf = true := rfl
@[simp] theorem FVal.isInf_fin : (FVal.fin neg m e).isInf = false := rfl
@[simp] theorem FVal.isZero_inf : (FVal.inf neg).isZero = false := rfl
@[simp] theorem FVal.isZero_fin_zero : (FVal.fin neg 0 e).isZero = true := rfl

theorem FVal.isZero_fin_iff : (FVal.fin neg m e).isZero = true ↔ m = 0 := by
  cases m with
  | zero => exact iff_of_true rfl rfl
  | succ m => exact iff_of_false Bool.false_ne_true m.succ_ne_zero

end kinds

/-- An operand that is neither NaN nor infinite. -/
def FVal.Finite (x : FVal) : Prop := x.isNan = false ∧ x.isInf = false

/-- A result is a rational number, with no flag. -/
def IsExactly (r : Real' × BitVec 5) (q : ℚ) : Prop := r.1.value = some q ∧ r.2 = 0

/-- The value of a dyadic number. -/
def Dyadic.value (x : Dyadic) : ℚ := x.n * (2 : ℚ) ^ x.e

theorem FVal.Finite.eq_fin {x : FVal} (h : x.Finite) : ∃ neg m e, x = .fin neg m e := by
  obtain ⟨hnan, hinf⟩ := h
  cases x with
  | nan => cases hnan
  | inf => cases hinf
  | fin neg m e => exact ⟨neg, m, e, rfl⟩

theorem FVal.Finite.not_snan {x : FVal} (h : x.Finite) : x.isSnan = false := by
  obtain ⟨neg, m, e, rfl⟩ := h.eq_fin
  rfl

/-! ### Dyadic numbers -/

/-- A number of grid steps counted in smaller ones. -/
theorem finer_steps (n : Int) {k e : Int} (h : k ≤ e) : ((n * 2 ^ (e - k).toNat : Int) : ℚ) * (2 : ℚ) ^ k = n * (2 : ℚ) ^ e := by
  have he : (2 : ℚ) ^ e = 2 ^ (e - k).toNat * 2 ^ k := by
    rw [← zpow_natCast, ← zpow_add₀ two_ne_zero]
    congr 1
    omega
  push_cast
  rw [he, mul_assoc]

section dyadic
variable (x y : Dyadic)

theorem Dyadic.value_ofParts (neg : Bool) (m : Nat) (e : Int) : (Dyadic.ofParts neg m e).value = signedValue neg (m * (2 : ℚ) ^ e) := by
  cases neg <;> simp [Dyadic.ofParts, Dyadic.value, signedValue]

theorem Dyadic.value_mul : (x.mul y).value = x.value * y.value := by
  simp only [Dyadic.mul, Dyadic.value, zpow_add₀ (two_ne_zero (α := ℚ))]
  push_cast
  ring

theorem Dyadic.value_add (mode : RMode) : (x.add mode y).value = x.value + y.value := by
  simp only [Dyadic.add, Dyadic.value]
  rw [Int.cast_add, add_mul, finer_steps _ (min_le_left ..), finer_steps _ (min_le_right ..)]

theorem Dyadic.value_real : x.real.value = some x.value := by
  unfold Dyadic.real Dyadic.value
  by_cases h0 : x.n = 0
  · simp [h0, Real'.value]
  · rw [if_neg h0]
    rcases lt_or_gt_of_ne h0 with h | h
    · simp [Real'.value, signedValue, h, abs_of_neg (Int.cast_lt_zero.2 h : (x.n : ℚ) < 0)]
    · simp [Real'.value, signedValue, h.le, abs_of_pos (Int.cast_pos.2 h : (0 : ℚ) < x.n)]

end dyadic

/-! ### Terms of a sum -/

section terms
variable {a b c d g : FVal} (mode : RMode)

/-- A finite term with a value. -/
def Term.Is (t : Term) (q : ℚ) : Prop := ∃ x : Dyadic, t = .num x ∧ x.value = q

theorem FVal.Finite.term_is (h : a.Finite) : a.term.Is a.value := by
  obtain ⟨neg, m, e, rfl⟩ := h.eq_fin
  exact ⟨_, rfl, Dyadic.value_ofParts ..⟩

theorem Term.Is.negate {t : Term} {q : ℚ} (h : t.Is q) : t.negate.Is (-q) := by
  obtain ⟨x, rfl, rfl⟩ := h
  exact ⟨_, rfl, by simp [Dyadic.value]⟩

theorem FVal.Finite.mulTerm_is (ha : a.Finite) (hb : b.Finite) : (a.mulTerm b).1.Is (a.value * b.value) ∧ (a.mulTerm b).2 = 0 := by
  obtain ⟨neg, m, e, rfl⟩ := ha.eq_fin
  obtain ⟨neg', m', e', rfl⟩ := hb.eq_fin
  refine ⟨⟨_, rfl, ?_⟩, rfl⟩
  rw [Dyadic.value_mul, Dyadic.value_ofParts, Dyadic.value_ofParts]
  rfl

theorem Term.Is.add {t t' : Term} {q q' : ℚ} (h : t.Is q) (h' : t'.Is q') : (t.add mode t').1.Is (q + q') ∧ (t.add mode t').2 = 0 := by
  obtain ⟨x, rfl, rfl⟩ := h
  obtain ⟨y, rfl, rfl⟩ := h'
  exact ⟨⟨_, rfl, x.value_add y mode⟩, rfl⟩

theorem Term.Is.real {t : Term} {q : ℚ} (h : t.Is q) : t.real.value = some q := by
  obtain ⟨x, rfl, rfl⟩ := h
  exact x.value_real

theorem snanFlag_of_finite {xs : List FVal} (h : ∀ x ∈ xs, x.Finite) : snanFlag xs = 0 := by
  refine if_neg ?_
  simp only [List.any_eq_true, not_exists, not_and]
  exact fun x hx => by simp [(h x hx).not_snan]

/-! ### The operations -/

theorem realAdd_exact (ha : a.Finite) (hb : b.Finite) : IsExactly (realAdd mode a b) (a.value + b.value) := by
  obtain ⟨hsum, hflag⟩ := ha.term_is.add mode hb.term_is
  exact ⟨hsum.real, by simp [realAdd, hflag, snanFlag_of_finite, ha, hb]⟩

theorem realSub_exact (ha : a.Finite) (hb : b.Finite) : IsExactly (realSub mode a b) (a.value - b.value) := by
  obtain ⟨hsum, hflag⟩ := ha.term_is.add mode hb.term_is.negate
  rw [sub_eq_add_neg]
  exact ⟨hsum.real, by simp [realSub, hflag, snanFlag_of_finite, ha, hb]⟩

theorem realMul_exact (ha : a.Finite) (hb : b.Finite) : IsExactly (realMul a b) (a.value * b.value) := by
  obtain ⟨hprod, hflag⟩ := ha.mulTerm_is hb
  exact ⟨hprod.real, by simp [realMul, hflag, snanFlag_of_finite, ha, hb]⟩

theorem realFma_exact (ha : a.Finite) (hb : b.Finite) (hc : c.Finite) : IsExactly (realFma mode a b c) (a.value * b.value + c.value) := by
  obtain ⟨hprod, hflag⟩ := ha.mulTerm_is hb
  obtain ⟨hsum, hflag'⟩ := hprod.add mode hc.term_is
  exact ⟨hsum.real, by simp [realFma, hflag, hflag', snanFlag_of_finite, ha, hb, hc, ha.2, hb.2]⟩

theorem realDot2_exact (ha : a.Finite) (hb : b.Finite) (hc : c.Finite) (hd : d.Finite) (hg : g.Finite) :
    IsExactly (realDot2 mode a b c d g) (a.value * b.value + c.value * d.value + g.value) := by
  obtain ⟨hprod, hflag⟩ := ha.mulTerm_is hb
  obtain ⟨hprod', hflag'⟩ := hc.mulTerm_is hd
  obtain ⟨hpair, hflag2⟩ := hprod.add mode hprod'
  obtain ⟨hsum, hflag3⟩ := hpair.add mode hg.term_is
  exact ⟨hsum.real, by simp [realDot2, hflag, hflag', hflag2, hflag3, snanFlag_of_finite, ha, hb, hc, hd, hg]⟩

theorem signedValue_div (neg neg' : Bool) (x y : ℚ) : signedValue (neg != neg') (x / y) = signedValue neg x / signedValue neg' y := by
  cases neg <;> cases neg' <;> simp [signedValue, neg_div, div_neg]

theorem realDiv_exact (ha : a.Finite) (hb : b.Finite) (h0 : b.isZero = false) : IsExactly (realDiv a b) (a.value / b.value) := by
  obtain ⟨neg, m, e, rfl⟩ := ha.eq_fin
  obtain ⟨neg', n, e', rfl⟩ := hb.eq_fin
  have hn : n ≠ 0 := by
    rintro rfl
    cases h0
  rw [FVal.value, FVal.value, ← signedValue_div]
  by_cases hm : m = 0
  · exact ⟨by simp [realDiv, hn, hm, Real'.value, signedValue], by simp [realDiv, hn, hm]⟩
  · refine ⟨?_, by simp [realDiv, hn, hm]⟩
    simp [realDiv, hn, hm, Real'.value, zpow_sub₀ (two_ne_zero (α := ℚ)), mul_div_mul_comm]

theorem realScale_exact (ha : a.Finite) {k : Int} (hlo : -5000 ≤ k) (hhi : k ≤ 5000) : IsExactly (realScale a k) (a.value * (2 : ℚ) ^ k) := by
  obtain ⟨neg, m, e, rfl⟩ := ha.eq_fin
  have hk : (if k < -5000 then -5000 else if 5000 < k then 5000 else k) = k := by
    rw [if_neg hlo.not_gt, if_neg hhi.not_gt]
  by_cases hm : m = 0
  · exact ⟨by simp [realScale, hm, Real'.value, FVal.value, signedValue], by simp [realScale, hm]⟩
  · refine ⟨?_, by simp [realScale, hm]⟩
    simp only [realScale, if_neg hm, hk, Real'.value, FVal.value, signedValue_eq_sign_mul, zpow_add₀ (two_ne_zero (α := ℚ)),
      Nat.cast_one, div_one, mul_assoc]

theorem realSqrt_exact (ha : a.Finite) (h0 : 0 < a.value) :
    ∃ (n : Nat) (e : Int), realSqrt a = (.val false (.sqrt n e), 0) ∧ (n : ℚ) * (2 : ℚ) ^ e = a.value := by
  obtain ⟨neg, m, e, rfl⟩ := ha.eq_fin
  have hmag : (0 : ℚ) ≤ m * (2 : ℚ) ^ e := by positivity
  cases neg with
  | true => exact absurd h0 (not_lt.2 (neg_nonpos.2 hmag))
  | false =>
    have hm : m ≠ 0 := by
      rintro rfl
      simp [FVal.value, signedValue] at h0
    exact ⟨m, e, by simp [realSqrt, hm], rfl⟩

end terms

end Sys2Proof.Machine
end

section
/-! Float arithmetic (spec/09 R231 to R233, R242): the operands R233 lists, and the instructions. -/
namespace Sys2Proof.Machine

/-! ### Special operands (R219, R233) -/

section special
variable (m : RMode) (n : Bool) (b c : FVal) (k e : Nat) (q r : Int)

theorem FVal.eq_zero_of_isZero {b : FVal} (h : b.isZero = true) : ∃ neg g, b = .fin neg 0 g := by
  unfold FVal.isZero at h
  split at h
  · exact ⟨_, _, rfl⟩
  · cases h

theorem realAdd_opposite_zeros : realAdd m (.fin n 0 q) (.fin (!n) 0 r) = (.zero (decide (m = .rd)), 0) := by
  cases n <;> cases m <;> simp [realAdd, FVal.term, Term.add, Term.real, Dyadic.ofParts, Dyadic.add, Dyadic.real, snanFlag]

theorem realAdd_opposite_infinities : realAdd m (.inf n) (.inf !n) = (.nan, fNv) := by cases n <;> rfl

theorem realSub_equal_infinities : realSub m (.inf n) (.inf n) = (.nan, fNv) := by cases n <;> rfl

theorem realMul_infinity_zero {b : FVal} (h : b.isZero = true) : realMul (.inf n) b = (.nan, fNv) ∧ realMul b (.inf n) = (.nan, fNv) := by
  obtain ⟨neg, g, rfl⟩ := FVal.eq_zero_of_isZero h
  constructor <;> simp [realMul, FVal.mulTerm, Term.real, snanFlag]

/-- Zero times infinity is invalid whatever is added to it. -/
theorem realFma_infinity_zero {b c : FVal} (h : b.isZero = true) (hc : c.isSnan = false) :
    realFma m (.inf n) b c = (.nan, fNv) ∧ realFma m b (.inf n) c = (.nan, fNv) := by
  obtain ⟨neg, g, rfl⟩ := FVal.eq_zero_of_isZero h
  constructor <;>
    simp [realFma, FVal.mulTerm, Term.add, Term.real, snanFlag, hc]

theorem realDiv_zero_divisor (hk : 0 < k) : realDiv (.fin n k q) (.fin b.neg 0 r) = (.inf (n != b.neg), fDz) := by
  simp [realDiv, hk.ne']

theorem realSqrt_negative (hk : 0 < k) : realSqrt (.fin true k q) = (.nan, fNv) := by simp [realSqrt, hk.ne']

theorem realLog2_negative (hk : 0 < k) : realLog2 (.fin true k q) = (.nan, fNv) := by simp [realLog2, hk.ne']

theorem realLog2_one : realLog2 (.fin false (2 ^ e) (-e)) = (.zero false, 0) := by simp [realLog2, Dyadic.real]

end special

/-- Settles O22: the instructions round what the operations give; on finite operands that is exact, and each special operand has its result. -/
theorem floatResults : Obligations.FloatResults := by
  unfold Obligations.FloatResults
  refine ⟨⟨fun s u t c o m n h => ?arithmetic, fun s u t c o m n h => ?fscale, fun s u t c o m k n h => ?fdot2⟩, ?exact, ?special⟩
  case arithmetic =>
    intro f v done
    change execFadd m o s = _ ∧ execFsub m o s = _ ∧ execFmul m o s = _ ∧ execFfma m o s = _ ∧ execFsqrt m o s = _ ∧ execFdiv m o s = _
      ∧ execFexp2 m o s = _ ∧ execFlog2 m o s = _
    exact ⟨h.floatVec_eq _, h.floatVec_eq _, h.floatVec_eq _, h.floatVec_eq _, h.floatVec_eq _, h.floatVec_eq _, h.floatVec_eq _,
      h.floatVec_eq _⟩
  case fscale =>
    intro f v x y
    change execFscale m o s = _
    exact h.laneWise_eq _
  case fdot2 =>
    intro e x y
    change execFdot2 m k o s = _
    exact h.laneWise_eq _
  case exact =>
    intro m a b c d g ha hb hc hd hg
    obtain ⟨hadd, hadd'⟩ := realAdd_exact m ha hb
    obtain ⟨hsub, hsub'⟩ := realSub_exact m ha hb
    obtain ⟨hmul, hmul'⟩ := realMul_exact ha hb
    obtain ⟨hfma, hfma'⟩ := realFma_exact m ha hb hc
    obtain ⟨hdot, hdot'⟩ := realDot2_exact m ha hb hc hd hg
    exact ⟨hadd, hadd', hsub, hsub', hmul, hmul', hfma, hfma', hdot, hdot', realDiv_exact ha hb, fun _ => realScale_exact ha, realSqrt_exact ha⟩
  case special =>
    exact fun m n b c k e q r => ⟨realAdd_opposite_zeros m n q r, realAdd_opposite_infinities m n, realSub_equal_infinities m n,
      fun hb => ⟨(realMul_infinity_zero n hb).1, (realMul_infinity_zero n hb).2, realFma_infinity_zero m n hb⟩, rfl, rfl,
      fun hk => ⟨realDiv_zero_divisor n b k q r hk, realSqrt_negative k q hk, realLog2_negative k q hk⟩, rfl, rfl, rfl, rfl, rfl, rfl, rfl, rfl,
      realLog2_one e, rfl, rfl⟩

end Sys2Proof.Machine
end

section
/-! Conversions (spec/09 R239 to R241, spec/08 R223): one element converted and placed, and integers limited to their range. -/
namespace Sys2Proof.Machine

theorem snanFlag_single (x : FVal) : snanFlag [x] = if x.isSnan then fNv else 0 := by simp [snanFlag]

/-! ### Limits of an integer (R223) -/

theorem toInteger_of_fin (r : Rounding) (w : Nat) (uns neg : Bool) (k : Nat) (e : Int) :
    let q := roundInt r neg k e
    let z : Int := if neg then -(q.1 : Int) else q.1
    toInteger r w uns (.fin neg k e) = if z < leastInt w uns then ((leastInt w uns % 2 ^ w).toNat, fNv)
      else if greatestInt w uns < z then ((greatestInt w uns % 2 ^ w).toNat, fNv) else ((z % 2 ^ w).toNat, if q.2 then 0 else fNx) := rfl

/-- A rounded number is limited to the integers of w bits: invalid outside them, inexact where it was no integer. -/
theorem toInteger_limits (r : Rounding) (w : Nat) (uns neg : Bool) (k : Nat) (e : Int) :
    let q := roundInt r neg k e
    let z : Int := if neg then -(q.1 : Int) else q.1
    (z < leastInt w uns → toInteger r w uns (.fin neg k e) = ((leastInt w uns % 2 ^ w).toNat, fNv))
    ∧ (greatestInt w uns < z → toInteger r w uns (.fin neg k e) = ((greatestInt w uns % 2 ^ w).toNat, fNv))
    ∧ (leastInt w uns ≤ z → z ≤ greatestInt w uns → toInteger r w uns (.fin neg k e) = ((z % 2 ^ w).toNat, if q.2 then 0 else fNx)) := by
  intro q z
  have hrange := leastInt_le_greatestInt uns w
  rw [toInteger_of_fin]
  exact ⟨fun h => if_pos h, fun h => by rw [if_neg (hrange.trans h.le).not_gt, if_pos h],
    fun hlo hhi => by rw [if_neg hlo.not_gt, if_neg hhi.not_gt]⟩

/-! ### A scale (R241) -/

section scaled
variable (f : FSpec) (m : RMode) (rb : Nat) (x : FVal) {scale : Nat}

theorem decodeScaled_of_scale (h : scale ≠ 255) : decodeScaled f m rb x scale =
    let y := f.round ⟨m, rb, false, false⟩ (realScale x (scale - 127)).1
    (y.1, y.2 ||| if x.isSnan then fNv else 0) := by
  rw [decodeScaled, if_neg h, ← snanFlag_single]
  rfl

theorem encodeScaled_of_scale (h : scale ≠ 255) : encodeScaled f m rb x scale =
    match x, f.inf with
    | .inf neg, some i => (f.signed neg i, 0)
    | d, _ =>
      let y := f.round ⟨m, rb, true, false⟩ (realScale d (127 - scale)).1
      (y.1, y.2 ||| if x.isSnan then fNv else 0) := by
  unfold encodeScaled
  rw [if_neg h, ← snanFlag_single]
  cases x <;> cases f.inf <;> rfl

theorem scaled_nan (b : Nat) : (if b ≤ 8 then encodeScaled f m rb x 255 else decodeScaled f m rb x 255) =
    (f.nanCode, if 8 < b then 0 else (if f.nan.isNone then fNv else 0) ||| if x.isSnan then fNv else 0) := by
  unfold encodeScaled decodeScaled
  rw [if_pos rfl, if_pos rfl, snanFlag_single]
  by_cases h : b ≤ 8
  · rw [if_pos h, if_neg h.not_gt]
  · rw [if_neg h, if_pos (Nat.not_le.1 h)]

end scaled

/-! ### The instructions -/

/-- A conversion whose operands pass completes with each lane's element converted and placed. -/
theorem RoundReady.convert_eq {s u t : State} {c : Ctx} {o : Alu} {m : RMode} {n : Nat} {v : Cv}
    (h : RoundReady s c o.g o.d o.fmt (o.vecSrcs v.sf .i32 .i32) m u n t) {f : Nat → Word → Nat → Nat × BitVec 5} {r : Nat → Nat × BitVec 5}
    (hr : ∀ l, l < 32 → f (element v.sf (c.vec v.sf o.a l) v.js) (c.vec .i32 o.b l) (c.srBits n l v.jd) = r l) :
    convert s o v m f =
      .next (t.floatDone c o.g o.d o.fmt m (fun l => placeElement c.w o.d o.fmt v.jd l (r l).1) fun l => (r l).2) := by
  refine (h.laneWise_eq _).trans (congrArg _ (t.floatDone_congr c o.g o.d o.fmt m (fun l hl => ?_) fun l hl => ?_)) <;> simp only [hr l hl]

/-- Settles O25: each instruction's conversion of an element, `cvtbs` by its scale, and the limits of an integer. -/
theorem conversions : Obligations.Conversions := by
  unfold Obligations.Conversions
  intro s u t c o m v n h x random old placed done snan scale
  change execCvt m v o s = _ ∧ execCvtf m v o s = _ ∧ execCvti m v o s = _ ∧ execFrint m v o s = _ ∧ (_ → _ → execCvtbs m v o s = _)
    ∧ (_ → _ → execCvtbs m v o s = _) ∧ (_ → execCvtbs m v o s = _) ∧ _
  refine ⟨h.convert_eq fun l _ => ?_, h.convert_eq fun _ _ => rfl, h.convert_eq fun _ _ => rfl, h.convert_eq fun _ _ => rfl,
    fun hs hw => h.convert_eq fun l hl => ?_, fun hs hw => h.convert_eq fun l hl => ?_, fun hs => h.convert_eq fun l hl => ?_,
    fun r w uns y _ q neg k e hy hq => ?_⟩
  · simp only [snanFlag_single]
    rfl
  · dsimp only
    rw [if_neg hw.not_ge]
    exact decodeScaled_of_scale _ m _ _ (hs l hl)
  · dsimp only
    rw [if_pos hw]
    exact encodeScaled_of_scale _ m _ _ (hs l hl)
  · have hscale : (c.vec .i32 o.b l).toNat % 256 = 255 := hs l hl
    dsimp only
    rw [hscale]
    exact scaled_nan ..
  · subst hy hq
    exact toInteger_limits r w uns neg k e

end Sys2Proof.Machine
end

section
/-! Float compares, classes, signs and estimates (spec/09 R234 to R238). -/
namespace Sys2Proof.Machine

/-! ### The order of values (R234) -/

/-- The order of finite values, in which -0 comes before +0. -/
theorem FVal.lessEq_fin (neg neg' : Bool) (m n : Nat) (e g : Int) : (FVal.fin neg m e).lessEq (.fin neg' n g) = true ↔
    (FVal.fin neg m e).value < (FVal.fin neg' n g).value
      ∨ (FVal.fin neg m e).value = (FVal.fin neg' n g).value ∧ (m = 0 → neg = true ∨ neg' = false) := by
  have hpow : (0 : ℚ) < 2 ^ min e g := by positivity
  have hleft : (FVal.fin neg m e).value = _ := (Dyadic.value_ofParts neg m e).symm.trans (finer_steps _ (min_le_left e g)).symm
  have hright : (FVal.fin neg' n g).value = _ := (Dyadic.value_ofParts neg' n g).symm.trans (finer_steps _ (min_le_right e g)).symm
  rw [hleft, hright, mul_lt_mul_iff_left₀ hpow, mul_left_inj' hpow.ne', Int.cast_lt, Int.cast_inj]
  simp only [FVal.lessEq, Dyadic.ofParts, Bool.or_eq_true, Bool.and_eq_true, beq_iff_eq, bne_iff_ne, ne_eq,
    Bool.not_eq_true', or_assoc, imp_iff_not_or]
  exact or_congr_left decide_eq_true_iff

theorem FVal.lessEq_of_ends {a b : FVal} (ha : a.isNan = false) (hb : b.isNan = false) :
    (a = .inf true ∨ b = .inf false → a.lessEq b = true) ∧ (a = .inf false → b ≠ .inf false → a.lessEq b = false)
    ∧ (b = .inf true → a ≠ .inf true → a.lessEq b = false) := by
  refine ⟨?_, ?_, ?_⟩
  · rintro (rfl | rfl)
    · cases b with
      | nan => cases hb
      | inf => rfl
      | fin => rfl
    · cases a with
      | nan => cases ha
      | inf neg => cases neg <;> rfl
      | fin => rfl
  · rintro rfl hne
    cases b with
    | nan => cases hb
    | inf neg => cases neg <;> trivial
    | fin => rfl
  · rintro rfl hne
    cases a with
    | nan => cases ha
    | inf neg => cases neg <;> trivial
    | fin => rfl

/-! ### Flags of a pair -/

theorem FVal.isNan_of_isSnan {a : FVal} (h : a.isSnan = true) : a.isNan = true := by
  cases a with
  | nan => rfl
  | inf => cases h
  | fin => cases h

theorem snanFlag_pair (a b : FVal) : snanFlag [a, b] = if a.isSnan = true ∨ b.isSnan = true then fNv else 0 := by
  simp [snanFlag]

/-- Where a NaN is invalid, a signalling one adds nothing. -/
theorem loudFlag_pair (a b : FVal) : (if (a.isNan || b.isNan) = true then fNv else 0) =
    if a.isSnan = true ∨ b.isSnan = true ∨ (a.isNan || b.isNan) = true then fNv else 0 := by
  have hnan : a.isSnan = true ∨ b.isSnan = true → (a.isNan || b.isNan) = true := by
    rintro (h | h) <;> simp [FVal.isNan_of_isSnan h]
  congr 1
  rw [← or_assoc, or_iff_right_of_imp hnan]

/-! ### Results of an element -/

section element
variable (f : FSpec) (flush : Bool)

/-- The smaller or the larger of two operands, by whether the first comes before the second. -/
theorem choice_eq (le larger : Bool) (x y : FVal) :
    (if (le != larger) = true then x else y) = if le then (bif larger then y else x) else bif larger then x else y := by
  cases le <;> cases larger <;> rfl

theorem FSpec.pick_eq (larger : Bool) (a b : Nat) :
    let x := f.input flush a
    let y := f.input flush b
    f.pick larger flush a b = (if x.isNan = true ∧ y.isNan = true then f.nanCode
      else f.code (if x.isNan then y else if y.isNan then x else if x.lessEq y then (bif larger then y else x) else bif larger then x else y),
      if x.isSnan = true ∨ y.isSnan = true then fNv else 0) := by
  intro x y
  rw [← snanFlag_pair, ← choice_eq]
  refine Prod.ext ?_ rfl
  change (if (if x.isNan then y else if y.isNan then x else if x.lessEq y != larger then x else y).isNan then f.nanCode
    else f.code (if x.isNan then y else if y.isNan then x else if x.lessEq y != larger then x else y)) = _
  cases hx : x.isNan with
  | true => simp
  | false =>
    cases hy : y.isNan with
    | true => simp [hx]
    | false =>
      have hchosen : (if x.lessEq y != larger then x else y).isNan = false := by split <;> assumption
      simp only [Bool.false_eq_true, if_false, false_and, hchosen]

theorem FSpec.classOf_eq (bits : Nat) : f.classOf flush bits = match f.input flush bits with
    | .nan true => 256 | .nan false => 512 | .inf true => 1 | .inf false => 128 | .fin true 0 _ => 8 | .fin false 0 _ => 16
    | .fin neg _ _ => if f.subnormal bits then (if neg then 4 else 32) else if neg then 2 else 64 := by
  unfold FSpec.classOf
  cases f.input flush bits with
  | nan sig => cases sig <;> rfl
  | inf neg => cases neg <;> rfl
  | fin neg m e => cases m <;> cases neg <;> rfl

/-- A magnitude under a sign; a NaN gives the canonical one (R235). -/
theorem sign_cases (x : FVal) (neg : Bool) (bits : Nat) :
    (match x with
      | .nan sg => (f.nanCode, if sg then fNv else 0)
      | v => (f.signed neg (if v.isZero then 0 else bits), 0) : Nat × BitVec 5) =
    if x.isNan then (f.nanCode, if x.isSnan then fNv else 0) else (f.signed neg (if x.isZero then 0 else bits), 0) := by
  cases x <;> rfl

end element

/-- The condition of a compare, with its flags: a signalling NaN is invalid, and any NaN under an ordered condition. -/
theorem fcondHolds_eq (k : FCond) (a b : FVal) :
    let un : Bool := a.isNan || b.isNan
    let zeros : Bool := a.isZero && b.isZero
    let le : Bool := a.lessEq b || zeros
    let ge : Bool := b.lessEq a || zeros
    let holds : Bool := match k with
      | .eq => !un && le && ge | .ne => !(!un && le && ge) | .lt => !un && le && !ge | .le => !un && le
      | .gt => !un && ge && !le | .ge => !un && ge | .un => un
    let quiet : Bool := match k with | .eq => true | .ne => true | .un => true | _ => false
    fcondHolds k a b = (holds, if a.isSnan = true ∨ b.isSnan = true ∨ (un = true ∧ quiet = false) then fNv else 0) := by
  intro un zeros le ge holds quiet
  cases k
  case ne =>
    refine Prod.ext ?_ ?_
    · change (un || !(le && ge)) = !(!un && le && ge)
      rw [Bool.and_assoc, Bool.not_and (!un), Bool.not_not]
    · simp [quiet, fcondHolds, snanFlag_pair]
  case eq => simp [quiet, holds, fcondHolds, snanFlag_pair, un, le, ge, zeros]
  case un => simp [quiet, holds, fcondHolds, snanFlag_pair, un]
  all_goals
    refine Prod.ext rfl ((loudFlag_pair a b).trans ?_)
    simp [quiet, un]

/-! ### Compares, classes and signs (R234 to R236) -/

section ready
variable {s u t : State} {c : Ctx} {o : Alu} {n : Nat}

/-- One whose lanes are put together from their elements. -/
theorem RoundReady.joinElements_eq {m : RMode} (h : RoundReady s c o.g o.d o.fmt (o.vecSrcs o.fmt o.fmt o.fmt) m u n t)
    {f : Ctx → Nat → Nat → Word → Word → Word → Nat → Nat × BitVec 5} {r : Nat → Nat → Nat × BitVec 5}
    (hr : ∀ l j, f c n l (c.vec o.fmt o.a l) (c.vec o.fmt o.b l) (c.vec o.fmt o.c l) j = r l j) :
    laneWise s o o.fmt o.fmt o.fmt o.fmt m (fun c n l a b z => joinElements o.fmt (f c n l a b z)) =
      .next (t.floatDone c o.g o.d o.fmt m (fun l => ofElements o.fmt fun j => (r l j).1)
        fun l => (List.range (elemCount o.fmt)).foldl (fun fl j => fl ||| (r l j).2) 0) := by
  obtain rfl : (fun l j => f c n l (c.vec o.fmt o.a l) (c.vec o.fmt o.b l) (c.vec o.fmt o.c l) j) = r := funext₂ hr
  exact h.laneWise_eq _

/-- Element j of lane l of a source, as a float instruction reads it. -/
def Ctx.floatIn (c : Ctx) (f : Fmt) (x : Src) (l j : Nat) : FVal := (fspec f).input c.la.flush (element f (c.vec f x l) j)

theorem RoundReady.pickVec_eq (h : RoundReady s c o.g o.d o.fmt (o.vecSrcs o.fmt o.fmt o.fmt) .rne u n t) (larger : Bool) :
    let x := c.floatIn o.fmt o.a
    let y := c.floatIn o.fmt o.b
    let r (l j : Nat) : Nat × BitVec 5 := (if (x l j).isNan = true ∧ (y l j).isNan = true then (fspec o.fmt).nanCode
      else (fspec o.fmt).code (if (x l j).isNan then y l j else if (y l j).isNan then x l j
        else if (x l j).lessEq (y l j) then (bif larger then y l j else x l j) else bif larger then x l j else y l j),
      if (x l j).isSnan = true ∨ (y l j).isSnan = true then fNv else 0)
    pickVec larger o s = .next (t.floatDone c o.g o.d o.fmt .rne (fun l => ofElements o.fmt fun j => (r l j).1)
      fun l => (List.range (elemCount o.fmt)).foldl (fun fl j => fl ||| (r l j).2) 0) := by
  intro x y r
  exact h.joinElements_eq (r := r) fun l j => FSpec.pick_eq ..

theorem RoundReady.signVec_eq (h : RoundReady s c o.g o.d o.fmt (o.vecSrcs o.fmt o.fmt o.fmt) .rne u n t) (sign : Bool → Bool → Bool) :
    let x := c.floatIn o.fmt o.a
    let code (v : Src) (l j : Nat) : Nat := element o.fmt (c.vec o.fmt v l) j
    let top (v : Src) (l j : Nat) : Bool := (code v l j).testBit (fspec o.fmt).magBits
    let r (l j : Nat) : Nat × BitVec 5 := if (x l j).isNan then ((fspec o.fmt).nanCode, if (x l j).isSnan then fNv else 0)
      else ((fspec o.fmt).signed (sign (top o.a l j) (top o.b l j))
        (if (x l j).isZero then 0 else code o.a l j % 2 ^ (fspec o.fmt).magBits), 0)
    signVec o s sign = .next (t.floatDone c o.g o.d o.fmt .rne (fun l => ofElements o.fmt fun j => (r l j).1)
      fun l => (List.range (elemCount o.fmt)).foldl (fun fl j => fl ||| (r l j).2) 0) := by
  intro x code top r
  exact h.joinElements_eq (r := r) fun l j => sign_cases ..

theorem LaneReady.exec_fcmp (h : LaneReady s c o.g o.d o.fmt [(.vec o.fmt, o.a), (.vec o.fmt, o.b)] t) (k : FCond) :
    let v (y : Src) (l : Nat) : FVal := (fspec o.fmt).input c.la.flush (element o.fmt (c.vec o.fmt y l) 0)
    let r := predicateResult c.w o.d (c.act o.g) (maskOf fun l => (fcondHolds k (v o.a l) (v o.b l)).1)
    exec (.fcmp k o) s = .next (t.complete c (r.1.orFlags (c.act o.g) fun l => (fcondHolds k (v o.a l) (v o.b l)).2) r.2) := by
  refine run_ok h.issues ?_
  simp only [bind, Except.bind, h.checks, h.compare]
  rfl

theorem vectorResult_flags (w : Warp) (d : Dst) (f : Fmt) (m : LaneMask) (x : Nat → Word) : (vectorResult w d f m x).1.flags = w.flags := by
  unfold vectorResult
  dsimp only
  split
  · rw [Warp.putVec_eq]
  · rfl

theorem Warp.clearFlags_flag (w : Warp) (m : LaneMask) (f : Nat → BitVec 5) {l : Nat} (hl : l < 32) :
    (w.clearFlags m f).flag l = if m.getLsbD l then w.flag l &&& ~~~(f l) else w.flag l :=
  nth_laneIndices_map (fun l => if m.getLsbD l then w.flag l &&& ~~~(f l) else w.flag l) 0 hl

theorem LaneReady.exec_fclassFl (h : LaneReady s c o.g o.d .i32 [(.vec .i32, o.a)] t) :
    let r := vectorResult c.w o.d .i32 (c.act o.g) fun l => if c.w.present.getLsbD l then (c.w.flag l).zeroExtend 64 else 0
    exec (.fclassFl o) s = .next (t.complete c (r.1.clearFlags (c.act o.g) fun l => (c.vec .i32 o.a l).extractLsb' 0 5) r.2) := by
  refine run_ok h.issues ?_
  simp only [bind, Except.bind, h.checks, h.compare]
  rfl

end ready

/-! ### Estimates (R237, R238) -/

section estimates

/-- The root found bit by bit: what stands so far is not too large, and with the bits to come it is. -/
theorem isqrt_go_spec (n k r : Nat) (hlo : r * r ≤ n) (hhi : n < (r + 2 ^ k) * (r + 2 ^ k)) :
    isqrt.go n k r * isqrt.go n k r ≤ n ∧ n < (isqrt.go n k r + 1) * (isqrt.go n k r + 1) := by
  induction k generalizing r with
  | zero => exact ⟨hlo, hhi⟩
  | succ k ih =>
    rw [isqrt.go]
    split
    · next ht => exact ih _ ht (by rwa [add_assoc, ← Nat.two_mul, ← pow_succ'])
    · next ht => exact ih _ hlo (Nat.not_le.1 ht)

theorem isqrt_spec (n : Nat) : isqrt n * isqrt n ≤ n ∧ n < (isqrt n + 1) * (isqrt n + 1) := by
  refine isqrt_go_spec n _ 0 (Nat.zero_le n) ?_
  rw [Nat.zero_add, ← pow_add]
  exact Nat.lt_log2_self.trans_le (Nat.pow_le_pow_right (by norm_num) (by omega))

theorem estimateIndex_eq {m : Nat} (hm : 0 < m) (q : Int) : estimateIndex m q = (q + Nat.log2 m, m * 128 / 2 ^ Nat.log2 m % 128) := by
  have hlo : 128 ≤ m * 128 / 2 ^ Nat.log2 m := by
    rw [Nat.le_div_iff_mul_le (by positivity), Nat.mul_comm]
    exact Nat.mul_le_mul_right _ (Nat.log2_self_le hm.ne')
  have hhi : m * 128 / 2 ^ Nat.log2 m < 256 := by
    have := Nat.lt_log2_self (n := m)
    rw [Nat.div_lt_iff_lt_mul (by positivity)]
    omega
  have hmod : m * 128 / 2 ^ Nat.log2 m - 128 = m * 128 / 2 ^ Nat.log2 m % 128 := by
    generalize m * 128 / 2 ^ Nat.log2 m = i at hlo hhi
    omega
  exact congrArg (Prod.mk _) hmod

/-- A quotient rounded to the nearest integer, halves up. -/
theorem half_up (a : Nat) {d : Nat} (hd : 0 < d) : (2 * a / d + 1) / 2 = (2 * a + d) / (2 * d) := by
  rw [← Nat.add_div_right _ hd, Nat.div_div_eq_div_mul, Nat.mul_comm d]

/-- A root rounded to the nearest integer. -/
theorem nearest_root (a : Nat) {d : Nat} (hd : 0 < d) :
    (2 * ((isqrt (a / d) + 1) / 2) - 1) ^ 2 * d ≤ a ∧ a < (2 * ((isqrt (a / d) + 1) / 2) + 1) ^ 2 * d := by
  obtain ⟨hlo, hhi⟩ := isqrt_spec (a / d)
  rw [← sq, Nat.le_div_iff_mul_le hd] at hlo
  rw [← sq, Nat.div_lt_iff_lt_mul hd] at hhi
  constructor
  · refine le_trans ?_ hlo
    gcongr
    omega
  · refine hhi.trans_le ?_
    gcongr
    omega

variable (f : FSpec) (flush neg : Bool) {m : Nat} (q : Int)

theorem rcpOf_fin (hm : 0 < m) :
    let e : Int := q + Nat.log2 m
    let i : Nat := m * 128 / 2 ^ Nat.log2 m % 128
    rcpOf f flush (.fin neg m q) =
      f.round ⟨.rne, 0, false, flush⟩ (.val neg (.rat ((2 * 2 ^ 25 + (257 + 2 * i)) / (2 * (257 + 2 * i))) 1 (-e - 17))) := by
  intro e i
  rw [← half_up _ (by omega)]
  simp only [rcpOf, if_neg hm.ne', estimateIndex_eq hm]
  rfl

theorem rsqOf_fin (hm : 0 < m) :
    let e : Int := q + Nat.log2 m
    let i : Nat := m * 128 / 2 ^ Nat.log2 m % 128
    ∃ k : Nat, rsqOf f (.fin false m q) = f.round rneOf (.val false (.rat k 1 (-(e - e % 2) / 2 - 17)))
      ∧ (2 * k - 1) ^ 2 * (257 + 2 * i) ≤ 4 * 2 ^ (42 - (e % 2).toNat) ∧ 4 * 2 ^ (42 - (e % 2).toNat) < (2 * k + 1) ^ 2 * (257 + 2 * i) := by
  intro e i
  refine ⟨(isqrt (4 * 2 ^ (42 - (e % 2).toNat) / (257 + 2 * i)) + 1) / 2, ?_, nearest_root _ (by omega)⟩
  simp only [rsqOf, if_neg hm.ne', estimateIndex_eq hm]
  rfl

theorem rsqOf_negative (hm : 0 < m) : rsqOf f (.fin true m q) = (f.nanCode, fNv) := by simp [rsqOf, hm.ne']

end estimates

/-- Settles O24: each instruction by the result of its element, the order of values, and the estimates. -/
theorem floatCompareSignAndEstimates : Obligations.FloatCompareSignAndEstimates := by
  unfold Obligations.FloatCompareSignAndEstimates
  refine ⟨⟨fun s u t c o n h => ?elements, fun s t c o k h => ?fcmp, fun a b ha hb => ?order, fun s u t c o n h => ?fclass,
    fun s t c o h => ?flags⟩, fun s u t c o n h => ?estimates, fun f flush neg m q hm => ?finite, fun f flush neg sig q inf hinf => ?special⟩
  case elements =>
    intro f x v done snan other signed sign
    change execFmin o s = _ ∧ execFmax o s = _ ∧ execFabs o s = _ ∧ execFneg o s = _ ∧ execFcsgn o s = _
    exact ⟨h.pickVec_eq false, h.pickVec_eq true, h.signVec_eq fun _ _ => false, h.signVec_eq fun a _ => !a, h.signVec_eq fun _ b => b⟩
  case fcmp =>
    intro v un zeros le ge holds quiet flags
    rw [h.exec_fcmp k]
    simp only [fcondHolds_eq]
    rfl
  case order =>
    intro val
    refine ⟨fun ha' hb' => ?_, FVal.lessEq_of_ends ha hb⟩
    obtain ⟨neg, m, e, rfl⟩ := FVal.Finite.eq_fin ⟨ha, ha'⟩
    obtain ⟨neg', m', e', rfl⟩ := FVal.Finite.eq_fin ⟨hb, hb'⟩
    rw [FVal.lessEq_fin, ← FVal.isZero_fin_iff neg m e]
    simp only [FVal.value, signedValue_eq_sign_mul]
    rfl
  case fclass =>
    change ∃ r, execFclass o s = _ ∧ _
    exact ⟨fun l j => (fspec o.fmt).classOf c.la.flush (element o.fmt (c.vec o.fmt o.a l) j), h.laneWise_eq _, fun l j => FSpec.classOf_eq ..⟩
  case flags =>
    intro r
    refine ⟨_, h.exec_fclassFl, rfl, fun l hl => ?_⟩
    rw [Warp.clearFlags_flag _ _ _ hl, Warp.flag, vectorResult_flags]
    rfl
  case estimates =>
    intro f v done
    change execFrcp o s = _ ∧ execFrsq o s = _
    exact ⟨h.laneWise_eq _, h.laneWise_eq _⟩
  case finite =>
    refine ⟨rcpOf_fin f flush neg q hm, ?_, ?_⟩
    · rintro rfl
      exact rsqOf_fin f q hm
    · rintro rfl
      exact rsqOf_negative f q hm
  case special =>
    refine ⟨?_, rfl, rfl, ?_, rfl, rfl, rfl⟩ <;> simp [rcpOf, rsqOf, hinf]

end Sys2Proof.Machine
end
